-- ==== Sys2Proof/Word.lean ====
section
/-! DEFINITION. The word types of the D9 and the type of its sparse maps. -/

namespace Sys2Proof

/-- A byte of memory, of a stash or of a Kaolin slot. -/
abbrev Byte := BitVec 8

/-- A 32-bit word: a vector register, a word of a reservoir register. -/
abbrev W32 := BitVec 32

/-- A 64-bit word: a uniform register, a pointer, a clause header, an instruction word. -/
abbrev W64 := BitVec 64

/-- A finite map from numbers, held as the list of its entries with strictly rising keys.
What an absent key means is said where a field of this type is declared. -/
abbrev Sparse (α : Type) := List (Nat × α)

end Sys2Proof
end

