-- ==== Sys2Proof/Syntax.lean ====
section
/-! DEFINITION. The syntax of the D9's steps: the payload formats of R84 to R96 as structures of
fields, and `Instr`, one constructor for each row of the table of operations and events.
A row that is an instruction carries its guard and its payload; a row that is an event of the
hardware, of Loam or of the world outside carries the arguments that name what it acts on. -/

namespace Sys2Proof

/-- The guard of an instruction word, R79: GP in [55:52] and GS in [51]. -/
structure Guard where
  gp : BitVec 4
  gs : BitVec 1
  deriving DecidableEq, Repr

/-- The RRR payload, R84. -/
structure RRR where
  d : BitVec 8
  a : BitVec 8
  b : BitVec 8
  c : BitVec 8
  usrc : BitVec 3
  ty : BitVec 5
  rnd : BitVec 3
  opx : BitVec 8
  deriving DecidableEq, Repr

/-- The RK payload, R86. -/
structure RK where
  d : BitVec 8
  a : BitVec 8
  c : BitVec 8
  win : BitVec 3
  woff : BitVec 17
  ty : BitVec 5
  rnd : BitVec 2
  deriving DecidableEq, Repr

/-- The RI payload, R88. -/
structure RI where
  d : BitVec 8
  a : BitVec 8
  imm : BitVec 32
  ity : BitVec 3
  deriving DecidableEq, Repr

/-- The MEM payload, R89. -/
structure MEM where
  data : BitVec 8
  idx : BitVec 8
  buf : BitVec 5
  scope : BitVec 3
  ord : BitVec 4
  ty : BitVec 5
  off : BitVec 8
  cache : BitVec 2
  mopx : BitVec 8
  deriving DecidableEq, Repr

/-- The MX payload, R90. -/
structure MX where
  acc : BitVec 3
  tile : BitVec 4
  quad : BitVec 2
  va : BitVec 8
  gs : BitVec 7
  aty : BitVec 5
  nslab : BitVec 8
  mxopx : BitVec 14
  deriving DecidableEq, Repr

/-- The CP payload, R91. -/
structure CP where
  trec : BitVec 5
  gsa : BitVec 7
  gba : BitVec 7
  cmask : BitVec 16
  scope : BitVec 3
  cpopx : BitVec 13
  deriving DecidableEq, Repr

/-- The BR/CT payload, R92. -/
structure BR where
  va : BitVec 8
  vb : BitVec 8
  disp : BitVec 32
  ctopx : BitVec 3
  deriving DecidableEq, Repr

/-- The SY payload, R93. -/
structure SY where
  va : BitVec 8
  vb : BitVec 8
  pd : BitVec 4
  scope : BitVec 3
  cond : BitVec 2
  syimm : BitVec 23
  sub : BitVec 3
  deriving DecidableEq, Repr

/-- The RT payload, R94. -/
structure RT where
  qd : BitVec 3
  qs : BitVec 3
  va : BitVec 8
  vb : BitVec 8
  vc : BitVec 8
  pd : BitVec 4
  rtimm : BitVec 14
  sub : BitVec 3
  deriving DecidableEq, Repr

/-- The GX payload, R95. -/
structure GX where
  vd : BitVec 8
  va : BitVec 8
  vb : BitVec 8
  desc : BitVec 5
  pd : BitVec 4
  gxopx : BitVec 18
  deriving DecidableEq, Repr

/-- The SYS payload, R96. -/
structure SYS where
  va : BitVec 8
  vb : BitVec 8
  ga : BitVec 7
  code : BitVec 16
  sysopx : BitVec 12
  deriving DecidableEq, Repr

/-- The kind of access for which the walker walks (ACC of R333). -/
inductive WalkAcc where
  | read | write | readWrite | fetch
  deriving DecidableEq, Repr

/-- The rail meters of R461. -/
inductive Meter where
  | core (c : Nat) | cluster (n : Nat) | uncore | loam
  deriving DecidableEq, Repr

/-- The supervised rails of R484. -/
inductive Rail where
  | vin | vaux | vref
  deriving DecidableEq, Repr

/-- An image offer of R475 as it arrives on a fabric port: the port and the manifest. -/
structure Offer where
  port : Nat
  length : Nat
  digest : List (BitVec 8)
  sig : List (BitVec 8)
  deriving DecidableEq, Repr

/-- An access of a Loam core to D9 memory, R307: a load, a store, an atomic memory operation
(operation and type coded as in R168) or a fence. -/
inductive LoamAccess where
  | load (pa len : Nat)
  | store (pa : Nat) (data : List (BitVec 8))
  | amo (pa : Nat) (op : BitVec 4) (ty : BitVec 5) (x y : BitVec 64)
  | fence
  deriving DecidableEq, Repr

/-- What a host's read names: the offset in BAR4 (R481), and whether the request carries the No Snoop attribute (R308, R480). -/
structure HostAddr where
  offset : Nat
  noSnoop : Bool
  deriving DecidableEq, Repr

/-- Where an error arises, one constructor for each store of R465. `corrected` is a corrected
error of the numbered store class (the row of the table of R465, from 0). -/
inductive ErrorSite where
  | vreg (wave slot reg : Nat)
  | greg (wave reg half : Nat)
  | qreg (wave slot q word : Nat)
  | control (wave : Nat)
  | operandBuffer (core : Nat)
  | icacheLine (core line : Nat)
  | ccacheLine (core line : Nat)
  | stash (launch gang byte : Nat)
  | accum (wave acc elem : Nat)
  | kaolin (launch gang byte : Nat)
  | translation (core : Nat)
  | llcData (pa : Nat)
  | llcTags
  | memory (pa : Nat)
  | corrected (store : Nat)
  deriving DecidableEq, Repr

/-- The steps of the D9: one constructor for each row of the table of operations and events. -/
inductive Instr where
  /-- IADD, R119. Adds two registers per fibre, wrapping or saturating (RRR form). -/
  | iadd (g : Guard) (x : RRR)
  /-- ISUB, R119. Subtracts B from A per fibre (RRR form). -/
  | isub (g : Guard) (x : RRR)
  /-- IMUL, R119. Multiplies A by B modulo 2^w (RRR form). -/
  | imul (g : Guard) (x : RRR)
  /-- IMULHI, R119. Writes the high w bits of the extended product. -/
  | imulhi (g : Guard) (x : RRR)
  /-- IMAD, R119. Computes A times B plus C modulo 2^w (RRR form). -/
  | imad (g : Guard) (x : RRR)
  /-- IMADW, R119. Computes a 64-bit wide multiply-add into a pair. -/
  | imadw (g : Guard) (x : RRR)
  /-- IDIV, R121. Divides toward zero, with defined results for zero divisor and overflow. -/
  | idiv (g : Guard) (x : RRR)
  /-- IREM, R121. Gives the remainder with the sign of A, never trapping. -/
  | irem (g : Guard) (x : RRR)
  /-- IMIN, R119. Writes the smaller operand by the type's order. -/
  | imin (g : Guard) (x : RRR)
  /-- IMAX, R119. Writes the larger operand by the type's order. -/
  | imax (g : Guard) (x : RRR)
  /-- IABS, R120. Writes the absolute value, optionally saturating. -/
  | iabs (g : Guard) (x : RRR)
  /-- INEG, R120. Writes the negation, optionally saturating. -/
  | ineg (g : Guard) (x : RRR)
  /-- ADDC, R122. Adds with carry in and carry out through predicates. -/
  | addc (g : Guard) (x : RRR)
  /-- SUBB, R122. Subtracts with borrow in and borrow out through predicates. -/
  | subb (g : Guard) (x : RRR)
  /-- LEA, R123. Forms a 64-bit address from a base pair and a shifted index. -/
  | lea (g : Guard) (x : RRR)
  /-- AND, R119. Bitwise and of two registers (RRR form). -/
  | andB (g : Guard) (x : RRR)
  /-- OR, R119. Bitwise or of two registers (RRR form). -/
  | orB (g : Guard) (x : RRR)
  /-- XOR, R119. Bitwise exclusive-or of two registers (RRR form). -/
  | xorB (g : Guard) (x : RRR)
  /-- NOT, R119. Bitwise complement. -/
  | notB (g : Guard) (x : RRR)
  /-- SHL, R124. Shifts left by a count from B (RRR form). -/
  | shl (g : Guard) (x : RRR)
  /-- SHR, R124. Shifts right logically (RRR form). -/
  | shr (g : Guard) (x : RRR)
  /-- SAR, R124. Shifts right arithmetically (RRR form). -/
  | sar (g : Guard) (x : RRR)
  /-- ROT, R124. Rotates left by k mod w. -/
  | rot (g : Guard) (x : RRR)
  /-- POPC, R125. Counts the one bits of A. -/
  | popc (g : Guard) (x : RRR)
  /-- CLZ, R125. Counts leading zeros of A. -/
  | clz (g : Guard) (x : RRR)
  /-- BREV, R125. Reverses the bits of A. -/
  | brev (g : Guard) (x : RRR)
  /-- BFX, R125. Extracts a bit field, sign- or zero-extended. -/
  | bfx (g : Guard) (x : RRR)
  /-- BFI, R125. Inserts a bit field of B into A. -/
  | bfi (g : Guard) (x : RRR)
  /-- ICMP, R126. Integer compare into a predicate, optionally combined (RRR form). -/
  | icmp (g : Guard) (x : RRR)
  /-- FCMP, R126. Float compare into a predicate, optionally combined (RRR form). -/
  | fcmp (g : Guard) (x : RRR)
  /-- SEL, R127. Selects A or B by a predicate. -/
  | sel (g : Guard) (x : RRR)
  /-- PSET, R128. Sets a predicate to whether a register is nonzero. -/
  | pset (g : Guard) (x : RRR)
  /-- PSET_SAVE, R128. Copies the predicate word into a register. -/
  | psetSave (g : Guard) (x : RRR)
  /-- PSET_LOAD, R128. Loads masked predicate bits from a register. -/
  | psetLoad (g : Guard) (x : RRR)
  /-- PLOP, R129. Computes any function of three predicates by a lookup table. -/
  | plop (g : Guard) (x : RRR)
  /-- FADD, R130. Float addition rounded once (RRR form). -/
  | fadd (g : Guard) (x : RRR)
  /-- FSUB, R130. Float subtraction rounded once. -/
  | fsub (g : Guard) (x : RRR)
  /-- FMUL, R130. Float multiplication rounded once (RRR form). -/
  | fmul (g : Guard) (x : RRR)
  /-- FFMA, R130. Fused multiply-add with one rounding (RRR form). -/
  | ffma (g : Guard) (x : RRR)
  /-- FMIN, R133. Returns the smaller operand with NaN and signed-zero rules. -/
  | fmin (g : Guard) (x : RRR)
  /-- FMAX, R133. Returns the larger operand with NaN and signed-zero rules. -/
  | fmax (g : Guard) (x : RRR)
  /-- FRCP, R132. Reciprocal rounded once. -/
  | frcp (g : Guard) (x : RRR)
  /-- FRSQ, R132. Reciprocal square root rounded once. -/
  | frsq (g : Guard) (x : RRR)
  /-- FSQRT, R132. Square root rounded once. -/
  | fsqrt (g : Guard) (x : RRR)
  /-- FDIV, R130. Float division rounded once. -/
  | fdiv (g : Guard) (x : RRR)
  /-- FEX2, R132. Computes 2 to the power A, rounded once. -/
  | fex2 (g : Guard) (x : RRR)
  /-- FLG2, R132. Computes log2 A, rounded once. -/
  | flg2 (g : Guard) (x : RRR)
  /-- FSIN, R132. Computes sin(pi A), rounded once. -/
  | fsin (g : Guard) (x : RRR)
  /-- FCOS, R132. Computes cos(pi A), rounded once. -/
  | fcos (g : Guard) (x : RRR)
  /-- FRND, R134. Rounds to an integral value in the same format. -/
  | frnd (g : Guard) (x : RRR)
  /-- FCLASS, R135. Writes a one-hot class mask of a float. -/
  | fclass (g : Guard) (x : RRR)
  /-- DADD, R130. f64 addition on pairs. -/
  | dadd (g : Guard) (x : RRR)
  /-- DMUL, R130. f64 multiplication on pairs. -/
  | dmul (g : Guard) (x : RRR)
  /-- DFMA, R130. f64 fused multiply-add on pairs. -/
  | dfma (g : Guard) (x : RRR)
  /-- DDIV, R130. f64 division on pairs. -/
  | ddiv (g : Guard) (x : RRR)
  /-- HADD2, R136. Packed f16 addition of two elements. -/
  | hadd2 (g : Guard) (x : RRR)
  /-- HMUL2, R136. Packed f16 multiplication of two elements. -/
  | hmul2 (g : Guard) (x : RRR)
  /-- HFMA2, R136. Packed f16 fused multiply-add. -/
  | hfma2 (g : Guard) (x : RRR)
  /-- BFMA2, R136. Packed bf16 fused multiply-add. -/
  | bfma2 (g : Guard) (x : RRR)
  /-- CVT, R137. Converts between any two types by the conversion table. -/
  | cvt (g : Guard) (x : RRR)
  /-- F8PK, R138. Converts two f32 values to eight-bit floats and packs them into a word. -/
  | f8pk (g : Guard) (x : RRR)
  /-- F8UPK, R138. Unpacks four eight-bit floats to f16 or bf16. -/
  | f8upk (g : Guard) (x : RRR)
  /-- MOV, R139. Copies a vector or uniform register. -/
  | mov (g : Guard) (x : RRR)
  /-- MOVI, R139. Writes a widened immediate. -/
  | movi (g : Guard) (x : RI)
  /-- MOVK, R139. Writes a constant-window value. -/
  | movk (g : Guard) (x : RK)
  /-- MOVG, R140. Reads a uniform register chosen per fibre, trapping per fibre out of range. -/
  | movg (g : Guard) (x : RRR)
  /-- VTOG, R141. Copies the lowest passing fibre's value into a uniform register. -/
  | vtog (g : Guard) (x : RRR)
  /-- RDSR, R142. Reads a special register. -/
  | rdsr (g : Guard) (x : RRR)
  /-- WRSR, R142. Writes the draw counter. -/
  | wrsr (g : Guard) (x : RRR)
  /-- STAGE, R143. Sets the fibre's staged register set. -/
  | stage (g : Guard) (x : RRR)
  /-- SHFL, R149. Reads a register from another slot of the wave by index, up, down or xor. -/
  | shfl (g : Guard) (x : RRR)
  /-- VOTE, R150. Any, all, ballot or equality vote of a predicate over the participants. -/
  | vote (g : Guard) (x : RRR)
  /-- LRED, R151. Reduces a register over the participants in slot order. -/
  | lred (g : Guard) (x : RRR)
  /-- LSCAN, R152. Inclusive or exclusive prefix over the participants. -/
  | lscan (g : Guard) (x : RRR)
  /-- LFIND, R153. Groups participants by equal value and marks leaders. -/
  | lfind (g : Guard) (x : RRR)
  /-- IADD_RK, R119. iadd with a constant-window operand. -/
  | iaddRk (g : Guard) (x : RK)
  /-- ISUB_RK, R119. isub with a constant-window operand. -/
  | isubRk (g : Guard) (x : RK)
  /-- IMUL_RK, R119. imul with a constant-window operand. -/
  | imulRk (g : Guard) (x : RK)
  /-- IMAD_RK, R119. imad with a constant-window operand. -/
  | imadRk (g : Guard) (x : RK)
  /-- AND_RK, R119. and with a constant-window operand. -/
  | andRk (g : Guard) (x : RK)
  /-- OR_RK, R119. or with a constant-window operand. -/
  | orRk (g : Guard) (x : RK)
  /-- XOR_RK, R119. xor with a constant-window operand. -/
  | xorRk (g : Guard) (x : RK)
  /-- ICMP_RK, R126. icmp with a constant-window operand. -/
  | icmpRk (g : Guard) (x : RK)
  /-- FADD_RK, R130. fadd with a constant-window operand. -/
  | faddRk (g : Guard) (x : RK)
  /-- FMUL_RK, R130. fmul with a constant-window operand. -/
  | fmulRk (g : Guard) (x : RK)
  /-- FFMA_RK, R130. ffma with a constant-window operand. -/
  | ffmaRk (g : Guard) (x : RK)
  /-- FCMP_RK, R126. fcmp with a constant-window operand. -/
  | fcmpRk (g : Guard) (x : RK)
  /-- IADD_RI, R119. iadd with an immediate. -/
  | iaddRi (g : Guard) (x : RI)
  /-- IMUL_RI, R119. imul with an immediate. -/
  | imulRi (g : Guard) (x : RI)
  /-- AND_RI, R119. and with an immediate. -/
  | andRi (g : Guard) (x : RI)
  /-- OR_RI, R119. or with an immediate. -/
  | orRi (g : Guard) (x : RI)
  /-- XOR_RI, R119. xor with an immediate. -/
  | xorRi (g : Guard) (x : RI)
  /-- SHL_RI, R124. shl by an immediate count. -/
  | shlRi (g : Guard) (x : RI)
  /-- SHR_RI, R124. shr by an immediate count. -/
  | shrRi (g : Guard) (x : RI)
  /-- SAR_RI, R124. sar by an immediate count. -/
  | sarRi (g : Guard) (x : RI)
  /-- ICMP_RI, R126. icmp against an immediate. -/
  | icmpRi (g : Guard) (x : RI)
  /-- FADD_RI, R130. fadd with an f32 immediate, rounding to nearest. -/
  | faddRi (g : Guard) (x : RI)
  /-- FMUL_RI, R130. fmul with an f32 immediate, rounding to nearest. -/
  | fmulRi (g : Guard) (x : RI)
  /-- GADD, R144. Uniform addition, once per bundle (RRR form). -/
  | gadd (g : Guard) (x : RRR)
  /-- GSUB, R144. Uniform subtraction. -/
  | gsub (g : Guard) (x : RRR)
  /-- GMUL, R144. Uniform multiplication, low w bits. -/
  | gmul (g : Guard) (x : RRR)
  /-- GMIN, R144. Uniform minimum. -/
  | gmin (g : Guard) (x : RRR)
  /-- GAND, R144. Uniform bitwise and (RRR form). -/
  | gand (g : Guard) (x : RRR)
  /-- GOR, R144. Uniform bitwise or (RRR form). -/
  | gor (g : Guard) (x : RRR)
  /-- GXOR, R144. Uniform bitwise xor (RRR form). -/
  | gxor (g : Guard) (x : RRR)
  /-- GSHL, R144. Uniform shift left (RRR form). -/
  | gshl (g : Guard) (x : RRR)
  /-- GSHR, R144. Uniform shift right, arithmetic or logical by type (RRR form). -/
  | gshr (g : Guard) (x : RRR)
  /-- GCMP, R145. Uniform compare writing 1 or 0 to a uniform register (RRR form). -/
  | gcmp (g : Guard) (x : RRR)
  /-- GSEL, R145. Uniform select on a nonzero condition register. -/
  | gsel (g : Guard) (x : RRR)
  /-- GMOV, R144. Uniform move (RRR form). -/
  | gmov (g : Guard) (x : RRR)
  /-- GLEA, R144. Uniform address formation as lea. -/
  | glea (g : Guard) (x : RRR)
  /-- GADD_RI, R144. Uniform addition with an immediate. -/
  | gaddRi (g : Guard) (x : RI)
  /-- GAND_RI, R144. Uniform and with an immediate. -/
  | gandRi (g : Guard) (x : RI)
  /-- GOR_RI, R144. Uniform or with an immediate. -/
  | gorRi (g : Guard) (x : RI)
  /-- GXOR_RI, R144. Uniform xor with an immediate. -/
  | gxorRi (g : Guard) (x : RI)
  /-- GSHL_RI, R144. Uniform shift left by an immediate. -/
  | gshlRi (g : Guard) (x : RI)
  /-- GSHR_RI, R144. Uniform shift right by an immediate. -/
  | gshrRi (g : Guard) (x : RI)
  /-- GCMP_RI, R145. Uniform compare against an immediate. -/
  | gcmpRi (g : Guard) (x : RI)
  /-- GMOV_RI, R144. Uniform move of an immediate. -/
  | gmovRi (g : Guard) (x : RI)
  /-- GADD_RK, R144. Uniform addition with a constant-window operand. -/
  | gaddRk (g : Guard) (x : RK)
  /-- GCMP_RK, R145. Uniform compare against a constant-window operand. -/
  | gcmpRk (g : Guard) (x : RK)
  /-- GMOV_RK, R144. Uniform move of a constant-window value. -/
  | gmovRk (g : Guard) (x : RK)
  /-- GLD, R146. Loads a four-register uniform record from a constant window, long-latency. -/
  | gld (g : Guard) (x : RK)
  /-- LD, R163. Loads values from global memory through a buffer record. -/
  | ld (g : Guard) (x : MEM)
  /-- ST, R163. Stores values to global memory through a buffer record. -/
  | st (g : Guard) (x : MEM)
  /-- LDS, R164. Loads from the gang's stash. -/
  | lds (g : Guard) (x : MEM)
  /-- STS, R164. Stores to the gang's stash. -/
  | sts (g : Guard) (x : MEM)
  /-- LDK, R167. Loads through the non-coherent constant cache. -/
  | ldk (g : Guard) (x : MEM)
  /-- LDX, R165. Cross-context load selecting the cell of a named tag. -/
  | ldx (g : Guard) (x : MEM)
  /-- ATOM, R168. Read-modify-write returning the old value. -/
  | atom (g : Guard) (x : MEM)
  /-- RED, R168. Read-modify-write reduction returning nothing. -/
  | redI (g : Guard) (x : MEM)
  /-- FENCE, R173. Orders the fibre's accesses as an acquire, release or both. -/
  | fence (g : Guard) (x : MEM)
  /-- CFLUSH, R174. Writes dirty lines back to memory for non-snooping observers. -/
  | cflush (g : Guard) (x : MEM)
  /-- CINV_K, R176. Drops each fibre's line from the constant cache. -/
  | cinvK (g : Guard) (x : MEM)
  /-- CINV_KALL, R176. Drops the whole constant cache of the core. -/
  | cinvKall (g : Guard) (x : MEM)
  /-- CINV_L1, R176. Drops each fibre's clean line from L1. -/
  | cinvL1 (g : Guard) (x : MEM)
  /-- ICINV, R177. Invalidates the context's instruction-cache lines over a coverage. -/
  | icinv (g : Guard) (x : MEM)
  /-- PREF, R175. Prefetches lines into L1 or the LLC without trapping on most checks. -/
  | pref (g : Guard) (x : MEM)
  /-- SMAP, R179. Maps a stash window onto a global range. -/
  | smap (g : Guard) (x : MEM)
  /-- SMAP_UNMAP, R179. Writes back and frees a stash window. -/
  | smapUnmap (g : Guard) (x : MEM)
  /-- SWB, R181. Writes back dirty lines of one window. -/
  | swb (g : Guard) (x : MEM)
  /-- SWB_ALL, R181. Writes back dirty lines of every window of the gang. -/
  | swbAll (g : Guard) (x : MEM)
  /-- LDMC, R166. Multicast load merged at the home slice across masked cores. -/
  | ldmc (g : Guard) (x : MEM)
  /-- MCFG_BIND, R219. Binds a tile register to a base slot, format and sparse bit. -/
  | mcfgBind (g : Guard) (x : MX)
  /-- MCFG_UNBIND, R219. Unbinds a tile register. -/
  | mcfgUnbind (g : Guard) (x : MX)
  /-- MCFG_MODE, R219. Sets the wave's SPTRAP bit. -/
  | mcfgMode (g : Guard) (x : MX)
  /-- MLATCH, R220. Asks the MXE to preload a slot into a quadrant's shadow latch. -/
  | mlatch (g : Guard) (x : MX)
  /-- MMA, R221. Adds slabs of dense products into an accumulator from stash A rows. -/
  | mma (g : Guard) (x : MX)
  /-- MMAS, R221. Adds slabs of sparse products into an accumulator. -/
  | mmas (g : Guard) (x : MX)
  /-- MMAT, R221. Adds slabs of products from a depth-major A block. -/
  | mmat (g : Guard) (x : MX)
  /-- MDRAIN, R228. Converts accumulator rows with scales and writes them to the stash. -/
  | mdrain (g : Guard) (x : MX)
  /-- MZERO, R226. Clears an accumulator or pair and its status. -/
  | mzero (g : Guard) (x : MX)
  /-- MSTAT, R227. Reads and optionally clears an accumulator status. -/
  | mstat (g : Guard) (x : MX)
  /-- CPY, R234. Copies a tensor into the stash, crediting a barrier. -/
  | cpy (g : Guard) (x : CP)
  /-- CPYG, R234. Copies stash data into a global tensor. -/
  | cpyg (g : Guard) (x : CP)
  /-- CPYS, R234. Copies a tensor into the gang's Kaolin slots. -/
  | cpys (g : Guard) (x : CP)
  /-- CPYMC, R235. Multicast copy of a tensor into the stash of masked cores. -/
  | cpymc (g : Guard) (x : CP)
  /-- COLL, R237. Posts a member of a collective across cores or devices. -/
  | coll (g : Guard) (x : CP)
  /-- TREC, R232. Checks a tensor record and returns byte count and subcode. -/
  | trec (g : Guard) (x : CP)
  /-- BRA, R184. Branches to a displacement target per fibre. -/
  | bra (g : Guard) (x : BR)
  /-- BRX, R184. Branches to an absolute target in a pair. -/
  | brx (g : Guard) (x : BR)
  /-- BRX_REL, R184. Branches to a byte offset from the clause header. -/
  | brxRel (g : Guard) (x : BR)
  /-- CALL, R184. Calls a displacement target and writes the link pair. -/
  | call (g : Guard) (x : BR)
  /-- CALL_X, R184. Calls a target held in a pair and writes the link. -/
  | callX (g : Guard) (x : BR)
  /-- RET, R184. Returns to the address in a link pair. -/
  | ret (g : Guard) (x : BR)
  /-- FORK, R187. Creates a child fibre in an empty slot for each passing fibre. -/
  | fork (g : Guard) (x : BR)
  /-- EXIT, R188. Releases at .dev, gives up the tag holding and empties the slot. -/
  | exit (g : Guard) (x : BR)
  /-- YIELD, R185. Falls through and excludes the yielders' PC from the next choice. -/
  | yield (g : Guard) (x : BR)
  /-- NOP, R186. Does nothing for one issue clock. -/
  | nop (g : Guard) (x : BR)
  /-- LAUNCH, R189. Reads, checks and submits a child launch record per fibre. -/
  | launch (g : Guard) (x : BR)
  /-- BARINIT, R192. Initialises a barrier object in the stash. -/
  | barinit (g : Guard) (x : SY)
  /-- BARARR, R193. Records an arrival at a barrier object as a release, optionally expecting bytes. -/
  | bararr (g : Guard) (x : SY)
  /-- BAREXP, R194. Adds expected bytes to a barrier object's target. -/
  | barexp (g : Guard) (x : SY)
  /-- WAIT_PH, R196. Blocks the fibre until a barrier phase has ended. -/
  | waitPh (g : Guard) (x : SY)
  /-- WAIT_M, R197. Blocks the fibre on a monitored memory word with an optional limit. -/
  | waitM (g : Guard) (x : SY)
  /-- TRIGGER, R198. Releases at .dev and marks the workgroup triggered. -/
  | trigger (g : Guard) (x : SY)
  /-- GRIDWAIT, R198. Blocks until every producer grid has triggered, then acquires. -/
  | gridwait (g : Guard) (x : SY)
  /-- RSVCLR, R245. Clears a reservoir register. -/
  | rsvclr (g : Guard) (x : RT)
  /-- RSVUPD, R246. Offers a weighted candidate to a reservoir, taking one draw. -/
  | rsvupd (g : Guard) (x : RT)
  /-- RSVMRG, R247. Merges one reservoir into another, taking one draw. -/
  | rsvmrg (g : Guard) (x : RT)
  /-- RSVCAP, R248. Caps a reservoir's count from a register. -/
  | rsvcap (g : Guard) (x : RT)
  /-- RSVCAP_I, R248. Caps a reservoir's count by an immediate. -/
  | rsvcapI (g : Guard) (x : RT)
  /-- RSVFIN, R249. Writes the unbiased contribution weight of a reservoir. -/
  | rsvfin (g : Guard) (x : RT)
  /-- RSVLD, R251. Loads a reservoir from global memory. -/
  | rsvld (g : Guard) (x : RT)
  /-- RSVLD_S, R251. Loads a reservoir from the stash. -/
  | rsvldS (g : Guard) (x : RT)
  /-- RSVLD_X, R251. Loads a reservoir from the cell of a named tag. -/
  | rsvldX (g : Guard) (x : RT)
  /-- RSVST, R251. Stores a reservoir to global memory as one indivisible access. -/
  | rsvst (g : Guard) (x : RT)
  /-- RSVST_S, R251. Stores a reservoir to the stash. -/
  | rsvstS (g : Guard) (x : RT)
  /-- RSVDRAW, R250. Takes one draw and writes it as f32 or n32. -/
  | rsvdraw (g : Guard) (x : RT)
  /-- TAGNEW, R254. Allocates the lowest free tag, blocking when none is free. -/
  | tagnew (g : Guard) (x : RT)
  /-- TAGNEW_TRY, R254. Allocates a tag or reports failure without blocking. -/
  | tagnewTry (g : Guard) (x : RT)
  /-- TAGRET, R255. Moves a live tag to retiring. -/
  | tagret (g : Guard) (x : RT)
  /-- TAGSET, R256. Releases and moves the fibre's tag holding to another tag. -/
  | tagset (g : Guard) (x : RT)
  /-- TAGGET, R257. Reads the fibre's context tag. -/
  | tagget (g : Guard) (x : RT)
  /-- TAGGET_INFO, R257. Reads a tag's state and holder count. -/
  | taggetInfo (g : Guard) (x : RT)
  /-- TAGPUB, R258. Publishes every cell of a tag over its base pages. -/
  | tagpub (g : Guard) (x : RT)
  /-- TRACE, R266. Traces a new ray through an acceleration structure. -/
  | trace (g : Guard) (x : GX)
  /-- TRACE_REJ, R266. Continues a suspended traversal, rejecting the candidate. -/
  | traceRej (g : Guard) (x : GX)
  /-- TRACE_ACC, R266. Continues a suspended traversal, accepting the candidate. -/
  | traceAcc (g : Guard) (x : GX)
  /-- HRET, R268. Returns from a hit program, lowering the trace depth. -/
  | hret (g : Guard) (x : GX)
  /-- TRAQ, R269. Reads one field of the fibre's hit record. -/
  | traq (g : Guard) (x : GX)
  /-- RAST, R270. Writes coverage entries of a triangle over a screen tile. -/
  | rast (g : Guard) (x : GX)
  /-- TEX, R273. Samples a texture with gradients from the quad. -/
  | tex (g : Guard) (x : GX)
  /-- TEXL, R273. Samples a texture at an explicit level of detail. -/
  | texl (g : Guard) (x : GX)
  /-- TEXG, R273. Samples a texture with explicit gradients. -/
  | texg (g : Guard) (x : GX)
  /-- TEXRES, R276. Finds the finest resident level at a point. -/
  | texres (g : Guard) (x : GX)
  /-- TEXFB, R276. Records demanded level in the feedback map. -/
  | texfb (g : Guard) (x : GX)
  /-- BLEND, R278. Sends a fragment to the ROU for ordered blending. -/
  | blend (g : Guard) (x : GX)
  /-- RQPUSH, R281. Offers records to a record queue without blocking. -/
  | rqpush (g : Guard) (x : GX)
  /-- RQPOP, R281. Takes records from a record queue without blocking. -/
  | rqpop (g : Guard) (x : GX)
  /-- TRAP, R199. Raises a software trap with a code. -/
  | trapI (g : Guard) (x : SYS)
  /-- BRK, R199. Breakpoint: stops under a debugger or traps otherwise. -/
  | brk (g : Guard) (x : SYS)
  /-- TRET_RETRY, R200. Leaves the handler and resumes at the record's PC. -/
  | tretRetry (g : Guard) (x : SYS)
  /-- TRET_SKIP, R200. Leaves the handler and resumes after the record's PC. -/
  | tretSkip (g : Guard) (x : SYS)
  /-- TRET_KILLF, R202. Ends the fibre from the handler. -/
  | tretKillf (g : Guard) (x : SYS)
  /-- TRET_KILLG, R202. Ends the fibre and aborts its gang. -/
  | tretKillg (g : Guard) (x : SYS)
  /-- CAPINV, R204. Sends a capability request to the gate and service engine. -/
  | capinv (g : Guard) (x : SYS)
  /-- UPCALL, R205. Releases, posts a message to Loam and parks the wave. -/
  | upcall (g : Guard) (x : SYS)
  /-- RDCTR, R207. Reads a clock, issue or stall counter. -/
  | rdctr (g : Guard) (x : SYS)
  /-- UNASSIGNED_OPCODE, R99. Issue of an instruction word whose opcode or SUB is unassigned, or 0xFF fill, traps every fibre of the bundle as an illegal instruction. -/
  | unassignedOpcode (w : BitVec 64)
  /-- WAVE_CHOICE, R343. A wave with no open clause chooses a PC and forms its bundle. -/
  | waveChoice (wave : Nat)
  /-- CLAUSE_FETCH, R72. A clause header arrives from the instruction cache and is checked. -/
  | clauseFetch (wave : Nat)
  /-- CLAUSE_START, R76. A clause starts in the first clock its WAIT flags are clear. -/
  | clauseStart (wave : Nat)
  /-- GANG_ABORT_FIBRE_END, R432. A fibre of an aborted gang ends at its next clause boundary. -/
  | gangAbortFibreEnd (wave : Nat) (slot : Nat)
  /-- SPARSITY_TRAP, R225. Fibres of a suspended sparse operation take matrix subkind 0x05 at a clause boundary. -/
  | sparsityTrap (wave : Nat) (slot : Nat)
  /-- WAVE_END, R350. A wave with empty slots and no operations outstanding ends and frees its state. -/
  | waveEnd (wave : Nat)
  /-- GANG_RETIRE, R352. A gang retires when members and engine operations are done, unmapping windows and freeing space. -/
  | gangRetire (launch : Nat) (gang : Nat)
  /-- GRID_COMPLETE, R355. A grid completes when its workgroups and children are done. -/
  | gridComplete (launch : Nat)
  /-- COMPLETION_RECORD_WRITE, R400. The dispatch unit writes the completion record and DONE. -/
  | completionRecordWrite (launch : Nat)
  /-- LOAD_COMPLETE, R163. Load data returns to the registers and the flag count falls. -/
  | loadComplete (op : Nat)
  /-- STORE_COMPLETE, R163. A store's bytes are accepted by L1, the LLC or the Silt log. -/
  | storeComplete (op : Nat)
  /-- SILT_REPLAY, R171. A Silt log entry is replayed once its page is mapped. -/
  | siltReplay (core : Nat) (entry : Nat)
  /-- PAGE_WALK, R329. The walker resolves a translation miss and sets A and D by CAS. -/
  | pageWalk (core : Nat) (ctx : Nat) (va : Nat) (acc : WalkAcc)
  /-- DEMAND_REPORT, R333. A report is appended to the demand ring for Loam. -/
  | demandReport
  /-- CELL_MATERIALISE, R339. The home slice takes a Marl frame and copies the base into a new cell. -/
  | cellMaterialise (ctx : Nat) (vpn : Nat) (tag : Nat)
  /-- TAG_RETIRE_COMPLETE, R339. Slices free a retiring tag's cells and the tag becomes free. -/
  | tagRetireComplete (ctx : Nat) (tag : Nat)
  /-- TAGPUB_PAGE, R258. One page's cell of a published tag is written over its base and freed. -/
  | tagpubPage (op : Nat) (vpn : Nat)
  /-- MULTICAST_REQUEST, R166. A multicast line request arrives at its home slice and opens or joins a window. -/
  | multicastRequest (op : Nat) (line : Nat)
  /-- MULTICAST_WINDOW_CLOSE, R166. A window closes when all join or after 64 clocks, and the line is read once and sent. -/
  | multicastWindowClose (win : Nat)
  /-- WINDOW_LINE_FILL, R180. A stash window line is filled from its global range. -/
  | windowLineFill (launch : Nat) (gang : Nat) (win : Nat) (line : Nat)
  /-- FENCE_COMPLETE, R173. A fence's conditions are met and the fibre continues. -/
  | fenceComplete (wave : Nat) (slot : Nat)
  /-- WAIT_M_REREAD, R197. A monitored line is written or evicted and the fibre re-reads the word. -/
  | waitMReread (wave : Nat) (slot : Nat)
  /-- WAIT_M_TIMEOUT, R197. A wait.m limit passes and the fibre returns with pD 0. -/
  | waitMTimeout (wave : Nat) (slot : Nat)
  /-- MXE_QUEUE_ADMIT, R356. A wave's matrix queue head takes a free reservation-table entry. -/
  | mxeQueueAdmit (cluster : Nat)
  /-- MXE_GRANT, R358. The arbiter grants a quadrant pass or the accumulator port. -/
  | mxeGrant (cluster : Nat) (res : Nat)
  /-- MXE_PASS_COMMIT, R223. A slab pass commits its products to the accumulator. -/
  | mxePassCommit (cluster : Nat) (entry : Nat)
  /-- MLATCH_SERVICE, R220. The MXE loads or drops a requested shadow latch. -/
  | mlatchService (cluster : Nat) (entry : Nat)
  /-- DRAIN_COMPLETE, R228. A drain or zeroing finishes writing and completes. -/
  | drainComplete (cluster : Nat) (entry : Nat)
  /-- COPY_LINE_WRITE, R233. A copy engine writes one destination line and credits it. -/
  | copyLineWrite (op : Nat) (line : Nat)
  /-- COLLECTIVE_PERFORM, R238. The CLE performs a collective once all members have posted. -/
  | collectivePerform (ctx : Nat) (group : Nat) (seq : Nat)
  /-- CAPINV_COMPLETE, R204. A service result is written to the fibre with an acquire. -/
  | capinvComplete (req : Nat)
  /-- ALLOCATION_MAP, R440. The SEN backs a range with zeroed pages within quota. -/
  | allocationMap (req : Nat) (frames : List Nat)
  /-- ALLOCATION_UNMAP, R440. The SEN clears and invalidates leaves and frees frames. -/
  | allocationUnmap (req : Nat)
  /-- STORAGE_READ, R440. The SEN issues an NVMe Read into a pinned buffer. -/
  | storageRead (req : Nat)
  /-- STORAGE_WRITE, R440. The SEN issues an NVMe Write from a buffer. -/
  | storageWrite (req : Nat)
  /-- STORAGE_FLUSH, R440. The SEN issues an NVMe Flush. -/
  | storageFlush (req : Nat)
  /-- QUEUE_CREATE, R440. The SEN creates a record queue for the context. -/
  | queueCreate (req : Nat)
  /-- QUEUE_DESTROY, R440. The SEN destroys a record queue and discards its records. -/
  | queueDestroy (req : Nat)
  /-- NVME_COMPLETION, R442. An NVMe command completes, releasing pins or an orphan. -/
  | nvmeCompletion (req : Nat) (status : BitVec 32) (blocks : BitVec 32) (data : List (BitVec 8))
  /-- TRACE_COMPLETE, R267. A traversal ends and writes status, program and hit record. -/
  | traceComplete (op : Nat)
  /-- RAST_COMPLETE, R271. Coverage entries are written and count and cursor returned. -/
  | rastComplete (op : Nat)
  /-- TEXTURE_SAMPLE_COMPLETE, R275. A texture sample completes at the first resident level. -/
  | textureSampleComplete (op : Nat)
  /-- FRAGMENT_QUEUE, R379. A blend fragment reaches its tile's ROU queue or is discarded. -/
  | fragmentQueue (op : Nat)
  /-- FRAGMENT_APPLY, R379. Fragments of a closed group are applied in key order at a tile. -/
  | fragmentApply (oslot : Nat) (tile : Nat)
  /-- TILE_EVICT, R380. The ROU writes one tile, skipping it on a matching signature, and unloads it. -/
  | tileEvict (oslot : Nat) (tile : Nat)
  /-- RQ_PUSH, R364. A Loam read of rq.push appends its staging slot as a record. -/
  | rqPush (k : Nat) (q : Nat)
  /-- RQ_POP, R364. A Loam read of rq.pop moves the oldest record into its staging slot. -/
  | rqPop (k : Nat) (q : Nat)
  /-- RO_REGISTER, R378. Registers a render target in an order slot. -/
  | roRegister (k : Nat) (v : BitVec 64)
  /-- RO_OPEN_GROUP, R378. Opens a blend group with a key and tile rectangle. -/
  | roOpenGroup (k : Nat) (v : BitVec 64)
  /-- RO_CLOSE_GROUP, R378. Closes a blend group. -/
  | roCloseGroup (k : Nat) (v : BitVec 64)
  /-- RO_FLUSH, R380. Writes every loaded tile of the slot, keeping them loaded. -/
  | roFlush (k : Nat) (v : BitVec 64)
  /-- RO_RELEASE, R378. Flushes the slot, discards open groups and frees it. -/
  | roRelease (k : Nat) (v : BitVec 64)
  /-- TX_FENCE, R376. Write of GO waits for earlier texture instructions to complete. -/
  | txFence (v : BitVec 64)
  /-- XL_INV_PAGE, R331. Invalidation of kind 0 for one page of a context. -/
  | xlInvPage (k : Nat) (v : BitVec 64)
  /-- XL_INV_CONTEXT, R331. Invalidation of kind 1: every translation of a context. -/
  | xlInvContext (k : Nat) (v : BitVec 64)
  /-- XL_INV_REGION, R331. Invalidation of kind 2: the region cache of a context. -/
  | xlInvRegion (k : Nat) (v : BitVec 64)
  /-- XL_INV_ALL, R331. Invalidation of kind 3: every context. -/
  | xlInvAll (k : Nat) (v : BitVec 64)
  /-- XL_DONE_MAPPED, R334. Demand reply kind 0: waiting parties walk again. -/
  | xlDoneMapped (k : Nat) (v : BitVec 64)
  /-- XL_DONE_UNBACKED, R334. Demand reply kind 1: waiting parties fault or lose their access. -/
  | xlDoneUnbacked (k : Nat) (v : BitVec 64)
  /-- XL_DONE_POOL_REFILLED, R334. Demand reply kind 2: writes waiting on the Marl pool retry. -/
  | xlDonePoolRefilled (k : Nat) (v : BitVec 64)
  /-- XL_CMD_GROW_CELL_TABLE, R340. Moves a context's cell table into a larger one. -/
  | xlCmdGrowCellTable (k : Nat) (v : BitVec 64)
  /-- LQ_TAIL_WRITE, R395. Loam advances a launch queue's tail, with overrun handling. -/
  | lqTailWrite (q : Nat) (v : BitVec 64)
  /-- LQ_CFG_WRITE, R395. Writes a launch queue's configuration, discarding held entries. -/
  | lqCfgWrite (q : Nat) (v : BitVec 64)
  /-- LQ_ERR_WRITE, R395. Clears the discard count by write-one-to-clear. -/
  | lqErrWrite (q : Nat) (v : BitVec 64)
  /-- LAUNCH_ACCEPT, R396. The dispatch unit takes a queue entry, checks it and assigns a launch number. -/
  | launchAccept
  /-- GANG_PLACEMENT_STEP, R404. The dispatch unit places the best-ranked fitting candidate gang. -/
  | gangPlacementStep
  /-- GANG_SAVE_COMPLETE, R411. A gang's state is written to its save area and resources freed. -/
  | gangSaveComplete (launch : Nat) (gang : Nat)
  /-- RESTORE_COMPLETE, R416. A saved gang's state is written back and its fibres resume. -/
  | restoreComplete (launch : Nat) (gang : Nat)
  /-- GOVERNOR_SAMPLE, R406. Every 4,096 clocks the governor samples core temperatures. -/
  | governorSample (temps : List Nat) (power : Nat)
  /-- DP_CREATE_CONTEXT, R409. Dispatch command OP 1 creates a context. -/
  | dpCreateContext (k : Nat) (v : BitVec 64)
  /-- DP_DESTROY_CONTEXT, R409. Dispatch command OP 2 destroys a context. -/
  | dpDestroyContext (k : Nat) (v : BitVec 64)
  /-- DP_SAVE_GANG, R409. Dispatch command OP 3 saves and holds a gang. -/
  | dpSaveGang (k : Nat) (v : BitVec 64)
  /-- DP_RELEASE_GANG, R409. Dispatch command OP 4 makes a held gang a candidate. -/
  | dpReleaseGang (k : Nat) (v : BitVec 64)
  /-- DP_KILL_LAUNCH, R409. Dispatch command OP 5 kills a launch. -/
  | dpKillLaunch (k : Nat) (v : BitVec 64)
  /-- DP_BIND_PAGE, R409. Dispatch command OP 6 binds or unbinds a submission page. -/
  | dpBindPage (k : Nat) (v : BitVec 64)
  /-- SUBMISSION_WRITE, R398. A 128-byte deferrable memory write appends a record or is told to retry. -/
  | submissionWrite (page : Nat) (data : List (BitVec 8))
  /-- SUBMISSION_PAGE_DISCARD, R398. Any other write to a submission page is discarded and counted. -/
  | submissionPageDiscard (page : Nat)
  /-- HOST_BAR4_READ, R481. A host read through a bound or unbound BAR4 slot. -/
  | hostBar4Read (at' : HostAddr) (len : Nat)
  /-- HOST_BAR4_WRITE, R481. A host write through a BAR4 slot, discarded if unbound. -/
  | hostBar4Write (addr : Nat) (data : List (BitVec 8))
  /-- SUPERVISOR_EVENT, R436. A supervisor event is posted to the supervisor ring, waiting for room. -/
  | supervisorEvent
  /-- UPCALL_MESSAGE_POST, R437. An upcall message is posted to the mailbox ring when room exists. -/
  | upcallMessagePost (ctx : Nat)
  /-- UP_CMD_RESUME, R438. Loam's reply resumes a matching parked wave or is held for restore. -/
  | upCmdResume (k : Nat) (v : BitVec 64)
  /-- SM_CTL_WRITE, R453. A write to sm.ctl arms or disarms the core's sampler. -/
  | smCtlWrite (core : Nat) (v : BitVec 64)
  /-- SAMPLE, R454. At each period the sampler records one resident wave or drops it. -/
  | sample (core : Nat)
  /-- ENERGY_INTERVAL_END, R461. A meter interval ends and its energy is shared among launches. -/
  | energyIntervalEnd (meter : Meter) (energy : Nat)
  /-- DEBUG_EVENT, R457. A debug event is posted to the slot's event ring. -/
  | debugEvent (d : Nat)
  /-- DB_RESUME, R459. Debug command OP 1 resumes a stopped fibre. -/
  | dbResume (d : Nat) (v : BitVec 64)
  /-- DB_DUMP, R459. Debug command OP 2 dumps a fibre block to a buffer. -/
  | dbDump (d : Nat) (v : BitVec 64)
  /-- DB_STOP, R459. Debug command OP 3 stops a fibre at its next clause boundary. -/
  | dbStop (d : Nat) (v : BitVec 64)
  /-- POWER_ON_RESET, R473. The device boots through the boot ROM, loader and Loam start. -/
  | powerOnReset
  /-- POWER_OFF, R1. Power-off closes the device span. -/
  | powerOff
  /-- PATROL_SCRUB, R465. The scrubber reads and corrects lines, posting latent errors. -/
  | patrolScrub (pa : Nat)
  /-- LANE_SPARE, R465. A failing link lane is spared, or its device fails below half its lanes. -/
  | laneSpare (port : Nat)
  /-- CLUSTER_FAILURE, R468. A cluster fails at run time; the RTC logs it and the device fails. -/
  | clusterFailure (stack : Nat) (cluster : Nat)
  /-- HEARTBEAT_SEND, R477. Every 2^20 clocks a heartbeat is sent on each enabled port. -/
  | heartbeatSend
  /-- HEARTBEAT_RECEIVE, R478. A heartbeat arrives; root heartbeats are forwarded once per serial. -/
  | heartbeatReceive (port : Nat) (peer : Nat) (root : Bool) (serial : BitVec 32) (count : Nat)
  /-- HEARTBEAT_LOSS, R477. Eight missing heartbeats make the root declare a device failed. -/
  | heartbeatLoss (peer : Nat)
  /-- FENCE_COMMAND, R477. A peer fences a failed device's traffic, memory and collectives. -/
  | fenceCommand (peer : Nat)
  /-- ROOT_LOSS, R478. A member missing eight root heartbeats sends a root-loss message. -/
  | rootLoss
  /-- ROOT_LOSS_MESSAGE, R478. A root-loss message arrives and is forwarded once. -/
  | rootLossMessage (port : Nat) (peer : Nat)
  /-- IMAGE_OFFER, R475. A member takes the first verified image offer and its port becomes parent. -/
  | imageOffer (offers : List Offer)
  /-- IMAGE_LOAD_COMPLETE, R475. A loaded image's digest is checked, then accepted and re-offered or discarded. -/
  | imageLoadComplete (image : List (BitVec 8))
  /-- IMAGE_TIMEOUT, R475. A member without an image after 2^31 RTC clocks enters recovery. -/
  | imageTimeout
  /-- FABRIC_READ, R482. A UPLI read request from a peer is served. -/
  | fabricRead (peer : Nat) (pa : Nat) (len : Nat)
  /-- FABRIC_WRITE, R482. A UPLI write request from a peer is performed. -/
  | fabricWrite (peer : Nat) (pa : Nat) (data : List (BitVec 8))
  /-- FABRIC_ATOMIC, R482. A UPLI atomic is performed at the owning device. -/
  | fabricAtomic (peer : Nat) (pa : Nat) (op : BitVec 4) (ty : BitVec 5) (x : BitVec 64) (y : BitVec 64)
  /-- GET_VERSION, R474. SPDM request for supported versions. -/
  | getVersion
  /-- GET_CAPABILITIES, R474. SPDM request for responder capabilities. -/
  | getCapabilities
  /-- NEGOTIATE_ALGORITHMS, R474. SPDM negotiation of SHA3-256 and ML-DSA-44. -/
  | negotiateAlgorithms (sha3 : Bool) (mldsa : Bool)
  /-- GET_DIGESTS, R474. SPDM request for certificate chain digests. -/
  | getDigests
  /-- GET_CERTIFICATE, R474. SPDM request for the certificate chain in chunks. -/
  | getCertificate (offset : Nat) (len : Nat)
  /-- CHALLENGE, R474. SPDM challenge signed with the identity key. -/
  | challenge (nonce : List (BitVec 8))
  /-- GET_MEASUREMENTS, R474. SPDM request returning measurements M1 to M5. -/
  | getMeasurements (index : Nat)
  /-- REPAIR_LOG_WRITE, R474. Loam writes the repair log through the RTC, updating M5. -/
  | repairLogWrite (index : Nat) (v : BitVec 16)
  /-- READ_SENSORS, R487. Management command 0x01 returns temperatures and rail powers. -/
  | readSensors
  /-- READ_ERROR_COUNTERS, R487. Management command 0x02 returns corrected errors and spared lanes. -/
  | readErrorCounters
  /-- READ_REPAIR_LOG, R487. Management command 0x03 returns the repair log. -/
  | readRepairLog
  /-- WRITE_CONFIGURATION_RECORD, R488. Management command 0x04 stores a record in flash for the next reset. -/
  | writeConfigurationRecord (data : List (BitVec 8))
  /-- CLEAR_REPAIR_LOG, R488. Management command 0x05 clears the repair log in flash. -/
  | clearRepairLog
  /-- DEVICE_RESET, R487. Management command 0x06 closes the device span. -/
  | deviceReset
  /-- READ_IDENTITY, R487. Management command 0x07 returns the identity certificate chain. -/
  | readIdentity
  /-- RAIL_FAULT, R484. A rail outside its range for 1 ms fails the device. -/
  | railFault (rail : Rail)
  /-- INPUT_OVERPOWER, R485. Input power above 1,980 W for 1 ms fails the device. -/
  | inputOverpower
  /-- COOLANT_OVERTEMP, R486. An outlet above 65 C for 2^24 clocks fails the device. -/
  | coolantOvertemp
  /-- REGISTER_WRITE, R7. A write to a device register that has no behaviour of its own. -/
  | registerWrite (addr : Nat) (v : BitVec 64)
  /-- CORE_CLOCK, R23. Each core clock advances the clock counter, and every resident wave that issues nothing in that clock raises one stall counter. -/
  | coreClock (core : Nat)
  /-- LOAM_MEMORY_ACCESS, R307. A Loam core load, store, AMO or fence to D9 memory, such as a page-table, MTAIL, residency-bit or launch-record write. -/
  | loamMemoryAccess (k : Nat) (a : LoamAccess)
  /-- UNCORRECTABLE_ERROR, R465. An uncorrectable error arises in stored state and poisons data, aborts a gang for control state, or fails the device for LLC tags. -/
  | uncorrectableError (e : ErrorSite)
  /-- GLD_COMPLETE, R146. A gld writes its four uniform registers and its flag count falls. -/
  | gldComplete (op : Nat)
  /-- CFLUSH_COMPLETE, R174. A cflush completes when memory holds the flushed data. -/
  | cflushComplete (op : Nat)
  /-- PREF_COMPLETE, R175. A pref completes when each line has arrived or been dropped. -/
  | prefComplete (op : Nat)
  /-- CINV_COMPLETE, R176. A cinv completes when its target has been dropped. -/
  | cinvComplete (op : Nat)
  /-- ICINV_COMPLETE, R177. An icinv completes when every covered core has invalidated. -/
  | icinvComplete (op : Nat)
  /-- SMAP_COMPLETE, R179. An smap completes when the window entry is installed, or written back and freed. -/
  | smapComplete (op : Nat)
  /-- SWB_COMPLETE, R181. An swb completes when the home slices hold the written-back data. -/
  | swbComplete (op : Nat)
  /-- RECORD_QUEUE_ANSWER, R281. The record queue answers an rqpush or rqpop, appending or handing out records, and the instruction completes. -/
  | recordQueueAnswer (op : Nat)
  deriving DecidableEq, Repr

end Sys2Proof
end

