-- ==== Sys2Proof/Machine/Form.lean ====
section
/-! DEFINITION. The form of each instruction: its engine class, whether it is long-latency or a
transfer (R73, R74, R99), whether a field it does not use is nonzero or a field holds a value it does
not accept (R80 to R88, R117 and the table of each instruction), and the registers it names. -/

namespace Sys2Proof.Machine

/-- The register classes whose numbers are checked against a count (R35). -/
inductive RegClass where
  | v | g | q | a
  deriving DecidableEq, Repr

/-- A run of registers that an instruction names: where it starts, how many, whether it must start at
an even number (R36), whether it is read as a source, and which words of it are consumed (R116): of a
vector register its word, of a uniform register its low (bit 0) and high (bit 1) word, of a reservoir
register its four words. -/
structure Use where
  cls : RegClass
  base : Nat
  n : Nat := 1
  even : Bool := false
  src : Bool := false
  eat : Nat := 0
  deriving DecidableEq, Repr

/-- What the encoding of an instruction fixes. `const` is a constant-window operand (R87): window, word
offset, number of words. `sr` is the special register named and whether it is written (R41). `dbl`: it
names a 64-bit integer or bit type (R118). -/
structure Form where
  cls : Nat
  ll : Bool := false
  transfer : Bool := false
  badField : Bool := false
  badValue : Bool := false
  uses : List Use := []
  const : Option (Nat × Nat × Nat) := none
  sr : Option (Nat × Bool) := none
  dbl : Bool := false
  deriving DecidableEq, Repr

/-! ### Types of an operand -/

/-- The type codes of 64 bits (R81). -/
def isWide (ty : BitVec 5) : Bool := ty == 3 || ty == 7 || ty == 9 || ty == 0xA

/-- The 64-bit integer and bit types (R118). -/
def isDbl (ty : BitVec 5) : Bool := ty == 3 || ty == 7 || ty == 9

/-- The type that an ITYPE names; 7 is reserved and reads as a code no instruction accepts (R88). -/
def itypeCode (t : BitVec 3) : BitVec 5 :=
  if t == 0 then 2 else if t == 1 then 6 else if t == 2 then 8 else if t == 3 then 0xB
  else if t == 4 then 3 else if t == 5 then 7 else if t == 6 then 9 else 0x1F

/-- `i32 n32 b32 i64 n64 b64` (R119). -/
def tyArith : List (BitVec 5) := [2, 6, 8, 3, 7, 9]
/-- `i32 n32 i64 n64`. -/
def tyInt : List (BitVec 5) := [2, 6, 3, 7]
/-- `i32 i64`. -/
def tySigned : List (BitVec 5) := [2, 3]
/-- `b32 b64`. -/
def tyBits : List (BitVec 5) := [8, 9]
/-- `f32 f16`. -/
def tyF2 : List (BitVec 5) := [0xB, 0xC]
/-- The types of a load or store (R158). -/
def tyMem : List (BitVec 5) := [0, 1, 4, 5, 8, 9]

/-! ### Register uses -/

/-- A vector source of one word, or of a pair. -/
def vsrc (r : BitVec 8) (wide : Bool := false) : Use :=
  { cls := .v, base := r.toNat, n := if wide then 2 else 1, even := wide, src := true, eat := 1 }

/-- A vector destination. -/
def vdst (r : BitVec 8) (wide : Bool := false) : Use :=
  { cls := .v, base := r.toNat, n := if wide then 2 else 1, even := wide }

/-- A run of vector sources. -/
def vrun (r : BitVec 8) (n : Nat) : Use :=
  { cls := .v, base := r.toNat, n := n, src := true, eat := 1 }

/-- A run of vector registers that are written, or named without being read. -/
def vout (r : BitVec 8) (n : Nat) (even : Bool := false) : Use :=
  { cls := .v, base := r.toNat, n := n, even := even }

/-- A uniform source, of 64 or of its low 32 bits. -/
def gsrc (r : Nat) (wide : Bool := true) : Use :=
  { cls := .g, base := r, src := true, eat := if wide then 3 else 1 }

/-- A uniform destination. -/
def gdst (r : Nat) : Use := { cls := .g, base := r }

/-- A record of four uniform registers g4k to g4k+3 (R80). -/
def grec (k : BitVec 5) : Use := { cls := .g, base := 4 * k.toNat, n := 4, src := true, eat := 3 }

/-- A source of the vector family: USRC chooses the file (R84). -/
def xsrc (uni : Bool) (r : BitVec 8) (wide : Bool) : Use :=
  if uni then gsrc r.toNat wide else vsrc r wide

/-- An optional operand as a list. -/
def optUse (o : Option Bool) (f : Bool → Use) : List Use :=
  match o with
  | none => []
  | some w => [f w]

/-! ### Payload formats -/

/-- The rounding field: any mode where the instruction takes one, else 0 (R82, R117). -/
def badRnd (rnd : Bool) (r : BitVec 3) : Bool := if rnd then 3 < r.toNat else r != 0

/-- An RRR instruction of the vector family. `d a b c`: which fields name an operand, and whether it is
of 64 bits; `opx` the OPX bits it defines. -/
def formRRR (x : RRR) (types : List (BitVec 5)) (rnd : Bool) (opx : BitVec 8)
    (d a b c : Option Bool) (bad : Bool := false) : Form :=
  let ua := x.usrc.getLsbD 2
  let ub := x.usrc.getLsbD 1
  let uc := x.usrc.getLsbD 0
  { cls := 0
    badField := (d.isNone && x.d != 0) || (a.isNone && (x.a != 0 || ua)) || (b.isNone && (x.b != 0 || ub))
      || (c.isNone && (x.c != 0 || uc)) || (x.opx &&& ~~~opx) != 0
    badValue := bad || !types.contains x.ty || badRnd rnd x.rnd || (ua && 127 < x.a.toNat)
      || (ub && 127 < x.b.toNat) || (uc && 127 < x.c.toNat)
    uses := optUse d (fun w => vdst x.d w) ++ optUse a (xsrc ua x.a) ++ optUse b (xsrc ub x.b)
      ++ optUse c (xsrc uc x.c)
    dbl := isDbl x.ty }

/-- An RRR instruction whose USRC is 0 and whose uses are given. -/
def formPlain (x : RRR) (types : List (BitVec 5)) (opx : BitVec 8) (unused : Bool) (bad : Bool) (uses : List Use) : Form :=
  { cls := 0
    badField := unused || x.usrc != 0 || (x.opx &&& ~~~opx) != 0
    badValue := bad || !types.contains x.ty || badRnd false x.rnd
    uses := uses
    dbl := isDbl x.ty }

/-- An RK instruction of the vector family; the constant is source B (R86). -/
def formRK (x : RK) (types : List (BitVec 5)) (rnd : Bool) (d a c : Option Bool) (bad : Bool := false) : Form :=
  { cls := 0
    badField := (a.isNone && x.a != 0) || (c.isNone && x.c != 0)
    badValue := bad || !types.contains x.ty || (!rnd && x.rnd != 0)
    uses := optUse d (fun w => vdst x.d w) ++ optUse a (fun w => vsrc x.a w) ++ optUse c (fun w => vsrc x.c w)
    const := some (x.win.toNat, x.woff.toNat, if isWide x.ty then 2 else 1)
    dbl := isDbl x.ty }

/-- An RI instruction of the vector family; the immediate is source B (R88). -/
def formRI (x : RI) (types : List (BitVec 5)) (d a : Option Bool) (bad : Bool := false) : Form :=
  { cls := 0
    badField := a.isNone && x.a != 0
    badValue := bad || !types.contains (itypeCode x.ity)
    uses := optUse d (fun w => vdst x.d w) ++ optUse a (fun w => vsrc x.a w)
    dbl := isDbl (itypeCode x.ity) }

/-- An RRR instruction of the uniform family: every field names a uniform register (R115). -/
def formGRRR (x : RRR) (types : List (BitVec 5)) (opx : BitVec 8) (d a b c : Option Bool) (bad : Bool := false) : Form :=
  { cls := 0
    badField := (d.isNone && x.d != 0) || (a.isNone && x.a != 0) || (b.isNone && x.b != 0)
      || (c.isNone && x.c != 0) || x.usrc != 0 || (x.opx &&& ~~~opx) != 0
    badValue := bad || !types.contains x.ty || badRnd false x.rnd || 127 < x.d.toNat || 127 < x.a.toNat
      || 127 < x.b.toNat || 127 < x.c.toNat
    uses := optUse d (fun _ => gdst x.d.toNat) ++ optUse a (fun w => gsrc x.a.toNat w) ++ optUse b (fun w => gsrc x.b.toNat w)
      ++ optUse c (fun w => gsrc x.c.toNat w) }

/-- An RI instruction of the uniform family. -/
def formGRI (x : RI) (types : List (BitVec 5)) (d a : Option Bool) (bad : Bool := false) : Form :=
  { cls := 0
    badField := a.isNone && x.a != 0
    badValue := bad || !types.contains (itypeCode x.ity) || (d.isSome && 127 < x.d.toNat) || 127 < x.a.toNat
    uses := optUse d (fun _ => gdst x.d.toNat) ++ optUse a (fun w => gsrc x.a.toNat w) }

/-- An RK instruction of the uniform family. -/
def formGRK (x : RK) (types : List (BitVec 5)) (d a : Option Bool) (bad : Bool := false) : Form :=
  { cls := 0
    badField := (a.isNone && x.a != 0) || x.c != 0
    badValue := bad || !types.contains x.ty || x.rnd != 0 || (d.isSome && 127 < x.d.toNat) || 127 < x.a.toNat
    uses := optUse d (fun _ => gdst x.d.toNat) ++ optUse a (fun w => gsrc x.a.toNat w)
    const := some (x.win.toNat, x.woff.toNat, if isWide x.ty then 2 else 1) }

/-! ### Vector family -/

/-- Two sources and a destination of the type's width. -/
def form2 (x : RRR) (types : List (BitVec 5)) (opx : BitVec 8 := 0) (bad : Bool := false) : Form :=
  let w := isWide x.ty
  formRRR x types false opx (some w) (some w) (some w) none bad

/-- Three sources and a destination of the type's width. -/
def form3 (x : RRR) (types : List (BitVec 5)) : Form :=
  let w := isWide x.ty
  formRRR x types false 0 (some w) (some w) (some w) (some w)

/-- One source and a destination of the type's width. -/
def form1 (x : RRR) (types : List (BitVec 5)) (opx : BitVec 8 := 0) (bad : Bool := false) : Form :=
  let w := isWide x.ty
  formRRR x types false opx (some w) (some w) none none bad

/-- One source of the type's width; the destination is one register (R125, R135). -/
def form1n (x : RRR) (types : List (BitVec 5)) (opx : BitVec 8 := 0) (bad : Bool := false) : Form :=
  formRRR x types false opx (some false) (some (isWide x.ty)) none none bad

/-- `.sat` with a `.b` type is a reserved value (R120). -/
def badSat (x : RRR) : Bool := x.opx.getLsbD 0 && (x.ty == 8 || x.ty == 9)

/-- `addc`, `subb` (R122): C names the carry-in predicate when OPX[4] is 1. -/
def formCarry (x : RRR) : Form :=
  let w := isWide x.ty
  formRRR { x with c := if x.opx.getLsbD 4 then x.c &&& 0xF0 else x.c } [6, 7] false 0x1F (some w) (some w) (some w) none

/-- `lea` (R123). -/
def formLea (x : RRR) : Form :=
  formRRR x [2, 6, 9] false 0x3F (some true) (some true) (some (x.ty == 9)) none

/-- `shl`, `shr`, `sar`, `rot` and `bfx`: B is one register (R124, R125). -/
def formShift (x : RRR) (types : List (BitVec 5)) : Form :=
  let w := isWide x.ty
  formRRR x types false 0 (some w) (some w) (some false) none

/-- `bfi`: C is one register (R125). -/
def formBfi (x : RRR) : Form :=
  let w := isWide x.ty
  formRRR x tyBits false 0 (some w) (some w) (some w) (some false)

/-- The comparison code of `icmp` and `gcmp` (R85, R126, R145). -/
def badIcc (d : BitVec 8) (ty : BitVec 5) : Bool :=
  5 < (d >>> 4).toNat || ((ty == 8 || ty == 9) && 1 < (d >>> 4).toNat)

/-- The C field of a comparison: a predicate when a combine rule is given (R126). -/
def cmpC (x : RRR) : BitVec 8 := if x.opx &&& 3 == 0 then x.c else x.c &&& 0xF0

/-- `icmp` in RRR form (R126). -/
def formIcmp (x : RRR) : Form :=
  let w := isWide x.ty
  formRRR { x with d := 0, c := cmpC x } tyArith false 3 none (some w) (some w) none
    (x.opx &&& 3 == 3 || badIcc x.d x.ty)

/-- `fcmp` in RRR form (R126). -/
def formFcmp (x : RRR) : Form :=
  let w := isWide x.ty
  formRRR { x with d := 0, c := cmpC x } [0xA, 0xB, 0xC, 0xD] false 7 none (some w) (some w) none
    (x.opx &&& 3 == 3 || 7 < (x.d >>> 4).toNat || (x.opx.getLsbD 2 && x.ty != 0xC))

/-- `sel` (R127). -/
def formSel (x : RRR) : Form :=
  let w := isWide x.ty
  formRRR { x with c := x.c &&& 0xF0 } tyBits false 0 (some w) (some w) (some w) none

/-- `.ftz` is OPX[1] in every instruction of R130, and it is accepted with f16 alone: elsewhere it is a reserved value
(DEDUCED, log 21). -/
def badFtz (x : RRR) : Bool := x.opx.getLsbD 1 && x.ty != 0xC

/-- A float instruction of f32 or f16 with `n` sources (R130). -/
def formF (x : RRR) (types : List (BitVec 5)) (rnd : Bool) (n : Nat) : Form :=
  formRRR x types rnd 2 (some false) (some false) (if 2 ≤ n then some false else none)
    (if 3 ≤ n then some false else none) (badFtz x)

/-- An f64 instruction (R130). -/
def formD (x : RRR) (c : Bool) : Form :=
  formRRR x [0xA] true 2 (some true) (some true) (some true) (if c then some true else none) (badFtz x)

/-- The rule of R60 for a conversion: 0 =, 1 X, 2 N, 3 A, 4 I, 5 K, 6 W, 7 T, 8 U. -/
def cvtRule (td ts : BitVec 5) : Nat :=
  let isInt (t : BitVec 5) : Bool := t.toNat < 8
  if ts == 0x10 then (if td == 0x10 then 0 else 8)
  else if td == 0x10 then 7
  else if isInt ts then (if isInt td then 6 else if td == 0xE then 3 else 5)
  else if isInt td then 4
  else if td == ts then 0
  else if td == 0xE then 3
  else if td == 0xF then 2
  else if ts == 0xE || ts == 0xF then 1
  else if td == 0xA then 1
  else if td == 0xB then (if ts == 0xA then 2 else 1)
  else 2

/-- A type code that `cvt` accepts (R60, R137). -/
def isCvtType (t : BitVec 5) : Bool := t.toNat ≤ 0x10 && t != 8 && t != 9

/-- `cvt` (R137). -/
def formCvt (x : RRR) : Form :=
  let ts := x.opx.extractLsb' 0 5
  let r := cvtRule x.ty ts
  let exact := r == 0 || r == 1 || r == 6 || r == 8
  let okTypes := isCvtType x.ty && isCvtType ts
  let f := formRRR x [x.ty] true 0xFF (some (isWide x.ty)) (some (isWide ts)) none none
    (!okTypes || (x.opx.getLsbD 5 && !(r == 6 || x.ty == 0xF)) || (x.opx.getLsbD 6 && x.ty != 0xE)
      || (x.opx.getLsbD 7 && x.ty != 0xC && ts != 0xC) || (exact && x.rnd != 0))
  { f with dbl := isDbl x.ty || isDbl ts }

/-- `f8pk` (R138). -/
def formF8pk (x : RRR) : Form :=
  formRRR x [0xE, 0xF] true 3 (some false) (some false) (some false) (some false)

/-- `f8upk` (R138). -/
def formF8upk (x : RRR) : Form :=
  formRRR x [0xE, 0xF] false 1 (some true) (some false) none none

/-- `pset pD, vA` (R128); OPX[1:0] other than 0 has its own instructions, and 3 is reserved. -/
def formPset (x : RRR) : Form :=
  formRRR { x with d := x.d &&& 0xF0 } tyBits false 3 none (some (isWide x.ty)) none none (x.opx &&& 3 != 0)

/-- `pset.save` (R128). -/
def formPsetSave (x : RRR) : Form :=
  formRRR x [8] false 3 (some false) none none none (x.opx &&& 3 != 1)

/-- `pset.load` (R128). -/
def formPsetLoad (x : RRR) : Form :=
  formRRR x [8] false 3 none (some false) (some false) none (x.opx &&& 3 != 2)

/-- `plop` (R129): OPX is the table. TYPE is an unused field, 0x04, as it is of `vote` and `stage` (DEDUCED, log 21). -/
def formPlop (x : RRR) : Form :=
  formPlain x [x.ty] 0xFF ((x.d ||| x.a ||| x.b ||| x.c) &&& 0xF0 != 0 || x.ty != 0) false []

/-- `movg` (R140). -/
def formMovg (x : RRR) : Form :=
  formPlain x tyBits 0 (x.c != 0) (127 < x.a.toNat)
    [vdst x.d (isWide x.ty), gsrc x.a.toNat false |> fun u => { u with src := false, eat := 0 }, vsrc x.b]

/-- `vtog` (R141): A is consumed by the lowest passing slot alone, which its meaning sees to. -/
def formVtog (x : RRR) : Form :=
  formPlain x tyBits 0 (x.b != 0 || x.c != 0) (127 < x.d.toNat)
    [gdst x.d.toNat, { vsrc x.a (isWide x.ty) with eat := 0 }]

/-- `rdsr` (R142). -/
def formRdsr (x : RRR) : Form :=
  { formPlain x tyBits 0 (x.b != 0 || x.c != 0) false [vdst x.d (isWide x.ty)] with sr := some (x.a.toNat, false) }

/-- `wrsr` (R142). -/
def formWrsr (x : RRR) : Form :=
  { formPlain x tyBits 0 (x.b != 0 || x.c != 0) false [vsrc x.a (isWide x.ty)] with sr := some (x.d.toNat, true) }

/-- The runs of `stage` (R143): base and length for D, A, B, C. -/
def stageRuns (x : RRR) : List (Nat × Nat) :=
  [(x.d.toNat, (x.opx.extractLsb' 0 2).toNat), (x.a.toNat, (x.opx.extractLsb' 2 2).toNat),
   (x.b.toNat, (x.opx.extractLsb' 4 2).toNat), (x.c.toNat, (x.opx.extractLsb' 6 2).toNat)]

/-- `stage` (R143). Copying registers into the staging set reads none as a source: `stage` takes no poison of them (R116) and counts
none for the penalty of R46 (DEDUCED, log 31). -/
def formStage (x : RRR) : Form :=
  let runs := stageRuns x
  formPlain x [x.ty] 0xFF (runs.any (fun r => r.2 == 0 && r.1 != 0) || x.ty != 0)
    (8 < (runs.map (·.2)).sum || runs.any (fun r => 256 < r.1 + r.2))
    (runs.map (fun r => { cls := .v, base := r.1, n := r.2 }))

/-- `shfl` (R149): A is a vector register of the slot read; its poison is that of R116. -/
def formShfl (x : RRR) : Form :=
  let w := isWide x.ty
  let f := formRRR { x with c := x.c &&& 0xF0, a := 0, usrc := x.usrc } tyBits false 3 (some w) none (some false) none
  { f with uses := f.uses ++ [{ vsrc x.a w with eat := 0 }] }

/-- `vote` (R150). -/
def formVote (x : RRR) : Form :=
  let ballot := x.opx &&& 3 == 2
  formPlain x [x.ty] 3 (x.a &&& 0xF0 != 0 || x.b != 0 || x.c != 0 || x.ty != 0 || (!ballot && x.d &&& 0xF0 != 0)) false
    (if ballot then [vdst x.d] else [])

/-- The types that an operation of `lred` and `lscan` accepts (R151). -/
def redTypes (op : Nat) : List (BitVec 5) :=
  if op ≤ 2 then [2, 6, 3, 7, 0xB, 0xA] else if op ≤ 5 then tyBits else []

/-- The A of `lred`, `lscan` and `lfind` (R84): of a vector register, the meaning sees to the poison (R116). -/
def crossUse (x : RRR) : Use := if x.usrc.getLsbD 2 then gsrc x.a.toNat (isWide x.ty) else { vsrc x.a (isWide x.ty) with eat := 0 }

/-- Whether that A is a uniform register that there is not (R80). -/
def badCross (x : RRR) : Bool := x.usrc.getLsbD 2 && 127 < x.a.toNat

/-- `lred` and `lscan` (R151, R152). -/
def formRed (x : RRR) (opx : BitVec 8) : Form :=
  let w := isWide x.ty
  let op := (x.opx &&& 7).toNat
  let rnd := op == 0 && (x.ty == 0xB || x.ty == 0xA)
  { cls := 0
    badField := x.b != 0 || x.c != 0 || x.usrc &&& 3 != 0 || (x.opx &&& ~~~opx) != 0
    badValue := badCross x || !(redTypes op).contains x.ty || badRnd rnd x.rnd
    uses := [vdst x.d w, crossUse x] }

/-- `lfind` (R153). -/
def formLfind (x : RRR) : Form :=
  formPlain { x with usrc := x.usrc &&& 3 } tyBits 0 (x.b != 0 || x.c &&& 0xF0 != 0) (badCross x) [vdst x.d, crossUse x]

/-- A comparison in RK form: D holds the code and the predicate. -/
def formIcmpRK (x : RK) : Form :=
  formRK x tyArith false none (some (isWide x.ty)) none (badIcc x.d x.ty)

/-- `fcmp` in RK form. -/
def formFcmpRK (x : RK) : Form :=
  formRK x [0xA, 0xB, 0xC, 0xD] false none (some (isWide x.ty)) none (7 < (x.d >>> 4).toNat)

/-- Two sources, the second a constant. -/
def formK2 (x : RK) (types : List (BitVec 5)) (rnd : Bool := false) : Form :=
  let w := isWide x.ty
  formRK x types rnd (some w) (some w) none

/-- Three sources, the second a constant. -/
def formK3 (x : RK) (types : List (BitVec 5)) (rnd : Bool := false) : Form :=
  let w := isWide x.ty
  formRK x types rnd (some w) (some w) (some w)

/-- Two sources, the second an immediate. -/
def formI2 (x : RI) (types : List (BitVec 5)) (bad : Bool := false) : Form :=
  let w := isWide (itypeCode x.ity)
  formRI x types (some w) (some w) bad

/-- A shift count as an immediate: IMM[31:8] must be 0 (R124). -/
def badCount (x : RI) : Bool := x.imm >>> 8 != 0

/-- `icmp` in RI form. -/
def formIcmpRI (x : RI) : Form :=
  let ty := itypeCode x.ity
  formRI x tyArith none (some (isWide ty)) (badIcc x.d ty)

/-! ### Uniform family -/

/-- Two uniform sources. -/
def formG2 (x : RRR) (types : List (BitVec 5)) : Form :=
  let w := isWide x.ty
  formGRRR x types 0 (some w) (some w) (some w) none

/-- A uniform shift reads the low word of its count (R144). -/
def formGShift (x : RRR) (types : List (BitVec 5)) : Form :=
  formGRRR x types 0 (some true) (some (isWide x.ty)) (some false) none

/-- `gcmp` in RRR form: D bits [46:43] name g0 to g15 (R145). -/
def formGcmp (x : RRR) : Form :=
  let w := isWide x.ty
  formGRRR { x with d := x.d &&& 0xF } tyArith 0 (some true) (some w) (some w) none (badIcc x.d x.ty)

/-- `gcmp` in RI form. -/
def formGcmpRI (x : RI) : Form :=
  let ty := itypeCode x.ity
  formGRI { x with d := x.d &&& 0xF } tyArith (some true) (some (isWide ty)) (badIcc x.d ty)

/-- `gcmp` in RK form. -/
def formGcmpRK (x : RK) : Form :=
  formGRK { x with d := x.d &&& 0xF } tyArith (some true) (some (isWide x.ty)) (badIcc x.d x.ty)

/-- `glea` (R144). -/
def formGlea (x : RRR) : Form :=
  formGRRR x [2, 6, 9] 0x3F (some true) (some true) (some (x.ty == 9)) none

/-- A uniform RI form with one source. -/
def formGI2 (x : RI) (types : List (BitVec 5)) (bad : Bool := false) : Form :=
  formGRI x types (some true) (some (isWide (itypeCode x.ity))) bad

/-- `gld` (R146). -/
def formGld (x : RK) : Form :=
  { formGRK x [9] none none (x.d.toNat % 4 != 0 || 127 < x.d.toNat) with
    ll := true
    uses := [{ cls := .g, base := x.d.toNat, n := 4 }]
    const := some (x.win.toNat, x.woff.toNat, 8) }

/-! ### Memory -/

/-- The bytes of a value of a type (R158). -/
def tyBytes (ty : BitVec 5) : Nat :=
  if ty == 0 || ty == 4 || ty == 0xE || ty == 0xF then 1
  else if ty == 1 || ty == 5 || ty == 0xC || ty == 0xD then 2
  else if isWide ty then 8 else 4

/-- SCOPE is not used when ORD is 0 (R80, R157; DEDUCED, log 21). -/
def idleScope (x : MEM) : Bool := x.ord == 0 && x.scope != 0

/-- The ORD, SCOPE and CACHE values (R157): `ords` the accepted orders, `top` the highest scope when
ORD is not 0, `caches` the accepted cache policies. -/
def badOrd (x : MEM) (ords : List (BitVec 4)) (top : Nat) (caches : List (BitVec 2)) : Bool :=
  !ords.contains x.ord || !caches.contains x.cache || (x.ord != 0 && top < x.scope.toNat)

/-- `2^VEC`, the value count (R158). -/
def vecCount (vec : Nat) : Nat := 2 ^ min vec 3

/-- VEC is 0 to 3, and not 0 only with b32 or b64; the register run ends at v255 (R158). -/
def badVec (vec : Nat) (ty : BitVec 5) (data : BitVec 8) : Bool :=
  3 < vec || (vec != 0 && ty != 8 && ty != 9)
    || 256 < data.toNat + vecCount vec * (if isWide ty then 2 else 1)

/-- The register run of an access with `n` values. -/
def dataRun (r : BitVec 8) (ty : BitVec 5) (n : Nat) : Use :=
  { cls := .v, base := r.toNat, n := n * (if isWide ty then 2 else 1), even := isWide ty }

/-- A source run that is stored: it is read and not consumed (R162). -/
def dataSrc (r : BitVec 8) (ty : BitVec 5) (n : Nat) : Use := { dataRun r ty n with src := true }

/-- `ld`, `st`, `ldk` (R158, R163, R167). -/
def formLd (x : MEM) (store : Bool) (ords : List (BitVec 4)) (caches : List (BitVec 2)) : Form :=
  let vec := (x.mopx &&& 7).toNat
  { cls := 1, ll := true
    badField := idleScope x
    badValue := badOrd x ords 5 caches || !tyMem.contains x.ty || badVec vec x.ty x.data
    uses := [if store then dataSrc x.data x.ty (vecCount vec) else dataRun x.data x.ty (vecCount vec),
             vsrc x.idx, grec x.buf] }

/-- `lds`, `sts` (R164). -/
def formLds (x : MEM) (store : Bool) (ords : List (BitVec 4)) : Form :=
  let vec := (x.mopx &&& 7).toNat
  { cls := 1, ll := true
    badField := idleScope x || x.buf != 0 || x.mopx >>> 3 != 0
    badValue := badOrd x ords 3 [0] || !tyMem.contains x.ty || badVec vec x.ty x.data
    uses := [if store then dataSrc x.data x.ty (vecCount vec) else dataRun x.data x.ty (vecCount vec), vsrc x.idx] }

/-- `ldx` (R165). -/
def formLdx (x : MEM) : Form :=
  { cls := 1, ll := true
    badField := idleScope x
    badValue := badOrd x [0, 6] 5 [0, 1, 2] || !tyMem.contains x.ty || badVec 0 x.ty x.data
    uses := [dataRun x.data x.ty 1, vsrc x.idx, vsrc x.mopx, grec x.buf] }

/-- `ldmc` (R166): the SCOPE field carries VEC. -/
def formLdmc (x : MEM) : Form :=
  let vec := x.scope.toNat
  { cls := 1, ll := true
    badField := x.mopx.getLsbD 7
    badValue := badOrd { x with scope := 0 } [0] 0 [0, 2] || !tyMem.contains x.ty || badVec vec x.ty x.data
    uses := [dataRun x.data x.ty (vecCount vec), vsrc x.idx, gsrc (x.mopx &&& 0x7F).toNat, grec x.buf] }

/-- The types of an atomic operation (R168). -/
def atomTypes (op : Nat) : List (BitVec 5) :=
  if op = 0 then [2, 6, 3, 7, 0xB, 0xA] else if op ≤ 2 then [2, 6, 3, 7, 0xB]
  else if op ≤ 7 then tyBits else []

/-- `atom`, `red` (R168). -/
def formAtom (x : MEM) (red : Bool) : Form :=
  let op := (x.mopx &&& 0xF).toNat
  let s := x.mopx.getLsbD 7
  let n := if op = 7 then 2 else 1
  { cls := 1, ll := true
    badField := idleScope x || x.mopx &&& 0x70 != 0 || (s && x.buf != 0)
    badValue := badOrd x (if red then [1, 2, 5, 7] else [1, 2, 3, 4, 5, 6, 7, 8]) (if s then 3 else 5) [0]
      || !(atomTypes op).contains x.ty || (red && 5 < op) || 256 < x.data.toNat + n * (if isWide x.ty then 2 else 1)
    uses := [{ dataSrc x.data x.ty n with eat := 1 }, vsrc x.idx] ++ if s then [] else [grec x.buf] }

/-- `fence` (R173). -/
def formFence (x : MEM) : Form :=
  { cls := 1
    badField := idleScope x || x.data != 0 || x.idx != 0 || x.buf != 0 || x.ty != 0 || x.off != 0 || x.mopx != 0
    badValue := badOrd x [6, 7, 8] 5 [0] }

/-- `cflush`, `pref` and the line forms of `cinv` (R174 to R176); `mopx` is the form's code. -/
def formLine (x : MEM) (caches : List (BitVec 2)) (mask mopx : BitVec 8) : Form :=
  { cls := 1, ll := true
    badField := idleScope x || x.data != 0 || x.ty != 0 || x.mopx &&& ~~~mask != 0
    badValue := badOrd x [0] 0 caches || x.mopx &&& mask != mopx
    uses := [vsrc x.idx, grec x.buf] }

/-- `cinv.kall` (R176). -/
def formCinvAll (x : MEM) : Form :=
  { cls := 1, ll := true
    badField := idleScope x || x.data != 0 || x.idx != 0 || x.buf != 0 || x.off != 0 || x.ty != 0 || x.mopx &&& ~~~3 != 0
    badValue := badOrd x [0] 0 [0] || x.mopx &&& 3 != 1 }

/-- `icinv` (R177). -/
def formIcinv (x : MEM) : Form :=
  { cls := 1, ll := true
    badField := idleScope x || x.data != 0 || x.idx != 0 || x.buf != 0 || x.off != 0 || x.ty != 0 || x.mopx &&& ~~~3 != 0
    badValue := badOrd x [0] 0 [0] || x.mopx &&& 3 == 3 }

/-- `smap` (R179). -/
def formSmap (x : MEM) : Form :=
  { cls := 1, ll := true
    badField := idleScope x || x.ty != 0
    badValue := badOrd x [0] 0 [0] || 6 < ((x.mopx >>> 3) &&& 0xF).toNat || x.mopx.getLsbD 7
    uses := [{ vsrc x.data with eat := 0 }, { vsrc x.idx with eat := 0 }, grec x.buf] }

/-- `smap.unmap` (R179). -/
def formUnmap (x : MEM) : Form :=
  { cls := 1, ll := true
    badField := idleScope x || x.data != 0 || x.idx != 0 || x.buf != 0 || x.off != 0 || x.ty != 0 || x.mopx &&& 0x78 != 0
    badValue := badOrd x [0] 0 [0] || !x.mopx.getLsbD 7 }

/-- `swb` (R181). -/
def formSwb (x : MEM) (all : Bool) : Form :=
  { cls := 1, ll := true
    badField := idleScope x || x.data != 0 || x.idx != 0 || x.buf != 0 || x.off != 0 || x.ty != 0 || x.mopx &&& 0xF0 != 0
      || (all && x.mopx &&& 7 != 0)
    badValue := badOrd x [0] 0 [0] || x.mopx.getLsbD 3 != all }

/-! ### Matrix engine -/

/-- Fields of the MX format that must be 0 (R217): ACC, TILE, QUAD, VA, GS, ATYPE, NSLAB, and the
MXOPX bits outside `mask`. -/
def badMX (x : MX) (acc tile quad va gs aty nslab : Bool) (mask : BitVec 14) : Bool :=
  (!acc && x.acc != 0) || (!tile && x.tile != 0) || (!quad && x.quad != 0) || (!va && x.va != 0)
    || (!gs && x.gs != 0) || (!aty && x.aty != 0) || (!nslab && x.nslab != 0) || x.mxopx &&& ~~~mask != 0

/-- `mcfg` (R217, R219); MXOPX[13:12] = 3 is reserved. -/
def formMcfg (x : MX) (mode : BitVec 14) : Form :=
  let m := x.mxopx &&& 0x3000
  { cls := 2
    badField :=
      if m == 0 then badMX x false true false false true true false 0x3001
      else if m == 0x1000 then badMX x false true false false false false false 0x3000
      else if m == 0x2000 then badMX x false false false false false false false 0x3002
      else badMX x false true false false true true false 0x3003
    badValue := m != mode || (m == 0 && (!([0xD, 0xE, 0xF, 0x10] : List (BitVec 5)).contains x.aty
      || (x.aty == 0x10 && x.mxopx.getLsbD 0)))
    uses := if m == 0 then [gsrc x.gs.toNat] else [] }

/-- The accumulator registers named; with `.pair` also aK+1 (R214, R222). -/
def accUse (x : MX) : Use := { cls := .a, base := x.acc.toNat, n := if x.mxopx.getLsbD 0 then 2 else 1 }

/-- The A formats (R217). -/
def badAFormat (t : BitVec 5) : Bool := !([0xD, 0xE, 0xF, 0] : List (BitVec 5)).contains t

/-- `mlatch` (R217). -/
def formMlatch (x : MX) : Form :=
  { cls := 2, ll := true, badField := badMX x false true true false false false true 0 }

/-- `mma`, `mmas` (R217). -/
def formMma (x : MX) : Form :=
  { cls := 2, ll := true
    badField := badMX x true true true true false true true 1
    badValue := badAFormat x.aty
    uses := [accUse x, vsrc x.va] }

/-- `mmat` (R217). -/
def formMmat (x : MX) : Form :=
  { cls := 2, ll := true
    badField := badMX x true true true false true true true 1
    badValue := badAFormat x.aty
    uses := [accUse x, gsrc x.gs.toNat] }

/-- The output formats (R217, R229). -/
def badOutFormat (t : BitVec 5) : Bool := !([0xB, 0xC, 0xD, 0xE, 0xF] : List (BitVec 5)).contains t

/-- `mdrain` (R217, R228). -/
def formMdrain (x : MX) : Form :=
  let tcopy := x.mxopx.getLsbD 5
  let nocol := x.mxopx.getLsbD 4
  let norow := x.mxopx.getLsbD 3
  let tty := x.nslab.extractLsb' 0 5
  { cls := 2, ll := true
    badField := badMX x true true false true true true true 0x1FFF || x.nslab >>> 5 != 0
      || (!tcopy && (tty != 0 || x.mxopx &&& 0x1FC0 != 0)) || (nocol && x.tile != 0) || (norow && x.gs != 0)
      || (x.mxopx.getLsbD 2 && x.aty != 0xE && x.aty != 0xF)
    badValue := badOutFormat x.aty || (tcopy && badOutFormat tty)
    uses := [{ cls := .a, base := x.acc.toNat }, vsrc x.va] ++ (if norow then [] else [gsrc x.gs.toNat])
      ++ (if tcopy then [gsrc (x.mxopx.extractLsb' 6 7).toNat] else []) }

/-- `mzero` (R217). -/
def formMzero (x : MX) : Form :=
  { cls := 2, ll := true, badField := badMX x true false false false false false false 1, uses := [accUse x] }

/-- `mstat` (R217, R227). -/
def formMstat (x : MX) : Form :=
  { cls := 2, badField := badMX x true false false true false false false 1
    uses := [{ cls := .a, base := x.acc.toNat }, vdst x.va true] }

/-! ### Copies -/

/-- `cpy`, `cpyg`, `cpys`, `cpymc` (R233, R234). -/
def formCpy (x : CP) (scopes : List (BitVec 3)) (mask : Bool) : Form :=
  { cls := 3, ll := true
    badField := (!mask && x.cmask != 0) || x.cpopx &&& ~~~1 != 0 || (x.cpopx.getLsbD 0 && x.gba != 0)
    badValue := !scopes.contains x.scope
    uses := [grec x.trec, gsrc x.gsa.toNat] ++ if x.cpopx.getLsbD 0 then [] else [gsrc x.gba.toNat] }

/-- `coll` (R237). -/
def formColl (x : CP) : Form :=
  let kind := (x.cpopx &&& 7).toNat
  let op := x.cpopx.extractLsb' 3 2
  { cls := 3, ll := true
    badField := x.gsa != 0 || x.cmask != 0 || x.cpopx >>> 10 != 0 || ((kind = 2 || kind = 3) && op != 0)
    badValue := (x.scope != 4 && x.scope != 5) || 3 < kind || op == 3
      || !([2, 6, 0xB, 0xA, 0xD] : List (BitVec 5)).contains (x.cpopx.extractLsb' 5 5)
    uses := [grec x.trec, gsrc x.gba.toNat] }

/-- `trec` (R232). -/
def formTrec (x : CP) : Form :=
  { cls := 3
    badField := x.cpopx &&& ~~~1 != 0 || x.gba != 0 || x.cmask != 0 || x.scope != 0
    uses := [grec x.trec, gdst x.gsa.toNat] }

/-! ### Control -/

/-- A transfer of R184: which of VA, VB, DISP it uses, its CTOPX and its registers. -/
def formBr (x : BR) (va vb disp : Bool) (ct : BitVec 3) (uses : List Use) : Form :=
  { cls := 6, transfer := true
    badField := (!va && x.va != 0) || (!vb && x.vb != 0) || (!disp && x.disp != 0)
    badValue := x.ctopx != ct
    uses := uses }

/-- `fork` (R187). -/
def forkCount (x : BR) : Nat := if x.ctopx == 0 then 0 else 2 ^ (x.ctopx.toNat - 1)

/-- `fork` (R187): the copied run is not consumed. -/
def formFork (x : BR) : Form :=
  { cls := 6
    badField := x.vb &&& 0xF != 0 || (x.ctopx == 0 && x.va != 0)
    badValue := 256 < x.va.toNat + forkCount x
    uses := [{ cls := .v, base := x.va.toNat, n := forkCount x, src := true }] }

/-- `exit`, `yield`, `nop`: every payload field is 0. -/
def formEmptyBR (x : BR) (transfer : Bool) : Form :=
  { cls := 6, transfer := transfer, badField := x.va != 0 || x.vb != 0 || x.disp != 0 || x.ctopx != 0 }

/-- `launch` (R189). -/
def formLaunch (x : BR) : Form :=
  { cls := 6, ll := true
    badField := x.disp &&& 0x3FFFFFF != 0 || x.ctopx != 0
    uses := [vsrc x.va true, vdst x.vb] }

/-! ### Synchronisation -/

/-- `barinit` (R192). -/
def formBarinit (x : SY) : Form :=
  { cls := 6
    badField := x.syimm >>> 16 != 0 || x.pd != 0 || x.scope != 0 || x.cond != 0 || x.sub != 0
    badValue := x.syimm.extractLsb' 0 16 == 0
    uses := [vsrc x.va, vsrc x.vb] }

/-- `bararr` (R193). -/
def formBararr (x : SY) : Form :=
  let exp := x.syimm.getLsbD 0
  { cls := 6
    badField := x.syimm >>> 9 != 0 || (!exp && x.syimm.extractLsb' 1 8 != 0) || x.pd != 0 || x.cond != 0
    badValue := (x.scope != 2 && x.scope != 3) || x.sub != 0
    uses := [vsrc x.va, vdst x.vb] ++ if exp then [vsrc (x.syimm.extractLsb' 1 8)] else [] }

/-- `barexp` (R194). -/
def formBarexp (x : SY) : Form :=
  { cls := 6
    badField := x.syimm != 0 || x.pd != 0 || x.scope != 0 || x.cond != 0
    badValue := x.sub != 1
    uses := [vsrc x.va, vsrc x.vb] }

/-- `wait.ph` (R196). -/
def formWaitPh (x : SY) : Form :=
  { cls := 6
    badField := x.syimm != 0 || x.cond != 0
    badValue := (x.scope != 2 && x.scope != 3) || x.sub != 0
    uses := [vsrc x.va, vsrc x.vb] }

/-- `wait.m` (R197). -/
def formWaitM (x : SY) : Form :=
  { cls := 6
    badField := x.syimm >>> 19 != 0
    badValue := 5 < x.scope.toNat || x.sub != 1
    uses := [vsrc x.va, vsrc x.vb, grec (x.syimm.extractLsb' 0 5)] }

/-- `trigger`, `gridwait` (R198). -/
def formEmptySY (x : SY) (sub : BitVec 3) : Form :=
  { cls := 6, badValue := x.sub != sub, badField := x.va != 0 || x.vb != 0 || x.pd != 0 || x.scope != 0 || x.cond != 0 || x.syimm != 0 }

/-! ### Reservoirs and tags -/

/-- Fields of the RT format that must be 0 (R242), and the RTIMM bits outside `mask`. -/
def badRT (x : RT) (qd qs va vb vc pd : Bool) (mask : BitVec 14) : Bool :=
  (!qd && x.qd != 0) || (!qs && x.qs != 0) || (!va && x.va != 0) || (!vb && x.vb != 0) || (!vc && x.vc != 0)
    || (!pd && x.pd != 0) || x.rtimm &&& ~~~mask != 0

/-- A reservoir register with the words consumed. -/
def qUse (r : BitVec 3) (eat : Nat) : Use := { cls := .q, base := r.toNat, src := eat != 0, eat := eat }

/-- An RT instruction whose SUB must be 0 (R97). -/
def formRT (x : RT) (bad : Bool) (uses : List Use) : Form :=
  { cls := 7, badField := bad || x.sub != 0, uses := uses }

/-- `rsvcap` (R242). -/
def formRsvcap (x : RT) (imm : Bool) : Form :=
  { formRT x (badRT x true false (!imm) false false false (if imm then 0x3FFF else 0x2000))
      ([qUse x.qd 0xC] ++ if imm then [] else [vsrc x.va]) with
    badValue := x.rtimm.getLsbD 13 != imm }

/-- `rsvld`, `rsvst` (R242): the mode is in QS. -/
def formRsvMem (x : RT) (mode : BitVec 3) (store : Bool) : Form :=
  { cls := 7, ll := true
    badField := x.vc != 0 || x.pd != 0 || x.rtimm.getLsbD 13 || (x.qs == 1 && x.rtimm &&& 0x1F != 0)
      || ((store || x.qs != 2) && x.vb != 0)
    badValue := x.qs != mode || x.sub != (if store then 1 else 0)
    uses := [{ cls := .q, base := x.qd.toNat, src := store }, vsrc x.va]
      ++ (if mode == 1 then [] else [grec (x.rtimm.extractLsb' 0 5)]) ++ (if mode == 2 then [vsrc x.vb] else []) }

/-- A tag instruction, chosen by SUB (R97). -/
def formTag (x : RT) (sub : BitVec 3) (ll : Bool) (bad : Bool) (value : Bool) (uses : List Use) : Form :=
  { cls := 7, ll := ll, badField := bad, badValue := value || x.sub != sub, uses := uses }

/-! ### Graphics -/

/-- Fields of the GX format that must be 0 (R261), and the GXOPX bits outside `mask`. -/
def badGX (x : GX) (vd va vb desc pd : Bool) (mask : BitVec 18) : Bool :=
  (!vd && x.vd != 0) || (!va && x.va != 0) || (!vb && x.vb != 0) || (!desc && x.desc != 0) || (!pd && x.pd != 0)
    || x.gxopx &&& ~~~mask != 0

/-- A register run must end at v255 (R261). -/
def badRun (r : BitVec 8) (n : Nat) : Bool := 256 < r.toNat + n

/-- The payload registers of a `trace` (R265). -/
def payRegs (x : GX) : Nat := min (x.gxopx.extractLsb' 6 7).toNat 16

/-- `trace` with a new ray (R264); CONT = 3 is reserved. -/
def formTrace (x : GX) : Form :=
  { cls := 4, ll := true
    badValue := x.gxopx >>> 16 != 0 || 80 < (x.gxopx.extractLsb' 6 7).toNat || badRun x.vd 4 || badRun x.va 8
      || badRun x.vb (payRegs x)
    uses := [vout x.vd 4 true, vrun x.va 8, vout x.vb (payRegs x), grec x.desc] }

/-- `trace.rej`, `trace.acc` (R264). -/
def formTraceCont (x : GX) (cont : BitVec 18) : Form :=
  { cls := 4, ll := true
    badField := badGX x true false false false true 0x30000
    badValue := x.gxopx >>> 16 != cont || badRun x.vd 4
    uses := [vout x.vd 4 true] }

/-- A texture instruction: `n` coordinate registers, `out` results. -/
def formTex (x : GX) (n out : Nat) (pd : Bool) : Form :=
  { cls := 5, ll := true
    badField := badGX x (out != 0) true false true pd 0
    badValue := badRun x.va n || badRun x.vd out
    uses := [vrun x.va n, grec x.desc] ++ if out = 0 then [] else [vout x.vd out] }

/-! ### System -/

/-- Fields of the SYS format that must be 0. -/
def badSYS (x : SYS) (va vb ga code : Bool) (mask : BitVec 12) : Bool :=
  (!va && x.va != 0) || (!vb && x.vb != 0) || (!ga && x.ga != 0) || (!code && x.code != 0) || x.sysopx &&& ~~~mask != 0

/-- `tret` (R200). -/
def formTret (x : SYS) (act : BitVec 12) : Form :=
  { cls := 6, transfer := true, badField := badSYS x false false false false 3, badValue := x.sysopx &&& 3 != act }

/-- `capinv` (R204). -/
def formCapinv (x : SYS) : Form :=
  { cls := 6, ll := true
    badField := x.sysopx != 0
    badValue := badRun x.va 8 || badRun x.vb 4 || x.ga.getLsbD 0
    uses := [{ cls := .g, base := x.ga.toNat, n := 2, src := true, eat := 3 }, vrun x.va 8, vout x.vb 4] }

/-- The counters of R207. -/
def isCounter (n : Nat) : Bool := n ≤ 2 || (0x10 ≤ n && n ≤ 0x1F)

/-- `rdctr` (R207). -/
def formRdctr (x : SYS) : Form :=
  let core := x.sysopx.getLsbD 0
  { cls := 6
    badField := badSYS x true core false true 1
    badValue := !isCounter x.code.toNat
    uses := [vdst x.va true] ++ if core then [vdst x.vb] else [] }

/-- Whether R99, with R97 for the opcodes that SUB divides, assigns the opcode. -/
def assigned (opc sub : Nat) : Bool :=
  if opc = 0xD1 || opc = 0xD2 || opc = 0xD3 || opc = 0xDD then sub ≤ 1
  else if opc = 0xDF then sub ≤ 4
  else opc ≤ 0x6C || (0x70 ≤ opc && opc ≤ 0x7B) || (0x80 ≤ opc && opc ≤ 0x8F) || (0xA0 ≤ opc && opc ≤ 0xA7)
    || (0xB0 ≤ opc && opc ≤ 0xB5) || (0xC0 ≤ opc && opc ≤ 0xC8) || opc = 0xD0 || (0xD8 ≤ opc && opc ≤ 0xEB)
    || (0xF0 ≤ opc && opc ≤ 0xF5)

/-- The form of every instruction; an event has none. -/
def form : Instr → Option Form
  | .iadd _ x | .isub _ x => form2 x tyArith 1 (badSat x)
  | .imul _ x => form2 x tyArith
  | .imulhi _ x | .idiv _ x | .irem _ x | .imin _ x | .imax _ x => form2 x tyInt
  | .imad _ x => form3 x tyArith
  | .imadw _ x => formRRR x [2, 6] false 0 (some true) (some false) (some false) (some true)
  | .iabs _ x | .ineg _ x => form1 x tySigned 1
  | .addc _ x | .subb _ x => formCarry x
  | .lea _ x => formLea x
  | .andB _ x | .orB _ x | .xorB _ x => form2 x tyBits
  | .notB _ x | .brev _ x => form1 x tyBits
  | .shl _ x | .shr _ x | .sar _ x | .rot _ x => formShift x tyBits
  | .popc _ x | .clz _ x => form1n x tyBits
  | .bfx _ x => formShift x tyArith
  | .bfi _ x => formBfi x
  | .icmp _ x => formIcmp x
  | .fcmp _ x => formFcmp x
  | .sel _ x => formSel x
  | .pset _ x => formPset x
  | .psetSave _ x => formPsetSave x
  | .psetLoad _ x => formPsetLoad x
  | .plop _ x => formPlop x
  | .fadd _ x | .fsub _ x | .fmul _ x | .fdiv _ x => formF x tyF2 true 2
  | .ffma _ x => formF x tyF2 true 3
  | .fmin _ x | .fmax _ x => formF x tyF2 false 2
  | .frcp _ x | .fsqrt _ x | .frnd _ x => formF x tyF2 true 1
  | .frsq _ x | .fex2 _ x | .flg2 _ x | .fsin _ x | .fcos _ x => formF x [0xB] true 1
  | .fclass _ x => form1n x [0xA, 0xB, 0xC, 0xD, 0xE, 0xF] 2 (badFtz x)
  | .dadd _ x | .dmul _ x | .ddiv _ x => formD x false
  | .dfma _ x => formD x true
  | .hadd2 _ x | .hmul2 _ x => formF x [0xC] true 2
  | .hfma2 _ x => formF x [0xC] true 3
  | .bfma2 _ x => formF x [0xD] true 3
  | .cvt _ x => formCvt x
  | .f8pk _ x => formF8pk x
  | .f8upk _ x => formF8upk x
  | .mov _ x => form1 x tyBits
  | .movi _ x => formRI x [2, 6, 8, 0xB, 3, 7, 9] (some (isWide (itypeCode x.ity))) none
  | .movk _ x => formRK x tyBits false (some (isWide x.ty)) none none
  | .movg _ x => formMovg x
  | .vtog _ x => formVtog x
  | .rdsr _ x => formRdsr x
  | .wrsr _ x => formWrsr x
  | .stage _ x => formStage x
  | .shfl _ x => formShfl x
  | .vote _ x => formVote x
  | .lred _ x => formRed x 7
  | .lscan _ x => formRed x 0xF
  | .lfind _ x => formLfind x
  | .iaddRk _ x | .isubRk _ x | .imulRk _ x => formK2 x tyArith
  | .imadRk _ x => formK3 x tyArith
  | .andRk _ x | .orRk _ x | .xorRk _ x => formK2 x tyBits
  | .icmpRk _ x => formIcmpRK x
  | .faddRk _ x | .fmulRk _ x => formK2 x tyF2 true
  | .ffmaRk _ x => formK3 x tyF2 true
  | .fcmpRk _ x => formFcmpRK x
  | .iaddRi _ x | .imulRi _ x => formI2 x tyArith
  | .andRi _ x | .orRi _ x | .xorRi _ x => formI2 x tyBits
  | .shlRi _ x | .shrRi _ x | .sarRi _ x => formI2 x tyBits (badCount x)
  | .icmpRi _ x => formIcmpRI x
  | .faddRi _ x | .fmulRi _ x => formI2 x [0xB]
  | .gadd _ x | .gsub _ x | .gmul _ x => formG2 x tyArith
  | .gmin _ x => formG2 x tyInt
  | .gand _ x | .gor _ x | .gxor _ x => formG2 x tyBits
  | .gshl _ x => formGShift x tyBits
  | .gshr _ x => formGShift x tyArith
  | .gcmp _ x => formGcmp x
  | .gsel _ x => formGRRR x [9] 0 (some true) (some true) (some true) (some true)
  | .gmov _ x => formGRRR x tyBits 0 (some true) (some (isWide x.ty)) none none
  | .glea _ x => formGlea x
  | .gaddRi _ x => formGI2 x tyArith
  | .gandRi _ x | .gorRi _ x | .gxorRi _ x => formGI2 x tyBits
  | .gshlRi _ x => formGI2 x tyBits (badCount x)
  | .gshrRi _ x => formGI2 x tyArith (badCount x)
  | .gcmpRi _ x => formGcmpRI x
  | .gmovRi _ x => formGRI x [2, 6, 8, 0xB, 3, 7, 9] (some true) none
  | .gaddRk _ x => formGRK x tyArith (some true) (some (isWide x.ty))
  | .gcmpRk _ x => formGcmpRK x
  | .gmovRk _ x => formGRK x tyBits (some true) none
  | .gld _ x => formGld x
  | .ld _ x => formLd x false [0, 6] [0, 1, 2]
  | .st _ x => formLd x true [0, 7] [0, 1, 2]
  | .ldk _ x => formLd x false [0] [0]
  | .lds _ x => formLds x false [0, 6]
  | .sts _ x => formLds x true [0, 7]
  | .ldx _ x => formLdx x
  | .atom _ x => formAtom x false
  | .redI _ x => formAtom x true
  | .fence _ x => formFence x
  | .cflush _ x => formLine x [0] 0 0
  | .cinvK _ x => formLine x [0] 3 0
  | .cinvKall _ x => formCinvAll x
  | .cinvL1 _ x => formLine x [0] 3 2
  | .icinv _ x => formIcinv x
  | .pref _ x => formLine x [0, 2] 0 0
  | .smap _ x => formSmap x
  | .smapUnmap _ x => formUnmap x
  | .swb _ x => formSwb x false
  | .swbAll _ x => formSwb x true
  | .ldmc _ x => formLdmc x
  | .mcfgBind _ x => formMcfg x 0
  | .mcfgUnbind _ x => formMcfg x 0x1000
  | .mcfgMode _ x => formMcfg x 0x2000
  | .mlatch _ x => formMlatch x
  | .mma _ x | .mmas _ x => formMma x
  | .mmat _ x => formMmat x
  | .mdrain _ x => formMdrain x
  | .mzero _ x => formMzero x
  | .mstat _ x => formMstat x
  | .cpy _ x | .cpys _ x => formCpy x [2, 3] false
  | .cpyg _ x => formCpy x [2, 3, 4, 5] false
  | .cpymc _ x => formCpy x [2, 3] true
  | .coll _ x => formColl x
  | .trec _ x => formTrec x
  | .bra _ x => formBr x false false true 0 []
  | .brx _ x => formBr x true false false 0 [vsrc x.va true]
  | .brxRel _ x => formBr x true false false 1 [vsrc x.va]
  | .call _ x => formBr x true false true 0 [vdst x.va true]
  | .callX _ x => formBr x true true false 1 [vdst x.va true, vsrc x.vb true]
  | .ret _ x => formBr x true false false 0 [vsrc x.va true]
  | .fork _ x => formFork x
  | .exit _ x | .yield _ x => formEmptyBR x true
  | .nop _ x => formEmptyBR x false
  | .launch _ x => formLaunch x
  | .barinit _ x => formBarinit x
  | .bararr _ x => formBararr x
  | .barexp _ x => formBarexp x
  | .waitPh _ x => formWaitPh x
  | .waitM _ x => formWaitM x
  | .trigger _ x => formEmptySY x 0
  | .gridwait _ x => formEmptySY x 1
  | .rsvclr _ x => formRT x (badRT x true false false false false false 0) [qUse x.qd 0]
  | .rsvupd _ x => formRT x (badRT x true false true true true true 0)
      [qUse x.qd 0xC, vsrc x.va, vsrc x.vb, vsrc x.vc]
  | .rsvmrg _ x => formRT x (badRT x true true true false false true 0) [qUse x.qd 0xC, qUse x.qs 0xF, vsrc x.va]
  | .rsvcap _ x => formRsvcap x false
  | .rsvcapI _ x => formRsvcap x true
  | .rsvfin _ x => formRT x (badRT x true false true false false true 0) [qUse x.qd 0xE, vdst x.va]
  | .rsvld _ x => formRsvMem x 0 false
  | .rsvldS _ x => formRsvMem x 1 false
  | .rsvldX _ x => formRsvMem x 2 false
  | .rsvst _ x => formRsvMem x 0 true
  | .rsvstS _ x => formRsvMem x 1 true
  | .rsvdraw _ x => formRT x (badRT x false false true false false false 1) [vdst x.va]
  | .tagnew _ x => formTag x 0 false (badRT x false false true false false false 1) (x.rtimm.getLsbD 0) [vdst x.va]
  | .tagnewTry _ x => formTag x 0 false (badRT x false false true false false true 1) (!x.rtimm.getLsbD 0) [vdst x.va]
  | .tagret _ x => formTag x 1 false (badRT x false false true false false true 0) false [vsrc x.va]
  | .tagset _ x => formTag x 2 false (badRT x false false true false false false 0) false [vsrc x.va]
  | .tagget _ x => formTag x 3 false (badRT x false false true false false false 1) (x.rtimm.getLsbD 0) [vdst x.va]
  | .taggetInfo _ x => formTag x 3 false (badRT x false false true true false false 1) (!x.rtimm.getLsbD 0)
      [vdst x.va, vsrc x.vb]
  | .tagpub _ x => formTag x 4 true (badRT x false false true false false false 0) false [vsrc x.va]
  | .trace _ x => formTrace x
  | .traceRej _ x => formTraceCont x 1
  | .traceAcc _ x => formTraceCont x 2
  | .hret _ x => some { cls := 4, transfer := true, badField := badGX x false true false false false 0,
                        uses := [vsrc x.va true] }
  | .traq _ x => some { cls := 4, ll := true, badField := badGX x true false false false false 0xF,
                        badValue := 9 < x.gxopx.toNat, uses := [vdst x.vd (x.gxopx == 5)] }
  | .rast _ x => some { cls := 4, ll := true, badField := badGX x true true true false true 3,
                        badValue := badRun x.vd 2 || badRun x.va 7 || badRun x.vb 2,
                        uses := [vout x.vd 2, vrun x.va 7, vrun x.vb 2] }
  | .tex _ x => formTex x 2 5 true
  | .texl _ x => formTex x 3 5 true
  | .texg _ x => formTex x 6 5 true
  | .texres _ x => formTex x 3 1 true
  | .texfb _ x => formTex x 3 0 false
  | .blend _ x => some { cls := 5, ll := true, badField := badGX x false true true true false 7,
                         badValue := 4 < (x.gxopx &&& 7).toNat || badRun x.va 4 || badRun x.vb 4,
                         uses := [vrun x.va 4, vrun x.vb 4, grec x.desc] }
  | .rqpush _ x => some { cls := 5, ll := true, badField := badGX x false true false true true 0,
                          uses := [vrun x.va 1, grec x.desc] }
  | .rqpop _ x => some { cls := 5, ll := true, badField := badGX x true false false true true 0,
                         uses := [vout x.vd 1, grec x.desc] }
  | .trapI _ x | .brk _ x => some { cls := 6, badField := badSYS x false false false true 0 }
  | .tretRetry _ x => formTret x 0
  | .tretSkip _ x => formTret x 1
  | .tretKillf _ x => formTret x 2
  | .tretKillg _ x => formTret x 3
  | .capinv _ x => formCapinv x
  | .upcall _ x => some { cls := 6, badField := badSYS x false false true true 0,
                          uses := [{ cls := .g, base := x.ga.toNat, n := 2, src := true, eat := 3 }] }
  | .rdctr _ x => formRdctr x
  | _ => none

end Sys2Proof.Machine
end

