-- ==== Sys2Proof/Machine/Num.lean ====
section
/-! DEFINITION. Number formats and arithmetic (R48 to R60): values of the float formats as exact dyadic
numbers, the one rounding, the conversions, and the functions that are rounded once. -/

namespace Sys2Proof.Machine

/-! ### Formats and values -/

/-- A float format (R48): exponent and fraction widths, the encoding of the largest finite value, of
infinity where there is one, and of the canonical NaN (R49). -/
structure Fmt where
  eb : Nat
  fb : Nat
  top : Nat
  inf : Option Nat
  nan : Nat
  deriving DecidableEq, Repr

def fmt64 : Fmt := { eb := 11, fb := 52, top := 0x7FEFFFFFFFFFFFFF, inf := some 0x7FF0000000000000, nan := 0x7FF8000000000000 }
def fmt32 : Fmt := { eb := 8, fb := 23, top := 0x7F7FFFFF, inf := some 0x7F800000, nan := 0x7FC00000 }
def fmt16 : Fmt := { eb := 5, fb := 10, top := 0x7BFF, inf := some 0x7C00, nan := 0x7E00 }
def fmtB16 : Fmt := { eb := 8, fb := 7, top := 0x7F7F, inf := some 0x7F80, nan := 0x7FC0 }
def fmt8a : Fmt := { eb := 4, fb := 3, top := 0x7E, inf := none, nan := 0x7F }
def fmt8b : Fmt := { eb := 5, fb := 2, top := 0x7B, inf := some 0x7C, nan := 0x7E }

/-- The float format of a type code (R81). -/
def fmtOf (ty : BitVec 5) : Fmt :=
  if ty == 0xA then fmt64 else if ty == 0xC then fmt16 else if ty == 0xD then fmtB16
  else if ty == 0xE then fmt8a else if ty == 0xF then fmt8b else fmt32

/-- 2^(e-1) - 1 (R48). -/
def Fmt.bias (f : Fmt) : Nat := 2 ^ (f.eb - 1) - 1
/-- Bits of the format without the sign. -/
def Fmt.mag (f : Fmt) : Nat := f.eb + f.fb

/-- A value: NaN, an infinity, or (-1)^neg × m × 2^e. Zeros carry a sign. -/
inductive Flt where
  | nan
  | inf (neg : Bool)
  | fin (neg : Bool) (m : Nat) (e : Int)
  deriving DecidableEq, Repr

/-- The rounding modes (R51). -/
inductive Rnd where
  | near | zero | down | up
  deriving DecidableEq, Repr

/-- The coding of R82. -/
def Rnd.ofCode (c : Nat) : Rnd := if c = 1 then .zero else if c = 2 then .down else if c = 3 then .up else .near

/-- The value that the low bits of a number encode (R48); under `ftz` a subnormal reads as a zero (R53). -/
def Fmt.value (f : Fmt) (bits : Nat) (ftz : Bool := false) : Flt :=
  let neg := bits.testBit f.mag
  let mag := bits % 2 ^ f.mag
  let e := mag / 2 ^ f.fb
  let fr := mag % 2 ^ f.fb
  if f.top < mag then (if f.inf = some mag then .inf neg else .nan)
  else if e = 0 then .fin neg (if ftz then 0 else fr) (1 - (f.bias : Int) - f.fb)
  else .fin neg (2 ^ f.fb + fr) ((e : Int) - f.bias - f.fb)

/-- Whether the mode moves a magnitude up, given the low bit kept, the remainder against a half (0 less,
1 equal, 2 more) and whether anything is cut off. -/
def roundsUp (mode : Rnd) (neg odd : Bool) (half : Nat) (inexact : Bool) : Bool :=
  match mode with
  | .near => half = 2 || (half = 1 && odd)
  | .zero => false
  | .down => neg && inexact
  | .up => !neg && inexact

/-- The magnitude m × 2^e, with something below its last bit if `sticky`, as a multiple of 2^p. -/
def roundAt (mode : Rnd) (neg : Bool) (m : Nat) (e p : Int) (sticky : Bool) : Nat :=
  if p ≤ e then
    let k := m * 2 ^ (e - p).toNat
    k + (if roundsUp mode neg (k % 2 = 1) 0 sticky then 1 else 0)
  else
    let sh := (p - e).toNat
    let k := m / 2 ^ sh
    let r := m % 2 ^ sh
    let h := 2 ^ (sh - 1)
    let half := if r < h then 0 else if r = h && !sticky then 1 else 2
    k + (if roundsUp mode neg (k % 2 = 1) half (r != 0 || sticky) then 1 else 0)

/-- What is done with a value beyond the largest finite one: R52, saturation (R55 without `.nosat`,
R56 with `.sat`), or NaN (R55 with `.nosat`). -/
inductive Over where
  | ieee | sat | nan
  deriving DecidableEq, Repr

/-- The encoding of an overflowed result. -/
def Fmt.over (f : Fmt) (o : Over) (mode : Rnd) (neg : Bool) (isInf : Bool) : Nat :=
  let s := if neg then 2 ^ f.mag else 0
  match o with
  | .sat => s + f.top
  | .nan => f.nan
  | .ieee =>
    let toMax := !isInf && (match mode with | .near => false | .zero => true | .down => !neg | .up => neg)
    if toMax then s + f.top else s + f.inf.getD f.top

/-- One rounding of a value to a format (R51 to R56). `sticky` adds a part below the last bit of m. -/
def Fmt.pack (f : Fmt) (mode : Rnd) (x : Flt) (sticky : Bool := false) (o : Over := .ieee) (ftz : Bool := false) : Nat :=
  match x with
  | .nan => f.nan
  | .inf neg => f.over o mode neg true
  | .fin neg m e =>
    let s := if neg then 2 ^ f.mag else 0
    if m = 0 && !sticky then s else
    let low : Int := 1 - (f.bias : Int) - f.fb
    let p := max low (e + Nat.log2 m - f.fb)
    let k := roundAt mode neg m e p sticky
    let bits := (p - low).toNat * 2 ^ f.fb + k
    if f.top < bits then f.over o mode neg false
    else if ftz && bits < 2 ^ f.fb then s
    else s + bits

/-! ### Exact arithmetic on values -/

def Flt.isNan : Flt → Bool | .nan => true | _ => false
def Flt.isZero : Flt → Bool | .fin _ m _ => m = 0 | _ => false
def Flt.isFin : Flt → Bool | .fin _ _ _ => true | _ => false
def Flt.neg? : Flt → Bool | .nan => false | .inf n => n | .fin n _ _ => n

/-- The value with its sign changed. -/
def Flt.negate : Flt → Flt
  | .nan => .nan
  | .inf n => .inf !n
  | .fin n m e => .fin (!n) m e

/-- The integer of a sign and a magnitude. -/
def signed (neg : Bool) (m : Nat) : Int := if neg then -(m : Int) else m

/-- The numerator of a finite value over 2^e0, for an e0 at or below its exponent. -/
def scaled (neg : Bool) (m : Nat) (e e0 : Int) : Int := signed neg (m * 2 ^ (e - e0).toNat)

/-- The exact sum (R54, R131). -/
def Flt.add (mode : Rnd) (x y : Flt) : Flt :=
  match x, y with
  | .nan, _ => .nan
  | _, .nan => .nan
  | .inf a, .inf b => if a = b then .inf a else .nan
  | .inf a, .fin _ _ _ => .inf a
  | .fin _ _ _, .inf b => .inf b
  | .fin a m e, .fin b n g =>
    if m = 0 && n = 0 then .fin (if a = b then a else mode == .down) 0 0
    else
      let e0 := min e g
      let t := scaled a m e e0 + scaled b n g e0
      if t = 0 then .fin (mode == .down) 0 0 else .fin (t < 0) t.natAbs e0

/-- The exact product (R54, R131). -/
def Flt.mul (x y : Flt) : Flt :=
  match x, y with
  | .nan, _ => .nan
  | _, .nan => .nan
  | .inf a, .inf b => .inf (a != b)
  | .inf a, .fin b n _ => if n = 0 then .nan else .inf (a != b)
  | .fin a m _, .inf b => if m = 0 then .nan else .inf (a != b)
  | .fin a m e, .fin b n g => .fin (a != b) (m * n) (e + g)

/-- Below, equal, above, or unordered; zeros are equal (R85, R126). -/
def Flt.cmp (x y : Flt) : Option Ordering :=
  match x, y with
  | .nan, _ => none
  | _, .nan => none
  | .inf a, .inf b => some (if a = b then .eq else if a then .lt else .gt)
  | .inf a, .fin _ _ _ => some (if a then .lt else .gt)
  | .fin _ _ _, .inf b => some (if b then .gt else .lt)
  | .fin a m e, .fin b n g =>
    let e0 := min e g
    some (compare (scaled a m e e0) (scaled b n g e0))

/-- A quotient of finite nonzero values with `bits` or more significant bits, and what is cut off. -/
def quotient (m n : Nat) (bits : Nat) : Nat × Int × Bool :=
  let k := bits + Nat.log2 n + 1
  (m * 2 ^ k / n, -(k : Int), m * 2 ^ k % n != 0)

/-- The quotient, rounded once (R51, R54, R131). -/
def Fmt.div (f : Fmt) (mode : Rnd) (ftz : Bool) (x y : Flt) : Nat :=
  match x, y with
  | .nan, _ => f.nan
  | _, .nan => f.nan
  | .inf _, .inf _ => f.nan
  | .inf a, .fin b _ _ => f.pack mode (.inf (a != b))
  | .fin a _ _, .inf b => f.pack mode (.fin (a != b) 0 0)
  | .fin a m e, .fin b n g =>
    if n = 0 then (if m = 0 then f.nan else f.pack mode (.inf (a != b)))
    else if m = 0 then f.pack mode (.fin (a != b) 0 0)
    else
      let q := quotient m n (f.fb + 4)
      f.pack mode (.fin (a != b) q.1 (e - g + q.2.1)) q.2.2 .ieee ftz

/-- The integer square root, one bit at a time from bit `k`. -/
def isqrtFrom : Nat → Nat → Nat → Nat
  | 0, _, r => r
  | k + 1, n, r =>
    let c := r + 2 ^ k
    isqrtFrom k n (if c * c ≤ n then c else r)

/-- ⌊√n⌋. -/
def isqrt (n : Nat) : Nat := isqrtFrom (Nat.log2 n / 2 + 1) n 0

/-- The square root, rounded once (R132). -/
def Fmt.sqrt (f : Fmt) (mode : Rnd) (ftz : Bool) (x : Flt) : Nat :=
  match x with
  | .nan => f.nan
  | .inf n => if n then f.nan else f.pack mode (.inf false)
  | .fin n m e =>
    if m = 0 then f.pack mode (.fin n 0 0) else if n then f.nan else
    let g := 2 * (f.fb + 4) + (if e % 2 = 0 then 0 else 1)
    let a := m * 2 ^ g
    let r := isqrt a
    f.pack mode (.fin false r ((e - g) / 2)) (r * r != a) .ieee ftz

/-- The reciprocal square root, rounded once (R132). -/
def Fmt.rsqrt (f : Fmt) (mode : Rnd) (x : Flt) : Nat :=
  match x with
  | .nan => f.nan
  | .inf n => if n then f.nan else f.pack mode (.fin false 0 0)
  | .fin n m e =>
    if m = 0 then f.pack mode (.inf n) else if n then f.nan else
    let k := 2 * (f.fb + 4) + 2 * (Nat.log2 m + 1) + (if e % 2 = 0 then 0 else 1)
    let a := 2 ^ k / m
    let r := isqrt a
    f.pack mode (.fin false r ((-e - k) / 2)) (r * r * m != 2 ^ k)

/-! ### Functions without a finite form

Fixed-point numbers of 320 fraction bits (DEDUCED, log 20): the arguments with an exact result are taken
apart; every other result is irrational, and the fixed-point number is near enough to it to lie on its
side of every number at which a rounding to f32 changes. -/

/-- ⌊ln 2 × 2^320⌋. -/
def fixLn2 : Nat := 0xB17217F7D1CF79ABC9E3B39803F2F6AF40F343267298B62D8A0D175B8BAAFA2BE7B876206DEBAC98

/-- ⌊π × 2^320⌋. -/
def fixPi : Nat := 0x3243F6A8885A308D313198A2E03707344A4093822299F31D0082EFA98EC4E6C89452821E638D01377

/-- 2^320. -/
def fixOne : Nat := 2 ^ 320

/-- Σ t_k from term k on, with t_(k+1) = t_k × z ÷ k: the exponential series. -/
def expSeries : Nat → Nat → Nat → Nat → Nat
  | 0, _, _, _ => 0
  | n + 1, k, t, z => t + expSeries n (k + 1) (t * z / fixOne / k) z

/-- 2^A rounded once (R132). -/
def Fmt.exp2 (f : Fmt) (mode : Rnd) (x : Flt) : Nat :=
  match x with
  | .nan => f.nan
  | .inf n => f.pack mode (if n then .fin false 0 0 else .inf false)
  | .fin n m e =>
    let big := 11 ≤ e + Nat.log2 m
    if m = 0 then f.pack mode (.fin false 1 0)
    else if big then (if n then f.pack mode (.fin false 1 (-1000)) else f.pack mode (.fin false 1 1000))
    else if 0 ≤ e then f.pack mode (.fin false 1 (signed n (m * 2 ^ e.toNat)))
    else
      let d : Nat := 2 ^ (-e).toNat
      let v := signed n m
      let i := v / (d : Int)
      let fr : Nat := (v % (d : Int)).toNat
      if fr = 0 then f.pack mode (.fin false 1 i)
      else f.pack mode (.fin false (expSeries 80 1 fixOne (fr * fixLn2 / d)) (i - 320)) true

/-- Σ z^(2k+1) ÷ (2k+1): the inverse hyperbolic tangent. `p` is the power reached. -/
def atanhSeries : Nat → Nat → Nat → Nat → Nat
  | 0, _, _, _ => 0
  | n + 1, k, p, z2 => p / k + atanhSeries n (k + 2) (p * z2 / fixOne) z2

/-- log2 of 1 + fr ÷ d, for 0 < fr < d, in fixed point. -/
def fixLog2 (fr d : Nat) : Nat :=
  let z := fr * fixOne / (2 * d + fr)
  2 * atanhSeries 110 1 z (z * z / fixOne) * fixOne / fixLn2

/-- log2 A rounded once (R132). Below 1, log2(x) = -log2(1 ÷ x), so that no leading bits cancel. -/
def Fmt.log2 (f : Fmt) (mode : Rnd) (x : Flt) : Nat :=
  match x with
  | .nan => f.nan
  | .inf n => if n then f.nan else f.pack mode (.inf false)
  | .fin n m e =>
    if m = 0 then f.pack mode (.inf true) else if n then f.nan else
    let l := Nat.log2 m
    let i := e + l
    let fr := m - 2 ^ l
    if fr = 0 then f.pack mode (.fin (i < 0) i.natAbs 0)
    else if 0 ≤ i then f.pack mode (.fin false (i.toNat * fixOne + fixLog2 fr (2 ^ l)) (-320)) true
    else
      -- -log2 x = (-i - 1) + log2 (2^(l+1) ÷ m), the last of 1 + (2^(l+1) - m) ÷ m
      f.pack mode (.fin true ((-i - 1).toNat * fixOne + fixLog2 (2 ^ (l + 1) - m) m) (-320)) true

/-- Σ (-1)^j t_j with t_(j+1) = t_j × z2 ÷ (k (k+1)): the sine and cosine series. -/
def trigSeries : Nat → Nat → Nat → Nat → Int
  | 0, _, _, _ => 0
  | n + 1, k, t, z2 => (t : Int) - trigSeries n (k + 2) (t * z2 / fixOne / (k * (k + 1))) z2

/-- sin(π × num ÷ den) for 0 < num ÷ den < 1/2, in fixed point. -/
def fixSin (num den : Nat) : Nat :=
  let z := num * fixPi / den
  (trigSeries 60 2 z (z * z / fixOne)).toNat

/-- sin(π × v), with v = (-1)^n × m × 2^e; `quarter` turns it by a half: cos(π v) = sin(π (v + 1/2)). -/
def Fmt.sinPi (f : Fmt) (mode : Rnd) (quarter : Bool) (x : Flt) : Nat :=
  match x with
  | .nan => f.nan
  | .inf _ => f.nan
  | .fin n m e =>
    if m = 0 then (if quarter then f.pack mode (.fin false 1 0) else f.pack mode (.fin n 0 0)) else
    let d := 2 ^ ((-e).toNat + 1)
    let num : Int := signed n (m * 2 ^ (e.toNat + 1)) + (if quarter then (d / 2 : Nat) else 0)
    let r := (num % (2 * d : Nat)).toNat
    let neg := d ≤ r
    let r1 := if neg then r - d else r
    let r2 := if d < 2 * r1 then d - r1 else r1
    if r1 = 0 then f.pack mode (.fin (mode == .down) 0 0)
    else if 2 * r2 = d then f.pack mode (.fin neg 1 0)
    else f.pack mode (.fin neg (fixSin r2 d) (-320)) true

/-! ### Integers -/

/-- The width of a type (R57, R58). -/
def tyWidth (ty : BitVec 5) : Nat := if ty == 0x10 then 2 else 8 * tyBytes ty

/-- Whether a type is signed: `.i8` to `.i64`. -/
def isSigned (ty : BitVec 5) : Bool := ty.toNat < 4

/-- The low w bits as an integer, by sign or by zeros. -/
def toInt (sgn : Bool) (w : Nat) (x : Nat) : Int :=
  let y := x % 2 ^ w
  if sgn && y.testBit (w - 1) then (y : Int) - 2 ^ w else y

/-- The low w bits of an integer (R57). -/
def wrap (w : Nat) (x : Int) : Nat := (x % (2 ^ w : Nat)).toNat

/-- The smallest and largest value of an integer type (R57). -/
def intMin (sgn : Bool) (w : Nat) : Int := if sgn then -(2 ^ (w - 1) : Nat) else 0
def intMax (sgn : Bool) (w : Nat) : Int := if sgn then (2 ^ (w - 1) : Nat) - 1 else (2 ^ w : Nat) - 1

/-- A value clamped to a type's range (R60 I, R120). -/
def clamp (sgn : Bool) (w : Nat) (x : Int) : Int := max (intMin sgn w) (min (intMax sgn w) x)

/-- A finite value rounded to an integer (R60 I). -/
def roundInt (mode : Rnd) (neg : Bool) (m : Nat) (e : Int) : Int := signed neg (roundAt mode neg m e 0 false)

/-- An integer as a value; 0 is +0. -/
def Flt.ofInt (x : Int) : Flt := .fin (x < 0) x.natAbs 0

/-! ### Conversion (R60) -/

/-- The encoding of -1, 0 or +1 as t2 (R58). -/
def t2Of (x : Int) : Nat := if x < 0 then 3 else if x = 0 then 0 else 1

/-- The value of a t2 code (R58). -/
def t2Value (c : Nat) : Int := if c % 4 = 1 then 1 else if c % 4 = 3 then -1 else 0

/-- A float value as an integer of a type: rules I and T of R60. -/
def fltToInt (mode : Rnd) (sgn : Bool) (w : Nat) (x : Flt) : Int :=
  match x with
  | .nan => 0
  | .inf n => if n then intMin sgn w else intMax sgn w
  | .fin n m e => clamp sgn w (roundInt mode n m e)

/-- What a float destination does with an overflow (R52, R55, R56). -/
def overOf (td : BitVec 5) (sat nosat : Bool) : Over :=
  if td == 0xE then (if nosat then .nan else .sat) else if td == 0xF && sat then .sat else .ieee

/-- The exact result of a conversion of an integer: a zero is negative under `.rd` (R54; DEDUCED, log 22). -/
def exactInt (mode : Rnd) (v : Int) : Flt := if v = 0 then .fin (mode == .down) 0 0 else Flt.ofInt v

/-- The conversion of the low bits of a number from one type to another (R60); the result has the
destination's width. `.sat`, `.nosat` and `.ftz` as R137 accepts them. -/
def convert (td ts : BitVec 5) (mode : Rnd) (sat nosat ftz : Bool) (x : Nat) : Nat :=
  let w := tyWidth td
  let fIn := ts.toNat ≥ 0xA && ts != 0x10
  let fOut := td.toNat ≥ 0xA && td != 0x10
  if fIn then
    let v := (fmtOf ts).value x (ftz && ts == 0xC)
    if fOut then (fmtOf td).pack mode v false (overOf td sat nosat) (ftz && td == 0xC)
    else if td == 0x10 then
      t2Of (match v with
        | .nan => 0
        | .inf n => if n then -1 else 1
        | .fin n m e => max (-1) (min 1 (roundInt mode n m e)))
    else wrap w (fltToInt mode (isSigned td) w v)
  else
    let v := if ts == 0x10 then t2Value x else toInt (isSigned ts) (tyWidth ts) x
    if fOut then (fmtOf td).pack mode (exactInt (if ts == 0x10 then .near else mode) v) false (overOf td sat nosat) (ftz && td == 0xC)
    else if td == 0x10 then t2Of v
    else if ts == 0x10 then wrap w (clamp (isSigned td) w v)
    else if sat then wrap w (clamp (isSigned td) w v)
    else wrap w v

/-! ### Single-rounding operations on encodings -/

/-- A + B. -/
def Fmt.addBits (f : Fmt) (mode : Rnd) (ftz : Bool) (a b : Nat) : Nat :=
  f.pack mode (Flt.add mode (f.value a ftz) (f.value b ftz)) false .ieee ftz

/-- A - B. -/
def Fmt.subBits (f : Fmt) (mode : Rnd) (ftz : Bool) (a b : Nat) : Nat :=
  f.pack mode (Flt.add mode (f.value a ftz) (f.value b ftz).negate) false .ieee ftz

/-- A × B. -/
def Fmt.mulBits (f : Fmt) (mode : Rnd) (ftz : Bool) (a b : Nat) : Nat :=
  f.pack mode (Flt.mul (f.value a ftz) (f.value b ftz)) false .ieee ftz

/-- A × B + C with one rounding. -/
def Fmt.fmaBits (f : Fmt) (mode : Rnd) (ftz : Bool) (a b c : Nat) : Nat :=
  f.pack mode (Flt.add mode (Flt.mul (f.value a ftz) (f.value b ftz)) (f.value c ftz)) false .ieee ftz

/-- A ÷ B. -/
def Fmt.divBits (f : Fmt) (mode : Rnd) (ftz : Bool) (a b : Nat) : Nat :=
  f.div mode ftz (f.value a ftz) (f.value b ftz)

/-- An operand as `fmin` and `fmax` read it: under `ftz` a subnormal is its zero (R133). -/
def Fmt.flush (f : Fmt) (ftz : Bool) (a : Nat) : Nat :=
  let mag := a % 2 ^ f.mag
  if ftz && mag < 2 ^ f.fb then a % 2 ^ (f.mag + 1) - mag else a % 2 ^ (f.mag + 1)

/-- The smaller (`big` false) or larger operand (R133). -/
def Fmt.minmax (f : Fmt) (big ftz : Bool) (a b : Nat) : Nat :=
  let x := f.flush ftz a
  let y := f.flush ftz b
  match f.value x, f.value y with
  | .nan, .nan => f.nan
  | .nan, _ => y
  | _, .nan => x
  | u, v =>
    match Flt.cmp u v with
    | some .lt => if big then y else x
    | some .gt => if big then x else y
    | _ => if u.neg? = v.neg? then x else if u.neg? = big then y else x

/-- A rounded to an integral value of its format (R134). -/
def Fmt.integral (f : Fmt) (mode : Rnd) (ftz : Bool) (a : Nat) : Nat :=
  match f.value a ftz with
  | .nan => f.nan
  | .inf n => f.pack mode (.inf n)
  | .fin n m e => if 0 ≤ e then f.pack mode (.fin n m e) else f.pack .near (.fin n (roundAt mode n m e 0 false) 0)

/-- The class bit of a value (R135). -/
def Fmt.classBit (f : Fmt) (a : Nat) : Nat :=
  let neg := a.testBit f.mag
  let mag := a % 2 ^ f.mag
  match f.value a with
  | .nan => 8
  | .inf n => if n then 0 else 7
  | .fin _ _ _ =>
    if mag = 0 then (if neg then 3 else 4)
    else if mag < 2 ^ f.fb then (if neg then 2 else 5)
    else (if neg then 1 else 6)

/-- Rounds to the nearest integer, ties to even: the rni of R63, for n ÷ 2^k. -/
def rni (n : Int) (k : Nat) : Int := roundInt .near (n < 0) n.natAbs (-(k : Int))

end Sys2Proof.Machine
end

