-- ==== Sys2Proof/Machine/Flags.lean ====
section
/-! DEFINITION. What the D9 has in place of flags: comparisons into predicates and their combination
(R85, R126, R145), carries and borrows (R122), and predicate logic (R128, R129). -/

namespace Sys2Proof.Machine

/-- A comparison code against an ordering; `none` is unordered (R85). -/
def ccHolds (cc : Nat) (o : Option Ordering) : Bool :=
  match cc with
  | 0 => o == some .eq
  | 1 => o != some .eq
  | 2 => o == some .lt
  | 3 => o == some .lt || o == some .eq
  | 4 => o == some .gt
  | 5 => o == some .gt || o == some .eq
  | 6 => o.isSome
  | _ => o.isNone

/-- An integer comparison of two operands of a type (R126). -/
def icmpHolds (cc : Nat) (ty : BitVec 5) (a b : W64) : Bool :=
  let v (x : W64) : Int := toInt (isSigned ty) (tyWidth ty) x.toNat
  ccHolds cc (some (compare (v a) (v b)))

/-- A float comparison of two operands of a type; zeros are equal (R126). -/
def fcmpHolds (cc : Nat) (ty : BitVec 5) (ftz : Bool) (a b : W64) : Bool :=
  let v (x : W64) : Flt := (fmtOf ty).value (x.toNat % 2 ^ tyWidth ty) ftz
  ccHolds cc (Flt.cmp (v a) (v b))

/-- The combining rule of a comparison (R126). -/
def combine (rule : Nat) (r c : Bool) : Bool := if rule = 1 then r && c else if rule = 2 then r || c else r

/-- Sum with a carry-in, and its carry-out (R122). -/
def addCarry (w a b : Nat) (cin : Bool) : Nat × Bool :=
  let t := a % 2 ^ w + b % 2 ^ w + (if cin then 1 else 0)
  (t % 2 ^ w, 2 ^ w ≤ t)

/-- Difference with a borrow-in, and its borrow-out (R122). -/
def subBorrow (w a b : Nat) (cin : Bool) : Nat × Bool :=
  let t : Int := (a % 2 ^ w : Nat) - (b % 2 ^ w : Nat) - (if cin then 1 else 0)
  (wrap w t, t < 0)

/-- A function of three predicates by its table (R129). -/
def tableBit (lut : BitVec 8) (a b c : Bool) : Bool :=
  lut.getLsbD ((if a then 4 else 0) + (if b then 2 else 0) + (if c then 1 else 0))

/-- The predicate word after `pset.load` (R128). -/
def loadPreds (old : BitVec 16) (a b : W32) : BitVec 16 :=
  let m := b.extractLsb' 0 16 &&& 0xFFFE
  old &&& ~~~m ||| (a.extractLsb' 0 16 &&& m)

end Sys2Proof.Machine
end

