-- ==== Sys2Proof/Config.lean ====
section
/-! DEFINITION. What the manual leaves to an implementation or does not define, as constants without
a body: nothing can evaluate them, so a statement that holds of the model holds whatever they are. -/

namespace Sys2Proof.Config

/-- SHA3-256 of a string of bytes (R470, R473, R474, R475 name the function and do not define it). -/
opaque sha3 : List Byte → List Byte

/-- Whether an ML-DSA-44 signature verifies: public key, message, signature (R471, R473, R475). -/
opaque mldsaVerify : List Byte → List Byte → List Byte → Bool

/-- The ML-DSA-44 signature of a message under the identity key that a seed gives (R469, R474). -/
opaque mldsaSign : List Byte → List Byte → List Byte

/-- The identity public key that ML-DSA-44 key generation gives for a seed (R469). -/
opaque identityKey : List Byte → List Byte

/-- Weaham's public key in the boot ROM that verifies the loader and the configuration record (R470, R473). -/
opaque weahamKey : List Byte

/-- The boot ROM's digest, measurement M1 (R473). -/
opaque bootRomDigest : List Byte

/-- The layout of SPDM 1.4 response messages, which the manual takes from that standard (R474):
a request code and the response's data give the message's bytes. -/
opaque spdmMessage : Nat → List Byte → List Byte

/-- Bytes of a logical block of an NVMe namespace (R440 names blocks and does not give their size). -/
opaque blockBytes : BitVec 32 → Nat

/-- The bytes that the signature of an image manifest covers: the image's length and digest (R475 gives no layout). -/
opaque manifestBytes : Nat → List Byte → List Byte

/-- The layout of the answers of the management function (R487 gives none): a command code and the answer's data. -/
opaque managementMessage : Nat → List Byte → List Byte

/-- Lanes of the links of the package, by link number (R465; R480 and R482 give those of the host and fabric ports). -/
opaque linkLanes : Nat → Nat

/-- Engine clocks of one line of a copy and of one fragment (R461 weighs launches by them). -/
opaque lineClocks : Nat
opaque fragmentClocks : Nat

/-- Fragments beyond the first that a tile's order queue holds before it spills, fragments that a spill area of SPLEN units holds,
and what the ROU writes there, by the number of the spill: offset and byte (R379 fixes none of them). -/
opaque orderQueue : Nat
opaque spillRoom : Nat → Nat
opaque spillCells : Nat → List (Nat × Byte)

/-- What a host read with No Snoop, of a number, sees at an address that no `cflush` has written (R308 states no value). -/
opaque unflushed : Nat → Nat → BitVec 8

/-- Bytes moved for a launch at the LLC slices and memory controllers in the uncore meter's interval of a number (R461):
they depend on caches that the manual does not fix. -/
opaque uncoreBytes : Nat → Nat → Nat

end Sys2Proof.Config
end

