-- ==== Sys2Proof/WellFormed.lean ====
section
/-! DEFINITION. Which instructions are well formed: those whose fields pass the checks *reserved field*
and *reserved value* of R100, and the words of no assigned opcode. An event is never encoded and is not
well formed in this sense. -/

namespace Sys2Proof

/-- Whether an instruction uses only the fields and the values that its description gives. -/
def Instr.wf (i : Instr) : Bool :=
  match i with
  | .unassignedOpcode w => !Machine.assigned (w.extractLsb' 56 8).toNat (w.extractLsb' 0 3).toNat
  | i =>
    match Machine.form i with
    | some f => !f.badField && !f.badValue
    | none => false

/-- The well-formed instructions. -/
abbrev Instr.WellFormed (i : Instr) : Prop := i.wf = true

end Sys2Proof
end

