-- ==== Sys2Proof/Decode.lean ====
section
/-! DEFINITION. Instruction words: the decoder, total on every word and rejecting by name, and after it
the encoder, both written from the payload formats of R84 to R96 and the opcode map of R97 and R99. -/

namespace Sys2Proof

/-- Why a word of an assigned opcode is no instruction: the checks *reserved field* and *reserved value*
of R100. A word of an unassigned opcode is the instruction `unassignedOpcode`. -/
inductive Reject where
  | reservedField
  | reservedValue
  deriving DecidableEq, Repr

/-- What the decoder reads from a word. -/
inductive Decoded where
  | instr (i : Instr)
  | reject (r : Reject)
  deriving DecidableEq, Repr

/-- GP and GS (R79). -/
def getGuard (w : W64) : Guard :=
  { gp := w.extractLsb' 52 4, gs := w.extractLsb' 51 1 }

/-- The RRR payload of a word (R84). -/
def getRRR (w : W64) : RRR :=
  { d := w.extractLsb' 43 8, a := w.extractLsb' 35 8, b := w.extractLsb' 27 8,
    c := w.extractLsb' 19 8, usrc := w.extractLsb' 16 3, ty := w.extractLsb' 11 5,
    rnd := w.extractLsb' 8 3, opx := w.extractLsb' 0 8 }

/-- The RK payload of a word (R86). -/
def getRK (w : W64) : RK :=
  { d := w.extractLsb' 43 8, a := w.extractLsb' 35 8, c := w.extractLsb' 27 8,
    win := w.extractLsb' 24 3, woff := w.extractLsb' 7 17, ty := w.extractLsb' 2 5,
    rnd := w.extractLsb' 0 2 }

/-- The RI payload of a word (R88). -/
def getRI (w : W64) : RI :=
  { d := w.extractLsb' 43 8, a := w.extractLsb' 35 8, imm := w.extractLsb' 3 32,
    ity := w.extractLsb' 0 3 }

/-- The MEM payload of a word (R89). -/
def getMEM (w : W64) : MEM :=
  { data := w.extractLsb' 43 8, idx := w.extractLsb' 35 8, buf := w.extractLsb' 30 5,
    scope := w.extractLsb' 27 3, ord := w.extractLsb' 23 4, ty := w.extractLsb' 18 5,
    off := w.extractLsb' 10 8, cache := w.extractLsb' 8 2, mopx := w.extractLsb' 0 8 }

/-- The MX payload of a word (R90). -/
def getMX (w : W64) : MX :=
  { acc := w.extractLsb' 48 3, tile := w.extractLsb' 44 4, quad := w.extractLsb' 42 2,
    va := w.extractLsb' 34 8, gs := w.extractLsb' 27 7, aty := w.extractLsb' 22 5,
    nslab := w.extractLsb' 14 8, mxopx := w.extractLsb' 0 14 }

/-- The CP payload of a word (R91). -/
def getCP (w : W64) : CP :=
  { trec := w.extractLsb' 46 5, gsa := w.extractLsb' 39 7, gba := w.extractLsb' 32 7,
    cmask := w.extractLsb' 16 16, scope := w.extractLsb' 13 3, cpopx := w.extractLsb' 0 13 }

/-- The BR payload of a word (R92). -/
def getBR (w : W64) : BR :=
  { va := w.extractLsb' 43 8, vb := w.extractLsb' 35 8, disp := w.extractLsb' 3 32,
    ctopx := w.extractLsb' 0 3 }

/-- The SY payload of a word (R93). -/
def getSY (w : W64) : SY :=
  { va := w.extractLsb' 43 8, vb := w.extractLsb' 35 8, pd := w.extractLsb' 31 4,
    scope := w.extractLsb' 28 3, cond := w.extractLsb' 26 2, syimm := w.extractLsb' 3 23,
    sub := w.extractLsb' 0 3 }

/-- The RT payload of a word (R94). -/
def getRT (w : W64) : RT :=
  { qd := w.extractLsb' 48 3, qs := w.extractLsb' 45 3, va := w.extractLsb' 37 8,
    vb := w.extractLsb' 29 8, vc := w.extractLsb' 21 8, pd := w.extractLsb' 17 4,
    rtimm := w.extractLsb' 3 14, sub := w.extractLsb' 0 3 }

/-- The GX payload of a word (R95). -/
def getGX (w : W64) : GX :=
  { vd := w.extractLsb' 43 8, va := w.extractLsb' 35 8, vb := w.extractLsb' 27 8,
    desc := w.extractLsb' 22 5, pd := w.extractLsb' 18 4, gxopx := w.extractLsb' 0 18 }

/-- The SYS payload of a word (R96). -/
def getSYS (w : W64) : SYS :=
  { va := w.extractLsb' 43 8, vb := w.extractLsb' 35 8, ga := w.extractLsb' 28 7,
    code := w.extractLsb' 12 16, sysopx := w.extractLsb' 0 12 }

/-- Opcodes 0x00 to 0x0F by their low four bits (R99). -/
def decodePage0 (w : W64) : Nat → Instr :=
  let g := getGuard w
  fun lo => match lo with
  | 0x0 => .iadd g (getRRR w)
  | 0x1 => .isub g (getRRR w)
  | 0x2 => .imul g (getRRR w)
  | 0x3 => .imulhi g (getRRR w)
  | 0x4 => .imad g (getRRR w)
  | 0x5 => .imadw g (getRRR w)
  | 0x6 => .idiv g (getRRR w)
  | 0x7 => .irem g (getRRR w)
  | 0x8 => .imin g (getRRR w)
  | 0x9 => .imax g (getRRR w)
  | 0xA => .iabs g (getRRR w)
  | 0xB => .ineg g (getRRR w)
  | 0xC => .addc g (getRRR w)
  | 0xD => .subb g (getRRR w)
  | 0xE => .lea g (getRRR w)
  | 0xF => .andB g (getRRR w)
  | _ => .unassignedOpcode w

/-- Opcodes 0x10 to 0x1F by their low four bits (R99). -/
def decodePage1 (w : W64) : Nat → Instr :=
  let g := getGuard w
  fun lo => match lo with
  | 0x0 => .orB g (getRRR w)
  | 0x1 => .xorB g (getRRR w)
  | 0x2 => .notB g (getRRR w)
  | 0x3 => .shl g (getRRR w)
  | 0x4 => .shr g (getRRR w)
  | 0x5 => .sar g (getRRR w)
  | 0x6 => .rot g (getRRR w)
  | 0x7 => .popc g (getRRR w)
  | 0x8 => .clz g (getRRR w)
  | 0x9 => .brev g (getRRR w)
  | 0xA => .bfx g (getRRR w)
  | 0xB => .bfi g (getRRR w)
  | 0xC => .icmp g (getRRR w)
  | 0xD => .fcmp g (getRRR w)
  | 0xE => .sel g (getRRR w)
  | 0xF => if w.extractLsb' 0 2 == 1 then .psetSave g (getRRR w)
    else if w.extractLsb' 0 2 == 2 then .psetLoad g (getRRR w) else .pset g (getRRR w)
  | _ => .unassignedOpcode w

/-- Opcodes 0x20 to 0x2F by their low four bits (R99). -/
def decodePage2 (w : W64) : Nat → Instr :=
  let g := getGuard w
  fun lo => match lo with
  | 0x0 => .plop g (getRRR w)
  | 0x1 => .fadd g (getRRR w)
  | 0x2 => .fsub g (getRRR w)
  | 0x3 => .fmul g (getRRR w)
  | 0x4 => .ffma g (getRRR w)
  | 0x5 => .fmin g (getRRR w)
  | 0x6 => .fmax g (getRRR w)
  | 0x7 => .frcp g (getRRR w)
  | 0x8 => .frsq g (getRRR w)
  | 0x9 => .fsqrt g (getRRR w)
  | 0xA => .fdiv g (getRRR w)
  | 0xB => .fex2 g (getRRR w)
  | 0xC => .flg2 g (getRRR w)
  | 0xD => .fsin g (getRRR w)
  | 0xE => .fcos g (getRRR w)
  | 0xF => .frnd g (getRRR w)
  | _ => .unassignedOpcode w

/-- Opcodes 0x30 to 0x3F by their low four bits (R99). -/
def decodePage3 (w : W64) : Nat → Instr :=
  let g := getGuard w
  fun lo => match lo with
  | 0x0 => .fclass g (getRRR w)
  | 0x1 => .dadd g (getRRR w)
  | 0x2 => .dmul g (getRRR w)
  | 0x3 => .dfma g (getRRR w)
  | 0x4 => .ddiv g (getRRR w)
  | 0x5 => .hadd2 g (getRRR w)
  | 0x6 => .hmul2 g (getRRR w)
  | 0x7 => .hfma2 g (getRRR w)
  | 0x8 => .bfma2 g (getRRR w)
  | 0x9 => .cvt g (getRRR w)
  | 0xA => .f8pk g (getRRR w)
  | 0xB => .f8upk g (getRRR w)
  | 0xC => .mov g (getRRR w)
  | 0xD => .movi g (getRI w)
  | 0xE => .movk g (getRK w)
  | 0xF => .movg g (getRRR w)
  | _ => .unassignedOpcode w

/-- Opcodes 0x40 to 0x4F by their low four bits (R99). -/
def decodePage4 (w : W64) : Nat → Instr :=
  let g := getGuard w
  fun lo => match lo with
  | 0x0 => .vtog g (getRRR w)
  | 0x1 => .rdsr g (getRRR w)
  | 0x2 => .wrsr g (getRRR w)
  | 0x3 => .stage g (getRRR w)
  | 0x4 => .shfl g (getRRR w)
  | 0x5 => .vote g (getRRR w)
  | 0x6 => .lred g (getRRR w)
  | 0x7 => .lscan g (getRRR w)
  | 0x8 => .lfind g (getRRR w)
  | 0x9 => .iaddRk g (getRK w)
  | 0xA => .isubRk g (getRK w)
  | 0xB => .imulRk g (getRK w)
  | 0xC => .imadRk g (getRK w)
  | 0xD => .andRk g (getRK w)
  | 0xE => .orRk g (getRK w)
  | 0xF => .xorRk g (getRK w)
  | _ => .unassignedOpcode w

/-- Opcodes 0x50 to 0x5F by their low four bits (R99). -/
def decodePage5 (w : W64) : Nat → Instr :=
  let g := getGuard w
  fun lo => match lo with
  | 0x0 => .icmpRk g (getRK w)
  | 0x1 => .faddRk g (getRK w)
  | 0x2 => .fmulRk g (getRK w)
  | 0x3 => .ffmaRk g (getRK w)
  | 0x4 => .fcmpRk g (getRK w)
  | 0x5 => .iaddRi g (getRI w)
  | 0x6 => .imulRi g (getRI w)
  | 0x7 => .andRi g (getRI w)
  | 0x8 => .orRi g (getRI w)
  | 0x9 => .xorRi g (getRI w)
  | 0xA => .shlRi g (getRI w)
  | 0xB => .shrRi g (getRI w)
  | 0xC => .sarRi g (getRI w)
  | 0xD => .icmpRi g (getRI w)
  | 0xE => .faddRi g (getRI w)
  | 0xF => .fmulRi g (getRI w)
  | _ => .unassignedOpcode w

/-- Opcodes 0x60 to 0x6F by their low four bits (R99). -/
def decodePage6 (w : W64) : Nat → Instr :=
  let g := getGuard w
  fun lo => match lo with
  | 0x0 => .gadd g (getRRR w)
  | 0x1 => .gsub g (getRRR w)
  | 0x2 => .gmul g (getRRR w)
  | 0x3 => .gmin g (getRRR w)
  | 0x4 => .gand g (getRRR w)
  | 0x5 => .gor g (getRRR w)
  | 0x6 => .gxor g (getRRR w)
  | 0x7 => .gshl g (getRRR w)
  | 0x8 => .gshr g (getRRR w)
  | 0x9 => .gcmp g (getRRR w)
  | 0xA => .gsel g (getRRR w)
  | 0xB => .gmov g (getRRR w)
  | 0xC => .glea g (getRRR w)
  | _ => .unassignedOpcode w

/-- Opcodes 0x70 to 0x7F by their low four bits (R99). -/
def decodePage7 (w : W64) : Nat → Instr :=
  let g := getGuard w
  fun lo => match lo with
  | 0x0 => .gaddRi g (getRI w)
  | 0x1 => .gandRi g (getRI w)
  | 0x2 => .gorRi g (getRI w)
  | 0x3 => .gxorRi g (getRI w)
  | 0x4 => .gshlRi g (getRI w)
  | 0x5 => .gshrRi g (getRI w)
  | 0x6 => .gcmpRi g (getRI w)
  | 0x7 => .gmovRi g (getRI w)
  | 0x8 => .gaddRk g (getRK w)
  | 0x9 => .gcmpRk g (getRK w)
  | 0xA => .gmovRk g (getRK w)
  | 0xB => .gld g (getRK w)
  | _ => .unassignedOpcode w

/-- Opcodes 0x80 to 0x8F by their low four bits (R99). -/
def decodePage8 (w : W64) : Nat → Instr :=
  let g := getGuard w
  fun lo => match lo with
  | 0x0 => .ld g (getMEM w)
  | 0x1 => .st g (getMEM w)
  | 0x2 => .lds g (getMEM w)
  | 0x3 => .sts g (getMEM w)
  | 0x4 => .ldk g (getMEM w)
  | 0x5 => .ldx g (getMEM w)
  | 0x6 => .atom g (getMEM w)
  | 0x7 => .redI g (getMEM w)
  | 0x8 => .fence g (getMEM w)
  | 0x9 => .cflush g (getMEM w)
  | 0xA => if w.extractLsb' 0 2 == 1 then .cinvKall g (getMEM w)
    else if w.extractLsb' 0 2 == 2 then .cinvL1 g (getMEM w) else .cinvK g (getMEM w)
  | 0xB => .icinv g (getMEM w)
  | 0xC => .pref g (getMEM w)
  | 0xD => if w.getLsbD 7 then .smapUnmap g (getMEM w) else .smap g (getMEM w)
  | 0xE => if w.getLsbD 3 then .swbAll g (getMEM w) else .swb g (getMEM w)
  | 0xF => .ldmc g (getMEM w)
  | _ => .unassignedOpcode w

/-- Opcodes 0xA0 to 0xAF by their low four bits (R99). -/
def decodePageA (w : W64) : Nat → Instr :=
  let g := getGuard w
  fun lo => match lo with
  | 0x0 => if w.extractLsb' 12 2 == 1 then .mcfgUnbind g (getMX w)
    else if w.extractLsb' 12 2 == 2 then .mcfgMode g (getMX w) else .mcfgBind g (getMX w)
  | 0x1 => .mlatch g (getMX w)
  | 0x2 => .mma g (getMX w)
  | 0x3 => .mmas g (getMX w)
  | 0x4 => .mmat g (getMX w)
  | 0x5 => .mdrain g (getMX w)
  | 0x6 => .mzero g (getMX w)
  | 0x7 => .mstat g (getMX w)
  | _ => .unassignedOpcode w

/-- Opcodes 0xB0 to 0xBF by their low four bits (R99). -/
def decodePageB (w : W64) : Nat → Instr :=
  let g := getGuard w
  fun lo => match lo with
  | 0x0 => .cpy g (getCP w)
  | 0x1 => .cpyg g (getCP w)
  | 0x2 => .cpys g (getCP w)
  | 0x3 => .cpymc g (getCP w)
  | 0x4 => .coll g (getCP w)
  | 0x5 => .trec g (getCP w)
  | _ => .unassignedOpcode w

/-- Opcodes 0xC0 to 0xCF by their low four bits (R99). -/
def decodePageC (w : W64) : Nat → Instr :=
  let g := getGuard w
  fun lo => match lo with
  | 0x0 => .bra g (getBR w)
  | 0x1 => if w.extractLsb' 0 3 == 1 then .brxRel g (getBR w) else .brx g (getBR w)
  | 0x2 => if w.extractLsb' 0 3 == 1 then .callX g (getBR w) else .call g (getBR w)
  | 0x3 => .ret g (getBR w)
  | 0x4 => .fork g (getBR w)
  | 0x5 => .exit g (getBR w)
  | 0x6 => .yield g (getBR w)
  | 0x7 => .nop g (getBR w)
  | 0x8 => .launch g (getBR w)
  | _ => .unassignedOpcode w

/-- Opcodes 0xD0 to 0xDF by their low four bits (R99). -/
def decodePageD (w : W64) : Nat → Instr :=
  let g := getGuard w
  fun lo => match lo with
  | 0x0 => .barinit g (getSY w)
  | 0x1 => if w.extractLsb' 0 3 == 0 then .bararr g (getSY w)
    else if w.extractLsb' 0 3 == 1 then .barexp g (getSY w) else .unassignedOpcode w
  | 0x2 => if w.extractLsb' 0 3 == 0 then .waitPh g (getSY w)
    else if w.extractLsb' 0 3 == 1 then .waitM g (getSY w) else .unassignedOpcode w
  | 0x3 => if w.extractLsb' 0 3 == 0 then .trigger g (getSY w)
    else if w.extractLsb' 0 3 == 1 then .gridwait g (getSY w) else .unassignedOpcode w
  | 0x8 => .rsvclr g (getRT w)
  | 0x9 => .rsvupd g (getRT w)
  | 0xA => .rsvmrg g (getRT w)
  | 0xB => if w.getLsbD 16 then .rsvcapI g (getRT w) else .rsvcap g (getRT w)
  | 0xC => .rsvfin g (getRT w)
  | 0xD => if w.extractLsb' 0 3 == 0 then
      if w.extractLsb' 45 3 == 1 then .rsvldS g (getRT w)
      else if w.extractLsb' 45 3 == 2 then .rsvldX g (getRT w) else .rsvld g (getRT w)
    else if w.extractLsb' 0 3 == 1 then
      if w.extractLsb' 45 3 == 1 then .rsvstS g (getRT w) else .rsvst g (getRT w)
    else .unassignedOpcode w
  | 0xE => .rsvdraw g (getRT w)
  | 0xF => if w.extractLsb' 0 3 == 0 then
      if w.getLsbD 3 then .tagnewTry g (getRT w) else .tagnew g (getRT w)
    else if w.extractLsb' 0 3 == 1 then .tagret g (getRT w)
    else if w.extractLsb' 0 3 == 2 then .tagset g (getRT w)
    else if w.extractLsb' 0 3 == 3 then
      if w.getLsbD 3 then .taggetInfo g (getRT w) else .tagget g (getRT w)
    else if w.extractLsb' 0 3 == 4 then .tagpub g (getRT w)
    else .unassignedOpcode w
  | _ => .unassignedOpcode w

/-- Opcodes 0xE0 to 0xEF by their low four bits (R99). -/
def decodePageE (w : W64) : Nat → Instr :=
  let g := getGuard w
  fun lo => match lo with
  | 0x0 => if w.extractLsb' 16 2 == 1 then .traceRej g (getGX w)
    else if w.extractLsb' 16 2 == 2 then .traceAcc g (getGX w) else .trace g (getGX w)
  | 0x1 => .hret g (getGX w)
  | 0x2 => .traq g (getGX w)
  | 0x3 => .rast g (getGX w)
  | 0x4 => .tex g (getGX w)
  | 0x5 => .texl g (getGX w)
  | 0x6 => .texg g (getGX w)
  | 0x7 => .texres g (getGX w)
  | 0x8 => .texfb g (getGX w)
  | 0x9 => .blend g (getGX w)
  | 0xA => .rqpush g (getGX w)
  | 0xB => .rqpop g (getGX w)
  | _ => .unassignedOpcode w

/-- Opcodes 0xF0 to 0xFF by their low four bits (R99). -/
def decodePageF (w : W64) : Nat → Instr :=
  let g := getGuard w
  fun lo => match lo with
  | 0x0 => .trapI g (getSYS w)
  | 0x1 => .brk g (getSYS w)
  | 0x2 => if w.extractLsb' 0 2 == 0 then .tretRetry g (getSYS w)
    else if w.extractLsb' 0 2 == 1 then .tretSkip g (getSYS w)
    else if w.extractLsb' 0 2 == 2 then .tretKillf g (getSYS w) else .tretKillg g (getSYS w)
  | 0x3 => .capinv g (getSYS w)
  | 0x4 => .upcall g (getSYS w)
  | 0x5 => .rdctr g (getSYS w)
  | _ => .unassignedOpcode w

/-- The instruction that the opcode of a word, with the sub-opcode and form bits that divide it, selects,
its fields as they stand (R97, R99). -/
def decodeFields (w : W64) : Instr :=
  let lo := (w.extractLsb' 56 4).toNat
  match (w.extractLsb' 60 4).toNat with
  | 0x0 => decodePage0 w lo
  | 0x1 => decodePage1 w lo
  | 0x2 => decodePage2 w lo
  | 0x3 => decodePage3 w lo
  | 0x4 => decodePage4 w lo
  | 0x5 => decodePage5 w lo
  | 0x6 => decodePage6 w lo
  | 0x7 => decodePage7 w lo
  | 0x8 => decodePage8 w lo
  | 0xA => decodePageA w lo
  | 0xB => decodePageB w lo
  | 0xC => decodePageC w lo
  | 0xD => decodePageD w lo
  | 0xE => decodePageE w lo
  | 0xF => decodePageF w lo
  | _ => .unassignedOpcode w

/-- The field check that an instruction fails, the *reserved field* check first (R100). -/
def rejection (i : Instr) : Option Reject :=
  match Machine.form i with
  | some f => if f.badField then some .reservedField else if f.badValue then some .reservedValue else none
  | none => none

/-- The instruction of a word, or why it is none. -/
def decode (w : W64) : Decoded :=
  let i := decodeFields w
  match rejection i with
  | some r => .reject r
  | none => .instr i

/-- A little-endian number of bytes (R5), the first byte least significant. -/
def fromBytesLE : List Byte → Nat
  | [] => 0
  | b :: bs => b.toNat + 256 * fromBytesLE bs

/-- The bytes of a number, least significant first (R5). -/
def toBytesLE : Nat → Nat → List Byte
  | 0, _ => []
  | n + 1, x => BitVec.ofNat 8 x :: toBytesLE n (x / 256)

/-- The decoder on the bytes of memory: an instruction is a word of eight bytes, the least significant
first (R5, R79); fewer bytes are no instruction. -/
def decodeBytes (bs : List Byte) : Option Decoded :=
  if 8 ≤ bs.length then some (decode (BitVec.ofNat 64 (fromBytesLE (bs.take 8)))) else none

/-- The decoder on a word of the opcode table, laid out as memory holds it. -/
def decodeTableWord (nbits w : Nat) : Option Instr :=
  match decodeBytes (toBytesLE 8 (w % 2 ^ max nbits 64)) with
  | some (.instr i) => some i
  | _ => none

/-! ### The encoder -/

/-- A word of the RRR format (R79, R84). -/
def putRRR (opc : BitVec 8) (g : Guard) (x : RRR) : W64 :=
  opc ++ g.gp ++ g.gs ++ x.d ++ x.a ++ x.b ++ x.c ++ x.usrc ++ x.ty ++ x.rnd ++ x.opx

/-- A word of the RK format (R79, R86). -/
def putRK (opc : BitVec 8) (g : Guard) (x : RK) : W64 :=
  opc ++ g.gp ++ g.gs ++ x.d ++ x.a ++ x.c ++ x.win ++ x.woff ++ x.ty ++ x.rnd

/-- A word of the RI format (R79, R88). -/
def putRI (opc : BitVec 8) (g : Guard) (x : RI) : W64 :=
  opc ++ g.gp ++ g.gs ++ x.d ++ x.a ++ x.imm ++ x.ity

/-- A word of the MEM format (R79, R89). -/
def putMEM (opc : BitVec 8) (g : Guard) (x : MEM) : W64 :=
  opc ++ g.gp ++ g.gs ++ x.data ++ x.idx ++ x.buf ++ x.scope ++ x.ord ++ x.ty ++ x.off ++ x.cache ++ x.mopx

/-- A word of the MX format (R79, R90). -/
def putMX (opc : BitVec 8) (g : Guard) (x : MX) : W64 :=
  opc ++ g.gp ++ g.gs ++ x.acc ++ x.tile ++ x.quad ++ x.va ++ x.gs ++ x.aty ++ x.nslab ++ x.mxopx

/-- A word of the CP format (R79, R91). -/
def putCP (opc : BitVec 8) (g : Guard) (x : CP) : W64 :=
  opc ++ g.gp ++ g.gs ++ x.trec ++ x.gsa ++ x.gba ++ x.cmask ++ x.scope ++ x.cpopx

/-- A word of the BR format (R79, R92). -/
def putBR (opc : BitVec 8) (g : Guard) (x : BR) : W64 :=
  opc ++ g.gp ++ g.gs ++ x.va ++ x.vb ++ x.disp ++ x.ctopx

/-- A word of the SY format (R79, R93). -/
def putSY (opc : BitVec 8) (g : Guard) (x : SY) : W64 :=
  opc ++ g.gp ++ g.gs ++ x.va ++ x.vb ++ x.pd ++ x.scope ++ x.cond ++ x.syimm ++ x.sub

/-- A word of the RT format (R79, R94). -/
def putRT (opc : BitVec 8) (g : Guard) (x : RT) : W64 :=
  opc ++ g.gp ++ g.gs ++ x.qd ++ x.qs ++ x.va ++ x.vb ++ x.vc ++ x.pd ++ x.rtimm ++ x.sub

/-- A word of the GX format (R79, R95). -/
def putGX (opc : BitVec 8) (g : Guard) (x : GX) : W64 :=
  opc ++ g.gp ++ g.gs ++ x.vd ++ x.va ++ x.vb ++ x.desc ++ x.pd ++ x.gxopx

/-- A word of the SYS format (R79, R96). -/
def putSYS (opc : BitVec 8) (g : Guard) (x : SYS) : W64 :=
  opc ++ g.gp ++ g.gs ++ x.va ++ x.vb ++ x.ga ++ x.code ++ x.sysopx

/-- The word of an instruction (R79, R99). An event has no encoding; its word is 0. -/
def encode : Instr → W64
  | .iadd g x => putRRR 0x00 g x
  | .isub g x => putRRR 0x01 g x
  | .imul g x => putRRR 0x02 g x
  | .imulhi g x => putRRR 0x03 g x
  | .imad g x => putRRR 0x04 g x
  | .imadw g x => putRRR 0x05 g x
  | .idiv g x => putRRR 0x06 g x
  | .irem g x => putRRR 0x07 g x
  | .imin g x => putRRR 0x08 g x
  | .imax g x => putRRR 0x09 g x
  | .iabs g x => putRRR 0x0A g x
  | .ineg g x => putRRR 0x0B g x
  | .addc g x => putRRR 0x0C g x
  | .subb g x => putRRR 0x0D g x
  | .lea g x => putRRR 0x0E g x
  | .andB g x => putRRR 0x0F g x
  | .orB g x => putRRR 0x10 g x
  | .xorB g x => putRRR 0x11 g x
  | .notB g x => putRRR 0x12 g x
  | .shl g x => putRRR 0x13 g x
  | .shr g x => putRRR 0x14 g x
  | .sar g x => putRRR 0x15 g x
  | .rot g x => putRRR 0x16 g x
  | .popc g x => putRRR 0x17 g x
  | .clz g x => putRRR 0x18 g x
  | .brev g x => putRRR 0x19 g x
  | .bfx g x => putRRR 0x1A g x
  | .bfi g x => putRRR 0x1B g x
  | .icmp g x => putRRR 0x1C g x
  | .fcmp g x => putRRR 0x1D g x
  | .sel g x => putRRR 0x1E g x
  | .pset g x => putRRR 0x1F g x
  | .psetSave g x => putRRR 0x1F g x
  | .psetLoad g x => putRRR 0x1F g x
  | .plop g x => putRRR 0x20 g x
  | .fadd g x => putRRR 0x21 g x
  | .fsub g x => putRRR 0x22 g x
  | .fmul g x => putRRR 0x23 g x
  | .ffma g x => putRRR 0x24 g x
  | .fmin g x => putRRR 0x25 g x
  | .fmax g x => putRRR 0x26 g x
  | .frcp g x => putRRR 0x27 g x
  | .frsq g x => putRRR 0x28 g x
  | .fsqrt g x => putRRR 0x29 g x
  | .fdiv g x => putRRR 0x2A g x
  | .fex2 g x => putRRR 0x2B g x
  | .flg2 g x => putRRR 0x2C g x
  | .fsin g x => putRRR 0x2D g x
  | .fcos g x => putRRR 0x2E g x
  | .frnd g x => putRRR 0x2F g x
  | .fclass g x => putRRR 0x30 g x
  | .dadd g x => putRRR 0x31 g x
  | .dmul g x => putRRR 0x32 g x
  | .dfma g x => putRRR 0x33 g x
  | .ddiv g x => putRRR 0x34 g x
  | .hadd2 g x => putRRR 0x35 g x
  | .hmul2 g x => putRRR 0x36 g x
  | .hfma2 g x => putRRR 0x37 g x
  | .bfma2 g x => putRRR 0x38 g x
  | .cvt g x => putRRR 0x39 g x
  | .f8pk g x => putRRR 0x3A g x
  | .f8upk g x => putRRR 0x3B g x
  | .mov g x => putRRR 0x3C g x
  | .movi g x => putRI 0x3D g x
  | .movk g x => putRK 0x3E g x
  | .movg g x => putRRR 0x3F g x
  | .vtog g x => putRRR 0x40 g x
  | .rdsr g x => putRRR 0x41 g x
  | .wrsr g x => putRRR 0x42 g x
  | .stage g x => putRRR 0x43 g x
  | .shfl g x => putRRR 0x44 g x
  | .vote g x => putRRR 0x45 g x
  | .lred g x => putRRR 0x46 g x
  | .lscan g x => putRRR 0x47 g x
  | .lfind g x => putRRR 0x48 g x
  | .iaddRk g x => putRK 0x49 g x
  | .isubRk g x => putRK 0x4A g x
  | .imulRk g x => putRK 0x4B g x
  | .imadRk g x => putRK 0x4C g x
  | .andRk g x => putRK 0x4D g x
  | .orRk g x => putRK 0x4E g x
  | .xorRk g x => putRK 0x4F g x
  | .icmpRk g x => putRK 0x50 g x
  | .faddRk g x => putRK 0x51 g x
  | .fmulRk g x => putRK 0x52 g x
  | .ffmaRk g x => putRK 0x53 g x
  | .fcmpRk g x => putRK 0x54 g x
  | .iaddRi g x => putRI 0x55 g x
  | .imulRi g x => putRI 0x56 g x
  | .andRi g x => putRI 0x57 g x
  | .orRi g x => putRI 0x58 g x
  | .xorRi g x => putRI 0x59 g x
  | .shlRi g x => putRI 0x5A g x
  | .shrRi g x => putRI 0x5B g x
  | .sarRi g x => putRI 0x5C g x
  | .icmpRi g x => putRI 0x5D g x
  | .faddRi g x => putRI 0x5E g x
  | .fmulRi g x => putRI 0x5F g x
  | .gadd g x => putRRR 0x60 g x
  | .gsub g x => putRRR 0x61 g x
  | .gmul g x => putRRR 0x62 g x
  | .gmin g x => putRRR 0x63 g x
  | .gand g x => putRRR 0x64 g x
  | .gor g x => putRRR 0x65 g x
  | .gxor g x => putRRR 0x66 g x
  | .gshl g x => putRRR 0x67 g x
  | .gshr g x => putRRR 0x68 g x
  | .gcmp g x => putRRR 0x69 g x
  | .gsel g x => putRRR 0x6A g x
  | .gmov g x => putRRR 0x6B g x
  | .glea g x => putRRR 0x6C g x
  | .gaddRi g x => putRI 0x70 g x
  | .gandRi g x => putRI 0x71 g x
  | .gorRi g x => putRI 0x72 g x
  | .gxorRi g x => putRI 0x73 g x
  | .gshlRi g x => putRI 0x74 g x
  | .gshrRi g x => putRI 0x75 g x
  | .gcmpRi g x => putRI 0x76 g x
  | .gmovRi g x => putRI 0x77 g x
  | .gaddRk g x => putRK 0x78 g x
  | .gcmpRk g x => putRK 0x79 g x
  | .gmovRk g x => putRK 0x7A g x
  | .gld g x => putRK 0x7B g x
  | .ld g x => putMEM 0x80 g x
  | .st g x => putMEM 0x81 g x
  | .lds g x => putMEM 0x82 g x
  | .sts g x => putMEM 0x83 g x
  | .ldk g x => putMEM 0x84 g x
  | .ldx g x => putMEM 0x85 g x
  | .atom g x => putMEM 0x86 g x
  | .redI g x => putMEM 0x87 g x
  | .fence g x => putMEM 0x88 g x
  | .cflush g x => putMEM 0x89 g x
  | .cinvK g x => putMEM 0x8A g x
  | .cinvKall g x => putMEM 0x8A g x
  | .cinvL1 g x => putMEM 0x8A g x
  | .icinv g x => putMEM 0x8B g x
  | .pref g x => putMEM 0x8C g x
  | .smap g x => putMEM 0x8D g x
  | .smapUnmap g x => putMEM 0x8D g x
  | .swb g x => putMEM 0x8E g x
  | .swbAll g x => putMEM 0x8E g x
  | .ldmc g x => putMEM 0x8F g x
  | .mcfgBind g x => putMX 0xA0 g x
  | .mcfgUnbind g x => putMX 0xA0 g x
  | .mcfgMode g x => putMX 0xA0 g x
  | .mlatch g x => putMX 0xA1 g x
  | .mma g x => putMX 0xA2 g x
  | .mmas g x => putMX 0xA3 g x
  | .mmat g x => putMX 0xA4 g x
  | .mdrain g x => putMX 0xA5 g x
  | .mzero g x => putMX 0xA6 g x
  | .mstat g x => putMX 0xA7 g x
  | .cpy g x => putCP 0xB0 g x
  | .cpyg g x => putCP 0xB1 g x
  | .cpys g x => putCP 0xB2 g x
  | .cpymc g x => putCP 0xB3 g x
  | .coll g x => putCP 0xB4 g x
  | .trec g x => putCP 0xB5 g x
  | .bra g x => putBR 0xC0 g x
  | .brx g x => putBR 0xC1 g x
  | .brxRel g x => putBR 0xC1 g x
  | .call g x => putBR 0xC2 g x
  | .callX g x => putBR 0xC2 g x
  | .ret g x => putBR 0xC3 g x
  | .fork g x => putBR 0xC4 g x
  | .exit g x => putBR 0xC5 g x
  | .yield g x => putBR 0xC6 g x
  | .nop g x => putBR 0xC7 g x
  | .launch g x => putBR 0xC8 g x
  | .barinit g x => putSY 0xD0 g x
  | .bararr g x => putSY 0xD1 g x
  | .barexp g x => putSY 0xD1 g x
  | .waitPh g x => putSY 0xD2 g x
  | .waitM g x => putSY 0xD2 g x
  | .trigger g x => putSY 0xD3 g x
  | .gridwait g x => putSY 0xD3 g x
  | .rsvclr g x => putRT 0xD8 g x
  | .rsvupd g x => putRT 0xD9 g x
  | .rsvmrg g x => putRT 0xDA g x
  | .rsvcap g x => putRT 0xDB g x
  | .rsvcapI g x => putRT 0xDB g x
  | .rsvfin g x => putRT 0xDC g x
  | .rsvld g x => putRT 0xDD g x
  | .rsvldS g x => putRT 0xDD g x
  | .rsvldX g x => putRT 0xDD g x
  | .rsvst g x => putRT 0xDD g x
  | .rsvstS g x => putRT 0xDD g x
  | .rsvdraw g x => putRT 0xDE g x
  | .tagnew g x => putRT 0xDF g x
  | .tagnewTry g x => putRT 0xDF g x
  | .tagret g x => putRT 0xDF g x
  | .tagset g x => putRT 0xDF g x
  | .tagget g x => putRT 0xDF g x
  | .taggetInfo g x => putRT 0xDF g x
  | .tagpub g x => putRT 0xDF g x
  | .trace g x => putGX 0xE0 g x
  | .traceRej g x => putGX 0xE0 g x
  | .traceAcc g x => putGX 0xE0 g x
  | .hret g x => putGX 0xE1 g x
  | .traq g x => putGX 0xE2 g x
  | .rast g x => putGX 0xE3 g x
  | .tex g x => putGX 0xE4 g x
  | .texl g x => putGX 0xE5 g x
  | .texg g x => putGX 0xE6 g x
  | .texres g x => putGX 0xE7 g x
  | .texfb g x => putGX 0xE8 g x
  | .blend g x => putGX 0xE9 g x
  | .rqpush g x => putGX 0xEA g x
  | .rqpop g x => putGX 0xEB g x
  | .trapI g x => putSYS 0xF0 g x
  | .brk g x => putSYS 0xF1 g x
  | .tretRetry g x => putSYS 0xF2 g x
  | .tretSkip g x => putSYS 0xF2 g x
  | .tretKillf g x => putSYS 0xF2 g x
  | .tretKillg g x => putSYS 0xF2 g x
  | .capinv g x => putSYS 0xF3 g x
  | .upcall g x => putSYS 0xF4 g x
  | .rdctr g x => putSYS 0xF5 g x
  | .unassignedOpcode w => w
  | _ => 0

end Sys2Proof
end

