-- ==== Sys2Proof/Machine/State.lean ====
section
/-! DEFINITION. The state of the D9: everything the manual gives the device, as plain data,
from the registers of a fibre to the records of the root-of-trust core, and the state right after
reset. A map of type `Sparse` says what an absent key means where its field is declared. -/

namespace Sys2Proof.Machine

/-- Why a step stops with a fault. -/
inductive Fault where
  /-- Raised by an instruction's meaning when no wave has an open, started clause to issue it for.
  The manual gives no such issue (R342); safe: the model stops where no hardware step exists. -/
  | noBundle
  /-- Raised by an access of a Loam core, the host or a peer to a physical address that R319 reserves or
  that lies in control space. No memory stands there; safe: the model stops. -/
  | reservedAddress
  deriving DecidableEq, Repr

/-- Why a step is refused. -/
inductive Refusal where
  /-- Raised by an arm of `exec` whose instruction has no meaning yet. Safe: the model stops. -/
  | notModelled (mnemonic : String)
  deriving DecidableEq, Repr

/-! ### Registers -/

/-- A word of the vector file with its poison state (R32, R37). -/
structure VWord where
  val : W32
  pois : Bool
  deriving DecidableEq, Repr

/-- A uniform register with the poison state of its two words (R32, R37). -/
structure GWord where
  val : W64
  poisLo : Bool
  poisHi : Bool
  deriving DecidableEq, Repr

/-- A reservoir register (R239) with the poison state of its four words (R37). -/
structure QWord where
  val : BitVec 128
  pois : BitVec 4
  deriving DecidableEq, Repr

/-! ### Fibres -/

/-- A place inside a clause: the header's address, the index of the clause's last instruction (COUNT)
and whether a long-latency instruction of the clause precedes the place (R201). -/
structure Place where
  hdr : W64
  last : Nat
  ll : Bool
  deriving DecidableEq, Repr

/-- What a blocked fibre waits for (R30, R195). -/
inductive Blocked where
  /-- `wait.ph` (R196): the object's stash address, the phase waited for, PD. -/
  | waitPh (obj : Nat) (phase : BitVec 16) (pd : BitVec 4)
  /-- `wait.m` (R197): pointer of the word, what a fault record says of its access (BUFSLOT and two syndrome words),
  comparison value, COND, signedness, the clock count at which the limit passes, PD. -/
  | waitM (ptr : W64) (buf : BitVec 8) (syn0 syn1 : W32) (cmp : W32) (cond : BitVec 2) (signed : Bool) (limit : Option Nat) (pd : BitVec 4)
  /-- `gridwait` (R198). -/
  | gridwait
  /-- `tagnew` (R254), with its destination register. -/
  | tagnew (dest : BitVec 8)
  /-- An access of the numbered operation, held on translation, on the Marl pool, on an overlapping Silt
  log entry or on a full Silt log (R171, R172). -/
  | mem (op : Nat)
  /-- A release that waits for the Silt log entries of the listed slots (R172); `drain` when it also
  waits for the registers of earlier operations (`exit`, R188). -/
  | release (group : List Nat) (drain : Bool)
  /-- `fence` (R173). -/
  | fence
  /-- A debugger stopped the fibre (R457). -/
  | stopped
  deriving DecidableEq, Repr

/-- What the device keeps of an active fault record besides the record in memory (R426, R428):
kind, subkind, the resume point with its place in a clause (none when the resume point is a clause
header), whether the instruction there is long-latency, the record's pointer, and the matrix operation
of a sparsity trap (R225). -/
structure ActiveRec where
  kind : BitVec 8
  sub : BitVec 16
  rpc : W64
  base : Option Place
  ll : Bool
  ptr : W64
  matOp : Option Nat
  /-- The stamp of the instruction that the trap diverted (R344). -/
  stamp : Nat := 0
  deriving DecidableEq, Repr

/-- A deferred error pending on a fibre, with what its fault record will say (R421, R424). -/
structure Deferred where
  kind : BitVec 8
  sub : BitVec 16
  apc : W64
  addr : W64
  acc : BitVec 8
  buf : BitVec 8
  syn0 : W32
  syn1 : W32
  syn2 : W32
  deriving DecidableEq, Repr

/-- The hit record of a fibre (R269). -/
structure HitRec where
  status : W32
  t : W32
  u : W32
  v : W32
  prim : W32
  leaf : W64
  pidx : W32
  face : W32
  hg : W32
  geo : W32
  deriving DecidableEq, Repr

/-- Where a suspended traversal stands: between nodes, in a triangle block with the next triangle,
or in a brick after the given number of DDA steps. -/
inductive LeafPos where
  | none
  | tri (addr : W64) (next : Nat)
  | brick (addr : W64) (steps : Nat)
  deriving DecidableEq, Repr

/-- A ray's traversal, suspended at a candidate (R266): the descriptor, the settings, the ray,
tcur, the best hit so far, the candidate, the stack of child words and the place in the leaf. -/
structure Traversal where
  desc : List W64
  first : Bool
  opq : Bool
  noprog : Bool
  mask : BitVec 6
  ray : List W32
  tcur : W32
  best : Option HitRec
  cand : HitRec
  stack : List W64
  pos : LeafPos
  deriving DecidableEq, Repr

/-- A live fibre (R29). An empty slot (R30) has no entry in its wave. -/
structure Fibre where
  /-- Logical fibre index (R31). -/
  lfi : W32
  pc : W64
  /-- Where in its clause `pc` lies; none when `pc` is itself a clause header. -/
  base : Option Place
  blocked : Option Blocked
  /-- Active fault records, level 0 first; the fibre is in its handler when one is active (R426). -/
  recs : List ActiveRec
  pred : BitVec 16
  /-- v0 to v255; absent: 0, not poisoned. -/
  v : Sparse VWord
  /-- q0 to q7; absent: 0, not poisoned. -/
  q : Sparse QWord
  ct : BitVec 12
  draw : W64
  /-- The staged set (R45), ascending. -/
  staged : List Nat
  /-- Trace depth (R265). -/
  depth : Nat
  hit : HitRec
  trav : Option Traversal
  deferred : Option Deferred
  /-- A second deferred error was discarded (LOSTDEF, R421). -/
  lostDef : Bool
  /-- Counter 0x0002 (R207). -/
  issued : Nat
  /-- Starvation count (R345). -/
  starve : Nat
  /-- Arrival stamp (R344). -/
  stamp : Nat
  /-- The fibre resumes inside an instruction that has issued for it: a release that blocked it. -/
  cont : Bool
  /-- Debug checks are waived for the next instruction (R459, mode 0). -/
  waive : Bool
  /-- A debug stop (R459, OP 3) takes effect at the next clause boundary. -/
  stopAt : Bool
  /-- A resume (R459, OP 1) held while the gang is saved: whether it skips the instruction. -/
  resumed : Option Bool
  /-- A dump to the given physical address is due at the next clause boundary (R459, OP 2). -/
  dumpAt : Option Nat
  /-- The fibre takes matrix subkind 0x05 for the operation at its next clause boundary (R225). -/
  sparse : Option Nat
  deriving DecidableEq, Repr

/-! ### Accumulators and matrix operations -/

/-- An accumulator register: elements keyed by 256 × row + column (absent: 0), tile exponent,
status bits (R62, R67, R213) and the poisoned elements (R466). In a pair register `fval` holds
the f32 sums (aK) or compensations (aK+1). -/
structure Tile where
  mant : Sparse Int
  fval : Sparse W32
  exp : Int
  efix : Bool
  pair : Bool
  high : Bool
  susp : Bool
  rslab : Nat
  nanin : Bool
  sbad : Bool
  tbad : Bool
  pois : List Nat
  deriving DecidableEq, Repr

/-- A tile register's binding (R212): base slot, B format code, sparse bit. -/
structure TileBind where
  base : Nat
  fmt : BitVec 5
  sparse : Bool
  deriving DecidableEq, Repr

/-- The kinds of operation of a matrix queue (R356). -/
inductive MatKind where
  | mma | mmat | drain | zero | latch
  deriving DecidableEq, Repr

/-- Where a matrix operation stands: its wave's queue, a table entry, or held by its wave while
suspended (R356, R359). -/
inductive MatPlace where
  | queue
  | entry (e : Nat)
  | held
  deriving DecidableEq, Repr

/-- Why a matrix operation is suspended (R225): a page misses, illegal metadata, or a save. -/
inductive MatSusp where
  | fill (vpn : Nat)
  | sparsity
  | save
  deriving DecidableEq, Repr

/-- A matrix operation in flight (R357): what its instruction named, the binding and the row
addresses read at issue, the next slab, the set U with each row's address, and its arbitration
state. -/
structure MatOp where
  kind : MatKind
  wave : Nat
  flag : Option Nat
  pc : W64
  acc : Nat
  pair : Bool
  bind : TileBind
  quad : Nat
  aty : BitVec 5
  slabs : Nat
  next : Nat
  /-- The rows of U with the stash address of each row (A row or output row). -/
  rows : List (Nat × Nat)
  /-- gA of `mmat`, gS of `mdrain`. -/
  gaddr : Nat
  /-- MXOPX of `mdrain`, and gT. -/
  opx : BitVec 14
  taddr : Nat
  /-- TTYPE of `mdrain`. -/
  tty : BitVec 5
  prio : Nat
  waits : Nat
  place : MatPlace
  susp : Option MatSusp
  granted : Bool
  /-- The slots whose fibres took the sparsity trap and have not returned (R225). -/
  trapped : List Nat
  /-- The clock of its cluster in which it arrived at the engine (R356), and that in which its granted pass ends (R346, R358). -/
  arrived : Nat := 0
  pass : Nat := 0
  /-- The pass after that one is granted too, to start when it ends (R358). -/
  ahead : Bool := false
  deriving DecidableEq, Repr

/-! ### Accesses and operations in flight -/

/-- The kinds of access of a fibre to memory; `const` is a load through the constant cache (R167). -/
inductive AccKind where
  | load | const | store | atom | red
  deriving DecidableEq, Repr

/-- How an access of a tagged page chooses its cell (R161, R165): the fibre's own tag, which a write
materialises, or a named tag, which it never does. -/
inductive CellSel where
  | own | named
  deriving DecidableEq, Repr

/-- A fibre's access as formed by R155, or by R164 for the stash: the byte addresses in order, the cell it
selects, and what is to be done there. `n` values of `w` bytes of the TYPE `ty` go to or come from
the registers from `reg`. -/
structure Access where
  kind : AccKind
  stash : Bool
  slot : Nat
  ctx : Nat
  rid : Nat
  sel : CellSel
  tag : Nat
  va : List Nat
  reg : Nat
  isQ : Bool
  n : Nat
  w : Nat
  ty : BitVec 5
  /-- Bytes to store. -/
  data : List Byte
  /-- Which of them come from a poisoned register word (R162). -/
  pois : List Bool
  /-- Operation and operands of an atomic or reduction (R168). -/
  aop : BitVec 4
  x : W64
  y : W64
  scope : BitVec 3
  /-- What a fault record would say of it (R424, R425). -/
  pc : W64
  buf : BitVec 8
  syn0 : W32
  syn1 : W32
  /-- The pages for which it has sent reports that Loam has not answered (R333). -/
  told : List Nat := []
  /-- The physical addresses of a translated access of `ldmc`. -/
  pa : List Nat := []
  /-- An acquire, and a release (R82, R286). -/
  acq : Bool := false
  rel : Bool := false
  deriving DecidableEq, Repr

/-- What a completed access writes: register and word. -/
structure Delivery where
  slot : Nat
  reg : Nat
  val : W32
  pois : Bool
  deriving DecidableEq, Repr

/-- What a completed access writes into a reservoir register. -/
structure QDelivery where
  slot : Nat
  reg : Nat
  val : QWord
  deriving DecidableEq, Repr

/-- A mapped stash window (R178): the stash start, the size code c, the global pointer, the
recorded tag, the context, the record's WR bit, and the lines that are present by their number in the
window: its physical address (none for a line of a cell, which the context, the address and the tag
name; a line read from the base because its cell was absent has the base's), whether it may be written, and whether it
is dirty. -/
structure Window where
  stash : Nat
  c : Nat
  ptr : W64
  tag : BitVec 12
  ctx : Nat
  wr : Bool
  lines : Sparse (Option Nat × Bool × Bool)
  deriving DecidableEq, Repr

/-- The copy instructions and collectives share this record of an operation of the CPE or CLE
(R233 to R237). -/
structure CopyOp where
  /-- 0 `cpy`, 1 `cpyg`, 2 `cpys`, 3 `cpymc`. -/
  kind : Nat
  trec : List W64
  /-- TREC, for the fault record. -/
  buf : BitVec 8
  side : Nat
  bar : Option Nat
  mask : BitVec 16
  tag : BitVec 12
  scope : BitVec 3
  /-- Lines of the destination not yet written: address over 128 in the stash, in the Kaolin range, or virtual. -/
  lines : List Nat
  /-- A page could not be backed (R234). -/
  failed : Bool
  /-- Source lines of `cpymc` to request, those requested, and those received with the poison of their halves. -/
  ask : List Nat
  sent : List Nat
  got : Sparse (List Byte × Bool × Bool)
  /-- Source lines of the other copies that were read, each byte with its poison (R296). -/
  src : Sparse (List (Byte × Bool)) := []
  deriving DecidableEq, Repr

/-- A member of a collective (R237): its record and fields, its rank, the number of members, the virtual lines
of its destination while they are not yet written, and its result where the collective was performed while the store of credits of
its saved gang was full (R236). -/
structure CollOp where
  crec : List W64
  kind : BitVec 3
  op : BitVec 2
  ty : BitVec 5
  scope : BitVec 3
  bar : Nat
  rank : Nat
  n : Nat
  lines : List Nat
  result : Option (List (Byte × Bool)) := none
  /-- CREC, for the fault record. -/
  buf : BitVec 8 := 0xFF
  deriving DecidableEq, Repr

/-- A request of `capinv` for one fibre (R204, R439). -/
structure CapReq where
  slot : Nat
  vr : Nat
  req : Nat
  deriving DecidableEq, Repr

/-- What a graphics instruction will write for one fibre when it completes (R267, R269, R270, R275):
words by register, a predicate, the hit record, the traversal it leaves suspended, and bytes of the stash. -/
structure GfxResult where
  slot : Nat
  regs : List (Nat × W32)
  pred : Option (BitVec 4 × Bool)
  hit : Option HitRec
  trav : Option (Option Traversal)
  /-- The trace depth rises by one (R267). -/
  deeper : Bool
  cells : List (Nat × Byte)
  deriving DecidableEq, Repr

/-- A fragment on its way to the ROU or in a tile's order queue (R278, R379). -/
structure Frag where
  tile : Nat
  x : Nat
  y : Nat
  draw : W32
  group : W32
  prim : W32
  color : List W32
  op : BitVec 3
  /-- The launch that blends it, for the energy meters (R461). -/
  launch : Nat
  deriving DecidableEq, Repr

/-- A fibre's part of a `launch` (R189): its slot (32 once the fibre has ended), register vR, the record's pointer, the copied
record, and the number of its entry in the queue's ring, none while the queue is full. The record is empty while its
page is missing. -/
structure LaunchPart where
  slot : Nat
  vr : Nat
  ptr : W64
  record : List Byte
  entry : Option Nat
  deriving DecidableEq, Repr

/-- What a long-latency instruction left to be done (R77), other than a matrix operation. -/
inductive OpKind where
  /-- A load, `atom`, `rsvld`: what it delivers, and the accesses still held. -/
  | load (give : List Delivery) (giveQ : List QDelivery) (held : List Access)
  | gld (d : Nat) (vals : List GWord)
  /-- A store or reduction, with the accesses that a full Silt log still holds. -/
  | store (held : List Access)
  /-- The line addresses, each with the tag of the fibre (R161). -/
  | cflush (lines : List (Nat × Nat))
  | pref
  | cinvLines (lines : List Nat)
  | cinvAll
  | cinvL1
  | icinv (cov : BitVec 2)
  | smap (n : Nat) (win : Window)
  | smapUnmap (n : Nat)
  | swb (n : Option Nat)
  /-- Multicast load (R166): the accesses, those held on translation, the mask, the lines to request, the
  lines requested, and the lines received with the poison of their two halves. -/
  | ldmc (accs held : List Access) (mask : BitVec 16) (ask sent : List Nat) (got : Sparse (List Byte × Bool × Bool))
  /-- `launch` (R189): the queue and the fibres' parts. -/
  | launch (queue : Nat) (parts : List LaunchPart)
  /-- `tagpub` (R258): for each fibre its slot, its tag and the pages still to publish. -/
  | tagpub (parts : List (Nat × Nat × List Nat))
  | copy (c : CopyOp)
  | coll (c : CollOp)
  | capinv (reqs : List CapReq)
  /-- A graphics instruction (R263) with its descriptor: the results of the fibres that are done, and the
  slots held on translation with the operand words read at issue. -/
  | gfx (i : Instr) (desc : List W64) (done : List GfxResult) (held : List (Nat × List W32))
  | blend (rtd0 rtd1 : W64) (frags : List Frag)
  | rqpush (q : Nat) (pd : BitVec 4) (parts : List (Nat × List W32))
  | rqpop (q vd n : Nat) (pd : BitVec 4) (slots : List Nat)
  deriving DecidableEq, Repr

/-- An operation in flight: the wave and flag it counts on, the slots of its bundle that passed the
guard, its instruction's address and place, the core that issued it, its context and gang, and the address at which its
engine waits for translation. -/
structure Op where
  wave : Nat
  flag : Option Nat
  slots : List Nat
  pc : W64
  place : Place
  core : Nat
  ctx : Nat
  gang : Nat
  wait : Option Nat
  kind : OpKind
  deriving DecidableEq, Repr

/-! ### Waves, workgroups, gangs and launches -/

/-- A wave's open clause (R342): its header's address, the words fetched for it (R104), the next
instruction's index, the bundle's slots that have not left it, whether a long-latency
instruction has issued in it (R77), and the clock of the choice that opened it (R347). -/
structure Clause where
  hdr : W64
  header : W64
  words : List W64
  idx : Nat
  slots : List Nat
  ll : Bool
  fetched : Bool
  started : Bool
  chosen : W64
  deriving DecidableEq, Repr

/-- The upcall a parked wave waits for (R205, R438): the key of its message, the reply register, the
message itself while it is not yet posted, a reply held for restore, and its place in the order of parking. A parked
wave's live fibres are blocked. -/
structure Park where
  order : Nat
  core : Nat
  wslot : Nat
  seq : BitVec 16
  reg : Nat
  msg : Option (List Byte)
  reply : Option W64
  deriving DecidableEq, Repr

/-- A wave (R29). -/
structure Wave where
  launch : Nat
  wg : Nat
  widx : Nat
  /-- Live fibres by slot; an absent slot is empty (R30). -/
  fibres : Sparse Fibre
  /-- g0 to g127; absent: 0, not poisoned. -/
  g : Sparse GWord
  /-- Completion flag counts f0 to f11; absent: 0. -/
  flags : Sparse Nat
  /-- a0 to a7; absent: the tile of R47. -/
  accs : Sparse Tile
  sptrap : Bool
  forkSerial : Nat
  /-- Stall counters 0 to 15 (R449); absent: 0. -/
  stall : Sparse Nat
  /-- Wave issue number of the last instruction (R38). -/
  issueNo : Nat
  clause : Option Clause
  /-- The PC that the next choice excludes (R185). -/
  yieldPc : Option W64
  park : Option Park
  /-- The virtual page that a fetch (R333) or a constant-window word (R87) of the wave waits for, and
  whether Loam has answered that it cannot be backed. -/
  page : Option (Nat × Bool)
  /-- What the wave issued, or the header of the illegal clause it took a trap for, in the current clock:
  its address and the logical index of the bundle's lowest fibre (R449, R455). -/
  issued : Option (W64 × W32)
  /-- The wave it is paired with for the open clause (R347). -/
  paired : Option Nat
  deriving DecidableEq, Repr

/-- A resident workgroup (R29). -/
structure Workgroup where
  core : Nat
  waves : List Nat
  /-- t0 to t15; an absent register is unbound. -/
  tiles : Sparse TileBind
  retired : Bool
  /-- Stall counters of the waves that have ended, by wave index (R350). -/
  stalls : Sparse (Sparse Nat)
  deriving DecidableEq, Repr

/-- The states of a gang (R417). -/
inductive GangState where
  | unplaced | resident | saving | held | ready | restoring | aborting | retired
  deriving DecidableEq, Repr

/-- A byte credit held for a saved gang (R236). -/
structure Credit where
  bar : Nat
  bytes : Nat
  deriving DecidableEq, Repr

/-- An entry of a Silt log (R336). `slots` are the slots of `wave` for which the entry counts, and `infos` what a fault
record says of the access of each: slot, BUFSLOT and the first two syndrome words (R424). -/
structure SiltEntry where
  wave : Nat
  slots : List Nat
  infos : List (Nat × BitVec 8 × W32 × W32)
  ctx : Nat
  launch : Nat
  wg : Nat
  lfi : W32
  tag : BitVec 12
  pc : W64
  rid : Nat
  addr : Nat
  mask : BitVec 64
  data : BitVec 512
  pois : Bool
  kred : Bool
  rop : BitVec 4
  ty : BitVec 5
  scope : BitVec 3
  pseq : Nat
  /-- The write is a release (R292). -/
  rel : Bool := false
  deriving DecidableEq, Repr

/-- What the dispatch unit keeps of a saved gang beside its save area: the member workgroups and
waves, the operations in flight, results held for restore (R412, R416), and the credits that it holds in the save area (R236). -/
structure Saved where
  wgs : Sparse Workgroup
  waves : Sparse Wave
  mats : Sparse MatOp
  ops : Sparse Op
  silt : List SiltEntry
  credits : List Credit
  deriving DecidableEq, Repr

/-- A gang (R29, R417). Keyed by launch and index. -/
structure Gang where
  state : GangState
  cluster : Nat
  cores : List Nat
  /-- The gang's stash (R164); absent: 0. -/
  stash : Sparse Byte
  /-- Poisoned units of 8 bytes of the stash, ascending (R465). -/
  stashPois : List Nat
  /-- The gang's Kaolin slots by byte offset (R210); absent: 0. -/
  kaolin : Sparse Byte
  /-- Poisoned units of 8 bytes of the slots, ascending. -/
  kaolinPois : List Nat
  ksBase : Nat
  /-- The estimate that its placement added to `pg.used` (R407). -/
  estimate : Nat
  windows : Sparse Window
  abort : Bool
  passes : Nat
  /-- Core clocks since placement or the last restore (R408). -/
  resident : Nat
  migrating : Bool
  excluded : Option Nat
  /-- Becomes Held (by OP 3) when the save in progress completes. -/
  holdAfter : Bool
  saved : Option Saved
  /-- The clocks of its cores when an abort took effect on it (R432). -/
  abortAt : List (Nat × W64) := []
  /-- The I/O die's clock in which the migration in progress was chosen (R418). -/
  migClock : Option W64 := none
  deriving DecidableEq, Repr

/-- An accepted launch: the dispatch unit's copy of its record, uniform image and windows (R391,
R392, R396) and what its completion record will say (R399). -/
structure Launch where
  ctx : Nat
  queue : Nat
  prio : Nat
  order : Nat
  entry : W64
  seed : W64
  crec : W64
  naddr : W64
  ndata : W32
  saveb : W64
  ngrp : List Nat
  wgsz : List Nat
  vcnt : Nat
  gcnt : Nat
  qcnt : Nat
  acnt : Nat
  gang : Nat
  ks : Nat
  tdepth : Nat
  payw : Nat
  stash : Nat
  itag : BitVec 12
  eclass : Nat
  dclamp : Bool
  depw : Bool
  child : Bool
  nhost : Bool
  prods : List Nat
  uimg : List W64
  /-- Bound windows: base pointer and length; an absent window is unbound. -/
  windows : Sparse (W64 × Nat)
  depth : Nat
  parent : Option Nat
  /-- Gangs placed or dropped so far; the next gang to place. -/
  nextGang : Nat
  status : BitVec 8
  nwg : Nat
  nkill : Nat
  nsave : Nat
  nmig : Nat
  start : Option (Nat × Nat)
  finish : Nat × Nat
  energy : Nat
  /-- Workgroups that have triggered and not yet retired, ascending (R198). -/
  trig : List Nat
  /-- Workgroups retired or dropped. -/
  done : Nat
  completed : Bool
  /-- The completion record has been written, and the notification sent. -/
  recorded : Bool
  /-- The completion record and its DONE have been written (R400). -/
  marked : Bool := false
  /-- The virtual page that the completion record waits for, and whether Loam has answered that it cannot be backed. -/
  page : Option (Nat × Bool)
  deriving DecidableEq, Repr

/-! ### Contexts -/

/-- A supervisor event that waits for room in the supervisor ring (R436). -/
structure SupEvent where
  code : Byte
  cause : Byte
  ctx : Nat
  launch : Nat
  pc : W64
  addr : W64
  len : W32
  req : W32
  clock : W64
  core : Nat
  kind : Byte
  sub : BitVec 16
  rslot : W64
  deriving DecidableEq, Repr

/-- An entry of the tag allocator (R252); a free tag has no entry. -/
structure TagEntry where
  retiring : Bool
  holders : Nat
  deriving DecidableEq, Repr

/-- A valid context (R409): its record's physical address, the allocator's entries, the blocked
`tagnew` requests in order of arrival (wave, slot), and the hardware's notes of reports it has sent
(a Marl ring overrun, R337), whether it was killed, the supervisor event that a kill still
has to post (R430, step 4), and the Loam core whose OP 2 is in progress (R409). -/
structure Context where
  recPa : Nat
  tags : Sparse TagEntry
  waiters : List (Nat × Nat)
  overrun : Bool
  killed : Bool
  killEvent : Option SupEvent
  destroy : Option Nat
  deriving DecidableEq, Repr

/-! ### Cores, clusters and slices -/

/-- A cached leaf translation (R329): context, first address, size in bytes as a power of two, the
entry with its D. -/
structure TlbEntry where
  ctx : Nat
  page : Nat
  bits : Nat
  pte : W64
  deriving DecidableEq, Repr

/-- A cached region entry (R323). -/
structure RegionEntry where
  ctx : Nat
  rid : Nat
  ok : Bool
  lo : Nat
  limit : Nat
  deriving DecidableEq, Repr

/-- A line of an instruction or constant cache: context, line address, its 128 bytes. -/
structure CacheLine where
  ctx : Nat
  line : Nat
  data : List Byte
  deriving DecidableEq, Repr

/-- A logical core's own state (R26). -/
structure Core where
  /-- The clock counter (R23). -/
  clock : W64
  /-- Wave slot at which the rotation of issue starts (R341). -/
  rot : Nat
  /-- Instructions issued in the current clock (R341). -/
  issues : Nat
  /-- Clock counts until which the 32 vector pipes are held (R118, R341). -/
  pipes : List Nat
  /-- Clock counts until which the ports of the MU, the ISU and the TXU are held (R341). -/
  muPort : Nat
  isuPort : Nat
  txuPort : Nat
  /-- The vector pipe that the last instruction of class 0 or 7 of each wave slot took (R341). -/
  taken : Sparse Nat := []
  /-- Serial of the next upcall message (R206). -/
  upSeq : BitVec 16
  icache : List CacheLine
  ccache : List CacheLine
  tlb : List TlbEntry
  regions : List RegionEntry
  silt : List SiltEntry
  /-- Last temperature sample, in 1/8 °C (R406). -/
  temp : Option Nat
  hot : Bool
  /-- The clock at which the sampler was armed (R453), and that of its last sample. -/
  armed : Nat
  sampled : Option Nat
  deriving DecidableEq, Repr

/-- A cluster's matrix engine and reservation (R356 to R358, R405). -/
structure Cluster where
  /-- Reservation table: operation by entry number. -/
  table : Sparse Nat
  /-- Last entry granted on quadrants 0 to 3 and on the accumulator port (4). -/
  last : List Nat
  /-- The gang-relative source of each quadrant's shadow latch: gang key and slot. -/
  latch : Sparse (Nat × Nat)
  /-- The gang for which the cluster is reserved (launch, index). -/
  reserved : Option (Nat × Nat)
  /-- The core that holds the port of the MXE, and that of the CPE and CLE, for its current clock (R341). -/
  mxPort : Option Nat := none
  cpPort : Option Nat := none
  deriving DecidableEq, Repr

/-- An open multicast window at a home slice (R166, R382): the line's physical address, the key of
the match, the requests joined (operation, line address, core) and the clock at which it opened. -/
structure McWindow where
  pa : Nat
  ctx : Nat
  mask : BitVec 16
  domain : Nat
  tag : BitVec 12
  joined : List (Nat × Nat × Nat)
  opened : W64
  deriving DecidableEq, Repr

/-! ### The I/O die -/

/-- A record queue (R362); an absent queue has V = 0. -/
structure RecQueue where
  ctx : Nat
  key : W64
  rsz : Nat
  c : Nat
  recs : List (List W32)
  deriving DecidableEq, Repr

/-- A blend group of an order slot (R378). -/
structure OGroup where
  draw : W32
  group : W32
  tx0 : Nat
  ty0 : Nat
  tx1 : Nat
  ty1 : Nat
  closed : Bool
  deriving DecidableEq, Repr

/-- A registered order slot (R378): the order record's fields, groups in order of opening, queued
fragments in order of arrival, loaded tiles with their bytes, the LOST count, the fragments spilled so far, and the pages
for which its ROUs wait (whether Loam has answered that they cannot be backed). -/
structure OrderSlot where
  rtd0 : W64
  rtd1 : W64
  sigt : Nat
  spill : Nat
  splen : Nat
  ctx : Nat
  groups : List OGroup
  frags : List Frag
  loaded : Sparse (List Byte)
  lost : Nat
  spilled : Nat := 0
  told : List (Nat × Bool) := []
  deriving DecidableEq, Repr

/-- A flush or a release of an order slot in progress (R378, R380): the slot, whether it is a release, and the tiles that a
flush has still to write. -/
structure RoCmd where
  slot : Nat
  release : Bool
  tiles : List Nat
  deriving DecidableEq, Repr

/-- A submission page's binding (queue 65535: unbound), the context to which it is or was last bound (65536: none) and counts (R397), and the numbers of the entries appended through it that are still
in the ring. -/
structure SubPage where
  ctx : Nat
  queue : Nat
  queued : W32
  discarded : BitVec 16
  last : Byte
  entries : List Nat
  deriving DecidableEq, Repr

/-- A report that waits for room in the demand ring (R333). -/
structure Report where
  ctx : Nat
  core : Nat
  src : Nat
  acc : Nat
  cause : Nat
  rid : Nat
  va : Nat
  clock : W64
  deriving DecidableEq, Repr

/-- A debug event that waits for room in its slot's ring (R457). -/
structure DbgEvent where
  code : Byte
  idx : Byte
  ctx : Nat
  launch : Nat
  wg : Nat
  fib : W32
  pc : W64
  addr : W64
  bcode : BitVec 16
  core : Nat
  clock : W64
  deriving DecidableEq, Repr

/-- A service request at the gate or the SEN (R204, R440): the operation it belongs to, the fibre,
the capability, the operation code, the eight arguments, the issuing fibre's tag, the capability
table entry once the gate has passed it, the result once known, pinned frames, the virtual lines that a read owns
until its data arrive (R441), and whether it is orphaned (R442). -/
structure SenReq where
  op : Nat
  wave : Nat
  slot : Nat
  ctx : Nat
  launch : Nat
  wg : Nat
  lfi : W32
  cap : BitVec 128
  code : BitVec 16
  args : List W32
  tag : BitVec 12
  pc : W64
  passed : Bool
  entry : Nat
  issued : Bool
  /-- The page of the buffer that misses, and whether Loam has answered that it cannot be backed. -/
  wait : Option (Nat × Bool)
  result : Option (List W32)
  pinned : List Nat
  own : List Nat
  orphan : Bool
  deriving DecidableEq, Repr

/-- The device span's phases (R1, R472, R473, R477); `loading` is a member that waits for its image in step 4 of the boot. -/
inductive Phase where
  | off | recovery | loading | running | failed
  deriving DecidableEq, Repr

/-- The root-of-trust core: flash contents (configuration record, repair log, certificate chain,
loader, Loam image, the seed that the PUF and helper data recover) and what boot formed from them
(R468 to R474). -/
structure Rtc where
  config : List Byte
  repairLog : List (BitVec 16)
  cert : List Byte
  loader : List Byte
  loaderSig : List Byte
  image : List Byte
  imageSig : List Byte
  seed : Option (List Byte)
  /-- Inactive cluster of each stack (R21, R468). -/
  repair : List Nat
  /-- M1 to M5; a measurement not taken has no entry. -/
  meas : Sparse (List Byte)
  deriving DecidableEq, Repr

/-- Peer-group state (R475 to R478). -/
structure Peers where
  role : Nat
  peerId : Nat
  fabMask : BitVec 16
  count : Nat
  /-- Consecutive heartbeats missing from each peer that has been heard from. -/
  missing : Sparse Nat
  /-- Consecutive periods without a root heartbeat. -/
  rootMissing : Nat
  lastSerial : BitVec 32
  serial : BitVec 32
  /-- Peers whose root-loss messages are held. -/
  lossFrom : List Nat
  selfLoss : Bool
  acting : Bool
  fenced : List Nat
  /-- Parent port of image service, and the verified offers not yet taken. -/
  parent : Option Nat
  offers : List Offer
  imageAccepted : Bool
  deriving DecidableEq, Repr

/-- Module sensors and error counters (R465, R485, R487). -/
structure Sensors where
  outlet : Nat
  rails : List Nat
  power : Nat
  corrected : Sparse Nat
  spared : Sparse Nat
  deriving DecidableEq, Repr

/-- What leaves the device, as an observer outside its cores sees it. -/
inductive Out where
  | loamIrq (core : Nat)
  | loamData (k : Nat) (data : List Byte) (pois : Bool)
  | hostWrite (addr : W64) (data : W32)
  | hostData (data : List Byte) (pois : Bool)
  | submission (accepted : Bool)
  | nvme (req : Nat) (op : Nat) (nsid : W32) (lba : Nat) (blocks : Nat) (data : List Byte)
  | fabricData (peer : Nat) (data : List Byte) (pois : Bool)
  | heartbeat (port : Nat) (serial : BitVec 32) (count : Nat)
  | rootLoss (port : Nat) (peer : Nat)
  | fence (peer : Nat)
  | offer (port : Nat) (length : Nat) (digest : List Byte) (sig : List Byte)
  | spdm (message : List Byte)
  | spdmError
  | management (data : List Byte)
  | managementError
  deriving DecidableEq, Repr

/-- An access to memory from outside the core array: of a Loam core, a peer or the host. -/
inductive Outer where
  | loam (k : Nat) (a : LoamAccess)
  | peerRead (peer pa len : Nat)
  | peerWrite (peer pa : Nat) (data : List Byte)
  | peerAtomic (peer pa : Nat) (op : BitVec 4) (ty : BitVec 5) (x y : W64)
  | hostRead (at' : HostAddr) (len : Nat)
  | hostWrite (addr : Nat) (data : List Byte)
  deriving DecidableEq, Repr

/-! ### The device -/

/-- The whole device. Maps over fixed ranges of units hold an entry only for a unit that is not in
its reset state. -/
structure State where
  phase : Phase
  /-- Steps of agents that come next, in order: the schedule and the inputs, as data. -/
  agenda : List Instr
  /-- The wave that issues next: 64 × core + wave slot. -/
  cur : Option Nat
  /-- Tier-1 and tier-2 memory by physical address; an unlisted byte is 0 (R473). -/
  mem : List Host.Cell
  /-- Poisoned 64-byte units of memory, ascending (R465). -/
  memPois : List Nat
  /-- Device control registers by address less 0x8_0000_0000_0000; absent: the reset value. -/
  ctl : Sparse W64
  cores : Sparse Core
  clusters : Sparse Cluster
  /-- Waves by 64 × core + wave slot. -/
  waves : Sparse Wave
  /-- Resident workgroups by launch × 2^32 + linear index. -/
  wgs : Sparse Workgroup
  /-- Gangs by launch × 2^32 + index. -/
  gangs : Sparse Gang
  launches : Sparse Launch
  contexts : Sparse Context
  ops : Sparse Op
  mats : Sparse MatOp
  nextOp : Nat
  mcWins : Sparse McWindow
  recQueues : Sparse RecQueue
  /-- Staging slots by 0x2000 × queue + 0x100 × k + byte; absent: 0. -/
  staging : Sparse Byte
  oslots : Sparse OrderSlot
  /-- Commands in progress of the Loam cores' blocks of order slots (R378): GO reads 1. -/
  roBusy : Sparse RoCmd := []
  /-- The `tx.fence` in progress: the operations that had issued before its write are those with lower numbers (R376). -/
  txFence : Option Nat
  subPages : Sparse SubPage
  /-- BAR4 slots: the physical base bound; an absent slot is unbound (R481). -/
  bar4 : Sparse Nat
  reports : List Report
  /-- Serial of the next demand report (R333). -/
  repSeq : BitVec 16
  supEvents : List SupEvent
  dbgEvents : Sparse (List DbgEvent)
  /-- Commands of the debug slots that wait for a clause boundary (R456): launch, workgroup and logical index of the fibre. GO
  reads 1. -/
  dbBusy : Sparse (Nat × Nat × W32) := []
  reqs : Sparse SenReq
  nextReq : Nat
  nextLaunch : Nat
  acceptOrder : Nat
  /-- Queue at which the rotation of R396 starts. -/
  queueRot : Nat
  /-- Queues whose head waits for the page (context, VPN), and whether Loam has answered that it cannot be backed (R394). -/
  queueWait : Sparse (Nat × Nat × Bool)
  /-- The I/O die's clock counter (R23). -/
  ioClock : W64
  migration : Option (Nat × Nat)
  /-- For each Loam core's translation port, the multicast operations whose translated lines an invalidation waits for
  (R331). -/
  invals : Sparse (List Nat) := []
  /-- Accesses from outside the core array that wait for a line which an engine owns (R297), in order: by Loam core, 16 for the host, 17
  and the identifier for a peer. -/
  outer : Sparse (List Outer) := []
  /-- Lines of memory as `cflush` last wrote them, each byte with its poison (R174): what host reads that do not snoop see (R308). -/
  flushed : Sparse (List (Byte × Bool)) := []
  /-- Host reads without snooping so far: the model's own counter, by which they take free values. -/
  noSnoops : Nat := 0
  /-- Energy weights of the running intervals: idle and dynamic, by meter key × 2^32 + launch. -/
  idleW : Sparse Nat
  dynW : Sparse Nat
  /-- Core clocks of each core meter's running interval. -/
  meterClk : Sparse Nat
  /-- Intervals of the uncore meter so far: the model's own counter, by which it takes the free weights of that meter. -/
  uncore : Nat
  rtc : Rtc
  peers : Peers
  sensors : Sensors
  out : List Out
  deriving DecidableEq, Repr

/-- A core right after reset (R23, R341). -/
def Core.reset : Core :=
  { clock := 0, rot := 0, issues := 0, pipes := [], muPort := 0, isuPort := 0, txuPort := 0, upSeq := 0,
    icache := [], ccache := [], tlb := [], regions := [], silt := [], temp := none, hot := false, armed := 0,
    sampled := none }

/-- A cluster right after reset: the last entry granted counts as 63 (R358). -/
def Cluster.reset : Cluster :=
  { table := [], last := [63, 63, 63, 63, 63], latch := [], reserved := none }

/-- The device right after reset, once boot step 5 has started Loam core 0 (R473): memory holds
zeros, nothing is resident, and every register holds its reset value. -/
def State.reset : State :=
  { phase := .running, agenda := [], cur := none, mem := [], memPois := [], ctl := [], cores := [], clusters := [],
    waves := [], wgs := [], gangs := [], launches := [], contexts := [], ops := [], mats := [], nextOp := 0,
    mcWins := [], recQueues := [], staging := [], oslots := [], txFence := none, subPages := [], bar4 := [], reports := [],
    repSeq := 0, supEvents := [], dbgEvents := [], reqs := [], nextReq := 0, nextLaunch := 1, acceptOrder := 0,
    queueRot := 0, queueWait := [], ioClock := 0, migration := none, idleW := [], dynW := [], meterClk := [], uncore := 0,
    rtc := { config := [], repairLog := [], cert := [], loader := [], loaderSig := [], image := [], imageSig := [],
             seed := none, repair := [8, 8, 8, 8], meas := [] },
    peers := { role := 2, peerId := 0, fabMask := 0, count := 1, missing := [], rootMissing := 0, lastSerial := 0,
               serial := 0, lossFrom := [], selfLoss := false, acting := false, fenced := [], parent := none,
               offers := [], imageAccepted := false },
    sensors := { outlet := 0, rails := [0, 0, 0], power := 0, corrected := [], spared := [] },
    out := [] }

end Sys2Proof.Machine
end

