-- ==== Sys2Proof/Machine/Sparse.lean ====
section
/-! DEFINITION. The operations on sparse maps: lists of entries with strictly rising keys. -/

namespace Sys2Proof.Machine

/-- The entry of a key. -/
def sget {α : Type} (k : Nat) : Sparse α → Option α
  | [] => none
  | e :: m => if e.1 = k then some e.2 else sget k m

/-- The map with an entry for the key, in its place. -/
def sput {α : Type} (k : Nat) (v : α) : Sparse α → Sparse α
  | [] => [(k, v)]
  | e :: m => if k < e.1 then (k, v) :: e :: m else if e.1 = k then (k, v) :: m else e :: sput k v m

/-- The map without the key. -/
def sdel {α : Type} (k : Nat) (m : Sparse α) : Sparse α := m.filter (fun e => e.1 != k)

/-- The value of a key, absent keys reading as `d`. -/
def sgetD {α : Type} (d : α) (m : Sparse α) (k : Nat) : α := (sget k m).getD d

/-- Writes a value, absent keys reading as `d`: writing `d` removes the entry. -/
def sputD {α : Type} [DecidableEq α] (d : α) (k : Nat) (v : α) (m : Sparse α) : Sparse α :=
  if v = d then sdel k m else sput k v m

/-- Changes the entry of a key, if there is one. -/
def smod {α : Type} (k : Nat) (f : α → α) (m : Sparse α) : Sparse α :=
  m.map (fun e => if e.1 = k then (e.1, f e.2) else e)

/-- The keys. -/
def skeys {α : Type} (m : Sparse α) : List Nat := m.map (·.1)

/-- The keys rise strictly. -/
def sorted {α : Type} : Sparse α → Bool
  | [] => true
  | [_] => true
  | a :: b :: m => a.1 < b.1 && sorted (b :: m)

/-- The canonical form of memory: keys rise strictly, and no entry is the 0 that an unlisted byte reads as. -/
def Memory.wf (m : List Host.Cell) : Bool := sorted m && m.all (fun c => c.2 != 0)

/-- A sorted list of numbers with one more. -/
def insertNat (k : Nat) : List Nat → List Nat
  | [] => [k]
  | a :: l => if k < a then k :: a :: l else if a = k then a :: l else a :: insertNat k l

/-- A list of numbers with repeats taken out, in order of first appearance. -/
def dedup : List Nat → List Nat → List Nat
  | _, [] => []
  | seen, a :: l => if seen.contains a then dedup seen l else a :: dedup (a :: seen) l

/-- The first key, from 0, that the map does not hold, up to a bound. -/
def freeKey {α : Type} (m : Sparse α) : Nat → Nat → Option Nat
  | 0, _ => none
  | n + 1, k => if (sget k m).isNone then some k else freeKey m n (k + 1)

end Sys2Proof.Machine
end

