-- ==== Sys2Proof/Machine/Memory.lean ====
section
/-! DEFINITION. Physical memory and its coherence with window lines, the region table, page tables and
translation caches, the cell table and the Marl pool (R178, R317 to R340). -/

namespace Sys2Proof.Machine

/-! ### Bytes and bit fields -/

/-- `n` bits of a number from bit `lo`. -/
def bits (x lo n : Nat) : Nat := x / 2 ^ lo % 2 ^ n

/-- What a byte of memory that nothing has written reads as: boot fills memory with zeros (R473). -/
def unlisted : Byte := 0

/-- A byte of physical memory. -/
def pByte (s : State) (pa : Nat) : Byte := sgetD unlisted s.mem pa

/-- Writes a byte of physical memory. -/
def pPut (s : State) (pa : Nat) (b : Byte) : State := { s with mem := sputD unlisted pa b s.mem }

/-- Writes bytes from an address upward. -/
def pPuts (s : State) (pa : Nat) : List Byte → State
  | [] => s
  | b :: bs => pPuts (pPut s pa b) (pa + 1) bs

/-- `n` consecutive addresses. -/
def addrs (a n : Nat) : List Nat := (List.range n).map (a + ·)

/-- The end of tier-2: physical memory is what lies below it (R319). -/
def memEnd : Nat := 0x12000000000

/-- Key of a gang or workgroup: launch × 2^32 + index. -/
def key2 (launch i : Nat) : Nat := launch * 2 ^ 32 + i

/-! ### Window lines (R178) -/

/-- The bytes of a line of a window, as the stash holds them. -/
def winBytes (g : Gang) (w : Window) (line : Nat) : List Byte :=
  (addrs (w.stash + 128 * line) 128).map (sgetD 0 g.stash)

/-- The dirty window copy of a byte of memory, if there is one. -/
def dirtyIn (g : Gang) (pa : Nat) (w : Window) : Option Byte :=
  (w.lines.find? (fun e => e.2.2.2 && e.2.1 == some (pa - pa % 128))).map
    (fun e => sgetD 0 g.stash (w.stash + 128 * e.1 + pa % 128))

/-- A byte of memory as every coherent agent sees it: a dirty window line stands over memory. -/
def cByte (s : State) (pa : Nat) : Byte :=
  let hit := s.gangs.findSome? (fun g => g.2.windows.findSome? (fun w => dirtyIn g.2 pa w.2))
  hit.getD (pByte s pa)

/-- A little-endian number of memory (R5). -/
def rd (s : State) (pa n : Nat) : Nat := fromBytesLE ((addrs pa n).map (cByte s))

/-- Whether one of the bytes lies in a poisoned 64-byte unit (R465). -/
def poisonedAt (s : State) (pas : List Nat) : Bool := pas.any (fun a => s.memPois.contains (a / 64))

/-- Poison of units of `size` bytes after a write of bytes, each with its poison (R162, R465, R466): a poisoned byte
poisons its unit, a unit covered whole with good bytes is cleared, and any other write leaves it. -/
def poisUnits (size : Nat) (old : List Nat) (cells : List (Nat × Bool)) : List Nat :=
  (dedup [] (cells.map (·.1 / size))).foldl (fun l u =>
    if cells.any (fun c => c.1 / size = u && c.2) then insertNat u l
    else if (addrs (size * u) size).all (fun a => cells.any (fun c => c.1 = a)) then l.filter (· != u)
    else l) old

/-- Writes a line of a window, poison with it, at a physical line. -/
def putLine (s : State) (pa : Nat) (g : Gang) (w : Window) (n : Nat) : State :=
  let s := pPuts s pa (winBytes g w n)
  { s with memPois := [0, 1].foldl (fun l h =>
      if (addrs ((w.stash + 128 * n + 64 * h) / 8) 8).any (fun u => g.stashPois.contains u) then insertNat (pa / 64 + h) l
      else l.filter (· != pa / 64 + h)) s.memPois }

/-- Writes back the dirty lines of a window that lie at a physical line; `drop` also makes them absent. Two lines of a
window may lie at one physical line, where two pages map one frame. -/
def snoopWin (s : State) (gk wn : Nat) (line : Nat) (drop : Bool) : State :=
  match sget gk s.gangs with
  | none => s
  | some g =>
    match sget wn g.windows with
    | none => s
    | some w =>
      let hit := w.lines.filter (fun e => e.2.1 == some line)
      if hit.isEmpty then s
      else
        let s := (hit.filter (·.2.2.2)).foldl (fun s e => putLine s line g w e.1) s
        let lines := hit.foldl (fun m e => if drop then sdel e.1 m else sput e.1 (some line, e.2.2.1, false) m) w.lines
        { s with gangs := smod gk (fun g => { g with windows := sput wn { w with lines := lines } g.windows }) s.gangs }

/-- Every window copy of a line is written back, and recalled if `drop` (R178). -/
def snoopLine (s : State) (line : Nat) (drop : Bool) : State :=
  s.gangs.foldl (fun s g => g.2.windows.foldl (fun s w => snoopWin s g.1 w.1 line drop) s) s

/-- Applies `snoopLine` to the lines of some bytes. -/
def snoop (s : State) (pas : List Nat) (drop : Bool) : State :=
  (dedup [] (pas.map (fun a => a - a % 128))).foldl (fun s l => snoopLine s l drop) s

/-- Reads bytes for an agent: the bytes, whether they are poisoned, and the state after the recall. -/
def readBytes (s : State) (pas : List Nat) : State × List Byte × Bool :=
  let s := snoop s pas false
  (s, pas.map (pByte s), poisonedAt s pas)

/-- Poison after a write: a write whose bytes cover a whole unit sets the unit's state, poisoned data
poisons the units it touches, and any other write leaves them (R162, R466). -/
def poisonAfter (old : List Nat) (pas : List Nat) (pois : Bool) : List Nat :=
  let units := dedup [] (pas.map (· / 64))
  if pois then units.foldl (fun l u => insertNat u l) old
  else old.filter (fun u => !(units.contains u && (addrs (64 * u) 64).all (fun a => pas.contains a)))

/-- Writes bytes for an agent: pairs of address and byte, in order, the last of an address standing. -/
def writeBytes (s : State) (cells : List Host.Cell) (pois : Bool) : State :=
  let s := snoop s (cells.map (·.1)) true
  let s := cells.foldl (fun s c => pPut s c.1 c.2) s
  { s with memPois := poisonAfter s.memPois (cells.map (·.1)) pois }

/-- Writes a little-endian number for the hardware. -/
def wr (s : State) (pa n x : Nat) : State := writeBytes s ((addrs pa n).zip (toBytesLE n x)) false

/-! ### Contexts -/

/-- A field of a context's record in memory (R410); an invalid context reads as 0. -/
def ctxRd (s : State) (ctx off n : Nat) : Nat :=
  match sget ctx s.contexts with
  | some c => rd s (c.recPa + off) n
  | none => 0

/-- The translation block (R325). -/
def transBlock (s : State) (ctx : Nat) : Nat := ctxRd s ctx 0 64

/-- Writes a field of a context's record. -/
def ctxWr (s : State) (ctx off n x : Nat) : State :=
  match sget ctx s.contexts with
  | some c => wr s (c.recPa + off) n x
  | none => s

/-- The core, in its reset state where the map holds none. -/
def coreOf (s : State) (c : Nat) : Core := sgetD Core.reset s.cores c

/-- Changes a core. -/
def modCore (s : State) (c : Nat) (f : Core → Core) : State := { s with cores := sput c (f (coreOf s c)) s.cores }

/-! ### Regions (R322, R323) -/

/-- The bounds that an entry of the region table gives, if its contents are good (R322). -/
def regionEntry (s : State) (ctx rid : Nat) : RegionEntry :=
  let e := rd s (bits (transBlock s ctx) 64 64 + 32 * rid) 32
  let lo := bits e 0 57
  let ok := bits e 128 1 = 1 && bits e 57 7 = 0 && bits e 121 7 = 0 && bits e 129 2 = 0 && bits e 136 120 = 0
    && lo % 4096 = 0
  { ctx := ctx, rid := rid, ok := ok, lo := lo, limit := bits e 64 57 }

/-- The entry that a core checks by: the one it caches, or the table's, which it then caches (R323). -/
def regionOf (s : State) (core : Option Nat) (ctx rid : Nat) : State × RegionEntry :=
  match core with
  | none => (s, regionEntry s ctx rid)
  | some c =>
    match (coreOf s c).regions.find? (fun e => e.ctx = ctx && e.rid = rid) with
    | some e => (s, e)
    | none =>
      let e := regionEntry s ctx rid
      (modCore s c (fun k => { k with regions := e :: k.regions }), e)

/-- The region check of an address range of `n` bytes (R322). -/
def inRegion (e : RegionEntry) (va n : Nat) : Bool := e.ok && e.lo ≤ va && va + n ≤ e.limit + 1

/-! ### Page tables (R324 to R329) -/

/-- What an access needs of a leaf (R326). -/
inductive Need where
  | read | write | both | fetch
  deriving DecidableEq, Repr

def Need.writes : Need → Bool | .write => true | .both => true | _ => false

/-- Whether a leaf permits the access (R326). -/
def permits (pte : Nat) : Need → Bool
  | .read => pte.testBit 2
  | .write => pte.testBit 3
  | .both => pte.testBit 2 && pte.testBit 3
  | .fetch => pte.testBit 4

/-- Whether a valid entry at a level is malformed (R328). -/
def malformed (pte lvl : Nat) : Bool :=
  let leaf := pte.testBit 5
  let pa := bits pte 12 40 * 4096
  bits pte 52 4 != 0 || bits pte 8 4 != 0 || pte.testBit 1 || (leaf && 3 ≤ lvl) || (!leaf && lvl = 0)
    || (pte.testBit 58 && lvl != 0) || (leaf && pte.testBit 63 && lvl != 0)
    || (leaf && (bits pte 61 2 = 3 || 2 ≤ bits pte 59 2))
    || (!leaf && (bits pte 56 8 != 0 || bits pte 1 7 != 0))
    || (leaf && lvl = 0 && pte.testBit 58 && bits pte 12 4 != 0)
    || (leaf && lvl = 1 && bits pte 12 9 != 0) || (leaf && lvl = 2 && bits pte 12 18 != 0)
    || memEnd ≤ pa

/-- What a walk finds: a leaf, with its entry's address and the size of its page as a power of two, or
why there is none (CAUSE of R333). -/
inductive Walk where
  | leaf (pte addr size : Nat)
  | bad (cause : Nat)
  deriving DecidableEq, Repr

/-- The walk through the tables below a level (R324). -/
def walkFrom (s : State) (va : Nat) : Nat → Nat → Walk
  | 0, _ => .bad 2
  | lvl + 1, table =>
    let addr := table + 8 * bits va (12 + 9 * lvl) 9
    let pte := rd s addr 8
    if !pte.testBit 0 then .bad 0
    else if malformed pte lvl then .bad 2
    else if pte.testBit 5 then
      .leaf pte addr (if lvl = 0 then (if pte.testBit 58 then 16 else 12) else 12 + 9 * lvl)
    else walkFrom s va lvl (bits pte 12 40 * 4096)

/-- The walk of an address of a context; a block with V = 0 has no valid entry (R325). -/
def walk (s : State) (ctx va : Nat) : Walk :=
  let tb := transBlock s ctx
  if !tb.testBit 0 then .bad 0 else walkFrom s va 5 (bits tb 12 40 * 4096)

/-- Why an access waits: the CAUSE of its report, or no report (BUSY, R333; an overrun ring, R337). -/
abbrev Miss := Option Nat

/-- The physical address that a leaf gives (R327). -/
def leafPa (pte size va : Nat) : Nat :=
  let base := bits pte 12 40 * 4096
  base - base % 2 ^ size + va % 2 ^ size

/-- A walk for an access: A and D are set, and the leaf is installed in the core's translation cache (R329). -/
def walkFor (s : State) (core : Option Nat) (ctx va : Nat) (need : Need) : State × Except Miss (Nat × Nat) :=
  match walk s ctx va with
  | .bad c => (s, .error (some c))
  | .leaf pte addr size =>
    if pte.testBit 57 then (s, .error none)
    else if !permits pte need then (s, .error (some 1))
    else
      let want := pte ||| 0x40 ||| (if need.writes then 0x80 else 0)
      let s := if want = pte then s else wr s addr 8 want
      let e : TlbEntry := { ctx := ctx, page := va - va % 2 ^ size, bits := size, pte := BitVec.ofNat 64 want }
      let s := match core with
        | none => s
        | some c => modCore s c (fun k => { k with tlb := e :: k.tlb.filter (fun x => !(x.ctx = ctx && x.page = e.page)) })
      (s, .ok (want, leafPa want size va))

/-- Translation: by a cached leaf that serves the access, else by a walk (R329). The leaf and the
physical address. -/
def translate (s : State) (core : Option Nat) (ctx va : Nat) (need : Need) : State × Except Miss (Nat × Nat) :=
  match core with
  | none => walkFor s none ctx va need
  | some c =>
    match (coreOf s c).tlb.find? (fun e => e.ctx = ctx && e.page ≤ va && va < e.page + 2 ^ e.bits) with
    | none => walkFor s core ctx va need
    | some e =>
      let pte := e.pte.toNat
      if permits pte need && (!need.writes || pte.testBit 7) then (s, .ok (pte, leafPa pte e.bits va))
      else walkFor s core ctx va need

/-! ### Reports (R333) -/

/-- Adds a report for the demand ring. -/
def report (s : State) (ctx core src acc cause rid va : Nat) : State :=
  { s with reports := s.reports ++ [{ ctx := ctx, core := core, src := src, acc := acc, cause := cause, rid := rid,
                                      va := va, clock := (coreOf s core).clock }] }

/-- Adds the report of a miss, where it has a CAUSE; CAUSE 3 and 4 are reported as materialisations. -/
def reportMiss (s : State) (ctx core src acc rid va : Nat) (m : Miss) : State :=
  match m with
  | none => s
  | some c => report s ctx core src (if c = 3 || c = 4 then 4 else acc) c rid va

/-! ### Marl pool and cell table (R337 to R339) -/

/-- The home slice of a physical address (R320). -/
def homeSlice (pa : Nat) : Nat :=
  (bits pa 12 7 ^^^ bits pa 19 7 ^^^ bits pa 26 7 ^^^ bits pa 33 7 ^^^ bits pa 40 7)

/-- The core that names a home slice in a report (R333). -/
def sliceCore (pa : Nat) : Nat := 32 * (homeSlice pa / 32)

/-- Frames in the ring of a translation block, modulo 2^32. -/
def marlCount (tb : Nat) : Nat := (bits tb 352 32 + 2 ^ 32 - bits tb 320 32) % 2 ^ 32

/-- The address of a ring entry. -/
def marlSlot (tb n : Nat) : Nat := bits tb 256 39 * 2 ^ 13 + 8 * (n % 2 ^ bits tb 295 5)

/-- The report of an overrun ring, once (R337). -/
def noteOverrun (s : State) (ctx pa : Nat) : State :=
  match sget ctx s.contexts with
  | some c =>
    if c.overrun then s
    else report { s with contexts := sput ctx { c with overrun := true } s.contexts } ctx (sliceCore pa) 0 4 7 0 0
  | none => s

/-- The ring is within bounds again. -/
def clearOverrun (s : State) (ctx : Nat) : State :=
  { s with contexts := smod ctx (fun c => { c with overrun := false }) s.contexts }

/-- The ring of a context as the hardware finds it after a write of its MTAIL: overrun, or within bounds (R337; DEDUCED, log 27). -/
def marlLook (s : State) (ctx pa : Nat) : State :=
  let tb := transBlock s ctx
  if 2 ^ bits tb 295 5 < marlCount tb then noteOverrun s ctx pa else clearOverrun s ctx

/-- Who makes an access through the tables, as a report names it (R333): its core, SRC, and for an engine its
operation, which R297 orders among the operations that own lines. -/
structure Agent where
  core : Nat
  src : Nat := 0
  op : Option Nat := none
  deriving DecidableEq, Repr

/-- Takes a frame: its physical address, or why there is none (R337). -/
def marlTake (s : State) (ctx pa : Nat) (ag : Agent) (rid va : Nat) : State × Except Miss Nat :=
  let tb := transBlock s ctx
  let n := marlCount tb
  if 2 ^ bits tb 295 5 < n then (noteOverrun s ctx pa, .error none)
  else
    let s := clearOverrun s ctx
    if n = 0 then (s, .error (some 3))
    else
      let head := bits tb 320 32
      let frame := bits (rd s (marlSlot tb head) 8) 12 40 * 4096
      let s := ctxWr s ctx 0x28 4 ((head + 1) % 2 ^ 32)
      (if n - 1 < bits tb 300 8 then report s ctx ag.core ag.src 4 6 rid va else s, .ok frame)

/-- Gives a frame back, or reports it when the ring is full or overrun (R337). -/
def marlGive (s : State) (ctx pa frame : Nat) : State :=
  let tb := transBlock s ctx
  if 2 ^ bits tb 295 5 ≤ marlCount tb then
    let s := if 2 ^ bits tb 295 5 < marlCount tb then noteOverrun s ctx pa else clearOverrun s ctx
    report s ctx (sliceCore pa) 0 4 5 0 frame
  else
    let s := clearOverrun s ctx
    let head := (bits tb 320 32 + 2 ^ 32 - 1) % 2 ^ 32
    ctxWr (wr s (marlSlot tb head) 8 frame) ctx 0x28 4 head

/-- Base address and k of a cell-table pointer (R325). -/
def cellTable (tb : Nat) : Nat × Nat := (bits tb 152 40 * 4096, bits tb 140 5)

/-- The entries on the search path of a cell (R338). -/
def cellPath (base k vpn tag : Nat) : List Nat :=
  let b0 := (bits vpn 0 16 ^^^ bits vpn 16 16 ^^^ (tag * 16)) % 2 ^ k
  ((List.range 8).map (fun i => (List.range 4).map (fun j => base + 128 * ((b0 + i) % 2 ^ k) + 32 * j))).flatten

/-- What the search for a cell finds. -/
inductive CellHit where
  | found (entry frame : Nat)
  | absent (room : Option Nat)
  deriving DecidableEq, Repr

/-- The search along a path, with the first free entry met so far (R338). -/
def cellSearch (s : State) (vpn tag : Nat) : List Nat → Option Nat → CellHit
  | [], room => .absent room
  | a :: rest, room =>
    let e := rd s a 32
    let st := bits e 128 2
    if st = 0 then .absent (room.or (some a))
    else if st = 1 && bits e 12 45 = vpn && bits e 0 12 = tag then .found a (bits e 76 40 * 4096)
    else cellSearch s vpn tag rest (if st = 2 then room.or (some a) else room)

/-- The cell of a page and a tag. -/
def cellFind (s : State) (ctx vpn tag : Nat) : CellHit :=
  let t := cellTable (transBlock s ctx)
  cellSearch s vpn tag (cellPath t.1 t.2 vpn tag) none

/-- The bytes of a cell-table entry with the given state (R338). -/
def cellEntry (st frame vpn tag : Nat) : Nat := st * 2 ^ 128 + frame / 4096 * 2 ^ 76 + vpn * 2 ^ 12 + tag

/-- Copies a 4 KiB frame, poison with it. -/
def copyFrame (s : State) (src dst : Nat) : State :=
  let s := snoop (snoop s (addrs src 4096) false) (addrs dst 4096) true
  let pois := (List.range 64).filter (fun i => s.memPois.contains (src / 64 + i))
  let s := (List.range 4096).foldl (fun s i => pPut s (dst + i) (pByte s (src + i))) s
  let kept := s.memPois.filter (fun u => u < dst / 64 || dst / 64 + 64 ≤ u)
  { s with memPois := pois.foldl (fun l i => insertNat (dst / 64 + i) l) kept }

/-! ### Ownership (R233, R297) -/

/-- Whether an engine operation older than `before` (any, if none) owns a stash byte of a gang. -/
def stashOwned (s : State) (gk : Nat) (before : Option Nat) (a : Nat) : Bool :=
  s.ops.any (fun e => before.all (fun n => e.1 < n) && e.2.gang = gk && (match e.2.kind with
    | .copy c => (c.kind = 0 || c.kind = 3) && c.lines.contains (a / 128)
    | _ => false))

/-- The physical line at a virtual line, or of the cell that a tag names there; none where no page or cell stands. -/
def lineAt (s : State) (ctx tag line : Nat) : Option Nat :=
  match walk s ctx (128 * line) with
  | .bad _ => none
  | .leaf pte _ size =>
    let pa := leafPa pte size (128 * line)
    if pte.testBit 63 && tag != 0 then
      match cellFind s ctx (128 * line / 4096) tag with
      | .found _ f => some (f + 128 * line % 4096)
      | .absent _ => none
    else some pa

/-- The virtual lines that an operation still owns in memory, with the tag they are written under. A storage request owns
its own (R441). -/
def OpKind.owned : OpKind → List Nat × Nat
  | .copy c => if c.kind = 1 then (c.lines, c.tag.toNat) else ([], 0)
  | .coll c => (c.lines, 0)
  | _ => ([], 0)

/-- What engine operations and storage reads older than `before` (any, if none) own: context, tag and virtual lines. -/
def ownedVirtual (s : State) (before : Option Nat) : List (Nat × Nat × List Nat) :=
  (s.ops.filter (fun e => before.all (fun n => e.1 < n))).map (fun e => (e.2.ctx, e.2.kind.owned.2, e.2.kind.owned.1))
    ++ (s.reqs.filter (fun r => before.all (fun n => r.2.op < n))).map (fun r => (r.2.ctx, r.2.tag.toNat, r.2.own))

/-- The physical lines that they own. -/
def ownedLines (s : State) (before : Option Nat) : List Nat :=
  ((ownedVirtual s before).map (fun o => o.2.2.filterMap (lineAt s o.1 o.2.1))).flatten

/-- Whether an operation owns one of some bytes of memory. -/
def memOwned (s : State) (before : Option Nat) (pas : List Nat) : Bool :=
  let own := ownedLines s before
  !own.isEmpty && pas.any (fun a => own.contains (a - a % 128))

/-- Whether an operation older than `before` (any, if none) owns a line of the cell of a tag at one of some addresses. A cell
that is not yet materialised has no physical lines, so its lines are named by their addresses (R161). -/
def cellOwned (s : State) (before : Option Nat) (ctx tag : Nat) (vas : List Nat) : Bool :=
  tag != 0 && (ownedVirtual s before).any (fun o => o.1 = ctx && o.2.1 = tag && vas.any (fun v => o.2.2.contains (v / 128)))

/-- Whether an operation owns a line that an access under a tag reaches. -/
def reachesOwned (s : State) (before : Option Nat) (ctx tag : Nat) (vas pas : List Nat) : Bool :=
  memOwned s before pas || cellOwned s before ctx tag vas

/-- Materialises the cell of a page and a tag, if it is not yet, from the base frame (R259, R339). It waits for the lines
of the base that an engine owns (R297, R305). -/
def materialise (s : State) (ctx vpn tag base : Nat) (ag : Agent) (rid va : Nat) : State × Except Miss Nat :=
  match cellFind s ctx vpn tag with
  | .found _ f => (s, .ok f)
  | .absent none => (s, .error (some 4))
  | .absent (some a) =>
    if memOwned s ag.op (addrs base 4096) then (s, .error none) else
    match marlTake s ctx base ag rid va with
    | (s, .error m) => (s, .error m)
    | (s, .ok f) => (wr (copyFrame s base f) a 32 (cellEntry 1 f vpn tag), .ok f)

/-- The address whose home slice acts for the cells of a page: the base page's, or the frame's where no base is mapped. -/
def basePa (s : State) (ctx vpn frame : Nat) : Nat :=
  match walk s ctx (4096 * vpn) with
  | .leaf pte _ size => leafPa pte size (4096 * vpn)
  | .bad _ => frame

/-- Frees a cell: its entry becomes deleted and its frame goes back to the ring (R339). -/
def freeCell (s : State) (ctx entry frame : Nat) : State :=
  let e := rd s entry 32
  marlGive (wr s entry 32 (cellEntry 2 frame (bits e 12 45) (bits e 0 12))) ctx (basePa s ctx (bits e 12 45) frame) frame

/-! ### Window write-back of cell lines, and the addresses of an access -/

/-- The lines of windows that stand for the cell line at `va`: gang, window, line. Besides those of the cell, a line read
from the base while the cell was absent (R161), which is clean. -/
def cellLines (s : State) (ctx va tag : Nat) : List (Nat × Nat × Nat) :=
  (s.gangs.map (fun g => (g.2.windows.map (fun w =>
    (w.2.lines.filter (fun e => (e.2.1 == none || !e.2.2.2) && w.2.ctx = ctx && w.2.tag.toNat = tag
      && bits w.2.ptr.toNat 0 57 + 128 * e.1 = va - va % 128)).map (fun e => (g.1, w.1, e.1)))).flatten)).flatten

/-- The core that names a gang's cluster in a report of its windows (R333). -/
def gangCore (s : State) (gk : Nat) : Nat := 4 * ((sget gk s.gangs).map (·.cluster)).getD 0

/-- Writes a window's line of a cell back, materialising the cell; `drop` makes the line absent. A miss sends its report
with the fields of the window's write, and what needs the line waits. -/
def writeBackCell (s : State) (gk wn line : Nat) (drop : Bool) : State × Except Miss Unit :=
  match sget gk s.gangs with
  | none => (s, .ok ())
  | some g =>
    match sget wn g.windows with
    | none => (s, .ok ())
    | some w =>
      match sget line w.lines with
      | none => (s, .ok ())
      | some (id, wrt, dirty) =>
        let put (s : State) : State :=
          let lines := if drop then sdel line w.lines else sput line (id, wrt, false) w.lines
          { s with gangs := smod gk (fun g => { g with windows := sput wn { w with lines := lines } g.windows }) s.gangs }
        if !dirty then (put s, .ok ())
        else
          let va := bits w.ptr.toNat 0 57 + 128 * line
          let rid := bits w.ptr.toNat 57 7
          match walkFor s none w.ctx va .write with
          | (s, .error m) => (reportMiss s w.ctx (gangCore s gk) 0 1 rid va m, .error none)
          | (s, .ok (_, pa)) =>
            match materialise s w.ctx (va / 4096) w.tag.toNat (pa - pa % 4096) { core := gangCore s gk } rid va with
            | (s, .error m) => (reportMiss s w.ctx (gangCore s gk) 0 1 rid va m, .error none)
            | (s, .ok f) => (put (putLine s (f + va % 4096) g w line), .ok ())

/-- Writes back every window copy of a cell line before another agent's access (R178). -/
def snoopCell (s : State) (ctx va tag : Nat) (drop : Bool) : State × Except Miss Unit :=
  (cellLines s ctx va tag).foldl (fun acc l =>
    match acc with
    | (s, .error m) => (s, .error m)
    | (s, .ok ()) => writeBackCell s l.1 l.2.1 l.2.2 drop) (s, .ok ())

/-- The frame address that an access of one page reaches, tag cells included (R161, R165, R339).
`own` writes materialise a cell. -/
def pageFrame (s : State) (core : Option Nat) (ctx : Nat) (need : Need) (own : Bool) (tag : Nat) (ag : Agent) (rid va : Nat) :
    State × Except Miss Nat :=
  match translate s core ctx va need with
  | (s, .error m) => (s, .error m)
  | (s, .ok (pte, pa)) =>
    let base := pa - pa % 4096
    if !pte.testBit 63 || tag = 0 then (s, .ok base)
    else
      match snoopCell s ctx va tag need.writes with
      | (s, .error m) => (s, .error m)
      | (s, .ok ()) =>
        if need.writes && own then materialise s ctx (va / 4096) tag base ag rid va
        else
          match cellFind s ctx (va / 4096) tag with
          | .found _ f => (s, .ok f)
          | .absent _ => (s, .ok base)

/-- The physical address of every byte of an access, or the byte and the reason it waits. -/
def physical (s : State) (core : Option Nat) (ctx : Nat) (need : Need) (own : Bool) (tag : Nat) (ag : Agent) (rid : Nat) :
    List Nat → State × Except (Nat × Miss) (List Nat)
  | [] => (s, .ok [])
  | va :: rest =>
    match pageFrame s core ctx need own tag ag rid va with
    | (s, .error m) => (s, .error (va, m))
    | (s, .ok f) =>
      match physical s core ctx need own tag ag rid rest with
      | (s, .error e) => (s, .error e)
      | (s, .ok ps) => (s, .ok ((f + va % 4096) :: ps))

/-- Whether the page of an address has a usable leaf that does not tag it. -/
def isUntagged (s : State) (ctx va : Nat) : Bool :=
  match walk s ctx va with
  | .leaf pte _ _ => !pte.testBit 63 && !pte.testBit 57
  | .bad _ => false

/-- Whether the page of an address is tagged, by a leaf that an access can use. -/
def isTagged (s : State) (ctx va : Nat) : Bool :=
  match walk s ctx va with
  | .leaf pte _ _ => pte.testBit 63 && !pte.testBit 57
  | .bad _ => false

end Sys2Proof.Machine
end

