-- ==== Sys2Proof/Machine/Ops.lean ====
section
/-! DEFINITION. The named operations on fibres, waves, gangs and contexts: registers, taking a trap and
returning from one, ending a fibre, aborting a gang and killing a context (R30 to R47, R200 to R202,
R252, R422 to R436). -/

namespace Sys2Proof.Machine

/-! ### Registers (R32 to R40) -/

/-- A vector register that holds 0, not poisoned. -/
def VWord.zero : VWord := { val := 0, pois := false }
/-- A uniform register that holds 0, not poisoned. -/
def GWord.zero : GWord := { val := 0, poisLo := false, poisHi := false }
/-- A reservoir register that holds 0, not poisoned. -/
def QWord.zero : QWord := { val := 0, pois := 0 }
/-- An accumulator as R47 creates it. -/
def Tile.zero : Tile :=
  { mant := [], fval := [], exp := 0, efix := false, pair := false, high := false, susp := false, rslab := 0,
    nanin := false, sbad := false, tbad := false, pois := [] }

/-- A vector register of a fibre. -/
def Fibre.rv (f : Fibre) (r : Nat) : W32 := (sgetD VWord.zero f.v r).val
/-- Its poison state. -/
def Fibre.vp (f : Fibre) (r : Nat) : Bool := (sgetD VWord.zero f.v r).pois
/-- A vector pair, low word first (R36). -/
def Fibre.rv2 (f : Fibre) (r : Nat) : W64 := f.rv (r + 1) ++ f.rv r
/-- Writes a vector register with a poison state. -/
def Fibre.setVp (f : Fibre) (r : Nat) (x : W32) (p : Bool) : Fibre :=
  { f with v := sputD VWord.zero r { val := x, pois := p } f.v }
/-- Writes a vector register; its poison is cleared (R37). -/
def Fibre.setV (f : Fibre) (r : Nat) (x : W32) : Fibre := f.setVp r x false
/-- Writes a vector pair. -/
def Fibre.setV2 (f : Fibre) (r : Nat) (x : W64) : Fibre :=
  (f.setV r (x.extractLsb' 0 32)).setV (r + 1) (x.extractLsb' 32 32)
/-- Writes a destination of 32 or 64 bits. -/
def Fibre.setX (f : Fibre) (wide : Bool) (r : Nat) (x : W64) : Fibre :=
  if wide then f.setV2 r x else f.setV r (x.extractLsb' 0 32)
/-- A predicate; p0 reads as 1 (R40). -/
def Fibre.rp (f : Fibre) (k : BitVec 4) : Bool := k == 0 || f.pred.getLsbD k.toNat
/-- Writes a predicate; a write to p0 is discarded (R40). -/
def Fibre.setP (f : Fibre) (k : BitVec 4) (b : Bool) : Fibre :=
  if k == 0 then f
  else
    let m : BitVec 16 := 1 <<< k.toNat
    { f with pred := f.pred &&& ~~~m ||| (if b then m else 0) }
/-- Writes the predicate word; bit 0 stays 1 (R40). -/
def Fibre.setPreds (f : Fibre) (w : BitVec 16) : Fibre := { f with pred := w ||| 1 }
/-- A reservoir register. -/
def Fibre.rq (f : Fibre) (r : Nat) : QWord := sgetD QWord.zero f.q r
/-- Writes a reservoir register. -/
def Fibre.setQ (f : Fibre) (r : Nat) (x : QWord) : Fibre := { f with q := sputD QWord.zero r x f.q }

/-- A uniform register of a wave. -/
def Wave.rg (w : Wave) (r : Nat) : W64 := (sgetD GWord.zero w.g r).val
/-- Writes a uniform register; the poison of both words is cleared (R37). -/
def Wave.setG (w : Wave) (r : Nat) (x : W64) : Wave :=
  { w with g := sputD GWord.zero r { val := x, poisLo := false, poisHi := false } w.g }
/-- The record g4k to g4k+3 (R80). -/
def Wave.record (w : Wave) (k : Nat) : List W64 := (List.range 4).map (fun i => w.rg (4 * k + i))
/-- A completion flag's count (R44). -/
def Wave.flag (w : Wave) (k : Nat) : Nat := sgetD 0 w.flags k
/-- Writes a completion flag's count. -/
def Wave.setFlag (w : Wave) (k n : Nat) : Wave := { w with flags := sputD 0 k n w.flags }
/-- An accumulator. -/
def Wave.acc (w : Wave) (k : Nat) : Tile := sgetD Tile.zero w.accs k
/-- Writes an accumulator. -/
def Wave.setAcc (w : Wave) (k : Nat) (t : Tile) : Wave := { w with accs := sputD Tile.zero k t w.accs }

/-! ### Places -/

/-- Moves a fibre past the instruction at its PC (R70, R75); `ll` when that is long-latency. -/
def Fibre.advance (f : Fibre) (p : Place) (pc : W64) (ll : Bool) : Fibre :=
  if pc = p.hdr + 8 * (BitVec.ofNat 64 p.last + 1) then { f with pc := pc + 8, base := none }
  else { f with pc := pc + 8, base := some { p with ll := p.ll || ll } }

/-- Moves a blocked fibre past the instruction that blocked it, and makes it ready; checks that were waived for that instruction
are made again. -/
def Fibre.resume (f : Fibre) (ll : Bool) : Fibre :=
  match f.base with
  | none => { f with blocked := none, waive := false }
  | some p => { f.advance p f.pc ll with blocked := none, waive := false }

/-! ### Waves, fibres, and what they belong to -/

/-- Changes a wave. -/
def modWave (s : State) (wk : Nat) (f : Wave → Wave) : State := { s with waves := smod wk f s.waves }

/-- Changes the fibre of a slot. -/
def modFibre (s : State) (wk slot : Nat) (f : Fibre → Fibre) : State :=
  modWave s wk (fun w => { w with fibres := smod slot f w.fibres })

/-- Changes the fibres of some slots. -/
def mapFibres (s : State) (wk : Nat) (slots : List Nat) (f : Nat → Fibre → Fibre) : State :=
  modWave s wk (fun w => { w with fibres := w.fibres.map (fun e => if slots.contains e.1 then (e.1, f e.1 e.2) else e) })

/-- The fibre of a slot. -/
def fibreAt (s : State) (wk slot : Nat) : Option Fibre := (sget wk s.waves).bind (fun w => sget slot w.fibres)

/-- The launch a wave belongs to. -/
def launchOf (s : State) (wk : Nat) : Option Launch := (sget wk s.waves).bind (fun w => sget w.launch s.launches)

/-- The context a wave runs in. -/
def ctxOf (s : State) (wk : Nat) : Nat := ((launchOf s wk).map (·.ctx)).getD 0

/-- The core a wave is on, from its key. -/
def coreNo (wk : Nat) : Nat := wk / 64

/-- Key of the workgroup of a wave. -/
def wgKey (w : Wave) : Nat := key2 w.launch w.wg

/-- Key of the gang of a workgroup (R401). -/
def gangKey (s : State) (launch wg : Nat) : Nat :=
  key2 launch (wg / ((sget launch s.launches).map (·.gang)).getD 1)

/-- Key of the gang of a wave. -/
def gangOf (s : State) (wk : Nat) : Nat :=
  match sget wk s.waves with
  | some w => gangKey s w.launch w.wg
  | none => 0

/-- Changes a gang. -/
def modGang (s : State) (gk : Nat) (f : Gang → Gang) : State := { s with gangs := smod gk f s.gangs }

/-- Changes a launch. -/
def modLaunch (s : State) (l : Nat) (f : Launch → Launch) : State := { s with launches := smod l f s.launches }

/-- Changes an operation in flight. -/
def modOp (s : State) (op : Nat) (f : Op → Op) : State := { s with ops := smod op f s.ops }

/-- Waves of a gang. -/
def wavesOf (s : State) (gk : Nat) : List Nat := skeys (s.waves.filter (fun e => gangKey s e.2.launch e.2.wg = gk))

/-! ### Device control registers -/

/-- Reset values of the control registers that do not reset to 0 (R406). -/
def ctlReset (off : Nat) : W64 :=
  if off = 0x720000 then 28800 else if off = 0x720048 then 760 else if off = 0x720050 then 40 else 0

/-- A control register, by its address less 0x8_0000_0000_0000. -/
def ctlRd (s : State) (off : Nat) : W64 := sgetD (ctlReset off) s.ctl off

/-- A field of a control register. -/
def ctlBits (s : State) (off lo n : Nat) : Nat := bits (ctlRd s off).toNat lo n

/-- Writes a control register. -/
def ctlWr (s : State) (off : Nat) (v : W64) : State := { s with ctl := sputD (ctlReset off) off v s.ctl }

/-- The offset of a debug slot's registers (R456). -/
def dbReg (d r : Nat) : Nat := 0x7A0000 + 0x100 * d + r

/-- The commands of the debug slots that wait for a fibre are done, with a status (R456). -/
def dbDone (s : State) (launch wg : Nat) (lfi : W32) (status : Nat) : State :=
  (s.dbBusy.filter (fun e => e.2 = (launch, wg, lfi))).foldl (fun s e =>
    let s := ctlWr s (dbReg e.1 0x60) (ctlRd s (dbReg e.1 0x60) &&& 0x7FFFFFFFFFFFFFFF)
    { ctlWr s (dbReg e.1 0x78) (BitVec.ofNat 64 status) with dbBusy := sdel e.1 s.dbBusy }) s

/-- Interrupts a Loam core. -/
def loamIrq (s : State) (core : Nat) : State := { s with out := s.out ++ [.loamIrq core] }

/-! ### Supervisor events (R436) -/

/-- An event with every field 0, of the I/O die. -/
def SupEvent.zero (s : State) (code : Byte) : SupEvent :=
  { code := code, cause := 0, ctx := 0, launch := 0, pc := 0, addr := 0, len := 0, req := 0, clock := s.ioClock,
    core := 0xFFFF, kind := 0, sub := 0, rslot := 0 }

/-- An event about a fibre of a wave. -/
def SupEvent.ofFibre (s : State) (code : Byte) (wk : Nat) (lfi : W32) : SupEvent :=
  let w := sget wk s.waves
  { SupEvent.zero s code with
    ctx := ctxOf s wk, launch := (w.map (·.launch)).getD 0, len := lfi, req := BitVec.ofNat 32 ((w.map (·.wg)).getD 0),
    clock := (coreOf s (coreNo wk)).clock, core := coreNo wk }

/-- Queues an event for the supervisor ring. -/
def supPost (s : State) (e : SupEvent) : State := { s with supEvents := s.supEvents ++ [e] }

/-! ### Context tags (R252) -/

/-- One holder of a tag more. -/
def tagHold (s : State) (ctx tag : Nat) : State :=
  { s with contexts := smod ctx (fun c => { c with tags := smod tag (fun t => { t with holders := t.holders + 1 }) c.tags }) s.contexts }

/-- One holder of a tag less. -/
def tagDrop (s : State) (ctx tag : Nat) : State :=
  { s with contexts := smod ctx (fun c => { c with tags := smod tag (fun t => { t with holders := t.holders - 1 }) c.tags }) s.contexts }

/-! ### The open clause (R75, R342) -/

/-- A fibre leaves its wave's open clause; the clause ends when no fibre is left in it. -/
def leaveClause (s : State) (wk slot : Nat) : State :=
  modWave s wk (fun w =>
    match w.clause with
    | none => w
    | some c =>
      let slots := c.slots.filter (· != slot)
      { w with clause := if slots.isEmpty then none else some { c with slots := slots }, paired := if slots.isEmpty then none else w.paired })

/-- A fibre blocks at an instruction and leaves the clause (R30, R75). -/
def block (s : State) (wk slot : Nat) (pc : W64) (p : Place) (b : Blocked) : State :=
  leaveClause (modFibre s wk slot (fun f => { f with blocked := some b, pc := pc, base := some p })) wk slot

/-! ### The end of a fibre -/

/-- How a fibre ends: `exit`, `tret.killf` or `tret.killg` or for want of a handler, a gang abort. -/
inductive Ending where
  | exit | kill | abort
  deriving DecidableEq, Repr

/-- What a fibre that ends no longer takes of an operation in flight. A record that entered its queue, and records
offered to a record queue, go on without a fibre to answer: their part names no slot (32). -/
def OpKind.without (slot : Nat) : OpKind → OpKind
  | .load give giveQ held =>
    .load (give.filter (·.slot != slot)) (giveQ.filter (·.slot != slot)) (held.filter (·.slot != slot))
  | .store held => .store (held.filter (·.slot != slot))
  | .ldmc accs held mask ask sent got =>
    .ldmc (accs.filter (·.slot != slot)) (held.filter (·.slot != slot)) mask ask sent got
  | .launch q parts => .launch q ((parts.filter (fun p => p.slot != slot || p.entry.isSome)).map (fun p =>
      if p.slot = slot then { p with slot := 32 } else p))
  | .capinv reqs => .capinv (reqs.filter (·.slot != slot))
  | .gfx i desc done held => .gfx i desc (done.filter (·.slot != slot)) (held.filter (·.1 != slot))
  | .rqpop q vd n pd slots => .rqpop q vd n pd (slots.filter (· != slot))
  | .gld d vals => .gld d vals
  | .cflush l => .cflush l
  | .pref => .pref
  | .cinvLines l => .cinvLines l
  | .cinvAll => .cinvAll
  | .cinvL1 => .cinvL1
  | .icinv c => .icinv c
  | .smap n w => .smap n w
  | .smapUnmap n => .smapUnmap n
  | .swb n => .swb n
  | .tagpub p => .tagpub p
  | .copy c => .copy c
  | .coll c => .coll c
  | .blend a b f => .blend a b f
  | .rqpush q pd parts => .rqpush q pd (parts.map (fun p => if p.1 = slot then (32, p.2) else p))

/-- Whether an operation has nothing left to do, its fibres having ended. -/
def OpKind.idle : OpKind → Bool
  | .capinv [] => true
  | .launch _ [] => true
  | _ => false

/-- Whether a request is one that the gate passed to the storage service (R440). -/
def SenReq.storage (r : SenReq) : Bool := r.passed && bits r.cap.toNat 16 8 = 2 && r.code.toNat ≤ 2

/-- The event of a storage request that is orphaned or released (R436, R442). -/
def orphanEvent (s : State) (code : Byte) (rk : Nat) (r : SenReq) : State :=
  supPost s { SupEvent.zero s code with
              ctx := r.ctx, launch := r.launch, pc := r.pc, addr := r.args.getD 5 0 ++ r.args.getD 4 0,
              len := BitVec.ofNat 32 ((r.args.getD 2 0).toNat * Config.blockBytes (BitVec.ofNat 32 (r.entry / 2 ^ 128 % 2 ^ 32)))
              req := BitVec.ofNat 32 rk }

/-- A storage request whose fibre ends before its answer is orphaned, with event 0x04 (R442). Requests of the other
services lose their fibre. -/
def orphan (s : State) (rk : Nat) (r : SenReq) : State :=
  let s := { s with reqs := sput rk { r with orphan := true } s.reqs }
  if r.storage && r.result.isNone then orphanEvent s 0x04 rk r else s

/-- The requests of a fibre are orphaned. -/
def orphanAll (s : State) (wk slot : Nat) : State :=
  (s.reqs.filter (fun e => e.2.wave = wk && e.2.slot = slot && !e.2.orphan)).foldl (fun s e => orphan s e.1 e.2) s

/-- The count of a flag falls by one. -/
def dropFlag (s : State) (wk : Nat) (flag : Option Nat) : State :=
  match flag with
  | none => s
  | some k => modWave s wk (fun w => w.setFlag k (w.flag k - 1))

/-- Writes SUSP and RSLAB, a field of 8 bits, of the accumulator that a matrix operation works on; `rslab` none leaves RSLAB (R213). -/
def setSusp (s : State) (o : MatOp) (susp : Bool) (rslab : Option Nat) : State :=
  modWave s o.wave (fun w => w.setAcc o.acc { w.acc o.acc with susp := susp, rslab := rslab.getD (w.acc o.acc).rslab % 256 })

/-- Whether a matrix operation adds products (R221). -/
def MatOp.isPass (o : MatOp) : Bool := o.kind == .mma || o.kind == .mmat

/-- A matrix operation completes (R225): RSLAB and SUSP are 0, and its flag's count falls. -/
def endMat (s : State) (n : Nat) : State :=
  match sget n s.mats with
  | none => s
  | some o =>
    let s := if o.isPass then setSusp s o false (some 0) else s
    { dropFlag s o.wave o.flag with mats := sdel n s.mats }

/-- The operations of a wave suspended on illegal metadata go on, or complete, once no fibre of U is in the handler
for it (R225). -/
def settleMats (s : State) (wk : Nat) : State :=
  (s.mats.filter (fun e => e.2.wave = wk && e.2.susp == some .sparsity && e.2.trapped.isEmpty)).foldl (fun s e =>
    if e.2.rows.isEmpty || e.2.slabs ≤ e.2.next then endMat s e.1
    else { setSusp s e.2 false none with mats := sput e.1 { e.2 with susp := none } s.mats }) s

/-- The matrix operations of a wave are abandoned (R225). -/
def dropMats (s : State) (wk : Nat) : State :=
  (s.mats.filter (fun e => e.2.wave = wk)).foldl (fun s e => { dropFlag s wk e.2.flag with mats := sdel e.1 s.mats }) s

/-- The operations of a wave that have nothing left to do are abandoned. -/
def dropIdle (s : State) (wk : Nat) : State :=
  (s.ops.filter (fun e => e.2.wave = wk && e.2.kind.idle)).foldl (fun s e => { dropFlag s wk e.2.flag with ops := sdel e.1 s.ops }) s

/-- Empties a fibre's slot and gives up what it held (R188, R202, R421, R432). -/
def endFibre (s : State) (wk slot : Nat) (how : Ending) : State :=
  match sget wk s.waves, fibreAt s wk slot with
  | some w, some f =>
    let ctx := ctxOf s wk
    let s := orphanAll (leaveClause s wk slot) wk slot
    let s := dbDone (tagDrop s ctx f.ct.toNat) w.launch w.wg f.lfi 1
    let s := { s with
      contexts := smod ctx (fun c => { c with waiters := c.waiters.filter (· != (wk, slot)) }) s.contexts
      ops := s.ops.map (fun e => if e.2.wave = wk then (e.1, { e.2 with slots := e.2.slots.filter (· != slot), kind := e.2.kind.without slot }) else e)
      mats := s.mats.map (fun e => if e.2.wave = wk then (e.1, { e.2 with
        trapped := e.2.trapped.filter (· != slot)
        rows := if e.2.susp == some .sparsity then e.2.rows.filter (·.1 != slot) else e.2.rows }) else e)
      cores := smod (coreNo wk) (fun c => { c with
        silt := c.silt.map (fun e => if e.wave = wk then { e with slots := e.slots.filter (· != slot) } else e) }) s.cores }
    let s := dropIdle (settleMats (modWave s wk (fun w => { w with fibres := sdel slot w.fibres })) wk) wk
    modLaunch s w.launch (fun l => { l with
      nkill := if how == .exit then l.nkill else l.nkill + 1
      status := if how == .kill then l.status ||| 1 else l.status })
  | _, _ => s

/-! ### Dependent grids (R198) -/

/-- Whether every workgroup of a launch has triggered or retired. -/
def gridTriggered (s : State) (l : Nat) : Bool :=
  (sget l s.launches).any (fun x => x.ngrp.foldl (· * ·) 1 ≤ x.trig.length + x.done)

/-- Whether the producers of a launch have triggered. -/
def producersDone (s : State) (l : Launch) : Bool := !l.depw || l.prods.all (gridTriggered s)

/-- Wakes the fibres in `gridwait` whose producers have triggered. -/
def wakeGrids (s : State) : State :=
  s.waves.foldl (fun s e =>
    if ((sget e.2.launch s.launches).map (producersDone s)).getD false then
      modWave s e.1 (fun w => { w with fibres := w.fibres.map (fun p =>
        if p.2.blocked = some .gridwait then (p.1, p.2.resume false) else p) })
    else s) s

/-! ### Gang abort and context kill (R417, R430, R432) -/

/-- Members of a gang (R401). -/
def membersOf (l : Launch) (k : Nat) : Nat :=
  let n := l.ngrp.foldl (· * ·) 1
  min (l.gang * k + l.gang) n - l.gang * k

/-- Gangs of a launch (R401). -/
def gangCount (l : Launch) : Nat := (l.ngrp.foldl (· * ·) 1 + l.gang - 1) / l.gang

/-- An abort takes effect on a gang that is placed: its matrix operations are abandoned, and its blocked, parked and in-handler
fibres end. -/
def strike (s : State) (gk : Nat) : State :=
  let s := modGang s gk (fun g => { g with abort := true, state := .aborting, saved := none, abortAt := g.cores.map (fun c => (c, (coreOf s c).clock)) })
  let s := (wavesOf s gk).foldl dropMats s
  (wavesOf s gk).foldl (fun s wk =>
    ((sget wk s.waves).map (fun w => skeys (w.fibres.filter (fun e =>
      e.2.blocked.isSome || !e.2.recs.isEmpty || w.park.isSome)))).getD [] |>.foldl (fun s slot => endFibre s wk slot .abort) s) s

/-- Raises a gang abort: blocked, parked and in-handler fibres end at once, the others at their next
clause boundary. A gang that is saved retires unrestored. -/
def abortGang (s : State) (gk : Nat) : State :=
  match sget gk s.gangs with
  | none => s
  | some g =>
    if g.abort then s
    else if g.state == .held || g.state == .ready then
      let l := gk / 2 ^ 32
      let n := ((g.saved.map (fun v => (v.waves.map (fun e => e.2.fibres.length)).sum)).getD 0)
      let tags := (g.saved.map (fun v => (v.waves.map (fun e => e.2.fibres.map (fun f => f.2.ct.toNat))).flatten)).getD []
        ++ g.windows.map (fun w => w.2.tag.toNat)
      let s := (s.reqs.filter (fun e => gangKey s e.2.launch e.2.wg = gk && !e.2.orphan)).foldl (fun s e => orphan s e.1 e.2) s
      let s := ((g.saved.map (·.silt)).getD []).foldl (fun s e =>
        modCore s (coreNo e.wave) (fun c => { c with silt := c.silt ++ [{ e with slots := [] }] })) { s with
          gangs := sdel gk s.gangs, migration := if s.migration = some (l, gk % 2 ^ 32) then none else s.migration }
      let s := tags.foldl (fun s t => tagDrop s (((sget l s.launches).map (·.ctx)).getD 0) t) s
      let gone := (g.saved.map (fun v => (v.waves.map (fun e => e.2.fibres.map (fun f => (e.2.wg, f.2.lfi)))).flatten)).getD []
      let s := gone.foldl (fun s p => dbDone s l p.1 p.2 1) s
      wakeGrids (modLaunch s l (fun x => { x with
        nkill := x.nkill + n, done := x.done + membersOf x (gk % 2 ^ 32)
        trig := x.trig.filter (fun w => w / x.gang != gk % 2 ^ 32) }))
    else if g.state == .restoring then modGang s gk (fun g => { g with abort := true })
    else strike s gk

/-- Drops the unplaced gangs of a launch and aborts the others; sets bits of STATUS (R409), which a launch whose grid is over
takes as long as its completion record is not written. -/
def killLaunch (s : State) (l : Nat) (bit : BitVec 8) : State :=
  match sget l s.launches with
  | none => s
  | some x =>
    if x.recorded then s
    else if x.completed then modLaunch s l (fun x => { x with status := x.status ||| bit })
    else
    let n := x.ngrp.foldl (· * ·) 1
    let s := { s with gangs := s.gangs.filter (fun e => !(e.1 / 2 ^ 32 = l && e.2.state == .unplaced)) }
    let s := modLaunch s l (fun x => { x with
      status := x.status ||| bit, done := x.done + (n - min n (x.nextGang * x.gang)), nextGang := gangCount x })
    wakeGrids ((skeys (s.gangs.filter (fun e => e.1 / 2 ^ 32 = l))).foldl abortGang s)

/-- Registers of a launch queue (R395). -/
def lqReg (q r : Nat) : Nat := 0x700000 + 0x40 * q + r

/-- Writes the register of a part of a `launch` with a launch number; a slot of 32 names no fibre. -/
def answerPart (s : State) (wk : Nat) (p : LaunchPart) (num : W32) : State := modFibre s wk p.slot (fun f => f.setV p.vr num)

/-- The `launch` operations whose records stand in the ring of a queue, and which of their parts `sel` names are
answered with a number and removed; an operation without a part left completes (R189, R394). -/
def answerParts (s : State) (q : Nat) (sel : Nat → Bool) (num : W32) : State :=
  s.ops.foldl (fun s e =>
    match e.2.kind with
    | .launch q' parts =>
      if q' != q then s
      else
        let hit := parts.filter (fun p => p.entry.any sel)
        let left := parts.filter (fun p => !p.entry.any sel)
        if hit.isEmpty then s
        else
          let s := hit.foldl (fun s p => answerPart s e.2.wave p num) s
          if left.isEmpty then { dropFlag s e.2.wave e.2.flag with ops := sdel e.1 s.ops }
          else modOp s e.1 (fun o => { o with kind := .launch q left })
    | _ => s) s

/-- The effect of a write of `lq.cfg`: entries held are discarded (R395). -/
def lqConfigure (s : State) (q : Nat) (v : W64) : State :=
  let s := { answerParts s q (fun _ => true) 0 with queueWait := sdel q s.queueWait }
  let s := { s with subPages := s.subPages.map (fun e => (e.1, if e.2.queue = q then { e.2 with entries := [] } else e.2)) }
  ctlWr (ctlWr s (lqReg q 0) v) (lqReg q 0x18) (ctlRd s (lqReg q 0x10))

/-- Clears V of every queue of a context and unbinds its submission pages (R395, R409, R430). -/
def disableQueues (s : State) (ctx : Nat) : State :=
  let s := (List.range 64).foldl (fun s q =>
    if ctlBits s (lqReg q 0) 38 16 = ctx && ctlBits s (lqReg q 0) 63 1 = 1 then
      lqConfigure s q (ctlRd s (lqReg q 0) &&& 0x7FFFFFFFFFFFFFFF)
    else s) s
  { s with subPages := s.subPages.map (fun e => (e.1, if e.2.ctx = ctx then { e.2 with queue := 65535, entries := [] } else e.2)) }

/-- Launches of a context that have not ended with a completion record. -/
def openLaunches (s : State) (ctx : Nat) : List Nat :=
  skeys (s.launches.filter (fun e => e.2.ctx = ctx && !e.2.recorded))

/-- Steps 1 and 2 of R430 for OP 2 and for a kill. -/
def endContext (s : State) (ctx : Nat) : State :=
  disableQueues ((openLaunches s ctx).foldl (fun s l => killLaunch s l 4) s) ctx

/-- Kills a context (R430). The event of step 4 stands in the context until the completion records of
step 3 have been written or skipped. -/
def killContext (s : State) (ctx : Nat) (e : SupEvent) : State :=
  match sget ctx s.contexts with
  | none => s
  | some c =>
    if c.killed then s else
    let s := { s with contexts := sput ctx { c with killed := true } s.contexts }
    let s := endContext s ctx
    let e := { e with ctx := ctx }
    if (openLaunches s ctx).isEmpty then supPost s e
    else { s with contexts := smod ctx (fun c => { c with killEvent := some e }) s.contexts }

/-! ### Accesses of a context through a pointer -/

/-- The region identifier and the address of a pointer (R321). -/
def ptrRid (p : W64) : Nat := bits p.toNat 57 7
def ptrVa (p : W64) : Nat := bits p.toNat 0 57

/-- Why an access through a pointer fails: the region check, or a miss at an address. -/
inductive PtrFail where
  | region
  | miss (va : Nat) (m : Miss)
  deriving DecidableEq, Repr

/-- The physical addresses of `n` bytes at a pointer. -/
def ptrPhys (s : State) (core : Option Nat) (ctx : Nat) (need : Need) (tag : Nat) (p : W64) (n : Nat) :
    State × Except PtrFail (List Nat) :=
  let r := regionOf s core ctx (ptrRid p)
  if !inRegion r.2 (ptrVa p) n then (r.1, .error .region)
  else
    match physical r.1 core ctx need true tag { core := core.getD 0 } (ptrRid p) (addrs (ptrVa p) n) with
    | (s, .error (va, m)) => (s, .error (.miss va m))
    | (s, .ok ps) => (s, .ok ps)

/-- Writes bytes at a pointer. -/
def ptrWrite (s : State) (core : Option Nat) (ctx tag : Nat) (p : W64) (bs : List Byte) : State × Except PtrFail Unit :=
  match ptrPhys s core ctx .write tag p bs.length with
  | (s, .error e) => (s, .error e)
  | (s, .ok ps) => (writeBytes s (ps.zip bs) false, .ok ())

/-- Reads bytes at a pointer: the bytes and whether they are poisoned. -/
def ptrRead (s : State) (core : Option Nat) (ctx tag : Nat) (p : W64) (n : Nat) :
    State × Except PtrFail (List Byte × Bool) :=
  match ptrPhys s core ctx .read tag p n with
  | (s, .error e) => (s, .error e)
  | (s, .ok ps) =>
    let r := readBytes s ps
    (r.1, .ok r.2)

/-! ### Traps (R419 to R431) -/

/-- What a fault record says of an error, beside where the fibre stands (R424, R425). `apc` is none
where APC equals the resume point. -/
structure Cause where
  kind : BitVec 8
  sub : BitVec 16
  addr : W64 := 0
  buf : BitVec 8 := 0xFF
  acc : BitVec 8 := 7
  syn0 : W32 := 0
  syn1 : W32 := 0
  syn2 : W32 := 0
  apc : Option W64 := none
  defer : Bool := false
  lost : Bool := false
  async : Bool := false
  matOp : Option Nat := none
  deriving DecidableEq, Repr

/-- Where a trap finds the fibre: the resume point with its place, and whether the instruction there is
long-latency. -/
structure Resume where
  pc : W64
  place : Option Place
  ll : Bool := false
  deriving DecidableEq, Repr

/-- The position of a fibre slot in the trap area (R423). -/
def trapPos (wk slot : Nat) : Nat := 2048 * coreNo wk + 32 * (wk % 64) + slot

/-- The pointer of the record slot of a position at a level (R423). -/
def trapPtr (s : State) (ctx pos level : Nat) : W64 := BitVec.ofNat 64 (ctxRd s ctx 0x48 8 + 256 * pos + 128 * level)

/-- A bit as a number. -/
def bit (b : Bool) (k : Nat) : Nat := if b then 2 ^ k else 0

/-- The 128 bytes of a fault record (R424). -/
def faultRecord (s : State) (wk : Nat) (w : Wave) (f : Fibre) (r : Resume) (c : Cause) : List Byte :=
  let core := coreNo wk
  toBytesLE 1 c.kind.toNat
    ++ toBytesLE 1 (bit c.defer 0 + bit (f.recs.length = 1) 1 + bit c.lost 2 + bit c.async 3)
    ++ toBytesLE 2 c.sub.toNat ++ toBytesLE 4 w.launch ++ toBytesLE 4 w.wg ++ toBytesLE 4 f.lfi.toNat
    ++ toBytesLE 8 r.pc.toNat ++ toBytesLE 8 (c.apc.getD r.pc).toNat ++ toBytesLE 8 c.addr.toNat
    ++ toBytesLE 1 c.buf.toNat ++ toBytesLE 1 c.acc.toNat ++ toBytesLE 2 core ++ toBytesLE 2 (ctxOf s wk) ++ toBytesLE 2 0
    ++ toBytesLE 8 (coreOf s core).clock.toNat
    ++ toBytesLE 4 c.syn0.toNat ++ toBytesLE 4 c.syn1.toNat ++ toBytesLE 4 c.syn2.toNat ++ toBytesLE 4 0
    ++ toBytesLE 4 (f.rv 0).toNat ++ toBytesLE 4 (f.rv 1).toNat ++ toBytesLE 4 (f.rv 2).toNat ++ toBytesLE 4 (f.rv 3).toNat
    ++ toBytesLE 2 f.pred.toNat ++ toBytesLE 1 (bit (f.vp 0) 0 + bit (f.vp 1) 1 + bit (f.vp 2) 2 + bit (f.vp 3) 3)
    ++ toBytesLE 1 (bit ((r.place.map (·.ll)).getD false) 0)
    ++ List.replicate 0x23 0 ++ [1]

/-- The event of a fault that could not be delivered (R436). -/
def undelivered (s : State) (wk : Nat) (f : Fibre) (r : Resume) (c : Cause) (cause : Byte) (slot : W64) : SupEvent :=
  { SupEvent.ofFibre s 0x01 wk f.lfi with
    cause := cause, pc := c.apc.getD r.pc, addr := c.addr, kind := c.kind, sub := c.sub, rslot := slot }

/-- The registers of a fibre as its handler finds them (R426). -/
def Fibre.enter (f : Fibre) (handler ptr : W64) (pos : Nat) (r : Resume) (c : Cause) : Fibre :=
  let level := f.recs.length
  let f := (f.setV2 0 ptr).setV 2 (BitVec.ofNat 32 (2 * pos + level))
  let f := f.setV 3 (c.kind.setWidth 16 ++ c.sub)
  { f with
    pred := 1, staged := [], blocked := none, pc := handler, base := none, cont := false,
    deferred := if c.defer then none else f.deferred, lostDef := if c.defer then false else f.lostDef,
    recs := f.recs ++ [{ kind := c.kind, sub := c.sub, rpc := r.pc, base := r.place, ll := r.ll, ptr := ptr, matOp := c.matOp, stamp := f.stamp }] }

/-- Whether an abort of the wave's gang took effect in an earlier clock of its core (R432). -/
def aborted (s : State) (wk : Nat) : Bool :=
  (sget (gangOf s wk) s.gangs).any (fun g =>
    g.abort && g.abortAt.any (fun p => p.1 = coreNo wk && p.2 != (coreOf s (coreNo wk)).clock))

/-- A fibre traps (R426, R429, R431). With an abort pending since an earlier clock it ends without a record (R432). -/
def trap (s : State) (wk slot : Nat) (r : Resume) (c : Cause) : State :=
  match sget wk s.waves, fibreAt s wk slot with
  | some w, some f =>
    let ctx := ctxOf s wk
    let handler : W64 := BitVec.ofNat 64 (ctxRd s ctx 0x40 8)
    let level := f.recs.length
    let pos := trapPos wk slot
    let ptr := trapPtr s ctx pos level
    if aborted s wk then endFibre s wk slot .abort
    else if level = 2 || (handler = 0 && level = 1) then killContext s ctx (undelivered s wk f r c 0 0)
    else
      match ptrWrite s (some (coreNo wk)) ctx f.ct.toNat ptr (faultRecord s wk w f r c) with
      | (s, .error _) => killContext s ctx (undelivered s wk f r c 1 ptr)
      | (s, .ok ()) =>
        if handler = 0 then
          endFibre (supPost s { SupEvent.ofFibre s 0x02 wk f.lfi with pc := c.apc.getD r.pc, addr := c.addr }) wk slot .kill
        else leaveClause (modFibre s wk slot (fun f => f.enter handler ptr pos r c)) wk slot
  | _, _ => s

/-- Makes an error pending on a fibre; a second is discarded and noted (R421). -/
def makePending (s : State) (wk slot : Nat) (d : Deferred) : State :=
  modFibre s wk slot (fun f => if f.deferred.isSome then { f with lostDef := true } else { f with deferred := some d })

/-- The trap that reports a pending error (R421). -/
def Deferred.cause (d : Deferred) (lost : Bool) : Cause :=
  { kind := d.kind, sub := d.sub, addr := d.addr, buf := d.buf, acc := d.acc, syn0 := d.syn0, syn1 := d.syn1,
    syn2 := d.syn2, apc := some d.apc, defer := true, lost := lost }

/-! ### Return from the handler (R200, R201, R428) -/

/-- The action of `tret`. -/
inductive TretAct where
  | retry | skip | killf | killg
  deriving DecidableEq, Repr

/-- The event of a record that could not be moved. -/
def lostRecord (s : State) (wk slot : Nat) (f : Fibre) (level : Nat) (a : ActiveRec) : SupEvent :=
  { SupEvent.ofFibre s 0x01 wk f.lfi with
    cause := 1, pc := a.rpc, kind := a.kind, sub := a.sub, rslot := trapPtr s (ctxOf s wk) (trapPos wk slot) level }

/-- The bytes of a record as it stands at a level of a fibre's position (R427): that of level 1 names the record of level 0 in
SV0 to SV2. -/
def linkRecord (s : State) (ctx pos level : Nat) (bs : List Byte) : List Byte :=
  if level = 0 then bs
  else bs.take 0x48 ++ toBytesLE 8 (trapPtr s ctx pos (level - 1)).toNat ++ toBytesLE 4 (2 * pos + level - 1) ++ bs.drop 0x54

/-- The active records of a fibre, each with its level, that stand elsewhere than in the slots of its position. -/
def strayRecords (s : State) (wk slot : Nat) (f : Fibre) : List (ActiveRec × Nat) :=
  f.recs.zipIdx.filter (fun r => r.1.ptr != trapPtr s (ctxOf s wk) (trapPos wk slot) r.2)

/-- A record to be copied (R427): the fibre, the record with its level, and its bytes. -/
structure RecordCopy where
  wk : Nat
  slot : Nat
  record : ActiveRec
  level : Nat
  bytes : List Byte
  deriving DecidableEq, Repr

/-- Reads the records of some fibres that must be copied. A record that cannot be read kills the context (R429). -/
def readStrays (s : State) (fs : List (Nat × Nat)) : State × List RecordCopy :=
  fs.foldl (fun acc x =>
    match fibreAt acc.1 x.1 x.2 with
    | none => acc
    | some f =>
      let ctx := ctxOf acc.1 x.1
      (strayRecords acc.1 x.1 x.2 f).foldl (fun acc r =>
        match ptrRead acc.1 (some (coreNo x.1)) ctx f.ct.toNat r.1.ptr 128 with
        | (s, .error _) => (killContext s ctx (lostRecord s x.1 x.2 f r.2 r.1), acc.2)
        | (s, .ok (bs, _)) =>
          (s, acc.2 ++ [{ wk := x.1, slot := x.2, record := r.1, level := r.2, bytes := linkRecord s ctx (trapPos x.1 x.2) r.2 bs }])) acc) (s, [])

/-- Writes a record at its new place. -/
def writeStray (s : State) (c : RecordCopy) : State :=
  match fibreAt s c.wk c.slot with
  | none => s
  | some f =>
    let ctx := ctxOf s c.wk
    let ptr := trapPtr s ctx (trapPos c.wk c.slot) c.level
    match ptrWrite s (some (coreNo c.wk)) ctx f.ct.toNat ptr c.bytes with
    | (s, .error _) => killContext s ctx (lostRecord s c.wk c.slot f c.level c.record)
    | (s, .ok ()) =>
      modFibre s c.wk c.slot (fun f => { f with recs := f.recs.zipIdx.map (fun r => if r.2 = c.level then { r.1 with ptr := ptr } else r.1) })

/-- The links of an in-handler fibre to its record, v0 to v2, name the slot of its position (R426, R427). -/
def relink (s : State) (wk slot : Nat) : State :=
  modFibre s wk slot (fun f =>
    let top := f.recs.length - 1
    if f.recs.isEmpty then f
    else (f.setV2 0 (trapPtr s (ctxOf s wk) (trapPos wk slot) top)).setV 2 (BitVec.ofNat 32 (2 * trapPos wk slot + top)))

/-- The records and links of some in-handler fibres move to the slots of their positions (R427). Every record is read before one
is written, since a new place of one fibre may be the old place of another. -/
def relocate (s : State) (fs : List (Nat × Nat)) : State :=
  let moved := fs.filter (fun x => (fibreAt s x.1 x.2).any (fun f => !(strayRecords s x.1 x.2 f).isEmpty))
  let r := readStrays s moved
  moved.foldl (fun s x => relink s x.1 x.2) (r.2.foldl writeStray r.1)

/-- The registers that SV, SP and SPOIS of a record give (R428). -/
def Fibre.restore (f : Fibre) (bs : List Byte) : Fibre :=
  let word (i : Nat) : W32 := BitVec.ofNat 32 (fromBytesLE ((bs.drop (0x48 + 4 * i)).take 4))
  let pois := bs.getD 0x5A 0
  let f := (List.range 4).foldl (fun f i => f.setVp i (word i) (pois.getLsbD i)) f
  { f.setPreds (BitVec.ofNat 16 (fromBytesLE ((bs.drop 0x58).take 2))) with staged := [] }

/-- Where the fibre goes on: at the resume point, or past the instruction there. -/
def Fibre.back (f : Fibre) (a : ActiveRec) (skip : Bool) : Fibre :=
  match skip, a.base with
  | true, some p => f.advance p a.rpc a.ll
  | _, _ => { f with pc := a.rpc, base := a.base }

/-- Executes `tret` for one fibre that has left its clause. -/
def tret (s : State) (wk slot : Nat) (r : Resume) (act : TretAct) : State :=
  match fibreAt s wk slot with
  | none => s
  | some f =>
    match f.recs.getLast? with
    | none => trap s wk slot r { kind := 4, sub := 6 }
    | some a =>
      if act == .skip && a.base.isNone then trap s wk slot r { kind := 4, sub := 7 }
      else
        match ptrRead s (some (coreNo wk)) (ctxOf s wk) f.ct.toNat a.ptr 128 with
        | (s, .error _) => killContext s (ctxOf s wk) (lostRecord s wk slot f (f.recs.length - 1) a)
        | (s, .ok (bs, _)) =>
          match ptrWrite s (some (coreNo wk)) (ctxOf s wk) f.ct.toNat (a.ptr + 0x7F) [0] with
          | (s, .error _) => killContext s (ctxOf s wk) (lostRecord s wk slot f (f.recs.length - 1) a)
          | (s, .ok ()) =>
            let s := modFibre s wk slot (fun f => { (f.restore bs).back a (act == .skip) with recs := f.recs.dropLast, stamp := a.stamp })
            let s := match a.matOp with
              | none => s
              | some m => settleMats { s with mats := smod m (fun o => { o with trapped := o.trapped.filter (· != slot) }) s.mats } wk
            match act with
            | .retry => s
            | .skip => s
            | .killf => endFibre s wk slot .kill
            | .killg =>
              let gk := gangOf s wk
              abortGang (endFibre s wk slot .kill) gk

end Sys2Proof.Machine
end

