-- ==== Sys2Proof/Machine/Operands.lean ====
section
/-! DEFINITION. Operands: guards, source operands of every form (R40, R84 to R88, R114, R142), the
constant window (R87), the registers and predicates that an instruction names, and the registers whose
result an operation in flight has still to write (R78). -/

namespace Sys2Proof.Machine

/-! ### Bundles -/

/-- A bundle at an instruction (R75): its wave, the instruction's index in the clause, address and place,
its word, every slot of the bundle, and the slots for which the instruction is performed, ascending. `flag` is the
completion flag that counts its operation, `con` its constant-window words, `waived` the slots whose debug
checks are waived (R459), and `pre` the wave before the instruction, where traps of the bundle have changed it since. -/
structure Bundle where
  wk : Nat
  idx : Nat
  pc : W64
  word : W64
  place : Place
  ll : Bool
  all : List Nat
  act : List Nat
  flag : Option Nat
  con : List W32
  waived : List Nat := []
  pre : Option Wave := none
  deriving DecidableEq, Repr

/-- Where a fibre of the bundle stands if it traps at the instruction. -/
def Bundle.here (b : Bundle) : Resume := { pc := b.pc, place := some b.place, ll := b.ll }

/-- The address that follows the clause (R183). -/
def Bundle.fallThrough (b : Bundle) : W64 := b.place.hdr + 8 * (BitVec.ofNat 64 b.place.last + 2)

/-- The wave of a bundle. -/
def Bundle.wave (b : Bundle) (s : State) : Option Wave := sget b.wk s.waves

/-- The wave of a bundle as it was before the instruction (R116, R148). -/
def Bundle.before (b : Bundle) (s : State) : Option Wave := b.pre.or (b.wave s)

/-- A uniform register of the bundle's wave. -/
def Bundle.g (b : Bundle) (s : State) (r : Nat) : W64 := ((b.wave s).map (fun w => w.rg r)).getD 0

/-- The record g4k to g4k+3 of the bundle's wave. -/
def Bundle.rec4 (b : Bundle) (s : State) (k : Nat) : List W64 := ((b.wave s).map (fun w => w.record k)).getD []

/-- Whether a fibre passes the guard (R40, R79). -/
def guardPasses (g : Guard) (f : Fibre) : Bool := f.rp g.gp != (g.gs == 1)

/-! ### Source operands -/

/-- A source of the vector family: a vector register or pair, or a uniform register when USRC says so;
32-bit operands are zero-extended (R84). -/
def srcX (w : Wave) (f : Fibre) (uni wide : Bool) (r : BitVec 8) : W64 :=
  if uni then (if wide then w.rg r.toNat else (w.rg r.toNat).extractLsb' 0 32 |>.setWidth 64)
  else if wide then f.rv2 r.toNat else (f.rv r.toNat).setWidth 64

/-- A source of a uniform instruction; of a 32-bit type, its low word (R115). -/
def srcG (w : Wave) (wide : Bool) (r : BitVec 8) : W64 :=
  if wide then w.rg r.toNat else (w.rg r.toNat).extractLsb' 0 32 |>.setWidth 64

/-- A 64-bit uniform result of a 32-bit operation (R115): extended by sign for `.i32`, else by zeros; R115 does not name `.f32`, the
type of `gmov` with ITYPE 3, which is taken as `.b32` (DEDUCED, log 31). -/
def extG (ty : BitVec 5) (x : W64) : W64 :=
  if isWide ty then x else if isSigned ty then (x.extractLsb' 0 32).signExtend 64 else (x.extractLsb' 0 32).setWidth 64

/-- The immediate of an RI form (R88). -/
def immValue (ity : BitVec 3) (imm : W32) : W64 := if ity == 4 then imm.signExtend 64 else imm.setWidth 64

/-- The constant operand of 32 or 64 bits from the words read (R87). -/
def conValue (con : List W32) : W64 := con.getD 1 0 ++ con.getD 0 0

/-- A special register (R41), zero-extended. -/
def specialReg (wk slot : Nat) (w : Wave) (f : Fibre) (l : Launch) (n : Nat) : W64 :=
  let dim (xs : List Nat) (i : Nat) : Nat := xs.getD i 0
  let nx := dim l.ngrp 0
  let ny := dim l.ngrp 1
  let k := w.wg / l.gang
  let v : Nat :=
    match n with
    | 0x00 => f.lfi.toNat
    | 0x01 => slot
    | 0x02 => w.widx
    | 0x03 => w.wg % nx
    | 0x04 => w.wg / nx % ny
    | 0x05 => w.wg / nx / ny
    | 0x06 => dim l.ngrp 0
    | 0x07 => dim l.ngrp 1
    | 0x08 => dim l.ngrp 2
    | 0x09 => dim l.wgsz 0
    | 0x0A => dim l.wgsz 1
    | 0x0B => dim l.wgsz 2
    | 0x0C => w.launch
    | 0x0D => l.ctx
    | 0x0E => coreNo wk
    | 0x0F => (membersOf l k - 1) * 16 + w.wg % l.gang
    | 0x10 => l.depth
    | 0x11 => bit l.dclamp 0 + bit l.depw 1 + bit l.child 2
    | 0x12 => l.seed.toNat
    | 0x13 => f.draw.toNat
    | 0x14 => w.wg * 2 ^ 32 + f.lfi.toNat
    | 0x15 => (w.fibres.map (fun e => 2 ^ e.1)).sum
    | 0x16 => l.acnt * 2 ^ 21 + l.qcnt * 2 ^ 17 + l.gcnt * 2 ^ 9 + l.vcnt
    | _ => 0
  BitVec.ofNat 64 v

/-! ### Registers that an instruction names -/

/-- The predicates that an instruction reads or writes, its guard apart. -/
def predsOf : Instr → List (BitVec 4)
  | .addc _ x | .subb _ x => x.opx.extractLsb' 0 4 :: (if x.opx.getLsbD 4 then [x.c.extractLsb' 0 4] else [])
  | .icmp _ x | .fcmp _ x => x.d.extractLsb' 0 4 :: (if x.opx &&& 3 == 0 then [] else [x.c.extractLsb' 0 4])
  | .icmpRk _ x | .fcmpRk _ x => [x.d.extractLsb' 0 4]
  | .icmpRi _ x => [x.d.extractLsb' 0 4]
  | .sel _ x | .shfl _ x | .lfind _ x => [x.c.extractLsb' 0 4]
  | .pset _ x => [x.d.extractLsb' 0 4]
  | .psetSave _ _ | .psetLoad _ _ => (List.range 16).map (BitVec.ofNat 4)
  | .plop _ x => [x.d.extractLsb' 0 4, x.a.extractLsb' 0 4, x.b.extractLsb' 0 4, x.c.extractLsb' 0 4]
  | .vote _ x => x.a.extractLsb' 0 4 :: (if x.opx &&& 3 == 2 then [] else [x.d.extractLsb' 0 4])
  | .fork _ x => [x.vb.extractLsb' 4 4]
  | .waitPh _ x | .waitM _ x => [x.pd]
  | .rsvupd _ x | .rsvmrg _ x | .rsvfin _ x | .rsvdraw _ x | .tagnewTry _ x | .tagret _ x => [x.pd]
  | .trace _ x | .traceRej _ x | .traceAcc _ x | .rast _ x | .tex _ x | .texl _ x | .texg _ x | .texres _ x => [x.pd]
  | .rqpush _ x | .rqpop _ x => [x.pd]
  | _ => []

/-- The record registers of `rqpush` and `rqpop`, whose number the queue descriptor gives (R261, R280). -/
def queueUse (w : Wave) : Instr → List Use
  | .rqpush _ x => [vrun x.va (bits (w.rg (4 * x.desc.toNat)).toNat 8 6 + 1)]
  | .rqpop _ x => [vout x.vd (bits (w.rg (4 * x.desc.toNat)).toNat 8 6 + 1)]
  | _ => []

/-- A run of numbers. -/
def run (base n : Nat) : List Nat := (List.range n).map (base + ·)

/-- The destination registers of a graphics instruction (R261). -/
def gfxDest : Instr → List Nat
  | .trace _ x | .traceRej _ x | .traceAcc _ x => run x.vd.toNat 4
  | .traq _ x => run x.vd.toNat (if x.gxopx == 5 then 2 else 1)
  | .rast _ x => run x.vd.toNat 2
  | .tex _ x | .texl _ x | .texg _ x => run x.vd.toNat 5
  | .texres _ x => run x.vd.toNat 1
  | _ => []

/-- The predicate that a graphics instruction writes. -/
def gfxPred : Instr → List (BitVec 4)
  | .trace _ x | .traceRej _ x | .traceAcc _ x | .rast _ x | .tex _ x | .texl _ x | .texg _ x | .texres _ x => [x.pd]
  | _ => []

/-! ### Results not yet written (R78) -/

/-- Whether an access of a multicast load has still to be read: a line of it has not come (R166). -/
def Access.unread (a : Access) (got : Sparse (List Byte × Bool × Bool)) : Bool :=
  a.pa.isEmpty || a.pa.any (fun p => (sget (p - p % 128) got).isNone)

/-- Whether an operation in flight has an access of a fibre still to be performed: a multicast load to be read, the stores
of a `rast`, or an `rqpop` (R286, R288). -/
def OpKind.unperformed (slot : Nat) : OpKind → Bool
  | .ldmc accs held _ _ _ got => (accs ++ held).any (fun a => a.slot = slot && a.unread got)
  | .gfx _ _ done _ => done.any (fun r => r.slot = slot && !r.cells.isEmpty)
  | .rqpop _ _ _ _ slots => slots.contains slot
  | _ => false

/-- The vector registers that an access writes, by slot. -/
def Access.dest (a : Access) : List (Nat × Nat) :=
  if a.isQ then [] else (run a.reg (a.n * if a.w = 8 then 2 else 1)).map (a.slot, ·)

/-- Vector registers still to be written, by slot. -/
def OpKind.pendV : OpKind → List (Nat × Nat)
  | .load give _ held => give.map (fun d => (d.slot, d.reg)) ++ (held.map (·.dest)).flatten
  | .ldmc accs held _ _ _ _ => ((accs ++ held).map (·.dest)).flatten
  | .launch _ parts => parts.map (fun p => (p.slot, p.vr))
  | .capinv reqs => (reqs.map (fun r => (run r.vr 4).map (r.slot, ·))).flatten
  | .gfx i _ done held => ((done.map (·.slot) ++ held.map (·.1)).map (fun s => (gfxDest i).map (s, ·))).flatten
  | .rqpop _ vd n _ slots => (slots.map (fun s => (run vd n).map (s, ·))).flatten
  | _ => []

/-- Reservoir registers still to be written, by slot. -/
def OpKind.pendQ : OpKind → List (Nat × Nat)
  | .load _ give held => give.map (fun d => (d.slot, d.reg)) ++ (held.filter (·.isQ)).map (fun a => (a.slot, a.reg))
  | _ => []

/-- Uniform registers still to be written. -/
def OpKind.pendG : OpKind → List Nat
  | .gld d _ => run d 4
  | _ => []

/-- Predicates still to be written, by slot. -/
def OpKind.pendP : OpKind → List (Nat × BitVec 4)
  | .gfx i _ done held => ((done.map (·.slot) ++ held.map (·.1)).map (fun s => (gfxPred i).map (s, ·))).flatten
  | .rqpush _ pd parts => parts.map (fun p => (p.1, pd))
  | .rqpop _ _ _ pd slots => slots.map (·, pd)
  | _ => []

/-- The operations of a wave. -/
def opsOf (s : State) (wk : Nat) : List OpKind := (s.ops.filter (fun e => e.2.wave = wk)).map (·.2.kind)

/-- Whether a use of some slots meets a register that is still to be written. -/
def useBusy (ops : List OpKind) (slots : List Nat) (u : Use) : Bool :=
  match u.cls with
  | .v => ops.any (fun k => k.pendV.any (fun p => slots.contains p.1 && u.base ≤ p.2 && p.2 < u.base + u.n))
  | .q => ops.any (fun k => k.pendQ.any (fun p => slots.contains p.1 && u.base ≤ p.2 && p.2 < u.base + u.n))
  | .g => ops.any (fun k => k.pendG.any (fun r => u.base ≤ r && r < u.base + u.n))
  | .a => false

/-- Whether a fibre has a result of any kind still to be written (R188). -/
def fibreBusy (ops : List OpKind) (slot : Nat) : Bool :=
  ops.any (fun k => k.pendV.any (·.1 = slot) || k.pendQ.any (·.1 = slot) || k.pendP.any (·.1 = slot))

/-! ### Constant windows (R87) -/

/-- What a read of constant-window words comes to. -/
inductive ConRead where
  | words (ws : List W32)
  | fail (sub : BitVec 16) (addr : W64)
  | wait (va : Nat) (m : Miss)
  | poison (addr : W64)
  deriving DecidableEq, Repr

/-- Whether the words lie in a bound window (R87, subkind *constant window*). -/
def conBound (l : Launch) (c : Nat × Nat × Nat) : Bool :=
  match sget c.1 l.windows with
  | none => false
  | some (_, len) => 4 * (c.2.1 + c.2.2) ≤ len && (c.2.2 = 1 || c.2.1 % 2 = 0)

/-- The bytes of a line of the constant cache, filled from memory where the cache does not hold it. A line is poisoned by
the unit of 64 bytes (R465): where the byte's own unit is good and the other is not, the line is read and not kept. -/
def conLine (s : State) (core ctx rid va : Nat) : State × Except ConRead (List Byte) :=
  let line := va - va % 128
  match (coreOf s core).ccache.find? (fun e => e.ctx = ctx && e.line = line) with
  | some e => (s, .ok e.data)
  | none =>
    match translate s (some core) ctx va .read with
    | (s, .error m) => (reportMiss s ctx core 0 0 rid va m, .error (.wait va m))
    | (s, .ok (pte, pa)) =>
      if pte.testBit 63 then (s, .error (.fail 0x0B (BitVec.ofNat 64 (rid * 2 ^ 57 + va))))
      else
        let r := readBytes s (addrs (pa - pa % 128) 128)
        if poisonedAt r.1 [pa] then (r.1, .error (.poison (BitVec.ofNat 64 (rid * 2 ^ 57 + va))))
        else if r.2.2 then (r.1, .ok r.2.1)
        else (modCore r.1 core (fun c => { c with ccache := { ctx := ctx, line := line, data := r.2.1 } :: c.ccache }), .ok r.2.1)

/-- Reads words of a constant window, one by one. -/
def conWords (s : State) (core ctx : Nat) (base : W64) : List Nat → State × ConRead
  | [] => (s, .words [])
  | off :: rest =>
    let va := ptrVa base + 4 * off
    let r := regionOf s (some core) ctx (ptrRid base)
    if !inRegion r.2 va 4 then (r.1, .fail 0x05 (base + BitVec.ofNat 64 (4 * off)))
    else
      match conLine r.1 core ctx (ptrRid base) va with
      | (s, .error e) => (s, e)
      | (s, .ok data) =>
        match conWords s core ctx base rest with
        | (s, .words ws) => (s, .words (BitVec.ofNat 32 (fromBytesLE ((data.drop (va % 128)).take 4)) :: ws))
        | (s, e) => (s, e)

/-- Reads the constant-window operand of an instruction. -/
def conRead (s : State) (wk : Nat) (c : Nat × Nat × Nat) : State × ConRead :=
  match launchOf s wk with
  | none => (s, .words [])
  | some l =>
    match sget c.1 l.windows with
    | none => (s, .words [])
    | some (base, _) => conWords s (coreNo wk) l.ctx base (run c.2.1 c.2.2)

end Sys2Proof.Machine
end

