-- ==== Sys2Proof/Machine/Issue.lean ====
section
/-! DEFINITION. The common course of issuing an instruction for a bundle: the checks of R100, what holds
the instruction at issue (R38, R44, R78, R356), the precedence of traps (R420), debug stops (R457), releases
(R172, R421), the resources an issue takes (R46, R118, R244, R341), and operations counted on flags. -/

namespace Sys2Proof.Machine

/-! ### The checks of R100 -/

/-- Whether a run of registers lies beyond its owner's count (R35). -/
def beyond (l : Launch) (u : Use) : Bool :=
  0 < u.n && (match u.cls with
    | .v => l.vcnt < u.base + u.n
    | .g => l.gcnt < u.base + u.n
    | .q => l.qcnt < u.base + u.n
    | .a => l.acnt < u.base + u.n)

/-- Whether a special register may be named so (R41). -/
def badSpecial : Option (Nat × Bool) → Bool
  | none => false
  | some (n, write) => if write then n != 0x13 else 0x16 < n

/-- Whether an instruction is `nop`, which any class accepts (R73). -/
def isNop : Instr → Bool | .nop _ _ => true | _ => false

/-- The first check of R100 that fails, as its subkind; `more` are registers that a descriptor names. -/
def formError (l : Launch) (i : Instr) (cls : Nat) (last : Bool) (more : List Use) : Option (BitVec 16) :=
  match form i with
  | none => some 1
  | some f =>
    let uses := f.uses ++ more
    if f.cls != cls && !isNop i then some 2
    else if f.transfer && !last then some 3
    else if f.badField then some 4
    else if f.badValue || more.any (fun u => 256 < u.base + u.n) then some 5
    else if uses.any (beyond l) then some 6
    else if uses.any (fun u => u.even && u.base % 2 = 1 && 0 < u.n) then some 7
    else if badSpecial f.sr then some 8
    else if (f.const.map (conBound l)).getD true then none else some 9

/-! ### What holds an instruction at issue -/

/-- The slot that `shfl` reads for a slot (R149). -/
def shflSlot (mode : Nat) (i b : Nat) : Option Nat :=
  let s : Int := match mode with
    | 0 => b
    | 1 => (i : Int) - b
    | 2 => i + b
    | _ => Nat.xor i b
  if 0 ≤ s && s < 32 then some s.toNat else none

/-- Registers of other slots that an instruction reads (R148, R273): slot and register. -/
def crossReads (w : Wave) (act : List Nat) : Instr → List (Nat × Nat)
  | .shfl _ x =>
    (act.map (fun slot =>
      match sget slot w.fibres with
      | none => []
      | some f =>
        match shflSlot (x.opx &&& 3).toNat slot (srcX w f (x.usrc.getLsbD 1) false x.b).toNat with
        | none => []
        | some s => (run x.a.toNat (if isWide x.ty then 2 else 1)).map (s, ·))).flatten
  | .tex _ x => (act.map (fun slot => (run (slot - slot % 4) 3).map (fun s => [(s, x.va.toNat), (s, x.va.toNat + 1)]))).flatten.flatten
  | _ => []

/-- The uniform registers whose number is computed at run time: the register that `movg` reads for each slot (R140). -/
def indexedUse (w : Wave) (act : List Nat) : Instr → List Use
  | .movg _ x => act.filterMap (fun k => (sget k w.fibres).map (fun f =>
      { cls := .g, base := x.a.toNat + (f.rv x.b.toNat).toNat, n := 1 }))
  | _ => []

/-- Whether an instruction writes v0 to v3 and the predicates from a fault record (R428). -/
def restoresRecord : Instr → Bool
  | .tretRetry _ _ | .tretSkip _ _ => true
  | _ => false

/-- Whether an instruction uses what a traversal leaves beside its registers (R266, R268, R269). -/
def usesTrav : Instr → Bool
  | .trace _ _ | .traceRej _ _ | .traceAcc _ _ | .hret _ _ | .traq _ _ | .rast _ _ => true
  | _ => false

/-- The accumulator that `mstat` reads (R227). -/
def mstatAcc : Instr → List Nat
  | .mstat _ x => [x.acc.toNat]
  | _ => []

/-- Whether an instruction enters the wave's matrix queue (R356). -/
def isMatrix : Instr → Bool
  | .mlatch _ _ | .mma _ _ | .mmas _ _ | .mmat _ _ | .mdrain _ _ | .mzero _ _ => true
  | _ => false

/-- Whether an instruction is `upcall`: it waits while the wave is still parked by an earlier one of its clause. -/
def isUpcall : Instr → Bool | .upcall _ _ => true | _ => false

/-- Operations in the matrix queue of a wave (R356). -/
def queued (s : State) (wk : Nat) : Nat := (s.mats.filter (fun e => e.2.wave = wk && e.2.place == .queue)).length

/-- The accumulators an operation of the matrix engine works on. -/
def MatOp.accs (o : MatOp) : List Nat := if o.kind == .latch then [] else if o.pair then [o.acc, o.acc + 1] else [o.acc]

/-- Whether the interlock holds an instruction for the slots of a bundle (R78, R148, R227). -/
def interlocked (s : State) (wk : Nat) (w : Wave) (all act : List Nat) (i : Instr) (gp : BitVec 4) (uses : List Use) : Bool :=
  let ops := opsOf s wk
  uses.any (useBusy ops all)
    || ops.any (fun k => k.pendP.any (fun p => all.contains p.1 && p.2 != 0 && (gp :: predsOf i).contains p.2))
    || (let reads := crossReads w act i
        ops.any (fun k => k.pendV.any (fun p => reads.contains p)))
    || (restoresRecord i && ops.any (fun k => k.pendV.any (fun p => act.contains p.1 && p.2 < 4) || k.pendP.any (fun p => act.contains p.1)))
    || (usesTrav i && ops.any (fun k => match k with
        | .gfx _ _ done held => done.any (fun r => all.contains r.slot) || held.any (fun x => all.contains x.1)
        | _ => false))
    || s.mats.any (fun e => e.2.wave = wk && (e.2.susp.isNone || !e.2.isPass) && e.2.accs.any (fun a => (mstatAcc i).contains a))

/-- The flag that counts the next long-latency instruction of a clause (R77); none for 12 to 15. -/
def nextFlag (header : W64) (ll : Bool) : Option Nat :=
  let k := if ll then bits header.toNat 36 4 else bits header.toNat 32 4
  if k < 12 then some k else none

/-- Why an instruction that passed its checks cannot issue yet, as the reason of R450. -/
def holdReason (s : State) (wk : Nat) (w : Wave) (c : Clause) (i : Instr) (gp : BitVec 4) (act : List Nat) : Option Nat :=
  match form i with
  | none => none
  | some f =>
    if w.page.any (fun p => !p.2) then some 7
    else if interlocked s wk w c.slots act i gp (f.uses ++ queueUse w i ++ indexedUse w act i) then some 3
    else if f.ll && !act.isEmpty && (nextFlag c.header c.ll).any (fun k => w.flag k = 63) then some 4
    else if isMatrix i && !act.isEmpty && 4 ≤ queued s wk then some 5
    else if isUpcall i && !act.isEmpty && w.park.isSome then some 14
    else none

/-! ### Resources (R46, R118, R244, R341) -/

/-- ⌈n ÷ d⌉. -/
def ceilDiv (n d : Nat) : Nat := (n + d - 1) / d

/-- Clocks for which an instruction of class 0 or 7 holds a vector pipe, without staging (R118, R244). -/
def pipeClocks (i : Instr) (f : Form) (n : Nat) : Nat :=
  let e := ceilDiv n 8
  match i with
  | .idiv _ _ | .irem _ _ | .fdiv _ _ | .fsqrt _ _ | .frcp _ _ | .frsq _ _ | .fex2 _ _ | .flg2 _ _ | .fsin _ _ | .fcos _ _ => 4 * e
  | .dadd _ _ | .dmul _ _ | .dfma _ _ => ceilDiv n 2
  | .ddiv _ _ => 8 * ceilDiv n 2
  | .vote _ _ | .lred _ _ | .lscan _ _ | .lfind _ _ | .rsvupd _ _ | .rsvmrg _ _ => e + 2
  | .rsvfin _ _ => 4 * e
  | .gadd _ _ | .gsub _ _ | .gmul _ _ | .gmin _ _ | .gand _ _ | .gor _ _ | .gxor _ _ | .gshl _ _ | .gshr _ _ | .gcmp _ _
  | .gsel _ _ | .gmov _ _ | .glea _ _ | .gaddRi _ _ | .gandRi _ _ | .gorRi _ _ | .gxorRi _ _ | .gshlRi _ _ | .gshrRi _ _
  | .gcmpRi _ _ | .gmovRi _ _ | .gaddRk _ _ | .gcmpRk _ _ | .gmovRk _ _ | .gld _ _ => 1
  | _ => if f.dbl then 2 * e else e

/-- The clocks that source registers outside a staged set add (R46). -/
def stagePenalty (w : Wave) (act : List Nat) (f : Form) : Nat :=
  let regs := dedup [] ((f.uses.filter (fun u => u.cls == .v && u.src)).map (fun u => run u.base u.n)).flatten
  (regs.filter (fun r => act.any (fun s => ((sget s w.fibres).map (fun x => !x.staged.contains r)).getD false))).length

/-- The first vector pipe that nothing holds. -/
def freePipe (now : Nat) : List Nat → Nat
  | [] => 0
  | t :: ts => if t ≤ now then 0 else freePipe now ts + 1

/-- Holds a pipe till a clock. -/
def holdPipe (n till : Nat) (l : List Nat) : List Nat := if n < l.length then l.set n till else l ++ [till]

/-- Whether an instruction takes the port of the MU: class 1, and loads and stores of reservoir registers (R244, R341). -/
def usesMu (i : Instr) (f : Form) : Bool :=
  match i with
  | .rsvld _ _ | .rsvldS _ _ | .rsvldX _ _ | .rsvst _ _ | .rsvstS _ _ => true
  | _ => f.cls = 1

/-- The wave that a wave is paired with, if it has issued in the current clock: the wave is then the second of its pair. -/
def firstOfPair (s : State) (w : Wave) : Option Wave := (w.paired.bind (fun p => sget p s.waves)).filter (·.issued.isSome)

/-- An instruction issues on the wave's core (R341). A pair is one issue (R347). -/
def countIssue (s : State) (wk : Nat) (w : Wave) : State :=
  if (firstOfPair s w).isSome then s
  else modCore s (coreNo wk) (fun k => { k with issues := k.issues + 1, rot := (wk % 64 + 1) % 64 })

/-- A cluster, in its reset state where the map holds none. -/
def clusterOf (s : State) (c : Nat) : Cluster := sgetD Cluster.reset s.clusters c

/-- The clock of a cluster: that of its first core (DESIGN CHOICE, log 40). -/
def clusterClock (s : State) (c : Nat) : Nat := (coreOf s (4 * c)).clock.toNat

/-- Changes a cluster. -/
def modCluster (s : State) (c : Nat) (f : Cluster → Cluster) : State := { s with clusters := sput c (f (clusterOf s c)) s.clusters }

/-- A core takes the cluster port of the MXE (class 2), or of the CPE and CLE (class 3), for its clock (R341). -/
def holdPort (s : State) (core cls : Nat) : State :=
  modCluster s (core / 4) (fun k => if cls = 2 then { k with mxPort := some core } else { k with cpPort := some core })

/-- The cluster ports that a core holds are free again when its clock ends. -/
def freePorts (s : State) (core : Nat) : State :=
  let free (p : Option Nat) : Option Nat := p.filter (· != core)
  { s with clusters := s.clusters.map (fun e => (e.1, { e.2 with mxPort := free e.2.mxPort, cpPort := free e.2.cpPort })) }

/-- The fibres of the other wave of a pair. -/
def partnerSize (s : State) (wk : Nat) (w : Wave) : Nat :=
  match w.paired.bind (fun p => sget p s.waves) with
  | some v => if v.paired = some wk then (v.clause.map (·.slots.length)).getD 0 else 0
  | none => 0

/-- The state after an issue on the wave's core has taken its resources. The first wave of a pair takes a pipe for the fibres of
both; the second adds the clocks of its own registers outside staged sets (R46, R347). -/
def resources (s : State) (wk : Nat) (w : Wave) (i : Instr) (f : Form) (all act : List Nat) : State :=
  let core := coreNo wk
  let now := (coreOf s core).clock.toNat
  let n := all.length + partnerSize s wk w
  let first := (firstOfPair s w).isSome
  let s := countIssue s wk w
  let mine := now + ceilDiv all.length 8
  if usesMu i f then (if first then s else modCore s core (fun k => { k with muPort := now + ceilDiv n 8 }))
  else if f.cls = 0 || f.cls = 7 then
    modCore s core (fun k =>
      if first then
        match w.paired.bind (fun v => sget (v % 64) k.taken) with
        | some p => { k with pipes := holdPipe p (k.pipes.getD p now + stagePenalty w act f) k.pipes }
        | none => k
      else
        let p := freePipe now k.pipes
        { k with pipes := holdPipe p (now + pipeClocks i f n + stagePenalty w act f) k.pipes, taken := sput (wk % 64) p k.taken })
  else if f.cls = 2 || f.cls = 3 then holdPort s core f.cls
  else if f.cls = 4 then modCore s core (fun k => { k with isuPort := mine })
  else if f.cls = 5 then modCore s core (fun k => { k with txuPort := mine })
  else s

/-- Takes the resources of an issue on the wave's core, and of its cluster. -/
def occupy (s : State) (wk : Nat) (w : Wave) (i : Instr) (f : Form) (all act : List Nat) : State :=
  { s with cores := (resources s wk w i f all act).cores, clusters := (resources s wk w i f all act).clusters }

/-! ### Debug stops (R456, R457) -/

/-- The debug slot that serves a context (R456). -/
def debugSlot (s : State) (ctx : Nat) : Option Nat :=
  (List.range 4).find? (fun d => ctlBits s (dbReg d 0) 63 1 = 1 && ctlBits s (dbReg d 0) 32 16 = ctx)

/-- The enabled breakpoint at an address (R457). -/
def breakAt (s : State) (d : Nat) (pc : W64) : Option Nat :=
  (List.range 4).find? (fun k => ctlBits s (dbReg d (0x20 + 8 * k)) 63 1 = 1 && ctlBits s (dbReg d (0x20 + 8 * k)) 0 57 = pc.toNat)

/-- The enabled watch range that an access of bytes of a region meets (R457). -/
def watchAt (s : State) (d : Nat) (rid : Nat) (vas : List Nat) (reads writes : Bool) : Option (Nat × Nat) :=
  (List.range 2).findSome? (fun k =>
    let a := dbReg d (0x40 + 16 * k)
    let c := dbReg d (0x48 + 16 * k)
    let kind := ctlBits s c 61 2
    let lo := ctlBits s a 0 57
    if ctlBits s c 63 1 = 1 && ctlBits s a 57 7 = rid && ((reads && kind.testBit 0) || (writes && kind.testBit 1)) then
      (vas.find? (fun v => lo ≤ v && v ≤ lo + ctlBits s c 0 16)).map (fun v => (k, v))
    else none)

/-- Queues a debug event of a slot. -/
def debugPost (s : State) (d : Nat) (e : DbgEvent) : State := { s with dbgEvents := sputD [] d (sgetD [] s.dbgEvents d ++ [e]) s.dbgEvents }

/-- The event about a fibre (R457). -/
def debugEventOf (s : State) (wk : Nat) (w : Wave) (f : Fibre) (code idx : Byte) (pc addr : W64) (brk : BitVec 16) : DbgEvent :=
  { code := code, idx := idx, ctx := ((sget w.launch s.launches).map (·.ctx)).getD 0, launch := w.launch, wg := w.wg, fib := f.lfi, pc := pc, addr := addr,
    bcode := brk, core := coreNo wk, clock := (coreOf s (coreNo wk)).clock }

/-- Stops a fibre at an instruction, which has no effect on it, with an event. -/
def stopFibre (s : State) (wk slot : Nat) (r : Resume) (d : Nat) (code idx : Byte) (addr : W64) (brk : BitVec 16) : State :=
  match sget wk s.waves, fibreAt s wk slot with
  | some w, some f =>
    let s := debugPost s d (debugEventOf s wk w f code idx r.pc addr brk)
    leaveClause (modFibre s wk slot (fun f => { f with blocked := some .stopped, pc := r.pc, base := r.place, cont := false })) wk slot
  | _, _ => s

/-- An instruction that a watch range stopped has not issued for the fibre (R457): it is not counted and not charged. -/
def uncount (s : State) (wk slot : Nat) : State :=
  let s := modFibre s wk slot (fun f => { f with issued := f.issued - 1 })
  let k := key2 (coreNo wk) (((sget wk s.waves).map (·.launch)).getD 0)
  { s with dynW := sputD 0 k (sgetD 0 s.dynW k - 1) s.dynW }

/-! ### Poison (R116, R433) -/

/-- The trap that consuming a poisoned source of a fibre causes. -/
def poisonCause (w : Wave) (f : Fibre) (uses : List Use) : Option Cause :=
  uses.findSome? (fun u =>
    if u.eat = 0 then none
    else
      match u.cls with
      | .v => ((run u.base u.n).find? (fun r => f.vp r)).map (fun r => { kind := 0x0C, sub := 1, syn1 := BitVec.ofNat 32 r })
      | .g => ((run u.base u.n).find? (fun r =>
          let x := sgetD GWord.zero w.g r
          (x.poisLo && u.eat.testBit 0) || (x.poisHi && u.eat.testBit 1))).map
            (fun r => { kind := 0x0C, sub := 2, syn0 := 1, syn1 := BitVec.ofNat 32 r })
      | .q => if (f.rq u.base).pois &&& BitVec.ofNat 4 u.eat != 0 then
          some { kind := 0x0C, sub := 3, syn0 := 2, syn1 := BitVec.ofNat 32 u.base } else none
      | .a => none)

/-- The trap of a poisoned vector word that a meaning finds consumed. -/
def vecPoison (r : Nat) : Cause := { kind := 0x0C, sub := 1, syn1 := BitVec.ofNat 32 r }

/-! ### Traps of a bundle -/

/-- Each fibre of a list traps. -/
def trapEach (s : State) (wk : Nat) (r : Resume) (l : List (Nat × Cause)) : State :=
  l.foldl (fun s p => trap s wk p.1 r p.2) s

/-- Every fibre of a list traps for one cause. -/
def trapAll (s : State) (wk : Nat) (r : Resume) (slots : List Nat) (c : Cause) : State := trapEach s wk r (slots.map (·, c))

/-- The slots of a list that no entry of a list of traps names. -/
def others {α : Type} (slots : List Nat) (l : List (Nat × α)) : List Nat := slots.filter (fun x => !(l.map (·.1)).contains x)

/-- The trap of an illegal instruction (R100, R425). -/
def illegalCause (word : W64) (sub : BitVec 16) : Cause :=
  { kind := 2, sub := sub, syn0 := word.extractLsb' 0 32, syn1 := word.extractLsb' 32 32 }

/-- The check of R100 that depends on a fibre's own operand: the register that `movg` computes, A + B with B unsigned and the
sum not reduced (DESIGN CHOICE, log 31), lies beyond the uniform count (R101, R140). -/
def indexTrap (gcnt : Nat) (word : W64) (i : Instr) (f : Fibre) : Option Cause :=
  match i with
  | .movg _ x => if gcnt ≤ x.a.toNat + (f.rv x.b.toNat).toNat then some (illegalCause word 6) else none
  | _ => none

/-! ### Releases (R172, R188, R421) -/

/-- Whether an instruction is a release, and how: not at all, fibre by fibre, once for the bundle, or as
`exit`, which also waits for the registers of earlier operations. -/
inductive Rel where
  | none | each | bundle | exit
  deriving DecidableEq, Repr

/-- Whether a slot of a wave has an entry in the core's Silt log (R172). -/
def hasSilt (s : State) (wk slot : Nat) : Bool :=
  (coreOf s (coreNo wk)).silt.any (fun e => e.wave = wk && e.slots.contains slot)

/-- Whether a slot has an access that is not yet performed: a Silt entry, or one of an operation in flight (R163, R172). -/
def owes (s : State) (wk slot : Nat) : Bool := hasSilt s wk slot || (opsOf s wk).any (·.unperformed slot)

/-- The slots that a release holds: those with accesses not yet performed, or all when the bundle is released as one. -/
def releaseHeld (s : State) (wk : Nat) (rel : Rel) (act : List Nat) : List Nat :=
  match rel with
  | .none => []
  | .each => act.filter (owes s wk)
  | .bundle => if act.any (owes s wk) then act else []
  | .exit => let ops := opsOf s wk
             act.filter (fun x => owes s wk x || fibreBusy ops x)

/-! ### Issue -/

/-- The issuing bundle's effect on the wave and its fibres (R38, R75, R77, R207, R344): the issue number,
the clause's next instruction, and each fibre's PC, stamp and count. A fibre that resumes inside a release keeps its stamp, and a
bundle of such fibres alone takes no number again. -/
def beginIssue (s : State) (b : Bundle) : State :=
  modWave s b.wk (fun w =>
    let again := b.all.all (fun x => ((sget x w.fibres).map (·.cont)).getD false)
    let n := if again then w.issueNo else w.issueNo + 1
    { w with
      issueNo := n
      issued := some (b.pc, ((b.all.head?.bind (fun x => sget x w.fibres)).map (·.lfi)).getD 0)
      clause := w.clause.map (fun c => { c with idx := c.idx + 1, ll := c.ll || b.ll })
      fibres := w.fibres.map (fun e =>
        if b.all.contains e.1 then
          (e.1, { e.2.advance b.place b.pc b.ll with
            stamp := if e.2.cont then e.2.stamp else n, cont := false, waive := false
            issued := if b.act.contains e.1 && !e.2.cont then e.2.issued + 1 else e.2.issued })
        else e) })

/-- The clause ends after its last instruction (R75). -/
def endIssue (s : State) (b : Bundle) : State :=
  if b.idx = b.place.last then modWave s b.wk (fun w => { w with clause := none, paired := none }) else s

/-- Charges engine clocks to a launch on a cluster's meter (R461). -/
def chargeCluster (s : State) (cl launch n : Nat) : State :=
  let k := key2 (128 + cl) launch
  { s with dynW := sputD 0 k (sgetD 0 s.dynW k + n) s.dynW }

/-- Charges the fibres that passed the guard to the core's meter (R461). -/
def chargeIssue (s : State) (wk launch n : Nat) : State :=
  let k := key2 (coreNo wk) launch
  { s with dynW := sputD 0 k (sgetD 0 s.dynW k + n) s.dynW }

/-- An illegal instruction: it takes an issue of its core's clock, every fibre of the bundle traps, and none counts the
issue (R101, R341). -/
def illegal (s : State) (b : Bundle) (w : Wave) (sub : BitVec 16) : State :=
  let s := beginIssue (countIssue s b.wk w) { b with act := [] }
  endIssue (trapAll s b.wk b.here b.all (illegalCause b.word sub)) b

/-- The constant-window words for the fibres that go on. -/
def constants (s : State) (b : Bundle) (w : Wave) (f : Form) (go : List Nat) : State × ConRead :=
  match f.const with
  | none => (s, .words [])
  | some c =>
    if go.isEmpty then (s, .words [])
    else if w.page.isSome then
      (s, .fail 0x0A ((((launchOf s b.wk).bind (fun l => sget c.1 l.windows)).map (·.1)).getD 0 + BitVec.ofNat 64 (4 * c.2.1)))
    else conRead s b.wk c

/-- What a debugger watches of a constant-window operand (R457): slot, watch range, pointer. -/
def conWatch (s : State) (b : Bundle) (f : Form) : Option (Nat × Nat × W64) :=
  match debugSlot s (ctxOf s b.wk), f.const with
  | some d, some c =>
    ((launchOf s b.wk).bind (fun l => sget c.1 l.windows)).bind (fun w =>
      (watchAt s d (ptrRid w.1) (addrs (ptrVa w.1 + 4 * c.2.1) (4 * c.2.2)) true false).map (fun h =>
        (d, h.1, BitVec.ofNat 64 (ptrRid w.1 * 2 ^ 57 + h.2))))
  | _, _ => none

/-- Stops fibres at a watch range, before an instruction that has no effect on them. -/
def watchStops (s : State) (b : Bundle) (slots : List Nat) (d k : Nat) (addr : W64) : State :=
  slots.foldl (fun s x => uncount (stopFibre s b.wk x b.here d 3 (BitVec.ofNat 8 k) addr 0) b.wk x) s

/-- The fibres that a pending error makes trap at a release (R420 step 5). -/
def pendingTraps (s : State) (wk : Nat) (rel : Rel) (act : List Nat) : List (Nat × Cause) :=
  if rel == .none then []
  else act.filterMap (fun x => (fibreAt s wk x).bind (fun f => f.deferred.map (fun d => (x, d.cause f.lostDef))))

/-- The last part of an issue: pending errors, the wait of a release, and the meaning for the rest. -/
def release (s : State) (b : Bundle) (rel : Rel) (header : W64) (ll : Bool) (body : Bundle → State → State) : State :=
  let late := pendingTraps s b.wk rel b.act
  let s := trapEach s b.wk b.here late
  let go := others b.act late
  let wait := releaseHeld s b.wk rel go
  let s := wait.foldl (fun s x =>
    block (modFibre s b.wk x (fun f => { f with cont := true, waive := b.waived.contains x })) b.wk x b.pc b.place (.release (if rel == .bundle then wait else [x]) (rel == .exit))) s
  let go := go.filter (fun x => !wait.contains x)
  body { b with act := go, flag := if b.ll && !go.isEmpty then nextFlag header ll else none } s

/-- Poisoned words that only fibres whose guard fails read: each posts its event (R433, R467). -/
def latent (s : State) (b : Bundle) (w : Wave) (uses : List Use) : State :=
  (others b.all (b.act.map (·, ()))).foldl (fun s x =>
    match sget x w.fibres with
    | none => s
    | some f =>
      match poisonCause w f (uses.filter (fun u => b.act.isEmpty || u.cls != .g)) with
      | some c => supPost s { SupEvent.ofFibre s 0x06 b.wk f.lfi with pc := b.pc, addr := c.syn1.setWidth 64 }
      | none => s) s

/-- Issues an instruction that passed its checks and that nothing holds. -/
def perform (s : State) (b : Bundle) (w : Wave) (c : Clause) (f : Form) (i : Instr) (rel : Rel)
    (body : Bundle → State → State) : State :=
  let slot := debugSlot s (ctxOf s b.wk)
  let brk := slot.bind (fun d => (breakAt s d b.pc).map (fun k => (d, k)))
  let fib (x : Nat) : Option Fibre := sget x w.fibres
  let gcnt := ((launchOf s b.wk).map (·.gcnt)).getD 0
  let early := b.act.filterMap (fun x => ((fib x).bind (indexTrap gcnt b.word i)).map (x, ·))
  let able := others b.act early
  let stops := if brk.isSome then able.filter (fun x => ((fib x).map (fun f => !f.waive)).getD false) else []
  let rest := able.filter (fun x => !stops.contains x)
  let uses := f.uses ++ queueUse w i
  let bad := rest.filterMap (fun x => ((fib x).bind (fun y => poisonCause w y uses)).map (x, ·))
  let go := others rest bad
  match constants s b w f go with
  | (s, .wait va _) => modWave s b.wk (fun w => { w with page := some (va / 4096, false) })
  | (s, .poison a) =>
    killContext s (ctxOf s b.wk) { SupEvent.ofFibre s 0x01 b.wk (((go.head?.bind fib).map (·.lfi)).getD 0) with cause := 6, pc := b.pc, addr := a }
  | (s, con) =>
    let s := modWave (chargeIssue (occupy s b.wk w i f b.all b.act) b.wk w.launch (early.length + rest.length)) b.wk (fun w => { w with page := none })
    let s := beginIssue s { b with act := rest }
    let s := trapEach s b.wk b.here early
    let s := stops.foldl (fun s x => match brk with
      | some (d, k) => stopFibre s b.wk x b.here d 2 (BitVec.ofNat 8 k) 0 0
      | none => s) s
    let s := trapEach (latent s b w uses) b.wk b.here bad
    match con with
    | .words ws =>
      let waived := go.filter (fun x => ((fib x).map (·.waive)).getD false)
      let r : State × List Nat := match conWatch s b f with
        | some (d, k, addr) => (watchStops s b (go.filter (fun x => !waived.contains x)) d k addr, waived)
        | none => (s, go)
      endIssue (release r.1 { b with act := r.2, con := ws, pre := some w, waived := waived } rel c.header c.ll body) b
    | .fail sub addr => endIssue (trapAll s b.wk b.here go { kind := 3, sub := sub, addr := addr, acc := 0 }) b
    | _ => endIssue s b

/-- The slots of a clause, ascending. -/
def Clause.inOrder (c : Clause) : List Nat := (List.range 32).filter (fun x => c.slots.contains x)

/-- The bundle of an open clause at its next instruction. -/
def bundleAt (wk : Nat) (w : Wave) (c : Clause) (g : Guard) (ll : Bool) : Bundle :=
  { wk := wk, idx := c.idx, pc := c.hdr + 8 * (BitVec.ofNat 64 c.idx + 1), word := c.words.getD c.idx 0,
    place := { hdr := c.hdr, last := c.words.length - 1, ll := c.ll }, ll := ll, all := c.inOrder,
    act := c.inOrder.filter (fun x => ((sget x w.fibres).map (guardPasses g)).getD false), flag := none, con := [] }

/-- Whether the other wave of a pair holds an instruction back (R348): it has not issued the one before, or it cannot issue
this one yet. -/
def partnerHolds (s : State) (wk : Nat) (w : Wave) (c : Clause) (i : Instr) (g : Guard) (ll : Bool) : Bool :=
  match w.paired.bind (fun p => (sget p s.waves).map (p, ·)) with
  | some (p, v) =>
    v.paired = some wk && v.clause.any (fun d =>
      d.idx < c.idx || (d.idx = c.idx && (holdReason s p v d i g.gp (bundleAt p v d g ll).act).isSome))
  | none => false

/-- Issues an instruction for the bundle of the current wave: it traps as an illegal instruction, waits at
issue, or is performed. There is no bundle where no clause is open and started (R342). -/
def issue (i : Instr) (g : Guard) (rel : Rel) (body : Bundle → State → State) (s : State) : Host.Outcome State Fault Refusal :=
  match s.cur with
  | none => .fault .noBundle
  | some wk =>
    match sget wk s.waves with
    | none => .fault .noBundle
    | some w =>
      match w.clause, sget w.launch s.launches with
      | some c, some l =>
        if !c.started || c.slots.isEmpty then .fault .noBundle
        else
          let f := (form i).getD { cls := 0 }
          let b := bundleAt wk w c g f.ll
          let cls := bits c.header.toNat 16 4
          let last := c.idx = c.words.length - 1
          match formError l i cls last [] with
          | some sub => .next (illegal s b w sub)
          | none =>
            if (holdReason s wk w c i g.gp b.act).isSome || partnerHolds s wk w c i g f.ll then .next s
            else
              match formError l i cls last (queueUse w i) with
              | some sub => .next (illegal s b w sub)
              | none => .next (perform s b w c f i rel body)
      | _, _ => .fault .noBundle

/-- What an instruction's meaning answers. -/
abbrev Answer := Host.Outcome State Fault Refusal

/-- Changes each fibre of a bundle for which the instruction is performed; the wave is that before it (R113). -/
def perFibre (f : Wave → Nat → Fibre → Fibre) (b : Bundle) (s : State) : State :=
  match b.wave s with
  | none => s
  | some w => mapFibres s b.wk b.act (f w)

/-- Changes the wave once, if at least one fibre passes the guard (R115). -/
def perWave (f : Wave → Wave) (b : Bundle) (s : State) : State := if b.act.isEmpty then s else modWave s b.wk f

/-! ### Operations in flight (R44, R77) -/

/-- Starts an operation: it counts on the bundle's flag. -/
def startOp (s : State) (b : Bundle) (kind : OpKind) : State :=
  let n := s.nextOp
  let o : Op := { wave := b.wk, flag := b.flag, slots := b.act, pc := b.pc, place := b.place, core := coreNo b.wk,
                  ctx := ctxOf s b.wk, gang := gangOf s b.wk, wait := none, kind := kind }
  let s := { s with ops := sput n o s.ops, nextOp := n + 1 }
  match b.flag with
  | none => s
  | some k => modWave s b.wk (fun w => w.setFlag k (w.flag k + 1))

/-- Ends an operation: its flag's count falls, and it is gone. -/
def endOp (s : State) (n : Nat) : State :=
  match sget n s.ops with
  | none => s
  | some o => { dropFlag s o.wave o.flag with ops := sdel n s.ops }

/-- Wakes the fibres held in a release that have nothing left to wait for: they issue it again (R172). A
release of a whole bundle waits for every slot of it. -/
def wakeReleases (s : State) : State :=
  s.waves.foldl (fun s e =>
    let ops := opsOf s e.1
    let free (x : Nat) (drain : Bool) : Bool := !owes s e.1 x && !(drain && fibreBusy ops x)
    modWave s e.1 (fun w => { w with fibres := w.fibres.map (fun p =>
      match p.2.blocked with
      | some (.release group drain) =>
        let waits := group.filter (fun x => ((sget x w.fibres).map (fun f => f.blocked == p.2.blocked)).getD false)
        if waits.all (fun x => free x drain) then (p.1, { p.2 with blocked := none }) else p
      | _ => p) })) s

end Sys2Proof.Machine
end

