-- ==== Sys2Proof/Machine/IntOps.lean ====
section
/-! DEFINITION. Integer, bit and address instructions of the vector family (R113, R119 to R125), in their
RRR, RK and RI forms. -/

namespace Sys2Proof.Machine

/-! ### Forms: `op` takes the type and the operands A, B and C -/

/-- An operation on operands of a type. -/
abbrev AluOp := BitVec 5 → W64 → W64 → W64 → W64

/-- RRR: operands and result of the type's width. -/
def alu (x : RRR) (op : AluOp) : Bundle → State → State :=
  perFibre (fun w _ f =>
    let wd := isWide x.ty
    f.setX wd x.d.toNat (op x.ty (srcX w f (x.usrc.getLsbD 2) wd x.a) (srcX w f (x.usrc.getLsbD 1) wd x.b)
      (srcX w f (x.usrc.getLsbD 0) wd x.c)))

/-- RRR with one register as B: shifts and bit fields (R124, R125). -/
def aluB (x : RRR) (op : AluOp) : Bundle → State → State :=
  perFibre (fun w _ f =>
    let wd := isWide x.ty
    f.setX wd x.d.toNat (op x.ty (srcX w f (x.usrc.getLsbD 2) wd x.a) (srcX w f (x.usrc.getLsbD 1) false x.b) 0))

/-- RRR with one source and one register as D (R125, R135). -/
def aluN (x : RRR) (op : AluOp) : Bundle → State → State :=
  perFibre (fun w _ f =>
    f.setX false x.d.toNat (op x.ty (srcX w f (x.usrc.getLsbD 2) (isWide x.ty) x.a) 0 0))

/-- RK: the constant is B (R86). -/
def aluK (x : RK) (op : AluOp) (b : Bundle) : State → State :=
  perFibre (fun _ _ f =>
    let wd := isWide x.ty
    let src (r : BitVec 8) : W64 := if wd then f.rv2 r.toNat else (f.rv r.toNat).setWidth 64
    f.setX wd x.d.toNat (op x.ty (src x.a) (conValue b.con) (src x.c))) b

/-- RI: the immediate is B (R88). -/
def aluImm (x : RI) (op : AluOp) : Bundle → State → State :=
  perFibre (fun _ _ f =>
    let ty := itypeCode x.ity
    let wd := isWide ty
    f.setX wd x.d.toNat (op ty (if wd then f.rv2 x.a.toNat else (f.rv x.a.toNat).setWidth 64) (immValue x.ity x.imm) 0))

/-! ### Operations -/

/-- An operand as an integer of its type. -/
def ival (ty : BitVec 5) (x : W64) : Int := toInt (isSigned ty) (tyWidth ty) x.toNat

/-- An integer result: modulo 2^w, or clamped under `.sat` (R57, R120). -/
def ires (ty : BitVec 5) (sat : Bool) (v : Int) : W64 :=
  BitVec.ofNat 64 (wrap (tyWidth ty) (if sat then clamp (isSigned ty) (tyWidth ty) v else v))

def opAdd (sat : Bool) : AluOp := fun ty a b _ => ires ty sat (ival ty a + ival ty b)
def opSub (sat : Bool) : AluOp := fun ty a b _ => ires ty sat (ival ty a - ival ty b)
def opMul : AluOp := fun ty a b _ => ires ty false (ival ty a * ival ty b)
def opMulHi : AluOp := fun ty a b _ => ires ty false ((ival ty a * ival ty b) / (2 ^ tyWidth ty : Nat))
def opMad : AluOp := fun ty a b c => ires ty false (ival ty a * ival ty b + ival ty c)
def opMin : AluOp := fun ty a b _ => if ival ty b < ival ty a then b else a
def opMax : AluOp := fun ty a b _ => if ival ty a < ival ty b then b else a
def opAbs (sat : Bool) : AluOp := fun ty a _ _ => ires ty sat (ival ty a).natAbs
def opNeg (sat : Bool) : AluOp := fun ty a _ _ => ires ty sat (-(ival ty a))
def opAnd : AluOp := fun _ a b _ => a &&& b
def opOr : AluOp := fun _ a b _ => a ||| b
def opXor : AluOp := fun _ a b _ => a ^^^ b
def opNot : AluOp := fun _ a _ _ => ~~~a

/-- The quotient toward zero; all ones for a divisor of 0 (R121). -/
def opDiv : AluOp := fun ty a b _ =>
  if ival ty b = 0 then ires ty false (-1) else ires ty false (Int.tdiv (ival ty a) (ival ty b))

/-- The remainder with the sign of A; A for a divisor of 0 (R121). -/
def opRem : AluOp := fun ty a b _ =>
  if ival ty b = 0 then a else ires ty false (Int.tmod (ival ty a) (ival ty b))

/-- The shift count, bits [7:0] of B (R124). -/
def shiftCount (b : W64) : Nat := bits b.toNat 0 8

/-- A number of the type's width. -/
def nval (ty : BitVec 5) (x : W64) : Nat := x.toNat % 2 ^ tyWidth ty

def opShl : AluOp := fun ty a b _ => BitVec.ofNat 64 (nval ty a * 2 ^ shiftCount b % 2 ^ tyWidth ty)
def opShr : AluOp := fun ty a b _ => BitVec.ofNat 64 (nval ty a / 2 ^ shiftCount b)
def opSar : AluOp := fun ty a b _ =>
  BitVec.ofNat 64 (wrap (tyWidth ty) (toInt true (tyWidth ty) a.toNat / (2 ^ shiftCount b : Nat)))
def opRot : AluOp := fun ty a b _ =>
  let w := tyWidth ty
  let k := shiftCount b % w
  BitVec.ofNat 64 (nval ty a * 2 ^ k % 2 ^ w + nval ty a / 2 ^ (w - k))

/-- The ones among the low `n` bits. -/
def ones (x : Nat) : Nat → Nat
  | 0 => 0
  | n + 1 => ones x n + (if x.testBit n then 1 else 0)

/-- The low `n` bits in reverse: bit k moves to bit n - 1 - k. -/
def reversed (x : Nat) : Nat → Nat
  | 0 => 0
  | n + 1 => reversed (x / 2) n + x % 2 * 2 ^ n

/-- The zeros above the highest one of `w` bits. -/
def leadZeros (w x : Nat) : Nat := if x = 0 then w else w - 1 - Nat.log2 x

def opPopc : AluOp := fun ty a _ _ => BitVec.ofNat 64 (ones (nval ty a) (tyWidth ty))
def opClz : AluOp := fun ty a _ _ => BitVec.ofNat 64 (leadZeros (tyWidth ty) (nval ty a))

def opBrev : AluOp := fun ty a _ _ => BitVec.ofNat 64 (reversed (nval ty a) (tyWidth ty))

/-- Position and length of a bit field (R125). -/
def fieldOf (ty : BitVec 5) (b : W64) : Nat × Nat := (bits b.toNat 0 8, min (bits b.toNat 8 8) (tyWidth ty))

/-- Extracts a field: bits beyond the width are the sign's for `.i` types (R125). -/
def opBfx : AluOp := fun ty a b _ =>
  let (pos, len) := fieldOf ty b
  let fld : Nat := wrap len (ival ty a / (2 ^ pos : Nat))
  if len = 0 then 0 else BitVec.ofNat 64 (wrap (tyWidth ty) (toInt (isSigned ty) len fld))

/-- Inserts the low bits of B into A (R125). -/
def opBfi : AluOp := fun ty a b c =>
  let (pos, len) := fieldOf ty c
  let m := (2 ^ len - 1) * 2 ^ pos % 2 ^ tyWidth ty
  BitVec.ofNat 64 (Nat.lor (Nat.land (nval ty a) (2 ^ tyWidth ty - 1 - m)) (Nat.land (b.toNat * 2 ^ pos) m))

/-- A 64-bit address from a base and a shifted index (R123). -/
def leaValue (ty : BitVec 5) (sh : Nat) (a b : W64) : W64 :=
  let i : W64 := if ty == 2 then (b.extractLsb' 0 32).signExtend 64 else if ty == 6 then (b.extractLsb' 0 32).setWidth 64 else b
  a + i <<< sh

/-- A sum or difference with carry (R122). -/
def carryOp (x : RRR) (op : Nat → Nat → Nat → Bool → Nat × Bool) : Bundle → State → State :=
  perFibre (fun w _ f =>
    let wd := isWide x.ty
    let cin := x.opx.getLsbD 4 && f.rp (x.c.extractLsb' 0 4)
    let r := op (tyWidth x.ty) (srcX w f (x.usrc.getLsbD 2) wd x.a).toNat (srcX w f (x.usrc.getLsbD 1) wd x.b).toNat cin
    (f.setX wd x.d.toNat (BitVec.ofNat 64 r.1)).setP (x.opx.extractLsb' 0 4) r.2)

/-! ### Instructions -/

/-- IADD (R119). -/
def execIadd (g : Guard) (x : RRR) (s : State) : Answer := issue (.iadd g x) g .none (alu x (opAdd (x.opx.getLsbD 0))) s
/-- ISUB (R119). -/
def execIsub (g : Guard) (x : RRR) (s : State) : Answer := issue (.isub g x) g .none (alu x (opSub (x.opx.getLsbD 0))) s
/-- IMUL (R119). -/
def execImul (g : Guard) (x : RRR) (s : State) : Answer := issue (.imul g x) g .none (alu x opMul) s
/-- IMULHI (R119). -/
def execImulhi (g : Guard) (x : RRR) (s : State) : Answer := issue (.imulhi g x) g .none (alu x opMulHi) s
/-- IMAD (R119). -/
def execImad (g : Guard) (x : RRR) (s : State) : Answer := issue (.imad g x) g .none (alu x opMad) s
/-- IMADW (R119): A and B single registers, C and D pairs. -/
def execImadw (g : Guard) (x : RRR) (s : State) : Answer :=
  issue (.imadw g x) g .none (perFibre (fun w _ f =>
    f.setV2 x.d.toNat (BitVec.ofNat 64 (wrap 64 (ival x.ty (srcX w f (x.usrc.getLsbD 2) false x.a)
      * ival x.ty (srcX w f (x.usrc.getLsbD 1) false x.b) + ((srcX w f (x.usrc.getLsbD 0) true x.c).toNat : Int)))))) s
/-- IDIV (R121). -/
def execIdiv (g : Guard) (x : RRR) (s : State) : Answer := issue (.idiv g x) g .none (alu x opDiv) s
/-- IREM (R121). -/
def execIrem (g : Guard) (x : RRR) (s : State) : Answer := issue (.irem g x) g .none (alu x opRem) s
/-- IMIN (R119). -/
def execImin (g : Guard) (x : RRR) (s : State) : Answer := issue (.imin g x) g .none (alu x opMin) s
/-- IMAX (R119). -/
def execImax (g : Guard) (x : RRR) (s : State) : Answer := issue (.imax g x) g .none (alu x opMax) s
/-- IABS (R120). -/
def execIabs (g : Guard) (x : RRR) (s : State) : Answer := issue (.iabs g x) g .none (alu x (opAbs (x.opx.getLsbD 0))) s
/-- INEG (R120). -/
def execIneg (g : Guard) (x : RRR) (s : State) : Answer := issue (.ineg g x) g .none (alu x (opNeg (x.opx.getLsbD 0))) s
/-- ADDC (R122). -/
def execAddc (g : Guard) (x : RRR) (s : State) : Answer := issue (.addc g x) g .none (carryOp x addCarry) s
/-- SUBB (R122). -/
def execSubb (g : Guard) (x : RRR) (s : State) : Answer := issue (.subb g x) g .none (carryOp x subBorrow) s
/-- LEA (R123). -/
def execLea (g : Guard) (x : RRR) (s : State) : Answer :=
  issue (.lea g x) g .none (perFibre (fun w _ f =>
    f.setV2 x.d.toNat (leaValue x.ty (x.opx.extractLsb' 0 6).toNat (srcX w f (x.usrc.getLsbD 2) true x.a)
      (srcX w f (x.usrc.getLsbD 1) (x.ty == 9) x.b)))) s
/-- AND (R119). -/
def execAndB (g : Guard) (x : RRR) (s : State) : Answer := issue (.andB g x) g .none (alu x opAnd) s
/-- OR (R119). -/
def execOrB (g : Guard) (x : RRR) (s : State) : Answer := issue (.orB g x) g .none (alu x opOr) s
/-- XOR (R119). -/
def execXorB (g : Guard) (x : RRR) (s : State) : Answer := issue (.xorB g x) g .none (alu x opXor) s
/-- NOT (R119). -/
def execNotB (g : Guard) (x : RRR) (s : State) : Answer := issue (.notB g x) g .none (alu x opNot) s
/-- SHL (R124). -/
def execShl (g : Guard) (x : RRR) (s : State) : Answer := issue (.shl g x) g .none (aluB x opShl) s
/-- SHR (R124). -/
def execShr (g : Guard) (x : RRR) (s : State) : Answer := issue (.shr g x) g .none (aluB x opShr) s
/-- SAR (R124). -/
def execSar (g : Guard) (x : RRR) (s : State) : Answer := issue (.sar g x) g .none (aluB x opSar) s
/-- ROT (R124). -/
def execRot (g : Guard) (x : RRR) (s : State) : Answer := issue (.rot g x) g .none (aluB x opRot) s
/-- POPC (R125). -/
def execPopc (g : Guard) (x : RRR) (s : State) : Answer := issue (.popc g x) g .none (aluN x opPopc) s
/-- CLZ (R125). -/
def execClz (g : Guard) (x : RRR) (s : State) : Answer := issue (.clz g x) g .none (aluN x opClz) s
/-- BREV (R125). -/
def execBrev (g : Guard) (x : RRR) (s : State) : Answer := issue (.brev g x) g .none (alu x opBrev) s
/-- BFX (R125). -/
def execBfx (g : Guard) (x : RRR) (s : State) : Answer := issue (.bfx g x) g .none (aluB x opBfx) s
/-- BFI (R125): C is one register. -/
def execBfi (g : Guard) (x : RRR) (s : State) : Answer :=
  issue (.bfi g x) g .none (perFibre (fun w _ f =>
    let wd := isWide x.ty
    f.setX wd x.d.toNat (opBfi x.ty (srcX w f (x.usrc.getLsbD 2) wd x.a) (srcX w f (x.usrc.getLsbD 1) wd x.b)
      (srcX w f (x.usrc.getLsbD 0) false x.c)))) s

/-- IADD_RK (R119). -/
def execIaddRk (g : Guard) (x : RK) (s : State) : Answer := issue (.iaddRk g x) g .none (aluK x (opAdd false)) s
/-- ISUB_RK (R119). -/
def execIsubRk (g : Guard) (x : RK) (s : State) : Answer := issue (.isubRk g x) g .none (aluK x (opSub false)) s
/-- IMUL_RK (R119). -/
def execImulRk (g : Guard) (x : RK) (s : State) : Answer := issue (.imulRk g x) g .none (aluK x opMul) s
/-- IMAD_RK (R119). -/
def execImadRk (g : Guard) (x : RK) (s : State) : Answer := issue (.imadRk g x) g .none (aluK x opMad) s
/-- AND_RK (R119). -/
def execAndRk (g : Guard) (x : RK) (s : State) : Answer := issue (.andRk g x) g .none (aluK x opAnd) s
/-- OR_RK (R119). -/
def execOrRk (g : Guard) (x : RK) (s : State) : Answer := issue (.orRk g x) g .none (aluK x opOr) s
/-- XOR_RK (R119). -/
def execXorRk (g : Guard) (x : RK) (s : State) : Answer := issue (.xorRk g x) g .none (aluK x opXor) s
/-- IADD_RI (R119). -/
def execIaddRi (g : Guard) (x : RI) (s : State) : Answer := issue (.iaddRi g x) g .none (aluImm x (opAdd false)) s
/-- IMUL_RI (R119). -/
def execImulRi (g : Guard) (x : RI) (s : State) : Answer := issue (.imulRi g x) g .none (aluImm x opMul) s
/-- AND_RI (R119). -/
def execAndRi (g : Guard) (x : RI) (s : State) : Answer := issue (.andRi g x) g .none (aluImm x opAnd) s
/-- OR_RI (R119). -/
def execOrRi (g : Guard) (x : RI) (s : State) : Answer := issue (.orRi g x) g .none (aluImm x opOr) s
/-- XOR_RI (R119). -/
def execXorRi (g : Guard) (x : RI) (s : State) : Answer := issue (.xorRi g x) g .none (aluImm x opXor) s
/-- SHL_RI (R124). -/
def execShlRi (g : Guard) (x : RI) (s : State) : Answer := issue (.shlRi g x) g .none (aluImm x opShl) s
/-- SHR_RI (R124). -/
def execShrRi (g : Guard) (x : RI) (s : State) : Answer := issue (.shrRi g x) g .none (aluImm x opShr) s
/-- SAR_RI (R124). -/
def execSarRi (g : Guard) (x : RI) (s : State) : Answer := issue (.sarRi g x) g .none (aluImm x opSar) s

end Sys2Proof.Machine
end

