-- ==== Sys2Proof/Machine/FloatOps.lean ====
section
/-! DEFINITION. Floating-point, packed and conversion instructions of the vector family (R130 to R138), in
their RRR, RK and RI forms. -/

namespace Sys2Proof.Machine

/-- An operation of a float format: rounding mode, `.ftz`, and the encodings of A, B and C. -/
abbrev FloatOp := Fmt → Rnd → Bool → Nat → Nat → Nat → Nat

/-- A float operation as an operation on operands. -/
def flt (rnd : Nat) (ftz : Bool) (op : FloatOp) : AluOp :=
  fun ty a b c => BitVec.ofNat 64 (op (fmtOf ty) (Rnd.ofCode rnd) ftz a.toNat b.toNat c.toNat)

/-- RRR: the mode from RND, `.ftz` from OPX[1] (R130). -/
def fltR (x : RRR) (op : FloatOp) : Bundle → State → State := alu x (flt x.rnd.toNat (x.opx.getLsbD 1) op)
/-- RK: the mode from RND. -/
def fltK (x : RK) (op : FloatOp) (b : Bundle) : State → State := aluK x (flt x.rnd.toNat false op) b
/-- RI: to nearest. -/
def fltI (x : RI) (op : FloatOp) : Bundle → State → State := aluImm x (flt 0 false op)

def fAdd : FloatOp := fun f m z a b _ => f.addBits m z a b
def fSub : FloatOp := fun f m z a b _ => f.subBits m z a b
def fMul : FloatOp := fun f m z a b _ => f.mulBits m z a b
def fFma : FloatOp := fun f m z a b c => f.fmaBits m z a b c
def fDiv : FloatOp := fun f m z a b _ => f.divBits m z a b
def fMin : FloatOp := fun f _ z a b _ => f.minmax false z a b
def fMax : FloatOp := fun f _ z a b _ => f.minmax true z a b
def fRcp : FloatOp := fun f m z a _ _ => f.div m z (.fin false 1 0) (f.value a z)
def fSqrt : FloatOp := fun f m z a _ _ => f.sqrt m z (f.value a z)
def fRsq : FloatOp := fun f m _ a _ _ => f.rsqrt m (f.value a)
def fEx2 : FloatOp := fun f m _ a _ _ => f.exp2 m (f.value a)
def fLg2 : FloatOp := fun f m _ a _ _ => f.log2 m (f.value a)
def fSin : FloatOp := fun f m _ a _ _ => f.sinPi m false (f.value a)
def fCos : FloatOp := fun f m _ a _ _ => f.sinPi m true (f.value a)
def fRnd : FloatOp := fun f m z a _ _ => f.integral m z a
def fClass : FloatOp := fun f _ z a _ _ => 2 ^ f.classBit (f.flush z a)

/-- Two 16-bit elements of a register, each by the operation (R59, R136). -/
def packed (op : FloatOp) : FloatOp := fun f m z a b c =>
  op f m z (bits a 0 16) (bits b 0 16) (bits c 0 16) + 2 ^ 16 * op f m z (bits a 16 16) (bits b 16 16) (bits c 16 16)

/-- A converted value as it stands in the destination: narrow results extended by sign for `.i8` and
`.i16`, else by zeros (R137). -/
def cvtPlaced (td : BitVec 5) (v : Nat) : W64 :=
  if td == 0 || td == 1 then BitVec.ofNat 64 (wrap 32 (toInt true (tyWidth td) v)) else BitVec.ofNat 64 v

/-- `cvt` of one fibre's operand (R137). -/
def cvtValue (x : RRR) (a : W64) : W64 :=
  cvtPlaced x.ty (convert x.ty (x.opx.extractLsb' 0 5) (Rnd.ofCode x.rnd.toNat) (x.opx.getLsbD 5) (x.opx.getLsbD 6)
    (x.opx.getLsbD 7) a.toNat)

/-- `f8pk` of one fibre's operands (R138). -/
def f8pkValue (x : RRR) (a b c : W64) : W64 :=
  let hi := x.opx.getLsbD 0
  let e8 (v : W64) : Nat :=
    convert x.ty 0xB (Rnd.ofCode x.rnd.toNat) (x.opx.getLsbD 1) (x.opx.getLsbD 1) false v.toNat
  let two := e8 a + 256 * e8 b
  BitVec.ofNat 64 (if hi then bits c.toNat 0 16 + 2 ^ 16 * two else bits c.toNat 16 16 * 2 ^ 16 + two)

/-- `f8upk` of one fibre's operand (R138). -/
def f8upkValue (x : RRR) (a : W64) : W64 :=
  let td : BitVec 5 := if x.opx.getLsbD 0 then 0xD else 0xC
  let e (k : Nat) : Nat := convert td x.ty .near false false false (bits a.toNat (8 * k) 8)
  BitVec.ofNat 64 (e 0 + 2 ^ 16 * e 1 + 2 ^ 32 * e 2 + 2 ^ 48 * e 3)

/-- FADD (R130). -/
def execFadd (g : Guard) (x : RRR) (s : State) : Answer := issue (.fadd g x) g .none (fltR x fAdd) s
/-- FSUB (R130). -/
def execFsub (g : Guard) (x : RRR) (s : State) : Answer := issue (.fsub g x) g .none (fltR x fSub) s
/-- FMUL (R130). -/
def execFmul (g : Guard) (x : RRR) (s : State) : Answer := issue (.fmul g x) g .none (fltR x fMul) s
/-- FFMA (R130). -/
def execFfma (g : Guard) (x : RRR) (s : State) : Answer := issue (.ffma g x) g .none (fltR x fFma) s
/-- FMIN (R133). -/
def execFmin (g : Guard) (x : RRR) (s : State) : Answer := issue (.fmin g x) g .none (fltR x fMin) s
/-- FMAX (R133). -/
def execFmax (g : Guard) (x : RRR) (s : State) : Answer := issue (.fmax g x) g .none (fltR x fMax) s
/-- FRCP (R132). -/
def execFrcp (g : Guard) (x : RRR) (s : State) : Answer := issue (.frcp g x) g .none (fltR x fRcp) s
/-- FRSQ (R132). -/
def execFrsq (g : Guard) (x : RRR) (s : State) : Answer := issue (.frsq g x) g .none (fltR x fRsq) s
/-- FSQRT (R132). -/
def execFsqrt (g : Guard) (x : RRR) (s : State) : Answer := issue (.fsqrt g x) g .none (fltR x fSqrt) s
/-- FDIV (R130). -/
def execFdiv (g : Guard) (x : RRR) (s : State) : Answer := issue (.fdiv g x) g .none (fltR x fDiv) s
/-- FEX2 (R132). -/
def execFex2 (g : Guard) (x : RRR) (s : State) : Answer := issue (.fex2 g x) g .none (fltR x fEx2) s
/-- FLG2 (R132). -/
def execFlg2 (g : Guard) (x : RRR) (s : State) : Answer := issue (.flg2 g x) g .none (fltR x fLg2) s
/-- FSIN (R132). -/
def execFsin (g : Guard) (x : RRR) (s : State) : Answer := issue (.fsin g x) g .none (fltR x fSin) s
/-- FCOS (R132). -/
def execFcos (g : Guard) (x : RRR) (s : State) : Answer := issue (.fcos g x) g .none (fltR x fCos) s
/-- FRND (R134). -/
def execFrnd (g : Guard) (x : RRR) (s : State) : Answer := issue (.frnd g x) g .none (fltR x fRnd) s
/-- FCLASS (R135). -/
def execFclass (g : Guard) (x : RRR) (s : State) : Answer := issue (.fclass g x) g .none (aluN x (flt 0 (x.opx.getLsbD 1) fClass)) s
/-- DADD (R130). -/
def execDadd (g : Guard) (x : RRR) (s : State) : Answer := issue (.dadd g x) g .none (alu x (flt x.rnd.toNat false fAdd)) s
/-- DMUL (R130). -/
def execDmul (g : Guard) (x : RRR) (s : State) : Answer := issue (.dmul g x) g .none (alu x (flt x.rnd.toNat false fMul)) s
/-- DFMA (R130). -/
def execDfma (g : Guard) (x : RRR) (s : State) : Answer := issue (.dfma g x) g .none (alu x (flt x.rnd.toNat false fFma)) s
/-- DDIV (R130). -/
def execDdiv (g : Guard) (x : RRR) (s : State) : Answer := issue (.ddiv g x) g .none (alu x (flt x.rnd.toNat false fDiv)) s
/-- HADD2 (R136). -/
def execHadd2 (g : Guard) (x : RRR) (s : State) : Answer := issue (.hadd2 g x) g .none (fltR x (packed fAdd)) s
/-- HMUL2 (R136). -/
def execHmul2 (g : Guard) (x : RRR) (s : State) : Answer := issue (.hmul2 g x) g .none (fltR x (packed fMul)) s
/-- HFMA2 (R136). -/
def execHfma2 (g : Guard) (x : RRR) (s : State) : Answer := issue (.hfma2 g x) g .none (fltR x (packed fFma)) s
/-- BFMA2 (R136). -/
def execBfma2 (g : Guard) (x : RRR) (s : State) : Answer := issue (.bfma2 g x) g .none (fltR x (packed fFma)) s

/-- CVT (R137). -/
def execCvt (g : Guard) (x : RRR) (s : State) : Answer :=
  issue (.cvt g x) g .none (perFibre (fun w _ f =>
    f.setX (isWide x.ty) x.d.toNat (cvtValue x (srcX w f (x.usrc.getLsbD 2) (isWide (x.opx.extractLsb' 0 5)) x.a)))) s
/-- F8PK (R138). -/
def execF8pk (g : Guard) (x : RRR) (s : State) : Answer :=
  issue (.f8pk g x) g .none (perFibre (fun w _ f =>
    f.setX false x.d.toNat (f8pkValue x (srcX w f (x.usrc.getLsbD 2) false x.a) (srcX w f (x.usrc.getLsbD 1) false x.b)
      (srcX w f (x.usrc.getLsbD 0) false x.c)))) s
/-- F8UPK (R138). -/
def execF8upk (g : Guard) (x : RRR) (s : State) : Answer :=
  issue (.f8upk g x) g .none (perFibre (fun w _ f =>
    f.setV2 x.d.toNat (f8upkValue x (srcX w f (x.usrc.getLsbD 2) false x.a)))) s

/-- FADD_RK (R130). -/
def execFaddRk (g : Guard) (x : RK) (s : State) : Answer := issue (.faddRk g x) g .none (fltK x fAdd) s
/-- FMUL_RK (R130). -/
def execFmulRk (g : Guard) (x : RK) (s : State) : Answer := issue (.fmulRk g x) g .none (fltK x fMul) s
/-- FFMA_RK (R130). -/
def execFfmaRk (g : Guard) (x : RK) (s : State) : Answer := issue (.ffmaRk g x) g .none (fltK x fFma) s
/-- FADD_RI (R130). -/
def execFaddRi (g : Guard) (x : RI) (s : State) : Answer := issue (.faddRi g x) g .none (fltI x fAdd) s
/-- FMUL_RI (R130). -/
def execFmulRi (g : Guard) (x : RI) (s : State) : Answer := issue (.fmulRi g x) g .none (fltI x fMul) s

end Sys2Proof.Machine
end

