-- ==== Sys2Proof/Machine/PredMove.lean ====
section
/-! DEFINITION. Comparisons, selection and predicate logic (R126 to R129), moves, special registers and
staging (R139 to R143). -/

namespace Sys2Proof.Machine

/-- Writes a comparison's result for each fibre: code and predicate from D, combined with C (R85, R126). -/
def cmpR (x : RRR) (holds : Nat → W64 → W64 → Bool) : Bundle → State → State :=
  perFibre (fun w _ f =>
    let wd := isWide x.ty
    let r := holds (x.d.extractLsb' 4 4).toNat (srcX w f (x.usrc.getLsbD 2) wd x.a) (srcX w f (x.usrc.getLsbD 1) wd x.b)
    f.setP (x.d.extractLsb' 0 4) (combine (x.opx &&& 3).toNat r (f.rp (x.c.extractLsb' 0 4))))

/-- A comparison with a value for B. -/
def cmpV (d : BitVec 8) (holds : Nat → W64 → W64 → Bool) (a : Fibre → W64) (v : W64) : Bundle → State → State :=
  perFibre (fun _ _ f => f.setP (d.extractLsb' 0 4) (holds (d.extractLsb' 4 4).toNat (a f) v))

/-- A vector source of a width. -/
def vecX (wide : Bool) (r : BitVec 8) (f : Fibre) : W64 := if wide then f.rv2 r.toNat else (f.rv r.toNat).setWidth 64

/-- ICMP (R126). -/
def execIcmp (g : Guard) (x : RRR) (s : State) : Answer := issue (.icmp g x) g .none (cmpR x (fun cc => icmpHolds cc x.ty)) s
/-- FCMP (R126). -/
def execFcmp (g : Guard) (x : RRR) (s : State) : Answer :=
  issue (.fcmp g x) g .none (cmpR x (fun cc => fcmpHolds cc x.ty (x.opx.getLsbD 2))) s
/-- ICMP_RK (R126). -/
def execIcmpRk (g : Guard) (x : RK) (s : State) : Answer :=
  issue (.icmpRk g x) g .none (fun b => cmpV x.d (fun cc => icmpHolds cc x.ty) (vecX (isWide x.ty) x.a) (conValue b.con) b) s
/-- FCMP_RK (R126). -/
def execFcmpRk (g : Guard) (x : RK) (s : State) : Answer :=
  issue (.fcmpRk g x) g .none (fun b => cmpV x.d (fun cc => fcmpHolds cc x.ty false) (vecX (isWide x.ty) x.a) (conValue b.con) b) s
/-- ICMP_RI (R126). -/
def execIcmpRi (g : Guard) (x : RI) (s : State) : Answer :=
  issue (.icmpRi g x) g .none
    (cmpV x.d (fun cc => icmpHolds cc (itypeCode x.ity)) (vecX (isWide (itypeCode x.ity)) x.a) (immValue x.ity x.imm)) s

/-- SEL (R127). -/
def execSel (g : Guard) (x : RRR) (s : State) : Answer :=
  issue (.sel g x) g .none (perFibre (fun w _ f =>
    let wd := isWide x.ty
    f.setX wd x.d.toNat (if f.rp (x.c.extractLsb' 0 4) then srcX w f (x.usrc.getLsbD 2) wd x.a
      else srcX w f (x.usrc.getLsbD 1) wd x.b))) s
/-- PSET (R128). -/
def execPset (g : Guard) (x : RRR) (s : State) : Answer :=
  issue (.pset g x) g .none (perFibre (fun w _ f =>
    f.setP (x.d.extractLsb' 0 4) (srcX w f (x.usrc.getLsbD 2) (isWide x.ty) x.a != 0))) s
/-- PSET_SAVE (R128). -/
def execPsetSave (g : Guard) (x : RRR) (s : State) : Answer :=
  issue (.psetSave g x) g .none (perFibre (fun _ _ f => f.setV x.d.toNat ((f.pred ||| 1).setWidth 32))) s
/-- PSET_LOAD (R128). -/
def execPsetLoad (g : Guard) (x : RRR) (s : State) : Answer :=
  issue (.psetLoad g x) g .none (perFibre (fun w _ f =>
    f.setPreds (loadPreds f.pred ((srcX w f (x.usrc.getLsbD 2) false x.a).extractLsb' 0 32)
      ((srcX w f (x.usrc.getLsbD 1) false x.b).extractLsb' 0 32)))) s
/-- PLOP (R129). -/
def execPlop (g : Guard) (x : RRR) (s : State) : Answer :=
  issue (.plop g x) g .none (perFibre (fun _ _ f =>
    f.setP (x.d.extractLsb' 0 4) (tableBit x.opx (f.rp (x.a.extractLsb' 0 4)) (f.rp (x.b.extractLsb' 0 4))
      (f.rp (x.c.extractLsb' 0 4))))) s

/-- MOV (R139). -/
def execMov (g : Guard) (x : RRR) (s : State) : Answer := issue (.mov g x) g .none (alu x (fun _ a _ _ => a)) s
/-- MOVI (R139). -/
def execMovi (g : Guard) (x : RI) (s : State) : Answer :=
  issue (.movi g x) g .none (perFibre (fun _ _ f => f.setX (isWide (itypeCode x.ity)) x.d.toNat (immValue x.ity x.imm))) s
/-- MOVK (R139). -/
def execMovk (g : Guard) (x : RK) (s : State) : Answer :=
  issue (.movk g x) g .none (fun b => perFibre (fun _ _ f => f.setX (isWide x.ty) x.d.toNat (conValue b.con)) b) s

/-- The trap of `movg` for a fibre whose index is in range (R101): the register read is poisoned (R116). -/
def movgTrap (x : RRR) (w : Wave) (f : Fibre) : Option Cause :=
  let j := x.a.toNat + (f.rv x.b.toNat).toNat
  let p := sgetD GWord.zero w.g j
  if p.poisLo || (isWide x.ty && p.poisHi) then some { kind := 0x0C, sub := 2, syn0 := 1, syn1 := BitVec.ofNat 32 j } else none

/-- The effect of `movg` (R140). -/
def movg (x : RRR) (b : Bundle) (s : State) : State :=
  match b.wave s with
  | some w =>
    let bad := b.act.filterMap (fun k => (sget k w.fibres).bind (fun f => (movgTrap x w f).map (k, ·)))
    let s := trapEach s b.wk b.here bad
    mapFibres s b.wk (others b.act bad) (fun _ f => f.setX (isWide x.ty) x.d.toNat (w.rg (x.a.toNat + (f.rv x.b.toNat).toNat)))
  | none => s

/-- MOVG (R140). -/
def execMovg (g : Guard) (x : RRR) (s : State) : Answer := issue (.movg g x) g .none (movg x) s

/-- Whether a vector operand is poisoned, and in which register. -/
def poisonedVec (f : Fibre) (r : Nat) (wide : Bool) : Option Nat := (run r (if wide then 2 else 1)).find? (fun k => f.vp k)

/-- The effect of `vtog` (R141): from the lowest passing slot. -/
def vtog (x : RRR) (b : Bundle) (s : State) : State :=
  let wd := isWide x.ty
  match b.act.head?.bind (fun k => fibreAt s b.wk k) with
  | none => s
  | some f =>
    match poisonedVec f x.a.toNat wd with
    | some r => trapAll s b.wk b.here b.act (vecPoison r)
    | none => modWave s b.wk (fun w => w.setG x.d.toNat (vecX wd x.a f))

/-- VTOG (R141). -/
def execVtog (g : Guard) (x : RRR) (s : State) : Answer := issue (.vtog g x) g .none (vtog x) s

/-- The effect of `rdsr` (R142). -/
def rdsr (x : RRR) (b : Bundle) (s : State) : State :=
  match launchOf s b.wk with
  | none => s
  | some l => perFibre (fun w slot f => f.setX (isWide x.ty) x.d.toNat (specialReg b.wk slot w f l x.a.toNat)) b s

/-- RDSR (R142). -/
def execRdsr (g : Guard) (x : RRR) (s : State) : Answer := issue (.rdsr g x) g .none (rdsr x) s
/-- WRSR (R43, R142). -/
def execWrsr (g : Guard) (x : RRR) (s : State) : Answer :=
  issue (.wrsr g x) g .none (perFibre (fun _ _ f => { f with draw := vecX (isWide x.ty) x.a f })) s
/-- STAGE (R45, R143). -/
def execStage (g : Guard) (x : RRR) (s : State) : Answer :=
  issue (.stage g x) g .none (perFibre (fun _ _ f =>
    { f with staged := ((stageRuns x).map (fun r => run r.1 r.2)).flatten.foldl (fun l r => insertNat r l) [] })) s

end Sys2Proof.Machine
end

