-- ==== Sys2Proof/Machine/Cross.lean ====
section
/-! DEFINITION. Cross-fibre instructions (R147 to R153): reads of other slots, votes, reductions, prefixes
and grouping over the participants. -/

namespace Sys2Proof.Machine

/-- What `shfl` gives a fibre: the value and its validity, or the poisoned register that it reads (R116, R148). -/
def shflRead (x : RRR) (w : Wave) (slot : Nat) (f : Fibre) : Except Nat (W64 × Bool) :=
  let wd := isWide x.ty
  match (shflSlot (x.opx &&& 3).toNat slot (srcX w f (x.usrc.getLsbD 1) false x.b).toNat).bind (fun k => sget k w.fibres) with
  | none => .ok (0, false)
  | some o =>
    match poisonedVec o x.a.toNat wd with
    | some r => .error r
    | none => .ok (vecX wd x.a o, true)

/-- The effect of `shfl` (R149). -/
def shfl (x : RRR) (b : Bundle) (s : State) : State :=
  match b.before s with
  | none => s
  | some w =>
    let bad := b.act.filterMap (fun k => (sget k w.fibres).bind (fun f =>
      match shflRead x w k f with
      | .error r => some (k, vecPoison r)
      | .ok _ => none))
    let s := trapEach s b.wk b.here bad
    mapFibres s b.wk (others b.act bad) (fun k f =>
      match shflRead x w k f with
      | .error _ => f
      | .ok (v, valid) => (f.setX (isWide x.ty) x.d.toNat v).setP (x.c.extractLsb' 0 4) valid)

/-- SHFL (R149). -/
def execShfl (g : Guard) (x : RRR) (s : State) : Answer := issue (.shfl g x) g .none (shfl x) s

/-- The participants with their fibres, ascending (R147). -/
def participants (b : Bundle) (w : Wave) : List (Nat × Fibre) := b.act.filterMap (fun k => (sget k w.fibres).map (k, ·))

/-- The effect of `vote` (R150). -/
def vote (x : RRR) (b : Bundle) (s : State) : State :=
  match b.wave s with
  | none => s
  | some w =>
    let ps := participants b w
    let p (e : Nat × Fibre) : Bool := e.2.rp (x.a.extractLsb' 0 4)
    let mode := (x.opx &&& 3).toNat
    let mask : Nat := ((ps.filter p).map (fun e => 2 ^ e.1)).sum
    let r := if mode = 0 then ps.any p else if mode = 1 then ps.all p else ps.all p || !ps.any p
    mapFibres s b.wk b.act (fun _ f =>
      if mode = 2 then f.setV x.d.toNat (BitVec.ofNat 32 mask) else f.setP (x.d.extractLsb' 0 4) r)

/-- VOTE (R150). -/
def execVote (g : Guard) (x : RRR) (s : State) : Answer := issue (.vote g x) g .none (vote x) s

/-- The operation of a reduction (R151). -/
def redOp (op : Nat) (ty : BitVec 5) (rnd : Nat) : AluOp :=
  let isF := ty == 0xB || ty == 0xA
  match op with
  | 0 => if isF then flt rnd false fAdd else opAdd false
  | 1 => if isF then flt 0 false fMin else opMin
  | 2 => if isF then flt 0 false fMax else opMax
  | 3 => opAnd
  | 4 => opOr
  | _ => opXor

/-- The identity that `lscan.excl` gives its first fibre (R152). -/
def redIdentity (op : Nat) (ty : BitVec 5) : W64 :=
  let f := fmtOf ty
  let isF := ty == 0xB || ty == 0xA
  let inf := f.inf.getD 0
  match op with
  | 1 => if isF then BitVec.ofNat 64 inf else BitVec.ofNat 64 (wrap (tyWidth ty) (intMax (isSigned ty) (tyWidth ty)))
  | 2 => if isF then BitVec.ofNat 64 (inf + 2 ^ f.mag) else BitVec.ofNat 64 (wrap (tyWidth ty) (intMin (isSigned ty) (tyWidth ty)))
  | 3 => 0xFFFFFFFFFFFFFFFF
  | _ => 0

/-- The prefixes of a sequence under an operation: element and prefix with it, in order. -/
def prefixes (op : W64 → W64 → W64) : Option W64 → List (Nat × W64) → List (Nat × Option W64 × W64)
  | _, [] => []
  | acc, (k, v) :: rest =>
    let a := match acc with | none => v | some y => op y v
    (k, acc, a) :: prefixes op (some a) rest

/-- A of a participant; a uniform register gives each the same (R84). -/
def redValue (x : RRR) (w : Wave) (f : Fibre) : W64 := srcX w f (x.usrc.getLsbD 2) (isWide x.ty) x.a

/-- The operands of a reduction over the participants. -/
def redValues (x : RRR) (w : Wave) (ps : List (Nat × Fibre)) : List (Nat × W64) := ps.map (fun e => (e.1, redValue x w e.2))

/-- The participants whose vector operand is poisoned, with the register (R116). -/
def redPoison (x : RRR) (ps : List (Nat × Fibre)) : List (Nat × Nat) :=
  if x.usrc.getLsbD 2 then [] else ps.filterMap (fun e => (poisonedVec e.2 x.a.toNat (isWide x.ty)).map (e.1, ·))

/-- The effect of `lred` (R151). -/
def lred (x : RRR) (b : Bundle) (s : State) : State :=
  match b.wave s with
  | none => s
  | some w =>
    let ps := participants b w
    match redPoison x ps with
    | (_, r) :: _ => trapAll s b.wk b.here b.act (vecPoison r)
    | [] =>
      let op := redOp (x.opx &&& 7).toNat x.ty x.rnd.toNat
      match (prefixes (fun a v => op x.ty a v 0) none (redValues x w ps)).getLast? with
      | none => s
      | some (_, _, acc) => mapFibres s b.wk b.act (fun _ f => f.setX (isWide x.ty) x.d.toNat acc)

/-- LRED (R151). -/
def execLred (g : Guard) (x : RRR) (s : State) : Answer := issue (.lred g x) g .none (lred x) s

/-- The effect of `lscan` (R152). A poisoned operand makes the fibres trap whose result depends on it. -/
def lscan (x : RRR) (b : Bundle) (s : State) : State :=
  match b.wave s with
  | none => s
  | some w =>
    let ps := participants b w
    let excl := x.opx.getLsbD 3
    let k := (x.opx &&& 7).toNat
    let op := redOp k x.ty x.rnd.toNat
    let bad := b.act.filterMap (fun y =>
      ((redPoison x ps).find? (fun p => if excl then p.1 < y else p.1 ≤ y)).map (fun p => (y, vecPoison p.2)))
    let pre := prefixes (fun a v => op x.ty a v 0) none (redValues x w ps)
    let s := trapEach s b.wk b.here bad
    mapFibres s b.wk (others b.act bad) (fun y f =>
      match pre.find? (fun e => e.1 = y) with
      | none => f
      | some (_, before, after) => f.setX (isWide x.ty) x.d.toNat (if excl then before.getD (redIdentity k x.ty) else after))

/-- LSCAN (R152). -/
def execLscan (g : Guard) (x : RRR) (s : State) : Answer := issue (.lscan g x) g .none (lscan x) s

/-- The effect of `lfind` (R153). -/
def lfind (x : RRR) (b : Bundle) (s : State) : State :=
  match b.wave s with
  | none => s
  | some w =>
    let ps := participants b w
    match redPoison x ps with
    | (_, r) :: _ => trapAll s b.wk b.here b.act (vecPoison r)
    | [] =>
      let vals := redValues x w ps
      mapFibres s b.wk b.act (fun k f =>
        let same := (vals.filter (fun e => e.2 == redValue x w f)).map (·.1)
        (f.setV x.d.toNat (BitVec.ofNat 32 ((same.map (fun j => 2 ^ j)).sum))).setP (x.c.extractLsb' 0 4) (same.head? == some k))

/-- LFIND (R153). -/
def execLfind (g : Guard) (x : RRR) (s : State) : Answer := issue (.lfind g x) g .none (lfind x) s

end Sys2Proof.Machine
end

