-- ==== Sys2Proof/Machine/Tensor.lean ====
section
/-! DEFINITION. Tensor records (R230, R231) and collective records (R237). -/

namespace Sys2Proof.Machine

/-- A tensor record: extents E0 to E4 and strides S1 to S4 (R230). -/
structure Tensor where
  rid : Nat
  base : Nat
  ext : List Nat
  stride : List Nat
  esz : Nat
  ndim : Nat
  v : Bool
  rsvd : Nat
  deriving DecidableEq, Repr

/-- Reads a tensor record from its four registers. -/
def tensorOf (ws : List W64) : Tensor :=
  let r (i : Nat) : Nat := (ws.getD i 0).toNat
  { rid := bits (r 0) 57 7, base := bits (r 0) 0 57
    ext := [bits (r 3) 52 12, bits (r 3) 42 10, bits (r 3) 34 8, bits (r 3) 28 6, bits (r 3) 22 6]
    stride := [bits (r 1) 32 32, bits (r 1) 0 32, bits (r 2) 32 32, bits (r 2) 0 32]
    esz := 2 ^ bits (r 3) 20 2, ndim := bits (r 3) 17 3, v := (r 3).testBit 16, rsvd := bits (r 3) 0 16 }

/-- Extent of dimension d, and stride of dimension d from 1. -/
def Tensor.e (t : Tensor) (d : Nat) : Nat := t.ext.getD d 0
def Tensor.s (t : Tensor) (d : Nat) : Nat := t.stride.getD (d - 1) 0

/-- Bytes of a row of dimension 0. -/
def Tensor.row (t : Tensor) : Nat := t.esz * t.e 0

/-- The byte count (R230); a record of no dimension has none. -/
def Tensor.bytes (t : Tensor) : Nat := if t.ndim = 0 then 0 else (t.ext.take t.ndim).foldl (· * ·) t.esz

/-- The virtual address of the row with a linear index. -/
def Tensor.rowVa (t : Tensor) (r : Nat) : Nat :=
  ((List.range (t.ndim - 1)).foldl (fun (p : Nat × Nat) i =>
    let d := i + 1
    (p.1 + t.s d * (p.2 % t.e d), p.2 / t.e d)) (t.base, r)).1

/-- The virtual address of byte p of the dense side. -/
def Tensor.vaOf (t : Tensor) (p : Nat) : Nat := t.rowVa (p / t.row) + p % t.row

/-- The subcode of the first check of R231 that fails. -/
def Tensor.error (t : Tensor) (written : Bool) : Option Nat :=
  let dims := (List.range 5).filter (fun d => t.ndim ≤ d)
  let inner := (List.range (t.ndim - 1)).map (· + 1)
  if !t.v || t.rsvd != 0 || dims.any (fun d => t.e d != 0 || (0 < d && t.s d != 0)) then some 1
  else if t.ndim = 0 || 5 < t.ndim then some 2
  else if t.bytes = 0 then none
  else if t.base % 16 != 0 then some 3
  else if t.row % 16 != 0 || inner.any (fun d => t.s d % 16 != 0) then some 4
  else if written && inner.any (fun d => if d = 1 then t.s 1 < t.row else t.s d < t.e (d - 1) * t.s (d - 1)) then some 5
  else none

/-- The first and last byte addresses of a tensor that has bytes. -/
def Tensor.span (t : Tensor) : Nat × Nat :=
  (t.base, ((List.range (t.ndim - 1)).map (fun i => t.s (i + 1) * (t.e (i + 1) - 1))).sum + t.base + t.row - 1)

/-- The 16-byte pieces of the dense side that fall on a line of the global side, as offsets. -/
def Tensor.piecesOn (t : Tensor) (line : Nat) : List Nat :=
  ((List.range (t.bytes / 16)).map (16 * ·)).filter (fun p => t.vaOf p / 128 = line)

/-- The lines of the global side, in order of first use. -/
def Tensor.lines (t : Tensor) : List Nat := dedup [] ((List.range (t.bytes / 16)).map (fun p => t.vaOf (16 * p) / 128))

/-! ### Collective groups (R237, R476) -/

/-- Source, destination, element count, group, root, sequence number of a collective record. -/
def collSrc (c : CollOp) : W64 := c.crec.getD 0 0
def collDst (c : CollOp) : W64 := c.crec.getD 1 0
def collCount (c : CollOp) : Nat := bits (c.crec.getD 2 0).toNat 32 32
def collGroup (c : CollOp) : Nat := bits (c.crec.getD 2 0).toNat 16 16
def collRoot (c : CollOp) : Nat := bits (c.crec.getD 2 0).toNat 0 16
def collSeq (c : CollOp) : Nat := bits (c.crec.getD 3 0).toNat 32 32

/-- Bytes of an element of a collective. -/
def collSize (c : CollOp) : Nat := if c.ty == 0xA then 8 else if c.ty == 0xD then 2 else 4

/-- Bytes that a member reads and writes in a group of n (R238). -/
def collIn (c : CollOp) (n : Nat) : Nat := collSize c * collCount c * (if c.kind == 1 then n else 1)
def collOut (c : CollOp) (n : Nat) : Nat := collSize c * collCount c * (if c.kind == 2 then n else 1)

end Sys2Proof.Machine
end

