-- ==== Sys2Proof/Machine/Uniform.lean ====
section
/-! DEFINITION. The uniform family (R115, R144 to R146): performed once for a bundle, on the wave's uniform
registers. -/

namespace Sys2Proof.Machine

/-- RRR: operands of the type's width, the result extended to 64 bits (R115). -/
def ualu (x : RRR) (op : AluOp) : Bundle → State → State :=
  perWave (fun w => let wd := isWide x.ty
    w.setG x.d.toNat (extG x.ty (op x.ty (srcG w wd x.a) (srcG w wd x.b) (srcG w wd x.c))))

/-- RI: the immediate is B. -/
def ualuI (x : RI) (op : AluOp) : Bundle → State → State :=
  perWave (fun w => let ty := itypeCode x.ity
    w.setG x.d.toNat (extG ty (op ty (srcG w (isWide ty) x.a) (immValue x.ity x.imm) 0)))

/-- RK: the constant is B. -/
def ualuK (x : RK) (op : AluOp) (b : Bundle) : State → State :=
  perWave (fun w => w.setG x.d.toNat (extG x.ty (op x.ty (srcG w (isWide x.ty) x.a) (conValue b.con) 0))) b

/-- `gshr`: arithmetic for `.i` types, else logical (R144). -/
def opGshr : AluOp := fun ty a b c => if isSigned ty then opSar ty a b c else opShr ty a b c

/-- The 0 or 1 of a comparison, into g0 to g15 (R145). -/
def ucmp (d : BitVec 8) (ty : BitVec 5) (a : Wave → W64) (bv : Wave → W64) : Bundle → State → State :=
  perWave (fun w => w.setG (d.extractLsb' 0 4).toNat (if icmpHolds (d.extractLsb' 4 4).toNat ty (a w) (bv w) then 1 else 0))

/-- GADD (R144). -/
def execGadd (g : Guard) (x : RRR) (s : State) : Answer := issue (.gadd g x) g .none (ualu x (opAdd false)) s
/-- GSUB (R144). -/
def execGsub (g : Guard) (x : RRR) (s : State) : Answer := issue (.gsub g x) g .none (ualu x (opSub false)) s
/-- GMUL (R144). -/
def execGmul (g : Guard) (x : RRR) (s : State) : Answer := issue (.gmul g x) g .none (ualu x opMul) s
/-- GMIN (R144). -/
def execGmin (g : Guard) (x : RRR) (s : State) : Answer := issue (.gmin g x) g .none (ualu x opMin) s
/-- GAND (R144). -/
def execGand (g : Guard) (x : RRR) (s : State) : Answer := issue (.gand g x) g .none (ualu x opAnd) s
/-- GOR (R144). -/
def execGor (g : Guard) (x : RRR) (s : State) : Answer := issue (.gor g x) g .none (ualu x opOr) s
/-- GXOR (R144). -/
def execGxor (g : Guard) (x : RRR) (s : State) : Answer := issue (.gxor g x) g .none (ualu x opXor) s
/-- GSHL (R144). -/
def execGshl (g : Guard) (x : RRR) (s : State) : Answer := issue (.gshl g x) g .none (ualu x opShl) s
/-- GSHR (R144). -/
def execGshr (g : Guard) (x : RRR) (s : State) : Answer := issue (.gshr g x) g .none (ualu x opGshr) s
/-- GCMP (R145). -/
def execGcmp (g : Guard) (x : RRR) (s : State) : Answer :=
  issue (.gcmp g x) g .none (ucmp x.d x.ty (fun w => srcG w (isWide x.ty) x.a) (fun w => srcG w (isWide x.ty) x.b)) s
/-- GSEL (R145). -/
def execGsel (g : Guard) (x : RRR) (s : State) : Answer :=
  issue (.gsel g x) g .none (perWave (fun w =>
    w.setG x.d.toNat (if w.rg x.c.toNat != 0 then w.rg x.a.toNat else w.rg x.b.toNat))) s
/-- GMOV (R144). -/
def execGmov (g : Guard) (x : RRR) (s : State) : Answer := issue (.gmov g x) g .none (ualu x (fun _ a _ _ => a)) s
/-- GLEA (R144). -/
def execGlea (g : Guard) (x : RRR) (s : State) : Answer :=
  issue (.glea g x) g .none (perWave (fun w =>
    w.setG x.d.toNat (leaValue x.ty (x.opx.extractLsb' 0 6).toNat (w.rg x.a.toNat) (w.rg x.b.toNat)))) s
/-- GADD_RI (R144). -/
def execGaddRi (g : Guard) (x : RI) (s : State) : Answer := issue (.gaddRi g x) g .none (ualuI x (opAdd false)) s
/-- GAND_RI (R144). -/
def execGandRi (g : Guard) (x : RI) (s : State) : Answer := issue (.gandRi g x) g .none (ualuI x opAnd) s
/-- GOR_RI (R144). -/
def execGorRi (g : Guard) (x : RI) (s : State) : Answer := issue (.gorRi g x) g .none (ualuI x opOr) s
/-- GXOR_RI (R144). -/
def execGxorRi (g : Guard) (x : RI) (s : State) : Answer := issue (.gxorRi g x) g .none (ualuI x opXor) s
/-- GSHL_RI (R144). -/
def execGshlRi (g : Guard) (x : RI) (s : State) : Answer := issue (.gshlRi g x) g .none (ualuI x opShl) s
/-- GSHR_RI (R144). -/
def execGshrRi (g : Guard) (x : RI) (s : State) : Answer := issue (.gshrRi g x) g .none (ualuI x opGshr) s
/-- GCMP_RI (R145). -/
def execGcmpRi (g : Guard) (x : RI) (s : State) : Answer :=
  issue (.gcmpRi g x) g .none
    (ucmp x.d (itypeCode x.ity) (fun w => srcG w (isWide (itypeCode x.ity)) x.a) (fun _ => immValue x.ity x.imm)) s
/-- GMOV_RI (R144). -/
def execGmovRi (g : Guard) (x : RI) (s : State) : Answer := issue (.gmovRi g x) g .none (ualuI x (fun _ _ b _ => b)) s
/-- GADD_RK (R144). -/
def execGaddRk (g : Guard) (x : RK) (s : State) : Answer := issue (.gaddRk g x) g .none (ualuK x (opAdd false)) s
/-- GCMP_RK (R145). -/
def execGcmpRk (g : Guard) (x : RK) (s : State) : Answer :=
  issue (.gcmpRk g x) g .none (fun b => ucmp x.d x.ty (fun w => srcG w (isWide x.ty) x.a) (fun _ => conValue b.con) b) s
/-- GMOV_RK (R144). -/
def execGmovRk (g : Guard) (x : RK) (s : State) : Answer := issue (.gmovRk g x) g .none (ualuK x (fun _ _ b _ => b)) s

/-- A word of a list of 32-bit words, as a uniform register. -/
def gwordAt (ws : List W32) (i : Nat) : GWord := { val := ws.getD (2 * i + 1) 0 ++ ws.getD (2 * i) 0, poisLo := false, poisHi := false }

/-- The effect of `gld` (R146): its registers are written at completion. -/
def gld (x : RK) (b : Bundle) (s : State) : State :=
  if b.act.isEmpty then s else startOp s b (.gld x.d.toNat ((List.range 4).map (gwordAt b.con)))

/-- GLD (R146). -/
def execGld (g : Guard) (x : RK) (s : State) : Answer := issue (.gld g x) g .none (gld x) s

end Sys2Proof.Machine
end

