-- ==== Sys2Proof/Machine/MemCore.lean ====
section
/-! DEFINITION. The memory unit: forming an access (R154, R155), performing loads, stores, atomics and
reductions on memory and on the stash (R160 to R170, R178, R180), the Silt log (R171, R172, R336), accesses
held on translation, and barrier objects (R190, R191, R196). -/

namespace Sys2Proof.Machine

/-! ### Buffer records -/

/-- A buffer record (R154). -/
structure Buf where
  rid : Nat
  base : Nat
  stride : Nat
  extent : Nat
  swz : Nat
  esize : Nat
  at' : Bool
  wr : Bool
  rd : Bool
  valid : Bool
  deriving DecidableEq, Repr

/-- Reads a record from its four registers; `valid` is check 0x01 of R156. -/
def bufOf (ws : List W64) : Buf :=
  let r (i : Nat) : Nat := (ws.getD i 0).toNat
  { rid := bits (r 0) 57 7, base := bits (r 0) 0 57, stride := bits (r 1) 32 32, extent := bits (r 1) 0 32,
    swz := bits (r 2) 16 2, esize := bits (r 2) 0 16, at' := (r 3).testBit 3, wr := (r 3).testBit 2, rd := (r 3).testBit 1,
    valid := (r 3).testBit 0 && bits (r 3) 4 60 = 0 && bits (r 2) 18 46 = 0 && bits (r 2) 0 16 != 0 && bits (r 2) 16 2 != 3 }

/-- The swizzle of an offset (R155). -/
def swizzle (swz o : Nat) : Nat :=
  if swz = 1 then Nat.xor o (bits o 7 3 * 16) else if swz = 2 then Nat.xor o (bits o 8 4 * 16) else o

/-- The byte addresses of an access, or the subkind of the check that fails with its address (R155). -/
def formVas (b : Buf) (re : RegionEntry) (index off fld len : Nat) : Except (BitVec 16 × W64) (List Nat) :=
  let i := index + off
  let o := i * b.stride + 4 * fld
  if b.extent ≤ i || b.esize < 4 * fld + len then .error (3, 0)
  else if o % min len 16 != 0 then .error (4, 0)
  else
    let vas := (List.range len).map (fun k => b.base + swizzle b.swz (o + k))
    match vas.find? (fun v => 2 ^ 57 ≤ v || !inRegion re v 1) with
    | some v => .error (5, if v < 2 ^ 57 then BitVec.ofNat 64 (b.rid * 2 ^ 57 + v) else 0)
    | none => .ok vas

/-! ### The stash (R164, R393) -/

/-- The stash allocation of a workgroup of a launch (R393). -/
def stashSize (l : Launch) : Nat :=
  let p := 4 * l.payw
  let n := l.wgsz.foldl (· * ·) 1
  if p ≤ 64 then l.stash else l.stash + 128 * ceilDiv ((p - 64) * n) 128

/-- The span of the stash of a gang (R164). -/
def stashSpan (s : State) (gk : Nat) : Nat :=
  match sget (gk / 2 ^ 32) s.launches with
  | some l => membersOf l (gk % 2 ^ 32) * stashSize l
  | none => 0

/-- The bytes a mapped window covers (R178). -/
def Window.size (w : Window) : Nat := 4096 * 2 ^ w.c

/-- The mapped window that a stash address lies in. -/
def winAt (g : Gang) (a : Nat) : Option (Nat × Window) := g.windows.find? (fun e => e.2.stash ≤ a && a < e.2.stash + e.2.size)

/-- Changes a window of a gang. -/
def modWin (s : State) (gk wn : Nat) (f : Window → Window) : State :=
  modGang s gk (fun g => { g with windows := smod wn f g.windows })

/-- Copies a line of memory into the stash, poison with it, and marks the window's line. -/
def takeLine (s : State) (gk wn line pa : Nat) (id : Option Nat) (writable : Bool) : State :=
  modGang s gk (fun g =>
    match sget wn g.windows with
    | none => g
    | some w =>
      let base := w.stash + 128 * line
      let bad (k : Nat) : Bool := s.memPois.contains ((pa + k) / 64)
      { g with
        stash := (List.range 128).foldl (fun m k => sputD 0 (base + k) (pByte s (pa + k)) m) g.stash
        stashPois := poisUnits 8 g.stashPois ((List.range 128).map (fun k => (base + k, bad k)))
        windows := sput wn { w with lines := sput line (id, writable, false) w.lines } g.windows })

/-- Fills a line of a window (R178, R180). A write takes the line for itself: every copy is recalled. A line of a cell that is
not materialised is read from the base, whose address it then keeps, so that a write of the base recalls it (R304); a
write makes it a line of the cell. A line that an engine owns is waited for (R297). -/
def fillLine (s : State) (core : Option Nat) (ag : Agent) (gk wn line : Nat) (write : Bool) : State × Except (Nat × Miss) Unit :=
  match (sget gk s.gangs).bind (fun g => sget wn g.windows) with
  | none => (s, .ok ())
  | some w =>
    let va := ptrVa w.ptr + 128 * line
    let cur := sget line w.lines
    if cellOwned s ag.op w.ctx w.tag.toNat [va] || memOwned s ag.op (cur.bind (·.1)).toList then (s, .error (va, none))
    else if cur.isSome && (!write || (cur.map (·.2.1)).getD false) then (s, .ok ())
    else
      match translate s core w.ctx va (if write then .both else .read) with
      | (s, .error m) => (s, .error (va, m))
      | (s, .ok (pte, pa)) =>
        if pte.testBit 63 && w.tag != 0 then
          match snoopCell s w.ctx va w.tag.toNat write with
          | (s, .error m) => (s, .error (va, m))
          | (s, .ok ()) =>
            let src := match cellFind s w.ctx (va / 4096) w.tag.toNat with
              | .found _ f => (f + va % 4096, none)
              | .absent _ => (pa, if write then none else some pa)
            if memOwned s ag.op [src.1] then (s, .error (va, none))
            else (takeLine (if src.1 = pa then snoopLine s pa false else s) gk wn line src.1 src.2 write, .ok ())
        else
          if memOwned s ag.op [pa] then (s, .error (va, none))
          else (takeLine (snoopLine s pa write) gk wn line pa (some pa) write, .ok ())

/-- Fills the window lines that some stash bytes lie in. -/
def fillAll (s : State) (core : Option Nat) (ag : Agent) (gk : Nat) (write : Bool) : List Nat → State × Except (Nat × Nat × Miss) Unit
  | [] => (s, .ok ())
  | a :: rest =>
    match (sget gk s.gangs).bind (fun g => winAt g a) with
    | none => fillAll s core ag gk write rest
    | some (wn, w) =>
      match fillLine s core ag gk wn ((a - w.stash) / 128) write with
      | (s, .error (va, m)) => (s, .error (ptrRid w.ptr, va, m))
      | (s, .ok ()) => fillAll s core ag gk write rest

/-- Whether the window lines under some stash bytes are all present and may be written. -/
def Gang.writable (g : Gang) (as : List Nat) : Bool :=
  as.all (fun a => (winAt g a).all (fun w => (sget ((a - w.2.stash) / 128) w.2.lines).any (·.2.1)))

/-- The global addresses of the stash bytes that lie in windows (R178). -/
def Gang.under (g : Gang) (as : List Nat) : List Nat :=
  as.filterMap (fun a => (winAt g a).map (fun w => ptrVa w.2.ptr + (a - w.2.stash)))

/-- A byte of the stash with its poison. -/
def stashByte (g : Gang) (a : Nat) : Byte × Bool := (sgetD 0 g.stash a, g.stashPois.contains (a / 8))

/-- Writes a byte of the stash; a line of a window becomes dirty. -/
def Gang.putByte (g : Gang) (a : Nat) (b : Byte) : Gang :=
  let g := { g with stash := sputD 0 a b g.stash }
  match winAt g a with
  | none => g
  | some (wn, w) =>
    { g with windows := sput wn { w with lines := smod ((a - w.stash) / 128) (fun x => (x.1, x.2.1, true)) w.lines } g.windows }

/-- Writes bytes of the stash, each with its poison. -/
def Gang.putCells (g : Gang) (cells : List (Nat × Byte × Bool)) : Gang :=
  let g := cells.foldl (fun g c => g.putByte c.1 c.2.1) g
  { g with stashPois := poisUnits 8 g.stashPois (cells.map (fun c => (c.1, c.2.2))) }

/-- Writes a number into plain stash bytes. -/
def stashWr (s : State) (gk a n x : Nat) : State :=
  modGang s gk (fun g => g.putCells ((addrs a n).zip ((toBytesLE n x).map (·, false))))

/-- A number from stash bytes. -/
def stashRd (s : State) (gk a n : Nat) : Nat :=
  match sget gk s.gangs with
  | none => 0
  | some g => fromBytesLE ((addrs a n).map (sgetD 0 g.stash))

/-! ### Barrier objects (R190, R191, R196) -/

/-- What `wait.ph` finds for a phase: none while it waits, else whether it was lapped (R196). -/
def phaseDone (cur k : Nat) : Option Bool :=
  let d := (cur + 2 ^ 16 - k) % 2 ^ 16
  if d = 0 || 2 ^ 15 < d then none else some (2 ≤ d)

/-- Wakes the fibres of a gang whose phase has ended. -/
def wakeBars (s : State) (gk : Nat) : State :=
  (wavesOf s gk).foldl (fun s wk => modWave s wk (fun w => { w with fibres := w.fibres.map (fun e =>
    match e.2.blocked with
    | some (.waitPh obj k pd) =>
      match phaseDone (stashRd s gk (obj + 12) 2) k.toNat with
      | some lapped => (e.1, (e.2.resume false).setP pd lapped)
      | none => e
    | _ => e) })) s

/-- A barrier object as numbers: VALID and OVF, phase, byte count and target, arrivals and target (R190). -/
structure Bar where
  valid : Bool
  ovf : Bool
  phase : Nat
  bcount : Nat
  btarget : Nat
  acount : Nat
  atarget : Nat
  deriving DecidableEq, Repr

def Bar.read (s : State) (gk a : Nat) : Bar :=
  let x := stashRd s gk a 16
  { valid := x.testBit 112, ovf := x.testBit 114, phase := bits x 96 16, bcount := bits x 64 32, btarget := bits x 32 32,
    acount := bits x 16 16, atarget := bits x 0 16 }

/-- A barrier object as a change of it stores it: reserved bits that an `sts` set are cleared (DESIGN CHOICE, log 32). -/
def Bar.write (b : Bar) (s : State) (gk a : Nat) : State :=
  stashWr s gk a 16 (bit b.ovf 114 + bit b.valid 112 + b.phase * 2 ^ 96 + b.bcount * 2 ^ 64 + b.btarget * 2 ^ 32
    + b.acount * 2 ^ 16 + b.atarget)

/-- The step after every arrival and credit (R191). -/
def Bar.step (b : Bar) : Bar :=
  if b.atarget ≤ b.acount && b.btarget ≤ b.bcount then
    { b with ovf := b.ovf || b.btarget < b.bcount, phase := (b.phase + 1) % 2 ^ 16, acount := 0, bcount := 0, btarget := 0 }
  else b

/-- Adds expected bytes; a sum above 2^32 - 1 saturates and sets OVF (R193, R194). -/
def Bar.expect (b : Bar) (n : Nat) : Bar :=
  if 2 ^ 32 ≤ b.btarget + n then { b with btarget := 2 ^ 32 - 1, ovf := true } else { b with btarget := b.btarget + n }

/-- One arrival, with the step (R193). ACOUNT has 16 bits, and one arrival too many wraps it (DESIGN CHOICE, log 32). -/
def Bar.arrive (b : Bar) : Bar := { b with acount := (b.acount + 1) % 2 ^ 16 }.step

/-- A credit of bytes, with the step (R191). -/
def Bar.credit (b : Bar) (n : Nat) : Bar :=
  (if 2 ^ 32 ≤ b.bcount + n then { b with bcount := 2 ^ 32 - 1, ovf := true } else { b with bcount := b.bcount + n }).step

/-- Credits a barrier object and wakes its waiters. -/
def creditBar (s : State) (gk a n : Nat) : State := wakeBars (((Bar.read s gk a).credit n).write s gk a) gk

/-! ### The Silt log (R171, R336) -/

/-- The byte addresses an entry writes: those of its mask, or, for a reduction, those of its location, which may run past
the end of the 64-byte block. -/
def SiltEntry.vas (e : SiltEntry) : List Nat :=
  if e.kred then addrs e.addr (tyBytes e.ty)
  else ((List.range 64).filter (fun i => e.mask.getLsbD i)).map (64 * (e.addr / 64) + ·)

/-- Whether an entry writes a byte of a page. -/
def SiltEntry.onPage (e : SiltEntry) (vpn : Nat) : Bool := e.vas.any (fun v => v / 4096 = vpn)

/-- Whether an access's bytes overlap an entry's. -/
def SiltEntry.overlaps (e : SiltEntry) (ctx : Nat) (vas : List Nat) : Bool := e.ctx = ctx && vas.any (fun v => e.vas.contains v)

/-- Whether an access of a core overlaps an entry of its log (R172). -/
def siltOverlap (s : State) (core ctx : Nat) (vas : List Nat) : Bool := (coreOf s core).silt.any (fun e => e.overlaps ctx vas)

/-- Whether a write must enter the log because of an entry in it (R171). -/
def mustFollow (s : State) (core wk : Nat) (slots : List Nat) (ctx : Nat) (vas : List Nat) : Bool :=
  (coreOf s core).silt.any (fun e => e.overlaps ctx vas
    || (e.wave = wk && e.ctx = ctx && e.slots.any (fun x => slots.contains x) && vas.any (fun v => e.onPage (v / 4096))))

/-- Entries that a log holds (R171). A log may list more after a restore: those from here on still stand in
the save area (R416). -/
def siltSize : Nat := 512

/-- The next PSEQ of some fibres of a wave for the page of an address: the place among the entries that the log lists of
them for that page, counted from 0 (R336; DEDUCED, log 34). -/
def nextSeq (c : Core) (wk : Nat) (slots : List Nat) (va : Nat) : Nat :=
  c.silt.foldl (fun m e =>
    if e.wave = wk && e.slots.any (fun x => slots.contains x) && e.onPage (va / 4096) then max m (e.pseq + 1) else m) 0

/-- A 64-byte-aligned block from its bytes: mask and data. -/
def blockOf (vas : List Nat) (data : List Byte) : BitVec 64 × BitVec 512 :=
  let cells := (vas.zip data).foldl (fun m p => sput (p.1 % 64) p.2 m) ([] : Sparse Byte)
  (BitVec.ofNat 64 ((cells.map (fun c => 2 ^ c.1)).sum), BitVec.ofNat 512 ((cells.map (fun c => c.2.toNat * 2 ^ (8 * c.1))).sum))

/-- The entry of a write of some fibres' accesses to one block, `a` the lowest slot's. -/
def entryOf (s : State) (wk : Nat) (grp : List Access) (a : Access) (vas : List Nat) (data : List Byte) (pois : Bool) : SiltEntry :=
  let w := sget wk s.waves
  let f := a.slot |> fun x => fibreAt s wk x
  let blk := blockOf vas data
  { wave := wk, slots := grp.map (·.slot), infos := grp.map (fun x => (x.slot, x.buf, x.syn0, x.syn1)), ctx := a.ctx, launch := (w.map (·.launch)).getD 0, wg := (w.map (·.wg)).getD 0,
    lfi := (f.map (·.lfi)).getD 0, tag := BitVec.ofNat 12 a.tag, pc := a.pc, rid := a.rid, addr := vas.headD 0, mask := blk.1,
    data := blk.2, pois := pois, kred := a.kind == .red, rop := a.aop, ty := a.ty, scope := a.scope,
    pseq := nextSeq (coreOf s (coreNo wk)) wk (grp.map (·.slot)) (vas.headD 0), rel := a.rel }

/-- Adds an entry, if there is room. -/
def enterLog (s : State) (core : Nat) (e : SiltEntry) : Option State :=
  if (coreOf s core).silt.length < siltSize then some (modCore s core (fun c => { c with silt := c.silt ++ [e] })) else none

/-! ### Values -/

/-- The bytes of value `v` of an access. -/
def Access.part {α : Type} (a : Access) (l : List α) (v : Nat) : List α := (l.drop (v * a.w)).take a.w

/-- A loaded value as it stands in its register or pair: sub-words extended by the type (R158). -/
def loadedValue (ty : BitVec 5) (w : Nat) (bs : List Byte) : W64 :=
  BitVec.ofNat 64 (wrap (if w = 8 then 64 else 32) (toInt (isSigned ty) (8 * w) (fromBytesLE bs)))

/-- What a register or pair takes of a value. -/
def giveValue (slot reg w : Nat) (v : W64) (pois : Bool) : List Delivery :=
  { slot := slot, reg := reg, val := v.extractLsb' 0 32, pois := pois }
    :: (if w = 8 then [{ slot := slot, reg := reg + 1, val := v.extractLsb' 32 32, pois := pois }] else [])

/-- What a load gives its registers (R162, R163). -/
def Access.give (a : Access) (bs : List (Byte × Bool)) : List Delivery :=
  ((List.range a.n).map (fun v =>
    let p := a.part bs v
    giveValue a.slot (a.reg + v * (if a.w = 8 then 2 else 1)) a.w (loadedValue a.ty a.w (p.map (·.1))) (p.any (·.2)))).flatten

/-- What `rsvld` gives its register. -/
def Access.giveQ (a : Access) (bs : List (Byte × Bool)) : QDelivery :=
  { slot := a.slot, reg := a.reg
    val := { val := BitVec.ofNat 128 (fromBytesLE (bs.map (·.1)))
             pois := BitVec.ofNat 4 (((List.range 4).map (fun i => bit (((bs.drop (4 * i)).take 4).any (·.2)) i)).sum) } }

/-! ### Performing accesses -/

/-- What one try of an access comes to. -/
inductive Try (α : Type) where
  | done (v : α)
  | held
  | fail (sub : BitVec 16) (addr : W64)

/-- The pointer of an address of a region. -/
def pointer (rid va : Nat) : W64 := BitVec.ofNat 64 (rid * 2 ^ 57 + va)

/-- Bytes of memory, each with its poison. -/
def bytesAt (s : State) (pas : List Nat) : State × List (Byte × Bool) :=
  let s := snoop s pas false
  (s, pas.map (fun a => (pByte s a, s.memPois.contains (a / 64))))

/-- Bytes through the constant cache, line by line (R167). -/
def constBytes (s : State) (core ctx rid : Nat) : List Nat → State × Try (List (Byte × Bool))
  | [] => (s, .done [])
  | va :: rest =>
    match conLineP s core ctx rid va with
    | (s, .error (some sub)) => (s, .fail sub (pointer rid va))
    | (s, .error none) => (s, .held)
    | (s, .ok b) =>
      match constBytes s core ctx rid rest with
      | (s, .done bs) => (s, .done (b :: bs))
      | r => r
where
  /-- A byte of a line; a poisoned line is not kept. -/
  conLineP (s : State) (core ctx rid va : Nat) : State × Except (Option (BitVec 16)) (Byte × Bool) :=
    match conLine s core ctx rid va with
    | (s, .ok data) => (s, .ok (data.getD (va % 128) 0, false))
    | (s, .error (.fail sub _)) => (s, .error (some sub))
    | (s, .error (.poison _)) =>
      match translate s (some core) ctx va .read with
      | (s, .ok (_, pa)) => (s, .ok (cByte s pa, s.memPois.contains (pa / 64)))
      | (s, .error _) => (s, .error none)
    | (s, .error _) => (s, .error none)

/-- Sends the report of an access's miss, unless one for the page has been sent for it that Loam has not answered (R333). -/
def tell (s : State) (a : Access) (core acc rid va : Nat) (m : Miss) : State :=
  if a.told.contains (va / 4096) then s else reportMiss s a.ctx core 0 acc rid va m

/-- An access with the pages of the reports that its instruction has sent between two states: one request serves every
fibre that names the page (R159). -/
def Access.held (a : Access) (before after : State) : Access :=
  { a with told := a.told ++ (after.reports.drop before.reports.length).map (·.va / 4096) }

/-! ### What an access waits for in its own fibre (R160, R287, R288, R292) -/

/-- Whether an operation in flight keeps a later access of its fibre to some bytes from being performed: an `ldmc` of those
bytes that has not been read, a `rast` that stores there, or an `rqpop`, which is an acquire. -/
def OpKind.precedes (slots : List Nat) (stash : Bool) (vas : List Nat) : OpKind → Bool
  | .ldmc accs held _ _ _ got =>
    !stash && (accs ++ held).any (fun a => slots.contains a.slot && a.unread got && a.va.any (fun v => vas.contains v))
  | .gfx _ _ done _ => stash && done.any (fun r => slots.contains r.slot && r.cells.any (fun c => vas.contains c.1))
  | .rqpop _ _ _ _ l => l.any (fun x => slots.contains x)
  | _ => false

/-- Whether a release of one of some slots stands in the core's Silt log: an acquire follows it (R292). -/
def relLogged (s : State) (core wk : Nat) (slots : List Nat) : Bool :=
  (coreOf s core).silt.any (fun e => e.rel && e.wave = wk && e.slots.any (fun x => slots.contains x))

/-- Whether an access of some slots of a wave waits for an earlier one of its own fibre. -/
def behind (s : State) (core wk : Nat) (slots : List Nat) (a : Access) : Bool :=
  (opsOf s wk).any (OpKind.precedes slots a.stash a.va) || (a.acq && relLogged s core wk slots)

/-- Whether an access of some slots to stash bytes waits because of the global bytes under them: an entry of the log
overlaps them (R172), or an earlier access of its own fibre does. -/
def underHeld (s : State) (core wk gk : Nat) (slots : List Nat) (a : Access) : Bool :=
  (sget gk s.gangs).any (fun g =>
    siltOverlap s core a.ctx (g.under a.va) || (opsOf s wk).any (OpKind.precedes slots false (g.under a.va)))

/-- A load of any kind: its bytes. -/
def tryLoad (s : State) (core wk gk : Nat) (a : Access) : State × Try (List (Byte × Bool)) :=
  if behind s core wk [a.slot] a then (s, .held)
  else if a.stash then
    if a.va.any (stashOwned s gk none) then (s, .held) else
    match fillAll s (some core) { core := core } gk false a.va with
    | (s, .error (rid, va, m)) => (tell s a core 0 rid va m, .held)
    | (s, .ok ()) =>
      match sget gk s.gangs with
      | none => (s, .held)
      | some g => if underHeld s core wk gk [a.slot] a then (s, .held) else (s, .done (a.va.map (stashByte g)))
  else if a.kind == .const then constBytes s core a.ctx a.rid a.va
  else if siltOverlap s core a.ctx a.va then (s, .held)
  else
    match physical s (some core) a.ctx .read false a.tag { core := core } a.rid a.va with
    | (s, .error (va, m)) => (tell s a core 0 a.rid va m, .held)
    | (s, .ok pas) =>
      if reachesOwned s none a.ctx a.tag a.va pas then (s, .held)
      else
        let r := bytesAt s pas
        (r.1, .done r.2)

/-- The parts of a write that fall in one 64-byte block each, in ascending address order (R171). -/
def Access.blocks (a : Access) : List (List Nat × List Byte × Bool) :=
  let keys := ((a.va.map (· / 64)).foldl (fun l k => insertNat k l) [])
  let cells := a.va.zip (a.data.zip a.pois)
  keys.map (fun k =>
    let c := cells.filter (fun e => e.1 / 64 = k)
    (c.map (·.1), c.map (·.2.1), c.any (·.2.2)))

/-- Performs a write of bytes of an access at memory; an error of none is a line that an engine owns. -/
def putBytes (s : State) (core : Option Nat) (a : Access) (vas : List Nat) (data : List Byte) (pois : Bool) :
    State × Except (Option (Nat × Miss)) Unit :=
  match physical s core a.ctx .write (a.sel == .own) a.tag { core := core.getD 0 } a.rid vas with
  | (s, .error e) => (s, .error (some e))
  | (s, .ok pas) => if reachesOwned s none a.ctx a.tag vas pas then (s, .error none) else (writeBytes s (pas.zip data) pois, .ok ())

/-- Performs a store block by block: each at once, or as an entry of the log. What is left when the log is
full is answered as an access still held. -/
def storeBlocks (s : State) (core wk : Nat) (a : Access) : List (List Nat × List Byte × Bool) → State × Option Access
  | [] => (s, none)
  | (vas, data, pois) :: rest =>
    let left : Access := { a with va := vas ++ (rest.map (·.1)).flatten, data := data ++ (rest.map (·.2.1)).flatten
                                  pois := vas.map (fun _ => pois) ++ (rest.map (fun r => r.1.map (fun _ => r.2.2))).flatten }
    let log (s : State) : Option State := enterLog s core (entryOf s wk [a] a vas data pois)
    if mustFollow s core wk [a.slot] a.ctx vas then
      match log s with
      | some s => storeBlocks s core wk a rest
      | none => (s, some left)
    else
      match putBytes s (some core) a vas data pois with
      | (s, .ok ()) => storeBlocks s core wk a rest
      | (s, .error none) => (s, some left)
      | (s, .error (some (va, m))) =>
        match log s with
        | some s => storeBlocks (tell s a core 1 a.rid va m) core wk a rest
        | none => (s, some left)

/-- Bytes for the stash, in parts that fall in one line each. -/
def byLine (cells : List (Nat × Byte × Bool)) : List (List (Nat × Byte × Bool)) :=
  (dedup [] (cells.map (·.1 / 128))).map (fun l => cells.filter (fun c => c.1 / 128 = l))

/-- Stores parts of the stash in order, each to a line that is filled for it; or the miss of a line that cannot be filled,
with what is left. -/
def putLines (s : State) (core : Option Nat) (ag : Agent) (gk : Nat) :
    List (List (Nat × Byte × Bool)) → State × Option ((Nat × Nat × Miss) × List (Nat × Byte × Bool))
  | [] => (s, none)
  | c :: rest =>
    match fillAll s core ag gk true (c.map (·.1)) with
    | (s, .error e) => (s, some (e, c ++ rest.flatten))
    | (s, .ok ()) => putLines (modGang s gk (fun g => g.putCells c)) core ag gk rest

/-- Stores bytes of the stash whose lines have been filled. Where filling one line has recalled another, because two windows
hold one global line, the lines are stored one after the other. -/
def putStash (s : State) (core : Option Nat) (ag : Agent) (gk : Nat) (cells : List (Nat × Byte × Bool)) :
    State × Option ((Nat × Nat × Miss) × List (Nat × Byte × Bool)) :=
  let r := if (sget gk s.gangs).all (fun g => g.writable (cells.map (·.1))) then (modGang s gk (fun g => g.putCells cells), none)
    else putLines s core ag gk (byLine cells)
  (wakeBars r.1 gk, r.2)

/-- A store of any kind; an access still held is answered. -/
def tryStore (s : State) (core wk gk : Nat) (a : Access) : State × Option Access :=
  if behind s core wk [a.slot] a then (s, some a)
  else if a.stash then
    if a.va.any (stashOwned s gk none) then (s, some a) else
    match fillAll s (some core) { core := core } gk true a.va with
    | (s, .error (rid, va, m)) => (tell s a core 1 rid va m, some a)
    | (s, .ok ()) =>
      if underHeld s core wk gk [a.slot] a then (s, some a)
      else
        match putStash s (some core) { core := core } gk (a.va.zip (a.data.zip a.pois)) with
        | (s, none) => (s, none)
        | (s, some ((rid, va, m), l)) =>
          (tell s a core 1 rid va m, some { a with va := l.map (·.1), data := l.map (·.2.1), pois := l.map (·.2.2) })
  else storeBlocks s core wk a a.blocks

/-! ### Atomics and reductions (R168, R169) -/

/-- The operation of R168 on memory's value and an operand. -/
def atomComb (op : BitVec 4) (ty : BitVec 5) (m x : W64) : W64 :=
  if op == 6 then x else redOp op.toNat ty 0 ty m x 0

/-- The new value at the location and the old value that each of a group's fibres gets, in slot order. -/
def atomGroup (op : BitVec 4) (ty : BitVec 5) (m : W64) (xs : List (W64 × W64)) : W64 × List W64 :=
  if op == 7 then
    xs.foldl (fun acc p =>
      let eq := nval ty acc.1 = nval ty p.1
      (if eq then p.2 else acc.1, acc.2 ++ [acc.1])) (m, [])
  else if op == 6 then
    xs.foldl (fun acc p => (p.1, acc.2 ++ [acc.1])) (m, [])
  else
    let pre := prefixes (fun a v => atomComb op ty a v) none (xs.map (fun p => (0, p.1)))
    ((pre.getLast?.map (fun p => atomComb op ty m p.2.2)).getD m,
      pre.map (fun p => match p.2.1 with | none => m | some y => atomComb op ty m y))

/-- The combined operand P_n of a group (R169). -/
def groupOperand (op : BitVec 4) (ty : BitVec 5) (xs : List W64) : W64 :=
  ((prefixes (fun a v => atomComb op ty a v) none (xs.map (fun x => (0, x)))).getLast?.map (·.2.2)).getD 0

/-- The key by which fibres' atomics name one location: the address, and the tag, which chooses the cell, unless the page
has a usable leaf that does not tag it (R161). -/
def atomKey (s : State) (a : Access) : Nat × Nat :=
  (a.va.headD 0, if a.stash || isUntagged s a.ctx (a.va.headD 0) then 0 else a.tag)

/-- The groups of one instruction's atomics, each in slot order (R169). -/
def atomGroups (s : State) (accs : List Access) : List (List Access) :=
  accs.foldl (fun gs a =>
    if gs.any (fun g => g.any (fun x => atomKey s x == atomKey s a)) then
      gs.map (fun g => if g.any (fun x => atomKey s x == atomKey s a) then g ++ [a] else g)
    else gs ++ [[a]]) []

/-- The event of a reduction that met poison and was discarded (R466, R467). -/
def discarded (s : State) (a : Access) (addr : Nat) : State :=
  if a.kind == .red then supPost s { SupEvent.zero s 0x06 with cause := 1, ctx := a.ctx, pc := a.pc, addr := BitVec.ofNat 64 addr } else s

/-- The bytes that a group leaves at its location, and what its fibres get; poison goes with an old value (R466). -/
def groupResult (a : Access) (grp : List Access) (bs : List (Byte × Bool)) : List Byte × Bool × List Delivery :=
  let m : W64 := BitVec.ofNat 64 (fromBytesLE (bs.map (·.1)))
  let p := bs.any (·.2)
  let r := atomGroup a.aop a.ty m (grp.map (fun x => (x.x, x.y)))
  (toBytesLE a.w r.1.toNat, p, ((grp.zip r.2).map (fun z => giveValue z.1.slot z.1.reg a.w z.2 p)).flatten)

/-- Performs a group at its location: what its fibres get. Poisoned memory is left as it is (R466). An error of none is
a line that an engine owns. -/
def performGroup (s : State) (core : Option Nat) (gk : Nat) (a : Access) (grp : List Access) :
    State × Except (Option (Nat × Nat × Miss)) (List Delivery) :=
  if a.stash then
    if a.va.any (stashOwned s gk none) then (s, .error none) else
    match fillAll s core { core := core.getD 0 } gk true a.va with
    | (s, .error e) => (s, .error (some e))
    | (s, .ok ()) =>
      match sget gk s.gangs with
      | none => (s, .ok [])
      | some g =>
        let r := groupResult a grp (a.va.map (stashByte g))
        if r.2.1 then (discarded s a (a.va.headD 0 / 8 * 8), .ok r.2.2)
        else (wakeBars (modGang s gk (fun g => g.putCells (a.va.zip (r.1.map (·, false))))) gk, .ok r.2.2)
  else
    match physical s core a.ctx (if a.kind == .red then .write else .both) (a.sel == .own) a.tag { core := core.getD 0 } a.rid a.va with
    | (s, .error (va, m)) => (s, .error (some (a.rid, va, m)))
    | (s, .ok pas) =>
      if reachesOwned s none a.ctx a.tag a.va pas then (s, .error none)
      else
        let b := bytesAt s pas
        let r := groupResult a grp b.2
        if r.2.1 then (discarded b.1 a (pas.headD 0 / 64 * 64), .ok r.2.2)
        else (writeBytes b.1 (pas.zip r.1) false, .ok r.2.2)

/-- The value width mask of an access's operand, as bytes. -/
def operandBytes (w : Nat) (x : W64) : List Byte := toBytesLE w x.toNat

/-- Tries the groups of an atomic or a reduction, `seen` being the pages that its instruction has reported: deliveries, and
the accesses still held. -/
def tryGroups (s : State) (core wk gk : Nat) (seen : List Nat) : List (List Access) → State × List Delivery × List Access
  | [] => (s, [], [])
  | grp :: rest =>
    match grp.head? with
    | none => tryGroups s core wk gk seen rest
    | some a =>
      let slots := grp.map (·.slot)
      let red := a.kind == .red && !a.stash
      let enter (s : State) : Option State :=
        enterLog s core (entryOf s wk grp a a.va (operandBytes a.w (groupOperand a.aop a.ty (grp.map (·.x)))) false)
      let next (r : State × List Delivery × List Access) (give : List Delivery) (held : List Access) :
          State × List Delivery × List Access := (r.1, give ++ r.2.1, held ++ r.2.2)
      if behind s core wk slots a || (a.stash && underHeld s core wk gk slots a) then
        next (tryGroups s core wk gk seen rest) [] grp
      else if !a.stash && (if red then mustFollow s core wk slots a.ctx a.va else siltOverlap s core a.ctx a.va) then
        match (if red then enter s else none) with
        | some s => tryGroups s core wk gk seen rest
        | none => next (tryGroups s core wk gk seen rest) [] grp
      else
        match performGroup s (some core) gk a grp with
        | (s, .ok give) => next (tryGroups s core wk gk seen rest) give []
        | (s, .error none) => next (tryGroups s core wk gk seen rest) [] grp
        | (s, .error (some (rid, va, m))) =>
          let s0 := s
          let s := tell s { a with told := a.told ++ seen } core 2 rid va m
          let seen := seen ++ (s.reports.drop s0.reports.length).map (·.va / 4096)
          match (if red then enter s else none) with
          | some s => tryGroups s core wk gk seen rest
          | none => next (tryGroups s core wk gk seen rest) [] (grp.map (fun a => { a with told := a.told ++ seen }))

/-! ### The accesses of one operation -/

/-- What trying the accesses of an operation gives: deliveries, accesses still held, and those that trap. -/
structure Tried where
  st : State
  give : List Delivery := []
  giveQ : List QDelivery := []
  held : List Access := []
  bad : List (Access × BitVec 16 × W64) := []

/-- Whether an access touches a byte of one of some accesses. -/
def Access.meets (a : Access) (l : List Access) : Bool := l.any (fun h => h.stash == a.stash && a.va.any (fun v => h.va.contains v))

/-- Tries the accesses of an operation, which are all of one kind, in slot order. A store of a higher slot to bytes of one
that is held is held too: the highest slot's value stands (R160). -/
def tryAccesses (s : State) (core wk gk : Nat) (accs : List Access) : Tried :=
  match accs.head?.map Access.kind with
  | none => { st := s }
  | some .atom | some .red =>
    let r := tryGroups s core wk gk [] (atomGroups s accs)
    { st := r.1, give := r.2.1, held := r.2.2 }
  | some .store =>
    accs.foldl (fun t a =>
      if a.meets t.held then { t with held := t.held ++ [a] }
      else
        let r := tryStore t.st core wk gk (a.held s t.st)
        { t with st := r.1, held := t.held ++ r.2.toList.map (·.held t.st r.1) }) { st := s }
  | some .load | some .const =>
    accs.foldl (fun t a =>
      let a := a.held s t.st
      match tryLoad t.st core wk gk a with
      | (s, .held) => { t with st := s, held := t.held ++ [a.held t.st s] }
      | (s, .fail sub addr) => { t with st := s, bad := t.bad ++ [(a, sub, addr)] }
      | (s, .done bs) =>
        if a.isQ then { t with st := s, giveQ := t.giveQ ++ [a.giveQ bs] } else { t with st := s, give := t.give ++ a.give bs }) { st := s }

/-- ACC of a fault record (R424). -/
def Access.acc (a : Access) : BitVec 8 :=
  if a.stash then 4 else match a.kind with | .load => 0 | .const => 0 | .store => 1 | .atom => 2 | .red => 3

/-- The trap of an access with a subkind of R156. -/
def Access.cause (a : Access) (sub : BitVec 16) (addr : W64) : Cause :=
  { kind := 3, sub := sub, addr := addr, buf := a.buf, acc := a.acc, syn0 := a.syn0, syn1 := a.syn1 }

/-- Holds the fibres of accesses on an operation. -/
def holdOn (s : State) (b : Bundle) (op : Nat) (accs : List Access) : State :=
  accs.foldl (fun s a => block s b.wk a.slot b.pc b.place (.mem op)) s

/-- Starts an operation for the accesses of a bundle, tries them, holds what must wait and traps what fails. -/
def startAccesses (s : State) (b : Bundle) (accs : List Access) : State :=
  let n := s.nextOp
  let stores := accs.all (fun a => a.kind == .store || a.kind == .red)
  let mk (t : Tried) : OpKind := if stores then .store t.held else .load t.give t.giveQ t.held
  let t := tryAccesses s (coreNo b.wk) b.wk (gangOf s b.wk) accs
  let s := holdOn (startOp { t.st with nextOp := n } b (mk t)) b n t.held
  trapEach s b.wk b.here (t.bad.map (fun p => (p.1.slot, p.1.cause p.2.1 p.2.2)))

/-- Lets go the fibres that an operation held and that it no longer holds. -/
def letGo (s : State) (wk op : Nat) (was now : List Nat) : State :=
  mapFibres s wk (was.filter (fun x => !now.contains x)) (fun _ f => if f.blocked = some (.mem op) then f.resume true else f)

/-- Tries the held accesses of an operation again. -/
def retryOp (s : State) (n : Nat) : State :=
  match sget n s.ops with
  | none => s
  | some o =>
    let gk := gangOf s o.wave
    let go (held : List Access) (put : Tried → OpKind) : State :=
      if held.isEmpty then s else
      let t := tryAccesses s o.core o.wave gk held
      let s := { t.st with ops := smod n (fun o => { o with kind := put t }) t.st.ops }
      let s := letGo s o.wave n (held.map (·.slot)) (t.held.map (·.slot) ++ t.bad.map (·.1.slot))
      trapEach s o.wave { pc := o.pc, place := some o.place, ll := true } (t.bad.map (fun p => (p.1.slot, p.1.cause p.2.1 p.2.2)))
    match o.kind with
    | .load give giveQ held => go held (fun t => .load (give ++ t.give) (giveQ ++ t.giveQ) t.held)
    | .store held => go held (fun t => .store t.held)
    | _ => s

/-! ### Replay (R171) -/

/-- Whether an entry must follow an earlier one of its log: same fibre and page, or overlapping bytes. -/
def mustWait (e earlier : SiltEntry) : Bool :=
  earlier.overlaps e.ctx e.vas
    || (earlier.wave = e.wave && earlier.ctx = e.ctx && earlier.slots.any (fun x => e.slots.contains x)
      && earlier.vas.any (fun v => e.onPage (v / 4096)))

/-- The entry at a place of a log, if it follows none of those that entered before it (R171). -/
def freeEntryAt (log : List SiltEntry) (i : Nat) : Option SiltEntry :=
  ((log.take siltSize)[i]?).filter (fun e => !(log.take i).any (mustWait e))

/-- The access of an entry. -/
def SiltEntry.access (e : SiltEntry) : Access :=
  let vas := e.vas
  let data := vas.map (fun v => e.data.extractLsb' (8 * (v % 64)) 8)
  { kind := if e.kred then .red else .store, stash := false, slot := 0, ctx := e.ctx, rid := e.rid, sel := .own, tag := e.tag.toNat,
    va := vas, reg := 0, isQ := false, n := 1, w := vas.length, ty := e.ty, data := data, pois := vas.map (fun _ => e.pois),
    aop := e.rop, x := BitVec.ofNat 64 (fromBytesLE data), y := 0, scope := e.scope, pc := e.pc, buf := 0xFF, syn0 := 0, syn1 := 0
    rel := e.rel }

/-- Performs an entry's access at memory; a miss sends a report. -/
def replayEntry (s : State) (core : Nat) (e : SiltEntry) : State × Bool :=
  let a := e.access
  let r : State × Except (Option (Nat × Nat × Miss)) Unit :=
    if e.kred then
      match performGroup s (some core) 0 a [a] with
      | (s, .ok _) => (s, .ok ())
      | (s, .error x) => (s, .error x)
    else
      match putBytes s (some core) a a.va a.data e.pois with
      | (s, .ok ()) => (s, .ok ())
      | (s, .error x) => (s, .error (x.map (fun y => (e.rid, y.1, y.2))))
  match r with
  | (s, .ok ()) => (s, true)
  | (s, .error none) => (s, false)
  | (s, .error (some (rid, va, m))) => (reportMiss s e.ctx core 0 (if e.kred then 2 else 1) rid va m, false)

/-- Tries again what the operations of a core, or of every core, hold. -/
def retryAll (s : State) (only : Option Nat) : State :=
  (skeys (s.ops.filter (fun e => only.all (fun c => e.2.core = c)))).foldl retryOp s

end Sys2Proof.Machine
end

