-- ==== Sys2Proof/Machine/MemInstr.lean ====
section
/-! DEFINITION. The instructions of the memory unit, opcodes 0x80 to 0x8F (R154 to R181). -/

namespace Sys2Proof.Machine

/-! ### Accesses of a bundle -/

/-- An access of a fibre with everything but what it does there. -/
def accessOf (s : State) (b : Bundle) (slot : Nat) (f : Fibre) (kind : AccKind) : Access :=
  { kind := kind, stash := false, slot := slot, ctx := ctxOf s b.wk, rid := 0, sel := .own, tag := f.ct.toNat, va := [], reg := 0,
    isQ := false, n := 1, w := 1, ty := 0, data := [], pois := [], aop := 0, x := 0, y := 0, scope := 0, pc := b.pc, buf := 0xFF,
    syn0 := 0, syn1 := 0 }

/-- Whether a kind of access reads, and whether it writes. -/
def AccKind.reads : AccKind → Bool | .store => false | _ => true
def AccKind.writes : AccKind → Bool | .load => false | .const => false | _ => true

/-- What becomes of a fibre of a bundle that forms an access: the access, a trap, or a watch stop. -/
inductive Formed where
  | go (a : Access)
  | bad (slot : Nat) (c : Cause)
  | stop (slot : Nat) (d k : Nat) (addr : W64)

/-- Lets a debugger's watch ranges stop an access (R457). -/
def Formed.watch (s : State) (b : Bundle) (x : Formed) : Formed :=
  match x with
  | .go a =>
    if a.stash || b.waived.contains a.slot then x
    else
      match (debugSlot s a.ctx).bind (fun d => (watchAt s d a.rid a.va a.kind.reads a.kind.writes).map (d, ·)) with
      | some (d, k, va) => .stop a.slot d k (pointer a.rid va)
      | none => x
  | x => x

/-- Traps and stops the fibres that go no further; the accesses of the others. -/
def settle (s : State) (b : Bundle) (l : List Formed) : State × List Access :=
  let l := l.map (Formed.watch s b)
  (l.foldl (fun s x => match x with
    | .go _ => s
    | .bad slot c => trap s b.wk slot b.here c
    | .stop slot d k addr => uncount (stopFibre s b.wk slot b.here d 3 (BitVec.ofNat 8 k) addr 0) b.wk slot) s,
   l.filterMap (fun x => match x with | .go a => some a | _ => none))

/-- Stops the fibres of a bundle whose instruction, as a whole, would make an access that a debugger watches; `hit` says which
range of a debug slot it meets (R457). The bundle of the fibres that go on. -/
def watchBundle (s : State) (b : Bundle) (hit : Nat → Option (Nat × W64)) : State × Bundle :=
  match (debugSlot s (ctxOf s b.wk)).bind (fun d => (hit d).map (d, ·)) with
  | some (d, k, addr) => (watchStops s b (others b.act (b.waived.map (·, ()))) d k addr, { b with act := b.act.filter b.waived.contains })
  | none => (s, b)

/-- A watch range of a debug slot that bytes of a region meet, with the first pointer that does. -/
def watchHit (s : State) (rid : Nat) (vas : List Nat) (write : Bool) (d : Nat) : Option (Nat × W64) :=
  (watchAt s d rid vas (!write) write).map (fun h => (h.1, pointer rid h.2))

/-- What an instruction's accesses through a buffer record have in common: the record's number k, OFF, FLD, the
index register, the bytes of each access, the kind, ACC, the permission, and the subkinds of R156 that trap. -/
structure Plan where
  k : Nat
  off : Nat
  fld : Nat := 0
  idx : Nat
  len : Nat
  kind : AccKind
  acc : BitVec 8
  can : Buf → Bool

/-- Forms the accesses of a bundle through a buffer record (R155, R156). `mk` says what the access does, or why it
traps. -/
def viaBuffer (s : State) (b : Bundle) (p : Plan) (mk : Fibre → Access → Except Cause Access) : State × List Access :=
  let buf := bufOf (b.rec4 s p.k)
  let i (f : Fibre) : Nat := (f.rv p.idx).toNat + p.off
  let cause (f : Fibre) (sub : BitVec 16) (addr : W64) : Cause :=
    { kind := 3, sub := sub, addr := addr, buf := BitVec.ofNat 8 p.k, acc := p.acc, syn0 := BitVec.ofNat 32 (i f),
      syn1 := BitVec.ofNat 32 buf.extent }
  let fibs := b.act.filterMap (fun x => (fibreAt s b.wk x).map (x, ·))
  if !buf.valid then settle s b (fibs.map (fun z => .bad z.1 (cause z.2 1 0)))
  else if !p.can buf then settle s b (fibs.map (fun z => .bad z.1 (cause z.2 2 0)))
  else
    let re := regionOf s (some (coreNo b.wk)) (ctxOf s b.wk) buf.rid
    settle re.1 b (fibs.map (fun z =>
      match formVas buf re.2 (z.2.rv p.idx).toNat p.off p.fld p.len with
      | .error (sub, addr) => .bad z.1 (cause z.2 sub addr)
      | .ok vas =>
        match mk z.2 { accessOf s b z.1 z.2 p.kind with
                       rid := buf.rid, va := vas, buf := BitVec.ofNat 8 p.k, syn0 := BitVec.ofNat 32 (i z.2),
                       syn1 := BitVec.ofNat 32 buf.extent } with
        | .ok a => .go a
        | .error c => .bad z.1 c))

/-- Forms the accesses of a bundle to the stash at register `idx` plus an offset (R164). A write to a window with
WR = 0 traps every fibre of the bundle (R156, R180); `atom.s` and `red.s` write too, so they trap alike (DEDUCED, log 32). -/
def viaStash (s : State) (b : Bundle) (idx off len : Nat) (kind : AccKind) (mk : Fibre → Access → Access) : State × List Access :=
  let gk := gangOf s b.wk
  let span := stashSpan s gk
  let fibs := b.act.filterMap (fun x => (fibreAt s b.wk x).map (x, ·))
  let barred := kind.writes && fibs.any (fun z => (addrs ((z.2.rv idx).toNat + off) len).any (fun x =>
    (((sget gk s.gangs).bind (fun g => winAt g x)).map (fun w => !w.2.wr)).getD false))
  settle s b (fibs.map (fun z =>
    let a := (z.2.rv idx).toNat + off
    let cause (sub : BitVec 16) : Cause :=
      { kind := 3, sub := sub, acc := 4, syn0 := BitVec.ofNat 32 a, syn1 := BitVec.ofNat 32 span }
    if barred then .bad z.1 (cause 2)
    else if a % min len 16 != 0 then .bad z.1 (cause 4)
    else if span < a + len then .bad z.1 (cause 6)
    else .go (mk z.2 { accessOf s b z.1 z.2 kind with
                       stash := true, va := addrs a len, syn0 := BitVec.ofNat 32 a, syn1 := BitVec.ofNat 32 span })))

/-- Starts the operation of the accesses formed. -/
def startFormed (b : Bundle) (r : State × List Access) : State := startAccesses r.1 b r.2

/-- Value count and width of a load or store (R158). -/
def vecOf (x : MEM) : Nat := 2 ^ (x.mopx &&& 7).toNat

/-- Registers of one value. -/
def regsOf (w : Nat) : Nat := if w = 8 then 2 else 1

/-- The bytes that a store takes from registers, with their poison (R158, R162). -/
def storeData (f : Fibre) (reg n w : Nat) : List Byte × List Bool :=
  let parts := (List.range n).map (fun v =>
    let r := reg + v * regsOf w
    if w = 8 then
      (toBytesLE 8 (f.rv2 r).toNat, List.replicate 4 (f.vp r) ++ List.replicate 4 (f.vp (r + 1)))
    else (toBytesLE w (f.rv r).toNat, List.replicate w (f.vp r)))
  ((parts.map (·.1)).flatten, (parts.map (·.2)).flatten)

/-- An access with the order of its instruction (R82). -/
def withOrder (x : MEM) (a : Access) : Access := { a with acq := x.ord == 6 || x.ord == 8, rel := x.ord == 7 || x.ord == 8 }

/-- A load's access into registers. -/
def loadInto (x : MEM) (n : Nat) (a : Access) : Access :=
  withOrder x { a with reg := x.data.toNat, n := n, w := tyBytes x.ty, ty := x.ty, scope := x.scope }

/-- A store's access from registers. -/
def storeFrom (x : MEM) (n : Nat) (f : Fibre) (a : Access) : Access :=
  let d := storeData f x.data.toNat n (tyBytes x.ty)
  withOrder x { a with n := n, w := tyBytes x.ty, ty := x.ty, scope := x.scope, data := d.1, pois := d.2 }

/-- `ld` and `ldk` (R163, R167). -/
def loadBody (x : MEM) (kind : AccKind) (b : Bundle) (s : State) : State :=
  startFormed b (viaBuffer s b
    { k := x.buf.toNat, off := x.off.toNat, fld := (x.mopx >>> 3).toNat, idx := x.idx.toNat, len := vecOf x * tyBytes x.ty,
      kind := kind, acc := 0, can := fun r => r.rd } (fun _ a => .ok (loadInto x (vecOf x) a)))

/-- LD (R163). -/
def execLd (g : Guard) (x : MEM) (s : State) : Answer := issue (.ld g x) g .none (loadBody x .load) s
/-- LDK (R167). -/
def execLdk (g : Guard) (x : MEM) (s : State) : Answer := issue (.ldk g x) g .none (loadBody x .const) s

/-- `st` (R163). -/
def storeBody (x : MEM) (b : Bundle) (s : State) : State :=
  startFormed b (viaBuffer s b
    { k := x.buf.toNat, off := x.off.toNat, fld := (x.mopx >>> 3).toNat, idx := x.idx.toNat, len := vecOf x * tyBytes x.ty,
      kind := .store, acc := 1, can := fun r => r.wr } (fun f a => .ok (storeFrom x (vecOf x) f a)))

/-- Whether an order is a release, as the way its fibres wait. -/
def relOf (ord : BitVec 4) (as : Rel) : Rel := if ord == 7 || ord == 8 then as else .none

/-- ST (R163). -/
def execSt (g : Guard) (x : MEM) (s : State) : Answer := issue (.st g x) g (relOf x.ord .each) (storeBody x) s

/-- `lds` (R164). -/
def ldsBody (x : MEM) (b : Bundle) (s : State) : State :=
  let w := tyBytes x.ty
  startFormed b (viaStash s b x.idx.toNat (x.off.toNat * w) (vecOf x * w) .load (fun _ a => loadInto x (vecOf x) a))
/-- LDS (R164). -/
def execLds (g : Guard) (x : MEM) (s : State) : Answer := issue (.lds g x) g .none (ldsBody x) s

/-- `sts` (R164). -/
def stsBody (x : MEM) (b : Bundle) (s : State) : State :=
  let w := tyBytes x.ty
  startFormed b (viaStash s b x.idx.toNat (x.off.toNat * w) (vecOf x * w) .store (storeFrom x (vecOf x)))
/-- STS (R164). -/
def execSts (g : Guard) (x : MEM) (s : State) : Answer := issue (.sts g x) g (relOf x.ord .each) (stsBody x) s

/-- The tag that a fibre names in a register, or the trap of a value above 4,095 (R165, R251). -/
def namedTag (f : Fibre) (reg : Nat) (a : Access) : Except Cause Access :=
  let t := f.rv reg
  if 4096 ≤ t.toNat then .error { kind := 3, sub := 9, addr := pointer a.rid (a.va.headD 0), buf := a.buf, acc := 0, syn0 := a.syn0, syn1 := t }
  else .ok { a with sel := .named, tag := t.toNat }

/-- `ldx` (R165). -/
def ldxBody (x : MEM) (b : Bundle) (s : State) : State :=
  startFormed b (viaBuffer s b
    { k := x.buf.toNat, off := x.off.toNat, idx := x.idx.toNat, len := tyBytes x.ty, kind := .load, acc := 0,
      can := fun r => r.rd } (fun f a => (namedTag f x.mopx.toNat a).map (loadInto x 1)))
/-- LDX (R165). -/
def execLdx (g : Guard) (x : MEM) (s : State) : Answer := issue (.ldx g x) g .none (ldxBody x) s

/-! ### Atomics and reductions (R168 to R170) -/

/-- An atomic's or reduction's access. -/
def atomFrom (x : MEM) (f : Fibre) (a : Access) : Access :=
  let wd := isWide x.ty
  let r := x.data.toNat
  withOrder x { a with
    reg := r, w := tyBytes x.ty, ty := x.ty, scope := x.scope, aop := x.mopx.extractLsb' 0 4
    x := if wd then f.rv2 r else (f.rv r).setWidth 64
    y := if wd then f.rv2 (r + 2) else (f.rv (r + 1)).setWidth 64 }

/-- `atom` and `red`. -/
def atomBody (x : MEM) (kind : AccKind) (b : Bundle) (s : State) : State :=
  let w := tyBytes x.ty
  startFormed b
    (if x.mopx.getLsbD 7 then viaStash s b x.idx.toNat (x.off.toNat * w) w kind (atomFrom x)
     else viaBuffer s b { k := x.buf.toNat, off := x.off.toNat, idx := x.idx.toNat, len := w, kind := kind,
                          acc := if kind == .atom then 2 else 3, can := fun r => r.at' } (fun f a => .ok (atomFrom x f a)))

/-- ATOM (R168). -/
def execAtom (g : Guard) (x : MEM) (s : State) : Answer := issue (.atom g x) g (relOf x.ord .bundle) (atomBody x .atom) s
/-- RED (R168). -/
def execRedI (g : Guard) (x : MEM) (s : State) : Answer := issue (.redI g x) g (relOf x.ord .bundle) (atomBody x .red) s

/-! ### Fence and cache control (R173 to R177) -/

/-- The fibres wait until the fence completes. -/
def fenceBody (b : Bundle) (s : State) : State := b.act.foldl (fun s x => block s b.wk x b.pc b.place .fence) s
/-- FENCE (R173). -/
def execFence (g : Guard) (x : MEM) (s : State) : Answer := issue (.fence g x) g (relOf x.ord .each) fenceBody s

/-- The lines that the fibres of a bundle name, each with the fibre's tag. -/
def linesOf (accs : List Access) : List (Nat × Nat) := accs.map (fun a => let v := a.va.headD 0; (v - v % 128, a.tag))

/-- Forms the one-byte addresses of a line instruction, which no watch range covers: it neither reads nor writes. -/
def viaLine (x : MEM) (b : Bundle) (s : State) : State × List Access :=
  viaBuffer s { b with waived := b.act }
    { k := x.buf.toNat, off := x.off.toNat, idx := x.idx.toNat, len := 1, kind := .load, acc := 0, can := fun r => r.rd }
    (fun _ a => .ok a)

/-- `cflush`: its lines are flushed at completion. -/
def cflushBody (x : MEM) (b : Bundle) (s : State) : State :=
  let r := viaLine x b s
  startOp r.1 b (.cflush (linesOf r.2))
/-- CFLUSH (R174). -/
def execCflush (g : Guard) (x : MEM) (s : State) : Answer := issue (.cflush g x) g .none (cflushBody x) s

/-- `cinv.k`. -/
def cinvKBody (x : MEM) (b : Bundle) (s : State) : State :=
  let r := viaLine x b s
  startOp r.1 b (.cinvLines (dedup [] ((linesOf r.2).map (·.1))))
/-- CINV_K (R176). -/
def execCinvK (g : Guard) (x : MEM) (s : State) : Answer := issue (.cinvK g x) g .none (cinvKBody x) s

/-- Starts an operation that acts once for its bundle, if a fibre passes the guard. -/
def startOnce (kind : OpKind) (b : Bundle) (s : State) : State := if b.act.isEmpty then s else startOp s b kind
/-- CINV_KALL (R176). -/
def execCinvKall (g : Guard) (x : MEM) (s : State) : Answer := issue (.cinvKall g x) g .none (startOnce .cinvAll) s

/-- `cinv.l1`. -/
def cinvL1Body (x : MEM) (b : Bundle) (s : State) : State := startOp (viaLine x b s).1 b .cinvL1
/-- CINV_L1 (R176). -/
def execCinvL1 (g : Guard) (x : MEM) (s : State) : Answer := issue (.cinvL1 g x) g .none (cinvL1Body x) s
/-- ICINV (R177). -/
def execIcinv (g : Guard) (x : MEM) (s : State) : Answer :=
  issue (.icinv g x) g .none (startOnce (.icinv (x.mopx.extractLsb' 0 2))) s

/-- `pref`: only an invalid record traps (R175). -/
def prefBody (x : MEM) (b : Bundle) (s : State) : State :=
  if (bufOf (b.rec4 s x.buf.toNat)).valid then startOnce .pref b s else startOp (viaLine x b s).1 b .pref
/-- PREF (R175). -/
def execPref (g : Guard) (x : MEM) (s : State) : Answer := issue (.pref g x) g .none (prefBody x) s

/-! ### Stash-mapped windows (R178 to R181) -/

/-- The windows of a gang that are mapped or that an `smap` in flight is mapping, another number than `n`. -/
def otherWins (s : State) (gk n : Nat) : List Window :=
  ((((sget gk s.gangs).map (fun g => g.windows)).getD []).filter (fun e => e.1 != n)).map (·.2)
    ++ s.ops.filterMap (fun e => if gangOf s e.2.wave = gk then
        (match e.2.kind with | .smap m w => if m = n then none else some w | _ => none) else none)

/-- The window that `smap` maps, or the check that fails (R156, R179). -/
def smapWin (s : State) (b : Bundle) (x : MEM) (f : Fibre) (buf : Buf) (re : RegionEntry) : Except (BitVec 16 × W64) Window :=
  let gk := gangOf s b.wk
  let c := bits x.mopx.toNat 3 4
  let size := 4096 * 2 ^ c
  let st := (f.rv x.data.toNat).toNat
  let off := ((f.rv x.idx.toNat).toNat + x.off.toNat) * buf.stride
  let va := buf.base + off
  if !buf.valid || buf.swz != 0 then .error (1, 0)
  else if !buf.rd then .error (2, 0)
  else if buf.extent * buf.stride < off + size then .error (3, 0)
  else if st % 128 != 0 || va % 128 != 0 then .error (4, 0)
  else if 2 ^ 57 < va + size || !inRegion re va size then .error (5, if va < 2 ^ 57 then pointer buf.rid va else 0)
  else if stashSpan s gk < st + size then .error (6, 0)
  else if (otherWins s gk (bits x.mopx.toNat 0 3)).any (fun w => w.stash < st + size && st < w.stash + w.size) then .error (7, 0)
  else .ok { stash := st, c := c, ptr := pointer buf.rid va, tag := f.ct, ctx := ctxOf s b.wk, wr := buf.wr, lines := [] }

/-- `smap`: operands of the lowest slot that passes; the window is installed at completion. Its tag is held from here until the
window is unmapped (R252). -/
def smapBody (x : MEM) (b : Bundle) (s : State) : State :=
  match b.act.head?.bind (fun k => fibreAt s b.wk k) with
  | none => s
  | some f =>
    match [x.data.toNat, x.idx.toNat].find? f.vp with
    | some r => trapAll s b.wk b.here b.act (vecPoison r)
    | none =>
      let buf := bufOf (b.rec4 s x.buf.toNat)
      let re := regionOf s (some (coreNo b.wk)) (ctxOf s b.wk) buf.rid
      match smapWin s b x f buf re.2 with
      | .error (sub, addr) =>
        let i := (f.rv x.idx.toNat).toNat + x.off.toNat
        trapAll re.1 b.wk b.here b.act
          { kind := 3, sub := sub, addr := addr, buf := BitVec.ofNat 8 x.buf.toNat, acc := 4
            syn0 := if sub = 6 || sub = 7 then f.rv x.data.toNat else BitVec.ofNat 32 i
            syn1 := BitVec.ofNat 32 (if sub = 6 || sub = 7 then stashSpan s (gangOf s b.wk) else buf.extent) }
      | .ok w => tagHold (startOp re.1 b (.smap (bits x.mopx.toNat 0 3) w)) w.ctx w.tag.toNat
/-- SMAP (R179). -/
def execSmap (g : Guard) (x : MEM) (s : State) : Answer := issue (.smap g x) g .none (smapBody x) s
/-- SMAP_UNMAP (R179). -/
def execSmapUnmap (g : Guard) (x : MEM) (s : State) : Answer :=
  issue (.smapUnmap g x) g .none (startOnce (.smapUnmap (bits x.mopx.toNat 0 3))) s
/-- SWB (R181). -/
def execSwb (g : Guard) (x : MEM) (s : State) : Answer :=
  issue (.swb g x) g .none (startOnce (.swb (some (bits x.mopx.toNat 0 3)))) s
/-- SWB_ALL (R181). -/
def execSwbAll (g : Guard) (x : MEM) (s : State) : Answer := issue (.swbAll g x) g .none (startOnce (.swb none)) s

/-! ### Multicast load (R166) -/

/-- Whether an operation in flight is an acquire of a fibre (R288). -/
def OpKind.bars (slot : Nat) : OpKind → Bool
  | .rqpop _ _ _ _ l => l.contains slot
  | _ => false

/-- What one try of an access of `ldmc` comes to: its physical addresses. -/
def tryMulticast (s : State) (core wk : Nat) (a : Access) : State × Try (List Nat) :=
  if siltOverlap s core a.ctx a.va || (opsOf s wk).any (OpKind.bars a.slot) then (s, .held)
  else
    match physical s (some core) a.ctx .read false 0 { core := core } a.rid a.va with
    | (s, .error (va, m)) => (tell s a core 0 a.rid va m, .held)
    | (s, .ok pas) =>
      match a.va.find? (isTagged s a.ctx) with
      | some va => (s, .fail 0x0B (pointer a.rid va))
      | none => (s, .done pas)

/-- Tries accesses of `ldmc`: those translated, at their physical addresses, those held, and those that trap. -/
def tryMulticasts (s : State) (core wk : Nat) (accs : List Access) :
    State × List Access × List Access × List (Access × BitVec 16 × W64) :=
  accs.foldl (fun t a =>
    let a := a.held s t.1
    match tryMulticast t.1 core wk a with
    | (s, .held) => (s, t.2.1, t.2.2.1 ++ [a.held t.1 s], t.2.2.2)
    | (s, .fail sub addr) => (s, t.2.1, t.2.2.1, t.2.2.2 ++ [(a, sub, addr)])
    | (s, .done pas) => (s, t.2.1 ++ [{ a with pa := pas }], t.2.2.1, t.2.2.2)) (s, [], [], [])

/-- The physical lines of accesses. -/
def mcLines (accs : List Access) : List Nat := dedup [] (accs.map (fun a => a.pa.map (fun v => v - v % 128))).flatten

/-- `ldmc`. -/
def ldmcBody (x : MEM) (b : Bundle) (s : State) : State :=
  let core := coreNo b.wk
  let mask : BitVec 16 := (b.g s (x.mopx &&& 0x7F).toNat).extractLsb' 0 16
  let n := 2 ^ x.scope.toNat
  let r := viaBuffer s b
    { k := x.buf.toNat, off := x.off.toNat, idx := x.idx.toNat, len := n * tyBytes x.ty, kind := .load, acc := 0,
      can := fun r => r.rd } (fun _ a =>
        if mask.getLsbD (core % 16) then .ok { loadInto x n a with scope := 0 }
        else .error { kind := 3, sub := 8, buf := a.buf, acc := 0, syn0 := a.syn0, syn1 := a.syn1 })
  let t := tryMulticasts r.1 core b.wk r.2
  let op := t.1.nextOp
  let s := holdOn (startOp t.1 b (.ldmc t.2.1 t.2.2.1 mask (mcLines t.2.1) [] [])) b op t.2.2.1
  trapEach s b.wk b.here (t.2.2.2.map (fun p => (p.1.slot, p.1.cause p.2.1 p.2.2)))
/-- LDMC (R166). -/
def execLdmc (g : Guard) (x : MEM) (s : State) : Answer := issue (.ldmc g x) g .none (ldmcBody x) s

/-- Tries the held accesses of an `ldmc` again. -/
def retryMulticast (s : State) (n : Nat) : State :=
  match sget n s.ops with
  | none => s
  | some o =>
    match o.kind with
    | .ldmc accs held mask ask sent got =>
      if held.isEmpty then s else
      let t := tryMulticasts s o.core o.wave held
      let ask := ask ++ (mcLines t.2.1).filter (fun l => !(ask ++ sent).contains l)
      let s := modOp t.1 n (fun o => { o with kind := .ldmc (accs ++ t.2.1) t.2.2.1 mask ask sent got })
      let s := letGo s o.wave n (held.map (·.slot)) (t.2.2.1.map (·.slot) ++ t.2.2.2.map (·.1.slot))
      trapEach s o.wave { pc := o.pc, place := some o.place, ll := true } (t.2.2.2.map (fun p => (p.1.slot, p.1.cause p.2.1 p.2.2)))
    | _ => s

end Sys2Proof.Machine
end

