-- ==== Sys2Proof/Machine/Reservoir.lean ====
section
/-! DEFINITION. The reservoir instructions, opcodes 0xD8 to 0xDE (R239 to R251). -/

namespace Sys2Proof.Machine

/-! ### The register and the draw (R239, R240) -/

/-- The fields of a reservoir register (R239). -/
structure Rsv where
  fin : Bool
  msat : Bool
  badw : Bool
  m : Nat
  wsum : W32
  phat : W32
  y : W32
  deriving DecidableEq, Repr

/-- Reads a register; the reserved bits are ignored. -/
def rsvOf (q : BitVec 128) : Rsv :=
  { fin := q.getLsbD 122, msat := q.getLsbD 121, badw := q.getLsbD 120, m := bits q.toNat 96 24, wsum := q.extractLsb' 64 32,
    phat := q.extractLsb' 32 32, y := q.extractLsb' 0 32 }

/-- A register's bits; the reserved bits are 0. -/
def Rsv.pack (r : Rsv) : BitVec 128 :=
  BitVec.ofNat 32 (bit r.fin 26 + bit r.msat 25 + bit r.badw 24 + bits r.m 0 24) ++ r.wsum ++ r.phat ++ r.y

/-- A reservoir of a fibre. -/
def Fibre.rsv (f : Fibre) (r : BitVec 3) : Rsv := rsvOf (f.rq r.toNat).val

/-- Writes a reservoir; the words of `kept` keep their poison, the others lose it (R37). -/
def Fibre.setRsv (f : Fibre) (r : BitVec 3) (x : Rsv) (kept : BitVec 4) : Fibre :=
  f.setQ r.toNat { val := x.pack, pois := (f.rq r.toNat).pois &&& kept }

/-- h of the draw (R240). -/
def drawHash (seed lfid n : W64) : W64 :=
  let h := seed ^^^ (lfid * 0x9E6C63D0676A9A99) ^^^ (n * 0xD6E8FEB86659FD93)
  let h := (h ^^^ (h >>> 31)) * 0xA8B32C5E7F419D07
  let h := (h ^^^ (h >>> 27)) * 0xF1357AEA2E62A9C5
  h ^^^ (h >>> 33)

/-- The logical id of a fibre (R31). -/
def logicalId (w : Wave) (f : Fibre) : W64 := BitVec.ofNat 64 (w.wg * 2 ^ 32 + f.lfi.toNat)

/-- A fibre's draw: h[63:40]. -/
def drawOf (s : State) (w : Wave) (f : Fibre) : Nat :=
  let seed := ((sget w.launch s.launches).map (·.seed)).getD 0
  bits (drawHash seed (logicalId w f) f.draw).toNat 40 24

/-- u of a draw. -/
def drawU (h : Nat) : Flt := .fin false h (-24)

/-- The draw counter after a draw. -/
def Fibre.drawn (f : Fibre) : Fibre := { f with draw := f.draw + 1 }

/-! ### Arithmetic (R241) -/

/-- An f32 word as a value. -/
def rsvVal (x : W32) : Flt := fmt32.value x.toNat
/-- A sum and a quotient, each rounded once to nearest. -/
def rsvAdd (a b : W32) : W32 := BitVec.ofNat 32 (fmt32.addBits .near false a.toNat b.toNat)
def rsvDiv (a b : W32) : W32 := BitVec.ofNat 32 (fmt32.divBits .near false a.toNat b.toNat)
def rsvMul (a b : W32) : W32 := BitVec.ofNat 32 (fmt32.mulBits .near false a.toNat b.toNat)

/-- A weight as it is taken: a NaN, an infinity, a zero or a negative one is bad and counts as +0 (R246). -/
def rsvWeight (w : W32) : W32 × Bool :=
  match rsvVal w with
  | .fin false m _ => if m = 0 then (0, true) else (w, false)
  | _ => (0, true)

/-- Whether a candidate of weight w replaces the sample, by the new weight sum (R246). -/
def rsvReplaces (h : Nat) (wsum w : W32) : Bool :=
  Flt.cmp (fmt32.value (fmt32.pack .near (Flt.mul (drawU h) (rsvVal wsum)))) (rsvVal w) == some .lt

/-- The words whose poison stays when a sample is kept, or is replaced. -/
def rsvKeep (rep : Bool) : BitVec 4 := if rep then 0 else 3

/-! ### Register instructions (R245 to R250) -/

/-- RSVCLR (R245). -/
def execRsvclr (g : Guard) (x : RT) (s : State) : Answer :=
  issue (.rsvclr g x) g .none (perFibre (fun _ _ f => f.setQ x.qd.toNat { val := 0, pois := 0 })) s

/-- The reservoir after a candidate (R246), and whether it was taken. -/
def Rsv.update (r : Rsv) (h : Nat) (y phat w : W32) : Rsv × Bool :=
  let t := rsvWeight w
  let sum := rsvAdd r.wsum t.1
  let rep := rsvReplaces h sum t.1
  ({ fin := false, badw := r.badw || t.2, msat := r.msat || r.m = 2 ^ 24 - 1, m := if r.m = 2 ^ 24 - 1 then r.m else r.m + 1,
     wsum := sum, y := if rep then y else r.y, phat := if rep then phat else r.phat }, rep)

/-- `rsvupd`. -/
def rsvupdBody (x : RT) (b : Bundle) (s : State) : State :=
  perFibre (fun w _ f =>
    let u := (f.rsv x.qd).update (drawOf s w f) (f.rv x.va.toNat) (f.rv x.vb.toNat) (f.rv x.vc.toNat)
    ((f.drawn.setRsv x.qd u.1 (rsvKeep u.2)).setP x.pd u.2)) b s
/-- RSVUPD (R246). -/
def execRsvupd (g : Guard) (x : RT) (s : State) : Answer := issue (.rsvupd g x) g .none (rsvupdBody x) s

/-- The reservoir after a merge (R247), and whether the other's sample was taken. -/
def Rsv.merge (r o : Rsv) (h : Nat) (phat : W32) : Rsv × Bool :=
  let t := if (rsvVal o.phat).isZero then (0, false) else rsvWeight (rsvMul phat (rsvDiv o.wsum o.phat))
  let sum := rsvAdd r.wsum t.1
  let rep := rsvReplaces h sum t.1
  let full := 2 ^ 24 - 1 < r.m + o.m
  ({ fin := false, badw := r.badw || t.2 || o.badw, msat := r.msat || o.msat || full, m := if full then 2 ^ 24 - 1 else r.m + o.m,
     wsum := sum, y := if rep then o.y else r.y, phat := if rep then phat else r.phat }, rep)

/-- `rsvmrg`. -/
def rsvmrgBody (x : RT) (b : Bundle) (s : State) : State :=
  perFibre (fun w _ f =>
    let u := (f.rsv x.qd).merge (f.rsv x.qs) (drawOf s w f) (f.rv x.va.toNat)
    ((f.drawn.setRsv x.qd u.1 (rsvKeep u.2)).setP x.pd u.2)) b s
/-- RSVMRG (R247). -/
def execRsvmrg (g : Guard) (x : RT) (s : State) : Answer := issue (.rsvmrg g x) g .none (rsvmrgBody x) s

/-- The reservoir under a cap (R248). -/
def Rsv.cap (r : Rsv) (c : Nat) : Rsv :=
  let num (n : Nat) : W32 := BitVec.ofNat 32 (fmt32.pack .near (Flt.ofInt n))
  { r with wsum := if c = 0 then 0 else rsvMul r.wsum (rsvDiv (num c) (num r.m)), m := c, fin := false }

/-- `rsvcap`: a count that does not exceed the cap leaves the register as it is. -/
def rsvcapBody (x : RT) (cap : Fibre → Nat) (b : Bundle) (s : State) : State :=
  perFibre (fun _ _ f => if cap f < (f.rsv x.qd).m then f.setRsv x.qd ((f.rsv x.qd).cap (cap f)) 3 else f) b s
/-- RSVCAP (R248). -/
def execRsvcap (g : Guard) (x : RT) (s : State) : Answer :=
  issue (.rsvcap g x) g .none (rsvcapBody x (fun f => bits (f.rv x.va.toNat).toNat 0 24)) s
/-- RSVCAP_I (R248). -/
def execRsvcapI (g : Guard) (x : RT) (s : State) : Answer :=
  issue (.rsvcapI g x) g .none (rsvcapBody x (fun _ => bits x.rtimm.toNat 0 13)) s

/-- The contribution weight (R249), and whether it is valid. -/
def Rsv.weight (r : Rsv) : W32 × Bool :=
  if r.m = 0 || (rsvVal r.phat).isZero then (0, false)
  else (BitVec.ofNat 32 (fmt32.div .near false (rsvVal r.wsum) (Flt.mul (Flt.ofInt r.m) (rsvVal r.phat))), true)

/-- `rsvfin`. -/
def rsvfinBody (x : RT) (b : Bundle) (s : State) : State :=
  perFibre (fun _ _ f =>
    let r := f.rsv x.qd
    ((f.setV x.va.toNat r.weight.1).setP x.pd r.weight.2).setRsv x.qd { r with fin := true } 1) b s
/-- RSVFIN (R249). -/
def execRsvfin (g : Guard) (x : RT) (s : State) : Answer := issue (.rsvfin g x) g .none (rsvfinBody x) s

/-- `rsvdraw`. -/
def rsvdrawBody (x : RT) (b : Bundle) (s : State) : State :=
  perFibre (fun w _ f =>
    let h := drawOf s w f
    f.drawn.setV x.va.toNat (if x.rtimm.getLsbD 0 then BitVec.ofNat 32 h else BitVec.ofNat 32 (fmt32.pack .near (drawU h)))) b s
/-- RSVDRAW (R250). -/
def execRsvdraw (g : Guard) (x : RT) (s : State) : Answer := issue (.rsvdraw g x) g .none (rsvdrawBody x) s

/-! ### Memory (R251) -/

/-- A reservoir's access: one value of 16 bytes. -/
def rsvAccess (x : RT) (f : Fibre) (a : Access) : Access :=
  let q := f.rq x.qd.toNat
  { a with reg := x.qd.toNat, isQ := true, n := 1, w := 16, ty := 6, data := toBytesLE 16 q.val.toNat
           pois := ((List.range 4).map (fun i => List.replicate 4 (q.pois.getLsbD i))).flatten }

/-- Mode 0: as `ld.b32.x4` and `st.b32.x4`. -/
def rsvBuffer (x : RT) (kind : AccKind) (named : Bool) (b : Bundle) (s : State) : State :=
  let store := kind == .store
  startFormed b (viaBuffer s b
    { k := bits x.rtimm.toNat 0 5, off := bits x.rtimm.toNat 5 8, idx := x.va.toNat, len := 16, kind := kind,
      acc := if store then 1 else 0, can := fun r => if store then r.wr else r.rd }
    (fun f a => (if named then namedTag f x.vb.toNat a else .ok a).map (rsvAccess x f)))

/-- Mode 1: as `lds.b32.x4` and `sts.b32.x4`. -/
def rsvStash (x : RT) (kind : AccKind) (b : Bundle) (s : State) : State :=
  startFormed b (viaStash s b x.va.toNat (4 * bits x.rtimm.toNat 5 8) 16 kind (fun f a => rsvAccess x f a))

/-- RSVLD (R251). -/
def execRsvld (g : Guard) (x : RT) (s : State) : Answer := issue (.rsvld g x) g .none (rsvBuffer x .load false) s
/-- RSVLD_S (R251). -/
def execRsvldS (g : Guard) (x : RT) (s : State) : Answer := issue (.rsvldS g x) g .none (rsvStash x .load) s
/-- RSVLD_X (R251). -/
def execRsvldX (g : Guard) (x : RT) (s : State) : Answer := issue (.rsvldX g x) g .none (rsvBuffer x .load true) s
/-- RSVST (R251). -/
def execRsvst (g : Guard) (x : RT) (s : State) : Answer := issue (.rsvst g x) g .none (rsvBuffer x .store false) s
/-- RSVST_S (R251). -/
def execRsvstS (g : Guard) (x : RT) (s : State) : Answer := issue (.rsvstS g x) g .none (rsvStash x .store) s

end Sys2Proof.Machine
end

