-- ==== Sys2Proof/Machine/Record.lean ====
section
/-! DEFINITION. Launch records (R391 to R394), launch queues (R395), the assignment of members to cores
(R402), and the parts of a `launch` on their way into a queue (R189). -/

namespace Sys2Proof.Machine

/-- A field of a launch record. -/
def recF (r : List Byte) (off n : Nat) : Nat := fromBytesLE ((r.drop off).take n)

/-- Waves of a workgroup (R394). -/
def recWaves (r : List Byte) : Nat := ceilDiv (recF r 0x48 2 * recF r 0x4A 2 * recF r 0x4C 2) 32

/-- The stash allocation of a workgroup that a record asks for (R393). -/
def recStash (r : List Byte) : Nat :=
  let p := 4 * recF r 0x57 1
  let f := recF r 0x48 2 * recF r 0x4A 2 * recF r 0x4C 2
  if p ≤ 64 then recF r 0x58 4 else recF r 0x58 4 + 128 * ceilDiv ((p - 64) * f) 128

/-- Check 0x1 of R394. -/
def recReserved (r : List Byte) : Bool :=
  recF r 0x7F 1 = 1 && recF r 0x63 1 = 0 && recF r 0x74 11 = 0 && bits (recF r 0x61 1) 4 4 = 0 && bits (recF r 0x61 1) 2 1 = 0
    && (List.range 4).all (fun i => i < recF r 0x62 1 || recF r (0x64 + 4 * i) 4 = 0)

/-- Check 0x2 of R394. -/
def recAligned (r : List Byte) : Bool :=
  bits (recF r 0 8) 57 7 = 0 && bits (recF r 0 8) 0 3 = 0 && recF r 0x10 8 % 8 = 0 && recF r 0x18 8 % 16 = 0
    && recF r 0x20 8 % 64 = 0 && recF r 0x30 8 % 4096 = 0

/-- Check 0x3 of R394. -/
def recRanges (r : List Byte) : Bool :=
  let v := recF r 0x4E 2
  let g := recF r 0x50 1
  let n := recF r 0x3C 4 * recF r 0x40 4 * recF r 0x44 4
  let f := recF r 0x48 2 * recF r 0x4A 2 * recF r 0x4C 2
  let np := recF r 0x62 1
  8 ≤ v && v ≤ 256 && v % 8 = 0 && 16 ≤ g && g ≤ 128 && g % 16 = 0 && (recF r 0x51 1 = 0 || recF r 0x51 1 = 8)
    && recF r 0x52 1 ≤ 8 && 1 ≤ recF r 0x53 1 && recF r 0x53 1 ≤ 16 && recF r 0x54 2 ≤ 128 && recF r 0x56 1 ≤ 31
    && recF r 0x57 1 ≤ 80 && recF r 0x58 4 % 128 = 0 && recF r 0x58 4 ≤ 2097152 && recF r 0x5C 2 ≤ 4095
    && recF r 0x5E 1 ≤ g && recF r 0x60 1 ≤ 7 && np ≤ 4
    && 1 ≤ n && n ≤ 2 ^ 32 - 1 && 1 ≤ f && f ≤ 1024

/-- Gives each member of a gang a core (R402): of each member its waves and vector words, and `free` holds each core's
number with its free wave slots and vector words. -/
def assign : List (Nat × Nat) → List (Nat × Nat × Nat) → Option (List Nat)
  | [], _ => some []
  | m :: rest, free =>
    match free.find? (fun c => m.1 ≤ c.2.1 && m.2 ≤ c.2.2) with
    | none => none
    | some c => (assign rest (free.map (fun d => if d.1 = c.1 then (d.1, d.2.1 - m.1, d.2.2 - m.2) else d))).map (c.1 :: ·)

/-- Check 0x4 of R394: an empty cluster holds one gang. -/
def recFits (r : List Byte) : Bool :=
  let w := recWaves r
  let g := recF r 0x53 1
  (assign (List.replicate g (w, 32 * recF r 0x4E 2 * w)) ((List.range 4).map (fun c => (c, 64, 262144)))).isSome
    && g * w * recF r 0x52 1 ≤ 64 && g * recStash r ≤ 2097152

/-- The producers a record names. -/
def recProds (r : List Byte) : List Nat := (List.range (recF r 0x62 1)).map (fun i => recF r (0x64 + 4 * i) 4)

/-- Whether a tag of a context is live (R252). -/
def tagLive (s : State) (ctx tag : Nat) : Bool :=
  (((sget ctx s.contexts).bind (fun c => sget tag c.tags)).map (fun t => !t.retiring)).getD false

/-- The bound windows of a record (R392). -/
def recWindows (r : List Byte) : List Nat := (List.range 8).filter (fun k => (recF r 0x5F 1).testBit k)

/-- Where the entry of a window lies. -/
def windowEntry (r : List Byte) (k : Nat) : W64 := BitVec.ofNat 64 (recF r 0x18 8 + 16 * k)

/-- The alignment of the window bases, as far as the entries can be read now (R392). -/
def windowsAligned (s : State) (ctx : Nat) (r : List Byte) : Bool :=
  (recWindows r).all (fun k =>
    match (ptrRead s none ctx 0 (windowEntry r k) 8).2 with
    | .ok (bs, _) => fromBytesLE bs % 4 = 0
    | .error _ => true)

/-- The first of the checks 0x1 to 0x6 of R394 that fails. -/
def recCheck (s : State) (ctx : Nat) (r : List Byte) : Option Nat :=
  let depw := (recF r 0x61 1).testBit 1
  if !recReserved r then some 1
  else if !recAligned r || !windowsAligned s ctx r then some 2
  else if !recRanges r then some 3
  else if !recFits r then some 4
  else if (recF r 0x62 1 = 0) == depw
      || (recProds r).any (fun p => !(sget p s.launches).any (fun l => l.ctx = ctx)) then some 5
  else if recF r 0x5C 2 != 0 && !tagLive s ctx (recF r 0x5C 2) then some 6
  else none

/-! ### Launch queues (R395) -/

/-- LOG2SZ of a queue. -/
def lqLog (s : State) (q : Nat) : Nat := ctlBits s (lqReg q 0) 54 5
/-- The ring of a queue. -/
def lqBase (s : State) (q : Nat) : Nat := (ctlRd s (lqReg q 8)).toNat
/-- Entries appended and taken. -/
def lqTail (s : State) (q : Nat) : Nat := ctlBits s (lqReg q 0x10) 0 32
def lqHead (s : State) (q : Nat) : Nat := ctlBits s (lqReg q 0x18) 0 32
/-- Entries held, modulo 2^32. -/
def lqCount (s : State) (q : Nat) : Nat := (lqTail s q + 2 ^ 32 - lqHead s q) % 2 ^ 32

/-- Whether a queue is operational. -/
def lqOperational (s : State) (q : Nat) : Bool :=
  ctlBits s (lqReg q 0) 63 1 = 1 && 4 ≤ lqLog s q && lqLog s q ≤ 16 && lqBase s q % 2 ^ (lqLog s q + 7) = 0

/-- Whether an operational MODE 1 queue of a context takes what software appends. -/
def lqAccepts (s : State) (q ctx : Nat) : Bool :=
  lqOperational s q && ctlBits s (lqReg q 0) 62 1 = 1 && ctlBits s (lqReg q 0) 38 16 = ctx

/-- The physical address of a ring entry. -/
def lqEntry (s : State) (q e : Nat) : Nat := lqBase s q + 128 * (e % 2 ^ lqLog s q)

/-- Appends a record to a queue's ring. -/
def lqAppend (s : State) (q : Nat) (r : List Byte) : State :=
  let e := lqTail s q
  let s := writeBytes s ((addrs (lqEntry s q e) 128).zip r) false
  ctlWr s (lqReg q 0x10) (BitVec.ofNat 64 ((e + 1) % 2 ^ 32))

/-- NDISC of a queue. -/
def lqNdisc (s : State) (q : Nat) : Nat := ctlBits s (lqReg q 0x20) 32 32

/-- Notes a subcode in FIRST, unless FIRST holds one since NDISC was last cleared, which bit 8 of the stored word says; `n` records
are counted. -/
def lqNote (s : State) (q sub n : Nat) : State :=
  let old := ctlRd s (lqReg q 0x20)
  let first := if old.getLsbD 8 then bits old.toNat 0 8 else sub
  ctlWr s (lqReg q 0x20) (BitVec.ofNat 64 (min (2 ^ 32 - 1) (lqNdisc s q + n) * 2 ^ 32 + 2 ^ 8 + first))

/-! ### The parts of a `launch` (R189) -/

/-- A control trap (R182). -/
def control (sub : BitVec 16) (syn0 syn1 : W32) : Cause := { kind := 4, sub := sub, syn0 := syn0, syn1 := syn1 }

/-- The memory-access trap of a `launch`'s read. -/
def launchFail (p : LaunchPart) (sub : BitVec 16) : Cause := { kind := 3, sub := sub, addr := p.ptr, acc := 0 }

/-- Reads and checks the record of a part; a part that waits on translation keeps no record. -/
def readPart (s : State) (core ctx q : Nat) (p : LaunchPart) : State × Except Cause LaunchPart :=
  let va := ptrVa p.ptr
  let re := regionOf s (some core) ctx (ptrRid p.ptr)
  if !inRegion re.2 va 128 then (re.1, .error (launchFail p 5))
  else if siltOverlap s core ctx (addrs va 128) then (re.1, .ok p)
  else
    match physical re.1 (some core) ctx .read false 0 { core := core } (ptrRid p.ptr) (addrs va 128) with
    | (s, .error (va, m)) => (reportMiss s ctx core 0 0 (ptrRid p.ptr) va m, .ok p)
    | (s, .ok pas) =>
      if isTagged s ctx va then (s, .error (launchFail p 0x0B))
      else
        let r := readBytes s pas
        if r.2.2 then (r.1, .error (control 5 7 0))
        else
          match recCheck r.1 ctx r.2.1 with
          | some c => (r.1, .error (control 5 (BitVec.ofNat 32 c) 0))
          | none => if lqAccepts r.1 q ctx then (r.1, .ok { p with record := r.2.1 }) else (r.1, .error (control 5 8 0))

/-- Reads the records that are not yet read: the parts that go on, and the fibres that trap. -/
def readParts (s : State) (core ctx q : Nat) (parts : List LaunchPart) : State × List LaunchPart × List (Nat × Cause) :=
  parts.foldl (fun t p =>
    if !p.record.isEmpty then (t.1, t.2.1 ++ [p], t.2.2)
    else
      match readPart t.1 core ctx q p with
      | (s, .ok p) => (s, t.2.1 ++ [p], t.2.2)
      | (s, .error c) => (s, t.2.1, t.2.2 ++ [(p.slot, c)])) (s, [], [])

/-- Appends the records to the queue in slot order as far as it has room; a record for a queue that accepts it no longer is
discarded, which an operational queue notes with subcode 0x8 (R394, R395), and its fibre's register answers 0 (third component). -/
def appendParts (s : State) (ctx q : Nat) : List LaunchPart → State × List LaunchPart × List LaunchPart
  | [] => (s, [], [])
  | p :: rest =>
    if p.entry.isSome then
      let r := appendParts s ctx q rest
      (r.1, p :: r.2.1, r.2.2)
    else if p.record.isEmpty then (s, p :: rest, [])
    else if !lqAccepts s q ctx then
      let r := appendParts (if lqOperational s q then lqNote s q 8 1 else s) ctx q rest
      (r.1, r.2.1, p :: r.2.2)
    else if 2 ^ lqLog s q ≤ lqCount s q then (s, p :: rest, [])
    else
      let e := lqTail s q
      let r := appendParts (lqAppend s q p.record) ctx q rest
      (r.1, { p with entry := some e } :: r.2.1, r.2.2)

/-- The slots of parts that still hold their fibre. -/
def heldParts (parts : List LaunchPart) : List Nat := (parts.filter (fun p => p.entry.isNone)).map (·.slot)

/-- Moves the parts of a `launch` in flight on, and completes it when none is left. -/
def advanceLaunch (s : State) (n : Nat) : State :=
  match sget n s.ops with
  | none => s
  | some o =>
    match o.kind with
    | .launch q parts =>
      let was := heldParts parts
      let r := readParts s o.core o.ctx q parts
      let a := appendParts r.1 o.ctx q r.2.1
      let s := modOp a.1 n (fun o => { o with kind := .launch q a.2.1 })
      let s := a.2.2.foldl (fun s p => answerPart s o.wave p 0) s
      let s := letGo s o.wave n was (heldParts a.2.1 ++ r.2.2.map (·.1))
      let s := trapEach s o.wave { pc := o.pc, place := some o.place, ll := true } r.2.2
      if a.2.1.isEmpty then endOp s n else s
    | _ => s

/-! ### Retrying what waits -/

/-- Tries again everything that operations hold on translation, on the Marl pool, on the Silt log or on a launch
queue, for one core or all; graphics instructions are retried by `retryGfx`. -/
def retryMem (s : State) (only : Option Nat) : State :=
  let s := retryAll s only
  (skeys (s.ops.filter (fun e => only.all (fun c => e.2.core = c)))).foldl (fun s n => advanceLaunch (retryMulticast s n) n) s

end Sys2Proof.Machine
end

