-- ==== Sys2Proof/Machine/Control.lean ====
section
/-! DEFINITION. Transfers of control, fibre creation and end, and child grids, opcodes 0xC0 to 0xC8 (R182
to R189). -/

namespace Sys2Proof.Machine

/-! ### Transfers (R183, R184) -/

/-- Whether a computed target is good (R182). -/
def goodTarget (t : W64) : Bool := t.toNat % 8 = 0 && bits t.toNat 57 7 = 0

/-- The target of a displacement (R184). -/
def dispTarget (b : Bundle) (disp : W32) : W64 := b.place.hdr + 8 * disp.signExtend 64

/-- Moves a fibre to a clause header; a taken transfer empties its staged set (R45). -/
def Fibre.goTo (f : Fibre) (t : W64) : Fibre := { f with pc := t, base := none, staged := [] }

/-- A transfer: each fibre goes to its target, with another effect on its registers, or traps. -/
def transfer (target : Fibre → W64) (also : Fibre → Fibre) (b : Bundle) (s : State) : State :=
  b.act.foldl (fun s x =>
    match fibreAt s b.wk x with
    | none => s
    | some f =>
      let t := target f
      if goodTarget t then modFibre s b.wk x (fun f => (also f).goTo t)
      else trap s b.wk x b.here (control 1 (t.extractLsb' 0 32) (t.extractLsb' 32 32))) s

/-- BRA (R184). -/
def execBra (g : Guard) (x : BR) (s : State) : Answer :=
  issue (.bra g x) g .none (fun b => transfer (fun _ => dispTarget b x.disp) id b) s
/-- BRX (R184). -/
def execBrx (g : Guard) (x : BR) (s : State) : Answer :=
  issue (.brx g x) g .none (transfer (fun f => f.rv2 x.va.toNat) id) s
/-- BRX_REL (R184). -/
def execBrxRel (g : Guard) (x : BR) (s : State) : Answer :=
  issue (.brxRel g x) g .none (fun b => transfer (fun f => b.place.hdr + (f.rv x.va.toNat).signExtend 64) id b) s
/-- CALL (R184). -/
def execCall (g : Guard) (x : BR) (s : State) : Answer :=
  issue (.call g x) g .none (fun b => transfer (fun _ => dispTarget b x.disp) (fun f => f.setV2 x.va.toNat b.fallThrough) b) s
/-- CALL_X (R184): the target is read before the link is written. -/
def execCallX (g : Guard) (x : BR) (s : State) : Answer :=
  issue (.callX g x) g .none
    (fun b => transfer (fun f => f.rv2 x.vb.toNat) (fun f => f.setV2 x.va.toNat b.fallThrough) b) s
/-- RET (R184). -/
def execRet (g : Guard) (x : BR) (s : State) : Answer := issue (.ret g x) g .none (transfer (fun f => f.rv2 x.va.toNat) id) s

/-! ### Fibres (R185 to R188) -/

/-- The hit record that no candidate has filled. -/
def HitRec.zero : HitRec :=
  { status := 0, t := 0, u := 0, v := 0, prim := 0, leaf := 0, pidx := 0, face := 0, hg := 0, geo := 0 }

/-- A fibre as R47 creates it, with its index, its first clause and its tag. -/
def Fibre.new (lfi : W32) (pc : W64) (ct : BitVec 12) (stamp : Nat) : Fibre :=
  { lfi := lfi, pc := pc, base := none, blocked := none, recs := [], pred := 1, v := [], q := [], ct := ct, draw := 0, staged := [],
    depth := 0, hit := HitRec.zero, trav := none, deferred := none, lostDef := false, issued := 0, starve := 0, stamp := stamp,
    cont := false, waive := false, stopAt := false, resumed := none, dumpAt := none, sparse := none }

/-- The child of a fibre: registers from `va` are copied with their poison. -/
def Fibre.child (f : Fibre) (lfi : W32) (pc : W64) (va k stamp : Nat) : Fibre :=
  (run va k).foldl (fun c r => c.setVp r (f.rv r) (f.vp r)) (Fibre.new lfi pc f.ct stamp)

/-- One fibre's part of `fork`: the empty slots left. -/
def forkOne (x : BR) (b : Bundle) (t : W64) (s : State) (empty : List Nat) (slot : Nat) : State × List Nat :=
  match sget b.wk s.waves, fibreAt s b.wk slot with
  | some w, some f =>
    let pd := x.vb.extractLsb' 4 4
    match empty with
    | [] => (modFibre s b.wk slot (fun f => f.setP pd false), [])
    | e :: rest =>
      if w.forkSerial = 2 ^ 26 then (trap s b.wk slot b.here (control 2 0 0), empty)
      else
        let lfi : W32 := BitVec.ofNat 32 (2 ^ 31 + w.widx * 2 ^ 26 + w.forkSerial)
        let s := modWave s b.wk (fun w => { w with
          forkSerial := w.forkSerial + 1
          fibres := sput e (f.child lfi t x.va.toNat (forkCount x) w.issueNo) w.fibres })
        (modFibre (tagHold s (ctxOf s b.wk) f.ct.toNat) b.wk slot (fun f => f.setP pd true), rest)
  | _, _ => (s, empty)

/-- `fork` (R187). -/
def forkBody (x : BR) (b : Bundle) (s : State) : State :=
  let t := dispTarget b x.disp
  if !goodTarget t then trapAll s b.wk b.here b.act (control 1 (t.extractLsb' 0 32) (t.extractLsb' 32 32))
  else
    let live := ((b.wave s).map (fun w => skeys w.fibres)).getD []
    (b.act.foldl (fun p x' => forkOne x b t p.1 p.2 x') (s, (List.range 32).filter (fun e => !live.contains e))).1
/-- FORK (R187). -/
def execFork (g : Guard) (x : BR) (s : State) : Answer := issue (.fork g x) g .none (forkBody x) s

/-- `exit`: each fibre ends. -/
def exitBody (b : Bundle) (s : State) : State := b.act.foldl (fun s x => endFibre s b.wk x .exit) s
/-- EXIT (R188). -/
def execExit (g : Guard) (x : BR) (s : State) : Answer := issue (.exit g x) g .exit exitBody s

/-- `yield`: the next choice does not take the clause that follows. -/
def yieldBody (b : Bundle) (s : State) : State := perWave (fun w => { w with yieldPc := some b.fallThrough }) b s
/-- YIELD (R185). -/
def execYield (g : Guard) (x : BR) (s : State) : Answer := issue (.yield g x) g .none yieldBody s
/-- NOP (R186). -/
def execNop (g : Guard) (x : BR) (s : State) : Answer := issue (.nop g x) g .none (fun _ s => s) s

/-! ### Child grids (R189) -/

/-- What checks 1 and 2 of R189 make of a fibre. -/
def launchPart (s : State) (b : Bundle) (x : BR) (slot : Nat) : Option (Except (Nat × Cause) LaunchPart) :=
  match fibreAt s b.wk slot, launchOf s b.wk with
  | some f, some l =>
    let p := f.rv2 x.va.toNat
    some (if l.depth = 10 then .error (slot, control 3 (BitVec.ofNat 32 l.depth) 0)
      else if p.toNat % 128 != 0 then .error (slot, control 4 (p.extractLsb' 0 32) (p.extractLsb' 32 32))
      else .ok { slot := slot, vr := x.vb.toNat, ptr := p, record := [], entry := none })
  | _, _ => none

/-- The watch range that the read of a record in its region meets (R457): debug slot, range, pointer. -/
def launchWatch (s : State) (b : Bundle) (p : LaunchPart) : Option (Nat × Nat × W64) :=
  let ctx := ctxOf s b.wk
  if b.waived.contains p.slot || !inRegion (regionEntry s ctx (ptrRid p.ptr)) (ptrVa p.ptr) 128 then none
  else (debugSlot s ctx).bind (fun d => (watchHit s (ptrRid p.ptr) (addrs (ptrVa p.ptr) 128) false d).map (d, ·))

/-- `launch`: the fibres are held until their records stand in the queue. -/
def launchBody (x : BR) (b : Bundle) (s : State) : State :=
  let q := (x.disp.extractLsb' 26 6).toNat
  let l := b.act.filterMap (launchPart s b x)
  let parts := l.filterMap (fun r => match r with | .ok p => some p | .error _ => none)
  let bad := l.filterMap (fun r => match r with | .ok _ => none | .error e => some e)
  if b.act.isEmpty then s
  else
    let stops := parts.filterMap (fun p => (launchWatch s b p).map (p.slot, ·))
    let s := stops.foldl (fun s x => watchStops s b [x.1] x.2.1 x.2.2.1 x.2.2.2) s
    let parts := parts.filter (fun p => !(stops.map (·.1)).contains p.slot)
    let b := { b with act := others b.act stops }
    if b.act.isEmpty then s
    else
      let n := s.nextOp
      let s := startOp s b (.launch q parts)
      let s := parts.foldl (fun s p => block s b.wk p.slot b.pc b.place (.mem n)) s
      advanceLaunch (trapEach s b.wk b.here bad) n
/-- LAUNCH (R189). -/
def execLaunch (g : Guard) (x : BR) (s : State) : Answer := issue (.launch g x) g .bundle (launchBody x) s

end Sys2Proof.Machine
end

