-- ==== Sys2Proof/Machine/Matrix.lean ====
section
/-! DEFINITION. The instructions of the matrix engine, opcodes 0xA0 to 0xA7 (R209 to R229). -/

namespace Sys2Proof.Machine

/-! ### Formats and checks -/

/-- A matrix trap (R209, R425); `mlatch` names the slab too. -/
def mxTrap (sub : BitVec 16) (quad acc : Nat) : Cause :=
  { kind := 8, sub := sub, syn1 := BitVec.ofNat 32 quad, syn2 := BitVec.ofNat 32 acc }

/-- Kept products per slab of a B format (R212). -/
def slabDepth (fmt : BitVec 5) : Nat := if fmt == 0xD then 96 else if fmt == 0x10 then 384 else 192

/-- The dense depth D of a binding (R212). -/
def TileBind.depth (t : TileBind) : Nat := if t.sparse then 2 * slabDepth t.fmt else slabDepth t.fmt

/-- Whether an A format pairs with a B format (R212). -/
def pairsWith (aty bty : BitVec 5) : Bool :=
  if bty == 0xD then aty == 0xD else if bty == 0x10 then aty == 0 else aty == 0xE || aty == 0xF

/-- Bytes of an A element (R221) and of an output element (R228). -/
def mxSize (ty : BitVec 5) : Nat := if ty == 0xB then 4 else if ty == 0xC || ty == 0xD then 2 else 1

/-- The check of a stash range of the matrix and copy engines (R156, R221, R233). -/
def stashCheck (s : State) (gk a n align : Nat) : Option Cause :=
  let span := stashSpan s gk
  let cause (sub : BitVec 16) : Cause :=
    { kind := 3, sub := sub, acc := 4, syn0 := BitVec.ofNat 32 a, syn1 := BitVec.ofNat 32 span }
  if a % align != 0 then some (cause 4) else if span < a + n then some (cause 6) else none

/-- The Kaolin slot count of a wave's gang (R210). -/
def kaolinSlots (s : State) (wk : Nat) : Nat := ((launchOf s wk).map (·.ks)).getD 0

/-- A tile register of a wave's workgroup (R212). -/
def tileOf (s : State) (wk t : Nat) : Option TileBind :=
  (sget wk s.waves).bind (fun w => (sget (wgKey w) s.wgs).bind (fun g => sget t g.tiles))

/-- An accumulator of a wave. -/
def accOf (s : State) (wk k : Nat) : Tile := ((sget wk s.waves).map (·.acc k)).getD Tile.zero

/-! ### Configuration (R219) -/

/-- Changes the tile registers of the bundle's workgroup. -/
def setTile (s : State) (b : Bundle) (f : Sparse TileBind → Sparse TileBind) : State :=
  match b.wave s with
  | none => s
  | some w => { s with wgs := smod (wgKey w) (fun g => { g with tiles := f g.tiles }) s.wgs }

/-- `mcfg.bind`. -/
def mcfgBindBody (x : MX) (b : Bundle) (s : State) : State :=
  let v := (b.g s x.gs.toNat).toNat
  if b.act.isEmpty then s
  else if 128 ≤ v || kaolinSlots s b.wk ≤ v then trapAll s b.wk b.here b.act (mxTrap 3 0 0)
  else setTile s b (sput x.tile.toNat { base := v, fmt := x.aty, sparse := x.mxopx.getLsbD 0 })
/-- MCFG_BIND (R219). -/
def execMcfgBind (g : Guard) (x : MX) (s : State) : Answer := issue (.mcfgBind g x) g .none (mcfgBindBody x) s

/-- `mcfg.unbind`. -/
def mcfgUnbindBody (x : MX) (b : Bundle) (s : State) : State := if b.act.isEmpty then s else setTile s b (sdel x.tile.toNat)
/-- MCFG_UNBIND (R219). -/
def execMcfgUnbind (g : Guard) (x : MX) (s : State) : Answer := issue (.mcfgUnbind g x) g .none (mcfgUnbindBody x) s
/-- MCFG_MODE (R219). -/
def execMcfgMode (g : Guard) (x : MX) (s : State) : Answer :=
  issue (.mcfgMode g x) g .none (perWave (fun w => { w with sptrap := x.mxopx.getLsbD 1 })) s

/-! ### Operations (R215, R356, R357) -/

/-- An operation of a bundle with nothing but its instruction's fields and its priority. -/
def mxOp (s : State) (b : Bundle) (kind : MatKind) (x : MX) : MatOp :=
  { kind := kind, wave := b.wk, flag := b.flag, pc := b.pc, acc := x.acc.toNat, pair := false,
    bind := { base := 0, fmt := 0, sparse := false }, quad := x.quad.toNat, aty := x.aty, slabs := 0, next := 0, rows := [],
    gaddr := 0, opx := x.mxopx, taddr := 0, tty := 0, prio := ((launchOf s b.wk).map (·.prio)).getD 0, waits := 0,
    place := .queue, susp := none, granted := false, trapped := [], arrived := clusterClock s (coreNo b.wk / 4) }

/-- Puts an operation in its wave's matrix queue; it counts on the bundle's flag. -/
def startMat (s : State) (o : MatOp) : State :=
  let s := { s with mats := sput s.nextOp o s.mats, nextOp := s.nextOp + 1 }
  match o.flag with
  | none => s
  | some k => modWave s o.wave (fun w => w.setFlag k (w.flag k + 1))

/-- Keeps the fibres whose rows pass their stash checks, and traps the others (R222). -/
def rowsOf (s : State) (b : Bundle) (check : Nat → Fibre → Option Cause) (addr : Nat → Fibre → Nat) : State × List (Nat × Nat) :=
  let fibs := b.act.filterMap (fun x => (fibreAt s b.wk x).map (x, ·))
  let bad := fibs.filterMap (fun z => (check z.1 z.2).map (z.1, ·))
  let good := (fibs.filter (fun z => (check z.1 z.2).isNone)).map (fun z => (z.1, addr z.1 z.2))
  (trapEach s b.wk b.here bad, good)

/-! ### Latching and products (R220 to R222) -/

/-- `mlatch`; the slot is named by its number. -/
def mlatchBody (x : MX) (b : Bundle) (s : State) : State :=
  if b.act.isEmpty then s
  else
    match tileOf s b.wk x.tile.toNat with
    | none => trapAll s b.wk b.here b.act { mxTrap 1 x.quad.toNat x.acc.toNat with syn0 := x.nslab.setWidth 32 }
    | some t =>
      if kaolinSlots s b.wk ≤ t.base + x.nslab.toNat then
        trapAll s b.wk b.here b.act { mxTrap 3 x.quad.toNat x.acc.toNat with syn0 := x.nslab.setWidth 32 }
      else startMat s { mxOp s b .latch x with bind := { t with base := t.base + x.nslab.toNat } }
/-- MLATCH (R220). -/
def execMlatch (g : Guard) (x : MX) (s : State) : Answer := issue (.mlatch g x) g .none (mlatchBody x) s

/-- Checks 1 to 4 of R222 beyond the registers: the binding, or the subkind of the trap. `form` tells whether the
tile is of the instruction's form. The pair state is that of the accumulator as committed, without what an earlier `mzero` of the wave
that is still queued will make of it (DESIGN CHOICE, log 34). -/
def productBind (s : State) (b : Bundle) (x : MX) (form : TileBind → Bool) : Except (BitVec 16) TileBind :=
  match tileOf s b.wk x.tile.toNat with
  | none => .error 1
  | some t =>
    let a := accOf s b.wk x.acc.toNat
    let pair := x.mxopx.getLsbD 0
    if !pairsWith x.aty t.fmt || !form t then .error 2
    else if kaolinSlots s b.wk < t.base + x.nslab.toNat + 1 then .error 3
    else if (if pair then x.acc.getLsbD 0 || !a.pair else a.pair) then .error 4
    else .ok t

/-- `mma`, `mmas`. -/
def mmaBody (x : MX) (form : TileBind → Bool) (b : Bundle) (s : State) : State :=
  if b.act.isEmpty then s
  else
    match productBind s b x form with
    | .error sub => trapAll s b.wk b.here b.act (mxTrap sub x.quad.toNat x.acc.toNat)
    | .ok t =>
      let n := x.nslab.toNat + 1
      let len := mxSize x.aty * t.depth * n
      let va (f : Fibre) : Nat := (f.rv x.va.toNat).toNat
      let r := rowsOf s b (fun _ f => stashCheck s (gangOf s b.wk) (va f) len 16) (fun _ f => va f)
      if r.2.isEmpty then r.1
      else startMat r.1 { mxOp s b .mma x with pair := x.mxopx.getLsbD 0, bind := t, slabs := n, rows := r.2 }
/-- MMA (R221). -/
def execMma (g : Guard) (x : MX) (s : State) : Answer := issue (.mma g x) g .none (mmaBody x (fun t => !t.sparse)) s
/-- MMAS (R221). -/
def execMmas (g : Guard) (x : MX) (s : State) : Answer := issue (.mmas g x) g .none (mmaBody x (fun t => t.sparse)) s

/-- `mmat`: the block is checked once, for the bundle. -/
def mmatBody (x : MX) (b : Bundle) (s : State) : State :=
  if b.act.isEmpty then s
  else
    match productBind s b x (fun _ => true) with
    | .error sub => trapAll s b.wk b.here b.act (mxTrap sub x.quad.toNat x.acc.toNat)
    | .ok t =>
      let n := x.nslab.toNat + 1
      let e := mxSize x.aty
      let ga := (b.g s x.gs.toNat).toNat
      match stashCheck s (gangOf s b.wk) ga (32 * (e * t.depth * n)) 16 with
      | some c => trapAll s b.wk b.here b.act c
      | none =>
        startMat s { mxOp s b .mmat x with
          pair := x.mxopx.getLsbD 0, bind := t, slabs := n, gaddr := ga, rows := b.act.map (fun i => (i, ga + e * i)) }
/-- MMAT (R221). -/
def execMmat (g : Guard) (x : MX) (s : State) : Answer := issue (.mmat g x) g .none (mmatBody x) s

/-! ### Drain, clearing, status (R226 to R229) -/

/-- `mdrain`: the tile and slot of the column scales, the accumulator's state, the block of the transposed copy, and
then each fibre's row scale and output row. -/
def mdrainBody (x : MX) (b : Bundle) (s : State) : State :=
  if b.act.isEmpty then s
  else
    let k := x.acc.toNat
    let a := accOf s b.wk k
    let gk := gangOf s b.wk
    let nocol := x.mxopx.getLsbD 4
    let norow := x.mxopx.getLsbD 3
    let tcopy := x.mxopx.getLsbD 5
    let gs := (b.g s x.gs.toNat).toNat
    let gt := (b.g s (bits x.mxopx.toNat 6 7)).toNat
    let tty : BitVec 5 := x.nslab.extractLsb' 0 5
    let tile := if nocol then some { base := 0, fmt := 0, sparse := false } else tileOf s b.wk x.tile.toNat
    let bundle : Option Cause :=
      match tile with
      | none => some (mxTrap 1 x.quad.toNat k)
      | some t =>
        if !nocol && kaolinSlots s b.wk ≤ t.base then some (mxTrap 3 x.quad.toNat k)
        else if a.high then some (mxTrap 4 x.quad.toNat k)
        else if tcopy then stashCheck s gk gt (8192 * mxSize tty + 1024) 16
        else none
    match bundle with
    | some c => trapAll s b.wk b.here b.act c
    | none =>
      let va (f : Fibre) : Nat := (f.rv x.va.toNat).toNat
      let r := rowsOf s b (fun i f =>
        (if norow then none else stashCheck s gk (gs + 4 * i) 4 4).or (stashCheck s gk (va f) (256 * mxSize x.aty) 16)) (fun _ f => va f)
      if r.2.isEmpty then r.1
      else startMat r.1 { mxOp s b .drain x with
        pair := a.pair, bind := tile.getD { base := 0, fmt := 0, sparse := false }, rows := r.2, gaddr := gs, taddr := gt, tty := tty }
/-- MDRAIN (R228). -/
def execMdrain (g : Guard) (x : MX) (s : State) : Answer := issue (.mdrain g x) g .none (mdrainBody x) s

/-- Whether a register will be of a pair once the `mzero` operations of the wave that are queued for it have completed. -/
def pairAhead (s : State) (wk k : Nat) : Bool :=
  match (s.mats.filter (fun e => e.2.wave = wk && e.2.kind == .zero && e.2.acc = k)).getLast? with
  | some e => e.2.opx.getLsbD 0
  | none => (accOf s wk k).pair

/-- `mzero`: of one register, or of both of a pair, in the order of the operations on them; which it clears is decided when it acts. -/
def mzeroBody (x : MX) (b : Bundle) (s : State) : State :=
  if b.act.isEmpty then s
  else
    let a := accOf s b.wk x.acc.toNat
    let pair := x.mxopx.getLsbD 0
    if if pair then x.acc.getLsbD 0 else a.high then trapAll s b.wk b.here b.act (mxTrap 4 x.quad.toNat x.acc.toNat)
    else startMat s { mxOp s b .zero x with pair := pair || pairAhead s b.wk x.acc.toNat }
/-- MZERO (R226). -/
def execMzero (g : Guard) (x : MX) (s : State) : Answer := issue (.mzero g x) g .none (mzeroBody x) s

/-- The status of an accumulator (R213). -/
def Tile.status (t : Tile) : W64 :=
  BitVec.ofInt 16 t.exp ++ BitVec.ofNat 48 (bits t.rslab 0 8 * 2 ^ 40 + bit t.susp 9 + bit t.high 8 + bit t.pair 7 + bit t.efix 6
    + bit t.nanin 2 + bit t.sbad 1 + bit t.tbad 0)

/-- `mstat`. -/
def mstatBody (x : MX) (b : Bundle) (s : State) : State :=
  if b.act.isEmpty then s
  else
    let k := x.acc.toNat
    let a := accOf s b.wk k
    if a.high then trapAll s b.wk b.here b.act (mxTrap 4 x.quad.toNat k)
    else
      let s := mapFibres s b.wk b.act (fun _ f => f.setV2 x.va.toNat a.status)
      if x.mxopx.getLsbD 0 then modWave s b.wk (fun w => w.setAcc k { w.acc k with nanin := false, sbad := false, tbad := false }) else s
/-- MSTAT (R227). -/
def execMstat (g : Guard) (x : MX) (s : State) : Answer := issue (.mstat g x) g .none (mstatBody x) s

end Sys2Proof.Machine
end

