-- ==== Sys2Proof/Machine/Copy.lean ====
section
/-! DEFINITION. The instructions of the copy and collective engines, opcodes 0xB0 to 0xB5 (R230 to R238). -/

namespace Sys2Proof.Machine

/-! ### Checks at issue (R231, R233, R234, R237) -/

/-- The bytes of the tensor's rows lie in a region; else the address of the first piece of 16 bytes that does not. -/
def tensorOutside (t : Tensor) (re : RegionEntry) : Option Nat :=
  if t.bytes = 0 then none
  else if re.ok && re.lo ≤ t.span.1 && t.span.2 ≤ re.limit then none
  else ((List.range (t.bytes / 16)).map (fun p => t.vaOf (16 * p))).find? (fun va => !inRegion re va 16)

/-- The subkind of the barrier address check (R156, R233). -/
def barrierSpan (s : State) (gk : Nat) (bar : Option Nat) : Option (BitVec 16) :=
  bar.bind (fun a => if a % 16 != 0 then some 4 else if stashSpan s gk < a + 16 then some 6 else none)

/-- The smallest of some subkinds: the checks of R156 are made in the order of their numbers. -/
def firstSub (l : List (Option (BitVec 16))) : Option (BitVec 16) :=
  (l.filterMap id).foldl (fun m x => match m with | none => some x | some y => some (if x.toNat < y.toNat then x else y)) none

/-- The stash or Kaolin span of a copy (R234). -/
def sideSpan (s : State) (b : Bundle) (kind : Nat) : Nat :=
  if kind = 2 then 65536 * kaolinSlots s b.wk else stashSpan s (gangOf s b.wk)

/-- The trap of a copy whose record, addresses or barrier object fail a check, if one fails. The syndrome holds the stash address
that fails: that of the side, or that of the barrier object (R425). -/
def copyCheck (s : State) (b : Bundle) (kind : Nat) (x : CP) (t : Tensor) (re : RegionEntry) (side : Nat) (bar : Option Nat) :
    Option Cause :=
  let base : Cause := { kind := 3, sub := 1, acc := 6, buf := BitVec.ofNat 8 x.trec.toNat }
  match t.error (kind = 1) with
  | some c => some { base with syn2 := BitVec.ofNat 32 c }
  | none =>
    let gk := gangOf s b.wk
    let span := sideSpan s b kind
    let out := tensorOutside t re
    let subs := [if side % 16 != 0 then some 4 else none, barrierSpan s gk bar, out.map (fun _ => 5),
      if span < side + t.bytes then some 6 else none,
      if kind = 3 && !x.cmask.getLsbD (coreNo b.wk % 16) then some 8 else none]
    match firstSub subs with
    | some sub =>
      let mine := sub = 5 || sub = 8 || (sub = 4 && side % 16 != 0) || (sub = 6 && span < side + t.bytes)
      some { base with sub := sub, syn0 := BitVec.ofNat 32 (if mine then side else bar.getD 0)
                       syn1 := BitVec.ofNat 32 (if mine then span else stashSpan s gk)
                       addr := if sub = 5 then pointer t.rid (out.getD 0) else 0 }
    | none =>
      match bar with
      | some a => if (Bar.read s gk a).valid then none else some { kind := 5, sub := 1, syn0 := BitVec.ofNat 32 a }
      | none => none

/-! ### Copies (R233 to R235) -/

/-- The destination lines of a copy, by address over 128. -/
def copyLines (kind : Nat) (t : Tensor) (side : Nat) : List Nat :=
  if kind = 1 then t.lines
  else if t.bytes = 0 then []
  else (List.range ((side + t.bytes - 1) / 128 - side / 128 + 1)).map (side / 128 + ·)

/-- `cpy`, `cpyg`, `cpys`, `cpymc`, numbered 0 to 3. A copy of no bytes completes at once. -/
def copyBody (kind : Nat) (x : CP) (b : Bundle) (s : State) : State :=
  match b.act.head?.bind (fun k => fibreAt s b.wk k) with
  | none => s
  | some f =>
    let ws := b.rec4 s x.trec.toNat
    let t := tensorOf ws
    let side := (b.g s x.gsa.toNat).toNat
    let bar := if x.cpopx.getLsbD 0 then none else some (b.g s x.gba.toNat).toNat
    let re := regionOf s (some (coreNo b.wk)) (ctxOf s b.wk) t.rid
    match copyCheck re.1 b kind x t re.2 side bar with
    | some c => trapAll re.1 b.wk b.here b.act c
    | none =>
      let all := ((List.range (t.bytes / 16)).map (fun i => addrs (t.vaOf (16 * i)) 16)).flatten
      let w := watchBundle re.1 b (watchHit re.1 t.rid all (kind = 1))
      if t.bytes = 0 || w.2.act.isEmpty then w.1
      else
        let c : CopyOp := { kind := kind, trec := ws, buf := BitVec.ofNat 8 x.trec.toNat, side := side, bar := bar, mask := x.cmask,
                            tag := f.ct, scope := x.scope, lines := copyLines kind t side, failed := false,
                            ask := if kind = 3 then t.lines else [], sent := [], got := [] }
        startOp (tagHold w.1 (ctxOf s b.wk) f.ct.toNat) w.2 (.copy c)

/-- CPY (R234). -/
def execCpy (g : Guard) (x : CP) (s : State) : Answer := issue (.cpy g x) g .bundle (copyBody 0 x) s
/-- CPYG (R234). -/
def execCpyg (g : Guard) (x : CP) (s : State) : Answer := issue (.cpyg g x) g .bundle (copyBody 1 x) s
/-- CPYS (R234). -/
def execCpys (g : Guard) (x : CP) (s : State) : Answer := issue (.cpys g x) g .bundle (copyBody 2 x) s
/-- CPYMC (R235). -/
def execCpymc (g : Guard) (x : CP) (s : State) : Answer := issue (.cpymc g x) g .bundle (copyBody 3 x) s

/-- `trec`: the byte count and the subcode of the first failing check (R232). -/
def trecBody (x : CP) (b : Bundle) (s : State) : State :=
  let t := tensorOf (b.rec4 s x.trec.toNat)
  perWave (fun w => w.setG x.gsa.toNat (BitVec.ofNat 64 (t.bytes % 2 ^ 56 * 256 + (t.error (x.cpopx.getLsbD 0)).getD 0))) b s
/-- TREC (R232). -/
def execTrec (g : Guard) (x : CP) (s : State) : Answer := issue (.trec g x) g .none (trecBody x) s

/-! ### Collectives (R237, R476) -/

/-- The members of a collective group by rank: peer, launch, workgroup; none for an invalid entry. -/
def groupOf (s : State) (ctx group : Nat) : Option (List (Nat × Nat × Nat)) :=
  if ctxRd s ctx 0x98 4 ≤ group then none
  else
    let e := rd s (ctxRd s ctx 0x90 8 + 32 * group) 32
    let list := bits e 0 64
    let n := bits e 64 16
    if !e.testBit 80 || bits e 81 175 != 0 || list % 16 != 0 || n = 0 || 4096 < n then none
    else some ((List.range n).map (fun i =>
      let m := rd s (list + 16 * i) 16
      (bits m 0 16, bits m 32 32, bits m 64 32)))

/-- The pages of a range of virtual addresses. -/
def pagesOf (va n : Nat) : List Nat := if n = 0 then [] else (List.range ((va + n - 1) / 4096 - va / 4096 + 1)).map (va / 4096 + ·)

/-- The check that fails for a collective: subkind, address, and whether it is one of the barrier object's address. -/
def collCheck (s : State) (core gk : Nat) (ctx : Nat) (c : CollOp) (n : Nat) : Option (BitVec 16 × W64 × Bool) :=
  let src := collSrc c
  let dst := collDst c
  let ends := [(src, collIn c n), (dst, collOut c n)]
  let out := ends.find? (fun e => 0 < e.2 && !inRegion (regionOf s (some core) ctx (ptrRid e.1)).2 (ptrVa e.1) e.2)
  let tagged := ends.findSome? (fun e => ((pagesOf (ptrVa e.1) e.2).find? (fun p => isTagged s ctx (4096 * p))).map (fun p =>
    pointer (ptrRid e.1) (max (ptrVa e.1) (4096 * p))))
  let odd := [src, dst].find? (fun p => ptrVa p % 16 != 0)
  match firstSub [odd.map (fun _ => 4), barrierSpan s gk (some c.bar), out.map (fun _ => 5), tagged.map (fun _ => 0x0B)] with
  | none => none
  | some sub =>
    let addr : Option W64 := if sub = 4 then odd else if sub = 5 then out.map (·.1) else if sub = 0x0B then tagged else none
    some (sub, addr.getD 0, addr.isNone)

/-- `coll`: the member's post. -/
def collBody (x : CP) (b : Bundle) (s : State) : State :=
  match b.wave s with
  | none => s
  | some w =>
    if b.act.isEmpty then s
    else
      let ctx := ctxOf s b.wk
      let gk := gangOf s b.wk
      let c : CollOp := { crec := b.rec4 s x.trec.toNat, kind := x.cpopx.extractLsb' 0 3, op := x.cpopx.extractLsb' 3 2,
                          ty := x.cpopx.extractLsb' 5 5, scope := x.scope, bar := (b.g s x.gba.toNat).toNat, rank := 0, n := 0, lines := []
                          buf := BitVec.ofNat 8 x.trec.toNat }
      let ctl := (c.crec.getD 3 0).toNat
      let base : Cause := { kind := 3, sub := 1, acc := 6, buf := BitVec.ofNat 8 x.trec.toNat }
      let group := groupOf s ctx (collGroup c)
      let n := (group.map (·.length)).getD 1
      if ctl % 2 = 0 || bits ctl 1 31 != 0 then trapAll s b.wk b.here b.act { base with syn2 := 1 }
      else
        match collCheck s (coreNo b.wk) gk ctx c n with
        | some (sub, addr, atBar) =>
          trapAll s b.wk b.here b.act { base with
            sub := sub, addr := addr, syn0 := if atBar then BitVec.ofNat 32 c.bar else 0
            syn1 := if atBar then BitVec.ofNat 32 (stashSpan s gk) else 0 }
        | none =>
          if !(Bar.read s gk c.bar).valid then trapAll s b.wk b.here b.act { kind := 5, sub := 1, syn0 := BitVec.ofNat 32 c.bar }
          else
            match group.bind (fun l => (l.findIdx? (fun m => m = (s.peers.peerId, w.launch, w.wg))).map (·, l.length)) with
            | none =>
              trapAll s b.wk b.here b.act { kind := 9, sub := 1, syn0 := BitVec.ofNat 32 (collSeq c), syn1 := BitVec.ofNat 32 (collGroup c) }
            | some (rank, n) =>
              let dst := ptrVa (collDst c)
              let bytes := collOut c n
              let lines := if bytes = 0 then [] else (List.range ((dst + bytes - 1) / 128 - dst / 128 + 1)).map (dst / 128 + ·)
              let src := collSrc c
              let w := watchBundle s b (fun d =>
                (watchHit s (ptrRid src) (addrs (ptrVa src) (collIn c n)) false d).or
                  (watchHit s (ptrRid (collDst c)) (addrs dst bytes) true d))
              if w.2.act.isEmpty then w.1 else startOp w.1 w.2 (.coll { c with rank := rank, n := n, lines := lines })
/-- COLL (R237). -/
def execColl (g : Guard) (x : CP) (s : State) : Answer := issue (.coll g x) g .bundle (collBody x) s

end Sys2Proof.Machine
end

