-- ==== Sys2Proof/Machine/MatrixArith.lean ====
section
/-! DEFINITION. The arithmetic of the matrix engine: elements and products of a slab (R58, R61, R211, R223, R224),
the block-float commit (R62 to R66), the pair path (R67, R68), and the drain (R69, R228, R229). -/

namespace Sys2Proof.Machine

/-! ### Elements -/

/-- An element as n × 2^x, and whether it is a NaN, an infinity or t2 code 0b10, which are taken as zero (R61). -/
def mxElem (ty : BitVec 5) (x : Nat) : (Int × Int) × Bool :=
  if ty == 0x10 then ((t2Value x, 0), x = 2)
  else if ty == 0 then ((toInt true 8 x, 0), false)
  else
    match (fmtOf ty).value x with
    | .fin neg m e => ((signed neg m, e), false)
    | _ => ((0, 0), true)

/-- The nonzero elements of a slot's weights from the slot's bytes, each as its number 256k + j and its code (R211). -/
def weightCodes (fmt : BitVec 5) (cells : List (Nat × Byte)) : List (Nat × Nat) :=
  if fmt == 0xD then
    (cells.foldl (fun (acc : List (Nat × Nat)) c =>
      let v := c.2.toNat * 256 ^ (c.1 % 2)
      match acc with
      | (k, x) :: rest => if k = c.1 / 2 then (k, x + v) :: rest else (c.1 / 2, v) :: acc
      | [] => [(c.1 / 2, v)]) []).reverse
  else if fmt == 0x10 then
    ((cells.map (fun c => (List.range 4).map (fun p => (4 * c.1 + p, bits c.2.toNat (2 * p) 2)))).flatten).filter (fun e => e.2 != 0)
  else cells.map (fun c => (c.1, c.2.toNat))

/-- The stored bytes of a slot from an offset on, by their offset from there. -/
def slotCells (g : Gang) (slot off len : Nat) : List (Nat × Byte) :=
  (g.kaolin.filter (fun c => 65536 * slot + off ≤ c.1 && c.1 < 65536 * slot + off + len)).map (fun c => (c.1 - 65536 * slot - off, c.2))

/-- Whether a byte range of the slots has a poisoned unit. -/
def slotPoisoned (g : Gang) (a n : Nat) : Bool := g.kaolinPois.any (fun u => a < 8 * u + 8 && 8 * u < a + n)

/-- Bytes of a slab's weights (R211). -/
def weightBytes (fmt : BitVec 5) : Nat := if fmt == 0xD then 49152 else if fmt == 0x10 then 24576 else 49152

/-- The position of a kept element (R211), from the metadata as one number. -/
def keptPos (metadata n : Nat) : Nat := bits metadata (2 * n) 2

/-! ### The products of a slab (R223) -/

/-- What the passes of a slab have in common for every row: the weights by kept depth, each with its column, its value
and, in a sparse slot, its position; and what is found in the slot. -/
structure Slab where
  weights : List (Nat × List (Nat × (Int × Int) × Nat))
  flagged : Bool
  illegal : List (Nat × Nat)
  pois : Bool

/-- Consecutive elements of one depth gathered. -/
def byDepth : List (Nat × (Int × Int) × Nat) → List (Nat × List (Nat × (Int × Int) × Nat))
  | [] => []
  | e :: rest =>
    match byDepth rest with
    | (k, row) :: more => if k = e.1 / 256 then (k, (e.1 % 256, e.2) :: row) :: more else (e.1 / 256, [(e.1 % 256, e.2)]) :: (k, row) :: more
    | [] => [(e.1 / 256, [(e.1 % 256, e.2)])]

/-- Takes slot `slot` of a gang with a tile's format. A group whose positions do not rise is illegal (R224). -/
def slabOf (g : Gang) (t : TileBind) (slot : Nat) : Slab :=
  let k := slabDepth t.fmt
  let codes := weightCodes t.fmt (slotCells g slot 0 (weightBytes t.fmt))
  let metadata := if t.sparse then ((slotCells g slot 0xC000 (64 * k)).map (fun c => c.2.toNat * 2 ^ (8 * c.1))).sum else 0
  let bad (grp j : Nat) : Bool := t.sparse && keptPos metadata (512 * grp + 256 + j) ≤ keptPos metadata (512 * grp + j)
  let illegal := if t.sparse then
      ((List.range (k / 2)).map (fun grp => ((List.range 256).filter (bad grp)).map (grp, ·))).flatten
    else []
  let vals := codes.map (fun c => (c.1, (mxElem t.fmt c.2).1, keptPos metadata c.1))
  { weights := byDepth (vals.filter (fun e => e.2.1.1 != 0 && !bad (e.1 / 512) (e.1 % 256)))
    flagged := codes.any (fun c => (mxElem t.fmt c.2).2)
    illegal := illegal
    pois := slotPoisoned g (65536 * slot) (weightBytes t.fmt) || (t.sparse && slotPoisoned g (65536 * slot + 0xC000) (64 * k)) }

/-- The stash addresses of the A elements of a row for a slab (R221). -/
def aAddrs (o : MatOp) (row : Nat × Nat) (slab : Nat) : List Nat :=
  let e := mxSize o.aty
  let d := o.bind.depth
  let step := if o.kind == .mmat then 32 * e else e
  (List.range d).map (fun k => row.2 + step * (d * slab + k))

/-- An A element in the stash. -/
def aElem (g : Gang) (ty : BitVec 5) (a : Nat) : (Int × Int) × Bool :=
  mxElem ty (fromBytesLE ((addrs a (mxSize ty)).map (sgetD 0 g.stash)))

/-- The products of a row by ascending depth: column and exact product n × 2^x. -/
def rowProducts (t : TileBind) (w : Slab) (as : List (Int × Int)) : List (List (Nat × Int × Int)) :=
  w.weights.map (fun d => d.2.filterMap (fun e =>
    let a := as.getD (if t.sparse then 4 * (d.1 / 2) + e.2.2 else d.1) (0, 0)
    if a.1 = 0 then none else some (e.1, a.1 * e.2.1.1, a.2 + e.2.1.2)))

/-! ### The block-float accumulator (R62 to R66) -/

/-- rni(n × 2^x ÷ 2^X). -/
def rniAt (n x big : Int) : Int := if big ≤ x then n * 2 ^ (x - big).toNat else rni n (big - x).toNat

/-- P of a row at an exponent (R63), by column. -/
def partialSum (ps : List (List (Nat × Int × Int))) (big : Int) : Sparse Int :=
  ps.flatten.foldl (fun m p => sputD 0 p.1 (sgetD 0 m p.1 + rniAt p.2.1 p.2.2 big) m) []

/-- The part of a tile's map that lies in a row, by column; and the map with a row put in place. -/
def rowGet {α : Type} (m : Sparse α) (i : Nat) : Sparse α :=
  (m.filter (fun e => e.1 / 256 = i)).map (fun e => (e.1 % 256, e.2))
def rowPut {α : Type} (m : Sparse α) (i : Nat) (r : Sparse α) : Sparse α :=
  m.filter (fun e => e.1 / 256 < i) ++ r.map (fun e => (256 * i + e.1, e.2)) ++ m.filter (fun e => i < e.1 / 256)

/-- A row plus another. -/
def rowAdd (r p : Sparse Int) : Sparse Int := p.foldl (fun m e => sputD 0 e.1 (sgetD 0 m e.1 + e.2) m) r

/-- The largest magnitude of a map. -/
def maxAbs (m : Sparse Int) : Nat := m.foldl (fun a e => max a e.2.natAbs) 0

/-- Every mantissa of a tile shifted right by s and rounded (R64, R66). -/
def shiftTile (m : Sparse Int) (s : Nat) : Sparse Int := (m.map (fun e => (e.1, rni e.2 s))).filter (fun e => e.2 != 0)

/-- The tile with the rows of U added at an exponent. -/
def addRows (m : Sparse Int) (e : Int) (rows : List (Nat × List (List (Nat × Int × Int)))) : Sparse Int :=
  rows.foldl (fun m r => rowPut m r.1 (rowAdd (rowGet m r.1) (partialSum r.2 e))) m

/-- The smallest shift from `s` on, with at most `fuel` tries, at which the tile stays within 2^46 (R64). -/
def renormShift (m : Sparse Int) (e : Int) (rows : List (Nat × List (List (Nat × Int × Int)))) : Nat → Nat → Nat
  | 0, s => s
  | fuel + 1, s => if maxAbs (addRows (shiftTile m s) (e + s) rows) ≤ 2 ^ 46 then s else renormShift m e rows fuel (s + 1)

/-- floor(log2) of the largest product of some rows, none when every product is 0. -/
def topLog (rows : List (Nat × List (List (Nat × Int × Int)))) : Option Int :=
  rows.foldl (fun best r => r.2.flatten.foldl (fun best p =>
    let l := (Nat.log2 p.2.1.natAbs : Int) + p.2.2
    match best with
    | none => some l
    | some b => some (max b l)) best) none

/-- Adds a slab to a tile (R64). A shift by which the largest sum stays above 2^47 cannot serve, so the search starts
behind those. -/
def commitMain (t : Tile) (rows : List (Nat × List (List (Nat × Int × Int)))) : Tile :=
  let fixed : Option Tile := if t.efix then some t else (topLog rows).map (fun l => { t with exp := l - 36, efix := true })
  match fixed with
  | none => t
  | some t =>
    let big := rows.foldl (fun b r => max b (maxAbs (rowAdd (rowGet t.mant r.1) (partialSum r.2 t.exp)))) 0
    if big ≤ 2 ^ 46 then { t with mant := addRows t.mant t.exp rows }
    else
      let s := renormShift t.mant t.exp rows 1024 (max 1 (Nat.log2 big - 47))
      { t with mant := addRows (shiftTile t.mant s) (t.exp + s) rows, exp := t.exp + s }

/-! ### The pair path (R67, R68) -/

/-- An f32 word as a value, and a value rounded to f32. -/
def f32v (x : W32) : Flt := fmt32.value x.toNat
def f32r (x : Flt) : Flt := fmt32.value (fmt32.pack .near x)

/-- The element update of R68 for one product. -/
def pairStep (s c : W32) (p : Flt) : W32 × W32 :=
  let sv := f32v s
  let cv := f32v c
  let word (x : Flt) : W32 := BitVec.ofNat 32 (fmt32.pack .near x)
  if !(sv.isFin && cv.isFin && p.isFin) then (word (Flt.add .near sv p), 0)
  else
    let t := f32r (Flt.add .near sv p)
    let bp := f32r (Flt.add .near t sv.negate)
    let ap := f32r (Flt.add .near t bp.negate)
    let e := f32r (Flt.add .near (f32r (Flt.add .near sv ap.negate)) (f32r (Flt.add .near p bp.negate)))
    (word t, word (Flt.add .near cv e))

/-- The products of one depth added to a row's sums and compensations. A product of zero matters only to an element
that is not finite; `legal` tells whether the depth has a product for a column. -/
def pairDepth (legal : Nat → Bool) (row : Sparse W32 × Sparse W32) (ps : List (Nat × Int × Int)) : Sparse W32 × Sparse W32 :=
  let wild := ((row.1.filter (fun e => !(f32v e.2).isFin && legal e.1 && !ps.any (fun p => p.1 = e.1))).map (fun e => (e.1, (0 : Int), (0 : Int))))
  (ps ++ wild).foldl (fun r p =>
    let u := pairStep (sgetD 0 r.1 p.1) (sgetD 0 r.2 p.1) (f32r (.fin (p.2.1 < 0) p.2.1.natAbs p.2.2))
    (sputD 0 p.1 u.1 r.1, sputD 0 p.1 u.2 r.2)) row

/-- The products of a row for every depth of the slab, those without a nonzero product too. -/
def allDepths (fmt : BitVec 5) (w : Slab) (ps : List (List (Nat × Int × Int))) : List (Nat × List (Nat × Int × Int)) :=
  let m : Sparse (List (Nat × Int × Int)) := (w.weights.zip ps).map (fun z => (z.1.1, z.2))
  (List.range (slabDepth fmt)).map (fun k => (k, sgetD [] m k))

/-- Adds a slab to a pair (R68). -/
def commitPair (t u : Tile) (fmt : BitVec 5) (w : Slab) (rows : List (Nat × List (List (Nat × Int × Int)))) : Tile × Tile :=
  rows.foldl (fun z r =>
    let new := (allDepths fmt w r.2).foldl (fun q d => pairDepth (fun j => !w.illegal.contains (d.1 / 2, j)) q d.2)
      (rowGet z.1.fval r.1, rowGet z.2.fval r.1)
    ({ z.1 with fval := rowPut z.1.fval r.1 new.1 }, { z.2 with fval := rowPut z.2.fval r.1 new.2 })) (t, u)

/-! ### Drain (R69, R228, R229) -/

/-- The value of an element of a tile, or of a pair (R69). -/
def drainValue (t u : Tile) (n : Nat) : Flt :=
  if t.pair then
    let s := f32v (sgetD 0 t.fval n)
    if s.isFin then Flt.add .near s (f32v (sgetD 0 u.fval n)) else s
  else if t.efix then (let m := sgetD 0 t.mant n; .fin (m < 0) m.natAbs t.exp)
  else .fin false 0 0

/-- w_c of an element (R69), as f32. -/
def drainScaled (mode : Rnd) (v : Flt) (rs cs : W32) : W32 :=
  let wr := fmt32.pack mode (Flt.mul v (f32v rs))
  BitVec.ofNat 32 (fmt32.pack mode (Flt.mul (fmt32.value wr) (f32v cs)))

/-- h of R229. -/
def tcopyTop (ty : BitVec 5) : Int := if ty == 0xB || ty == 0xD then 127 else if ty == 0xE then 8 else 15

/-- e of R229 for a column's scaled values. -/
def tcopyExp (ty : BitVec 5) (ws : List W32) : Int :=
  let logs := ws.filterMap (fun w => match f32v w with
    | .fin _ m x => if m = 0 then none else some ((Nat.log2 m : Int) + x)
    | _ => none)
  match logs with
  | [] => 0
  | l :: ls => min 126 (max (-126) (tcopyTop ty - ls.foldl max l - 1))

/-- A value times 2^e. -/
def Flt.scale (x : Flt) (e : Int) : Flt := match x with | .fin n m g => .fin n m (g + e) | x => x

/-- One row of a drain: its slot, its output address, and for each column w_c and whether it is poisoned. -/
structure DrainRow where
  slot : Nat
  addr : Nat
  vals : List (W32 × Bool)

/-- The stash cells that a drain writes (R69, R228, R229). -/
def drainCells (o : MatOp) (rows : List DrainRow) : List (Nat × Byte × Bool) :=
  let mode := Rnd.ofCode (bits o.opx.toNat 0 2)
  let sat := o.opx.getLsbD 2
  let n := mxSize o.aty
  let out := (rows.map (fun r => (r.vals.zipIdx.map (fun e =>
    let x := convert o.aty 0xB mode (sat && o.aty == 0xF) (sat && o.aty == 0xE) false e.1.1.toNat
    (addrs (r.addr + n * e.2) n).zip ((toBytesLE n x).map (·, e.1.2)))).flatten)).flatten
  if !o.opx.getLsbD 5 then out
  else
    let t := mxSize o.tty
    out ++ ((List.range 256).map (fun j =>
      let e := tcopyExp o.tty (rows.map (fun r => (r.vals.getD j (0, false)).1))
      (rows.map (fun r =>
        let v := r.vals.getD j (0, false)
        let x := (fmtOf o.tty).pack mode ((f32v v.1).scale e) false (if o.tty == 0xE then .sat else .ieee)
        (addrs (o.taddr + t * (32 * j + r.slot)) t).zip ((toBytesLE t x).map (·, v.2)))).flatten
      ++ (addrs (o.taddr + 8192 * t + 4 * j) 4).zip ((toBytesLE 4 (fmt32.pack .near (.fin false 1 (-e)))).map (·, false)))).flatten

/-- The rows of a drain: an element's poison is that of its accumulator element and of its scales (R466). -/
def drainRows (g : Gang) (t u : Tile) (o : MatOp) : List DrainRow :=
  let mode := Rnd.ofCode (bits o.opx.toNat 0 2)
  let nocol := o.opx.getLsbD 4
  let norow := o.opx.getLsbD 3
  let one : W32 := 0x3F800000
  let word (a : Nat) (m : Sparse Byte) : W32 := BitVec.ofNat 32 (fromBytesLE ((addrs a 4).map (sgetD 0 m)))
  let cols := (List.range 256).map (fun j =>
    let a := 65536 * o.bind.base + 0xF000 + 4 * j
    if nocol then (one, false) else (word a g.kaolin, g.kaolinPois.contains (a / 8)))
  o.rows.map (fun r =>
    let a := o.gaddr + 4 * r.1
    let rs := if norow then one else word a g.stash
    let rp := !norow && g.stashPois.contains (a / 8)
    { slot := r.1, addr := r.2
      vals := cols.zipIdx.map (fun c =>
        let n := 256 * r.1 + c.2
        (drainScaled mode (drainValue t u n) rs c.1.1, c.1.2 || rp || t.pois.contains n || u.pois.contains n)) })

end Sys2Proof.Machine
end

