-- ==== Sys2Proof/Machine/MatrixEv.lean ====
section
/-! DEFINITION. The steps of the matrix engines: admission to the reservation table, grants, slab passes, latches,
drains and clearing, and the traps of illegal metadata (R215, R216, R220, R223 to R226, R356 to R359). -/

namespace Sys2Proof.Machine

/-- The cluster a wave is on (R12). -/
def clusterNo (wk : Nat) : Nat := coreNo wk / 4

/-- Whether an operation may enter the table: its gang is resident, or is being saved and the operation adds no products
(R412). -/
def mayEnter (s : State) (o : MatOp) : Bool :=
  (sget (gangOf s o.wave) s.gangs).any (fun g => g.state == .resident || (g.state == .saving && !o.isPass))

/-- The operation in a table entry. -/
def tableOp (s : State) (c e : Nat) : Option (Nat × MatOp) :=
  (sget e (clusterOf s c).table).bind (fun n => (sget n s.mats).map (n, ·))

/-! ### Admission (R356, R359) -/

/-- Whether an operation arrived before another: by clock, then core and wave slot, and in one wave in issue order (R356). -/
def arrivedBefore (a b : Nat × MatOp) : Bool :=
  if a.2.arrived != b.2.arrived then a.2.arrived < b.2.arrived
  else if a.2.wave != b.2.wave then a.2.wave < b.2.wave
  else a.1 < b.1

/-- The first of some operations to have arrived. -/
def firstArrived (l : List (Nat × MatOp)) : Option (Nat × MatOp) :=
  l.foldl (fun best x => match best with
    | none => some x
    | some y => if arrivedBefore x y then some x else best) none

/-- The operation that takes the next free entry: one that may continue, else the queue head that arrived first. -/
def nextAdmit (s : State) (c : Nat) : Option Nat :=
  let mine := s.mats.filter (fun e => clusterNo e.2.wave = c && mayEnter s e.2)
  ((mine.find? (fun e => e.2.place == .held && e.2.susp.isNone)).or (firstArrived (mine.filter (fun e => e.2.place == .queue)))).map (·.1)

/-- MXE_QUEUE_ADMIT (R356). -/
def execMxeQueueAdmit (c : Nat) (s : State) : Answer :=
  match nextAdmit s c, freeKey (clusterOf s c).table 64 0 with
  | some n, some e =>
    .next (modCluster { s with mats := smod n (fun o => { o with place := .entry e, waits := 0 }) s.mats } c
      (fun k => { k with table := sput e n k.table }))
  | _, _ => .next s

/-! ### Grants (R357, R358) -/

/-- Whether an older `cpys` in flight still has lines to write in a slot of a gang (R216). -/
def slotAwaited (s : State) (gk n slot : Nat) : Bool :=
  s.ops.any (fun e => e.1 < n && e.2.gang = gk && (match e.2.kind with
    | .copy c => c.kind = 2 && c.lines.any (fun l => 128 * l / 65536 = slot)
    | _ => false))

/-- The slab of the next grant: that after the pass which an operation has. -/
def MatOp.slab (o : MatOp) : Nat := if o.granted then o.next + 1 else o.next

/-- Whether an operation may be granted (R215, R216, R357): a pass that it has may be followed by that of its next slab. -/
def eligible (s : State) (n : Nat) (o : MatOp) : Bool :=
  o.susp.isNone && (!o.granted || (o.isPass && !o.ahead && o.slab < o.slabs))
    && !s.mats.any (fun e => e.1 < n && e.2.wave = o.wave && (e.2.susp.isNone || e.2.susp == some .save || !e.2.isPass) && e.2.accs.any o.accs.contains)
    && !s.mats.any (fun e => e.1 != n && e.2.granted && e.2.wave = o.wave && e.2.accs.any o.accs.contains)
    && !(o.isPass && slotAwaited s (gangOf s o.wave) n (o.bind.base + o.slab))

/-- Whether an operation is granted on a resource: its quadrant, or 4, the accumulator port. -/
def MatOp.usesRes (o : MatOp) (res : Nat) : Bool :=
  if o.isPass then o.quad = res else (o.kind == .drain || o.kind == .zero) && res = 4

/-- Effective priority (R358). -/
def effPrio (o : MatOp) : Nat := min 7 (o.prio + o.waits / 64)

/-- The entries of a table eligible for a resource. -/
def candidates (s : State) (c res : Nat) : List (Nat × Nat × MatOp) :=
  (clusterOf s c).table.filterMap (fun e => (sget e.2 s.mats).bind (fun o =>
    if o.usesRes res && eligible s e.2 o then some (e.1, e.2, o) else none))

/-- The choice of R358: the largest effective priority, and of equals the first after the last granted. -/
def chooseGrant (last : Nat) (l : List (Nat × Nat × MatOp)) : Option (Nat × Nat × MatOp) :=
  l.foldl (fun best x => match best with
    | none => some x
    | some y =>
      let rank (e : Nat) : Nat := (e + 127 - last) % 64
      if effPrio y.2.2 < effPrio x.2.2 || (effPrio y.2.2 = effPrio x.2.2 && rank x.1 < rank y.1) then some x else best) none

/-- The operations that are granted on a resource. -/
def grantedOn (s : State) (c res : Nat) : List (Nat × MatOp) :=
  s.mats.filter (fun e => e.2.granted && clusterNo e.2.wave = c && e.2.usesRes res)

/-- Whether a resource of a cluster is held by a grant: a quadrant, until 8 clocks before its last granted pass ends (R358). -/
def resBusy (s : State) (c res : Nat) : Bool :=
  (grantedOn s c res).any (fun e => res = 4 || e.2.ahead || clusterClock s c + 8 < e.2.pass)

/-- The clocks of a pass (R212). -/
def MatOp.passClocks (o : MatOp) : Nat := if o.pair then 64 else 32

/-- When a pass granted now ends: it starts when the pass before it ends, and its slot has been loaded, in 8 clocks, if the shadow latch
of its quadrant does not hold it (R220, R346). -/
def passEnd (s : State) (c : Nat) (o : MatOp) : Nat :=
  let load := if sget o.quad (clusterOf s c).latch = some (gangOf s o.wave, o.bind.base + o.slab) then 0 else 8
  let free := (grantedOn s c o.quad).foldl (fun m e => max m e.2.pass) 0
  max (clusterClock s c + load) free + o.passClocks

/-- A grant: an operation that is in a pass has its next one granted. A pass claims the shadow latch for its slot. -/
def MatOp.grant (s : State) (c : Nat) (o : MatOp) : MatOp :=
  if o.granted then { o with ahead := true, waits := 0 }
  else { o with granted := true, waits := 0, pass := if o.isPass then passEnd s c o else 0 }

/-- MXE_GRANT (R357, R358). -/
def execMxeGrant (c res : Nat) (s : State) : Answer :=
  if 4 < res || resBusy s c res then .next s
  else
    let l := candidates s c res
    match chooseGrant ((clusterOf s c).last.getD res 63) l with
    | none => .next s
    | some (e, n, o) =>
      let t := { s with mats := s.mats.map (fun m =>
        if m.1 = n then (m.1, m.2.grant s c)
        else if l.any (fun x => x.2.1 = m.1) then (m.1, { m.2 with waits := m.2.waits + 1 }) else m) }
      .next (modCluster t c (fun k => { k with
        last := k.last.set res e
        latch := if o.isPass then sput res (gangOf s o.wave, o.bind.base + o.slab) k.latch else k.latch }))

/-! ### Passes (R223 to R225) -/

/-- Gives up an operation's table entry. -/
def freeEntry (s : State) (c e : Nat) : State := modCluster s c (fun k => { k with table := sdel e k.table })

/-- Suspends an operation of R221 at a slab: it gives up its entry and is held by its wave (R225, R359). -/
def suspendMat (s : State) (n : Nat) (o : MatOp) (why : MatSusp) (slab : Nat) : State :=
  let s := setSusp s o true (some slab)
  let s := match o.place with
    | .entry e => freeEntry s (clusterNo o.wave) e
    | _ => s
  { s with mats := sput n { o with susp := some why, granted := false, ahead := false, place := .held, next := slab } s.mats }

/-- A matrix operation as an agent (R333). -/
def MatOp.agent (o : MatOp) (n : Nat) : Agent := { core := coreNo o.wave, src := 2, op := some n }

/-- Fills the window lines under some stash bytes for a matrix engine; a miss gives the page. Bytes that an older copy owns
are waited for (R297). -/
def mxFill (s : State) (n : Nat) (o : MatOp) (write : Bool) (as : List Nat) : State × Option (Nat × Nat × Miss) :=
  let gk := gangOf s o.wave
  if as.any (stashOwned s gk (some n)) then (s, some (0, 0, none))
  else if ((sget gk s.gangs).map (fun g => g.windows.isEmpty)).getD true then (s, none)
  else
    match fillAll s none (o.agent n) gk write as with
    | (s, .error x) => (s, some x)
    | (s, .ok ()) => (s, none)

/-- Whether a page waits for Loam, and not for an engine that owns a line in it. -/
def waitsForLoam (s : State) (n : Nat) (o : MatOp) (as : List Nat) (va : Nat) (m : Miss) : Bool :=
  let ctx := ctxOf s o.wave
  !as.any (stashOwned s (gangOf s o.wave) (some n)) && (m.isSome || (match walk s ctx va with | .leaf pte _ _ => pte.testBit 57 | .bad _ => true))

/-- The fibres of U that take the sparsity trap: those of its rows that are live. -/
def sparseSlots (s : State) (o : MatOp) : List Nat := (o.rows.map (·.1)).filter (fun x => (fibreAt s o.wave x).isSome)

/-- What a committed slab leaves: suspension on illegal metadata, completion, or the next slab (R225). -/
def afterSlab (s : State) (c e n : Nat) (o : MatOp) (sparsity : Bool) : State :=
  let more := o.ahead && (sget (gangOf s o.wave) s.gangs).any (fun g => g.state == .resident)
  let o := { o with granted := more, ahead := false, pass := if more then o.pass + o.passClocks else 0, next := o.next + 1 }
  if sparsity then
    let t := sparseSlots s o
    let o := { o with rows := o.rows.filter (fun r => t.contains r.1), trapped := t }
    let s := suspendMat s n o .sparsity o.next
    settleMats (mapFibres s o.wave t (fun _ f => { f with sparse := some n })) o.wave
  else if o.slabs ≤ o.next then endMat { freeEntry s c e with mats := sput n o s.mats } n
  else { s with mats := sput n o s.mats }

/-- The accumulators after a slab (R61, R64, R68, R224, R466). -/
def slabAccs (g : Gang) (o : MatOp) (t u : Tile) : Tile × Tile × Bool :=
  let w := slabOf g o.bind (o.bind.base + o.next)
  let as := o.rows.map (fun r => (r.1, (aAddrs o r o.next), (aAddrs o r o.next).map (aElem g o.aty)))
  let rows := as.map (fun r => (r.1, rowProducts o.bind w (r.2.2.map (·.1))))
  let bad := (as.filter (fun r => w.pois || r.2.1.any (fun a => g.stashPois.contains (a / 8))
    || (t.pois ++ u.pois).any (fun n => n / 256 = r.1))).map (·.1)
  let illegal := !w.illegal.isEmpty
  let mark (t : Tile) : Tile := { t with
    nanin := t.nanin || (w.flagged && o.bind.fmt != 0x10) || as.any (fun r => r.2.2.any (·.2))
    tbad := t.tbad || (w.flagged && o.bind.fmt == 0x10)
    sbad := t.sbad || illegal
    pois := bad.foldl (fun l i => (run (256 * i) 256).foldl (fun l n => insertNat n l) l) t.pois }
  if o.pair then
    let z := commitPair t u o.bind.fmt w rows
    (mark z.1, z.2, illegal)
  else (mark (commitMain t rows), u, illegal)

/-- MXE_PASS_COMMIT (R223): at the end of its pass a granted slab takes its operands and commits, or the operation is suspended. -/
def execMxePassCommit (c e : Nat) (s : State) : Answer :=
  match tableOp s c e with
  | none => .next s
  | some (n, o) =>
    if !(o.granted && o.isPass) || clusterClock s c < o.pass then .next s
    else
      let gk := gangOf s o.wave
      let as := (o.rows.map (fun r => (aAddrs o r o.next).map (fun a => addrs a (mxSize o.aty)))).flatten.flatten
      match mxFill s n o false as with
      | (s, some (rid, va, m)) =>
        if waitsForLoam s n o as va m then
          .next (suspendMat (reportMiss s (ctxOf s o.wave) (coreNo o.wave) 2 0 rid va m) n o (.fill (va / 4096)) o.next)
        else .next s
      | (s, none) =>
        match sget gk s.gangs with
        | none => .next s
        | some g =>
          let r := slabAccs g o (accOf s o.wave o.acc) (accOf s o.wave (o.acc + 1))
          let s := chargeCluster s c (gk / 2 ^ 32) (if o.pair then 64 else 32)
          let s := modWave s o.wave (fun w =>
            let w := w.setAcc o.acc r.1
            if o.pair then w.setAcc (o.acc + 1) r.2.1 else w)
          let trap := r.2.2 && ((sget o.wave s.waves).map (·.sptrap)).getD false
          .next (afterSlab s c e n o trap)

/-- Whether a pass that has not started has claimed the shadow latch of a quadrant (R220, R358). -/
def latchClaimed (s : State) (c res : Nat) : Bool :=
  (grantedOn s c res).any (fun e => e.2.ahead || clusterClock s c + e.2.passClocks < e.2.pass)

/-- MLATCH_SERVICE (R220, R358): the latch is loaded, unless a pass has claimed it, and the request completes. -/
def execMlatchService (c e : Nat) (s : State) : Answer :=
  match tableOp s c e with
  | none => .next s
  | some (n, o) =>
    if o.kind != .latch then .next s
    else
      let s := if latchClaimed s c o.quad then s
        else modCluster s c (fun k => { k with latch := sput o.quad (gangOf s o.wave, o.bind.base) k.latch })
      .next (endMat (freeEntry s c e) n)

/-! ### Clearing and drain (R226, R228) -/

/-- The accumulators that `mzero` clears: a register of a pair goes with the other (R226). -/
def MatOp.zeroes (o : MatOp) (w : Wave) : List Nat :=
  if o.opx.getLsbD 0 then [o.acc, o.acc + 1]
  else if (w.acc o.acc).high then [o.acc - 1, o.acc]
  else if (w.acc o.acc).pair then [o.acc, o.acc + 1]
  else [o.acc]

/-- The accumulators that `mzero` leaves (R226). -/
def zeroAccs (o : MatOp) (w : Wave) : Wave :=
  let p := o.opx.getLsbD 0
  (o.zeroes w).foldl (fun w k => w.setAcc k { Tile.zero with pair := p, high := p && k = o.acc + 1 }) w

/-- The stash bytes that a drain reads, and those that it writes. -/
def drainReads (o : MatOp) : List Nat :=
  if o.opx.getLsbD 3 then [] else (o.rows.map (fun r => addrs (o.gaddr + 4 * r.1) 4)).flatten
def drainWrites (o : MatOp) : List Nat :=
  (o.rows.map (fun r => addrs r.2 (256 * mxSize o.aty))).flatten
    ++ (if o.opx.getLsbD 5 then addrs o.taddr (8192 * mxSize o.tty + 1024) else [])

/-- A drain whose window lines miss keeps its entry and waits for the page. -/
def drainWaits (s : State) (n : Nat) (o : MatOp) (as : List Nat) (acc rid va : Nat) (m : Miss) : State :=
  if waitsForLoam s n o as va m then
    let s := reportMiss s (ctxOf s o.wave) (coreNo o.wave) 2 acc rid va m
    { s with mats := sput n { o with susp := some (.fill (va / 4096)), granted := false, ahead := false } s.mats }
  else s

/-- Writes what a drain gives. -/
def drainWrite (s : State) (n : Nat) (o : MatOp) : State × Option (Nat × Nat × Miss) :=
  let gk := gangOf s o.wave
  match sget gk s.gangs with
  | none => (s, none)
  | some g =>
    let rows := drainRows g (accOf s o.wave o.acc) (if o.pair then accOf s o.wave (o.acc + 1) else Tile.zero) o
    let r := putStash s none (o.agent n) gk (drainCells o rows)
    (r.1, r.2.map (·.1))

/-- DRAIN_COMPLETE (R226, R228, R358): the operation that holds the accumulator port completes. -/
def execDrainComplete (c e : Nat) (s : State) : Answer :=
  match tableOp s c e with
  | none => .next s
  | some (n, o) =>
    if !o.granted then .next s
    else if o.kind == .zero then .next (endMat (freeEntry (modWave s o.wave (zeroAccs o)) c e) n)
    else if o.kind == .drain then
      match mxFill s n o false (drainReads o) with
      | (s, some (rid, va, m)) => .next (drainWaits s n o (drainReads o) 0 rid va m)
      | (s, none) =>
        match mxFill s n o true (drainWrites o) with
        | (s, some (rid, va, m)) => .next (drainWaits s n o (drainWrites o) 1 rid va m)
        | (s, none) =>
          match drainWrite s n o with
          | (s, some (rid, va, m)) => .next (drainWaits s n o (drainWrites o) 1 rid va m)
          | (s, none) => .next (endMat (freeEntry s c e) n)
    else .next s

/-! ### The trap of illegal metadata (R225) -/

/-- Whether a fibre stands at a clause boundary, ready to take an asynchronous trap or a stop. -/
def atBoundary (w : Wave) (slot : Nat) (f : Fibre) : Bool :=
  f.blocked.isNone && f.base.isNone && !(w.clause.map (fun c => c.slots.contains slot)).getD false

/-- SPARSITY_TRAP (R225): a fibre of U takes matrix subkind 0x05 at its clause boundary. -/
def execSparsityTrap (wk slot : Nat) (s : State) : Answer :=
  match sget wk s.waves, fibreAt s wk slot with
  | some w, some f =>
    match f.sparse with
    | none => .next s
    | some n =>
      if !atBoundary w slot f then .next s
      else
        let s := modFibre s wk slot (fun f => { f with sparse := none })
        match sget n s.mats with
        | none => .next s
        | some o =>
          .next (trap s wk slot { pc := f.pc, place := none }
            { kind := 8, sub := 5, addr := o.pc, acc := 7, syn0 := BitVec.ofNat 32 (o.next - 1), syn1 := BitVec.ofNat 32 o.quad,
              syn2 := BitVec.ofNat 32 o.acc, apc := some o.pc, async := true, matOp := some n })
  | _, _ => .next s

end Sys2Proof.Machine
end

