-- ==== Sys2Proof/Machine/CopyEv.lean ====
section
/-! DEFINITION. The steps of the copy and collective engines and of the multicast windows of the home slices (R166,
R233 to R238, R296 to R298, R382, R466). -/

namespace Sys2Proof.Machine

/-! ### The sizes of a save area (R413), and credits held in it (R236) -/

/-- FB: bytes of a fibre block. -/
def fibreSize (l : Launch) : Nat := 1280 + 4 * l.vcnt + (if l.qcnt = 8 then 128 else 0)
/-- WB: bytes of a wave block. -/
def waveSize (l : Launch) : Nat := 1024 + 8 * l.gcnt + 49152 * l.acnt + 32 * fibreSize l
/-- W: waves of a workgroup. -/
def launchWaves (l : Launch) : Nat := ceilDiv (l.wgsz.foldl (· * ·) 1) 32
/-- GB: bytes of a workgroup block. -/
def groupSize (l : Launch) : Nat := 256 + launchWaves l * waveSize l
/-- SASZ: bytes of a save area. -/
def areaSize (l : Launch) : Nat :=
  4096 * ceilDiv (270336 + l.gang * groupSize l + l.gang * stashSize l + 65536 * l.ks) 4096
/-- The offsets of the stash image and of the Kaolin slots (R414). -/
def stashOff (l : Launch) : Nat := 270336 + l.gang * groupSize l
def kaolinOff (l : Launch) : Nat := stashOff l + l.gang * stashSize l

/-- A fault on a save area kills the context (R413, R429). -/
def areaFault (s : State) (l : Launch) (n : Nat) : State :=
  killContext s l.ctx { SupEvent.zero s 0x01 with cause := 3, launch := n, addr := l.saveb }

/-- Whether the gang of an operation stands saved (R236). -/
def gangSaved (s : State) (gk : Nat) : Bool := ((sget gk s.gangs).map (fun g => g.saved.isSome)).getD false

/-- Whether the 256 credits that can be held for a saved gang are held (R236). -/
def storeFull (s : State) (gk : Nat) : Bool := ((sget gk s.gangs).bind (·.saved)).any (fun v => 256 ≤ v.credits.length)

/-- A credit to a saved gang's barrier object is held in its save area: an entry, and then the count in the header (R236, R414). -/
def holdCredit (s : State) (gk : Nat) (c : Credit) : State :=
  match sget (gk / 2 ^ 32) s.launches, (sget gk s.gangs).bind (·.saved) with
  | some l, some v =>
    let n := v.credits.length
    let base := l.saveb + BitVec.ofNat 64 (areaSize l * (gk % 2 ^ 32))
    let s := modGang s gk (fun g => { g with saved := g.saved.map (fun v => { v with credits := v.credits ++ [c] }) })
    match ptrWrite s none l.ctx 0 (base + BitVec.ofNat 64 (266240 + 16 * n)) (toBytesLE 4 c.bar ++ toBytesLE 12 c.bytes) with
    | (s, .error _) => areaFault s l (gk / 2 ^ 32)
    | (s, .ok ()) =>
      match ptrWrite s none l.ctx 0 (base + 12) (toBytesLE 2 (n + 1)) with
      | (s, .error _) => areaFault s l (gk / 2 ^ 32)
      | (s, .ok ()) => s
  | _, _ => s

/-! ### Lines of a copy -/

/-- The dense offsets of the 16-byte pieces of a destination line (R230, R233). -/
def copyPieces (c : CopyOp) (t : Tensor) (line : Nat) : List Nat :=
  if c.kind = 1 then t.piecesOn line
  else
    let lo := 128 * line - c.side
    let hi := min t.bytes (128 * line + 128 - c.side)
    (List.range ((hi - lo) / 16)).map (fun i => lo + 16 * i)

/-- What a step of an engine finds: bytes or nothing, a wait on another engine or its turn, or a miss at a region's
address. -/
inductive EngineTry (α : Type) where
  | done (v : α)
  | turn
  | miss (rid va : Nat) (m : Miss)

/-- An operation of an engine as an agent (R333). -/
def Op.agent (o : Op) (n src : Nat) : Agent := { core := o.core, src := src, op := some n }

/-- Reads bytes of the global side, page tables as they stand, in the cell of a tag (R233, R234). -/
def engineRead (s : State) (ag : Agent) (ctx tag rid : Nat) (vas : List Nat) : State × EngineTry (List (Byte × Bool)) :=
  match physical s none ctx .read false tag ag rid vas with
  | (s, .error (va, m)) => (s, .miss rid va m)
  | (s, .ok pas) =>
    if reachesOwned s ag.op ctx tag vas pas then (s, .turn)
    else
      let r := bytesAt s pas
      (r.1, .done r.2)

/-- Reads stash bytes for an engine; absent lines of windows fill (R180), and lines that an older operation owns are waited
for (R297). -/
def stashRead (s : State) (ag : Agent) (gk : Nat) (as : List Nat) : State × EngineTry (List (Byte × Bool)) :=
  if as.any (stashOwned s gk ag.op) then (s, .turn) else
  match fillAll s none ag gk false as with
  | (s, .error (rid, va, m)) => (s, .miss rid va m)
  | (s, .ok ()) =>
    match sget gk s.gangs with
    | none => (s, .turn)
    | some g => (s, .done (as.map (stashByte g)))

/-- The bytes of a destination line of a `cpymc` from the source lines received, none while one is missing. -/
def mcBytes (c : CopyOp) (vas : List Nat) : Option (List (Byte × Bool)) :=
  if vas.all (fun v => (sget (v / 128) c.got).isSome) then
    some (vas.map (fun v =>
      match sget (v / 128) c.got with
      | some (bs, p0, p1) => (bs.getD (v % 128) 0, if v % 128 < 64 then p0 else p1)
      | none => (0, false)))
  else none

/-- Reads a source line of a copy whole (R296): of the stash for `cpyg`, else of memory. -/
def sourceLine (s : State) (ag : Agent) (gk ctx : Nat) (c : CopyOp) (rid line : Nat) : State × EngineTry (List (Byte × Bool)) :=
  if c.kind = 1 then stashRead s ag gk (addrs (128 * line) 128) else engineRead s ag ctx c.tag.toNat rid (addrs (128 * line) 128)

/-- Reads the source lines that a copy has not read yet. -/
def sourceLines (ag : Agent) (gk ctx : Nat) (rid : Nat) : List Nat → State → CopyOp → State × EngineTry CopyOp
  | [], s, c => (s, .done c)
  | line :: rest, s, c =>
    if (sget line c.src).isSome then sourceLines ag gk ctx rid rest s c
    else
      match sourceLine s ag gk ctx c rid line with
      | (s, .done bs) => sourceLines ag gk ctx rid rest s { c with src := sput line bs c.src }
      | (s, .turn) => (s, .turn)
      | (s, .miss r va m) => (s, .miss r va m)

/-- The source bytes of a destination line, and the copy with the lines that it has read for it. -/
def copySource (s : State) (ag : Agent) (gk ctx : Nat) (c : CopyOp) (t : Tensor) (ps : List Nat) :
    State × EngineTry (CopyOp × List (Byte × Bool)) :=
  let at' := (ps.map (fun p => addrs (if c.kind = 1 then c.side + p else t.vaOf p) 16)).flatten
  if c.kind = 3 then
    match mcBytes c at' with
    | some bs => (s, .done (c, bs))
    | none => (s, .turn)
  else
    match sourceLines ag gk ctx t.rid (dedup [] (at'.map (· / 128))) s c with
    | (s, .done c) => (s, .done (c, at'.map (fun a => ((sgetD [] c.src (a / 128)).getD (a % 128) (0, false)))))
    | (s, .turn) => (s, .turn)
    | (s, .miss r va m) => (s, .miss r va m)

/-- Writes cells to memory; poison goes by the unit (R466). -/
def putUnits (s : State) (cells : List (Nat × Byte × Bool)) : State :=
  (dedup [] (cells.map (·.1 / 64))).foldl (fun s u =>
    let part := cells.filter (fun c => c.1 / 64 = u)
    writeBytes s (part.map (fun c => (c.1, c.2.1))) (part.any (·.2.2))) s

/-- Writes bytes of the global side for an engine, in the cell of a tag, which is materialised (R161, R233). -/
def engineWrite (s : State) (ag : Agent) (ctx tag rid : Nat) (vas : List Nat) (bs : List (Byte × Bool)) : State × EngineTry Unit :=
  match physical s none ctx .write true tag ag rid vas with
  | (s, .error (va, m)) => (s, .miss rid va m)
  | (s, .ok pas) => if reachesOwned s ag.op ctx tag vas pas then (s, .turn) else (putUnits s (pas.zip bs), .done ())

/-- Writes a destination line. -/
def copyDest (s : State) (ag : Agent) (gk ctx : Nat) (c : CopyOp) (t : Tensor) (ps : List Nat) (bs : List (Byte × Bool)) : State × EngineTry Unit :=
  let as := (ps.map (fun p => addrs (c.side + p) 16)).flatten
  if c.kind = 1 then engineWrite s ag ctx c.tag.toNat t.rid (ps.map (fun p => addrs (t.vaOf p) 16)).flatten bs
  else if c.kind = 2 then
    (modGang s gk (fun g => { g with
      kaolin := (as.zip bs).foldl (fun m e => sputD 0 e.1 e.2.1 m) g.kaolin
      kaolinPois := poisUnits 8 g.kaolinPois (as.zip (bs.map (·.2))) }), .done ())
  else if as.any (stashOwned s gk ag.op) then (s, .turn)
  else
    match fillAll s none ag gk true as with
    | (s, .error (rid, va, m)) => (s, .miss rid va m)
    | (s, .ok ()) => (wakeBars (modGang s gk (fun g => g.putCells (as.zip bs))) gk, .done ())

/-- Whether an older matrix operation has still to latch the slot of a line of a `cpys` (R216). -/
def slotInUse (s : State) (n gk slot : Nat) : Bool :=
  s.mats.any (fun e => e.1 < n && gangOf s e.2.wave = gk && e.2.isPass
    && e.2.bind.base + e.2.next ≤ slot && slot < e.2.bind.base + e.2.slabs)

/-- Ends a copy: it gives up its tag, its flag falls, and what waited for its lines goes on. -/
def finishCopy (s : State) (n : Nat) (o : Op) (c : CopyOp) : State := retryMem (endOp (tagDrop s o.ctx c.tag.toNat) n) none

/-- A copy stops at an address that Loam cannot back (R234). -/
def stopCopy (s : State) (n : Nat) (o : Op) (c : CopyOp) (va : Nat) : State :=
  let d : Deferred := { kind := 3, sub := 0x0A, apc := o.pc, addr := pointer (tensorOf c.trec).rid va, acc := 6, buf := c.buf,
                        syn0 := 0, syn1 := 0, syn2 := 0 }
  finishCopy (o.slots.foldl (fun s x => makePending s o.wave x d) s) n o c

/-- An engine waits at an address: its report is sent (R333). -/
def engineWait (s : State) (n : Nat) (o : Op) (src acc rid va : Nat) (m : Miss) : State :=
  modOp (reportMiss s o.ctx o.core src acc rid va m) n (fun o => { o with wait := some va })

/-- Credits a gang's barrier object, unless it is not valid (R191, R233). -/
def engineCredit (s : State) (gk : Nat) (bar : Option Nat) (bytes : Nat) : State :=
  match bar with
  | none => s
  | some a => if (Bar.read s gk a).valid && bytes != 0 then creditBar s gk a bytes else s

/-- COPY_LINE_WRITE (R233, R234, R296 to R298): one destination line is written whole and credited. -/
def execCopyLineWrite (n line : Nat) (s : State) : Answer :=
  match sget n s.ops with
  | none => .next s
  | some o =>
    match o.kind with
    | .copy c =>
      if !c.lines.contains line || (c.kind = 2 && slotInUse s n o.gang (128 * line / 65536)) then .next s
      else
        let t := tensorOf c.trec
        let ps := copyPieces c t line
        match copySource s (o.agent n 1) o.gang o.ctx c t ps with
        | (_, .turn) => .next s
        | (s, .miss rid va m) => .next (engineWait s n o 1 0 rid va m)
        | (s1, .done (c, bs)) =>
          match copyDest s1 (o.agent n 1) o.gang o.ctx c t ps bs with
          | (_, .turn) => .next s
          | (s, .miss rid va m) => .next (engineWait s n o 1 1 rid va m)
          | (s, .done ()) =>
            let c := { c with lines := c.lines.filter (· != line) }
            let s := modOp s n (fun o => { o with wait := none, kind := .copy c })
            let s := engineCredit (chargeCluster s (o.core / 4) (o.gang / 2 ^ 32) Config.lineClocks) o.gang c.bar (16 * ps.length)
            .next (if c.lines.isEmpty then finishCopy s n o c else retryMem s none)
    | _ => .next s

/-! ### Multicast windows (R166, R235, R382) -/

/-- Whether every core of a window's mask has joined. -/
def McWindow.full (w : McWindow) : Bool :=
  (List.range 16).all (fun i => !w.mask.getLsbD i || w.joined.any (fun j => j.2.2 = 16 * w.domain + i))

/-- The first request of a window names its clock. -/
def McWindow.core (w : McWindow) : Nat := (w.joined.head?.map (·.2.2)).getD (16 * w.domain)

/-- Whether a window's 64 clocks have passed. -/
def McWindow.over (s : State) (w : McWindow) : Bool := w.opened.toNat + 64 ≤ (coreOf s w.core).clock.toNat

/-- Where a window's line is read: the line, or that of its tag's cell. -/
def McWindow.source (s : State) (w : McWindow) : State × Except Miss Nat :=
  let va := 128 * (w.joined.head?.map (·.2.1)).getD 0
  if w.tag = 0 then (s, .ok w.pa)
  else
    match snoopCell s w.ctx va w.tag.toNat false with
    | (s, .error m) => (s, .error m)
    | (s, .ok ()) =>
      match cellFind s w.ctx (va / 4096) w.tag.toNat with
      | .found _ f => (s, .ok (f + va % 4096))
      | .absent _ => (s, .ok w.pa)

/-- A line arrives at an operation that requested it. -/
def mcArrive (o : Op) (line : Nat) (data : List Byte × Bool × Bool) : Op :=
  match o.kind with
  | .ldmc accs held mask ask sent got => { o with kind := .ldmc accs held mask ask (sent.filter (· != line)) (sput line data got) }
  | .copy c => { o with kind := .copy { c with sent := c.sent.filter (· != line), got := sput line data c.got } }
  | _ => o

/-- Closes a window: its line is read once and sent to every joined core. -/
def closeWindow (s : State) (k : Nat) (w : McWindow) : State :=
  match w.source s with
  | (_, .error _) => s
  | (s1, .ok pa) =>
    if reachesOwned s1 none w.ctx w.tag.toNat [128 * (w.joined.head?.map (·.2.1)).getD 0] [pa] then s
    else
      let r := bytesAt s1 (addrs pa 128)
      let data := (r.2.map (·.1), (r.2.take 64).any (·.2), (r.2.drop 64).any (·.2))
      wakeReleases (retryMem
        (w.joined.foldl (fun s j => modOp s j.1 (fun o => mcArrive o j.2.1 data)) { r.1 with mcWins := sdel k r.1.mcWins }) none)

/-- MULTICAST_WINDOW_CLOSE (R166): every core of the mask has joined, or 64 clocks have passed. -/
def execMulticastWindowClose (k : Nat) (s : State) : Answer :=
  match sget k s.mcWins with
  | none => .next s
  | some w =>
    if w.full || w.over s then .next (closeWindow s k w) else .next s

/-- A request joins the open window of its key, or opens one: a window whose 64 clocks have passed is joined no more
(R166, R384). -/
def joinWindow (s : State) (pa ctx core tag n line : Nat) (mask : BitVec 16) : State :=
  let same (w : McWindow) : Bool :=
    w.pa = pa && w.ctx = ctx && w.mask = mask && w.domain = core / 16 && w.tag.toNat = tag && !w.over s && !w.full
  match s.mcWins.find? (fun e => same e.2) with
  | some (k, w) =>
    let w := { w with joined := w.joined ++ [(n, line, core)] }
    let s := { s with mcWins := sput k w s.mcWins }
    if w.full then closeWindow s k w else s
  | none =>
    let k := s.nextOp
    let w : McWindow := { pa := pa, ctx := ctx, mask := mask, domain := core / 16, tag := BitVec.ofNat 12 tag,
                          joined := [(n, line, core)], opened := (coreOf s core).clock }
    let s := { s with mcWins := sput k w s.mcWins, nextOp := k + 1 }
    if w.full then closeWindow s k w else s

/-- MULTICAST_REQUEST (R166, R235): a line request of `ldmc`, by physical address, or of `cpymc`, by virtual line. -/
def execMulticastRequest (n line : Nat) (s : State) : Answer :=
  match sget n s.ops with
  | none => .next s
  | some o =>
    match o.kind with
    | .ldmc accs held mask ask sent got =>
      if !ask.contains line then .next s
      else
        let s := modOp s n (fun o => { o with kind := .ldmc accs held mask (ask.filter (· != line)) (sent ++ [line]) got })
        .next (joinWindow s line o.ctx o.core 0 n line mask)
    | .copy c =>
      if !c.ask.contains line then .next s
      else
        match walkFor s none o.ctx (128 * line) .read with
        | (s, .error m) => .next (engineWait s n o 1 0 (tensorOf c.trec).rid (128 * line) m)
        | (s, .ok (pte, pa)) =>
          let s := modOp s n (fun o => { o with wait := none, kind := .copy { c with ask := c.ask.filter (· != line), sent := c.sent ++ [line] } })
          .next (joinWindow s pa o.ctx o.core (if pte.testBit 63 then c.tag.toNat else 0) n line c.mask)
    | _ => .next s

/-! ### Collectives (R236 to R238) -/

/-- The operations of this device that have posted to a collective (R238). Members on other devices are out of the model
(DESIGN CHOICE, log 37). -/
def posted (s : State) (ctx group seq : Nat) : List (Nat × Op × CollOp) :=
  s.ops.filterMap (fun e => match e.2.kind with
    | .coll c => if e.2.ctx = ctx && collGroup c = group && collSeq c = seq && !c.crec.isEmpty && c.result.isNone then some (e.1, e.2, c) else none
    | _ => none)

/-- Whether members disagree (R238). -/
def disagree (a b : CollOp) : Bool :=
  a.kind != b.kind || a.op != b.op || a.ty != b.ty || collCount a != collCount b || collRoot a != collRoot b

/-- One step of red on an element (R238). -/
def collComb (op : BitVec 2) (ty : BitVec 5) (a b : Nat) : Nat :=
  if ty == 0xD then
    (if op == 0 then fmtB16.addBits .near false a b else fmtB16.minmax (op == 2) false a b)
  else (redOp op.toNat ty 0 ty (BitVec.ofNat 64 a) (BitVec.ofNat 64 b) 0).toNat % 2 ^ (8 * tyBytes ty)

/-- Elements of a byte string. -/
def elemsOf (size : Nat) (bs : List (Byte × Bool)) : List (Nat × Bool) :=
  (List.range (bs.length / size)).map (fun i =>
    let p := (bs.drop (size * i)).take size
    (fromBytesLE (p.map (·.1)), p.any (·.2)))

/-- red(x_0, …), elementwise; poison goes with an element (R238, R466). -/
def collReduce (c : CollOp) : List (List (Nat × Bool)) → List (Nat × Bool)
  | [] => []
  | x :: xs => xs.foldl (fun acc y => (acc.zip y).map (fun z => (collComb c.op c.ty z.1.1 z.2.1, z.1.2 || z.2.2))) x

/-- What a member's destination receives (R238), from the sources by rank. -/
def collResult (c : CollOp) (srcs : List (List (Byte × Bool))) : List (Byte × Bool) :=
  let size := collSize c
  let bytesOf (es : List (Nat × Bool)) : List (Byte × Bool) := (es.map (fun e => (toBytesLE size e.1).map (·, e.2))).flatten
  if c.kind == 0 then bytesOf (collReduce c (srcs.map (elemsOf size)))
  else if c.kind == 1 then
    bytesOf (((collReduce c (srcs.map (elemsOf size))).drop (c.rank * collCount c)).take (collCount c))
  else if c.kind == 2 then srcs.flatten
  else srcs.getD (collRoot c) []

/-- Ends a member: at once, or at restore where its gang is saved (R236). A credit to a saved gang is held. -/
def finishMember (s : State) (n : Nat) (o : Op) (c : CollOp) (bytes : Nat) (err : Option Deferred) : State :=
  if gangSaved s o.gang then
    let s := modGang { s with ops := sdel n s.ops } o.gang (fun g => { g with saved := g.saved.map (fun v => { v with
      ops := sput n { o with kind := .coll { c with lines := [], crec := [], result := none } } v.ops
      waves := match err with
        | none => v.waves
        | some d => smod (o.wave % 2 ^ 16) (fun w => { w with fibres := w.fibres.map (fun e =>
            if o.slots.contains e.1 then
              (e.1, if e.2.deferred.isSome then { e.2 with lostDef := true } else { e.2 with deferred := some d })
            else e) }) v.waves }) })
    if bytes = 0 then s else holdCredit s o.gang { bar := c.bar, bytes := bytes }
  else
    let s := match err with
      | none => engineCredit s o.gang (some c.bar) bytes
      | some d => o.slots.foldl (fun s x => makePending s o.wave x d) s
    retryMem (endOp s n) none

/-- A member's destination receives its result and the member ends; while the store of its saved gang's credits is full, the result
waits for the restore (R236). -/
def giveMember (s : State) (m : Nat × Op × CollOp) (dst : List Nat) (bs : List (Byte × Bool)) : State :=
  if storeFull s m.2.1.gang && !bs.isEmpty then modOp s m.1 (fun o => { o with kind := .coll { m.2.2 with result := some bs } })
  else finishMember (putUnits s (dst.zip bs)) m.1 m.2.1 m.2.2 bs.length none

/-- The error of a collective that does not take place (R209, R238). -/
def collError (o : Op) (c : CollOp) (sub : BitVec 16) : Deferred :=
  { kind := 9, sub := sub, apc := o.pc, addr := 0, acc := 7, buf := 0xFF, syn0 := BitVec.ofNat 32 (collSeq c),
    syn1 := BitVec.ofNat 32 (collGroup c), syn2 := 0 }

/-- Every member posted ends with an error. -/
def failMembers (s : State) (ms : List (Nat × Op × CollOp)) (sub : BitVec 16) : State :=
  ms.foldl (fun s m => finishMember s m.1 m.2.1 m.2.2 0 (some (collError m.2.1 m.2.2 sub))) s

/-- Reads the sources of the members, in order of rank. -/
def collSources (s : State) : List (Nat × Op × CollOp) → State × Except (Option (Nat × Op × Nat × Nat × Miss)) (List (List (Byte × Bool)))
  | [] => (s, .ok [])
  | m :: rest =>
    let src := collSrc m.2.2
    match engineRead s (m.2.1.agent m.1 3) m.2.1.ctx 0 (ptrRid src) (addrs (ptrVa src) (collIn m.2.2 m.2.2.n)) with
    | (s, .turn) => (s, .error none)
    | (s, .miss rid va x) => (s, .error (some (m.1, m.2.1, rid, va, x)))
    | (s, .done bs) =>
      match collSources s rest with
      | (s, .ok l) => (s, .ok (bs :: l))
      | r => r

/-- Translates the members' destinations for writing. -/
def collDests (s : State) : List (Nat × Op × CollOp) → State × Except (Option (Nat × Op × Nat × Nat × Miss)) (List (List Nat))
  | [] => (s, .ok [])
  | m :: rest =>
    let dst := collDst m.2.2
    match physical s none m.2.1.ctx .write true 0 (m.2.1.agent m.1 3) (ptrRid dst) (addrs (ptrVa dst) (collOut m.2.2 m.2.2.n)) with
    | (s, .error (va, x)) => (s, .error (some (m.1, m.2.1, ptrRid dst, va, x)))
    | (s, .ok pas) =>
      if memOwned s (some m.1) pas then (s, .error none)
      else
        match collDests s rest with
        | (s, .ok l) => (s, .ok (pas :: l))
        | r => r

/-- A member of a collective that was performed, whose result waits no more for the restore of its gang (R236). -/
def lateMember (s : State) (ctx group seq : Nat) : Option (Nat × Op × CollOp) :=
  s.ops.findSome? (fun e => match e.2.kind with
    | .coll c =>
      if e.2.ctx = ctx && collGroup c = group && collSeq c = seq && c.result.isSome && !storeFull s e.2.gang then some (e.1, e.2, c) else none
    | _ => none)

/-- The destinations of some members receive their results, once every page is there. -/
def giveMembers (s : State) (ms : List (Nat × Op × CollOp)) (result : CollOp → List (Byte × Bool)) : State :=
  match collDests s ms with
  | (_, .error none) => s
  | (s, .error (some (n, o, rid, va, x))) => engineWait s n o 3 1 rid va x
  | (s, .ok dsts) => (ms.zip dsts).foldl (fun s z => giveMember s z.1 z.2 (result z.1.2.2)) s

/-- A collective whose members have all posted, in order of rank (R238). -/
def performColl (s : State) (byRank : List (Nat × Op × CollOp)) : State :=
  match collSources s byRank with
  | (_, .error none) => s
  | (s, .error (some (n, o, rid, va, x))) => engineWait s n o 3 0 rid va x
  | (s, .ok srcs) => giveMembers s byRank (fun c => collResult c srcs)

/-- COLLECTIVE_PERFORM (R238): every member has posted, or a member's device is fenced, or a result waits for a gang that was
saved. -/
def execCollectivePerform (ctx group seq : Nat) (s : State) : Answer :=
  match lateMember s ctx group seq with
  | some m => .next (giveMembers s [m] (fun c => c.result.getD []))
  | none =>
    let ms := posted s ctx group seq
    match ms.head? with
    | none => .next s
    | some m =>
      let members := (groupOf s ctx group).getD []
      if members.any (fun x => s.peers.fenced.contains x.1) then .next (failMembers s ms 3)
      else
        let byRank := (List.range m.2.2.n).filterMap (fun r => ms.find? (fun x => x.2.2.rank = r))
        if byRank.length != m.2.2.n then .next s
        else if byRank.any (fun x => disagree x.2.2 m.2.2) then .next (failMembers s byRank 2)
        else .next (performColl s byRank)

end Sys2Proof.Machine
end

