-- ==== Sys2Proof/Machine/Ray.lean ====
section
/-! DEFINITION. The arithmetic of the intersection unit: exact rational numbers, box nodes, triangle
blocks and bricks (R367 to R373), and the coverage of a screen tile (R270, R271). -/

namespace Sys2Proof.Machine

/-! ### Rational numbers -/

/-- A rational number; `den` is not 0. -/
structure Q where
  num : Int
  den : Nat
  deriving DecidableEq, Repr

def Q.ofInt (n : Int) : Q := { num := n, den := 1 }
def Q.add (a b : Q) : Q := { num := a.num * b.den + b.num * a.den, den := a.den * b.den }
def Q.neg (a : Q) : Q := { a with num := -a.num }
def Q.sub (a b : Q) : Q := a.add b.neg
def Q.mul (a b : Q) : Q := { num := a.num * b.num, den := a.den * b.den }
/-- The quotient by a number that is not 0. -/
def Q.div (a b : Q) : Q := { num := a.num * b.den * (if b.num < 0 then -1 else 1), den := a.den * b.num.natAbs }
def Q.le (a b : Q) : Bool := a.num * b.den ≤ b.num * a.den
def Q.lt (a b : Q) : Bool := a.num * b.den < b.num * a.den
def Q.isZero (a : Q) : Bool := a.num = 0
def Q.floor (a : Q) : Int := a.num / (a.den : Int)

/-- The number 2^e. -/
def Q.pow2 (e : Int) : Q := { num := (2 ^ e.toNat : Nat), den := 2 ^ (-e).toNat }

/-- The nearest integer, ties to even. -/
def Q.rne (a : Q) : Int :=
  let f := a.floor
  let r := 2 * (a.num - f * a.den)
  if r < a.den then f else if (a.den : Int) < r then f + 1 else if f % 2 = 0 then f else f + 1

/-- The number rounded once to f32 (R54). -/
def Q.fl32 (a : Q) : W32 :=
  if a.num = 0 then 0
  else
    let q := quotient a.num.natAbs a.den 28
    BitVec.ofNat 32 (fmt32.pack .near (.fin (a.num < 0) q.1 q.2.1) q.2.2)

/-- The value of an f32 word. -/
def f32Val (x : W32) : Flt := fmt32.value x.toNat

/-- A finite value as a rational number. -/
def Flt.toQ : Flt → Option Q
  | .fin n m e => some ((Q.ofInt (signed n m)).mul (Q.pow2 e))
  | _ => none

/-- An f32 word as a rational number, if it is finite. -/
def f32Q (x : W32) : Option Q := (f32Val x).toQ

/-- Whether x ≤ y, as values. -/
def f32Le (x y : W32) : Bool :=
  match Flt.cmp (f32Val x) (f32Val y) with | some .lt => true | some .eq => true | _ => false

/-- A little-endian word of some bytes. -/
def le32 (bs : List Byte) (off : Nat) : W32 := BitVec.ofNat 32 (fromBytesLE ((bs.drop off).take 4))

/-- +∞. -/
def f32Inf : W32 := 0x7F800000

/-! ### Intervals of t -/

/-- A closed interval of t; a bound that is absent is unbounded. -/
structure Span where
  lo : Option Q
  hi : Option Q
  deriving DecidableEq, Repr

/-- The interval [lo, hi] of two f32 values, if some real t lies in it. -/
def Span.ofF32 (lo hi : W32) : Option Span :=
  match f32Val lo, f32Val hi with
  | .nan, _ | _, .nan => none
  | .inf false, _ | _, .inf true => none
  | a, b => some { lo := a.toQ, hi := b.toQ }

/-- The part of an interval at or above a and at or below b. -/
def Span.cut (s : Span) (a b : Q) : Span :=
  { lo := some (match s.lo with | none => a | some x => if x.lt a then a else x)
    hi := some (match s.hi with | none => b | some x => if b.lt x then b else x) }

/-- Whether an interval holds a number. -/
def Span.holds (s : Span) : Bool :=
  match s.lo, s.hi with
  | some a, some b => a.le b
  | _, _ => true

/-- The part of an interval in which o + t × d lies between two bounds. -/
def Span.slab (s : Span) (o d lo hi : Q) : Option Span :=
  if d.isZero then (if lo.le o && o.le hi then some s else none)
  else
    let a := (lo.sub o).div d
    let b := (hi.sub o).div d
    let r := if a.le b then s.cut a b else s.cut b a
    if r.holds then some r else none

/-- A box: the bounds of each axis. -/
abbrev Box := List (Q × Q)

/-- The part of an interval in which a ray lies in a box. -/
def Span.inBox (s : Span) : List Q → List Q → Box → Option Span
  | o :: os, d :: ds, b :: bs => (s.slab o d b.1 b.2).bind (fun r => r.inBox os ds bs)
  | _, _, _ => some s

/-! ### Rays and box nodes (R266, R367, R368) -/

/-- The eight words of a ray: ox, oy, oz, tmin, dx, dy, dz, tmax. -/
def rayOrigin (r : List W32) : Option (List Q) := ((r.take 3).map f32Q).mapM id
def rayDir (r : List W32) : Option (List Q) := (((r.drop 4).take 3).map f32Q).mapM id
def rayTmin (r : List W32) : W32 := r.getD 3 0

/-- Whether a new ray misses at once (R266). -/
def rayVoid (r : List W32) : Bool :=
  r.any (fun x => (f32Val x).isNan) || !f32Le (rayTmin r) (r.getD 7 0) || ((r.drop 4).take 3).all (fun x => (f32Val x).isZero)

/-- Child word k of a box node. -/
def childWord (node : List Byte) (k : Nat) : W64 := BitVec.ofNat 64 (fromBytesLE ((node.drop (64 + 8 * k)).take 8))

/-- TYPE, the address and the leaf mask of a child word. -/
def childType (c : W64) : Nat := (c.extractLsb' 0 3).toNat
def childAddr (c : W64) : Nat := (c.extractLsb' 0 57).toNat / 64 * 64
def childMask (c : W64) : BitVec 6 := c.extractLsb' 57 6

/-- Byte i of a node as a number. -/
def byteAt (bs : List Byte) (i : Nat) : Nat := (bs.getD i 0).toNat

/-- Whether child k is treated as empty for its own word or box (R368). -/
def childEmpty (node : List Byte) (k : Nat) : Bool :=
  let c := childWord node k
  c.getLsbD 63 || c.extractLsb' 3 3 != 0 || childType c = 0 || 3 < childType c
    || (childType c != 2 && c.getLsbD 6)
    || (List.range 3).any (fun a => byteAt node (19 + 6 * k + a) < byteAt node (16 + 6 * k + a))

/-- The box of child k (R367), if the node's origin is finite. -/
def childBox (node : List Byte) (k : Nat) : Option Box :=
  ((List.range 3).map (fun a =>
    (f32Q (le32 node (4 * a))).map (fun o =>
      let sc := Q.pow2 ((byteAt node (12 + a) : Int) - 127)
      (o.add ((Q.ofInt (byteAt node (16 + 6 * k + a))).mul sc), o.add ((Q.ofInt (byteAt node (19 + 6 * k + a))).mul sc))))).mapM id

/-- Whether a ray passes the box test of child k, for t in [tmin, tcur] (R369). -/
def boxTest (ray : List W32) (tcur : W32) (node : List Byte) (k : Nat) : Bool :=
  match rayOrigin ray, rayDir ray, childBox node k, Span.ofF32 (rayTmin ray) tcur with
  | some o, some d, some b, some s => s.holds && (s.inBox o d b).isSome
  | _, _, _, _ => false

/-! ### Triangle blocks (R370, R371) -/

abbrev V3 := List Q

def dot (a b : V3) : Q := (a.zipWith Q.mul b).foldl Q.add (Q.ofInt 0)
def vsub (a b : V3) : V3 := a.zipWith Q.sub b
def cross (a b : V3) : V3 :=
  match a, b with
  | [a0, a1, a2], [b0, b1, b2] =>
    [(a1.mul b2).sub (a2.mul b1), (a2.mul b0).sub (a0.mul b2), (a0.mul b1).sub (a1.mul b0)]
  | _, _ => []

/-- Solves o + t d = q0 + u (q1 - q0) + v (q2 - q0): t, u and v, where the determinant is not 0. -/
def solveTri (o d q0 q1 q2 : V3) : Option (Q × Q × Q) :=
  let e1 := vsub q1 q0
  let e2 := vsub q2 q0
  let s := vsub o q0
  let p := cross d e2
  let det := dot e1 p
  if det.isZero then none
  else
    let q := cross s e1
    some ((dot e2 q).div det, (dot s p).div det, (dot d q).div det)

/-- A vertex of a triangle block, if its coordinates are finite. -/
def vertex (blk : List Byte) (i : Nat) : Option V3 := ((List.range 3).map (fun a => f32Q (le32 blk (12 * i + 4 * a)))).mapM id

/-- The reported t, u and v of triangle 0 or 1 of a block, where the ray meets it. -/
def triHit (ray : List W32) (blk : List Byte) (i : Nat) : Option (W32 × W32 × W32) :=
  match rayOrigin ray, rayDir ray, vertex blk (if i = 0 then 0 else 2), vertex blk 1, vertex blk (if i = 0 then 2 else 3) with
  | some o, some d, some q0, some q1, some q2 =>
    match solveTri o d q0 q1 q2 with
    | none => none
    | some (t, u, v) =>
      if (Q.ofInt 0).le u && (Q.ofInt 0).le v && (u.add v).le (Q.ofInt 1) then some (t.fl32, u.fl32, v.fl32) else none
  | _, _, _, _, _ => none

/-- Whether a triangle block's reserved bits are 0. -/
def triGood (blk : List Byte) : Bool := byteAt blk 54 < 8 && (List.range 9).all (fun i => byteAt blk (55 + i) = 0)

/-- Whether triangle i of a block is present, and whether it is opaque. -/
def triPresent (blk : List Byte) (i : Nat) : Bool := i = 0 || (byteAt blk 54).testBit 0
def triOpaque (blk : List Byte) (i : Nat) : Bool := (byteAt blk 54).testBit (i + 1)

/-! ### Bricks (R372, R373) -/

/-- Whether a voxel of a brick is occupied. -/
def occupied (brk : List Byte) (n : Nat) : Bool := (byteAt brk (n / 8)).testBit (n % 8)

/-- The number of occupied voxels below n. -/
def payloadIndex (brk : List Byte) (n : Nat) : Nat := ((List.range n).filter (occupied brk)).length

/-- The origin and edge length of a brick that may offer candidates. -/
def brickBox (brk : List Byte) : Option (V3 × Q) :=
  match ((List.range 3).map (fun a => f32Q (le32 brk (64 + 4 * a)))).mapM id, f32Q (le32 brk 76) with
  | some o, some vs =>
    if 0 < vs.num && byteAt brk 94 < 2 && (List.range 33).all (fun i => byteAt brk (95 + i) = 0) then some (o, vs) else none
  | _, _ => none

/-- The axis of greatest (`big`) or least time; ties go to the first. -/
def bestAxis (big : Bool) (ts : List (Option Q)) : Option (Nat × Q) :=
  (ts.zipIdx).foldl (fun m p =>
    match p.1, m with
    | none, _ => m
    | some t, none => some (p.2, t)
    | some t, some (k, x) => if (if big then x.lt t else t.lt x) then some (p.2, t) else some (k, x)) none

/-- The face that a ray crosses on an axis. -/
def faceOf (d : V3) (k : Nat) : Nat := if 0 < (d.getD k (Q.ofInt 0)).num then 2 * k else 2 * k + 1

/-- The voxels from a voxel on: number, entry time and face. -/
def ddaFrom (o d b : V3) (vs : Q) : Nat → List Int → Q → Nat → List (Nat × Q × Nat)
  | 0, _, _, _ => []
  | n + 1, v, te, face =>
    let at' (k : Nat) : Q := d.getD k (Q.ofInt 0)
    let times := (List.range 3).map (fun k =>
      if (at' k).isZero then none
      else
        let edge := v.getD k 0 + (if 0 < (at' k).num then 1 else 0)
        some ((((b.getD k (Q.ofInt 0)).add ((Q.ofInt edge).mul vs)).sub (o.getD k (Q.ofInt 0))).div (at' k)))
    let here := ((v.getD 0 0 + 8 * v.getD 1 0 + 64 * v.getD 2 0).toNat, te, face)
    match bestAxis false times with
    | none => [here]
    | some (k, t) =>
      let v := v.zipIdx.map (fun p => if p.2 = k then p.1 + (if 0 < (at' k).num then 1 else -1) else p.1)
      if v.all (fun x => 0 ≤ x && x ≤ 7) then here :: ddaFrom o d b vs n v t (faceOf d k) else [here]

/-- The voxels of a brick that a ray visits from tmin on, in order; more than 22 steps cannot leave a voxel inside. -/
def ddaPath (ray : List W32) (brk : List Byte) : List (Nat × Q × Nat) :=
  match rayOrigin ray, rayDir ray, brickBox brk, Span.ofF32 (rayTmin ray) f32Inf with
  | some o, some d, some (b, vs), some s =>
    let hi (x : Q) : Q := x.add ((Q.ofInt 8).mul vs)
    match s.inBox o d (b.map (fun x => (x, hi x))) with
    | some { lo := some ta, hi := _ } =>
      let entry := (List.range 3).map (fun k =>
        let dk := d.getD k (Q.ofInt 0)
        let bk := b.getD k (Q.ofInt 0)
        if dk.isZero then none else some (((if 0 < dk.num then bk else hi bk).sub (o.getD k (Q.ofInt 0))).div dk))
      let face := if s.lo.any (fun m => ta.le m) then 6 else ((bestAxis true entry).map (fun p => faceOf d p.1)).getD 6
      let v := (List.range 3).map (fun k =>
        let p := (o.getD k (Q.ofInt 0)).add (ta.mul (d.getD k (Q.ofInt 0)))
        min 7 ((p.sub (b.getD k (Q.ofInt 0))).div vs).floor)
      ddaFrom o d b vs 32 v ta face
    | _ => []
  | _, _, _, _ => []

/-! ### Coverage (R270, R271) -/

/-- An edge function's value at (px, py), with the sense of the edge. -/
def edgeIn (neg : Bool) (a b : Int × Int) (px py : Int) : Bool :=
  let dx := b.1 - a.1
  let dy := b.2 - a.2
  let e := dx * (py - a.2) - dy * (px - a.1)
  let e := if neg then -e else e
  let dx := if neg then -dx else dx
  let dy := if neg then -dy else dy
  0 < e || (e = 0 && (dy < 0 || (dy = 0 && 0 < dx)))

/-- The vertices of the operand words. -/
def rastVertex (ws : List W32) (i : Nat) : Int × Int := ((ws.getD (2 * i) 0).toInt, (ws.getD (2 * i + 1) 0).toInt)

/-- Twice the signed area. -/
def rastArea (ws : List W32) : Int :=
  let a := rastVertex ws 0
  let b := rastVertex ws 1
  let c := rastVertex ws 2
  (b.1 - a.1) * (c.2 - a.2) - (b.2 - a.2) * (c.1 - a.1)

/-- Whether the centre of pixel (x, y) of the screen is covered. -/
def covered (ws : List W32) (cull : BitVec 2) (x y : Nat) : Bool :=
  let area := rastArea ws
  let px : Int := 256 * x + 128
  let py : Int := 256 * y + 128
  let neg := area < 0
  area != 0 && !(neg && cull.getLsbD 0) && !(0 < area && cull.getLsbD 1)
    && edgeIn neg (rastVertex ws 0) (rastVertex ws 1) px py && edgeIn neg (rastVertex ws 1) (rastVertex ws 2) px py
    && edgeIn neg (rastVertex ws 2) (rastVertex ws 0) px py

/-- Every second bit of m from bit `lo`, six of them. -/
def demorton (m lo : Nat) : Nat := ((List.range 6).map (fun i => if m.testBit (2 * i + lo) then 2 ^ i else 0)).sum

/-- The coverage mask of block m of the operand's tile. -/
def blockMask (ws : List W32) (cull : BitVec 2) (m : Nat) : Nat :=
  let t := (ws.getD 6 0).toNat
  let x0 := 256 * (t % 65536) + 4 * demorton m 0
  let y0 := 256 * (t / 65536) + 4 * demorton m 1
  ((List.range 16).map (fun i => if covered ws cull (x0 + i % 4) (y0 + i / 4) then 2 ^ i else 0)).sum

/-- The entries from block `m` on, `n` blocks, at most `c` entries, and the first covered block not written. -/
def rastBlocks (ws : List W32) (cull : BitVec 2) : Nat → Nat → Nat → List W32 × Nat
  | 0, _, _ => ([], 4096)
  | n + 1, m, c =>
    let mask := blockMask ws cull m
    if mask = 0 then rastBlocks ws cull n (m + 1) c
    else
      match c with
      | 0 => ([], m)
      | c + 1 =>
        let r := rastBlocks ws cull n (m + 1) c
        (BitVec.ofNat 32 (demorton m 1 * 2 ^ 22 + demorton m 0 * 2 ^ 16 + mask) :: r.1, r.2)

/-- What `rast` finds for its operands and the word that holds capacity and cursor: entries and the next cursor. -/
def rastFind (ws : List W32) (cull : BitVec 2) (cap : W32) : List W32 × Nat :=
  let cur := min 4096 (cap.toNat / 65536 % 8192)
  rastBlocks ws cull (4096 - cur) cur (cap.toNat % 65536)

end Sys2Proof.Machine
end

