-- ==== Sys2Proof/Machine/Graphics.lean ====
section
/-! DEFINITION. The reads of graphics instructions (R263), the traversal of an acceleration structure (R264 to
R269, R369) and the work of `rast` (R270). -/

namespace Sys2Proof.Machine

/-! ### Reads (R263) -/

/-- What a graphics instruction's work for a fibre comes to: a value, a trap, a wait, with the pointer of the page
that misses, or a stop. -/
inductive Gx (α : Type) where
  | ok (v : α)
  | trap (c : Cause)
  | hold (page : Option W64)
  /-- A debugger's watch range stops the fibre (R457): its number, and the pointer that meets it. -/
  | stop (k : Nat) (addr : W64)

/-- Goes on with a value. -/
def gxThen {α β : Type} (x : State × Gx α) (f : State → α → State × Gx β) : State × Gx β :=
  match x with
  | (s, .ok v) => f s v
  | (s, .trap c) => (s, .trap c)
  | (s, .hold p) => (s, .hold p)
  | (s, .stop k a) => (s, .stop k a)

/-- Goes through a list. -/
def gxEach {α β : Type} (f : State → α → State × Gx β) (s : State) : List α → State × Gx (List β)
  | [] => (s, .ok [])
  | a :: l => gxThen (f s a) (fun s b => gxThen (gxEach f s l) (fun s bs => (s, .ok (b :: bs))))

/-- Who reads: the core, its context, the descriptor's number, and the debug slot whose watch ranges are checked. -/
structure GxEnv where
  core : Nat
  ctx : Nat
  desc : BitVec 8
  watch : Option Nat := none
  deriving DecidableEq, Repr

/-- The stop of an access at a watch range, if it meets one. -/
def GxEnv.stops {α : Type} (e : GxEnv) (s : State) (rid : Nat) (vas : List Nat) (write : Bool) : Option (Gx α) :=
  (e.watch.bind (fun d => watchAt s d rid vas true write)).map (fun h => .stop h.1 (pointer rid h.2))

/-- Reads `n` bytes that lie in one line, for a graphics instruction. -/
def gxRead (e : GxEnv) (s : State) (rid va n : Nat) : State × Gx (List Byte) :=
  let r := regionOf s (some e.core) e.ctx rid
  let s := r.1
  let cause (sub : BitVec 16) (addr : W64) : Cause := { kind := 3, sub := sub, addr := addr, buf := e.desc, acc := 0 }
  if !inRegion r.2 va n || 2 ^ 57 < va + n then (s, .trap (cause 5 (if va < 2 ^ 57 then pointer rid va else 0)))
  else if siltOverlap s e.core e.ctx (addrs va n) then (s, .hold none)
  else
    match translate s (some e.core) e.ctx va .read with
    | (s, .error m) => (reportMiss s e.ctx e.core 0 0 rid va m, .hold (some (pointer rid va)))
    | (s, .ok (pte, pa)) =>
      if pte.testBit 63 then (s, .trap (cause 0x0B (pointer rid va)))
      else
        match e.stops s rid (addrs va n) false with
        | some x => (s, x)
        | none =>
          if memOwned s none (addrs pa n) then (s, .hold none)
          else
            let b := bytesAt s (addrs pa n)
            match b.2.findIdx? (·.2) with
            | some i =>
              (b.1, .trap { kind := 0x0C, sub := 4, addr := pointer rid (va + i), buf := e.desc, acc := 0, syn0 := 3
                            syn1 := BitVec.ofNat 32 ((va + i) % 128) })
            | none => (b.1, .ok (b.2.map (·.1)))

/-- A trap of the kind *graphics* (R262, R425). -/
def gxCause (sub : BitVec 16) (word plen : Nat) : Cause :=
  { kind := 0x0B, sub := sub, syn0 := BitVec.ofNat 32 word, syn1 := BitVec.ofNat 32 plen }

/-- What an instruction gives a fibre when it changes nothing but registers and a predicate. -/
def GfxResult.plain (slot : Nat) (regs : List (Nat × W32)) (pred : Option (BitVec 4 × Bool)) : GfxResult :=
  { slot := slot, regs := regs, pred := pred, hit := none, trav := none, deeper := false, cells := [] }

/-! ### Descriptors of acceleration structures (R264) -/

/-- A descriptor's register as a number. -/
def descW (d : List W64) (i : Nat) : Nat := (d.getD i 0).toNat

/-- Whether an acceleration-structure descriptor is valid. -/
def structGood (d : List W64) : Bool :=
  (descW d 3).testBit 16 && bits (descW d 3) 17 47 = 0 && bits (descW d 0) 0 7 = 0 && bits (descW d 1) 0 4 = 0
    && bits (descW d 2) 57 7 = 0 && bits (descW d 2) 0 3 = 0

/-! ### Candidates (R266, R369) -/

/-- Whether the candidate precedes the best so far, by leaf address and primitive index. -/
def precedes (a b : HitRec) : Bool := a.leaf.toNat < b.leaf.toNat || (a.leaf = b.leaf && a.prim.toNat < b.prim.toNat)

/-- Accepts a candidate (R369). -/
def Traversal.accept (tv : Traversal) (c : HitRec) : Traversal :=
  let best := match tv.best with
    | none => c
    | some b => if Flt.cmp (f32Val b.t) (f32Val c.t) == some .eq && precedes b c then b else c
  { tv with best := some best, tcur := best.t }

/-- How a walk stops. -/
inductive WalkEnd where
  | done | stack | cand
  deriving DecidableEq, Repr

/-- Whether a t lies in [tmin, tcur]. -/
def Traversal.inRange (tv : Traversal) (t : W32) : Bool := f32Le (rayTmin tv.ray) t && f32Le t tv.tcur

/-- Offers a candidate: it is accepted, which ends the traversal under `.first`, or it suspends the traversal. -/
def Traversal.offer (tv : Traversal) (c : HitRec) (isOpaque : Bool) : Traversal × Option WalkEnd :=
  if isOpaque || tv.opq then
    let tv := tv.accept c
    (tv, if tv.first then some .done else none)
  else ({ tv with cand := c }, some .cand)

/-- The candidate of a triangle. -/
def triCand (blk : List Byte) (leaf i : Nat) (h : W32 × W32 × W32) : HitRec :=
  { status := 0, t := h.1, u := h.2.1, v := h.2.2, prim := BitVec.ofNat 32 i, leaf := BitVec.ofNat 64 leaf, pidx := 0, face := 0
    hg := (le32 blk 52) &&& 0xFFFF, geo := le32 blk 48 }

/-- Visits a triangle block from a triangle on (R370, R371). -/
def visitTri (tv : Traversal) (blk : List Byte) (leaf : Nat) : List Nat → Traversal × Option WalkEnd
  | [] => (tv, none)
  | i :: rest =>
    match (if triGood blk && triPresent blk i then triHit tv.ray blk i else none) with
    | none => visitTri tv blk leaf rest
    | some h =>
      if tv.inRange h.1 then
        match tv.offer (triCand blk leaf i h) (triOpaque blk i) with
        | (tv, none) => visitTri tv blk leaf rest
        | (tv, some e) => ({ tv with pos := .tri (BitVec.ofNat 64 leaf) (i + 1) }, some e)
      else visitTri tv blk leaf rest

/-- The candidate of a voxel. -/
def voxelCand (brk : List Byte) (leaf n : Nat) (t : W32) (face : Nat) : HitRec :=
  { status := 0, t := t, u := 0, v := 0, prim := BitVec.ofNat 32 n, leaf := BitVec.ofNat 64 leaf
    pidx := BitVec.ofNat 32 (payloadIndex brk n), face := BitVec.ofNat 32 face, hg := (le32 brk 92) &&& 0xFFFF, geo := le32 brk 88 }

/-- Visits the voxels of a brick that are left of its path, after `k` steps (R373). -/
def visitBrick (tv : Traversal) (brk : List Byte) (leaf : Nat) : Nat → List (Nat × Q × Nat) → Traversal × Option WalkEnd
  | _, [] => (tv, none)
  | k, (n, te, face) :: rest =>
    let t := te.fl32
    if 0 < k && !f32Le t tv.tcur then (tv, none)
    else if occupied brk n && tv.inRange t then
      match tv.offer (voxelCand brk leaf n t face) ((byteAt brk 94).testBit 0) with
      | (tv, none) => visitBrick tv brk leaf (k + 1) rest
      | (tv, some e) => ({ tv with pos := .brick (BitVec.ofNat 64 leaf) (k + 1) }, some e)
    else visitBrick tv brk leaf (k + 1) rest

/-- Whether some t in [tmin, tcur] lies in a brick. -/
def brickMet (tv : Traversal) (brk : List Byte) : Bool :=
  match rayOrigin tv.ray, rayDir tv.ray, brickBox brk, Span.ofF32 (rayTmin tv.ray) tv.tcur with
  | some o, some d, some (b, vs), some s => s.holds && (s.inBox o d (b.map (fun x => (x, x.add ((Q.ofInt 8).mul vs))))).isSome
  | _, _, _, _ => false

/-- Visits a leaf that has been read, from its start or from where the traversal stands. -/
def visitLeaf (tv : Traversal) (data : List Byte) (leaf : Nat) (pos : LeafPos) : Traversal × Option WalkEnd :=
  let tv := { tv with pos := .none }
  match pos with
  | .none => (tv, none)
  | .tri _ next => visitTri tv data leaf ((List.range 2).drop next)
  | .brick _ 0 => if brickMet tv data then visitBrick tv data leaf 0 (ddaPath tv.ray data) else (tv, none)
  | .brick _ k => visitBrick tv data leaf k ((ddaPath tv.ray data).drop k)

/-- Pushes the children of a box node that pass; none when a push would exceed 64 entries (R369). -/
def pushChildren (tv : Traversal) (node : List Byte) : List Nat → List W64 → Option (List W64)
  | [], st => some st
  | k :: rest, st =>
    let c := childWord node k
    if childEmpty node k then pushChildren tv node rest st
    else if childType c != 1 && childMask c &&& tv.mask == 0 then pushChildren tv node rest st
    else if !boxTest tv.ray tv.tcur node k then pushChildren tv node rest st
    else if 64 ≤ st.length then none
    else pushChildren tv node rest (c :: st)

/-- Where a leaf's visit starts. -/
def leafStart (c : W64) : LeafPos := if childType c = 2 then .tri (BitVec.ofNat 64 (childAddr c)) 0 else .brick (BitVec.ofNat 64 (childAddr c)) 0

/-- The bytes of a leaf's position. -/
def LeafPos.place : LeafPos → Option (Nat × Nat)
  | .none => Option.none
  | .tri a _ => some (a.toNat, 64)
  | .brick a _ => some (a.toNat, 128)

/-- Walks a structure (R369): reads what stands next until the stack is empty, a candidate suspends the traversal, or it
ends. The first argument bounds the number of reads; a walk that never ends holds its fibre. -/
def walkTree (e : GxEnv) : Nat → State → Traversal → State × Gx (Traversal × WalkEnd)
  | 0, s, _ => (s, .hold none)
  | n + 1, s, tv =>
    let rid := ptrRid (tv.desc.getD 0 0)
    let leaf (s : State) (a len : Nat) (pos : LeafPos) (tv : Traversal) : State × Gx (Traversal × WalkEnd) :=
      gxThen (gxRead e s rid a len) (fun s data =>
        match visitLeaf tv data a pos with
        | (tv, some w) => (s, .ok (tv, w))
        | (tv, none) => walkTree e n s tv)
    match tv.pos.place with
    | some (a, len) => leaf s a len tv.pos tv
    | none =>
      match tv.stack with
      | [] => (s, .ok (tv, .done))
      | c :: st =>
        let tv := { tv with stack := st }
        if childType c = 1 then
          gxThen (gxRead e s rid (childAddr c) 128) (fun s node =>
            match pushChildren tv node [7, 6, 5, 4, 3, 2, 1, 0] st with
            | none => (s, .ok (tv, .stack))
            | some st => walkTree e n s { tv with stack := st })
        else leaf s (childAddr c) (if childType c = 2 then 64 else 128) (leafStart c) tv

/-- Reads after which a walk has come back to a traversal it has had, and so never ends: a traversal (the stack of at most 64
words, the place in a leaf, tcur and the best candidate) has fewer values, and nothing else changes while it walks. -/
def walkBound : Nat := (2 ^ 250) ^ 24

/-! ### `trace` (R266, R267, R269) -/

/-- The traversal of a new ray. -/
def Traversal.new (d : List W64) (opx : BitVec 18) (ray : List W32) : Traversal :=
  { desc := d, first := opx.getLsbD 15, opq := opx.getLsbD 14, noprog := opx.getLsbD 13, mask := opx.extractLsb' 0 6, ray := ray
    tcur := ray.getD 7 0, best := none, cand := HitRec.zero
    stack := [BitVec.ofNat 64 (bits (descW d 0) 0 57 + 1)], pos := .none }

/-- What a `trace` writes (R267): program, status, t, the hit record and the traversal it leaves. -/
def traceResult (slot vd : Nat) (pd : BitVec 4) (prog : W64) (status : Nat) (t : W32) (hit : HitRec) (trav : Option (Option Traversal)) :
    GfxResult :=
  { slot := slot
    regs := [(vd, prog.extractLsb' 0 32), (vd + 1, prog.extractLsb' 32 32), (vd + 2, BitVec.ofNat 32 status), (vd + 3, t)]
    pred := some (pd, status = 1), hit := some { hit with status := BitVec.ofNat 32 status }, trav := trav, deeper := prog != 0
    cells := [] }

/-- The program of a candidate: entry g of the hit table, its closest-hit or any-hit half (R264, R267). -/
def hitProgram (e : GxEnv) (s : State) (tv : Traversal) (g : Nat) (anyHit : Bool) : State × Gx W64 :=
  if tv.noprog || bits (descW tv.desc 3) 0 16 ≤ g then (s, .ok 0)
  else
    let b := tv.desc.getD 1 0
    gxThen (gxRead e s (ptrRid b) (ptrVa b + 16 * g) 16) (fun s bs =>
      (s, .ok (BitVec.ofNat 64 (fromBytesLE ((bs.drop (if anyHit then 8 else 0)).take 8)))))

/-- The end of a walk. -/
def traceEnd (e : GxEnv) (slot : Nat) (x : GX) (s : State) (tv : Traversal) (w : WalkEnd) : State × Gx GfxResult :=
  let out (prog : W64) (status : Nat) (t : W32) (hit : HitRec) (trav : Option Traversal) : GfxResult :=
    traceResult slot x.vd.toNat x.pd prog status t hit (some trav)
  match w, tv.best with
  | .cand, _ =>
    gxThen (hitProgram e s tv tv.cand.hg.toNat true) (fun s prog => (s, .ok (out prog 2 tv.cand.t tv.cand (some tv))))
  | .stack, b => (s, .ok (out 0 4 f32Inf { HitRec.zero with t := (b.map (·.t)).getD f32Inf } none))
  | .done, some b => gxThen (hitProgram e s tv b.hg.toNat false) (fun s prog => (s, .ok (out prog 1 b.t b none)))
  | .done, none => (s, .ok (out (if tv.noprog then 0 else tv.desc.getD 2 0) 0 f32Inf { HitRec.zero with t := f32Inf } none))

/-- A new ray of a fibre that passed its checks (R266); `args` is the ray. Any new `trace` discards a suspended traversal,
one beyond the trace depth too (R365; DEDUCED, log 35). -/
def traceNew (e : GxEnv) (s : State) (l : Launch) (slot : Nat) (f : Fibre) (x : GX) (d : List W64) (args : List W32) : State × Gx GfxResult :=
  let plen := (x.gxopx.extractLsb' 6 7).toNat
  if l.tdepth ≤ f.depth then
    if l.dclamp then
      (s, .ok (traceResult slot x.vd.toNat x.pd 0 3 f32Inf { HitRec.zero with t := f32Inf } (some none)))
    else (s, .trap (gxCause 1 f.depth plen))
  else
    let tv := Traversal.new d x.gxopx args
    if rayVoid args then traceEnd e slot x s { tv with stack := [] } .done
    else gxThen (walkTree e walkBound s tv) (fun s r => traceEnd e slot x s r.1 r.2)

/-- `trace.rej` and `trace.acc` (R266). -/
def traceOn (e : GxEnv) (s : State) (slot : Nat) (f : Fibre) (x : GX) (acc : Bool) : State × Gx GfxResult :=
  match f.trav with
  | none => (s, .trap (gxCause 4 f.depth 0))
  | some tv =>
    let tv := if acc then tv.accept tv.cand else tv
    if acc && tv.first then traceEnd e slot x s tv .done
    else gxThen (walkTree e walkBound s tv) (fun s r => traceEnd e slot x s r.1 r.2)

/-- The field of the hit record that `traq` reads (R269). -/
def hitField (h : HitRec) (k : Nat) : W64 :=
  (match k with
    | 0 => h.status.setWidth 64
    | 1 => h.t.setWidth 64
    | 2 => h.u.setWidth 64
    | 3 => h.v.setWidth 64
    | 4 => h.prim.setWidth 64
    | 5 => h.leaf
    | 6 => h.pidx.setWidth 64
    | 7 => h.face.setWidth 64
    | 8 => h.hg.setWidth 64
    | _ => h.geo.setWidth 64)

/-- `traq` (R269). -/
def traqResult (slot : Nat) (f : Fibre) (x : GX) : GfxResult :=
  let v := hitField f.hit x.gxopx.toNat
  GfxResult.plain slot
    ((x.vd.toNat, v.extractLsb' 0 32) :: (if x.gxopx = 5 then [(x.vd.toNat + 1, v.extractLsb' 32 32)] else [])) none

/-! ### `rast` (R270, R271) -/

/-- The work of `rast`: `args` are the triangle, the tile, the output address and the word of capacity and cursor. -/
def rastResult (e : GxEnv) (s : State) (gk slot : Nat) (x : GX) (args : List W32) : State × Gx GfxResult :=
  let a := (args.getD 7 0).toNat
  let cap := args.getD 8 0
  let len := 4 * (cap.toNat % 65536)
  let span := stashSpan s gk
  let cause (sub : BitVec 16) : Cause :=
    { kind := 3, sub := sub, acc := 4, syn0 := BitVec.ofNat 32 a, syn1 := BitVec.ofNat 32 span }
  let r := rastFind args (x.gxopx.extractLsb' 0 2) cap
  let bytes := (r.1.map (fun e => toBytesLE 4 e.toNat)).flatten
  let out := addrs a bytes.length
  let wins := ((sget gk s.gangs).map (·.windows)).getD []
  let barred := wins.any (fun w => !w.2.wr && a < w.2.stash + w.2.size && w.2.stash < a + len)
  if 0 < len && barred then (s, .trap (cause 2))
  else if a % 4 != 0 then (s, .trap (cause 4))
  else if 0 < len && span < a + len then (s, .trap (cause 6))
  else if out.any (stashOwned s gk none) then (s, .hold none)
  else
    match fillAll s (some e.core) { core := e.core } gk true out with
    | (s, .error (rid, va, m)) => (reportMiss s e.ctx e.core 0 1 rid va m, .hold (some (pointer rid va)))
    | (s, .ok ()) =>
      (s, .ok { GfxResult.plain slot [(x.vd.toNat, BitVec.ofNat 32 r.1.length), (x.vd.toNat + 1, BitVec.ofNat 32 r.2)]
                  (some (x.pd, r.2 = 4096)) with
                hit := some HitRec.zero, trav := some none, cells := out.zip bytes })

end Sys2Proof.Machine
end

