-- ==== Sys2Proof/Machine/Texture.lean ====
section
/-! DEFINITION. The texture unit: descriptors, levels of detail, footprints, residency and sums (R272 to R276,
R374, R375). -/

namespace Sys2Proof.Machine

/-! ### Descriptors (R272) -/

/-- A texture's width and height at a level. -/
def texW (d : List W64) (l : Nat) : Nat := max 1 ((bits (descW d 2) 0 16 + 1) / 2 ^ l)
def texH (d : List W64) (l : Nat) : Nat := max 1 ((bits (descW d 2) 16 16 + 1) / 2 ^ l)
def texLevels (d : List W64) : Nat := bits (descW d 2) 32 4
def texFmt (d : List W64) : Nat := bits (descW d 2) 36 4
def texFilt (d : List W64) : Nat := bits (descW d 2) 40 2
def texBias (d : List W64) : Int := ((d.getD 2 0).extractLsb' 46 12).toInt

/-- Whether a texture descriptor is valid. -/
def texGood (d : List W64) : Bool :=
  (descW d 2).testBit 63 && bits (descW d 2) 58 5 = 0 && bits (descW d 2) 42 2 != 3 && bits (descW d 2) 44 2 != 3
    && texFilt d != 3 && texFmt d < 4 && texLevels d ≤ Nat.log2 (max (texW d 0) (texH d 0))
    && bits (descW d 0) 0 16 = 0 && bits (descW d 1) 0 4 = 0

/-! ### Tiles (R374) -/

/-- Bytes of a texel, and the width and height of a tile. -/
def texelBytes (fmt : Nat) : Nat := if fmt = 1 then 8 else if fmt = 3 then 16 else 4
def tileW (fmt : Nat) : Nat := if fmt = 3 then 64 else 128
def tileH (fmt : Nat) : Nat := if fmt = 1 || fmt = 3 then 64 else 128

/-- Tiles in a row and in a column of a level, and its first tile's number. -/
def tileCols (d : List W64) (l : Nat) : Nat := ceilDiv (texW d l) (tileW (texFmt d))
def tileRows (d : List W64) (l : Nat) : Nat := ceilDiv (texH d l) (tileH (texFmt d))
def levelBase (d : List W64) (l : Nat) : Nat := ((List.range l).map (fun i => tileCols d i * tileRows d i)).sum

/-- A texel of a level. -/
structure Texel where
  level : Nat
  x : Nat
  y : Nat
  deriving DecidableEq, Repr

/-- The number of the tile a texel lies in. -/
def Texel.tile (d : List W64) (p : Texel) : Nat :=
  levelBase d p.level + p.x / tileW (texFmt d) + tileCols d p.level * (p.y / tileH (texFmt d))

/-- A texel's address. -/
def Texel.addr (d : List W64) (p : Texel) : Nat :=
  let f := texFmt d
  bits (descW d 0) 0 57 + 65536 * p.tile d + texelBytes f * (p.x % tileW f + tileW f * (p.y % tileH f))

/-! ### Coordinates and levels of detail (R273, R274) -/

/-- A coordinate for sampling: a NaN or an infinity counts as 0. -/
def texCoord (x : W32) : Q := (f32Q x).getD (Q.ofInt 0)

/-- An index brought into [0, n - 1]: 0 wrap, 1 clamp, 2 mirror. -/
def wrapIndex (mode n : Nat) (i : Int) : Nat :=
  if mode = 0 then (i % (n : Int)).toNat
  else if mode = 1 then (max 0 (min i ((n : Int) - 1))).toNat
  else
    let m := (i % (2 * n : Nat)).toNat
    if m < n then m else 2 * n - 1 - m

/-- A texel by its indices before the address modes. -/
def texelAt (d : List W64) (l : Nat) (i j : Int) : Texel :=
  { level := l, x := wrapIndex (bits (descW d 2) 42 2) (texW d l) i, y := wrapIndex (bits (descW d 2) 44 2) (texH d l) j }

/-- λ in units of 2^-8, clamped to the levels: `none` is -∞. -/
def clampLod (d : List W64) (x : Option Int) : Nat :=
  match x with
  | none => 0
  | some n => min (max n 0).toNat (256 * texLevels d)

/-- λc of a level operand (R273, `texl`), in units of 2^-8. -/
def lodOf (d : List W64) (x : W32) : Nat :=
  match f32Val x with
  | .nan => 0
  | .inf n => if n then 0 else 256 * texLevels d
  | v => clampLod d (v.toQ.map (fun q => ((q.mul (Q.ofInt 256)).add (Q.ofInt (texBias d))).rne))

/-- ⌊log2 (n ÷ m)⌋ of positive numbers. -/
def floorLog2 (n m : Nat) : Int :=
  let k : Int := (Nat.log2 n : Int) - Nat.log2 m
  if n * 2 ^ (-k).toNat < m * 2 ^ k.toNat then k - 1 else k

/-- log2 of the root of q in units of 2^-8, rounded to the nearest: ⌊(⌊log2 q^256⌋ + 1) ÷ 2⌋. No tie can occur. -/
def halfLog (q : Q) : Int := (floorLog2 (q.num.toNat ^ 256) (q.den ^ 256) + 1) / 2

/-- A gradient: a NaN counts as 0; none is infinite. -/
def gradOf (x : W32) : Option Q :=
  match f32Val x with
  | .nan => some (Q.ofInt 0)
  | .inf _ => none
  | v => v.toQ

/-- λc of gradients (u_x, v_x, u_y, v_y) (R273, `texg`). -/
def lodGrad (d : List W64) (g : List (Option Q)) : Nat :=
  if g.any (·.isNone) then 256 * texLevels d
  else
    let at' (i : Nat) : Q := (g.getD i none).getD (Q.ofInt 0)
    let len (i : Nat) : Q :=
      let a := (at' i).mul (Q.ofInt (texW d 0))
      let b := (at' (i + 1)).mul (Q.ofInt (texH d 0))
      (a.mul a).add (b.mul b)
    let m := if (len 0).lt (len 2) then len 2 else len 0
    if m.isZero then 0 else clampLod d (some (halfLog m + texBias d))

/-- The difference of two coordinates of a quad as a gradient: exact; a NaN, and a slot that is not valid, give 0. -/
def quadDiff (valid : Bool) (a b : W32) : Option Q :=
  if !valid then some (Q.ofInt 0)
  else
    match Flt.add .near (f32Val a) (f32Val b).negate with
    | .nan => some (Q.ofInt 0)
    | .inf _ => none
    | v => v.toQ

/-! ### Footprints (R274) -/

/-- The texels of a sample with their weights over `scale`; texels of weight 0 are left out. -/
structure Taps where
  scale : Nat
  taps : List (Texel × Nat)
  deriving DecidableEq, Repr

/-- Nearest texel at a level. -/
def nearestAt (d : List W64) (u v : Q) (l : Nat) : Texel :=
  texelAt d l (u.mul (Q.ofInt (texW d l))).floor (v.mul (Q.ofInt (texH d l))).floor

/-- The four texels of a bilinear sample at a level, over 65536. -/
def bilinearAt (d : List W64) (u v : Q) (l : Nat) : Taps :=
  let half : Q := { num := 1, den := 2 }
  let s := (u.mul (Q.ofInt (texW d l))).sub half
  let t := (v.mul (Q.ofInt (texH d l))).sub half
  let i := s.floor
  let j := t.floor
  let a := (((s.sub (Q.ofInt i)).mul (Q.ofInt 256)).rne).toNat
  let b := (((t.sub (Q.ofInt j)).mul (Q.ofInt 256)).rne).toNat
  { scale := 65536
    taps := [(texelAt d l i j, (256 - a) * (256 - b)), (texelAt d l (i + 1) j, a * (256 - b)),
             (texelAt d l i (j + 1), (256 - a) * b), (texelAt d l (i + 1) (j + 1), a * b)].filter (·.2 != 0) }

/-- A sample at one level: nearest for FILT 0, else bilinear. -/
def tapsAt (d : List W64) (u v : Q) (l : Nat) : Taps :=
  if texFilt d = 0 then { scale := 1, taps := [(nearestAt d u v l, 1)] } else bilinearAt d u v l

/-- The level L of R274, and the weight over 256 of level L + 1. -/
def levelOf (d : List W64) (lod : Nat) : Nat × Nat :=
  if texFilt d = 2 then (lod / 256, if lod / 256 = texLevels d then 0 else lod % 256) else ((lod + 128) / 256, 0)

/-- Two bilinear samples weighed against each other. -/
def blendTaps (a b : Taps) (f : Nat) : Taps :=
  { scale := 256 * a.scale, taps := a.taps.map (fun t => (t.1, t.2 * (256 - f))) ++ b.taps.map (fun t => (t.1, t.2 * f)) }

/-! ### Residency (R275, R375) -/

/-- Whether a tile is resident. -/
def tileResident (e : GxEnv) (s : State) (d : List W64) (t : Nat) : State × Gx Bool :=
  let r := d.getD 1 0
  gxThen (gxRead e s (ptrRid r) (ptrVa r + t / 8) 1) (fun s bs => (s, .ok ((byteAt bs 0).testBit (t % 8))))

/-- Whether every tile of a footprint is resident. -/
def footResident (e : GxEnv) (s : State) (d : List W64) (p : Taps) : State × Gx Bool :=
  gxThen (gxEach (fun s t => tileResident e s d t) s (dedup [] (p.taps.map (fun t => t.1.tile d)))) (fun s l => (s, .ok (l.all id)))

/-- The first level from `l` on, of the `n` that follow, whose sample is resident. -/
def firstResident (e : GxEnv) (d : List W64) (u v : Q) : Nat → State → Nat → State × Gx (Option (Taps × Nat))
  | 0, s, _ => (s, .ok none)
  | n + 1, s, l =>
    let p := tapsAt d u v l
    gxThen (footResident e s d p) (fun s ok => if ok then (s, .ok (some (p, l))) else firstResident e d u v n s (l + 1))

/-- What is sampled: texels and level, or nothing resident; and whether a nonresident tile changed the sample. -/
def chooseTaps (e : GxEnv) (s : State) (d : List W64) (u v : Q) (lod : Nat) : State × Gx (Option (Taps × Nat) × Bool) :=
  let lf := levelOf d lod
  gxThen (firstResident e d u v (texLevels d + 1 - lf.1) s lf.1) (fun s r =>
    match r with
    | none => (s, .ok (none, true))
    | some (p, l) =>
      if l != lf.1 then (s, .ok (some (p, l), true))
      else if lf.2 = 0 then (s, .ok (some (p, l), false))
      else
        let up := tapsAt d u v (l + 1)
        gxThen (footResident e s d up) (fun s ok =>
          if ok then (s, .ok (some (blendTaps p up lf.2, l), false)) else (s, .ok (some (p, l), true))))

/-! ### Texels and sums (R272, R274) -/

/-- A channel's exact value. -/
inductive Chan where
  | nan
  | inf (neg : Bool)
  | q (v : Q) (neg : Bool)
  deriving DecidableEq, Repr

/-- The channel of a float encoding. -/
def Chan.ofFlt (x : Flt) : Chan :=
  match x with
  | .nan => .nan
  | .inf n => .inf n
  | .fin n m e => .q ((Flt.fin n m e).toQ.getD (Q.ofInt 0)) n

/-- The four channels of a texel's bytes. -/
def texelChans (fmt : Nat) (bs : List Byte) : List Chan :=
  if fmt = 0 then (List.range 4).map (fun i => .q { num := byteAt bs i, den := 255 } false)
  else if fmt = 1 then (List.range 4).map (fun i => Chan.ofFlt (fmt16.value (fromBytesLE ((bs.drop (2 * i)).take 2))))
  else if fmt = 2 then [Chan.ofFlt (f32Val (le32 bs 0)), .q (Q.ofInt 0) false, .q (Q.ofInt 0) false, .q (Q.ofInt 1) false]
  else (List.range 4).map (fun i => Chan.ofFlt (f32Val (le32 bs (4 * i))))

/-- The sum of two channels; a zero sum is negative only if both parts are. -/
def Chan.add (a b : Chan) : Chan :=
  match a, b with
  | .nan, _ | _, .nan => .nan
  | .inf x, .inf y => if x = y then .inf x else .nan
  | .inf x, .q _ _ | .q _ _, .inf x => .inf x
  | .q x m, .q y n => .q (x.add y) (m && n)

/-- A channel times a positive weight. -/
def Chan.scale (a : Chan) (w : Q) : Chan := match a with | .q x n => .q (x.mul w) n | c => c

/-- The f32 encoding of a channel, rounded once. -/
def Chan.fl32 (a : Chan) : W32 :=
  match a with
  | .nan => BitVec.ofNat 32 fmt32.nan
  | .inf n => BitVec.ofNat 32 (fmt32.pack .near (.inf n))
  | .q x n => if x.isZero then (if n then 0x80000000 else 0) else x.fl32

/-- Channel i of the sum over weighted texels. -/
def sumChannel (scale : Nat) (i : Nat) (l : List (List Chan × Nat)) : W32 :=
  let parts := l.map (fun p => (p.1.getD i .nan).scale { num := p.2, den := scale })
  match parts with
  | [] => 0
  | c :: rest => (rest.foldl Chan.add c).fl32

/-- Reads the texels of a sample and sums them. -/
def sampleTaps (e : GxEnv) (s : State) (d : List W64) (p : Taps) : State × Gx (List W32) :=
  let f := texFmt d
  gxThen (gxEach (fun s (t : Texel × Nat) =>
      gxThen (gxRead e s (ptrRid (d.getD 0 0)) (t.1.addr d) (texelBytes f)) (fun s bs => (s, .ok (texelChans f bs, t.2)))) s p.taps)
    (fun s l => (s, .ok ((List.range 4).map (fun i => sumChannel p.scale i l))))

/-- A level number as f32. -/
def levelF32 (l : Nat) : W32 := (Q.ofInt l).fl32

/-- A sample (R275): the four channels and the level, with PD. -/
def texSample (e : GxEnv) (s : State) (slot : Nat) (x : GX) (d : List W64) (u v : W32) (lod : Nat) : State × Gx GfxResult :=
  let res (cs : List W32) (l : Nat) (p : Bool) : GfxResult :=
    GfxResult.plain slot ((cs ++ [levelF32 l]).zipIdx.map (fun q => (x.vd.toNat + q.2, q.1))) (some (x.pd, p))
  gxThen (chooseTaps e s d (texCoord u) (texCoord v) lod) (fun s r =>
    match r with
    | (none, p) => (s, .ok (res [0, 0, 0, 0] (texLevels d + 1) p))
    | (some (taps, l), p) => gxThen (sampleTaps e s d taps) (fun s cs => (s, .ok (res cs l p))))

/-- The finest resident level from `l` on under the nearest texel (R276). -/
def finestLevel (e : GxEnv) (d : List W64) (u v : Q) : Nat → State → Nat → State × Gx Nat
  | 0, s, l => (s, .ok l)
  | n + 1, s, l =>
    gxThen (tileResident e s d ((nearestAt d u v l).tile d)) (fun s ok => if ok then (s, .ok l) else finestLevel e d u v n s (l + 1))

/-- `texres` (R276): `args` are u, v and the level. -/
def texresResult (e : GxEnv) (s : State) (slot : Nat) (x : GX) (d : List W64) (args : List W32) : State × Gx GfxResult :=
  let want := min (args.getD 2 0).toNat (texLevels d)
  gxThen (finestLevel e d (texCoord (args.getD 0 0)) (texCoord (args.getD 1 0)) (texLevels d + 1 - want) s want) (fun s l =>
    (s, .ok (GfxResult.plain slot [(x.vd.toNat, BitVec.ofNat 32 l)] (some (x.pd, l = want)))))

/-- The gradients of `tex`: `args` hold for slots 4q, 4q+1 and 4q+2 a word for validity, u and v. -/
def quadGrads (args : List W32) : List (Option Q) :=
  let w (i k : Nat) : W32 := args.getD (3 * i + k) 0
  let ok (i : Nat) : Bool := w 0 0 == 1 && w i 0 == 1
  [quadDiff (ok 1) (w 1 1) (w 0 1), quadDiff (ok 1) (w 1 2) (w 0 2), quadDiff (ok 2) (w 2 1) (w 0 1), quadDiff (ok 2) (w 2 2) (w 0 2)]

end Sys2Proof.Machine
end

