-- ==== Sys2Proof/Machine/GraphicsInstr.lean ====
section
/-! DEFINITION. The instructions of opcodes 0xE0 to 0xEB (R261 to R281). The work of a fibre is done when the
instruction issues, or when the page it waits for is there; its completion writes the results. -/

namespace Sys2Proof.Machine

/-! ### The work of one fibre -/

/-- Words from a vector register upward. -/
def vecWords (f : Fibre) (r n : Nat) : List W32 := (run r n).map f.rv

/-- The operand words of a graphics instruction, read at issue. -/
def gfxArgs (w : Wave) (slot : Nat) (f : Fibre) : Instr → List W32
  | .trace _ x => vecWords f x.va.toNat 8
  | .rast _ x => vecWords f x.va.toNat 7 ++ vecWords f x.vb.toNat 2
  | .tex _ x =>
    vecWords f x.va.toNat 2 ++ ((List.range 3).map (fun i =>
      match sget (slot - slot % 4 + i) w.fibres with
      | none => [0, 0, 0]
      | some g => [1, g.rv x.va.toNat, g.rv (x.va.toNat + 1)])).flatten
  | .texg _ x => vecWords f x.va.toNat 6
  | .texl _ x | .texres _ x | .texfb _ x => vecWords f x.va.toNat 3
  | _ => []

/-- The trap of a descriptor that is not valid (R262). -/
def gfxDescBad (i : Instr) (d : List W64) : Bool :=
  match i with
  | .trace _ _ => !structGood d
  | .tex _ _ | .texl _ _ | .texg _ _ | .texres _ _ | .texfb _ _ => !texGood d
  | _ => false

/-- A poisoned word of another slot of its quad that a fibre's `tex` consumes (R116, R148). -/
def quadPoison (w : Wave) (slot : Nat) : Instr → Option Cause
  | .tex _ x =>
    (run (slot - slot % 4) 3).findSome? (fun k => (sget k w.fibres).bind (fun g => (poisonedVec g x.va.toNat true).map vecPoison))
  | _ => none

/-- `texfb` (R276): lowers a byte of the feedback map, which it reads as R263 gives. It waits for the Silt entries that a
reduction would follow (R171). -/
def texfbResult (e : GxEnv) (s : State) (wk slot : Nat) (d : List W64) (args : List W32) : State × Gx GfxResult :=
  let fb := d.getD 3 0
  let va := ptrVa fb + (nearestAt d (texCoord (args.getD 0 0)) (texCoord (args.getD 1 0)) 0).tile d
  let level : Byte := BitVec.ofNat 8 (lodOf d (args.getD 2 0) / 256)
  let r := regionOf s (some e.core) e.ctx (ptrRid fb)
  let cause (sub : BitVec 16) : Cause :=
    { kind := 3, sub := sub, addr := if va < 2 ^ 57 then pointer (ptrRid fb) va else 0, buf := e.desc, acc := 3 }
  if bits (descW d 3) 0 57 = 0 then (s, .ok (GfxResult.plain slot [] none))
  else if 2 ^ 57 ≤ va || !inRegion r.2 va 1 then (r.1, .trap (cause 5))
  else if mustFollow r.1 e.core wk [slot] e.ctx [va] then (r.1, .hold none)
  else
    match translate r.1 (some e.core) e.ctx va .both with
    | (s, .error m) => (reportMiss s e.ctx e.core 0 2 (ptrRid fb) va m, .hold (some (pointer (ptrRid fb) va)))
    | (s, .ok (pte, pa)) =>
      if pte.testBit 63 then (s, .trap (cause 0x0B))
      else
        match e.stops s (ptrRid fb) [va] true with
        | some x => (s, x)
        | none =>
          if memOwned s none [pa] then (s, .hold none)
          else
            match bytesAt s [pa] with
            | (s, (old, false) :: _) =>
              (writeBytes s [(pa, if level.ult old then level else old)] false, .ok (GfxResult.plain slot [] none))
            | (s, _) =>
              (s, .trap { kind := 0x0C, sub := 4, addr := pointer (ptrRid fb) va, buf := e.desc, acc := 3, syn0 := 3
                          syn1 := BitVec.ofNat 32 (va % 128) })

/-- The work of a graphics instruction for a fibre. -/
def gfxWork (i : Instr) (e : GxEnv) (s : State) (wk slot : Nat) (d : List W64) (args : List W32) : State × Gx GfxResult :=
  match fibreAt s wk slot, launchOf s wk with
  | some f, some l =>
    match i with
    | .trace _ x =>
      let plen := (x.gxopx.extractLsb' 6 7).toNat
      if l.payw < plen then (s, .trap (gxCause 2 f.depth plen))
      else if gfxDescBad i d then (s, .trap (gxCause 3 f.depth plen))
      else traceNew e s l slot f x d args
    | .traceRej _ x => traceOn e s slot f x false
    | .traceAcc _ x => traceOn e s slot f x true
    | .traq _ x => (s, .ok (traqResult slot f x))
    | .rast _ x => rastResult e s (gangOf s wk) slot x args
    | i =>
      if gfxDescBad i d then (s, .trap (gxCause 3 f.depth 0))
      else
        match i with
        | .tex _ x => texSample e s slot x d (args.getD 0 0) (args.getD 1 0) (lodGrad d (quadGrads (args.drop 2)))
        | .texl _ x => texSample e s slot x d (args.getD 0 0) (args.getD 1 0) (lodOf d (args.getD 2 0))
        | .texg _ x => texSample e s slot x d (args.getD 0 0) (args.getD 1 0) (lodGrad d ((args.drop 2).map gradOf))
        | .texres _ x => texresResult e s slot x d args
        | .texfb _ _ => texfbResult e s wk slot d args
        | _ => (s, .hold none)
  | _, _ => (s, .hold none)

/-- What the work of some fibres comes to. -/
structure GfxTried where
  st : State
  done : List GfxResult := []
  held : List (Nat × List W32) := []
  bad : List (Nat × Cause) := []
  /-- Fibres that a watch range stops, with its number and the pointer. -/
  stops : List (Nat × Nat × W64) := []

/-- The environment for a fibre: its debug checks may be waived (R459). -/
def GxEnv.of (e : GxEnv) (s : State) (wk slot : Nat) : GxEnv :=
  if (fibreAt s wk slot).any (·.waive) then { e with watch := none } else e

/-- Does the work of some fibres, each with its operand words; a page that Loam answered to be unbacked traps. -/
def gfxTry (i : Instr) (e : GxEnv) (s : State) (wk : Nat) (d : List W64) (unbacked : Option Nat) (l : List (Nat × List W32)) : GfxTried :=
  l.foldl (fun t p =>
    match gfxWork i (e.of t.st wk p.1) t.st wk p.1 d p.2 with
    | (s, .ok r) => { t with st := s, done := t.done ++ [r] }
    | (s, .trap c) => { t with st := s, bad := t.bad ++ [(p.1, c)] }
    | (s, .stop k a) => { t with st := s, stops := t.stops ++ [(p.1, k, a)] }
    | (s, .hold page) =>
      match page, unbacked with
      | some a, some vpn =>
        if ptrVa a / 4096 = vpn then
          { t with st := s, bad := t.bad ++ [(p.1, { kind := 3, sub := 0x0A, addr := a, buf := e.desc, acc := 0 })] }
        else { t with st := s, held := t.held ++ [p] }
      | _, _ => { t with st := s, held := t.held ++ [p] }) { st := s }

/-- The number of the record that a graphics instruction names, for fault records. -/
def gfxDesc : Instr → BitVec 8
  | .trace _ x | .tex _ x | .texl _ x | .texg _ x | .texres _ x | .texfb _ x => x.desc.setWidth 8
  | _ => 0xFF

/-- The descriptor that a graphics instruction works with. -/
def gfxRecord (i : Instr) (b : Bundle) (s : State) : List W64 :=
  match i with
  | .trace _ x | .tex _ x | .texl _ x | .texg _ x | .texres _ x | .texfb _ x => b.rec4 s x.desc.toNat
  | _ => []

/-- A graphics instruction at issue: results are kept for its completion, and what waits holds its fibre. -/
def gfxBody (i : Instr) (b : Bundle) (s : State) : State :=
  match b.before s with
  | none => s
  | some w =>
    let fibs := b.act.filterMap (fun x => (sget x w.fibres).map (x, ·))
    let bad := fibs.filterMap (fun z => (quadPoison w z.1 i).map (z.1, ·))
    let args := (fibs.filter (fun z => !(bad.map (·.1)).contains z.1)).map (fun z => (z.1, gfxArgs w z.1 z.2 i))
    let d := gfxRecord i b s
    let n := s.nextOp
    let watch := debugSlot s (ctxOf s b.wk)
    let waived := if watch.isSome then b.waived else []
    let s := mapFibres s b.wk waived (fun _ f => { f with waive := true })
    let t := gfxTry i { core := coreNo b.wk, ctx := ctxOf s b.wk, desc := gfxDesc i, watch := watch } s b.wk d none args
    let s := mapFibres t.st b.wk (others waived t.held) (fun _ f => { f with waive := false })
    let s := t.stops.foldl (fun s x => watchStops s b [x.1] (watch.getD 0) x.2.1 x.2.2) s
    let b := { b with act := others b.act t.stops }
    if b.act.isEmpty then s
    else
      let s := startOp s b (.gfx i d t.done t.held)
      let s := t.held.foldl (fun s p => block s b.wk p.1 b.pc b.place (.mem n)) s
      trapEach s b.wk b.here (bad ++ t.bad)

/-- Does the held work of a graphics operation again. -/
def retryGfx (s : State) (n : Nat) (unbacked : Option Nat) : State :=
  match sget n s.ops with
  | none => s
  | some o =>
    match o.kind with
    | .gfx i d done held =>
      if held.isEmpty then s
      else
        let watch := debugSlot s o.ctx
        let t := gfxTry i { core := o.core, ctx := o.ctx, desc := gfxDesc i, watch := watch } s o.wave d unbacked held
        let s := modOp t.st n (fun o => { o with slots := others o.slots t.stops, kind := .gfx i d (done ++ t.done) t.held })
        let s := letGo s o.wave n (held.map (·.1)) (t.held.map (·.1) ++ t.bad.map (·.1) ++ t.stops.map (·.1))
        let here : Resume := { pc := o.pc, place := some o.place, ll := true }
        let s := t.stops.foldl (fun s x => uncount (stopFibre s o.wave x.1 here (watch.getD 0) 3 (BitVec.ofNat 8 x.2.1) x.2.2 0) o.wave x.1) s
        trapEach s o.wave here t.bad
    | _ => s

/-- Does the held work of every graphics operation of a core, or of all, again. -/
def retryGfxAll (s : State) (only : Option Nat) : State :=
  (skeys (s.ops.filter (fun e => only.all (fun c => e.2.core = c)))).foldl (fun s n => retryGfx s n none) s

/-- TRACE (R264 to R267). -/
def execTrace (g : Guard) (x : GX) (s : State) : Answer := issue (.trace g x) g .none (gfxBody (.trace g x)) s
/-- TRACE_REJ (R266). -/
def execTraceRej (g : Guard) (x : GX) (s : State) : Answer := issue (.traceRej g x) g .none (gfxBody (.traceRej g x)) s
/-- TRACE_ACC (R266). -/
def execTraceAcc (g : Guard) (x : GX) (s : State) : Answer := issue (.traceAcc g x) g .none (gfxBody (.traceAcc g x)) s
/-- TRAQ (R269). -/
def execTraq (g : Guard) (x : GX) (s : State) : Answer := issue (.traq g x) g .none (gfxBody (.traq g x)) s
/-- RAST (R270, R271). -/
def execRast (g : Guard) (x : GX) (s : State) : Answer := issue (.rast g x) g .none (gfxBody (.rast g x)) s
/-- TEX (R273 to R275). -/
def execTex (g : Guard) (x : GX) (s : State) : Answer := issue (.tex g x) g .none (gfxBody (.tex g x)) s
/-- TEXL (R273 to R275). -/
def execTexl (g : Guard) (x : GX) (s : State) : Answer := issue (.texl g x) g .none (gfxBody (.texl g x)) s
/-- TEXG (R273 to R275). -/
def execTexg (g : Guard) (x : GX) (s : State) : Answer := issue (.texg g x) g .none (gfxBody (.texg g x)) s
/-- TEXRES (R276). -/
def execTexres (g : Guard) (x : GX) (s : State) : Answer := issue (.texres g x) g .none (gfxBody (.texres g x)) s

/-- TEXFB (R276). -/
def execTexfb (g : Guard) (x : GX) (s : State) : Answer := issue (.texfb g x) g .none (gfxBody (.texfb g x)) s

/-! ### `hret` (R268) -/

/-- `hret`: a return that lowers the trace depth. -/
def hretBody (x : GX) (b : Bundle) (s : State) : State :=
  let bad := b.act.filter (fun k => (fibreAt s b.wk k).any (fun f => f.depth == 0))
  let s := trapAll s b.wk b.here bad (gxCause 5 0 0)
  transfer (fun f => f.rv2 x.va.toNat) (fun f => { f with depth := f.depth - 1 })
    { b with act := b.act.filter (fun k => !bad.contains k) } s
/-- HRET (R268). -/
def execHret (g : Guard) (x : GX) (s : State) : Answer := issue (.hret g x) g .none (hretBody x) s

/-! ### `blend` (R277, R278) -/

/-- Whether a render-target descriptor is valid. -/
def targetGood (d : List W64) : Bool :=
  bits (descW d 1) 35 29 = 0 && (descW d 1).testBit 34 && bits (descW d 1) 32 2 != 3 && bits (descW d 2) 32 32 = 0
    && descW d 3 = 0 && bits (descW d 0) 0 7 = 0

/-- The pitch of a render target in pixels, from its second word (R377). -/
def targetPitch (rtd1 : W64) : Nat := 32 * ceilDiv (bits rtd1.toNat 0 16 + 1) 32

/-- The fragment of a fibre, where its pixel lies in the target. -/
def fragOf (x : GX) (launch : Nat) (d : List W64) (f : Fibre) : Option Frag :=
  let px := (f.rv x.va.toNat).toNat
  let py := (f.rv (x.va.toNat + 1)).toNat
  if bits (descW d 1) 0 16 < px || bits (descW d 1) 16 16 < py then none
  else
    some { tile := px / 32 + targetPitch (d.getD 1 0) / 32 * (py / 32), x := px, y := py, draw := (d.getD 2 0).extractLsb' 0 32
           group := f.rv (x.va.toNat + 2), prim := f.rv (x.va.toNat + 3), color := vecWords f x.vb.toNat 4
           op := x.gxopx.extractLsb' 0 3, launch := launch }

/-- `blend`: sends a fragment for each fibre. -/
def blendBody (x : GX) (b : Bundle) (s : State) : State :=
  match b.wave s with
  | none => s
  | some w =>
    let d := b.rec4 s x.desc.toNat
    let fibs := b.act.filterMap (fun k => (sget k w.fibres).map (k, ·))
    if !targetGood d then
      startOp (trapEach s b.wk b.here (fibs.map (fun z => (z.1, gxCause 3 z.2.depth 0)))) b (.blend 0 0 [])
    else startOp s b (.blend (d.getD 0 0) (d.getD 1 0) (fibs.filterMap (fun z => fragOf x w.launch d z.2)))
/-- BLEND (R278). -/
def execBlend (g : Guard) (x : GX) (s : State) : Answer := issue (.blend g x) g .bundle (blendBody x) s

/-! ### `rqpush` and `rqpop` (R280, R281) -/

/-- Why a queue descriptor is refused. -/
def queueBad (s : State) (ctx : Nat) (d : List W64) : Option Cause :=
  let q := bits (descW d 0) 0 8
  if bits (descW d 0) 14 50 != 0 || descW d 2 != 0 || descW d 3 != 0 then some (gxCause 3 q 0)
  else
    match sget q s.recQueues with
    | some r => if r.ctx = ctx && r.key = d.getD 1 0 && r.rsz = bits (descW d 0) 8 6 then none else some (gxCause 6 q 0)
    | none => some (gxCause 6 q 0)

/-- `rqpush`: offers the record of each fibre. -/
def rqpushBody (x : GX) (b : Bundle) (s : State) : State :=
  match b.wave s with
  | none => s
  | some w =>
    let d := b.rec4 s x.desc.toNat
    let q := bits (descW d 0) 0 8
    match queueBad s (ctxOf s b.wk) d with
    | some c => startOp (trapAll s b.wk b.here b.act c) b (.rqpush q x.pd [])
    | none =>
      startOp s b (.rqpush q x.pd (b.act.filterMap (fun k => (sget k w.fibres).map (fun f => (k, vecWords f x.va.toNat (bits (descW d 0) 8 6 + 1))))))
/-- RQPUSH (R281). -/
def execRqpush (g : Guard) (x : GX) (s : State) : Answer := issue (.rqpush g x) g .bundle (rqpushBody x) s

/-- `rqpop`: asks for a record for each fibre. -/
def rqpopBody (x : GX) (b : Bundle) (s : State) : State :=
  let d := b.rec4 s x.desc.toNat
  let q := bits (descW d 0) 0 8
  let n := bits (descW d 0) 8 6 + 1
  match queueBad s (ctxOf s b.wk) d with
  | some c => startOp (trapAll s b.wk b.here b.act c) b (.rqpop q x.vd.toNat n x.pd [])
  | none => startOp s b (.rqpop q x.vd.toNat n x.pd b.act)
/-- RQPOP (R281). -/
def execRqpop (g : Guard) (x : GX) (s : State) : Answer := issue (.rqpop g x) g .none (rqpopBody x) s

end Sys2Proof.Machine
end

