-- ==== Sys2Proof/Machine/GraphicsEv.lean ====
section
/-! DEFINITION. What the fixed-function graphics units do: completions (R267, R271, R275), record queues (R281,
R363, R364), render targets and raster order (R377 to R380), and `tx.fence` (R376). -/

namespace Sys2Proof.Machine

/-! ### Completions -/

/-- Writes what a graphics instruction gives the registers of a fibre. The trace depth has 5 bits (R265), and rises modulo
2^5 (DEDUCED, log 35). -/
def giveGfx (s : State) (wk : Nat) (r : GfxResult) : State :=
  modFibre s wk r.slot (fun f =>
    let f := r.regs.foldl (fun f p => f.setV p.1 p.2) f
    let f := match r.pred with | some p => f.setP p.1 p.2 | none => f
    { f with hit := r.hit.getD f.hit, trav := r.trav.getD f.trav, depth := if r.deeper then (f.depth + 1) % 32 else f.depth })

/-- The bytes of the stash that the results of a `rast` write. -/
def gfxCells (done : List GfxResult) : List (Nat × Byte × Bool) :=
  (done.map (fun r => r.cells.map (fun c => (c.1, c.2, false)))).flatten

/-- Ends a graphics instruction with its results. -/
def finishGfx (s : State) (n : Nat) (o : Op) (done : List GfxResult) : State :=
  retryMem (wakeReleases (endOp (done.foldl (fun s r => giveGfx s o.wave r) s) n)) none

/-- Completes a graphics instruction of a kind when no fibre of it waits. The stash bytes of a `rast` are stored first, in
lines filled for them; where a line's page is gone the instruction waits for it, the rest still to be stored. -/
def completeGfx (kind : Instr → Bool) (n : Nat) (s : State) : State :=
  match sget n s.ops with
  | none => s
  | some o =>
    match o.kind with
    | .gfx i d done held =>
      if !kind i || !held.isEmpty || o.wait.isSome then s
      else
        let cells := gfxCells done
        if cells.isEmpty then finishGfx s n o done
        else
          match putStash s (some o.core) { core := o.core } o.gang cells with
          | (s, none) => finishGfx s n o done
          | (s, some ((rid, va, m), left)) =>
            let s := reportMiss s o.ctx o.core 0 1 rid va m
            modOp s n (fun o => { o with
              wait := m.map (fun _ => va)
              kind := .gfx i d (done.map (fun r => { r with cells := r.cells.filter (fun c => (left.map (·.1)).contains c.1) })) held })
    | _ => s

/-- Which event completes a graphics instruction. -/
def isTraceOp : Instr → Bool
  | .trace _ _ | .traceRej _ _ | .traceAcc _ _ | .traq _ _ => true
  | _ => false
def isRastOp : Instr → Bool
  | .rast _ _ => true
  | _ => false
def isTexOp : Instr → Bool
  | .tex _ _ | .texl _ _ | .texg _ _ | .texres _ _ | .texfb _ _ => true
  | _ => false

/-- TRACE_COMPLETE (R267, R269). -/
def execTraceComplete (op : Nat) (s : State) : Answer := .next (completeGfx isTraceOp op s)
/-- RAST_COMPLETE (R270, R271). -/
def execRastComplete (op : Nat) (s : State) : Answer := .next (completeGfx isRastOp op s)
/-- TEXTURE_SAMPLE_COMPLETE (R275, R276). -/
def execTextureSampleComplete (op : Nat) (s : State) : Answer := .next (completeGfx isTexOp op s)

/-- TX_FENCE (R376): a write of GO notes the texture instructions that have issued. -/
def execTxFence (v : W64) (s : State) : Answer :=
  .next (if v.getLsbD 63 then { s with txFence := some s.nextOp } else s)

/-- Whether a `tx.fence` is still in progress: a texture instruction that issued before it has not completed. -/
def txFenceBusy (s : State) : Bool :=
  s.txFence.any (fun n => s.ops.any (fun e => e.1 < n && (match e.2.kind with | .gfx i _ _ _ => isTexOp i | _ => false)))

/-! ### Record queues (R281, R362 to R364) -/

/-- Changes a record queue. -/
def modQueue (s : State) (q : Nat) (f : RecQueue → RecQueue) : State := { s with recQueues := smod q f s.recQueues }

/-- Appends one record, if the queue has room. -/
def appendRec (s : State) (q : Nat) (r : List W32) : State × Bool :=
  match sget q s.recQueues with
  | none => (s, false)
  | some z => if z.recs.length < 2 ^ z.c then (modQueue s q (fun z => { z with recs := z.recs ++ [r] }), true) else (s, false)

/-- Whether the queue of an operation is still its context's. -/
def queueOwned (s : State) (q ctx : Nat) : Bool := (sget q s.recQueues).any (fun z => z.ctx = ctx)

/-- RECORD_QUEUE_ANSWER (R281). -/
def execRecordQueueAnswer (op : Nat) (s : State) : Answer :=
  match sget op s.ops with
  | none => .next s
  | some o =>
    match o.kind with
    | .rqpush q pd parts =>
      let s := parts.foldl (fun s p =>
        let r := if queueOwned s q o.ctx then appendRec s q p.2 else (s, false)
        modFibre r.1 o.wave p.1 (fun f => f.setP pd r.2)) s
      .next (wakeReleases (endOp s op))
    | .rqpop q vd n pd slots =>
      let s := slots.foldl (fun s k =>
        match (if queueOwned s q o.ctx then (sget q s.recQueues).map (·.recs) else none) with
        | some (r :: rest) =>
          modFibre (modQueue s q (fun z => { z with recs := rest })) o.wave k (fun f =>
            (((run vd n).zip r).foldl (fun f p => f.setV p.1 p.2) f).setP pd true)
        | _ => modFibre s o.wave k (fun f => f.setP pd false)) s
      .next (retryMem (wakeReleases (endOp s op)) none)
    | _ => .next s

/-- Answers a Loam core's read of eight bytes. -/
def loamAnswer (s : State) (k x : Nat) : State := { s with out := s.out ++ [.loamData k (toBytesLE 8 x) false] }

/-- The staging slot of a Loam core in a queue's page (R363). -/
def stageBase (q k : Nat) : Nat := 0x2000 * q + 0x100 * k

/-- RQ_PUSH (R363, R364). -/
def execRqPush (k q : Nat) (s : State) : Answer :=
  match sget q s.recQueues with
  | none => .next (loamAnswer s k 2)
  | some z =>
    let word (i : Nat) : W32 := BitVec.ofNat 32 (fromBytesLE ((addrs (stageBase q k + 4 * i) 4).map (sgetD 0 s.staging)))
    let r := appendRec s q ((List.range (z.rsz + 1)).map word)
    .next (loamAnswer r.1 k (bit r.2 0))

/-- RQ_POP (R363, R364). -/
def execRqPop (k q : Nat) (s : State) : Answer :=
  match sget q s.recQueues with
  | none => .next (loamAnswer s k 2)
  | some z =>
    match z.recs with
    | [] => .next (loamAnswer s k 0)
    | r :: rest =>
      let bytes := (r.map (fun w => toBytesLE 4 w.toNat)).flatten
      let bytes := bytes ++ List.replicate (256 - bytes.length) 0
      let s := { s with staging := ((addrs (stageBase q k) 256).zip bytes).foldl (fun m p => sputD 0 p.1 p.2 m) s.staging }
      .next (loamAnswer (modQueue s q (fun z => { z with recs := rest })) k 1)

/-! ### Blending (R278) -/

/-- Channel i of a source's result over a destination value. -/
def blendChannel (op : BitVec 3) (color : List W32) (i : Nat) (d : W32) : W32 :=
  let s := (color.getD i 0).toNat
  let a := (color.getD 3 0).toNat
  let r : Nat :=
    if op == 0 then s
    else if op == 1 then
      fmt32.addBits .near false s (fmt32.mulBits .near false d.toNat (fmt32.subBits .near false 0x3F800000 a))
    else if op == 2 then fmt32.addBits .near false s d.toNat
    else fmt32.minmax (op == 4) false s d.toNat
  BitVec.ofNat 32 r

/-- Bytes of a pixel of a render target, from its second word. -/
def targetFmt (rtd1 : W64) : Nat := bits rtd1.toNat 32 2
def pixelBytes (fmt : Nat) : Nat := if fmt = 0 then 4 else if fmt = 1 then 8 else 16

/-- A stored channel as f32. -/
def loadChannel (fmt : Nat) (px : List Byte) (i : Nat) : W32 :=
  if fmt = 0 then ({ num := byteAt px i, den := 255 } : Q).fl32
  else if fmt = 1 then (Chan.ofFlt (fmt16.value (fromBytesLE ((px.drop (2 * i)).take 2)))).fl32
  else le32 px (4 * i)

/-- A result as it is stored. -/
def storeChannel (fmt : Nat) (r : W32) : List Byte :=
  if fmt = 0 then
    match f32Val r with
    | .nan => [0]
    | .inf n => [if n then 0 else 255]
    | v =>
      let q := v.toQ.getD (Q.ofInt 0)
      let q := if q.num < 0 then Q.ofInt 0 else if (Q.ofInt 1).lt q then Q.ofInt 1 else q
      [BitVec.ofInt 8 (q.mul (Q.ofInt 255)).rne]
  else if fmt = 1 then toBytesLE 2 (fmt16.pack .near (f32Val r))
  else toBytesLE 4 r.toNat

/-- The bytes of a pixel after a fragment. -/
def blendPixel (fmt : Nat) (f : Frag) (px : List Byte) : List Byte :=
  ((List.range 4).map (fun i => storeChannel fmt (blendChannel f.op f.color i (loadChannel fmt px i)))).flatten

/-- Replaces bytes of a list from an offset on. -/
def patch (l : List Byte) (off : Nat) (bs : List Byte) : List Byte := l.take off ++ bs ++ l.drop (off + bs.length)

/-- A tile's bytes after a fragment. -/
def applyFrag (fmt : Nat) (tile : List Byte) (f : Frag) : List Byte :=
  let b := pixelBytes fmt
  let off := b * (f.x % 32 + 32 * (f.y % 32))
  patch tile off (blendPixel fmt f ((tile.drop off).take b))

/-! ### Order slots (R378, R379) -/

/-- Offsets of a Loam core's command block, and of `ro.lost`. -/
def roReg (k r : Nat) : Nat := 0x600000 + 0x20 * k + r
def roLost : Nat := 0x600400

/-- Adds to the device's count of fragments that no slot takes. -/
def loseFrags (s : State) (n : Nat) : State := ctlWr s roLost (ctlRd s roLost + BitVec.ofNat 64 n)

/-- Changes an order slot. -/
def modSlot (s : State) (i : Nat) (f : OrderSlot → OrderSlot) : State := { s with oslots := smod i f s.oslots }

/-- Whether a tile lies in a group's rectangle. -/
def OGroup.contains (g : OGroup) (rtd1 : W64) (tile : Nat) : Bool :=
  let p := targetPitch rtd1 / 32
  g.tx0 ≤ tile % p && tile % p ≤ g.tx1 && g.ty0 ≤ tile / p && tile / p ≤ g.ty1

/-- Whether a fragment belongs to a group. -/
def OGroup.owns (g : OGroup) (f : Frag) : Bool := g.draw = f.draw && g.group = f.group

/-- Fragments queued at a tile, those that a tile's queue holds, and those of a slot that stand in its spill area. -/
def OrderSlot.queuedAt (z : OrderSlot) (tile : Nat) : Nat := (z.frags.filter (fun f => f.tile = tile)).length
def queueRoom : Nat := Config.orderQueue + 1
def OrderSlot.spills (z : OrderSlot) : Nat :=
  ((dedup [] (z.frags.map (·.tile))).map (fun t => z.queuedAt t - queueRoom)).sum

/-- A fragment goes to the spill area: what is written there is a free value (R379; DESIGN CHOICE, log 36). -/
def spillFrag (s : State) (i : Nat) (z : OrderSlot) : State :=
  let cells := (Config.spillCells z.spilled).filter (fun c => c.1 < 128 * z.splen && z.spill + c.1 < memEnd)
  modSlot (writeBytes s (cells.map (fun c => (z.spill + c.1, c.2))) false) i (fun z => { z with spilled := z.spilled + 1 })

/-- A fragment reaches a slot: it is discarded and counted, enters its tile's queue, or waits while that queue and the
spill area are full. -/
def offerFrag (s : State) (i : Nat) (f : Frag) : State × Bool :=
  match sget i s.oslots with
  | none => (loseFrags s 1, true)
  | some z =>
    let enter (s : State) : State × Bool := (modSlot s i (fun z => { z with frags := z.frags ++ [f] }), true)
    if !z.groups.any (fun g => g.owns f && !g.closed && g.contains z.rtd1 f.tile) then (modSlot s i (fun z => { z with lost := z.lost + 1 }), true)
    else if z.queuedAt f.tile < queueRoom then enter s
    else if z.spills < Config.spillRoom z.splen then enter (spillFrag s i z)
    else (s, false)

/-- Fragments reach a slot in order, up to the first that waits: what is left. -/
def offerFrags (s : State) (i : Nat) : List Frag → State × List Frag
  | [] => (s, [])
  | f :: rest =>
    match offerFrag s i f with
    | (s, true) => offerFrags s i rest
    | (s, false) => (s, f :: rest)

/-- FRAGMENT_QUEUE (R378, R379): the fragments of a `blend` reach their tiles' queues, or are discarded and counted. A slot that
holds nothing takes the context of the `blend`. -/
def execFragmentQueue (op : Nat) (s : State) : Answer :=
  match sget op s.ops with
  | none => .next s
  | some o =>
    match o.kind with
    | .blend rtd0 rtd1 frags =>
      match s.oslots.find? (fun e => e.2.rtd0 = rtd0 && e.2.rtd1 = rtd1) with
      | none => .next (wakeReleases (endOp (loseFrags s frags.length) op))
      | some (i, z) =>
        let s := if z.frags.isEmpty && z.loaded.isEmpty then modSlot s i (fun z => { z with ctx := o.ctx }) else s
        match offerFrags s i frags with
        | (s, []) => .next (wakeReleases (endOp s op))
        | (s, left) => .next (modOp s op (fun o => { o with kind := .blend rtd0 rtd1 left }))
    | _ => .next s

/-- The groups whose fragments at a tile may be applied: the closed ones before the first open one. -/
def readyGroups (z : OrderSlot) (tile : Nat) : List OGroup :=
  (z.groups.filter (fun g => g.contains z.rtd1 tile)).takeWhile (·.closed)

/-- The order of keys (R278). -/
def keyLe (a b : Frag) : Bool :=
  if a.draw != b.draw then a.draw.ult b.draw else if a.group != b.group then a.group.ult b.group else a.prim.ule b.prim

/-- Inserts a fragment after those whose key is not greater. -/
def insertFrag (f : Frag) : List Frag → List Frag
  | [] => [f]
  | g :: l => if keyLe g f then g :: insertFrag f l else f :: g :: l

/-- The address of row `y` of a tile as a pointer, and its bytes (R377). -/
def rowVa (z : OrderSlot) (tile y : Nat) : Nat :=
  let pitch := targetPitch z.rtd1
  let b := pixelBytes (targetFmt z.rtd1)
  ptrVa z.rtd0 + b * (32 * (tile % (pitch / 32)) + pitch * (32 * (tile / (pitch / 32)) + y))

/-- The byte addresses of a tile, row by row. -/
def tileVas (z : OrderSlot) (tile : Nat) : List Nat :=
  ((List.range 32).map (fun y => addrs (rowVa z tile y) (32 * pixelBytes (targetFmt z.rtd1)))).flatten

/-- Whether a tile's bytes lie in the target's region. -/
def tileInside (s : State) (z : OrderSlot) (tile : Nat) : Bool :=
  let e := regionEntry s z.ctx (ptrRid z.rtd0)
  (List.range 32).all (fun y => inRegion e (rowVa z tile y) (32 * pixelBytes (targetFmt z.rtd1)))

/-- The ROU's core in reports: the first core of the tile's cluster. -/
def rouCore (tile : Nat) : Nat := 4 * (tile % 32)

/-- A tile's page misses at an address: whether Loam has answered that it cannot be backed. Its report is sent once. -/
def tileMiss (s : State) (oslot : Nat) (z : OrderSlot) (tile acc va : Nat) (m : Miss) : State × Bool :=
  let vpn := va / 4096
  if z.told.contains (vpn, true) then (s, true)
  else if z.told.contains (vpn, false) || m.isNone then (s, false)
  else
    (modSlot (reportMiss s z.ctx (rouCore tile) 0 acc (ptrRid z.rtd0) va m) oslot (fun z => { z with told := z.told ++ [(vpn, false)] }), false)

/-- The physical bytes of a tile, or whether they can never be reached. Lines that an engine owns are waited for (R297). -/
def tilePas (s : State) (oslot : Nat) (z : OrderSlot) (tile : Nat) (need : Need) : State × Except Bool (List Nat) :=
  match physical s none z.ctx need false 0 { core := rouCore tile } (ptrRid z.rtd0) (tileVas z tile) with
  | (s, .error (va, m)) =>
    let r := tileMiss s oslot z tile (if need.writes then (if need == .both then 2 else 1) else 0) va m
    (r.1, .error r.2)
  | (s, .ok pas) => if memOwned s none pas then (s, .error false) else (s, .ok pas)

/-- Loads a tile, if it is not loaded. -/
def loadTile (s : State) (oslot : Nat) (z : OrderSlot) (tile : Nat) : State × Except Bool (List Byte) :=
  match sget tile z.loaded with
  | some b => (s, .ok b)
  | none =>
    match tilePas s oslot z tile .both with
    | (s, .error e) => (s, .error e)
    | (s, .ok pas) => let r := readBytes s pas; (r.1, .ok r.2.1)

/-- Applies the fragments that may be applied at a tile, in key order. Outside the target's region, or where the page cannot be
backed, they are discarded (DESIGN CHOICE, log 36). -/
def applyTile (s : State) (oslot tile : Nat) : State :=
  match sget oslot s.oslots with
  | none => s
  | some z =>
    let ready := readyGroups z tile
    let due (f : Frag) : Bool := f.tile = tile && ready.any (·.owns f)
    let frags := (z.frags.filter due).foldl (fun l f => insertFrag f l) []
    let drop (s : State) : State :=
      modSlot s oslot (fun z => { z with frags := z.frags.filter (fun f => !due f), lost := z.lost + frags.length })
    if frags.isEmpty then s
    else if !tileInside s z tile then drop s
    else
      match loadTile s oslot z tile with
      | (s, .error false) => s
      | (s, .error true) => drop s
      | (s, .ok bytes) =>
        let bytes := frags.foldl (applyFrag (targetFmt z.rtd1)) bytes
        let s := frags.foldl (fun s f => chargeCluster s (tile % 32) f.launch Config.fragmentClocks) s
        modSlot s oslot (fun z => { z with frags := z.frags.filter (fun f => !due f), loaded := sput tile bytes z.loaded })

/-! ### Flush and signatures (R380) -/

/-- One bit of the CRC-64. -/
def crcBit : Nat → W64 → W64
  | 0, c => c
  | n + 1, c => crcBit n (if c.getLsbD 63 then (c <<< 1) ^^^ 0x42F0E1EBA9EA3693 else c <<< 1)

/-- CRC-64 with the ECMA-182 polynomial, initial value 0. -/
def crc64 (bs : List Byte) : W64 := bs.foldl (fun c b => crcBit 8 (c ^^^ (b ++ (0 : BitVec 56)))) 0

/-- Writes a loaded tile, unless its signature stands in the table. -/
def writeTile (s : State) (oslot : Nat) (z : OrderSlot) (tile : Nat) (bytes : List Byte) : State × Except Bool Unit :=
  let crc := crc64 bytes
  let entry := z.sigt + 16 * tile
  let old := rd s entry 16
  if z.sigt != 0 && old.testBit 64 && bits old 0 64 = crc.toNat then (s, .ok ())
  else
    match tilePas s oslot z tile .write with
    | (s, .error e) => (s, .error e)
    | (s, .ok pas) =>
      let s := writeBytes s (pas.zip bytes) false
      (if z.sigt = 0 then s else wr s entry 16 (2 ^ 64 + crc.toNat), .ok ())

/-- Writes some loaded tiles of a slot, which are unloaded where `drop` says so: the tiles that wait for a page. A tile that cannot
be backed stays unwritten (DESIGN CHOICE, log 36). -/
def writeTiles (s : State) (oslot : Nat) (drop : Bool) (tiles : List Nat) : State × List Nat :=
  tiles.foldl (fun acc tile =>
    match (sget oslot acc.1.oslots).bind (fun z => (sget tile z.loaded).map (z, ·)) with
    | none => acc
    | some (z, bytes) =>
      match writeTile acc.1 oslot z tile bytes with
      | (s, .error false) => (s, acc.2 ++ [tile])
      | (s, _) => (if drop then modSlot s oslot (fun z => { z with loaded := sdel tile z.loaded }) else s, acc.2)) (s, [])

/-- TILE_EVICT (R380). -/
def execTileEvict (oslot tile : Nat) (s : State) : Answer :=
  match (sget oslot s.oslots).bind (fun z => (sget tile z.loaded).map (z, ·)) with
  | none => .next s
  | some (z, bytes) =>
    match writeTile s oslot z tile bytes with
    | (s, .ok ()) => .next (modSlot s oslot (fun z => { z with loaded := sdel tile z.loaded }))
    | (s, .error _) => .next s

/-! ### Commands of Loam (R378) -/

/-- Writes `ro.stat` of a core: the LOST count of the slot, the slot of OP 1, and the status. -/
def roStat (s : State) (k lost slot status : Nat) : State :=
  ctlWr s (roReg k 0x18) (BitVec.ofNat 64 (lost % 2 ^ 32 * 2 ^ 32 + slot * 2 ^ 8 + status))

/-- A write of `ro.cmd`: with GO, the command of OP runs. A write while a command is in progress is ignored (DESIGN CHOICE,
log 36). -/
def roCommand (k : Nat) (v : W64) (op : Nat) (s : State) (run : State → Nat → OrderSlot → State) : State :=
  if (sget k s.roBusy).isSome then s
  else
    let s := ctlWr s (roReg k 0x10) (v &&& 0x3F07)
    if !v.getLsbD 63 || bits v.toNat 0 3 != op then s
    else
      let i := bits v.toNat 8 6
      match sget i s.oslots with
      | none => roStat s k 0 0 1
      | some z => run s i z

/-- The order record at a physical address is good (R378). -/
def orderRecordGood (x : Nat) : Bool :=
  let spill := bits x 192 64
  let sigt := bits x 128 64
  let rtd1 := bits x 64 64
  bits x 288 224 = 0 && spill % 128 = 0 && sigt % 16 = 0 && bits rtd1 35 29 = 0 && rtd1.testBit 34 && bits rtd1 32 2 != 3
    && bits x 0 7 = 0

/-- RO_REGISTER (R378). -/
def execRoRegister (k : Nat) (v : W64) (s : State) : Answer :=
  if (sget k s.roBusy).isSome then .next s else
  let s := ctlWr s (roReg k 0x10) (v &&& 0x3F07)
  if !v.getLsbD 63 || bits v.toNat 0 3 != 1 then .next s
  else
    let a := (ctlRd s (roReg k 0)).toNat
    if memEnd < a + 64 then .next (roStat s k 0 0 3)
    else
      let r := readBytes s (addrs a 64)
      let s := r.1
      let x := fromBytesLE r.2.1
      if r.2.2 || !orderRecordGood x then .next (roStat s k 0 0 3)
      else
        match freeKey s.oslots 64 0 with
        | none => .next (roStat s k 0 0 2)
        | some i =>
          let z : OrderSlot :=
            { rtd0 := BitVec.ofNat 64 (bits x 0 64), rtd1 := BitVec.ofNat 64 (bits x 64 64), sigt := bits x 128 64
              spill := bits x 192 64, splen := bits x 256 32, ctx := 0, groups := [], frags := [], loaded := [], lost := 0 }
          .next (roStat { s with oslots := sput i z s.oslots } k 0 i 0)

/-- Whether key a is above key b. -/
def keyAbove (a : W32 × W32) (b : OGroup) : Bool := b.draw.ult a.1 || (b.draw = a.1 && b.group.ult a.2)

/-- The key in `ro.arg0`. -/
def roKey (s : State) (k : Nat) : W32 × W32 :=
  ((ctlRd s (roReg k 0)).extractLsb' 32 32, (ctlRd s (roReg k 0)).extractLsb' 0 32)

/-- RO_OPEN_GROUP (R378). -/
def execRoOpenGroup (k : Nat) (v : W64) (s : State) : Answer :=
  .next (roCommand k v 2 s (fun s i z =>
    let key := roKey s k
    let r := (ctlRd s (roReg k 8)).toNat
    if !z.groups.all (keyAbove key) then roStat s k z.lost 0 1
    else
      let g : OGroup := { draw := key.1, group := key.2, tx0 := bits r 0 16, ty0 := bits r 16 16, tx1 := bits r 32 16, ty1 := bits r 48 16
                          closed := false }
      roStat (modSlot s i (fun z => { z with groups := z.groups ++ [g] })) k z.lost 0 0))

/-- RO_CLOSE_GROUP (R378, R379). -/
def execRoCloseGroup (k : Nat) (v : W64) (s : State) : Answer :=
  .next (roCommand k v 3 s (fun s i z =>
    let key := roKey s k
    if z.groups.any (fun g => g.draw = key.1 && g.group = key.2 && !g.closed) then
      roStat (modSlot s i (fun z => { z with groups := z.groups.map (fun g =>
        if g.draw = key.1 && g.group = key.2 then { g with closed := true } else g) })) k z.lost 0 0
    else roStat s k z.lost 0 1))

/-- The slot with the fragments of its open groups discarded and counted, so that the rest may be applied. -/
def closeSlot (z : OrderSlot) : OrderSlot :=
  let lost (f : Frag) : Bool := z.groups.any (fun g => g.owns f && !g.closed)
  { z with frags := z.frags.filter (fun f => !lost f), lost := z.lost + (z.frags.filter lost).length
           groups := z.groups.map (fun g => { g with closed := true }) }

/-- Ends a command: GO reads 0, with the status done. -/
def roDone (s : State) (k lost : Nat) : State :=
  let s := { s with roBusy := sdel k s.roBusy }
  roStat (ctlWr s (roReg k 0x10) (ctlRd s (roReg k 0x10) &&& 0x3F07)) k lost 0 0

/-- A command that has still to write goes on: GO reads 1. -/
def roGoes (s : State) (k : Nat) (c : RoCmd) : State :=
  ctlWr { s with roBusy := sput k c s.roBusy } (roReg k 0x10) (ctlRd s (roReg k 0x10) ||| 0x8000000000000000)

/-- A flush or a release goes as far as it can, and ends when every tile is written. A release also applies and unloads. -/
def roAdvance (s : State) (k : Nat) (c : RoCmd) : State :=
  match sget c.slot s.oslots with
  | none => roDone s k 0
  | some z =>
    if c.release then
      let s := { s with oslots := sput c.slot (closeSlot z) s.oslots }
      let s := (dedup [] ((closeSlot z).frags.map (·.tile))).foldl (fun s t => applyTile s c.slot t) s
      let s := (writeTiles s c.slot true (((sget c.slot s.oslots).map (fun z => skeys z.loaded)).getD [])).1
      match sget c.slot s.oslots with
      | none => roDone s k 0
      | some z =>
        if z.frags.isEmpty && z.loaded.isEmpty then roDone { s with oslots := sdel c.slot s.oslots } k z.lost
        else roGoes s k c
    else
      match writeTiles s c.slot false c.tiles with
      | (s, []) => roDone s k z.lost
      | (s, left) => roGoes s k { c with tiles := left }

/-- The commands in progress on one slot, or on every slot, go on. -/
def roRetry (s : State) (only : Option Nat) : State :=
  (s.roBusy.filter (fun e => only.all (fun i => e.2.slot = i))).foldl (fun s e => roAdvance s e.1 e.2) s

/-- RO_FLUSH (R380). -/
def execRoFlush (k : Nat) (v : W64) (s : State) : Answer :=
  .next (roCommand k v 4 s (fun s i z => roAdvance s k { slot := i, release := false, tiles := skeys z.loaded }))

/-- RO_RELEASE (R378): discards the fragments of open groups, applies the others, flushes the slot and frees it. -/
def execRoRelease (k : Nat) (v : W64) (s : State) : Answer :=
  .next (roCommand k v 5 s (fun s i _ => roAdvance s k { slot := i, release := true, tiles := [] }))

/-- FRAGMENT_APPLY (R279, R379). Commands in progress on the slot go on. -/
def execFragmentApply (oslot tile : Nat) (s : State) : Answer := .next (roRetry (applyTile s oslot tile) (some oslot))

end Sys2Proof.Machine
end

