-- ==== Sys2Proof/Machine/Tags.lean ====
section
/-! DEFINITION. Context tags: the instructions of opcode 0xDF, and the steps of the tag allocator and of the cell
tables (R252 to R259, R339). -/

namespace Sys2Proof.Machine

/-! ### The allocator (R252, R254) -/

/-- The context-tag trap of an operand (R253, R425). -/
def tagTrap (sub : BitVec 16) (operand : W32) : Cause := { kind := 0x0A, sub := sub, syn0 := operand }

/-- The lowest free tag of a context. -/
def lowestTag (s : State) (ctx : Nat) : Option Nat := (sget ctx s.contexts).bind (fun c => freeKey c.tags 4095 1)

/-- Changes a context. -/
def modCtx (s : State) (ctx : Nat) (f : Context → Context) : State := { s with contexts := smod ctx f s.contexts }

/-- Makes a free tag live. -/
def takeTag (s : State) (ctx t : Nat) : State :=
  modCtx s ctx (fun c => { c with tags := sput t { retiring := false, holders := 0 } c.tags })

/-- Serves the waiting requests of a context in order while tags are free (R254). The second argument bounds the
number served. -/
def serveTags (s : State) (ctx : Nat) : Nat → State
  | 0 => s
  | n + 1 =>
    match (sget ctx s.contexts).bind (·.waiters.head?), lowestTag s ctx with
    | some (wk, slot), some t =>
      let s := modCtx s ctx (fun c => { c with waiters := c.waiters.drop 1 })
      match (fibreAt s wk slot).bind (·.blocked) with
      | some (.tagnew d) =>
        serveTags (modFibre (takeTag s ctx t) wk slot (fun f => (f.resume false).setV d.toNat (BitVec.ofNat 32 t))) ctx n
      | _ => serveTags s ctx n
    | _, _ => s

/-- The waiting requests of a context are served. -/
def serveAll (s : State) (ctx : Nat) : State := serveTags s ctx (((sget ctx s.contexts).map (·.waiters.length)).getD 0)

/-! ### Allocation and retirement (R254, R255) -/

/-- `tagnew`: each fibre gets a tag or blocks. -/
def tagnewBody (x : RT) (b : Bundle) (s : State) : State :=
  let ctx := ctxOf s b.wk
  b.act.foldl (fun s slot =>
    match lowestTag s ctx with
    | some t => modFibre (takeTag s ctx t) b.wk slot (fun f => f.setV x.va.toNat (BitVec.ofNat 32 t))
    | none =>
      block (modCtx s ctx (fun c => { c with waiters := c.waiters ++ [(b.wk, slot)] })) b.wk slot b.pc b.place (.tagnew x.va)) s
/-- TAGNEW (R254). -/
def execTagnew (g : Guard) (x : RT) (s : State) : Answer := issue (.tagnew g x) g .none (tagnewBody x) s

/-- `tagnew.try`: each fibre gets a tag or 0. -/
def tagnewTryBody (x : RT) (b : Bundle) (s : State) : State :=
  let ctx := ctxOf s b.wk
  b.act.foldl (fun s slot =>
    match lowestTag s ctx with
    | some t => modFibre (takeTag s ctx t) b.wk slot (fun f => (f.setV x.va.toNat (BitVec.ofNat 32 t)).setP x.pd true)
    | none => modFibre s b.wk slot (fun f => (f.setV x.va.toNat 0).setP x.pd false)) s
/-- TAGNEW_TRY (R254). -/
def execTagnewTry (g : Guard) (x : RT) (s : State) : Answer := issue (.tagnewTry g x) g .none (tagnewTryBody x) s

/-- Acts for each fibre on the tag its register names, or traps it: `base` when tag 0 may not be named (R253). -/
def eachTag (reg : Nat) (base : Bool) (act : State → Nat → Nat → State) (b : Bundle) (s : State) : State :=
  b.act.foldl (fun s slot =>
    match fibreAt s b.wk slot with
    | none => s
    | some f =>
      let x := f.rv reg
      if 4096 ≤ x.toNat then trap s b.wk slot b.here (tagTrap 1 x)
      else if base && x = 0 then trap s b.wk slot b.here (tagTrap 2 x)
      else act s slot x.toNat) s

/-- `tagret`. -/
def tagretBody (x : RT) (b : Bundle) (s : State) : State :=
  let ctx := ctxOf s b.wk
  eachTag x.va.toNat true (fun s slot t =>
    let live := tagLive s ctx t
    let s := if live then modCtx s ctx (fun c => { c with tags := smod t (fun e => { e with retiring := true }) c.tags }) else s
    modFibre s b.wk slot (fun f => f.setP x.pd live)) b s
/-- TAGRET (R255). -/
def execTagret (g : Guard) (x : RT) (s : State) : Answer := issue (.tagret g x) g .none (tagretBody x) s

/-- `tagset`, after the fibre's release. -/
def tagsetBody (x : RT) (b : Bundle) (s : State) : State :=
  let ctx := ctxOf s b.wk
  eachTag x.va.toNat false (fun s slot t =>
    if t != 0 && !tagLive s ctx t then trap s b.wk slot b.here (tagTrap 3 (BitVec.ofNat 32 t))
    else
      let old := ((fibreAt s b.wk slot).map (·.ct.toNat)).getD 0
      modFibre (tagDrop (tagHold s ctx t) ctx old) b.wk slot (fun f => { f with ct := BitVec.ofNat 12 t })) b s
/-- TAGSET (R256). -/
def execTagset (g : Guard) (x : RT) (s : State) : Answer := issue (.tagset g x) g .each (tagsetBody x) s

/-- TAGGET (R257). -/
def execTagget (g : Guard) (x : RT) (s : State) : Answer :=
  issue (.tagget g x) g .none (perFibre (fun _ _ f => f.setV x.va.toNat (f.ct.setWidth 32))) s

/-- State and holder count of a tag (R257). -/
def tagInfo (s : State) (ctx t : Nat) : W32 :=
  if t = 0 then 1
  else
    match (sget ctx s.contexts).bind (fun c => sget t c.tags) with
    | none => 0
    | some e => BitVec.ofNat 32 (4 * e.holders + if e.retiring then 2 else 1)

/-- `tagget.info`. -/
def taggetInfoBody (x : RT) (b : Bundle) (s : State) : State :=
  let ctx := ctxOf s b.wk
  eachTag x.vb.toNat false (fun s slot t => modFibre s b.wk slot (fun f => f.setV x.va.toNat (tagInfo s ctx t))) b s
/-- TAGGET_INFO (R257). -/
def execTaggetInfo (g : Guard) (x : RT) (s : State) : Answer := issue (.taggetInfo g x) g .none (taggetInfoBody x) s

/-! ### Cells of a tag (R258, R259, R339) -/

/-- The valid cells of a context, or of one tag: entry address, page, tag and frame. -/
def cellsOf (s : State) (ctx : Nat) (tag : Option Nat) : List (Nat × Nat × Nat × Nat) :=
  let t := cellTable (transBlock s ctx)
  let last := t.1 + 128 * 2 ^ t.2
  (s.mem.filter (fun c => t.1 ≤ c.1 && c.1 < last && (c.1 - t.1) % 32 = 16 && c.2.toNat % 4 = 1)).filterMap (fun c =>
    let a := c.1 - 16
    let e := rd s a 32
    if tag.all (fun t => bits e 0 12 = t) then some (a, bits e 12 45, bits e 0 12, bits e 76 40 * 4096) else none)

/-- TAG_RETIRE_COMPLETE (R252, R339): the cells of a retiring tag without holders are freed, and the tag is free. -/
def execTagRetireComplete (ctx tag : Nat) (s : State) : Answer :=
  match (sget ctx s.contexts).bind (fun c => sget tag c.tags) with
  | none => .next s
  | some e =>
    if !e.retiring || e.holders != 0 then .next s
    else
      let s := (cellsOf s ctx (some tag)).foldl (fun s c => freeCell s ctx c.1 c.2.2.2) s
      .next (serveAll (modCtx s ctx (fun c => { c with tags := sdel tag c.tags })) ctx)

/-- The slot, tag and pages of each fibre whose `tagpub` goes on; the others trap. -/
def tagpubParts (x : RT) (b : Bundle) (s : State) : State × List (Nat × Nat × List Nat) :=
  let ctx := ctxOf s b.wk
  let live (t : Nat) : Bool := ((sget ctx s.contexts).bind (fun c => sget t c.tags)).isSome
  let tag (slot : Nat) : W32 := ((fibreAt s b.wk slot).map (·.rv x.va.toNat)).getD 0
  let bad (t : W32) : Option (BitVec 16) := if 4096 ≤ t.toNat then some 1 else if t = 0 then some 2 else if live t.toNat then none else some 3
  (trapEach s b.wk b.here (b.act.filterMap (fun y => (bad (tag y)).map (fun sub => (y, tagTrap sub (tag y))))),
   (b.act.filter (fun y => (bad (tag y)).isNone)).map (fun y => (y, (tag y).toNat, (cellsOf s ctx (some (tag y).toNat)).map (·.2.1))))

/-- Ends a `tagpub` that has no page left. -/
def finishTagpub (s : State) (n : Nat) : State :=
  match sget n s.ops with
  | none => s
  | some o =>
    match o.kind with
    | .tagpub parts =>
      if parts.all (fun p => p.2.2.isEmpty) then endOp (parts.foldl (fun s p => tagDrop s o.ctx p.2.1) s) n else s
    | _ => s

/-- `tagpub`, after the release. -/
def tagpubBody (x : RT) (b : Bundle) (s : State) : State :=
  let r := tagpubParts x b s
  if r.2.isEmpty then r.1
  else
    let ctx := ctxOf s b.wk
    let n := r.1.nextOp
    finishTagpub (startOp (r.2.foldl (fun s p => tagHold s ctx p.2.1) r.1) { b with act := r.2.map (·.1) } (.tagpub r.2)) n
/-- TAGPUB (R258). -/
def execTagpub (g : Guard) (x : RT) (s : State) : Answer := issue (.tagpub g x) g .bundle (tagpubBody x) s

/-- Takes a page from the parts of a `tagpub` that name a tag. -/
def dropPage (vpn tag : Nat) (parts : List (Nat × Nat × List Nat)) : List (Nat × Nat × List Nat) :=
  parts.map (fun p => if p.2.1 = tag then (p.1, p.2.1, p.2.2.filter (· != vpn)) else p)

/-- Window copies of a cell's lines are written back and recalled. -/
def recallCell (s : State) (ctx vpn tag : Nat) : State :=
  (List.range 32).foldl (fun s i => (snoopCell s ctx (4096 * vpn + 128 * i) tag true).1) s

/-- Publishes a page of a tag: the cell is written over the base and freed, or the page waits. -/
def publish (s : State) (n : Nat) (o : Op) (vpn tag : Nat) (parts : List (Nat × Nat × List Nat)) : State :=
  let s := recallCell s o.ctx vpn tag
  let done (s : State) : State :=
    retryMem (finishTagpub (modOp s n (fun o => { o with wait := none, kind := .tagpub (dropPage vpn tag parts) })) n) none
  match cellFind s o.ctx vpn tag with
  | .absent _ => done s
  | .found e f =>
    match walkFor s none o.ctx (4096 * vpn) .write with
    | (s, .error m) => engineWait s n o 0 1 0 (4096 * vpn) m
    | (s, .ok (_, pa)) =>
      let base := pa - pa % 4096
      if memOwned s (some n) (addrs base 4096 ++ addrs f 4096) then s else done (freeCell (copyFrame s f base) o.ctx e f)

/-- TAGPUB_PAGE (R258): a page of a tag that a `tagpub` publishes. -/
def execTagpubPage (n vpn : Nat) (s : State) : Answer :=
  match sget n s.ops with
  | none => .next s
  | some o =>
    match o.kind with
    | .tagpub parts =>
      match parts.find? (fun p => p.2.2.contains vpn) with
      | none => .next s
      | some p => .next (publish s n o vpn p.2.1 parts)
    | _ => .next s

/-- A page of a `tagpub` that Loam cannot back: its cell stays, and the error is pending (R258). -/
def stopTagpub (s : State) (n : Nat) (o : Op) (vpn : Nat) (parts : List (Nat × Nat × List Nat)) : State :=
  let hit := parts.filter (fun p => p.2.2.contains vpn)
  let s := hit.foldl (fun s p => makePending s o.wave p.1
    { kind := 3, sub := 0x0A, apc := o.pc, addr := BitVec.ofNat 64 (4096 * vpn), acc := 6, buf := 0xFF, syn0 := 0, syn1 := 0, syn2 := 0 }) s
  finishTagpub (modOp s n (fun o => { o with
    wait := none, kind := .tagpub (parts.map (fun p => (p.1, p.2.1, p.2.2.filter (· != vpn)))) })) n

/-- Whether a write to the cell of a page and a tag waits. -/
def cellWanted (s : State) (ctx vpn tag : Nat) : Bool :=
  s.cores.any (fun c => c.2.silt.any (fun e => e.ctx = ctx && e.tag.toNat = tag && e.onPage vpn))
    || s.ops.any (fun e => e.2.ctx = ctx && (match e.2.kind with
      | .load _ _ held => held.any (fun a => a.kind == .atom && a.tag = tag && a.va.any (fun v => v / 4096 = vpn))
      | .store held => held.any (fun a => a.tag = tag && a.va.any (fun v => v / 4096 = vpn))
      | .copy c => c.tag.toNat = tag && e.2.wait.any (fun v => v / 4096 = vpn)
      | _ => false))

/-- CELL_MATERIALISE (R259, R339): a cell that a waiting write needs is taken and copied from the base. -/
def execCellMaterialise (ctx vpn tag : Nat) (s : State) : Answer :=
  if tag = 0 || !cellWanted s ctx vpn tag then .next s
  else
    match walk s ctx (4096 * vpn) with
    | .bad _ => .next s
    | .leaf pte _ size =>
      let pa := leafPa pte size (4096 * vpn)
      if !pte.testBit 63 || pte.testBit 57 || !pte.testBit 3 then .next s
      else .next (materialise s ctx vpn tag pa { core := sliceCore pa } 0 (4096 * vpn)).1

end Sys2Proof.Machine
end

