-- ==== Sys2Proof/Machine/SaveArea.lean ====
section
/-! DEFINITION. The layout of what is saved: fibre blocks, wave blocks and the save area (R413 to R415), as
pieces of bytes at offsets; bytes that no piece covers are 0. Where the manual gives a block's contents without their
offsets, the offsets are the model's (DESIGN CHOICE, log 17). -/

namespace Sys2Proof.Machine

/-- Bytes at an offset. -/
abbrev Piece := Nat × List Byte

/-- A number of `n` bytes at an offset. -/
def piece (off n x : Nat) : Piece := (off, toBytesLE n x)

/-- Moves pieces by an offset. -/
def shift (off : Nat) (l : List Piece) : List Piece := l.map (fun p => (off + p.1, p.2))

/-- A list of bits as a number, from bit 0 up. -/
def bitSum (l : List Nat) : Nat := (l.map (2 ^ ·)).sum

/-! ### Fibre blocks (R415) -/

/-- Slot states in a fibre block: 0 empty, 1 ready, 2 blocked, as every fibre of a parked wave is (R30), 3 in-handler. -/
def slotState (parked : Bool) (f : Fibre) : Nat := if f.blocked.isSome || parked then 2 else if f.recs.isEmpty then 1 else 3

/-- The condition of a blocked fibre: a code, and what it waits for. -/
def condition (parked : Bool) : Option Blocked → List Piece
  | none => [piece 40 1 (if parked then 9 else 0)]
  | some (.waitPh obj k pd) => [piece 40 1 1, piece 43 1 pd.toNat, piece 44 8 obj, piece 52 4 k.toNat]
  | some (.waitM p buf x0 x1 c cond sg lim pd) =>
    [piece 40 1 2, piece 41 1 buf.toNat, piece 42 1 (cond.toNat + bit sg 2 + bit lim.isSome 3), piece 43 1 pd.toNat, piece 44 8 p.toNat,
     piece 52 4 c.toNat, piece 56 8 (lim.getD 0), piece 64 4 x0.toNat, piece 68 4 x1.toNat]
  | some .gridwait => [piece 40 1 3]
  | some (.tagnew d) => [piece 40 1 4, piece 44 8 d.toNat]
  | some (.mem _) => [piece 40 1 5]
  | some (.release g d) => [piece 40 1 6, piece 42 1 (bit d 0), piece 44 8 (bitSum g)]
  | some .fence => [piece 40 1 7]
  | some .stopped => [piece 40 1 8]

/-- A pending error in a fibre block. -/
def deferredBytes (d : Deferred) (lost : Bool) : List Byte :=
  toBytesLE 1 d.kind.toNat ++ toBytesLE 1 (1 + bit lost 1) ++ toBytesLE 2 d.sub.toNat ++ toBytesLE 8 d.apc.toNat ++ toBytesLE 8 d.addr.toNat
    ++ toBytesLE 1 d.acc.toNat ++ toBytesLE 1 d.buf.toNat ++ toBytesLE 4 d.syn0.toNat ++ toBytesLE 4 d.syn1.toNat ++ toBytesLE 4 d.syn2.toNat

/-- The 128 bytes of fibre state. -/
def fibreState (wg : Nat) (parked : Bool) (f : Fibre) : List Piece :=
  [piece 0 8 f.pc.toNat, piece 8 1 (slotState parked f), piece 10 2 f.pred.toNat, piece 12 4 f.lfi.toNat,
   piece 16 8 (wg * 2 ^ 32 + f.lfi.toNat), piece 24 2 f.ct.toNat, piece 26 1 f.starve, piece 27 1 f.depth, piece 28 8 f.draw.toNat,
   piece 36 4 f.stamp]
    ++ condition parked f.blocked ++ (match f.deferred with | some d => [(72, deferredBytes d f.lostDef)] | none => [])

/-- The hit record's 64 bytes. -/
def hitBytes (h : HitRec) : List Byte :=
  toBytesLE 4 h.status.toNat ++ toBytesLE 4 h.t.toNat ++ toBytesLE 4 h.u.toNat ++ toBytesLE 4 h.v.toNat ++ toBytesLE 4 h.prim.toNat
    ++ toBytesLE 8 h.leaf.toNat ++ toBytesLE 4 h.pidx.toNat ++ toBytesLE 4 h.face.toNat ++ toBytesLE 4 h.hg.toNat ++ toBytesLE 4 h.geo.toNat

/-- A fibre block; an entry of the traversal stack holds its child word and a bit that says that it is there. -/
def fibreBlock (l : Launch) (wg : Nat) (parked : Bool) (f : Fibre) : List Piece :=
  fibreState wg parked f
    ++ [piece 128 32 (bitSum ((f.v.filter (·.2.pois)).map (·.1))), piece 160 4 ((f.q.map (fun e => e.2.pois.toNat * 2 ^ (4 * e.1))).sum),
        (192, hitBytes f.hit)]
    ++ (((f.trav.map (·.stack)).getD []).zipIdx.map (fun c => piece (256 + 16 * c.2) 16 (c.1.toNat + 2 ^ 64)))
    ++ (f.v.filter (fun e => e.1 < l.vcnt)).map (fun e => piece (1280 + 4 * e.1) 4 e.2.val.toNat)
    ++ (if l.qcnt = 8 then f.q.map (fun e => piece (1280 + 4 * l.vcnt + 16 * e.1) 16 e.2.val.toNat) else [])

/-! ### Wave blocks (R415) -/

/-- The status word of an accumulator (R213). -/
def tileStatus (t : Tile) : Nat :=
  (t.exp % 65536).toNat * 2 ^ 48 + bits t.rslab 0 8 * 2 ^ 40 + bit t.susp 9 + bit t.high 8 + bit t.pair 7 + bit t.efix 6 + bit t.nanin 2
    + bit t.sbad 1 + bit t.tbad 0

/-- An accumulator tile: 6-byte elements in row-major order, or the f32 values of a pair register. -/
def tilePieces (t : Tile) : List Piece :=
  if t.pair then t.fval.map (fun e => piece (4 * e.1) 4 e.2.toNat)
  else t.mant.map (fun e => piece (6 * e.1) 6 (e.2 % 2 ^ 48).toNat)

/-- The code of a kind of matrix operation in a wave block; 0 stands for no operation. -/
def MatKind.code : MatKind → Nat
  | .mma => 1 | .mmat => 2 | .drain => 3 | .zero => 4 | .latch => 5

/-- The 40 bytes of a matrix operation in a wave block: kind, accumulator, what its instruction named, slabs and next slab, binding,
flag, the set U, PC and addresses. -/
def MatOp.bytes (o : MatOp) : List Byte :=
  toBytesLE 1 o.kind.code ++ toBytesLE 1 o.acc
    ++ toBytesLE 1 (o.quad % 4 + bit o.pair 2 + bit o.bind.sparse 3 + (if o.susp == some .sparsity then 16 else if o.susp.isSome then 32 else 0))
    ++ toBytesLE 1 o.aty.toNat ++ toBytesLE 2 o.slabs ++ toBytesLE 2 o.next ++ toBytesLE 2 o.bind.base ++ toBytesLE 1 o.bind.fmt.toNat
    ++ toBytesLE 1 (o.flag.getD 255) ++ toBytesLE 4 (bitSum (o.rows.map (·.1))) ++ toBytesLE 8 o.pc.toNat ++ toBytesLE 8 o.gaddr
    ++ toBytesLE 2 o.opx.toNat ++ toBytesLE 1 o.tty.toNat ++ toBytesLE 1 o.prio ++ toBytesLE 4 o.taddr

/-- What a wave block says of the operations that its flags count (R415): of each flag the `capinv` operations and the collectives. -/
def flagOps (ops : List Op) : List Piece :=
  let of (f : Op → Bool) (k : Nat) : Nat := (ops.filter (fun o => o.flag = some k && f o)).length
  let cap (o : Op) : Bool := match o.kind with | .capinv _ => true | _ => false
  let col (o : Op) : Bool := match o.kind with | .coll _ => true | _ => false
  ((List.range 12).map (fun k => [piece (96 + 2 * k) 1 (of cap k), piece (97 + 2 * k) 1 (of col k)])).flatten

/-- The 1,024 bytes of wave state. -/
def waveState (mats : Sparse MatOp) (ops : List Op) (w : Wave) : List Piece :=
  w.flags.map (fun e => piece e.1 1 e.2) ++ w.accs.map (fun e => piece (16 + 8 * e.1) 8 (tileStatus e.2))
    ++ [piece 80 1 (bit w.sptrap 0), piece 84 4 w.forkSerial, piece 88 4 (bitSum (skeys w.fibres)), piece 92 4 w.issueNo]
    ++ flagOps ops ++ w.stall.map (fun e => piece (128 + 8 * e.1) 8 e.2)
    ++ (match w.park with
        | some p => [piece 480 8 (1 + p.wslot * 2 ^ 8 + p.core * 2 ^ 16 + p.seq.toNat * 2 ^ 32 + p.reg * 2 ^ 48)]
        | none => [])
    ++ [piece 512 32 ((w.g.map (fun e => bit e.2.poisLo (2 * e.1) + bit e.2.poisHi (2 * e.1 + 1))).sum)]
    ++ ((mats.take 12).zipIdx.map (fun m => (544 + 40 * m.2, m.1.2.bytes)))

/-- A wave block. -/
def waveBlock (l : Launch) (mats : Sparse MatOp) (ops : List Op) (w : Wave) : List Piece :=
  waveState mats ops w ++ (w.g.filter (fun e => e.1 < l.gcnt)).map (fun e => piece (1024 + 8 * e.1) 8 e.2.val.toNat)
    ++ ((w.accs.filter (fun e => e.1 < l.acnt)).map (fun e => shift (1024 + 8 * l.gcnt + 49152 * e.1) (tilePieces e.2))).flatten
    ++ (w.fibres.map (fun e => shift (1024 + 8 * l.gcnt + 49152 * l.acnt + fibreSize l * e.1) (fibreBlock l w.wg w.park.isSome e.2))).flatten

/-! ### The save area (R414) -/

/-- The 128 bytes of a Silt log entry (R336). -/
def SiltEntry.bytes (e : SiltEntry) : List Byte :=
  toBytesLE 128 (e.pseq % 65536 * 2 ^ 816 + e.ty.toNat * 2 ^ 811 + e.rop.toNat * 2 ^ 807 + bit e.kred 806 + e.scope.toNat * 2 ^ 803
    + e.tag.toNat * 2 ^ 791 + e.wg * 2 ^ 736 + e.lfi.toNat * 2 ^ 704 + bits e.pc.toNat 0 57 * 2 ^ 640
    + (e.rid * 2 ^ 57 + e.addr / 64 * 64) * 2 ^ 576 + e.mask.toNat * 2 ^ 512 + e.data.toNat)

/-- A window entry's 32 bytes. -/
def windowBytes (w : Window) : List Byte :=
  toBytesLE 4 w.stash ++ toBytesLE 4 w.c ++ toBytesLE 8 w.ptr.toNat ++ toBytesLE 2 w.tag.toNat ++ toBytesLE 1 (bit w.wr 0)
    ++ toBytesLE 1 1 ++ List.replicate 12 0

/-- A tile register's 8 bytes: base slot, format, sparse bit, and whether it is bound. -/
def bindBytes (b : TileBind) : List Byte := toBytesLE 8 (b.base + b.fmt.toNat * 2 ^ 16 + bit b.sparse 24 + bit true 32)

/-- The pieces of a save area but for its state byte: `silt` the gang's entries in order, `groups` its workgroups by linear
index, `waves` its waves, `mats` their matrix operations, `ops` the operations that go on while it is saved. No credit is held yet. -/
def areaPieces (l : Launch) (launch k clock core : Nat) (g : Gang) (silt : List SiltEntry)
    (groups : Sparse Workgroup) (waves : Sparse Wave) (mats : Sparse MatOp) (ops : Sparse Op) : List Piece :=
  let first := l.gang * k
  [piece 0 4 launch, piece 4 4 k, piece 8 1 (membersOf l k), piece 10 2 silt.length, piece 16 8 clock,
   piece 24 2 core, piece 320 8 (bit g.abort 0)]
    ++ g.windows.map (fun w => (64 + 32 * w.1, windowBytes w.2))
    ++ silt.zipIdx.map (fun e => (4096 + 128 * e.2, e.1.bytes))
    ++ (groups.map (fun e => shift (270336 + groupSize l * (e.1 % 2 ^ 32 - first)) (e.2.tiles.map (fun t => (8 * t.1, bindBytes t.2))))).flatten
    ++ (waves.map (fun e => shift (270336 + groupSize l * (e.2.wg - first) + 256 + waveSize l * e.2.widx)
          (waveBlock l (mats.filter (fun m => m.2.wave = e.1)) ((ops.filter (fun o => o.2.wave = e.1)).map (·.2)) e.2))).flatten
    ++ g.stash.map (fun b => (stashOff l + b.1, [b.2]))
    ++ (g.kaolin.filter (fun b => b.1 < 65536 * l.ks)).map (fun b => (kaolinOff l + b.1, [b.2]))

/-- The cells of some pieces that are not 0. -/
def pieceCells (l : List Piece) : List (Nat × Byte) :=
  ((l.map (fun p => p.2.zipIdx.map (fun b => (p.1 + b.2, b.1)))).flatten).filter (·.2 != 0)

/-- Replaces the 4,096 bytes of a page by the cells of an image that lie in it. -/
def writePage (s : State) (pa : Nat) (cells : List (Nat × Byte)) : State :=
  let s := snoop s (addrs pa 4096) true
  let s := { s with mem := s.mem.filter (fun c => c.1 < pa || pa + 4096 ≤ c.1)
                    memPois := s.memPois.filter (fun u => u < pa / 64 || pa / 64 + 64 ≤ u) }
  cells.foldl (fun s c => pPut s (pa + c.1 % 4096) c.2) s

/-- The bytes of a page that are not 0, by their offsets in the image. -/
def readPage (s : State) (page pa : Nat) : State × Sparse Byte :=
  let s := snoop s (addrs pa 4096) false
  (s, (s.mem.filter (fun c => pa ≤ c.1 && c.1 < pa + 4096)).map (fun c => (4096 * page + (c.1 - pa), c.2)))

/-- The frames of the pages of a save area. -/
def areaPages (s : State) (l : Launch) (k : Nat) (need : Need) : State × Except PtrFail (List Nat) :=
  let base := l.saveb + BitVec.ofNat 64 (areaSize l * k)
  (List.range (areaSize l / 4096)).foldl (fun acc i =>
    match acc with
    | (s, .error e) => (s, .error e)
    | (s, .ok ps) =>
      match ptrPhys s none l.ctx need 0 (base + BitVec.ofNat 64 (4096 * i)) 1 with
      | (s, .error e) => (s, .error e)
      | (s, .ok p) => (s, .ok (ps ++ p))) (s, .ok [])

/-! ### Reading an image back (R416) -/

/-- A number of an image. -/
def imgF (m : Sparse Byte) (off n : Nat) : Nat := fromBytesLE ((addrs off n).map (sgetD 0 m))

/-- The condition of a blocked fibre as its block gives it; an access that was held is made again. -/
def conditionFrom (m : Sparse Byte) (base : Nat) : Option Blocked :=
  let at' (o n : Nat) : Nat := imgF m (base + o) n
  let pd : BitVec 4 := BitVec.ofNat 4 (at' 43 1)
  match at' 40 1 with
  | 1 => some (.waitPh (at' 44 8) (BitVec.ofNat 16 (at' 52 4)) pd)
  | 2 =>
    some (.waitM (BitVec.ofNat 64 (at' 44 8)) (BitVec.ofNat 8 (at' 41 1)) (BitVec.ofNat 32 (at' 64 4)) (BitVec.ofNat 32 (at' 68 4))
      (BitVec.ofNat 32 (at' 52 4)) (BitVec.ofNat 2 (at' 42 1)) ((at' 42 1).testBit 2)
      (if (at' 42 1).testBit 3 then some (at' 56 8) else none) pd)
  | 3 => some .gridwait
  | 4 => some (.tagnew (BitVec.ofNat 8 (at' 44 8)))
  | 6 => some (.release ((List.range 32).filter (at' 44 8).testBit) ((at' 42 1).testBit 0))
  | 7 => some .fence
  | 8 => some .stopped
  | _ => none

/-- The pending error of a fibre as its block gives it. -/
def deferredFrom (m : Sparse Byte) (base : Nat) : Option Deferred :=
  let at' (o n : Nat) : Nat := imgF m (base + 72 + o) n
  if (at' 1 1).testBit 0 then
    some { kind := BitVec.ofNat 8 (at' 0 1), sub := BitVec.ofNat 16 (at' 2 2), apc := BitVec.ofNat 64 (at' 4 8), addr := BitVec.ofNat 64 (at' 12 8)
           acc := BitVec.ofNat 8 (at' 20 1), buf := BitVec.ofNat 8 (at' 21 1), syn0 := BitVec.ofNat 32 (at' 22 4)
           syn1 := BitVec.ofNat 32 (at' 26 4), syn2 := BitVec.ofNat 32 (at' 30 4) }
  else none

/-- The traversal stack of a fibre as its block gives it. -/
def stackFrom (m : Sparse Byte) (base : Nat) : List W64 :=
  ((List.range 64).filter (fun i => (imgF m (base + 256 + 16 * i + 8) 1).testBit 0)).map (fun i => BitVec.ofNat 64 (imgF m (base + 256 + 16 * i) 8))

/-- The registers and state of a fibre as its block gives them: `f` is the fibre as saved, or a new one in a slot that was empty,
and gives what the block's layout does not. A fibre whose slot state is ready stands in no handler. -/
def fibreFrom (l : Launch) (m : Sparse Byte) (base : Nat) (f : Fibre) : Fibre :=
  let pois := imgF m (base + 128) 32
  let qp := imgF m (base + 160) 4
  let h (i : Nat) : W32 := BitVec.ofNat 32 (imgF m (base + 192 + i) 4)
  let pc : W64 := BitVec.ofNat 64 (imgF m base 8)
  let state := imgF m (base + 8) 1
  { f with
    lfi := BitVec.ofNat 32 (imgF m (base + 12) 4), pc := pc, base := if pc = f.pc then f.base else none
    recs := if state = 1 then [] else f.recs
    pred := BitVec.ofNat 16 (imgF m (base + 10) 2) ||| 1, ct := BitVec.ofNat 12 (imgF m (base + 24) 2)
    starve := min 64 (imgF m (base + 26) 1), depth := imgF m (base + 27) 1 % 32, draw := BitVec.ofNat 64 (imgF m (base + 28) 8)
    stamp := imgF m (base + 36) 4, staged := [], blocked := if state = 2 then conditionFrom m base else none
    deferred := deferredFrom m base, lostDef := (imgF m (base + 73) 1).testBit 1
    trav := f.trav.map (fun t => { t with stack := stackFrom m base })
    v := (List.range l.vcnt).foldl (fun v r =>
      sputD VWord.zero r { val := BitVec.ofNat 32 (imgF m (base + 1280 + 4 * r) 4), pois := pois.testBit r } v) []
    q := if l.qcnt = 8 then (List.range 8).foldl (fun q r =>
      sputD QWord.zero r { val := BitVec.ofNat 128 (imgF m (base + 1280 + 4 * l.vcnt + 16 * r) 16), pois := BitVec.ofNat 4 (bits qp (4 * r) 4) } q) []
      else f.q
    hit := { status := h 0, t := h 4, u := h 8, v := h 12, prim := h 16, leaf := BitVec.ofNat 64 (imgF m (base + 192 + 20) 8), pidx := h 28
             face := h 32, hg := h 36, geo := h 40 } }

/-- An accumulator with the status word of its wave block. -/
def Tile.withStatus (t : Tile) (x : Nat) : Tile :=
  { t with exp := toInt true 16 (bits x 48 16), rslab := bits x 40 8, susp := x.testBit 9, high := x.testBit 8, pair := x.testBit 7
           efix := x.testBit 6, nanin := x.testBit 2, sbad := x.testBit 1, tbad := x.testBit 0 }

/-- An accumulator's elements as its tile gives them. -/
def tileFrom (m : Sparse Byte) (base : Nat) (t : Tile) : Tile :=
  let cells := m.filter (fun c => base ≤ c.1 && c.1 < base + 49152)
  if t.pair then
    let idx := dedup [] (cells.map (fun c => (c.1 - base) / 4))
    { t with fval := (idx.filter (· < 8192)).foldl (fun v i => sputD 0 i (BitVec.ofNat 32 (imgF cells (base + 4 * i) 4)) v) [] }
  else
    let idx := dedup [] (cells.map (fun c => (c.1 - base) / 6))
    { t with mant := idx.foldl (fun v i => sputD 0 i (toInt true 48 (imgF cells (base + 6 * i) 6)) v) [] }

/-- A matrix operation as its entry of a wave block gives it; the rows of U keep their addresses and their place in arbitration. -/
def MatOp.from' (m : Sparse Byte) (base : Nat) (o : MatOp) : MatOp :=
  let at' (off n : Nat) : Nat := imgF m (base + off) n
  let u := at' 12 4
  { o with
    kind := match at' 0 1 with | 1 => .mma | 2 => .mmat | 3 => .drain | 4 => .zero | _ => .latch
    acc := at' 1 1 % 8, quad := at' 2 1 % 4, pair := (at' 2 1).testBit 2
    susp := if (at' 2 1).testBit 4 then some .sparsity else if (at' 2 1).testBit 5 then some (if o.susp == some .sparsity then .save else o.susp.getD .save) else none
    aty := BitVec.ofNat 5 (at' 3 1), slabs := at' 4 2, next := at' 6 2
    bind := { base := at' 8 2, fmt := BitVec.ofNat 5 (at' 10 1), sparse := (at' 2 1).testBit 3 }
    flag := if at' 11 1 < 12 then some (at' 11 1) else none, rows := o.rows.filter (fun r => u.testBit r.1)
    pc := BitVec.ofNat 64 (at' 16 8), gaddr := at' 24 8, opx := BitVec.ofNat 14 (at' 32 2), tty := BitVec.ofNat 5 (at' 34 1)
    prio := at' 35 1 % 8, taddr := at' 36 4 }

/-- The matrix operations of a wave, in order, as its block gives them: an entry of kind 0 stands for none. -/
def matsFrom (m : Sparse Byte) (base : Nat) (mats : Sparse MatOp) : Sparse MatOp :=
  ((mats.take 12).zipIdx.filter (fun e => imgF m (base + 544 + 40 * e.2) 1 != 0)).map (fun e =>
    (e.1.1, MatOp.from' m (base + 544 + 40 * e.2) e.1.2)) ++ mats.drop 12

/-- The parked state of a wave as its block gives it: its key and register; the message and a reply stand with the dispatch unit. -/
def parkFrom (m : Sparse Byte) (base : Nat) (p : Option Park) : Option Park :=
  let x := imgF m (base + 480) 8
  if x.testBit 0 then
    some { (p.getD { order := 0, core := 0, wslot := 0, seq := 0, reg := 0, msg := none, reply := none }) with
           wslot := bits x 8 6, core := bits x 16 7, seq := BitVec.ofNat 16 (bits x 32 16), reg := bits x 48 7 }
  else none

/-- A fibre of a slot that was empty at the save. -/
def Fibre.blank : Fibre :=
  { lfi := 0, pc := 0, base := none, blocked := none, recs := [], pred := 1, v := [], q := [], ct := 0, draw := 0, staged := [], depth := 0
    hit := { status := 0, t := 0, u := 0, v := 0, prim := 0, leaf := 0, pidx := 0, face := 0, hg := 0, geo := 0 }
    trav := none, deferred := none, lostDef := false, issued := 0, starve := 0, stamp := 0, cont := false, waive := false, stopAt := false
    resumed := none, dumpAt := none, sparse := none }

/-- A wave as its block gives it; none where a slot state is undefined. Its live slots are those whose state is not 0. -/
def waveFrom (l : Launch) (m : Sparse Byte) (base : Nat) (w : Wave) : Option Wave :=
  let size := waveSize l
  let m := m.filter (fun c => base ≤ c.1 && c.1 < base + size)
  let gp := imgF m (base + 512) 32
  let accBase := base + 1024 + 8 * l.gcnt
  let fibBase := accBase + 49152 * l.acnt
  let states := (List.range 32).map (fun i => imgF m (fibBase + fibreSize l * i + 8) 1)
  if states.any (fun x => 3 < x) then none
  else
    some { w with
      flags := (List.range 12).foldl (fun x k => sputD 0 k (imgF m (base + k) 1) x) []
      sptrap := (imgF m (base + 80) 1).testBit 0, forkSerial := imgF m (base + 84) 4, issueNo := imgF m (base + 92) 4
      stall := (List.range 16).foldl (fun x i => sputD 0 i (imgF m (base + 128 + 8 * i) 8) x) []
      park := parkFrom m base w.park
      g := (List.range l.gcnt).foldl (fun g r => sputD GWord.zero r
        { val := BitVec.ofNat 64 (imgF m (base + 1024 + 8 * r) 8), poisLo := gp.testBit (2 * r), poisHi := gp.testBit (2 * r + 1) } g) []
      accs := (List.range l.acnt).foldl (fun a k => sputD Tile.zero k (tileFrom m (accBase + 49152 * k) ((w.acc k).withStatus (imgF m (base + 16 + 8 * k) 8))) a) []
      fibres := ((List.range 32).filter (fun i => states.getD i 0 != 0)).map (fun i =>
        (i, fibreFrom l (m.filter (fun c => fibBase + fibreSize l * i ≤ c.1 && c.1 < fibBase + fibreSize l * (i + 1)))
              (fibBase + fibreSize l * i) ((sget i w.fibres).getD Fibre.blank))) }

end Sys2Proof.Machine
end

