-- ==== Sys2Proof/Machine/Sync.lean ====
section
/-! DEFINITION. Barrier objects, waiting and dependent grids, opcodes 0xD0 to 0xD3 (R190 to R198). -/

namespace Sys2Proof.Machine

/-! ### Barrier instructions (R190 to R194) -/

/-- The trap of a barrier instruction at a stash address, if a check of it fails; `valid` when the object must be
initialised. -/
def barrierCheck (s : State) (gk a : Nat) (valid : Bool) : Option Cause :=
  let span := stashSpan s gk
  let cause (sub : BitVec 16) : Cause :=
    { kind := 3, sub := sub, acc := 4, syn0 := BitVec.ofNat 32 a, syn1 := BitVec.ofNat 32 span }
  if a % 16 != 0 then some (cause 4)
  else if span < a + 16 then some (cause 6)
  else if valid && !(Bar.read s gk a).valid then some { kind := 5, sub := 1, syn0 := BitVec.ofNat 32 a }
  else none

/-- Acts on the object of each fibre in slot order, or traps it. -/
def eachBarrier (va : Nat) (valid : Bool) (act : State → Nat → Fibre → Nat → State) (b : Bundle) (s : State) : State :=
  let gk := gangOf s b.wk
  let s := b.act.foldl (fun s x =>
    match fibreAt s b.wk x with
    | none => s
    | some f =>
      let a := (f.rv va).toNat
      match barrierCheck s gk a valid with
      | some c => trap s b.wk x b.here c
      | none => act s x f a) s
  wakeBars s gk

/-- `barinit`. -/
def barinitBody (x : SY) (b : Bundle) (s : State) : State :=
  eachBarrier x.va.toNat false (fun s _ f a =>
    { valid := true, ovf := false, phase := 0, bcount := 0, btarget := (f.rv x.vb.toNat).toNat, acount := 0,
      atarget := bits x.syimm.toNat 0 16 : Bar }.write s (gangOf s b.wk) a) b s
/-- BARINIT (R192). -/
def execBarinit (g : Guard) (x : SY) (s : State) : Answer := issue (.barinit g x) g .none (barinitBody x) s

/-- `bararr`: the register takes the phase of the arrival. -/
def bararrBody (x : SY) (b : Bundle) (s : State) : State :=
  eachBarrier x.va.toNat true (fun s slot f a =>
    let o := Bar.read s (gangOf s b.wk) a
    let e := if x.syimm.getLsbD 0 then o.expect (f.rv (bits x.syimm.toNat 1 8)).toNat else o
    modFibre (e.arrive.write s (gangOf s b.wk) a) b.wk slot (fun f => f.setV x.vb.toNat (BitVec.ofNat 32 o.phase))) b s
/-- BARARR (R193). -/
def execBararr (g : Guard) (x : SY) (s : State) : Answer := issue (.bararr g x) g .each (bararrBody x) s

/-- `barexp`. -/
def barexpBody (x : SY) (b : Bundle) (s : State) : State :=
  eachBarrier x.va.toNat true (fun s _ f a =>
    ((Bar.read s (gangOf s b.wk) a).expect (f.rv x.vb.toNat).toNat).write s (gangOf s b.wk) a) b s
/-- BAREXP (R194). -/
def execBarexp (g : Guard) (x : SY) (s : State) : Answer := issue (.barexp g x) g .none (barexpBody x) s

/-! ### Waiting (R195 to R197) -/

/-- `wait.ph`: a fibre whose phase has ended goes on, any other blocks. -/
def waitPhBody (x : SY) (b : Bundle) (s : State) : State :=
  eachBarrier x.va.toNat true (fun s slot f a =>
    let k : BitVec 16 := (f.rv x.vb.toNat).extractLsb' 0 16
    match phaseDone (Bar.read s (gangOf s b.wk) a).phase k.toNat with
    | some lapped => modFibre s b.wk slot (fun f => f.setP x.pd lapped)
    | none => block s b.wk slot b.pc b.place (.waitPh a k x.pd)) b s
/-- WAIT_PH (R196). -/
def execWaitPh (g : Guard) (x : SY) (s : State) : Answer := issue (.waitPh g x) g .none (waitPhBody x) s

/-- Whether a monitored word meets its condition (R197). -/
def monitorMet (cond : BitVec 2) (signed : Bool) (x cmp : W32) : Bool :=
  if cond == 0 then x == cmp
  else if cond == 1 then x != cmp
  else
    let lt := if signed then x.slt cmp else x.ult cmp
    if cond == 2 then !lt else lt

/-- A fibre blocked in `wait.m` reads its word again: it returns, traps on poison, or stays. A miss sends its
report. The limit is a count of the clock of the core that issued it, and is kept where a restore moves the fibre to another core
(DESIGN CHOICE, log 32). -/
def reread (s : State) (wk slot : Nat) : State :=
  match fibreAt s wk slot with
  | none => s
  | some f =>
    match f.blocked with
    | some (.waitM ptr buf _ _ cmp cond signed limit pd) =>
      let core := coreNo wk
      let ctx := ctxOf s wk
      let vas := addrs (ptrVa ptr) 4
      let back : Resume := { pc := f.pc, place := f.base }
      let leave (p : Bool) (s : State) : State := modFibre s wk slot (fun f => (f.resume false).setP pd p)
      if siltOverlap s core ctx vas || relLogged s core wk [slot] || (opsOf s wk).any (OpKind.precedes [slot] false vas) then s
      else
        match physical s (some core) ctx .read false f.ct.toNat { core := core } (ptrRid ptr) vas with
        | (s, .error (va, m)) => reportMiss s ctx core 0 0 (ptrRid ptr) va m
        | (s, .ok pas) =>
          if reachesOwned s none ctx f.ct.toNat vas pas then s else
          let r := bytesAt s pas
          match (r.2.zipIdx).find? (fun e => e.1.2) with
          | some _ =>
            trap r.1 wk slot back { kind := 0x0C, sub := 5, addr := ptr, buf := buf, acc := 0, syn0 := 3
                                    syn1 := BitVec.ofNat 32 (ptrVa ptr % 128) }
          | none =>
            let x : W32 := BitVec.ofNat 32 (fromBytesLE (r.2.map (·.1)))
            if monitorMet cond signed x cmp then leave true r.1
            else if limit.any (fun t => t ≤ (coreOf s core).clock.toNat) then leave false r.1
            else r.1
    | _ => s

/-- `wait.m`: the word is formed as by `ld.b32`, and every fibre waits in the loop of R197. -/
def waitMBody (x : SY) (b : Bundle) (s : State) : State :=
  let im := x.syimm.toNat
  let t := bits im 14 5
  let now := (coreOf s (coreNo b.wk)).clock.toNat
  let r := viaBuffer s b
    { k := bits im 0 5, off := bits im 5 8, idx := x.va.toNat, len := 4, kind := .load, acc := 0, can := fun r => r.rd }
    (fun _ a => .ok a)
  r.2.foldl (fun s a =>
    match fibreAt s b.wk a.slot with
    | none => s
    | some f =>
      let w : Blocked := .waitM (pointer a.rid (a.va.headD 0)) a.buf a.syn0 a.syn1 (f.rv x.vb.toNat) x.cond (im.testBit 13)
        (if t = 0 then none else some (now + 2 ^ (t + 5))) x.pd
      reread (block s b.wk a.slot b.pc b.place w) b.wk a.slot) r.1
/-- WAIT_M (R197). -/
def execWaitM (g : Guard) (x : SY) (s : State) : Answer := issue (.waitM g x) g .none (waitMBody x) s

/-! ### Dependent grids (R198) -/

/-- `trigger`. -/
def triggerBody (b : Bundle) (s : State) : State :=
  match b.wave s with
  | none => s
  | some w => if b.act.isEmpty then s else wakeGrids (modLaunch s w.launch (fun l => { l with trig := insertNat w.wg l.trig }))
/-- TRIGGER (R198). -/
def execTrigger (g : Guard) (x : SY) (s : State) : Answer := issue (.trigger g x) g .each triggerBody s

/-- `gridwait`. -/
def gridwaitBody (b : Bundle) (s : State) : State :=
  if ((launchOf s b.wk).map (producersDone s)).getD true then s
  else b.act.foldl (fun s x => block s b.wk x b.pc b.place .gridwait) s
/-- GRIDWAIT (R198). -/
def execGridwait (g : Guard) (x : SY) (s : State) : Answer := issue (.gridwait g x) g .none gridwaitBody s

end Sys2Proof.Machine
end

