-- ==== Sys2Proof/Machine/IssueEv.lean ====
section
/-! DEFINITION. How a wave comes to issue: the choice of a bundle (R343 to R345), the fetch and check of its clause
(R71, R72, R104, R434), its start (R76, R347), and the ends of fibres, waves, workgroups, gangs and grids (R350 to R355,
R399, R400, R432). -/

namespace Sys2Proof.Machine

/-! ### Candidates (R343) -/

/-- The header of the clause that a fibre stands in or before. -/
def Fibre.header (f : Fibre) : W64 := (f.base.map (·.hdr)).getD f.pc

/-- A PC with its ready fibres: the header of its clause, the header's word where it can be read without waiting, and
the slots. -/
structure Cand where
  pc : W64
  hdr : W64
  word : Option W64
  slots : List Nat
  deriving DecidableEq, Repr

/-- A header's word without any effect: from the instruction cache, else from memory where a leaf permits the fetch. -/
def peekWord (s : State) (core ctx : Nat) (a : W64) : Option W64 :=
  let va := a.toNat
  match (coreOf s core).icache.find? (fun e => e.ctx = ctx && e.line = va - va % 128) with
  | some e => some (BitVec.ofNat 64 (fromBytesLE ((e.data.drop (va % 128)).take 8)))
  | none =>
    match walk s ctx va with
    | .leaf pte _ size => if permits pte .fetch && !pte.testBit 57 then some (BitVec.ofNat 64 (rd s (leafPa pte size va) 8)) else none
    | .bad _ => none

/-- The subkind of the first check of R72 that a header fails (R100). -/
def headerError (h : W64) : Option (BitVec 16) :=
  if h.extractLsb' 58 6 != 0b110101 then some 1
  else if h.extractLsb' 48 10 != 0 || h.extractLsb' 4 12 != 0 then some 2
  else if 7 < (h.extractLsb' 16 4).toNat then some 3
  else if 8 < (h.extractLsb' 40 8).toNat then some 4
  else none

/-- Whether every flag that a header's WAIT names is clear (R76). -/
def waitHolds (w : Wave) (h : W64) : Bool := (List.range 12).all (fun k => !h.getLsbD (20 + k) || w.flag k = 0)

/-- Whether a PC is a candidate: a header that fails its check, or that is not yet there, holds nothing back. -/
def Cand.ok (w : Wave) (c : Cand) : Bool :=
  match c.word with
  | none => true
  | some h => (headerError h).isSome || waitHolds w h

/-- Adds a ready fibre to the groups by PC, which stay in order of PC. -/
def addReady (slot : Nat) (f : Fibre) : List Cand → List Cand
  | [] => [{ pc := f.pc, hdr := f.header, word := none, slots := [slot] }]
  | c :: l =>
    if c.pc = f.pc && c.hdr = f.header then { c with slots := c.slots ++ [slot] } :: l
    else if f.pc.ult c.pc then { pc := f.pc, hdr := f.header, word := none, slots := [slot] } :: c :: l
    else c :: addReady slot f l

/-- The PCs of a wave with ready fibres. -/
def readyPcs (s : State) (wk : Nat) (w : Wave) : List Cand :=
  ((w.fibres.filter (fun e => e.2.blocked.isNone)).foldl (fun l e => addReady e.1 e.2 l) []).map (fun c =>
    { c with word := peekWord s (coreNo wk) (ctxOf s wk) c.hdr })

/-- The highest starvation count, and the age, of a candidate (R344). -/
def Cand.starve (w : Wave) (c : Cand) : Nat := c.slots.foldl (fun m x => max m (((sget x w.fibres).map (·.starve)).getD 0)) 0
def Cand.age (w : Wave) (c : Cand) : Nat :=
  c.slots.foldl (fun m x => min m (((sget x w.fibres).map (·.stamp)).getD 0)) (2 ^ 64)

/-- The candidate of smallest age, of equals the first, which has the lowest PC. -/
def youngest (w : Wave) : List Cand → Option Cand
  | [] => none
  | c :: l => match youngest w l with
    | none => some c
    | some d => if d.age w < c.age w then some d else some c

/-- The choice among candidates (R185, R344). -/
def choosePc (w : Wave) (cs : List Cand) : Option Cand :=
  let hungry := cs.filter (fun c => 64 ≤ c.starve w)
  let free := cs.filter (fun c => w.yieldPc != some c.pc)
  youngest w (if !hungry.isEmpty then hungry else if free.isEmpty then cs else free)

/-- Whether a wave makes choices (R343, R411). -/
def mayChoose (s : State) (wk : Nat) (w : Wave) : Bool :=
  w.clause.isNone && w.park.isNone && ((sget (gangOf s wk) s.gangs).any (fun g => g.state == .resident && !g.abort))

/-! ### Debug work at clause boundaries (R459) -/

/-- The bytes of a dump: the header and the fibre block. -/
def dumpCells (s : State) (wk : Nat) (l : Launch) (w : Wave) (f : Fibre) : List (Nat × Byte) :=
  let core := coreNo wk
  let head : List Piece := [piece 0 4 w.launch, piece 4 4 w.wg, piece 8 4 f.lfi.toNat, piece 12 2 core,
    piece 16 8 (coreOf s core).clock.toNat]
  pieceCells (head ++ shift 64 (fibreBlock l w.wg w.park.isSome f))

/-- Writes a dump at a physical address, and posts its event. -/
def writeDump (s : State) (wk : Nat) (l : Launch) (w : Wave) (f : Fibre) (pa : Nat) : State :=
  let cells := dumpCells s wk l w f
  let s := writeBytes s ((addrs pa (64 + fibreSize l)).map (fun a => (a, sgetD 0 cells (a - pa)))) false
  match debugSlot s l.ctx with
  | some d => debugPost s d (debugEventOf s wk w f 4 0 f.pc 0 0)
  | none => s

/-- Takes the dump that is due of a fibre at a clause boundary, and stops it where a stop is due. -/
def boundaryFibre (s : State) (wk slot : Nat) : State :=
  match sget wk s.waves, fibreAt s wk slot, launchOf s wk with
  | some w, some f, some l =>
    let s := match f.dumpAt with
      | some pa => dbDone (modFibre (writeDump s wk l w f pa) wk slot (fun f => { f with dumpAt := none })) w.launch w.wg f.lfi 0
      | none => s
    if f.stopAt && f.blocked.isNone && w.park.isNone then
      let s := dbDone (modFibre s wk slot (fun f => { f with stopAt := false })) w.launch w.wg f.lfi 0
      match debugSlot s l.ctx with
      | some d => stopFibre s wk slot { pc := f.pc, place := f.base } d 2 0xFF 0 0
      | none => modFibre s wk slot (fun f => { f with blocked := some .stopped })
    else s
  | _, _, _ => s

/-- Whether a dump of a wave's fibre is due while the wave, without an open clause, makes no choice. A gang that is being saved has its
dumps taken when its state is settled (R460). -/
def dumpDue (s : State) (wk : Nat) (w : Wave) : Bool :=
  w.clause.isNone && w.park.isSome && w.fibres.any (·.2.dumpAt.isSome) && !(sget (gangOf s wk) s.gangs).any (fun g => g.state == .saving)

/-- What is due of a wave's fibres at a clause boundary. -/
def boundaries (s : State) (wk : Nat) : State :=
  let due := ((sget wk s.waves).map (fun w => skeys (w.fibres.filter (fun e => e.2.dumpAt.isSome || e.2.stopAt)))).getD []
  due.foldl (fun s x => boundaryFibre s wk x) s

/-! ### The choice (R343 to R345) -/

/-- The index of the instruction at a PC of a clause. -/
def clauseIndex (hdr pc : W64) : Nat := if pc = hdr then 0 else (pc - hdr).toNat / 8 - 1

/-- WAVE_CHOICE (R343). -/
def execWaveChoice (wave : Nat) (s : State) : Answer :=
  match sget wave s.waves with
  | none => .next s
  | some w =>
    if !mayChoose s wave w then .next (if dumpDue s wave w then boundaries s wave else s)
    else
      let s := boundaries s wave
      match sget wave s.waves with
      | none => .next s
      | some w =>
        let cs := (readyPcs s wave w).filter (Cand.ok w)
        match choosePc w cs with
        | none => .next s
        | some c =>
          let cand := (cs.map (·.slots)).flatten
          .next (modWave s wave (fun w => { w with
            yieldPc := none
            clause := some { hdr := c.hdr, header := 0, words := [], idx := clauseIndex c.hdr c.pc, slots := c.slots, ll := false,
                             fetched := false, started := false, chosen := (coreOf s (coreNo wave)).clock }
            fibres := w.fibres.map (fun e => (e.1, { e.2 with
              starve := if c.slots.contains e.1 then 0 else if cand.contains e.1 then min 64 (e.2.starve + 1) else e.2.starve })) }))

/-! ### The fetch (R72, R104, R333, R434, R466) -/

/-- What the fetch of words comes to. -/
inductive Fetch where
  | words (ws : List W64)
  | miss (va : Nat) (m : Miss)
  | poison (addr : W64)
  deriving DecidableEq, Repr

/-- One word through the instruction cache. A line with poison is not kept. -/
def fetchWord (s : State) (core ctx : Nat) (a : W64) : State × Fetch :=
  let va := a.toNat
  match (coreOf s core).icache.find? (fun e => e.ctx = ctx && e.line = va - va % 128) with
  | some e => (s, .words [BitVec.ofNat 64 (fromBytesLE ((e.data.drop (va % 128)).take 8))])
  | none =>
    match translate s (some core) ctx va .fetch with
    | (s, .error m) => (s, .miss va m)
    | (s, .ok (_, pa)) =>
      let line := pa - pa % 128
      let r := readBytes s (addrs line 128)
      if r.1.memPois.contains (pa / 64) then (r.1, .poison a)
      else
        let s := if r.2.2 then r.1
          else modCore r.1 core (fun c => { c with icache := { ctx := ctx, line := va - va % 128, data := r.2.1 } :: c.icache })
        (s, .words [BitVec.ofNat 64 (fromBytesLE ((r.2.1.drop (va % 128)).take 8))])

/-- Words one after the other. -/
def fetchWords (s : State) (core ctx : Nat) : List W64 → State × Fetch
  | [] => (s, .words [])
  | a :: rest =>
    match fetchWord s core ctx a with
    | (s, .words w) =>
      match fetchWords s core ctx rest with
      | (s, .words ws) => (s, .words (w ++ ws))
      | r => r
    | r => r

/-- The header and the words of a clause; a header that fails its check stands alone. -/
def fetchClause (s : State) (core ctx : Nat) (hdr : W64) : State × Fetch :=
  match fetchWord s core ctx hdr with
  | (s, .words [h]) =>
    if (headerError h).isSome then (s, .words [h])
    else
      match fetchWords s core ctx ((List.range ((h.extractLsb' 0 4).toNat + 1)).map (fun i => hdr + 8 * (BitVec.ofNat 64 i + 1))) with
      | (s, .words ws) => (s, .words (h :: ws))
      | r => r
  | r => r

/-- Whether an instruction word is long-latency. -/
def isLongWord (w : W64) : Bool := ((form (decodeFields w)).map (·.ll)).getD false

/-- The trap of a fetch fault (R434). -/
def fetchCause (hdr : W64) (sub : BitVec 16) : Cause :=
  { kind := 0x0D, sub := sub, addr := hdr, acc := 5, syn0 := hdr.extractLsb' 0 32, syn1 := hdr.extractLsb' 32 32 }

/-- Every fibre of an unstarted clause traps at its header. -/
def trapClause (s : State) (wk : Nat) (c : Clause) (cause : Cause) : State := trapAll s wk { pc := c.hdr, place := none } c.slots cause

/-- The clause with the words that were fetched for it. -/
def Clause.take (c : Clause) (h : W64) (ws : List W64) : Clause :=
  { c with header := h, words := ws, ll := (ws.take c.idx).any isLongWord, fetched := true }

/-- CLAUSE_FETCH (R72, R104, R434). A wave that waits for a page of the clause fetches again when Loam has answered. -/
def execClauseFetch (wave : Nat) (s : State) : Answer :=
  match sget wave s.waves with
  | none => .next s
  | some w =>
    match w.clause with
    | none => .next s
    | some c =>
      let core := coreNo wave
      let ctx := ctxOf s wave
      if c.fetched || w.page.any (fun p => !p.2) then .next s
      else if w.page.isSome then .next (trapClause (modWave s wave (fun w => { w with page := none })) wave c (fetchCause c.hdr 2))
      else
        let re := regionOf s (some core) ctx (ptrRid c.hdr)
        let s := re.1
        if ptrRid c.hdr != 0 || !inRegion re.2 c.hdr.toNat 1 then .next (trapClause s wave c (fetchCause c.hdr 1))
        else
          match fetchClause s core ctx c.hdr with
          | (s, .miss va m) =>
            .next (modWave (reportMiss s ctx core 0 3 0 va m) wave (fun w => { w with page := some (va / 4096, false) }))
          | (s, .poison a) =>
            let lfi := ((c.slots.head?.bind (fun x => fibreAt s wave x)).map (·.lfi)).getD 0
            .next (killContext s ctx { SupEvent.ofFibre s 0x01 wave lfi with cause := 6, pc := c.hdr, addr := a })
          | (s, .words []) => .next s
          | (s, .words (h :: ws)) =>
            match headerError h with
            | some sub =>
              let lfi := ((c.slots.head?.bind (fun x => fibreAt s wave x)).map (·.lfi)).getD 0
              let s := modWave s wave (fun w => { w with issued := some (c.hdr, lfi) })
              .next (trapClause s wave c { kind := 1, sub := sub, syn0 := h.extractLsb' 0 32, syn1 := h.extractLsb' 32 32 })
            | none =>
              if c.idx < ws.length then .next (modWave s wave (fun w => { w with clause := some (c.take h ws) }))
              else
                let next := c.hdr + 8 * (BitVec.ofNat 64 ws.length + 1)
                let s := mapFibres s wave c.slots (fun _ f => { f with pc := next, base := none })
                .next (modWave s wave (fun w => { w with clause := none }))

/-- The wave that a wave is paired with as its clause starts: another of its workgroup that chose the same place in the same
clock, with other slots, and has issued nothing of it (R347). -/
def partnerFor (s : State) (wk : Nat) (w : Wave) (c : Clause) : Option Nat :=
  let cls := bits c.header.toNat 16 4
  if cls = 0 || cls = 7 then
    (s.waves.find? (fun e => e.1 != wk && coreNo e.1 = coreNo wk && e.2.launch = w.launch && e.2.wg = w.wg && e.2.paired.isNone
      && e.2.clause.any (fun d => d.hdr = c.hdr && d.idx = c.idx && d.chosen = c.chosen && d.started && d.words = c.words
        && !d.slots.any c.slots.contains))).map (·.1)
  else none

/-- CLAUSE_START (R76, R347). -/
def execClauseStart (wave : Nat) (s : State) : Answer :=
  match sget wave s.waves with
  | none => .next s
  | some w =>
    match w.clause with
    | none => .next s
    | some c =>
      if c.fetched && !c.started && waitHolds w c.header then
        let p := partnerFor s wave w c
        let s := modWave s wave (fun w => { w with clause := some { c with started := true }, paired := p })
        .next (match p with
          | some k => modWave s k (fun w => { w with paired := some wave })
          | none => s)
      else .next s

/-! ### Ends of fibres and waves (R350, R351, R432) -/

/-- GANG_ABORT_FIBRE_END (R432): a fibre of an aborted gang ends where it stands in no started clause. -/
def execGangAbortFibreEnd (wave slot : Nat) (s : State) : Answer :=
  match sget wave s.waves with
  | none => .next s
  | some w =>
    if (sget (gangOf s wave) s.gangs).any (·.abort) && !w.clause.any (fun c => c.started && c.slots.contains slot) then
      .next (endFibre s wave slot .abort)
    else .next s

/-- The record ring of workgroups has room for a record (R452). -/
def wrReg (r : Nat) : Nat := 0x790040 + r

/-- Writes a workgroup record, or counts it dropped (R452). -/
def workgroupRecord (s : State) (wgk : Nat) (g : Workgroup) : State :=
  let launch := wgk / 2 ^ 32
  let ctx := ((sget launch s.launches).map (·.ctx)).getD 0
  if ctlBits s (wrReg 0) 63 1 = 0 || ctlBits s (wrReg 0) 32 16 != ctx then s
  else
    let n := g.stalls.length
    let log := ctlBits s (wrReg 0) 0 5
    let units := 1 + 2 * n
    let tail := ctlBits s (wrReg 0x10) 0 32
    let used := (tail + 2 ^ 32 - ctlBits s (wrReg 0x18) 0 32) % 2 ^ 32
    if log < 6 || 20 < log || 2 ^ log < used + units then
      ctlWr s (wrReg 0x20) (BitVec.ofNat 64 (min (2 ^ 32 - 1) (ctlBits s (wrReg 0x20) 0 32 + 1)))
    else
      let head := toBytesLE 4 launch ++ toBytesLE 4 (wgk % 2 ^ 32) ++ toBytesLE 2 ctx ++ toBytesLE 1 n ++ [0] ++ toBytesLE 2 g.core
        ++ [0, 0] ++ toBytesLE 8 (coreOf s g.core).clock.toNat ++ List.replicate 0x28 0
      let bytes := head ++ (g.stalls.map (fun e => ((List.range 16).map (fun i => toBytesLE 8 (sgetD 0 e.2 i))).flatten)).flatten
      let base := ctlBits s (wrReg 8) 6 46 * 64
      let at' (i : Nat) : Nat := base + (64 * tail + i) % (64 * 2 ^ log)
      let s := writeBytes s (bytes.zipIdx.map (fun b => (at' b.2, b.1))) false
      ctlWr s (wrReg 0x10) (BitVec.ofNat 64 ((tail + units) % 2 ^ 32))

/-- A workgroup whose waves have ended retires (R351). -/
def retireWorkgroup (s : State) (wgk : Nat) : State :=
  match sget wgk s.wgs with
  | none => s
  | some g =>
    let launch := wgk / 2 ^ 32
    let aborted := (sget (gangKey s launch (wgk % 2 ^ 32)) s.gangs).any (·.abort)
    let s := workgroupRecord s wgk g
    let s := { s with wgs := sput wgk { g with retired := true, tiles := [] } s.wgs }
    wakeGrids (modLaunch s launch (fun l => { l with
      trig := l.trig.filter (· != wgk % 2 ^ 32), done := l.done + 1, nwg := if aborted then l.nwg else l.nwg + 1
      finish := (g.core, (coreOf s g.core).clock.toNat) }))

/-- Whether a wave has nothing left to wait for (R350). -/
def waveOver (s : State) (wk : Nat) (w : Wave) : Bool :=
  w.fibres.isEmpty && !s.ops.any (fun e => e.2.wave = wk) && !s.mats.any (fun e => e.2.wave = wk)

/-- WAVE_END (R350): the wave's state is freed; the last wave of a workgroup lets it retire. -/
def execWaveEnd (wave : Nat) (s : State) : Answer :=
  match sget wave s.waves with
  | none => .next s
  | some w =>
    if !waveOver s wave w then .next s
    else
      let s := { s with
        waves := sdel wave s.waves, cur := if s.cur = some wave then none else s.cur
        wgs := smod (wgKey w) (fun g => { g with waves := g.waves.filter (· != wave), stalls := sput w.widx w.stall g.stalls }) s.wgs }
      .next (if (sget (wgKey w) s.wgs).any (fun g => g.waves.isEmpty) then retireWorkgroup s (wgKey w) else s)

/-! ### The end of a gang (R352) -/

/-- Adds to `pg.used` or takes from it. -/
def addUsed (s : State) (add sub : Nat) : State := ctlWr s 0x720058 (BitVec.ofNat 64 (ctlBits s 0x720058 0 32 + add - sub))

/-- Whether the waves of every member have ended, and its engine operations too. -/
def gangOver (s : State) (gk : Nat) : Bool :=
  (s.wgs.filter (fun e => gangKey s (e.1 / 2 ^ 32) (e.1 % 2 ^ 32) = gk)).all (fun e => e.2.retired)
    && !s.ops.any (fun e => e.2.gang = gk) && !s.mats.any (fun e => gangOf s e.2.wave = gk)

/-- Writes back the lines of some windows of a gang, which stay mapped and clean. A line of a cell that cannot be
written yet sends its report and answers its address (R181). -/
def writeBackSome (s : State) (gk : Nat) (sel : Nat → Bool) : State × Option Nat :=
  let lines := ((sget gk s.gangs).map (fun g => ((g.windows.filter (fun w => sel w.1)).map (fun w =>
    w.2.lines.map (fun l => (w.1, l.1, l.2.1)))).flatten)).getD []
  lines.foldl (fun acc l =>
    match l.2.2 with
    | some pa => (snoopWin acc.1 gk l.1 pa false, acc.2)
    | none =>
      match writeBackCell acc.1 gk l.1 l.2.1 false with
      | (s, .ok ()) => (s, acc.2)
      | (s, .error _) =>
        match (sget gk s.gangs).bind (fun g => sget l.1 g.windows) with
        | some w => (s, some (ptrVa w.ptr + 128 * l.2.1))
        | none => (s, acc.2)) (s, none)

/-- Writes back every line of a gang's windows. -/
def writeBackAll (s : State) (gk : Nat) : State × Option Nat := writeBackSome s gk (fun _ => true)

/-- Frees what a gang holds besides its waves; its windows no longer hold their tags (R252). -/
def freeGang (s : State) (gk : Nat) : State :=
  match sget gk s.gangs with
  | none => s
  | some g =>
    let s := g.windows.foldl (fun s w => tagDrop s w.2.ctx w.2.tag.toNat) (addUsed s 0 g.estimate)
    { s with gangs := sdel gk s.gangs, wgs := s.wgs.filter (fun e => gangKey s (e.1 / 2 ^ 32) (e.1 % 2 ^ 32) != gk)
             migration := if s.migration = some (gk / 2 ^ 32, gk % 2 ^ 32) then none else s.migration }

/-- GANG_RETIRE (R352): windows are written back and unmapped, then stash and Kaolin slots are released. -/
def execGangRetire (launch gang : Nat) (s : State) : Answer :=
  let gk := key2 launch gang
  match sget gk s.gangs with
  | none => .next s
  | some g =>
    if (g.state == .resident || g.state == .aborting) && gangOver s gk then
      match writeBackAll s gk with
      | (s, some _) => .next s
      | (s, none) => .next (freeGang s gk)
    else .next s

/-! ### The end of a grid (R355, R399, R400) -/

/-- Whether a grid is complete: its workgroups are gone, its children have completed, and no entry of a Silt log that its fibres left is
still to be replayed, since no state of a launch outlives it (R2, R432). -/
def gridOver (s : State) (n : Nat) (l : Launch) : Bool :=
  !l.completed && l.ngrp.foldl (· * ·) 1 ≤ l.done && gangCount l ≤ l.nextGang && !s.gangs.any (fun e => e.1 / 2 ^ 32 = n)
    && !s.launches.any (fun e => e.2.parent = some n && !e.2.completed) && !s.cores.any (fun c => c.2.silt.any (·.launch = n))

/-- GRID_COMPLETE (R355, R396, R405). -/
def execGridComplete (launch : Nat) (s : State) : Answer :=
  match sget launch s.launches with
  | none => .next s
  | some l =>
    if gridOver s launch l then
      let s := modLaunch s launch (fun l => { l with completed := true })
      let s := if l.itag = 0 then s else tagDrop s l.ctx l.itag.toNat
      .next { s with clusters := s.clusters.map (fun e => (e.1, if e.2.reserved.any (fun r => r.1 = launch) then { e.2 with reserved := none } else e.2)) }
    else .next s

/-- The completion record but for DONE (R399). -/
def completionRecord (n : Nat) (l : Launch) : List Byte :=
  let start := l.start.getD (0, 0)
  toBytesLE 4 n ++ toBytesLE 2 l.ctx ++ toBytesLE 1 l.status.toNat ++ [0] ++ toBytesLE 8 l.energy ++ toBytesLE 8 start.2
    ++ toBytesLE 2 start.1 ++ toBytesLE 2 l.finish.1 ++ toBytesLE 8 l.finish.2 ++ toBytesLE 4 l.nwg ++ toBytesLE 4 l.nkill
    ++ toBytesLE 4 l.nsave ++ toBytesLE 4 l.nmig ++ toBytesLE 4 0

/-- What cores hold of a context's tables, code and constants goes with the context (R2). -/
def dropContext (s : State) (ctx : Nat) : State :=
  { s with
    contexts := sdel ctx s.contexts, recQueues := s.recQueues.filter (fun e => e.2.ctx != ctx)
    cores := s.cores.map (fun c => (c.1, { c.2 with
      tlb := c.2.tlb.filter (·.ctx != ctx), regions := c.2.regions.filter (·.ctx != ctx), silt := c.2.silt.filter (·.ctx != ctx)
      icache := c.2.icache.filter (·.ctx != ctx), ccache := c.2.ccache.filter (·.ctx != ctx) })) }

/-- What follows once a launch of a context has its completion record: the event of a kill (R430), the end of OP 2 (R409). -/
def afterRecords (s : State) (ctx : Nat) : State :=
  if !(openLaunches s ctx).isEmpty then s
  else
    match sget ctx s.contexts with
    | none => s
    | some c =>
      let s := match c.killEvent with
        | some e => supPost { s with contexts := sput ctx { c with killEvent := none } s.contexts } e
        | none => s
      match c.destroy with
      | some k =>
        let s := dropContext s ctx
        ctlWr (ctlWr s (0x710010 + 0x20 * k) (ctlRd s (0x710010 + 0x20 * k) &&& 0x7FFFF)) (0x710018 + 0x20 * k) 0
      | none => s

/-- Ends a launch's record: written, or skipped. -/
def recordDone (s : State) (n : Nat) (l : Launch) : State :=
  afterRecords (modLaunch s n (fun l => { l with recorded := true, page := none })) l.ctx

/-- A write of a completion record that fails: it waits, or kills the context, or is skipped for a context that is gone. -/
def recordFails (s : State) (n : Nat) (l : Launch) (p : W64) (e : PtrFail) : State :=
  let gone := (sget l.ctx s.contexts).all (fun c => c.killed || c.destroy.isSome)
  if gone then recordDone s n l
  else
    let kill (s : State) : State :=
      killContext s l.ctx { SupEvent.zero s 0x01 with cause := 2, launch := n, addr := p }
    match e with
    | .region => kill s
    | .miss va m =>
      if l.page = some (va / 4096, true) || m = some 1 then kill s
      else modLaunch (reportMiss s l.ctx 0 0 1 (ptrRid p) va m) n (fun l => { l with page := some (va / 4096, false) })

/-- The notification of a launch whose record stands (R400): to the host, or a write in the context's address space. -/
def notify (s : State) (n : Nat) (l : Launch) : State :=
  if l.naddr = 0 then recordDone s n l
  else if l.nhost then recordDone { s with out := s.out ++ [.hostWrite l.naddr l.ndata] } n l
  else
    match ptrPhys s none l.ctx .write 0 l.naddr 4 with
    | (s, .error e) => recordFails s n l l.naddr e
    | (s, .ok np) => if memOwned s none np then s else recordDone (writeBytes s (np.zip (toBytesLE 4 l.ndata.toNat)) false) n l

/-- COMPLETION_RECORD_WRITE (R400). A launch's children have theirs before it. The record is written and then its DONE; the
notification follows, and may wait for its page alone. -/
def execCompletionRecordWrite (launch : Nat) (s : State) : Answer :=
  match sget launch s.launches with
  | none => .next s
  | some l =>
    if !l.completed || l.recorded || l.page.any (fun p => !p.2) || s.launches.any (fun e => e.2.parent = some launch && !e.2.recorded) then .next s
    else if l.marked then .next (notify s launch l)
    else
      match ptrPhys s none l.ctx .write 0 l.crec 64 with
      | (s, .error e) => .next (recordFails s launch l l.crec e)
      | (s, .ok ps) =>
        if memOwned s none ps then .next s
        else
          let s := writeBytes s ((ps.take 56).zip (completionRecord launch l)) false
          let s := writeBytes s ((ps.drop 56).zip (toBytesLE 8 (2 ^ 63 + launch))) false
          let l := { l with marked := true, page := none }
          .next (notify (modLaunch s launch (fun _ => l)) launch l)

end Sys2Proof.Machine
end

