-- ==== Sys2Proof/Machine/MemEv.lean ====
section
/-! DEFINITION. The steps of the memory unit: completions of the instructions of opcodes 0x80 to 0x8F, `gld` among them,
replays of the Silt log, window fills, fences and the monitor (R146, R163 to R181, R197). -/

namespace Sys2Proof.Machine

/-- Completes an operation: what waited for its registers in a release goes on. -/
def complete (s : State) (n : Nat) : State := wakeReleases (endOp s n)

/-! ### Loads and stores (R163) -/

/-- Writes what a load gives its registers (R37, R162). -/
def deliver (s : State) (wk : Nat) (give : List Delivery) (giveQ : List QDelivery) : State :=
  let s := give.foldl (fun s d => modFibre s wk d.slot (fun f => f.setVp d.reg d.val d.pois)) s
  giveQ.foldl (fun s d => modFibre s wk d.slot (fun f => f.setQ d.reg d.val)) s

/-- The bytes of an access of `ldmc` in the lines that have come (R166); none while a line is missing. -/
def lineBytes (got : Sparse (List Byte × Bool × Bool)) (a : Access) : Option (List (Byte × Bool)) :=
  a.pa.foldr (fun v acc =>
    match acc, sget (v - v % 128) got with
    | some l, some (bs, p0, p1) => some ((bs.getD (v % 128) 0, if v % 128 < 64 then p0 else p1) :: l)
    | _, _ => none) (some [])

/-- LOAD_COMPLETE (R163, R166): the data of a load, an atomic or a multicast load return to the registers. -/
def execLoadComplete (op : Nat) (s : State) : Answer :=
  match sget op s.ops with
  | none => .next s
  | some o =>
    match o.kind with
    | .load give giveQ [] => .next (complete (deliver s o.wave give giveQ) op)
    | .ldmc accs [] _ [] [] got =>
      let give := (accs.filterMap (fun a => (lineBytes got a).map a.give)).flatten
      .next (complete (deliver s o.wave give []) op)
    | _ => .next s

/-- STORE_COMPLETE (R163): memory, the stash or the Silt log has accepted every byte. -/
def execStoreComplete (op : Nat) (s : State) : Answer :=
  match (sget op s.ops).map Op.kind with
  | some (.store []) => .next (complete s op)
  | _ => .next s

/-- GLD_COMPLETE (R146): four uniform registers take the words read. -/
def execGldComplete (op : Nat) (s : State) : Answer :=
  match sget op s.ops with
  | none => .next s
  | some o =>
    match o.kind with
    | .gld d vals =>
      let s := modWave s o.wave (fun w => { w with g := (vals.zipIdx).foldl (fun m e => sputD GWord.zero (d + e.2) e.1 m) w.g })
      .next (complete s op)
    | _ => .next s

/-! ### Cache control (R174 to R177) -/

/-- The line of an address is written back: memory then holds it as coherent agents see it (R174). -/
def flushed (s : State) (pa : Nat) : State :=
  let line := pa - pa % 128
  let s := snoopLine s line false
  { s with flushed := sput (line / 128) ((addrs line 128).map (fun a => (pByte s a, s.memPois.contains (a / 64)))) s.flushed }

/-- What flushing one line comes to: done or dropped, or a wait for its page. The line is that of the cell of the fibre's
tag, or of the base where the cell is not materialised (R161). -/
def flushLine (s : State) (ctx va tag : Nat) : State × Except Miss Unit :=
  match walk s ctx va with
  | .bad _ => (s, .ok ())
  | .leaf pte _ size =>
    if pte.testBit 57 then (s, .error none)
    else if !pte.testBit 2 then (s, .ok ())
    else if pte.testBit 63 && tag != 0 then
      match snoopCell s ctx va tag false with
      | (s, .error m) => (s, .error m)
      | (s, .ok ()) =>
        match cellFind s ctx (va / 4096) tag with
        | .found _ f => (flushed s (f + va % 4096), .ok ())
        | .absent _ => (flushed s (leafPa pte size va), .ok ())
    else (flushed s (leafPa pte size va), .ok ())

/-- Flushes lines in order: those left when one waits, with its reason. -/
def flushLines (s : State) (ctx : Nat) : List (Nat × Nat) → State × List (Nat × Nat) × Miss
  | [] => (s, [], none)
  | l :: rest =>
    match flushLine s ctx l.1 l.2 with
    | (s, .error m) => (s, l :: rest, m)
    | (s, .ok ()) => flushLines s ctx rest

/-- CFLUSH_COMPLETE (R174): each line is flushed or dropped; a page in migration holds the rest. -/
def execCflushComplete (op : Nat) (s : State) : Answer :=
  match sget op s.ops with
  | none => .next s
  | some o =>
    match o.kind with
    | .cflush lines =>
      match flushLines s o.ctx lines with
      | (s, [], _) => .next (complete s op)
      | (s, l :: rest, m) =>
        let s := modOp s op (fun o => { o with kind := .cflush (l :: rest) })
        .next (engineWait s op o 0 1 0 l.1 m)
    | _ => .next s

/-- PREF_COMPLETE (R175): no cache that a prefetch fills can be seen. -/
def execPrefComplete (op : Nat) (s : State) : Answer :=
  match (sget op s.ops).map Op.kind with
  | some .pref => .next (complete s op)
  | _ => .next s

/-- CINV_COMPLETE (R176): lines of the constant cache are dropped; L1 is coherent and shows no change. -/
def execCinvComplete (op : Nat) (s : State) : Answer :=
  match sget op s.ops with
  | none => .next s
  | some o =>
    match o.kind with
    | .cinvLines lines =>
      .next (complete (modCore s o.core (fun c => { c with ccache := c.ccache.filter (fun l => !(l.ctx = o.ctx && lines.contains l.line)) })) op)
    | .cinvAll => .next (complete (modCore s o.core (fun c => { c with ccache := [] })) op)
    | .cinvL1 => .next (complete s op)
    | _ => .next s

/-- Whether an `icinv` of a core covers another (R177). -/
def icinvCovers (cov : BitVec 2) (from' core : Nat) : Bool :=
  if cov == 0 then core = from' else if cov == 1 then core / 4 = from' / 4 else true

/-- ICINV_COMPLETE (R177): every covered core has dropped the context's instruction lines. -/
def execIcinvComplete (op : Nat) (s : State) : Answer :=
  match sget op s.ops with
  | none => .next s
  | some o =>
    match o.kind with
    | .icinv cov =>
      .next (complete { s with cores := s.cores.map (fun e =>
        if icinvCovers cov o.core e.1 then (e.1, { e.2 with icache := e.2.icache.filter (fun l => l.ctx != o.ctx) }) else e) } op)
    | _ => .next s

/-! ### Windows (R178 to R181) -/

/-- Frees a window, and its hold of its tag (R252), after its dirty lines are written back; else the address that waits. -/
def unmapWindow (s : State) (gk n : Nat) : State × Option Nat :=
  match writeBackSome s gk (fun k => k = n) with
  | (s, none) =>
    let s := match (sget gk s.gangs).bind (fun g => sget n g.windows) with
      | some w => tagDrop s w.ctx w.tag.toNat
      | none => s
    (modGang s gk (fun g => { g with windows := sdel n g.windows }), none)
  | r => r

/-- The window that an operation maps or unmaps. -/
def OpKind.mapsWindow : OpKind → Option Nat
  | .smap n _ => some n
  | .smapUnmap n => some n
  | _ => none

/-- SMAP_COMPLETE (R179), in the order of arrival at the cluster. -/
def execSmapComplete (op : Nat) (s : State) : Answer :=
  match sget op s.ops with
  | none => .next s
  | some o =>
    match o.kind.mapsWindow with
    | none => .next s
    | some n =>
      if s.ops.any (fun e => e.1 < op && e.2.gang = o.gang && e.2.kind.mapsWindow = some n) then .next s
      else
        match unmapWindow s o.gang n with
        | (s, some va) => .next (modOp s op (fun o => { o with wait := some va }))
        | (s, none) =>
          let s := match o.kind with
            | .smap n win => modGang s o.gang (fun g => { g with windows := sput n win g.windows })
            | _ => s
          .next (complete s op)

/-- SWB_COMPLETE (R181). -/
def execSwbComplete (op : Nat) (s : State) : Answer :=
  match sget op s.ops with
  | none => .next s
  | some o =>
    match o.kind with
    | .swb n =>
      match writeBackSome s o.gang (fun k => n.all (· = k)) with
      | (s, some va) => .next (modOp s op (fun o => { o with wait := some va }))
      | (s, none) => .next (complete s op)
    | _ => .next s

/-- WINDOW_LINE_FILL (R180): an absent line of a mapped window is filled, and what waited for it goes on. -/
def execWindowLineFill (launch gang win line : Nat) (s : State) : Answer :=
  let gk := key2 launch gang
  match (sget gk s.gangs).bind (fun g => sget win g.windows) with
  | none => .next s
  | some w =>
    if 32 * 2 ^ w.c ≤ line || (sget line w.lines).isSome then .next s
    else
      match fillLine s none { core := gangCore s gk } gk win line false with
      | (s, .error (va, m)) => .next (reportMiss s w.ctx (gangCore s gk) 0 0 (ptrRid w.ptr) va m)
      | (s, .ok ()) => .next (retryMem s none)

/-! ### The Silt log (R171) -/

/-- Takes an entry from a core's log. -/
def dropSilt (s : State) (core entry : Nat) : State := modCore s core (fun c => { c with silt := c.silt.eraseIdx entry })

/-- SILT_REPLAY (R171, R172): an entry that follows no other is performed, and what waited for it goes on. -/
def execSiltReplay (core entry : Nat) (s : State) : Answer :=
  match freeEntryAt (coreOf s core).silt entry with
  | none => .next s
  | some e =>
    match replayEntry s core e with
    | (s, false) => .next s
    | (s, true) => .next (wakeReleases (retryMem (dropSilt s core entry) (some core)))

/-! ### Fences and the monitor (R173, R197) -/

/-- The loads and atomics of a fibre that have not returned, its stores that are not accepted, and its other accesses that
are not performed. -/
def OpKind.fenced (slot : Nat) : OpKind → Bool
  | .load give giveQ held => give.any (·.slot = slot) || giveQ.any (·.slot = slot) || held.any (·.slot = slot)
  | .store held => held.any (·.slot = slot)
  | .ldmc accs held _ _ _ _ => (accs ++ held).any (·.slot = slot)
  | k => k.unperformed slot

/-- FENCE_COMPLETE (R173). A release has waited for the fibre's log entries at issue (R172); an acquire waits here for its
releases (R292). -/
def execFenceComplete (wave slot : Nat) (s : State) : Answer :=
  match fibreAt s wave slot with
  | none => .next s
  | some f =>
    if f.blocked = some .fence && !(opsOf s wave).any (OpKind.fenced slot) && !relLogged s (coreNo wave) wave [slot] then .next (modFibre s wave slot (fun f => f.resume false))
    else .next s

/-- WAIT_M_REREAD (R197): the monitored line was written or evicted, and the fibre reads the word again. -/
def execWaitMReread (wave slot : Nat) (s : State) : Answer := .next (reread s wave slot)

/-- WAIT_M_TIMEOUT (R197): the limit has passed; the fibre reads the word once more and returns. -/
def execWaitMTimeout (wave slot : Nat) (s : State) : Answer :=
  match (fibreAt s wave slot).bind (·.blocked) with
  | some (.waitM _ _ _ _ _ _ _ (some t) _) =>
    if t ≤ (coreOf s (coreNo wave)).clock.toNat then .next (reread s wave slot) else .next s
  | _ => .next s

end Sys2Proof.Machine
end

