-- ==== Sys2Proof/Machine/TransEv.lean ====
section
/-! DEFINITION. The steps of translation: the walker (R329), invalidations (R331), the demand ring and Loam's replies
(R333, R334), and the growth of a cell table (R340). -/

namespace Sys2Proof.Machine

/-! ### What waits for a page -/

/-- Whether a leaf serves an access (R333). -/
def usable (s : State) (ctx va : Nat) (need : Need) : Bool :=
  match walk s ctx va with
  | .leaf pte _ _ => permits pte need && !pte.testBit 57
  | .bad _ => false

/-- What a kind of access needs of a leaf (R326). -/
def AccKind.need : AccKind → Need
  | .load | .const => .read
  | .store | .red => .write
  | .atom => .both

/-- The global pointer at which a byte of an access needs a translation that no leaf gives. -/
def byteMisses (s : State) (gk : Nat) (a : Access) (x : Nat) : Option W64 :=
  if a.stash then
    match (sget gk s.gangs).bind (fun g => winAt g x) with
    | none => none
    | some (_, w) =>
      let va := ptrVa w.ptr + (x - w.stash)
      let line := sget ((x - w.stash) / 128) w.lines
      let served := line.isSome && (!a.kind.writes || (line.map (·.2.2)).getD false)
      if served || usable s w.ctx va (if a.kind.writes then .both else .read) then none else some (pointer (ptrRid w.ptr) va)
  else if usable s a.ctx x a.kind.need then none else some (pointer a.rid x)

/-- The first byte of an access that no leaf serves. -/
def accMisses (s : State) (gk : Nat) (a : Access) : Option W64 := a.va.findSome? (byteMisses s gk a)

/-- The held accesses of an operation that wait for a page, each with the address that misses. -/
def waitingOn (s : State) (gk ctx vpn : Nat) (held : List Access) : List (Access × W64) :=
  held.filterMap (fun a =>
    match accMisses s gk a with
    | some p => if a.ctx = ctx && ptrVa p / 4096 = vpn then some (a, p) else none
    | none => none)

/-- Whether a matrix operation waits for a page. -/
def MatOp.fills (s : State) (ctx vpn : Nat) (o : MatOp) : Bool := o.susp == some (.fill vpn) && ctxOf s o.wave = ctx

/-- Whether something in the device waits for a page (R333). -/
def awaited (s : State) (ctx vpn : Nat) : Bool :=
  let at' (va : Nat) : Bool := va / 4096 = vpn
  s.ops.any (fun e => e.2.ctx = ctx && (e.2.wait.any at' || (match e.2.kind with
      | .load _ _ held | .store held | .ldmc _ held _ _ _ _ => !(waitingOn s (gangOf s e.2.wave) ctx vpn held).isEmpty
      | .gfx _ _ _ held => !held.isEmpty
      | .launch _ parts => parts.any (fun p => p.record.isEmpty && (at' (ptrVa p.ptr) || at' (ptrVa p.ptr + 127)))
      | _ => false)))
    || s.cores.any (fun c => c.2.silt.any (fun e => e.ctx = ctx && e.onPage vpn))
    || s.mats.any (fun e => e.2.fills s ctx vpn)
    || s.waves.any (fun e => ctxOf s e.1 = ctx && (e.2.page.any (·.1 = vpn) || e.2.fibres.any (fun f => match f.2.blocked with
      | some (.waitM p _ _ _ _ _ _ _ _) => at' (ptrVa p)
      | _ => false)))
    || s.launches.any (fun e => e.2.ctx = ctx && e.2.page.any (·.1 = vpn))
    || s.queueWait.any (fun e => e.2.1 = ctx && e.2.2.1 = vpn)
    || s.reqs.any (fun e => e.2.ctx = ctx && e.2.wait.any (·.1 = vpn))
    || s.oslots.any (fun e => e.2.ctx = ctx && e.2.told.any (·.1 = vpn))

/-- Everything that waits for memory tries again. -/
def retryEverything (s : State) : State := roRetry (wakeReleases (retryGfxAll (retryMem s none) none)) none

/-! ### The walker (R329) -/

/-- What an access of the walker needs. -/
def walkNeed : WalkAcc → Need
  | .read => .read
  | .write => .write
  | .readWrite => .both
  | .fetch => .fetch

/-- ACC of a report (R333). -/
def walkCode : WalkAcc → Nat
  | .read => 0
  | .write => 1
  | .readWrite => 2
  | .fetch => 3

/-- The region through which an access that waits for a page formed its address (R333); 0 for a fetch. -/
def waitingRid (s : State) (ctx vpn : Nat) : Nat :=
  let ofHeld (e : Op) (held : List Access) : Option Nat := ((waitingOn s (gangOf s e.wave) ctx vpn held).head?).map (fun x => ptrRid x.2)
  let op := s.ops.findSome? (fun e =>
    if e.2.ctx != ctx then none
    else
      match e.2.kind with
      | .load _ _ held | .store held | .ldmc _ held _ _ _ _ => ofHeld e.2 held
      | .copy c => if e.2.wait.any (· / 4096 = vpn) then some (tensorOf c.trec).rid else none
      | .coll c => e.2.wait.bind (fun va => if va / 4096 = vpn then
          some (ptrRid (if ptrVa (collSrc c) ≤ va && va < ptrVa (collSrc c) + collIn c c.n then collSrc c else collDst c)) else none)
      | .launch _ parts => (parts.find? (fun p => p.record.isEmpty && (ptrVa p.ptr / 4096 = vpn || (ptrVa p.ptr + 127) / 4096 = vpn))).map
          (fun p => ptrRid p.ptr)
      | _ => none)
  let log := s.cores.findSome? (fun c => (c.2.silt.find? (fun e => e.ctx = ctx && e.onPage vpn)).map (·.rid))
  let mon := s.waves.findSome? (fun e => if ctxOf s e.1 != ctx then none else e.2.fibres.findSome? (fun f => match f.2.blocked with
    | some (.waitM p _ _ _ _ _ _ _ _) => if ptrVa p / 4096 = vpn then some (ptrRid p) else none
    | _ => none))
  let req := s.reqs.findSome? (fun e => if e.2.ctx = ctx && e.2.wait.any (·.1 = vpn) then
    some (bits (e.2.args.getD 5 0).toNat 25 7) else none)
  (op.or (log.or (mon.or req))).getD 0

/-- PAGE_WALK (R329): the walker of a core's cluster walks for an access that waits. -/
def execPageWalk (core ctx va : Nat) (acc : WalkAcc) (s : State) : Answer :=
  if !awaited s ctx (va / 4096) then .next s
  else
    match walkFor s (some core) ctx va (walkNeed acc) with
    | (s, .ok _) => .next s
    | (s, .error m) => .next (reportMiss s ctx core 0 (walkCode acc) (waitingRid s ctx (va / 4096)) va m)

/-! ### The demand ring (R333, R435) -/

/-- The offset of the registers of a ring of R435: the demand ring, or the supervisor ring. -/
def evReg (sup : Bool) (r : Nat) : Nat := 0x740000 + (if sup then 0x20 else 0) + r

/-- Whether a ring of R435 has room. -/
def ringRoom (s : State) (sup : Bool) : Bool :=
  let log := ctlBits s (evReg sup 8) 0 5
  6 ≤ log && log ≤ 16
    && (ctlBits s (evReg sup 0x10) 0 32 + 2 ^ 32 - ctlBits s (evReg sup 0x18) 0 32) % 2 ^ 32 < 2 ^ log

/-- Posts a message of 64 bytes to a ring of R435 that has room. -/
def ringPost (s : State) (sup : Bool) (msg : List Byte) : State :=
  let log := ctlBits s (evReg sup 8) 0 5
  let tail := ctlBits s (evReg sup 0x10) 0 32
  let empty := tail = ctlBits s (evReg sup 0x18) 0 32
  let base := bits (ctlRd s (evReg sup 0)).toNat 6 46 * 64
  let s := writeBytes s ((addrs (base + 64 * (tail % 2 ^ log)) 64).zip msg) false
  let s := ctlWr s (evReg sup 0x10) (BitVec.ofNat 64 ((tail + 1) % 2 ^ 32))
  if empty then loamIrq s (ctlBits s (evReg sup 8) 8 4) else s

/-- The message of a report (R333). For CAUSE 5 the address is that of the frame returned. -/
def Report.message (r : Report) (seq : BitVec 16) : List Byte :=
  toBytesLE 64 (r.clock.toNat + r.va * 2 ^ 64 + r.rid * 2 ^ 121 + seq.toNat * 2 ^ 208 + r.cause * 2 ^ 224
    + r.acc * 2 ^ 228 + r.src * 2 ^ 231 + r.core * 2 ^ 233 + r.ctx * 2 ^ 240)

/-- DEMAND_REPORT (R333): the oldest report that waits is posted when the ring has room. -/
def execDemandReport (s : State) : Answer :=
  match s.reports with
  | [] => .next s
  | r :: rest =>
    if !ringRoom s false then .next s
    else
      let r := { r with clock := (coreOf s r.core).clock }
      .next { ringPost s false (r.message s.repSeq) with reports := rest, repSeq := s.repSeq + 1 }

/-! ### Invalidation (R330, R331) -/

/-- The offset of a register of a Loam core's translation port (R330). -/
def xlReg (k r : Nat) : Nat := 0x100000 + 0x1000 * k + r

/-- Drops cached leaves and region entries on every core. -/
def dropCached (s : State) (leaf : TlbEntry → Bool) (region : RegionEntry → Bool) : State :=
  { s with cores := s.cores.map (fun e => (e.1, { e.2 with
      tlb := e.2.tlb.filter (fun t => !leaf t), regions := e.2.regions.filter (fun r => !region r) })) }

/-- Window lines that covered translations gave are written back to their frames and made absent (R331). -/
def recallWindows (s : State) (cov : Nat → Nat → Bool) : State :=
  s.gangs.foldl (fun s g => g.2.windows.foldl (fun s w =>
    (w.2.lines.filter (fun l => cov w.2.ctx (ptrVa w.2.ptr + 128 * l.1))).foldl (fun s l =>
      match l.2.1 with
      | some pa => snoopWin s g.1 w.1 pa true
      | none => (writeBackCell s g.1 w.1 l.1 true).1) s) s) s

/-- Whether an operation has multicast lines translated by a covered leaf that have not been read. -/
def OpKind.translated (cov : Nat → Bool) : OpKind → Bool
  | .ldmc accs _ _ _ _ got => accs.any (fun a => a.unread got && a.va.any cov)
  | .copy c => c.sent.any (fun l => cov (128 * l))
  | _ => false

/-- Whether the last invalidation of a Loam core's port is still incomplete: GO reads 1 (R331). -/
def invalPending (s : State) (k : Nat) : Bool :=
  (sgetD [] s.invals k).any (fun n => (sget n s.ops).any (fun o => o.kind.translated (fun _ => true)))

/-- A write of GO to `xl.invc` with a kind, which covers the translations `cov` says of a context: caches and windows drop them
at once, and the port waits for the multicast lines already translated. A write while GO reads 1 is ignored. -/
def invalidate (kind k : Nat) (v : W64) (s : State) (cov : Nat → Nat → Bool) (act : State → State) : Answer :=
  if v.getLsbD 63 && bits v.toNat 38 2 = kind && !invalPending s k then
    let late := skeys (s.ops.filter (fun e => e.2.kind.translated (cov e.2.ctx)))
    let s := recallWindows (ctlWr s (xlReg k 8) (v &&& 0x0FFFF0F000000000)) cov
    .next { act s with invals := sputD [] k late s.invals }
  else .next s

/-- XL_INV_PAGE (R331, kind 0): one page of `xl.inva`, of size SZ. -/
def execXlInvPage (k : Nat) (v : W64) (s : State) : Answer :=
  let size := 2 ^ ([12, 16, 21, 30].getD (bits v.toNat 36 2) 12)
  let va := ctlBits s (xlReg k 0) 12 45 * 4096
  let lo := va - va % size
  let ctx := bits v.toNat 44 16
  invalidate 0 k v s (fun c a => c = ctx && lo ≤ a && a < lo + size)
    (fun s => dropCached s (fun t => t.ctx = ctx && t.page < lo + size && lo < t.page + 2 ^ t.bits) (fun _ => false))

/-- XL_INV_CONTEXT (R331, kind 1). -/
def execXlInvContext (k : Nat) (v : W64) (s : State) : Answer :=
  let ctx := bits v.toNat 44 16
  invalidate 1 k v s (fun c _ => c = ctx) (fun s => dropCached s (fun t => t.ctx = ctx) (fun _ => false))

/-- XL_INV_REGION (R331, kind 2). -/
def execXlInvRegion (k : Nat) (v : W64) (s : State) : Answer :=
  let ctx := bits v.toNat 44 16
  invalidate 2 k v s (fun _ _ => false) (fun s => dropCached s (fun _ => false) (fun r => r.ctx = ctx))

/-- XL_INV_ALL (R331, kind 3): every translation and region entry of every context. -/
def execXlInvAll (k : Nat) (v : W64) (s : State) : Answer :=
  invalidate 3 k v s (fun _ _ => true) (fun s => dropCached s (fun _ => true) (fun _ => true))

/-! ### Loam's replies (R334) -/

/-- Changes the waves of a context. -/
def mapCtxWaves (s : State) (ctx : Nat) (f : Wave → Wave) : State :=
  { s with waves := s.waves.map (fun e => if ctxOf s e.1 = ctx then (e.1, f e.2) else e) }

/-- Monitored words of a page are read again. -/
def rereadPage (s : State) (ctx vpn : Nat) : State :=
  s.waves.foldl (fun s e =>
    if ctxOf s e.1 != ctx then s
    else e.2.fibres.foldl (fun s f => match f.2.blocked with
      | some (.waitM p _ _ _ _ _ _ _ _) => if ptrVa p / 4096 = vpn then reread s e.1 f.1 else s
      | _ => s) s) s

/-- The oldest entry of a page in a core's Silt log that may be replayed walks again, and then the next, up to a number of
entries; one whose leaf is still unusable sends a report (R334). -/
def replayPage (core ctx vpn : Nat) : Nat → State → State
  | 0, s => s
  | n + 1, s =>
    let log := (coreOf s core).silt
    match (List.range (min siltSize log.length)).findSome? (fun i =>
        ((freeEntryAt log i).filter (fun e => e.ctx = ctx && e.onPage vpn)).map (i, ·)) with
    | none => s
    | some (i, e) =>
      match replayEntry s core e with
      | (s, false) => s
      | (s, true) => replayPage core ctx vpn n (dropSilt s core i)

/-- Replays of a page in every Silt log. -/
def replayPages (s : State) (ctx vpn : Nat) : State :=
  s.cores.foldl (fun s c => replayPage c.1 ctx vpn c.2.silt.length s) s

/-- Accesses held in a context forget the reports they have sent, for one page or for all: they may send them again. -/
def forget (s : State) (ctx : Nat) (vpn : Option Nat) : State :=
  let go (a : Access) : Access :=
    if a.ctx = ctx then { a with told := a.told.filter (fun p => vpn.any (· != p)) } else a
  { s with ops := s.ops.map (fun e => (e.1, { e.2 with kind := match e.2.kind with
    | .load give giveQ held => .load give giveQ (held.map go)
    | .store held => .store (held.map go)
    | .ldmc accs held mask ask sent got => .ldmc accs (held.map go) mask ask sent got
    | k => k })) }

/-- The pending error of an access that Loam could not back (R172, R209). -/
def unbackedError (pc addr : W64) (acc buf : BitVec 8) (syn0 syn1 : W32) : Deferred :=
  { kind := 3, sub := 0x0A, apc := pc, addr := addr, acc := acc, buf := buf, syn0 := syn0, syn1 := syn1, syn2 := 0 }

/-- Order slots of a context hear the answer for a page: it may be mapped, or it cannot be backed. -/
def slotsHear (s : State) (ctx vpn : Nat) (unbacked : Bool) : State :=
  let told (l : List (Nat × Bool)) : List (Nat × Bool) :=
    if unbacked then l.map (fun p => if p.1 = vpn then (vpn, true) else p) else l.filter (fun p => p.1 != vpn)
  { s with oslots := s.oslots.map (fun e => if e.2.ctx = ctx then (e.1, { e.2 with told := told e.2.told }) else e) }

/-- Order slots of a context give up the tiles of a page that cannot be backed. -/
def slotsLose (s : State) (ctx vpn : Nat) : State :=
  let s := slotsHear s ctx vpn true
  let s := (s.oslots.filter (fun e => e.2.ctx = ctx && e.2.told.contains (vpn, true))).foldl (fun s e =>
    roRetry ((dedup [] (e.2.frags.map (·.tile))).foldl (fun s t => applyTile s e.1 t) s) (some e.1)) s
  slotsHear s ctx vpn false

/-- A `rast` loses the stash bytes it has still to store on a page that cannot be backed; the error is pending on the fibre. -/
def loseCells (s : State) (n : Nat) (o : Op) (vpn : Nat) (i : Instr) (d : List W64) (done : List GfxResult) (held : List (Nat × List W32)) : State :=
  let at' (a : Nat) : Option W64 := ((sget o.gang s.gangs).bind (fun g => winAt g a)).bind (fun w =>
    let va := ptrVa w.2.ptr + (a - w.2.stash)
    if va / 4096 = vpn then some (pointer (ptrRid w.2.ptr) va) else none)
  let s := done.foldl (fun s r => match r.cells.findSome? (fun c => at' c.1) with
    | some p => makePending s o.wave r.slot (unbackedError o.pc p 4 0xFF 0 0)
    | none => s) s
  modOp s n (fun o => { o with
    wait := none
    kind := .gfx i d (done.map (fun r => { r with cells := r.cells.filter (fun c => (at' c.1).isNone) })) held })

/-- The waits for a page are over: what waited walks again. -/
def pageMapped (s : State) (ctx vpn : Nat) : State :=
  let s := { s with
    ops := s.ops.map (fun e => if e.2.ctx = ctx && e.2.wait.any (· / 4096 = vpn) then (e.1, { e.2 with wait := none }) else e)
    launches := s.launches.map (fun e => if e.2.ctx = ctx && e.2.page.any (·.1 = vpn) then (e.1, { e.2 with page := none }) else e)
    queueWait := s.queueWait.filter (fun e => !(e.2.1 = ctx && e.2.2.1 = vpn))
    reqs := s.reqs.map (fun e => if e.2.ctx = ctx && e.2.wait.any (·.1 = vpn) then (e.1, { e.2 with wait := none }) else e) }
  let s := mapCtxWaves s ctx (fun w => if w.page.any (·.1 = vpn) then { w with page := none } else w)
  let s := (s.mats.filter (fun e => e.2.fills s ctx vpn)).foldl (fun s e =>
    let s := if e.2.isPass then setSusp s e.2 false none else s
    { s with mats := smod e.1 (fun o => { o with susp := none }) s.mats }) s
  retryEverything (rereadPage (replayPages (forget (slotsHear s ctx vpn false) ctx (some vpn)) ctx vpn) ctx vpn)

/-- The fields of `xl.done` of a kind (R334): context and page. -/
def doneFields (v : W64) (kind : Nat) : Option (Nat × Nat) :=
  if bits v.toNat 45 3 = kind then some (bits v.toNat 48 16, bits v.toNat 0 45) else none

/-- XL_DONE_MAPPED (R334, kind 0). -/
def execXlDoneMapped (_k : Nat) (v : W64) (s : State) : Answer :=
  match doneFields v 0 with
  | some (ctx, vpn) => .next (pageMapped s ctx vpn)
  | none => .next s

/-- Discards the entries of a core's log for a page; each fibre's error names its first entry (R172). -/
def discardSilt (s : State) (core ctx vpn : Nat) : State :=
  let mine (e : SiltEntry) : Bool := e.ctx = ctx && e.onPage vpn
  let gone := (coreOf s core).silt.filter mine
  let s := modCore s core (fun c => { c with silt := c.silt.filter (fun e => !mine e) })
  (gone.foldl (fun (t : State × List (Nat × Nat)) e =>
    e.slots.foldl (fun t slot =>
      if t.2.contains (e.wave, slot) then t
      else
        let i := ((e.infos.find? (fun x => x.1 = slot)).map (·.2)).getD (0xFF, 0, 0)
        (makePending t.1 e.wave slot (unbackedError e.pc (pointer e.rid e.addr) (if e.kred then 3 else 1) i.1 i.2.1 i.2.2),
          (e.wave, slot) :: t.2)) t) (s, [])).1

/-- Discards entries of a page from every log that has one. -/
def discardAll (s : State) (ctx vpn : Nat) : State :=
  (skeys (s.cores.filter (fun c => c.2.silt.any (fun e => e.ctx = ctx && e.onPage vpn)))).foldl
    (fun s c => discardSilt s c ctx vpn) s

/-- The rows of a matrix operation that touch a page through a window, each with its first address there. -/
def rowsTouching (s : State) (ctx vpn : Nat) (o : MatOp) : List (Nat × W64) :=
  match sget (gangOf s o.wave) s.gangs with
  | none => []
  | some g =>
    let hit (as : List Nat) : Option W64 := as.findSome? (fun a =>
      match winAt g a with
      | some (_, w) =>
        let va := ptrVa w.ptr + (a - w.stash)
        if w.ctx = ctx && va / 4096 = vpn then some (pointer (ptrRid w.ptr) va) else none
      | none => none)
    if o.isPass then
      o.rows.filterMap (fun r => (hit ((aAddrs o r o.next).map (fun a => addrs a (mxSize o.aty))).flatten).map (r.1, ·))
    else
      let all := hit (if o.opx.getLsbD 5 then addrs o.taddr (8192 * mxSize o.tty + 1024) else [])
      o.rows.filterMap (fun r =>
        ((hit ((if o.opx.getLsbD 3 then [] else addrs (o.gaddr + 4 * r.1) 4) ++ addrs r.2 (256 * mxSize o.aty))).or all).map (r.1, ·))

/-- The affected rows leave a matrix operation, which goes on with the others or completes (R225). -/
def unbackMat (s : State) (ctx vpn n : Nat) : State :=
  match sget n s.mats with
  | none => s
  | some o =>
    let bad := rowsTouching s ctx vpn o
    let s := bad.foldl (fun s r => makePending s o.wave r.1 (unbackedError o.pc r.2 6 0xFF 0 0)) s
    let rows := o.rows.filter (fun r => !(bad.map (·.1)).contains r.1)
    let s := if o.isPass then setSusp s o false none else s
    let s := { s with mats := sput n { o with rows := rows, susp := none } s.mats }
    if rows.isEmpty then
      match o.place with
      | .entry e => endMat (freeEntry s (clusterNo o.wave) e) n
      | _ => endMat s n
    else s

/-- Held accesses that cannot be backed: loads, atomics and stash accesses trap; a store that a full log held is lost, with
its error pending. -/
def unbackAccesses (s : State) (n : Nat) (o : Op) (hit : List (Access × W64)) : State :=
  let soft (a : Access) : Bool := !a.stash && (a.kind == .store || a.kind == .red)
  let lost := hit.filter (fun p => soft p.1)
  let traps := hit.filter (fun p => !soft p.1)
  let s := lost.foldl (fun s p => makePending s o.wave p.1.slot (unbackedError p.1.pc p.2 p.1.acc p.1.buf p.1.syn0 p.1.syn1)) s
  let s := letGo s o.wave n (lost.map (·.1.slot)) []
  trapEach s o.wave { pc := o.pc, place := some o.place, ll := true } (traps.map (fun p => (p.1.slot, p.1.cause 0x0A p.2)))

/-- Ends a member of a collective whose memory cannot be backed. -/
def stopMember (s : State) (n : Nat) (o : Op) (c : CollOp) (va : Nat) : State :=
  let side := [collSrc c, collDst c].find? (fun p => ptrVa p / 128 * 128 ≤ va && va < ptrVa p + max (collIn c c.n) (collOut c c.n))
  finishMember s n o c 0 (some (unbackedError o.pc (pointer (ptrRid (side.getD (collSrc c))) va) 6 c.buf 0 0))

/-- What an unbacked answer does to an operation (R171, R234, R258). -/
def unbackOp (s : State) (ctx vpn n : Nat) : State :=
  match sget n s.ops with
  | none => s
  | some o =>
    if o.ctx != ctx then s
    else
      let at' (va : Nat) : Bool := va / 4096 = vpn
      let waits := o.wait.any at'
      let hit (held : List Access) := waitingOn s (gangOf s o.wave) ctx vpn held
      let rest (held : List Access) (h : List (Access × W64)) : List Access := held.filter (fun a => !(h.map (·.1)).contains a)
      match o.kind with
      | .load give giveQ held =>
        let h := hit held
        unbackAccesses (modOp s n (fun o => { o with kind := .load give giveQ (rest held h) })) n o h
      | .store held =>
        let h := hit held
        unbackAccesses (modOp s n (fun o => { o with kind := .store (rest held h) })) n o h
      | .ldmc accs held mask ask sent got =>
        let h := hit held
        unbackAccesses (modOp s n (fun o => { o with kind := .ldmc accs (rest held h) mask ask sent got })) n o h
      | .launch q parts =>
        let lost (p : LaunchPart) : Bool := p.entry.isNone && p.record.isEmpty
          && [ptrVa p.ptr, ptrVa p.ptr + 127].any (fun va => at' va && !usable s ctx va .read)
        let s := modOp s n (fun o => { o with kind := .launch q (parts.filter (fun p => !lost p)) })
        let s := trapEach s o.wave { pc := o.pc, place := some o.place, ll := true } ((parts.filter lost).map (fun p => (p.slot, launchFail p 0x0A)))
        dropIdle s o.wave
      | .gfx i d done held => if waits then loseCells s n o vpn i d done held else retryGfx s n (some vpn)
      | .copy c => if waits then stopCopy s n o c (o.wait.getD 0) else s
      | .coll c => if waits then stopMember s n o c (o.wait.getD 0) else s
      | .tagpub parts => if waits then stopTagpub s n o vpn parts else s
      | .cflush lines => if waits then modOp s n (fun o => { o with wait := none, kind := .cflush (lines.filter (fun l => !at' l.1)) }) else s
      | _ => if waits then modOp s n (fun o => { o with wait := none }) else s

/-- Fibres in `wait.m` on a page that cannot be backed trap as held loads do. -/
def unbackMonitors (s : State) (ctx vpn : Nat) : State :=
  s.waves.foldl (fun s e =>
    if ctxOf s e.1 != ctx then s
    else e.2.fibres.foldl (fun s f => match f.2.blocked with
      | some (.waitM p buf syn0 syn1 _ _ _ _ _) =>
        if ptrVa p / 4096 = vpn && !usable s ctx (ptrVa p) .read then
          trap s e.1 f.1 { pc := f.2.pc, place := f.2.base } { kind := 3, sub := 0x0A, addr := p, acc := 0, buf := buf, syn0 := syn0, syn1 := syn1 }
        else s
      | _ => s) s) s

/-- Everything that waits for a page loses it. -/
def pageUnbacked (s : State) (ctx vpn : Nat) : State :=
  let s := { s with
    launches := s.launches.map (fun e => if e.2.ctx = ctx && e.2.page.any (·.1 = vpn) then (e.1, { e.2 with page := some (vpn, true) }) else e)
    queueWait := s.queueWait.map (fun e => if e.2.1 = ctx && e.2.2.1 = vpn then (e.1, ctx, vpn, true) else e)
    reqs := s.reqs.map (fun e => if e.2.ctx = ctx && e.2.wait.any (·.1 = vpn) then (e.1, { e.2 with wait := some (vpn, true) }) else e) }
  let s := mapCtxWaves s ctx (fun w => if w.page.any (·.1 = vpn) then { w with page := some (vpn, true) } else w)
  let s := (skeys (s.mats.filter (fun e => e.2.fills s ctx vpn))).foldl (fun s n => unbackMat s ctx vpn n) s
  let s := discardAll s ctx vpn
  let s := (skeys s.ops).foldl (fun s n => unbackOp s ctx vpn n) s
  retryEverything (slotsLose (unbackMonitors s ctx vpn) ctx vpn)

/-- XL_DONE_UNBACKED (R334, kind 1). -/
def execXlDoneUnbacked (_k : Nat) (v : W64) (s : State) : Answer :=
  match doneFields v 1 with
  | some (ctx, vpn) => .next (pageUnbacked s ctx vpn)
  | none => .next s

/-- Operations of a context that wait at an address whose leaf would serve them: they wait for the Marl pool or table. -/
def poolRetry (s : State) (ctx : Nat) : State :=
  retryEverything (forget { s with ops := s.ops.map (fun e =>
    if e.2.ctx = ctx && e.2.wait.any (fun va => usable s ctx va .write) then (e.1, { e.2 with wait := none }) else e) } ctx none)

/-- XL_DONE_POOL_REFILLED (R334, kind 2): VPN is ignored. -/
def execXlDonePoolRefilled (_k : Nat) (v : W64) (s : State) : Answer :=
  match doneFields v 2 with
  | some (ctx, _) => .next (poolRetry s ctx)
  | none => .next s

/-! ### Growing a cell table (R340) -/

/-- The new cell table of a translation block: base address and k. -/
def newTable (tb : Nat) : Nat × Nat := (bits tb 216 40 * 4096, bits tb 204 5)

/-- Enters a cell in a table, if its path has room. -/
def enterCell (s : State) (base k vpn tag frame : Nat) : State :=
  match cellSearch s vpn tag (cellPath base k vpn tag) none with
  | .absent (some a) => wr s a 32 (cellEntry 1 frame vpn tag)
  | _ => s

/-- XL_CMD_GROW_CELL_TABLE (R340): every valid entry moves to the new table, which becomes the context's. -/
def execXlCmdGrowCellTable (k : Nat) (v : W64) (s : State) : Answer :=
  let ctx := bits v.toNat 44 16
  if !v.getLsbD 63 || bits v.toNat 60 3 != 1 then .next s
  else
    let s := ctlWr s (xlReg k 0x18) (v &&& 0x7FFFF00000000000)
    if (sget ctx s.contexts).isNone then .next s
    else
      let tb := transBlock s ctx
      let t := newTable tb
      let s := (cellsOf s ctx none).foldl (fun s c => enterCell s t.1 t.2 c.2.1 c.2.2.1 c.2.2.2) s
      .next (poolRetry (ctxWr s ctx 0x11 7 (bits tb 204 52 * 16 + bits tb 136 4)) ctx)

end Sys2Proof.Machine
end

