-- ==== Sys2Proof/Machine/ServiceEv.lean ====
section
/-! DEFINITION. What the service engine and the rings to Loam do: `capinv` requests (R204, R439 to R442), supervisor events
(R436), upcall messages and their replies (R205, R437, R438). -/

namespace Sys2Proof.Machine

/-! ### Requests (R204, R439) -/

/-- Changes a request. -/
def modReq (s : State) (rk : Nat) (f : SenReq → SenReq) : State := { s with reqs := smod rk f s.reqs }

/-- An argument word, and a pair of them low word first. -/
def SenReq.arg (r : SenReq) (i : Nat) : Nat := (r.args.getD i 0).toNat
def SenReq.arg2 (r : SenReq) (i : Nat) : Nat := r.arg i + r.arg (i + 1) * 2 ^ 32

/-- Whether the arguments from one up to another are all 0. -/
def SenReq.zeros (r : SenReq) (from' till : Nat) : Bool := (List.range (till - from')).all (fun i => r.arg (from' + i) = 0)

/-- A request as an agent (R333). -/
def SenReq.agent (r : SenReq) : Agent := { core := coreNo r.wave, src := 3, op := some r.op }

/-- Where the capability's entry lies (R410, R439). -/
def SenReq.entryAt (s : State) (r : SenReq) : Nat := ctxRd s r.ctx 0x80 8 + 32 * bits r.cap.toNat 0 16

/-- Gives up the lines that a request owns, so that what waited for them goes on (R297). -/
def disown (s : State) (rk : Nat) (own : List Nat) : State :=
  if own.isEmpty then s else retryEverything (modReq s rk (fun r => { r with own := [] }))

/-- The answer of a request: status and result words. -/
def answerReq (s : State) (rk : Nat) (ws : List Nat) : State :=
  disown (modReq s rk (fun r => { r with result := some ((List.range 4).map (fun i => BitVec.ofNat 32 (ws.getD i 0))), wait := none }))
    rk (((sget rk s.reqs).map (·.own)).getD [])

/-- Removes a request, and the hold of the tag under which a storage request accesses its buffer (R252, R441). -/
def dropReq (s : State) (rk : Nat) : State :=
  match sget rk s.reqs with
  | none => s
  | some r =>
    let s := disown s rk r.own
    let s := if r.storage && r.code.toNat ≤ 1 then tagDrop s r.ctx r.tag.toNat else s
    { s with reqs := sdel rk s.reqs }

/-- An orphaned request whose command was not issued ends; that of a storage request posts event 0x05 (R442). -/
def dropOrphan (s : State) (rk : Nat) (r : SenReq) : State :=
  dropReq (if r.storage && r.result.isNone then orphanEvent s 0x05 rk r else s) rk

/-- Runs the operation of a request that the gate passed and that is not answered; `svc` and `code` say which one. A request
whose fibre has ended is dropped instead. -/
def serve (s : State) (rk svc code : Nat) (run : SenReq → State) : Answer :=
  match sget rk s.reqs with
  | none => .next s
  | some r =>
    if !r.passed || r.issued || r.result.isSome || bits r.cap.toNat 16 8 != svc || r.code.toNat != code then .next s
    else if r.orphan then .next (dropOrphan s rk r)
    else .next (run r)

/-- Whether an operation code is one that R440 lists for a service. -/
def knownOp (svc code : Nat) : Bool := if svc = 2 then code ≤ 2 else code ≤ 1

/-- The answer of a request, if it has one: an operation that its service does not list gets status 2 at once (R440). -/
def SenReq.answer (r : SenReq) : Option (List W32) :=
  if r.passed && !knownOp (bits r.cap.toNat 16 8) r.code.toNat then some [2, 0, 0, 0] else r.result

/-- Writes the result registers of a request's fibre, if the request is answered and its fibre is on its core (R204). -/
def giveAnswer (s : State) (req : Nat) : State :=
  match sget req s.reqs with
  | none => s
  | some r =>
    match r.answer, sget r.op s.ops with
    | some ws, some o =>
      match o.kind with
      | .capinv parts =>
        let s := (parts.filter (·.req = req)).foldl (fun s p =>
          modFibre s o.wave p.slot (fun f => (ws.zipIdx).foldl (fun f e => f.setV (p.vr + e.2) e.1) f)) s
        let left := parts.filter (·.req != req)
        let s := modOp (dropReq s req) r.op (fun o => { o with kind := .capinv left })
        if left.isEmpty then complete s r.op else wakeReleases s
      | _ => s
    | _, _ => s

/-- CAPINV_COMPLETE (R204): the result registers of the fibre take the answer. A saved fibre's answer waits for its restore. -/
def execCapinvComplete (req : Nat) (s : State) : Answer :=
  match sget req s.reqs with
  | none => .next s
  | some r =>
    if r.orphan then .next (if r.result.isSome || !r.issued then dropOrphan s req r else s)
    else .next (giveAnswer s req)

/-! ### Allocation (R440) -/

/-- The checks that `map` and `unmap` share: alignment, region identifier, region. -/
def rangeGood (s : State) (r : SenReq) : Bool :=
  let p : W64 := BitVec.ofNat 64 (r.arg2 0)
  let n := r.arg 2
  r.arg2 0 % 4096 = 0 && n % 4096 = 0 && n != 0 && ptrRid p = bits (rd s (r.entryAt s + 0x10) 1) 0 8
    && inRegion (regionEntry s r.ctx (ptrRid p)) (ptrVa p) n

/-- The virtual pages of a request's range. -/
def SenReq.pages (r : SenReq) : List Nat := (List.range (r.arg 2 / 4096)).map (fun i => bits (r.arg2 0) 0 57 + 4096 * i)

/-- Fills a frame with zeros. -/
def zeroFrame (s : State) (pa : Nat) : State := writePage s pa []

/-- Backs a page below a table of a level with the frames given, in order: tables as needed, then the page. What is already mapped stays. The
answer is the frames left and whether the page was mapped; none when the frames do not suffice. -/
def backPage (flags va : Nat) : Nat → Nat → State → List Nat → Option (State × List Nat × Bool)
  | 0, _, s, frames => some (s, frames, false)
  | lvl + 1, table, s, frames =>
    let addr := table + 8 * bits va (12 + 9 * lvl) 9
    let pte := rd s addr 8
    if pte.testBit 0 then
      if lvl = 0 || pte.testBit 5 || malformed pte lvl then some (s, frames, false)
      else backPage flags va lvl (bits pte 12 40 * 4096) s frames
    else
      match frames with
      | [] => none
      | f :: rest =>
        let s := zeroFrame s (4096 * f)
        if lvl = 0 then some (wr s addr 8 (flags + 4096 * f), rest, true)
        else backPage flags va lvl (4096 * f) (wr s addr 8 (4096 * f + 1)) rest

/-- Backs pages one after the other; the number mapped. -/
def backPages (ctx flags : Nat) : List Nat → State → List Nat → Nat → Option (State × Nat)
  | [], s, _, n => some (s, n)
  | va :: rest, s, frames, n =>
    match backPage flags va 5 (bits (transBlock s ctx) 12 40 * 4096) s frames with
    | none => none
    | some (s, frames, new) => backPages ctx flags rest s frames (if new then n + 1 else n)

/-- Whether frames may back pages: distinct, and inside the two tiers. -/
def framesGood (frames : List Nat) : Bool := dedup [] frames == frames && frames.all (fun f => 4096 * f < memEnd)

/-- ALLOCATION_MAP (R440): the frames that the engine has for it come with the step. -/
def execAllocationMap (req : Nat) (frames : List Nat) (s : State) : Answer :=
  serve s req 1 0 (fun r =>
    let quota := rd s (r.entryAt s + 0x18) 8
    let f := r.arg 3
    if !rangeGood s r || 16 ≤ f || bits f 0 2 = 3 || !r.zeros 4 8 || quota < r.arg 2 then answerReq s req [2]
    else
      let flags := 0x25 + (if f.testBit 3 then 8 else 0) + bits f 0 2 * 2 ^ 61 + (if f.testBit 2 then 2 ^ 63 else 0)
      if !framesGood frames then s
      else
        match backPages r.ctx flags r.pages s frames 0 with
        | none => s
        | some (s, n) => answerReq (wr s (r.entryAt s + 0x18) 8 (quota - r.arg 2)) req [0, n])

/-- The address of the level-0 leaf of a page, if it has one. -/
def leafSlot (s : State) (ctx va : Nat) : Option Nat :=
  match walk s ctx va with
  | .leaf _ addr size => if size ≤ 16 then some addr else none
  | .bad _ => none

/-- ALLOCATION_UNMAP (R440): the leaves are cleared and invalidated. -/
def execAllocationUnmap (req : Nat) (s : State) : Answer :=
  serve s req 1 1 (fun r =>
    if !rangeGood s r || !r.zeros 3 8 then answerReq s req [2]
    else
      let slots := r.pages.filterMap (leafSlot s r.ctx)
      let s := slots.foldl (fun s a => wr s a 8 0) s
      let lo := bits (r.arg2 0) 0 57
      let s := recallWindows s (fun c a => c = r.ctx && lo ≤ a && a < lo + r.arg 2)
      let s := dropCached s (fun t => t.ctx = r.ctx && t.page < lo + r.arg 2 && lo < t.page + 2 ^ t.bits) (fun _ => false)
      let q := r.entryAt s + 0x18
      answerReq (wr s q 8 ((rd s q 8 + 4096 * slots.length) % 2 ^ 64)) req [0, slots.length])

/-! ### Storage (R440 to R442) -/

/-- The namespace of a storage capability, its first block and its count of blocks (R439). -/
def SenReq.nsid (r : SenReq) : W32 := BitVec.ofNat 32 (bits r.entry 128 32)
def SenReq.lba (r : SenReq) : Nat := bits r.entry 160 48
def SenReq.lcount (r : SenReq) : Nat := bits r.entry 208 48

/-- Bytes of the buffer of a read or a write, and its pointer. -/
def SenReq.bytes (r : SenReq) : Nat := r.arg 2 * Config.blockBytes r.nsid
def SenReq.buf (r : SenReq) : W64 := BitVec.ofNat 64 (r.arg2 4)

/-- The checks of a read or a write (R440). -/
def storageGood (s : State) (r : SenReq) : Bool :=
  1 ≤ r.arg 2 && r.arg 2 ≤ 65536 && r.arg2 4 % 16 = 0 && r.arg 3 = 0 && r.zeros 6 8 && r.arg2 0 + r.arg 2 ≤ r.lcount
    && inRegion (regionEntry s r.ctx (ptrRid r.buf)) (ptrVa r.buf) r.bytes

/-- The first address of each page of the buffer. -/
def SenReq.bufPages (r : SenReq) : List Nat := (pagesOf (ptrVa r.buf) r.bytes).map (fun p => max (ptrVa r.buf) (4096 * p))

/-- The physical addresses of the buffer's bytes in the pinned frames. -/
def SenReq.bufBytes (r : SenReq) : List Nat :=
  let off := ptrVa r.buf % 4096
  (List.range r.bytes).map (fun i => r.pinned.getD ((off + i) / 4096) 0 + (off + i) % 4096)

/-- A read or a write: its checks, the demand mapping and pinning of its buffer, and its command. -/
def storage (req : Nat) (need : Need) (s : State) (go : SenReq → State → State) (r : SenReq) : State :=
  if !storageGood s r || r.wait.any (·.2) then answerReq s req [2]
  else if r.wait.isSome then s
  else
    match physical s none r.ctx need true r.tag.toNat r.agent (ptrRid r.buf) r.bufPages with
    | (s, .error (va, m)) =>
      modReq (reportMiss s r.ctx (coreNo r.wave) 3 (if need.writes then 1 else 0) (ptrRid r.buf) va m) req (fun r => { r with wait := some (va / 4096, false) })
    | (s1, .ok pas) =>
      let r := { r with pinned := pas.map (fun a => a - a % 4096) }
      if memOwned s1 (some r.op) r.bufBytes then s
      else go r (modReq s1 req (fun _ => { r with issued := true }))

/-- The command of a request leaves for the NVMe controller. -/
def nvme (s : State) (req op : Nat) (r : SenReq) (data : List Byte) : State :=
  { s with out := s.out ++ [.nvme req op r.nsid (r.lba + r.arg2 0) (r.arg 2) data] }

/-- STORAGE_READ (R440, R441): the buffer's lines, owned since the request was accepted, stay so until the data arrive. -/
def execStorageRead (req : Nat) (s : State) : Answer := serve s req 2 0 (storage req .write s (fun r s => nvme s req 0 r []))

/-- STORAGE_WRITE (R440, R441). -/
def execStorageWrite (req : Nat) (s : State) : Answer :=
  serve s req 2 1 (storage req .read s (fun r s =>
    let b := readBytes s r.bufBytes
    nvme b.1 req 1 r b.2.1))

/-- STORAGE_FLUSH (R440). -/
def execStorageFlush (req : Nat) (s : State) : Answer :=
  serve s req 2 2 (fun r =>
    if !r.zeros 0 8 then answerReq s req [2]
    else
      let s := modReq s req (fun r => { r with issued := true })
      { s with out := s.out ++ [.nvme req 2 r.nsid 0 0 []] })

/-- NVME_COMPLETION (R441, R442): a read's data land in the pinned frames; pins are released, or the orphan is. -/
def execNvmeCompletion (req : Nat) (status blocks : W32) (data : List Byte) (s : State) : Answer :=
  match sget req s.reqs with
  | none => .next s
  | some r =>
    if !r.issued || r.result.isSome then .next s
    else
      let s := if r.code = 0 then writeBytes s (r.bufBytes.zip data) false else s
      let s := modReq s req (fun r => { r with pinned := [] })
      .next (if r.orphan then dropReq (orphanEvent s 0x05 req r) req
        else answerReq s req [0, status.toNat, if r.code = 2 then 0 else blocks.toNat])

/-! ### Queues (R362, R440) -/

/-- QUEUE_CREATE (R440). The lowest free queue is created. -/
def execQueueCreate (req : Nat) (s : State) : Answer :=
  serve s req 3 0 (fun r =>
    let e := r.entryAt s
    let nq := rd s (e + 0x11) 1
    if 63 < r.arg 0 || r.arg 1 < 4 || 16 < r.arg 1 || !r.zeros 4 8 || rd s (e + 0x10) 1 ≤ nq then answerReq s req [2]
    else
      match freeKey s.recQueues 256 0 with
      | none => answerReq s req [2]
      | some q =>
        let z : RecQueue := { ctx := r.ctx, key := BitVec.ofNat 64 (r.arg2 2), rsz := r.arg 0, c := r.arg 1, recs := [] }
        answerReq (wr { s with recQueues := sput q z s.recQueues } (e + 0x11) 1 (nq + 1)) req [0, q])

/-- QUEUE_DESTROY (R440): the queue's records are discarded. -/
def execQueueDestroy (req : Nat) (s : State) : Answer :=
  serve s req 3 1 (fun r =>
    let e := r.entryAt s
    if !r.zeros 1 8 || !queueOwned s (r.arg 0) r.ctx then answerReq s req [2]
    else answerReq (wr { s with recQueues := sdel (r.arg 0) s.recQueues } (e + 0x11) 1 (rd s (e + 0x11) 1 - 1)) req [0])

/-! ### The supervisor ring (R436) -/

/-- The 64 bytes of an event. -/
def SupEvent.message (e : SupEvent) : List Byte :=
  [e.code, e.cause] ++ toBytesLE 2 e.ctx ++ toBytesLE 4 e.launch ++ toBytesLE 8 e.pc.toNat ++ toBytesLE 8 e.addr.toNat
    ++ toBytesLE 4 e.len.toNat ++ toBytesLE 4 e.req.toNat ++ toBytesLE 8 e.clock.toNat ++ toBytesLE 2 e.core ++ [e.kind, 0]
    ++ toBytesLE 2 e.sub.toNat ++ [0, 0] ++ toBytesLE 8 e.rslot.toNat ++ List.replicate 8 0

/-- SUPERVISOR_EVENT (R436): the oldest event that waits is posted when the ring has room. -/
def execSupervisorEvent (s : State) : Answer :=
  match s.supEvents with
  | [] => .next s
  | e :: rest => if ringRoom s true then .next { ringPost s true e.message with supEvents := rest } else .next s

/-! ### Upcalls (R205, R206, R437, R438) -/

/-- Changes the parking of a wave, which stands on its core or with a saved gang. -/
def modPark (s : State) (wk : Nat) (gk : Option Nat) (f : Park → Park) : State :=
  let go (w : Wave) : Wave := { w with park := w.park.map f }
  match gk with
  | none => modWave s wk go
  | some k => modGang s k (fun g => { g with saved := g.saved.map (fun v => { v with waves := smod wk go v.waves }) })

/-- The waves of a context that wait with a message to post: key, saved gang if any, and the parking. -/
def parked (s : State) (ctx : Nat) : List (Nat × Option Nat × Park) :=
  let pick (gk : Option Nat) (e : Nat × Wave) : Option (Nat × Option Nat × Park) :=
    e.2.park.bind (fun p => if p.msg.isSome && ((sget e.2.launch s.launches).any (fun l => l.ctx = ctx)) then some (e.1, gk, p) else none)
  s.waves.filterMap (pick none)
    ++ (s.gangs.map (fun g => ((g.2.saved.map (·.waves)).getD []).filterMap (pick (some g.1)))).flatten

/-- The one that parked first. -/
def firstParked (s : State) (ctx : Nat) : Option (Nat × Option Nat × Park) :=
  (parked s ctx).foldl (fun best p => match best with
    | none => some p
    | some b => if p.2.2.order < b.2.2.order then some p else some b) none

/-- The mailbox ring of a context (R422): base, LOG2, Loam core, tail, head. -/
structure Mailbox where
  base : Nat
  log : Nat
  core : Nat
  tail : Nat
  head : Nat
  deriving DecidableEq, Repr

def Mailbox.read (s : State) (ctx : Nat) : Mailbox :=
  { base := ctxRd s ctx 0x50 8, log := ctxRd s ctx 0x58 1, core := ctxRd s ctx 0x59 1, tail := ctxRd s ctx 0x5C 4, head := ctxRd s ctx 0x60 4 }

/-- Whether the ring has room. -/
def Mailbox.room (m : Mailbox) : Bool := 4 ≤ m.log && m.log ≤ 16 && (m.tail + 2 ^ 32 - m.head) % 2 ^ 32 < 2 ^ m.log

/-- UPCALL_MESSAGE_POST (R437): messages of a context are posted in the order the waves parked. -/
def execUpcallMessagePost (ctx : Nat) (s : State) : Answer :=
  match firstParked s ctx with
  | none => .next s
  | some (wk, gk, p) =>
    let m := Mailbox.read s ctx
    if !m.room then .next s
    else
      let msg := toBytesLE 8 (coreOf s p.core).clock.toNat ++ (p.msg.getD []).drop 8
      let s := writeBytes s ((addrs (m.base + 64 * (m.tail % 2 ^ m.log)) 64).zip msg) false
      let s := ctxWr s ctx 0x5C 4 ((m.tail + 1) % 2 ^ 32)
      let s := if m.tail = m.head then loamIrq s m.core else s
      .next (modPark s wk gk (fun p => { p with msg := none }))

/-- The offset of a register of a Loam core's upcall port (R438). -/
def upReg (k r : Nat) : Nat := 0x750000 + 0x20 * k + r

/-- Whether a parked wave of a context is the one that a write of `up.cmd` names. -/
def Park.named (p : Park) (v : W64) : Bool :=
  p.msg.isNone && p.reply.isNone && p.core = bits v.toNat 6 7 && p.wslot = bits v.toNat 0 6 && p.seq = v.extractLsb' 32 16

/-- A parked wave goes on with Loam's reply (R205). -/
def unpark (s : State) (wk : Nat) (reg : Nat) (reply : W64) : State := modWave s wk (fun w => { w.setG reg reply with park := none })

/-- A reply is held with a saved wave that it names (R438); whether there is one. -/
def holdReply (s : State) (ctx : Nat) (v reply : W64) : Option State :=
  s.gangs.findSome? (fun g =>
    if ((sget (g.1 / 2 ^ 32) s.launches).map (·.ctx)).getD (2 ^ 16) != ctx then none
    else
      (g.2.saved.bind (fun sv => (sv.waves.find? (fun w => w.2.park.any (·.named v))).map (fun w =>
        modGang s g.1 (fun g => { g with saved := some { sv with
          waves := smod w.1 (fun x => { x with park := x.park.map (fun p => { p with reply := some reply }) }) sv.waves } })))))

/-- UP_CMD_RESUME (R438): a write of GO to `up.cmd`. -/
def execUpCmdResume (k : Nat) (v : W64) (s : State) : Answer :=
  if !v.getLsbD 63 then .next s
  else
    let ctx := bits v.toNat 16 16
    let reply := ctlRd s (upReg k 0)
    let s := ctlWr s (upReg k 8) (v &&& 0x0000FFFFFFFF1FFF)
    let stat (s : State) (x : W64) : State := ctlWr s (upReg k 0x10) x
    match s.waves.find? (fun e => ctxOf s e.1 = ctx && e.2.park.any (·.named v)) with
    | some (wk, w) => .next (stat (unpark s wk ((w.park.map (·.reg)).getD 0) reply) 0)
    | none =>
      match holdReply s ctx v reply with
      | some s => .next (stat s 2)
      | none => .next (stat s 1)

end Sys2Proof.Machine
end

