-- ==== Sys2Proof/Machine/DispatchEv.lean ====
section
/-! DEFINITION. What the dispatch unit does: launch queues and acceptance (R391 to R396), host submission (R397, R398),
placement (R401 to R405), the power governor (R406 to R408) and the dispatch commands (R409, R410). -/

namespace Sys2Proof.Machine

/-! ### Launch queues (R395) -/

/-- Notes an overrun of an operational queue. -/
def lqCheck (s : State) (q : Nat) : State :=
  if lqOperational s q && 2 ^ lqLog s q < lqCount s q then lqNote s q 0xF0 0 else s

/-- LQ_TAIL_WRITE (R395): TAIL is writable in MODE 0. -/
def execLqTailWrite (q : Nat) (v : W64) (s : State) : Answer :=
  if ctlBits s (lqReg q 0) 62 1 = 1 then .next s
  else .next (lqCheck (ctlWr s (lqReg q 0x10) (v &&& 0xFFFFFFFF)) q)

/-- LQ_CFG_WRITE (R395). What waits to append to the queue is tried again. -/
def execLqCfgWrite (q : Nat) (v : W64) (s : State) : Answer :=
  .next (retryMem (lqConfigure s q (v &&& 0xFFFFFFC000000000)) none)

/-- LQ_ERR_WRITE (R395): NDISC bits written as 1 are cleared. -/
def execLqErrWrite (q : Nat) (v : W64) (s : State) : Answer :=
  let left := lqNdisc s q &&& bits (~~~v).toNat 32 32
  let seen := if left = 0 then 0 else ctlBits s (lqReg q 0x20) 8 1
  .next (lqCheck (ctlWr s (lqReg q 0x20) (BitVec.ofNat 64 (left * 2 ^ 32 + seen * 2 ^ 8 + ctlBits s (lqReg q 0x20) 0 8))) q)

/-! ### Acceptance (R391 to R394, R396) -/

/-- What the reads of the uniform image and the windows come to. -/
inductive AccRead (α : Type) where
  | got (x : α)
  | bad
  | wait (p : W64) (va : Nat) (m : Miss)
  deriving Repr

/-- A plain read of the context for acceptance (R394, check 0x7); `dead` is a page that Loam cannot back. -/
def acceptRead (s : State) (ctx : Nat) (dead : Option Nat) (p : W64) (n : Nat) : State × AccRead (List Byte) :=
  match ptrRead s none ctx 0 p n with
  | (s, .ok (bs, pois)) => (s, if pois then .bad else .got bs)
  | (s, .error .region) => (s, .bad)
  | (s, .error (.miss va m)) => (s, if m = some 1 || dead = some (va / 4096) then .bad else .wait p va m)

/-- The window entries of a record, read in order. -/
def acceptWindows (ctx : Nat) (dead : Option Nat) (r : List Byte) :
    List Nat → State → State × AccRead (Sparse (W64 × Nat))
  | [], s => (s, .got [])
  | k :: rest, s =>
    match acceptRead s ctx dead (windowEntry r k) 16 with
    | (s, .got bs) =>
      if 524288 < recF bs 8 4 || recF bs 12 4 != 0 || recF bs 0 8 % 4 != 0 then (s, .bad)
      else
        match acceptWindows ctx dead r rest s with
        | (s, .got ws) => (s, .got ((k, BitVec.ofNat 64 (recF bs 0 8), recF bs 8 4) :: ws))
        | x => x
    | (s, .bad) => (s, .bad)
    | (s, .wait p va m) => (s, .wait p va m)

/-- The reads of R392: the uniform image and the windows. -/
def acceptReads (s : State) (ctx : Nat) (dead : Option Nat) (r : List Byte) :
    State × AccRead (List W64 × Sparse (W64 × Nat)) :=
  let n := recF r 0x5E 1
  let img : State × AccRead (List Byte) :=
    if n = 0 then (s, .got []) else acceptRead s ctx dead (BitVec.ofNat 64 (recF r 0x10 8)) (8 * n)
  match img with
  | (s, .got bs) =>
    match acceptWindows ctx dead r (recWindows r) s with
    | (s, .got ws) => (s, .got ((List.range n).map (fun i => BitVec.ofNat 64 (recF bs (8 * i) 8)), ws))
    | (s, .bad) => (s, .bad)
    | (s, .wait p va m) => (s, .wait p va m)
  | (s, .bad) => (s, .bad)
  | (s, .wait p va m) => (s, .wait p va m)

/-- The copy of an accepted record. -/
def Launch.ofRecord (s : State) (ctx q : Nat) (r : List Byte) (uimg : List W64) (windows : Sparse (W64 × Nat))
    (parent : Option Nat) : Launch :=
  let w (off : Nat) : W64 := BitVec.ofNat 64 (recF r off 8)
  { ctx := ctx, queue := q, prio := ctlBits s (lqReg q 0) 59 3, order := s.acceptOrder
    entry := w 0, seed := w 8, crec := w 0x20, naddr := w 0x28, ndata := BitVec.ofNat 32 (recF r 0x38 4), saveb := w 0x30
    ngrp := [recF r 0x3C 4, recF r 0x40 4, recF r 0x44 4], wgsz := [recF r 0x48 2, recF r 0x4A 2, recF r 0x4C 2]
    vcnt := recF r 0x4E 2, gcnt := recF r 0x50 1, qcnt := recF r 0x51 1, acnt := recF r 0x52 1, gang := recF r 0x53 1
    ks := recF r 0x54 2, tdepth := recF r 0x56 1, payw := recF r 0x57 1, stash := recF r 0x58 4
    itag := BitVec.ofNat 12 (recF r 0x5C 2), eclass := recF r 0x60 1
    dclamp := (recF r 0x61 1).testBit 0, depw := (recF r 0x61 1).testBit 1, child := parent.isSome
    nhost := (recF r 0x61 1).testBit 3, prods := recProds r, uimg := uimg, windows := windows
    depth := ((parent.bind (fun p => sget p s.launches)).map (fun l => l.depth + 1)).getD 0, parent := parent
    nextGang := 0, status := 0, nwg := 0, nkill := 0, nsave := 0, nmig := 0, start := none, finish := (0, 0), energy := 0
    trig := [], done := 0, completed := false, recorded := false, page := none }

/-- Changes the submission page through which an entry of a queue came, which is then taken from its list. -/
def takePageEntry (s : State) (q e : Nat) (f : SubPage → SubPage) : State :=
  { s with subPages := s.subPages.map (fun p =>
      (p.1, if p.2.queue = q && p.2.entries.contains e then f { p.2 with entries := p.2.entries.filter (· != e) } else p.2)) }

/-- The head entry leaves the ring; what waits for room is tried again. -/
def advanceHead (s : State) (q e : Nat) : State :=
  let s := { s with queueRot := (q + 1) % 64, queueWait := sdel q s.queueWait }
  retryMem (ctlWr s (lqReg q 0x18) (BitVec.ofNat 64 ((e + 1) % 2 ^ 32))) none

/-- A record is discarded with a subcode (R394, R395). -/
def discardEntry (s : State) (q e sub : Nat) : State :=
  let s := takePageEntry (lqNote s q sub 1) q e (fun p => { p with last := BitVec.ofNat 8 sub })
  advanceHead (answerParts s q (· = e) 0) q e

/-- The launch of the `launch` instruction whose record stands in an entry of a queue. -/
def entryParent (s : State) (q e : Nat) : Option Nat :=
  s.ops.findSome? (fun o =>
    match o.2.kind with
    | .launch q' parts => if q' = q && parts.any (fun p => p.entry = some e) then (sget o.2.wave s.waves).map (·.launch) else none
    | _ => none)

/-- Whether a context takes part in placement. -/
def ctxPlaces (s : State) (ctx : Nat) : Bool := (sget ctx s.contexts).any (fun c => !c.killed && c.destroy.isNone)

/-- A record is accepted (R396, steps 2 to 5). Nothing read of the context's code and constants before stays in a cache (R87, R167).
The launch of a context that was killed or is being destroyed ends at once, as its others did (R409, R430). -/
def acceptEntry (s : State) (ctx q e : Nat) (r : List Byte) (uimg : List W64) (windows : Sparse (W64 × Nat)) : State :=
  let l := Launch.ofRecord s ctx q r uimg windows (entryParent s q e)
  let n := s.nextLaunch
  let s := { s with
    launches := sput n l s.launches, nextLaunch := if n + 1 = 2 ^ 32 then 1 else n + 1, acceptOrder := s.acceptOrder + 1
    cores := s.cores.map (fun c => (c.1, { c.2 with icache := c.2.icache.filter (fun x => x.ctx != ctx)
                                                    ccache := c.2.ccache.filter (fun x => x.ctx != ctx) })) }
  let s := if l.itag = 0 then s else tagHold s ctx l.itag.toNat
  let s := takePageEntry s q e id
  let s := if ctxPlaces s ctx then s else killLaunch s n 4
  advanceHead (answerParts s q (· = e) (BitVec.ofNat 32 n)) q e

/-- Whether a queue offers an entry: operational, within bounds, and not waiting for a page. -/
def lqOffers (s : State) (q : Nat) : Bool :=
  lqOperational s q && 1 ≤ lqCount s q && lqCount s q ≤ 2 ^ lqLog s q && !(sget q s.queueWait).any (fun w => !w.2.2)

/-- The queue from which the next entry is taken (R396). -/
def nextQueue (s : State) : Option Nat := ((List.range 64).map (fun i => (s.queueRot + i) % 64)).find? (lqOffers s)

/-- The head entry of a queue is checked, and accepted or discarded, or waits for a page. A record of a context that is not valid, or a
poisoned one of a context that is already killed, fails check 0x7 (DESIGN CHOICE, log 39). -/
def takeEntry (s : State) (q : Nat) : State :=
  let ctx := ctlBits s (lqReg q 0) 38 16
  let e := lqHead s q
  let a := lqEntry s q e
  let dead := (sget q s.queueWait).map (·.2.1)
  let rb := readBytes s (addrs a 128)
  let s := rb.1
  if (sget ctx s.contexts).isNone || (rb.2.2 && (sget ctx s.contexts).any (·.killed)) then discardEntry s q e 7
  else if rb.2.2 then killContext s ctx { SupEvent.zero s 0x01 with cause := 4, addr := BitVec.ofNat 64 a }
  else
    match recCheck s ctx rb.2.1 with
    | some sub => discardEntry s q e sub
    | none =>
      match acceptReads s ctx dead rb.2.1 with
      | (s, .got x) => acceptEntry s ctx q e rb.2.1 x.1 x.2
      | (s, .bad) => discardEntry s q e 7
      | (s, .wait p va m) =>
        let s := reportMiss s ctx 0 0 0 (ptrRid p) va m
        { s with queueWait := sput q (ctx, va / 4096, false) s.queueWait }

/-- LAUNCH_ACCEPT (R396): the dispatch unit takes one entry. -/
def execLaunchAccept (s : State) : Answer :=
  match nextQueue s with
  | some q => .next (takeEntry s q)
  | none => .next s

/-! ### Host submission (R397, R398) -/

/-- A submission page that is unbound and has counted nothing. -/
def freshPage : SubPage := { ctx := 65536, queue := 65535, queued := 0, discarded := 0, last := 0, entries := [] }

/-- A submission page. -/
def pageOf (s : State) (p : Nat) : SubPage := (sget p s.subPages).getD freshPage

/-- Whether a write to the slot of a page is appended. -/
def pageRoom (s : State) (p : SubPage) : Bool :=
  p.queue < 64 && lqAccepts s p.queue p.ctx && lqCount s p.queue < 2 ^ lqLog s p.queue

/-- SUBMISSION_WRITE (R398): a deferrable memory write of 128 bytes to a page's slot. -/
def execSubmissionWrite (page : Nat) (data : List Byte) (s : State) : Answer :=
  let p := pageOf s page
  if page < 256 && data.length = 128 && pageRoom s p then
    let e := lqTail s p.queue
    let s := lqAppend s p.queue data
    .next { s with subPages := sput page { p with queued := p.queued + 1, entries := p.entries ++ [e] } s.subPages
                   out := s.out ++ [.submission true] }
  else .next { s with out := s.out ++ [.submission false] }

/-- SUBMISSION_PAGE_DISCARD (R398): any other write to a page. -/
def execSubmissionPageDiscard (page : Nat) (s : State) : Answer :=
  if page < 256 then
    let p := pageOf s page
    .next { s with subPages := sput page { p with discarded := p.discarded + 1 } s.subPages }
  else .next s

/-- `sp.stat` of a page (R397). -/
def spStat (s : State) (page : Nat) : W64 :=
  let p := pageOf s page
  p.queued ++ p.discarded ++ (0 : BitVec 8) ++ p.last

/-- `sp.free` of a page (R397): the free entries of its queue; 0 where the page answers as for a full queue. -/
def spFree (s : State) (page : Nat) : Nat :=
  let p := pageOf s page
  if pageRoom s p then 2 ^ lqLog s p.queue - lqCount s p.queue else 0

/-! ### What a gang needs and a cluster has (R402, R407) -/

/-- A candidate (R403): launch, gang index, effective priority, saved or not, and acceptance order. -/
structure Seeker where
  launch : Nat
  idx : Nat
  eff : Nat
  saved : Bool
  order : Nat
  deriving DecidableEq, Repr

/-- The gang's key. -/
def Seeker.key (c : Seeker) : Nat := key2 c.launch c.idx

/-- Of each member its waves and vector-file words: those of R402 for a saved gang too, whatever it had left. -/
def shapeOf (c : Seeker) (l : Launch) : List (Nat × Nat) := List.replicate (membersOf l c.idx) (launchWaves l, 32 * l.vcnt * launchWaves l)

/-- Free wave slots and vector-file words of a core. -/
def coreFree (s : State) (c : Nat) : Nat × Nat × Nat :=
  let words := ((s.wgs.filter (fun g => g.2.core = c && !g.2.retired)).map (fun g =>
    ((sget (g.1 / 2 ^ 32) s.launches).map (fun l => 32 * l.vcnt * launchWaves l)).getD 0)).sum
  (c, 64 - (s.waves.filter (fun w => coreNo w.1 = c)).length, 262144 - words)

/-- Gangs that hold resources of a cluster. -/
def onCluster (s : State) (cl : Nat) : List (Nat × Gang) :=
  s.gangs.filter (fun g => g.2.cluster = cl && !g.2.cores.isEmpty)

/-- The launch of a gang's key. -/
def keyLaunch (s : State) (gk : Nat) : Option Launch := sget (gk / 2 ^ 32) s.launches

/-- Accumulator tiles in use on a cluster (R34). -/
def accUsed (s : State) (cl : Nat) : Nat :=
  ((s.waves.filter (fun w => coreNo w.1 / 4 = cl)).map (fun w => ((launchOf s w.1).map (·.acnt)).getD 0)).sum

/-- Stash bytes in use on a cluster. -/
def stashUsed (s : State) (cl : Nat) : Nat :=
  ((onCluster s cl).map (fun g => ((keyLaunch s g.1).map (fun l => membersOf l (g.1 % 2 ^ 32) * stashSize l)).getD 0)).sum

/-- The lowest run of free Kaolin slots of a cluster (R210). -/
def kaolinRun (s : State) (cl n : Nat) : Option Nat :=
  let used := (onCluster s cl).map (fun g => (g.2.ksBase, ((keyLaunch s g.1).map (·.ks)).getD 0))
  (List.range (129 - n)).find? (fun b => used.all (fun u => u.2 = 0 || n = 0 || b + n ≤ u.1 || u.1 + u.2 ≤ b))

/-- WATT and HREQ of an energy class (R406). -/
def classWatt (s : State) (e : Nat) : Nat := ctlBits s (0x720008 + 8 * e) 0 16
def classHeadroom (s : State) (e : Nat) : Nat := ctlBits s (0x720008 + 8 * e) 16 16

/-- Whether a member may be given a core: sampled, not hot, with headroom (R406 to R408). -/
def coreCool (s : State) (e c : Nat) : Bool :=
  match (coreOf s c).temp with
  | some t => !(coreOf s c).hot && t + classHeadroom s e ≤ ctlBits s 0x720048 0 16
  | none => false

/-- Whether a gang fits a cluster: the cores given to its members and its first Kaolin slot (R402, R404, R405, R407). -/
def fits (s : State) (c : Seeker) (l : Launch) (cl : Nat) : Option (List Nat × Nat) :=
  let clu := sgetD Cluster.reset s.clusters cl
  let shape := shapeOf c l
  let busy := (onCluster s cl).any (fun g => g.2.state == .saving || g.2.state == .restoring)
  let barred := (sget c.key s.gangs).any (fun g => g.excluded = some cl)
  let power := ctlBits s 0x720058 0 32 + membersOf l c.idx * classWatt s l.eclass ≤ ctlBits s 0x720000 0 16
    && s.sensors.power ≤ ctlBits s 0x720000 0 16
  if busy || barred || !power || !clu.reserved.all (fun r => r = (c.launch, c.idx))
      || 64 < accUsed s cl + (shape.map (·.1)).sum * l.acnt
      || 2097152 < stashUsed s cl + membersOf l c.idx * stashSize l then none
  else
    match assign shape ((List.range 4).map (fun i => coreFree s (4 * cl + i))), kaolinRun s cl l.ks with
    | some cores, some ks => if cores.all (coreCool s l.eclass) then some (cores, ks) else none
    | _, _ => none

/-- The lowest-numbered of some clusters that a gang fits. -/
def firstFit (s : State) (c : Seeker) (l : Launch) (cls : List Nat) : Option (Nat × List Nat × Nat) :=
  cls.findSome? (fun cl => (fits s c l cl).map (fun x => (cl, x)))

/-! ### Candidates (R353, R403) -/

/-- Whether every producer of a launch has its workgroups placed or retired (R353); those of a saved gang are not placed (R417). -/
def producersPlaced (s : State) (l : Launch) : Bool :=
  l.prods.all (fun p => (sget p s.launches).all (fun x => gangCount x ≤ x.nextGang)
    && !s.gangs.any (fun g => g.1 / 2 ^ 32 = p && (g.2.state == .held || g.2.state == .ready)))

/-- Passes of a candidate so far. -/
def passesOf (s : State) (gk : Nat) : Nat := ((sget gk s.gangs).map (·.passes)).getD 0

/-- A gang as a candidate. -/
def seeker (s : State) (n : Nat) (l : Launch) (idx : Nat) (saved : Bool) : Seeker :=
  { launch := n, idx := idx, saved := saved, order := l.order
    eff := if 16 ≤ passesOf s (key2 n idx) then 8 else ctlBits s (lqReg l.queue 0) 59 3 }

/-- The oldest launch of a queue with gangs not yet placed. -/
def queueHead (s : State) (q : Nat) : Option (Nat × Launch) :=
  (s.launches.filter (fun e => e.2.queue = q && e.2.nextGang < gangCount e.2)).foldl (fun best e =>
    match best with
    | none => some e
    | some b => if e.2.order < b.2.order then some e else some b) none

/-- The candidates of R403. -/
def seekers (s : State) : List Seeker :=
  (List.range 64).filterMap (fun q =>
    if ctlBits s (lqReg q 0) 63 1 = 0 then none
    else
      match queueHead s q with
      | some (n, l) => if producersPlaced s l && ctxPlaces s l.ctx then some (seeker s n l l.nextGang false) else none
      | none => none)
  ++ s.gangs.filterMap (fun g =>
    match keyLaunch s g.1 with
    | some l => if g.2.state == .ready && ctxPlaces s l.ctx then some (seeker s (g.1 / 2 ^ 32) l (g.1 % 2 ^ 32) true) else none
    | none => none)

/-- Whether a candidate ranks above another (R403). -/
def Seeker.above (a b : Seeker) : Bool :=
  if a.eff != b.eff then b.eff < a.eff
  else if a.saved != b.saved then a.saved
  else if a.order != b.order then a.order < b.order
  else a.idx < b.idx

/-- A list of candidates with one more, in rank order. -/
def insertRank (c : Seeker) : List Seeker → List Seeker
  | [] => [c]
  | d :: l => if c.above d then c :: d :: l else d :: insertRank c l

/-- The candidates in rank order. -/
def ranked (s : State) : List Seeker := (seekers s).foldl (fun l c => insertRank c l) []

/-! ### Placement (R47, R349, R404, R405) -/

/-- A gang record before placement. -/
def Gang.new : Gang :=
  { state := .unplaced, cluster := 0, cores := [], stash := [], stashPois := [], kaolin := [], kaolinPois := [], ksBase := 0, estimate := 0
    windows := [], abort := false, passes := 0, resident := 0, migrating := false, excluded := none, holdAfter := false, saved := none }

/-- The fibres of wave `i` of a workgroup of `n` fibres. -/
def newFibres (l : Launch) (n i : Nat) : Sparse Fibre :=
  (List.range (min 32 (n - 32 * i))).map (fun x => (x, Fibre.new (BitVec.ofNat 32 (32 * i + x)) l.entry l.itag 0))

/-- A wave as a launch creates it (R47). -/
def newWave (n : Nat) (l : Launch) (wg i : Nat) : Wave :=
  { launch := n, wg := wg, widx := i, fibres := newFibres l (l.wgsz.foldl (· * ·) 1) i
    g := (l.uimg.zipIdx.filter (fun e => e.1 != 0)).map (fun e => (e.2, { val := e.1, poisLo := false, poisHi := false }))
    flags := [], accs := [], sptrap := false, forkSerial := 0, stall := [], issueNo := 0, clause := none, yieldPc := none, park := none
    page := none, issued := none, paired := none }

/-- Puts waves on a core, each at its lowest free slot: the keys they take. -/
def putWaves (core : Nat) : List Wave → State → State × List Nat
  | [], s => (s, [])
  | w :: rest, s =>
    match (List.range 64).find? (fun i => (sget (64 * core + i) s.waves).isNone) with
    | none => (s, [])
    | some i =>
      let r := putWaves core rest { s with waves := sput (64 * core + i) w s.waves }
      (r.1, (64 * core + i) :: r.2)

/-- Creates a workgroup of a launch on a core. -/
def createGroup (s : State) (n : Nat) (l : Launch) (wg core : Nat) : State :=
  let r := putWaves core ((List.range (launchWaves l)).map (newWave n l wg)) s
  let z : Workgroup := { core := core, waves := r.2, tiles := [], retired := false, stalls := [] }
  let s := { r.1 with wgs := sput (key2 n wg) z r.1.wgs }
  if l.itag = 0 then s
  else (List.range (l.wgsz.foldl (· * ·) 1)).foldl (fun s _ => tagHold s l.ctx l.itag.toNat) s

/-- Places an unplaced gang. -/
def placeNew (s : State) (c : Seeker) (l : Launch) (cl : Nat) (cores : List Nat) (ks : Nat) : State :=
  let est := membersOf l c.idx * classWatt s l.eclass
  let g := { Gang.new with state := .resident, cluster := cl, cores := cores, ksBase := ks, estimate := est }
  let s := addUsed { s with gangs := sput c.key g s.gangs } est 0
  let s := (cores.zipIdx).foldl (fun s m => createGroup s c.launch l (l.gang * c.idx + m.2) m.1) s
  let first := cores.headD 0
  modLaunch s c.launch (fun l => { l with
    nextGang := l.nextGang + 1, start := some (l.start.getD (first, (coreOf s first).clock.toNat)) })

/-- Places a saved gang: it is restored from then on (R416). -/
def placeSaved (s : State) (c : Seeker) (l : Launch) (cl : Nat) (cores : List Nat) (ks : Nat) : State :=
  let est := membersOf l c.idx * classWatt s l.eclass
  addUsed (modGang s c.key (fun g => { g with
    state := .restoring, cluster := cl, cores := cores, ksBase := ks, estimate := est, passes := 0 })) est 0

/-- A reservation for a gang ends. -/
def unreserve (s : State) (c : Seeker) : State :=
  { s with clusters := s.clusters.map (fun e => (e.1, if e.2.reserved = some (c.launch, c.idx) then { e.2 with reserved := none } else e.2)) }

/-- A candidate is passed over by a placement on a cluster (R404, R405). -/
def passOver (cl : Nat) (s : State) (h : Seeker) : State :=
  let g := (sget h.key s.gangs).getD Gang.new
  let s := { s with gangs := sput h.key { g with passes := g.passes + 1 } s.gangs }
  if g.passes + 1 = 32 && !s.clusters.any (fun e => e.2.reserved = some (h.launch, h.idx)) then
    { s with clusters := sput cl { sgetD Cluster.reset s.clusters cl with reserved := some (h.launch, h.idx) } s.clusters }
  else s

/-- One step over the candidates in rank order: those already met are passed over by the first that fits. -/
def placeFirst (met : List Seeker) : List Seeker → State → State
  | [], s => s
  | c :: rest, s =>
    match sget c.launch s.launches with
    | none => placeFirst met rest s
    | some l =>
      match firstFit s c l (List.range 32) with
      | none => placeFirst (met ++ [c]) rest s
      | some (cl, cores, ks) =>
        let s := met.foldl (passOver cl) (unreserve s c)
        if c.saved then placeSaved s c l cl cores ks else placeNew s c l cl cores ks

/-- GANG_PLACEMENT_STEP (R404). -/
def execGangPlacementStep (s : State) : Answer := .next (placeFirst [] (ranked s) s)

/-! ### The power governor (R406 to R408) -/

/-- Takes a sample of a core's temperature. -/
def sampleCore (s : State) (c t : Nat) : State :=
  let thot := ctlBits s 0x720048 0 16
  let hyst := ctlBits s 0x720050 0 16
  modCore s c (fun k => { k with temp := some t, hot := if thot ≤ t then true else if t + hyst < thot then false else k.hot })

/-- `pg.hot` (R406). -/
def pgHot (s : State) (half : Nat) : W64 :=
  BitVec.ofNat 64 (((List.range 64).filter (fun i => (coreOf s (64 * half + i)).hot)).map (2 ^ ·)).sum

/-- The state and key of a save that starts (R411). -/
def startSave (s : State) (gk : Nat) (hold : Bool) (away : Option Nat) : State :=
  modGang s gk (fun g => { g with
    state := .saving, holdAfter := hold, migrating := away.isSome, migClock := away.map (fun _ => s.ioClock), excluded := away })

/-- OP 3 takes over a save that a migration of the same clock started: the gang ends Held (R418). -/
def takeOver (s : State) (gk : Nat) : State :=
  modGang { s with migration := none } gk (fun g => { g with holdAfter := true, migrating := false, migClock := none, excluded := none })

/-- Whether a gang may migrate (R408). -/
def mayMigrate (s : State) (gk : Nat) (g : Gang) : Bool :=
  match keyLaunch s gk with
  | some l =>
    g.state == .resident && !g.abort && g.cores.any (fun c => (coreOf s c).hot) && 2 ^ 21 ≤ g.resident && l.saveb != 0
      && (firstFit s (seeker s (gk / 2 ^ 32) l (gk % 2 ^ 32) false) l ((List.range 32).filter (· != g.cluster))).isSome
  | none => false

/-- The gang that migrates next: the longest resident, of equals the first. -/
def migrant (s : State) : Option Nat :=
  ((s.gangs.filter (fun e => mayMigrate s e.1 e.2)).foldl (fun best e =>
    match best with
    | none => some e
    | some b => if b.2.resident < e.2.resident then some e else some b) none).map (·.1)

/-- GOVERNOR_SAMPLE (R406, R408, R485): the temperatures of the cores, in 1/8 °C, and the measured power, in 1/16 W. -/
def execGovernorSample (temps : List Nat) (power : Nat) (s : State) : Answer :=
  let s := (temps.take 128).zipIdx.foldl (fun s t => sampleCore s t.2 t.1) s
  let s := { s with sensors := { s.sensors with power := power } }
  if s.migration.isSome then .next s
  else
    match migrant s with
    | some gk =>
      let here := ((sget gk s.gangs).map (·.cluster)).getD 0
      .next { startSave s gk false (some here) with migration := some (gk / 2 ^ 32, gk % 2 ^ 32) }
    | none => .next s

/-! ### Dispatch commands (R409, R410, R422) -/

/-- A register of a Loam core's command block. -/
def dpReg (k r : Nat) : Nat := 0x710000 + 0x20 * k + r

/-- A write of `dp.cmd`: with GO, the command of OP runs on the context and answers its status, and GO then reads 0. A write
while a command is in progress has no effect. -/
def dpCommand (k : Nat) (v : W64) (op : Nat) (s : State) (run : State → Nat → State × Nat) : State :=
  if bits v.toNat 0 3 != op || ctlBits s (dpReg k 0x10) 63 1 = 1 then s
  else
    let s := ctlWr s (dpReg k 0x10) (v &&& 0x7FFFF)
    if !v.getLsbD 63 then s
    else
      let r := run s (bits v.toNat 3 16)
      ctlWr r.1 (dpReg k 0x18) (BitVec.ofNat 64 r.2)

/-- The arguments of a command. -/
def dpArg0 (s : State) (k : Nat) : Nat := (ctlRd s (dpReg k 0)).toNat
def dpArg1 (s : State) (k : Nat) : Nat := (ctlRd s (dpReg k 8)).toNat

/-- A translation block that OP 1 takes (R325). -/
def transGood (tb : Nat) : Bool :=
  tb.testBit 0 && bits tb 384 128 = 0 && bits tb 308 12 = 0 && bits tb 192 12 = 0 && bits tb 209 7 = 0 && bits tb 145 7 = 0
    && bits tb 128 12 = 0 && bits tb 52 12 = 0 && bits tb 1 11 = 0
    && 6 ≤ bits tb 295 5 && bits tb 295 5 ≤ 20 && 10 ≤ bits tb 140 5 && bits tb 140 5 ≤ 24

/-- A trap block that OP 1 takes (R422). -/
def trapBlockGood (b : List Byte) : Bool :=
  let h := recF b 0 8
  let log := recF b 0x18 1
  bits h 57 7 = 0 && bits h 0 3 = 0 && bits (recF b 8 8) 0 12 = 0 && 4 ≤ log && log ≤ 16 && recF b 0x10 8 % (64 * 2 ^ log) = 0
    && recF b 0x19 1 ≤ 15 && recF b 0x1A 2 = 0 && recF b 0x24 28 = 0

/-- DP_CREATE_CONTEXT (R409, OP 1). -/
def execDpCreateContext (k : Nat) (v : W64) (s : State) : Answer :=
  .next (dpCommand k v 1 s (fun s ctx =>
    let pa := dpArg0 s k
    if (sget ctx s.contexts).isSome then (s, 1)
    else if pa % 256 != 0 || memEnd ≤ pa then (s, 2)
    else
      let b := readBytes s (addrs pa 128)
      if !transGood (fromBytesLE (b.2.1.take 64)) || !trapBlockGood (b.2.1.drop 64) then (b.1, 2)
      else
        let c : Context :=
          { recPa := pa, tags := [], waiters := [], overrun := false, killed := false, killEvent := none, destroy := none }
        ({ b.1 with contexts := sput ctx c b.1.contexts }, 0)))

/-- DP_DESTROY_CONTEXT (R409, OP 2): GO reads 1 until the completion records have been written. Submission pages bound to the context
are unbound, and their counts, the context's state, are given up (R2, R397). -/
def execDpDestroyContext (k : Nat) (v : W64) (s : State) : Answer :=
  .next (dpCommand k v 2 s (fun s ctx =>
    match sget ctx s.contexts with
    | none => (s, 1)
    | some c =>
      if c.destroy.isSome then (s, 1)
      else
        let s := ctlWr s (dpReg k 0x10) (v &&& 0x800000000007FFFF)
        let s := { s with contexts := sput ctx { c with destroy := some k } s.contexts
                          subPages := s.subPages.filter (fun p => p.2.ctx != ctx) }
        (afterRecords (endContext s ctx) ctx, 0)))

/-- The launch that a command names: it was accepted, and belongs to the context. -/
def dpLaunch (s : State) (k ctx : Nat) : Option (Nat × Launch) :=
  (sget (dpArg0 s k) s.launches).bind (fun l => if l.ctx = ctx then some (dpArg0 s k, l) else none)

/-- A command about a gang: status 2 where the launch or the index is wrong. -/
def dpGang (k : Nat) (run : State → Nat → Launch → Option Gang → State × Nat) (s : State) (ctx : Nat) : State × Nat :=
  match dpLaunch s k ctx with
  | none => (s, 2)
  | some (n, l) =>
    if gangCount l ≤ dpArg1 s k then (s, 2)
    else run s (key2 n (dpArg1 s k)) l (sget (key2 n (dpArg1 s k)) s.gangs)

/-- DP_SAVE_GANG (R409, OP 3). -/
def execDpSaveGang (k : Nat) (v : W64) (s : State) : Answer :=
  .next (dpCommand k v 3 s (dpGang k (fun s gk l g =>
    if l.saveb = 0 then (s, 1)
    else if g.any (fun g => g.state == .saving && g.migrating && g.migClock = some s.ioClock) then (takeOver s gk, 0)
    else if g.any (fun g => g.state == .resident && !g.abort) then (startSave s gk true none, 0)
    else (s, 1))))

/-- DP_RELEASE_GANG (R409, OP 4). -/
def execDpReleaseGang (k : Nat) (v : W64) (s : State) : Answer :=
  .next (dpCommand k v 4 s (dpGang k (fun s gk _ g =>
    if g.any (·.state == .held) then (modGang s gk (fun g => { g with state := .ready, passes := 0 }), 0) else (s, 1))))

/-- DP_KILL_LAUNCH (R409, OP 5). -/
def execDpKillLaunch (k : Nat) (v : W64) (s : State) : Answer :=
  .next (dpCommand k v 5 s (fun s ctx =>
    match dpLaunch s k ctx with
    | none => (s, 2)
    | some (n, l) => if l.completed then (s, 1) else (killLaunch s n 2, 0)))

/-- DP_BIND_PAGE (R409, OP 6): queue 0xFFFF unbinds. The counts of a page start afresh with another context (R2, R397). -/
def execDpBindPage (k : Nat) (v : W64) (s : State) : Answer :=
  .next (dpCommand k v 6 s (fun s ctx =>
    let page := dpArg0 s k
    let q := dpArg1 s k
    if 256 ≤ page then (s, 2)
    else if q = 65535 then
      ({ s with subPages := s.subPages.map (fun e => (e.1, if e.1 = page then { e.2 with queue := 65535, entries := [] } else e.2)) }, 0)
    else if 64 ≤ q || ctlBits s (lqReg q 0) 38 16 != ctx then (s, 2)
    else
      let p := if (pageOf s page).ctx = ctx then pageOf s page else freshPage
      ({ s with subPages := sput page { p with ctx := ctx, queue := q, entries := [] } s.subPages }, 0)))

/-- A write of `dp.cmd` with a reserved OP is refused (R409). -/
def dpReserved (k : Nat) (v : W64) (s : State) : State := dpCommand k v (bits v.toNat 0 3) s (fun s _ => (s, 1))

end Sys2Proof.Machine
end

