-- ==== Sys2Proof/Machine/SaveRestore.lean ====
section
/-! DEFINITION. Saving a gang into its save area and restoring it from there (R411 to R418). -/

namespace Sys2Proof.Machine

/-! ### Settling what is in flight (R412) -/

/-- Waves of a gang drop a clause that has not started (R411, step 1). -/
def dropUnstarted (s : State) (gk : Nat) : State :=
  (wavesOf s gk).foldl (fun s wk => modWave s wk (fun w =>
    if w.clause.any (·.started) then w else { w with clause := none, page := none, paired := none })) s

/-- Whether what an operation holds is abandoned at a save: loads, atomics, fills of window lines for accesses to the stash, and the
records of a `launch`. -/
def OpKind.abandons : OpKind → Bool
  | .load _ _ _ => true
  | .store held => held.any (·.stash)
  | .ldmc _ _ _ _ _ _ => true
  | .launch _ _ => true
  | _ => false

/-- Fibres held on an operation that is abandoned for them stand at their instruction again. -/
def withdrawOp (s : State) (n : Nat) : State :=
  match sget n s.ops with
  | none => s
  | some o =>
    if !o.kind.abandons then s
    else
      let slots := ((sget o.wave s.waves).map (fun w => skeys (w.fibres.filter (fun e => e.2.blocked = some (.mem n))))).getD []
      let s := mapFibres s o.wave slots (fun _ f => { f with blocked := none })
      slots.foldl (fun s x => modOp s n (fun o => { o with slots := o.slots.filter (· != x), kind := o.kind.without x })) s

/-- Passes stop at a slab boundary (R225). -/
def suspendGang (s : State) (gk : Nat) : State :=
  (s.mats.filter (fun e => gangOf s e.2.wave = gk && e.2.isPass && !e.2.granted && e.2.susp.isNone && e.2.place != .queue)).foldl
    (fun s e => suspendMat s e.1 e.2 .save e.2.next) s

/-- Settles what a save abandons, withdraws or suspends. -/
def settleGang (s : State) (gk : Nat) : State :=
  let s := dropUnstarted s gk
  let s := (skeys (s.ops.filter (fun e => e.2.gang = gk))).foldl withdrawOp s
  let s := (wavesOf s gk).foldl dropIdle s
  let s := { s with contexts := s.contexts.map (fun c => (c.1, { c.2 with waiters := c.2.waiters.filter (fun w => gangOf s w.1 != gk) })) }
  suspendGang s gk

/-- Whether an operation goes on elsewhere while its gang is saved. -/
def OpKind.outlasts : OpKind → Bool
  | .capinv _ => true
  | .coll _ => true
  | _ => false

/-- Whether a matrix operation keeps a save from ending: it is in a pass, or adds no products and follows no pass that is
suspended or queued on its accumulator. -/
def matHolds (s : State) (n : Nat) (o : MatOp) : Bool :=
  o.granted || (!o.isPass && !s.mats.any (fun e => e.1 < n && e.2.wave = o.wave && e.2.isPass && e.2.accs.any o.accs.contains))

/-- Whether everything in flight of a gang is settled. -/
def gangSettled (s : State) (gk : Nat) : Bool :=
  (s.waves.filter (fun e => gangOf s e.1 = gk)).all (fun e => e.2.clause.isNone)
    && (s.ops.filter (fun e => e.2.gang = gk)).all (fun e => e.2.kind.outlasts)
    && (s.mats.filter (fun e => gangOf s e.2.wave = gk)).all (fun e => !matHolds s e.1 e.2)

/-! ### The end of a save (R411, R413 to R415) -/

/-- The Silt log entries of a gang, core by core, in order. -/
def gangSilt (s : State) (gk : Nat) : List SiltEntry :=
  (s.cores.map (fun c => c.2.silt.filter (fun e => gangKey s e.launch e.wg = gk))).flatten

/-- What the dispatch unit keeps of a gang beside its save area. -/
def collect (s : State) (gk : Nat) : Saved :=
  let waves := s.waves.filter (fun e => gangOf s e.1 = gk)
  { wgs := s.wgs.filter (fun e => gangKey s (e.1 / 2 ^ 32) (e.1 % 2 ^ 32) = gk)
    waves := waves.map (fun e => (e.1, { e.2 with issued := none, paired := none }))
    mats := s.mats.filter (fun e => gangOf s e.2.wave = gk)
    ops := s.ops.filter (fun e => e.2.gang = gk && (match e.2.kind with | .capinv _ => true | _ => false))
    silt := gangSilt s gk, credits := [] }

/-- Takes a gang off its cores: everything that `collect` keeps, its stash and its Kaolin slots. Collectives stay in flight, and name
the wave by 2^16 more than its key. -/
def takeOff (s : State) (gk : Nat) (v : Saved) : State :=
  let ws := skeys v.waves
  { s with
    waves := s.waves.filter (fun e => !ws.contains e.1)
    cur := if s.cur.any ws.contains then none else s.cur
    wgs := s.wgs.filter (fun e => !(skeys v.wgs).contains e.1)
    mats := s.mats.filter (fun e => !(skeys v.mats).contains e.1)
    clusters := s.clusters.map (fun c => (c.1, { c.2 with table := c.2.table.filter (fun e => !(skeys v.mats).contains e.2) }))
    ops := (s.ops.filter (fun e => !(skeys v.ops).contains e.1)).map (fun e =>
      (e.1, if e.2.gang = gk then { e.2 with wave := e.2.wave + 65536 } else e.2))
    cores := s.cores.map (fun c => (c.1, { c.2 with silt := c.2.silt.filter (fun e => !v.silt.contains e) })) }

/-- Writes an image to the pages of a save area, and the state byte last. -/
def writeArea (s : State) (pages : List Nat) (cells : List (Nat × Byte)) : State :=
  let s := pages.zipIdx.foldl (fun s p => writePage s p.1 (cells.filter (fun c => c.1 / 4096 = p.2))) s
  writeBytes s [(pages.headD 0 + 9, 1)] false

/-- The gang is saved: its resources are free, and it is Held or Ready (R411, step 5; R408, R417). -/
def nowSaved (s : State) (n k : Nat) (l : Launch) (g : Gang) (v : Saved) : State :=
  let gk := key2 n k
  let s := takeOff s gk v
  let s := modGang s gk (fun g => { g with
    state := if g.holdAfter then .held else .ready, cores := [], stash := [], kaolin := [], estimate := 0, passes := 0, saved := some v
    windows := g.windows.map (fun w => (w.1, { w.2 with lines := [] })) })
  let s := addUsed s 0 g.estimate
  let s := modLaunch s n (fun l => { l with nsave := l.nsave + 1, nmig := if g.migrating then l.nmig + 1 else l.nmig })
  let other := (firstFit s (seeker s n l k true) l ((List.range 32).filter (fun c => g.excluded != some c))).isSome
  if g.migrating && !other then modGang s gk (fun g => { g with excluded := none }) else s

/-- GANG_SAVE_COMPLETE (R411): what is in flight is settled, windows are written back, the image is written and the gang leaves its
cluster; until that is possible the save goes on. -/
def execGangSaveComplete (launch gang : Nat) (s : State) : Answer :=
  let gk := key2 launch gang
  match sget gk s.gangs, sget launch s.launches with
  | some g, some l =>
    if g.state != .saving then .next s
    else
      let s := settleGang s gk
      if !gangSettled s gk then .next s
      else
        match writeBackAll s gk with
        | (s, some _) => .next s
        | (s, none) =>
          match areaPages s l gang .write with
          | (s, .error _) => .next (areaFault s l launch)
          | (s, .ok pages) =>
            match sget gk s.gangs with
            | none => .next s
            | some g =>
              let s := (wavesOf s gk).foldl boundaries s
              let v := collect s gk
              let core := g.cores.headD 0
              let img := areaPieces l launch gang (coreOf s core).clock.toNat core g v.silt v.wgs v.waves v.mats (s.ops.filter (fun e => e.2.gang = gk))
              .next (nowSaved (writeArea s pages (pieceCells img)) launch gang l g v)
  | _, _ => .next s

/-! ### Restore (R416) -/

/-- The image of a save area, and whether it could be read. -/
def readArea (s : State) (l : Launch) (k : Nat) : State × Option (Sparse Byte × List Nat) :=
  match areaPages s l k .read with
  | (s, .error _) => (s, none)
  | (s, .ok pages) =>
    let r := pages.zipIdx.foldl (fun (acc : State × Sparse Byte) p =>
      let q := readPage acc.1 p.2 p.1
      (q.1, acc.2 ++ q.2)) (s, [])
    (r.1, some (r.2, pages))

/-- Where the block of a wave of gang k lies. -/
def waveBase (l : Launch) (k : Nat) (w : Wave) : Nat := 270336 + groupSize l * (w.wg - l.gang * k) + 256 + waveSize l * w.widx

/-- The waves of a saved gang as the image gives them; none where a slot state is undefined. -/
def wavesFrom (l : Launch) (k : Nat) (m : Sparse Byte) : Sparse Wave → Option (Sparse Wave)
  | [] => some []
  | e :: rest =>
    match waveFrom l m (waveBase l k e.2) e.2, wavesFrom l k m rest with
    | some w, some ws => some ((e.1, w) :: ws)
    | _, _ => none

/-- The tile registers of a member as its block gives them. -/
def bindsFrom (m : Sparse Byte) (base : Nat) : Sparse TileBind :=
  ((List.range 16).map (fun t => (t, imgF m (base + 8 * t) 8))).filterMap (fun e =>
    if e.2.testBit 32 then some (e.1, { base := bits e.2 0 16, fmt := BitVec.ofNat 5 (bits e.2 16 5), sparse := e.2.testBit 24 }) else none)

/-- The fibre of a saved gang that an entry names by its workgroup and its logical index: its wave and its slot. -/
def fibreNamed (waves : Sparse Wave) (wg : Nat) (lfi : W32) : Option (Nat × Nat) :=
  waves.findSome? (fun e => if e.2.wg = wg then (e.2.fibres.find? (fun f => f.2.lfi = lfi)).map (fun f => (e.1, f.1)) else none)

/-- An entry of the Silt section of an image (R336), for its fibre. What the layout does not give, the poison of the bytes, whether the
write is a release and what a fault record will say, is that of the saved entry of the same place, if it names the same fibre and block. -/
def siltEntryFrom (l : Launch) (n : Nat) (waves : Sparse Wave) (x : Nat) (old : Option SiltEntry) : SiltEntry :=
  let wg := bits x 736 32
  let lfi : W32 := BitVec.ofNat 32 (bits x 704 32)
  let addr := bits x 576 57
  let same := old.filter (fun e => e.wg = wg && e.lfi = lfi && e.addr / 64 = addr / 64)
  let at' := fibreNamed waves wg lfi
  { wave := ((at'.map (·.1)).or (same.map (·.wave))).getD ((skeys waves).headD 0)
    slots := (same.map (·.slots)).getD (at'.map (·.2)).toList
    infos := (same.map (·.infos)).getD ((at'.map (fun p => (p.2, 0xFF, 0, 0))).toList)
    ctx := l.ctx, launch := n, wg := wg, lfi := lfi, tag := BitVec.ofNat 12 (bits x 791 12), pc := BitVec.ofNat 64 (bits x 640 57)
    rid := bits x 633 7, addr := addr, mask := BitVec.ofNat 64 (bits x 512 64), data := BitVec.ofNat 512 (bits x 0 512)
    pois := same.any (·.pois), kred := x.testBit 806, rop := BitVec.ofNat 4 (bits x 807 4), ty := BitVec.ofNat 5 (bits x 811 5)
    scope := BitVec.ofNat 3 (bits x 803 3), pseq := bits x 816 16, rel := same.any (·.rel) }

/-- The Silt log entries that an image lists, in order. -/
def siltFrom (l : Launch) (n : Nat) (waves : Sparse Wave) (m : Sparse Byte) (count : Nat) (old : List SiltEntry) : List SiltEntry :=
  (List.range count).map (fun i => siltEntryFrom l n waves (imgF m (4096 + 128 * i) 128) old[i]?)

/-- The credits that an image lists, in order (R236). -/
def creditsFrom (m : Sparse Byte) (count : Nat) : List Credit :=
  (List.range count).map (fun i => { bar := imgF m (266240 + 16 * i) 4, bytes := imgF m (266240 + 16 * i + 4) 4 })

/-- The windows as their entries in the header give them, with every line absent (R181). -/
def windowsFrom (m : Sparse Byte) (ws : Sparse Window) : Sparse Window :=
  (ws.map (fun w =>
    let at' (o n : Nat) : Nat := imgF m (64 + 32 * w.1 + o) n
    (w.1, { w.2 with stash := at' 0 4, c := at' 4 4, ptr := BitVec.ofNat 64 (at' 8 8), tag := BitVec.ofNat 12 (at' 16 2)
                     wr := (at' 18 1).testBit 0, lines := [] })))

/-- What a restore takes from the image: the stash, the Kaolin slots, the windows, the members, their waves and matrix operations, the
Silt entries and the credits; none where the image is bad. -/
def fromImage (l : Launch) (n k : Nat) (m : Sparse Byte) (g : Gang) (v : Saved) : Option (Gang × Saved) :=
  let head := m.filter (fun c => c.1 < 4096)
  let silts := imgF head 10 2
  if 2048 < silts || 256 < imgF head 12 2 then none
  else
    match wavesFrom l k m v.waves with
    | none => none
    | some ws =>
      let part (lo n : Nat) : Sparse Byte := (m.filter (fun c => lo ≤ c.1 && c.1 < lo + n)).map (fun c => (c.1 - lo, c.2))
      let g := { g with stash := part (stashOff l) (l.gang * stashSize l), kaolin := part (kaolinOff l) (65536 * l.ks)
                        windows := windowsFrom head g.windows }
      let groups := m.filter (fun c => 270336 ≤ c.1)
      let binds (e : Nat × Workgroup) : Sparse TileBind :=
        if e.2.retired then [] else bindsFrom groups (270336 + groupSize l * (e.1 % 2 ^ 32 - l.gang * k))
      let silt := siltFrom l n ws (m.filter (fun c => 4096 ≤ c.1 && c.1 < 266240)) silts v.silt
      let mats := (v.waves.map (fun e => matsFrom (m.filter (fun c => waveBase l k e.2 ≤ c.1 && c.1 < waveBase l k e.2 + 1024)) (waveBase l k e.2)
        (v.mats.filter (fun o => o.2.wave = e.1)))).flatten.foldl (fun a e => sput e.1 e.2 a) []
      let credits := creditsFrom (m.filter (fun c => 266240 ≤ c.1 && c.1 < 270336)) (imgF head 12 2)
      some (g, { v with waves := ws, wgs := v.wgs.map (fun e => (e.1, { e.2 with tiles := binds e })), mats := mats, silt := silt
                        credits := credits })

/-- The wave keys that the members of a saved gang take on their new cores: old and new. -/
def newKeys (s : State) (l : Launch) (k : Nat) (cores : List Nat) : List (Nat × Wave) → List (Nat × Nat)
  | [] => []
  | e :: rest =>
    let core := cores.getD (e.2.wg - l.gang * k) 0
    match (List.range 64).find? (fun i => (sget (64 * core + i) s.waves).isNone) with
    | none => newKeys s l k cores rest
    | some i => (e.1, 64 * core + i) :: newKeys { s with waves := sput (64 * core + i) e.2 s.waves } l k cores rest

/-- The new key of a wave. -/
def keyed (keys : List (Nat × Nat)) (old : Nat) : Nat := ((keys.find? (fun e => e.1 = old)).map (·.2)).getD old

/-- Puts a saved gang's members, waves and operations on its new cores. -/
def putBack (s : State) (k : Nat) (l : Launch) (g : Gang) (v : Saved) (keys : List (Nat × Nat)) (gk : Nat) : State :=
  let s := { s with waves := v.waves.foldl (fun ws (e : Nat × Wave) => sput (keyed keys e.1) e.2 ws) s.waves }
  let group (e : Nat × Workgroup) : Workgroup :=
    { e.2 with core := g.cores.getD (e.1 % 2 ^ 32 - l.gang * k) 0, waves := e.2.waves.map (keyed keys) }
  let mat (o : MatOp) : MatOp :=
    { o with wave := keyed keys o.wave, granted := false, ahead := false, arrived := clusterClock s g.cluster, place := if o.susp.isSome then .held else .queue,
             susp := if o.susp == some .sparsity then some .sparsity else none }
  let s := { s with wgs := v.wgs.foldl (fun gs (e : Nat × Workgroup) => sput e.1 (group e) gs) s.wgs
                    mats := v.mats.foldl (fun ms (e : Nat × MatOp) => sput e.1 (mat e.2) ms) s.mats }
  let s := v.mats.foldl (fun s (e : Nat × MatOp) =>
    if e.2.isPass && e.2.susp.isSome && e.2.susp != some .sparsity then setSusp s { e.2 with wave := keyed keys e.2.wave } false none else s) s
  let move (o : Op) : Op := { o with wave := keyed keys (o.wave % 65536), core := coreNo (keyed keys (o.wave % 65536)) }
  let s := { s with ops := (v.ops.foldl (fun os (e : Nat × Op) => sput e.1 (move e.2) os)
    (s.ops.map (fun (e : Nat × Op) => (e.1, if e.2.gang = gk then move e.2 else e.2)))) }
  { s with reqs := s.reqs.map (fun (e : Nat × SenReq) => (e.1, if gangKey s e.2.launch e.2.wg = gk then { e.2 with wave := keyed keys e.2.wave } else e.2)) }

/-- The Silt entries join the logs of their fibres' new cores, in order. -/
def putSilt (s : State) (v : Saved) (keys : List (Nat × Nat)) : State :=
  v.silt.foldl (fun s e =>
    let wk := keyed keys e.wave
    modCore s (coreNo wk) (fun c => { c with silt := c.silt ++ [{ e with wave := wk }] })) s

/-- Tag holdings that the image changed: those of the fibres and the windows as saved are given up, and those of the gang as restored
are taken. -/
def moveTags (s : State) (ctx : Nat) (old new : List Nat) : State :=
  old.foldl (fun s t => tagDrop s ctx t) (new.foldl (fun s t => tagHold s ctx t) s)

/-- The tags that a gang's fibres and windows hold. -/
def heldTags (g : Gang) (v : Saved) : List Nat :=
  (v.waves.map (fun w => w.2.fibres.map (fun f => f.2.ct.toNat))).flatten ++ g.windows.map (fun w => w.2.tag.toNat)

/-- Held credits are applied, the answers of `capinv` requests that came meanwhile are written (R204), and collectives that ended
meanwhile complete (R236, R416). -/
def applyHeld (s : State) (gk : Nat) (v : Saved) : State :=
  let s := v.credits.foldl (fun s c => engineCredit s gk (some c.bar) c.bytes) s
  let s := (skeys (s.reqs.filter (fun e => gangKey s e.2.launch e.2.wg = gk && !e.2.orphan))).foldl giveAnswer s
  (skeys (v.ops.filter (fun e => match e.2.kind with | .coll _ => true | _ => false))).foldl endOp s

/-- Replies of Loam that came meanwhile are applied (R438), and `tagnew` requests made again (R254). -/
def resumeWaits (s : State) (ctx gk : Nat) : State :=
  let s := (wavesOf s gk).foldl (fun s wk =>
    match (sget wk s.waves).bind (·.park) with
    | some p => (match p.reply with | some r => unpark s wk p.reg r | none => s)
    | none => s) s
  let asks := ((s.waves.filter (fun e => gangOf s e.1 = gk)).map (fun e => (e.2.fibres.filter (fun f =>
    match f.2.blocked with | some (.tagnew _) => true | _ => false)).map (fun f => (e.1, f.1)))).flatten
  serveAll (modCtx s ctx (fun c => { c with waiters := c.waiters ++ asks })) ctx

/-- Blocked fibres of a gang evaluate their conditions afresh (R195). -/
def evaluate (s : State) (gk : Nat) : State :=
  let s := wakeGrids (wakeBars s gk)
  let s := (s.waves.filter (fun e => gangOf s e.1 = gk)).foldl (fun s e => e.2.fibres.foldl (fun s f => reread s e.1 f.1) s) s
  retryEverything s

/-- A stopped fibre goes on: at its instruction, with its checks waived, or past it (R459). -/
def Fibre.unstop (f : Fibre) (skip ll : Bool) : Fibre :=
  match skip, f.base with
  | true, some p => { f.advance p f.pc ll with blocked := none }
  | _, _ => { f with blocked := none, waive := !skip }

/-- Whether the instruction at an address is long-latency. -/
def longAt (s : State) (wk : Nat) (pc : W64) : Bool := ((peekWord s (coreNo wk) (ctxOf s wk) pc).map isLongWord).getD false

/-- Resumes of a debugger that came while the gang was saved are applied (R459). -/
def applyResumes (s : State) (gk : Nat) : State :=
  (wavesOf s gk).foldl (fun s wk => modWave s wk (fun w => { w with fibres := w.fibres.map (fun e =>
    match e.2.resumed with
    | some skip => (e.1, { e.2.unstop skip (longAt s wk e.2.pc) with resumed := none })
    | none => e) })) s

/-- The in-handler fibres of a gang: wave and slot. -/
def handlers (s : State) (gk : Nat) : List (Nat × Nat) :=
  ((s.waves.filter (fun e => gangOf s e.1 = gk)).map (fun e => (e.2.fibres.filter (fun f => !f.2.recs.isEmpty)).map (fun f => (e.1, f.1)))).flatten

/-- The gang is resident again. A gang that was aborted meanwhile ends (R417). -/
def nowResident (s : State) (launch gang : Nat) (l : Launch) (g : Gang) (v : Saved) (tags : List Nat) : State :=
  let gk := key2 launch gang
  let keys := newKeys s l gang g.cores v.waves
  let s := { s with gangs := sput gk { g with
    state := .resident, resident := 0, migrating := false, migClock := none, excluded := none, holdAfter := false, saved := none } s.gangs
                    migration := if s.migration = some (launch, gang) then none else s.migration }
  let s := putBack s gang l g v keys gk
  let s := moveTags s l.ctx tags (heldTags g v)
  let s := putSilt s v keys
  let s := resumeWaits (applyHeld s gk v) l.ctx gk
  if g.abort then strike s gk else evaluate (applyResumes (relocate s (handlers s gk)) gk) gk

/-- A restore that failed (R413, R416): its context is killed, and the gang, aborted with it, ends as the dispatch unit keeps it. -/
def restoreFailed (s : State) (launch gang : Nat) (l : Launch) : State :=
  match sget (key2 launch gang) s.gangs with
  | some g =>
    match g.saved with
    | some v => if g.abort then nowResident s launch gang l g v (heldTags g v) else s
    | none => s
  | none => s

/-- RESTORE_COMPLETE (R416, R417): a gang that is being restored is resident again, from what its save area holds. -/
def execRestoreComplete (launch gang : Nat) (s : State) : Answer :=
  let gk := key2 launch gang
  match sget gk s.gangs, sget launch s.launches with
  | some g, some l =>
    match g.state, g.saved with
    | .restoring, some v =>
      match readArea s l gang with
      | (s, none) => .next (restoreFailed (areaFault s l launch) launch gang l)
      | (s, some (m, pages)) =>
        match fromImage l launch gang m g v with
        | none =>
          let s := supPost s { SupEvent.zero s 0x03 with ctx := l.ctx, launch := launch, addr := l.saveb }
          .next (restoreFailed (killContext s l.ctx { SupEvent.zero s 0x01 with cause := 5, launch := launch, addr := l.saveb }) launch gang l)
        | some (h, u) => .next (nowResident (writeBytes s [(pages.headD 0 + 9, 0)] false) launch gang l h u (heldTags g v))
    | _, _ => .next s
  | _, _ => .next s

end Sys2Proof.Machine
end

