-- ==== Sys2Proof/Machine/ObserveEv.lean ====
section
/-! DEFINITION. What observes the kernels: the core clock and the stall counters (R23, R449 to R451), the sampler (R453 to
R455) and the energy meters (R461, R462). -/

namespace Sys2Proof.Machine

/-! ### Stall reasons (R450, R451) -/

/-- The resume point of the lowest live slot, or 0. -/
def lowestPc (w : Wave) : W64 := ((w.fibres.head?).map (·.2.pc)).getD 0

/-- Why the port or the pipe that an instruction needs is not free (R341). -/
def portReason (s : State) (wk : Nat) (i : Instr) : Option Nat :=
  let k := coreOf s (coreNo wk)
  let now := k.clock.toNat
  match form i with
  | none => none
  | some f =>
    let port (p : Option Nat) : Option Nat := if p.isSome then some 2 else none
    if usesMu i f then (if now < k.muPort then some 2 else none)
    else if f.cls = 2 then port (clusterOf s (coreNo wk / 4)).mxPort
    else if f.cls = 3 then port (clusterOf s (coreNo wk / 4)).cpPort
    else if f.cls = 0 || f.cls = 7 then (if 32 ≤ (k.pipes.filter (now < ·)).length then some 1 else none)
    else if f.cls = 4 then (if now < k.isuPort then some 2 else none)
    else if f.cls = 5 then (if now < k.txuPort then some 2 else none)
    else none

/-- Why the next instruction of a clause whose words are known does not issue. The second wave of a pair needs no resource of
its own (R347). -/
def clauseReason (s : State) (wk : Nat) (w : Wave) (c : Clause) : Nat :=
  let word := c.words.getD c.idx 0
  let i := decodeFields word
  let g := getGuard word
  let ll := isLongWord word
  match holdReason s wk w c i g.gp (bundleAt wk w c g ll).act with
  | some r => r
  | none =>
    if partnerHolds s wk w c i g ll then 3
    else if (firstOfPair s w).isSome then 0 else (portReason s wk i).getD 0

/-- The reason for a wave with an open clause, and the classified PC. -/
def openReason (s : State) (wk : Nat) (w : Wave) (c : Clause) : Nat × W64 :=
  let pc := c.hdr + 8 * (BitVec.ofNat 64 c.idx + 1)
  if !c.fetched then (7, pc)
  else if !c.started && !waitHolds w c.header then (6, c.hdr)
  else (clauseReason s wk w c, pc)

/-- The reason for a wave whose next choice would be a candidate: its clause is read as a fetch would. -/
def choiceReason (s : State) (wk : Nat) (w : Wave) (c : Cand) : Nat × W64 :=
  let idx := clauseIndex c.hdr c.pc
  let pc := c.hdr + 8 * (BitVec.ofNat 64 idx + 1)
  match c.word with
  | none => (7, pc)
  | some h =>
    let words := (List.range (bits h.toNat 0 4 + 1)).map (fun i =>
      peekWord s (coreNo wk) (ctxOf s wk) (c.hdr + 8 * (BitVec.ofNat 64 i + 1)))
    if (headerError h).isSome then (0, pc)
    else if words.any (·.isNone) then (7, pc)
    else
      let ws := words.map (·.getD 0)
      let k : Clause := { hdr := c.hdr, header := h, words := ws, idx := idx, slots := c.slots, ll := (ws.take idx).any isLongWord
                          fetched := true, started := true, chosen := 0 }
      (clauseReason s wk w k, pc)

/-- Whether a blocked fibre waits as a reason says. An access that waits for room in a queue or a log is still the wave's
instruction to issue, and counts as UFULL in step 3 (DEDUCED, log 42). -/
def blockedFor (s : State) (f : Fibre) (reason : Nat) : Bool :=
  match f.blocked with
  | none => false
  | some (.mem n) =>
    let full := (sget n s.ops).any (fun o => match o.kind with
      | .launch _ parts => parts.any (fun p => p.entry.isNone && !p.record.isEmpty)
      | .store held => !held.any (·.stash) && siltSize ≤ (coreOf s o.core).silt.length
      | _ => false)
    if full then reason = 5 else reason = 8
  | some .stopped => reason = 8
  | some (.release _ _) => reason = 9
  | some .fence => reason = 9
  | some (.waitPh _ _ _) => reason = 10
  | some (.waitM _ _ _ _ _ _ _ _ _) => reason = 11
  | some .gridwait => reason = 12
  | some (.tagnew _) => reason = 13

/-- The reason and the classified PC of a clock in which a wave issues nothing (R450, R451). -/
def stallReason (s : State) (wk : Nat) (w : Wave) : Nat × W64 :=
  let g := sget (gangOf s wk) s.gangs
  if w.fibres.isEmpty || g.any (fun g => g.abort || g.state == .saving) then (15, lowestPc w)
  else if w.park.isSome then (14, lowestPc w)
  else
    match w.clause with
    | some c => openReason s wk w c
    | none =>
      let all := readyPcs s wk w
      match choosePc w (all.filter (Cand.ok w)) with
      | some c => choiceReason s wk w c
      | none =>
        let hit (r : Nat) : Option (Nat × Fibre) := w.fibres.find? (fun f => blockedFor s f.2 r)
        match hit 5, choosePc w all with
        | some f, _ => (5, f.2.pc)
        | none, some c => (6, c.hdr)
        | none, none =>
          match [8, 9, 10, 11, 12, 13].find? (fun r => (hit r).isSome) with
          | some r => (r, ((hit r).map (·.2.pc)).getD 0)
          | none => (0, lowestPc w)

/-! ### Sampling (R453 to R455) -/

/-- A register of a core's sampler. -/
def smReg (core r : Nat) : Nat := 0x780000 + 0x40 * core + r

/-- SM_CTL_WRITE (R453): a bad PERIOD or a reserved bit clears EN; a write with EN arms the sampler. -/
def execSmCtlWrite (core : Nat) (v : W64) (s : State) : Answer :=
  let good := 16 ≤ bits v.toNat 0 32 && bits v.toNat 54 8 = 0
  let kept := v &&& (if good then 0xC03FFFFFFFFFFFFF else 0x403FFFFFFFFFFFFF)
  let s := ctlWr s (smReg core 0) kept
  .next (if kept.getLsbD 63 then modCore s core (fun c => { c with armed := c.clock.toNat, sampled := none }) else s)

/-- Whether a sample of a core is due in its clock and not yet taken. -/
def sampleDue (s : State) (core : Nat) : Bool :=
  let k := coreOf s core
  let now := k.clock.toNat
  let period := ctlBits s (smReg core 0) 0 32
  ctlBits s (smReg core 0) 63 1 = 1 && k.armed < now && (now - k.armed) % period = 0 && k.sampled != some now

/-- The sample record of a wave (R455). -/
def sampleRecord (s : State) (wk : Nat) (w : Wave) : List Byte :=
  let core := coreNo wk
  let r := stallReason s wk w
  let lfi : W32 := (w.issued.map (·.2)).getD (((w.fibres.head?).map (·.2.lfi)).getD 0xFFFFFFFF)
  toBytesLE 4 w.launch ++ toBytesLE 4 w.wg ++ toBytesLE 4 lfi.toNat ++ [if w.issued.isSome then 0x80 else BitVec.ofNat 8 r.1]
    ++ toBytesLE 1 w.widx ++ toBytesLE 2 core ++ toBytesLE 8 ((w.issued.map (·.1)).getD r.2).toNat
    ++ toBytesLE 8 (coreOf s core).clock.toNat

/-- Takes a sample that is due (R454). -/
def takeSample (s : State) (core : Nat) : State :=
  if !sampleDue s core then s
  else
    let s := modCore s core (fun c => { c with sampled := some c.clock.toNat })
    let cf := ctlBits s (smReg core 0) 62 1 = 1
    let next := ctlBits s (smReg core 0) 48 6
    let r := s.waves.filter (fun e => coreNo e.1 = core && (!cf || ctxOf s e.1 = ctlBits s (smReg core 0) 32 16))
    match (r.find? (fun e => next ≤ e.1 % 64)).or r.head? with
    | none => s
    | some (wk, w) =>
      let log := ctlBits s (smReg core 8) 0 5
      let base := ctlBits s (smReg core 8) 8 44 * 256
      let tail := ctlBits s (smReg core 0x10) 0 32
      let ctl := ctlRd s (smReg core 0)
      let s := ctlWr s (smReg core 0) ((ctl &&& 0xFFC0FFFFFFFFFFFF) ||| BitVec.ofNat 64 ((wk % 64 + 1) % 64 * 2 ^ 48))
      if log < 3 || 20 < log || 2 ^ log ≤ (tail + 2 ^ 32 - ctlBits s (smReg core 0x18) 0 32) % 2 ^ 32 then
        ctlWr s (smReg core 0x20) (BitVec.ofNat 64 (min (2 ^ 32 - 1) (ctlBits s (smReg core 0x20) 0 32 + 1)))
      else
        let s := writeBytes s ((addrs (base + 32 * (tail % 2 ^ log)) 32).zip (sampleRecord s wk w)) false
        ctlWr s (smReg core 0x10) (BitVec.ofNat 64 ((tail + 1) % 2 ^ 32))

/-- SAMPLE (R454). -/
def execSample (core : Nat) (s : State) : Answer := .next (takeSample s core)

/-! ### The core clock (R23, R341, R449, R461) -/

/-- What a clock of its core leaves of a wave: a clock without an issue raises one counter. A wave whose partner has left the
pair goes on alone (R348). -/
def Wave.tick (s : State) (wk : Nat) (w : Wave) : Wave :=
  let w := { w with paired := w.paired.filter (fun p => (sget p s.waves).any (fun (v : Wave) => v.paired = some wk)) }
  match w.issued with
  | some _ => { w with issued := none }
  | none =>
    let n := (stallReason s wk w).1
    { w with stall := sputD 0 n ((sgetD 0 w.stall n + 1) % 2 ^ 64) w.stall }

/-- Live fibre slots of each launch are weighed on the core's meter (R461). -/
def weighIdle (s : State) (core : Nat) : State :=
  (s.waves.filter (fun e => coreNo e.1 = core)).foldl (fun s e =>
    let k := key2 core e.2.launch
    { s with idleW := sputD 0 k (sgetD 0 s.idleW k + e.2.fibres.length) s.idleW }) s

/-- CORE_CLOCK (R23, R449): a clock of a core ends; core 0xFFFF is the I/O die. -/
def execCoreClock (core : Nat) (s : State) : Answer :=
  if core = 0xFFFF then .next { s with ioClock := s.ioClock + 1 }
  else if 128 ≤ core then .next s
  else
    let s := weighIdle (takeSample s core) core
    let s := { s with
      waves := s.waves.map (fun e => if coreNo e.1 = core then (e.1, e.2.tick s e.1) else e)
      gangs := s.gangs.map (fun g =>
        if g.2.state == .resident && g.2.cores.head? == some core then (g.1, { g.2 with resident := g.2.resident + 1 }) else g)
      meterClk := sputD 0 core (sgetD 0 s.meterClk core + 1) s.meterClk }
    .next (modCore (freePorts s core) core (fun c => { c with clock := c.clock + 1, issues := 0, pipes := c.pipes.filter (c.clock.toNat + 1 < ·) }))

/-! ### Energy (R461, R462) -/

/-- The number of a meter. -/
def Meter.key : Meter → Nat
  | .core c => c
  | .cluster n => 128 + n
  | .uncore => 160
  | .loam => 161

/-- Adds to `en.unattr` (0x08) or `en.loam` (0x10). -/
def addEnergy (s : State) (reg n : Nat) : State :=
  ctlWr s (0x790000 + reg) (BitVec.ofNat 64 ((ctlRd s (0x790000 + reg)).toNat + n))

/-- Shares a part of an interval's energy by weight: each launch gets the floor of its share, and the rest is unattributed. -/
def shareEnergy (s : State) (part : Nat) (weights : List (Nat × Nat)) : State :=
  let total := (weights.map (·.2)).sum
  let given := weights.map (fun w => (w.1, part * w.2 / total))
  let s := given.foldl (fun s g => modLaunch s g.1 (fun l => { l with energy := l.energy + g.2 })) s
  addEnergy s 8 (part - (given.map (·.2)).sum)

/-- The weights of a meter's interval. -/
def weightsOf (m : Sparse Nat) (k : Nat) : List (Nat × Nat) := (m.filter (fun e => e.1 / 2 ^ 32 = k)).map (fun e => (e.1 % 2 ^ 32, e.2))

/-- The launches with resident waves or saves in progress, with their free weights on the uncore meter. -/
def uncoreWeights (s : State) : List (Nat × Nat) :=
  (s.launches.filter (fun l => !l.2.recorded && s.gangs.any (fun g => g.1 / 2 ^ 32 = l.1 && !g.2.cores.isEmpty))).map (fun l =>
    (l.1, Config.uncoreBytes s.uncore l.1))

/-- ENERGY_INTERVAL_END (R461): a meter's interval ends with an energy in units of 2^−32 J. -/
def execEnergyIntervalEnd (meter : Meter) (energy : Nat) (s : State) : Answer :=
  let k := Meter.key meter
  let other (m : Sparse Nat) : Sparse Nat := m.filter (fun e => e.1 / 2 ^ 32 != k)
  let idle := weightsOf s.idleW k
  let dyn := weightsOf s.dynW k
  let done (s : State) : State := { s with idleW := other s.idleW, dynW := other s.dynW, meterClk := sdel k s.meterClk }
  match meter with
  | .core _ =>
    let part := min energy (ctlBits s 0x790000 0 32 * sgetD 0 s.meterClk k / 256)
    .next (done (shareEnergy (shareEnergy s part idle) (energy - part) dyn))
  | .cluster _ => .next (done (shareEnergy s energy dyn))
  | .uncore => .next { shareEnergy s energy (uncoreWeights s) with uncore := s.uncore + 1 }
  | .loam => .next (addEnergy s 0x10 energy)

end Sys2Proof.Machine
end

