-- ==== Sys2Proof/Machine/DebugEv.lean ====
section
/-! DEFINITION. The debugger's events and commands (R456 to R460). -/

namespace Sys2Proof.Machine

/-- The 64 bytes of a debug event (R457). -/
def DbgEvent.message (e : DbgEvent) : List Byte :=
  [e.code, e.idx] ++ toBytesLE 2 e.ctx ++ toBytesLE 4 e.launch ++ toBytesLE 4 e.wg ++ toBytesLE 4 e.fib.toNat ++ toBytesLE 8 e.pc.toNat
    ++ toBytesLE 8 e.addr.toNat ++ toBytesLE 2 e.bcode.toNat ++ toBytesLE 2 e.core ++ List.replicate 4 0
    ++ toBytesLE 8 e.clock.toNat ++ List.replicate 16 0

/-- DEBUG_EVENT (R457): the oldest event of a slot that waits is posted when its ring has room. -/
def execDebugEvent (d : Nat) (s : State) : Answer :=
  match sgetD [] s.dbgEvents d with
  | [] => .next s
  | e :: rest =>
    let log := ctlBits s (dbReg d 8) 0 5
    let tail := ctlBits s (dbReg d 0x10) 0 32
    let used := (tail + 2 ^ 32 - ctlBits s (dbReg d 0x18) 0 32) % 2 ^ 32
    if log < 4 || 12 < log || 2 ^ log ≤ used then .next s
    else
      let base := ctlBits s (dbReg d 8) 6 46 * 64
      let s := writeBytes s ((addrs (base + 64 * (tail % 2 ^ log)) 64).zip e.message) false
      let s := ctlWr s (dbReg d 0x10) (BitVec.ofNat 64 ((tail + 1) % 2 ^ 32))
      .next { s with dbgEvents := sputD [] d rest s.dbgEvents }

/-- A fibre that a command names: the saved gang it stands with, if any, its wave's key, its slot. -/
structure Named where
  gang : Option Nat
  wk : Nat
  slot : Nat
  deriving DecidableEq, Repr

/-- The slot of a fibre of a wave by its logical index. -/
def slotOf (launch wg : Nat) (lfi : W32) (w : Wave) : Option Nat :=
  if w.launch = launch && w.wg = wg then (w.fibres.find? (fun f => f.2.lfi = lfi)).map (·.1) else none

/-- The live fibre that `db.arg0` and `db.arg1` of a slot name, in the slot's context (R459). -/
def namedFibre (s : State) (d : Nat) : Option Named :=
  let launch := ctlBits s (dbReg d 0x68) 32 32
  let wg := ctlBits s (dbReg d 0x68) 0 32
  let lfi : W32 := BitVec.ofNat 32 (ctlBits s (dbReg d 0x70) 0 32)
  if !(sget launch s.launches).any (fun l => l.ctx = ctlBits s (dbReg d 0) 32 16) then none
  else
    (s.waves.findSome? (fun e => (slotOf launch wg lfi e.2).map (fun x => { gang := none, wk := e.1, slot := x }))).or
      (s.gangs.findSome? (fun g => ((g.2.saved.map (·.waves)).getD []).findSome? (fun e =>
        (slotOf launch wg lfi e.2).map (fun x => { gang := some g.1, wk := e.1, slot := x }))))

/-- The wave of a named fibre. -/
def Named.wave (s : State) (n : Named) : Option Wave :=
  match n.gang with
  | none => sget n.wk s.waves
  | some gk => ((sget gk s.gangs).bind (·.saved)).bind (fun v => sget n.wk v.waves)

/-- Changes a named fibre. -/
def Named.modify (s : State) (n : Named) (f : Fibre → Fibre) : State :=
  let go (w : Wave) : Wave := { w with fibres := smod n.slot f w.fibres }
  match n.gang with
  | none => modWave s n.wk go
  | some gk => modGang s gk (fun g => { g with saved := g.saved.map (fun v => { v with waves := smod n.wk go v.waves }) })

/-- A write of `db.cmd` (R459): with GO and an attached slot, the command of OP runs on the fibre it names and answers its status, or
waits for the fibre's next clause boundary: GO reads 1 until then (R456). A write while a command of the slot waits has no effect
(DESIGN CHOICE, log 38). -/
def dbCommand (d : Nat) (v : W64) (op : Nat) (s : State) (run : State → Named → Wave → Fibre → State × Option Nat) : State :=
  if bits v.toNat 60 3 != op || (sget d s.dbBusy).isSome then s
  else
    let s := ctlWr s (dbReg d 0x60) (v &&& 0x7000000000000000)
    if !v.getLsbD 63 || debugSlot s (ctlBits s (dbReg d 0) 32 16) != some d then s
    else
      let none' : State × Option (Nat × Nat × W32) × Nat := (s, none, 1)
      let r : State × Option (Nat × Nat × W32) × Nat :=
        match namedFibre s d with
        | none => none'
        | some n =>
          match n.wave s with
          | none => none'
          | some w =>
            match sget n.slot w.fibres with
            | none => none'
            | some f =>
              match run s n w f with
              | (s, some status) => (s, none, status)
              | (s, none) => (s, some (w.launch, w.wg, f.lfi), 0)
      match r.2.1 with
      | none => ctlWr r.1 (dbReg d 0x78) (BitVec.ofNat 64 r.2.2)
      | some name => { ctlWr r.1 (dbReg d 0x60) (v &&& 0xF000000000000000) with dbBusy := sput d name r.1.dbBusy }

/-- DB_RESUME (R459, OP 1). A saved fibre's resume waits for its restore. -/
def execDbResume (d : Nat) (v : W64) (s : State) : Answer :=
  .next (dbCommand d v 1 s (fun s n _ f =>
    let mode := ctlBits s (dbReg d 0x70) 32 2
    if f.blocked != some .stopped || f.resumed.isSome then (s, some 2)
    else if 1 < mode || (mode = 1 && f.base.isNone) then (s, some 3)
    else
      match n.gang with
      | some _ => (n.modify s (fun f => { f with resumed := some (mode = 1) }), some 0)
      | none =>
        (n.modify s (fun f => f.unstop (mode = 1) (longAt s n.wk f.pc)), some 0)))

/-- The address of a dump. -/
def dumpAddr (s : State) (d : Nat) : Nat := ctlBits s (dbReg d 0x70) 34 30 * 64

/-- Whether a fibre is blocked, as those of a parked wave are (R30), or saved, so that its dump is taken at once. While its gang is
being saved, the dump is taken when the gang's state is settled, so that it shows the block that is saved (R460). -/
def dumpNow (s : State) (n : Named) (w : Wave) (f : Fibre) : Bool :=
  n.gang.isSome || ((f.blocked.isSome || w.park.isSome) && !(sget (gangOf s n.wk) s.gangs).any (fun g => g.state == .saving))

/-- DB_DUMP (R459, OP 2). -/
def execDbDump (d : Nat) (v : W64) (s : State) : Answer :=
  .next (dbCommand d v 2 s (fun s n w f =>
    match sget w.launch s.launches with
    | none => (s, some 1)
    | some l =>
      if memEnd < dumpAddr s d + 64 + fibreSize l then (s, some 3)
      else if dumpNow s n w f then (writeDump s n.wk l w f (dumpAddr s d), some 0)
      else (n.modify s (fun f => { f with dumpAt := some (dumpAddr s d) }), none)))

/-- DB_STOP (R459, OP 3). -/
def execDbStop (d : Nat) (v : W64) (s : State) : Answer :=
  .next (dbCommand d v 3 s (fun s n _ _ => (n.modify s (fun f => { f with stopAt := true }), none)))

/-- A write of `db.cmd` with a reserved OP (R459). -/
def dbReserved (d : Nat) (v : W64) (s : State) : State :=
  if (sget d s.dbBusy).isSome then s else
  let s := ctlWr s (dbReg d 0x60) (v &&& 0x7000000000000000)
  if v.getLsbD 63 then ctlWr s (dbReg d 0x78) 3 else s

end Sys2Proof.Machine
end

