-- ==== Sys2Proof/Machine/LoamRegs.lean ====
section
/-! DEFINITION. The device registers as Loam cores write and read them, and the accesses of Loam cores to memory and to
device control space (R307, R319, R330, R331, R334, R363, R376, R378, R395, R406, R409, R435, R438, R452, R453, R456, R462). -/

namespace Sys2Proof.Machine

/-- Where device control space begins (R319). -/
def ctlBase : Nat := 0x8000000000000

/-! ### Writes -/

/-- A translation port (R330, R331, R334, R340). -/
def writeXl (k r : Nat) (v : W64) (s : State) : Answer :=
  if r = 0 then .next (ctlWr s (xlReg k 0) (v &&& 0x01FFFFFFFFFFF000))
  else if r = 8 then
    if !v.getLsbD 63 then .next (ctlWr s (xlReg k 8) (v &&& 0x0FFFF0F000000000))
    else
      match bits v.toNat 38 2 with
      | 0 => execXlInvPage k v s
      | 1 => execXlInvContext k v s
      | 2 => execXlInvRegion k v s
      | _ => execXlInvAll k v s
  else if r = 0x10 then
    match bits v.toNat 45 3 with
    | 0 => execXlDoneMapped k v s
    | 1 => execXlDoneUnbacked k v s
    | 2 => execXlDonePoolRefilled k v s
    | _ => .next s
  else if r = 0x18 then
    if v.getLsbD 63 && bits v.toNat 60 3 = 1 then execXlCmdGrowCellTable k v s
    else .next (ctlWr s (xlReg k 0x18) (v &&& 0x7FFFF00000000000))
  else .next s

/-- Writes bytes of a staging slot (R363). -/
def writeStage (s : State) (base : Nat) (bs : List Byte) : State :=
  { s with staging := bs.zipIdx.foldl (fun m b => sputD 0 (base + b.2) b.1 m) s.staging }

/-- A command block of the order slots (R378). -/
def writeRo (k r : Nat) (v : W64) (s : State) : Answer :=
  if r = 0 || r = 8 then .next (ctlWr s (roReg k r) v)
  else if r = 0x10 then
    match bits v.toNat 0 3 with
    | 1 => execRoRegister k v s
    | 2 => execRoOpenGroup k v s
    | 3 => execRoCloseGroup k v s
    | 4 => execRoFlush k v s
    | 5 => execRoRelease k v s
    | _ =>
      if (sget k s.roBusy).isSome then .next s else
      let s := ctlWr s (roReg k 0x10) (v &&& 0x3F07)
      .next (if v.getLsbD 63 then roStat s k ((sget (bits v.toNat 8 6) s.oslots).map (·.lost) |>.getD 0) 0 1 else s)
  else .next s

/-- A launch queue (R395). -/
def writeLq (q r : Nat) (v : W64) (s : State) : Answer :=
  if r = 0 then execLqCfgWrite q v s
  else if r = 8 then .next (retryMem (lqCheck (ctlWr s (lqReg q 8) (v &&& 0x000FFFFFFFFFFF80)) q) none)
  else if r = 0x10 then execLqTailWrite q v s
  else if r = 0x20 then execLqErrWrite q v s
  else .next s

/-- A command block of the dispatch unit (R409); its registers are not written while a command is in progress. -/
def writeDp (k r : Nat) (v : W64) (s : State) : Answer :=
  if r = 0 || r = 8 then .next (ctlWr s (dpReg k r) v)
  else if r = 0x10 then
    match bits v.toNat 0 3 with
    | 1 => execDpCreateContext k v s
    | 2 => execDpDestroyContext k v s
    | 3 => execDpSaveGang k v s
    | 4 => execDpReleaseGang k v s
    | 5 => execDpKillLaunch k v s
    | 6 => execDpBindPage k v s
    | _ => .next (dpReserved k v s)
  else .next s

/-- The power governor (R406). -/
def writePg (r : Nat) (v : W64) (s : State) : State :=
  if r = 0 || r = 0x48 || r = 0x50 then ctlWr s (0x720000 + r) (v &&& 0xFFFF)
  else if 8 ≤ r && r ≤ 0x40 && r % 8 = 0 then ctlWr s (0x720000 + r) (v &&& 0xFFFFFFFF)
  else s

/-- The rings to Loam (R435). -/
def writeEv (r : Nat) (v : W64) (s : State) : State :=
  if r = 0 || r = 0x20 then ctlWr s (0x740000 + r) (v &&& 0x000FFFFFFFFFFFC0)
  else if r = 8 || r = 0x28 then ctlWr s (0x740000 + r) (v &&& 0xF1F)
  else if r = 0x18 || r = 0x38 then ctlWr s (0x740000 + r) (v &&& 0xFFFFFFFF)
  else s

/-- An upcall port (R438). -/
def writeUp (k r : Nat) (v : W64) (s : State) : Answer :=
  if r = 0 then .next (ctlWr s (upReg k 0) v)
  else if r = 8 then
    if v.getLsbD 63 then execUpCmdResume k v s else .next (ctlWr s (upReg k 8) (v &&& 0x0000FFFFFFFF1FFF))
  else .next s

/-- A sampler (R453). -/
def writeSm (core r : Nat) (v : W64) (s : State) : Answer :=
  if r = 0 then execSmCtlWrite core v s
  else if r = 8 then .next (ctlWr s (smReg core 8) (v &&& 0x000FFFFFFFFFFF1F))
  else if r = 0x18 || r = 0x20 then .next (ctlWr s (smReg core r) (v &&& 0xFFFFFFFF))
  else .next s

/-- The energy registers and the workgroup-record ring (R452, R462). -/
def writeEn (r : Nat) (v : W64) (s : State) : State :=
  if r = 0 then ctlWr s 0x790000 (v &&& 0xFFFFFFFF)
  else if r = 0x40 then ctlWr s (wrReg 0) (v &&& 0x8000FFFF0000001F)
  else if r = 0x48 then ctlWr s (wrReg 8) (v &&& 0x000FFFFFFFFFFFC0)
  else if r = 0x58 then ctlWr s (wrReg 0x18) (v &&& 0xFFFFFFFF)
  else if r = 0x60 then ctlWr s (wrReg 0x20) (v &&& 0xFFFFFFFF)
  else s

/-- A debug slot (R456, R459). -/
def writeDb (d r : Nat) (v : W64) (s : State) : Answer :=
  if r = 0 then .next (ctlWr s (dbReg d 0) (v &&& 0x8000FFFF00000000))
  else if r = 8 then .next (ctlWr s (dbReg d 8) (v &&& 0x000FFFFFFFFFFFDF))
  else if r = 0x18 then .next (ctlWr s (dbReg d 0x18) (v &&& 0xFFFFFFFF))
  else if r = 0x20 || r = 0x28 || r = 0x30 || r = 0x38 then .next (ctlWr s (dbReg d r) (v &&& 0x81FFFFFFFFFFFFF8))
  else if r = 0x40 || r = 0x50 || r = 0x68 || r = 0x70 then .next (ctlWr s (dbReg d r) v)
  else if r = 0x48 || r = 0x58 then .next (ctlWr s (dbReg d r) (v &&& 0xE00000000000FFFF))
  else if r = 0x60 then
    match bits v.toNat 60 3 with
    | 1 => execDbResume d v s
    | 2 => execDbDump d v s
    | 3 => execDbStop d v s
    | _ => .next (dbReserved d v s)
  else .next s

/-- A write of eight bytes to a register, by its address less that of device control space. A place without a register takes no write. -/
def writeReg (a : Nat) (v : W64) (s : State) : Answer :=
  if 0x100000 ≤ a && a < 0x110000 then writeXl ((a - 0x100000) / 0x1000) (a % 0x1000) v s
  else if 0x400000 ≤ a && a < 0x600000 then
    .next (if 0x1000 ≤ a % 0x2000 then writeStage s (0x2000 * ((a - 0x400000) / 0x2000) + (a % 0x2000 - 0x1000)) (toBytesLE 8 v.toNat) else s)
  else if 0x600000 ≤ a && a < 0x600200 then writeRo ((a - 0x600000) / 0x20) (a % 0x20) v s
  else if a = 0x600800 then execTxFence v s
  else if 0x700000 ≤ a && a < 0x701000 then writeLq ((a - 0x700000) / 0x40) (a % 0x40) v s
  else if 0x710000 ≤ a && a < 0x710200 then writeDp ((a - 0x710000) / 0x20) (a % 0x20) v s
  else if 0x720000 ≤ a && a < 0x720070 then .next (writePg (a - 0x720000) v s)
  else if 0x740000 ≤ a && a < 0x740040 then .next (writeEv (a - 0x740000) v s)
  else if 0x750000 ≤ a && a < 0x750200 then writeUp ((a - 0x750000) / 0x20) (a % 0x20) v s
  else if 0x780000 ≤ a && a < 0x782000 then writeSm ((a - 0x780000) / 0x40) (a % 0x40) v s
  else if 0x790000 ≤ a && a < 0x790080 then .next (writeEn (a - 0x790000) v s)
  else if 0x7A0000 ≤ a && a < 0x7A0400 then writeDb ((a - 0x7A0000) / 0x100) (a % 0x100) v s
  else .next s

/-- REGISTER_WRITE: a write of eight bytes to a device register at its physical address. -/
def execRegisterWrite (addr : Nat) (v : W64) (s : State) : Answer :=
  if ctlBase ≤ addr && addr % 8 = 0 then writeReg (addr - ctlBase) v s else .next s

/-! ### Reads -/

/-- `rq.state` of a queue; of one that does not exist it reads 0, its reset value (R363). -/
def rqState (s : State) (q : Nat) : Nat :=
  match sget q s.recQueues with
  | some z => 2 ^ 63 + z.recs.length % 65536 * 2 ^ 32 + z.c * 2 ^ 16 + z.rsz * 2 ^ 8 + q
  | none => 0

/-- What eight bytes of a register read as, without the effect that a read of `rq.push` or `rq.pop` has. -/
def readReg (s : State) (a : Nat) : W64 :=
  if 0x400000 ≤ a && a < 0x600000 then
    let q := (a - 0x400000) / 0x2000
    let r := a % 0x2000
    if r = 0 then BitVec.ofNat 64 (rqState s q)
    else if 0x1000 ≤ r then BitVec.ofNat 64 (fromBytesLE ((addrs (0x2000 * q + (r - 0x1000)) 8).map (sgetD 0 s.staging)))
    else 0
  else if a = 0x600800 then (if txFenceBusy s then 0x8000000000000000 else 0)
  else if 0x700000 ≤ a && a < 0x701000 && a % 0x40 = 0x20 then ctlRd s a &&& 0xFFFFFFFF000000FF
  else if a = 0x720060 then pgHot s 0
  else if a = 0x720068 then pgHot s 1
  else ctlRd s a

/-- `n` bytes of device control space. -/
def readCtl (s : State) (a n : Nat) : List Byte :=
  (addrs a n).map (fun x => (readReg s (x - x % 8)).extractLsb' (8 * (x % 8)) 8)

/-- Whether an address is that of a register of the record queues whose read has an effect. -/
def rqPort (a : Nat) : Option (Nat × Bool) :=
  if 0x400000 ≤ a && a < 0x600000 && a % 0x2000 = 8 then some ((a - 0x400000) / 0x2000, true)
  else if 0x400000 ≤ a && a < 0x600000 && a % 0x2000 = 0x10 then some ((a - 0x400000) / 0x2000, false)
  else none

/-- A Loam core's read of device control space (R363). -/
def loamCtlLoad (k a n : Nat) (s : State) : Answer :=
  match rqPort a with
  | some (q, true) => execRqPush k q s
  | some (q, false) => execRqPop k q s
  | none => .next { s with out := s.out ++ [.loamData k (readCtl s a n) false] }

/-- A Loam core's write to device control space: a part of a register goes with what the rest of it reads as. -/
def loamCtlStore (a : Nat) (data : List Byte) (s : State) : Answer :=
  if 0x400000 ≤ a && a < 0x600000 && 0x1000 ≤ a % 0x2000 then
    .next (writeStage s (0x2000 * ((a - 0x400000) / 0x2000) + (a % 0x2000 - 0x1000)) data)
  else
    let lo := a % 8
    let old := readCtl s (a - lo) 8
    writeReg (a - lo) (BitVec.ofNat 64 (fromBytesLE ((old.take lo ++ data ++ old.drop (lo + data.length)).take 8))) s

/-! ### Accesses of a Loam core (R307, R465, R466) -/

/-- The state after an atomic operation on physical memory, the old value and whether it is poisoned; poisoned memory stays as it is. -/
def atomAt (s : State) (pa : Nat) (op : BitVec 4) (ty : BitVec 5) (x y : W64) : State × List Byte × Bool :=
  let w := tyWidth ty / 8
  let b := readBytes s (addrs pa w)
  if b.2.2 then b
  else
    let r := atomGroup op ty (BitVec.ofNat 64 (fromBytesLE b.2.1)) [(x, y)]
    (writeBytes b.1 ((addrs pa w).zip (toBytesLE w r.1.toNat)) false, b.2.1, false)

/-- A write to memory by an agent outside the core array. After a write of a context's MTAIL its Marl ring is looked at (R337). -/
def outerWrite (s : State) (cells : List Host.Cell) : State :=
  s.contexts.foldl (fun s c =>
    if cells.any (fun x => c.2.recPa + 0x2C ≤ x.1 && x.1 < c.2.recPa + 0x30) then marlLook s c.1 (c.2.recPa + 0x2C) else s)
    (writeBytes s cells false)

/-- Performs an access of a Loam core (R307, R319). -/
def loamAccess (k : Nat) (a : LoamAccess) (s : State) : Answer :=
  match a with
  | .load pa n =>
    if ctlBase ≤ pa then loamCtlLoad k (pa - ctlBase) n s
    else if memEnd < pa + n then .fault .reservedAddress
    else
      let b := readBytes s (addrs pa n)
      .next { b.1 with out := b.1.out ++ [.loamData k b.2.1 b.2.2] }
  | .store pa data =>
    if ctlBase ≤ pa then loamCtlStore (pa - ctlBase) data s
    else if memEnd < pa + data.length then .fault .reservedAddress
    else .next (outerWrite s ((addrs pa data.length).zip data))
  | .amo pa op ty x y =>
    if memEnd < pa + tyWidth ty / 8 then .fault .reservedAddress
    else
      let r := atomAt s pa op ty x y
      .next { r.1 with out := r.1.out ++ [.loamData k r.2.1 r.2.2] }
  | .fence => .next s

end Sys2Proof.Machine
end

