-- ==== Sys2Proof/Machine/BootEv.lean ====
section
/-! DEFINITION. The root-of-trust core: boot, recovery and failure of the device, the repair log, attestation and the management
function (R1, R21, R468 to R474, R484 to R488), and errors found in stored state (R465 to R467). -/

namespace Sys2Proof.Machine

/-! ### The configuration record and the repair map (R468 to R471) -/

/-- REPAIR of stack `k` in a configuration record. -/
def repairField (r : List Byte) (k : Nat) : Nat := bits (recF r 0x28 2) (4 * k) 4

/-- ROLE, PEERID and FABMASK. -/
def roleOf (r : List Byte) : Nat := recF r 0x2B 1
def peerIdOf (r : List Byte) : Nat := recF r 0x2C 1
def fabMaskOf (r : List Byte) : Nat := recF r 0x2E 2
/-- OWNKEY. -/
def ownKey (r : List Byte) : List Byte := (r.drop 0x80).take 0x520

/-- A configuration record is valid for a device with an identity key (R471). -/
def recordValid (key r : List Byte) : Bool :=
  r.length = 4096 && recF r 0 4 = 0x46433944 && recF r 4 4 = 1 && (r.drop 8).take 32 == Config.sha3 key
    && Config.mldsaVerify Config.weahamKey (r.take 0x5A0) ((r.drop 0x5A0).take 0x974)
    && bits (recF r 0x2A 1) 4 4 = 0 && recF r 0x2D 1 = 0 && (r.drop 0x30).take 0x50 == List.replicate 0x50 0
    && (r.drop 0xF14).all (· == 0) && (List.range 4).all (fun k => repairField r k ≤ 8) && roleOf r ≤ 2
    && (peerIdOf r == 0) == (roleOf r != 0)

/-- Distinct clusters of a stack that valid entries of the repair log name, leaving out `f`. -/
def loggedClusters (log : List (BitVec 16)) (stack f : Nat) : List Nat :=
  dedup [] ((log.filter (fun e => e.getLsbD 15 && bits e.toNat 4 2 = stack && bits e.toNat 0 4 != f)).map (fun e => bits e.toNat 0 4))

/-- The inactive cluster of a stack; none sends the device to recovery (R468). -/
def inactiveOf (r : List Byte) (log : List (BitVec 16)) (stack : Nat) : Option Nat :=
  let f := repairField r stack
  match loggedClusters log stack f with
  | [] => some f
  | [c] => if (recF r 0x2A 1).testBit stack then some c else none
  | _ => none

/-- The effective repair map: the inactive cluster of each stack. -/
def repairMap (r : List Byte) (log : List (BitVec 16)) : Option (List Nat) :=
  (List.range 4).foldl (fun acc k => acc.bind (fun m => (inactiveOf r log k).map (fun c => m ++ [c]))) (some [])

/-- The physical cluster of its stack, 0 to 8, that a logical cluster of the device is under a repair map: the logical indices of a
stack go to the clusters that remain, in ascending order (R21). -/
def physicalCluster (repair : List Nat) (cluster : Nat) : Nat :=
  ((List.range 9).filter (· != repair.getD (cluster / 8) 8)).getD (cluster % 8) 8

/-- The bytes of the repair log. -/
def logBytes (log : List (BitVec 16)) : List Byte := (log.map (fun e => toBytesLE 2 e.toNat)).flatten

/-! ### Phases of the device span (R1, R472, R473, R477) -/

/-- A device in a phase with nothing resident: what the flash holds and what the observer has seen remain. -/
def blank (s : State) (p : Phase) (rtc : Rtc) (peers : Peers) : State :=
  { State.reset with phase := p, agenda := s.agenda, out := s.out, rtc := rtc, peers := peers }

/-- Peer-group state before any message. -/
def freshPeers (role peerId fabMask : Nat) : Peers :=
  { State.reset.peers with role := role, peerId := peerId, fabMask := BitVec.ofNat 16 fabMask }

/-- The device fails: its RTC holds it in reset (R477). -/
def failDevice (s : State) : State := blank s .failed s.rtc s.peers

/-- Recovery (R472): everything but the RTC is held in reset. -/
def recover (s : State) (rtc : Rtc) : State := blank s .recovery rtc (freshPeers 2 0 0)

/-! ### Images (R473, R475) -/

/-- An image is verified under OWNKEY by its manifest: its length and digest. -/
def imageGood (rtc : Rtc) (image sig : List Byte) : Bool :=
  Config.mldsaVerify (ownKey rtc.config) (Config.manifestBytes image.length (Config.sha3 image)) sig

/-- The enabled fabric ports; in switched mode the host port counts as port 0 (R483). -/
def ports (p : Peers) : List Nat :=
  if p.fabMask = 0 && p.role != 2 then [0] else (List.range 16).filter (fun k => p.fabMask.getLsbD k)

/-- Offers an image on every enabled port but one. -/
def offerImage (s : State) (not' : Option Nat) (image sig : List Byte) : State :=
  { s with out := s.out ++ ((ports s.peers).filter (fun p => not' != some p)).map (fun p => .offer p image.length (Config.sha3 image) sig) }

/-- Step 5 with a verified image: M4 is taken and Loam core 0 started. -/
def startLoam (s : State) (rtc : Rtc) (peers : Peers) (image : List Byte) : State :=
  blank s .running { rtc with meas := sput 4 (Config.sha3 image) rtc.meas } { peers with imageAccepted := true }

/-- Steps 1 to 5 of the boot (R473). -/
def boot (s : State) : State :=
  let rtc : Rtc := { s.rtc with meas := sput 1 Config.bootRomDigest [] }
  match rtc.seed with
  | none => recover s rtc
  | some seed =>
    if !Config.mldsaVerify Config.weahamKey rtc.loader rtc.loaderSig then recover s rtc
    else
      let rtc := { rtc with meas := sput 2 (Config.sha3 rtc.loader) rtc.meas }
      if !recordValid (Config.identityKey seed) rtc.config then recover s rtc
      else
        match repairMap rtc.config rtc.repairLog with
        | none => recover s rtc
        | some m =>
          let rtc := { rtc with repair := m, meas := sput 5 (Config.sha3 (logBytes rtc.repairLog)) (sput 3 (Config.sha3 rtc.config) rtc.meas) }
          let peers := freshPeers (roleOf rtc.config) (peerIdOf rtc.config) (fabMaskOf rtc.config)
          if roleOf rtc.config = 0 then blank s .loading rtc peers
          else if !imageGood rtc rtc.image rtc.imageSig then recover s rtc
          else
            let s := startLoam s rtc peers rtc.image
            if roleOf rtc.config = 1 then offerImage s none rtc.image rtc.imageSig else s

/-- POWER_ON_RESET (R473). -/
def execPowerOnReset (s : State) : Answer := .next (boot s)

/-- POWER_OFF (R1). -/
def execPowerOff (s : State) : Answer := .next (blank s .off { s.rtc with meas := [] } (freshPeers 2 0 0))

/-! ### Image service (R475) -/

/-- Takes the first of the offers that wait: its port is the parent. -/
def takeOffer (s : State) : State :=
  { s with peers := { s.peers with parent := (s.peers.offers.head?).map (·.port) } }

/-- Whether an offer's manifest verifies. -/
def offerGood (s : State) (o : Offer) : Bool :=
  Config.mldsaVerify (ownKey s.rtc.config) (Config.manifestBytes o.length o.digest) o.sig

/-- Offers of one clock in order of port. -/
def insertOffer (o : Offer) : List Offer → List Offer
  | [] => [o]
  | p :: l => if o.port < p.port then o :: p :: l else p :: insertOffer o l

/-- IMAGE_OFFER (R475): the offers that arrive in one RTC clock. -/
def execImageOffer (offers : List Offer) (s : State) : Answer :=
  if s.phase != .loading then .next s
  else
    let good := (offers.filter (fun o => offerGood s o && (ports s.peers).contains o.port)).foldl (fun l o => insertOffer o l) []
    let s := { s with peers := { s.peers with offers := s.peers.offers ++ good } }
    .next (if s.peers.parent.isNone then takeOffer s else s)

/-- IMAGE_LOAD_COMPLETE (R475): the image loaded over the parent port. -/
def execImageLoadComplete (image : List Byte) (s : State) : Answer :=
  if s.phase != .loading then .next s
  else
    match s.peers.parent, s.peers.offers with
    | some port, o :: rest =>
      if Config.sha3 image == o.digest && image.length = o.length then
        let s := startLoam s s.rtc { s.peers with offers := [] } image
        .next (offerImage s (some port) image o.sig)
      else .next (takeOffer { s with peers := { s.peers with offers := rest } })
    | _, _ => .next s

/-- IMAGE_TIMEOUT (R475): 2^31 RTC clocks after reset without an image. -/
def execImageTimeout (s : State) : Answer := .next (if s.phase == .loading then recover s s.rtc else s)

/-! ### SPDM (R474) -/

/-- Whether the RTC answers: in every phase with power. -/
def rtcAnswers (s : State) : Bool := s.phase != .off

/-- An SPDM response by the number of its request in R474, or an ERROR response. -/
def spdm (s : State) (code : Nat) (data : Option (List Byte)) : State :=
  if !rtcAnswers s then s
  else { s with out := s.out ++ [match data with
    | some d => .spdm (Config.spdmMessage code d)
    | none => .spdmError] }

/-- Data that only a device with an identity gives. -/
def withIdentity (s : State) (d : List Byte) : Option (List Byte) := if s.rtc.seed.isSome then some d else none

/-- GET_VERSION (R474). -/
def execGetVersion (s : State) : Answer := .next (spdm s 0 (some []))
/-- GET_CAPABILITIES (R474). -/
def execGetCapabilities (s : State) : Answer := .next (spdm s 1 (some []))
/-- NEGOTIATE_ALGORITHMS (R474): what the requester supports. -/
def execNegotiateAlgorithms (sha3 mldsa : Bool) (s : State) : Answer := .next (spdm s 2 (if sha3 && mldsa then some [] else none))
/-- GET_DIGESTS (R474). -/
def execGetDigests (s : State) : Answer := .next (spdm s 3 (withIdentity s (Config.sha3 s.rtc.cert)))
/-- GET_CERTIFICATE (R474): a part of the chain. -/
def execGetCertificate (offset len : Nat) (s : State) : Answer := .next (spdm s 4 (withIdentity s ((s.rtc.cert.drop offset).take len)))
/-- CHALLENGE (R474): a signature by the identity key. -/
def execChallenge (nonce : List Byte) (s : State) : Answer :=
  .next (spdm s 5 (s.rtc.seed.map (fun seed => Config.mldsaSign seed (Config.spdmMessage 5 nonce))))
/-- GET_MEASUREMENTS (R474): a measurement not taken reads as zeros. -/
def execGetMeasurements (index : Nat) (s : State) : Answer :=
  .next (spdm s 6 (if 1 ≤ index && index ≤ 5 then some (sgetD (List.replicate 32 0) s.rtc.meas index) else none))

/-! ### The repair log at run time (R468, R474, R477) -/

/-- REPAIR_LOG_WRITE (R474): M5 follows the log. -/
def execRepairLogWrite (index : Nat) (v : BitVec 16) (s : State) : Answer :=
  if s.phase != .running || 8 ≤ index then .next s
  else
    let log := ((s.rtc.repairLog ++ List.replicate (8 - s.rtc.repairLog.length) 0)).set index v
    .next { s with rtc := { s.rtc with repairLog := log, meas := sput 5 (Config.sha3 (logBytes log)) s.rtc.meas } }

/-- A repair log with one more entry, in the first place that is not valid. -/
def logCluster (log : List (BitVec 16)) (e : BitVec 16) : List (BitVec 16) :=
  let full := log ++ List.replicate (8 - log.length) 0
  match full.findIdx? (fun x => !x.getLsbD 15) with
  | some i => full.set i e
  | none => full

/-- Whether a physical cluster of a stack is one that the repair map in effect powers (R21). -/
def clusterPowered (s : State) (stack cluster : Nat) : Bool :=
  (List.range 8).any (fun i => physicalCluster s.rtc.repair (8 * stack + i) = cluster)

/-- CLUSTER_FAILURE (R468): the RTC logs the physical cluster, and the device fails. The inactive cluster is powered off and cannot
fail (R21). -/
def execClusterFailure (stack cluster : Nat) (s : State) : Answer :=
  if s.phase != .running || 4 ≤ stack || !clusterPowered s stack cluster then .next s
  else
    let e : BitVec 16 := BitVec.ofNat 16 (2 ^ 15 + stack * 16 + cluster)
    .next (failDevice { s with rtc := { s.rtc with repairLog := logCluster s.rtc.repairLog e } })

/-! ### The management function (R487, R488) -/

/-- An answer of the management function by its command code, or an error. -/
def manage (s : State) (code : Nat) (data : Option (List Byte)) : State :=
  if !rtcAnswers s then s
  else { s with out := s.out ++ [match data with
    | some d => .management (Config.managementMessage code d)
    | none => .managementError] }

/-- READ_SENSORS (R487). -/
def execReadSensors (s : State) : Answer :=
  .next (manage s 1 (some (((List.range 128).map (fun c => toBytesLE 2 ((coreOf s c).temp.getD 0))).flatten
    ++ toBytesLE 2 s.sensors.outlet ++ (s.sensors.rails.map (toBytesLE 4)).flatten)))

/-- READ_ERROR_COUNTERS (R487): corrected errors per store class of R465, lanes spared per link. -/
def execReadErrorCounters (s : State) : Answer :=
  .next (manage s 2 (some (((List.range 10).map (fun k => toBytesLE 8 (sgetD 0 s.sensors.corrected k))).flatten
    ++ ((List.range 17).map (fun k => toBytesLE 1 (sgetD 0 s.sensors.spared k))).flatten)))

/-- READ_REPAIR_LOG (R487). -/
def execReadRepairLog (s : State) : Answer := .next (manage s 3 (some (logBytes s.rtc.repairLog)))

/-- WRITE_CONFIGURATION_RECORD (R487, R488): only flash changes. -/
def execWriteConfigurationRecord (data : List Byte) (s : State) : Answer :=
  if data.length = 4096 && rtcAnswers s then .next (manage { s with rtc := { s.rtc with config := data } } 4 (some []))
  else .next (manage s 4 none)

/-- CLEAR_REPAIR_LOG (R487, R488): only flash changes. -/
def execClearRepairLog (s : State) : Answer :=
  if rtcAnswers s then
    .next (manage { s with rtc := { s.rtc with repairLog := s.rtc.repairLog.map (fun e => e &&& 0x7FFF) } } 5 (some []))
  else .next s

/-- DEVICE_RESET (R21, R487): the device span closes, and the device boots again. -/
def execDeviceReset (s : State) : Answer := .next (if rtcAnswers s then boot s else s)

/-- READ_IDENTITY (R487). -/
def execReadIdentity (s : State) : Answer := .next (manage s 7 (withIdentity s s.rtc.cert))

/-! ### Module supervision (R484 to R486) -/

/-- The device fails while it runs. -/
def failRunning (s : State) : State := if s.phase == .running || s.phase == .loading then failDevice s else s

/-- RAIL_FAULT (R484). -/
def execRailFault (_rail : Rail) (s : State) : Answer := .next (failRunning s)
/-- INPUT_OVERPOWER (R485). -/
def execInputOverpower (s : State) : Answer := .next (failRunning s)
/-- COOLANT_OVERTEMP (R486). -/
def execCoolantOvertemp (s : State) : Answer := .next (failRunning s)

/-! ### Errors in stored state (R465 to R467) -/

/-- The event of a latent error (R467). -/
def latentError (s : State) (cause : Byte) (addr : Nat) : State :=
  supPost s { SupEvent.zero s 0x06 with cause := cause, addr := BitVec.ofNat 64 addr }

/-- Poisons a unit of memory. -/
def poisonUnit (s : State) (pa : Nat) : State :=
  if pa < memEnd then { s with memPois := insertNat (pa / 64) s.memPois } else s

/-- UNCORRECTABLE_ERROR (R465). -/
def execUncorrectableError (e : ErrorSite) (s : State) : Answer :=
  match e with
  | .vreg wave slot reg => .next (modFibre s wave slot (fun f => f.setVp reg (f.rv reg) true))
  | .greg wave reg half =>
    .next (modWave s wave (fun w =>
      let x := sgetD GWord.zero w.g reg
      { w with g := sputD GWord.zero reg (if half = 0 then { x with poisLo := true } else { x with poisHi := true }) w.g }))
  | .qreg wave slot q word => .next (modFibre s wave slot (fun f => f.setQ q { f.rq q with pois := (f.rq q).pois ||| (1 <<< word) }))
  | .control wave =>
    if (sget wave s.waves).isNone then .next s
    else .next (abortGang (supPost s { SupEvent.ofFibre s 0x06 wave 0 with cause := 3 }) (gangOf s wave))
  | .operandBuffer _ => .next s
  | .icacheLine core line => .next (modCore s core (fun c => { c with icache := c.icache.filter (fun l => l.line != line) }))
  | .ccacheLine core line => .next (modCore s core (fun c => { c with ccache := c.ccache.filter (fun l => l.line != line) }))
  | .stash launch gang byte => .next (modGang s (key2 launch gang) (fun g => { g with stashPois := insertNat (byte / 8) g.stashPois }))
  | .accum wave acc elem => .next (modWave s wave (fun w => w.setAcc acc { w.acc acc with pois := insertNat elem (w.acc acc).pois }))
  | .kaolin launch gang byte => .next (modGang s (key2 launch gang) (fun g => { g with kaolinPois := insertNat (byte / 8) g.kaolinPois }))
  | .translation core => .next (modCore s core (fun c => { c with tlb := [] }))
  | .llcData pa => .next (poisonUnit s pa)
  | .llcTags => .next (failRunning s)
  | .memory pa => .next (poisonUnit s pa)
  | .corrected k => .next { s with sensors := { s.sensors with corrected := sputD 0 k (sgetD 0 s.sensors.corrected k + 1) s.sensors.corrected } }

/-- PATROL_SCRUB (R465, R467): a line is read; each poisoned unit of it posts an event. -/
def execPatrolScrub (pa : Nat) (s : State) : Answer :=
  let line := pa - pa % 128
  if memEnd ≤ line then .next s
  else .next ([line, line + 64].foldl (fun s a => if s.memPois.contains (a / 64) then latentError s 1 a else s) s)

/-- Lanes of a link: a fabric port, the host port (16), or a link of the package (R465, R480, R482). -/
def lanesOf (port : Nat) : Nat := if port < 16 then 4 else if port = 16 then 16 else Config.linkLanes port

/-- LANE_SPARE (R465, R467, R482): a lane is spared; a link left below half its lanes fails its device. -/
def execLaneSpare (port : Nat) (s : State) : Answer :=
  let n := sgetD 0 s.sensors.spared port + 1
  let s := { s with sensors := { s.sensors with spared := sputD 0 port n s.sensors.spared } }
  .next (if 2 * (lanesOf port - n) < lanesOf port then failRunning s else latentError s 4 0)

end Sys2Proof.Machine
end

