-- ==== Sys2Proof/Machine/PeerEv.lean ====
section
/-! DEFINITION. The peer group: heartbeats, failure, fencing and the acting root (R477, R478), and the accesses of peers and of the
host to the device's memory (R466, R481, R482). -/

namespace Sys2Proof.Machine

/-- The group's serving root: the root of the record, or the acting root. -/
def servesRoot (p : Peers) : Bool := p.role = 1 || p.acting

/-- Sends something on every enabled port but one. -/
def sendPorts (s : State) (not' : Option Nat) (f : Nat → Out) : State :=
  { s with out := s.out ++ ((ports s.peers).filter (fun p => not' != some p)).map f }

/-- Changes the peer-group state. -/
def modPeers (s : State) (f : Peers → Peers) : State := { s with peers := f s.peers }

/-! ### Fencing (R477) -/

/-- Collectives posted here that have a fenced device as a member complete with an error. -/
def fenceCollectives (s : State) (peer : Nat) : State :=
  (skeys s.ops).foldl (fun s n =>
    match sget n s.ops with
    | none => s
    | some o =>
      match o.kind with
      | .coll c =>
        if !c.crec.isEmpty && ((groupOf s o.ctx (collGroup c)).getD []).any (fun x => x.1 = peer) then failMembers s [(n, o, c)] 3 else s
      | _ => s) s

/-- A peer is fenced; a device that is itself fenced is held in reset by its RTC. -/
def fence (s : State) (peer : Nat) : State :=
  if s.peers.role != 2 && peer = s.peers.peerId && !(s.peers.role = 1 && peer != 0) then failDevice s
  else fenceCollectives (modPeers s (fun p => { p with fenced := insertNat peer p.fenced })) peer

/-- FENCE_COMMAND (R477). -/
def execFenceCommand (peer : Nat) (s : State) : Answer := .next (if s.phase == .running then fence s peer else s)

/-- Declares a device failed: the fence command goes to every peer. -/
def declareFailed (s : State) (peer : Nat) : State := fence { s with out := s.out ++ [.fence peer] } peer

/-! ### Heartbeats (R477, R478) -/

/-- HEARTBEAT_SEND (R477, R478): a period of 2^20 clocks ends. -/
def execHeartbeatSend (s : State) : Answer :=
  if s.phase != .running || s.peers.role = 2 then .next s
  else
    let s := modPeers s (fun p => { p with
      missing := p.missing.map (fun m => (m.1, m.2 + 1)), rootMissing := if servesRoot p then 0 else p.rootMissing + 1
      serial := if servesRoot p then p.serial + 1 else p.serial })
    let p := s.peers
    .next (sendPorts s none (fun k => .heartbeat k (if servesRoot p then p.serial else 0) (if servesRoot p then p.count else 0)))

/-- HEARTBEAT_RECEIVE (R477, R478): a root's heartbeat is forwarded once for each serial. -/
def execHeartbeatReceive (port peer : Nat) (root : Bool) (serial : BitVec 32) (count : Nat) (s : State) : Answer :=
  if s.phase != .running || s.peers.fenced.contains peer then .next s
  else
    let s := modPeers s (fun p => { p with missing := sput peer 0 p.missing })
    if !root || s.peers.lastSerial = serial || servesRoot s.peers then .next s
    else
      let s := modPeers s (fun p => { p with lastSerial := serial, count := count, rootMissing := 0, selfLoss := false, lossFrom := [] })
      .next (sendPorts s (some port) (fun k => .heartbeat k serial count))

/-- HEARTBEAT_LOSS (R477): eight consecutive heartbeats of a peer are missing. -/
def execHeartbeatLoss (peer : Nat) (s : State) : Answer :=
  if s.phase == .running && servesRoot s.peers && 8 ≤ sgetD 0 s.peers.missing peer && !s.peers.fenced.contains peer then
    .next (declareFailed s peer)
  else .next s

/-! ### Loss of the root (R478) -/

/-- Whether a member may become acting root: it has observed the loss, with a majority of the devices other than the root, and it has the
lowest identifier among them. -/
def mayAct (p : Peers) : Bool :=
  p.role = 0 && p.selfLoss && !p.acting && p.count - 1 < 2 * (insertNat p.peerId p.lossFrom).length && p.lossFrom.all (p.peerId ≤ ·)

/-- A member becomes acting root, and declares the root failed. -/
def becomeActing (s : State) : State :=
  if mayAct s.peers then declareFailed (modPeers s (fun p => { p with acting := true, serial := 0 })) 0 else s

/-- ROOT_LOSS (R478): no root heartbeat for eight periods. -/
def execRootLoss (s : State) : Answer :=
  if s.phase == .running && s.peers.role = 0 && !s.peers.acting && !s.peers.selfLoss && 8 ≤ s.peers.rootMissing then
    let s := modPeers s (fun p => { p with selfLoss := true })
    .next (becomeActing (sendPorts s none (fun k => .rootLoss k s.peers.peerId)))
  else .next s

/-- ROOT_LOSS_MESSAGE (R478): another member's message, forwarded once. -/
def execRootLossMessage (port peer : Nat) (s : State) : Answer :=
  if s.phase != .running || s.peers.role != 0 || s.peers.fenced.contains peer || s.peers.lossFrom.contains peer || peer = s.peers.peerId then .next s
  else
    let s := modPeers s (fun p => { p with lossFrom := insertNat peer p.lossFrom })
    .next (becomeActing (sendPorts s (some port) (fun k => .rootLoss k peer)))

/-! ### Accesses of peers (R466, R477, R482) -/

/-- Whether a peer's flits are taken. -/
def peerHeard (s : State) (peer : Nat) : Bool := s.phase == .running && !s.peers.fenced.contains peer

/-- Performs a peer's read (R482). -/
def fabricRead (peer pa len : Nat) (s : State) : Answer :=
  if !peerHeard s peer then .next s
  else if memEnd < pa + len then .fault .reservedAddress
  else
    let b := readBytes s (addrs pa len)
    .next { b.1 with out := b.1.out ++ [.fabricData peer b.2.1 b.2.2] }

/-- Performs a peer's write (R482). -/
def fabricWrite (peer pa : Nat) (data : List Byte) (s : State) : Answer :=
  if !peerHeard s peer then .next s
  else if memEnd < pa + data.length then .fault .reservedAddress
  else .next (outerWrite s ((addrs pa data.length).zip data))

/-- Performs a peer's atomic operation, where the location is (R482). -/
def fabricAtomic (peer pa : Nat) (op : BitVec 4) (ty : BitVec 5) (x y : W64) (s : State) : Answer :=
  if !peerHeard s peer then .next s
  else if memEnd < pa + tyWidth ty / 8 then .fault .reservedAddress
  else
    let r := atomAt s pa op ty x y
    .next { r.1 with out := r.1.out ++ [.fabricData peer r.2.1 r.2.2] }

/-! ### The host's window (R308, R466, R481) -/

/-- The physical address behind a byte of BAR4, where its slot is bound. -/
def bar4Pa (s : State) (a : Nat) : Option Nat := (sget (a / 2 ^ 30) s.bar4).map (fun base => base + a % 2 ^ 30)

/-- A byte as a read that does not snoop sees it, and whether it is poisoned: what `cflush` last wrote to memory (R308). A byte that
none has written is a free value (DESIGN CHOICE, log 41). -/
def unsnooped (s : State) (pa : Nat) : Byte × Bool :=
  match sget (pa / 128) s.flushed with
  | some line => line.getD (pa % 128) (0, false)
  | none => (Config.unflushed s.noSnoops pa, false)

/-- Performs a host's read (R308, R481): an unbound slot reads as all ones. -/
def hostRead (at' : HostAddr) (len : Nat) (s : State) : Answer :=
  let pas := (addrs at'.offset len).map (bar4Pa s)
  let bound := pas.filterMap id
  if bound.any (memEnd ≤ ·) then .fault .reservedAddress
  else if at'.noSnoop then
    .next { s with noSnoops := s.noSnoops + 1
                   out := s.out ++ [.hostData (pas.map (fun p => (p.map (fun a => (unsnooped s a).1)).getD 0xFF))
                                      (bound.any (fun a => (unsnooped s a).2))] }
  else
    let r := readBytes s bound
    .next { r.1 with out := r.1.out ++ [.hostData (pas.map (fun p => (p.map (pByte r.1)).getD 0xFF)) r.2.2] }

/-- What a host's write stores: a write to an unbound slot is discarded (R481). -/
def hostCells (s : State) (addr : Nat) (data : List Byte) : List Host.Cell :=
  ((addrs addr data.length).zip data).filterMap (fun c => (bar4Pa s c.1).map (·, c.2))

/-- Performs a host's write (R481). -/
def hostWrite (addr : Nat) (data : List Byte) (s : State) : Answer :=
  let cells := hostCells s addr data
  if cells.any (fun c => memEnd ≤ c.1) then .fault .reservedAddress else .next (outerWrite s cells)

/-! ### Accesses in order

An access from outside the core array that reaches a line which an engine owns waits for the engine's write (R297). The later
accesses of the same agent wait behind it, so that its accesses stay in order (R307, R308). -/

/-- The bytes of memory that an access reaches through the coherent caches. -/
def outerBytes (s : State) : Outer → List Nat
  | .loam _ (.load pa n) => addrs pa n
  | .loam _ (.store pa data) => addrs pa data.length
  | .loam _ (.amo pa _ ty _ _) => addrs pa (tyWidth ty / 8)
  | .peerRead _ pa len => addrs pa len
  | .peerWrite _ pa data => addrs pa data.length
  | .peerAtomic _ pa _ ty _ _ => addrs pa (tyWidth ty / 8)
  | .hostRead at' len => if at'.noSnoop then [] else ((addrs at'.offset len).map (bar4Pa s)).filterMap id
  | .hostWrite addr data => (hostCells s addr data).map (·.1)
  | .loam _ .fence => []

/-- Performs an access. -/
def performOuter (i : Outer) (s : State) : Answer :=
  match i with
  | .loam k a => loamAccess k a s
  | .peerRead peer pa len => fabricRead peer pa len s
  | .peerWrite peer pa data => fabricWrite peer pa data s
  | .peerAtomic peer pa op ty x y => fabricAtomic peer pa op ty x y s
  | .hostRead at' len => hostRead at' len s
  | .hostWrite addr data => hostWrite addr data s

/-- Sets the accesses of an agent that wait. -/
def setOuter (s : State) (agent : Nat) (l : List Outer) : State :=
  if l.isEmpty && (sget agent s.outer).isNone then s else { s with outer := sputD [] agent l s.outer }

/-- Performs the accesses of an agent in order, up to one that reaches an owned line. -/
def outerRun (agent : Nat) : List Outer → State → Answer
  | [], s => .next (setOuter s agent [])
  | i :: rest, s =>
    if memOwned s none (outerBytes s i) then .next (setOuter s agent (i :: rest))
    else
      match performOuter i s with
      | .next s => outerRun agent rest s
      | a => a

/-- An access of an agent: of Loam core k it is agent k, of the host agent 16, of a peer agent 17 and its identifier. -/
def outerAccess (agent : Nat) (i : Outer) (s : State) : Answer := outerRun agent (sgetD [] s.outer agent ++ [i]) s

/-- LOAM_MEMORY_ACCESS (R307, R319). -/
def execLoamMemoryAccess (k : Nat) (a : LoamAccess) (s : State) : Answer := outerAccess k (.loam k a) s

/-- FABRIC_READ (R482). -/
def execFabricRead (peer pa len : Nat) (s : State) : Answer := outerAccess (17 + peer) (.peerRead peer pa len) s

/-- FABRIC_WRITE (R482). -/
def execFabricWrite (peer pa : Nat) (data : List Byte) (s : State) : Answer := outerAccess (17 + peer) (.peerWrite peer pa data) s

/-- FABRIC_ATOMIC (R482). -/
def execFabricAtomic (peer pa : Nat) (op : BitVec 4) (ty : BitVec 5) (x y : W64) (s : State) : Answer :=
  outerAccess (17 + peer) (.peerAtomic peer pa op ty x y) s

/-- HOST_BAR4_READ (R308, R481). -/
def execHostBar4Read (at' : HostAddr) (len : Nat) (s : State) : Answer := outerAccess 16 (.hostRead at' len) s

/-- HOST_BAR4_WRITE (R481). -/
def execHostBar4Write (addr : Nat) (data : List Byte) (s : State) : Answer := outerAccess 16 (.hostWrite addr data) s

end Sys2Proof.Machine
end

