-- ==== Sys2Proof/Machine/Schedule.lean ====
section
/-! DEFINITION. Which step comes next when none is given: of the steps that the hardware may take in a state, one
order that keeps what R341, R343 and R347 ask for. Time passes only when no other step is possible. -/

namespace Sys2Proof.Machine

/-- The answer of an agent, if it changes the part of the state at which `look` looks, or kills a context. -/
def acted {α : Type} [DecidableEq α] (look : State → α) (s : State) (a : Answer) : Option Answer :=
  match a with
  | .next t => if look t = look s ∧ t.contexts.map (·.2.killed) = s.contexts.map (·.2.killed) then none else some a
  | _ => some a

/-! ### Waves -/

/-- What a wave may do besides issue: it chooses, ends a fibre of an aborted gang, takes the trap of a sparsity error, or ends. -/
def waveChooses (s : State) (wk : Nat) (w : Wave) : Option Answer :=
  if waveOver s wk w then some (execWaveEnd wk s)
  else
    match (if (sget (gangOf s wk) s.gangs).any (·.abort) then
        w.fibres.findSome? (fun f => acted (·.waves) s (execGangAbortFibreEnd wk f.1 s)) else none) with
    | some a => some a
    | none =>
      match (w.fibres.filter (·.2.sparse.isSome)).findSome? (fun f => acted (·.waves) s (execSparsityTrap wk f.1 s)) with
      | some a => some a
      | none => if w.issued.isNone && (mayChoose s wk w || dumpDue s wk w) then acted (·.waves) s (execWaveChoice wk s) else none

/-- The fetch of a wave's clause. -/
def waveFetches (s : State) (wk : Nat) (w : Wave) : Option Answer :=
  if w.issued.isNone && w.clause.any (fun c => !c.fetched) && !w.page.any (fun p => !p.2) then some (execClauseFetch wk s) else none

/-- The start of a wave's clause. -/
def waveStarts (s : State) (wk : Nat) (w : Wave) : Option Answer :=
  if w.clause.any (fun c => c.fetched && !c.started) then acted (·.waves) s (execClauseStart wk s) else none

/-- What comes before issue: choices, then fetches, then starts (R343, R347). -/
def prepares (s : State) : Option Answer :=
  match s.waves.findSome? (fun e => waveChooses s e.1 e.2) with
  | some a => some a
  | none =>
    match s.waves.findSome? (fun e => waveFetches s e.1 e.2) with
    | some a => some a
    | none => s.waves.findSome? (fun e => waveStarts s e.1 e.2)

/-- Whether a wave can issue the next instruction of its clause in this clock (R341, R342). The second wave of a pair needs
no issue of its own. -/
def canIssue (s : State) (wk : Nat) (w : Wave) : Bool :=
  w.issued.isNone && w.clause.any (fun c =>
    c.started && !c.slots.isEmpty && clauseReason s wk w c = 0
      && ((coreOf s (coreNo wk)).issues < 8 || (w.paired.bind (fun p => sget p s.waves)).any (·.issued.isSome)))

/-- The wave that issues next: of a core's waves that can issue, the first from where its rotation stands (R341). -/
def nextWave (s : State) : Option Nat :=
  let ready := skeys (s.waves.filter (fun e => canIssue s e.1 e.2))
  match ready with
  | [] => none
  | k :: _ =>
    let mine := ready.filter (fun x => coreNo x = coreNo k)
    (mine.find? (fun x => (coreOf s (coreNo k)).rot ≤ x % 64)).or (some k)

/-- The instruction that a wave issues next. -/
def nextInstr (s : State) (wk : Nat) : Instr :=
  match (sget wk s.waves).bind (·.clause) with
  | some c => decodeFields (c.words.getD c.idx 0)
  | none => .unassignedOpcode 0

/-- What ends the block of a fibre in `fence` or `wait.m`. -/
def fibreWakes (s : State) (wk : Nat) (e : Nat × Fibre) : Option Answer :=
  let look (s : State) : Option (Option Blocked) := (fibreAt s wk e.1).map (·.blocked)
  match e.2.blocked with
  | some .fence => acted look s (execFenceComplete wk e.1 s)
  | some (.waitM _ _ _ _ _ _ _ _ _) =>
    (acted look s (execWaitMTimeout wk e.1 s)).orElse fun _ => acted look s (execWaitMReread wk e.1 s)
  | _ => none

/-! ### Operations and engines -/

/-- The step of an operation in flight, unless it waits for translation. -/
def opSteps (s : State) (n : Nat) (o : Op) : Option Answer :=
  let look (s : State) : Option Op := sget n s.ops
  if o.wait.isSome then none
  else
    match o.kind with
    | .load _ _ held => if held.isEmpty then some (execLoadComplete n s) else none
    | .gld _ _ => some (execGldComplete n s)
    | .store held => if held.isEmpty then some (execStoreComplete n s) else none
    | .cflush _ => acted look s (execCflushComplete n s)
    | .pref => some (execPrefComplete n s)
    | .cinvLines _ => some (execCinvComplete n s)
    | .cinvAll => some (execCinvComplete n s)
    | .cinvL1 => some (execCinvComplete n s)
    | .icinv _ => some (execIcinvComplete n s)
    | .smap _ _ => acted look s (execSmapComplete n s)
    | .smapUnmap _ => acted look s (execSmapComplete n s)
    | .swb _ => acted look s (execSwbComplete n s)
    | .ldmc _ _ _ ask _ _ =>
      match ask with
      | line :: _ => acted look s (execMulticastRequest n line s)
      | [] => acted look s (execLoadComplete n s)
    | .launch _ _ => none
    | .tagpub parts => (parts.map (·.2.2)).flatten.findSome? (fun vpn => acted look s (execTagpubPage n vpn s))
    | .copy c =>
      match c.ask with
      | line :: _ => acted look s (execMulticastRequest n line s)
      | [] => c.lines.findSome? (fun line => acted look s (execCopyLineWrite n line s))
    | .coll c => acted (·.ops) s (execCollectivePerform o.ctx (collGroup c) (collSeq c) s)
    | .capinv _ => none
    | .gfx i _ _ _ =>
      acted look s (if isTraceOp i then execTraceComplete n s else if isRastOp i then execRastComplete n s else execTextureSampleComplete n s)
    | .blend _ _ _ => acted look s (execFragmentQueue n s)
    | .rqpush _ _ _ => some (execRecordQueueAnswer n s)
    | .rqpop _ _ _ _ _ => some (execRecordQueueAnswer n s)

/-- The step of a service request, unless it waits for a page. An allocation takes its frames from outside the model. -/
def reqSteps (s : State) (k : Nat) (r : SenReq) : Option Answer :=
  if r.wait.any (fun w => !w.2) then none
  else
    [execCapinvComplete, execAllocationUnmap, execStorageRead, execStorageWrite, execStorageFlush, execQueueCreate, execQueueDestroy].findSome?
      (fun f => acted (·.reqs) s (f k s))

/-- The steps of a matrix engine. -/
def matrixSteps (s : State) (c : Nat) : Option Answer :=
  let look (s : State) : Sparse MatOp × Sparse Cluster := (s.mats, s.clusters)
  match acted look s (execMxeQueueAdmit c s) with
  | some a => some a
  | none =>
    match (clusterOf s c).table.findSome? (fun e =>
        [execMlatchService, execMxePassCommit, execDrainComplete].findSome? (fun f => acted look s (f c e.1 s))) with
    | some a => some a
    | none => (List.range 5).findSome? (fun r => acted look s (execMxeGrant c r s))

/-- The replay of an entry of a core's Silt log. -/
def siltSteps (s : State) (core : Nat) (k : Core) : Option Answer :=
  (List.range (min siltSize k.silt.length)).findSome? (fun i => acted (·.cores) s (execSiltReplay core i s))

/-- What the engines do. -/
def engines (s : State) : Option Answer :=
  match s.ops.findSome? (fun e => opSteps s e.1 e.2) with
  | some a => some a
  | none =>
    match s.mcWins.findSome? (fun e => acted (·.mcWins) s (execMulticastWindowClose e.1 s)) with
    | some a => some a
    | none =>
      match s.reqs.findSome? (fun e => reqSteps s e.1 e.2) with
      | some a => some a
      | none =>
        match (dedup [] (s.mats.map (fun e => clusterNo e.2.wave))).findSome? (matrixSteps s) with
        | some a => some a
        | none =>
          match s.cores.findSome? (fun e => siltSteps s e.1 e.2) with
          | some a => some a
          | none => s.waves.findSome? (fun e => e.2.fibres.findSome? (fibreWakes s e.1))

/-! ### Contexts, launches and gangs -/

/-- An access from outside the core array that waited and whose lines no engine owns any more (R297). -/
def outerSteps (s : State) : Option Answer :=
  s.outer.findSome? (fun e => acted (·.outer) s (outerRun e.1 e.2 s))

/-- What is posted to a ring. -/
def posts (s : State) : Option Answer :=
  (acted (·.reports) s (execDemandReport s)).orElse fun _ =>
  (acted (·.supEvents) s (execSupervisorEvent s)).orElse fun _ =>
  ((skeys s.dbgEvents).findSome? (fun d => acted (·.dbgEvents) s (execDebugEvent d s))).orElse fun _ =>
  (skeys s.contexts).findSome? (fun c => acted (fun s => (s.waves, s.gangs)) s (execUpcallMessagePost c s))

/-- The step of a gang. -/
def gangSteps (s : State) (gk : Nat) (g : Gang) : Option Answer :=
  let n := gk / 2 ^ 32
  let k := gk % 2 ^ 32
  match g.state with
  | .saving => acted (fun s => (s.gangs, s.ops, s.mats)) s (execGangSaveComplete n k s)
  | .restoring => acted (·.gangs) s (execRestoreComplete n k s)
  | _ => acted (·.gangs) s (execGangRetire n k s)

/-- The ends of launches. -/
def launchSteps (s : State) : Option Answer :=
  (skeys s.launches).findSome? (fun n =>
    (acted (·.launches) s (execGridComplete n s)).orElse fun _ => acted (·.launches) s (execCompletionRecordWrite n s))

/-- A tag that retires. -/
def tagSteps (s : State) : Option Answer :=
  s.contexts.findSome? (fun c =>
    (skeys (c.2.tags.filter (fun t => t.2.retiring))).findSome? (fun t => acted (·.contexts) s (execTagRetireComplete c.1 t s)))

/-- Fragments of the order slots that may be applied. -/
def fragmentSteps (s : State) : Option Answer :=
  let look (s : State) : Sparse OrderSlot × Sparse RoCmd := (s.oslots, s.roBusy)
  (s.oslots.findSome? (fun z => (dedup [] (z.2.frags.map (·.tile))).findSome? (fun t => acted look s (execFragmentApply z.1 t s)))).orElse
    fun _ => (s.roBusy.findSome? (fun c => acted look s (execFragmentApply c.2.slot 0 s)))

/-- The dispatch unit, the tag allocators and the raster order units. -/
def dispatches (s : State) : Option Answer :=
  (s.gangs.findSome? (fun e => gangSteps s e.1 e.2)).orElse fun _ =>
  (launchSteps s).orElse fun _ =>
  (if (nextQueue s).isSome then some (execLaunchAccept s) else none).orElse fun _ =>
  (acted (·.gangs) s (execGangPlacementStep s)).orElse fun _ =>
  (tagSteps s).orElse fun _ => fragmentSteps s

/-! ### Time -/

/-- The clock that ticks next: of the cores that hold something and of the I/O die, the one that is furthest behind. -/
def nextClock (s : State) : Nat :=
  let cores := dedup [] (skeys s.cores ++ s.waves.map (fun e => coreNo e.1) ++ s.mats.map (fun e => 4 * clusterNo e.2.wave))
  (cores.foldl (fun (best : Nat × Nat) c =>
    let t := (coreOf s c).clock.toNat
    if t ≤ best.2 then (c, t) else best) (0xFFFF, s.ioClock.toNat)).1

/-- The step that comes next when no wave issues. -/
def agentStep (s : State) : Answer :=
  ((engines s).orElse fun _ => (outerSteps s).orElse fun _ => (posts s).orElse fun _ => dispatches s).getD (execCoreClock (nextClock s) s)

/-! ### Phases (R472 to R477) -/

/-- Whether a step can happen while the device span is not running: power, boot, and the root-of-trust core's answers. -/
def offline : Instr → Bool
  | .powerOnReset | .powerOff | .deviceReset | .imageOffer _ | .imageLoadComplete _ | .imageTimeout
  | .getVersion | .getCapabilities | .getDigests | .negotiateAlgorithms _ _ | .getCertificate _ _ | .challenge _
  | .getMeasurements _ | .readSensors | .readErrorCounters | .readRepairLog | .clearRepairLog | .readIdentity
  | .writeConfigurationRecord _ => true
  | _ => false

/-! ### A loaded word

A program comes to run through a launch. What follows stands for one: a launch with one workgroup of one fibre, resident
on core 0, whose wave has an open and started clause of one fetched word. -/

/-- The launch. -/
def loadedLaunch : Launch :=
  { ctx := 0, queue := 0, prio := 0, order := 0, entry := 0x1000, seed := 0, crec := 0, naddr := 0, ndata := 0, saveb := 0
    ngrp := [1, 1, 1], wgsz := [1, 1, 1], vcnt := 256, gcnt := 128, qcnt := 8, acnt := 8, gang := 1, ks := 0, tdepth := 1, payw := 0
    stash := 0, itag := 0, eclass := 0, dclamp := false, depw := false, child := false, nhost := false, prods := [], uimg := [], windows := []
    depth := 0, parent := none, nextGang := 1, status := 0, nwg := 0, nkill := 0, nsave := 0, nmig := 0, start := some (0, 0), finish := (0, 0)
    energy := 0, trig := [], done := 0, completed := false, recorded := false, page := none }

/-- The header of a clause of one word: its engine class, and no flags. -/
def loadedHeader (word : W64) : W64 := BitVec.ofNat 64 (0xD400000000000000 + ((form (decodeFields word)).map (·.cls)).getD 0 * 2 ^ 16)

/-- The wave: a clause at 0x1000 with the word at 0x1008. -/
def loadedWave (word : W64) : Wave :=
  { newWave 1 loadedLaunch 0 0 with
    clause := some { hdr := 0x1000, header := loadedHeader word, words := [word], idx := 0, slots := [0], ll := false, fetched := true
                     started := true, chosen := 0 } }

/-- A device with the word loaded, which its next step runs. -/
def loadWord (s : State) (word : W64) : State :=
  { s with
    phase := .running, agenda := [], cur := some 0
    contexts := [(0, { recPa := 0, tags := [], waiters := [], overrun := false, killed := false, killEvent := none, destroy := none })]
    launches := [(1, loadedLaunch)], gangs := [(key2 1 0, { Gang.new with state := .resident, cores := [0] })]
    wgs := [(key2 1 0, { core := 0, waves := [0], tiles := [], retired := false, stalls := [] })]
    waves := [(0, loadedWave word)], ops := [], mats := [], clusters := [], cores := sdel 0 s.cores }

end Sys2Proof.Machine
end

