-- ==== Sys2Proof/Machine/System.lean ====
section
/-! DEFINITION. Traps, the return from the handler, services, upcalls and counters, opcodes 0xF0 to 0xF5 (R199
to R207), and words of no assigned opcode (R99). -/

namespace Sys2Proof.Machine

/-- TRAP (R199). -/
def execTrapI (g : Guard) (x : SYS) (s : State) : Answer :=
  issue (.trapI g x) g .none (fun b s => trapAll s b.wk b.here b.act { kind := 6, sub := x.code }) s

/-- `brk`: the fibre stops under an attached debugger and traps otherwise (R199, R457). -/
def brkBody (x : SYS) (b : Bundle) (s : State) : State :=
  match debugSlot s (ctxOf s b.wk) with
  | some d => b.act.foldl (fun s y => stopFibre s b.wk y b.here d 1 0 0 x.code) s
  | none => trapAll s b.wk b.here b.act { kind := 7, sub := x.code }
/-- BRK (R199). -/
def execBrk (g : Guard) (x : SYS) (s : State) : Answer := issue (.brk g x) g .none (brkBody x) s

/-- `tret` with an action, fibre by fibre: an abort that one raises ends the others first. -/
def tretBody (act : TretAct) (b : Bundle) (s : State) : State :=
  b.act.foldl (fun s x => tret s b.wk x b.here act) s
/-- TRET_RETRY (R200). -/
def execTretRetry (g : Guard) (x : SYS) (s : State) : Answer := issue (.tretRetry g x) g .none (tretBody .retry) s
/-- TRET_SKIP (R200). -/
def execTretSkip (g : Guard) (x : SYS) (s : State) : Answer := issue (.tretSkip g x) g .none (tretBody .skip) s
/-- TRET_KILLF (R202). -/
def execTretKillf (g : Guard) (x : SYS) (s : State) : Answer := issue (.tretKillf g x) g .none (tretBody .killf) s
/-- TRET_KILLG (R202). -/
def execTretKillg (g : Guard) (x : SYS) (s : State) : Answer := issue (.tretKillg g x) g .none (tretBody .killg) s

/-! ### Services (R203, R204, R439, R440) -/

/-- An entry of a context's capability table; an index outside the table has none (R410, R439). -/
def capEntry (s : State) (ctx index : Nat) : Option Nat :=
  if index < ctxRd s ctx 0x88 4 then some (rd s (ctxRd s ctx 0x80 8 + 32 * index) 32) else none

/-- Whether a capability entry is valid: V, reserved values, and a known service (R439). -/
def capValid (e : Nat) : Bool :=
  let svc := bits e 104 8
  e.testBit 112 && bits e 113 7 = 0 && bits e 120 8 = 0
    && (if svc = 1 then bits e 136 56 = 0 else if svc = 3 then bits e 144 112 = 0 else svc = 2)

/-- Whether the gate passes a request (R204). Both the RIGHTS of the capability and those of the entry must grant the class, and an
operation of 8 or more, which has no bit of RIGHTS, is refused here (DESIGN CHOICE, log 33). -/
def gatePasses (s : State) (ctx : Nat) (cap : BitVec 128) (op : Nat) : Bool :=
  let c := cap.toNat
  match capEntry s ctx (bits c 0 16) with
  | none => false
  | some e => capValid e && bits c 64 64 = bits e 0 64 && bits c 32 32 = bits e 64 32 && bits c 16 8 = bits e 104 8
      && op < 8 && c.testBit (24 + op) && e.testBit (96 + op)

/-- Requests in flight at the SEN on the device (R440). -/
def senLoad (s : State) : Nat := (s.reqs.filter (fun r => r.2.passed && r.2.result.isNone)).length

/-- A request as the SEN accepts it: a read owns every line of its buffer (R441), unless its checks fail. -/
def SenReq.accepted (s : State) (r : SenReq) : SenReq :=
  if r.storage && r.code = 0 && storageGood s r then
    { r with own := (List.range (ceilDiv (ptrVa r.buf % 128 + r.bytes) 128)).map (fun i => ptrVa r.buf / 128 + i) }
  else r

/-- The request of one fibre, as the gate answers it. -/
def capRequest (s : State) (b : Bundle) (x : SYS) (n slot : Nat) : Option SenReq :=
  match sget b.wk s.waves, fibreAt s b.wk slot with
  | some w, some f =>
    let ctx := ctxOf s b.wk
    let cap : BitVec 128 := w.rg (x.ga.toNat + 1) ++ w.rg x.ga.toNat
    let pass := gatePasses s ctx cap x.code.toNat
    let busy := 1024 ≤ senLoad s
    let r : SenReq :=
      { op := n, wave := b.wk, slot := slot, ctx := ctx, launch := w.launch, wg := w.wg, lfi := f.lfi, cap := cap, code := x.code
        args := (run x.va.toNat 8).map f.rv, tag := f.ct, pc := b.pc, passed := pass && !busy
        entry := (capEntry s ctx (bits cap.toNat 0 16)).getD 0, issued := false, wait := none
        result := if !pass then some [1, 0, 0, 0] else if busy then some [3, 0, 0, 0] else none
        pinned := [], own := [], orphan := false }
    some (r.accepted s)
  | _, _ => none

/-- `capinv`: one request for each fibre. A storage request holds the fibre's tag, under which it accesses its buffer (R252,
R441). -/
def capinvBody (x : SYS) (b : Bundle) (s : State) : State :=
  if b.act.isEmpty then s
  else
    let n := s.nextOp
    let r := b.act.foldl (fun (t : State × List CapReq) slot =>
      match capRequest t.1 b x n slot with
      | none => t
      | some q =>
        let k := t.1.nextReq
        let s := { t.1 with reqs := sput k q t.1.reqs, nextReq := k + 1 }
        (if q.storage && q.code.toNat ≤ 1 then tagHold s q.ctx q.tag.toNat else s, t.2 ++ [{ slot := slot, vr := x.vb.toNat, req := k }])) (s, [])
    if r.2.isEmpty then r.1 else startOp r.1 b (.capinv r.2)
/-- CAPINV (R204). -/
def execCapinv (g : Guard) (x : SYS) (s : State) : Answer := issue (.capinv g x) g .bundle (capinvBody x) s

/-! ### Upcalls (R205, R206) -/

/-- The 64 bytes of an upcall's message; CLOCK is written when it is posted (R206). -/
def upcallMessage (s : State) (b : Bundle) (w : Wave) (x : SYS) (seq : BitVec 16) : List Byte :=
  toBytesLE 64 ((w.rg (x.ga.toNat + 1)).toNat * 2 ^ 384 + (w.rg x.ga.toNat).toNat * 2 ^ 320 + b.pc.toNat % 2 ^ 57 * 2 ^ 256
    + (b.act.map (fun i => 2 ^ i)).sum * 2 ^ 224 + w.widx * 2 ^ 192 + w.wg * 2 ^ 160 + w.launch * 2 ^ 128 + seq.toNat * 2 ^ 112
    + b.wk % 64 * 2 ^ 103 + coreNo b.wk * 2 ^ 96 + ctxOf s b.wk * 2 ^ 80 + x.code.toNat * 2 ^ 64)

/-- `upcall`: the wave is parked, with its message to be posted. -/
def upcallBody (x : SYS) (b : Bundle) (s : State) : State :=
  match b.wave s with
  | none => s
  | some w =>
    if b.act.isEmpty then s
    else
      let core := coreNo b.wk
      let seq := (coreOf s core).upSeq
      let msg := upcallMessage s b w x seq
      let s := modCore s core (fun c => { c with upSeq := c.upSeq + 1 })
      let s := modWave s b.wk (fun w => { w with
        park := some { order := s.nextReq, core := core, wslot := b.wk % 64, seq := seq, reg := x.ga.toNat, msg := some msg, reply := none } })
      { s with nextReq := s.nextReq + 1 }
/-- UPCALL (R205). -/
def execUpcall (g : Guard) (x : SYS) (s : State) : Answer := issue (.upcall g x) g .bundle (upcallBody x) s

/-! ### Counters (R207) -/

/-- A counter as one fibre reads it. The fibre's own count is that before this instruction. -/
def counter (s : State) (wk : Nat) (w : Wave) (f : Fibre) (n : Nat) : W64 :=
  match n with
  | 0 => (coreOf s (coreNo wk)).clock
  | 1 => BitVec.ofNat 64 w.issueNo
  | 2 => BitVec.ofNat 64 (f.issued - 1)
  | n => BitVec.ofNat 64 (sgetD 0 w.stall (n - 0x10))

/-- `rdctr`. -/
def rdctrBody (x : SYS) (b : Bundle) (s : State) : State :=
  perFibre (fun w _ f =>
    let f := f.setV2 x.va.toNat (counter s b.wk w f x.code.toNat)
    if x.sysopx.getLsbD 0 then f.setV x.vb.toNat (BitVec.ofNat 32 (coreNo b.wk)) else f) b s
/-- RDCTR (R207). -/
def execRdctr (g : Guard) (x : SYS) (s : State) : Answer := issue (.rdctr g x) g .none (rdctrBody x) s

/-! ### Unassigned opcodes (R99) -/

/-- UNASSIGNED_OPCODE (R99, R100): every fibre of the bundle traps as an illegal instruction. -/
def execUnassignedOpcode (w : BitVec 64) (s : State) : Answer :=
  issue (.unassignedOpcode w) { gp := 0, gs := 0 } .none (fun _ s => s) s

end Sys2Proof.Machine
end

