-- ==== Sys2Proof/Machine/Dispatch.lean ====
section
/-! DEFINITION. The dispatch of a step to its meaning: one arm for each constructor of `Instr`. -/

namespace Sys2Proof.Machine

/-- The effect of a step of the D9 on its state. -/
def exec (i : Instr) (s : State) : Host.Outcome State Fault Refusal :=
  match i with
  | .iadd g x => Sys2Proof.Machine.execIadd g x s
  | .isub g x => Sys2Proof.Machine.execIsub g x s
  | .imul g x => Sys2Proof.Machine.execImul g x s
  | .imulhi g x => Sys2Proof.Machine.execImulhi g x s
  | .imad g x => Sys2Proof.Machine.execImad g x s
  | .imadw g x => Sys2Proof.Machine.execImadw g x s
  | .idiv g x => Sys2Proof.Machine.execIdiv g x s
  | .irem g x => Sys2Proof.Machine.execIrem g x s
  | .imin g x => Sys2Proof.Machine.execImin g x s
  | .imax g x => Sys2Proof.Machine.execImax g x s
  | .iabs g x => Sys2Proof.Machine.execIabs g x s
  | .ineg g x => Sys2Proof.Machine.execIneg g x s
  | .addc g x => Sys2Proof.Machine.execAddc g x s
  | .subb g x => Sys2Proof.Machine.execSubb g x s
  | .lea g x => Sys2Proof.Machine.execLea g x s
  | .andB g x => Sys2Proof.Machine.execAndB g x s
  | .orB g x => Sys2Proof.Machine.execOrB g x s
  | .xorB g x => Sys2Proof.Machine.execXorB g x s
  | .notB g x => Sys2Proof.Machine.execNotB g x s
  | .shl g x => Sys2Proof.Machine.execShl g x s
  | .shr g x => Sys2Proof.Machine.execShr g x s
  | .sar g x => Sys2Proof.Machine.execSar g x s
  | .rot g x => Sys2Proof.Machine.execRot g x s
  | .popc g x => Sys2Proof.Machine.execPopc g x s
  | .clz g x => Sys2Proof.Machine.execClz g x s
  | .brev g x => Sys2Proof.Machine.execBrev g x s
  | .bfx g x => Sys2Proof.Machine.execBfx g x s
  | .bfi g x => Sys2Proof.Machine.execBfi g x s
  | .icmp g x => Sys2Proof.Machine.execIcmp g x s
  | .fcmp g x => Sys2Proof.Machine.execFcmp g x s
  | .sel g x => Sys2Proof.Machine.execSel g x s
  | .pset g x => Sys2Proof.Machine.execPset g x s
  | .psetSave g x => Sys2Proof.Machine.execPsetSave g x s
  | .psetLoad g x => Sys2Proof.Machine.execPsetLoad g x s
  | .plop g x => Sys2Proof.Machine.execPlop g x s
  | .fadd g x => Sys2Proof.Machine.execFadd g x s
  | .fsub g x => Sys2Proof.Machine.execFsub g x s
  | .fmul g x => Sys2Proof.Machine.execFmul g x s
  | .ffma g x => Sys2Proof.Machine.execFfma g x s
  | .fmin g x => Sys2Proof.Machine.execFmin g x s
  | .fmax g x => Sys2Proof.Machine.execFmax g x s
  | .frcp g x => Sys2Proof.Machine.execFrcp g x s
  | .frsq g x => Sys2Proof.Machine.execFrsq g x s
  | .fsqrt g x => Sys2Proof.Machine.execFsqrt g x s
  | .fdiv g x => Sys2Proof.Machine.execFdiv g x s
  | .fex2 g x => Sys2Proof.Machine.execFex2 g x s
  | .flg2 g x => Sys2Proof.Machine.execFlg2 g x s
  | .fsin g x => Sys2Proof.Machine.execFsin g x s
  | .fcos g x => Sys2Proof.Machine.execFcos g x s
  | .frnd g x => Sys2Proof.Machine.execFrnd g x s
  | .fclass g x => Sys2Proof.Machine.execFclass g x s
  | .dadd g x => Sys2Proof.Machine.execDadd g x s
  | .dmul g x => Sys2Proof.Machine.execDmul g x s
  | .dfma g x => Sys2Proof.Machine.execDfma g x s
  | .ddiv g x => Sys2Proof.Machine.execDdiv g x s
  | .hadd2 g x => Sys2Proof.Machine.execHadd2 g x s
  | .hmul2 g x => Sys2Proof.Machine.execHmul2 g x s
  | .hfma2 g x => Sys2Proof.Machine.execHfma2 g x s
  | .bfma2 g x => Sys2Proof.Machine.execBfma2 g x s
  | .cvt g x => Sys2Proof.Machine.execCvt g x s
  | .f8pk g x => Sys2Proof.Machine.execF8pk g x s
  | .f8upk g x => Sys2Proof.Machine.execF8upk g x s
  | .mov g x => Sys2Proof.Machine.execMov g x s
  | .movi g x => Sys2Proof.Machine.execMovi g x s
  | .movk g x => Sys2Proof.Machine.execMovk g x s
  | .movg g x => Sys2Proof.Machine.execMovg g x s
  | .vtog g x => Sys2Proof.Machine.execVtog g x s
  | .rdsr g x => Sys2Proof.Machine.execRdsr g x s
  | .wrsr g x => Sys2Proof.Machine.execWrsr g x s
  | .stage g x => Sys2Proof.Machine.execStage g x s
  | .shfl g x => Sys2Proof.Machine.execShfl g x s
  | .vote g x => Sys2Proof.Machine.execVote g x s
  | .lred g x => Sys2Proof.Machine.execLred g x s
  | .lscan g x => Sys2Proof.Machine.execLscan g x s
  | .lfind g x => Sys2Proof.Machine.execLfind g x s
  | .iaddRk g x => Sys2Proof.Machine.execIaddRk g x s
  | .isubRk g x => Sys2Proof.Machine.execIsubRk g x s
  | .imulRk g x => Sys2Proof.Machine.execImulRk g x s
  | .imadRk g x => Sys2Proof.Machine.execImadRk g x s
  | .andRk g x => Sys2Proof.Machine.execAndRk g x s
  | .orRk g x => Sys2Proof.Machine.execOrRk g x s
  | .xorRk g x => Sys2Proof.Machine.execXorRk g x s
  | .icmpRk g x => Sys2Proof.Machine.execIcmpRk g x s
  | .faddRk g x => Sys2Proof.Machine.execFaddRk g x s
  | .fmulRk g x => Sys2Proof.Machine.execFmulRk g x s
  | .ffmaRk g x => Sys2Proof.Machine.execFfmaRk g x s
  | .fcmpRk g x => Sys2Proof.Machine.execFcmpRk g x s
  | .iaddRi g x => Sys2Proof.Machine.execIaddRi g x s
  | .imulRi g x => Sys2Proof.Machine.execImulRi g x s
  | .andRi g x => Sys2Proof.Machine.execAndRi g x s
  | .orRi g x => Sys2Proof.Machine.execOrRi g x s
  | .xorRi g x => Sys2Proof.Machine.execXorRi g x s
  | .shlRi g x => Sys2Proof.Machine.execShlRi g x s
  | .shrRi g x => Sys2Proof.Machine.execShrRi g x s
  | .sarRi g x => Sys2Proof.Machine.execSarRi g x s
  | .icmpRi g x => Sys2Proof.Machine.execIcmpRi g x s
  | .faddRi g x => Sys2Proof.Machine.execFaddRi g x s
  | .fmulRi g x => Sys2Proof.Machine.execFmulRi g x s
  | .gadd g x => Sys2Proof.Machine.execGadd g x s
  | .gsub g x => Sys2Proof.Machine.execGsub g x s
  | .gmul g x => Sys2Proof.Machine.execGmul g x s
  | .gmin g x => Sys2Proof.Machine.execGmin g x s
  | .gand g x => Sys2Proof.Machine.execGand g x s
  | .gor g x => Sys2Proof.Machine.execGor g x s
  | .gxor g x => Sys2Proof.Machine.execGxor g x s
  | .gshl g x => Sys2Proof.Machine.execGshl g x s
  | .gshr g x => Sys2Proof.Machine.execGshr g x s
  | .gcmp g x => Sys2Proof.Machine.execGcmp g x s
  | .gsel g x => Sys2Proof.Machine.execGsel g x s
  | .gmov g x => Sys2Proof.Machine.execGmov g x s
  | .glea g x => Sys2Proof.Machine.execGlea g x s
  | .gaddRi g x => Sys2Proof.Machine.execGaddRi g x s
  | .gandRi g x => Sys2Proof.Machine.execGandRi g x s
  | .gorRi g x => Sys2Proof.Machine.execGorRi g x s
  | .gxorRi g x => Sys2Proof.Machine.execGxorRi g x s
  | .gshlRi g x => Sys2Proof.Machine.execGshlRi g x s
  | .gshrRi g x => Sys2Proof.Machine.execGshrRi g x s
  | .gcmpRi g x => Sys2Proof.Machine.execGcmpRi g x s
  | .gmovRi g x => Sys2Proof.Machine.execGmovRi g x s
  | .gaddRk g x => Sys2Proof.Machine.execGaddRk g x s
  | .gcmpRk g x => Sys2Proof.Machine.execGcmpRk g x s
  | .gmovRk g x => Sys2Proof.Machine.execGmovRk g x s
  | .gld g x => Sys2Proof.Machine.execGld g x s
  | .ld g x => Sys2Proof.Machine.execLd g x s
  | .st g x => Sys2Proof.Machine.execSt g x s
  | .lds g x => Sys2Proof.Machine.execLds g x s
  | .sts g x => Sys2Proof.Machine.execSts g x s
  | .ldk g x => Sys2Proof.Machine.execLdk g x s
  | .ldx g x => Sys2Proof.Machine.execLdx g x s
  | .atom g x => Sys2Proof.Machine.execAtom g x s
  | .redI g x => Sys2Proof.Machine.execRedI g x s
  | .fence g x => Sys2Proof.Machine.execFence g x s
  | .cflush g x => Sys2Proof.Machine.execCflush g x s
  | .cinvK g x => Sys2Proof.Machine.execCinvK g x s
  | .cinvKall g x => Sys2Proof.Machine.execCinvKall g x s
  | .cinvL1 g x => Sys2Proof.Machine.execCinvL1 g x s
  | .icinv g x => Sys2Proof.Machine.execIcinv g x s
  | .pref g x => Sys2Proof.Machine.execPref g x s
  | .smap g x => Sys2Proof.Machine.execSmap g x s
  | .smapUnmap g x => Sys2Proof.Machine.execSmapUnmap g x s
  | .swb g x => Sys2Proof.Machine.execSwb g x s
  | .swbAll g x => Sys2Proof.Machine.execSwbAll g x s
  | .ldmc g x => Sys2Proof.Machine.execLdmc g x s
  | .mcfgBind g x => Sys2Proof.Machine.execMcfgBind g x s
  | .mcfgUnbind g x => Sys2Proof.Machine.execMcfgUnbind g x s
  | .mcfgMode g x => Sys2Proof.Machine.execMcfgMode g x s
  | .mlatch g x => Sys2Proof.Machine.execMlatch g x s
  | .mma g x => Sys2Proof.Machine.execMma g x s
  | .mmas g x => Sys2Proof.Machine.execMmas g x s
  | .mmat g x => Sys2Proof.Machine.execMmat g x s
  | .mdrain g x => Sys2Proof.Machine.execMdrain g x s
  | .mzero g x => Sys2Proof.Machine.execMzero g x s
  | .mstat g x => Sys2Proof.Machine.execMstat g x s
  | .cpy g x => Sys2Proof.Machine.execCpy g x s
  | .cpyg g x => Sys2Proof.Machine.execCpyg g x s
  | .cpys g x => Sys2Proof.Machine.execCpys g x s
  | .cpymc g x => Sys2Proof.Machine.execCpymc g x s
  | .coll g x => Sys2Proof.Machine.execColl g x s
  | .trec g x => Sys2Proof.Machine.execTrec g x s
  | .bra g x => Sys2Proof.Machine.execBra g x s
  | .brx g x => Sys2Proof.Machine.execBrx g x s
  | .brxRel g x => Sys2Proof.Machine.execBrxRel g x s
  | .call g x => Sys2Proof.Machine.execCall g x s
  | .callX g x => Sys2Proof.Machine.execCallX g x s
  | .ret g x => Sys2Proof.Machine.execRet g x s
  | .fork g x => Sys2Proof.Machine.execFork g x s
  | .exit g x => Sys2Proof.Machine.execExit g x s
  | .yield g x => Sys2Proof.Machine.execYield g x s
  | .nop g x => Sys2Proof.Machine.execNop g x s
  | .launch g x => Sys2Proof.Machine.execLaunch g x s
  | .barinit g x => Sys2Proof.Machine.execBarinit g x s
  | .bararr g x => Sys2Proof.Machine.execBararr g x s
  | .barexp g x => Sys2Proof.Machine.execBarexp g x s
  | .waitPh g x => Sys2Proof.Machine.execWaitPh g x s
  | .waitM g x => Sys2Proof.Machine.execWaitM g x s
  | .trigger g x => Sys2Proof.Machine.execTrigger g x s
  | .gridwait g x => Sys2Proof.Machine.execGridwait g x s
  | .rsvclr g x => Sys2Proof.Machine.execRsvclr g x s
  | .rsvupd g x => Sys2Proof.Machine.execRsvupd g x s
  | .rsvmrg g x => Sys2Proof.Machine.execRsvmrg g x s
  | .rsvcap g x => Sys2Proof.Machine.execRsvcap g x s
  | .rsvcapI g x => Sys2Proof.Machine.execRsvcapI g x s
  | .rsvfin g x => Sys2Proof.Machine.execRsvfin g x s
  | .rsvld g x => Sys2Proof.Machine.execRsvld g x s
  | .rsvldS g x => Sys2Proof.Machine.execRsvldS g x s
  | .rsvldX g x => Sys2Proof.Machine.execRsvldX g x s
  | .rsvst g x => Sys2Proof.Machine.execRsvst g x s
  | .rsvstS g x => Sys2Proof.Machine.execRsvstS g x s
  | .rsvdraw g x => Sys2Proof.Machine.execRsvdraw g x s
  | .tagnew g x => Sys2Proof.Machine.execTagnew g x s
  | .tagnewTry g x => Sys2Proof.Machine.execTagnewTry g x s
  | .tagret g x => Sys2Proof.Machine.execTagret g x s
  | .tagset g x => Sys2Proof.Machine.execTagset g x s
  | .tagget g x => Sys2Proof.Machine.execTagget g x s
  | .taggetInfo g x => Sys2Proof.Machine.execTaggetInfo g x s
  | .tagpub g x => Sys2Proof.Machine.execTagpub g x s
  | .trace g x => Sys2Proof.Machine.execTrace g x s
  | .traceRej g x => Sys2Proof.Machine.execTraceRej g x s
  | .traceAcc g x => Sys2Proof.Machine.execTraceAcc g x s
  | .hret g x => Sys2Proof.Machine.execHret g x s
  | .traq g x => Sys2Proof.Machine.execTraq g x s
  | .rast g x => Sys2Proof.Machine.execRast g x s
  | .tex g x => Sys2Proof.Machine.execTex g x s
  | .texl g x => Sys2Proof.Machine.execTexl g x s
  | .texg g x => Sys2Proof.Machine.execTexg g x s
  | .texres g x => Sys2Proof.Machine.execTexres g x s
  | .texfb g x => Sys2Proof.Machine.execTexfb g x s
  | .blend g x => Sys2Proof.Machine.execBlend g x s
  | .rqpush g x => Sys2Proof.Machine.execRqpush g x s
  | .rqpop g x => Sys2Proof.Machine.execRqpop g x s
  | .trapI g x => Sys2Proof.Machine.execTrapI g x s
  | .brk g x => Sys2Proof.Machine.execBrk g x s
  | .tretRetry g x => Sys2Proof.Machine.execTretRetry g x s
  | .tretSkip g x => Sys2Proof.Machine.execTretSkip g x s
  | .tretKillf g x => Sys2Proof.Machine.execTretKillf g x s
  | .tretKillg g x => Sys2Proof.Machine.execTretKillg g x s
  | .capinv g x => Sys2Proof.Machine.execCapinv g x s
  | .upcall g x => Sys2Proof.Machine.execUpcall g x s
  | .rdctr g x => Sys2Proof.Machine.execRdctr g x s
  | .waveChoice wave => Sys2Proof.Machine.execWaveChoice wave s
  | .clauseFetch wave => Sys2Proof.Machine.execClauseFetch wave s
  | .clauseStart wave => Sys2Proof.Machine.execClauseStart wave s
  | .gangAbortFibreEnd wave slot => Sys2Proof.Machine.execGangAbortFibreEnd wave slot s
  | .sparsityTrap wave slot => Sys2Proof.Machine.execSparsityTrap wave slot s
  | .waveEnd wave => Sys2Proof.Machine.execWaveEnd wave s
  | .gangRetire launch gang => Sys2Proof.Machine.execGangRetire launch gang s
  | .gridComplete launch => Sys2Proof.Machine.execGridComplete launch s
  | .completionRecordWrite launch => Sys2Proof.Machine.execCompletionRecordWrite launch s
  | .loadComplete op => Sys2Proof.Machine.execLoadComplete op s
  | .storeComplete op => Sys2Proof.Machine.execStoreComplete op s
  | .siltReplay core entry => Sys2Proof.Machine.execSiltReplay core entry s
  | .pageWalk core ctx va acc => Sys2Proof.Machine.execPageWalk core ctx va acc s
  | .demandReport => Sys2Proof.Machine.execDemandReport s
  | .cellMaterialise ctx vpn tag => Sys2Proof.Machine.execCellMaterialise ctx vpn tag s
  | .tagRetireComplete ctx tag => Sys2Proof.Machine.execTagRetireComplete ctx tag s
  | .tagpubPage op vpn => Sys2Proof.Machine.execTagpubPage op vpn s
  | .multicastRequest op line => Sys2Proof.Machine.execMulticastRequest op line s
  | .multicastWindowClose win => Sys2Proof.Machine.execMulticastWindowClose win s
  | .windowLineFill launch gang win line => Sys2Proof.Machine.execWindowLineFill launch gang win line s
  | .fenceComplete wave slot => Sys2Proof.Machine.execFenceComplete wave slot s
  | .waitMReread wave slot => Sys2Proof.Machine.execWaitMReread wave slot s
  | .waitMTimeout wave slot => Sys2Proof.Machine.execWaitMTimeout wave slot s
  | .mxeQueueAdmit cluster => Sys2Proof.Machine.execMxeQueueAdmit cluster s
  | .mxeGrant cluster res => Sys2Proof.Machine.execMxeGrant cluster res s
  | .mxePassCommit cluster entry => Sys2Proof.Machine.execMxePassCommit cluster entry s
  | .mlatchService cluster entry => Sys2Proof.Machine.execMlatchService cluster entry s
  | .drainComplete cluster entry => Sys2Proof.Machine.execDrainComplete cluster entry s
  | .copyLineWrite op line => Sys2Proof.Machine.execCopyLineWrite op line s
  | .collectivePerform ctx group seq => Sys2Proof.Machine.execCollectivePerform ctx group seq s
  | .capinvComplete req => Sys2Proof.Machine.execCapinvComplete req s
  | .allocationMap req frames => Sys2Proof.Machine.execAllocationMap req frames s
  | .allocationUnmap req => Sys2Proof.Machine.execAllocationUnmap req s
  | .storageRead req => Sys2Proof.Machine.execStorageRead req s
  | .storageWrite req => Sys2Proof.Machine.execStorageWrite req s
  | .storageFlush req => Sys2Proof.Machine.execStorageFlush req s
  | .queueCreate req => Sys2Proof.Machine.execQueueCreate req s
  | .queueDestroy req => Sys2Proof.Machine.execQueueDestroy req s
  | .nvmeCompletion req status blocks data => Sys2Proof.Machine.execNvmeCompletion req status blocks data s
  | .traceComplete op => Sys2Proof.Machine.execTraceComplete op s
  | .rastComplete op => Sys2Proof.Machine.execRastComplete op s
  | .textureSampleComplete op => Sys2Proof.Machine.execTextureSampleComplete op s
  | .fragmentQueue op => Sys2Proof.Machine.execFragmentQueue op s
  | .fragmentApply oslot tile => Sys2Proof.Machine.execFragmentApply oslot tile s
  | .tileEvict oslot tile => Sys2Proof.Machine.execTileEvict oslot tile s
  | .rqPush k q => Sys2Proof.Machine.execRqPush k q s
  | .rqPop k q => Sys2Proof.Machine.execRqPop k q s
  | .roRegister k v => Sys2Proof.Machine.execRoRegister k v s
  | .roOpenGroup k v => Sys2Proof.Machine.execRoOpenGroup k v s
  | .roCloseGroup k v => Sys2Proof.Machine.execRoCloseGroup k v s
  | .roFlush k v => Sys2Proof.Machine.execRoFlush k v s
  | .roRelease k v => Sys2Proof.Machine.execRoRelease k v s
  | .txFence v => Sys2Proof.Machine.execTxFence v s
  | .xlInvPage k v => Sys2Proof.Machine.execXlInvPage k v s
  | .xlInvContext k v => Sys2Proof.Machine.execXlInvContext k v s
  | .xlInvRegion k v => Sys2Proof.Machine.execXlInvRegion k v s
  | .xlInvAll k v => Sys2Proof.Machine.execXlInvAll k v s
  | .xlDoneMapped k v => Sys2Proof.Machine.execXlDoneMapped k v s
  | .xlDoneUnbacked k v => Sys2Proof.Machine.execXlDoneUnbacked k v s
  | .xlDonePoolRefilled k v => Sys2Proof.Machine.execXlDonePoolRefilled k v s
  | .xlCmdGrowCellTable k v => Sys2Proof.Machine.execXlCmdGrowCellTable k v s
  | .lqTailWrite q v => Sys2Proof.Machine.execLqTailWrite q v s
  | .lqCfgWrite q v => Sys2Proof.Machine.execLqCfgWrite q v s
  | .lqErrWrite q v => Sys2Proof.Machine.execLqErrWrite q v s
  | .launchAccept => Sys2Proof.Machine.execLaunchAccept s
  | .gangPlacementStep => Sys2Proof.Machine.execGangPlacementStep s
  | .gangSaveComplete launch gang => Sys2Proof.Machine.execGangSaveComplete launch gang s
  | .restoreComplete launch gang => Sys2Proof.Machine.execRestoreComplete launch gang s
  | .governorSample temps power => Sys2Proof.Machine.execGovernorSample temps power s
  | .dpCreateContext k v => Sys2Proof.Machine.execDpCreateContext k v s
  | .dpDestroyContext k v => Sys2Proof.Machine.execDpDestroyContext k v s
  | .dpSaveGang k v => Sys2Proof.Machine.execDpSaveGang k v s
  | .dpReleaseGang k v => Sys2Proof.Machine.execDpReleaseGang k v s
  | .dpKillLaunch k v => Sys2Proof.Machine.execDpKillLaunch k v s
  | .dpBindPage k v => Sys2Proof.Machine.execDpBindPage k v s
  | .submissionWrite page data => Sys2Proof.Machine.execSubmissionWrite page data s
  | .submissionPageDiscard page => Sys2Proof.Machine.execSubmissionPageDiscard page s
  | .hostBar4Read at' len => Sys2Proof.Machine.execHostBar4Read at' len s
  | .hostBar4Write addr data => Sys2Proof.Machine.execHostBar4Write addr data s
  | .supervisorEvent => Sys2Proof.Machine.execSupervisorEvent s
  | .upcallMessagePost ctx => Sys2Proof.Machine.execUpcallMessagePost ctx s
  | .upCmdResume k v => Sys2Proof.Machine.execUpCmdResume k v s
  | .smCtlWrite core v => Sys2Proof.Machine.execSmCtlWrite core v s
  | .sample core => Sys2Proof.Machine.execSample core s
  | .energyIntervalEnd meter energy => Sys2Proof.Machine.execEnergyIntervalEnd meter energy s
  | .debugEvent d => Sys2Proof.Machine.execDebugEvent d s
  | .dbResume d v => Sys2Proof.Machine.execDbResume d v s
  | .dbDump d v => Sys2Proof.Machine.execDbDump d v s
  | .dbStop d v => Sys2Proof.Machine.execDbStop d v s
  | .powerOnReset => Sys2Proof.Machine.execPowerOnReset s
  | .powerOff => Sys2Proof.Machine.execPowerOff s
  | .patrolScrub pa => Sys2Proof.Machine.execPatrolScrub pa s
  | .laneSpare port => Sys2Proof.Machine.execLaneSpare port s
  | .clusterFailure stack cluster => Sys2Proof.Machine.execClusterFailure stack cluster s
  | .heartbeatSend => Sys2Proof.Machine.execHeartbeatSend s
  | .heartbeatReceive port peer root serial count => Sys2Proof.Machine.execHeartbeatReceive port peer root serial count s
  | .heartbeatLoss peer => Sys2Proof.Machine.execHeartbeatLoss peer s
  | .fenceCommand peer => Sys2Proof.Machine.execFenceCommand peer s
  | .rootLoss => Sys2Proof.Machine.execRootLoss s
  | .rootLossMessage port peer => Sys2Proof.Machine.execRootLossMessage port peer s
  | .imageOffer offers => Sys2Proof.Machine.execImageOffer offers s
  | .imageLoadComplete image => Sys2Proof.Machine.execImageLoadComplete image s
  | .imageTimeout => Sys2Proof.Machine.execImageTimeout s
  | .fabricRead peer pa len => Sys2Proof.Machine.execFabricRead peer pa len s
  | .fabricWrite peer pa data => Sys2Proof.Machine.execFabricWrite peer pa data s
  | .fabricAtomic peer pa op ty x y => Sys2Proof.Machine.execFabricAtomic peer pa op ty x y s
  | .getVersion => Sys2Proof.Machine.execGetVersion s
  | .getCapabilities => Sys2Proof.Machine.execGetCapabilities s
  | .negotiateAlgorithms sha3 mldsa => Sys2Proof.Machine.execNegotiateAlgorithms sha3 mldsa s
  | .getDigests => Sys2Proof.Machine.execGetDigests s
  | .getCertificate offset len => Sys2Proof.Machine.execGetCertificate offset len s
  | .challenge nonce => Sys2Proof.Machine.execChallenge nonce s
  | .getMeasurements index => Sys2Proof.Machine.execGetMeasurements index s
  | .repairLogWrite index v => Sys2Proof.Machine.execRepairLogWrite index v s
  | .readSensors => Sys2Proof.Machine.execReadSensors s
  | .readErrorCounters => Sys2Proof.Machine.execReadErrorCounters s
  | .readRepairLog => Sys2Proof.Machine.execReadRepairLog s
  | .writeConfigurationRecord data => Sys2Proof.Machine.execWriteConfigurationRecord data s
  | .clearRepairLog => Sys2Proof.Machine.execClearRepairLog s
  | .deviceReset => Sys2Proof.Machine.execDeviceReset s
  | .readIdentity => Sys2Proof.Machine.execReadIdentity s
  | .railFault rail => Sys2Proof.Machine.execRailFault rail s
  | .inputOverpower => Sys2Proof.Machine.execInputOverpower s
  | .coolantOvertemp => Sys2Proof.Machine.execCoolantOvertemp s
  | .registerWrite addr v => Sys2Proof.Machine.execRegisterWrite addr v s
  | .coreClock core => Sys2Proof.Machine.execCoreClock core s
  | .unassignedOpcode w => Sys2Proof.Machine.execUnassignedOpcode w s
  | .loamMemoryAccess k a => Sys2Proof.Machine.execLoamMemoryAccess k a s
  | .uncorrectableError e => Sys2Proof.Machine.execUncorrectableError e s
  | .gldComplete op => Sys2Proof.Machine.execGldComplete op s
  | .cflushComplete op => Sys2Proof.Machine.execCflushComplete op s
  | .prefComplete op => Sys2Proof.Machine.execPrefComplete op s
  | .cinvComplete op => Sys2Proof.Machine.execCinvComplete op s
  | .icinvComplete op => Sys2Proof.Machine.execIcinvComplete op s
  | .smapComplete op => Sys2Proof.Machine.execSmapComplete op s
  | .swbComplete op => Sys2Proof.Machine.execSwbComplete op s
  | .recordQueueAnswer op => Sys2Proof.Machine.execRecordQueueAnswer op s

end Sys2Proof.Machine
end

