-- ==== Sys2Proof/Machine/Step.lean ====
section
/-! DEFINITION. One step of the device: the first of the steps that the state lists to come, or else the one that comes
next by itself. -/

namespace Sys2Proof.Machine

/-- What the device does when no step is given: a wave issues, or an agent acts. A device that is not running only waits. -/
def idleStep (s : State) : Host.Outcome State Fault Refusal :=
  if s.phase != .running then .next s
  else
    match prepares s with
    | some a => a
    | none =>
      match nextWave s with
      | some wk => exec (nextInstr s wk) { s with cur := some wk }
      | none => agentStep s

/-- One step (R23 to R26, R341 to R343). A step listed while the device is off, failed or starting is lost unless it
belongs to power, boot or the root-of-trust core. -/
def step (s : State) : Host.Outcome State Fault Refusal :=
  match s.agenda with
  | [] => idleStep s
  | i :: rest =>
    if s.phase == .running || offline i then exec i { s with agenda := rest } else .next { s with agenda := rest }

/-- A device whose next step fetches and runs an instruction word (bits from 0 up). -/
def State.withFetchWord (s : State) (_nbits w : Nat) : State := loadWord s (BitVec.ofNat 64 w)

end Sys2Proof.Machine
end

