-- ==== Sys2Proof/Safety.lean ====
section
/-! DEFINITION. What a safe run is, and the words in which statements say when an instruction is performed and what its
issue changes beside its own effect. -/

namespace Sys2Proof.Machine

/-- A state is safe if its next step does not stop. -/
def Safe (s : State) : Prop := ∃ t, step s = .next t

/-! ### When an instruction is performed -/

/-- Where an instruction stands: its wave, the wave's open clause, its launch, and the instruction's form. -/
structure Site where
  wk : Nat
  w : Wave
  c : Clause
  l : Launch
  f : Form

/-- The bundle of the open clause at its next instruction, guarded by `g` (R75, R79): the slots of the clause, and of
them those whose fibres pass the guard. -/
def Site.bundle (z : Site) (g : Guard) : Bundle := bundleAt z.wk z.w z.c g z.f.ll

/-- The instruction `i` is performed for the bundle of the open clause of the current wave: the clause has started
(R342), every check of R100 passes, nothing holds it at issue (R38, R44, R78, R348, R356), no debugger serves the context
(R456), no source it consumes is poisoned (R116), and, if it is a release, no error is pending (R421) and no access is
outstanding, in the Silt log or in an operation that has not performed it (R163, R172). -/
structure Ready (s : State) (i : Instr) (g : Guard) (rel : Rel) (z : Site) : Prop where
  cur : s.cur = some z.wk
  wave : sget z.wk s.waves = some z.w
  clause : z.w.clause = some z.c
  launch : sget z.w.launch s.launches = some z.l
  started : z.c.started = true
  slots : z.c.slots ≠ []
  form : form i = some z.f
  checks : formError z.l i (bits z.c.header.toNat 16 4) (z.c.idx = z.c.words.length - 1) [] = none
  checksQueue : formError z.l i (bits z.c.header.toNat 16 4) (z.c.idx = z.c.words.length - 1) (queueUse z.w i) = none
  free : holdReason s z.wk z.w z.c i g.gp (z.bundle g).act = none
  partner : partnerHolds s z.wk z.w z.c i g z.f.ll = false
  debugger : debugSlot s (ctxOf s z.wk) = none
  healthy : ∀ x ∈ z.c.slots, ∀ y, sget x z.w.fibres = some y → poisonCause z.w y (z.f.uses ++ queueUse z.w i) = none
  pending : rel ≠ .none → ∀ x ∈ (z.bundle g).act, ∀ y, sget x z.w.fibres = some y → y.deferred = none
  held : releaseHeld s z.wk rel (z.bundle g).act = []

/-- The constant-window words of the instruction are `ws`, and reading them leaves `s'` (R87). An instruction
without a constant operand reads none, and `s'` is the state itself. -/
def Reads (s : State) (z : Site) (g : Guard) (s' : State) (ws : List W32) : Prop :=
  constants s (z.bundle g) z.w z.f (z.bundle g).act = (s', .words ws)

/-! ### What every issue changes -/

/-- The wave issue number after the bundle issues (R38). -/
def numberAfter (w : Wave) (b : Bundle) : Nat :=
  if b.all.all (fun x => ((sget x w.fibres).map (·.cont)).getD false) then w.issueNo else w.issueNo + 1

/-- A fibre of the bundle after the instruction, its registers apart: it stands at the next instruction (R70, R75),
has the issue number as its stamp, unless it resumes inside a release (R344), and has counted the instruction if its guard
passes (R207). -/
def passed (w : Wave) (b : Bundle) (x : Nat) (f : Fibre) : Fibre :=
  { f.advance b.place b.pc b.ll with
    stamp := if f.cont then f.stamp else numberAfter w b, cont := false, waive := false
    issued := if b.act.contains x && !f.cont then f.issued + 1 else f.issued }

/-- The open clause after the bundle issues and the fibres of `out` leave it: it ends after its last instruction, or with
its last fibre (R75). -/
def clauseAfter (w : Wave) (b : Bundle) (out : List Nat) : Option Clause :=
  if b.idx = b.place.last then none
  else w.clause.bind (fun c =>
    let slots := c.slots.filter (fun x => !out.contains x)
    if slots.isEmpty then none else some { c with slots := slots, idx := c.idx + 1, ll := c.ll || b.ll })

/-- From `s` to `t` the bundle `b` of the wave `w` issues one instruction. Each fibre of the bundle is moved past it, and a
fibre that passes the guard is then changed by `fx`; the other fibres stay. The wave's issue number, open clause
and pairing follow R38, R75 and R347, the fibres of `out` leaving the clause, and the rest of the wave is changed by `gx`.
Every other wave stays, and of the device nothing else changes but the clocks for which the core's pipes and ports and its
cluster's ports are held (R118, R341) and the energy charged (R461): no byte of memory, no register of another wave, no device
register. -/
structure Runs (s t : State) (w : Wave) (b : Bundle) (out : List Nat) (fx : Nat → Fibre → Fibre) (gx : Wave → Wave) : Prop where
  wave : ∃ v, sget b.wk t.waves = some v
    ∧ (∀ x, sget x v.fibres = (sget x w.fibres).map (fun f =>
        if b.all.contains x then (if b.act.contains x then fx x (passed w b x f) else passed w b x f) else f))
    ∧ v.issueNo = numberAfter w b
    ∧ v.clause = clauseAfter w b out
    ∧ { v with fibres := w.fibres, issueNo := w.issueNo, issued := w.issued, clause := w.clause, paired := w.paired,
               page := w.page } = gx w
  waves : ∀ k, k ≠ b.wk → sget k t.waves = sget k s.waves
  rest : { t with waves := s.waves, cores := s.cores, clusters := s.clusters, dynW := s.dynW } = s
  clusters : ∀ k, { clusterOf t k with mxPort := (clusterOf s k).mxPort, cpPort := (clusterOf s k).cpPort } = clusterOf s k
  cores : ∀ k, { coreOf t k with issues := (coreOf s k).issues, rot := (coreOf s k).rot, pipes := (coreOf s k).pipes,
                                 muPort := (coreOf s k).muPort, isuPort := (coreOf s k).isuPort,
                                 txuPort := (coreOf s k).txuPort, taken := (coreOf s k).taken } = coreOf s k

/-- The state in which the meaning of an instruction acts, once its bundle `b` is issued: each fibre of the bundle stands at the
next instruction, the energy is charged (R461), and the core's pipes and ports are taken (R341). -/
def begun (s : State) (w : Wave) (b : Bundle) (i : Instr) (f : Form) : State :=
  beginIssue (modWave (chargeIssue (occupy s b.wk w i f b.all b.act) b.wk w.launch b.act.length) b.wk
    (fun w => { w with page := none })) b

/-- From `s` to `t` the bundle issues an instruction that starts an operation of kind `k` for the slots `slots`
(R44, R77): it counts on the clause's next flag, and beside it the issue changes what `Runs` says. -/
structure Starts (s t : State) (w : Wave) (b : Bundle) (header : W64) (out : List Nat) (fx : Nat → Fibre → Fibre)
    (slots : List Nat) (k : OpKind) : Prop where
  runs : Runs s { t with ops := s.ops, nextOp := s.nextOp } w b out fx (fun v =>
    match nextFlag header b.place.ll with
    | none => v
    | some n => v.setFlag n (v.flag n + 1))
  op : t.ops = sput s.nextOp { wave := b.wk, flag := nextFlag header b.place.ll, slots := slots, pc := b.pc, place := b.place, core := coreNo b.wk,
                               ctx := ctxOf s b.wk, gang := gangOf s b.wk, wait := none, kind := k } s.ops
  next : t.nextOp = s.nextOp + 1

/-- From `s` to `t` the bundle issues an instruction that puts the matrix operation `o` in its wave's queue (R215, R356): it
counts on the clause's next flag, it arrives in the clock in which its cluster stands, and beside it the issue changes what `Runs`
says. -/
structure Queued (s t : State) (w : Wave) (b : Bundle) (o : MatOp) : Prop where
  runs : Runs s { t with mats := s.mats, nextOp := s.nextOp } w b [] (fun _ y => y) (fun v =>
    match o.flag with
    | none => v
    | some n => v.setFlag n (v.flag n + 1))
  op : t.mats = sput s.nextOp { o with arrived := clusterClock s (coreNo b.wk / 4) } s.mats
  next : t.nextOp = s.nextOp + 1

/-- What every matrix operation of a site holds at its issue: what its instruction names, and its launch's priority. -/
def Site.mxOp (z : Site) (b : Bundle) (k : MatKind) (x : MX) : MatOp :=
  { kind := k, wave := z.wk, flag := nextFlag z.c.header b.place.ll, pc := b.pc, acc := x.acc.toNat, pair := false,
    bind := { base := 0, fmt := 0, sparse := false }, quad := x.quad.toNat, aty := x.aty, slabs := 0, next := 0, rows := [],
    gaddr := 0, opx := x.mxopx, taddr := 0, tty := 0, prio := z.l.prio, waits := 0, place := .queue, susp := none, granted := false,
    trapped := [] }

/-- The tile register that a matrix instruction of a site names (R212). -/
def Site.tile (z : Site) (s : State) (x : MX) : Option TileBind := (sget (wgKey z.w) s.wgs).bind (fun u => sget x.tile.toNat u.tiles)

/-- A range of a gang's stash that an engine may be given (R156, R221). -/
def InSpan (s : State) (z : Site) (a len align : Nat) : Prop := a % align = 0 ∧ a + len ≤ stashSpan s (gangOf s z.wk)

/-! ### When an instruction completes -/

/-- Wherever `i` is performed and `ok` holds of its site, its step answers a next state, of which `post` holds. -/
def Completes (s : State) (i : Instr) (g : Guard) (rel : Rel) (ok : Site → Prop) (post : Site → Bundle → State → Prop) : Prop :=
  ∀ z, Ready s i g rel z → ok z → ∃ t, exec i s = .next t ∧ post z (z.bundle g) t

/-- Wherever `i` is performed, each fibre that passes the guard is changed by `fx`, and nothing else. -/
def EachFibre (s : State) (i : Instr) (g : Guard) (fx : Site → Nat → Fibre → Fibre) : Prop :=
  Completes s i g .none (fun _ => True) (fun z b t => Runs s t z.w b [] (fx z) id)

/-- Wherever `i` is performed and a fibre passes the guard, the wave is changed by `gx`, and nothing else. -/
def OnceForWave (s : State) (i : Instr) (g : Guard) (gx : Wave → Wave) : Prop :=
  Completes s i g .none (fun _ => True) (fun z b t => Runs s t z.w b [] (fun _ y => y) (fun v => if b.act.isEmpty then v else gx v))

/-- The same for an instruction whose constant operand reads as the words `ws` (R87). -/
def EachFibreK (s : State) (i : Instr) (g : Guard) (fx : List W32 → Nat → Fibre → Fibre) : Prop :=
  ∀ z s' ws, Ready s i g .none z → Reads s z g s' ws →
    ∃ t, exec i s = .next t ∧ Runs s' t z.w (z.bundle g) [] (fx ws) id

/-- The same for a uniform instruction with a constant operand. -/
def OnceForWaveK (s : State) (i : Instr) (g : Guard) (gx : List W32 → Wave → Wave) : Prop :=
  ∀ z s' ws, Ready s i g .none z → Reads s z g s' ws →
    ∃ t, exec i s = .next t
      ∧ Runs s' t z.w (z.bundle g) [] (fun _ y => y) (fun v => if (z.bundle g).act.isEmpty then v else gx ws v)

/-! ### Operands in statements -/

/-- Operand A, B or C of an RRR word for a fibre of a wave: a register or pair of the type's width (R84, R113). -/
def opA (x : RRR) (w : Wave) (y : Fibre) : W64 := srcX w y (x.usrc.getLsbD 2) (isWide x.ty) x.a
def opB (x : RRR) (w : Wave) (y : Fibre) : W64 := srcX w y (x.usrc.getLsbD 1) (isWide x.ty) x.b
def opC (x : RRR) (w : Wave) (y : Fibre) : W64 := srcX w y (x.usrc.getLsbD 0) (isWide x.ty) x.c

/-- Operand A, B or C of an RRR word where the instruction takes one register whatever its type. -/
def oneA (x : RRR) (w : Wave) (y : Fibre) : W64 := srcX w y (x.usrc.getLsbD 2) false x.a
def oneB (x : RRR) (w : Wave) (y : Fibre) : W64 := srcX w y (x.usrc.getLsbD 1) false x.b
def oneC (x : RRR) (w : Wave) (y : Fibre) : W64 := srcX w y (x.usrc.getLsbD 0) false x.c

/-- Operands of an RRR word as integers of the instruction's type (R57). -/
def intA (x : RRR) (w : Wave) (y : Fibre) : Int := ival x.ty (opA x w y)
def intB (x : RRR) (w : Wave) (y : Fibre) : Int := ival x.ty (opB x w y)
def intC (x : RRR) (w : Wave) (y : Fibre) : Int := ival x.ty (opC x w y)

/-- Writes an RRR destination of the type's width (R84, R113). -/
def putD (x : RRR) (v : W64) (y : Fibre) : Fibre := y.setX (isWide x.ty) x.d.toNat v

/-- Operands A and C of an RK word, and the constant B (R86, R87). -/
def kA (x : RK) (y : Fibre) : W64 := vecX (isWide x.ty) x.a y
def kC (x : RK) (y : Fibre) : W64 := vecX (isWide x.ty) x.c y
/-- Writes an RK destination. -/
def putK (x : RK) (v : W64) (y : Fibre) : Fibre := y.setX (isWide x.ty) x.d.toNat v

/-- The type of an RI word, its operand A and its immediate B (R88). -/
def riTy (x : RI) : BitVec 5 := itypeCode x.ity
def riA (x : RI) (y : Fibre) : W64 := vecX (isWide (riTy x)) x.a y
def riB (x : RI) : W64 := immValue x.ity x.imm
/-- Writes an RI destination. -/
def putI (x : RI) (v : W64) (y : Fibre) : Fibre := y.setX (isWide (riTy x)) x.d.toNat v

/-- The rounding mode, the format and `.ftz` of a float RRR word (R51, R53, R130). -/
def rndOf (x : RRR) : Rnd := Rnd.ofCode x.rnd.toNat
def ftzOf (x : RRR) : Bool := x.opx.getLsbD 1
/-- Its operands as encodings. -/
def natA (x : RRR) (w : Wave) (y : Fibre) : Nat := (opA x w y).toNat
def natB (x : RRR) (w : Wave) (y : Fibre) : Nat := (opB x w y).toNat
def natC (x : RRR) (w : Wave) (y : Fibre) : Nat := (opC x w y).toNat
/-- Writes an encoding. -/
def putF (x : RRR) (v : Nat) (y : Fibre) : Fibre := putD x (BitVec.ofNat 64 v) y

/-- The fibres for which a cross-fibre instruction is performed, with their slots, ascending (R147). -/
def theP (b : Bundle) (w : Wave) : List (Nat × Fibre) := b.act.filterMap (fun k => (sget k w.fibres).map (k, ·))

/-! ### Accesses that reach memory directly -/

/-- An address of a context is served by a leaf that the core caches, in an untagged page or for tag 0 (R326, R329); its
byte of memory is `pa`. -/
def Served (s : State) (core ctx tag : Nat) (need : Need) (va pa : Nat) : Prop :=
  ∃ e, (coreOf s core).tlb.find? (fun e => e.ctx = ctx && e.page ≤ va && va < e.page + 2 ^ e.bits) = some e
    ∧ permits e.pte.toNat need = true ∧ (need.writes = true → e.pte.toNat.testBit 7 = true)
    ∧ (e.pte.toNat.testBit 63 = false ∨ tag = 0)
    ∧ pa = leafPa e.pte.toNat e.bits va - leafPa e.pte.toNat e.bits va % 4096 + va % 4096

/-- Whether the order of a memory instruction is an acquire (R82, R286). -/
def acquires (x : MEM) : Bool := x.ord == 6 || x.ord == 8

/-- An address of a context is served by a leaf of an untagged page that the core caches, at the byte `pa` (R326, R329). -/
def ServedUntagged (s : State) (core ctx : Nat) (need : Need) (va pa : Nat) : Prop :=
  ∃ e, (coreOf s core).tlb.find? (fun e => e.ctx = ctx && e.page ≤ va && va < e.page + 2 ^ e.bits) = some e
    ∧ permits e.pte.toNat need = true ∧ (need.writes = true → e.pte.toNat.testBit 7 = true)
    ∧ e.pte.toNat.testBit 63 = false ∧ pa = leafPa e.pte.toNat e.bits va

/-- No earlier access of the same fibres keeps an access of some slots to some addresses from being performed: an `ldmc` or a `rast`
that has not performed its own access there, an `rqpop`, or, for an acquire, a release in the Silt log (R160, R287, R288, R292). -/
def Clear (s : State) (wk : Nat) (slots : List Nat) (stash acq : Bool) (vas : List Nat) : Prop :=
  (opsOf s wk).any (OpKind.precedes slots stash vas) = false ∧ (acq = true → relLogged s (coreNo wk) wk slots = false)

/-- No window is mapped and no engine owns lines of memory: nothing stands between an access and memory (R178, R233, R297). -/
structure Open (s : State) : Prop where
  windows : ∀ e ∈ s.gangs, e.2.windows = []
  ops : ∀ e ∈ s.ops, e.2.kind.owned.1 = []
  reqs : ∀ e ∈ s.reqs, e.2.own = []

/-- The buffer record that an instruction of a wave names (R154). -/
def bufAt (w : Wave) (k : Nat) : Buf := bufOf (w.record k)

/-- Each passing fibre forms an access of `len` bytes through a record whose region entry the core caches (R155, R323); its
addresses are `va`. -/
def Forms (s : State) (z : Site) (g : Guard) (buf : Buf) (idx : BitVec 8) (off fld len : Nat) (va : Nat → List Nat) : Prop :=
  ∃ re, (coreOf s (coreNo z.wk)).regions.find? (fun e => e.ctx = ctxOf s z.wk && e.rid = buf.rid) = some re
    ∧ ∀ k ∈ (z.bundle g).act, ∀ y, sget k z.w.fibres = some y → formVas buf re (y.rv idx.toNat).toNat off fld len = .ok (va k)

/-- Each passing fibre forms an access through a record, and all its bytes are served; `reach` gives their addresses and
bytes of memory. -/
def Through (s : State) (z : Site) (g : Guard) (buf : Buf) (idx : BitVec 8) (off fld len : Nat) (tag : Fibre → Nat) (need : Need)
    (reach : Nat → List (Nat × Nat)) : Prop :=
  Forms s z g buf idx off fld len (fun k => (reach k).map (·.1))
    ∧ ∀ k ∈ (z.bundle g).act, ∀ y, sget k z.w.fibres = some y → ∀ p ∈ reach k, Served s (coreNo z.wk) (ctxOf s z.wk) (tag y) need p.1 p.2

/-- What loads give the registers of a slot: `n` values of `w` bytes from the bytes, each poisoned if a byte of it is
(R158, R162). -/
def delivered (slot reg n w : Nat) (ty : BitVec 5) (bs : List (Byte × Bool)) : List Delivery :=
  ((List.range n).map (fun v =>
    let p := (bs.drop (v * w)).take w
    giveValue slot (reg + v * regsOf w) w (loadedValue ty w (p.map (·.1))) (p.any (·.2)))).flatten

/-- A byte of memory and its poison. -/
def byteOf (s : State) (pa : Nat) : Byte × Bool := (pByte s pa, s.memPois.contains (pa / 64))

/-- Byte `j` of what a store takes from registers of a fibre, as values of `w` bytes (R158). -/
def storedByte (y : Fibre) (reg w j : Nat) : Byte :=
  if w = 8 then (y.rv2 (reg + 2 * (j / w))).extractLsb' (8 * (j % w)) 8 else (y.rv (reg + j / w)).extractLsb' (8 * (j % w)) 8

/-- From `s` to `t` memory takes the bytes of some slots' accesses: byte `j` of slot `k` is `data k j`, wherever no other
byte goes to the same place. Every other byte of memory, and the poison of every unit that takes no byte, stays. -/
structure Wrote (s t : State) (act : List Nat) (reach : Nat → List (Nat × Nat)) (data : Nat → Nat → Byte) : Prop where
  bytes : ∀ k ∈ act, ∀ j v p, (reach k)[j]? = some (v, p) →
    (∀ k' ∈ act, ∀ j' v', (reach k')[j']? = some (v', p) → k' = k ∧ j' = j) → pByte t p = data k j
  frame : ∀ p, (∀ k ∈ act, ∀ q ∈ reach k, q.2 ≠ p) → pByte t p = pByte s p
  pois : ∀ u, (∀ k ∈ act, ∀ q ∈ reach k, q.2 / 64 ≠ u) → (u ∈ t.memPois ↔ u ∈ s.memPois)

/-- No fibre waits for a phase of a barrier object (R196). -/
def NoPhaseWaiters (s : State) : Prop := ∀ e ∈ s.waves, ∀ q ∈ e.2.fibres, ∀ o p d, q.2.blocked ≠ some (.waitPh o p d)

/-- Each passing fibre forms an access of `len` bytes of its gang's stash, register plus offset, in the gang's span, aligned, of
bytes that no engine owns (R164, R233); `place` is where it starts. -/
def InStash (s : State) (z : Site) (g : Guard) (idx : BitVec 8) (off len : Nat) (place : Nat → Nat) : Prop :=
  ∀ k ∈ (z.bundle g).act, ∀ y, sget k z.w.fibres = some y →
    place k = (y.rv idx.toNat).toNat + off ∧ place k % min len 16 = 0 ∧ place k + len ≤ stashSpan s (gangOf s z.wk)
      ∧ ∀ i < len, stashOwned s (gangOf s z.wk) none (place k + i) = false

/-- A gang's stash takes the bytes of some slots' accesses: byte `j` of slot `k` is `data k j`, wherever no other byte goes to
the same place; every other byte and the rest of the gang stay. -/
structure StashTook (h h' : Gang) (act : List Nat) (place : Nat → Nat) (len : Nat) (data : Nat → Nat → Byte) : Prop where
  bytes : ∀ k ∈ act, ∀ j < len, (∀ k' ∈ act, ∀ j' < len, place k' + j' = place k + j → k' = k ∧ j' = j) →
    sgetD 0 h'.stash (place k + j) = data k j
  frame : ∀ a, (∀ k ∈ act, ∀ j < len, place k + j ≠ a) → sgetD 0 h'.stash a = sgetD 0 h.stash a
  rest : { h' with stash := h.stash, stashPois := h.stashPois } = h

/-- The operands of an atomic or a reduction in a fibre: the value, and for compare and swap the new value (R168). -/
def atomX (x : MEM) (y : Fibre) : W64 := if isWide x.ty then y.rv2 x.data.toNat else (y.rv x.data.toNat).setWidth 64
def atomY (x : MEM) (y : Fibre) : W64 := if isWide x.ty then y.rv2 (x.data.toNat + 2) else (y.rv (x.data.toNat + 1)).setWidth 64

/-! ### Traps that are delivered -/

/-- The slot of the trap area that takes the next fault record of a fibre (R423). -/
def recordSlot (s : State) (z : Site) (k : Nat) (y : Fibre) : W64 := trapPtr s (ctxOf s z.wk) (trapPos z.wk k) y.recs.length

/-- The handler of the context (R426). -/
def handlerOf (s : State) (z : Site) : W64 := BitVec.ofNat 64 (ctxRd s (ctxOf s z.wk) 0x40 8)

/-- A trap of the fibre in slot `k` can be delivered (R426): no abort of its gang is pending (R432), the context has a handler, the fibre has fewer than two active
records, and the 128 bytes of its record slot, with bytes of memory `reach`, can be written (R423). -/
structure CanTrap (s : State) (z : Site) (k : Nat) (y : Fibre) (reach : List (Nat × Nat)) : Prop where
  live : (sget (gangOf s z.wk) s.gangs).any (·.abort) = false
  handler : handlerOf s z ≠ 0
  level : y.recs.length < 2
  region : ∃ re, (coreOf s (coreNo z.wk)).regions.find? (fun e => e.ctx = ctxOf s z.wk && e.rid = ptrRid (recordSlot s z k y)) = some re
    ∧ inRegion re (ptrVa (recordSlot s z k y)) 128 = true
  place : reach.map (·.1) = addrs (ptrVa (recordSlot s z k y)) 128
  served : ∀ p ∈ reach, Served s (coreNo z.wk) (ctxOf s z.wk) y.ct.toNat .write p.1 p.2

/-- From `s` to `t` the fibre in slot `k` traps for the cause `c` at its instruction: its record is in memory, and it stands
at the handler with the registers that R426 gives it. The other fibres are as after any issue, and the rest of memory
stays. -/
structure Trapped (s t : State) (z : Site) (b : Bundle) (k : Nat) (y : Fibre) (c : Cause) (reach : List (Nat × Nat)) : Prop where
  fibre : ∃ v f, sget z.wk t.waves = some v ∧ sget k v.fibres = some f
    ∧ f.pc = handlerOf s z ∧ f.base = none ∧ f.blocked = none ∧ f.staged = [] ∧ f.pred = 1
    ∧ f.rv2 0 = recordSlot s z k y ∧ f.rv 2 = BitVec.ofNat 32 (2 * trapPos z.wk k + y.recs.length) ∧ f.rv 3 = c.kind.setWidth 16 ++ c.sub
    ∧ (∀ r < 4, f.vp r = false) ∧ (∀ r, 4 ≤ r → f.rv r = y.rv r ∧ f.vp r = y.vp r) ∧ f.q = y.q ∧ f.lfi = y.lfi ∧ f.ct = y.ct
    ∧ f.recs = y.recs ++ [{ kind := c.kind, sub := c.sub, rpc := b.pc, base := some b.place, ll := b.ll, ptr := recordSlot s z k y, matOp := c.matOp,
                            stamp := (passed z.w b k y).stamp }]
    ∧ (∀ j, j ≠ k → sget j v.fibres = (sget j z.w.fibres).map (fun y => if b.all.contains j then passed z.w b j y else y))
    ∧ v.g = z.w.g ∧ v.clause = clauseAfter z.w b [k]
  record : ∀ j v p, reach[j]? = some (v, p) → (∀ j' v', reach[j']? = some (v', p) → j' = j) →
    pByte t p = (faultRecord s z.wk z.w y b.here c).getD j 0
  frame : ∀ p, (∀ q ∈ reach, q.2 ≠ p) → pByte t p = pByte s p
  waves : ∀ j, j ≠ z.wk → sget j t.waves = sget j s.waves
  rest : t.launches = s.launches ∧ t.gangs = s.gangs ∧ t.contexts = s.contexts ∧ t.ctl = s.ctl

/-- The last active record of the fibre in slot `k` is `a`, and its 128 bytes, with bytes of memory `reach`, can be read and
written (R428). -/
structure CanReturn (s : State) (z : Site) (y : Fibre) (a : ActiveRec) (reach : List (Nat × Nat)) : Prop where
  last : y.recs.getLast? = some a
  aligned : a.ptr.toNat % 128 = 0
  region : ∃ re, (coreOf s (coreNo z.wk)).regions.find? (fun e => e.ctx = ctxOf s z.wk && e.rid = ptrRid a.ptr) = some re
    ∧ inRegion re (ptrVa a.ptr) 128 = true
  place : reach.map (·.1) = addrs (ptrVa a.ptr) 128
  read : ∀ p ∈ reach, Served s (coreNo z.wk) (ctxOf s z.wk) y.ct.toNat .read p.1 p.2
  write : ∀ p ∈ reach, Served s (coreNo z.wk) (ctxOf s z.wk) y.ct.toNat .write p.1 p.2

/-- What a fibre is after its return: the registers v0 to v3 and the predicates from the record's bytes `bs`, with the poison
the record gives; every other register as before; the record no longer active (R428). -/
structure Restored (y f : Fibre) (bs : List Byte) : Prop where
  regs : ∀ i < 4, f.rv i = BitVec.ofNat 32 (fromBytesLE ((bs.drop (0x48 + 4 * i)).take 4)) ∧ f.vp i = (bs.getD 0x5A 0).getLsbD i
  preds : f.pred = BitVec.ofNat 16 (fromBytesLE ((bs.drop 0x58).take 2)) ||| 1
  others : ∀ r, 4 ≤ r → f.rv r = y.rv r ∧ f.vp r = y.vp r
  rest : f.q = y.q ∧ f.lfi = y.lfi ∧ f.ct = y.ct ∧ f.staged = [] ∧ f.recs = y.recs.dropLast

/-- The record is released: its byte 0x7F is 0, and every other byte of memory stays (R428). -/
def Released (s t : State) (reach : List (Nat × Nat)) : Prop :=
  ∀ p, pByte t p = if (reach[0x7F]?).map (·.2) = some p then 0 else pByte s p

/-! ### What steps of agents change -/

/-- From `s` to `t` the wave `k` becomes `v`, and nothing else changes. -/
def OnlyWave (s t : State) (k : Nat) (v : Wave) : Prop :=
  sget k t.waves = some v ∧ (∀ j, j ≠ k → sget j t.waves = sget j s.waves) ∧ { t with waves := s.waves } = s

/-- From `s` to `t` the operation `n` of `s`, which is `o`, completes (R44, R77): it is gone, its flag's count falls by one, `fx` gives
its fibres their results and `gx` changes the rest of its wave. Fibres of any wave that a release held may be ready again (R172).
Nothing else changes. -/
structure Ended (s t : State) (n : Nat) (o : Op) (fx : Nat → Fibre → Fibre) (gx : Wave → Wave) : Prop where
  op : t.ops = sdel n s.ops
  flags : ∀ k v w, sget k t.waves = some v → sget k s.waves = some w →
    ∀ j, v.flag j = w.flag j - (if k = o.wave ∧ o.flag = some j then 1 else 0)
  fibres : ∀ k v w, sget k t.waves = some v → sget k s.waves = some w → ∀ x,
    let was := (sget x w.fibres).map (fun y => if k = o.wave then fx x y else y)
    sget x v.fibres = was ∨ ∃ y group drain, was = some y ∧ y.blocked = some (.release group drain) ∧ sget x v.fibres = some { y with blocked := none }
  wave : ∀ k, (sget k t.waves).map (fun v => { v with fibres := [], flags := [] })
    = (sget k s.waves).map (fun w => { (if k = o.wave then gx w else w) with fibres := [], flags := [] })
  rest : { t with ops := s.ops, waves := s.waves } = s

/-- Nothing waits to try an access again: no operation holds an access, a record or a graphics fibre, no Silt log has an entry, no
matrix operation waits for a page, no command of an order slot is in progress, and no fibre waits in `wait.m`, in a release or in
`gridwait`. -/
structure Quiet (s : State) : Prop where
  ops : ∀ e ∈ s.ops, match e.2.kind with
    | .load _ _ held | .store held | .ldmc _ held _ _ _ _ => held = []
    | .gfx _ _ _ held => held = []
    | .launch _ _ => False
    | _ => True
  silt : ∀ e ∈ s.cores, e.2.silt = []
  mats : ∀ e ∈ s.mats, ∀ p, e.2.susp ≠ some (.fill p)
  orders : s.roBusy = []
  fibres : ∀ e ∈ s.waves, ∀ y ∈ e.2.fibres, match y.2.blocked with
    | some (.waitM _ _ _ _ _ _ _ _ _) | some (.release _ _) | some .gridwait => False
    | _ => True

end Sys2Proof.Machine
end

