-- ==== Sys2Proof/Certificates/Slice0/Obligations.lean ====
section
/-! DEFINITION. What is stated about the D9 for the provers. An instruction is *performed* where `Ready` holds of its site; `Runs`,
`Starts` and `Queued` say what its issue changes, and so also what it leaves alone. -/

open Sys2Proof Sys2Proof.Machine

/-! ### Integer, float, predicate, move and cross-fibre instructions (chapter 5) -/

/-- Integer arithmetic of the RRR form: each passing fibre gets the exact result, wrapped or clamped to the type (R119, R120). -/
def Obligations.IntegerArithmeticResults : Prop :=
  ∀ (s : State) (g : Guard) (x : RRR),
    EachFibre s (.iadd g x) g (fun z _ y => putD x (ires x.ty (x.opx.getLsbD 0) (intA x z.w y + intB x z.w y)) y)
    ∧ EachFibre s (.isub g x) g (fun z _ y => putD x (ires x.ty (x.opx.getLsbD 0) (intA x z.w y - intB x z.w y)) y)
    ∧ EachFibre s (.imul g x) g (fun z _ y => putD x (ires x.ty false (intA x z.w y * intB x z.w y)) y)
    ∧ EachFibre s (.imulhi g x) g (fun z _ y =>
        putD x (ires x.ty false (intA x z.w y * intB x z.w y / (2 ^ tyWidth x.ty : Nat))) y)
    ∧ EachFibre s (.imad g x) g (fun z _ y =>
        putD x (ires x.ty false (intA x z.w y * intB x z.w y + intC x z.w y)) y)
    ∧ EachFibre s (.imadw g x) g (fun z _ y =>
        y.setV2 x.d.toNat (BitVec.ofInt 64 (ival x.ty (oneA x z.w y) * ival x.ty (oneB x z.w y)
          + ((srcX z.w y (x.usrc.getLsbD 0) true x.c).toNat : Int))))
    ∧ EachFibre s (.imin g x) g (fun z _ y => putD x (if intB x z.w y < intA x z.w y then opB x z.w y else opA x z.w y) y)
    ∧ EachFibre s (.imax g x) g (fun z _ y => putD x (if intA x z.w y < intB x z.w y then opB x z.w y else opA x z.w y) y)
    ∧ EachFibre s (.iabs g x) g (fun z _ y => putD x (ires x.ty (x.opx.getLsbD 0) |intA x z.w y|) y)
    ∧ EachFibre s (.ineg g x) g (fun z _ y => putD x (ires x.ty (x.opx.getLsbD 0) (-(intA x z.w y))) y)

/-- Division of the RRR form: the quotient toward zero and the remainder, with the boundary cases of the table; no case traps
(R121). The second part says that quotient and remainder are those of division toward zero. -/
def Obligations.DivisionNeverTraps : Prop :=
  (∀ (s : State) (g : Guard) (x : RRR),
    EachFibre s (.idiv g x) g (fun z _ y => putD x (
      if intB x z.w y = 0 then ires x.ty false (2 ^ tyWidth x.ty - 1)
      else ires x.ty false ((intA x z.w y).tdiv (intB x z.w y))) y)
    ∧ EachFibre s (.irem g x) g (fun z _ y => putD x (
      if intB x z.w y = 0 then opA x z.w y else ires x.ty false ((intA x z.w y).tmod (intB x z.w y))) y))
  ∧ (∀ a b : Int, b ≠ 0 → a = b * a.tdiv b + a.tmod b ∧ (a.tmod b).natAbs < b.natAbs ∧ (0 ≤ a → 0 ≤ a.tmod b) ∧ (a ≤ 0 → a.tmod b ≤ 0))
  ∧ (∀ ty ∈ tySigned, ires ty false (Int.tdiv (-(2 ^ (tyWidth ty - 1) : Nat)) (-1)) = ires ty false (-(2 ^ (tyWidth ty - 1) : Nat))
      ∧ ires ty false (Int.tmod (-(2 ^ (tyWidth ty - 1) : Nat)) (-1)) = 0)

/-- Carries and addresses: `addc` and `subb` write the sum or difference and the carry or borrow (R122); `lea` writes a pair
(R123). -/
def Obligations.CarryAndAddressResults : Prop :=
  ∀ (s : State) (g : Guard) (x : RRR),
    (let cin (y : Fibre) : Nat := if x.opx.getLsbD 4 && y.rp (x.c.extractLsb' 0 4) then 1 else 0
     let a (z : Site) (y : Fibre) : Nat := (opA x z.w y).toNat % 2 ^ tyWidth x.ty
     let b (z : Site) (y : Fibre) : Nat := (opB x z.w y).toNat % 2 ^ tyWidth x.ty
     EachFibre s (.addc g x) g (fun z _ y =>
        (putD x (BitVec.ofNat 64 ((a z y + b z y + cin y) % 2 ^ tyWidth x.ty)) y).setP (x.opx.extractLsb' 0 4)
          (2 ^ tyWidth x.ty ≤ a z y + b z y + cin y))
     ∧ EachFibre s (.subb g x) g (fun z _ y =>
        (putD x (BitVec.ofNat 64 (((a z y : Int) - b z y - cin y) % (2 ^ tyWidth x.ty : Nat)).toNat) y).setP (x.opx.extractLsb' 0 4)
          ((a z y : Int) - b z y - cin y < 0)))
    ∧ EachFibre s (.lea g x) g (fun z _ y =>
        let b : W64 := if x.ty == 2 then ((oneB x z.w y).setWidth 32).signExtend 64
          else if x.ty == 6 then ((oneB x z.w y).setWidth 32).setWidth 64 else srcX z.w y (x.usrc.getLsbD 1) (x.ty == 9) x.b
        y.setV2 x.d.toNat (srcX z.w y (x.usrc.getLsbD 2) true x.a + b <<< (x.opx.toNat % 64)))

/-- Bitwise instructions, shifts, counts and bit fields of the RRR form (R119, R124, R125), in terms of the operations that
`ShiftAndRotateValues` and `BitFieldValues` describe.

The values of shifts and rotations, bit by bit, for a count below and at or above the width (R124).

The values of `brev`, `bfx` and `bfi`, bit by bit (R125): POS is bits [7:0] and LEN bits [15:8] of the field operand. -/
def Obligations.BitwiseResults : Prop :=
  (∀ (s : State) (g : Guard) (x : RRR),
    EachFibre s (.andB g x) g (fun z _ y => putD x (opA x z.w y &&& opB x z.w y) y)
    ∧ EachFibre s (.orB g x) g (fun z _ y => putD x (opA x z.w y ||| opB x z.w y) y)
    ∧ EachFibre s (.xorB g x) g (fun z _ y => putD x (opA x z.w y ^^^ opB x z.w y) y)
    ∧ EachFibre s (.notB g x) g (fun z _ y => putD x (~~~opA x z.w y) y)
    ∧ EachFibre s (.shl g x) g (fun z _ y => putD x (opShl x.ty (opA x z.w y) (oneB x z.w y) 0) y)
    ∧ EachFibre s (.shr g x) g (fun z _ y => putD x (opShr x.ty (opA x z.w y) (oneB x z.w y) 0) y)
    ∧ EachFibre s (.sar g x) g (fun z _ y => putD x (opSar x.ty (opA x z.w y) (oneB x z.w y) 0) y)
    ∧ EachFibre s (.rot g x) g (fun z _ y => putD x (opRot x.ty (opA x z.w y) (oneB x z.w y) 0) y)
    ∧ EachFibre s (.popc g x) g (fun z _ y => y.setV x.d.toNat ((opPopc x.ty (opA x z.w y) 0 0).setWidth 32))
    ∧ EachFibre s (.clz g x) g (fun z _ y => y.setV x.d.toNat ((opClz x.ty (opA x z.w y) 0 0).setWidth 32))
    ∧ EachFibre s (.brev g x) g (fun z _ y => putD x (opBrev x.ty (opA x z.w y) 0 0) y)
    ∧ EachFibre s (.bfx g x) g (fun z _ y => putD x (opBfx x.ty (opA x z.w y) (oneB x z.w y) 0) y)
    ∧ EachFibre s (.bfi g x) g (fun z _ y => putD x (opBfi x.ty (opA x z.w y) (opB x z.w y) (oneC x z.w y)) y))
  ∧ (∀ ty ∈ tyBits, ∀ a b : W64,
    let w := tyWidth ty
    let k := b.toNat % 256
    ∀ j < w,
      (opShl ty a b 0).getLsbD j = (decide (k ≤ j) && a.getLsbD (j - k))
      ∧ (opShr ty a b 0).getLsbD j = (decide (j + k < w) && a.getLsbD (j + k))
      ∧ (opSar ty a b 0).getLsbD j = a.getLsbD (min (j + k) (w - 1))
      ∧ (opRot ty a b 0).getLsbD ((j + k) % w) = a.getLsbD j)
  ∧ ((∀ ty ∈ tyBits, ∀ a : W64, ∀ j < tyWidth ty, (opBrev ty a 0 0).getLsbD j = a.getLsbD (tyWidth ty - 1 - j))
  ∧ (∀ ty ∈ tyArith, ∀ a b : W64, ∀ j < tyWidth ty,
      let w := tyWidth ty
      let pos := b.toNat % 256
      let len := min (b.toNat / 256 % 256) w
      (opBfx ty a b 0).getLsbD j =
        (if len = 0 then false
         else
          let k := if isSigned ty then min j (len - 1) else j
          if len ≤ k then false
          else if pos + k < w then a.getLsbD (pos + k) else isSigned ty && a.getLsbD (w - 1)))
  ∧ (∀ ty ∈ tyBits, ∀ a b c : W64, ∀ j < tyWidth ty,
      let pos := c.toNat % 256
      let len := min (c.toNat / 256 % 256) (tyWidth ty)
      (opBfi ty a b c).getLsbD j = if pos ≤ j ∧ j < pos + len then b.getLsbD (j - pos) else a.getLsbD j))

/-- The constant and immediate forms of integer and bitwise instructions: the constant, or the widened immediate, is source B
(R86, R88, R119, R124).

The constant and immediate forms of float instructions (R86, R88, R130); the immediate forms round to nearest. -/
def Obligations.ConstantAndImmediateForms : Prop :=
  ((∀ (s : State) (g : Guard) (x : RK),
    let n (a : W64) : Int := ival x.ty a
    EachFibreK s (.iaddRk g x) g (fun ws _ y => putK x (ires x.ty false (n (kA x y) + n (conValue ws))) y)
    ∧ EachFibreK s (.isubRk g x) g (fun ws _ y => putK x (ires x.ty false (n (kA x y) - n (conValue ws))) y)
    ∧ EachFibreK s (.imulRk g x) g (fun ws _ y => putK x (ires x.ty false (n (kA x y) * n (conValue ws))) y)
    ∧ EachFibreK s (.imadRk g x) g (fun ws _ y => putK x (ires x.ty false (n (kA x y) * n (conValue ws) + n (kC x y))) y)
    ∧ EachFibreK s (.andRk g x) g (fun ws _ y => putK x (kA x y &&& conValue ws) y)
    ∧ EachFibreK s (.orRk g x) g (fun ws _ y => putK x (kA x y ||| conValue ws) y)
    ∧ EachFibreK s (.xorRk g x) g (fun ws _ y => putK x (kA x y ^^^ conValue ws) y))
  ∧ ∀ (s : State) (g : Guard) (x : RI),
    let n (a : W64) : Int := ival (riTy x) a
    EachFibre s (.iaddRi g x) g (fun _ _ y => putI x (ires (riTy x) false (n (riA x y) + n (riB x))) y)
    ∧ EachFibre s (.imulRi g x) g (fun _ _ y => putI x (ires (riTy x) false (n (riA x y) * n (riB x))) y)
    ∧ EachFibre s (.andRi g x) g (fun _ _ y => putI x (riA x y &&& riB x) y)
    ∧ EachFibre s (.orRi g x) g (fun _ _ y => putI x (riA x y ||| riB x) y)
    ∧ EachFibre s (.xorRi g x) g (fun _ _ y => putI x (riA x y ^^^ riB x) y)
    ∧ EachFibre s (.shlRi g x) g (fun _ _ y => putI x (opShl (riTy x) (riA x y) (riB x) 0) y)
    ∧ EachFibre s (.shrRi g x) g (fun _ _ y => putI x (opShr (riTy x) (riA x y) (riB x) 0) y)
    ∧ EachFibre s (.sarRi g x) g (fun _ _ y => putI x (opSar (riTy x) (riA x y) (riB x) 0) y))
  ∧ ((∀ (s : State) (g : Guard) (x : RK),
    let f := fmtOf x.ty
    let m := Rnd.ofCode x.rnd.toNat
    let put (v : Nat) (y : Fibre) : Fibre := putK x (BitVec.ofNat 64 v) y
    EachFibreK s (.faddRk g x) g (fun ws _ y => put (f.addBits m false (kA x y).toNat (conValue ws).toNat) y)
    ∧ EachFibreK s (.fmulRk g x) g (fun ws _ y => put (f.mulBits m false (kA x y).toNat (conValue ws).toNat) y)
    ∧ EachFibreK s (.ffmaRk g x) g (fun ws _ y => put (f.fmaBits m false (kA x y).toNat (conValue ws).toNat (kC x y).toNat) y))
  ∧ ∀ (s : State) (g : Guard) (x : RI),
    let f := fmtOf (riTy x)
    EachFibre s (.faddRi g x) g (fun _ _ y => putI x (BitVec.ofNat 64 (f.addBits .near false (riA x y).toNat (riB x).toNat)) y)
    ∧ EachFibre s (.fmulRi g x) g (fun _ _ y => putI x (BitVec.ofNat 64 (f.mulBits .near false (riA x y).toNat (riB x).toNat)) y))

/-- Float arithmetic: the exact value of the operands, rounded once in the mode of RND (R130, R131, R133). The packed forms work on two elements
of 16 bits, each with its own rounding (R59, R136).

Values beyond the largest finite one round to an infinity or to the largest finite value by the table of R52: here for every magnitude of
2^(bias + 1) or more, which overflows in every mode. -/
def Obligations.FloatArithmeticRoundedOnce : Prop :=
  ((∀ (s : State) (g : Guard) (x : RRR),
    let f := fmtOf x.ty
    let a (z : Site) (y : Fibre) : Flt := f.value (natA x z.w y) (ftzOf x)
    let b (z : Site) (y : Fibre) : Flt := f.value (natB x z.w y) (ftzOf x)
    let c (z : Site) (y : Fibre) : Flt := f.value (natC x z.w y) (ftzOf x)
    let once (v : Flt) : Nat := f.pack (rndOf x) v false .ieee (ftzOf x)
    EachFibre s (.fadd g x) g (fun z _ y => putF x (once (Flt.add (rndOf x) (a z y) (b z y))) y)
    ∧ EachFibre s (.fsub g x) g (fun z _ y => putF x (once (Flt.add (rndOf x) (a z y) (b z y).negate)) y)
    ∧ EachFibre s (.fmul g x) g (fun z _ y => putF x (once (Flt.mul (a z y) (b z y))) y)
    ∧ EachFibre s (.ffma g x) g (fun z _ y => putF x (once (Flt.add (rndOf x) (Flt.mul (a z y) (b z y)) (c z y))) y)
    ∧ EachFibre s (.fdiv g x) g (fun z _ y => putF x (f.div (rndOf x) (ftzOf x) (a z y) (b z y)) y)
    ∧ EachFibre s (.fmin g x) g (fun z _ y => putF x (f.minmax false (ftzOf x) (natA x z.w y) (natB x z.w y)) y)
    ∧ EachFibre s (.fmax g x) g (fun z _ y => putF x (f.minmax true (ftzOf x) (natA x z.w y) (natB x z.w y)) y))
  ∧ (∀ (s : State) (g : Guard) (x : RRR),
    let f := fmtOf x.ty
    let a (z : Site) (y : Fibre) : Flt := f.value (natA x z.w y)
    let b (z : Site) (y : Fibre) : Flt := f.value (natB x z.w y)
    let c (z : Site) (y : Fibre) : Flt := f.value (natC x z.w y)
    EachFibre s (.dadd g x) g (fun z _ y => putF x (f.pack (rndOf x) (Flt.add (rndOf x) (a z y) (b z y))) y)
    ∧ EachFibre s (.dmul g x) g (fun z _ y => putF x (f.pack (rndOf x) (Flt.mul (a z y) (b z y))) y)
    ∧ EachFibre s (.dfma g x) g (fun z _ y => putF x (f.pack (rndOf x) (Flt.add (rndOf x) (Flt.mul (a z y) (b z y)) (c z y))) y)
    ∧ EachFibre s (.ddiv g x) g (fun z _ y => putF x (f.div (rndOf x) false (a z y) (b z y)) y))
  ∧ ∀ (s : State) (g : Guard) (x : RRR),
    let f := fmtOf x.ty
    let e (k n : Nat) : Flt := f.value (n / 2 ^ (16 * k) % 2 ^ 16) (ftzOf x)
    let once (v : Flt) : Nat := f.pack (rndOf x) v false .ieee (ftzOf x)
    EachFibre s (.hadd2 g x) g (fun z _ y =>
      let r (k : Nat) : Nat := once (Flt.add (rndOf x) (e k (natA x z.w y)) (e k (natB x z.w y)))
      putF x (r 0 + 2 ^ 16 * r 1) y)
    ∧ EachFibre s (.hmul2 g x) g (fun z _ y =>
      let r (k : Nat) : Nat := once (Flt.mul (e k (natA x z.w y)) (e k (natB x z.w y)))
      putF x (r 0 + 2 ^ 16 * r 1) y)
    ∧ (∀ i ∈ [Instr.hfma2 g x, Instr.bfma2 g x], EachFibre s i g (fun z _ y =>
      let r (k : Nat) : Nat := once (Flt.add (rndOf x) (Flt.mul (e k (natA x z.w y)) (e k (natB x z.w y))) (e k (natC x z.w y)))
      putF x (r 0 + 2 ^ 16 * r 1) y)))
  ∧ (∀ f ∈ [fmt64, fmt32, fmt16, fmtB16, fmt8b], ∀ (mode : Rnd) (neg : Bool) (m : Nat) (e : Int) (sticky : Bool),
    m ≠ 0 → (f.bias : Int) < e + Nat.log2 m →
    let inf := f.inf.getD 0
    f.pack mode (.fin neg m e) sticky =
      (if neg then 2 ^ f.mag else 0) +
        (match mode, neg with
         | .near, _ => inf
         | .zero, _ => f.top
         | .down, false => f.top
         | .down, true => inf
         | .up, false => inf
         | .up, true => f.top))

/-- Float functions, classification and conversions complete with the value of the format's function (R132, R134, R135, R137, R138).

The operations of R131 that are invalid give the canonical NaN in every format and mode, and a finite nonzero value divided by a
zero gives an infinity with the exclusive-or of the signs. -/
def Obligations.FloatFunctionsAndConversions : Prop :=
  ((∀ (s : State) (g : Guard) (x : RRR),
    let f := fmtOf x.ty
    let v (z : Site) (y : Fibre) : Flt := f.value (natA x z.w y)
    let vz (z : Site) (y : Fibre) : Flt := f.value (natA x z.w y) (ftzOf x)
    EachFibre s (.frcp g x) g (fun z _ y => putF x (f.div (rndOf x) (ftzOf x) (.fin false 1 0) (vz z y)) y)
    ∧ EachFibre s (.fsqrt g x) g (fun z _ y => putF x (f.sqrt (rndOf x) (ftzOf x) (vz z y)) y)
    ∧ EachFibre s (.frsq g x) g (fun z _ y => putF x (f.rsqrt (rndOf x) (v z y)) y)
    ∧ EachFibre s (.fex2 g x) g (fun z _ y => putF x (f.exp2 (rndOf x) (v z y)) y)
    ∧ EachFibre s (.flg2 g x) g (fun z _ y => putF x (f.log2 (rndOf x) (v z y)) y)
    ∧ EachFibre s (.fsin g x) g (fun z _ y => putF x (f.sinPi (rndOf x) false (v z y)) y)
    ∧ EachFibre s (.fcos g x) g (fun z _ y => putF x (f.sinPi (rndOf x) true (v z y)) y)
    ∧ EachFibre s (.frnd g x) g (fun z _ y => putF x (f.integral (rndOf x) (ftzOf x) (natA x z.w y)) y)
    ∧ EachFibre s (.fclass g x) g (fun z _ y => y.setV x.d.toNat (BitVec.ofNat 32 (2 ^ f.classBit (f.flush (ftzOf x) (natA x z.w y))))))
  ∧ ∀ (s : State) (g : Guard) (x : RRR),
    EachFibre s (.cvt g x) g (fun z _ y =>
      let ts := x.opx.extractLsb' 0 5
      let r := convert x.ty ts (rndOf x) (x.opx.getLsbD 5) (x.opx.getLsbD 6) (x.opx.getLsbD 7)
        (srcX z.w y (x.usrc.getLsbD 2) (isWide ts) x.a).toNat
      putD x (if x.ty == 0 then ((BitVec.ofNat 8 r).signExtend 32).setWidth 64
        else if x.ty == 1 then ((BitVec.ofNat 16 r).signExtend 32).setWidth 64 else BitVec.ofNat 64 r) y)
    ∧ EachFibre s (.f8pk g x) g (fun z _ y =>
      let e (v : W64) : Nat := convert x.ty 0xB (rndOf x) (x.opx.getLsbD 1) (x.opx.getLsbD 1) false v.toNat
      let two := e (oneA x z.w y) + 256 * e (oneB x z.w y)
      let c := (oneC x z.w y).toNat
      y.setV x.d.toNat (BitVec.ofNat 32 (if x.opx.getLsbD 0 then c % 2 ^ 16 + 2 ^ 16 * two else c / 2 ^ 16 % 2 ^ 16 * 2 ^ 16 + two)))
    ∧ EachFibre s (.f8upk g x) g (fun z _ y =>
      let e (k : Nat) : Nat := convert (if x.opx.getLsbD 0 then 0xD else 0xC) x.ty .near false false false
        ((oneA x z.w y).toNat / 2 ^ (8 * k) % 256)
      (y.setV2 x.d.toNat (BitVec.ofNat 64 (e 0 + 2 ^ 16 * e 1 + 2 ^ 32 * e 2 + 2 ^ 48 * e 3)))))
  ∧ (∀ (f : Fmt) (mode : Rnd) (z : Bool) (v w : Flt) (a b : Bool) (m : Nat) (e g : Int),
    f.pack mode (Flt.add mode (.inf a) (.inf (!a))) = f.nan
    ∧ f.pack mode (Flt.mul (.inf a) (.fin b 0 e)) = f.nan ∧ f.pack mode (Flt.mul (.fin b 0 e) (.inf a)) = f.nan
    ∧ f.pack mode (Flt.add mode (Flt.mul (.inf a) (.fin b 0 e)) v) = f.nan
    ∧ f.div mode z (.fin a 0 e) (.fin b 0 g) = f.nan ∧ f.div mode z (.inf a) (.inf b) = f.nan
    ∧ (m ≠ 0 → f.sqrt mode z (.fin true m e) = f.nan) ∧ f.sqrt mode z (.inf true) = f.nan
    ∧ f.pack mode (Flt.add mode .nan v) = f.nan ∧ f.pack mode (Flt.add mode v .nan) = f.nan
    ∧ f.pack mode (Flt.mul .nan v) = f.nan ∧ f.pack mode (Flt.mul v .nan) = f.nan
    ∧ f.pack mode (Flt.add mode (Flt.mul v w) .nan) = f.nan
    ∧ f.div mode z .nan v = f.nan ∧ f.div mode z v .nan = f.nan ∧ f.sqrt mode z .nan = f.nan
    ∧ (m ≠ 0 → ∀ i, f.inf = some i → f.div mode z (.fin a m e) (.fin b 0 g) = (if a != b then 2 ^ f.mag else 0) + i))

/-- Comparisons write their predicate, and no other state: the code in D[7:4], the predicate in D[3:0], the combining rule in OPX[1:0]
(R85, R126).

What the comparison codes mean, for integers of a type and for floats of a format (R85): zeros are equal, and a NaN is unordered (R126). -/
def Obligations.ComparisonResults : Prop :=
  ((∀ (s : State) (g : Guard) (x : RRR),
    let rule (y : Fibre) (r : Bool) : Bool :=
      if x.opx &&& 3 = 1 then r && y.rp (x.c.extractLsb' 0 4) else if x.opx &&& 3 = 2 then r || y.rp (x.c.extractLsb' 0 4) else r
    EachFibre s (.icmp g x) g (fun z _ y => y.setP (x.d.extractLsb' 0 4)
      (rule y (icmpHolds (x.d.extractLsb' 4 4).toNat x.ty (opA x z.w y) (opB x z.w y))))
    ∧ EachFibre s (.fcmp g x) g (fun z _ y => y.setP (x.d.extractLsb' 0 4)
      (rule y (fcmpHolds (x.d.extractLsb' 4 4).toNat x.ty (x.opx.getLsbD 2) (opA x z.w y) (opB x z.w y)))))
  ∧ (∀ (s : State) (g : Guard) (x : RK),
    EachFibreK s (.icmpRk g x) g (fun ws _ y => y.setP (x.d.extractLsb' 0 4)
      (icmpHolds (x.d.extractLsb' 4 4).toNat x.ty (kA x y) (conValue ws)))
    ∧ EachFibreK s (.fcmpRk g x) g (fun ws _ y => y.setP (x.d.extractLsb' 0 4)
      (fcmpHolds (x.d.extractLsb' 4 4).toNat x.ty false (kA x y) (conValue ws))))
  ∧ ∀ (s : State) (g : Guard) (x : RI),
    EachFibre s (.icmpRi g x) g (fun _ _ y => y.setP (x.d.extractLsb' 0 4)
      (icmpHolds (x.d.extractLsb' 4 4).toNat (riTy x) (riA x y) (riB x))))
  ∧ ((∀ (ty : BitVec 5) (a b : W64),
    let u := ival ty a
    let v := ival ty b
    icmpHolds 0 ty a b = decide (u = v) ∧ icmpHolds 1 ty a b = decide (u ≠ v) ∧ icmpHolds 2 ty a b = decide (u < v)
    ∧ icmpHolds 3 ty a b = decide (u ≤ v) ∧ icmpHolds 4 ty a b = decide (v < u) ∧ icmpHolds 5 ty a b = decide (v ≤ u))
  ∧ (∀ (ty : BitVec 5) (ftz : Bool) (a b : W64),
    let u := (fmtOf ty).value (a.toNat % 2 ^ tyWidth ty) ftz
    let v := (fmtOf ty).value (b.toNat % 2 ^ tyWidth ty) ftz
    let o := Flt.cmp u v
    let r (cc : Nat) : Bool := fcmpHolds cc ty ftz a b
    r 0 = (o == some .eq) ∧ r 1 = (o != some .eq) ∧ r 2 = (o == some .lt) ∧ r 3 = (o == some .lt || o == some .eq)
    ∧ r 4 = (o == some .gt) ∧ r 5 = (o == some .gt || o == some .eq) ∧ r 6 = (!u.isNan && !v.isNan) ∧ r 7 = (u.isNan || v.isNan))
  ∧ ∀ (m n : Bool) (e g : Int), Flt.cmp (.fin m 0 e) (.fin n 0 g) = some .eq)

/-- Selection and predicate logic (R127, R128, R129): bit 0 of the predicate word stays 1, and a write to p0 is discarded (R40).

Moves, special registers and staging (R139 to R143). `movg` and `vtog` complete where no word they take is poisoned and, for `movg`,
each index lies below the uniform count. -/
def Obligations.SelectionAndMoveResults : Prop :=
  ((∀ (s : State) (g : Guard) (x : RRR),
    EachFibre s (.sel g x) g (fun z _ y => putD x (if y.rp (x.c.extractLsb' 0 4) then opA x z.w y else opB x z.w y) y)
    ∧ EachFibre s (.pset g x) g (fun z _ y => y.setP (x.d.extractLsb' 0 4) (opA x z.w y != 0))
    ∧ EachFibre s (.psetSave g x) g (fun _ _ y => y.setV x.d.toNat ((y.pred ||| 1).setWidth 32))
    ∧ EachFibre s (.psetLoad g x) g (fun z _ y =>
        let a : BitVec 16 := (oneA x z.w y).setWidth 16
        let m : BitVec 16 := (oneB x z.w y).setWidth 16 &&& 0xFFFE
        { y with pred := (y.pred &&& ~~~m ||| (a &&& m)) ||| 1 })
    ∧ EachFibre s (.plop g x) g (fun _ _ y =>
        let p (r : BitVec 8) : Nat := if y.rp (r.extractLsb' 0 4) then 1 else 0
        y.setP (x.d.extractLsb' 0 4) (x.opx.getLsbD (4 * p x.a + 2 * p x.b + p x.c))))
  ∧ ∀ (y : Fibre) (k j : BitVec 4) (b : Bool),
    y.rp 0 = true ∧ y.setP 0 b = y ∧ (k ≠ 0 → (y.setP k b).rp k = b) ∧ (j ≠ k → (y.setP k b).rp j = y.rp j))
  ∧ ((∀ (s : State) (g : Guard) (x : RRR),
    EachFibre s (.mov g x) g (fun z _ y => putD x (opA x z.w y) y)
    ∧ Completes s (.movg g x) g .none
        (fun z => ∀ k ∈ (z.bundle g).act, ∀ y, sget k z.w.fibres = some y →
          let j := x.a.toNat + (y.rv x.b.toNat).toNat
          j < z.l.gcnt ∧ (sgetD GWord.zero z.w.g j).poisLo = false
            ∧ (isWide x.ty = true → (sgetD GWord.zero z.w.g j).poisHi = false))
        (fun z b t => Runs s t z.w b [] (fun _ y => putD x (z.w.rg (x.a.toNat + (y.rv x.b.toNat).toNat)) y) id)
    ∧ (∀ (k : Nat) (y : Fibre),
        Completes s (.vtog g x) g .none
          (fun z => (z.bundle g).act.head? = some k ∧ sget k z.w.fibres = some y ∧ y.vp x.a.toNat = false
            ∧ (isWide x.ty = true → y.vp (x.a.toNat + 1) = false))
          (fun z b t => Runs s t z.w b [] (fun _ y => y) (fun v =>
            v.setG x.d.toNat (if isWide x.ty then y.rv2 x.a.toNat else (y.rv x.a.toNat).setWidth 64))))
    ∧ Completes s (.vtog g x) g .none (fun z => (z.bundle g).act = []) (fun z b t => Runs s t z.w b [] (fun _ y => y) id)
    ∧ EachFibre s (.rdsr g x) g (fun z k y => putD x (specialReg z.wk k z.w y z.l x.a.toNat) y)
    ∧ EachFibre s (.wrsr g x) g (fun _ _ y => { y with draw := if isWide x.ty then y.rv2 x.a.toNat else (y.rv x.a.toNat).setWidth 64 }))
  ∧ (∀ (s : State) (g : Guard) (x : RI), EachFibre s (.movi g x) g (fun _ _ y => putI x (riB x) y))
  ∧ (∀ (s : State) (g : Guard) (x : RK), EachFibreK s (.movk g x) g (fun ws _ y => putK x (conValue ws) y))
  ∧ ∀ (s : State) (g : Guard) (x : RRR),
    EachFibre s (.stage g x) g (fun _ _ y => { y with staged := (List.range 259).filter (fun r =>
      (stageRuns x).any (fun p => p.1 ≤ r && r < p.1 + p.2)) }))

/-- Cross-fibre instructions over the participants, slots ascending, where no register read is poisoned (R116, R147 to R153). `P` is
the participants with their fibres. -/
def Obligations.CrossFibreResults : Prop :=
  ∀ (s : State) (g : Guard) (x : RRR),
    let val (y : Fibre) : W64 := if isWide x.ty then y.rv2 x.a.toNat else (y.rv x.a.toNat).setWidth 64
    let clean (y : Fibre) : Prop := y.vp x.a.toNat = false ∧ (isWide x.ty = true → y.vp (x.a.toNat + 1) = false)
    let cleanP (z : Site) : Prop := x.usrc.getLsbD 2 = false → ∀ e ∈ theP (z.bundle g) z.w, clean e.2
    let own (w : Wave) (y : Fibre) : W64 := if x.usrc.getLsbD 2 then (if isWide x.ty then w.rg x.a.toNat else ((w.rg x.a.toNat).setWidth 32).setWidth 64) else val y
    let source (z : Site) (k : Nat) (y : Fibre) : Option Fibre :=
      let b : Nat := (oneB x z.w y).toNat % 2 ^ 32
      let j : Int := if x.opx &&& 3 = 0 then b else if x.opx &&& 3 = 1 then (k : Int) - b else if x.opx &&& 3 = 2 then (k : Int) + b
        else (Nat.xor k b : Nat)
      if 0 ≤ j ∧ j < 32 then sget j.toNat z.w.fibres else none
    let fold (w : Wave) (l : List (Nat × Fibre)) : Option W64 :=
      match l with
      | [] => none
      | e :: r => some (r.foldl (fun acc e => redOp (x.opx &&& 7).toNat x.ty x.rnd.toNat x.ty acc (own w e.2) 0) (own w e.2))
    let pc : BitVec 4 := x.c.extractLsb' 0 4
    Completes s (.shfl g x) g .none
      (fun z => ∀ e ∈ theP (z.bundle g) z.w, ∀ o, source z e.1 e.2 = some o → clean o)
      (fun z b t => Runs s t z.w b [] (fun k y =>
        match source z k y with
        | none => (putD x 0 y).setP pc false
        | some o => (putD x (val o) y).setP pc true) id)
    ∧ Completes s (.vote g x) g .none (fun _ => True) (fun z b t =>
      let P := theP b z.w
      let p (e : Nat × Fibre) : Bool := e.2.rp (x.a.extractLsb' 0 4)
      Runs s t z.w b [] (fun _ y =>
        if x.opx &&& 3 = 2 then y.setV x.d.toNat (BitVec.ofNat 32 ((P.filter p).map (fun e => 2 ^ e.1)).sum)
        else y.setP (x.d.extractLsb' 0 4)
          (if x.opx &&& 3 = 0 then P.any p else if x.opx &&& 3 = 1 then P.all p else P.all p || P.all (fun e => !p e))) id)
    ∧ Completes s (.lred g x) g .none cleanP (fun z b t =>
      Runs s t z.w b [] (fun _ y => match fold z.w (theP b z.w) with | none => y | some acc => putD x acc y) id)
    ∧ Completes s (.lscan g x) g .none cleanP (fun z b t =>
      let P := theP b z.w
      Runs s t z.w b [] (fun k y =>
        if x.opx.getLsbD 3 then putD x ((fold z.w (P.filter (fun e => e.1 < k))).getD (redIdentity (x.opx &&& 7).toNat x.ty)) y
        else match fold z.w (P.filter (fun e => e.1 ≤ k)) with | none => y | some acc => putD x acc y) id)
    ∧ Completes s (.lfind g x) g .none cleanP (fun z b t =>
      let same (y : Fibre) : List Nat := ((theP b z.w).filter (fun e => own z.w e.2 == own z.w y)).map (·.1)
      Runs s t z.w b [] (fun k y =>
        (y.setV x.d.toNat (BitVec.ofNat 32 ((same y).map (fun j => 2 ^ j)).sum)).setP pc ((same y).head? == some k)) id)

/-- Uniform instructions are performed once for the bundle if a fibre passes the guard, and write the whole 64-bit register: a 32-bit
result is extended by sign for `.i32` and by zeros otherwise (R115, R144, R145).

The immediate and constant forms of uniform instructions (R86, R88, R115, R144, R145).

Constant windows: where the core holds the region entry of the window and the lines of the words in its constant cache, the words read
are those of the lines, 4 × WOFF bytes into the window (R87); and `gld` starts an operation that delivers four registers of them, the low word of each first,
counted on the flag of the clause (R77, R146). -/
def Obligations.UniformResults : Prop :=
  (∀ (s : State) (g : Guard) (x : RRR),
    let u (w : Wave) (r : BitVec 8) : W64 := if isWide x.ty then w.rg r.toNat else ((w.rg r.toNat).setWidth 32).setWidth 64
    let n (w : Wave) (r : BitVec 8) : Int := ival x.ty (u w r)
    let put (w : Wave) (v : W64) : Wave := w.setG x.d.toNat
      (if isWide x.ty then v else if isSigned x.ty then (v.setWidth 32).signExtend 64 else (v.setWidth 32).setWidth 64)
    OnceForWave s (.gadd g x) g (fun w => put w (ires x.ty false (n w x.a + n w x.b)))
    ∧ OnceForWave s (.gsub g x) g (fun w => put w (ires x.ty false (n w x.a - n w x.b)))
    ∧ OnceForWave s (.gmul g x) g (fun w => put w (ires x.ty false (n w x.a * n w x.b)))
    ∧ OnceForWave s (.gmin g x) g (fun w => put w (if n w x.b < n w x.a then u w x.b else u w x.a))
    ∧ OnceForWave s (.gand g x) g (fun w => put w (u w x.a &&& u w x.b))
    ∧ OnceForWave s (.gor g x) g (fun w => put w (u w x.a ||| u w x.b))
    ∧ OnceForWave s (.gxor g x) g (fun w => put w (u w x.a ^^^ u w x.b))
    ∧ OnceForWave s (.gshl g x) g (fun w => put w (opShl x.ty (u w x.a) (u w x.b) 0))
    ∧ OnceForWave s (.gshr g x) g (fun w =>
        put w (if isSigned x.ty then opSar x.ty (u w x.a) (u w x.b) 0 else opShr x.ty (u w x.a) (u w x.b) 0))
    ∧ OnceForWave s (.gcmp g x) g (fun w => w.setG (x.d.toNat % 16)
        (if icmpHolds (x.d.toNat / 16) x.ty (u w x.a) (u w x.b) then 1 else 0))
    ∧ OnceForWave s (.gsel g x) g (fun w => w.setG x.d.toNat (if w.rg x.c.toNat ≠ 0 then w.rg x.a.toNat else w.rg x.b.toNat))
    ∧ OnceForWave s (.gmov g x) g (fun w => put w (u w x.a))
    ∧ OnceForWave s (.glea g x) g (fun w => w.setG x.d.toNat
        (let b := w.rg x.b.toNat
         w.rg x.a.toNat + (if x.ty == 2 then (b.setWidth 32).signExtend 64 else if x.ty == 6 then (b.setWidth 32).setWidth 64 else b)
           <<< (x.opx.toNat % 64))))
  ∧ ((∀ (s : State) (g : Guard) (x : RI),
    let ty := riTy x
    let u (w : Wave) : W64 := srcG w (isWide ty) x.a
    let put (w : Wave) (v : W64) : Wave := w.setG x.d.toNat (extG ty v)
    OnceForWave s (.gaddRi g x) g (fun w => put w (ires ty false (ival ty (u w) + ival ty (riB x))))
    ∧ OnceForWave s (.gandRi g x) g (fun w => put w (u w &&& riB x))
    ∧ OnceForWave s (.gorRi g x) g (fun w => put w (u w ||| riB x))
    ∧ OnceForWave s (.gxorRi g x) g (fun w => put w (u w ^^^ riB x))
    ∧ OnceForWave s (.gshlRi g x) g (fun w => put w (opShl ty (u w) (riB x) 0))
    ∧ OnceForWave s (.gshrRi g x) g (fun w => put w (if isSigned ty then opSar ty (u w) (riB x) 0 else opShr ty (u w) (riB x) 0))
    ∧ OnceForWave s (.gcmpRi g x) g (fun w => w.setG (x.d.extractLsb' 0 4).toNat
        (if icmpHolds (x.d.extractLsb' 4 4).toNat ty (u w) (riB x) then 1 else 0))
    ∧ OnceForWave s (.gmovRi g x) g (fun w => put w (riB x)))
  ∧ ∀ (s : State) (g : Guard) (x : RK),
    let u (w : Wave) : W64 := srcG w (isWide x.ty) x.a
    let put (w : Wave) (v : W64) : Wave := w.setG x.d.toNat (extG x.ty v)
    OnceForWaveK s (.gaddRk g x) g (fun ws w => put w (ires x.ty false (ival x.ty (u w) + ival x.ty (conValue ws))))
    ∧ OnceForWaveK s (.gcmpRk g x) g (fun ws w => w.setG (x.d.extractLsb' 0 4).toNat
        (if icmpHolds (x.d.extractLsb' 4 4).toNat x.ty (u w) (conValue ws) then 1 else 0))
    ∧ OnceForWaveK s (.gmovRk g x) g (fun ws w => put w (conValue ws)))
  ∧ ((∀ (s : State) (i : Instr) (g : Guard) (z : Site) (k off n : Nat) (base : W64) (len : Nat) (re : RegionEntry) (line : Nat → CacheLine),
    Ready s i g .none z → z.f.const = some (k, off, n) → (z.bundle g).act ≠ [] → z.w.page = none →
    sget k z.l.windows = some (base, len) →
    (coreOf s (coreNo z.wk)).regions.find? (fun e => e.ctx = z.l.ctx && e.rid = ptrRid base) = some re →
    (∀ j < n, inRegion re (ptrVa base + 4 * (off + j)) 4 = true) →
    (∀ j < n, (coreOf s (coreNo z.wk)).ccache.find? (fun e => e.ctx = z.l.ctx
        && e.line = ptrVa base + 4 * (off + j) - (ptrVa base + 4 * (off + j)) % 128) = some (line j)) →
    Reads s z g s ((List.range n).map (fun j =>
      BitVec.ofNat 32 (fromBytesLE (((line j).data.drop ((ptrVa base + 4 * (off + j)) % 128)).take 4)))))
  ∧ ∀ (s : State) (g : Guard) (x : RK) (z : Site) (s' : State) (ws : List W32),
    Ready s (.gld g x) g .none z → Reads s z g s' ws → (z.bundle g).act ≠ [] →
    ∃ t, exec (.gld g x) s = .next t ∧
      Starts s' t z.w (z.bundle g) z.c.header [] (fun _ y => y) (z.bundle g).act
        (.gld x.d.toNat ((List.range 4).map (fun i =>
          { val := ws.getD (2 * i + 1) 0 ++ ws.getD (2 * i) 0, poisLo := false, poisHi := false }))))

/-! ### Memory instructions (chapter 6) -/

/-- Loads through a buffer record, where the record lets the wave read, every byte is served, no logged write overlaps and no earlier access of
the fibre must come first: `ld` (R163),
with the accessing fibre's own cell, and `ldx` (R165), with the cell of the tag that the register in MOPX names, start an operation that delivers the
bytes of memory as values of the type. `ldk` (R167) takes its bytes from the constant cache of the core, here where the cache holds the line of every
byte. -/
def Obligations.LoadResults : Prop :=
  ∀ (s : State) (g : Guard) (x : MEM) (z : Site) (reach : Nat → List (Nat × Nat)),
    let act := (z.bundle g).act
    let buf := bufAt z.w x.buf.toNat
    Open s → act ≠ [] → buf.valid = true → buf.rd = true →
    (∀ k ∈ act, siltOverlap s (coreNo z.wk) (ctxOf s z.wk) ((reach k).map (·.1)) = false
      ∧ Clear s z.wk [k] false (acquires x) ((reach k).map (·.1))) →
    (let n := 2 ^ (x.mopx &&& 7).toNat
     Ready s (.ld g x) g .none z →
     Through s z g buf x.idx x.off.toNat (x.mopx >>> 3).toNat (n * tyBytes x.ty) (fun y => y.ct.toNat) .read reach →
     ∃ t, exec (.ld g x) s = .next t ∧ Starts s t z.w (z.bundle g) z.c.header [] (fun _ y => y) act
       (.load (act.map (fun k => delivered k x.data.toNat n (tyBytes x.ty) x.ty ((reach k).map (fun q => byteOf s q.2)))).flatten [] []))
    ∧ (Ready s (.ldx g x) g .none z →
     (∀ k ∈ act, ∀ y, sget k z.w.fibres = some y → (y.rv x.mopx.toNat).toNat < 4096) →
     Through s z g buf x.idx x.off.toNat 0 (tyBytes x.ty) (fun y => (y.rv x.mopx.toNat).toNat) .read reach →
     ∃ t, exec (.ldx g x) s = .next t ∧ Starts s t z.w (z.bundle g) z.c.header [] (fun _ y => y) act
       (.load (act.map (fun k => delivered k x.data.toNat 1 (tyBytes x.ty) x.ty ((reach k).map (fun q => byteOf s q.2)))).flatten [] []))
    ∧ ∀ line : Nat → CacheLine,
     let n := 2 ^ (x.mopx &&& 7).toNat
     let va (k : Nat) : List Nat := (reach k).map (·.1)
     Ready s (.ldk g x) g .none z → Forms s z g buf x.idx x.off.toNat (x.mopx >>> 3).toNat (n * tyBytes x.ty) va →
     (∀ k ∈ act, ∀ a ∈ va k,
       (coreOf s (coreNo z.wk)).ccache.find? (fun e => e.ctx = ctxOf s z.wk && e.line = a - a % 128) = some (line a)) →
     ∃ t, exec (.ldk g x) s = .next t ∧ Starts s t z.w (z.bundle g) z.c.header [] (fun _ y => y) act
       (.load (act.map (fun k => delivered k x.data.toNat n (tyBytes x.ty) x.ty
         ((va k).map (fun a => ((line a).data.getD (a % 128) 0, false))))).flatten [] [])

/-- `st` (R163): where the record lets the wave write, every byte is served and neither a logged write nor an earlier access of the fibre must
come first, memory takes the low bytes of the values in
the data registers, and nothing else of it changes. -/
def Obligations.StoreResults : Prop :=
  ∀ (s : State) (g : Guard) (x : MEM) (z : Site) (reach : Nat → List (Nat × Nat)),
    let act := (z.bundle g).act
    let buf := bufAt z.w x.buf.toNat
    Open s → act ≠ [] → buf.valid = true → buf.wr = true →
    (∀ k ∈ act, mustFollow s (coreNo z.wk) z.wk [k] (ctxOf s z.wk) ((reach k).map (·.1)) = false
      ∧ Clear s z.wk [k] false (acquires x) ((reach k).map (·.1))) →
    Ready s (.st g x) g (relOf x.ord .each) z →
    Through s z g buf x.idx x.off.toNat (x.mopx >>> 3).toNat (2 ^ (x.mopx &&& 7).toNat * tyBytes x.ty) (fun y => y.ct.toNat) .write reach →
    ∃ t, exec (.st g x) s = .next t
      ∧ Starts { s with mem := t.mem, memPois := t.memPois } t z.w (z.bundle g) z.c.header [] (fun _ y => y) act (.store [])
      ∧ Wrote s t act reach (fun k j => ((sget k z.w.fibres).map (fun y => storedByte y x.data.toNat (tyBytes x.ty) j)).getD 0)

/-- `lds` and `sts` (R164): the stash address is the register plus OFF times the width of a value; a load delivers the stash's bytes with their poison by
units of 8, and a store puts the values' low bytes there and nowhere else. -/
def Obligations.StashLoadAndStoreResults : Prop :=
  ∀ (s : State) (g : Guard) (x : MEM) (z : Site) (place : Nat → Nat) (h : Gang),
    let act := (z.bundle g).act
    let n := 2 ^ (x.mopx &&& 7).toNat
    Open s → act ≠ [] → sget (gangOf s z.wk) s.gangs = some h →
    InStash s z g x.idx (x.off.toNat * tyBytes x.ty) (n * tyBytes x.ty) place →
    (∀ k ∈ act, Clear s z.wk [k] true (acquires x) (addrs (place k) (n * tyBytes x.ty))) →
    (Ready s (.lds g x) g .none z → ∃ t, exec (.lds g x) s = .next t
      ∧ Starts s t z.w (z.bundle g) z.c.header [] (fun _ y => y) act
        (.load (act.map (fun k => delivered k x.data.toNat n (tyBytes x.ty) x.ty
          ((addrs (place k) (n * tyBytes x.ty)).map (fun a => (sgetD 0 h.stash a, h.stashPois.contains (a / 8)))))).flatten [] []))
    ∧ (NoPhaseWaiters s → Ready s (.sts g x) g (relOf x.ord .each) z → ∃ t h', exec (.sts g x) s = .next t
      ∧ Starts { s with gangs := t.gangs } t z.w (z.bundle g) z.c.header [] (fun _ y => y) act (.store [])
      ∧ sget (gangOf s z.wk) t.gangs = some h' ∧ (∀ j, j ≠ gangOf s z.wk → sget j t.gangs = sget j s.gangs)
      ∧ StashTook h h' act place (n * tyBytes x.ty) (fun k j => ((sget k z.w.fibres).map (fun y => storedByte y x.data.toNat (tyBytes x.ty) j)).getD 0))

/-- `atom` and `red` on memory where all passing fibres name one location (R168, R169): the fibres' operands are combined with memory in ascending slot
order; `atom` delivers the value that each fibre found, `red` nothing; only the location's bytes change. -/
def Obligations.AtomicResultsInMemory : Prop :=
  ∀ (s : State) (g : Guard) (x : MEM) (z : Site) (r : List (Nat × Nat)) (tag : Nat),
    let act := (z.bundle g).act
    let buf := bufAt z.w x.buf.toNat
    let a := atomGroup (x.mopx.extractLsb' 0 4) x.ty (BitVec.ofNat 64 (fromBytesLE (r.map (fun p => pByte s p.2))))
      ((theP (z.bundle g) z.w).map (fun e => (atomX x e.2, atomY x e.2)))
    let after (t : State) (k : OpKind) : Prop :=
      Starts { s with mem := t.mem, memPois := t.memPois } t z.w (z.bundle g) z.c.header [] (fun _ y => y) act k
        ∧ Wrote s t [0] (fun _ => r) (fun _ j => a.1.extractLsb' (8 * j) 8)
    x.mopx.getLsbD 7 = false → act ≠ [] → Open s → buf.valid = true → buf.at' = true → (∀ p ∈ r, p.2 / 64 ∉ s.memPois) →
    (∀ k ∈ act, ∀ y, sget k z.w.fibres = some y → y.ct.toNat = tag) → Clear s z.wk act false (acquires x) (r.map (·.1)) →
    (Ready s (.atom g x) g (relOf x.ord .bundle) z → siltOverlap s (coreNo z.wk) (ctxOf s z.wk) (r.map (·.1)) = false →
      Through s z g buf x.idx x.off.toNat 0 (tyBytes x.ty) (fun _ => tag) .both (fun _ => r) →
      ∃ t, exec (.atom g x) s = .next t
        ∧ after t (.load ((act.zip a.2).map (fun e => giveValue e.1 x.data.toNat (tyBytes x.ty) e.2 false)).flatten [] []))
    ∧ (Ready s (.redI g x) g (relOf x.ord .bundle) z → mustFollow s (coreNo z.wk) z.wk act (ctxOf s z.wk) (r.map (·.1)) = false →
      Through s z g buf x.idx x.off.toNat 0 (tyBytes x.ty) (fun _ => tag) .write (fun _ => r) →
      ∃ t, exec (.redI g x) s = .next t ∧ after t (.store []))

/-- `atom` and `red` on the stash where all passing fibres name one location (R164, R168, R169).

What the operations of R168 leave at a location for one fibre's operand: sum, minimum, maximum, and, or, xor, exchange, and compare
and swap, which stores the new value if memory equals the operand. Every fibre gets the value that it found. -/
def Obligations.AtomicResultsInTheStash : Prop :=
  (∀ (s : State) (g : Guard) (x : MEM) (z : Site) (p : Nat) (h : Gang),
    let act := (z.bundle g).act
    let a := atomGroup (x.mopx.extractLsb' 0 4) x.ty (BitVec.ofNat 64 (fromBytesLE ((addrs p (tyBytes x.ty)).map (sgetD 0 h.stash))))
      ((theP (z.bundle g) z.w).map (fun e => (atomX x e.2, atomY x e.2)))
    let after (t : State) (k : OpKind) : Prop :=
      Starts { s with gangs := t.gangs } t z.w (z.bundle g) z.c.header [] (fun _ y => y) act k
        ∧ (∀ j, j ≠ gangOf s z.wk → sget j t.gangs = sget j s.gangs)
        ∧ ∃ h', sget (gangOf s z.wk) t.gangs = some h'
            ∧ StashTook h h' [0] (fun _ => p) (tyBytes x.ty) (fun _ j => a.1.extractLsb' (8 * j) 8)
    x.mopx.getLsbD 7 = true → act ≠ [] → Open s → NoPhaseWaiters s → sget (gangOf s z.wk) s.gangs = some h →
    InStash s z g x.idx (x.off.toNat * tyBytes x.ty) (tyBytes x.ty) (fun _ => p) →
    Clear s z.wk act true (acquires x) (addrs p (tyBytes x.ty)) → (∀ j < tyBytes x.ty, (p + j) / 8 ∉ h.stashPois) →
    (Ready s (.atom g x) g (relOf x.ord .bundle) z → ∃ t, exec (.atom g x) s = .next t
      ∧ after t (.load ((act.zip a.2).map (fun e => giveValue e.1 x.data.toNat (tyBytes x.ty) e.2 false)).flatten [] []))
    ∧ (Ready s (.redI g x) g (relOf x.ord .bundle) z → ∃ t, exec (.redI g x) s = .next t ∧ after t (.store [])))
  ∧ (∀ (ty : BitVec 5) (m a b : W64), ty ∈ [(6 : BitVec 5), 9] →
    let n (v : W64) : Nat := v.toNat % 2 ^ tyWidth ty
    let new (op : BitVec 4) : Nat := n (atomGroup op ty m [(a, b)]).1
    new 0 = (n m + n a) % 2 ^ tyWidth ty ∧ new 1 = min (n m) (n a) ∧ new 2 = max (n m) (n a)
    ∧ new 3 = n (m &&& a) ∧ new 4 = n (m ||| a) ∧ new 5 = n (m ^^^ a) ∧ new 6 = n a ∧ new 7 = (if n m = n a then n b else n m)
    ∧ ∀ op : BitVec 4, op.toNat < 8 → (atomGroup op ty m [(a, b)]).2 = [m])

/-- Instructions of the memory unit that act on caches and order (R166, R173 to R177). `fence` blocks each passing fibre at itself until it completes. The
others start an operation that acts when it completes: for the lines that the fibres name, once for the bundle, or, for `ldmc`, for the physical
lines of the fibres' bytes and the cores of the mask. -/
def Obligations.CacheControlResults : Prop :=
  ∀ (s : State) (g : Guard) (x : MEM) (z : Site),
    let act := (z.bundle g).act
    let buf := bufAt z.w x.buf.toNat
    let starts (i : Instr) (k : OpKind) : Prop := Ready s i g .none z → act ≠ [] →
      ∃ t, exec i s = .next t ∧ Starts s t z.w (z.bundle g) z.c.header [] (fun _ y => y) act k
    (Ready s (.fence g x) g (relOf x.ord .each) z → ∃ t, exec (.fence g x) s = .next t
      ∧ Runs s t z.w (z.bundle g) act (fun _ y =>
          { y with blocked := some .fence, pc := (z.bundle g).pc, base := some (z.bundle g).place }) id)
    ∧ starts (.cinvKall g x) .cinvAll
    ∧ starts (.icinv g x) (.icinv (x.mopx.extractLsb' 0 2))
    ∧ (buf.valid = true → starts (.pref g x) .pref)
    ∧ (∀ va : Nat → Nat, buf.valid = true → buf.rd = true → Forms s z g buf x.idx x.off.toNat 0 1 (fun k => [va k]) →
        starts (.cflush g x) (.cflush ((theP (z.bundle g) z.w).map (fun e => (va e.1 - va e.1 % 128, e.2.ct.toNat))))
        ∧ starts (.cinvK g x) (.cinvLines (dedup [] (act.map (fun k => va k - va k % 128))))
        ∧ starts (.cinvL1 g x) .cinvL1)
    ∧ ∀ (reach : Nat → List (Nat × Nat)) (mask : BitVec 16),
        let n := 2 ^ x.scope.toNat
        mask = (z.w.rg (x.mopx &&& 0x7F).toNat).extractLsb' 0 16 → mask.getLsbD (coreNo z.wk % 16) = true →
        buf.valid = true → buf.rd = true → Open s → Ready s (.ldmc g x) g .none z → act ≠ [] →
        (∀ k ∈ act, siltOverlap s (coreNo z.wk) (ctxOf s z.wk) ((reach k).map (·.1)) = false
          ∧ (opsOf s z.wk).any (OpKind.bars k) = false ∧ ∀ p ∈ reach k, isTagged s (ctxOf s z.wk) p.1 = false) →
        Through s z g buf x.idx x.off.toNat 0 (n * tyBytes x.ty) (fun _ => 0) .read reach →
        ∃ t accs, exec (.ldmc g x) s = .next t
          ∧ Starts s t z.w (z.bundle g) z.c.header [] (fun _ y => y) act
              (.ldmc accs [] mask (dedup [] (act.map (fun k => (reach k).map (fun p => p.2 - p.2 % 128))).flatten) [] [])
          ∧ accs.map (fun a => (a.slot, a.va, a.pa, a.reg, a.n, a.w, a.ty))
              = act.map (fun k => (k, (reach k).map (·.1), (reach k).map (·.2), x.data.toNat, n, tyBytes x.ty, x.ty))

/-- Stash-mapped windows (R179, R181). `smap` reads its operands from the lowest passing slot and, where every check passes, starts the operation that installs the window of
4,096 × 2^C bytes and holds the window's tag (R252); unmapping and writing back start theirs. -/
def Obligations.WindowInstructions : Prop :=
  ∀ (s : State) (g : Guard) (x : MEM) (z : Site),
    let act := (z.bundle g).act
    let n := bits x.mopx.toNat 0 3
    let starts (i : Instr) (k : OpKind) : Prop := Ready s i g .none z → act ≠ [] →
      ∃ t, exec i s = .next t ∧ Starts s t z.w (z.bundle g) z.c.header [] (fun _ y => y) act k
    starts (.smapUnmap g x) (.smapUnmap n)
    ∧ starts (.swb g x) (.swb (some n))
    ∧ starts (.swbAll g x) (.swb none)
    ∧ ∀ k y re, act.head? = some k → sget k z.w.fibres = some y →
        let buf := bufAt z.w x.buf.toNat
        let c := bits x.mopx.toNat 3 4
        let size := 4096 * 2 ^ c
        let st := (y.rv x.data.toNat).toNat
        let off := ((y.rv x.idx.toNat).toNat + x.off.toNat) * buf.stride
        let va := buf.base + off
        y.vp x.data.toNat = false → y.vp x.idx.toNat = false → buf.valid = true → buf.swz = 0 → buf.rd = true →
        off + size ≤ buf.extent * buf.stride → st % 128 = 0 → va % 128 = 0 → va + size ≤ 2 ^ 57 →
        (coreOf s (coreNo z.wk)).regions.find? (fun e => e.ctx = ctxOf s z.wk && e.rid = buf.rid) = some re → inRegion re va size = true →
        st + size ≤ stashSpan s (gangOf s z.wk) →
        (∀ w ∈ otherWins s (gangOf s z.wk) n, w.stash + w.size ≤ st ∨ st + size ≤ w.stash) →
        Ready s (.smap g x) g .none z → ∃ t, exec (.smap g x) s = .next t
          ∧ Starts { s with contexts := t.contexts } t z.w (z.bundle g) z.c.header [] (fun _ y => y) act
              (.smap n { stash := st, c := c, ptr := pointer buf.rid va, tag := y.ct, ctx := ctxOf s z.wk, wr := buf.wr, lines := [] })
          ∧ t.contexts = (tagHold s (ctxOf s z.wk) y.ct.toNat).contexts

/-! ### Control, synchronisation and system instructions (chapter 7) -/

/-- Transfers of control with a good target (R183 to R186): each passing fibre stands at the target's clause header with its staged set empty; `call` also writes
the fall-through address to its link pair, `call.x` having read its target first; `yield` notes the clause
that the wave's next choice excludes, and `nop` does nothing. -/
def Obligations.TransferResults : Prop :=
  ∀ (s : State) (g : Guard) (x : BR),
    let disp (z : Site) : W64 := (z.bundle g).place.hdr + 8 * x.disp.signExtend 64
    let at_ (t : W64) (y : Fibre) : Fibre := { y with pc := t, base := none, staged := [] }
    let good (z : Site) (t : Fibre → W64) : Prop := ∀ k ∈ (z.bundle g).act, ∀ y, sget k z.w.fibres = some y → goodTarget (t y) = true
    let goes (i : Instr) (t : Site → Fibre → W64) (also : Site → Fibre → Fibre) : Prop :=
      Completes s i g .none (fun z => good z (t z)) (fun z b u => Runs s u z.w b [] (fun _ y => at_ (t z y) (also z y)) id)
    let fall (z : Site) : W64 := (z.bundle g).place.hdr + 8 * (BitVec.ofNat 64 (z.bundle g).place.last + 2)
    let link (z : Site) (y : Fibre) : Fibre := y.setV2 x.va.toNat (fall z)
    goes (.bra g x) (fun z _ => disp z) (fun _ y => y)
    ∧ goes (.brx g x) (fun _ y => y.rv2 x.va.toNat) (fun _ y => y)
    ∧ goes (.brxRel g x) (fun z y => (z.bundle g).place.hdr + (y.rv x.va.toNat).signExtend 64) (fun _ y => y)
    ∧ goes (.call g x) (fun z _ => disp z) link
    ∧ goes (.callX g x) (fun _ y => y.rv2 x.vb.toNat) link
    ∧ goes (.ret g x) (fun _ y => y.rv2 x.va.toNat) (fun _ y => y)
    ∧ Completes s (.yield g x) g .none (fun _ => True) (fun z b u =>
        Runs s u z.w b [] (fun _ y => y) (fun v => if b.act.isEmpty then v else { v with yieldPc := some (fall z) }))
    ∧ EachFibre s (.nop g x) g (fun _ _ y => y)

/-- Creating and ending fibres (R187, R188). `fork`: of the passing fibres in ascending slot order, the n-th creates a child in the n-th empty slot and sets its
predicate; those for which no slot is left clear theirs. A child has the next serial in its logical index, the entry as its PC, its parent's tag and the copied registers, and the
rest as any new fibre. `exit` empties the slots of the passing fibres. -/
def Obligations.FibreCreationAndEnd : Prop :=
  ∀ (s : State) (g : Guard) (x : BR) (z : Site),
    let b := z.bundle g
    let after (k : Nat) (y : Fibre) : Fibre := if b.all.contains k then passed z.w b k y else y
    (let empty := (List.range 32).filter (fun e => !(skeys z.w.fibres).contains e)
     let kids := min b.act.length empty.length
     let tgt : W64 := b.place.hdr + 8 * x.disp.signExtend 64
     let pS : BitVec 4 := x.vb.extractLsb' 4 4
     let n := if x.ctopx = 0 then 0 else 2 ^ (x.ctopx.toNat - 1)
     Ready s (.fork g x) g .none z → goodTarget tgt = true → z.w.forkSerial + kids ≤ 2 ^ 26 →
     ∃ t v, exec (.fork g x) s = .next t ∧ sget z.wk t.waves = some v
      ∧ (∀ j k e y, b.act[j]? = some k → empty[j]? = some e → sget k z.w.fibres = some y →
          sget k v.fibres = some ((passed z.w b k y).setP pS true)
          ∧ ∃ c, sget e v.fibres = some c
            ∧ c.lfi = BitVec.ofNat 32 (2 ^ 31 + z.w.widx * 2 ^ 26 + (z.w.forkSerial + j)) ∧ c.pc = tgt ∧ c.base = none ∧ c.ct = y.ct
            ∧ (∀ r, c.rv r = (if x.va.toNat ≤ r ∧ r < x.va.toNat + n then y.rv r else 0)
                ∧ c.vp r = (if x.va.toNat ≤ r ∧ r < x.va.toNat + n then y.vp r else false))
            ∧ c.pred = 1 ∧ c.q = [] ∧ c.staged = [] ∧ c.depth = 0 ∧ c.draw = 0 ∧ c.recs = [] ∧ c.blocked = none)
      ∧ (∀ j k y, b.act[j]? = some k → empty.length ≤ j → sget k z.w.fibres = some y →
          sget k v.fibres = some ((passed z.w b k y).setP pS false))
      ∧ (∀ k, k ∉ b.act → k ∉ empty.take kids → sget k v.fibres = (sget k z.w.fibres).map (after k))
      ∧ v.forkSerial = z.w.forkSerial + kids ∧ v.g = z.w.g ∧ v.flags = z.w.flags ∧ v.clause = clauseAfter z.w b []
      ∧ (∀ j, j ≠ z.wk → sget j t.waves = sget j s.waves)
      ∧ { t with waves := s.waves, cores := s.cores, dynW := s.dynW, contexts := s.contexts } = s)
    ∧ (Ready s (.exit g x) g .exit z →
     ∃ t v, exec (.exit g x) s = .next t ∧ sget z.wk t.waves = some v
      ∧ (∀ k, sget k v.fibres = if b.act.contains k then none else (sget k z.w.fibres).map (after k))
      ∧ v.clause = clauseAfter z.w b b.act ∧ v.g = z.w.g ∧ v.forkSerial = z.w.forkSerial
      ∧ (∀ j, j ≠ z.wk → (sget j t.waves).map (fun u => (u.fibres, u.clause, u.g)) = (sget j s.waves).map (fun u => (u.fibres, u.clause, u.g)))
      ∧ t.mem = s.mem ∧ t.gangs = s.gangs ∧ t.launches = s.launches ∧ (s.dbBusy = [] → t.ctl = s.ctl))

/-- `launch` for one passing fibre (R189): where the record is served and unpoisoned and passes the checks of R394 and the queue takes it, its 128 bytes stand in the next entry of
the queue's ring, the queue's tail has moved on, and the operation waits for the launch number that its register receives. -/
def Obligations.LaunchResults : Prop :=
  ∀ (s : State) (g : Guard) (x : BR) (z : Site) (k : Nat) (y : Fibre) (re : RegionEntry) (reach : List (Nat × Nat)),
    let b := z.bundle g
    let q := (x.disp.extractLsb' 26 6).toNat
    let ctx := ctxOf s z.wk
    let p := y.rv2 x.va.toNat
    let rec128 := reach.map (fun a => pByte s a.2)
    Ready s (.launch g x) g .bundle z → b.act = [k] → sget k z.w.fibres = some y → Open s →
    z.l.depth ≠ 10 → p.toNat % 128 = 0 →
    (coreOf s (coreNo z.wk)).regions.find? (fun e => e.ctx = ctx && e.rid = ptrRid p) = some re → inRegion re (ptrVa p) 128 = true →
    reach.map (·.1) = addrs (ptrVa p) 128 → (∀ a ∈ reach, Served s (coreNo z.wk) ctx 0 .read a.1 a.2 ∧ a.2 / 64 ∉ s.memPois) →
    siltOverlap s (coreNo z.wk) ctx (addrs (ptrVa p) 128) = false → isTagged s ctx (ptrVa p) = false →
    recCheck s ctx rec128 = none → lqAccepts s q ctx = true → lqCount s q < 2 ^ lqLog s q →
    ∃ t, exec (.launch g x) s = .next t
      ∧ Starts { s with mem := t.mem, memPois := t.memPois, ctl := t.ctl } t z.w b z.c.header [k]
          (fun _ f => Fibre.resume { f with blocked := some (.mem s.nextOp), pc := b.pc, base := some b.place } true) b.act
          (.launch q [{ slot := k, vr := x.vb.toNat, ptr := p, record := rec128, entry := some (lqTail s q) }])
      ∧ (∀ j < 128, pByte t (lqEntry s q (lqTail s q) + j) = rec128.getD j 0)
      ∧ (∀ a, (∀ j < 128, a ≠ lqEntry s q (lqTail s q) + j) → pByte t a = pByte s a)
      ∧ lqTail t q = (lqTail s q + 1) % 2 ^ 32 ∧ (∀ a, a ≠ lqReg q 0x10 → ctlRd t a = ctlRd s a)

/-- The barrier instructions, where the passing fibres name one object of the stash (R190 to R194): the fibres act in ascending slot order. `barinit` leaves the object as its last
fibre initialises it, `barexp` adds each fibre's bytes, and at each arrival of `bararr` the fibre gets the phase in which it arrived. No byte of the stash
outside the object changes. That an arrival beyond a count of 65,535 wraps the count is the model's choice (log 32). -/
def Obligations.BarrierResults : Prop :=
  ∀ (s : State) (g : Guard) (x : SY) (z : Site) (a : Nat) (h : Gang),
    let b := z.bundle g
    let gk := gangOf s z.wk
    let o := Bar.read s gk a
    let fs := (theP b z.w).map (·.2)
    let ok (valid : Bool) : Prop := Open s ∧ NoPhaseWaiters s ∧ sget gk s.gangs = some h
      ∧ (∀ k ∈ b.act, ∀ y, sget k z.w.fibres = some y → (y.rv x.va.toNat).toNat = a)
      ∧ a % 16 = 0 ∧ a + 16 ≤ stashSpan s gk ∧ (valid = true → o.valid = true)
    let leaves (t : State) (o' : Bar) : Prop := Bar.read t gk a = o' ∧ ∃ h', sget gk t.gangs = some h'
      ∧ (∀ p, p < a ∨ a + 16 ≤ p → sgetD 0 h'.stash p = sgetD 0 h.stash p) ∧ { h' with stash := h.stash, stashPois := h.stashPois } = h
      ∧ ∀ j, j ≠ gk → sget j t.gangs = sget j s.gangs
    let add (o : Bar) (n : Nat) : Bar :=
      { o with btarget := min (o.btarget + n) (2 ^ 32 - 1), ovf := o.ovf || 2 ^ 32 ≤ o.btarget + n }
    let arrive (o : Bar) : Bar :=
      let o := { o with acount := (o.acount + 1) % 2 ^ 16 }
      if o.atarget ≤ o.acount ∧ o.btarget ≤ o.bcount then
        { o with ovf := o.ovf || o.btarget < o.bcount, phase := (o.phase + 1) % 2 ^ 16, acount := 0, bcount := 0, btarget := 0 }
      else o
    let one (o : Bar) (y : Fibre) : Bar :=
      arrive (if x.syimm.getLsbD 0 then add o (y.rv (x.syimm.extractLsb' 1 8).toNat).toNat else o)
    (Ready s (.barinit g x) g .none z → ok false → ∀ y, fs.getLast? = some y →
      ∃ t, exec (.barinit g x) s = .next t ∧ Runs { s with gangs := t.gangs } t z.w b [] (fun _ y => y) id
        ∧ leaves t { valid := true, ovf := false, phase := 0, bcount := 0, btarget := (y.rv x.vb.toNat).toNat, acount := 0,
                     atarget := (x.syimm.extractLsb' 0 16).toNat })
    ∧ (Ready s (.barexp g x) g .none z → ok true → b.act ≠ [] →
      ∃ t, exec (.barexp g x) s = .next t ∧ Runs { s with gangs := t.gangs } t z.w b [] (fun _ y => y) id
        ∧ leaves t (fs.foldl (fun o y => add o (y.rv x.vb.toNat).toNat) o))
    ∧ (Ready s (.bararr g x) g .each z → ok true → b.act ≠ [] →
      ∃ t, exec (.bararr g x) s = .next t
        ∧ Runs { s with gangs := t.gangs } t z.w b []
            (fun k y => y.setV x.vb.toNat (BitVec.ofNat 32 ((fs.take (b.act.idxOf k)).foldl one o).phase)) id
        ∧ leaves t (fs.foldl one o))

/-- Waiting (R195 to R198). `wait.ph`: with d the phase less the awaited one modulo 2^16, a fibre whose d is 1 to 2^15 goes on, its predicate telling whether d is 2 or more, and another
blocks. `wait.m`: a fibre whose word meets the condition goes on with its predicate set, and another blocks with what it waits for. `gridwait` goes on when every producer has triggered. `trigger`
adds the workgroup to those of its launch that have triggered, and afterwards no fibre of a grid whose producers have triggered is left in `gridwait`. -/
def Obligations.WaitResults : Prop :=
  ∀ (s : State) (g : Guard) (x : SY) (z : Site),
    let b := z.bundle g
    let gk := gangOf s z.wk
    let waits (w : Blocked) (y : Fibre) : Fibre := { y with blocked := some w, pc := b.pc, base := some b.place }
    (Ready s (.waitPh g x) g .none z → Open s → NoPhaseWaiters s →
      (∀ k ∈ b.act, ∀ y, sget k z.w.fibres = some y →
        (y.rv x.va.toNat).toNat % 16 = 0 ∧ (y.rv x.va.toNat).toNat + 16 ≤ stashSpan s gk ∧ (Bar.read s gk (y.rv x.va.toNat).toNat).valid = true) →
      let d (y : Fibre) : Nat := ((Bar.read s gk (y.rv x.va.toNat).toNat).phase + 2 ^ 16 - (y.rv x.vb.toNat).toNat % 2 ^ 16) % 2 ^ 16
      let goesOn (y : Fibre) : Bool := 1 ≤ d y && d y ≤ 2 ^ 15
      ∃ t, exec (.waitPh g x) s = .next t
        ∧ Runs s t z.w b (b.act.filter (fun k => (sget k z.w.fibres).any (fun y => !goesOn y)))
          (fun _ y => if goesOn y then y.setP x.pd (2 ≤ d y)
            else waits (.waitPh (y.rv x.va.toNat).toNat ((y.rv x.vb.toNat).extractLsb' 0 16) x.pd) y) id)
    ∧ (∀ (reach : Nat → List (Nat × Nat)) (met : W32 → W32 → Bool),
      let buf := bufAt z.w (x.syimm.extractLsb' 0 5).toNat
      let off := (x.syimm.extractLsb' 5 8).toNat
      let lim := (x.syimm.extractLsb' 14 5).toNat
      let word (k : Nat) : W32 := BitVec.ofNat 32 (fromBytesLE ((reach k).map (fun p => pByte s p.2)))
      (∀ u v, met u v = if x.cond = 0 then u == v else if x.cond = 1 then u != v
        else if x.cond = 2 then (if x.syimm.getLsbD 13 then v.toInt ≤ u.toInt else v.toNat ≤ u.toNat)
        else (if x.syimm.getLsbD 13 then u.toInt < v.toInt else u.toNat < v.toNat)) →
      Ready s (.waitM g x) g .none z → Open s → buf.valid = true → buf.rd = true →
      (∀ k ∈ b.act, siltOverlap s (coreNo z.wk) (ctxOf s z.wk) ((reach k).map (·.1)) = false ∧ ∀ p ∈ reach k, p.2 / 64 ∉ s.memPois) →
      (∀ k ∈ b.act, (reach k).map (·.1) = addrs (((reach k).map (·.1)).headD 0) 4) →
      Through s z g buf x.va off 0 4 (fun y => y.ct.toNat) .read reach →
      ∃ t, exec (.waitM g x) s = .next t
        ∧ Runs s t z.w b b.act (fun k y =>
            let w := waits (.waitM (pointer buf.rid (((reach k).map (·.1)).headD 0)) ((x.syimm.extractLsb' 0 5).setWidth 8)
              (BitVec.ofNat 32 ((y.rv x.va.toNat).toNat + off)) (BitVec.ofNat 32 buf.extent) (y.rv x.vb.toNat) x.cond (x.syimm.getLsbD 13)
              (if lim = 0 then none else some ((coreOf s (coreNo z.wk)).clock.toNat + 2 ^ (lim + 5))) x.pd) y
            if met (word k) (y.rv x.vb.toNat) then (w.resume false).setP x.pd true else w) id)
    ∧ (Ready s (.gridwait g x) g .none z →
      let done := z.l.depw = false ∨ ∀ p ∈ z.l.prods, gridTriggered s p = true
      ∃ t, exec (.gridwait g x) s = .next t
        ∧ (done → Runs s t z.w b [] (fun _ y => y) id)
        ∧ (¬ done → Runs s t z.w b b.act (fun _ y => waits .gridwait y) id))
    ∧ (Ready s (.trigger g x) g .each z → b.act ≠ [] →
      ∃ t l, exec (.trigger g x) s = .next t ∧ sget z.w.launch t.launches = some l
        ∧ (∀ n, n ∈ l.trig ↔ n = z.w.wg ∨ n ∈ z.l.trig) ∧ { l with trig := z.l.trig } = z.l
        ∧ (∀ j, j ≠ z.w.launch → sget j t.launches = sget j s.launches)
        ∧ ((∀ e ∈ s.waves, ∀ f ∈ e.2.fibres, f.2.blocked ≠ some .gridwait) →
            Runs { s with launches := t.launches } t z.w b [] (fun _ y => y) id)
        ∧ ∀ e ∈ t.waves, ∀ m, sget e.2.launch t.launches = some m → (m.depw = false ∨ ∀ p ∈ m.prods, gridTriggered t p = true) →
            ∀ f ∈ e.2.fibres, f.2.blocked ≠ some .gridwait)

/-- Software traps and the return from the handler, for one passing fibre (R199 to R202, R426, R428). `trap`, and `brk` without a debugger, take the trap of their kind with CODE as
the subkind. `tret` restores the registers that the record holds and releases the record; retry stands at the resume point, skip past it, and the kill
actions end the fibre, the last with an abort of its gang. -/
def Obligations.SoftwareTrapsAndReturns : Prop :=
  ∀ (s : State) (g : Guard) (x : SYS) (z : Site) (k : Nat) (y : Fibre) (reach : List (Nat × Nat)),
    let b := z.bundle g
    b.act = [k] → sget k z.w.fibres = some y → Open s →
    (CanTrap s z k y reach →
      (Ready s (.trapI g x) g .none z → ∃ t, exec (.trapI g x) s = .next t ∧ Trapped s t z b k y { kind := 6, sub := x.code } reach)
      ∧ (Ready s (.brk g x) g .none z → ∃ t, exec (.brk g x) s = .next t ∧ Trapped s t z b k y { kind := 7, sub := x.code } reach))
    ∧ ∀ a, CanReturn s z y a reach → a.matOp = none →
      let back (i : Instr) (pc : W64) (place : Option Place) : Prop := Ready s i g .none z →
        ∃ t v f, exec i s = .next t ∧ sget z.wk t.waves = some v ∧ sget k v.fibres = some f
          ∧ Restored y f (reach.map (fun p => pByte s p.2)) ∧ f.pc = pc ∧ f.base = place ∧ Released s t reach
          ∧ (∀ j, j ≠ k → sget j v.fibres = (sget j z.w.fibres).map (fun y => if b.all.contains j then passed z.w b j y else y))
          ∧ ∀ j, j ≠ z.wk → sget j t.waves = sget j s.waves
      let ends (i : Instr) (gang : State → Prop) : Prop := Ready s i g .none z →
        ∃ t v, exec i s = .next t ∧ sget z.wk t.waves = some v ∧ sget k v.fibres = none ∧ Released s t reach
          ∧ ((sget z.w.launch t.launches).map (fun l => l.status &&& 1)) = some 1 ∧ gang t
      back (.tretRetry g x) a.rpc a.base
      ∧ (∀ p, a.base = some p → back (.tretSkip g x) (a.rpc + 8)
          (if a.rpc = p.hdr + 8 * (BitVec.ofNat 64 p.last + 1) then none else some { p with ll := p.ll || a.ll }))
      ∧ ends (.tretKillf g x) (fun t => t.gangs = s.gangs)
      ∧ (∀ h, sget (gangOf s z.wk) s.gangs = some h → h.abort = false → h.state = .resident →
          ends (.tretKillg g x) (fun t => (sget (gangOf s z.wk) t.gangs).map (fun h => h.abort) = some true))

/-- Services, upcalls and counters (R203 to R207). `capinv` sends one request for each passing fibre, which the gate refuses with status 1 or passes on to the service engine; a storage request
that is accepted holds the fibre's tag, and a read owns the lines of its buffer (R252, R441); `upcall` parks the wave with
its message; `rdctr` reads a counter into a pair. -/
def Obligations.ServiceUpcallAndCounterResults : Prop :=
  ∀ (s : State) (g : Guard) (x : SYS) (z : Site),
    let b := z.bundle g
    (Ready s (.capinv g x) g .bundle z → b.act ≠ [] →
      let cap : BitVec 128 := z.w.rg (x.ga.toNat + 1) ++ z.w.rg x.ga.toNat
      ∃ t, exec (.capinv g x) s = .next t
        ∧ Starts { s with reqs := t.reqs, nextReq := t.nextReq, contexts := t.contexts } t z.w b z.c.header [] (fun _ y => y) b.act
            (.capinv (b.act.zipIdx.map (fun e => { slot := e.1, vr := x.vb.toNat, req := s.nextReq + e.2 })))
        ∧ t.nextReq = s.nextReq + b.act.length
        ∧ (∀ n, (∀ j < b.act.length, n ≠ s.nextReq + j) → sget n t.reqs = sget n s.reqs)
        ∧ t.contexts = ((List.range b.act.length).foldl (fun u j => match sget (s.nextReq + j) t.reqs with
            | some r => if r.storage && r.code.toNat ≤ 1 then tagHold u r.ctx r.tag.toNat else u
            | none => u) s).contexts
        ∧ ∀ j k y, b.act[j]? = some k → sget k z.w.fibres = some y → ∃ r, sget (s.nextReq + j) t.reqs = some r
          ∧ r.op = s.nextOp ∧ r.slot = k ∧ r.wave = z.wk ∧ r.ctx = ctxOf s z.wk ∧ r.lfi = y.lfi ∧ r.cap = cap ∧ r.code = x.code
          ∧ r.args = (List.range 8).map (fun i => y.rv (x.va.toNat + i)) ∧ r.tag = y.ct
          ∧ r.own = (SenReq.accepted s { r with own := [] }).own
          ∧ (gatePasses s (ctxOf s z.wk) cap x.code.toNat = false → r.passed = false ∧ r.result = some [1, 0, 0, 0])
          ∧ (gatePasses s (ctxOf s z.wk) cap x.code.toNat = true → r.passed = true ∧ r.result = none ∨ r.passed = false ∧ r.result = some [3, 0, 0, 0]))
    ∧ (Ready s (.upcall g x) g .bundle z → b.act ≠ [] →
      let core := coreNo z.wk
      let seq := (coreOf s core).upSeq
      let msg : Nat := x.code.toNat * 2 ^ 64 + ctxOf s z.wk * 2 ^ 80 + core * 2 ^ 96 + z.wk % 64 * 2 ^ 103 + seq.toNat * 2 ^ 112
        + z.w.launch * 2 ^ 128 + z.w.wg * 2 ^ 160 + z.w.widx * 2 ^ 192 + (b.act.map (fun k => 2 ^ k)).sum * 2 ^ 224
        + b.pc.toNat % 2 ^ 57 * 2 ^ 256 + (z.w.rg x.ga.toNat).toNat * 2 ^ 320 + (z.w.rg (x.ga.toNat + 1)).toNat * 2 ^ 384
      ∃ t, exec (.upcall g x) s = .next t
        ∧ Runs { modCore s core (fun c => { c with upSeq := c.upSeq + 1 }) with nextReq := s.nextReq + 1 } t z.w b [] (fun _ y => y)
            (fun v => { v with park := some { order := s.nextReq, core := core, wslot := z.wk % 64, seq := seq, reg := x.ga.toNat,
                                              msg := some (toBytesLE 64 msg), reply := none } }))
    ∧ EachFibre s (.rdctr g x) g (fun z _ y =>
        let n := x.code.toNat
        let y' := y.setV2 x.va.toNat
          (if n = 0 then (coreOf s (coreNo z.wk)).clock else if n = 1 then BitVec.ofNat 64 (numberAfter z.w (z.bundle g))
           else if n = 2 then BitVec.ofNat 64 (y.issued - 1) else BitVec.ofNat 64 (sgetD 0 z.w.stall (n - 0x10)))
        if x.sysopx.getLsbD 0 then y'.setV x.vb.toNat (BitVec.ofNat 32 (coreNo z.wk)) else y')

/-! ### Matrix engine, copies and collectives (chapter 8) -/

/-- `mcfg`, `mstat` and `trec`, which take effect at issue (R219, R227, R232): a tile register bound below the slot count, unbound, the wave's SPTRAP; the status of R213 in a
pair, its sticky bits cleared with `.clr`; the byte count and the subcode of a tensor record. -/
def Obligations.MatrixConfigurationAndStatus : Prop :=
  (∀ (s : State) (g : Guard) (x : MX) (z : Site) (u : Workgroup),
    let b := z.bundle g
    let tile := x.tile.toNat
    let sets (t : State) (v : Option TileBind) : Prop := Runs { s with wgs := t.wgs } t z.w b [] (fun _ y => y) id
      ∧ (∀ j, j ≠ wgKey z.w → sget j t.wgs = sget j s.wgs)
      ∧ ∃ u', sget (wgKey z.w) t.wgs = some u' ∧ (∀ n, sget n u'.tiles = if n = tile then v else sget n u.tiles) ∧ { u' with tiles := u.tiles } = u
    b.act ≠ [] → sget (wgKey z.w) s.wgs = some u →
    (Ready s (.mcfgBind g x) g .none z → (z.w.rg x.gs.toNat).toNat < 128 → (z.w.rg x.gs.toNat).toNat < z.l.ks →
      ∃ t, exec (.mcfgBind g x) s = .next t
        ∧ sets t (some { base := (z.w.rg x.gs.toNat).toNat, fmt := x.aty, sparse := x.mxopx.getLsbD 0 }))
    ∧ (Ready s (.mcfgUnbind g x) g .none z → ∃ t, exec (.mcfgUnbind g x) s = .next t ∧ sets t none))
  ∧ (∀ (s : State) (g : Guard) (x : MX), OnceForWave s (.mcfgMode g x) g (fun w => { w with sptrap := x.mxopx.getLsbD 1 }))
  ∧ (∀ (s : State) (g : Guard) (x : MX),
    let k := x.acc.toNat
    let one (b : Bool) (n : Nat) : Nat := if b then 2 ^ n else 0
    let status (a : Tile) : W64 := BitVec.ofInt 16 a.exp ++ BitVec.ofNat 48 (a.rslab % 256 * 2 ^ 40 + one a.susp 9 + one a.high 8 + one a.pair 7
      + one a.efix 6 + one a.nanin 2 + one a.sbad 1 + one a.tbad 0)
    Completes s (.mstat g x) g .none (fun z => (z.w.acc k).high = false) (fun z b t =>
      Runs s t z.w b [] (fun _ y => y.setV2 x.va.toNat (status (z.w.acc k))) (fun v =>
        if x.mxopx.getLsbD 0 && !b.act.isEmpty then v.setAcc k { v.acc k with nanin := false, sbad := false, tbad := false } else v)))
  ∧ ∀ (s : State) (g : Guard) (x : CP), OnceForWave s (.trec g x) g (fun w =>
      let r := tensorOf (w.record x.trec.toNat)
      w.setG x.gsa.toNat (BitVec.ofNat 64 (r.bytes % 2 ^ 56 * 256 + (r.error (x.cpopx.getLsbD 0)).getD 0)))

/-- The operations of the matrix engine where their checks at issue pass (R212, R214, R215, R220 to R222, R226, R228): each puts one operation in its wave's queue, with the
binding as it stands, the rows of the passing fibres and the stash addresses that it will use. -/
def Obligations.MatrixOperationsQueued : Prop :=
  ∀ (s : State) (g : Guard) (x : MX) (z : Site),
    let b := z.bundle g
    let k := x.acc.toNat
    let a := z.w.acc k
    let n := x.nslab.toNat + 1
    let pair := x.mxopx.getLsbD 0
    let queues (i : Instr) (o : MatOp) : Prop := Ready s i g .none z → ∃ t, exec i s = .next t ∧ Queued s t z.w b o
    let va (y : Fibre) : Nat := (y.rv x.va.toNat).toNat
    let rows := (theP b z.w).map (fun e => (e.1, va e.2))
    let each (ok : Nat → Fibre → Prop) : Prop := ∀ i ∈ b.act, ∀ y, sget i z.w.fibres = some y → ok i y
    let product (u : TileBind) : Prop := z.tile s x = some u ∧ pairsWith x.aty u.fmt = true ∧ u.base + n ≤ z.l.ks
      ∧ (if pair then k % 2 = 0 ∧ a.pair = true else a.pair = false)
    b.act ≠ [] →
    (∀ u, z.tile s x = some u → u.base + x.nslab.toNat < z.l.ks →
      queues (.mlatch g x) { z.mxOp b .latch x with bind := { u with base := u.base + x.nslab.toNat } })
    ∧ (∀ u, product u → each (fun _ y => InSpan s z (va y) (mxSize x.aty * u.depth * n) 16) →
        (u.sparse = false → queues (.mma g x) { z.mxOp b .mma x with pair := pair, bind := u, slabs := n, rows := rows })
        ∧ (u.sparse = true → queues (.mmas g x) { z.mxOp b .mma x with pair := pair, bind := u, slabs := n, rows := rows }))
    ∧ (∀ u, product u → InSpan s z (z.w.rg x.gs.toNat).toNat (32 * (mxSize x.aty * u.depth * n)) 16 →
        queues (.mmat g x) { z.mxOp b .mmat x with
          pair := pair, bind := u, slabs := n, gaddr := (z.w.rg x.gs.toNat).toNat
          rows := b.act.map (fun i => (i, (z.w.rg x.gs.toNat).toNat + mxSize x.aty * i)) })
    ∧ (∀ u : TileBind,
        let gs := (z.w.rg x.gs.toNat).toNat
        let gt := (z.w.rg (x.mxopx.extractLsb' 6 7).toNat).toNat
        let tty : BitVec 5 := x.nslab.extractLsb' 0 5
        (if x.mxopx.getLsbD 4 then u = { base := 0, fmt := 0, sparse := false } else z.tile s x = some u ∧ u.base < z.l.ks) →
        a.high = false → (x.mxopx.getLsbD 5 = true → InSpan s z gt (8192 * mxSize tty + 1024) 16) →
        each (fun i y => (x.mxopx.getLsbD 3 = false → InSpan s z (gs + 4 * i) 4 4) ∧ InSpan s z (va y) (256 * mxSize x.aty) 16) →
        queues (.mdrain g x) { z.mxOp b .drain x with pair := a.pair, bind := u, rows := rows, gaddr := gs, taddr := gt, tty := tty })
    ∧ ((if pair then k % 2 = 0 else a.high = false) → queues (.mzero g x) { z.mxOp b .zero x with pair := pair || pairAhead s z.wk k })

/-- Copies and collectives where their checks at issue pass (R231, R233 to R237): a copy of no bytes completes at once; any other starts an operation that owns the lines of its
destination, under the tag of the lowest passing slot, which the operation holds; `coll` posts the member with its rank. -/
def Obligations.CopiesAndCollectives : Prop :=
  ∀ (s : State) (g : Guard) (x : CP) (z : Site),
    let b := z.bundle g
    let ctx := ctxOf s z.wk
    let gk := gangOf s z.wk
    let ws := z.w.record x.trec.toNat
    let r := tensorOf ws
    let side := (z.w.rg x.gsa.toNat).toNat
    let bar := if x.cpopx.getLsbD 0 then none else some (z.w.rg x.gba.toNat).toNat
    let barOk : Prop := ∀ a, bar = some a → a % 16 = 0 ∧ a + 16 ≤ stashSpan s gk ∧ (Bar.read s gk a).valid = true
    let copies (kind : Nat) (i : Instr) : Prop := Ready s i g .bundle z →
      ∀ k y re, b.act.head? = some k → sget k z.w.fibres = some y →
        (coreOf s (coreNo z.wk)).regions.find? (fun e => e.ctx = ctx && e.rid = r.rid) = some re →
        r.error (kind = 1) = none → tensorOutside r re = none → side % 16 = 0 →
        side + r.bytes ≤ (if kind = 2 then 65536 * z.l.ks else stashSpan s gk) → barOk →
        (kind = 3 → x.cmask.getLsbD (coreNo z.wk % 16) = true) →
        (r.bytes = 0 → ∃ t, exec i s = .next t ∧ Runs s t z.w b [] (fun _ y => y) id)
        ∧ (r.bytes ≠ 0 → ∃ t, exec i s = .next t
          ∧ Starts (tagHold s ctx y.ct.toNat) t z.w b z.c.header [] (fun _ y => y) b.act
            (.copy { kind := kind, trec := ws, buf := BitVec.ofNat 8 x.trec.toNat, side := side, bar := bar, mask := x.cmask, tag := y.ct,
                     scope := x.scope, failed := false, ask := if kind = 3 then r.lines else [], sent := [], got := []
                     lines := if kind = 1 then r.lines else (List.range ((side + r.bytes - 1) / 128 - side / 128 + 1)).map (fun i => side / 128 + i) }))
    copies 0 (.cpy g x) ∧ copies 1 (.cpyg g x) ∧ copies 2 (.cpys g x) ∧ copies 3 (.cpymc g x)
    ∧ ∀ (c : CollOp) (l : List (Nat × Nat × Nat)) (rank : Nat),
        c = { crec := ws, kind := x.cpopx.extractLsb' 0 3, op := x.cpopx.extractLsb' 3 2, ty := x.cpopx.extractLsb' 5 5, scope := x.scope,
              bar := (z.w.rg x.gba.toNat).toNat, rank := 0, n := 0, lines := [], buf := BitVec.ofNat 8 x.trec.toNat } →
        Ready s (.coll g x) g .bundle z → b.act ≠ [] → (ws.getD 3 0).extractLsb' 0 32 = 1 → groupOf s ctx (collGroup c) = some l →
        l.findIdx? (fun m => m = (s.peers.peerId, z.w.launch, z.w.wg)) = some rank → collCheck s (coreNo z.wk) gk ctx c l.length = none →
        (Bar.read s gk c.bar).valid = true →
        ∃ t, exec (.coll g x) s = .next t
          ∧ Starts s t z.w b z.c.header [] (fun _ y => y) b.act (.coll { c with
              rank := rank, n := l.length
              lines := if collOut c l.length = 0 then [] else (List.range ((ptrVa (collDst c) + collOut c l.length - 1) / 128 - ptrVa (collDst c) / 128 + 1)).map
                (fun i => ptrVa (collDst c) / 128 + i) })

/-! ### Reservoirs and context tags (chapter 9) -/

/-- The reservoir instructions on registers (R239, R240, R245 to R250). A draw is 24 bits of the hash of the launch's seed, the fibre's logical id and its draw counter, which
it advances by one; it stands for itself times 2^-24. A bad weight counts as +0. A word that the instruction does not replace keeps its poison. -/
def Obligations.ReservoirResults : Prop :=
  ∀ (s : State) (g : Guard) (x : RT),
    let draw (z : Site) (y : Fibre) : Nat :=
      let h := z.l.seed ^^^ (BitVec.ofNat 64 (z.w.wg * 2 ^ 32 + y.lfi.toNat) * 0x9E6C63D0676A9A99) ^^^ (y.draw * 0xD6E8FEB86659FD93)
      let h := (h ^^^ (h >>> 31)) * 0xA8B32C5E7F419D07
      let h := (h ^^^ (h >>> 27)) * 0xF1357AEA2E62A9C5
      ((h ^^^ (h >>> 33)).extractLsb' 40 24).toNat
    let drawn (y : Fibre) : Fibre := { y with draw := y.draw + 1 }
    let val (w : W32) : Flt := fmt32.value w.toNat
    let near (v : Flt) : W32 := BitVec.ofNat 32 (fmt32.pack .near v)
    let sum (a b : W32) : W32 := BitVec.ofNat 32 (fmt32.addBits .near false a.toNat b.toNat)
    let product (a b : W32) : W32 := BitVec.ofNat 32 (fmt32.mulBits .near false a.toNat b.toNat)
    let quotient (a b : W32) : W32 := BitVec.ofNat 32 (fmt32.divBits .near false a.toNat b.toNat)
    let bad (w : W32) : Bool := match val w with | .fin false m _ => m = 0 | _ => true
    let taken (h : Nat) (wsum w : W32) : Bool := Flt.cmp (val (near (Flt.mul (.fin false h (-24)) (val wsum)))) (val w) = some .lt
    let most : Nat := 2 ^ 24 - 1
    let qD (y : Fibre) : Rsv := rsvOf (y.rq x.qd.toNat).val
    let qS (y : Fibre) : Rsv := rsvOf (y.rq x.qs.toNat).val
    let put (r : Rsv) (keep : BitVec 4) (y : Fibre) : Fibre := y.setQ x.qd.toNat { val := r.pack, pois := (y.rq x.qd.toNat).pois &&& keep }
    let cap (c : Nat) (y : Fibre) : Fibre :=
      let r := qD y
      if c < r.m then put { r with m := c, fin := false
                                   wsum := if c = 0 then 0 else product r.wsum (quotient (near (Flt.ofInt c)) (near (Flt.ofInt r.m))) } 3 y else y
    EachFibre s (.rsvclr g x) g (fun _ _ y => y.setQ x.qd.toNat { val := 0, pois := 0 })
    ∧ EachFibre s (.rsvupd g x) g (fun z _ y =>
        let r := qD y
        let w := y.rv x.vc.toNat
        let w' := if bad w then 0 else w
        let wsum := sum r.wsum w'
        let rep := taken (draw z y) wsum w'
        (put { fin := false, badw := r.badw || bad w, msat := r.msat || r.m = most, m := if r.m = most then r.m else r.m + 1, wsum := wsum
               y := if rep then y.rv x.va.toNat else r.y, phat := if rep then y.rv x.vb.toNat else r.phat } (if rep then 0 else 3) (drawn y)).setP x.pd rep)
    ∧ EachFibre s (.rsvmrg g x) g (fun z _ y =>
        let r := qD y
        let o := qS y
        let empty := (val o.phat).isZero
        let w := product (y.rv x.va.toNat) (quotient o.wsum o.phat)
        let w' := if empty || bad w then 0 else w
        let wsum := sum r.wsum w'
        let rep := taken (draw z y) wsum w'
        (put { fin := false, badw := r.badw || (!empty && bad w) || o.badw, msat := r.msat || o.msat || most < r.m + o.m
               m := min (r.m + o.m) most, wsum := wsum, y := if rep then o.y else r.y, phat := if rep then y.rv x.va.toNat else r.phat }
          (if rep then 0 else 3) (drawn y)).setP x.pd rep)
    ∧ EachFibre s (.rsvcap g x) g (fun _ _ y => cap ((y.rv x.va.toNat).extractLsb' 0 24).toNat y)
    ∧ EachFibre s (.rsvcapI g x) g (fun _ _ y => cap (x.rtimm.extractLsb' 0 13).toNat y)
    ∧ EachFibre s (.rsvfin g x) g (fun _ _ y =>
        let r := qD y
        let void := r.m = 0 || (val r.phat).isZero
        put { r with fin := true } 1 ((y.setV x.va.toNat (if void then 0
          else BitVec.ofNat 32 (fmt32.div .near false (val r.wsum) (Flt.mul (Flt.ofInt r.m) (val r.phat))))).setP x.pd (!void)))
    ∧ EachFibre s (.rsvdraw g x) g (fun z _ y =>
        (drawn y).setV x.va.toNat (if x.rtimm.getLsbD 0 then BitVec.ofNat 32 (draw z y) else near (.fin false (draw z y) (-24))))

/-- Reservoirs in memory (R251): a load delivers the 16 bytes at the index in a record, in a named tag's cell, or in the stash, with the poison of each word; a store writes them,
and nothing else. -/
def Obligations.ReservoirMemoryResults : Prop :=
  ∀ (s : State) (g : Guard) (x : RT) (z : Site),
    let b := z.bundle g
    let act := b.act
    let buf := bufAt z.w (x.rtimm.extractLsb' 0 5).toNat
    let off := (x.rtimm.extractLsb' 5 8).toNat
    let word (bs : List (Byte × Bool)) (i : Nat) : Nat := if ((bs.drop (4 * i)).take 4).any (·.2) then 2 ^ i else 0
    let gives (k : Nat) (bs : List (Byte × Bool)) : QDelivery :=
      { slot := k, reg := x.qd.toNat
        val := { val := BitVec.ofNat 128 (fromBytesLE (bs.map (·.1))), pois := BitVec.ofNat 4 (word bs 0 + word bs 1 + word bs 2 + word bs 3) } }
    let data (k j : Nat) : Byte := ((sget k z.w.fibres).map (fun y => (y.rq x.qd.toNat).val.extractLsb' (8 * j) 8)).getD 0
    Open s → act ≠ [] →
    (∀ reach : Nat → List (Nat × Nat), buf.valid = true →
      let clear := ∀ k ∈ act, siltOverlap s (coreNo z.wk) (ctxOf s z.wk) ((reach k).map (·.1)) = false
        ∧ Clear s z.wk [k] false false ((reach k).map (·.1))
      let loads (i : Instr) (tag : Fibre → Nat) : Prop := Ready s i g .none z → buf.rd = true → clear →
        Through s z g buf x.va off 0 16 tag .read reach →
        ∃ t, exec i s = .next t ∧ Starts s t z.w b z.c.header [] (fun _ y => y) act
          (.load [] (act.map (fun k => gives k ((reach k).map (fun q => byteOf s q.2)))) [])
      loads (.rsvld g x) (fun y => y.ct.toNat)
      ∧ ((∀ k ∈ act, ∀ y, sget k z.w.fibres = some y → (y.rv x.vb.toNat).toNat < 4096) → loads (.rsvldX g x) (fun y => (y.rv x.vb.toNat).toNat))
      ∧ (Ready s (.rsvst g x) g .none z → buf.wr = true →
          (∀ k ∈ act, mustFollow s (coreNo z.wk) z.wk [k] (ctxOf s z.wk) ((reach k).map (·.1)) = false
            ∧ Clear s z.wk [k] false false ((reach k).map (·.1))) →
          Through s z g buf x.va off 0 16 (fun y => y.ct.toNat) .write reach →
          ∃ t, exec (.rsvst g x) s = .next t
            ∧ Starts { s with mem := t.mem, memPois := t.memPois } t z.w b z.c.header [] (fun _ y => y) act (.store []) ∧ Wrote s t act reach data))
    ∧ ∀ (place : Nat → Nat) (h : Gang), sget (gangOf s z.wk) s.gangs = some h → InStash s z g x.va (4 * off) 16 place →
      (∀ k ∈ act, Clear s z.wk [k] true false (addrs (place k) 16)) →
      (Ready s (.rsvldS g x) g .none z → ∃ t, exec (.rsvldS g x) s = .next t ∧ Starts s t z.w b z.c.header [] (fun _ y => y) act
        (.load [] (act.map (fun k => gives k ((addrs (place k) 16).map (fun a => (sgetD 0 h.stash a, h.stashPois.contains (a / 8)))))) []))
      ∧ (NoPhaseWaiters s → Ready s (.rsvstS g x) g .none z → ∃ t h', exec (.rsvstS g x) s = .next t
        ∧ Starts { s with gangs := t.gangs } t z.w b z.c.header [] (fun _ y => y) act (.store [])
        ∧ sget (gangOf s z.wk) t.gangs = some h' ∧ (∀ j, j ≠ gangOf s z.wk → sget j t.gangs = sget j s.gangs)
        ∧ StashTook h h' act place 16 data)

/-- The tag instructions (R252 to R258). The n-th passing fibre that asks for a tag gets the n-th lowest free tag, which becomes live without a holder; when none is left it
blocks in the queue of the context, or with `.try` gets 0. Of the fibres that retire one live tag the first gets 1. `tagset` moves holdings; `tagget` and its `.info` form
read; `tagpub` starts the publishing of every page with a cell of the tag. -/
def Obligations.TagResults : Prop :=
  (∀ (s : State) (g : Guard) (x : RT), EachFibre s (.tagget g x) g (fun _ _ y => y.setV x.va.toNat (y.ct.setWidth 32)))
  ∧ ∀ (s : State) (g : Guard) (x : RT) (z : Site) (c : Context),
    let b := z.bundle g
    let ctx := ctxOf s z.wk
    let free := ((List.range 4095).map (· + 1)).filter (fun t => (sget t c.tags).isNone)
    let named (reg : BitVec 8) (y : Fibre) : Nat := (y.rv reg.toNat).toNat
    let each (ok : Fibre → Prop) : Prop := ∀ k ∈ b.act, ∀ y, sget k z.w.fibres = some y → ok y
    let tags := (theP b z.w).map (fun e => named x.va e.2)
    let live (t : Nat) : Bool := (sget t c.tags).any (fun e => !e.retiring)
    let only (t : State) (c' : Context) : Prop := sget ctx t.contexts = some c' ∧ { c' with tags := c.tags, waiters := c.waiters } = c
      ∧ ∀ j, j ≠ ctx → sget j t.contexts = sget j s.contexts
    let took (c' : Context) : Prop := ∀ t, sget t c'.tags = if t ∈ free.take b.act.length then some { retiring := false, holders := 0 } else sget t c.tags
    let got (k : Nat) : W32 := BitVec.ofNat 32 (free.getD (b.act.idxOf k) 0)
    let served (k : Nat) : Bool := b.act.idxOf k < free.length
    sget ctx s.contexts = some c →
    (Ready s (.tagnewTry g x) g .none z → ∃ t c', exec (.tagnewTry g x) s = .next t ∧ only t c' ∧ took c' ∧ c'.waiters = c.waiters
      ∧ Runs { s with contexts := t.contexts } t z.w b [] (fun k y => (y.setV x.va.toNat (got k)).setP x.pd (served k)) id)
    ∧ (Ready s (.tagnew g x) g .none z → ∃ t c', exec (.tagnew g x) s = .next t ∧ only t c' ∧ took c'
      ∧ c'.waiters = c.waiters ++ (b.act.filter (fun k => !served k)).map (fun k => (z.wk, k))
      ∧ Runs { s with contexts := t.contexts } t z.w b (b.act.filter (fun k => !served k)) (fun k y =>
          if served k then y.setV x.va.toNat (got k)
          else { y with blocked := some (.tagnew x.va), pc := b.pc, base := some b.place }) id)
    ∧ (Ready s (.tagret g x) g .none z → each (fun y => 0 < named x.va y ∧ named x.va y < 4096) →
      ∃ t c', exec (.tagret g x) s = .next t ∧ only t c' ∧ c'.waiters = c.waiters
        ∧ (∀ n, sget n c'.tags = (sget n c.tags).map (fun e => if n ∈ tags then { e with retiring := true } else e))
        ∧ Runs { s with contexts := t.contexts } t z.w b [] (fun k y =>
            y.setP x.pd (live (named x.va y) && !(tags.take (b.act.idxOf k)).contains (named x.va y))) id)
    ∧ (Ready s (.tagset g x) g .each z → each (fun y => named x.va y = 0 ∨ named x.va y < 4096 ∧ live (named x.va y) = true) →
      let olds (n : Nat) : Nat := ((theP b z.w).filter (fun e => e.2.ct.toNat = n)).length
      (∀ n e, sget n c.tags = some e → olds n ≤ e.holders) →
      ∃ t c', exec (.tagset g x) s = .next t ∧ only t c' ∧ c'.waiters = c.waiters
        ∧ (∀ n, sget n c'.tags = (sget n c.tags).map (fun e => { e with holders := e.holders + tags.count n - olds n }))
        ∧ Runs { s with contexts := t.contexts } t z.w b [] (fun _ y => { y with ct := BitVec.ofNat 12 (named x.va y) }) id)
    ∧ (Ready s (.taggetInfo g x) g .none z → each (fun y => named x.vb y < 4096) → ∃ t, exec (.taggetInfo g x) s = .next t
      ∧ Runs s t z.w b [] (fun _ y => y.setV x.va.toNat (
          if named x.vb y = 0 then 1
          else match sget (named x.vb y) c.tags with
            | none => 0
            | some e => BitVec.ofNat 32 (4 * e.holders + if e.retiring then 2 else 1))) id)
    ∧ (Ready s (.tagpub g x) g .bundle z → b.act ≠ [] →
      each (fun y => 0 < named x.va y ∧ named x.va y < 4096 ∧ (sget (named x.va y) c.tags).isSome = true) →
      let parts := (theP b z.w).map (fun e => (e.1, named x.va e.2, (cellsOf s ctx (some (named x.va e.2))).map (·.2.1)))
      ∃ t, exec (.tagpub g x) s = .next t
        ∧ ((∃ p ∈ parts, p.2.2 ≠ []) →
            Starts { s with contexts := t.contexts } t z.w b z.c.header [] (fun _ y => y) b.act (.tagpub parts)
            ∧ ∃ c', only t c' ∧ c'.waiters = c.waiters
              ∧ ∀ n, sget n c'.tags = (sget n c.tags).map (fun e => { e with holders := e.holders + tags.count n }))
        ∧ ((∀ p ∈ parts, p.2.2 = []) → sget s.nextOp t.ops = none
            ∧ ∃ v, sget z.wk t.waves = some v ∧ (∀ n, v.flag n = z.w.flag n) ∧ ∀ k, (sget k v.fibres).map (fun y => y.v) = (sget k z.w.fibres).map (fun y => y.v)))

/-! ### Graphics instructions (chapter 10) -/

/-- The instructions of the fixed-function units, where each fibre's work is done at issue (R263 to R276): the instruction starts one operation that holds, for each passing
fibre, the result of its work, and beside that the issue changes nothing else. Of the results, what R266, R267, R269 and R270 say of them: a void ray misses, a ray at the depth
limit of a clamping launch is not traced, `traq` reads its field of the hit record, and `rast` gives its entries and cursor. -/
def Obligations.GraphicsInstructionsStart : Prop :=
  ∀ (s : State) (g : Guard) (x : GX) (z : Site),
    let b := z.bundle g
    let ds := z.w.record x.desc.toNat
    let each (ok : Nat → Fibre → Prop) : Prop := ∀ k ∈ b.act, ∀ y, sget k z.w.fibres = some y → ok k y
    let starts (i : Instr) (d : List W64) (r : Nat → GfxResult) : Prop :=
      ∃ t, exec i s = .next t ∧ Starts s t z.w b z.c.header [] (fun _ y => y) b.act (.gfx i d (b.act.map r) [])
    let works (i : Instr) (d : List W64) : Prop := ∀ r : Nat → GfxResult, Ready s i g .none z →
      each (fun k y => quadPoison z.w k i = none
        ∧ gfxWork i { core := coreNo z.wk, ctx := ctxOf s z.wk, desc := gfxDesc i } (begun s z.w b i z.f) z.wk k d (gfxArgs z.w k y i)
            = (begun s z.w b i z.f, .ok (r k))) →
      starts i d r
    let hit0 (t : W32) (status : Nat) : HitRec := { HitRec.zero with t := t, status := BitVec.ofNat 32 status }
    let ended (prog : W64) (status : Nat) (k : Nat) : GfxResult :=
      { slot := k, pred := some (x.pd, status = 1), hit := some (hit0 f32Inf status), trav := some none, deeper := prog != 0, cells := []
        regs := [(x.vd.toNat, prog.extractLsb' 0 32), (x.vd.toNat + 1, prog.extractLsb' 32 32), (x.vd.toNat + 2, BitVec.ofNat 32 status), (x.vd.toNat + 3, f32Inf)] }
    (∀ i ∈ ([.trace g x, .tex g x, .texl g x, .texg g x, .texres g x, .texfb g x] : List Instr), works i ds)
    ∧ (∀ i ∈ ([.traceRej g x, .traceAcc g x, .traq g x, .rast g x] : List Instr), works i [])
    ∧ (Ready s (.trace g x) g .none z → structGood ds = true → (x.gxopx.extractLsb' 6 7).toNat ≤ z.l.payw →
        each (fun _ y => y.depth < z.l.tdepth ∧ rayVoid ((List.range 8).map (fun i => y.rv (x.va.toNat + i))) = true) →
        starts (.trace g x) ds (ended (if x.gxopx.getLsbD 13 then 0 else ds.getD 2 0) 0))
    ∧ (Ready s (.trace g x) g .none z → structGood ds = true → (x.gxopx.extractLsb' 6 7).toNat ≤ z.l.payw → z.l.dclamp = true →
        each (fun _ y => z.l.tdepth ≤ y.depth) →
        starts (.trace g x) ds (ended 0 3))
    ∧ (∀ (h : Nat → HitRec), Ready s (.traq g x) g .none z → each (fun k y => y.hit = h k) →
        starts (.traq g x) [] (fun k =>
          let v := hitField (h k) x.gxopx.toNat
          { slot := k, pred := none, hit := none, trav := none, deeper := false, cells := []
            regs := (x.vd.toNat, v.extractLsb' 0 32) :: (if x.gxopx = 5 then [(x.vd.toNat + 1, v.extractLsb' 32 32)] else []) }))
    ∧ (∀ (ws : Nat → List W32), Ready s (.rast g x) g .none z → Open s →
        let found (k : Nat) : List W32 × Nat := rastFind (ws k) (x.gxopx.extractLsb' 0 2) ((ws k).getD 8 0)
        each (fun k y => ws k = (List.range 7).map (fun i => y.rv (x.va.toNat + i)) ++ [y.rv x.vb.toNat, y.rv (x.vb.toNat + 1)]
          ∧ ((ws k).getD 7 0).toNat % 4 = 0
          ∧ (((ws k).getD 8 0).toNat % 65536 ≠ 0 → ((ws k).getD 7 0).toNat + 4 * (((ws k).getD 8 0).toNat % 65536) ≤ stashSpan s (gangOf s z.wk))
          ∧ ∀ i < 4 * (found k).1.length, stashOwned s (gangOf s z.wk) none (((ws k).getD 7 0).toNat + i) = false) →
        starts (.rast g x) [] (fun k =>
          { slot := k, pred := some (x.pd, (found k).2 = 4096), hit := some HitRec.zero, trav := some none, deeper := false
            regs := [(x.vd.toNat, BitVec.ofNat 32 (found k).1.length), (x.vd.toNat + 1, BitVec.ofNat 32 (found k).2)]
            cells := (addrs ((ws k).getD 7 0).toNat (4 * (found k).1.length)).zip (((found k).1.map (fun e => toBytesLE 4 e.toNat)).flatten) }))

/-- `hret`, `blend`, `rqpush`, `rqpop` and `texfb` (R268, R276, R278, R281): `hret` returns and lowers the trace depth; the others start an operation that holds the fragments in
the target, the records offered or asked for, or a feedback reduction that has been done: the map's byte becomes the least of itself and the level.

What the units compute (R271, R273, R274): a pixel's centre on the edge that two triangles of the same orientation share belongs to exactly one of them if the edge is not
degenerate; an index is brought into the texture; the weights of a bilinear sample add up to one; a level lies among the levels. -/
def Obligations.GraphicsQueueInstructions : Prop :=
  (∀ (s : State) (g : Guard) (x : GX) (z : Site),
    let b := z.bundle g
    let ctx := ctxOf s z.wk
    let d := z.w.record x.desc.toNat
    let q := bits (descW d 0) 0 8
    let n := bits (descW d 0) 8 6 + 1
    let each (ok : Fibre → Prop) : Prop := ∀ k ∈ b.act, ∀ y, sget k z.w.fibres = some y → ok y
    let starts (i : Instr) (k : OpKind) : Prop :=
      ∃ t, exec i s = .next t ∧ Starts s t z.w b z.c.header [] (fun _ y => y) b.act k
    let queued : Prop := bits (descW d 0) 14 50 = 0 ∧ descW d 2 = 0 ∧ descW d 3 = 0
      ∧ ∃ r, sget q s.recQueues = some r ∧ r.ctx = ctx ∧ r.key = d.getD 1 0 ∧ r.rsz = bits (descW d 0) 8 6
    (Ready s (.hret g x) g .none z → each (fun y => y.depth ≠ 0 ∧ goodTarget (y.rv2 x.va.toNat) = true) →
      ∃ t, exec (.hret g x) s = .next t
        ∧ Runs s t z.w b [] (fun _ y => { y with depth := y.depth - 1, pc := y.rv2 x.va.toNat, base := none, staged := [] }) id)
    ∧ (Ready s (.blend g x) g .bundle z → targetGood d = true →
        starts (.blend g x) (.blend (d.getD 0 0) (d.getD 1 0) ((theP b z.w).filterMap (fun e =>
          let px := (e.2.rv x.va.toNat).toNat
          let py := (e.2.rv (x.va.toNat + 1)).toNat
          let cols := ceilDiv (bits (descW d 1) 0 16 + 1) 32
          if px ≤ bits (descW d 1) 0 16 ∧ py ≤ bits (descW d 1) 16 16 then
            some { tile := px / 32 + cols * (py / 32), x := px, y := py, draw := (d.getD 2 0).extractLsb' 0 32, group := e.2.rv (x.va.toNat + 2)
                   prim := e.2.rv (x.va.toNat + 3), color := (List.range 4).map (fun i => e.2.rv (x.vb.toNat + i)), op := x.gxopx.extractLsb' 0 3
                   launch := z.w.launch }
          else none))))
    ∧ (Ready s (.rqpush g x) g .bundle z → queued →
        starts (.rqpush g x) (.rqpush q x.pd ((theP b z.w).map (fun e => (e.1, (List.range n).map (fun i => e.2.rv (x.va.toNat + i)))))))
    ∧ (Ready s (.rqpop g x) g .none z → queued → starts (.rqpop g x) (.rqpop q x.vd.toNat n x.pd b.act))
    ∧ (Ready s (.texfb g x) g .none z → texGood d = true → bits (descW d 3) 0 57 = 0 →
        starts (.texfb g x) (.gfx (.texfb g x) d (b.act.map (fun k => GfxResult.plain k [] none)) []))
    ∧ (∀ k y re pa, Ready s (.texfb g x) g .none z → Open s → texGood d = true → bits (descW d 3) 0 57 ≠ 0 → b.act = [k] → sget k z.w.fibres = some y →
        let fb := d.getD 3 0
        let va := ptrVa fb + (nearestAt d (texCoord (y.rv x.va.toNat)) (texCoord (y.rv (x.va.toNat + 1))) 0).tile d
        (coreOf s (coreNo z.wk)).regions.find? (fun e => e.ctx = ctx && e.rid = ptrRid fb) = some re → inRegion re va 1 = true → va < 2 ^ 57 →
        ServedUntagged s (coreNo z.wk) ctx .both va pa → s.memPois.contains (pa / 64) = false →
        mustFollow s (coreNo z.wk) z.wk [k] ctx [va] = false →
        ∃ t, exec (.texfb g x) s = .next t
          ∧ Starts { s with mem := t.mem, memPois := t.memPois } t z.w b z.c.header [] (fun _ y => y) b.act
              (.gfx (.texfb g x) d [GfxResult.plain k [] none] [])
          ∧ pByte t pa = BitVec.ofNat 8 (min (pByte s pa).toNat (lodOf d (y.rv (x.va.toNat + 2)) / 256)) ∧ ∀ p, p ≠ pa → pByte t p = pByte s p))
  ∧ ((∀ (neg : Bool) (a b : Int × Int) (px py : Int), a ≠ b →
      (b.1 - a.1) * (py - a.2) - (b.2 - a.2) * (px - a.1) = 0 → (edgeIn neg a b px py = true ↔ edgeIn neg b a px py = false))
  ∧ (∀ mode n i, 0 < n → mode < 3 → wrapIndex mode n i < n)
  ∧ (∀ n (i : Nat), i < n → ∀ mode, wrapIndex mode n i = i)
  ∧ (∀ d u v l, ((bilinearAt d u v l).taps.map (·.2)).sum = (bilinearAt d u v l).scale)
  ∧ (∀ d x, lodOf d x ≤ 256 * texLevels d) ∧ (∀ d g, lodGrad d g ≤ 256 * texLevels d))

/-! ### Steps of agents: waves, launches and gangs (chapters 13 and 17) -/

/-- How a wave comes to issue (R72, R76, R343 to R347): it chooses the PC of R344 for its next clause, the clause is fetched from cached lines and then starts
once its WAIT holds, with a partner if there is one; and a clock of its core ends (R23, R341, R348, R449): it raises the core's clock, frees the cluster ports that the core held,
forgets what each wave issued, raises one stall counter of each wave that issued nothing, and lets a wave go on alone whose partner has left the pair.

How fibres and waves end without an instruction (R225, R350, R351, R432): a fibre of an aborted gang leaves its slot at a clause boundary and counts in NKILL; a fibre with a
sparsity error takes its trap there; a wave in which nothing is left is freed, and its workgroup retires with its last wave. -/
def Obligations.WaveSteps : Prop :=
  (∀ (s : State) (k : Nat) (w : Wave), sget k s.waves = some w →
    let core := coreOf s (coreNo k)
    (∀ c, mayChoose s k w = true → sorted w.fibres = true → (∀ e ∈ w.fibres, e.2.dumpAt = none ∧ e.2.stopAt = false) →
        choosePc w ((readyPcs s k w).filter (Cand.ok w)) = some c →
        (∀ x ∈ c.slots, ∃ y, sget x w.fibres = some y ∧ y.pc = c.pc ∧ y.blocked = none)
        ∧ ∃ t v, exec (.waveChoice k) s = .next t ∧ OnlyWave s t k v
          ∧ v.clause = some { hdr := c.hdr, header := 0, words := [], idx := clauseIndex c.hdr c.pc, slots := c.slots, ll := false, fetched := false
                              started := false, chosen := core.clock }
          ∧ v.yieldPc = none ∧ { v with clause := w.clause, yieldPc := w.yieldPc, fibres := w.fibres } = w
          ∧ ∀ x, (sget x v.fibres).map (fun y => { y with starve := 0 }) = (sget x w.fibres).map (fun y => { y with starve := 0 })
            ∧ (c.slots.contains x = true → ∀ y, sget x v.fibres = some y → y.starve = 0))
    ∧ (∀ (c : Clause) (re : RegionEntry) (word : Nat → W64), w.clause = some c → c.fetched = false → w.page = none → ptrRid c.hdr = 0 →
        core.regions.find? (fun e => e.ctx = ctxOf s k && e.rid = 0) = some re → inRegion re c.hdr.toNat 1 = true →
        let n := ((word 0).extractLsb' 0 4).toNat + 1
        let ws := (List.range n).map (fun i => word (i + 1))
        headerError (word 0) = none → c.idx < n →
        (∀ j ≤ n, let va := (c.hdr + 8 * BitVec.ofNat 64 j).toNat
          ∃ e, core.icache.find? (fun e => e.ctx = ctxOf s k && e.line = va - va % 128) = some e
            ∧ word j = BitVec.ofNat 64 (fromBytesLE ((e.data.drop (va % 128)).take 8))) →
        ∃ t, exec (.clauseFetch k) s = .next t
          ∧ OnlyWave s t k { w with clause := some { c with header := word 0, words := ws, ll := (ws.take c.idx).any isLongWord, fetched := true } })
    ∧ (∀ c, w.clause = some c → c.fetched = true → c.started = false → waitHolds w c.header = true →
        let w' (p : Option Nat) : Wave := { w with clause := some { c with started := true }, paired := p }
        (partnerFor s k w c = none → ∃ t, exec (.clauseStart k) s = .next t ∧ OnlyWave s t k (w' none))
        ∧ ∀ p u, partnerFor s k w c = some p → sget p s.waves = some u → p ≠ k →
          ∃ t, exec (.clauseStart k) s = .next t ∧ sget k t.waves = some (w' (some p)) ∧ sget p t.waves = some { u with paired := some k }
            ∧ (∀ j, j ≠ k → j ≠ p → sget j t.waves = sget j s.waves) ∧ { t with waves := s.waves } = s)
    ∧ (coreNo k < 128 → sampleDue s (coreNo k) = false →
        let w' : Wave := { w with paired := w.paired.filter (fun p => (sget p s.waves).any (fun v => v.paired = some k)) }
        ∃ t, exec (.coreClock (coreNo k)) s = .next t ∧ (coreOf t (coreNo k)).clock = core.clock + 1 ∧ (coreOf t (coreNo k)).issues = 0
          ∧ { coreOf t (coreNo k) with clock := core.clock, issues := core.issues, pipes := core.pipes } = core
          ∧ (∀ j, j ≠ coreNo k → coreOf t j = coreOf s j)
          ∧ sget k t.waves = some (if w.issued.isSome then { w' with issued := none }
              else { w' with stall := sputD 0 (stallReason s k w').1 ((sgetD 0 w.stall (stallReason s k w').1 + 1) % 2 ^ 64) w.stall })
          ∧ (∀ c, clusterOf t c = { clusterOf s c with mxPort := (clusterOf s c).mxPort.filter (fun p => p != coreNo k)
                                                       cpPort := (clusterOf s c).cpPort.filter (fun p => p != coreNo k) })
          ∧ { t with waves := s.waves, cores := s.cores, clusters := s.clusters, gangs := s.gangs, idleW := s.idleW, meterClk := s.meterClk } = s)
    ∧ exec (.coreClock 0xFFFF) s = .next { s with ioClock := s.ioClock + 1 })
  ∧ ((∀ (s : State) (k x : Nat) (w : Wave) (y : Fibre), sget k s.waves = some w → sget x w.fibres = some y →
      (sget (gangOf s k) s.gangs).any (·.abort) = true → (∀ c, w.clause = some c → c.started = true → x ∉ c.slots) →
      ∃ t v, exec (.gangAbortFibreEnd k x) s = .next t ∧ sget k t.waves = some v ∧ sget x v.fibres = none
        ∧ (∀ j, j ≠ x → sget j v.fibres = sget j w.fibres) ∧ v.g = w.g
        ∧ (∀ j, j ≠ k → (sget j t.waves).map (fun u => (u.fibres, u.clause, u.g)) = (sget j s.waves).map (fun u => (u.fibres, u.clause, u.g)))
        ∧ (∀ l, sget w.launch s.launches = some l → sget w.launch t.launches = some { l with nkill := l.nkill + 1 })
        ∧ t.mem = s.mem ∧ t.gangs = s.gangs ∧ (s.dbBusy = [] → t.ctl = s.ctl))
  ∧ (∀ (s : State) (z : Site) (x n : Nat) (y : Fibre) (o : MatOp) (reach : List (Nat × Nat)), sget z.wk s.waves = some z.w →
      sget x z.w.fibres = some y → y.sparse = some n → atBoundary z.w x y = true → sget n s.mats = some o → Open s → CanTrap s z x y reach →
      ∃ t v f, exec (.sparsityTrap z.wk x) s = .next t ∧ sget z.wk t.waves = some v ∧ sget x v.fibres = some f
        ∧ f.pc = handlerOf s z ∧ f.base = none ∧ f.sparse = none ∧ f.rv2 0 = recordSlot s z x y ∧ f.rv 3 = 0x00080005
        ∧ f.recs = y.recs ++ [{ kind := 8, sub := 5, rpc := y.pc, base := none, ll := false, ptr := recordSlot s z x y, matOp := some n
                                stamp := y.stamp }]
        ∧ (∀ r, 4 ≤ r → f.rv r = y.rv r ∧ f.vp r = y.vp r) ∧ (∀ j, j ≠ x → sget j v.fibres = sget j z.w.fibres)
        ∧ (∀ j, j ≠ z.wk → sget j t.waves = sget j s.waves) ∧ (∀ p, (∀ q ∈ reach, q.2 ≠ p) → pByte t p = pByte s p)
        ∧ t.mats = s.mats ∧ t.gangs = s.gangs ∧ t.launches = s.launches ∧ t.ctl = s.ctl)
  ∧ ∀ (s : State) (k : Nat) (w : Wave) (u : Workgroup), sget k s.waves = some w → waveOver s k w = true → sget (wgKey w) s.wgs = some u →
      let left := u.waves.filter (fun j => j != k)
      ∃ t u', exec (.waveEnd k) s = .next t ∧ sget k t.waves = none ∧ sget (wgKey w) t.wgs = some u' ∧ u'.waves = left
        ∧ u'.stalls = sput w.widx w.stall u.stalls ∧ u'.retired = (u.retired || left.isEmpty) ∧ u'.tiles = (if left.isEmpty then [] else u.tiles)
        ∧ (left ≠ [] → t = { s with waves := sdel k s.waves, cur := if s.cur = some k then none else s.cur, wgs := t.wgs })
        ∧ (left = [] → ∀ l, sget (wgKey w / 2 ^ 32) s.launches = some l → ∃ l', sget (wgKey w / 2 ^ 32) t.launches = some l' ∧ l'.done = l.done + 1
            ∧ (wgKey w % 2 ^ 32) ∉ l'.trig)
        ∧ t.ops = s.ops ∧ t.mats = s.mats)

/-! ### Steps of agents: memory (chapters 6, 9, 11 and 12) -/

/-- The operations of the memory unit complete (R44, R77, R146, R163, R166, R174 to R177): a load gives its registers what it read, `gld` its uniform registers, `cinv` and `icinv` have
dropped their lines, `cflush` has written its lines back, where a host read that does not snoop finds them; the flag's count falls, the operation is gone, and nothing else
changes. -/
def Obligations.MemoryOperationsComplete : Prop :=
  ∀ (s : State) (n : Nat) (o : Op), sget n s.ops = some o →
    let same (_ : Nat) (y : Fibre) : Fibre := y
    let ends (e : Instr) (fx : Nat → Fibre → Fibre) (gx : Wave → Wave) : Prop := ∃ t, exec e s = .next t ∧ Ended s t n o fx gx
    let gives (ds : List Delivery) (k : Nat) (y : Fibre) : Fibre := (ds.filter (fun d => d.slot = k)).foldl (fun y d => y.setVp d.reg d.val d.pois) y
    let drops (e : Instr) (drop : Nat → Core → Core) : Prop := ∃ t, exec e s = .next t ∧ Ended { s with cores := t.cores } t n o same id
      ∧ ∀ j, coreOf t j = drop j (coreOf s j)
    (∀ ds qs, o.kind = .load ds qs [] →
        ends (.loadComplete n) (fun k y => (qs.filter (fun q => q.slot = k)).foldl (fun y q => y.setQ q.reg q.val) (gives ds k y)) id)
    ∧ (∀ accs mask got, o.kind = .ldmc accs [] mask [] [] got →
        ends (.loadComplete n) (gives (accs.filterMap (fun a => (lineBytes got a).map a.give)).flatten) id)
    ∧ (o.kind = .store [] → ends (.storeComplete n) same id)
    ∧ (∀ d vals, o.kind = .gld d vals →
        ends (.gldComplete n) same (fun w => { w with g := vals.zipIdx.foldl (fun m e => sputD GWord.zero (d + e.2) e.1 m) w.g }))
    ∧ (o.kind = .pref → ends (.prefComplete n) same id)
    ∧ (∀ lines, o.kind = .cinvLines lines → drops (.cinvComplete n) (fun j c =>
        if j = o.core then { c with ccache := c.ccache.filter (fun l => !(l.ctx = o.ctx && lines.contains l.line)) } else c))
    ∧ (o.kind = .cinvAll → drops (.cinvComplete n) (fun j c => if j = o.core then { c with ccache := [] } else c))
    ∧ (o.kind = .cinvL1 → ends (.cinvComplete n) same id)
    ∧ (∀ cov : BitVec 2, o.kind = .icinv cov → drops (.icinvComplete n) (fun j c =>
        if (cov = 0 ∧ j = o.core) ∨ (cov = 1 ∧ j / 4 = o.core / 4) ∨ 2 ≤ cov.toNat then { c with icache := c.icache.filter (fun l => l.ctx != o.ctx) } else c))
    ∧ (∀ lines, o.kind = .cflush lines → Open s →
        (∀ l ∈ lines, ∃ pte pa size, walk s o.ctx l.1 = .leaf pte pa size ∧ pte.testBit 57 = false) →
        ∃ t, exec (.cflushComplete n) s = .next t ∧ Ended { s with flushed := t.flushed } t n o same id
          ∧ (∀ l ∈ lines, ∀ pte pa size, walk s o.ctx l.1 = .leaf pte pa size → pte.testBit 2 = true → (pte.testBit 63 = false ∨ l.2 = 0) →
              sget (leafPa pte size l.1 / 128) t.flushed = some ((addrs (leafPa pte size l.1 / 128 * 128) 128).map (byteOf s)))
          ∧ ∀ p, sget p t.flushed = sget p s.flushed ∨ sget p t.flushed = some ((addrs (p * 128) 128).map (byteOf s)))

/-- Windows of the stash (R178 to R181): `smap` completes with its window mapped and no line present, having unmapped an older one, which gives up its tag; `swb` writes a dirty line to memory and leaves it clean; an
absent line is filled with 128 bytes of memory. Multicast (R166): a requested line opens a window, and a window that is full or 64 clocks old sends its line to
the operation that joined it.

Cells of tags (R252, R258, R259, R339): a tag that retires without holders and without cells is free again; a cell that a waiting write needs gets a frame of the Marl ring, which takes
the page's 4096 bytes; a page of a tag that is published takes its cell's 4096 bytes and leaves the operation. -/
def Obligations.WindowAndCellSteps : Prop :=
  ((∀ (s : State) (n : Nat) (o : Op) (h : Gang) (m : Nat), sget n s.ops = some o → sget o.gang s.gangs = some h →
      let ends (e : Instr) (h' : Gang) (freed : Option Window) : Prop :=
        ∃ t, exec e s = .next t ∧ Ended { s with gangs := t.gangs, contexts := t.contexts } t n o (fun _ y => y) id
          ∧ sget o.gang t.gangs = some h' ∧ (∀ j, j ≠ o.gang → sget j t.gangs = sget j s.gangs)
          ∧ t.contexts = match freed with
            | some w => (tagDrop s w.ctx w.tag.toNat).contexts
            | none => s.contexts
      (∀ e ∈ s.ops, e.1 < n → e.2.gang = o.gang → e.2.kind.mapsWindow ≠ some m) → (∀ e ∈ h.windows, e.1 = m → e.2.lines = []) →
      (∀ win, o.kind = .smap m win → ends (.smapComplete n) { h with windows := sput m win (sdel m h.windows) } (sget m h.windows))
      ∧ (o.kind = .smapUnmap m → ends (.smapComplete n) { h with windows := sdel m h.windows } (sget m h.windows))
      ∧ (o.kind = .swb (some m) → ends (.swbComplete n) h none))
  ∧ (∀ (s : State) (n : Nat) (o : Op) (h : Gang) (m i pa : Nat) (win : Window) (wr : Bool), sget n s.ops = some o → sget o.gang s.gangs = some h →
      o.kind = .swb none → h.windows = [(m, win)] → win.lines = [(i, some pa, wr, true)] →
      ∃ t, exec (.swbComplete n) s = .next t ∧ Ended { s with mem := t.mem, memPois := t.memPois, gangs := t.gangs } t n o (fun _ y => y) id
        ∧ sget o.gang t.gangs = some { h with windows := [(m, { win with lines := [(i, some pa, wr, false)] })] }
        ∧ (∀ j < 128, pByte t (pa + j) = sgetD 0 h.stash (win.stash + 128 * i + j))
        ∧ ∀ p, (∀ j < 128, p ≠ pa + j) → pByte t p = pByte s p)
  ∧ (∀ (s : State) (launch gang m line : Nat) (h : Gang) (w : Window) (pte addr size : Nat), sget (key2 launch gang) s.gangs = some h →
      sget m h.windows = some w → line < 32 * 2 ^ w.c → sget line w.lines = none → Quiet s → memOwned s none [leafPa pte size (ptrVa w.ptr + 128 * line)] = false →
      cellOwned s none w.ctx w.tag.toNat [ptrVa w.ptr + 128 * line] = false →
      walk s w.ctx (ptrVa w.ptr + 128 * line) = .leaf pte addr size → pte.testBit 57 = false → pte.testBit 2 = true → pte.testBit 6 = true →
      (pte.testBit 63 = false ∨ w.tag = 0) →
      let pa := leafPa pte size (ptrVa w.ptr + 128 * line)
      (∀ g ∈ s.gangs, ∀ u ∈ g.2.windows, ∀ l ∈ u.2.lines, l.2.1 ≠ some pa) →
      ∃ t h', exec (.windowLineFill launch gang m line) s = .next t ∧ sget (key2 launch gang) t.gangs = some h'
        ∧ (∀ j < 128, sgetD 0 h'.stash (w.stash + 128 * line + j) = pByte s (pa + j))
        ∧ (∀ a, (∀ j < 128, a ≠ w.stash + 128 * line + j) → sgetD 0 h'.stash a = sgetD 0 h.stash a)
        ∧ sget m h'.windows = some { w with lines := sput line (some pa, false, false) w.lines }
        ∧ (∀ j, j ≠ key2 launch gang → sget j t.gangs = sget j s.gangs) ∧ { t with gangs := s.gangs } = s)
  ∧ (∀ (s : State) (n line : Nat) (o : Op) (accs : List Access) (mask : BitVec 16) (ask sent : List Nat) (got : Sparse (List Byte × Bool × Bool)),
      sget n s.ops = some o → o.kind = .ldmc accs [] mask ask sent got → line ∈ ask →
      let w : McWindow := { pa := line, ctx := o.ctx, mask := mask, domain := o.core / 16, tag := 0, joined := [(n, line, o.core)], opened := (coreOf s o.core).clock }
      w.full = false → (∀ e ∈ s.mcWins, e.2.pa ≠ line) →
      ∃ t, exec (.multicastRequest n line) s = .next t
        ∧ t = { s with mcWins := sput s.nextOp w s.mcWins, nextOp := s.nextOp + 1, ops := t.ops }
        ∧ sget n t.ops = some { o with kind := .ldmc accs [] mask (ask.filter (fun l => l != line)) (sent ++ [line]) got }
        ∧ ∀ j, j ≠ n → sget j t.ops = sget j s.ops)
  ∧ ∀ (s : State) (k n line core : Nat) (w : McWindow) (o : Op) (accs : List Access) (mask : BitVec 16) (ask sent : List Nat)
      (got : Sparse (List Byte × Bool × Bool)), sget k s.mcWins = some w → w.joined = [(n, line, core)] → w.tag = 0 → Open s → Quiet s →
      (w.full = true ∨ w.opened.toNat + 64 ≤ (coreOf s core).clock.toNat) → sget n s.ops = some o → o.kind = .ldmc accs [] mask ask sent got →
      ∃ t, exec (.multicastWindowClose k) s = .next t ∧ t.mcWins = sdel k s.mcWins
        ∧ sget n t.ops = some { o with kind := .ldmc accs [] mask ask (sent.filter (fun l => l != line)) (sput line
            ((addrs w.pa 128).map (pByte s), (addrs w.pa 64).any (fun a => s.memPois.contains (a / 64)), (addrs (w.pa + 64) 64).any (fun a => s.memPois.contains (a / 64))) got) }
        ∧ (∀ j, j ≠ n → sget j t.ops = sget j s.ops) ∧ { t with mcWins := s.mcWins, ops := s.ops } = s)
  ∧ ((∀ (s : State) (ctx tag : Nat) (c : Context) (e : TagEntry), sget ctx s.contexts = some c → sget tag c.tags = some e → e.retiring = true → e.holders = 0 →
      cellsOf s ctx (some tag) = [] → c.waiters = [] →
      ∃ t, exec (.tagRetireComplete ctx tag) s = .next t ∧ sget ctx t.contexts = some { c with tags := sdel tag c.tags }
        ∧ (∀ j, j ≠ ctx → sget j t.contexts = sget j s.contexts) ∧ { t with contexts := s.contexts } = s)
  ∧ (∀ (s : State) (ctx vpn tag pte addr size a : Nat) (c : Context), sget ctx s.contexts = some c → Open s → tag ≠ 0 → cellWanted s ctx vpn tag = true →
      walk s ctx (4096 * vpn) = .leaf pte addr size → pte.testBit 63 = true → pte.testBit 57 = false → pte.testBit 3 = true →
      cellFind s ctx vpn tag = .absent (some a) →
      let tb := transBlock s ctx
      let base := leafPa pte size (4096 * vpn)
      let f := bits (rd s (marlSlot tb (bits tb 320 32)) 8) 12 40 * 4096
      let apart (x n y m : Nat) : Prop := x + n ≤ y ∨ y + m ≤ x
      0 < marlCount tb → marlCount tb ≤ 2 ^ bits tb 295 5 →
      apart f 4096 base 4096 → apart f 4096 a 32 → apart (c.recPa + 0x28) 4 base 4096 → apart (c.recPa + 0x28) 4 f 4096 → apart (c.recPa + 0x28) 4 a 32 →
      ∃ t, exec (.cellMaterialise ctx vpn tag) s = .next t ∧ (∀ j < 4096, pByte t (f + j) = pByte s (base + j))
        ∧ (∀ j < 32, pByte t (a + j) = (toBytesLE 32 (cellEntry 1 f vpn tag)).getD j 0)
        ∧ (∀ j < 4, pByte t (c.recPa + 0x28 + j) = (toBytesLE 4 ((bits tb 320 32 + 1) % 2 ^ 32)).getD j 0)
        ∧ (∀ p, (∀ j < 4096, p ≠ f + j) → (∀ j < 32, p ≠ a + j) → (∀ j < 4, p ≠ c.recPa + 0x28 + j) → pByte t p = pByte s p)
        ∧ { t with mem := s.mem, memPois := s.memPois, contexts := s.contexts, reports := s.reports } = s)
  ∧ ∀ (s : State) (n vpn e f pte addr size : Nat) (o : Op) (c : Context) (parts : List (Nat × Nat × List Nat)) (p : Nat × Nat × List Nat),
      sget n s.ops = some o → o.kind = .tagpub parts → parts.find? (fun p => p.2.2.contains vpn) = some p → Quiet s → Open s → sget o.ctx s.contexts = some c →
      cellFind s o.ctx vpn p.2.1 = .found e f → walk s o.ctx (4096 * vpn) = .leaf pte addr size → pte.testBit 57 = false → pte.testBit 3 = true →
      pte.testBit 6 = true → pte.testBit 7 = true →
      let tb := transBlock s o.ctx
      let base := leafPa pte size (4096 * vpn)
      let apart (x n y m : Nat) : Prop := x + n ≤ y ∨ y + m ≤ x
      base % 4096 = 0 → apart base 4096 f 4096 → apart base 4096 e 32 → apart base 4096 c.recPa 64 → apart e 32 c.recPa 64 →
      (∀ h, apart base 4096 (marlSlot tb h) 8) →
      ∃ t, exec (.tagpubPage n vpn) s = .next t ∧ (∀ j < 4096, pByte t (base + j) = pByte s (f + j))
        ∧ (let left := dropPage vpn p.2.1 parts
           if left.all (fun q => q.2.2.isEmpty) then sget n t.ops = none else sget n t.ops = some { o with wait := none, kind := .tagpub left })
        ∧ (∀ j, j ≠ n → sget j t.ops = sget j s.ops) ∧ t.gangs = s.gangs ∧ t.launches = s.launches)

/-- What waits on memory goes on (R171, R173, R197, R329, R333): an entry of a Silt log that follows no earlier one is written, or its reduction performed, and leaves the log; a fence without an access
outstanding ends; a monitored word that meets its condition, or whose limit has passed, ends its wait; the walker caches a leaf or
reports why there is none; the oldest report is posted to the demand ring. -/
def Obligations.MemoryWaitsEnd : Prop :=
  (∀ (s : State) (core i : Nat) (e : SiltEntry) (reach : List (Nat × Nat)), ((coreOf s core).silt.take 512)[i]? = some e →
      (∀ x ∈ (coreOf s core).silt.take i, mustWait e x = false) → reach.map (·.1) = e.vas →
      (∀ p ∈ reach, Served s core e.ctx e.tag.toNat .write p.1 p.2) → (e.kred = true → ∀ p ∈ reach, p.2 / 64 ∉ s.memPois) →
      Open s → Quiet { s with cores := [] } →
      ∃ t, exec (.siltReplay core i) s = .next t
        ∧ Wrote s t [0] (fun _ => reach) (fun _ j =>
            if e.kred then (groupResult e.access [e.access] (reach.map (fun q => byteOf s q.2))).1.getD j 0
            else e.data.extractLsb' (8 * ((e.vas.getD j 0) % 64)) 8)
        ∧ coreOf t core = { coreOf s core with silt := (coreOf s core).silt.eraseIdx i } ∧ (∀ j, j ≠ core → coreOf t j = coreOf s j)
        ∧ { t with mem := s.mem, memPois := s.memPois, cores := s.cores } = s)
  ∧ (∀ (s : State) (k x : Nat) (w : Wave) (y : Fibre) (p : Place), sget k s.waves = some w → sget x w.fibres = some y → y.base = some p →
      let goes (t : State) (back : Fibre → Fibre) : Prop := ∃ v, OnlyWave s t k v ∧ sget x v.fibres = some (back { y.advance p y.pc false with blocked := none, waive := false })
        ∧ (∀ j, j ≠ x → sget j v.fibres = sget j w.fibres) ∧ { v with fibres := w.fibres } = w
      (y.blocked = some .fence → (opsOf s k).any (OpKind.fenced x) = false → relLogged s (coreNo k) k [x] = false → ∃ t, exec (.fenceComplete k x) s = .next t ∧ goes t id)
      ∧ ∀ ptr buf syn0 syn1 cmp cond sg lim pd (reach : List (Nat × Nat)), y.blocked = some (.waitM ptr buf syn0 syn1 cmp cond sg lim pd) → Open s →
        siltOverlap s (coreNo k) (ctxOf s k) (addrs (ptrVa ptr) 4) = false → Clear s k [x] false true (addrs (ptrVa ptr) 4) → reach.map (·.1) = addrs (ptrVa ptr) 4 →
        (∀ q ∈ reach, Served s (coreNo k) (ctxOf s k) y.ct.toNat .read q.1 q.2 ∧ q.2 / 64 ∉ s.memPois) →
        let met := monitorMet cond sg (BitVec.ofNat 32 (fromBytesLE (reach.map (fun q => pByte s q.2)))) cmp
        let late := ∃ l, lim = some l ∧ l ≤ (coreOf s (coreNo k)).clock.toNat
        (met = true ∨ late → ∃ t, exec (.waitMReread k x) s = .next t ∧ goes t (fun y => y.setP pd met))
        ∧ (met = false → ¬late → exec (.waitMReread k x) s = .next s)
        ∧ (late → ∃ t, exec (.waitMTimeout k x) s = .next t ∧ goes t (fun y => y.setP pd met)))
  ∧ (∀ (s : State) (core ctx va : Nat) (acc : WalkAcc), awaited s ctx (va / 4096) = true →
      (∀ pte addr size, walk s ctx va = .leaf pte addr size → pte.testBit 57 = false → permits pte (walkNeed acc) = true → pte.testBit 6 = true →
        pte.testBit 7 = true →
        ∃ t, exec (.pageWalk core ctx va acc) s = .next t
          ∧ (coreOf t core).tlb.head? = some { ctx := ctx, page := va - va % 2 ^ size, bits := size, pte := BitVec.ofNat 64 pte }
          ∧ { coreOf t core with tlb := (coreOf s core).tlb } = coreOf s core ∧ { t with cores := s.cores } = s)
      ∧ (∀ cause, walk s ctx va = .bad cause → cause < 3 → exec (.pageWalk core ctx va acc) s = .next { s with reports := s.reports ++
          [{ ctx := ctx, core := core, src := 0, acc := walkCode acc, cause := cause, rid := waitingRid s ctx (va / 4096), va := va,
              clock := (coreOf s core).clock }] }))
  ∧ ∀ (s : State) (r : Report) (rest : List Report), s.reports = r :: rest → ringRoom s false = true → Open s →
      let tail := ctlBits s 0x740010 0 32
      let place := bits (ctlRd s 0x740000).toNat 6 46 * 64 + 64 * (tail % 2 ^ ctlBits s 0x740008 0 5)
      ∃ t, exec .demandReport s = .next t ∧ t.reports = rest ∧ t.repSeq = s.repSeq + 1
        ∧ ctlRd t 0x740010 = BitVec.ofNat 64 ((tail + 1) % 2 ^ 32)
        ∧ (∀ j < 64, pByte t (place + j) = ({ r with clock := (coreOf s r.core).clock }.message s.repSeq).getD j 0)
        ∧ (∀ p, (∀ j < 64, p ≠ place + j) → pByte t p = pByte s p)
        ∧ t.out = s.out ++ (if tail = ctlBits s 0x740018 0 32 then [.loamIrq (ctlBits s 0x740008 8 4)] else [])
        ∧ { t with mem := s.mem, memPois := s.memPois, ctl := s.ctl, out := s.out, reports := s.reports, repSeq := s.repSeq } = s

/-! ### Steps of agents: matrix engines, copies and collectives (chapters 8 and 13) -/

/-- The steps of a matrix engine (R215, R220, R223, R226, R356 to R359): the first to arrive of the operations that may enter takes the first free entry of the reservation table; of the eligible operations for
a resource one of the highest effective priority is granted, a pass claiming its quadrant's shadow latch, and the others have waited once more; a latch is loaded unless a pass
has claimed it; `mzero` clears its accumulators, a register of a pair with the other. A granted slab commits when its pass has ended.

What a slab adds (R61 to R64, R223), and what a drain writes (R69, R226, R228). In a dense slot, while every sum stays within 2^46, each element of a row of U grows by the products of its
row of A and column of B, each rounded to the accumulator's exponent; every other element stays. A drained element is scaled by its row and by its column, each with one rounding, and converted. -/
def Obligations.MatrixEngineSteps : Prop :=
  (∀ (s : State) (c e n : Nat) (o : MatOp),
    let k := clusterOf s c
    let only (t : State) (k' : Cluster) : Prop := clusterOf t c = k' ∧ ∀ j, j ≠ c → clusterOf t j = clusterOf s j
    let ends (t : State) : Prop := sget n t.mats = none ∧ (∀ j, j ≠ n → sget j t.mats = sget j s.mats)
      ∧ ∀ w v, sget o.wave s.waves = some w → sget o.wave t.waves = some v →
        (∀ f, v.flag f = w.flag f - (if o.flag = some f then 1 else 0)) ∧ v.fibres = w.fibres
    sget n s.mats = some o →
    (clusterNo o.wave = c → mayEnter s o = true → o.place = .queue → sorted s.mats = true → e < 64 → sget e k.table = none →
      (∀ j < e, (sget j k.table).isSome) →
      (∀ x ∈ s.mats, clusterNo x.2.wave = c → x.2.place ≠ .held ∧ (x.1 ≠ n → x.2.place = .queue → mayEnter s x.2 = true → arrivedBefore (n, o) x = true)) →
      ∃ t, exec (.mxeQueueAdmit c) s = .next t ∧ only t { k with table := sput e n k.table } ∧ sget n t.mats = some { o with place := .entry e, waits := 0 }
        ∧ (∀ j, j ≠ n → sget j t.mats = sget j s.mats) ∧ { t with mats := s.mats, clusters := s.clusters } = s)
    ∧ (∀ res, res ≤ 4 → resBusy s c res = false → chooseGrant (k.last.getD res 63) (candidates s c res) = some (e, n, o) →
      let l := candidates s c res
      (∀ x ∈ l, effPrio x.2.2 ≤ effPrio o)
      ∧ ∃ t, exec (.mxeGrant c res) s = .next t
        ∧ only t { k with last := k.last.set res e, latch := if o.isPass then sput res (gangOf s o.wave, o.bind.base + o.slab) k.latch else k.latch }
        ∧ sget n t.mats = some (if o.granted then { o with ahead := true, waits := 0 }
            else { o with granted := true, waits := 0, pass := if o.isPass then passEnd s c o else 0 })
        ∧ (∀ j, j ≠ n → sget j t.mats = (sget j s.mats).map (fun x => if l.any (fun y => y.2.1 = j) then { x with waits := x.waits + 1 } else x))
        ∧ { t with mats := s.mats, clusters := s.clusters } = s)
    ∧ (sget e k.table = some n → o.kind = .latch →
      ∃ t, exec (.mlatchService c e) s = .next t ∧ ends t
        ∧ only t { k with table := sdel e k.table, latch := if latchClaimed s c o.quad then k.latch else sput o.quad (gangOf s o.wave, o.bind.base) k.latch }
        ∧ ∀ w v, sget o.wave s.waves = some w → sget o.wave t.waves = some v → ∀ a, v.acc a = w.acc a)
    ∧ (sget e k.table = some n → o.kind = .zero → o.granted = true → ∀ w, sget o.wave s.waves = some w →
      ∃ t v, exec (.drainComplete c e) s = .next t ∧ ends t ∧ only t { k with table := sdel e k.table } ∧ sget o.wave t.waves = some v
        ∧ ∀ a, v.acc a = (if a ∈ o.zeroes w then { Tile.zero with pair := o.opx.getLsbD 0, high := o.opx.getLsbD 0 && decide (a = o.acc + 1) } else w.acc a)))
  ∧ (∀ (s : State) (c e n : Nat) (o : MatOp) (w : Wave) (g : Gang), sget n s.mats = some o → sget e (clusterOf s c).table = some n → o.granted = true →
    sget o.wave s.waves = some w → sget (gangOf s o.wave) s.gangs = some g → g.windows = [] → sorted g.kaolin = true → o.pair = false →
    (∀ a, stashOwned s (gangOf s o.wave) (some n) a = false) →
    let x := w.acc o.acc
    (o.isPass = true → o.pass ≤ clusterClock s c → o.bind.sparse = false → o.bind.fmt ∈ [(0xD : BitVec 5), 0xE, 0xF, 0x10] → (o.rows.map (·.1)).Nodup → x.efix = true →
      let depth := slabDepth o.bind.fmt
      let code (k j : Nat) : Nat :=
        let i := 256 * k + j
        let at_ (a : Nat) : Nat := (sgetD 0 g.kaolin (65536 * (o.bind.base + o.next) + a)).toNat
        if o.bind.fmt = 0xD then at_ (2 * i) + 256 * at_ (2 * i + 1) else if o.bind.fmt = 0x10 then at_ (i / 4) / 4 ^ (i % 4) % 4 else at_ i
      let term (a k j : Nat) : Int :=
        let p := (aElem g o.aty (a + mxSize o.aty * (if o.kind = .mmat then 32 * (depth * o.next + k) else depth * o.next + k))).1
        let q := (mxElem o.bind.fmt (code k j)).1
        rniAt (p.1 * q.1) (p.2 + q.2) x.exp
      let sum (i a j : Nat) : Int := sgetD 0 x.mant (256 * i + j) + ((List.range depth).map (fun k => term a k j)).sum
      (∀ r ∈ o.rows, ∀ j < 256, (sum r.1 r.2 j).natAbs ≤ 2 ^ 46) →
      ∃ t v, exec (.mxePassCommit c e) s = .next t ∧ sget o.wave t.waves = some v ∧ (v.acc o.acc).exp = x.exp ∧ (v.acc o.acc).efix = true
        ∧ (∀ r ∈ o.rows, ∀ j < 256, sgetD 0 (v.acc o.acc).mant (256 * r.1 + j) = sum r.1 r.2 j)
        ∧ (∀ i, (∀ r ∈ o.rows, r.1 ≠ i / 256) → sgetD 0 (v.acc o.acc).mant i = sgetD 0 x.mant i)
        ∧ (∀ a, a ≠ o.acc → v.acc a = w.acc a) ∧ v.fibres = w.fibres ∧ v.g = w.g
        ∧ (clusterOf t c).latch = (clusterOf s c).latch
        ∧ (let more := o.ahead && g.state == .resident
           sget n t.mats = if o.slabs ≤ o.next + 1 then none
             else some { o with granted := more, ahead := false, pass := if more then o.pass + 32 else 0, next := o.next + 1 })
        ∧ (o.slabs ≤ o.next + 1 → (v.acc o.acc).susp = false ∧ (v.acc o.acc).rslab = 0 ∧ (∀ f, v.flag f = w.flag f - (if o.flag = some f then 1 else 0)))
        ∧ t.gangs = s.gangs ∧ t.mem = s.mem)
    ∧ (∀ i a, o.kind = .drain → o.rows = [(i, a)] → o.opx.getLsbD 5 = false → NoPhaseWaiters s →
      let mode := Rnd.ofCode (bits o.opx.toNat 0 2)
      let word (p : Nat) (m : Sparse Byte) : W32 := BitVec.ofNat 32 (fromBytesLE ((addrs p 4).map (sgetD 0 m)))
      let rs := if o.opx.getLsbD 3 then 0x3F800000 else word (o.gaddr + 4 * i) g.stash
      let cs (j : Nat) := if o.opx.getLsbD 4 then 0x3F800000 else word (65536 * o.bind.base + 0xF000 + 4 * j) g.kaolin
      let val (j : Nat) : Flt := drainValue x Tile.zero (256 * i + j)
      let size := mxSize o.aty
      let sat := o.opx.getLsbD 2
      let out (j : Nat) : Nat := convert o.aty 0xB mode (sat && o.aty == 0xF) (sat && o.aty == 0xE) false
        (fmt32.pack mode (Flt.mul (fmt32.value (fmt32.pack mode (Flt.mul (val j) (fmt32.value rs.toNat)))) (fmt32.value (cs j).toNat)) % 2 ^ 32)
      ∃ t g' v, exec (.drainComplete c e) s = .next t ∧ sget (gangOf s o.wave) t.gangs = some g'
        ∧ (∀ j < 256, ∀ b < size, sgetD 0 g'.stash (a + size * j + b) = (toBytesLE size (out j)).getD b 0)
        ∧ (∀ p, (∀ q < 256 * size, p ≠ a + q) → sgetD 0 g'.stash p = sgetD 0 g.stash p)
        ∧ sget o.wave t.waves = some v ∧ (∀ k, v.acc k = w.acc k) ∧ v.fibres = w.fibres
        ∧ sget n t.mats = none ∧ (∀ f, v.flag f = w.flag f - (if o.flag = some f then 1 else 0)) ∧ t.mem = s.mem))

/-- Copies and collectives in progress (R233 to R238): one destination line takes the bytes of its pieces and leaves the operation, which ends with its last line; a collective of one member
leaves its source's bytes at its destination. -/
def Obligations.CopyAndCollectiveSteps : Prop :=
  (∀ (s : State) (n line : Nat) (o : Op) (c c' : CopyOp) (bs : List (Byte × Bool)), sget n s.ops = some o → o.kind = .copy c → line ∈ c.lines → c.bar = none →
      Quiet s → NoPhaseWaiters s → (∀ e ∈ s.gangs, e.2.windows = []) → (c.kind = 2 → slotInUse s n o.gang (128 * line / 65536) = false) →
      let ps := copyPieces c (tensorOf c.trec) line
      let as := (ps.map (fun p => addrs (c.side + p) 16)).flatten
      let left := c.lines.filter (fun l => l != line)
      let rest (t : State) : Prop := sget n t.ops = (if left = [] then none else some { o with wait := none, kind := .copy { c' with lines := left } })
        ∧ (∀ j, j ≠ n → sget j t.ops = sget j s.ops) ∧ t.launches = s.launches
      copySource s (o.agent n 1) o.gang o.ctx c (tensorOf c.trec) ps = (s, .done (c', bs)) → c' = { c with src := c'.src } → as.Nodup → bs.length = as.length →
      (∀ h, sget o.gang s.gangs = some h → c.kind = 0 ∨ c.kind = 3 → (∀ a ∈ as, stashOwned s o.gang (some n) a = false) →
        ∃ t h', exec (.copyLineWrite n line) s = .next t ∧ rest t ∧ t.mem = s.mem ∧ sget o.gang t.gangs = some h'
          ∧ (∀ i < as.length, sgetD 0 h'.stash (as.getD i 0) = (bs.getD i (0, false)).1) ∧ ∀ a, a ∉ as → sgetD 0 h'.stash a = sgetD 0 h.stash a)
      ∧ (∀ h, sget o.gang s.gangs = some h → c.kind = 2 →
        ∃ t h', exec (.copyLineWrite n line) s = .next t ∧ rest t ∧ t.mem = s.mem ∧ sget o.gang t.gangs = some h'
          ∧ (∀ i < as.length, sgetD 0 h'.kaolin (as.getD i 0) = (bs.getD i (0, false)).1) ∧ ∀ a, a ∉ as → sgetD 0 h'.kaolin a = sgetD 0 h.kaolin a)
      ∧ (∀ pas, c.kind = 1 → pas.Nodup → bs.length = pas.length →
        let vas := (ps.map (fun p => addrs ((tensorOf c.trec).vaOf p) 16)).flatten
        physical s none o.ctx .write true c.tag.toNat (o.agent n 1) (tensorOf c.trec).rid vas = (s, .ok pas) →
        reachesOwned s (some n) o.ctx c.tag.toNat vas pas = false →
        ∃ t, exec (.copyLineWrite n line) s = .next t ∧ rest t ∧ t.gangs = s.gangs
          ∧ (∀ i < pas.length, pByte t (pas.getD i 0) = (bs.getD i (0, false)).1) ∧ ∀ p, p ∉ pas → pByte t p = pByte s p))
  ∧ ∀ (s : State) (ctx group seq n : Nat) (o : Op) (c : CollOp) (bs : List (Byte × Bool)) (pas : List Nat), Quiet s → (∀ e ∈ s.gangs, e.2.windows = []) →
      posted s ctx group seq = [(n, o, c)] → lateMember s ctx group seq = none → c.n = 1 → c.rank = 0 → c.kind = 0 ∨ c.kind = 2 → (∀ m ∈ (groupOf s ctx group).getD [], m.1 ∉ s.peers.fenced) →
      gangSaved s o.gang = false → collSources s [(n, o, c)] = (s, .ok [bs]) → collDests s [(n, o, c)] = (s, .ok [pas]) → pas.Nodup →
      bs.length = pas.length → bs.length % collSize c = 0 →
      ∃ t, exec (.collectivePerform ctx group seq) s = .next t ∧ sget n t.ops = none ∧ (∀ j, j ≠ n → sget j t.ops = sget j s.ops)
        ∧ (∀ i < pas.length, pByte t (pas.getD i 0) = (bs.getD i (0, false)).1) ∧ ∀ p, p ∉ pas → pByte t p = pByte s p

/-! ### Steps of agents: graphics (chapters 10 and 14) -/

/-- Graphics operations complete (R263, R267, R269 to R271, R275, R281): each fibre takes its registers, predicate, hit record, traversal and trace depth; record queues take or give records in slot order,
or answer through the predicate that they are full or empty; a write of GO to `tx.fence` notes the instructions that have issued. -/
def Obligations.GraphicsOperationsComplete : Prop :=
  ∀ (s : State) (n : Nat) (o : Op), sget n s.ops = some o →
    let give (rs : List GfxResult) (k : Nat) (y : Fibre) : Fibre := (rs.filter (fun r => r.slot = k)).foldl (fun y r =>
      let y := r.regs.foldl (fun y p => y.setV p.1 p.2) y
      let y := match r.pred with | some p => y.setP p.1 p.2 | none => y
      { y with hit := r.hit.getD y.hit, trav := r.trav.getD y.trav, depth := if r.deeper then (y.depth + 1) % 32 else y.depth }) y
    (∀ i d rs e, o.kind = .gfx i d rs [] → o.wait = none → Quiet s → (∀ r ∈ rs, r.cells = []) →
      (isTraceOp i = true ∧ e = .traceComplete n) ∨ (isRastOp i = true ∧ e = .rastComplete n) ∨ (isTexOp i = true ∧ e = .textureSampleComplete n) →
      ∃ t, exec e s = .next t ∧ Ended s t n o (give rs) id)
    ∧ (∀ i d r h, o.kind = .gfx i d [r] [] → isRastOp i = true → o.wait = none → Quiet s → r.cells ≠ [] → sget o.gang s.gangs = some h → h.windows = [] →
      NoPhaseWaiters s → (r.cells.map (·.1)).Nodup →
      ∃ t h', exec (.rastComplete n) s = .next t ∧ Ended { s with gangs := t.gangs } t n o (give [r]) id
        ∧ sget o.gang t.gangs = some h' ∧ (∀ c ∈ r.cells, sgetD 0 h'.stash c.1 = c.2)
        ∧ (∀ a, (∀ c ∈ r.cells, c.1 ≠ a) → sgetD 0 h'.stash a = sgetD 0 h.stash a) ∧ ∀ j, j ≠ o.gang → sget j t.gangs = sget j s.gangs)
    ∧ (∀ q pd (parts : List (Nat × List W32)) r, o.kind = .rqpush q pd parts → sget q s.recQueues = some r → r.ctx = o.ctx → (parts.map (·.1)).Nodup →
      let room := 2 ^ r.c - r.recs.length
      ∃ t, exec (.recordQueueAnswer n) s = .next t
        ∧ Ended { s with recQueues := t.recQueues } t n o (fun k y =>
            match parts.findIdx? (fun p => p.1 = k) with | some i => y.setP pd (decide (i < room)) | none => y) id
        ∧ sget q t.recQueues = some { r with recs := r.recs ++ (parts.take room).map (·.2) } ∧ ∀ j, j ≠ q → sget j t.recQueues = sget j s.recQueues)
    ∧ (∀ q vd m pd (slots : List Nat) r, o.kind = .rqpop q vd m pd slots → Quiet s → sget q s.recQueues = some r → r.ctx = o.ctx → slots.Nodup →
      ∃ t, exec (.recordQueueAnswer n) s = .next t
        ∧ Ended { s with recQueues := t.recQueues } t n o (fun k y =>
            match slots.findIdx? (fun x => x = k) with
            | none => y
            | some i => match r.recs[i]? with
              | some ws => (((run vd m).zip ws).foldl (fun y p => y.setV p.1 p.2) y).setP pd true
              | none => y.setP pd false) id
        ∧ sget q t.recQueues = some { r with recs := r.recs.drop slots.length } ∧ ∀ j, j ≠ q → sget j t.recQueues = sget j s.recQueues)
    ∧ ∀ v : W64, v.getLsbD 63 = true → exec (.txFence v) s = .next { s with txFence := some s.nextOp }

/-- Record queues for Loam, and raster order (R277 to R279, R363, R364, R377 to R380): Loam offers the record of its staging slot and takes the oldest one; the fragments of a
`blend` wait in the slot of their target, of open groups and where their tiles' queues have room, or count as lost; those of closed groups are applied in key order to a loaded tile, which leaves the slot as its bytes are written. -/
def Obligations.RasterOrderSteps : Prop :=
  (∀ (s : State) (k q : Nat) (r : RecQueue), sget q s.recQueues = some r →
      let base := 0x2000 * q + 0x100 * k
      let only (t : State) (r' : RecQueue) (x : Nat) : Prop := sget q t.recQueues = some r' ∧ (∀ j, j ≠ q → sget j t.recQueues = sget j s.recQueues)
        ∧ t.out = s.out ++ [.loamData k (toBytesLE 8 x) false] ∧ { t with recQueues := s.recQueues, out := s.out, staging := s.staging } = s
      let offered := (List.range (r.rsz + 1)).map (fun i => BitVec.ofNat 32 (fromBytesLE ((addrs (base + 4 * i) 4).map (sgetD 0 s.staging))))
      (r.recs.length < 2 ^ r.c → ∃ t, exec (.rqPush k q) s = .next t ∧ only t { r with recs := r.recs ++ [offered] } 1 ∧ t.staging = s.staging)
      ∧ (2 ^ r.c ≤ r.recs.length → ∃ t, exec (.rqPush k q) s = .next t ∧ only t r 0 ∧ t.staging = s.staging)
      ∧ (r.recs = [] → ∃ t, exec (.rqPop k q) s = .next t ∧ only t r 0 ∧ t.staging = s.staging)
      ∧ ∀ ws rest, r.recs = ws :: rest → ws.length ≤ 64 → ∃ t, exec (.rqPop k q) s = .next t ∧ only t { r with recs := rest } 1
        ∧ (∀ i < ws.length, ∀ j < 4, sgetD 0 t.staging (base + 4 * i + j) = (toBytesLE 4 (ws.getD i 0).toNat).getD j 0)
        ∧ ∀ a, (∀ j < 256, a ≠ base + j) → sgetD 0 t.staging a = sgetD 0 s.staging a)
  ∧ (∀ (s : State) (n i : Nat) (o : Op) (d0 d1 : W64) (fs : List Frag) (u : OrderSlot), sget n s.ops = some o → o.kind = .blend d0 d1 fs →
      s.oslots.find? (fun e => e.2.rtd0 = d0 && e.2.rtd1 = d1) = some (i, u) → sget i s.oslots = some u →
      let takes (f : Frag) : Bool := u.groups.any (fun g => g.draw = f.draw && g.group = f.group && !g.closed && g.contains d1 f.tile)
      (∀ tile, u.queuedAt tile + ((fs.filter takes).filter (fun f => f.tile = tile)).length ≤ queueRoom) →
      ∃ t, exec (.fragmentQueue n) s = .next t ∧ Ended { s with oslots := t.oslots } t n o (fun _ y => y) id
        ∧ sget i t.oslots = some { u with ctx := if u.frags.isEmpty && u.loaded.isEmpty then o.ctx else u.ctx, frags := u.frags ++ fs.filter takes
                                          lost := u.lost + (fs.filter (fun f => !takes f)).length }
        ∧ ∀ j, j ≠ i → sget j t.oslots = sget j s.oslots)
  ∧ (∀ (s : State) (i tile : Nat) (u : OrderSlot) (bytes : List Byte), sget i s.oslots = some u → sget tile u.loaded = some bytes → tileInside s u tile = true →
      s.roBusy = [] →
      let due (f : Frag) : Bool := f.tile = tile && (readyGroups u tile).any (·.owns f)
      let sorted' := (u.frags.filter due).foldl (fun l f => insertFrag f l) []
      u.frags.any due = true →
      sorted'.Perm (u.frags.filter due) ∧ sorted'.Pairwise (fun a b => keyLe a b = true)
      ∧ ∃ t, exec (.fragmentApply i tile) s = .next t
        ∧ sget i t.oslots = some { u with frags := u.frags.filter (fun f => !due f), loaded := sput tile (sorted'.foldl (applyFrag (targetFmt u.rtd1)) bytes) u.loaded }
        ∧ (∀ j, j ≠ i → sget j t.oslots = sget j s.oslots) ∧ { t with oslots := s.oslots, dynW := s.dynW } = s)
  ∧ (∀ (s : State) (i tile : Nat) (u : OrderSlot) (bytes : List Byte) (pas : List Nat), sget i s.oslots = some u → sget tile u.loaded = some bytes → u.sigt = 0 →
      (∀ e ∈ s.gangs, e.2.windows = []) → physical s none u.ctx .write false 0 { core := rouCore tile } (ptrRid u.rtd0) (tileVas u tile) = (s, .ok pas) →
      memOwned s none pas = false → pas.Nodup → pas.length ≤ bytes.length →
      ∃ t, exec (.tileEvict i tile) s = .next t ∧ sget i t.oslots = some { u with loaded := sdel tile u.loaded }
        ∧ (∀ j < pas.length, pByte t (pas.getD j 0) = bytes.getD j 0) ∧ (∀ p, p ∉ pas → pByte t p = pByte s p)
        ∧ { t with mem := s.mem, memPois := s.memPois, oslots := s.oslots } = s)
  ∧ ∀ (s : State) (k : Nat) (v : W64) (i : Nat), k < 32 → s.roBusy = [] → v.getLsbD 63 = true → i = bits v.toNat 8 6 →
      let reg (r : Nat) : Nat := 0x600000 + 0x20 * k + r
      let key : W32 × W32 := ((ctlRd s (reg 0)).extractLsb' 32 32, (ctlRd s (reg 0)).extractLsb' 0 32)
      let rect := (ctlRd s (reg 8)).toNat
      let answers (t : State) (lost slot status : Nat) : Prop := ctlRd t (reg 0x18) = BitVec.ofNat 64 (lost % 2 ^ 32 * 2 ^ 32 + slot * 2 ^ 8 + status)
        ∧ ctlRd t (reg 0x10) = v &&& 0x3F07
      let only (t : State) (z : Option OrderSlot) : Prop := sget i t.oslots = z ∧ (∀ j, j ≠ i → sget j t.oslots = sget j s.oslots)
        ∧ { t with oslots := s.oslots, ctl := s.ctl } = s
      (bits v.toNat 0 3 = 1 → ∀ j, (ctlRd s (reg 0)).toNat + 64 ≤ memEnd → (∀ e ∈ s.gangs, e.2.windows = []) →
          let a := (ctlRd s (reg 0)).toNat
          let x := fromBytesLE ((addrs a 64).map (pByte s))
          poisonedAt s (addrs a 64) = false → orderRecordGood x = true → j < 64 → sget j s.oslots = none → (∀ l < j, (sget l s.oslots).isSome) →
          ∃ t, exec (.roRegister k v) s = .next t ∧ answers t 0 j 0 ∧ { t with oslots := s.oslots, ctl := s.ctl } = s
            ∧ (∀ l, l ≠ j → sget l t.oslots = sget l s.oslots)
            ∧ sget j t.oslots = some { rtd0 := BitVec.ofNat 64 (bits x 0 64), rtd1 := BitVec.ofNat 64 (bits x 64 64), sigt := bits x 128 64
                                       spill := bits x 192 64, splen := bits x 256 32, ctx := 0, groups := [], frags := [], loaded := [], lost := 0 })
      ∧ (∀ u, bits v.toNat 0 3 = 2 → sget i s.oslots = some u → (∀ g ∈ u.groups, g.draw.ult key.1 ∨ (g.draw = key.1 ∧ g.group.ult key.2)) →
          ∃ t, exec (.roOpenGroup k v) s = .next t ∧ answers t u.lost 0 0
            ∧ only t (some { u with groups := u.groups ++ [{ draw := key.1, group := key.2, tx0 := bits rect 0 16, ty0 := bits rect 16 16, tx1 := bits rect 32 16
                                                             ty1 := bits rect 48 16, closed := false }] }))
      ∧ (∀ u, bits v.toNat 0 3 = 3 → sget i s.oslots = some u → (∃ g ∈ u.groups, g.draw = key.1 ∧ g.group = key.2 ∧ g.closed = false) →
          ∃ t, exec (.roCloseGroup k v) s = .next t ∧ answers t u.lost 0 0
            ∧ only t (some { u with groups := u.groups.map (fun g => if g.draw = key.1 && g.group = key.2 then { g with closed := true } else g) }))
      ∧ (∀ u, bits v.toNat 0 3 = 4 → sget i s.oslots = some u → u.loaded = [] →
          ∃ t, exec (.roFlush k v) s = .next t ∧ answers t u.lost 0 0 ∧ only t (some u))
      ∧ (∀ u, bits v.toNat 0 3 = 5 → sget i s.oslots = some u → u.loaded = [] → u.frags = [] →
          ∃ t, exec (.roRelease k v) s = .next t ∧ answers t u.lost 0 0 ∧ only t none)

/-! ### Steps of agents: the ends of gangs and grids, and launch queues (chapters 13 and 15) -/

/-- How gangs and grids end (R352, R355, R399, R400): a gang whose waves have ended and that maps no window gives up all it holds, and `pg.used` falls by its estimate; a grid is complete
when its workgroups have retired, its gangs are gone, its children are complete and its stores are out of the Silt logs; its completion record is 64 bytes at CREC, DONE with them, and its
notification goes to the host where its record says so.

Launch queues (R395 to R398): a write of `lq.tail` in mode 0 sets the tail, and notes an overrun in FIRST; a write of `lq.cfg` discards the entries held; ones written to NDISC clear it; a
submission that has room is appended to its queue, and one that has none, or a write that is none, is refused or counted; a record that
passes every check becomes a launch, whose number the next one follows, and no cache keeps the code and constants of its context. -/
def Obligations.GridsAndLaunchQueues : Prop :=
  ((∀ (s : State) (n x : Nat) (g : Gang), x < 2 ^ 32 → sget (key2 n x) s.gangs = some g → (g.state = .resident ∨ g.state = .aborting) →
      gangOver s (key2 n x) = true → g.windows = [] →
      ∃ t, exec (.gangRetire n x) s = .next t ∧ t.gangs = sdel (key2 n x) s.gangs
        ∧ (∀ k, sget k t.wgs = if gangKey s (k / 2 ^ 32) (k % 2 ^ 32) = key2 n x then none else sget k s.wgs)
        ∧ (∀ r, ctlRd t r = if r = 0x720058 then BitVec.ofNat 64 (ctlBits s r 0 32 - g.estimate) else ctlRd s r)
        ∧ t.migration = (if s.migration = some (n, x) then none else s.migration)
        ∧ { t with gangs := s.gangs, wgs := s.wgs, ctl := s.ctl, migration := s.migration } = s)
  ∧ (∀ (s : State) (n : Nat) (l : Launch), sget n s.launches = some l → l.completed = false → l.ngrp.foldl (· * ·) 1 ≤ l.done → gangCount l ≤ l.nextGang →
      (∀ e ∈ s.gangs, e.1 / 2 ^ 32 ≠ n) → (∀ e ∈ s.launches, e.2.parent = some n → e.2.completed = true) →
      (∀ e ∈ s.cores, ∀ x ∈ e.2.silt, x.launch ≠ n) →
      ∃ t, exec (.gridComplete n) s = .next t ∧ sget n t.launches = some { l with completed := true }
        ∧ (∀ j, j ≠ n → sget j t.launches = sget j s.launches)
        ∧ (∀ c, sget c t.contexts = (sget c s.contexts).map (fun x => if c = l.ctx ∧ l.itag ≠ 0 then
            { x with tags := smod l.itag.toNat (fun e => { e with holders := e.holders - 1 }) x.tags } else x))
        ∧ (∀ c, sget c t.clusters = (sget c s.clusters).map (fun x => if x.reserved.any (fun r => r.1 = n) then { x with reserved := none } else x))
        ∧ { t with launches := s.launches, contexts := s.contexts, clusters := s.clusters } = s)
  ∧ ∀ (s : State) (n : Nat) (l : Launch) (c : Context) (ps : List Nat), sget n s.launches = some l → l.completed = true → l.recorded = false → l.marked = false →
      (l.page = none ∨ ∃ p, l.page = some (p, true)) → (∀ e ∈ s.launches, e.2.parent = some n → e.2.recorded = true) → n < 2 ^ 32 →
      sget l.ctx s.contexts = some c → c.killEvent = none → c.destroy = none → Open s → ptrPhys s none l.ctx .write 0 l.crec 64 = (s, .ok ps) → ps.Nodup →
      (l.naddr = 0 ∨ l.nhost = true) →
      ∃ t, exec (.completionRecordWrite n) s = .next t ∧ sget n t.launches = some { l with marked := true, recorded := true, page := none }
        ∧ (∀ j, j ≠ n → sget j t.launches = sget j s.launches)
        ∧ (∀ j < 56, ∀ p, ps[j]? = some p → pByte t p = (completionRecord n l).getD j 0)
        ∧ (∀ j < 8, ∀ p, ps[56 + j]? = some p → pByte t p = (toBytesLE 8 (2 ^ 63 + n)).getD j 0)
        ∧ (∀ p, p ∉ ps → pByte t p = pByte s p) ∧ t.out = s.out ++ (if l.naddr = 0 then [] else [.hostWrite l.naddr l.ndata])
        ∧ { t with launches := s.launches, mem := s.mem, memPois := s.memPois, out := s.out } = s)
  ∧ ((∀ (s : State) (q : Nat) (v : W64), q < 64 →
      (ctlBits s (lqReg q 0) 62 1 = 1 → exec (.lqTailWrite q v) s = .next s)
      ∧ (ctlBits s (lqReg q 0) 62 1 = 0 →
          let exceeds := lqOperational s q && 2 ^ lqLog s q < (bits v.toNat 0 32 + 2 ^ 32 - lqHead s q) % 2 ^ 32
          ∃ t, exec (.lqTailWrite q v) s = .next t ∧ lqTail t q = bits v.toNat 0 32 ∧ lqNdisc t q = lqNdisc s q
            ∧ (exceeds = false → ctlRd t (lqReg q 0x20) = ctlRd s (lqReg q 0x20))
            ∧ (exceeds = true → ctlBits t (lqReg q 0x20) 0 8 = if (ctlRd s (lqReg q 0x20)).getLsbD 8 then ctlBits s (lqReg q 0x20) 0 8 else 0xF0)
            ∧ (∀ r, r ≠ lqReg q 0x10 → r ≠ lqReg q 0x20 → ctlRd t r = ctlRd s r) ∧ { t with ctl := s.ctl } = s)
      ∧ (Quiet s → ∃ t, exec (.lqCfgWrite q v) s = .next t ∧ ctlRd t (lqReg q 0) = v &&& 0xFFFFFFC000000000
          ∧ ctlRd t (lqReg q 0x18) = ctlRd s (lqReg q 0x10) ∧ (∀ r, r ≠ lqReg q 0 → r ≠ lqReg q 0x18 → ctlRd t r = ctlRd s r)
          ∧ (∀ p, sget p t.subPages = (sget p s.subPages).map (fun x => if x.queue = q then { x with entries := [] } else x))
          ∧ t.queueWait = sdel q s.queueWait ∧ { t with ctl := s.ctl, subPages := s.subPages, queueWait := s.queueWait } = s)
      ∧ (lqOperational s q = false ∨ lqCount s q ≤ 2 ^ lqLog s q →
          ∃ t, exec (.lqErrWrite q v) s = .next t
            ∧ (ctlRd t (lqReg q 0x20)).extractLsb' 32 32 = (ctlRd s (lqReg q 0x20)).extractLsb' 32 32 &&& ~~~ v.extractLsb' 32 32
            ∧ ctlBits t (lqReg q 0x20) 0 8 = ctlBits s (lqReg q 0x20) 0 8
            ∧ (∀ r, r ≠ lqReg q 0x20 → ctlRd t r = ctlRd s r) ∧ { t with ctl := s.ctl } = s))
  ∧ (∀ (s : State) (page : Nat) (data : List Byte), Open s →
      let p := pageOf s page
      let q := p.queue
      (page < 256 → data.length = 128 → q < 64 → lqAccepts s q p.ctx = true → lqCount s q < 2 ^ lqLog s q →
          ∃ t, exec (.submissionWrite page data) s = .next t
            ∧ (∀ j < 128, pByte t (lqEntry s q (lqTail s q) + j) = data.getD j 0)
            ∧ (∀ a, (∀ j < 128, a ≠ lqEntry s q (lqTail s q) + j) → pByte t a = pByte s a)
            ∧ lqTail t q = (lqTail s q + 1) % 2 ^ 32 ∧ (∀ r, r ≠ lqReg q 0x10 → ctlRd t r = ctlRd s r)
            ∧ sget page t.subPages = some { p with queued := p.queued + 1, entries := p.entries ++ [lqTail s q] }
            ∧ (∀ j, j ≠ page → sget j t.subPages = sget j s.subPages) ∧ t.out = s.out ++ [.submission true]
            ∧ { t with mem := s.mem, memPois := s.memPois, ctl := s.ctl, subPages := s.subPages, out := s.out } = s)
      ∧ ((256 ≤ page ∨ data.length ≠ 128 ∨ 64 ≤ q ∨ lqAccepts s q p.ctx = false ∨ 2 ^ lqLog s q ≤ lqCount s q) →
          exec (.submissionWrite page data) s = .next { s with out := s.out ++ [.submission false] })
      ∧ (page < 256 → ∃ t, exec (.submissionPageDiscard page) s = .next t ∧ sget page t.subPages = some { p with discarded := p.discarded + 1 }
          ∧ (∀ j, j ≠ page → sget j t.subPages = sget j s.subPages) ∧ { t with subPages := s.subPages } = s))
  ∧ ∀ (s : State) (q : Nat), nextQueue s = some q → Quiet s → Open s →
      let ctx := ctlBits s (lqReg q 0) 38 16
      let r := (addrs (lqEntry s q (lqHead s q)) 128).map (pByte s)
      poisonedAt s (addrs (lqEntry s q (lqHead s q)) 128) = false → recCheck s ctx r = none → recF r 0x5E 1 = 0 → recF r 0x5F 1 = 0 → recF r 0x5C 2 = 0 →
      ctxPlaces s ctx = true →
      ∃ t, exec .launchAccept s = .next t ∧ sget s.nextLaunch t.launches = some (Launch.ofRecord s ctx q r [] [] none)
        ∧ (∀ j, j ≠ s.nextLaunch → sget j t.launches = sget j s.launches)
        ∧ t.nextLaunch = (if s.nextLaunch + 1 = 2 ^ 32 then 1 else s.nextLaunch + 1) ∧ t.acceptOrder = s.acceptOrder + 1
        ∧ lqHead t q = (lqHead s q + 1) % 2 ^ 32 ∧ (∀ a, a ≠ lqReg q 0x18 → ctlRd t a = ctlRd s a)
        ∧ (∀ k, coreOf t k = { coreOf s k with icache := (coreOf s k).icache.filter (fun x => x.ctx != ctx),
                                                ccache := (coreOf s k).ccache.filter (fun x => x.ctx != ctx) })
        ∧ t.queueRot = (q + 1) % 64 ∧ t.mem = s.mem ∧ t.waves = s.waves ∧ t.gangs = s.gangs ∧ t.contexts = s.contexts ∧ t.ops = s.ops)

/-- Placement, the governor, and saves (R402 to R408, R411 to R418): a gang that fits is placed on the lowest cluster, with its estimate in `pg.used` and its workgroups as R47 says; a sample sets
each core's temperature and hot bit, and may start a migration; a settled gang is saved to its area and gives up its cluster; a
restored one has its waves again. -/
def Obligations.PlacementAndSaves : Prop :=
  (∀ (s : State) (c : Seeker) (l : Launch) (cl : Nat) (cores : List Nat) (ks : Nat), ranked s = [c] → sget c.launch s.launches = some l →
      firstFit s c l (List.range 32) = some (cl, cores, ks) → l.itag = 0 →
      let est := membersOf l c.idx * classWatt s l.eclass
      ∃ t, exec .gangPlacementStep s = .next t ∧ ctlRd t 0x720058 = BitVec.ofNat 64 (ctlBits s 0x720058 0 32 + est)
        ∧ (∀ r, r ≠ 0x720058 → ctlRd t r = ctlRd s r)
        ∧ (∀ j, sget j t.clusters = (sget j s.clusters).map (fun x => if x.reserved = some (c.launch, c.idx) then { x with reserved := none } else x))
        ∧ (∀ j, j ≠ c.key → sget j t.gangs = sget j s.gangs) ∧ t.mem = s.mem ∧ t.contexts = s.contexts ∧ t.ops = s.ops ∧ t.cores = s.cores
        ∧ (c.saved = true → ∀ g, sget c.key s.gangs = some g → t.waves = s.waves ∧ t.wgs = s.wgs ∧ t.launches = s.launches
            ∧ sget c.key t.gangs = some { g with state := .restoring, cluster := cl, cores := cores, ksBase := ks, estimate := est, passes := 0 })
        ∧ (c.saved = false →
            sget c.key t.gangs = some { Gang.new with state := .resident, cluster := cl, cores := cores, ksBase := ks, estimate := est }
            ∧ sget c.launch t.launches = some { l with nextGang := l.nextGang + 1, start := some (l.start.getD (cores.headD 0, (coreOf s (cores.headD 0)).clock.toNat)) }
            ∧ (∀ k w, sget k s.waves = some w → sget k t.waves = some w)
            ∧ ∀ m core, cores[m]? = some core → ∃ u, sget (key2 c.launch (l.gang * c.idx + m)) t.wgs = some u ∧ u.core = core ∧ u.retired = false ∧ u.tiles = []
              ∧ ∀ k ∈ u.waves, coreNo k = core ∧ sget k s.waves = none
                ∧ ∃ i < launchWaves l, sget k t.waves = some (newWave c.launch l (l.gang * c.idx + m) i)))
  ∧ (∀ (s : State) (temps : List Nat) (power : Nat), ∃ u : State,
      (∀ k, coreOf u k = if k < min 128 temps.length then
          { coreOf s k with temp := some (temps.getD k 0)
                            hot := if ctlBits s 0x720048 0 16 ≤ temps.getD k 0 then true
                              else if temps.getD k 0 + ctlBits s 0x720050 0 16 < ctlBits s 0x720048 0 16 then false else (coreOf s k).hot }
        else coreOf s k)
      ∧ u.sensors = { s.sensors with power := power } ∧ { u with cores := s.cores, sensors := s.sensors } = s
      ∧ ((s.migration ≠ none ∨ migrant u = none) → exec (.governorSample temps power) s = .next u)
      ∧ ∀ gk g, s.migration = none → migrant u = some gk → sget gk u.gangs = some g →
          ∃ t, exec (.governorSample temps power) s = .next t ∧ t.migration = some (gk / 2 ^ 32, gk % 2 ^ 32)
            ∧ sget gk t.gangs = some { g with state := .saving, holdAfter := false, migrating := true, migClock := some s.ioClock,
                                                    excluded := some g.cluster }
            ∧ (∀ j, j ≠ gk → sget j t.gangs = sget j u.gangs) ∧ { t with gangs := u.gangs, migration := u.migration } = u)
  ∧ (∀ (s : State) (n x : Nat) (g : Gang) (l : Launch) (pages : List Nat), sget (key2 n x) s.gangs = some g → sget n s.launches = some l →
      let gk := key2 n x
      g.state = .saving → g.windows = [] → g.migrating = false → (skeys s.waves).Nodup → Open s →
      (∀ e ∈ s.waves, gangOf s e.1 = gk → e.2.clause = none ∧ e.2.page = none ∧ e.2.paired = none
        ∧ ∀ y ∈ e.2.fibres, y.2.dumpAt = none ∧ y.2.stopAt = false) →
      (∀ e ∈ s.ops, e.2.gang ≠ gk ∧ gangOf s e.2.wave ≠ gk) → (∀ e ∈ s.mats, gangOf s e.2.wave ≠ gk) →
      (∀ e ∈ s.contexts, ∀ w ∈ e.2.waiters, gangOf s w.1 ≠ gk) → gangSilt s gk = [] → areaPages s l x .write = (s, .ok pages) →
      ∃ t, exec (.gangSaveComplete n x) s = .next t
        ∧ sget gk t.gangs = some { g with state := if g.holdAfter then .held else .ready, cores := [], stash := [], kaolin := [], estimate := 0
                                          passes := 0, saved := some (collect s gk) }
        ∧ (∀ j, j ≠ gk → sget j t.gangs = sget j s.gangs) ∧ (∀ k, sget k t.waves = if gangOf s k = gk then none else sget k s.waves)
        ∧ (∀ k, sget k t.wgs = if gangKey s (k / 2 ^ 32) (k % 2 ^ 32) = gk then none else sget k s.wgs)
        ∧ sget n t.launches = some { l with nsave := l.nsave + 1 } ∧ (∀ j, j ≠ n → sget j t.launches = sget j s.launches)
        ∧ (∀ r, ctlRd t r = if r = 0x720058 then BitVec.ofNat 64 (ctlBits s r 0 32 - g.estimate) else ctlRd s r)
        ∧ pByte t (pages.headD 0 + 9) = 1 ∧ (∀ p, (∀ a ∈ pages, ¬ (a ≤ p ∧ p < a + 4096)) → p ≠ pages.headD 0 + 9 → pByte t p = pByte s p)
        ∧ t.contexts = s.contexts ∧ t.ops = s.ops ∧ t.mats = s.mats)
  ∧ ∀ (s s' : State) (n x : Nat) (g h : Gang) (l : Launch) (v u : Saved) (m : Sparse Byte) (pages : List Nat) (ctx : Context),
      sget (key2 n x) s.gangs = some g → sget n s.launches = some l → sget l.ctx s.contexts = some ctx →
      let gk := key2 n x
      g.state = .restoring → g.saved = some v → g.abort = false → readArea s l x = (s', some (m, pages)) → s' = s → fromImage l n x m g v = some (h, u) →
      let keys := newKeys s l x h.cores u.waves
      keys.map (·.1) = skeys u.waves → (skeys u.waves).Nodup → (skeys s.waves).Nodup → u.mats = [] → u.ops = [] → u.silt = [] → u.credits = [] →
      (∀ e ∈ u.waves, e.2.park = none ∧ ∀ y ∈ e.2.fibres, y.2.blocked = none ∧ y.2.resumed = none ∧ y.2.recs = []) →
      (∀ e ∈ s.ops, e.2.gang ≠ gk) → (∀ e ∈ s.waves, gangOf s e.1 ≠ gk) → (∀ e ∈ s.reqs, gangKey s e.2.launch e.2.wg ≠ gk) → ctx.waiters = [] → Open s → Quiet s → NoPhaseWaiters s →
      ∃ t, exec (.restoreComplete n x) s = .next t
        ∧ sget gk t.gangs = some { h with state := .resident, resident := 0, migrating := false, migClock := none, excluded := none
                                          holdAfter := false, saved := none }
        ∧ (∀ j, j ≠ gk → sget j t.gangs = sget j s.gangs) ∧ t.migration = (if s.migration = some (n, x) then none else s.migration)
        ∧ (∀ e ∈ u.waves, sget (keyed keys e.1) t.waves = some e.2) ∧ (∀ k, (∀ e ∈ u.waves, keyed keys e.1 ≠ k) → sget k t.waves = sget k s.waves)
        ∧ (∀ p, pByte t p = if p = pages.headD 0 + 9 then 0 else pByte s p) ∧ t.launches = s.launches ∧ t.ctl = s.ctl

/-- The dispatch commands (R409, R410): with GO and no command in progress, a command whose arguments are good has its effect and answers status 0, and GO reads
0 again. OP 1 creates a context; OP 2 destroys one that has no open launch, and with it what cores hold of it and its pages' counts; OP 3 saves a resident gang, which is then held, or takes
over a migration of the same clock; OP 4 makes a held gang ready; OP 5 ends a launch; OP 6 binds a submission page, whose counts start afresh with another context, or unbinds it. -/
def Obligations.DispatchCommands : Prop :=
  ∀ (s : State) (k : Nat) (v : W64), k < 16 → v.getLsbD 63 = true → ctlBits s (dpReg k 0x10) 63 1 = 0 →
    let id := bits v.toNat 3 16
    let a0 := (ctlRd s (dpReg k 0)).toNat
    let a1 := (ctlRd s (dpReg k 8)).toNat
    let answers (t : State) (st : Nat) : Prop := ctlRd t (dpReg k 0x10) = v &&& 0x7FFFF ∧ ctlRd t (dpReg k 0x18) = BitVec.ofNat 64 st
      ∧ ∀ r, r ≠ dpReg k 0x10 → r ≠ dpReg k 0x18 → ctlRd t r = ctlRd s r
    let onGang (e : Instr) (g' : Gang) : Prop := ∃ t, exec e s = .next t ∧ answers t 0 ∧ sget (key2 a0 a1) t.gangs = some g'
      ∧ (∀ j, j ≠ key2 a0 a1 → sget j t.gangs = sget j s.gangs) ∧ { t with ctl := s.ctl, gangs := s.gangs } = s
    (bits v.toNat 0 3 = 1 → sget id s.contexts = none → a0 % 256 = 0 → a0 < memEnd → (∀ e ∈ s.gangs, e.2.windows = []) →
        transGood (fromBytesLE ((addrs a0 64).map (pByte s))) = true → trapBlockGood ((addrs (a0 + 64) 64).map (pByte s)) = true →
        ∃ t, exec (.dpCreateContext k v) s = .next t ∧ answers t 0
          ∧ sget id t.contexts = some { recPa := a0, tags := [], waiters := [], overrun := false, killed := false, killEvent := none, destroy := none }
          ∧ (∀ j, j ≠ id → sget j t.contexts = sget j s.contexts) ∧ { t with ctl := s.ctl, contexts := s.contexts } = s)
    ∧ (∀ c, bits v.toNat 0 3 = 1 → sget id s.contexts = some c →
        ∃ t, exec (.dpCreateContext k v) s = .next t ∧ answers t 1 ∧ { t with ctl := s.ctl } = s)
    ∧ (∀ c, bits v.toNat 0 3 = 2 → sget id s.contexts = some c → c.destroy = none → c.killEvent = none →
        (∀ e ∈ s.launches, e.2.ctx = id → e.2.recorded = true) → (∀ q < 64, ctlBits s (lqReg q 0) 38 16 = id → ctlBits s (lqReg q 0) 63 1 = 0) →
        ∃ t, exec (.dpDestroyContext k v) s = .next t ∧ answers t 0 ∧ sget id t.contexts = none ∧ (∀ j, j ≠ id → sget j t.contexts = sget j s.contexts)
          ∧ t.recQueues = s.recQueues.filter (fun e => e.2.ctx != id)
          ∧ t.subPages = s.subPages.filter (fun e => e.2.ctx != id)
          ∧ (∀ j, coreOf t j = { coreOf s j with
              tlb := (coreOf s j).tlb.filter (fun x => x.ctx != id), regions := (coreOf s j).regions.filter (fun x => x.ctx != id)
              silt := (coreOf s j).silt.filter (fun x => x.ctx != id), icache := (coreOf s j).icache.filter (fun x => x.ctx != id)
              ccache := (coreOf s j).ccache.filter (fun x => x.ctx != id) })
          ∧ { t with ctl := s.ctl, contexts := s.contexts, recQueues := s.recQueues, subPages := s.subPages, cores := s.cores } = s)
    ∧ (∀ l g, sget a0 s.launches = some l → l.ctx = id → a1 < gangCount l → sget (key2 a0 a1) s.gangs = some g →
        (bits v.toNat 0 3 = 3 → l.saveb ≠ 0 → g.state = .resident → g.abort = false →
            onGang (.dpSaveGang k v) { g with state := .saving, holdAfter := true, migrating := false, migClock := none, excluded := none })
        ∧ (bits v.toNat 0 3 = 3 → l.saveb ≠ 0 → g.state = .saving → g.migrating = true → g.migClock = some s.ioClock →
            ∃ t, exec (.dpSaveGang k v) s = .next t ∧ answers t 0
              ∧ sget (key2 a0 a1) t.gangs = some { g with holdAfter := true, migrating := false, migClock := none, excluded := none }
              ∧ (∀ j, j ≠ key2 a0 a1 → sget j t.gangs = sget j s.gangs) ∧ { t with ctl := s.ctl, gangs := s.gangs, migration := s.migration } = s)
        ∧ (bits v.toNat 0 3 = 4 → g.state = .held → onGang (.dpReleaseGang k v) { g with state := .ready, passes := 0 }))
    ∧ (∀ l, sget a0 s.launches = some l → l.ctx = id → bits v.toNat 0 3 = 5 → l.completed = false → l.recorded = false → Quiet s →
        (∀ e ∈ s.gangs, e.1 / 2 ^ 32 ≠ a0) →
        let n := l.ngrp.foldl (· * ·) 1
        ∃ t, exec (.dpKillLaunch k v) s = .next t ∧ answers t 0
          ∧ sget a0 t.launches = some { l with status := l.status ||| 2, done := l.done + (n - min n (l.nextGang * l.gang)), nextGang := gangCount l }
          ∧ (∀ j, j ≠ a0 → sget j t.launches = sget j s.launches) ∧ { t with ctl := s.ctl, launches := s.launches } = s)
    ∧ (bits v.toNat 0 3 = 6 → a0 < 256 → a1 < 64 → ctlBits s (lqReg a1 0) 38 16 = id →
        ∃ t, exec (.dpBindPage k v) s = .next t ∧ answers t 0 ∧ sget a0 t.subPages = some { (if (pageOf s a0).ctx = id then pageOf s a0 else freshPage) with
            ctx := id, queue := a1, entries := [] }
          ∧ (∀ j, j ≠ a0 → sget j t.subPages = sget j s.subPages) ∧ { t with ctl := s.ctl, subPages := s.subPages } = s)
    ∧ (bits v.toNat 0 3 = 6 → a0 < 256 → a1 = 65535 →
        ∃ t, exec (.dpBindPage k v) s = .next t ∧ answers t 0
          ∧ (∀ p, sget p t.subPages = (sget p s.subPages).map (fun x => if p = a0 then { x with queue := 65535, entries := [] } else x))
          ∧ { t with ctl := s.ctl, subPages := s.subPages } = s)

/-! ### Steps of agents: translation, services and the rings to Loam (chapters 9, 12, 14 and 16) -/

/-- The translation ports (R330, R331, R334, R340): a write of GO to `xl.invc` drops the leaves of a page or of a context, the region entries of a context, or all of them, on every core, and waits for the
multicast lines already translated; a write of `xl.done` ends the waits for its page, or marks them so that they end without it; a grow of a cell table without valid entries makes the new table the
context's. -/
def Obligations.TranslationPorts : Prop :=
  ∀ (s : State) (k : Nat) (v : W64), k < 16 →
    let ctx := bits v.toNat 44 16
    let drops (e : Instr) (cov : Nat → Nat → Bool) (leaf : TlbEntry → Bool) (region : RegionEntry → Bool) : Prop := ∃ t, exec e s = .next t
      ∧ (∀ j, coreOf t j = { coreOf s j with tlb := (coreOf s j).tlb.filter (fun x => !leaf x), regions := (coreOf s j).regions.filter (fun x => !region x) })
      ∧ (∀ j, sgetD [] t.invals j = if j = k then skeys (s.ops.filter (fun o => o.2.kind.translated (cov o.2.ctx))) else sgetD [] s.invals j)
      ∧ (∀ r, ctlRd t r = if r = xlReg k 8 then v &&& 0x0FFFF0F000000000 else ctlRd s r) ∧ { t with cores := s.cores, ctl := s.ctl, invals := s.invals } = s
    let size := 2 ^ ([12, 16, 21, 30].getD (bits v.toNat 36 2) 12)
    let lo := ctlBits s (xlReg k 0) 12 45 * 4096 - ctlBits s (xlReg k 0) 12 45 * 4096 % size
    (v.getLsbD 63 = true → invalPending s k = false → (∀ e ∈ s.gangs, e.2.windows = []) →
        (bits v.toNat 38 2 = 0 → drops (.xlInvPage k v) (fun c a => c = ctx && lo ≤ a && a < lo + size)
          (fun x => x.ctx = ctx && x.page < lo + size && lo < x.page + 2 ^ x.bits) (fun _ => false))
        ∧ (bits v.toNat 38 2 = 1 → drops (.xlInvContext k v) (fun c _ => c = ctx) (fun x => x.ctx = ctx) (fun _ => false))
        ∧ (bits v.toNat 38 2 = 2 → drops (.xlInvRegion k v) (fun _ _ => false) (fun _ => false) (fun x => x.ctx = ctx))
        ∧ (bits v.toNat 38 2 = 3 → drops (.xlInvAll k v) (fun _ _ => true) (fun _ => true) (fun _ => true)))
    ∧ (invalPending s k = true → ∀ e ∈ ([.xlInvPage k v, .xlInvContext k v, .xlInvRegion k v, .xlInvAll k v] : List Instr), exec e s = .next s)
    ∧ (Quiet s →
        let id := bits v.toNat 48 16
        let vpn := bits v.toNat 0 45
        let marks (e : Instr) (q : Option Bool) : Prop := ∃ t, exec e s = .next t
          ∧ (∀ n, sget n t.launches = (sget n s.launches).map (fun l => if l.ctx = id ∧ l.page.any (·.1 = vpn) then { l with page := q.map (vpn, ·) } else l))
          ∧ (∀ n, sget n t.reqs = (sget n s.reqs).map (fun r => if r.ctx = id ∧ r.wait.any (·.1 = vpn) then { r with wait := q.map (vpn, ·) } else r))
          ∧ (∀ n, sget n t.waves = (sget n s.waves).map (fun w => if ctxOf s n = id ∧ w.page.any (·.1 = vpn) then { w with page := q.map (vpn, ·) } else w))
          ∧ t.queueWait = s.queueWait.filterMap (fun e => if e.2.1 = id ∧ e.2.2.1 = vpn then q.map (fun b => (e.1, id, vpn, b)) else some e)
          ∧ (∀ n, sget n t.oslots = (sget n s.oslots).map (fun z => if z.ctx = id then { z with told := z.told.filter (fun p => p.1 != vpn) } else z))
          ∧ { t with ops := s.ops, launches := s.launches, reqs := s.reqs, waves := s.waves, queueWait := s.queueWait, oslots := s.oslots } = s
          ∧ ∀ n, sget n t.ops = (sget n s.ops).map (fun o => if o.ctx = id ∧ o.wait.any (· / 4096 = vpn) ∧ q = none then { o with wait := none } else o)
        (bits v.toNat 45 3 = 0 → marks (.xlDoneMapped k v) none)
        ∧ (bits v.toNat 45 3 = 1 → (∀ e ∈ s.ops, e.2.wait = none) → (∀ e ∈ s.oslots, ∀ p ∈ e.2.told, p.1 ≠ vpn) → marks (.xlDoneUnbacked k v) (some true))
        ∧ (bits v.toNat 45 3 = 2 → ∃ t, exec (.xlDonePoolRefilled k v) s = .next t ∧ { t with ops := s.ops } = s
            ∧ ∀ n, sget n t.ops = (sget n s.ops).map (fun o => if o.ctx = id ∧ o.wait.any (fun va => usable s id va .write) then { o with wait := none } else o)))
    ∧ (∀ c, v.getLsbD 63 = true → bits v.toNat 60 3 = 1 → sget ctx s.contexts = some c → cellsOf s ctx none = [] → Quiet s → (∀ e ∈ s.ops, e.2.wait = none) →
        (∀ e ∈ s.gangs, e.2.windows = []) →
        let tb := transBlock s ctx
        ∃ t, exec (.xlCmdGrowCellTable k v) s = .next t ∧ (∀ r, ctlRd t r = if r = xlReg k 0x18 then v &&& 0x7FFFF00000000000 else ctlRd s r)
          ∧ (∀ j < 7, pByte t (c.recPa + 0x11 + j) = (toBytesLE 7 (bits tb 204 52 * 16 + bits tb 136 4)).getD j 0)
          ∧ (∀ p, (∀ j < 7, p ≠ c.recPa + 0x11 + j) → pByte t p = pByte s p)
          ∧ { t with ctl := s.ctl, mem := s.mem, memPois := s.memPois } = s)

/-- The service engine (R204, R439 to R442): the answer of a request goes to its fibre's registers, and a storage request gives up its tag; a mapping takes frames and quota, and an unmapping gives quota back; a storage command
leaves with its buffer pinned, and its completion answers; record queues are created and destroyed. -/
def Obligations.ServiceSteps : Prop :=
  ∀ (s : State) (n : Nat) (r : SenReq), sget n s.reqs = some r → r.orphan = false →
    let only (t : State) (r' : SenReq) : Prop := sget n t.reqs = some r' ∧ ∀ j, j ≠ n → sget j t.reqs = sget j s.reqs
    let answered (t : State) (a b c : Nat) : Prop := only t { r with result := some [BitVec.ofNat 32 a, BitVec.ofNat 32 b, BitVec.ofNat 32 c, 0], wait := none }
    let e := r.entryAt s
    (∀ o p, sget r.op s.ops = some o → o.kind = .capinv [p] → p.req = n →
        let ends (ws : List W32) : Prop := r.own = [] → ∃ t, exec (.capinvComplete n) s = .next t ∧ t.reqs = sdel n s.reqs
          ∧ t.contexts = (if r.storage && decide (r.code.toNat ≤ 1) then (tagDrop s r.ctx r.tag.toNat).contexts else s.contexts)
          ∧ Ended { s with reqs := t.reqs, contexts := t.contexts } t r.op o (fun k y => if k = p.slot then ws.zipIdx.foldl (fun y x => y.setV (p.vr + x.2) x.1) y else y) id
        (∀ ws, r.result = some ws → (r.passed = false ∨ knownOp (bits r.cap.toNat 16 8) r.code.toNat = true) → ends ws)
        ∧ (r.passed = true → knownOp (bits r.cap.toNat 16 8) r.code.toNat = false → ends [2, 0, 0, 0]))
    ∧ (r.issued = true → r.result = none → Quiet s → (∀ g ∈ s.gangs, g.2.windows = []) → ∀ (status blocks : W32) (data : List Byte),
        ∃ t, exec (.nvmeCompletion n status blocks data) s = .next t
          ∧ only t { r with pinned := [], own := [], result := some [0, status, if r.code = 2 then 0 else blocks, 0], wait := none }
          ∧ (r.code ≠ 0 → { t with reqs := s.reqs } = s)
          ∧ (r.code = 0 → r.bufBytes.Nodup → (∀ (j a : Nat) (x : Byte), r.bufBytes[j]? = some a → data[j]? = some x → pByte t a = x)
            ∧ (∀ p, p ∉ r.bufBytes → pByte t p = pByte s p) ∧ { t with reqs := s.reqs, mem := s.mem, memPois := s.memPois } = s))
    ∧ (r.passed = true → r.issued = false → r.result = none →
        (bits r.cap.toNat 16 8 = 1 → r.own = [] →
            (∀ (frames : List Nat) (u : State) (m : Nat), r.code = 0 → rangeGood s r = true → r.arg 3 < 16 → bits (r.arg 3) 0 2 ≠ 3 → r.zeros 4 8 = true →
              r.arg 2 ≤ rd s (e + 0x18) 8 → framesGood frames = true → (∀ g ∈ u.gangs, g.2.windows = []) → u.reqs = s.reqs → u.contexts = s.contexts →
              r.entryAt u = e →
              backPages r.ctx (0x25 + (if (r.arg 3).testBit 3 then 8 else 0) + bits (r.arg 3) 0 2 * 2 ^ 61 + (if (r.arg 3).testBit 2 then 2 ^ 63 else 0))
                r.pages s frames 0 = some (u, m) →
              ∃ t, exec (.allocationMap n frames) s = .next t ∧ answered t 0 m 0
                ∧ (∀ j < 8, pByte t (e + 0x18 + j) = (toBytesLE 8 (rd s (e + 0x18) 8 - r.arg 2)).getD j 0)
                ∧ (∀ p, (∀ j < 8, p ≠ e + 0x18 + j) → pByte t p = pByte u p) ∧ { t with reqs := u.reqs, mem := u.mem, memPois := u.memPois } = u)
            ∧ (∀ c, r.code = 1 → rangeGood s r = true → r.zeros 3 8 = true → (∀ g ∈ s.gangs, g.2.windows = []) → sget r.ctx s.contexts = some c →
              let slots := r.pages.filterMap (leafSlot s r.ctx)
              let lo := bits (r.arg2 0) 0 57
              (∀ a ∈ slots, (a + 8 ≤ e + 0x18 ∨ e + 0x20 ≤ a) ∧ (a + 8 ≤ c.recPa ∨ c.recPa + 256 ≤ a)) →
              ∃ t, exec (.allocationUnmap n) s = .next t ∧ answered t 0 slots.length 0
                ∧ (∀ a ∈ slots, ∀ j < 8, pByte t (a + j) = 0)
                ∧ (∀ j < 8, pByte t (e + 0x18 + j) = (toBytesLE 8 ((rd s (e + 0x18) 8 + 4096 * slots.length) % 2 ^ 64)).getD j 0)
                ∧ (∀ p, (∀ a ∈ slots, ∀ j < 8, p ≠ a + j) → (∀ j < 8, p ≠ e + 0x18 + j) → pByte t p = pByte s p)
                ∧ (∀ k, coreOf t k = { coreOf s k with tlb := (coreOf s k).tlb.filter (fun x => !(x.ctx = r.ctx && x.page < lo + r.arg 2 && lo < x.page + 2 ^ x.bits)) })
                ∧ { t with reqs := s.reqs, mem := s.mem, memPois := s.memPois, cores := s.cores } = s))
        ∧ (bits r.cap.toNat 16 8 = 2 →
            (∀ (pas : List Nat), storageGood s r = true → r.wait = none → (∀ g ∈ s.gangs, g.2.windows = []) →
              let r' := { r with pinned := pas.map (fun a => a - a % 4096) }
              let leaves (x : Instr) (op : Nat) (r'' : SenReq) (data : List Byte) : Prop := ∃ t, exec x s = .next t ∧ only t r''
                ∧ t.out = s.out ++ [.nvme n op r.nsid (r.lba + r.arg2 0) (r.arg 2) data] ∧ { t with reqs := s.reqs, out := s.out } = s
              memOwned s (some r.op) r'.bufBytes = false →
              (r.code = 0 → physical s none r.ctx .write true r.tag.toNat r.agent (ptrRid r.buf) r.bufPages = (s, .ok pas) →
                leaves (.storageRead n) 0 { r' with issued := true } [])
              ∧ (r.code = 1 → physical s none r.ctx .read true r.tag.toNat r.agent (ptrRid r.buf) r.bufPages = (s, .ok pas) →
                leaves (.storageWrite n) 1 { r' with issued := true } (r'.bufBytes.map (pByte s))))
            ∧ (r.code = 2 → r.zeros 0 8 = true → ∃ t, exec (.storageFlush n) s = .next t ∧ only t { r with issued := true }
                ∧ t.out = s.out ++ [.nvme n 2 r.nsid 0 0 []] ∧ { t with reqs := s.reqs, out := s.out } = s))
        ∧ (bits r.cap.toNat 16 8 = 3 → r.own = [] → (∀ g ∈ s.gangs, g.2.windows = []) →
            let nq := rd s (e + 0x11) 1
            let counts (t : State) (m : Nat) : Prop := (∀ p, pByte t p = if p = e + 0x11 then BitVec.ofNat 8 m else pByte s p)
              ∧ { t with reqs := s.reqs, mem := s.mem, memPois := s.memPois, recQueues := s.recQueues } = s
            (∀ q, r.code = 0 → r.arg 0 ≤ 63 → 4 ≤ r.arg 1 → r.arg 1 ≤ 16 → r.zeros 4 8 = true → nq < rd s (e + 0x10) 1 → freeKey s.recQueues 256 0 = some q →
              ∃ t, exec (.queueCreate n) s = .next t ∧ answered t 0 q 0 ∧ counts t (nq + 1)
                ∧ t.recQueues = sput q { ctx := r.ctx, key := BitVec.ofNat 64 (r.arg2 2), rsz := r.arg 0, c := r.arg 1, recs := [] } s.recQueues)
            ∧ (r.code = 1 → r.zeros 1 8 = true → queueOwned s (r.arg 0) r.ctx = true →
              ∃ t, exec (.queueDestroy n) s = .next t ∧ answered t 0 0 0 ∧ counts t (nq - 1) ∧ t.recQueues = sdel (r.arg 0) s.recQueues)))

/-- The rings to Loam (R205, R435 to R438): the oldest supervisor event goes to the ring when it has room; the message of the wave that parked first goes to the mailbox ring of its context; a resume
writes the reply to the parked wave's register, and the wave goes on. -/
def Obligations.RingsToLoam : Prop :=
  (∀ (s : State) (e : SupEvent) (rest : List SupEvent), s.supEvents = e :: rest → (∀ g ∈ s.gangs, g.2.windows = []) →
      let reg (r : Nat) : Nat := 0x740020 + r
      let log := ctlBits s (reg 8) 0 5
      let tail := ctlBits s (reg 0x10) 0 32
      let a := bits (ctlRd s (reg 0)).toNat 6 46 * 64 + 64 * (tail % 2 ^ log)
      let used := (tail + 2 ^ 32 - ctlBits s (reg 0x18) 0 32) % 2 ^ 32
      ((log < 6 ∨ 16 < log ∨ 2 ^ log ≤ used) → exec .supervisorEvent s = .next s)
      ∧ (6 ≤ log → log ≤ 16 → used < 2 ^ log →
        ∃ t, exec .supervisorEvent s = .next t ∧ t.supEvents = rest ∧ (∀ j < 64, pByte t (a + j) = e.message.getD j 0)
          ∧ (∀ p, (∀ j < 64, p ≠ a + j) → pByte t p = pByte s p)
          ∧ (∀ r, ctlRd t r = if r = reg 0x10 then BitVec.ofNat 64 ((tail + 1) % 2 ^ 32) else ctlRd s r)
          ∧ t.out = s.out ++ (if used = 0 then [.loamIrq (ctlBits s (reg 8) 8 4)] else [])
          ∧ { t with supEvents := s.supEvents, mem := s.mem, memPois := s.memPois, ctl := s.ctl, out := s.out } = s))
  ∧ (∀ (s : State) (id k : Nat) (p : Park) (w : Wave) (c : Context), firstParked s id = some (k, none, p) → sget k s.waves = some w → w.park = some p →
      sget id s.contexts = some c → (∀ g ∈ s.gangs, g.2.windows = []) →
      let m := Mailbox.read s id
      let a := m.base + 64 * (m.tail % 2 ^ m.log)
      m.room = true → 64 ≤ (p.msg.getD []).length → (a + 64 ≤ c.recPa + 0x5C ∨ c.recPa + 0x60 ≤ a) →
      ∃ t, exec (.upcallMessagePost id) s = .next t
        ∧ (∀ j < 64, pByte t (a + j) = (toBytesLE 8 (coreOf s p.core).clock.toNat ++ (p.msg.getD []).drop 8).getD j 0)
        ∧ (∀ j < 4, pByte t (c.recPa + 0x5C + j) = (toBytesLE 4 ((m.tail + 1) % 2 ^ 32)).getD j 0)
        ∧ (∀ q, (∀ j < 64, q ≠ a + j) → (∀ j < 4, q ≠ c.recPa + 0x5C + j) → pByte t q = pByte s q)
        ∧ t.out = s.out ++ (if m.tail = m.head then [.loamIrq m.core] else []) ∧ sget k t.waves = some { w with park := some { p with msg := none } }
        ∧ (∀ j, j ≠ k → sget j t.waves = sget j s.waves) ∧ { t with mem := s.mem, memPois := s.memPois, out := s.out, waves := s.waves } = s)
  ∧ ∀ (s : State) (j : Nat) (v : W64) (k : Nat) (w : Wave) (p : Park), j < 16 → v.getLsbD 63 = true → w.park = some p → sget k s.waves = some w →
      s.waves.find? (fun e => ctxOf s e.1 = bits v.toNat 16 16 && e.2.park.any (fun x => x.msg.isNone && x.reply.isNone && x.core = bits v.toNat 6 7
        && x.wslot = bits v.toNat 0 6 && x.seq = v.extractLsb' 32 16)) = some (k, w) →
      ∃ t, exec (.upCmdResume j v) s = .next t ∧ sget k t.waves = some { w.setG p.reg (ctlRd s (upReg j 0)) with park := none }
        ∧ (∀ i, i ≠ k → sget i t.waves = sget i s.waves)
        ∧ (∀ r, ctlRd t r = if r = upReg j 8 then v &&& 0x0000FFFFFFFF1FFF else if r = upReg j 0x10 then 0 else ctlRd s r)
        ∧ { t with waves := s.waves, ctl := s.ctl } = s

/-! ### Steps of agents: observation, debugging, and accesses from outside the cores (chapters 12, 18 and 19) -/

/-- Sampling, energy and the debugger (R453 to R462): a good write of `sm.ctl` arms the sampler; a sample that is due records a wave, or counts one dropped; the energy of an interval is shared by the floor of each share, and the
rest is unattributed; a debug event goes to its slot's ring; the commands of the debugger resume a stopped fibre, or mark one for a dump or a stop at its next clause
boundary, until when GO reads 1; a write of `db.cmd` meanwhile has no effect, which is the model's choice (log 38). -/
def Obligations.ObservationAndDebugSteps : Prop :=
  (∀ (s : State) (c : Nat) (v : W64), c < 128 →
      let good := 16 ≤ bits v.toNat 0 32 && bits v.toNat 54 8 = 0
      let kept := v &&& (if good then 0xC03FFFFFFFFFFFFF else 0x403FFFFFFFFFFFFF)
      ∃ t, exec (.smCtlWrite c v) s = .next t ∧ (∀ r, ctlRd t r = if r = smReg c 0 then kept else ctlRd s r)
        ∧ coreOf t c = (if kept.getLsbD 63 then { coreOf s c with armed := (coreOf s c).clock.toNat, sampled := none } else coreOf s c)
        ∧ (∀ j, j ≠ c → coreOf t j = coreOf s j) ∧ { t with ctl := s.ctl, cores := s.cores } = s)
  ∧ (∀ (s : State) (c k : Nat) (w : Wave) (pc : W64) (lfi : W32), c < 128 → sampleDue s c = true → (∀ g ∈ s.gangs, g.2.windows = []) →
      let all := s.waves.filter (fun e => coreNo e.1 = c && (!(ctlBits s (smReg c 0) 62 1 = 1) || ctxOf s e.1 = ctlBits s (smReg c 0) 32 16))
      (all.find? (fun e => ctlBits s (smReg c 0) 48 6 ≤ e.1 % 64)).or all.head? = some (k, w) → w.issued = some (pc, lfi) →
      let log := ctlBits s (smReg c 8) 0 5
      let tail := ctlBits s (smReg c 0x10) 0 32
      let used := (tail + 2 ^ 32 - ctlBits s (smReg c 0x18) 0 32) % 2 ^ 32
      let a := ctlBits s (smReg c 8) 8 44 * 256 + 32 * (tail % 2 ^ log)
      let data := toBytesLE 4 w.launch ++ toBytesLE 4 w.wg ++ toBytesLE 4 lfi.toNat ++ [0x80] ++ toBytesLE 1 w.widx ++ toBytesLE 2 c ++ toBytesLE 8 pc.toNat
        ++ toBytesLE 8 (coreOf s c).clock.toNat
      let after := (ctlRd s (smReg c 0) &&& 0xFFC0FFFFFFFFFFFF) ||| BitVec.ofNat 64 ((k % 64 + 1) % 64 * 2 ^ 48)
      ∃ t, exec (.sample c) s = .next t ∧ coreOf t c = { coreOf s c with sampled := some (coreOf s c).clock.toNat } ∧ (∀ j, j ≠ c → coreOf t j = coreOf s j)
        ∧ { t with ctl := s.ctl, cores := s.cores, mem := s.mem, memPois := s.memPois } = s ∧ ctlRd t (smReg c 0) = after
        ∧ (3 ≤ log → log ≤ 20 → used < 2 ^ log → ctlRd t (smReg c 0x10) = BitVec.ofNat 64 ((tail + 1) % 2 ^ 32)
            ∧ (∀ r, r ≠ smReg c 0 → r ≠ smReg c 0x10 → ctlRd t r = ctlRd s r)
            ∧ (∀ j < 32, pByte t (a + j) = data.getD j 0) ∧ ∀ p, (∀ j < 32, p ≠ a + j) → pByte t p = pByte s p)
        ∧ ((log < 3 ∨ 20 < log ∨ 2 ^ log ≤ used) → ctlRd t (smReg c 0x20) = BitVec.ofNat 64 (min (2 ^ 32 - 1) (ctlBits s (smReg c 0x20) 0 32 + 1))
            ∧ (∀ r, r ≠ smReg c 0 → r ≠ smReg c 0x20 → ctlRd t r = ctlRd s r) ∧ t.mem = s.mem ∧ t.memPois = s.memPois))
  ∧ (∀ (s : State) (energy : Nat),
      exec (.energyIntervalEnd .loam energy) s = .next (ctlWr s 0x790010 (BitVec.ofNat 64 ((ctlRd s 0x790010).toNat + energy)))
      ∧ ∀ n, let ws := weightsOf s.dynW (128 + n)
        (skeys ws).Nodup → let total := (ws.map (·.2)).sum
        ∃ t, exec (.energyIntervalEnd (.cluster n) energy) s = .next t
          ∧ (∀ j, sget j t.launches = (sget j s.launches).map (fun l => { l with energy := l.energy + energy * sgetD 0 ws j / total }))
          ∧ (∀ r, ctlRd t r = if r = 0x790008 then
              BitVec.ofNat 64 ((ctlRd s r).toNat + (energy - (ws.map (fun x => energy * x.2 / total)).sum)) else ctlRd s r)
          ∧ (ws.map (fun x => energy * x.2 / total)).sum ≤ energy
          ∧ t.dynW = s.dynW.filter (fun e => e.1 / 2 ^ 32 != 128 + n)
          ∧ { t with launches := s.launches, ctl := s.ctl, idleW := s.idleW, dynW := s.dynW, meterClk := s.meterClk } = s)
  ∧ (∀ (s : State) (d : Nat) (e : DbgEvent) (rest : List DbgEvent), d < 4 → sget d s.dbgEvents = some (e :: rest) → (∀ g ∈ s.gangs, g.2.windows = []) →
      let log := ctlBits s (dbReg d 8) 0 5
      let tail := ctlBits s (dbReg d 0x10) 0 32
      let a := ctlBits s (dbReg d 8) 6 46 * 64 + 64 * (tail % 2 ^ log)
      4 ≤ log → log ≤ 12 → (tail + 2 ^ 32 - ctlBits s (dbReg d 0x18) 0 32) % 2 ^ 32 < 2 ^ log →
      ∃ t, exec (.debugEvent d) s = .next t ∧ sgetD [] t.dbgEvents d = rest ∧ (∀ j, j ≠ d → sget j t.dbgEvents = sget j s.dbgEvents)
        ∧ (∀ j < 64, pByte t (a + j) = e.message.getD j 0) ∧ (∀ p, (∀ j < 64, p ≠ a + j) → pByte t p = pByte s p)
        ∧ (∀ r, ctlRd t r = if r = dbReg d 0x10 then BitVec.ofNat 64 ((tail + 1) % 2 ^ 32) else ctlRd s r)
        ∧ { t with dbgEvents := s.dbgEvents, mem := s.mem, memPois := s.memPois, ctl := s.ctl } = s)
  ∧ (∀ (s : State) (d : Nat) (v : W64), (sget d s.dbBusy).isSome = true →
      ∀ i ∈ ([.dbResume d v, .dbDump d v, .dbStop d v] : List Instr), exec i s = .next s)
  ∧ ∀ (s : State) (d k x : Nat) (v : W64) (w : Wave) (y : Fibre) (l : Launch), d < 4 → v.getLsbD 63 = true → debugSlot s (ctlBits s (dbReg d 0) 32 16) = some d →
      sget d s.dbBusy = none →
      namedFibre s d = some { gang := none, wk := k, slot := x } → sget k s.waves = some w → sget x w.fibres = some y → sget w.launch s.launches = some l →
      let becomes (i : Instr) (f : Fibre) : Prop := ∃ t u, exec i s = .next t ∧ OnlyWave { s with ctl := t.ctl } t k u ∧ sget x u.fibres = some f
        ∧ (∀ j, j ≠ x → sget j u.fibres = sget j w.fibres) ∧ { u with fibres := w.fibres } = w
        ∧ ∀ r, ctlRd t r = if r = dbReg d 0x60 then v &&& 0x7000000000000000 else if r = dbReg d 0x78 then 0 else ctlRd s r
      let waits (i : Instr) (f : Fibre) : Prop := ∃ t u, exec i s = .next t ∧ OnlyWave { s with ctl := t.ctl, dbBusy := t.dbBusy } t k u ∧ sget x u.fibres = some f
        ∧ (∀ j, j ≠ x → sget j u.fibres = sget j w.fibres) ∧ { u with fibres := w.fibres } = w ∧ t.dbBusy = sput d (w.launch, w.wg, y.lfi) s.dbBusy
        ∧ ∀ r, ctlRd t r = if r = dbReg d 0x60 then v &&& 0xF000000000000000 else ctlRd s r
      (bits v.toNat 60 3 = 1 → y.blocked = some .stopped → y.resumed = none →
          (ctlBits s (dbReg d 0x70) 32 2 = 0 → becomes (.dbResume d v) { y with blocked := none, waive := true })
          ∧ ∀ p, ctlBits s (dbReg d 0x70) 32 2 = 1 → y.base = some p →
            becomes (.dbResume d v) { y.advance p y.pc (longAt s k y.pc) with blocked := none })
      ∧ (bits v.toNat 60 3 = 2 → y.blocked = none → w.park = none → dumpAddr s d + 64 + fibreSize l ≤ memEnd → waits (.dbDump d v) { y with dumpAt := some (dumpAddr s d) })
      ∧ (bits v.toNat 60 3 = 3 → waits (.dbStop d v) { y with stopAt := true })

/-- Accesses to memory from outside the cores (R307, R319, R466, R481, R482): the host through bound slots of BAR4, where an unbound slot reads as ones and discards writes; peers, unless they are
fenced; Loam cores, whose loads and stores of device control space act on its registers. An access past the end of memory stops by name. These are accesses that no engine's
line holds up; one that reaches an owned line waits, and the later ones of its agent wait behind it (R297, log 41). What a No Snoop read of the host sees of a byte that no `cflush` has
written is a free value (log 41). -/
def Obligations.OutsideAccesses : Prop :=
  (∀ (s : State), (∀ g ∈ s.gangs, g.2.windows = []) → s.outer = [] → Quiet s → (∀ pas, memOwned s none pas = false) →
    let tailFree (a n : Nat) : Prop := ∀ c ∈ s.contexts, ∀ p, a ≤ p → p < a + n → ¬(c.2.recPa + 0x2C ≤ p ∧ p < c.2.recPa + 0x30)
    let takes (t : State) (a : Nat) (data : List Byte) : Prop := (∀ j < data.length, pByte t (a + j) = data.getD j 0)
      ∧ (∀ p, (∀ j < data.length, p ≠ a + j) → pByte t p = pByte s p) ∧ { t with mem := s.mem, memPois := s.memPois } = s
    let there (a n : Nat) : List Byte := (addrs a n).map (pByte s)
    let bad (a n : Nat) : Bool := poisonedAt s (addrs a n)
    (∀ addr len base, addr % 2 ^ 30 + len ≤ 2 ^ 30 →
        (sget (addr / 2 ^ 30) s.bar4 = some base → base + addr % 2 ^ 30 + len ≤ memEnd → let a := base + addr % 2 ^ 30
          exec (.hostBar4Read { offset := addr, noSnoop := false } len) s = .next { s with out := s.out ++ [.hostData (there a len) (bad a len)] }
          ∧ (let seen := (addrs a len).map (fun p => match sget (p / 128) s.flushed with
              | some l => l.getD (p % 128) (0, false)
              | none => (Config.unflushed s.noSnoops p, false))
            exec (.hostBar4Read { offset := addr, noSnoop := true } len) s
              = .next { s with noSnoops := s.noSnoops + 1, out := s.out ++ [.hostData (seen.map (·.1)) (seen.any (·.2))] })
          ∧ ∀ data : List Byte, data.length = len → tailFree a len → ∃ t, exec (.hostBar4Write addr data) s = .next t ∧ takes t a data)
        ∧ (sget (addr / 2 ^ 30) s.bar4 = none →
          exec (.hostBar4Read { offset := addr, noSnoop := false } len) s = .next { s with out := s.out ++ [.hostData (List.replicate len 0xFF) false] }
          ∧ ∀ data : List Byte, data.length = len → exec (.hostBar4Write addr data) s = .next s))
    ∧ (∀ peer pa len, s.phase = .running → peer ∉ s.peers.fenced →
        (pa + len ≤ memEnd → exec (.fabricRead peer pa len) s = .next { s with out := s.out ++ [.fabricData peer (there pa len) (bad pa len)] })
        ∧ (memEnd < pa + len → exec (.fabricRead peer pa len) s = .fault .reservedAddress)
        ∧ (∀ data : List Byte, pa + data.length ≤ memEnd → tailFree pa data.length → ∃ t, exec (.fabricWrite peer pa data) s = .next t ∧ takes t pa data)
        ∧ ∀ op ty x y, let n := tyWidth ty / 8
          pa + n ≤ memEnd → bad pa n = false → ∃ t, exec (.fabricAtomic peer pa op ty x y) s = .next { t with out := s.out ++ [.fabricData peer (there pa n) false] }
            ∧ takes t pa (toBytesLE n (atomGroup op ty (BitVec.ofNat 64 (fromBytesLE (there pa n))) [(x, y)]).1.toNat))
    ∧ (∀ peer pa len data op ty x y, peer ∈ s.peers.fenced → exec (.fabricRead peer pa len) s = .next s ∧ exec (.fabricWrite peer pa data) s = .next s
        ∧ exec (.fabricAtomic peer pa op ty x y) s = .next s)
    ∧ (∀ k pa len, pa + len ≤ memEnd →
        exec (.loamMemoryAccess k (.load pa len)) s = .next { s with out := s.out ++ [.loamData k (there pa len) (bad pa len)] }
        ∧ (∀ data : List Byte, data.length = len → tailFree pa len → ∃ t, exec (.loamMemoryAccess k (.store pa data)) s = .next t ∧ takes t pa data)
        ∧ (∀ op ty x y, len = tyWidth ty / 8 → bad pa len = false →
            ∃ t, exec (.loamMemoryAccess k (.amo pa op ty x y)) s = .next { t with out := s.out ++ [.loamData k (there pa len) false] }
              ∧ takes t pa (toBytesLE len (atomGroup op ty (BitVec.ofNat 64 (fromBytesLE (there pa len))) [(x, y)]).1.toNat))
        ∧ exec (.loamMemoryAccess k .fence) s = .next s)
    ∧ (∀ k pa len, memEnd < pa + len → pa < 0x8000000000000 → exec (.loamMemoryAccess k (.load pa len)) s = .fault .reservedAddress)
    ∧ ∀ (a : Nat) (v : W64), let w (off : Nat) (m : W64) : Prop := exec (.registerWrite (0x8000000000000 + off) v) s = .next (ctlWr s off (v &&& m))
      (a < 0x8000000000000 → exec (.registerWrite a v) s = .next s)
      ∧ w 0x720000 0xFFFF ∧ w 0x720048 0xFFFF ∧ w 0x720050 0xFFFF ∧ (∀ e < 8, w (0x720008 + 8 * e) 0xFFFFFFFF)
      ∧ w 0x740000 0x000FFFFFFFFFFFC0 ∧ w 0x740008 0xF1F ∧ w 0x740018 0xFFFFFFFF ∧ w 0x790000 0xFFFFFFFF
      ∧ (∀ k < 16, w (0x100000 + 0x1000 * k) 0x01FFFFFFFFFFF000)
      ∧ ∀ q < 64, exec (.registerWrite (0x8000000000000 + lqReg q 0x10) v) s = exec (.lqTailWrite q v) s)
  ∧ ∀ (s : State) (k pa len : Nat) (earlier : List Outer), sgetD [] s.outer k = earlier →
      (earlier = [] ∧ memOwned s none (addrs pa len) = true ∨ ∃ i rest, earlier = i :: rest ∧ memOwned s none (outerBytes s i) = true) →
      ∃ t, exec (.loamMemoryAccess k (.load pa len)) s = .next t ∧ { t with outer := s.outer } = s
        ∧ (∀ j, sgetD [] t.outer j = if j = k then earlier ++ [.loam k (.load pa len)] else sgetD [] s.outer j)

/-! ### Steps of agents: power, boot, the root-of-trust core, failures and peers (chapters 1, 2, 19 and 20) -/

/-- Power and boot (R1, R21, R468 to R475): boot runs the loader and the records through their checks, and starts Loam or goes to recovery; what is resident is lost, the flash stays. A member
takes verified offers, loads from the first, and offers the image on; the loss of a powered cluster is logged; records and logs are written for
the next boot. The logical clusters of a stack are its physical clusters without the inactive one, in ascending order.

What the root-of-trust core answers, in every phase with power (R474, R487, R488): the SPDM requests and the commands of the management function each answer one message, and change at most
the record or the log in flash. -/
def Obligations.BootAndRootOfTrust : Prop :=
  (∀ (s : State),
    let bare (t : State) (p : Phase) : Prop := t = { State.reset with phase := p, agenda := s.agenda, out := t.out, rtc := t.rtc, peers := t.peers }
    let flash (t : State) : Prop := t.rtc.config = s.rtc.config ∧ t.rtc.repairLog = s.rtc.repairLog ∧ t.rtc.seed = s.rtc.seed ∧ t.rtc.cert = s.rtc.cert
      ∧ t.rtc.loader = s.rtc.loader ∧ t.rtc.image = s.rtc.image
    (∃ t, exec .powerOff s = .next t ∧ bare t .off ∧ flash t ∧ t.rtc.meas = [] ∧ t.out = s.out)
    ∧ (∃ t, exec .powerOnReset s = .next t ∧ flash t
        ∧ (s.rtc.seed = none → bare t .recovery ∧ t.out = s.out ∧ t.rtc.meas = [(1, Config.bootRomDigest)])
        ∧ ∀ seed, s.rtc.seed = some seed →
          let loaderGood := Config.mldsaVerify Config.weahamKey s.rtc.loader s.rtc.loaderSig
          let recordGood := recordValid (Config.identityKey seed) s.rtc.config
          ((loaderGood = false ∨ recordGood = false ∨ repairMap s.rtc.config s.rtc.repairLog = none) → bare t .recovery ∧ t.out = s.out)
          ∧ (∀ m, loaderGood = true → recordGood = true → repairMap s.rtc.config s.rtc.repairLog = some m →
            t.rtc.repair = m ∧ sget 1 t.rtc.meas = some Config.bootRomDigest ∧ sget 2 t.rtc.meas = some (Config.sha3 s.rtc.loader)
            ∧ sget 3 t.rtc.meas = some (Config.sha3 s.rtc.config) ∧ sget 5 t.rtc.meas = some (Config.sha3 (logBytes s.rtc.repairLog))
            ∧ (roleOf s.rtc.config = 0 → bare t .loading ∧ t.out = s.out)
            ∧ (roleOf s.rtc.config ≠ 0 → imageGood s.rtc s.rtc.image s.rtc.imageSig = true → bare t .running ∧ sget 4 t.rtc.meas = some (Config.sha3 s.rtc.image))
            ∧ (roleOf s.rtc.config ≠ 0 → imageGood s.rtc s.rtc.image s.rtc.imageSig = false → bare t .recovery)))
    ∧ (s.phase ≠ .off → exec .deviceReset s = exec .powerOnReset s ∧ ∃ t, exec .deviceReset s = .next t ∧ flash t)
    ∧ (s.phase = .loading →
        (∀ o, s.peers.parent = none → s.peers.offers = [] → (ports s.peers).contains o.port = true → offerGood s o = true →
          exec (.imageOffer [o]) s = .next { s with peers := { s.peers with offers := [o], parent := some o.port } })
        ∧ (∀ o, offerGood s o = false → s.peers.parent ≠ none → exec (.imageOffer [o]) s = .next s)
        ∧ (∀ port o rest image, s.peers.parent = some port → s.peers.offers = o :: rest → Config.sha3 image = o.digest → image.length = o.length →
          ∃ t, exec (.imageLoadComplete image) s = .next t ∧ bare t .running ∧ sget 4 t.rtc.meas = some o.digest ∧ t.peers.imageAccepted = true
            ∧ t.out = s.out ++ ((ports s.peers).filter (fun p => p != port)).map (fun p => .offer p o.length o.digest o.sig))
        ∧ (∀ port o rest image, s.peers.parent = some port → s.peers.offers = o :: rest → (Config.sha3 image ≠ o.digest ∨ image.length ≠ o.length) →
          exec (.imageLoadComplete image) s = .next { s with peers := { s.peers with offers := rest, parent := rest.head?.map (·.port) } })
        ∧ ∃ t, exec .imageTimeout s = .next t ∧ bare t .recovery ∧ flash t ∧ t.out = s.out)
    ∧ (s.phase = .running →
        (∀ (i : Nat) (v : BitVec 16), i < 8 → s.rtc.repairLog.length ≤ 8 → ∃ t, exec (.repairLogWrite i v) s = .next t ∧ t.rtc.repairLog.length = 8
            ∧ (∀ j < 8, t.rtc.repairLog.getD j 0 = if j = i then v else s.rtc.repairLog.getD j 0)
            ∧ sget 5 t.rtc.meas = some (Config.sha3 (logBytes t.rtc.repairLog)) ∧ { t with rtc := s.rtc } = s)
        ∧ (∀ stack, stack < 4 → s.rtc.repair.getD stack 8 ≤ 8 → exec (.clusterFailure stack (s.rtc.repair.getD stack 8)) s = .next s)
        ∧ ∀ stack cluster, stack < 4 → cluster < 9 → s.rtc.repair.getD stack 8 ≤ 8 → cluster ≠ s.rtc.repair.getD stack 8 → s.rtc.repairLog.length ≤ 8 →
          (∃ j < 8, (s.rtc.repairLog.getD j 0).getLsbD 15 = false) →
          ∃ t, exec (.clusterFailure stack cluster) s = .next t ∧ bare t .failed ∧ t.out = s.out
            ∧ BitVec.ofNat 16 (2 ^ 15 + stack * 16 + cluster) ∈ t.rtc.repairLog))
  ∧ (∀ (repair : List Nat) (stack : Nat), stack < 4 → repair.getD stack 8 ≤ 8 →
      (∀ i j, i < j → j < 8 → physicalCluster repair (8 * stack + i) < physicalCluster repair (8 * stack + j))
      ∧ ∀ i < 8, physicalCluster repair (8 * stack + i) < 9 ∧ physicalCluster repair (8 * stack + i) ≠ repair.getD stack 8)
  ∧ (∀ (s : State), s.phase ≠ .off →
    let gives (i : Instr) (o : Out) : Prop := exec i s = .next { s with out := s.out ++ [o] }
    let tells (i : Instr) (n : Nat) (d : List Byte) : Prop := gives i (.spdm (Config.spdmMessage n d))
    let manages (i : Instr) (n : Nat) (d : List Byte) : Prop := gives i (.management (Config.managementMessage n d))
    tells .getVersion 0 [] ∧ tells .getCapabilities 1 [] ∧ tells (.negotiateAlgorithms true true) 2 []
    ∧ (∀ a b, (a && b) = false → gives (.negotiateAlgorithms a b) .spdmError)
    ∧ (∀ seed, s.rtc.seed = some seed → tells .getDigests 3 (Config.sha3 s.rtc.cert)
        ∧ (∀ off len, tells (.getCertificate off len) 4 ((s.rtc.cert.drop off).take len))
        ∧ (∀ nonce, tells (.challenge nonce) 5 (Config.mldsaSign seed (Config.spdmMessage 5 nonce))) ∧ manages .readIdentity 7 s.rtc.cert)
    ∧ (s.rtc.seed = none → gives .getDigests .spdmError ∧ (∀ off len, gives (.getCertificate off len) .spdmError) ∧ (∀ nonce, gives (.challenge nonce) .spdmError)
        ∧ gives .readIdentity .managementError)
    ∧ (∀ i, 1 ≤ i → i ≤ 5 → tells (.getMeasurements i) 6 (sgetD (List.replicate 32 0) s.rtc.meas i))
    ∧ (∀ i, i = 0 ∨ 5 < i → gives (.getMeasurements i) .spdmError)
    ∧ manages .readSensors 1 (((List.range 128).map (fun c => toBytesLE 2 ((coreOf s c).temp.getD 0))).flatten ++ toBytesLE 2 s.sensors.outlet
        ++ (s.sensors.rails.map (toBytesLE 4)).flatten)
    ∧ manages .readErrorCounters 2 (((List.range 10).map (fun k => toBytesLE 8 (sgetD 0 s.sensors.corrected k))).flatten
        ++ ((List.range 17).map (fun k => toBytesLE 1 (sgetD 0 s.sensors.spared k))).flatten)
    ∧ manages .readRepairLog 3 (s.rtc.repairLog.map (fun e => toBytesLE 2 e.toNat)).flatten
    ∧ (∀ data : List Byte, data.length = 4096 → exec (.writeConfigurationRecord data) s
        = .next { s with rtc := { s.rtc with config := data }, out := s.out ++ [.management (Config.managementMessage 4 [])] })
    ∧ (∀ data : List Byte, data.length ≠ 4096 → gives (.writeConfigurationRecord data) .managementError)
    ∧ exec .clearRepairLog s = .next { s with rtc := { s.rtc with repairLog := s.rtc.repairLog.map (fun e => e &&& 0x7FFF) },
                                              out := s.out ++ [.management (Config.managementMessage 5 [])] })

/-- Failures and errors in stored state (R465 to R467, R484 to R486): a fault of a rail, of the input power or of the coolant fails the device; an uncorrectable error poisons what it hits, drops a
cached line, or fails the device for the tags of the LLC; the scrubber posts an event for each poisoned unit of a line; a spared lane is counted.

The peer group (R477, R478): a member sends heartbeats on every enabled port; a root's heartbeat is taken once for each serial and forwarded; eight that are missing fence a device; a member
that loses the root says so, and its messages are forwarded once. -/
def Obligations.FailuresAndPeers : Prop :=
  ((∀ (s : State) (i : Instr), s.phase = .running → (i = .inputOverpower ∨ i = .coolantOvertemp ∨ i = .uncorrectableError .llcTags ∨ ∃ r, i = .railFault r) →
      exec i s = .next { State.reset with phase := .failed, agenda := s.agenda, out := s.out, rtc := s.rtc, peers := s.peers })
  ∧ (∀ (s : State) (k x r : Nat) (w : Wave) (y : Fibre), sget k s.waves = some w → sget x w.fibres = some y →
      let fibre (i : Instr) (f : Fibre) : Prop := ∃ t u, exec i s = .next t ∧ OnlyWave s t k u ∧ sget x u.fibres = some f
        ∧ (∀ j, j ≠ x → sget j u.fibres = sget j w.fibres) ∧ { u with fibres := w.fibres } = w
      fibre (.uncorrectableError (.vreg k x r)) (y.setVp r (y.rv r) true)
      ∧ (∀ n, fibre (.uncorrectableError (.qreg k x r n)) (y.setQ r { y.rq r with pois := (y.rq r).pois ||| (1 <<< n) }))
      ∧ ∃ t u, exec (.uncorrectableError (.accum k r x)) s = .next t ∧ OnlyWave s t k u ∧ (u.acc r).pois = insertNat x (w.acc r).pois ∧ { u with accs := w.accs } = w)
  ∧ (∀ (s : State) (pa : Nat), pa < memEnd →
      (∀ i, (i = .uncorrectableError (.memory pa) ∨ i = .uncorrectableError (.llcData pa)) → exec i s = .next { s with memPois := insertNat (pa / 64) s.memPois })
      ∧ let a := pa - pa % 128
        let event (b : Nat) : List SupEvent := if s.memPois.contains (b / 64) then [{ SupEvent.zero s 0x06 with cause := 1, addr := BitVec.ofNat 64 b }] else []
        exec (.patrolScrub pa) s = .next { s with supEvents := s.supEvents ++ event a ++ event (a + 64) })
  ∧ (∀ (s : State) (port : Nat), (port < 17) → let n := sgetD 0 s.sensors.spared port + 1
      2 * n ≤ (if port < 16 then 4 else 16) →
      ∃ t, exec (.laneSpare port) s = .next t ∧ sgetD 0 t.sensors.spared port = n ∧ t.supEvents = s.supEvents ++ [{ SupEvent.zero s 0x06 with cause := 4, addr := 0 }]
        ∧ { t with sensors := s.sensors, supEvents := s.supEvents } = s)
  ∧ ∀ (s : State) (k : Nat), exec (.uncorrectableError (.operandBuffer k)) s = .next s
      ∧ ∃ t, exec (.uncorrectableError (.corrected k)) s = .next t ∧ sgetD 0 t.sensors.corrected k = sgetD 0 s.sensors.corrected k + 1 ∧ { t with sensors := s.sensors } = s)
  ∧ (∀ (s : State), s.phase = .running →
    let p := s.peers
    let only (t : State) (q : Peers) (o : List Out) : Prop := t = { s with peers := q, out := s.out ++ o }
    let serves := p.role == 1 || p.acting
    (p.role ≠ 2 →
        let q := { p with missing := p.missing.map (fun m => (m.1, m.2 + 1)), rootMissing := if serves then 0 else p.rootMissing + 1
                          serial := if serves then p.serial + 1 else p.serial }
        ∃ t, exec .heartbeatSend s = .next t ∧ only t q ((ports p).map (fun k => .heartbeat k (if serves then q.serial else 0) (if serves then p.count else 0))))
    ∧ (∀ port peer root serial count, peer ∉ p.fenced →
        let q := { p with missing := sput peer 0 p.missing }
        (root = false ∨ p.lastSerial = serial ∨ serves = true → ∃ t, exec (.heartbeatReceive port peer root serial count) s = .next t ∧ only t q [])
        ∧ (root = true → p.lastSerial ≠ serial → serves = false → ∃ t, exec (.heartbeatReceive port peer root serial count) s = .next t
          ∧ only t { q with lastSerial := serial, count := count, rootMissing := 0, selfLoss := false, lossFrom := [] }
            (((ports p).filter (fun k => k != port)).map (fun k => .heartbeat k serial count))))
    ∧ (∀ peer, (∀ e ∈ s.ops, ∀ c, e.2.kind ≠ .coll c) → (p.role = 2 ∨ peer ≠ p.peerId ∨ (p.role = 1 ∧ peer ≠ 0)) →
        (∃ t, exec (.fenceCommand peer) s = .next t ∧ only t { p with fenced := insertNat peer p.fenced } [])
        ∧ (serves = true → 8 ≤ sgetD 0 p.missing peer → peer ∉ p.fenced →
          ∃ t, exec (.heartbeatLoss peer) s = .next t ∧ only t { p with fenced := insertNat peer p.fenced } [.fence peer])
        ∧ (sgetD 0 p.missing peer < 8 → exec (.heartbeatLoss peer) s = .next s))
    ∧ (p.role = 0 → p.acting = false → p.selfLoss = false → 8 ≤ p.rootMissing → 2 * (insertNat p.peerId p.lossFrom).length ≤ p.count - 1 →
        ∃ t, exec .rootLoss s = .next t ∧ only t { p with selfLoss := true } ((ports p).map (fun k => .rootLoss k p.peerId)))
    ∧ (∀ port peer, p.role = 0 → p.selfLoss = false → peer ∉ p.fenced → peer ∉ p.lossFrom → peer ≠ p.peerId →
        ∃ t, exec (.rootLossMessage port peer) s = .next t ∧ only t { p with lossFrom := insertNat peer p.lossFrom }
          (((ports p).filter (fun k => k != port)).map (fun k => .rootLoss k peer))))

/-! ### Words, steps, and the whole machine -/

/-- Decoding the word of a well-formed instruction gives the instruction, with every operand at every value that its encoding admits (R79 to R99); so does the decoder on the eight bytes of memory
that hold the word (R5). -/
def Obligations.DecodeOfEncode : Prop :=
  ∀ i : Instr, i.WellFormed → decode (encode i) = .instr i ∧ ∀ rest, decodeBytes (toBytesLE 8 (encode i).toNat ++ rest) = some (.instr i)

/-- The words that the manual's worked examples give (R79 to R97), with the fields that they spell out. -/
def Obligations.WordsOfTheExamples : Prop :=
  let g : Guard := { gp := 0, gs := 0 }
  decode 0x4400482008284003 = .instr (.shfl g { d := 9, a := 4, b := 1, c := 5, usrc := 0, ty := 8, rnd := 0, opx := 3 })
  ∧ decode 0x8000301880204021 = .instr (.ld g { data := 6, idx := 3, buf := 2, scope := 0, ord := 0, ty := 8, off := 16, cache := 0, mopx := 0x21 })
  ∧ decode 0xC0300007FFFFFFC0 = .instr (.bra { gp := 3, gs := 0 } { va := 0, vb := 0, disp := 0xFFFFFFF8, ctopx := 0 })
  ∧ decode 0xD200505A30000000 = .instr (.waitPh g { va := 10, vb := 11, pd := 4, scope := 3, cond := 0, syimm := 0, sub := 0 })
  ∧ decode 0xF400000140031000 = .instr (.upcall g { va := 0, vb := 0, ga := 20, code := 0x31, sysopx := 0 })
  ∧ decode 0xA20234500380C000 = .instr (.mma g { acc := 2, tile := 3, quad := 1, va := 20, gs := 0, aty := 0x0E, nslab := 3, mxopx := 0 })
  ∧ decode 0xB30094290FFF6000 = .instr (.cpymc g { trec := 2, gsa := 40, gba := 41, cmask := 0x0FFF, scope := 3, cpopx := 0 })
  ∧ decode 0xDF0000A000040008 = .instr (.tagnewTry g { qd := 0, qs := 0, va := 5, vb := 0, vc := 0, pd := 2, rtimm := 1, sub := 0 })
  ∧ decode 0xFFFFFFFFFFFFFFFF = .instr (.unassignedOpcode 0xFFFFFFFFFFFFFFFF)

/-- Opcodes 0xD4 to 0xD7 are never assigned, and their top six bits equal the clause signature: no instruction word passes the signature check of R72, and no header word decodes as an
instruction (R98). -/
def Obligations.HeadersAreNoInstructions : Prop :=
  (∀ w : W64, 0xD4 ≤ (w.extractLsb' 56 8).toNat ∧ (w.extractLsb' 56 8).toNat ≤ 0xD7 ↔ w.extractLsb' 58 6 = 0b110101)
  ∧ (∀ w : W64, 0xD4 ≤ (w.extractLsb' 56 8).toNat → (w.extractLsb' 56 8).toNat ≤ 0xD7 → decodeFields w = .unassignedOpcode w)
  ∧ (∀ i : Instr, i.WellFormed → (∀ w, i ≠ .unassignedOpcode w) → headerError (encode i) = some 1)
  ∧ ∀ h : W64, headerError h = none → decodeFields h = .unassignedOpcode h

/-- A step runs the decoded instruction: a running device with no step listed, no wave to prepare, and a wave that issues next, executes the instruction that the wave's clause holds at its next
place, which is the one that the decoder reads there (R341, R342); a listed step runs as it stands. -/
def Obligations.StepRunsTheInstruction : Prop :=
  ∀ s : State,
    (∀ k w c word i, s.agenda = [] → s.phase = .running → prepares s = none → nextWave s = some k → sget k s.waves = some w → w.clause = some c →
        c.words[c.idx]? = some word → decode word = .instr i → step s = exec i { s with cur := some k })
    ∧ (∀ i rest, s.agenda = i :: rest → s.phase = .running → step s = exec i { s with agenda := rest })
    ∧ (s.agenda = [] → s.phase = .running → prepares s = none → nextWave s = none → step s = agentStep s)
    ∧ (s.agenda = [] → s.phase ≠ .running → step s = .next s)

/-- An instruction that fails a check of R100 at issue traps as an illegal instruction, whatever its guard (R99 to R101): the fibre of the bundle stands at its handler, and its record says kind 2, the
check that failed, and the word. So does a word of no assigned opcode, with subkind 1. Without a started clause there is nothing to issue, and the step stops by name. -/
def Obligations.IllegalInstructionsTrap : Prop :=
  (∀ (s : State) (i : Instr) (g : Guard) (z : Site) (x : Nat) (y : Fibre) (sub : BitVec 16) (reach : List (Nat × Nat)),
      (form i).isSome = true ∨ (∃ w, i = .unassignedOpcode w) → s.cur = some z.wk → sget z.wk s.waves = some z.w → z.w.clause = some z.c →
      sget z.w.launch s.launches = some z.l → z.c.started = true → z.c.slots = [x] → x < 32 → sget x z.w.fibres = some y → z.f = (form i).getD { cls := 0 } →
      formError z.l i (bits z.c.header.toNat 16 4) (z.c.idx = z.c.words.length - 1) [] = some sub → Open s → CanTrap s z x y reach →
      let b : Bundle := { z.bundle g with act := [] }
      ∃ t, exec i s = .next t ∧ Trapped s t z b x y { kind := 2, sub := sub, syn0 := b.word.extractLsb' 0 32, syn1 := b.word.extractLsb' 32 32 } reach)
  ∧ (∀ (l : Launch) (w : W64) (cls : Nat) (last : Bool), formError l (.unassignedOpcode w) cls last [] = some 1)
  ∧ ∀ (s : State) (i : Instr), (form i).isSome = true ∨ (∃ w, i = .unassignedOpcode w) → s.cur = none → exec i s = .fault .noBundle

/-- Members of gangs (R401): gang k of a grid of NW workgroups holds those with linear indices gk to min(gk + g, NW) − 1, so that the last may hold fewer than g; the grid has ⌈NW ÷ g⌉ gangs; the
member index is the linear index less gk. -/
def Obligations.GangsOfAGrid : Prop :=
  ∀ (s : State) (n : Nat) (l : Launch), sget n s.launches = some l → 0 < l.gang →
    let nw := l.ngrp.foldl (· * ·) 1
    (∀ k, k < gangCount l ↔ l.gang * k < nw)
    ∧ (∀ wg < nw, gangKey s n wg = key2 n (wg / l.gang) ∧ wg / l.gang < gangCount l ∧ wg - l.gang * (wg / l.gang) < membersOf l (wg / l.gang))
    ∧ ∀ k, k < gangCount l → membersOf l k = min (l.gang * k + l.gang) nw - l.gang * k ∧ 0 < membersOf l k ∧ membersOf l k ≤ l.gang
        ∧ ∀ wg < nw, gangKey s n wg = key2 n k ↔ l.gang * k ≤ wg ∧ wg ≤ min (l.gang * k + l.gang) nw - 1

/-- Registers hard-wired and pairs (R36, R37, R40): p0 reads as 1 and is not written; the predicate word keeps its bit 0; a pair holds its low word in the register named; a write clears the poison of
what it writes, and leaves every other register. -/
def Obligations.RegistersReadAsWritten : Prop :=
  ∀ (y : Fibre) (w : Wave),
    (y.rp 0 = true ∧ (∀ b, y.setP 0 b = y) ∧ (∀ v, (y.setPreds v).pred.getLsbD 0 = true))
    ∧ (∀ (k j : BitVec 4) b, k ≠ 0 → (y.setP k b).rp j = if j = k then b else y.rp j)
    ∧ (∀ r v, (y.setV r v).rv r = v ∧ (y.setV r v).vp r = false ∧ ∀ j, j ≠ r → (y.setV r v).rv j = y.rv j ∧ (y.setV r v).vp j = y.vp j)
    ∧ (∀ r v, (y.setV2 r v).rv2 r = v ∧ (y.setV2 r v).rv r = v.extractLsb' 0 32 ∧ (y.setV2 r v).rv (r + 1) = v.extractLsb' 32 32)
    ∧ ∀ r v, (w.setG r v).rg r = v ∧ ∀ j, j ≠ r → (w.setG r v).rg j = w.rg j

/-- The device after reset (R23, R406, R473): memory holds zeros in its canonical form, nothing is resident, the clocks are 0, and the control registers hold their reset values, which R406 gives for
three of them. That the registers for which the manual gives no value hold 0, and that the machine starts where boot ends, is the model's choice (log entries 1 and 5). -/
def Obligations.ResetState : Prop :=
  let s := State.reset
  Memory.wf s.mem = true ∧ (∀ p, pByte s p = 0) ∧ (∀ l, poisonedAt s l = false)
  ∧ (∀ r, ctlRd s r = if r = 0x720000 then 28800 else if r = 0x720048 then 760 else if r = 0x720050 then 40 else 0)
  ∧ s.waves = [] ∧ s.gangs = [] ∧ s.launches = [] ∧ s.contexts = [] ∧ s.ops = [] ∧ s.mats = [] ∧ s.recQueues = [] ∧ s.oslots = []
  ∧ (∀ k, (coreOf s k).clock = 0 ∧ (coreOf s k).tlb = [] ∧ (coreOf s k).silt = []) ∧ s.ioClock = 0 ∧ s.nextLaunch = 1 ∧ s.phase = .running
  ∧ (∀ q, lqOperational s q = false)

/-- Every step keeps memory in its canonical form (R473): addresses rise strictly, and no byte that is 0 is listed. Equal memories are then equal data. -/
def Obligations.MemoryStaysCanonical : Prop :=
  ∀ s t : State, Memory.wf s.mem = true → step s = .next t → Memory.wf t.mem = true
end

