-- ==== Sys2Proof/Laws/Sparse.lean ====
section
/-! SUPPORT. What the operations on sparse maps do: reads after writes, and the order of the keys. -/

namespace Sys2Proof.Machine

/-! ### Reads after writes -/

@[simp] theorem sget_nil {α : Type} (k : Nat) : sget k ([] : Sparse α) = none := rfl

theorem sget_cons {α : Type} (k : Nat) (e : Nat × α) (m : Sparse α) :
    sget k (e :: m) = if e.1 = k then some e.2 else sget k m := rfl

@[simp] theorem sget_sput_self {α : Type} (k : Nat) (v : α) (m : Sparse α) : sget k (sput k v m) = some v := by
  induction m with
  | nil => simp [sput, sget]
  | cons e m ih =>
    unfold sput
    split
    · simp [sget]
    · split
      · simp [sget]
      · rename_i h; simp [sget, h, ih]

theorem sget_sput_ne {α : Type} {j k : Nat} (h : j ≠ k) (v : α) (m : Sparse α) : sget j (sput k v m) = sget j m := by
  induction m with
  | nil => simp [sput, sget, Ne.symm h]
  | cons e m ih =>
    unfold sput
    split
    · simp [sget, Ne.symm h]
    · split
      · rename_i h1; simp [sget, Ne.symm h, h1]
      · simp [sget, ih]

@[simp] theorem sget_sdel_self {α : Type} (k : Nat) (m : Sparse α) : sget k (sdel k m) = none := by
  induction m with
  | nil => rfl
  | cons e m ih =>
    by_cases h : e.1 = k
    · simpa [sdel, h] using ih
    · simpa [sdel, sget, h] using ih

theorem sget_sdel_ne {α : Type} {j k : Nat} (h : j ≠ k) (m : Sparse α) : sget j (sdel k m) = sget j m := by
  induction m with
  | nil => rfl
  | cons e m ih =>
    by_cases hk : e.1 = k
    · have hj : e.1 ≠ j := fun c => h (c.symm.trans hk)
      simp only [sget, hj, if_false]
      simpa [sdel, hk] using ih
    · have : sdel k (e :: m) = e :: sdel k m := by simp [sdel, hk]
      simp only [this, sget, ih]

@[simp] theorem sgetD_sputD_self {α : Type} [DecidableEq α] (d v : α) (k : Nat) (m : Sparse α) :
    sgetD d (sputD d k v m) k = v := by
  unfold sgetD sputD
  split <;> simp_all

theorem sgetD_sputD_ne {α : Type} [DecidableEq α] {j k : Nat} (h : j ≠ k) (c d v : α) (m : Sparse α) :
    sgetD c (sputD d k v m) j = sgetD c m j := by
  unfold sgetD sputD
  split <;> simp [sget_sdel_ne h, sget_sput_ne h]

@[simp] theorem sgetD_nil {α : Type} (d : α) (k : Nat) : sgetD d ([] : Sparse α) k = d := rfl

/-- A map over the values, each with its key. -/
theorem sget_map {α β : Type} (f : Nat → α → β) (k : Nat) (m : Sparse α) :
    sget k (m.map (fun e => (e.1, f e.1 e.2))) = (sget k m).map (f k) := by
  induction m with
  | nil => rfl
  | cons e m ih =>
    simp only [List.map_cons, sget]
    split
    · rename_i h; subst h; rfl
    · exact ih

theorem sget_smod {α : Type} (j k : Nat) (f : α → α) (m : Sparse α) :
    sget j (smod k f m) = if j = k then (sget j m).map f else sget j m := by
  have e : smod k f m = m.map (fun e => (e.1, (fun i a => if i = k then f a else a) e.1 e.2)) := by
    unfold smod
    apply List.map_congr_left
    intro a _
    by_cases hk : a.1 = k <;> simp [hk]
  rw [e]
  have := sget_map (fun i a => if i = k then f a else a) j m
  rw [this]
  split
  · rename_i h; subst h; simp
  · rename_i h; simp

@[simp] theorem sget_smod_self {α : Type} (k : Nat) (f : α → α) (m : Sparse α) :
    sget k (smod k f m) = (sget k m).map f := by simp [sget_smod]

theorem sget_smod_ne {α : Type} {j k : Nat} (h : j ≠ k) (f : α → α) (m : Sparse α) :
    sget j (smod k f m) = sget j m := by simp [sget_smod, h]

theorem skeys_smod {α : Type} (k : Nat) (f : α → α) (m : Sparse α) : skeys (smod k f m) = skeys m := by
  unfold skeys smod
  rw [List.map_map]
  apply List.map_congr_left
  intro a _
  by_cases h : a.1 = k <;> simp [h]

theorem smod_id {α : Type} (k : Nat) (f : α → α) (h : ∀ a, f a = a) (m : Sparse α) : smod k f m = m := by
  unfold smod
  conv => rhs; rw [← List.map_id m]
  apply List.map_congr_left
  intro a _
  by_cases hk : a.1 = k <;> simp [hk, h]
  rw [← hk]

theorem smod_smod {α : Type} (k : Nat) (f g : α → α) (m : Sparse α) :
    smod k f (smod k g m) = smod k (fun a => f (g a)) m := by
  unfold smod
  rw [List.map_map]
  apply List.map_congr_left
  intro a _
  by_cases h : a.1 = k <;> simp [h]

/-! ### Rising keys -/

/-- Every key of a map is above a bound. -/
def above {α : Type} (b : Nat) (m : Sparse α) : Prop := ∀ e ∈ m, b < e.1

theorem sorted_cons {α : Type} (a : Nat × α) (m : Sparse α) :
    sorted (a :: m) = true ↔ above a.1 m ∧ sorted m = true := by
  induction m generalizing a with
  | nil => simp [sorted, above]
  | cons b m ih =>
    simp only [sorted, Bool.and_eq_true, decide_eq_true_eq]
    constructor
    · rintro ⟨hab, hm⟩
      refine ⟨?_, hm⟩
      intro e he
      rcases List.mem_cons.1 he with h | h
      · rw [h]; exact hab
      · exact Nat.lt_trans hab (((ih b).1 hm).1 e h)
    · rintro ⟨h, hm⟩
      exact ⟨h b (by simp), hm⟩

theorem above_sput {α : Type} {b k : Nat} (h : b < k) (v : α) {m : Sparse α} (hm : above b m) : above b (sput k v m) := by
  induction m with
  | nil => intro e he; simp [sput] at he; simp [he, h]
  | cons a m ih =>
    have ha : b < a.1 := hm a (by simp)
    have hm' : above b m := fun e he => hm e (by simp [he])
    unfold sput
    split
    · intro e he
      rcases List.mem_cons.1 he with h1 | h1
      · simp [h1, h]
      · exact hm e h1
    · split
      · intro e he
        rcases List.mem_cons.1 he with h1 | h1
        · simp [h1, h]
        · exact hm' e h1
      · intro e he
        rcases List.mem_cons.1 he with h1 | h1
        · simp [h1, ha]
        · exact ih hm' e h1

theorem sorted_sput {α : Type} (k : Nat) (v : α) {m : Sparse α} (h : sorted m = true) : sorted (sput k v m) = true := by
  induction m with
  | nil => simp [sput, sorted]
  | cons a m ih =>
    have hs := (sorted_cons a m).1 h
    unfold sput
    split
    · rename_i hk
      refine (sorted_cons _ _).2 ⟨?_, h⟩
      intro e he
      rcases List.mem_cons.1 he with h1 | h1
      · rw [h1]; exact hk
      · exact Nat.lt_trans hk (hs.1 e h1)
    · split
      · rename_i hk
        refine (sorted_cons _ _).2 ⟨?_, hs.2⟩
        intro e he; simpa [hk] using hs.1 e he
      · rename_i h1 h2
        exact (sorted_cons _ _).2 ⟨above_sput (by omega) v hs.1, ih hs.2⟩

theorem sorted_filter {α : Type} (p : Nat × α → Bool) {m : Sparse α} (h : sorted m = true) : sorted (m.filter p) = true := by
  induction m with
  | nil => rfl
  | cons a m ih =>
    have hs := (sorted_cons a m).1 h
    by_cases hp : p a
    · rw [List.filter_cons_of_pos hp]
      exact (sorted_cons _ _).2 ⟨fun e he => hs.1 e (List.mem_filter.1 he).1, ih hs.2⟩
    · rw [List.filter_cons_of_neg hp]
      exact ih hs.2

theorem sorted_sdel {α : Type} (k : Nat) {m : Sparse α} (h : sorted m = true) : sorted (sdel k m) = true :=
  sorted_filter _ h

theorem mem_sput {α : Type} {k : Nat} {v : α} {m : Sparse α} {e : Nat × α} (h : e ∈ sput k v m) : e = (k, v) ∨ e ∈ m := by
  induction m with
  | nil => simpa [sput] using h
  | cons a m ih =>
    unfold sput at h
    split at h
    · simpa using h
    · split at h
      · rcases List.mem_cons.1 h with h | h
        · exact .inl h
        · exact .inr (by simp [h])
      · rcases List.mem_cons.1 h with h | h
        · exact .inr (by simp [h])
        · rcases ih h with h | h
          · exact .inl h
          · exact .inr (by simp [h])

/-! ### The canonical form of memory -/

/-- Writing a byte keeps the canonical form; the byte that an unlisted address reads as is 0. -/
theorem Memory.wf_sputD (a : Nat) (b : Byte) {m : List Host.Cell} (h : Memory.wf m = true) :
    Memory.wf (sputD (0 : Byte) a b m) = true := by
  simp only [Memory.wf, Bool.and_eq_true, List.all_eq_true] at h ⊢
  unfold sputD
  split
  · exact ⟨sorted_sdel a h.1, fun e he => h.2 e (List.mem_filter.1 he).1⟩
  · rename_i hb
    refine ⟨sorted_sput a b h.1, fun e he => ?_⟩
    rcases mem_sput he with h1 | h1
    · rw [h1]; simpa using hb
    · exact h.2 e h1

theorem Memory.wf_filter (p : Host.Cell → Bool) {m : List Host.Cell} (h : Memory.wf m = true) : Memory.wf (m.filter p) = true := by
  simp only [Memory.wf, Bool.and_eq_true, List.all_eq_true] at h ⊢
  exact ⟨sorted_filter p h.1, fun e he => h.2 e (List.mem_filter.1 he).1⟩

end Sys2Proof.Machine
end

