-- ==== Sys2Proof/Laws/Memory.lean ====
section
/-! SUPPORT. Physical memory: reads after writes, and that every memory operation keeps the canonical form. -/

namespace Sys2Proof.Machine

/-! ### Reads after writes -/

@[simp] theorem pByte_pPut_self (s : State) (a : Nat) (b : Byte) : pByte (pPut s a b) a = b := by simp [pByte, pPut]

theorem pByte_pPut_ne {a c : Nat} (h : c ≠ a) (s : State) (b : Byte) : pByte (pPut s a b) c = pByte s c := by
  simp [pByte, pPut, sgetD_sputD_ne h]

theorem pByte_pPuts_below {a c : Nat} (h : c < a) (s : State) (bs : List Byte) : pByte (pPuts s a bs) c = pByte s c := by
  induction bs generalizing s a with
  | nil => rfl
  | cons b bs ih => rw [pPuts, ih (by omega), pByte_pPut_ne (by omega)]

theorem pByte_pPuts_outside {a c : Nat} (s : State) (bs : List Byte) (h : c < a ∨ a + bs.length ≤ c) :
    pByte (pPuts s a bs) c = pByte s c := by
  induction bs generalizing s a with
  | nil => rfl
  | cons b bs ih =>
    simp only [List.length_cons] at h
    rw [pPuts, ih _ (by omega), pByte_pPut_ne (by omega)]

theorem pByte_pPuts_inside {a : Nat} (s : State) (bs : List Byte) (k : Nat) (h : k < bs.length) :
    pByte (pPuts s a bs) (a + k) = bs[k] := by
  induction bs generalizing s a k with
  | nil => simp at h
  | cons b bs ih =>
    cases k with
    | zero => simp only [pPuts, Nat.add_zero]; rw [pByte_pPuts_below (by omega)]; simp
    | succ k =>
      have := ih (a := a + 1) (pPut s a b) k (by simpa using h)
      simpa [pPuts, Nat.add_assoc, Nat.add_comm 1 k] using this

/-- A list of writes leaves every byte that it does not name. -/
theorem pByte_foldl_other (cells : List Host.Cell) (s : State) (a : Nat) (h : ∀ c ∈ cells, c.1 ≠ a) :
    pByte (cells.foldl (fun s c => pPut s c.1 c.2) s) a = pByte s a := by
  induction cells generalizing s with
  | nil => rfl
  | cons c cells ih =>
    rw [List.foldl_cons, ih _ (fun d hd => h d (by simp [hd])), pByte_pPut_ne (Ne.symm (h c (by simp)))]

/-! ### What memory operations keep

A property of states that changes of memory, its poison, gangs, cores, contexts and reports keep is kept by every memory operation. -/

/-- A property that the parts of the state which memory operations change do not decide, or that each change keeps. -/
structure Kept (P : State → Prop) : Prop where
  put : ∀ {s a b}, P s → P (pPut s a b)
  pois : ∀ {s} p, P s → P { s with memPois := p }
  gangs : ∀ {s} g, P s → P { s with gangs := g }
  cores : ∀ {s} c, P s → P { s with cores := c }
  contexts : ∀ {s} c, P s → P { s with contexts := c }
  reports : ∀ {s} r, P s → P { s with reports := r }

variable {P : State → Prop} (k : Kept P)
include k

omit k in
/-- The state of an answer that is known. -/
theorem kept_of_eq {α : Type} {p : State × α} {s : State} {a : α} (e : p = (s, a)) (h : P p.1) : P s := by
  rw [e] at h
  exact h

omit k in
theorem kept_fst {α : Type} {s : State} {a : α} (h : P s) : P (s, a).1 := h

omit k in
/-- A fold keeps a property if each of its steps does. -/
theorem kept_foldl {α : Type} {f : State → α → State} (h : ∀ s a, P s → P (f s a)) (l : List α) {s : State} (hs : P s) :
    P (l.foldl f s) := by
  induction l generalizing s with
  | nil => exact hs
  | cons a l ih => exact ih (h s a hs)

omit k in
/-- A fold over something that holds a state. -/
theorem kept_foldl_of {α β : Type} (p : β → State) {f : β → α → β} (h : ∀ b a, P (p b) → P (p (f b a))) (l : List α) {b : β}
    (hs : P (p b)) : P (p (l.foldl f b)) := by
  induction l generalizing b with
  | nil => exact hs
  | cons a l ih => exact ih (h b a hs)

theorem pPut_kept {s : State} {a : Nat} {b : Byte} (h : P s) : P (pPut s a b) := k.put h

theorem pPuts_kept {s : State} {a : Nat} {bs : List Byte} (h : P s) : P (pPuts s a bs) := by
  induction bs generalizing s a with
  | nil => exact h
  | cons b bs ih => exact ih (pPut_kept k h)

theorem putLine_kept {s : State} {pa : Nat} {g : Gang} {w : Window} {n : Nat} (h : P s) : P (putLine s pa g w n) :=
  k.pois _ (pPuts_kept k (a := pa) (bs := winBytes g w n) h)

theorem snoopWin_kept {s : State} {gk wn line : Nat} {drop : Bool} (h : P s) : P (snoopWin s gk wn line drop) := by
  simp only [snoopWin]
  split
  · exact h
  · split
    · exact h
    · split
      · exact h
      · exact k.gangs _ (kept_foldl (fun _ _ hs => putLine_kept k hs) _ h)

theorem snoopLine_kept {s : State} {line : Nat} {drop : Bool} (h : P s) : P (snoopLine s line drop) := by
  simp only [snoopLine]
  exact kept_foldl (fun _ _ hs => kept_foldl (fun _ _ ht => snoopWin_kept k ht) _ hs) _ h

theorem snoop_kept {s : State} {pas : List Nat} {drop : Bool} (h : P s) : P (snoop s pas drop) := by
  simp only [snoop]
  exact kept_foldl (fun _ _ hs => snoopLine_kept k hs) _ h

theorem readBytes_kept {s : State} {pas : List Nat} (h : P s) : P (readBytes s pas).1 := by
  simp only [readBytes]
  exact snoop_kept k h

theorem writeBytes_kept {s : State} {cells : List Host.Cell} {p : Bool} (h : P s) : P (writeBytes s cells p) := by
  have h1 := kept_foldl (f := fun s (c : Host.Cell) => pPut s c.1 c.2) (fun _ _ hs => pPut_kept k hs) cells
    (snoop_kept k (pas := cells.map (·.1)) (drop := true) h)
  simp only [writeBytes]
  exact k.pois _ h1

theorem wr_kept {s : State} {pa n x : Nat} (h : P s) : P (wr s pa n x) := by
  simp only [wr]
  exact writeBytes_kept k h

theorem ctxWr_kept {s : State} {ctx off n x : Nat} (h : P s) : P (ctxWr s ctx off n x) := by
  simp only [ctxWr]
  split
  · exact wr_kept k h
  · exact h

theorem modCore_kept {s : State} {c : Nat} {f : Core → Core} (h : P s) : P (modCore s c f) := k.cores _ h

theorem regionOf_kept {s : State} {core : Option Nat} {ctx rid : Nat} (h : P s) : P (regionOf s core ctx rid).1 := by
  simp only [regionOf]
  split
  · exact h
  · split
    · exact h
    · dsimp only
      exact modCore_kept k h

theorem report_kept {s : State} {ctx core src acc cause rid va : Nat} (h : P s) : P (report s ctx core src acc cause rid va) :=
  k.reports _ h

theorem reportMiss_kept {s : State} {ctx core src acc rid va : Nat} {m : Miss} (h : P s) : P (reportMiss s ctx core src acc rid va m) := by
  simp only [reportMiss]
  split
  · exact h
  · exact report_kept k h

theorem walkFor_kept {s : State} {core : Option Nat} {ctx va : Nat} {need : Need} (h : P s) : P (walkFor s core ctx va need).1 := by
  simp only [walkFor]
  split
  · exact h
  · split
    · exact h
    · split
      · exact h
      · dsimp only
        generalize (if need.writes = true then (128 : Nat) else 0) = x
        cases core
        · dsimp only
          split
          · exact h
          · exact wr_kept k h
        · dsimp only
          refine modCore_kept k ?_
          split
          · exact h
          · exact wr_kept k h

theorem translate_kept {s : State} {core : Option Nat} {ctx va : Nat} {need : Need} (h : P s) : P (translate s core ctx va need).1 := by
  simp only [translate]
  split
  · exact walkFor_kept k h
  · split
    · exact walkFor_kept k h
    · split
      · exact h
      · exact walkFor_kept k h

theorem noteOverrun_kept {s : State} {ctx pa : Nat} (h : P s) : P (noteOverrun s ctx pa) := by
  simp only [noteOverrun]
  split
  · split
    · exact h
    · exact report_kept k (k.contexts _ h)
  · exact h

theorem clearOverrun_kept {s : State} {ctx : Nat} (h : P s) : P (clearOverrun s ctx) := k.contexts _ h

theorem marlTake_kept {s : State} {ctx pa : Nat} {ag : Agent} {rid va : Nat} (h : P s) : P (marlTake s ctx pa ag rid va).1 := by
  simp only [marlTake]
  split
  · exact noteOverrun_kept k h
  · split
    · exact clearOverrun_kept k h
    · split
      · exact report_kept k (ctxWr_kept k (clearOverrun_kept k h))
      · exact ctxWr_kept k (clearOverrun_kept k h)

theorem marlGive_kept {s : State} {ctx pa frame : Nat} (h : P s) : P (marlGive s ctx pa frame) := by
  simp only [marlGive]
  split
  · refine report_kept k ?_
    split
    · exact noteOverrun_kept k h
    · exact clearOverrun_kept k h
  · exact ctxWr_kept k (wr_kept k (clearOverrun_kept k h))

theorem copyFrame_kept {s : State} {src dst : Nat} (h : P s) : P (copyFrame s src dst) := by
  have h1 (l : List Nat) (t : State) (ht : P t) : P (l.foldl (fun s i => pPut s (dst + i) (pByte s (src + i))) t) :=
    kept_foldl (fun _ _ hs => pPut_kept k hs) l ht
  unfold copyFrame
  exact k.pois _ (h1 _ _ (snoop_kept k (snoop_kept k h)))

theorem materialise_kept {s : State} {ctx vpn tag base : Nat} {ag : Agent} {rid va : Nat} (h : P s) : P (materialise s ctx vpn tag base ag rid va).1 := by
  have h1 := marlTake_kept k (ctx := ctx) (pa := base) (ag := ag) (rid := rid) (va := va) h
  rw [materialise]
  generalize marlTake s ctx base ag rid va = r at h1 ⊢
  generalize cellFind s ctx vpn tag = c
  obtain ⟨t, r⟩ := r
  rcases c with ⟨_, _⟩ | ⟨_ | a⟩
  · exact kept_fst (P := P) h
  · exact kept_fst (P := P) h
  · dsimp only
    split
    · exact h
    · cases r with
      | error m => exact kept_fst (P := P) h1
      | ok f => exact kept_fst (P := P) (wr_kept k (copyFrame_kept k h1))

theorem freeCell_kept {s : State} {ctx entry frame : Nat} (h : P s) : P (freeCell s ctx entry frame) := by
  simp only [freeCell]
  exact marlGive_kept k (wr_kept k h)

theorem writeBackCell_kept {s : State} {gk wn line : Nat} {drop : Bool} (h : P s) : P (writeBackCell s gk wn line drop).1 := by
  simp only [writeBackCell]
  split
  · exact h
  · split
    · exact h
    · split
      · exact h
      · split
        · exact k.gangs _ h
        · split
          · rename_i e
            exact reportMiss_kept k (kept_of_eq (P := P) e (walkFor_kept k h))
          · rename_i e
            have h1 := kept_of_eq (P := P) e (walkFor_kept k h)
            split
            · rename_i e2
              exact reportMiss_kept k (kept_of_eq (P := P) e2 (materialise_kept k h1))
            · rename_i e2
              refine k.gangs _ ?_
              exact putLine_kept k (kept_of_eq (P := P) e2 (materialise_kept k h1))

theorem snoopCell_kept {s : State} {ctx va tag : Nat} {drop : Bool} (h : P s) : P (snoopCell s ctx va tag drop).1 := by
  simp only [snoopCell]
  refine kept_foldl_of (fun (b : State × Except Miss Unit) => b.1) ?_ _ h
  intro b a hb
  split
  · exact hb
  · exact writeBackCell_kept k hb

theorem pageFrame_kept {s : State} {core : Option Nat} {ctx : Nat} {need : Need} {own : Bool} {tag : Nat} {ag : Agent} {rid va : Nat} (h : P s) :
    P (pageFrame s core ctx need own tag ag rid va).1 := by
  have h1 := translate_kept k (core := core) (ctx := ctx) (va := va) (need := need) h
  simp only [pageFrame]
  split
  · rename_i e; rw [e] at h1; exact h1
  · rename_i s1 pte pa e
    rw [e] at h1
    split
    · exact h1
    · have h2 := snoopCell_kept k (ctx := ctx) (va := va) (tag := tag) (drop := need.writes) h1
      split
      · rename_i e2; rw [e2] at h2; exact h2
      · rename_i s2 e2
        rw [e2] at h2
        split
        · exact materialise_kept k h2
        · split <;> exact h2

theorem physical_kept {s : State} {core : Option Nat} {ctx : Nat} {need : Need} {own : Bool} {tag : Nat} {ag : Agent} {rid : Nat} {vas : List Nat}
    (h : P s) : P (physical s core ctx need own tag ag rid vas).1 := by
  induction vas generalizing s with
  | nil => exact h
  | cons va rest ih =>
    have h1 := pageFrame_kept k (core := core) (ctx := ctx) (need := need) (own := own) (tag := tag) (ag := ag) (rid := rid)
      (va := va) h
    simp only [physical]
    split
    · rename_i e; rw [e] at h1; exact h1
    · rename_i s1 f e
      rw [e] at h1
      have h2 := ih h1
      split <;> (rename_i e2; rw [e2] at h2; exact h2)


omit k

/-! ### The canonical form and the rest of the state -/

/-- Memory operations keep the canonical form. -/
theorem wf_kept : Kept (fun s => Memory.wf s.mem = true) where
  put h := Memory.wf_sputD _ _ h
  pois _ h := h
  gangs _ h := h
  cores _ h := h
  contexts _ h := h
  reports _ h := h

/-- The state without the parts that memory operations change. -/
def State.apart (s : State) : State := { s with mem := [], memPois := [], gangs := [], cores := [], contexts := [], reports := [] }

/-- Memory operations leave the rest of the state. -/
theorem apart_kept (r : State) : Kept (fun s => s.apart = r) where
  put h := h
  pois _ h := h
  gangs _ h := h
  cores _ h := h
  contexts _ h := h
  reports _ h := h

end Sys2Proof.Machine
end

