-- ==== Sys2Proof/Laws/State.lean ====
section
/-! SUPPORT. Each field of the state after each of the updates by which the model changes it, and the registers of fibres
and waves after their writes. -/

namespace Sys2Proof.Machine

/-! ### `modWave` -/

@[simp] theorem modWave_phase (s : State) (k : Nat) (f : Wave → Wave) : (modWave s k f).phase = s.phase := rfl
@[simp] theorem modWave_agenda (s : State) (k : Nat) (f : Wave → Wave) : (modWave s k f).agenda = s.agenda := rfl
@[simp] theorem modWave_cur (s : State) (k : Nat) (f : Wave → Wave) : (modWave s k f).cur = s.cur := rfl
@[simp] theorem modWave_mem (s : State) (k : Nat) (f : Wave → Wave) : (modWave s k f).mem = s.mem := rfl
@[simp] theorem modWave_memPois (s : State) (k : Nat) (f : Wave → Wave) : (modWave s k f).memPois = s.memPois := rfl
@[simp] theorem modWave_ctl (s : State) (k : Nat) (f : Wave → Wave) : (modWave s k f).ctl = s.ctl := rfl
@[simp] theorem modWave_cores (s : State) (k : Nat) (f : Wave → Wave) : (modWave s k f).cores = s.cores := rfl
@[simp] theorem modWave_clusters (s : State) (k : Nat) (f : Wave → Wave) : (modWave s k f).clusters = s.clusters := rfl
@[simp] theorem modWave_waves (s : State) (k : Nat) (f : Wave → Wave) : (modWave s k f).waves = smod k f s.waves := rfl
@[simp] theorem modWave_wgs (s : State) (k : Nat) (f : Wave → Wave) : (modWave s k f).wgs = s.wgs := rfl
@[simp] theorem modWave_gangs (s : State) (k : Nat) (f : Wave → Wave) : (modWave s k f).gangs = s.gangs := rfl
@[simp] theorem modWave_launches (s : State) (k : Nat) (f : Wave → Wave) : (modWave s k f).launches = s.launches := rfl
@[simp] theorem modWave_contexts (s : State) (k : Nat) (f : Wave → Wave) : (modWave s k f).contexts = s.contexts := rfl
@[simp] theorem modWave_ops (s : State) (k : Nat) (f : Wave → Wave) : (modWave s k f).ops = s.ops := rfl
@[simp] theorem modWave_mats (s : State) (k : Nat) (f : Wave → Wave) : (modWave s k f).mats = s.mats := rfl
@[simp] theorem modWave_nextOp (s : State) (k : Nat) (f : Wave → Wave) : (modWave s k f).nextOp = s.nextOp := rfl
@[simp] theorem modWave_mcWins (s : State) (k : Nat) (f : Wave → Wave) : (modWave s k f).mcWins = s.mcWins := rfl
@[simp] theorem modWave_recQueues (s : State) (k : Nat) (f : Wave → Wave) : (modWave s k f).recQueues = s.recQueues := rfl
@[simp] theorem modWave_staging (s : State) (k : Nat) (f : Wave → Wave) : (modWave s k f).staging = s.staging := rfl
@[simp] theorem modWave_oslots (s : State) (k : Nat) (f : Wave → Wave) : (modWave s k f).oslots = s.oslots := rfl
@[simp] theorem modWave_roBusy (s : State) (k : Nat) (f : Wave → Wave) : (modWave s k f).roBusy = s.roBusy := rfl
@[simp] theorem modWave_txFence (s : State) (k : Nat) (f : Wave → Wave) : (modWave s k f).txFence = s.txFence := rfl
@[simp] theorem modWave_subPages (s : State) (k : Nat) (f : Wave → Wave) : (modWave s k f).subPages = s.subPages := rfl
@[simp] theorem modWave_bar4 (s : State) (k : Nat) (f : Wave → Wave) : (modWave s k f).bar4 = s.bar4 := rfl
@[simp] theorem modWave_reports (s : State) (k : Nat) (f : Wave → Wave) : (modWave s k f).reports = s.reports := rfl
@[simp] theorem modWave_repSeq (s : State) (k : Nat) (f : Wave → Wave) : (modWave s k f).repSeq = s.repSeq := rfl
@[simp] theorem modWave_supEvents (s : State) (k : Nat) (f : Wave → Wave) : (modWave s k f).supEvents = s.supEvents := rfl
@[simp] theorem modWave_dbgEvents (s : State) (k : Nat) (f : Wave → Wave) : (modWave s k f).dbgEvents = s.dbgEvents := rfl
@[simp] theorem modWave_dbBusy (s : State) (k : Nat) (f : Wave → Wave) : (modWave s k f).dbBusy = s.dbBusy := rfl
@[simp] theorem modWave_reqs (s : State) (k : Nat) (f : Wave → Wave) : (modWave s k f).reqs = s.reqs := rfl
@[simp] theorem modWave_nextReq (s : State) (k : Nat) (f : Wave → Wave) : (modWave s k f).nextReq = s.nextReq := rfl
@[simp] theorem modWave_nextLaunch (s : State) (k : Nat) (f : Wave → Wave) : (modWave s k f).nextLaunch = s.nextLaunch := rfl
@[simp] theorem modWave_acceptOrder (s : State) (k : Nat) (f : Wave → Wave) : (modWave s k f).acceptOrder = s.acceptOrder := rfl
@[simp] theorem modWave_queueRot (s : State) (k : Nat) (f : Wave → Wave) : (modWave s k f).queueRot = s.queueRot := rfl
@[simp] theorem modWave_queueWait (s : State) (k : Nat) (f : Wave → Wave) : (modWave s k f).queueWait = s.queueWait := rfl
@[simp] theorem modWave_ioClock (s : State) (k : Nat) (f : Wave → Wave) : (modWave s k f).ioClock = s.ioClock := rfl
@[simp] theorem modWave_migration (s : State) (k : Nat) (f : Wave → Wave) : (modWave s k f).migration = s.migration := rfl
@[simp] theorem modWave_invals (s : State) (k : Nat) (f : Wave → Wave) : (modWave s k f).invals = s.invals := rfl
@[simp] theorem modWave_outer (s : State) (k : Nat) (f : Wave → Wave) : (modWave s k f).outer = s.outer := rfl
@[simp] theorem modWave_flushed (s : State) (k : Nat) (f : Wave → Wave) : (modWave s k f).flushed = s.flushed := rfl
@[simp] theorem modWave_noSnoops (s : State) (k : Nat) (f : Wave → Wave) : (modWave s k f).noSnoops = s.noSnoops := rfl
@[simp] theorem modWave_idleW (s : State) (k : Nat) (f : Wave → Wave) : (modWave s k f).idleW = s.idleW := rfl
@[simp] theorem modWave_dynW (s : State) (k : Nat) (f : Wave → Wave) : (modWave s k f).dynW = s.dynW := rfl
@[simp] theorem modWave_meterClk (s : State) (k : Nat) (f : Wave → Wave) : (modWave s k f).meterClk = s.meterClk := rfl
@[simp] theorem modWave_uncore (s : State) (k : Nat) (f : Wave → Wave) : (modWave s k f).uncore = s.uncore := rfl
@[simp] theorem modWave_rtc (s : State) (k : Nat) (f : Wave → Wave) : (modWave s k f).rtc = s.rtc := rfl
@[simp] theorem modWave_peers (s : State) (k : Nat) (f : Wave → Wave) : (modWave s k f).peers = s.peers := rfl
@[simp] theorem modWave_sensors (s : State) (k : Nat) (f : Wave → Wave) : (modWave s k f).sensors = s.sensors := rfl
@[simp] theorem modWave_out (s : State) (k : Nat) (f : Wave → Wave) : (modWave s k f).out = s.out := rfl

/-! ### `modGang` -/

@[simp] theorem modGang_phase (s : State) (k : Nat) (f : Gang → Gang) : (modGang s k f).phase = s.phase := rfl
@[simp] theorem modGang_agenda (s : State) (k : Nat) (f : Gang → Gang) : (modGang s k f).agenda = s.agenda := rfl
@[simp] theorem modGang_cur (s : State) (k : Nat) (f : Gang → Gang) : (modGang s k f).cur = s.cur := rfl
@[simp] theorem modGang_mem (s : State) (k : Nat) (f : Gang → Gang) : (modGang s k f).mem = s.mem := rfl
@[simp] theorem modGang_memPois (s : State) (k : Nat) (f : Gang → Gang) : (modGang s k f).memPois = s.memPois := rfl
@[simp] theorem modGang_ctl (s : State) (k : Nat) (f : Gang → Gang) : (modGang s k f).ctl = s.ctl := rfl
@[simp] theorem modGang_cores (s : State) (k : Nat) (f : Gang → Gang) : (modGang s k f).cores = s.cores := rfl
@[simp] theorem modGang_clusters (s : State) (k : Nat) (f : Gang → Gang) : (modGang s k f).clusters = s.clusters := rfl
@[simp] theorem modGang_waves (s : State) (k : Nat) (f : Gang → Gang) : (modGang s k f).waves = s.waves := rfl
@[simp] theorem modGang_wgs (s : State) (k : Nat) (f : Gang → Gang) : (modGang s k f).wgs = s.wgs := rfl
@[simp] theorem modGang_gangs (s : State) (k : Nat) (f : Gang → Gang) : (modGang s k f).gangs = smod k f s.gangs := rfl
@[simp] theorem modGang_launches (s : State) (k : Nat) (f : Gang → Gang) : (modGang s k f).launches = s.launches := rfl
@[simp] theorem modGang_contexts (s : State) (k : Nat) (f : Gang → Gang) : (modGang s k f).contexts = s.contexts := rfl
@[simp] theorem modGang_ops (s : State) (k : Nat) (f : Gang → Gang) : (modGang s k f).ops = s.ops := rfl
@[simp] theorem modGang_mats (s : State) (k : Nat) (f : Gang → Gang) : (modGang s k f).mats = s.mats := rfl
@[simp] theorem modGang_nextOp (s : State) (k : Nat) (f : Gang → Gang) : (modGang s k f).nextOp = s.nextOp := rfl
@[simp] theorem modGang_mcWins (s : State) (k : Nat) (f : Gang → Gang) : (modGang s k f).mcWins = s.mcWins := rfl
@[simp] theorem modGang_recQueues (s : State) (k : Nat) (f : Gang → Gang) : (modGang s k f).recQueues = s.recQueues := rfl
@[simp] theorem modGang_staging (s : State) (k : Nat) (f : Gang → Gang) : (modGang s k f).staging = s.staging := rfl
@[simp] theorem modGang_oslots (s : State) (k : Nat) (f : Gang → Gang) : (modGang s k f).oslots = s.oslots := rfl
@[simp] theorem modGang_roBusy (s : State) (k : Nat) (f : Gang → Gang) : (modGang s k f).roBusy = s.roBusy := rfl
@[simp] theorem modGang_txFence (s : State) (k : Nat) (f : Gang → Gang) : (modGang s k f).txFence = s.txFence := rfl
@[simp] theorem modGang_subPages (s : State) (k : Nat) (f : Gang → Gang) : (modGang s k f).subPages = s.subPages := rfl
@[simp] theorem modGang_bar4 (s : State) (k : Nat) (f : Gang → Gang) : (modGang s k f).bar4 = s.bar4 := rfl
@[simp] theorem modGang_reports (s : State) (k : Nat) (f : Gang → Gang) : (modGang s k f).reports = s.reports := rfl
@[simp] theorem modGang_repSeq (s : State) (k : Nat) (f : Gang → Gang) : (modGang s k f).repSeq = s.repSeq := rfl
@[simp] theorem modGang_supEvents (s : State) (k : Nat) (f : Gang → Gang) : (modGang s k f).supEvents = s.supEvents := rfl
@[simp] theorem modGang_dbgEvents (s : State) (k : Nat) (f : Gang → Gang) : (modGang s k f).dbgEvents = s.dbgEvents := rfl
@[simp] theorem modGang_dbBusy (s : State) (k : Nat) (f : Gang → Gang) : (modGang s k f).dbBusy = s.dbBusy := rfl
@[simp] theorem modGang_reqs (s : State) (k : Nat) (f : Gang → Gang) : (modGang s k f).reqs = s.reqs := rfl
@[simp] theorem modGang_nextReq (s : State) (k : Nat) (f : Gang → Gang) : (modGang s k f).nextReq = s.nextReq := rfl
@[simp] theorem modGang_nextLaunch (s : State) (k : Nat) (f : Gang → Gang) : (modGang s k f).nextLaunch = s.nextLaunch := rfl
@[simp] theorem modGang_acceptOrder (s : State) (k : Nat) (f : Gang → Gang) : (modGang s k f).acceptOrder = s.acceptOrder := rfl
@[simp] theorem modGang_queueRot (s : State) (k : Nat) (f : Gang → Gang) : (modGang s k f).queueRot = s.queueRot := rfl
@[simp] theorem modGang_queueWait (s : State) (k : Nat) (f : Gang → Gang) : (modGang s k f).queueWait = s.queueWait := rfl
@[simp] theorem modGang_ioClock (s : State) (k : Nat) (f : Gang → Gang) : (modGang s k f).ioClock = s.ioClock := rfl
@[simp] theorem modGang_migration (s : State) (k : Nat) (f : Gang → Gang) : (modGang s k f).migration = s.migration := rfl
@[simp] theorem modGang_invals (s : State) (k : Nat) (f : Gang → Gang) : (modGang s k f).invals = s.invals := rfl
@[simp] theorem modGang_outer (s : State) (k : Nat) (f : Gang → Gang) : (modGang s k f).outer = s.outer := rfl
@[simp] theorem modGang_flushed (s : State) (k : Nat) (f : Gang → Gang) : (modGang s k f).flushed = s.flushed := rfl
@[simp] theorem modGang_noSnoops (s : State) (k : Nat) (f : Gang → Gang) : (modGang s k f).noSnoops = s.noSnoops := rfl
@[simp] theorem modGang_idleW (s : State) (k : Nat) (f : Gang → Gang) : (modGang s k f).idleW = s.idleW := rfl
@[simp] theorem modGang_dynW (s : State) (k : Nat) (f : Gang → Gang) : (modGang s k f).dynW = s.dynW := rfl
@[simp] theorem modGang_meterClk (s : State) (k : Nat) (f : Gang → Gang) : (modGang s k f).meterClk = s.meterClk := rfl
@[simp] theorem modGang_uncore (s : State) (k : Nat) (f : Gang → Gang) : (modGang s k f).uncore = s.uncore := rfl
@[simp] theorem modGang_rtc (s : State) (k : Nat) (f : Gang → Gang) : (modGang s k f).rtc = s.rtc := rfl
@[simp] theorem modGang_peers (s : State) (k : Nat) (f : Gang → Gang) : (modGang s k f).peers = s.peers := rfl
@[simp] theorem modGang_sensors (s : State) (k : Nat) (f : Gang → Gang) : (modGang s k f).sensors = s.sensors := rfl
@[simp] theorem modGang_out (s : State) (k : Nat) (f : Gang → Gang) : (modGang s k f).out = s.out := rfl

/-! ### `modLaunch` -/

@[simp] theorem modLaunch_phase (s : State) (k : Nat) (f : Launch → Launch) : (modLaunch s k f).phase = s.phase := rfl
@[simp] theorem modLaunch_agenda (s : State) (k : Nat) (f : Launch → Launch) : (modLaunch s k f).agenda = s.agenda := rfl
@[simp] theorem modLaunch_cur (s : State) (k : Nat) (f : Launch → Launch) : (modLaunch s k f).cur = s.cur := rfl
@[simp] theorem modLaunch_mem (s : State) (k : Nat) (f : Launch → Launch) : (modLaunch s k f).mem = s.mem := rfl
@[simp] theorem modLaunch_memPois (s : State) (k : Nat) (f : Launch → Launch) : (modLaunch s k f).memPois = s.memPois := rfl
@[simp] theorem modLaunch_ctl (s : State) (k : Nat) (f : Launch → Launch) : (modLaunch s k f).ctl = s.ctl := rfl
@[simp] theorem modLaunch_cores (s : State) (k : Nat) (f : Launch → Launch) : (modLaunch s k f).cores = s.cores := rfl
@[simp] theorem modLaunch_clusters (s : State) (k : Nat) (f : Launch → Launch) : (modLaunch s k f).clusters = s.clusters := rfl
@[simp] theorem modLaunch_waves (s : State) (k : Nat) (f : Launch → Launch) : (modLaunch s k f).waves = s.waves := rfl
@[simp] theorem modLaunch_wgs (s : State) (k : Nat) (f : Launch → Launch) : (modLaunch s k f).wgs = s.wgs := rfl
@[simp] theorem modLaunch_gangs (s : State) (k : Nat) (f : Launch → Launch) : (modLaunch s k f).gangs = s.gangs := rfl
@[simp] theorem modLaunch_launches (s : State) (k : Nat) (f : Launch → Launch) : (modLaunch s k f).launches = smod k f s.launches := rfl
@[simp] theorem modLaunch_contexts (s : State) (k : Nat) (f : Launch → Launch) : (modLaunch s k f).contexts = s.contexts := rfl
@[simp] theorem modLaunch_ops (s : State) (k : Nat) (f : Launch → Launch) : (modLaunch s k f).ops = s.ops := rfl
@[simp] theorem modLaunch_mats (s : State) (k : Nat) (f : Launch → Launch) : (modLaunch s k f).mats = s.mats := rfl
@[simp] theorem modLaunch_nextOp (s : State) (k : Nat) (f : Launch → Launch) : (modLaunch s k f).nextOp = s.nextOp := rfl
@[simp] theorem modLaunch_mcWins (s : State) (k : Nat) (f : Launch → Launch) : (modLaunch s k f).mcWins = s.mcWins := rfl
@[simp] theorem modLaunch_recQueues (s : State) (k : Nat) (f : Launch → Launch) : (modLaunch s k f).recQueues = s.recQueues := rfl
@[simp] theorem modLaunch_staging (s : State) (k : Nat) (f : Launch → Launch) : (modLaunch s k f).staging = s.staging := rfl
@[simp] theorem modLaunch_oslots (s : State) (k : Nat) (f : Launch → Launch) : (modLaunch s k f).oslots = s.oslots := rfl
@[simp] theorem modLaunch_roBusy (s : State) (k : Nat) (f : Launch → Launch) : (modLaunch s k f).roBusy = s.roBusy := rfl
@[simp] theorem modLaunch_txFence (s : State) (k : Nat) (f : Launch → Launch) : (modLaunch s k f).txFence = s.txFence := rfl
@[simp] theorem modLaunch_subPages (s : State) (k : Nat) (f : Launch → Launch) : (modLaunch s k f).subPages = s.subPages := rfl
@[simp] theorem modLaunch_bar4 (s : State) (k : Nat) (f : Launch → Launch) : (modLaunch s k f).bar4 = s.bar4 := rfl
@[simp] theorem modLaunch_reports (s : State) (k : Nat) (f : Launch → Launch) : (modLaunch s k f).reports = s.reports := rfl
@[simp] theorem modLaunch_repSeq (s : State) (k : Nat) (f : Launch → Launch) : (modLaunch s k f).repSeq = s.repSeq := rfl
@[simp] theorem modLaunch_supEvents (s : State) (k : Nat) (f : Launch → Launch) : (modLaunch s k f).supEvents = s.supEvents := rfl
@[simp] theorem modLaunch_dbgEvents (s : State) (k : Nat) (f : Launch → Launch) : (modLaunch s k f).dbgEvents = s.dbgEvents := rfl
@[simp] theorem modLaunch_dbBusy (s : State) (k : Nat) (f : Launch → Launch) : (modLaunch s k f).dbBusy = s.dbBusy := rfl
@[simp] theorem modLaunch_reqs (s : State) (k : Nat) (f : Launch → Launch) : (modLaunch s k f).reqs = s.reqs := rfl
@[simp] theorem modLaunch_nextReq (s : State) (k : Nat) (f : Launch → Launch) : (modLaunch s k f).nextReq = s.nextReq := rfl
@[simp] theorem modLaunch_nextLaunch (s : State) (k : Nat) (f : Launch → Launch) : (modLaunch s k f).nextLaunch = s.nextLaunch := rfl
@[simp] theorem modLaunch_acceptOrder (s : State) (k : Nat) (f : Launch → Launch) : (modLaunch s k f).acceptOrder = s.acceptOrder := rfl
@[simp] theorem modLaunch_queueRot (s : State) (k : Nat) (f : Launch → Launch) : (modLaunch s k f).queueRot = s.queueRot := rfl
@[simp] theorem modLaunch_queueWait (s : State) (k : Nat) (f : Launch → Launch) : (modLaunch s k f).queueWait = s.queueWait := rfl
@[simp] theorem modLaunch_ioClock (s : State) (k : Nat) (f : Launch → Launch) : (modLaunch s k f).ioClock = s.ioClock := rfl
@[simp] theorem modLaunch_migration (s : State) (k : Nat) (f : Launch → Launch) : (modLaunch s k f).migration = s.migration := rfl
@[simp] theorem modLaunch_invals (s : State) (k : Nat) (f : Launch → Launch) : (modLaunch s k f).invals = s.invals := rfl
@[simp] theorem modLaunch_outer (s : State) (k : Nat) (f : Launch → Launch) : (modLaunch s k f).outer = s.outer := rfl
@[simp] theorem modLaunch_flushed (s : State) (k : Nat) (f : Launch → Launch) : (modLaunch s k f).flushed = s.flushed := rfl
@[simp] theorem modLaunch_noSnoops (s : State) (k : Nat) (f : Launch → Launch) : (modLaunch s k f).noSnoops = s.noSnoops := rfl
@[simp] theorem modLaunch_idleW (s : State) (k : Nat) (f : Launch → Launch) : (modLaunch s k f).idleW = s.idleW := rfl
@[simp] theorem modLaunch_dynW (s : State) (k : Nat) (f : Launch → Launch) : (modLaunch s k f).dynW = s.dynW := rfl
@[simp] theorem modLaunch_meterClk (s : State) (k : Nat) (f : Launch → Launch) : (modLaunch s k f).meterClk = s.meterClk := rfl
@[simp] theorem modLaunch_uncore (s : State) (k : Nat) (f : Launch → Launch) : (modLaunch s k f).uncore = s.uncore := rfl
@[simp] theorem modLaunch_rtc (s : State) (k : Nat) (f : Launch → Launch) : (modLaunch s k f).rtc = s.rtc := rfl
@[simp] theorem modLaunch_peers (s : State) (k : Nat) (f : Launch → Launch) : (modLaunch s k f).peers = s.peers := rfl
@[simp] theorem modLaunch_sensors (s : State) (k : Nat) (f : Launch → Launch) : (modLaunch s k f).sensors = s.sensors := rfl
@[simp] theorem modLaunch_out (s : State) (k : Nat) (f : Launch → Launch) : (modLaunch s k f).out = s.out := rfl

/-! ### `modOp` -/

@[simp] theorem modOp_phase (s : State) (k : Nat) (f : Op → Op) : (modOp s k f).phase = s.phase := rfl
@[simp] theorem modOp_agenda (s : State) (k : Nat) (f : Op → Op) : (modOp s k f).agenda = s.agenda := rfl
@[simp] theorem modOp_cur (s : State) (k : Nat) (f : Op → Op) : (modOp s k f).cur = s.cur := rfl
@[simp] theorem modOp_mem (s : State) (k : Nat) (f : Op → Op) : (modOp s k f).mem = s.mem := rfl
@[simp] theorem modOp_memPois (s : State) (k : Nat) (f : Op → Op) : (modOp s k f).memPois = s.memPois := rfl
@[simp] theorem modOp_ctl (s : State) (k : Nat) (f : Op → Op) : (modOp s k f).ctl = s.ctl := rfl
@[simp] theorem modOp_cores (s : State) (k : Nat) (f : Op → Op) : (modOp s k f).cores = s.cores := rfl
@[simp] theorem modOp_clusters (s : State) (k : Nat) (f : Op → Op) : (modOp s k f).clusters = s.clusters := rfl
@[simp] theorem modOp_waves (s : State) (k : Nat) (f : Op → Op) : (modOp s k f).waves = s.waves := rfl
@[simp] theorem modOp_wgs (s : State) (k : Nat) (f : Op → Op) : (modOp s k f).wgs = s.wgs := rfl
@[simp] theorem modOp_gangs (s : State) (k : Nat) (f : Op → Op) : (modOp s k f).gangs = s.gangs := rfl
@[simp] theorem modOp_launches (s : State) (k : Nat) (f : Op → Op) : (modOp s k f).launches = s.launches := rfl
@[simp] theorem modOp_contexts (s : State) (k : Nat) (f : Op → Op) : (modOp s k f).contexts = s.contexts := rfl
@[simp] theorem modOp_ops (s : State) (k : Nat) (f : Op → Op) : (modOp s k f).ops = smod k f s.ops := rfl
@[simp] theorem modOp_mats (s : State) (k : Nat) (f : Op → Op) : (modOp s k f).mats = s.mats := rfl
@[simp] theorem modOp_nextOp (s : State) (k : Nat) (f : Op → Op) : (modOp s k f).nextOp = s.nextOp := rfl
@[simp] theorem modOp_mcWins (s : State) (k : Nat) (f : Op → Op) : (modOp s k f).mcWins = s.mcWins := rfl
@[simp] theorem modOp_recQueues (s : State) (k : Nat) (f : Op → Op) : (modOp s k f).recQueues = s.recQueues := rfl
@[simp] theorem modOp_staging (s : State) (k : Nat) (f : Op → Op) : (modOp s k f).staging = s.staging := rfl
@[simp] theorem modOp_oslots (s : State) (k : Nat) (f : Op → Op) : (modOp s k f).oslots = s.oslots := rfl
@[simp] theorem modOp_roBusy (s : State) (k : Nat) (f : Op → Op) : (modOp s k f).roBusy = s.roBusy := rfl
@[simp] theorem modOp_txFence (s : State) (k : Nat) (f : Op → Op) : (modOp s k f).txFence = s.txFence := rfl
@[simp] theorem modOp_subPages (s : State) (k : Nat) (f : Op → Op) : (modOp s k f).subPages = s.subPages := rfl
@[simp] theorem modOp_bar4 (s : State) (k : Nat) (f : Op → Op) : (modOp s k f).bar4 = s.bar4 := rfl
@[simp] theorem modOp_reports (s : State) (k : Nat) (f : Op → Op) : (modOp s k f).reports = s.reports := rfl
@[simp] theorem modOp_repSeq (s : State) (k : Nat) (f : Op → Op) : (modOp s k f).repSeq = s.repSeq := rfl
@[simp] theorem modOp_supEvents (s : State) (k : Nat) (f : Op → Op) : (modOp s k f).supEvents = s.supEvents := rfl
@[simp] theorem modOp_dbgEvents (s : State) (k : Nat) (f : Op → Op) : (modOp s k f).dbgEvents = s.dbgEvents := rfl
@[simp] theorem modOp_dbBusy (s : State) (k : Nat) (f : Op → Op) : (modOp s k f).dbBusy = s.dbBusy := rfl
@[simp] theorem modOp_reqs (s : State) (k : Nat) (f : Op → Op) : (modOp s k f).reqs = s.reqs := rfl
@[simp] theorem modOp_nextReq (s : State) (k : Nat) (f : Op → Op) : (modOp s k f).nextReq = s.nextReq := rfl
@[simp] theorem modOp_nextLaunch (s : State) (k : Nat) (f : Op → Op) : (modOp s k f).nextLaunch = s.nextLaunch := rfl
@[simp] theorem modOp_acceptOrder (s : State) (k : Nat) (f : Op → Op) : (modOp s k f).acceptOrder = s.acceptOrder := rfl
@[simp] theorem modOp_queueRot (s : State) (k : Nat) (f : Op → Op) : (modOp s k f).queueRot = s.queueRot := rfl
@[simp] theorem modOp_queueWait (s : State) (k : Nat) (f : Op → Op) : (modOp s k f).queueWait = s.queueWait := rfl
@[simp] theorem modOp_ioClock (s : State) (k : Nat) (f : Op → Op) : (modOp s k f).ioClock = s.ioClock := rfl
@[simp] theorem modOp_migration (s : State) (k : Nat) (f : Op → Op) : (modOp s k f).migration = s.migration := rfl
@[simp] theorem modOp_invals (s : State) (k : Nat) (f : Op → Op) : (modOp s k f).invals = s.invals := rfl
@[simp] theorem modOp_outer (s : State) (k : Nat) (f : Op → Op) : (modOp s k f).outer = s.outer := rfl
@[simp] theorem modOp_flushed (s : State) (k : Nat) (f : Op → Op) : (modOp s k f).flushed = s.flushed := rfl
@[simp] theorem modOp_noSnoops (s : State) (k : Nat) (f : Op → Op) : (modOp s k f).noSnoops = s.noSnoops := rfl
@[simp] theorem modOp_idleW (s : State) (k : Nat) (f : Op → Op) : (modOp s k f).idleW = s.idleW := rfl
@[simp] theorem modOp_dynW (s : State) (k : Nat) (f : Op → Op) : (modOp s k f).dynW = s.dynW := rfl
@[simp] theorem modOp_meterClk (s : State) (k : Nat) (f : Op → Op) : (modOp s k f).meterClk = s.meterClk := rfl
@[simp] theorem modOp_uncore (s : State) (k : Nat) (f : Op → Op) : (modOp s k f).uncore = s.uncore := rfl
@[simp] theorem modOp_rtc (s : State) (k : Nat) (f : Op → Op) : (modOp s k f).rtc = s.rtc := rfl
@[simp] theorem modOp_peers (s : State) (k : Nat) (f : Op → Op) : (modOp s k f).peers = s.peers := rfl
@[simp] theorem modOp_sensors (s : State) (k : Nat) (f : Op → Op) : (modOp s k f).sensors = s.sensors := rfl
@[simp] theorem modOp_out (s : State) (k : Nat) (f : Op → Op) : (modOp s k f).out = s.out := rfl

/-! ### `modCore` -/

@[simp] theorem modCore_phase (s : State) (k : Nat) (f : Core → Core) : (modCore s k f).phase = s.phase := rfl
@[simp] theorem modCore_agenda (s : State) (k : Nat) (f : Core → Core) : (modCore s k f).agenda = s.agenda := rfl
@[simp] theorem modCore_cur (s : State) (k : Nat) (f : Core → Core) : (modCore s k f).cur = s.cur := rfl
@[simp] theorem modCore_mem (s : State) (k : Nat) (f : Core → Core) : (modCore s k f).mem = s.mem := rfl
@[simp] theorem modCore_memPois (s : State) (k : Nat) (f : Core → Core) : (modCore s k f).memPois = s.memPois := rfl
@[simp] theorem modCore_ctl (s : State) (k : Nat) (f : Core → Core) : (modCore s k f).ctl = s.ctl := rfl
@[simp] theorem modCore_cores (s : State) (k : Nat) (f : Core → Core) : (modCore s k f).cores = sput k (f (coreOf s k)) s.cores := rfl
@[simp] theorem modCore_clusters (s : State) (k : Nat) (f : Core → Core) : (modCore s k f).clusters = s.clusters := rfl
@[simp] theorem modCore_waves (s : State) (k : Nat) (f : Core → Core) : (modCore s k f).waves = s.waves := rfl
@[simp] theorem modCore_wgs (s : State) (k : Nat) (f : Core → Core) : (modCore s k f).wgs = s.wgs := rfl
@[simp] theorem modCore_gangs (s : State) (k : Nat) (f : Core → Core) : (modCore s k f).gangs = s.gangs := rfl
@[simp] theorem modCore_launches (s : State) (k : Nat) (f : Core → Core) : (modCore s k f).launches = s.launches := rfl
@[simp] theorem modCore_contexts (s : State) (k : Nat) (f : Core → Core) : (modCore s k f).contexts = s.contexts := rfl
@[simp] theorem modCore_ops (s : State) (k : Nat) (f : Core → Core) : (modCore s k f).ops = s.ops := rfl
@[simp] theorem modCore_mats (s : State) (k : Nat) (f : Core → Core) : (modCore s k f).mats = s.mats := rfl
@[simp] theorem modCore_nextOp (s : State) (k : Nat) (f : Core → Core) : (modCore s k f).nextOp = s.nextOp := rfl
@[simp] theorem modCore_mcWins (s : State) (k : Nat) (f : Core → Core) : (modCore s k f).mcWins = s.mcWins := rfl
@[simp] theorem modCore_recQueues (s : State) (k : Nat) (f : Core → Core) : (modCore s k f).recQueues = s.recQueues := rfl
@[simp] theorem modCore_staging (s : State) (k : Nat) (f : Core → Core) : (modCore s k f).staging = s.staging := rfl
@[simp] theorem modCore_oslots (s : State) (k : Nat) (f : Core → Core) : (modCore s k f).oslots = s.oslots := rfl
@[simp] theorem modCore_roBusy (s : State) (k : Nat) (f : Core → Core) : (modCore s k f).roBusy = s.roBusy := rfl
@[simp] theorem modCore_txFence (s : State) (k : Nat) (f : Core → Core) : (modCore s k f).txFence = s.txFence := rfl
@[simp] theorem modCore_subPages (s : State) (k : Nat) (f : Core → Core) : (modCore s k f).subPages = s.subPages := rfl
@[simp] theorem modCore_bar4 (s : State) (k : Nat) (f : Core → Core) : (modCore s k f).bar4 = s.bar4 := rfl
@[simp] theorem modCore_reports (s : State) (k : Nat) (f : Core → Core) : (modCore s k f).reports = s.reports := rfl
@[simp] theorem modCore_repSeq (s : State) (k : Nat) (f : Core → Core) : (modCore s k f).repSeq = s.repSeq := rfl
@[simp] theorem modCore_supEvents (s : State) (k : Nat) (f : Core → Core) : (modCore s k f).supEvents = s.supEvents := rfl
@[simp] theorem modCore_dbgEvents (s : State) (k : Nat) (f : Core → Core) : (modCore s k f).dbgEvents = s.dbgEvents := rfl
@[simp] theorem modCore_dbBusy (s : State) (k : Nat) (f : Core → Core) : (modCore s k f).dbBusy = s.dbBusy := rfl
@[simp] theorem modCore_reqs (s : State) (k : Nat) (f : Core → Core) : (modCore s k f).reqs = s.reqs := rfl
@[simp] theorem modCore_nextReq (s : State) (k : Nat) (f : Core → Core) : (modCore s k f).nextReq = s.nextReq := rfl
@[simp] theorem modCore_nextLaunch (s : State) (k : Nat) (f : Core → Core) : (modCore s k f).nextLaunch = s.nextLaunch := rfl
@[simp] theorem modCore_acceptOrder (s : State) (k : Nat) (f : Core → Core) : (modCore s k f).acceptOrder = s.acceptOrder := rfl
@[simp] theorem modCore_queueRot (s : State) (k : Nat) (f : Core → Core) : (modCore s k f).queueRot = s.queueRot := rfl
@[simp] theorem modCore_queueWait (s : State) (k : Nat) (f : Core → Core) : (modCore s k f).queueWait = s.queueWait := rfl
@[simp] theorem modCore_ioClock (s : State) (k : Nat) (f : Core → Core) : (modCore s k f).ioClock = s.ioClock := rfl
@[simp] theorem modCore_migration (s : State) (k : Nat) (f : Core → Core) : (modCore s k f).migration = s.migration := rfl
@[simp] theorem modCore_invals (s : State) (k : Nat) (f : Core → Core) : (modCore s k f).invals = s.invals := rfl
@[simp] theorem modCore_outer (s : State) (k : Nat) (f : Core → Core) : (modCore s k f).outer = s.outer := rfl
@[simp] theorem modCore_flushed (s : State) (k : Nat) (f : Core → Core) : (modCore s k f).flushed = s.flushed := rfl
@[simp] theorem modCore_noSnoops (s : State) (k : Nat) (f : Core → Core) : (modCore s k f).noSnoops = s.noSnoops := rfl
@[simp] theorem modCore_idleW (s : State) (k : Nat) (f : Core → Core) : (modCore s k f).idleW = s.idleW := rfl
@[simp] theorem modCore_dynW (s : State) (k : Nat) (f : Core → Core) : (modCore s k f).dynW = s.dynW := rfl
@[simp] theorem modCore_meterClk (s : State) (k : Nat) (f : Core → Core) : (modCore s k f).meterClk = s.meterClk := rfl
@[simp] theorem modCore_uncore (s : State) (k : Nat) (f : Core → Core) : (modCore s k f).uncore = s.uncore := rfl
@[simp] theorem modCore_rtc (s : State) (k : Nat) (f : Core → Core) : (modCore s k f).rtc = s.rtc := rfl
@[simp] theorem modCore_peers (s : State) (k : Nat) (f : Core → Core) : (modCore s k f).peers = s.peers := rfl
@[simp] theorem modCore_sensors (s : State) (k : Nat) (f : Core → Core) : (modCore s k f).sensors = s.sensors := rfl
@[simp] theorem modCore_out (s : State) (k : Nat) (f : Core → Core) : (modCore s k f).out = s.out := rfl

/-! ### `ctlWr` -/

@[simp] theorem ctlWr_phase (s : State) (k : Nat) (v : W64) : (ctlWr s k v).phase = s.phase := rfl
@[simp] theorem ctlWr_agenda (s : State) (k : Nat) (v : W64) : (ctlWr s k v).agenda = s.agenda := rfl
@[simp] theorem ctlWr_cur (s : State) (k : Nat) (v : W64) : (ctlWr s k v).cur = s.cur := rfl
@[simp] theorem ctlWr_mem (s : State) (k : Nat) (v : W64) : (ctlWr s k v).mem = s.mem := rfl
@[simp] theorem ctlWr_memPois (s : State) (k : Nat) (v : W64) : (ctlWr s k v).memPois = s.memPois := rfl
@[simp] theorem ctlWr_ctl (s : State) (k : Nat) (v : W64) : (ctlWr s k v).ctl = sputD (ctlReset k) k v s.ctl := rfl
@[simp] theorem ctlWr_cores (s : State) (k : Nat) (v : W64) : (ctlWr s k v).cores = s.cores := rfl
@[simp] theorem ctlWr_clusters (s : State) (k : Nat) (v : W64) : (ctlWr s k v).clusters = s.clusters := rfl
@[simp] theorem ctlWr_waves (s : State) (k : Nat) (v : W64) : (ctlWr s k v).waves = s.waves := rfl
@[simp] theorem ctlWr_wgs (s : State) (k : Nat) (v : W64) : (ctlWr s k v).wgs = s.wgs := rfl
@[simp] theorem ctlWr_gangs (s : State) (k : Nat) (v : W64) : (ctlWr s k v).gangs = s.gangs := rfl
@[simp] theorem ctlWr_launches (s : State) (k : Nat) (v : W64) : (ctlWr s k v).launches = s.launches := rfl
@[simp] theorem ctlWr_contexts (s : State) (k : Nat) (v : W64) : (ctlWr s k v).contexts = s.contexts := rfl
@[simp] theorem ctlWr_ops (s : State) (k : Nat) (v : W64) : (ctlWr s k v).ops = s.ops := rfl
@[simp] theorem ctlWr_mats (s : State) (k : Nat) (v : W64) : (ctlWr s k v).mats = s.mats := rfl
@[simp] theorem ctlWr_nextOp (s : State) (k : Nat) (v : W64) : (ctlWr s k v).nextOp = s.nextOp := rfl
@[simp] theorem ctlWr_mcWins (s : State) (k : Nat) (v : W64) : (ctlWr s k v).mcWins = s.mcWins := rfl
@[simp] theorem ctlWr_recQueues (s : State) (k : Nat) (v : W64) : (ctlWr s k v).recQueues = s.recQueues := rfl
@[simp] theorem ctlWr_staging (s : State) (k : Nat) (v : W64) : (ctlWr s k v).staging = s.staging := rfl
@[simp] theorem ctlWr_oslots (s : State) (k : Nat) (v : W64) : (ctlWr s k v).oslots = s.oslots := rfl
@[simp] theorem ctlWr_roBusy (s : State) (k : Nat) (v : W64) : (ctlWr s k v).roBusy = s.roBusy := rfl
@[simp] theorem ctlWr_txFence (s : State) (k : Nat) (v : W64) : (ctlWr s k v).txFence = s.txFence := rfl
@[simp] theorem ctlWr_subPages (s : State) (k : Nat) (v : W64) : (ctlWr s k v).subPages = s.subPages := rfl
@[simp] theorem ctlWr_bar4 (s : State) (k : Nat) (v : W64) : (ctlWr s k v).bar4 = s.bar4 := rfl
@[simp] theorem ctlWr_reports (s : State) (k : Nat) (v : W64) : (ctlWr s k v).reports = s.reports := rfl
@[simp] theorem ctlWr_repSeq (s : State) (k : Nat) (v : W64) : (ctlWr s k v).repSeq = s.repSeq := rfl
@[simp] theorem ctlWr_supEvents (s : State) (k : Nat) (v : W64) : (ctlWr s k v).supEvents = s.supEvents := rfl
@[simp] theorem ctlWr_dbgEvents (s : State) (k : Nat) (v : W64) : (ctlWr s k v).dbgEvents = s.dbgEvents := rfl
@[simp] theorem ctlWr_dbBusy (s : State) (k : Nat) (v : W64) : (ctlWr s k v).dbBusy = s.dbBusy := rfl
@[simp] theorem ctlWr_reqs (s : State) (k : Nat) (v : W64) : (ctlWr s k v).reqs = s.reqs := rfl
@[simp] theorem ctlWr_nextReq (s : State) (k : Nat) (v : W64) : (ctlWr s k v).nextReq = s.nextReq := rfl
@[simp] theorem ctlWr_nextLaunch (s : State) (k : Nat) (v : W64) : (ctlWr s k v).nextLaunch = s.nextLaunch := rfl
@[simp] theorem ctlWr_acceptOrder (s : State) (k : Nat) (v : W64) : (ctlWr s k v).acceptOrder = s.acceptOrder := rfl
@[simp] theorem ctlWr_queueRot (s : State) (k : Nat) (v : W64) : (ctlWr s k v).queueRot = s.queueRot := rfl
@[simp] theorem ctlWr_queueWait (s : State) (k : Nat) (v : W64) : (ctlWr s k v).queueWait = s.queueWait := rfl
@[simp] theorem ctlWr_ioClock (s : State) (k : Nat) (v : W64) : (ctlWr s k v).ioClock = s.ioClock := rfl
@[simp] theorem ctlWr_migration (s : State) (k : Nat) (v : W64) : (ctlWr s k v).migration = s.migration := rfl
@[simp] theorem ctlWr_invals (s : State) (k : Nat) (v : W64) : (ctlWr s k v).invals = s.invals := rfl
@[simp] theorem ctlWr_outer (s : State) (k : Nat) (v : W64) : (ctlWr s k v).outer = s.outer := rfl
@[simp] theorem ctlWr_flushed (s : State) (k : Nat) (v : W64) : (ctlWr s k v).flushed = s.flushed := rfl
@[simp] theorem ctlWr_noSnoops (s : State) (k : Nat) (v : W64) : (ctlWr s k v).noSnoops = s.noSnoops := rfl
@[simp] theorem ctlWr_idleW (s : State) (k : Nat) (v : W64) : (ctlWr s k v).idleW = s.idleW := rfl
@[simp] theorem ctlWr_dynW (s : State) (k : Nat) (v : W64) : (ctlWr s k v).dynW = s.dynW := rfl
@[simp] theorem ctlWr_meterClk (s : State) (k : Nat) (v : W64) : (ctlWr s k v).meterClk = s.meterClk := rfl
@[simp] theorem ctlWr_uncore (s : State) (k : Nat) (v : W64) : (ctlWr s k v).uncore = s.uncore := rfl
@[simp] theorem ctlWr_rtc (s : State) (k : Nat) (v : W64) : (ctlWr s k v).rtc = s.rtc := rfl
@[simp] theorem ctlWr_peers (s : State) (k : Nat) (v : W64) : (ctlWr s k v).peers = s.peers := rfl
@[simp] theorem ctlWr_sensors (s : State) (k : Nat) (v : W64) : (ctlWr s k v).sensors = s.sensors := rfl
@[simp] theorem ctlWr_out (s : State) (k : Nat) (v : W64) : (ctlWr s k v).out = s.out := rfl

/-! ### `supPost` -/

@[simp] theorem supPost_phase (s : State) (e : SupEvent) : (supPost s e).phase = s.phase := rfl
@[simp] theorem supPost_agenda (s : State) (e : SupEvent) : (supPost s e).agenda = s.agenda := rfl
@[simp] theorem supPost_cur (s : State) (e : SupEvent) : (supPost s e).cur = s.cur := rfl
@[simp] theorem supPost_mem (s : State) (e : SupEvent) : (supPost s e).mem = s.mem := rfl
@[simp] theorem supPost_memPois (s : State) (e : SupEvent) : (supPost s e).memPois = s.memPois := rfl
@[simp] theorem supPost_ctl (s : State) (e : SupEvent) : (supPost s e).ctl = s.ctl := rfl
@[simp] theorem supPost_cores (s : State) (e : SupEvent) : (supPost s e).cores = s.cores := rfl
@[simp] theorem supPost_clusters (s : State) (e : SupEvent) : (supPost s e).clusters = s.clusters := rfl
@[simp] theorem supPost_waves (s : State) (e : SupEvent) : (supPost s e).waves = s.waves := rfl
@[simp] theorem supPost_wgs (s : State) (e : SupEvent) : (supPost s e).wgs = s.wgs := rfl
@[simp] theorem supPost_gangs (s : State) (e : SupEvent) : (supPost s e).gangs = s.gangs := rfl
@[simp] theorem supPost_launches (s : State) (e : SupEvent) : (supPost s e).launches = s.launches := rfl
@[simp] theorem supPost_contexts (s : State) (e : SupEvent) : (supPost s e).contexts = s.contexts := rfl
@[simp] theorem supPost_ops (s : State) (e : SupEvent) : (supPost s e).ops = s.ops := rfl
@[simp] theorem supPost_mats (s : State) (e : SupEvent) : (supPost s e).mats = s.mats := rfl
@[simp] theorem supPost_nextOp (s : State) (e : SupEvent) : (supPost s e).nextOp = s.nextOp := rfl
@[simp] theorem supPost_mcWins (s : State) (e : SupEvent) : (supPost s e).mcWins = s.mcWins := rfl
@[simp] theorem supPost_recQueues (s : State) (e : SupEvent) : (supPost s e).recQueues = s.recQueues := rfl
@[simp] theorem supPost_staging (s : State) (e : SupEvent) : (supPost s e).staging = s.staging := rfl
@[simp] theorem supPost_oslots (s : State) (e : SupEvent) : (supPost s e).oslots = s.oslots := rfl
@[simp] theorem supPost_roBusy (s : State) (e : SupEvent) : (supPost s e).roBusy = s.roBusy := rfl
@[simp] theorem supPost_txFence (s : State) (e : SupEvent) : (supPost s e).txFence = s.txFence := rfl
@[simp] theorem supPost_subPages (s : State) (e : SupEvent) : (supPost s e).subPages = s.subPages := rfl
@[simp] theorem supPost_bar4 (s : State) (e : SupEvent) : (supPost s e).bar4 = s.bar4 := rfl
@[simp] theorem supPost_reports (s : State) (e : SupEvent) : (supPost s e).reports = s.reports := rfl
@[simp] theorem supPost_repSeq (s : State) (e : SupEvent) : (supPost s e).repSeq = s.repSeq := rfl
@[simp] theorem supPost_supEvents (s : State) (e : SupEvent) : (supPost s e).supEvents = s.supEvents ++ [e] := rfl
@[simp] theorem supPost_dbgEvents (s : State) (e : SupEvent) : (supPost s e).dbgEvents = s.dbgEvents := rfl
@[simp] theorem supPost_dbBusy (s : State) (e : SupEvent) : (supPost s e).dbBusy = s.dbBusy := rfl
@[simp] theorem supPost_reqs (s : State) (e : SupEvent) : (supPost s e).reqs = s.reqs := rfl
@[simp] theorem supPost_nextReq (s : State) (e : SupEvent) : (supPost s e).nextReq = s.nextReq := rfl
@[simp] theorem supPost_nextLaunch (s : State) (e : SupEvent) : (supPost s e).nextLaunch = s.nextLaunch := rfl
@[simp] theorem supPost_acceptOrder (s : State) (e : SupEvent) : (supPost s e).acceptOrder = s.acceptOrder := rfl
@[simp] theorem supPost_queueRot (s : State) (e : SupEvent) : (supPost s e).queueRot = s.queueRot := rfl
@[simp] theorem supPost_queueWait (s : State) (e : SupEvent) : (supPost s e).queueWait = s.queueWait := rfl
@[simp] theorem supPost_ioClock (s : State) (e : SupEvent) : (supPost s e).ioClock = s.ioClock := rfl
@[simp] theorem supPost_migration (s : State) (e : SupEvent) : (supPost s e).migration = s.migration := rfl
@[simp] theorem supPost_invals (s : State) (e : SupEvent) : (supPost s e).invals = s.invals := rfl
@[simp] theorem supPost_outer (s : State) (e : SupEvent) : (supPost s e).outer = s.outer := rfl
@[simp] theorem supPost_flushed (s : State) (e : SupEvent) : (supPost s e).flushed = s.flushed := rfl
@[simp] theorem supPost_noSnoops (s : State) (e : SupEvent) : (supPost s e).noSnoops = s.noSnoops := rfl
@[simp] theorem supPost_idleW (s : State) (e : SupEvent) : (supPost s e).idleW = s.idleW := rfl
@[simp] theorem supPost_dynW (s : State) (e : SupEvent) : (supPost s e).dynW = s.dynW := rfl
@[simp] theorem supPost_meterClk (s : State) (e : SupEvent) : (supPost s e).meterClk = s.meterClk := rfl
@[simp] theorem supPost_uncore (s : State) (e : SupEvent) : (supPost s e).uncore = s.uncore := rfl
@[simp] theorem supPost_rtc (s : State) (e : SupEvent) : (supPost s e).rtc = s.rtc := rfl
@[simp] theorem supPost_peers (s : State) (e : SupEvent) : (supPost s e).peers = s.peers := rfl
@[simp] theorem supPost_sensors (s : State) (e : SupEvent) : (supPost s e).sensors = s.sensors := rfl
@[simp] theorem supPost_out (s : State) (e : SupEvent) : (supPost s e).out = s.out := rfl

/-! ### Waves and fibres -/

@[simp] theorem sget_modWave_self (s : State) (k : Nat) (f : Wave → Wave) :
    sget k (modWave s k f).waves = (sget k s.waves).map f := by simp

theorem sget_modWave_ne {j k : Nat} (h : j ≠ k) (s : State) (f : Wave → Wave) :
    sget j (modWave s k f).waves = sget j s.waves := by simp [sget_smod, h]

theorem modWave_modWave (s : State) (k : Nat) (f g : Wave → Wave) :
    modWave (modWave s k f) k g = modWave s k (fun w => g (f w)) := by simp [modWave, smod_smod]

theorem modFibre_eq (s : State) (wk slot : Nat) (f : Fibre → Fibre) :
    modFibre s wk slot f = modWave s wk (fun w => { w with fibres := smod slot f w.fibres }) := rfl

theorem mapFibres_eq (s : State) (wk : Nat) (slots : List Nat) (f : Nat → Fibre → Fibre) :
    mapFibres s wk slots f = modWave s wk (fun w =>
      { w with fibres := w.fibres.map (fun e => if slots.contains e.1 then (e.1, f e.1 e.2) else e) }) := rfl

/-- The fibres of some slots after a change of them. -/
theorem sget_mapSlots (slots : List Nat) (f : Nat → Fibre → Fibre) (m : Sparse Fibre) (x : Nat) :
    sget x (m.map (fun e => if slots.contains e.1 then (e.1, f e.1 e.2) else e))
      = (sget x m).map (fun a => if slots.contains x then f x a else a) := by
  have e : m.map (fun e => if slots.contains e.1 then (e.1, f e.1 e.2) else e)
      = m.map (fun e => (e.1, (fun i a => if slots.contains i then f i a else a) e.1 e.2)) := by
    apply List.map_congr_left
    intro a _
    by_cases h : a.1 ∈ slots <;> simp [h]
  rw [e]
  exact sget_map (fun i a => if slots.contains i then f i a else a) x m

theorem fibreAt_mapFibres (s : State) (wk : Nat) (slots : List Nat) (f : Nat → Fibre → Fibre) (x : Nat) :
    fibreAt (mapFibres s wk slots f) wk x = (fibreAt s wk x).map (fun a => if slots.contains x then f x a else a) := by
  simp only [fibreAt, mapFibres_eq, sget_modWave_self]
  cases sget wk s.waves with
  | none => rfl
  | some w => exact sget_mapSlots slots f w.fibres x

theorem fibreAt_modFibre_self (s : State) (wk x : Nat) (f : Fibre → Fibre) :
    fibreAt (modFibre s wk x f) wk x = (fibreAt s wk x).map f := by
  simp only [fibreAt, modFibre_eq, sget_modWave_self]
  cases sget wk s.waves with
  | none => rfl
  | some w => simp

theorem fibreAt_modFibre_ne {x y : Nat} (h : y ≠ x) (s : State) (wk : Nat) (f : Fibre → Fibre) :
    fibreAt (modFibre s wk x f) wk y = fibreAt s wk y := by
  simp only [fibreAt, modFibre_eq, sget_modWave_self]
  cases sget wk s.waves with
  | none => rfl
  | some w => simp [sget_smod, h]

/-! ### Registers -/

@[simp] theorem rv_setVp_self (f : Fibre) (r : Nat) (x : W32) (p : Bool) : (f.setVp r x p).rv r = x := by
  simp [Fibre.rv, Fibre.setVp]
theorem rv_setVp_ne {q r : Nat} (h : q ≠ r) (f : Fibre) (x : W32) (p : Bool) : (f.setVp r x p).rv q = f.rv q := by
  simp [Fibre.rv, Fibre.setVp, sgetD_sputD_ne h]
@[simp] theorem vp_setVp_self (f : Fibre) (r : Nat) (x : W32) (p : Bool) : (f.setVp r x p).vp r = p := by
  simp [Fibre.vp, Fibre.setVp]
theorem vp_setVp_ne {q r : Nat} (h : q ≠ r) (f : Fibre) (x : W32) (p : Bool) : (f.setVp r x p).vp q = f.vp q := by
  simp [Fibre.vp, Fibre.setVp, sgetD_sputD_ne h]
@[simp] theorem rv_setV_self (f : Fibre) (r : Nat) (x : W32) : (f.setV r x).rv r = x := rv_setVp_self f r x false
theorem rv_setV_ne {q r : Nat} (h : q ≠ r) (f : Fibre) (x : W32) : (f.setV r x).rv q = f.rv q := rv_setVp_ne h f x false

/-- A written pair reads as what was written. -/
@[simp] theorem rv2_setV2_self (f : Fibre) (r : Nat) (x : W64) : (f.setV2 r x).rv2 r = x := by
  have h1 : (f.setV2 r x).rv (r + 1) = x.extractLsb' 32 32 := by simp [Fibre.setV2]
  have h0 : (f.setV2 r x).rv r = x.extractLsb' 0 32 := by
    rw [Fibre.setV2, rv_setV_ne (by omega)]; simp
  rw [Fibre.rv2, h1, h0]
  ext i hi
  simp only [BitVec.getElem_append, BitVec.getElem_extractLsb']
  split
  · simp [BitVec.getLsbD_eq_getElem hi]
  · have e : 32 + (i - 32) = i := by omega
    rw [e, BitVec.getLsbD_eq_getElem hi]

/-- A written predicate reads as what was written; p0 reads as 1 whatever is written (R40). -/
theorem rp_setP_self (f : Fibre) (k : BitVec 4) (b : Bool) : (f.setP k b).rp k = (k == 0 || b) := by
  unfold Fibre.setP Fibre.rp
  by_cases h : k = 0
  · subst h; rfl
  · have hk : (k == 0) = false := by simpa using h
    simp only [hk, Bool.false_or, Bool.false_eq_true, if_false]
    have hl : k.toNat < 16 := k.isLt
    have hb : (BitVec.ofNat 16 (1 <<< k.toNat)).getLsbD k.toNat = true := by
      revert k; decide
    cases b <;> simp only [if_true, BitVec.natCast_eq_ofNat, BitVec.getLsbD_or, BitVec.getLsbD_and, BitVec.getLsbD_not, hb] <;> simp [hl]

@[simp] theorem rg_setG_self (w : Wave) (r : Nat) (x : W64) : (w.setG r x).rg r = x := by simp [Wave.rg, Wave.setG]
theorem rg_setG_ne {q r : Nat} (h : q ≠ r) (w : Wave) (x : W64) : (w.setG r x).rg q = w.rg q := by
  simp [Wave.rg, Wave.setG, sgetD_sputD_ne h]
@[simp] theorem flag_setFlag_self (w : Wave) (k n : Nat) : (w.setFlag k n).flag k = n := by simp [Wave.flag, Wave.setFlag]
theorem flag_setFlag_ne {j k : Nat} (h : j ≠ k) (w : Wave) (n : Nat) : (w.setFlag k n).flag j = w.flag j := by
  simp [Wave.flag, Wave.setFlag, sgetD_sputD_ne h]
@[simp] theorem rq_setQ_self (f : Fibre) (r : Nat) (x : QWord) : (f.setQ r x).rq r = x := by simp [Fibre.rq, Fibre.setQ]
theorem rq_setQ_ne {q r : Nat} (h : q ≠ r) (f : Fibre) (x : QWord) : (f.setQ r x).rq q = f.rq q := by
  simp [Fibre.rq, Fibre.setQ, sgetD_sputD_ne h]
@[simp] theorem acc_setAcc_self (w : Wave) (k : Nat) (t : Tile) : (w.setAcc k t).acc k = t := by simp [Wave.acc, Wave.setAcc]
theorem acc_setAcc_ne {j k : Nat} (h : j ≠ k) (w : Wave) (t : Tile) : (w.setAcc k t).acc j = w.acc j := by
  simp [Wave.acc, Wave.setAcc, sgetD_sputD_ne h]

/-- A control register reads as what was written to it. -/
@[simp] theorem ctlRd_ctlWr_self (s : State) (k : Nat) (v : W64) : ctlRd (ctlWr s k v) k = v := by simp [ctlRd]
theorem ctlRd_ctlWr_ne {j k : Nat} (h : j ≠ k) (s : State) (v : W64) : ctlRd (ctlWr s k v) j = ctlRd s j := by
  simp [ctlRd, sgetD_sputD_ne h]

/-- A core after a change of it, and of another. -/
@[simp] theorem coreOf_modCore_self (s : State) (c : Nat) (f : Core → Core) : coreOf (modCore s c f) c = f (coreOf s c) := by
  simp [coreOf, sgetD]
theorem coreOf_modCore_ne {j c : Nat} (h : j ≠ c) (s : State) (f : Core → Core) : coreOf (modCore s c f) j = coreOf s j := by
  simp [coreOf, sgetD, sget_sput_ne h]

end Sys2Proof.Machine
end

