-- ==== Sys2Proof/Laws/Issue.lean ====
section
/-! SUPPORT. What issuing an instruction does: it stops only where there is no bundle, and an instruction that is ready is
performed by its meaning between what every issue changes. -/

namespace Sys2Proof.Machine

/-- A cluster after a change of it, and of another. -/
@[simp] theorem clusterOf_modCluster_self (s : State) (c : Nat) (f : Cluster → Cluster) : clusterOf (modCluster s c f) c = f (clusterOf s c) := by
  simp [clusterOf, modCluster, sgetD]
theorem clusterOf_modCluster_ne {j c : Nat} (h : j ≠ c) (s : State) (f : Cluster → Cluster) : clusterOf (modCluster s c f) j = clusterOf s j := by
  simp [clusterOf, modCluster, sgetD, sget_sput_ne h]

/-- Issuing never refuses, and stops only for want of a bundle. -/
theorem issue_cases (i : Instr) (g : Guard) (rel : Rel) (body : Bundle → State → State) (s : State) :
    issue i g rel body s = .fault .noBundle ∨ ∃ t, issue i g rel body s = .next t := by
  unfold issue
  split
  · exact .inl rfl
  · split
    · exact .inl rfl
    · split
      · split
        · exact .inl rfl
        · dsimp only
          split
          · exact .inr ⟨_, rfl⟩
          · split
            · exact .inr ⟨_, rfl⟩
            · split <;> exact .inr ⟨_, rfl⟩
      · exact .inl rfl

/-- The bundle as the meaning of an instruction gets it. -/
def Site.given (z : Site) (g : Guard) (ws : List W32) : Bundle :=
  let b := z.bundle g
  { b with con := ws, pre := some z.w, waived := b.act.filter (fun x => ((sget x z.w.fibres).map (·.waive)).getD false)
           flag := if z.f.ll && !b.act.isEmpty then nextFlag z.c.header z.c.ll else none }

/-- The current wave in that state. -/
def begunWave (w : Wave) (b : Bundle) : Wave :=
  { w with
    page := none
    issueNo := numberAfter w b
    issued := some (b.pc, ((b.all.head?.bind (fun x => sget x w.fibres)).map (·.lfi)).getD 0)
    clause := w.clause.map (fun c => { c with idx := c.idx + 1, ll := c.ll || b.ll })
    fibres := w.fibres.map (fun e => if b.all.contains e.1 then (e.1, passed w b e.1 e.2) else e) }

theorem begun_waves (s : State) (w : Wave) (b : Bundle) (i : Instr) (f : Form) :
    (begun s w b i f).waves = smod b.wk (fun w => begunWave w b) s.waves := by
  simp only [begun, beginIssue, modWave, chargeIssue, occupy, smod_smod]
  rfl

theorem begun_wave (s : State) (w : Wave) (b : Bundle) (i : Instr) (f : Form) (h : sget b.wk s.waves = some w) :
    sget b.wk (begun s w b i f).waves = some (begunWave w b) := by
  rw [begun_waves, sget_smod_self, h]; rfl

theorem begun_rest (s : State) (w : Wave) (b : Bundle) (i : Instr) (f : Form) :
    { begun s w b i f with waves := s.waves, cores := s.cores, clusters := s.clusters, dynW := s.dynW } = s := by
  cases s; rfl

/-- The part of a core that an issue leaves. -/
def Core.calm (k : Core) : Core := { k with issues := 0, rot := 0, pipes := [], muPort := 0, isuPort := 0, txuPort := 0, taken := [] }

/-- The part of a cluster that an issue leaves. -/
def Cluster.calm (k : Cluster) : Cluster := { k with mxPort := none, cpPort := none }

theorem modCore_calm (s : State) (c : Nat) (f : Core → Core) (h : ∀ k, (f k).calm = k.calm) (n : Nat) :
    (coreOf (modCore s c f) n).calm = (coreOf s n).calm := by
  by_cases e : n = c
  · subst e; rw [coreOf_modCore_self, h]
  · rw [coreOf_modCore_ne e]

theorem countIssue_calm (s : State) (wk : Nat) (w : Wave) (n : Nat) : (coreOf (countIssue s wk w) n).calm = (coreOf s n).calm := by
  unfold countIssue
  split
  · rfl
  · refine modCore_calm _ _ _ ?_ n
    exact fun _ => rfl

theorem begun_cores (s : State) (w : Wave) (b : Bundle) (i : Instr) (f : Form) (n : Nat) :
    (coreOf (begun s w b i f) n).calm = (coreOf s n).calm := by
  have e : coreOf (begun s w b i f) n = coreOf (resources s b.wk w i f b.all b.act) n := rfl
  have put (g : Core → Core) (h : ∀ k, (g k).calm = k.calm) (c : Nat) :
      (coreOf (modCore (countIssue s b.wk w) c g) n).calm = (coreOf s n).calm :=
    (modCore_calm _ _ g h n).trans (countIssue_calm s b.wk w n)
  rw [e]
  unfold resources
  dsimp only
  split
  · split
    · exact countIssue_calm s b.wk w n
    · refine put _ ?_ _
      exact fun _ => rfl
  · split
    · refine put _ (fun k => ?_) _
      split
      · split <;> rfl
      · rfl
    · split
      · exact countIssue_calm s b.wk w n
      · split
        · refine put _ ?_ _
          exact fun _ => rfl
        · split
          · refine put _ ?_ _
            exact fun _ => rfl
          · exact countIssue_calm s b.wk w n

theorem begun_clusters (s : State) (w : Wave) (b : Bundle) (i : Instr) (f : Form) (n : Nat) :
    (clusterOf (begun s w b i f) n).calm = (clusterOf s n).calm := by
  have e : clusterOf (begun s w b i f) n = clusterOf (resources s b.wk w i f b.all b.act) n := rfl
  have hc (t : State) : clusterOf (countIssue t b.wk w) n = clusterOf t n := by unfold countIssue; split <;> rfl
  rw [e, ← hc s]
  unfold resources holdPort
  dsimp only
  repeat' split
  all_goals first
    | rfl
    | (by_cases h : n = coreNo b.wk / 4
       · subst h
         rw [clusterOf_modCluster_self]
         rfl
       · rw [clusterOf_modCluster_ne h])

theorem calm_eq {a b : Core} (h : a.calm = b.calm) :
    { a with issues := b.issues, rot := b.rot, pipes := b.pipes, muPort := b.muPort, isuPort := b.isuPort, txuPort := b.txuPort
             taken := b.taken } = b := by
  cases a; cases b
  simp only [Core.calm, Core.mk.injEq] at h ⊢
  simp [h]

theorem calm_eq_cluster {a b : Cluster} (h : a.calm = b.calm) : { a with mxPort := b.mxPort, cpPort := b.cpPort } = b := by
  cases a; cases b
  simp only [Cluster.calm, Cluster.mk.injEq] at h ⊢
  simp [h]

theorem others_nil {α : Type} (l : List Nat) : others l ([] : List (Nat × α)) = l := by
  simp [others]

/-- A bundle without a fibre in poison traps nobody for it. -/
theorem no_poison {w : Wave} {uses : List Use} {l : List Nat} (all : List Nat) (hl : ∀ x ∈ l, x ∈ all)
    (h : ∀ x ∈ all, ∀ y, sget x w.fibres = some y → poisonCause w y uses = none) :
    l.filterMap (fun x => ((sget x w.fibres).bind (fun y => poisonCause w y uses)).map (x, ·)) = [] := by
  rw [List.filterMap_eq_nil_iff]
  intro x hx
  cases e : sget x w.fibres with
  | none => rfl
  | some y => simp [h x (hl x hx) y e]

/-- No source is poisoned: nothing latent is reported. -/
theorem latent_healthy {s : State} {b : Bundle} {w : Wave} {uses : List Use}
    (h : ∀ x ∈ b.all, ∀ y, sget x w.fibres = some y → poisonCause w y uses = none) : latent s b w uses = s := by
  have sub (p : Use → Bool) (y : Fibre) (hy : poisonCause w y uses = none) : poisonCause w y (uses.filter p) = none := by
    unfold poisonCause at hy ⊢
    rw [List.findSome?_eq_none_iff] at hy ⊢
    intro u hu
    exact hy u (List.mem_filter.1 hu).1
  have key : ∀ (l : List Nat), (∀ x ∈ l, x ∈ b.all) → ∀ t, l.foldl (fun s x =>
      match sget x w.fibres with
      | none => s
      | some f =>
        match poisonCause w f (uses.filter (fun u => b.act.isEmpty || u.cls != RegClass.g)) with
        | some c => supPost s { SupEvent.ofFibre s 0x06 b.wk f.lfi with pc := b.pc, addr := c.syn1.setWidth 64 }
        | none => s) t = t := by
    intro l
    induction l with
    | nil => intro _ _; rfl
    | cons x l ih =>
      intro hl t
      rw [List.foldl_cons]
      have hx := hl x (by simp)
      have e : (match sget x w.fibres with
        | none => t
        | some f =>
          match poisonCause w f (uses.filter (fun u => b.act.isEmpty || u.cls != RegClass.g)) with
          | some c => supPost t { SupEvent.ofFibre t 0x06 b.wk f.lfi with pc := b.pc, addr := c.syn1.setWidth 64 }
          | none => t) = t := by
        cases e : sget x w.fibres with
        | none => rfl
        | some f => simp only [sub _ f (h x hx f e)]
      rw [e]
      exact ih (fun y hy => hl y (by simp [hy])) t
  unfold latent
  exact key _ (fun x hx => (List.mem_filter.1 hx).1) s

theorem mem_inOrder {c : Clause} {x : Nat} (h : x ∈ c.inOrder) : x ∈ c.slots := by
  unfold Clause.inOrder at h
  simpa using (List.mem_filter.1 h).2

theorem act_sub_all {z : Site} {g : Guard} {x : Nat} (h : x ∈ (z.bundle g).act) : x ∈ (z.bundle g).all := (List.mem_filter.1 h).1

theorem act_sub {z : Site} {g : Guard} {x : Nat} (h : x ∈ (z.bundle g).act) : x ∈ z.c.slots := mem_inOrder (act_sub_all h)

/-- A bundle names each slot once. -/
theorem act_nodup (z : Site) (g : Guard) : (z.bundle g).act.Nodup := by
  change (z.c.inOrder.filter _).Nodup
  exact (List.nodup_range.filter _).filter _

/-- The fibres of the current wave after the common part of an issue. -/
theorem begunWave_fibre (w : Wave) (b : Bundle) (x : Nat) :
    sget x (begunWave w b).fibres = (sget x w.fibres).map (fun f => if b.all.contains x then passed w b x f else f) :=
  sget_mapSlots b.all (passed w b) w.fibres x

theorem passed_deferred (w : Wave) (b : Bundle) (x : Nat) (f : Fibre) : (passed w b x f).deferred = f.deferred := by
  unfold passed Fibre.advance
  dsimp only
  split <;> rfl

theorem hasSilt_begun (s : State) (w : Wave) (b : Bundle) (i : Instr) (f : Form) (x : Nat) :
    hasSilt (begun s w b i f) b.wk x = hasSilt s b.wk x := by
  have h := congrArg Core.silt (begun_cores s w b i f (coreNo b.wk))
  unfold hasSilt
  have e (k : Core) : k.calm.silt = k.silt := rfl
  rw [e, e] at h
  rw [h]

theorem ops_begun (s : State) (w : Wave) (b : Bundle) (i : Instr) (f : Form) : (begun s w b i f).ops = s.ops := by
  have h := congrArg State.ops (begun_rest s w b i f)
  exact h

theorem owes_begun (s : State) (w : Wave) (b : Bundle) (i : Instr) (f : Form) (x : Nat) : owes (begun s w b i f) b.wk x = owes s b.wk x := by
  unfold owes opsOf
  rw [hasSilt_begun, ops_begun]

theorem releaseHeld_begun (s : State) (w : Wave) (b : Bundle) (i : Instr) (f : Form) (rel : Rel) (act : List Nat) :
    releaseHeld (begun s w b i f) b.wk rel act = releaseHeld s b.wk rel act := by
  have hs : owes (begun s w b i f) b.wk = owes s b.wk := funext (owes_begun s w b i f)
  have ho : opsOf (begun s w b i f) b.wk = opsOf s b.wk := by unfold opsOf; rw [ops_begun]
  unfold releaseHeld
  cases rel <;> simp only [hs, ho]

/-- The last part of an issue where nothing is pending or held: the meaning acts for the whole bundle. -/
theorem release_free {s : State} {b : Bundle} {rel : Rel} {header : W64} {ll : Bool} {body : Bundle → State → State}
    (hp : pendingTraps s b.wk rel b.act = []) (hh : releaseHeld s b.wk rel b.act = []) :
    release s b rel header ll body
      = body { b with flag := if b.ll && !b.act.isEmpty then nextFlag header ll else none } s := by
  unfold release
  rw [hp]
  simp only [others_nil, trapEach, List.foldl_nil, hh]
  simp

/-! ### Reading constant words leaves the waves -/

variable {P : State → Prop} (k : Kept P)
include k

theorem conLine_kept {s : State} {core ctx rid va : Nat} (h : P s) : P (conLine s core ctx rid va).1 := by
  unfold conLine
  dsimp only
  split
  · exact h
  · split
    · rename_i e
      exact reportMiss_kept k (kept_of_eq (P := P) e (translate_kept k h))
    · rename_i e
      have h1 := kept_of_eq (P := P) e (translate_kept k h)
      split
      · exact h1
      · split
        · exact readBytes_kept k h1
        · split
          · exact readBytes_kept k h1
          · exact kept_fst (P := P) (modCore_kept k (readBytes_kept k h1))

theorem conWords_kept {s : State} {core ctx : Nat} {base : W64} {l : List Nat} (h : P s) : P (conWords s core ctx base l).1 := by
  induction l generalizing s with
  | nil => exact h
  | cons off rest ih =>
    unfold conWords
    dsimp only
    have h1 := regionOf_kept k (core := some core) (ctx := ctx) (rid := ptrRid base) h
    split
    · exact h1
    · split
      · rename_i e
        exact kept_of_eq (P := P) e (conLine_kept k h1)
      · rename_i e
        have h2 := ih (kept_of_eq (P := P) e (conLine_kept k h1))
        split
        · rename_i e2; exact kept_of_eq (P := P) e2 h2
        · rename_i e2; exact kept_fst (P := P) (kept_of_eq (P := P) e2 h2)

theorem constants_kept {s : State} {b : Bundle} {w : Wave} {f : Form} {go : List Nat} (h : P s) : P (constants s b w f go).1 := by
  unfold constants conRead
  repeat' split
  all_goals first | exact h | exact conWords_kept k h

omit k

/-- Reading constant words changes memory operations' parts of the state only. -/
theorem Reads.apart {s s' : State} {z : Site} {g : Guard} {ws : List W32} (h : Reads s z g s' ws) : s'.apart = s.apart :=
  kept_of_eq (P := fun t => t.apart = s.apart) h (constants_kept (apart_kept s.apart) rfl)

theorem Reads.waves {s s' : State} {z : Site} {g : Guard} {ws : List W32} (h : Reads s z g s' ws) : s'.waves = s.waves := by
  have e := congrArg State.waves (Reads.apart h)
  exact e

/-! ### An instruction that is ready -/

theorem begun_ctxOf (s : State) (w : Wave) (b : Bundle) (i : Instr) (f : Form) (h : sget b.wk s.waves = some w) :
    ctxOf (begun s w b i f) b.wk = ctxOf s b.wk := by
  have e := congrArg State.launches (begun_rest s w b i f)
  unfold ctxOf launchOf
  rw [begun_wave s w b i f h, h, show (begun s w b i f).launches = s.launches from e]
  rfl

/-- No fibre that passes the guard computes a register beyond the uniform count, as only `movg` can (R101, R140). -/
def InRange (i : Instr) (g : Guard) (z : Site) : Prop :=
  ∀ x ∈ (z.bundle g).act, ∀ y, sget x z.w.fibres = some y → indexTrap z.l.gcnt (z.bundle g).word i y = none

/-- An instruction that is ready is performed: its meaning acts between the two common parts of an issue. -/
theorem issue_ready {s s' : State} {i : Instr} {g : Guard} {rel : Rel} {z : Site} {ws : List W32} (h : Ready s i g rel z)
    (hc : Reads s z g s' ws) (hw : sget z.wk s'.waves = some z.w) (hr : releaseHeld s' z.wk rel (z.bundle g).act = [])
    (hi : InRange i g z) (body : Bundle → State → State) :
    issue i g rel body s
      = .next (endIssue (body (z.given g ws) (begun s' z.w (z.bundle g) i z.f)) (z.bundle g)) := by
  have hf : (form i).getD { cls := 0 } = z.f := by rw [h.form]; rfl
  have hsl : z.c.slots.isEmpty = false := by simpa using h.slots
  unfold issue
  rw [h.cur]
  dsimp only
  rw [h.wave]
  dsimp only
  rw [h.clause, h.launch]
  simp only [h.started, hsl, Bool.not_true, Bool.or_false, Bool.false_eq_true, if_false]
  rw [h.checks]
  dsimp only
  rw [hf]
  rw [show bundleAt z.wk z.w z.c g z.f.ll = z.bundle g from rfl]
  rw [h.free, h.partner]
  simp only [Option.isSome_none, Bool.or_false, Bool.false_eq_true, if_false]
  rw [h.checksQueue]
  dsimp only
  congr 1
  unfold perform
  have hwk : (z.bundle g).wk = z.wk := rfl
  have hl : launchOf s z.wk = some z.l := by unfold launchOf; rw [h.wave]; exact h.launch
  have early : (z.bundle g).act.filterMap (fun x => ((sget x z.w.fibres).bind (indexTrap z.l.gcnt (z.bundle g).word i)).map (x, ·)) = [] := by
    rw [List.filterMap_eq_nil_iff]
    intro x hx
    cases e : sget x z.w.fibres with
    | none => rfl
    | some y => simp [hi x hx y e]
  rw [hwk, h.debugger, hl]
  simp only [Option.map_some, Option.getD_some]
  rw [early, others_nil]
  simp only [Option.bind_none, Option.isSome_none, Bool.false_eq_true, if_false, List.contains_nil, Bool.not_false,
    List.filter_true]
  have hh : ∀ x ∈ (z.bundle g).all, ∀ y, sget x z.w.fibres = some y → poisonCause z.w y (z.f.uses ++ queueUse z.w i) = none :=
    fun x hx => h.healthy x (mem_inOrder hx)
  have hbad := no_poison (w := z.w) (uses := z.f.uses ++ queueUse z.w i) (l := (z.bundle g).act) (z.bundle g).all
    (fun x hx => act_sub_all hx) hh
  rw [hbad, others_nil]
  have hc' := hc
  unfold Reads at hc'
  rw [hc']
  dsimp only
  have hl : ∀ t, latent t (z.bundle g) z.w (z.f.uses ++ queueUse z.w i) = t := fun t => latent_healthy hh
  have hst (t : State) (l : List Nat) : l.foldl (fun s _ => s) t = t := by
    induction l generalizing t with
    | nil => rfl
    | cons _ _ ih => exact ih t
  have heta : ({ z.bundle g with wk := z.wk, act := (z.bundle g).act } : Bundle) = z.bundle g := rfl
  simp only [hl, trapEach, List.foldl_nil, List.length_nil, Nat.zero_add, heta]
  rw [show beginIssue (modWave (chargeIssue (occupy s' z.wk z.w i z.f (z.bundle g).all (z.bundle g).act) z.wk z.w.launch
      (z.bundle g).act.length) z.wk (fun w => { w with page := none })) (z.bundle g)
      = begun s' z.w (z.bundle g) i z.f from rfl]
  have hwatch : conWatch (begun s' z.w (z.bundle g) i z.f) (z.bundle g) z.f = none := by
    have hx : ctxOf (begun s' z.w (z.bundle g) i z.f) z.wk = ctxOf s z.wk := by
      have e := begun_ctxOf s' z.w (z.bundle g) i z.f hw
      have el : s'.launches = s.launches := by have e := congrArg State.launches (Reads.apart hc); exact e
      rw [hwk] at e
      rw [e]
      unfold ctxOf launchOf
      rw [hw, h.wave, el]
    have hd (c : Nat) : debugSlot (begun s' z.w (z.bundle g) i z.f) c = debugSlot s c := by
      have e1 : (begun s' z.w (z.bundle g) i z.f).ctl = s'.ctl := by
        have e := congrArg State.ctl (begun_rest s' z.w (z.bundle g) i z.f); exact e
      have e2 : s'.ctl = s.ctl := by have e := congrArg State.ctl (Reads.apart hc); exact e
      unfold debugSlot ctlBits ctlRd
      rw [e1, e2]
    unfold conWatch
    rw [hwk, hx, hd, h.debugger]
  rw [hwatch]
  dsimp only
  have hpend : pendingTraps (begun s' z.w (z.bundle g) i z.f) z.wk rel (z.bundle g).act = [] := by
    unfold pendingTraps
    split
    · rfl
    · rename_i hne
      have hne' : rel ≠ .none := by simpa using hne
      rw [List.filterMap_eq_nil_iff]
      intro x hx
      have hb : (fibreAt (begun s' z.w (z.bundle g) i z.f) z.wk x) = sget x (begunWave z.w (z.bundle g)).fibres := by
        have hbw : sget z.wk (begun s' z.w (z.bundle g) i z.f).waves = some (begunWave z.w (z.bundle g)) :=
          begun_wave s' z.w (z.bundle g) i z.f hw
        unfold fibreAt
        rw [hbw]; rfl
      change (fibreAt _ z.wk x).bind _ = none
      rw [hb, begunWave_fibre]
      cases e : sget x z.w.fibres with
      | none => rfl
      | some y =>
        have hy := h.pending hne' x hx y e
        simp only [Option.map_some, Option.bind_some]
        split <;> simp [passed_deferred, hy]
  congr 1
  exact release_free hpend ((releaseHeld_begun s' z.w (z.bundle g) i z.f rel _).trans hr)

/-- The same for an instruction without a constant operand. -/
theorem issue_plain {s : State} {i : Instr} {g : Guard} {rel : Rel} {z : Site} (h : Ready s i g rel z) (hc : z.f.const = none)
    (hi : InRange i g z) (body : Bundle → State → State) :
    issue i g rel body s
      = .next (endIssue (body (z.given g []) (begun s z.w (z.bundle g) i z.f)) (z.bundle g)) :=
  issue_ready h (by unfold Reads constants; rw [hc]) h.wave h.held hi body

/-! ### Meanings that act on the registers of fibres, or on the wave -/

theorem endIssue_waves (s : State) (b : Bundle) :
    (endIssue s b).waves = if b.idx = b.place.last then smod b.wk (fun w => { w with clause := none, paired := none }) s.waves
      else s.waves := by
  unfold endIssue; split <;> rfl

theorem endIssue_cores (s : State) (b : Bundle) : (endIssue s b).cores = s.cores := by unfold endIssue; split <;> rfl
theorem endIssue_clusters (s : State) (b : Bundle) : (endIssue s b).clusters = s.clusters := by unfold endIssue; split <;> rfl
theorem endIssue_dynW (s : State) (b : Bundle) : (endIssue s b).dynW = s.dynW := by unfold endIssue; split <;> rfl
theorem endIssue_rest (s : State) (b : Bundle) : { endIssue s b with waves := s.waves } = s := by
  unfold endIssue; split <;> rfl

/-- Where no fibre leaves it, the clause goes on. -/
theorem clauseAfter_nil {w : Wave} {b : Bundle} {c : Clause} (h : w.clause = some c) (hs : c.slots ≠ []) :
    clauseAfter w b [] = if b.idx = b.place.last then none else some { c with idx := c.idx + 1, ll := c.ll || b.ll } := by
  unfold clauseAfter
  simp [h, hs]

/-- A meaning that changes only the current wave, and of it neither its place nor who is in it. -/
theorem runs_of_wave {s : State} {w : Wave} {b : Bundle} {i : Instr} {f : Form} {out : List Nat} {F : Wave → Wave}
    {fx : Nat → Fibre → Fibre} {gx : Wave → Wave} (hw : sget b.wk s.waves = some w)
    (hf : ∀ x, sget x (F (begunWave w b)).fibres = (sget x w.fibres).map (fun f =>
      if b.all.contains x then (if b.act.contains x then fx x (passed w b x f) else passed w b x f) else f))
    (hn : (F (begunWave w b)).issueNo = numberAfter w b)
    (hcl : b.idx ≠ b.place.last → (F (begunWave w b)).clause = clauseAfter w b out)
    (hg : { F (begunWave w b) with fibres := w.fibres, issueNo := w.issueNo, issued := w.issued, clause := w.clause,
                                   paired := w.paired, page := w.page } = gx w) :
    Runs s (endIssue (modWave (begun s w b i f) b.wk F) b) w b out fx gx := by
  have hv : sget b.wk (modWave (begun s w b i f) b.wk F).waves = some (F (begunWave w b)) := by
    rw [sget_modWave_self, begun_wave s w b i f hw]; rfl
  refine ⟨?_, ?_, ?_, ?_, ?_⟩
  · rw [endIssue_waves]
    by_cases hi : b.idx = b.place.last
    · rw [if_pos hi, sget_smod_self, hv]
      exact ⟨_, rfl, hf, hn, by unfold clauseAfter; rw [if_pos hi], hg⟩
    · rw [if_neg hi, hv]
      exact ⟨_, rfl, hf, hn, hcl hi, hg⟩
  · intro k hk
    rw [endIssue_waves]
    have e : sget k (modWave (begun s w b i f) b.wk F).waves = sget k s.waves := by
      rw [sget_modWave_ne hk, begun_waves, sget_smod_ne hk]
    split
    · rw [sget_smod_ne hk, e]
    · exact e
  · have h1 := begun_rest s w b i f
    have h2 := endIssue_rest (modWave (begun s w b i f) b.wk F) b
    unfold endIssue at *
    split
    · exact h1
    · exact h1
  · intro k
    have e : clusterOf (endIssue (modWave (begun s w b i f) b.wk F) b) k = clusterOf (begun s w b i f) k := by
      unfold clusterOf; rw [endIssue_clusters]; rfl
    rw [e]
    exact calm_eq_cluster (begun_clusters s w b i f k)
  · intro k
    have e : coreOf (endIssue (modWave (begun s w b i f) b.wk F) b) k = coreOf (begun s w b i f) k := by
      unfold coreOf; rw [endIssue_cores]; rfl
    rw [e]
    exact calm_eq (begun_cores s w b i f k)

/-- The clause of the current wave in that state, where no fibre leaves it. -/
theorem begun_clause {s : State} {i : Instr} {g : Guard} {rel : Rel} {z : Site} (h : Ready s i g rel z) (b : Bundle)
    (hi : b.idx ≠ b.place.last) : (begunWave z.w b).clause = clauseAfter z.w b [] := by
  rw [clauseAfter_nil h.clause h.slots, if_neg hi]
  unfold begunWave
  dsimp only
  rw [h.clause]
  rfl

/-- Registers of the wave and of a fibre are those before the issue. -/
@[simp] theorem begunWave_rg (w : Wave) (b : Bundle) (r : Nat) : (begunWave w b).rg r = w.rg r := rfl
@[simp] theorem passed_rv (w : Wave) (b : Bundle) (x : Nat) (f : Fibre) (r : Nat) : (passed w b x f).rv r = f.rv r := by
  unfold passed Fibre.advance; dsimp only; split <;> rfl
@[simp] theorem passed_rv2 (w : Wave) (b : Bundle) (x : Nat) (f : Fibre) (r : Nat) : (passed w b x f).rv2 r = f.rv2 r := by
  simp [Fibre.rv2]
@[simp] theorem passed_vp (w : Wave) (b : Bundle) (x : Nat) (f : Fibre) (r : Nat) : (passed w b x f).vp r = f.vp r := by
  unfold passed Fibre.advance; dsimp only; split <;> rfl
@[simp] theorem passed_rp (w : Wave) (b : Bundle) (x : Nat) (f : Fibre) (k : BitVec 4) : (passed w b x f).rp k = f.rp k := by
  unfold passed Fibre.advance; dsimp only; split <;> rfl
@[simp] theorem passed_pred (w : Wave) (b : Bundle) (x : Nat) (f : Fibre) : (passed w b x f).pred = f.pred := by
  unfold passed Fibre.advance; dsimp only; split <;> rfl
@[simp] theorem passed_rq (w : Wave) (b : Bundle) (x : Nat) (f : Fibre) (r : Nat) : (passed w b x f).rq r = f.rq r := by
  unfold passed Fibre.advance; dsimp only; split <;> rfl
@[simp] theorem passed_lfi (w : Wave) (b : Bundle) (x : Nat) (f : Fibre) : (passed w b x f).lfi = f.lfi := by
  unfold passed Fibre.advance; dsimp only; split <;> rfl
@[simp] theorem passed_draw (w : Wave) (b : Bundle) (x : Nat) (f : Fibre) : (passed w b x f).draw = f.draw := by
  unfold passed Fibre.advance; dsimp only; split <;> rfl
@[simp] theorem passed_ct (w : Wave) (b : Bundle) (x : Nat) (f : Fibre) : (passed w b x f).ct = f.ct := by
  unfold passed Fibre.advance; dsimp only; split <;> rfl
@[simp] theorem passed_depth (w : Wave) (b : Bundle) (x : Nat) (f : Fibre) : (passed w b x f).depth = f.depth := by
  unfold passed Fibre.advance; dsimp only; split <;> rfl
@[simp] theorem passed_recs (w : Wave) (b : Bundle) (x : Nat) (f : Fibre) : (passed w b x f).recs = f.recs := by
  unfold passed Fibre.advance; dsimp only; split <;> rfl
@[simp] theorem srcX_begunWave (w : Wave) (b : Bundle) (f : Fibre) (uni wide : Bool) (r : BitVec 8) :
    srcX (begunWave w b) f uni wide r = srcX w f uni wide r := by
  simp [srcX]
@[simp] theorem srcX_passed (v w : Wave) (b : Bundle) (x : Nat) (f : Fibre) (uni wide : Bool) (r : BitVec 8) :
    srcX v (passed w b x f) uni wide r = srcX v f uni wide r := by
  simp [srcX]
@[simp] theorem srcG_begunWave (w : Wave) (b : Bundle) (wide : Bool) (r : BitVec 8) : srcG (begunWave w b) wide r = srcG w wide r := by
  simp [srcG]

/-- A meaning that changes each fibre that passes the guard. -/
theorem runs_perFibre {s s' : State} {i : Instr} {g : Guard} {rel : Rel} {z : Site} {ws : List W32} (h : Ready s i g rel z)
    (hc : Reads s z g s' ws) (hr : releaseHeld s' z.wk rel (z.bundle g).act = []) (hi : InRange i g z)
    {body : Bundle → State → State} {F : Wave → Nat → Fibre → Fibre} {fx : Nat → Fibre → Fibre}
    (hb : ∀ t, body (z.given g ws) t = perFibre F (z.given g ws) t)
    (hfx : ∀ x y, F (begunWave z.w (z.bundle g)) x y = fx x y) :
    ∃ t, issue i g rel body s = .next t ∧ Runs s' t z.w (z.bundle g) [] fx id := by
  have hw : sget z.wk s'.waves = some z.w := by rw [Reads.waves hc]; exact h.wave
  refine ⟨_, issue_ready h hc hw hr hi body, ?_⟩
  rw [hb]
  have hbw : (z.given g ws).wave (begun s' z.w (z.bundle g) i z.f) = some (begunWave z.w (z.bundle g)) :=
    begun_wave s' z.w (z.bundle g) i z.f hw
  unfold perFibre
  rw [hbw]
  dsimp only
  refine runs_of_wave (F := fun v => { v with fibres := v.fibres.map (fun e =>
    if (z.bundle g).act.contains e.1 then (e.1, F (begunWave z.w (z.bundle g)) e.1 e.2) else e) }) hw ?_ rfl
    (fun hi => begun_clause h _ hi) rfl
  intro x
  dsimp only
  rw [sget_mapSlots, begunWave_fibre, Option.map_map]
  cases e : sget x z.w.fibres with
  | none => rfl
  | some y =>
    simp only [Option.map_some, Function.comp]
    by_cases ha : (z.bundle g).act.contains x
    · have hall : (z.bundle g).all.contains x := by
        simpa using act_sub_all (z := z) (g := g) (x := x) (by simpa using ha)
      simp only [ha, hall, if_true, hfx]
    · simp only [ha, Bool.false_eq_true, if_false]

/-- A meaning that changes the wave once, outside its fibres. -/
theorem runs_perWave {s s' : State} {i : Instr} {g : Guard} {rel : Rel} {z : Site} {ws : List W32} (h : Ready s i g rel z)
    (hc : Reads s z g s' ws) (hr : releaseHeld s' z.wk rel (z.bundle g).act = []) (hi : InRange i g z)
    {body : Bundle → State → State} {F : Wave → Wave} {gx : Wave → Wave}
    (hb : ∀ t, body (z.given g ws) t = perWave F (z.given g ws) t)
    (hf : ∀ v, (F v).fibres = v.fibres) (hn : ∀ v, (F v).issueNo = v.issueNo) (hcl : ∀ v, (F v).clause = v.clause)
    (hg : { F (begunWave z.w (z.bundle g)) with
            fibres := z.w.fibres, issueNo := z.w.issueNo, issued := z.w.issued, clause := z.w.clause, paired := z.w.paired,
            page := z.w.page } = gx z.w) :
    ∃ t, issue i g rel body s = .next t
      ∧ Runs s' t z.w (z.bundle g) [] (fun _ y => y) (fun v => if (z.bundle g).act.isEmpty then v else gx v) := by
  have hw : sget z.wk s'.waves = some z.w := by rw [Reads.waves hc]; exact h.wave
  refine ⟨_, issue_ready h hc hw hr hi body, ?_⟩
  rw [hb]
  have hid (x : Nat) : sget x (begunWave z.w (z.bundle g)).fibres = (sget x z.w.fibres).map (fun y =>
      if (z.bundle g).all.contains x then
        (if (z.bundle g).act.contains x then passed z.w (z.bundle g) x y
          else passed z.w (z.bundle g) x y) else y) := by
    rw [begunWave_fibre]; simp only [ite_self]
  have hm (t : State) : modWave t (z.bundle g).wk id = t := by
    cases t; simp only [modWave, State.mk.injEq, and_true, true_and]; exact smod_id _ _ (fun _ => rfl) _
  unfold perWave
  by_cases ha : (z.bundle g).act.isEmpty
  · have ha' : (z.given g ws).act.isEmpty = true := ha
    rw [if_pos ha']
    have := runs_of_wave (s := s') (i := i) (f := z.f) (F := id) (fx := fun _ y => y) (out := [])
      (gx := fun v => if (z.bundle g).act.isEmpty then v else gx v) hw hid rfl (fun hi => begun_clause h _ hi)
      (by simp only [ha, if_true]; rfl)
    rwa [hm] at this
  · have ha' : ¬ (z.given g ws).act.isEmpty = true := ha
    rw [if_neg ha']
    refine runs_of_wave hw (fun x => ?_) (by rw [hn]; rfl) (fun hi => by rw [hcl]; exact begun_clause h _ hi) ?_
    · rw [hf]; exact hid x
    · rw [if_neg ha]; exact hg

/-! ### What a meaning finds and does -/

theorem begun_launchOf {s : State} {i : Instr} {g : Guard} {rel : Rel} {z : Site} (h : Ready s i g rel z) :
    launchOf (begun s z.w (z.bundle g) i z.f) z.wk = some z.l := by
  have hw : sget z.wk (begun s z.w (z.bundle g) i z.f).waves = some (begunWave z.w (z.bundle g)) := begun_wave s z.w (z.bundle g) i z.f h.wave
  unfold launchOf
  rw [hw]
  exact h.launch

theorem begun_fibreAt {s : State} {i : Instr} {g : Guard} {rel : Rel} {z : Site} (h : Ready s i g rel z) (x : Nat) :
    fibreAt (begun s z.w (z.bundle g) i z.f) z.wk x = (sget x z.w.fibres).map (fun f =>
      if (z.bundle g).all.contains x then passed z.w (z.bundle g) x f else f) := by
  have hw : sget z.wk (begun s z.w (z.bundle g) i z.f).waves = some (begunWave z.w (z.bundle g)) := begun_wave s z.w (z.bundle g) i z.f h.wave
  unfold fibreAt
  rw [hw]
  exact begunWave_fibre z.w (z.bundle g) x

theorem begun_act {s : State} {i : Instr} {g : Guard} {rel : Rel} {z : Site} (h : Ready s i g rel z) {x : Nat} (hx : x ∈ (z.bundle g).act) {y : Fibre}
    (hy : sget x z.w.fibres = some y) : fibreAt (begun s z.w (z.bundle g) i z.f) z.wk x = some (passed z.w (z.bundle g) x y) := by
  rw [begun_fibreAt h, hy]
  have : (z.bundle g).all.contains x = true := by simpa using act_sub_all hx
  simp only [Option.map_some, this, if_true]

/-- Every slot for which an instruction is performed holds a fibre. -/
theorem act_fibre {z : Site} {g : Guard} {x : Nat} (hx : x ∈ (z.bundle g).act) : ∃ y, sget x z.w.fibres = some y := by
  have h := (List.mem_filter.1 hx).2
  cases e : sget x z.w.fibres with
  | none => rw [e] at h; simp at h
  | some y => exact ⟨y, rfl⟩

theorem begun_runs {s : State} {i : Instr} {g : Guard} {rel : Rel} {z : Site} (h : Ready s i g rel z) {F : Wave → Wave} {fx : Nat → Fibre → Fibre} {gx : Wave → Wave} {out : List Nat}
    (hf : ∀ x, sget x (F (begunWave z.w (z.bundle g))).fibres = (sget x z.w.fibres).map (fun f =>
      if (z.bundle g).all.contains x then (if (z.bundle g).act.contains x then fx x (passed z.w (z.bundle g) x f) else passed z.w (z.bundle g) x f) else f))
    (hn : (F (begunWave z.w (z.bundle g))).issueNo = numberAfter z.w (z.bundle g))
    (hcl : (z.bundle g).idx ≠ (z.bundle g).place.last → (F (begunWave z.w (z.bundle g))).clause = clauseAfter z.w (z.bundle g) out)
    (hg : { F (begunWave z.w (z.bundle g)) with
            fibres := z.w.fibres, issueNo := z.w.issueNo, issued := z.w.issued, clause := z.w.clause, paired := z.w.paired,
            page := z.w.page } = gx z.w) :
    Runs s (endIssue (modWave (begun s z.w (z.bundle g) i z.f) z.wk F) (z.bundle g)) z.w (z.bundle g) out fx gx :=
  runs_of_wave (b := z.bundle g) h.wave hf hn hcl hg

/-- Each slot of the bundle changed. -/
theorem runs_mapFibres {s : State} {i : Instr} {g : Guard} {rel : Rel} {z : Site} (h : Ready s i g rel z) (fx : Nat → Fibre → Fibre) :
    Runs s (endIssue (mapFibres (begun s z.w (z.bundle g) i z.f) z.wk (z.bundle g).act fx) (z.bundle g)) z.w (z.bundle g) [] fx id := by
  refine begun_runs h (F := fun w => { w with fibres := w.fibres.map (fun e => if (z.bundle g).act.contains e.1 then (e.1, fx e.1 e.2) else e) }) ?_ rfl
    (fun hi => begun_clause h _ hi) rfl
  intro x
  dsimp only
  rw [sget_mapSlots, begunWave_fibre, Option.map_map]
  cases e : sget x z.w.fibres with
  | none => rfl
  | some y =>
    simp only [Option.map_some, Function.comp]
    by_cases ha : (z.bundle g).act.contains x
    · have hall : (z.bundle g).all.contains x := by
        simpa using act_sub_all (z := z) (g := g) (x := x) (by simpa using ha)
      simp only [ha, hall, if_true]
    · simp only [ha, Bool.false_eq_true, if_false]

/-! ### The vocabulary of completion -/

/-- An instruction without a constant operand reads none. -/
theorem plain_reads {s : State} {z : Site} {g : Guard} (hc : z.f.const = none) : Reads s z g s [] := by
  unfold Reads constants; rw [hc]

@[simp] theorem ofNat_low (n : Nat) : (BitVec.ofNat 64 n).extractLsb' 0 32 = BitVec.ofNat 32 n := by
  apply BitVec.eq_of_toNat_eq
  simp [BitVec.extractLsb'_toNat]

theorem form_is {s : State} {i : Instr} {g : Guard} {rel : Rel} {z : Site} (h : Ready s i g rel z) {f : Form}
    (e : form i = some f) : z.f = f := Option.some.inj (h.form.symm.trans e)

/-- An instruction without a constant operand, performed: its meaning acts between the two common parts. -/
theorem performed {s : State} {i : Instr} {g : Guard} {rel : Rel} {z : Site} (h : Ready s i g rel z) {f : Form}
    (e : form i = some f) (hc : f.const = none) {body : Bundle → State → State} (hx : exec i s = issue i g rel body s)
    (hi : ∀ z, InRange i g z := by intro _ _ _ _ _; rfl) :
    exec i s = .next (endIssue (body (z.given g []) (begun s z.w (z.bundle g) i z.f)) (z.bundle g)) := by
  rw [hx]
  exact issue_plain h (by rw [form_is h e]; exact hc) (hi z) body

theorem eachFibre {s : State} {i : Instr} {g : Guard} {f : Form} (e : form i = some f) (hc : f.const = none)
    {body : Bundle → State → State} (hx : exec i s = issue i g .none body s) {F : Wave → Nat → Fibre → Fibre}
    {fx : Site → Nat → Fibre → Fibre} (hb : ∀ (z : Site) t, body (z.given g []) t = perFibre F (z.given g []) t)
    (hfx : ∀ (z : Site) x y, F (begunWave z.w (z.bundle g)) x y = fx z x y)
    (hi : ∀ z, InRange i g z := by intro _ _ _ _ _; rfl) : EachFibre s i g fx := by
  intro z h _
  rw [hx]
  exact runs_perFibre h (plain_reads (by rw [form_is h e]; exact hc)) h.held (hi z) (hb z) (hfx z)

theorem eachFibreK {s : State} {i : Instr} {g : Guard} {body : Bundle → State → State} (hx : exec i s = issue i g .none body s)
    {fx : List W32 → Nat → Fibre → Fibre}
    (hb : ∀ (z : Site) ws t, body (z.given g ws) t = perFibre (fun _ => fx ws) (z.given g ws) t)
    (hi : ∀ z, InRange i g z := by intro _ _ _ _ _; rfl) : EachFibreK s i g fx := by
  intro z s' ws h hr
  rw [hx]
  exact runs_perFibre h hr rfl (hi z) (hb z ws) (fun _ _ => rfl)

theorem onceForWave {s : State} {i : Instr} {g : Guard} {f : Form} (e : form i = some f) (hc : f.const = none)
    {body : Bundle → State → State} (hx : exec i s = issue i g .none body s) {F gx : Wave → Wave}
    (hb : ∀ (z : Site) t, body (z.given g []) t = perWave F (z.given g []) t)
    (hf : ∀ v, (F v).fibres = v.fibres) (hn : ∀ v, (F v).issueNo = v.issueNo) (hcl : ∀ v, (F v).clause = v.clause)
    (hg : ∀ (z : Site), { F (begunWave z.w (z.bundle g)) with
            fibres := z.w.fibres, issueNo := z.w.issueNo, issued := z.w.issued, clause := z.w.clause, paired := z.w.paired,
            page := z.w.page } = gx z.w)
    (hi : ∀ z, InRange i g z := by intro _ _ _ _ _; rfl) : OnceForWave s i g gx := by
  intro z h _
  rw [hx]
  exact runs_perWave h (plain_reads (by rw [form_is h e]; exact hc)) h.held (hi z) (hb z) hf hn hcl (hg z)

theorem onceForWaveK {s : State} {i : Instr} {g : Guard} {body : Bundle → State → State} (hx : exec i s = issue i g .none body s)
    {F gx : List W32 → Wave → Wave}
    (hb : ∀ (z : Site) ws t, body (z.given g ws) t = perWave (F ws) (z.given g ws) t)
    (hf : ∀ ws v, (F ws v).fibres = v.fibres) (hn : ∀ ws v, (F ws v).issueNo = v.issueNo)
    (hcl : ∀ ws v, (F ws v).clause = v.clause)
    (hg : ∀ (z : Site) ws, { F ws (begunWave z.w (z.bundle g)) with
            fibres := z.w.fibres, issueNo := z.w.issueNo, issued := z.w.issued, clause := z.w.clause, paired := z.w.paired,
            page := z.w.page } = gx ws z.w)
    (hi : ∀ z, InRange i g z := by intro _ _ _ _ _; rfl) : OnceForWaveK s i g gx := by
  intro z s' ws h hr
  rw [hx]
  exact runs_perWave h hr rfl (hi z) (hb z ws) (hf ws) (hn ws) (hcl ws) (hg z ws)

/-- A uniform instruction with one result. -/
theorem onceSetG {s : State} {i : Instr} {g : Guard} {f : Form} (e : form i = some f) (hc : f.const = none)
    {body : Bundle → State → State} (hx : exec i s = issue i g .none body s) (d : Nat) {v u : Wave → W64}
    (hb : ∀ (z : Site) t, body (z.given g []) t = perWave (fun w => w.setG d (v w)) (z.given g []) t)
    (hv : ∀ (z : Site), v (begunWave z.w (z.bundle g)) = u z.w)
    (hi : ∀ z, InRange i g z := by intro _ _ _ _ _; rfl) : OnceForWave s i g (fun w => w.setG d (u w)) :=
  onceForWave e hc hx hb (fun _ => rfl) (fun _ => rfl) (fun _ => rfl) (fun z => by dsimp only; rw [hv]; rfl) hi

/-- A uniform instruction with one result and a constant operand. -/
theorem onceSetGK {s : State} {i : Instr} {g : Guard} {body : Bundle → State → State} (hx : exec i s = issue i g .none body s)
    (d : Nat) {v u : List W32 → Wave → W64}
    (hb : ∀ (z : Site) ws t, body (z.given g ws) t = perWave (fun w => w.setG d (v ws w)) (z.given g ws) t)
    (hv : ∀ (z : Site) ws, v ws (begunWave z.w (z.bundle g)) = u ws z.w)
    (hi : ∀ z, InRange i g z := by intro _ _ _ _ _; rfl) : OnceForWaveK s i g (fun ws w => w.setG d (u ws w)) :=
  onceForWaveK hx (F := fun ws w => w.setG d (v ws w)) hb (fun _ _ => rfl) (fun _ _ => rfl) (fun _ _ => rfl)
    (fun z ws => by dsimp only; rw [hv]; rfl) hi

/-! ### Meanings that start an operation -/

theorem begun_gangOf (s : State) (w : Wave) (b : Bundle) (i : Instr) (f : Form) (h : sget b.wk s.waves = some w) :
    gangOf (begun s w b i f) b.wk = gangOf s b.wk := by
  unfold gangOf
  rw [begun_wave s w b i f h, h]
  rfl

/-- Starting an operation at issue, as `Starts` says it. -/
theorem starts_of {s s0 : State} {i : Instr} {g : Guard} {rel : Rel} {z : Site} {ws : List W32} (h : Ready s i g rel z)
    (hw : sget z.wk s0.waves = some z.w) (ha : (z.bundle g).act ≠ []) (hl : z.f.ll = true) (k : OpKind) :
    Starts s0 (endIssue (startOp (begun s0 z.w (z.bundle g) i z.f) (z.given g ws) k) (z.bundle g)) z.w (z.bundle g) z.c.header []
      (fun _ y => y) (z.bundle g).act k := by
  have hflag : (z.given g ws).flag = nextFlag z.c.header z.c.ll := by
    have hb : (z.f.ll && !(z.bundle g).act.isEmpty) = true := by simp [hl, ha]
    change (if z.f.ll && !(z.bundle g).act.isEmpty then _ else _) = _
    rw [if_pos hb]
  have hid (x : Nat) : sget x (begunWave z.w (z.bundle g)).fibres = (sget x z.w.fibres).map (fun y =>
      if (z.bundle g).all.contains x then
        (if (z.bundle g).act.contains x then passed z.w (z.bundle g) x y
          else passed z.w (z.bundle g) x y) else y) := by
    rw [begunWave_fibre]; simp only [ite_self]
  have hm (t : State) : modWave t (z.bundle g).wk id = t := by
    cases t; simp only [modWave, State.mk.injEq, and_true, true_and]; exact smod_id _ _ (fun _ => rfl) _
  have hops : ∀ t : State, (endIssue t (z.bundle g)).ops = t.ops := by intro t; unfold endIssue; split <;> rfl
  have hnext : ∀ t : State, (endIssue t (z.bundle g)).nextOp = t.nextOp := by intro t; unfold endIssue; split <;> rfl
  have hcl0 := fun hi => begun_clause h (z.bundle g) hi
  unfold startOp
  rw [hflag, show (z.given g ws).wk = (z.bundle g).wk from rfl, begun_ctxOf s0 z.w _ i z.f hw, begun_gangOf s0 z.w _ i z.f hw]
  refine ⟨?_, ?_, ?_⟩
  · have key : ∀ (F gx : Wave → Wave), (∀ v, (F v).fibres = v.fibres) → (∀ v, (F v).issueNo = v.issueNo) → (∀ v, (F v).clause = v.clause) →
        { F (begunWave z.w (z.bundle g)) with
            fibres := z.w.fibres, issueNo := z.w.issueNo, issued := z.w.issued, clause := z.w.clause, paired := z.w.paired,
            page := z.w.page } = gx z.w →
        Runs s0 (endIssue (modWave (begun s0 z.w (z.bundle g) i z.f) (z.bundle g).wk F) (z.bundle g)) z.w (z.bundle g) [] (fun _ y => y) gx := by
      intro F gx h1 h2 h3 h4
      refine runs_of_wave hw (fun x => by rw [h1]; exact hid x) (by rw [h2]; rfl) (fun hi => by rw [h3]; exact hcl0 hi) h4
    cases e : nextFlag z.c.header z.c.ll with
    | none =>
      have := key id id (fun _ => rfl) (fun _ => rfl) (fun _ => rfl) rfl
      rw [hm] at this
      have he : nextFlag z.c.header (z.bundle g).place.ll = none := e
      rw [he]
      have q : ∀ (t : State) (o : Sparse Op), { endIssue { t with ops := o, nextOp := t.nextOp + 1 } (z.bundle g) with ops := t.ops, nextOp := t.nextOp }
          = endIssue t (z.bundle g) := by
        intro t o; unfold endIssue; split <;> rfl
      exact (q (begun s0 z.w (z.bundle g) i z.f) _).symm ▸ this
    | some n =>
      have := key (fun w => w.setFlag n (w.flag n + 1)) (fun w => w.setFlag n (w.flag n + 1)) (fun _ => rfl) (fun _ => rfl) (fun _ => rfl) rfl
      have he : nextFlag z.c.header (z.bundle g).place.ll = some n := e
      rw [he]
      have q : ∀ (t : State) (o : Sparse Op) (F : Wave → Wave), { endIssue (modWave { t with ops := o, nextOp := t.nextOp + 1 } (z.bundle g).wk F) (z.bundle g) with ops := t.ops, nextOp := t.nextOp }
          = endIssue (modWave t (z.bundle g).wk F) (z.bundle g) := by
        intro t o F; unfold endIssue; split <;> rfl
      exact (q (begun s0 z.w (z.bundle g) i z.f) _ _).symm ▸ this
  · rw [hops]
    have he : nextFlag z.c.header (z.bundle g).place.ll = nextFlag z.c.header z.c.ll := rfl
    rw [he]
    cases nextFlag z.c.header z.c.ll <;> rfl
  · rw [hnext]
    cases nextFlag z.c.header z.c.ll <;> rfl

/-! ### Fibres in that state, and changes of each of them -/

theorem begun_wave_given {s : State} {i : Instr} {g : Guard} {rel : Rel} {z : Site} (h : Ready s i g rel z) :
   (z.given g []).wave (begun s z.w (z.bundle g) i z.f) = some (begunWave z.w (z.bundle g)) := begun_wave s z.w (z.bundle g) _ z.f h.wave

theorem fibre_begun {z : Site} {g : Guard} {k : Nat} {y : Fibre} (hk : k ∈ (z.bundle g).act) (hy : sget k z.w.fibres = some y) :
   sget k (begunWave z.w (z.bundle g)).fibres = some (passed z.w (z.bundle g) k y) := by
  rw [begunWave_fibre, hy]
  have : (z.bundle g).all.contains k = true := by simpa using act_sub_all (z := z) (g := g) hk
  simp only [Option.map_some, this, if_true]

theorem fibre_begun' {z : Site} {g : Guard} {k : Nat} {y : Fibre} (hy : sget k (begunWave z.w (z.bundle g)).fibres = some y) :
   ∃ y', sget k z.w.fibres = some y' ∧ (y = y' ∨ y = passed z.w (z.bundle g) k y') := by
  rw [begunWave_fibre] at hy
  cases e : sget k z.w.fibres with
  | none => rw [e] at hy; simp at hy
  | some y' => 
    rw [e] at hy; simp only [Option.map_some, Option.some.injEq] at hy
    refine ⟨y', rfl, ?_⟩
    split at hy
    · exact .inr hy.symm
    · exact .inl hy.symm

@[simp] theorem passed_poisonedVec (w : Wave) (b : Bundle) (k : Nat) (y : Fibre) (r : Nat) (wd : Bool) :
   poisonedVec (passed w b k y) r wd = poisonedVec y r wd := by unfold poisonedVec; simp only [passed_vp]
@[simp] theorem passed_vecX (w : Wave) (b : Bundle) (k : Nat) (y : Fibre) (r : BitVec 8) (wd : Bool) :
   vecX wd r (passed w b k y) = vecX wd r y := by unfold vecX; simp only [passed_rv, passed_rv2]

theorem Runs.congr {s t : State} {w : Wave} {b : Bundle} {out : List Nat} {fx fx' : Nat → Fibre → Fibre} {gx : Wave → Wave}
    (h : Runs s t w b out fx gx) (e : ∀ k ∈ b.act, ∀ y, sget k w.fibres = some y → fx k (passed w b k y) = fx' k (passed w b k y)) :
    Runs s t w b out fx' gx := by
  obtain ⟨⟨v, h1, h2, h3⟩, h4, h5, h6, h7⟩ := h
  refine ⟨⟨v, h1, fun x => ?_, h3⟩, h4, h5, h6, h7⟩
  rw [h2]
  cases hx : sget x w.fibres with
  | none => rfl
  | some y =>
    simp only [Option.map_some]
    by_cases ha : x ∈ b.act
    · rw [e x ha y hx]
    · have : b.act.contains x = false := by simpa using ha
      simp only [this, Bool.false_eq_true, if_false]
/-- A meaning that is a change of each fibre. -/
theorem runs_same {s t : State} {i : Instr} {g : Guard} {rel : Rel} {z : Site} (h : Ready s i g rel z) (f : Nat → Fibre → Fibre) {fx : Nat → Fibre → Fibre}
    (ht : t = mapFibres (begun s z.w (z.bundle g) i z.f) z.wk (z.bundle g).act f)
    (e : ∀ k ∈ (z.bundle g).act, ∀ y, sget k z.w.fibres = some y → f k (passed z.w (z.bundle g) k y) = fx k (passed z.w (z.bundle g) k y)) :
   Runs s (endIssue t (z.bundle g)) z.w (z.bundle g) [] fx id := by
  rw [ht]
  exact (runs_mapFibres h f).congr e

end Sys2Proof.Machine
end

