-- ==== Sys2Proof/Laws/Access.lean ====
section
/-! SUPPORT. Accesses that reach memory directly: what forming, translating and performing them comes to where a core
caches the region entry and the leaves, no window is mapped, and nothing owns or holds back the bytes. -/

namespace Sys2Proof.Machine

/-! ### Translation -/

theorem translate_served {s : State} {core ctx tag : Nat} {need : Need} {va pa : Nat} (h : Served s core ctx tag need va pa) :
    ∃ pte p, translate s (some core) ctx va need = (s, .ok (pte, p)) ∧ (pte.testBit 63 = false ∨ tag = 0)
      ∧ pa = p - p % 4096 + va % 4096 := by
  obtain ⟨e, h1, h2, h3, h4, h5⟩ := h
  refine ⟨e.pte.toNat, leafPa e.pte.toNat e.bits va, ?_, h4, h5⟩
  unfold translate
  dsimp only
  rw [h1]
  dsimp only
  rw [if_pos]
  rw [h2, Bool.true_and]
  cases hw : need.writes with
  | false => rfl
  | true => simpa using h3 hw

theorem pageFrame_served {s : State} {core ctx tag : Nat} {need : Need} {va pa : Nat} (h : Served s core ctx tag need va pa)
    (own : Bool) (ag : Agent) (rid : Nat) :
    ∃ f, pageFrame s (some core) ctx need own tag ag rid va = (s, .ok f) ∧ pa = f + va % 4096 := by
  obtain ⟨pte, p, h1, h2, h3⟩ := translate_served h
  refine ⟨p - p % 4096, ?_, h3⟩
  unfold pageFrame
  rw [h1]
  dsimp only
  rw [if_pos]
  rcases h2 with h2 | h2
  · simp [h2]
  · simp [h2]

/-- Served addresses are translated without a change of the state. -/
theorem physical_served {s : State} {core ctx tag : Nat} {need : Need} {l : List (Nat × Nat)}
    (h : ∀ p ∈ l, Served s core ctx tag need p.1 p.2) (own : Bool) (ag : Agent) (rid : Nat) :
    physical s (some core) ctx need own tag ag rid (l.map (·.1)) = (s, .ok (l.map (·.2))) := by
  induction l with
  | nil => rfl
  | cons p l ih =>
    obtain ⟨f, h1, h2⟩ := pageFrame_served (h p (by simp)) own ag rid
    rw [List.map_cons, physical, h1]
    dsimp only
    rw [ih (fun q hq => h q (by simp [hq]))]
    dsimp only
    rw [← h2]
    rfl

/-! ### Nothing between -/

theorem foldl_same {α β : Type} (f : β → α → β) (b : β) (l : List α) (h : ∀ a ∈ l, f b a = b) : l.foldl f b = b := by
  induction l with
  | nil => rfl
  | cons a l ih => rw [List.foldl_cons, h a (by simp)]; exact ih (fun x hx => h x (by simp [hx]))

theorem snoopLine_open {s : State} (h : ∀ e ∈ s.gangs, e.2.windows = []) (line : Nat) (drop : Bool) : snoopLine s line drop = s := by
  unfold snoopLine
  exact foldl_same _ _ _ (fun g hg => by rw [h g hg]; rfl)

theorem snoop_open {s : State} (h : ∀ e ∈ s.gangs, e.2.windows = []) (pas : List Nat) (drop : Bool) : snoop s pas drop = s := by
  unfold snoop
  exact foldl_same _ _ _ (fun l _ => snoopLine_open h l drop)

theorem ownedVirtual_open {s : State} (h : Open s) : ∀ o ∈ ownedVirtual s none, o.2.2 = [] := by
  intro o ho
  unfold ownedVirtual at ho
  simp only [Option.all_none, List.filter_true, List.mem_append, List.mem_map] at ho
  rcases ho with ⟨e, he, rfl⟩ | ⟨e, he, rfl⟩
  · exact h.ops e he
  · exact h.reqs e he

theorem memOwned_open {s : State} (h : Open s) (pas : List Nat) : memOwned s none pas = false := by
  have e : ownedLines s none = [] := by
    unfold ownedLines
    rw [List.flatten_eq_nil_iff]
    intro l hl
    obtain ⟨o, ho, rfl⟩ := List.mem_map.1 hl
    rw [ownedVirtual_open h o ho]
    rfl
  unfold memOwned
  rw [e]
  rfl

theorem cellOwned_open {s : State} (h : Open s) (ctx tag : Nat) (vas : List Nat) : cellOwned s none ctx tag vas = false := by
  unfold cellOwned
  rw [Bool.and_eq_false_iff]
  right
  rw [List.any_eq_false]
  intro o ho
  rw [ownedVirtual_open h o ho]
  simp

theorem reachesOwned_open {s : State} (h : Open s) (ctx tag : Nat) (vas pas : List Nat) : reachesOwned s none ctx tag vas pas = false := by
  unfold reachesOwned
  rw [memOwned_open h, cellOwned_open h]
  rfl

/-- Between states with the same reports, an access is told of no page. -/
theorem Access.held_same {s t : State} (h : t.reports = s.reports) (a : Access) : a.held s t = a := by
  unfold Access.held
  rw [h, List.drop_length]
  cases a
  simp

/-! ### The state in which a meaning acts -/

theorem begun_tlb (s : State) (w : Wave) (b : Bundle) (i : Instr) (f : Form) (n : Nat) :
    (coreOf (begun s w b i f) n).tlb = (coreOf s n).tlb := by
  have h := congrArg Core.tlb (begun_cores s w b i f n)
  exact h
theorem begun_regions (s : State) (w : Wave) (b : Bundle) (i : Instr) (f : Form) (n : Nat) :
    (coreOf (begun s w b i f) n).regions = (coreOf s n).regions := by
  have h := congrArg Core.regions (begun_cores s w b i f n)
  exact h
theorem begun_silt (s : State) (w : Wave) (b : Bundle) (i : Instr) (f : Form) (n : Nat) :
    (coreOf (begun s w b i f) n).silt = (coreOf s n).silt := by
  have h := congrArg Core.silt (begun_cores s w b i f n)
  exact h
theorem begun_ccache (s : State) (w : Wave) (b : Bundle) (i : Instr) (f : Form) (n : Nat) :
    (coreOf (begun s w b i f) n).ccache = (coreOf s n).ccache := by
  have h := congrArg Core.ccache (begun_cores s w b i f n)
  exact h

theorem begun_served {s : State} {core ctx tag : Nat} {need : Need} {va pa : Nat} (w : Wave) (b : Bundle) (i : Instr) (f : Form)
    (h : Served s core ctx tag need va pa) : Served (begun s w b i f) core ctx tag need va pa := by
  unfold Served at *
  rw [begun_tlb]
  exact h

theorem begun_open {s : State} (w : Wave) (b : Bundle) (i : Instr) (f : Form) (h : Open s) : Open (begun s w b i f) :=
  ⟨h.windows, h.ops, h.reqs⟩

/-! ### Forming accesses -/

/-- Where no debugger serves the context, accesses that are formed go on. -/
theorem settle_go {s : State} {b : Bundle} (l : List Access) (h : ∀ a ∈ l, debugSlot s a.ctx = none) :
    settle s b (l.map .go) = (s, l) := by
  have hw : (l.map Formed.go).map (Formed.watch s b) = l.map .go := by
    rw [List.map_map]
    apply List.map_congr_left
    intro a ha
    simp only [Function.comp, Formed.watch]
    rw [h a ha]
    simp
  unfold settle
  rw [hw]
  dsimp only
  ext1
  · rw [List.foldl_map]
    exact foldl_same _ _ _ (fun _ _ => rfl)
  · rw [List.filterMap_map]
    simp

/-- The passing fibres as a meaning finds them. -/
theorem begun_fibs {s : State} {i : Instr} {g : Guard} {rel : Rel} {z : Site} (h : Ready s i g rel z) :
    (z.bundle g).act.filterMap (fun x => (fibreAt (begun s z.w (z.bundle g) i z.f) z.wk x).map (x, ·))
      = (theP (z.bundle g) z.w).map (fun e => (e.1, passed z.w (z.bundle g) e.1 e.2)) := by
  unfold theP
  rw [List.map_filterMap]
  apply List.filterMap_congr
  intro k hk
  obtain ⟨y, hy⟩ := act_fibre hk
  rw [begun_act h hk hy, hy]
  rfl

theorem mem_theP {b : Bundle} {w : Wave} {e : Nat × Fibre} (h : e ∈ theP b w) : e.1 ∈ b.act ∧ sget e.1 w.fibres = some e.2 := by
  unfold theP at h
  rw [List.mem_filterMap] at h
  obtain ⟨k, hk, hy⟩ := h
  cases e' : sget k w.fibres with
  | none => rw [e'] at hy; simp at hy
  | some y =>
    rw [e'] at hy
    simp only [Option.map_some, Option.some.injEq] at hy
    subst hy
    exact ⟨hk, e'⟩

/-- What every access of a fibre through a record starts from. -/
def startAccess (s : State) (z : Site) (b : Bundle) (buf : Buf) (p : Plan) (k : Nat) (y : Fibre) (va : List Nat) : Access :=
  { accessOf s b k y p.kind with
    rid := buf.rid, va := va, buf := BitVec.ofNat 8 p.k, ctx := ctxOf s z.wk
    syn0 := BitVec.ofNat 32 ((y.rv p.idx).toNat + p.off), syn1 := BitVec.ofNat 32 buf.extent }

theorem begun_rec4 {s : State} {i : Instr} {g : Guard} {rel : Rel} {z : Site} (h : Ready s i g rel z) (ws : List W32) (k : Nat) :
    (z.given g ws).rec4 (begun s z.w (z.bundle g) i z.f) k = z.w.record k := by
  have hw : sget z.wk (begun s z.w (z.bundle g) i z.f).waves = some (begunWave z.w (z.bundle g)) := begun_wave s z.w (z.bundle g) i z.f h.wave
  unfold Bundle.rec4 Bundle.wave
  rw [show (z.given g ws).wk = z.wk from rfl, hw]
  rfl

theorem begun_debugger {s : State} {i : Instr} {g : Guard} {rel : Rel} {z : Site} (h : Ready s i g rel z) :
    debugSlot (begun s z.w (z.bundle g) i z.f) (ctxOf s z.wk) = none := h.debugger

/-- Accesses through a record where every passing fibre's is formed and the region entry is cached. -/
theorem viaBuffer_go {s : State} {i : Instr} {g : Guard} {rel : Rel} {z : Site} (h : Ready s i g rel z) (b : Bundle)
    (hbw : b.wk = z.wk) (hba : b.act = (z.bundle g).act) (p : Plan)
    {mk : Fibre → Access → Except Cause Access} {idx : BitVec 8} {va : Nat → List Nat}
    (hi : p.idx = idx.toNat) (hv : (bufAt z.w p.k).valid = true) (hp : p.can (bufAt z.w p.k) = true)
    (ht : Forms s z g (bufAt z.w p.k) idx p.off p.fld p.len va) {acc : Nat → Fibre → Access}
    (hm : ∀ k ∈ (z.bundle g).act, ∀ y, sget k z.w.fibres = some y →
      mk (passed z.w (z.bundle g) k y) (startAccess s z b (bufAt z.w p.k) p k y (va k)) = .ok (acc k y))
    (hc : ∀ k ∈ (z.bundle g).act, ∀ y, sget k z.w.fibres = some y → (acc k y).ctx = ctxOf s z.wk) :
    viaBuffer (begun s z.w (z.bundle g) i z.f) b p mk
      = (begun s z.w (z.bundle g) i z.f, (theP (z.bundle g) z.w).map (fun e => acc e.1 e.2)) := by
  obtain ⟨re, hre, hall⟩ := ht
  have hctx : ctxOf (begun s z.w (z.bundle g) i z.f) z.wk = ctxOf s z.wk := begun_ctxOf s z.w (z.bundle g) i z.f h.wave
  have hrec : b.rec4 (begun s z.w (z.bundle g) i z.f) p.k = z.w.record p.k := by
    have := begun_rec4 h [] p.k
    unfold Bundle.rec4 Bundle.wave at this ⊢
    rw [hbw]
    exact this
  unfold viaBuffer
  dsimp only
  rw [hrec, hba, hbw, begun_fibs h]
  rw [show bufOf (z.w.record p.k) = bufAt z.w p.k from rfl, hv, hp]
  simp only [Bool.not_true, Bool.false_eq_true, if_false]
  have hr : regionOf (begun s z.w (z.bundle g) i z.f) (some (coreNo z.wk)) (ctxOf (begun s z.w (z.bundle g) i z.f) z.wk) (bufAt z.w p.k).rid
      = (begun s z.w (z.bundle g) i z.f, re) := by
    rw [hctx]
    unfold regionOf
    dsimp only
    rw [begun_regions, hre]
  rw [hr]
  dsimp only
  have hf : ((theP (z.bundle g) z.w).map (fun e => (e.1, passed z.w (z.bundle g) e.1 e.2))).map (fun q =>
      match formVas (bufAt z.w p.k) re (q.2.rv p.idx).toNat p.off p.fld p.len with
      | .error (sub, addr) => Formed.bad q.1
          { kind := 3, sub := sub, addr := addr, buf := BitVec.ofNat 8 p.k, acc := p.acc
            syn0 := BitVec.ofNat 32 ((q.2.rv p.idx).toNat + p.off), syn1 := BitVec.ofNat 32 (bufAt z.w p.k).extent }
      | .ok vas =>
        match mk q.2 { accessOf (begun s z.w (z.bundle g) i z.f) b q.1 q.2 p.kind with
                       rid := (bufAt z.w p.k).rid, va := vas, buf := BitVec.ofNat 8 p.k, syn0 := BitVec.ofNat 32 ((q.2.rv p.idx).toNat + p.off),
                       syn1 := BitVec.ofNat 32 (bufAt z.w p.k).extent } with
        | .ok a => .go a
        | .error c => .bad q.1 c)
      = ((theP (z.bundle g) z.w).map (fun e => acc e.1 e.2)).map .go := by
    rw [List.map_map, List.map_map]
    apply List.map_congr_left
    intro e he
    obtain ⟨hk, hy⟩ := mem_theP he
    have h1 := hall e.1 hk e.2 hy
    simp only [Function.comp, passed_rv]
    rw [hi, h1]
    dsimp only
    have hm' := hm e.1 hk e.2 hy
    have ha : ({ accessOf (begun s z.w (z.bundle g) i z.f) b e.1 (passed z.w (z.bundle g) e.1 e.2) p.kind with
                       rid := (bufAt z.w p.k).rid, va := va e.1, buf := BitVec.ofNat 8 p.k, syn0 := BitVec.ofNat 32 ((e.2.rv idx.toNat).toNat + p.off),
                       syn1 := BitVec.ofNat 32 (bufAt z.w p.k).extent } : Access)
        = startAccess s z b (bufAt z.w p.k) p e.1 e.2 (va e.1) := by
      unfold startAccess accessOf
      simp only [passed_ct, hbw, hctx, hi]
    rw [ha, hm']
  have hg : ∀ a ∈ (theP (z.bundle g) z.w).map (fun e => acc e.1 e.2), debugSlot (begun s z.w (z.bundle g) i z.f) a.ctx = none := by
    intro a ha
    rw [List.mem_map] at ha
    obtain ⟨e, he, rfl⟩ := ha
    obtain ⟨hk, hy⟩ := mem_theP he
    rw [hc e.1 hk e.2 hy]
    exact begun_debugger h
  exact (congrArg (settle _ b) hf).trans (settle_go _ hg)

/-- Nothing earlier of its fibre keeps an access from being performed. -/
theorem behind_clear {s : State} {wk : Nat} {slots : List Nat} {a : Access} (h : Clear s wk slots a.stash a.acq a.va) :
    behind s (coreNo wk) wk slots a = false := by
  unfold behind
  rw [h.1]
  cases e : a.acq with
  | false => rfl
  | true => rw [h.2 e]; rfl

theorem begun_clear {s : State} {wk : Nat} {slots vas : List Nat} {stash acq : Bool} (w : Wave) (b : Bundle) (i : Instr) (f : Form)
    (h : Clear s wk slots stash acq vas) : Clear (begun s w b i f) wk slots stash acq vas := by
  unfold Clear relLogged at *
  rw [begun_silt]
  exact h

/-! ### Loads -/

/-- A load whose bytes are served and that nothing holds back. -/
structure Loads (s : State) (core wk : Nat) (a : Access) (l : List (Nat × Nat)) : Prop where
  free : behind s core wk [a.slot] a = false
  stash : a.stash = false
  kind : a.kind = .load
  va : a.va = l.map (·.1)
  served : ∀ p ∈ l, Served s core a.ctx a.tag .read p.1 p.2
  silt : siltOverlap s core a.ctx a.va = false

theorem tryLoad_direct {s : State} {core wk gk : Nat} {a : Access} {l : List (Nat × Nat)} (ho : Open s) (h : Loads s core wk a l) :
    tryLoad s core wk gk a = (s, .done (l.map (fun p => byteOf s p.2))) := by
  unfold tryLoad
  have hk : (a.kind == AccKind.const) = false := by rw [h.kind]; rfl
  simp only [h.free, h.stash, Bool.false_eq_true, if_false, hk, h.silt]
  rw [h.va, physical_served h.served]
  dsimp only
  rw [reachesOwned_open ho]
  simp only [Bool.false_eq_true, if_false, bytesAt, snoop_open ho.windows, List.map_map]
  rfl

/-- Loads that are all performed at once give what their bytes are. -/
theorem tryAccesses_loads {s : State} {core wk gk : Nat} (ho : Open s) (l : List (Access × List (Nat × Nat))) (hn : l ≠ [])
    (h : ∀ e ∈ l, Loads s core wk e.1 e.2) (hq : ∀ e ∈ l, e.1.isQ = false) :
    tryAccesses s core wk gk (l.map (·.1))
      = { st := s, give := (l.map (fun e => e.1.give (e.2.map (fun p => byteOf s p.2)))).flatten } := by
  have key : ∀ (l : List (Access × List (Nat × Nat))), (∀ e ∈ l, Loads s core wk e.1 e.2) → (∀ e ∈ l, e.1.isQ = false) →
      ∀ give : List Delivery, (l.map (·.1)).foldl (fun (t : Tried) a =>
      let a := a.held s t.st
      match tryLoad t.st core wk gk a with
      | (s, .held) => { t with st := s, held := t.held ++ [a.held t.st s] }
      | (s, .fail sub addr) => { t with st := s, bad := t.bad ++ [(a, sub, addr)] }
      | (s, .done bs) =>
        if a.isQ then { t with st := s, giveQ := t.giveQ ++ [a.giveQ bs] } else { t with st := s, give := t.give ++ a.give bs })
        { st := s, give := give } = { st := s, give := give ++ (l.map (fun e => e.1.give (e.2.map (fun p => byteOf s p.2)))).flatten } := by
    intro l
    induction l with
    | nil => intro _ _ give; simp
    | cons e l ih =>
      intro h hq give
      rw [List.map_cons, List.foldl_cons]
      dsimp only
      rw [Access.held_same rfl, tryLoad_direct ho (h e (by simp))]
      simp only [hq e (by simp), Bool.false_eq_true, if_false]
      rw [ih (fun x hx => h x (by simp [hx])) (fun x hx => hq x (by simp [hx]))]
      simp
  obtain ⟨e, l', rfl⟩ := List.exists_cons_of_ne_nil hn
  unfold tryAccesses
  have : ((e :: l').map (·.1)).head?.map Access.kind = some .load := by simp [(h e (by simp)).kind]
  rw [this]
  exact (key (e :: l') h hq []).trans (by simp)

theorem startAccesses_loads {s : State} {b : Bundle} (ho : Open s) (l : List (Access × List (Nat × Nat))) (hn : l ≠ [])
    (h : ∀ e ∈ l, Loads s (coreNo b.wk) b.wk e.1 e.2) (hq : ∀ e ∈ l, e.1.isQ = false) :
    startAccesses s b (l.map (·.1))
      = startOp s b (.load ((l.map (fun e => e.1.give (e.2.map (fun p => byteOf s p.2)))).flatten) [] []) := by
  unfold startAccesses
  rw [tryAccesses_loads ho l hn h hq]
  obtain ⟨e, l', rfl⟩ := List.exists_cons_of_ne_nil hn
  have hs : ((e :: l').map (·.1)).all (fun a => a.kind == .store || a.kind == .red) = false := by
    simp only [List.map_cons, List.all_cons]
    rw [(h e (by simp)).kind]
    rfl
  simp only [hs, Bool.false_eq_true, if_false]
  rfl

theorem theP_ne {z : Site} {g : Guard} (h : (z.bundle g).act ≠ []) : theP (z.bundle g) z.w ≠ [] := by
  obtain ⟨k, l, e⟩ := List.exists_cons_of_ne_nil h
  obtain ⟨y, hy⟩ := act_fibre (z := z) (g := g) (x := k) (by rw [e]; simp)
  unfold theP
  rw [e, List.filterMap_cons, hy]
  simp

/-- Over the passing slots with their fibres, what depends on the slot only is over the slots. -/
theorem theP_map {α : Type} (z : Site) (g : Guard) (f : Nat → α) :
    (theP (z.bundle g) z.w).map (fun e => f e.1) = (z.bundle g).act.map f := by
  unfold theP
  rw [List.map_filterMap]
  have : ∀ l : List Nat, (∀ k ∈ l, ∃ y, sget k z.w.fibres = some y) →
      l.filterMap (fun k => ((sget k z.w.fibres).map (fun y => (k, y))).map (fun e => f e.1)) = l.map f := by
    intro l hl
    induction l with
    | nil => rfl
    | cons a l ih =>
      obtain ⟨y, hy⟩ := hl a (by simp)
      rw [List.filterMap_cons, hy]
      simp only [Option.map_some, List.map_cons]
      rw [ih (fun k hk => hl k (by simp [hk]))]
  exact this _ (fun k hk => act_fibre hk)

/-- What makes an access a load of served bytes into vector registers. -/
structure LoadForm (s : State) (z : Site) (acq : Bool) (tag : Fibre → Nat) (reach : Nat → List (Nat × Nat)) (k : Nat) (y : Fibre) (a : Access) : Prop where
  slot : a.slot = k
  acq : a.acq = acq
  stash : a.stash = false
  kind : a.kind = .load
  va : a.va = (reach k).map (·.1)
  ctx : a.ctx = ctxOf s z.wk
  tag : a.tag = tag y
  isQ : a.isQ = false

/-- Loads through a record. -/
theorem loadsVia {s : State} {i : Instr} {g : Guard} {rel : Rel} {z : Site} (h : Ready s i g rel z) (p : Plan)
    {mk : Fibre → Access → Except Cause Access} {idx : BitVec 8} {acq : Bool} {tag : Fibre → Nat} {reach : Nat → List (Nat × Nat)}
    (hi : p.idx = idx.toNat) (hv : (bufAt z.w p.k).valid = true) (hp : p.can (bufAt z.w p.k) = true)
    (ht : Through s z g (bufAt z.w p.k) idx p.off p.fld p.len tag .read reach) {acc : Nat → Fibre → Access}
    (hm : ∀ k ∈ (z.bundle g).act, ∀ y, sget k z.w.fibres = some y →
      mk (passed z.w (z.bundle g) k y) (startAccess s z (z.given g []) (bufAt z.w p.k) p k y ((reach k).map (·.1))) = .ok (acc k y))
    (hc : ∀ k ∈ (z.bundle g).act, ∀ y, sget k z.w.fibres = some y → LoadForm s z acq tag reach k y (acc k y))
    (ho : Open s) (ha : (z.bundle g).act ≠ [])
    (hb : ∀ k ∈ (z.bundle g).act, Clear s z.wk [k] false acq ((reach k).map (·.1)))
    (hs : ∀ k ∈ (z.bundle g).act, siltOverlap s (coreNo z.wk) (ctxOf s z.wk) ((reach k).map (·.1)) = false) :
    startFormed (z.given g []) (viaBuffer (begun s z.w (z.bundle g) i z.f) (z.given g []) p mk)
      = startOp (begun s z.w (z.bundle g) i z.f) (z.given g [])
          (.load ((theP (z.bundle g) z.w).map (fun e => (acc e.1 e.2).give ((reach e.1).map (fun q => byteOf s q.2)))).flatten [] []) := by
  rw [viaBuffer_go h (z.given g []) rfl rfl p hi hv hp ht.1 hm (fun k hk y hy => (hc k hk y hy).ctx)]
  unfold startFormed
  have hl := startAccesses_loads (b := z.given g []) (begun_open z.w (z.bundle g) i z.f ho)
    ((theP (z.bundle g) z.w).map (fun e => (acc e.1 e.2, reach e.1))) (by simpa using theP_ne ha) ?_ ?_
  · rw [List.map_map, List.map_map] at hl
    exact hl
  · intro e he
    rw [List.mem_map] at he
    obtain ⟨q, hq, rfl⟩ := he
    obtain ⟨h1, h2⟩ := mem_theP hq
    have hf := hc q.1 h1 q.2 h2
    have hall := ht.2
    refine ⟨behind_clear (begun_clear z.w (z.bundle g) i z.f ?_), hf.stash, hf.kind, hf.va, fun p hp => ?_, ?_⟩
    · rw [hf.slot, hf.stash, hf.acq, hf.va]
      exact hb q.1 h1
    · rw [hf.ctx, hf.tag]
      exact begun_served _ _ _ _ (hall q.1 h1 q.2 h2 p hp)
    · have := hs q.1 h1
      rw [hf.ctx, hf.va]
      unfold siltOverlap at this ⊢
      rw [begun_silt]
      exact this
  · intro e he
    rw [List.mem_map] at he
    obtain ⟨q, hq, rfl⟩ := he
    obtain ⟨h1, h2⟩ := mem_theP hq
    exact (hc q.1 h1 q.2 h2).isQ

/-! ### Stores -/

/-- Memory with other bytes. -/
def State.withMem (s : State) (m : List Host.Cell) (p : List Nat) : State := { s with mem := m, memPois := p }

theorem resources_withMem (s : State) (m : List Host.Cell) (p : List Nat) (wk : Nat) (w : Wave) (i : Instr) (f : Form) (all act : List Nat) :
    resources (s.withMem m p) wk w i f all act = (resources s wk w i f all act).withMem m p := by
  unfold resources countIssue
  simp only [show firstOfPair (s.withMem m p) w = firstOfPair s w from rfl]
  repeat' split
  all_goals rfl

/-- Other bytes of memory pass by an issue. -/
theorem begun_withMem (s : State) (m : List Host.Cell) (p : List Nat) (w : Wave) (b : Bundle) (i : Instr) (f : Form) :
    begun (s.withMem m p) w b i f = (begun s w b i f).withMem m p := by
  unfold begun occupy
  rw [resources_withMem]
  rfl

theorem served_withMem {s : State} {core ctx tag : Nat} {need : Need} {va pa : Nat} (m : List Host.Cell) (p : List Nat)
    (h : Served s core ctx tag need va pa) : Served (s.withMem m p) core ctx tag need va pa := h
theorem open_withMem {s : State} (m : List Host.Cell) (p : List Nat) (h : Open s) : Open (s.withMem m p) := ⟨h.windows, h.ops, h.reqs⟩

/-- The bytes that cells leave. -/
def putAll (m : List Host.Cell) (l : List Host.Cell) : List Host.Cell := l.foldl (fun m c => sputD unlisted c.1 c.2 m) m

theorem putAll_append (m l l' : List Host.Cell) : putAll m (l ++ l') = putAll (putAll m l) l' := by
  simp [putAll, List.foldl_append]

/-- An address that no cell names keeps its byte. -/
theorem putAll_other {m l : List Host.Cell} {p : Nat} (h : ∀ c ∈ l, c.1 ≠ p) : sgetD unlisted (putAll m l) p = sgetD unlisted m p := by
  induction l generalizing m with
  | nil => rfl
  | cons c l ih =>
    change sgetD unlisted (putAll (sputD unlisted c.1 c.2 m) l) p = _
    rw [ih (fun x hx => h x (by simp [hx])), sgetD_sputD_ne (Ne.symm (h c (by simp)))]

/-- An address that cells name, all with one byte, holds it. -/
theorem putAll_named {m l : List Host.Cell} {p : Nat} {b : Byte} (h : ∀ c ∈ l, c.1 = p → c.2 = b) (hm : ∃ c ∈ l, c.1 = p) :
    sgetD unlisted (putAll m l) p = b := by
  induction l generalizing m with
  | nil => obtain ⟨c, hc, -⟩ := hm; simp at hc
  | cons c l ih =>
    change sgetD unlisted (putAll (sputD unlisted c.1 c.2 m) l) p = _
    by_cases hl : ∃ x ∈ l, x.1 = p
    · exact ih (fun x hx => h x (by simp [hx])) hl
    · have hl' : ∀ x ∈ l, x.1 ≠ p := fun x hx e => hl ⟨x, hx, e⟩
      rw [putAll_other hl']
      obtain ⟨x, hx, he⟩ := hm
      rcases List.mem_cons.1 hx with rfl | hx
      · rw [he, h x (by simp) he, sgetD_sputD_self]
      · exact absurd he (hl' x hx)

theorem writeBytes_open {s : State} (h : Open s) (cells : List Host.Cell) (pois : Bool) :
    writeBytes s cells pois = s.withMem (putAll s.mem cells) (poisonAfter s.memPois (cells.map (·.1)) pois) := by
  have key : ∀ (l : List Host.Cell) (t : State), l.foldl (fun s c => pPut s c.1 c.2) t = t.withMem (putAll t.mem l) t.memPois := by
    intro l
    induction l with
    | nil => intro t; rfl
    | cons c l ih => intro t; rw [List.foldl_cons, ih]; rfl
  unfold writeBytes
  rw [snoop_open h.windows]
  dsimp only
  rw [key]
  rfl

/-- A byte to be stored: its address, its byte of memory, the data and whether it is poisoned. -/
abbrev Put := (Nat × Nat) × Byte × Bool

/-- A store whose bytes are served and that nothing makes wait. -/
structure Stores (s : State) (core wk : Nat) (a : Access) (l : List Put) : Prop where
  free : behind s core wk [a.slot] a = false
  stash : a.stash = false
  kind : a.kind = .store
  own : a.sel = .own
  va : a.va = l.map (·.1.1)
  data : a.data = l.map (·.2.1)
  pois : a.pois = l.map (·.2.2)
  served : ∀ e ∈ l, Served s core a.ctx a.tag .write e.1.1 e.1.2
  follow : mustFollow s core wk [a.slot] a.ctx a.va = false

theorem siltOverlap_mono {e : SiltEntry} {ctx : Nat} {l l' : List Nat} (h : ∀ x ∈ l', x ∈ l) (hf : e.overlaps ctx l = false) :
    e.overlaps ctx l' = false := by
  unfold SiltEntry.overlaps at *
  rw [Bool.and_eq_false_iff] at *
  rcases hf with hf | hf
  · exact .inl hf
  · right
    rw [List.any_eq_false] at *
    exact fun x hx => hf x (h x hx)

theorem mustFollow_mono {s : State} {core wk ctx : Nat} {slots l l' : List Nat} (h : ∀ x ∈ l', x ∈ l)
    (hf : mustFollow s core wk slots ctx l = false) : mustFollow s core wk slots ctx l' = false := by
  unfold mustFollow at *
  rw [List.any_eq_false] at *
  intro e he
  have := hf e he
  simp only [Bool.or_eq_true, not_or, Bool.not_eq_true] at *
  refine ⟨siltOverlap_mono h this.1, ?_⟩
  have h2 := this.2
  rw [Bool.and_eq_false_iff] at *
  rcases h2 with h2 | h2
  · exact .inl h2
  · right
    rw [List.any_eq_false] at *
    exact fun x hx => h2 x (h x hx)

theorem mem_insertNat {k u : Nat} {l : List Nat} : u ∈ insertNat k l ↔ u = k ∨ u ∈ l := by
  induction l with
  | nil => simp [insertNat]
  | cons a l ih =>
    unfold insertNat
    split
    · simp
    · split
      · rename_i h; subst h; simp
      · simp only [List.mem_cons, ih]; tauto

theorem mem_foldl_insertNat {l old : List Nat} {u : Nat} : u ∈ l.foldl (fun l u => insertNat u l) old ↔ u ∈ l ∨ u ∈ old := by
  induction l generalizing old with
  | nil => simp
  | cons a l ih => rw [List.foldl_cons, ih, mem_insertNat]; simp only [List.mem_cons]; tauto

theorem mem_dedup_of {l : List Nat} {u : Nat} : ∀ {seen : List Nat}, u ∈ dedup seen l → u ∈ l := by
  induction l with
  | nil => intro seen h; simp [dedup] at h
  | cons a l ih =>
    intro seen h
    unfold dedup at h
    split at h
    · exact List.mem_cons_of_mem _ (ih h)
    · rcases List.mem_cons.1 h with rfl | h
      · simp
      · exact List.mem_cons_of_mem _ (ih h)

/-- A write leaves the poison of the units in which it has no byte. -/
theorem mem_poisonAfter {old pas : List Nat} {pois : Bool} {u : Nat} (h : ∀ a ∈ pas, a / 64 ≠ u) :
    u ∈ poisonAfter old pas pois ↔ u ∈ old := by
  have hn : u ∉ dedup [] (pas.map (· / 64)) := by
    intro hu
    obtain ⟨a, ha, e⟩ := List.mem_map.1 (mem_dedup_of hu)
    exact h a ha e
  unfold poisonAfter
  dsimp only
  split
  · rw [mem_foldl_insertNat]
    exact ⟨fun h => h.resolve_left hn, .inr⟩
  · rw [List.mem_filter]
    exact ⟨fun h => h.1, fun h => ⟨h, by simp [hn]⟩⟩

/-- Blocks of a store, all served, are written at once. -/
theorem storeBlocks_direct {s : State} {core wk : Nat} {a : Access} (ho : Open s) (bl : List (List Put × Bool))
    (hs : ∀ b ∈ bl, ∀ e ∈ b.1, Served s core a.ctx a.tag .write e.1.1 e.1.2)
    (hf : ∀ b ∈ bl, mustFollow s core wk [a.slot] a.ctx (b.1.map (·.1.1)) = false) :
    ∀ m p, ∃ p', storeBlocks (s.withMem m p) core wk a (bl.map (fun b => (b.1.map (·.1.1), b.1.map (·.2.1), b.2)))
      = (s.withMem (putAll m ((bl.map (fun b => b.1.map (fun e => (e.1.2, e.2.1)))).flatten)) p', none)
      ∧ ∀ u, (∀ b ∈ bl, ∀ e ∈ b.1, e.1.2 / 64 ≠ u) → (u ∈ p' ↔ u ∈ p) := by
  induction bl with
  | nil => intro m p; exact ⟨p, rfl, fun _ _ => Iff.rfl⟩
  | cons b bl ih =>
    intro m p
    have h1 := hf b (by simp)
    have h1' : mustFollow (s.withMem m p) core wk [a.slot] a.ctx (b.1.map (·.1.1)) = false := h1
    rw [List.map_cons, storeBlocks]
    dsimp only
    rw [h1']
    simp only [Bool.false_eq_true, if_false]
    have hp : physical (s.withMem m p) (some core) a.ctx .write (a.sel == .own) a.tag { core := core } a.rid (b.1.map (·.1.1))
        = (s.withMem m p, .ok (b.1.map (·.1.2))) := by
      have := physical_served (s := s.withMem m p) (core := core) (ctx := a.ctx) (tag := a.tag) (need := .write) (l := b.1.map (·.1))
        (fun q hq => by
          rw [List.mem_map] at hq
          obtain ⟨e, he, rfl⟩ := hq
          exact served_withMem m p (hs b (by simp) e he)) (a.sel == .own) { core := core } a.rid
      rw [List.map_map, List.map_map] at this
      exact this
    have hput : putBytes (s.withMem m p) (some core) a (b.1.map (·.1.1)) (b.1.map (·.2.1)) b.2
        = (s.withMem (putAll m (b.1.map (fun e => (e.1.2, e.2.1)))) (poisonAfter p (b.1.map (·.1.2)) b.2), .ok ()) := by
      unfold putBytes
      rw [show (some core).getD 0 = core from rfl, hp]
      dsimp only
      rw [reachesOwned_open (open_withMem m p ho)]
      simp only [Bool.false_eq_true, if_false]
      rw [writeBytes_open (open_withMem m p ho)]
      have hz : (b.1.map (·.1.2)).zip (b.1.map (·.2.1)) = b.1.map (fun e => (e.1.2, e.2.1)) := by
        rw [List.zip_map']
      rw [hz]
      have hm : (b.1.map (fun e => (e.1.2, e.2.1))).map (·.1) = b.1.map (·.1.2) := by rw [List.map_map]; rfl
      rw [hm]
      rfl
    rw [hput]
    dsimp only
    obtain ⟨p', h3, h4⟩ := ih (fun x hx => hs x (by simp [hx])) (fun x hx => hf x (by simp [hx]))
      (putAll m (b.1.map (fun e => (e.1.2, e.2.1)))) (poisonAfter p (b.1.map (·.1.2)) b.2)
    refine ⟨p', ?_, ?_⟩
    · rw [h3, List.map_cons, List.flatten_cons, putAll_append]
    · intro u hu
      rw [h4 u (fun x hx => hu x (by simp [hx]))]
      refine mem_poisonAfter (fun a ha => ?_)
      rw [List.mem_map] at ha
      obtain ⟨e, he, rfl⟩ := ha
      exact hu b (by simp) e he

/-- The bytes and poison that a store has left: those of the cells, each a byte of `l`. -/
structure Left (m m' : List Host.Cell) (p p' : List Nat) (l : List Put) : Prop where
  cells : ∃ c, m' = putAll m c ∧ ∀ x, x ∈ c ↔ ∃ e ∈ l, x = (e.1.2, e.2.1)
  pois : ∀ u, (∀ e ∈ l, e.1.2 / 64 ≠ u) → (u ∈ p' ↔ u ∈ p)

theorem Left.trans {m m' m'' : List Host.Cell} {p p' p'' : List Nat} {l l' : List Put} (h : Left m m' p p' l) (h' : Left m' m'' p' p'' l') :
    Left m m'' p p'' (l ++ l') := by
  obtain ⟨⟨c, rfl, hc⟩, hp⟩ := h
  obtain ⟨⟨c', rfl, hc'⟩, hp'⟩ := h'
  refine ⟨⟨c ++ c', (putAll_append _ _ _).symm, fun x => ?_⟩, fun u hu => ?_⟩
  · rw [List.mem_append, hc, hc']
    constructor
    · rintro (⟨e, he, hx⟩ | ⟨e, he, hx⟩)
      · exact ⟨e, List.mem_append_left _ he, hx⟩
      · exact ⟨e, List.mem_append_right _ he, hx⟩
    · rintro ⟨e, he, hx⟩
      rcases List.mem_append.1 he with he | he
      · exact .inl ⟨e, he, hx⟩
      · exact .inr ⟨e, he, hx⟩
  · rw [hp' u (fun e he => hu e (List.mem_append_right _ he)), hp u (fun e he => hu e (List.mem_append_left _ he))]

theorem tryStore_direct {s : State} {core wk gk : Nat} {a : Access} {l : List Put} (ho : Open s) (h : Stores s core wk a l)
    (m : List Host.Cell) (p : List Nat) :
    ∃ m' p', tryStore (s.withMem m p) core wk gk a = (s.withMem m' p', none) ∧ Left m m' p p' l := by
  let keys : List Nat := (a.va.map (· / 64)).foldl (fun l k => insertNat k l) []
  let bl : List (List Put × Bool) := keys.map (fun k => (l.filter (fun e => e.1.1 / 64 = k), (l.filter (fun e => e.1.1 / 64 = k)).any (·.2.2)))
  have hb : a.blocks = bl.map (fun b => (b.1.map (·.1.1), b.1.map (·.2.1), b.2)) := by
    have hc : a.va.zip (a.data.zip a.pois) = l.map (fun e => (e.1.1, e.2.1, e.2.2)) := by
      rw [h.va, h.data, h.pois, List.zip_map', List.zip_map']
    unfold Access.blocks
    dsimp only
    rw [hc]
    change keys.map _ = _
    rw [List.map_map]
    apply List.map_congr_left
    intro k _
    simp only [List.filter_map, List.map_map, List.any_map, Function.comp_def]
  have hsub : ∀ b ∈ bl, ∀ e ∈ b.1, e ∈ l := by
    intro b hb e he
    obtain ⟨k, -, rfl⟩ := List.mem_map.1 hb
    exact (List.mem_filter.1 he).1
  obtain ⟨p', h1, h2⟩ := storeBlocks_direct (core := core) (wk := wk) (a := a) ho bl
    (fun b hb e he => h.served e (hsub b hb e he))
    (fun b hb => mustFollow_mono (fun x hx => by
      obtain ⟨e, he, rfl⟩ := List.mem_map.1 hx
      rw [h.va]
      exact List.mem_map_of_mem (hsub b hb e he)) h.follow) m p
  refine ⟨_, p', ?_, ⟨⟨(bl.map (fun b => b.1.map (fun e => (e.1.2, e.2.1)))).flatten, rfl, ?_⟩, ?_⟩⟩
  · unfold tryStore
    rw [show behind (s.withMem m p) core wk [a.slot] a = false from h.free]
    simp only [h.stash, Bool.false_eq_true, if_false]
    rw [hb]
    exact h1
  · intro x
    rw [List.mem_flatten]
    constructor
    · rintro ⟨q, hq, hx⟩
      obtain ⟨b, hb, rfl⟩ := List.mem_map.1 hq
      obtain ⟨e, he, rfl⟩ := List.mem_map.1 hx
      exact ⟨e, hsub b hb e he, rfl⟩
    · rintro ⟨e, he, rfl⟩
      have hk : e.1.1 / 64 ∈ keys := by
        rw [mem_foldl_insertNat]
        left
        rw [h.va, List.map_map]
        exact List.mem_map_of_mem (f := fun e : Put => e.1.1 / 64) he
      refine ⟨_, List.mem_map_of_mem (List.mem_map_of_mem hk), ?_⟩
      exact List.mem_map_of_mem (f := fun e : Put => (e.1.2, e.2.1)) (List.mem_filter.2 ⟨he, by simp⟩)
  · exact fun u hu => h2 u (fun b hb e he => hu e (hsub b hb e he))

/-- Stores that are all performed at once. -/
theorem tryAccesses_stores {s : State} {core wk gk : Nat} (ho : Open s) (l : List (Access × List Put)) (hn : l ≠ [])
    (h : ∀ e ∈ l, Stores s core wk e.1 e.2) :
    ∃ m' p', tryAccesses s core wk gk (l.map (·.1)) = { st := s.withMem m' p' } ∧ Left s.mem m' s.memPois p' (l.map (·.2)).flatten := by
  have key : ∀ (l : List (Access × List Put)), (∀ e ∈ l, Stores s core wk e.1 e.2) → ∀ m p, ∃ m' p',
      (l.map (·.1)).foldl (fun (t : Tried) a =>
        if a.meets t.held then { t with held := t.held ++ [a] }
        else
          let r := tryStore t.st core wk gk (a.held s t.st)
          { t with st := r.1, held := t.held ++ r.2.toList.map (·.held t.st r.1) }) { st := s.withMem m p }
        = { st := s.withMem m' p' } ∧ Left m m' p p' (l.map (·.2)).flatten := by
    intro l
    induction l with
    | nil => intro _ m p; exact ⟨m, p, rfl, ⟨[], rfl, by simp⟩, fun _ _ => Iff.rfl⟩
    | cons e l ih =>
      intro h m p
      obtain ⟨m1, p1, h1, h2⟩ := tryStore_direct (gk := gk) ho (h e (by simp)) m p
      obtain ⟨m2, p2, h3, h4⟩ := ih (fun x hx => h x (by simp [hx])) m1 p1
      refine ⟨m2, p2, ?_, ?_⟩
      · rw [List.map_cons, List.foldl_cons]
        dsimp only
        rw [show e.1.meets [] = false from rfl, Access.held_same (show (s.withMem m p).reports = s.reports from rfl), h1]
        exact h3
      · rw [List.map_cons, List.flatten_cons]
        exact h2.trans h4
  obtain ⟨e, l', rfl⟩ := List.exists_cons_of_ne_nil hn
  obtain ⟨m', p', h1, h2⟩ := key (e :: l') h s.mem s.memPois
  refine ⟨m', p', ?_, h2⟩
  unfold tryAccesses
  have : ((e :: l').map (·.1)).head?.map Access.kind = some .store := by simp [(h e (by simp)).kind]
  rw [this]
  exact h1

theorem startAccesses_stores {s : State} {b : Bundle} (ho : Open s) (l : List (Access × List Put)) (hn : l ≠ [])
    (h : ∀ e ∈ l, Stores s (coreNo b.wk) b.wk e.1 e.2) :
    ∃ m' p', startAccesses s b (l.map (·.1)) = startOp (s.withMem m' p') b (.store [])
      ∧ Left s.mem m' s.memPois p' (l.map (·.2)).flatten := by
  obtain ⟨m', p', h1, h2⟩ := tryAccesses_stores (gk := gangOf s b.wk) ho l hn h
  refine ⟨m', p', ?_, h2⟩
  unfold startAccesses
  rw [h1]
  have hs : (l.map (·.1)).all (fun a => a.kind == .store || a.kind == .red) = true := by
    rw [List.all_eq_true]
    intro a ha
    obtain ⟨e, he, rfl⟩ := List.mem_map.1 ha
    rw [(h e he).kind]
    rfl
  simp only [hs, if_true]
  rfl

/-- What makes an access a store of served bytes. -/
structure StoreForm (s : State) (z : Site) (acq : Bool) (tag : Fibre → Nat) (reach : Nat → List (Nat × Nat)) (data : Nat → Nat → Byte)
    (k : Nat) (y : Fibre) (a : Access) : Prop where
  stash : a.stash = false
  kind : a.kind = .store
  own : a.sel = .own
  va : a.va = (reach k).map (·.1)
  ctx : a.ctx = ctxOf s z.wk
  tag : a.tag = tag y
  slot : a.slot = k
  acq : a.acq = acq
  data : a.data = (List.range (reach k).length).map (data k)
  pois : a.pois.length = (reach k).length

/-- The bytes of such a store. -/
def putsOf (reach : List (Nat × Nat)) (data : Nat → Byte) (pois : List Bool) : List Put :=
  reach.zip (((List.range reach.length).map data).zip pois)

theorem putsOf_mem {reach : List (Nat × Nat)} {data : Nat → Byte} {pois : List Bool} {e : Put} (h : e ∈ putsOf reach data pois) :
    ∃ j, reach[j]? = some e.1 ∧ e.2.1 = data j := by
  obtain ⟨j, hj⟩ := List.mem_iff_getElem?.1 h
  unfold putsOf at hj
  rw [List.getElem?_zip_eq_some, List.getElem?_zip_eq_some] at hj
  obtain ⟨h1, h2, -⟩ := hj
  refine ⟨j, h1, ?_⟩
  have hlt : j < reach.length := (List.getElem?_eq_some_iff.1 h1).1
  rw [List.getElem?_map, List.getElem?_range hlt] at h2
  simpa using h2.symm

theorem putsOf_at {reach : List (Nat × Nat)} {data : Nat → Byte} {pois : List Bool} (hl : pois.length = reach.length) {j : Nat} {q : Nat × Nat}
    (h : reach[j]? = some q) : ∃ b, (q, data j, b) ∈ putsOf reach data pois := by
  have hlt : j < reach.length := (List.getElem?_eq_some_iff.1 h).1
  obtain ⟨b, hb⟩ : ∃ b, pois[j]? = some b := ⟨pois[j], by simp⟩
  refine ⟨b, List.mem_iff_getElem?.2 ⟨j, ?_⟩⟩
  unfold putsOf
  rw [List.getElem?_zip_eq_some, List.getElem?_zip_eq_some]
  exact ⟨h, by rw [List.getElem?_map, List.getElem?_range hlt]; rfl, hb⟩

/-- What stores leave, as `Wrote` says it. -/
theorem Left.wrote {s : State} {m' : List Host.Cell} {p' : List Nat} {act : List Nat} {reach : Nat → List (Nat × Nat)} {data : Nat → Nat → Byte}
    {pois : Nat → List Bool} (h : Left s.mem m' s.memPois p' (act.map (fun k => putsOf (reach k) (data k) (pois k))).flatten)
    (hl : ∀ k ∈ act, (pois k).length = (reach k).length) {t : State} (hm : t.mem = m') (hp : t.memPois = p') : Wrote s t act reach data := by
  obtain ⟨⟨c, hc, hmem⟩, hpo⟩ := h
  have hin : ∀ e, e ∈ (act.map (fun k => putsOf (reach k) (data k) (pois k))).flatten → ∃ k ∈ act, ∃ j, (reach k)[j]? = some e.1 ∧ e.2.1 = data k j := by
    intro e he
    obtain ⟨q, hq, he⟩ := List.mem_flatten.1 he
    obtain ⟨k, hk, rfl⟩ := List.mem_map.1 hq
    obtain ⟨j, h1, h2⟩ := putsOf_mem he
    exact ⟨k, hk, j, h1, h2⟩
  refine ⟨?_, ?_, ?_⟩
  · intro k hk j v p hr hu
    unfold pByte
    rw [hm, hc]
    apply putAll_named
    · intro x hx hxp
      obtain ⟨e, he, rfl⟩ := (hmem x).1 hx
      obtain ⟨k', hk', j', h1, h2⟩ := hin e he
      obtain ⟨rfl, rfl⟩ := hu k' hk' j' e.1.1 (by rw [h1, ← hxp])
      exact h2
    · obtain ⟨b, hb⟩ := putsOf_at (data := data k) (hl k hk) hr
      refine ⟨_, (hmem (p, data k j)).2 ⟨_, List.mem_flatten.2 ⟨_, List.mem_map_of_mem hk, hb⟩, rfl⟩, rfl⟩
  · intro p hp'
    unfold pByte
    rw [hm, hc]
    apply putAll_other
    intro x hx hxp
    obtain ⟨e, he, rfl⟩ := (hmem x).1 hx
    obtain ⟨k, hk, j, h1, -⟩ := hin e he
    exact hp' k hk e.1 (List.mem_of_getElem? h1) hxp
  · intro u hu
    rw [hp]
    refine hpo u (fun e he heu => ?_)
    obtain ⟨k, hk, j, h1, -⟩ := hin e he
    exact hu k hk e.1 (List.mem_of_getElem? h1) heu

/-- Stores through a record. -/
theorem storesVia {s : State} {i : Instr} {g : Guard} {rel : Rel} {z : Site} (h : Ready s i g rel z) (p : Plan)
    {mk : Fibre → Access → Except Cause Access} {idx : BitVec 8} {acq : Bool} {tag : Fibre → Nat} {reach : Nat → List (Nat × Nat)} {data : Nat → Nat → Byte}
    (hi : p.idx = idx.toNat) (hv : (bufAt z.w p.k).valid = true) (hp : p.can (bufAt z.w p.k) = true)
    (ht : Through s z g (bufAt z.w p.k) idx p.off p.fld p.len tag .write reach) {acc : Nat → Fibre → Access}
    (hm : ∀ k ∈ (z.bundle g).act, ∀ y, sget k z.w.fibres = some y →
      mk (passed z.w (z.bundle g) k y) (startAccess s z (z.given g []) (bufAt z.w p.k) p k y ((reach k).map (·.1))) = .ok (acc k y))
    (hc : ∀ k ∈ (z.bundle g).act, ∀ y, sget k z.w.fibres = some y → StoreForm s z acq tag reach data k y (acc k y))
    (ho : Open s) (ha : (z.bundle g).act ≠ [])
    (hb : ∀ k ∈ (z.bundle g).act, Clear s z.wk [k] false acq ((reach k).map (·.1)))
    (hs : ∀ k ∈ (z.bundle g).act, mustFollow s (coreNo z.wk) z.wk [k] (ctxOf s z.wk) ((reach k).map (·.1)) = false) :
    ∃ m' p', startFormed (z.given g []) (viaBuffer (begun s z.w (z.bundle g) i z.f) (z.given g []) p mk)
        = startOp (begun (s.withMem m' p') z.w (z.bundle g) i z.f) (z.given g []) (.store [])
      ∧ ∀ t, t.mem = m' → t.memPois = p' → Wrote s t (z.bundle g).act reach data := by
  rw [viaBuffer_go h (z.given g []) rfl rfl p hi hv hp ht.1 hm (fun k hk y hy => (hc k hk y hy).ctx)]
  unfold startFormed
  have hl := startAccesses_stores (b := z.given g []) (begun_open z.w (z.bundle g) i z.f ho)
    ((theP (z.bundle g) z.w).map (fun e => (acc e.1 e.2, putsOf (reach e.1) (data e.1) (acc e.1 e.2).pois))) (by simpa using theP_ne ha) ?_
  · obtain ⟨m', p', h1, h2⟩ := hl
    rw [List.map_map] at h1 h2
    refine ⟨m', p', by rw [begun_withMem]; exact h1, fun t hm hp => ?_⟩
    let pois (k : Nat) : List Bool := ((sget k z.w.fibres).map (fun y => (acc k y).pois)).getD []
    have he : (theP (z.bundle g) z.w).map (fun e => putsOf (reach e.1) (data e.1) (acc e.1 e.2).pois)
        = (z.bundle g).act.map (fun k => putsOf (reach k) (data k) (pois k)) := by
      rw [← theP_map z g]
      apply List.map_congr_left
      intro e he
      obtain ⟨-, hy⟩ := mem_theP he
      simp only [pois, hy, Option.map_some, Option.getD_some]
    have h2' : Left s.mem m' s.memPois p' ((z.bundle g).act.map (fun k => putsOf (reach k) (data k) (pois k))).flatten := by
      rw [← he]
      exact h2
    refine h2'.wrote (fun k hk => ?_) hm hp
    obtain ⟨y, hy⟩ := act_fibre hk
    simp only [pois, hy, Option.map_some, Option.getD_some]
    exact (hc k hk y hy).pois
  · intro e he
    obtain ⟨q, hq, rfl⟩ := List.mem_map.1 he
    obtain ⟨h1, h2⟩ := mem_theP hq
    have hf := hc q.1 h1 q.2 h2
    have hall := ht.2
    have hlen : (((List.range (reach q.1).length).map (data q.1)).zip (acc q.1 q.2).pois).length = (reach q.1).length := by
      simp [hf.pois]
    refine ⟨behind_clear (begun_clear z.w (z.bundle g) i z.f ?_), hf.stash, hf.kind, hf.own, ?_, ?_, ?_, fun e he => ?_, ?_⟩
    · rw [hf.slot, hf.stash, hf.acq, hf.va]
      exact hb q.1 h1
    · rw [hf.va]
      unfold putsOf
      change _ = ((reach q.1).zip _).map (Prod.fst ∘ Prod.fst)
      rw [← List.map_map, List.map_fst_zip (by omega)]
    · rw [hf.data]
      unfold putsOf
      change _ = ((reach q.1).zip _).map (Prod.fst ∘ Prod.snd)
      rw [← List.map_map, List.map_snd_zip (by omega), List.map_fst_zip (by simp [hf.pois])]
    · unfold putsOf
      change _ = ((reach q.1).zip _).map (Prod.snd ∘ Prod.snd)
      rw [← List.map_map, List.map_snd_zip (by omega), List.map_snd_zip (by simp [hf.pois])]
    · rw [hf.ctx, hf.tag]
      obtain ⟨j, hj, -⟩ := putsOf_mem he
      exact begun_served _ _ _ _ (hall q.1 h1 q.2 h2 e.1 (List.mem_of_getElem? hj))
    · have := hs q.1 h1
      rw [hf.ctx, hf.va, hf.slot]
      unfold mustFollow at this ⊢
      rw [begun_silt]
      exact this

/-! ### The bytes of a store, and of memory after it -/

theorem formVas_length {b : Buf} {re : RegionEntry} {i o f len : Nat} {l : List Nat} (h : formVas b re i o f len = .ok l) : l.length = len := by
  unfold formVas at h
  dsimp only at h
  split at h
  · simp at h
  · split at h
    · simp at h
    · split at h
      · simp at h
      · simp only [Except.ok.injEq] at h
        rw [← h]; simp

theorem toBytesLE_eq (n x : Nat) : toBytesLE n x = (List.range n).map (fun j => BitVec.ofNat 8 (x / 2 ^ (8 * j))) := by
  induction n generalizing x with
  | zero => rfl
  | succ n ih =>
    rw [toBytesLE, ih, List.range_succ_eq_map, List.map_cons, List.map_map]
    congr 1
    · simp
    · apply List.map_congr_left
      intro j _
      simp only [Function.comp]
      rw [Nat.div_div_eq_div_mul, show 256 = 2 ^ 8 from rfl, ← Nat.pow_add, Nat.mul_succ, Nat.add_comm]

theorem tyBytes_cases (ty : BitVec 5) : tyBytes ty = 1 ∨ tyBytes ty = 2 ∨ tyBytes ty = 4 ∨ tyBytes ty = 8 := by
  unfold tyBytes
  split
  · exact .inl rfl
  · split
    · exact .inr (.inl rfl)
    · split
      · exact .inr (.inr (.inr rfl))
      · exact .inr (.inr (.inl rfl))

theorem storeData_bytes (y : Fibre) (reg n w : Nat) (hw : w = 1 ∨ w = 2 ∨ w = 4 ∨ w = 8) : (storeData y reg n w).1 = (List.range (n * w)).map (storedByte y reg w) := by
  have hp : 0 < w := by omega
  unfold storeData
  dsimp only
  induction n with
  | zero => simp
  | succ n ih =>
    rw [List.range_succ, List.map_append, List.map_append, List.flatten_append, ih, Nat.succ_mul, List.range_add, List.map_append]
    congr 1
    simp only [List.map_cons, List.map_nil, List.flatten_cons, List.flatten_nil, List.append_nil, List.map_map]
    have hr : regsOf w = if w = 8 then 2 else 1 := rfl
    have e1 : ∀ j < w, (n * w + j) / w = n := by
      intro j hj
      rw [Nat.mul_comm, Nat.mul_add_div hp, Nat.div_eq_of_lt hj]; rfl
    have e2 : ∀ j < w, (n * w + j) % w = j := by
      intro j hj
      rw [Nat.mul_comm, Nat.mul_add_mod, Nat.mod_eq_of_lt hj]
    by_cases h8 : w = 8
    · simp only [h8, if_true]
      rw [toBytesLE_eq]
      apply List.map_congr_left
      intro j hj
      have hj' : j < w := by rw [h8]; exact List.mem_range.1 hj
      have a1 := e1 j hj'
      have a2 := e2 j hj'
      rw [h8] at a1 a2
      simp only [Function.comp, storedByte, if_true, a1, a2]
      rw [show regsOf 8 = 2 from rfl, Nat.mul_comm n 2]
      apply BitVec.eq_of_toNat_eq
      simp [Nat.shiftRight_eq_div_pow]
    · simp only [h8, if_false]
      rw [toBytesLE_eq]
      apply List.map_congr_left
      intro j hj
      have hj' : j < w := List.mem_range.1 hj
      simp only [Function.comp, storedByte, h8, if_false, e1 j hj', e2 j hj']
      rw [hr, if_neg h8, Nat.mul_one]
      apply BitVec.eq_of_toNat_eq
      simp [Nat.shiftRight_eq_div_pow]
theorem storeData_pois (y : Fibre) (reg n w : Nat) (hw : w = 1 ∨ w = 2 ∨ w = 4 ∨ w = 8) : (storeData y reg n w).2.length = n * w := by
  unfold storeData
  dsimp only
  induction n with
  | zero => simp
  | succ n ih =>
    rw [List.range_succ, List.map_append, List.map_append, List.flatten_append, List.length_append, ih, Nat.succ_mul]
    by_cases h8 : w = 8
    · subst h8; simp
    · simp [h8]

theorem endIssue_mem (s : State) (b : Bundle) : (endIssue s b).mem = s.mem := by unfold endIssue; split <;> rfl
theorem endIssue_memPois (s : State) (b : Bundle) : (endIssue s b).memPois = s.memPois := by unfold endIssue; split <;> rfl
theorem startOp_mem (s : State) (b : Bundle) (k : OpKind) : (startOp s b k).mem = s.mem := by unfold startOp; dsimp only; split <;> rfl
theorem startOp_memPois (s : State) (b : Bundle) (k : OpKind) : (startOp s b k).memPois = s.memPois := by
  unfold startOp; dsimp only; split <;> rfl

end Sys2Proof.Machine
end

