-- ==== Sys2Proof/Laws/Stash.lean ====
section
/-! SUPPORT. Accesses to the stash where no window is mapped. -/

namespace Sys2Proof.Machine

theorem smod_same {α : Type} {k : Nat} {f : α → α} {m : Sparse α} (h : ∀ e ∈ m, e.1 = k → f e.2 = e.2) : smod k f m = m := by
  unfold smod
  conv => rhs; rw [← List.map_id m]
  apply List.map_congr_left
  intro a ha
  by_cases hk : a.1 = k
  · rw [if_pos hk, h a ha hk]; rfl
  · rw [if_neg hk]; rfl

theorem wakeBars_idle {s : State} (h : NoPhaseWaiters s) (gk : Nat) : wakeBars s gk = s := by
  unfold wakeBars
  refine foldl_same _ _ _ (fun wk _ => ?_)
  unfold modWave
  rw [smod_same]
  intro e he _
  have : ∀ l : List (Nat × Fibre), (∀ q ∈ l, ∀ o p d, q.2.blocked ≠ some (.waitPh o p d)) → l.map (fun e =>
      match e.2.blocked with
      | some (.waitPh obj k pd) =>
        match phaseDone (stashRd s gk (obj + 12) 2) k.toNat with
        | some lapped => (e.1, (e.2.resume false).setP pd lapped)
        | none => e
      | _ => e) = l := by
    intro l hl
    conv => rhs; rw [← List.map_id l]
    apply List.map_congr_left
    intro q hq
    cases hb : q.2.blocked with
    | none => rfl
    | some x => cases x with
      | waitPh o p d => exact absurd hb (hl q hq o p d)
      | _ => rfl
  have := this e.2.fibres (h e he)
  exact congrArg (fun fs => { e.2 with fibres := fs }) this

theorem passed_blocked (w : Wave) (b : Bundle) (x : Nat) (f : Fibre) : (passed w b x f).blocked = f.blocked := by
  unfold passed Fibre.advance; dsimp only; split <;> rfl

theorem begun_noPhaseWaiters {s : State} (w : Wave) (b : Bundle) (i : Instr) (f : Form) (h : NoPhaseWaiters s) :
    NoPhaseWaiters (begun s w b i f) := by
  intro e he q hq o p d
  rw [begun_waves] at he
  unfold smod at he
  obtain ⟨e0, he0, rfl⟩ := List.mem_map.1 he
  by_cases hk : e0.1 = b.wk
  · rw [if_pos hk] at hq
    have hq' : q ∈ e0.2.fibres.map (fun e => if b.all.contains e.1 then (e.1, passed e0.2 b e.1 e.2) else e) := hq
    obtain ⟨q0, hq0, rfl⟩ := List.mem_map.1 hq'
    split
    · simp only [passed_blocked]; exact h e0 he0 q0 hq0 o p d
    · exact h e0 he0 q0 hq0 o p d
  · rw [if_neg hk] at hq
    exact h e0 he0 q hq o p d

theorem sget_mem {α : Type} {k : Nat} {m : Sparse α} {v : α} (h : sget k m = some v) : (k, v) ∈ m := by
  induction m with
  | nil => simp at h
  | cons e m ih =>
    simp only [sget] at h
    split at h
    · rename_i hk
      simp only [Option.some.injEq] at h
      rw [← hk, ← h]
      simp
    · exact List.mem_cons_of_mem _ (ih h)

theorem winAt_open {s : State} (h : Open s) {gk : Nat} {G : Gang} (hg : sget gk s.gangs = some G) (a : Nat) : winAt G a = none := by
  have : (gk, G) ∈ s.gangs := sget_mem hg
  have hw := h.windows _ this
  unfold winAt
  rw [hw]
  rfl

theorem fillAll_open {s : State} (h : Open s) (core : Option Nat) (ag : Agent) (gk : Nat) (wr : Bool) (l : List Nat) :
    fillAll s core ag gk wr l = (s, .ok ()) := by
  induction l with
  | nil => rfl
  | cons a l ih =>
    unfold fillAll
    cases hg : sget gk s.gangs with
    | none => exact ih
    | some G =>
      simp only [Option.bind_some, winAt_open h hg]
      exact ih

theorem siltOverlap_nil (s : State) (core ctx : Nat) : siltOverlap s core ctx [] = false := by
  unfold siltOverlap
  rw [List.any_eq_false]
  intro e _
  simp [SiltEntry.overlaps]

theorem under_open {s : State} (h : Open s) {gk : Nat} {G : Gang} (hg : sget gk s.gangs = some G) (l : List Nat) : G.under l = [] := by
  unfold Gang.under
  rw [List.filterMap_eq_nil_iff]
  intro x _
  rw [winAt_open h hg]
  rfl

/-- Where no window is mapped, no global byte lies under a stash byte: only what keeps the stash access itself back counts. -/
theorem underHeld_open {s : State} (h : Open s) {core wk gk : Nat} {slots : List Nat} {a : Access} {acq : Bool} {vas : List Nat}
    (hc : Clear s wk slots true acq vas) : underHeld s core wk gk slots a = false := by
  unfold underHeld
  cases hg : sget gk s.gangs with
  | none => rfl
  | some G =>
    simp only [Option.any_some]
    rw [under_open h hg, siltOverlap_nil, Bool.false_or, List.any_eq_false]
    intro k hk
    have := (List.any_eq_false.1 hc.1) k hk
    cases k <;> simp_all [OpKind.precedes]

theorem writable_open {s : State} (h : Open s) {gk : Nat} (l : List Nat) : (sget gk s.gangs).all (fun g => g.writable l) = true := by
  cases hg : sget gk s.gangs with
  | none => rfl
  | some G =>
    simp only [Option.all_some]
    unfold Gang.writable
    rw [List.all_eq_true]
    intro x _
    rw [winAt_open h hg]
    rfl

/-! ### Forming -/

/-- What every access of a fibre to the stash starts from. -/
def stashAccess (s : State) (z : Site) (b : Bundle) (kind : AccKind) (k : Nat) (y : Fibre) (a len : Nat) : Access :=
  { accessOf s b k y kind with
    stash := true, va := addrs a len, ctx := ctxOf s z.wk, syn0 := BitVec.ofNat 32 a
    syn1 := BitVec.ofNat 32 (stashSpan s (gangOf s z.wk)) }

theorem viaStash_go {s : State} {i : Instr} {g : Guard} {rel : Rel} {z : Site} (h : Ready s i g rel z) {idx : BitVec 8} {off len : Nat}
    {kind : AccKind} {mk : Fibre → Access → Access} {place : Nat → Nat} {G : Gang} (ho : Open s)
    (hg : sget (gangOf s z.wk) s.gangs = some G) (ht : InStash s z g idx off len place)
    (hmk : ∀ f a, (mk f a).ctx = a.ctx) :
    viaStash (begun s z.w (z.bundle g) i z.f) (z.given g []) idx.toNat off len kind mk
      = (begun s z.w (z.bundle g) i z.f, (theP (z.bundle g) z.w).map (fun e =>
          mk (passed z.w (z.bundle g) e.1 e.2) (stashAccess s z (z.given g []) kind e.1 e.2 (place e.1) len))) := by
  have hctx : ctxOf (begun s z.w (z.bundle g) i z.f) z.wk = ctxOf s z.wk := begun_ctxOf s z.w (z.bundle g) i z.f h.wave
  have hgk : gangOf (begun s z.w (z.bundle g) i z.f) z.wk = gangOf s z.wk := begun_gangOf s z.w (z.bundle g) i z.f h.wave
  have hspan : stashSpan (begun s z.w (z.bundle g) i z.f) (gangOf s z.wk) = stashSpan s (gangOf s z.wk) := rfl
  have hgangs : (begun s z.w (z.bundle g) i z.f).gangs = s.gangs := rfl
  unfold viaStash
  dsimp only
  rw [show (z.given g []).act = (z.bundle g).act from rfl, show (z.given g []).wk = z.wk from rfl, begun_fibs h, hgk, hspan, hgangs, hg]
  have hdbg : ∀ a ∈ (theP (z.bundle g) z.w).map (fun e =>
          mk (passed z.w (z.bundle g) e.1 e.2) (stashAccess s z (z.given g []) kind e.1 e.2 (place e.1) len)),
      debugSlot (begun s z.w (z.bundle g) i z.f) a.ctx = none := by
    intro a ha
    obtain ⟨e, he, rfl⟩ := List.mem_map.1 ha
    rw [hmk]
    exact begun_debugger h
  have hbar : (kind.writes && ((theP (z.bundle g) z.w).map (fun e => (e.1, passed z.w (z.bundle g) e.1 e.2))).any (fun q =>
      (addrs ((q.2.rv idx.toNat).toNat + off) len).any (fun x =>
        (((some G).bind (fun g => winAt g x)).map (fun w => !w.2.wr)).getD false))) = false := by
    rw [Bool.and_eq_false_iff]
    right
    rw [List.any_eq_false]
    intro q _
    rw [Bool.not_eq_true, List.any_eq_false]
    intro x _
    rw [Option.bind_some, winAt_open ho hg]
    simp
  rw [hbar, ← settle_go _ hdbg]
  congr 1
  rw [List.map_map, List.map_map]
  apply List.map_congr_left
  intro e he
  obtain ⟨hk, hy⟩ := mem_theP he
  obtain ⟨h1, h2, h3, h4⟩ := ht e.1 hk e.2 hy
  simp only [Function.comp, passed_rv]
  rw [← h1]
  simp only [Bool.false_eq_true, if_false]
  rw [if_neg (by simp [h2]), if_neg (by omega)]
  congr 2
  unfold stashAccess accessOf
  simp only [passed_ct, show (z.given g []).wk = z.wk from rfl, hctx]

/-! ### Performing -/

theorem notOwned {s : State} {gk a len : Nat} (h : ∀ i < len, stashOwned s gk none (a + i) = false) :
    (addrs a len).any (stashOwned s gk none) = false := by
  rw [List.any_eq_false]
  intro x hx
  unfold addrs at hx
  obtain ⟨i, hi, rfl⟩ := List.mem_map.1 hx
  rw [h i (List.mem_range.1 hi)]
  simp

theorem tryLoad_stash {s : State} {wk gk : Nat} {a : Access} {G : Gang} (ho : Open s) (hst : a.stash = true)
    (hc : Clear s wk [a.slot] true a.acq a.va) (hg : sget gk s.gangs = some G) (hown : a.va.any (stashOwned s gk none) = false) :
    tryLoad s (coreNo wk) wk gk a = (s, .done (a.va.map (stashByte G))) := by
  unfold tryLoad
  rw [behind_clear (by rw [hst]; exact hc)]
  simp only [hst, if_true, hown, Bool.false_eq_true, if_false]
  rw [fillAll_open ho]
  dsimp only
  rw [hg]
  dsimp only
  rw [underHeld_open ho hc]
  rfl

theorem startAccesses_stashLoads {s : State} {b : Bundle} {G : Gang} (ho : Open s) (hg : sget (gangOf s b.wk) s.gangs = some G)
    (l : List Access) (hn : l ≠ [])
    (h : ∀ a ∈ l, a.stash = true ∧ a.kind = .load ∧ a.isQ = false ∧ a.va.any (stashOwned s (gangOf s b.wk) none) = false
      ∧ Clear s b.wk [a.slot] true a.acq a.va) :
    startAccesses s b l = startOp s b (.load ((l.map (fun a => a.give (a.va.map (stashByte G)))).flatten) [] []) := by
  have key : ∀ (l : List Access), (∀ a ∈ l, a.stash = true ∧ a.kind = .load ∧ a.isQ = false ∧ a.va.any (stashOwned s (gangOf s b.wk) none) = false
      ∧ Clear s b.wk [a.slot] true a.acq a.va) →
      ∀ give : List Delivery, l.foldl (fun (t : Tried) a =>
      let a := a.held s t.st
      match tryLoad t.st (coreNo b.wk) b.wk (gangOf s b.wk) a with
      | (s, .held) => { t with st := s, held := t.held ++ [a.held t.st s] }
      | (s, .fail sub addr) => { t with st := s, bad := t.bad ++ [(a, sub, addr)] }
      | (s, .done bs) =>
        if a.isQ then { t with st := s, giveQ := t.giveQ ++ [a.giveQ bs] } else { t with st := s, give := t.give ++ a.give bs })
        { st := s, give := give } = { st := s, give := give ++ (l.map (fun a => a.give (a.va.map (stashByte G)))).flatten } := by
    intro l
    induction l with
    | nil => intro _ give; simp
    | cons a l ih =>
      intro h give
      obtain ⟨h1, h2, h3, h4, h5⟩ := h a (by simp)
      rw [List.foldl_cons]
      dsimp only
      rw [Access.held_same rfl, tryLoad_stash ho h1 h5 hg h4]
      simp only [h3, Bool.false_eq_true, if_false]
      rw [ih (fun x hx => h x (by simp [hx]))]
      simp
  obtain ⟨e, l', rfl⟩ := List.exists_cons_of_ne_nil hn
  have ht : tryAccesses s (coreNo b.wk) b.wk (gangOf s b.wk) (e :: l')
      = { st := s, give := ((e :: l').map (fun a => a.give (a.va.map (stashByte G)))).flatten } := by
    unfold tryAccesses
    have : (e :: l').head?.map Access.kind = some .load := by simp [(h e (by simp)).2.1]
    rw [this]
    exact (key (e :: l') h []).trans (by simp)
  unfold startAccesses
  rw [ht]
  have hs : (e :: l').all (fun a => a.kind == .store || a.kind == .red) = false := by
    rw [List.all_cons, (h e (by simp)).2.1]
    rfl
  simp only [hs, Bool.false_eq_true, if_false]
  rfl

/-! ### Storing -/

theorem putByte_open {G : Gang} (h : G.windows = []) (a : Nat) (b : Byte) : G.putByte a b = { G with stash := sputD 0 a b G.stash } := by
  unfold Gang.putByte
  dsimp only
  have : winAt { G with stash := sputD 0 a b G.stash } a = none := by unfold winAt; simp only [h]; rfl
  rw [this]

theorem putCells_open {G : Gang} (h : G.windows = []) (cells : List (Nat × Byte × Bool)) :
    ∃ p, G.putCells cells = { G with stash := cells.foldl (fun m c => sputD 0 c.1 c.2.1 m) G.stash, stashPois := p } := by
  have key : ∀ (l : List (Nat × Byte × Bool)) (G : Gang), G.windows = [] →
      l.foldl (fun g c => g.putByte c.1 c.2.1) G = { G with stash := l.foldl (fun m c => sputD 0 c.1 c.2.1 m) G.stash } := by
    intro l
    induction l with
    | nil => intro G _; rfl
    | cons c l ih =>
      intro G hG
      rw [List.foldl_cons, putByte_open hG, ih _ (by exact hG)]
      rfl
  unfold Gang.putCells
  rw [key cells G h]
  exact ⟨_, rfl⟩

theorem cells_other {m : Sparse Byte} {l : List (Nat × Byte × Bool)} {a : Nat} (h : ∀ c ∈ l, c.1 ≠ a) :
    sgetD 0 (l.foldl (fun m c => sputD 0 c.1 c.2.1 m) m) a = sgetD 0 m a := by
  induction l generalizing m with
  | nil => rfl
  | cons c l ih =>
    rw [List.foldl_cons, ih (fun x hx => h x (by simp [hx])), sgetD_sputD_ne (Ne.symm (h c (by simp)))]

theorem cells_named {m : Sparse Byte} {l : List (Nat × Byte × Bool)} {a : Nat} {b : Byte} (h : ∀ c ∈ l, c.1 = a → c.2.1 = b)
    (hm : ∃ c ∈ l, c.1 = a) : sgetD 0 (l.foldl (fun m c => sputD 0 c.1 c.2.1 m) m) a = b := by
  induction l generalizing m with
  | nil => obtain ⟨c, hc, -⟩ := hm; simp at hc
  | cons c l ih =>
    rw [List.foldl_cons]
    by_cases hl : ∃ x ∈ l, x.1 = a
    · exact ih (fun x hx => h x (by simp [hx])) hl
    · have hl' : ∀ x ∈ l, x.1 ≠ a := fun x hx e => hl ⟨x, hx, e⟩
      rw [cells_other hl']
      obtain ⟨x, hx, he⟩ := hm
      rcases List.mem_cons.1 hx with rfl | hx
      · rw [he, h x (by simp) he, sgetD_sputD_self]
      · exact absurd he (hl' x hx)

/-- The state with another gang in the place of one. -/
def State.withGang (s : State) (gk : Nat) (f : Gang → Gang) : State := { s with gangs := smod gk f s.gangs }

theorem resources_withGang (s : State) (gk : Nat) (h : Gang → Gang) (wk : Nat) (w : Wave) (i : Instr) (f : Form) (all act : List Nat) :
    resources (s.withGang gk h) wk w i f all act = (resources s wk w i f all act).withGang gk h := by
  unfold resources countIssue
  simp only [show firstOfPair (s.withGang gk h) w = firstOfPair s w from rfl]
  repeat' split
  all_goals rfl

/-- A change of a gang passes by an issue. -/
theorem begun_withGang (s : State) (gk : Nat) (h : Gang → Gang) (w : Wave) (b : Bundle) (i : Instr) (f : Form) :
    begun (s.withGang gk h) w b i f = (begun s w b i f).withGang gk h := by
  unfold begun occupy
  rw [resources_withGang]
  rfl

theorem stashSpan_withGang (s : State) (gk j : Nat) (f : Gang → Gang) : stashSpan (s.withGang gk f) j = stashSpan s j := rfl

theorem open_withGang {s : State} {gk : Nat} {f : Gang → Gang} (h : Open s) (hf : ∀ G, (f G).windows = G.windows) : Open (s.withGang gk f) := by
  refine ⟨fun e he => ?_, h.ops, h.reqs⟩
  unfold State.withGang smod at he
  obtain ⟨e0, he0, rfl⟩ := List.mem_map.1 he
  split
  · simp only [hf]; exact h.windows e0 he0
  · exact h.windows e0 he0

theorem tryStore_stash {s : State} {wk gk : Nat} {a : Access} (ho : Open s) (hw : NoPhaseWaiters s) (hst : a.stash = true)
    (hc : Clear s wk [a.slot] true a.acq a.va) (hown : a.va.any (stashOwned s gk none) = false) :
    tryStore s (coreNo wk) wk gk a = (s.withGang gk (fun g => g.putCells (a.va.zip (a.data.zip a.pois))), none) := by
  unfold tryStore
  rw [behind_clear (by rw [hst]; exact hc)]
  simp only [hst, if_true, hown, Bool.false_eq_true, if_false]
  rw [fillAll_open ho]
  dsimp only
  rw [underHeld_open ho hc]
  unfold putStash
  rw [writable_open ho]
  simp only [Bool.false_eq_true, if_false, if_true]
  rw [wakeBars_idle (s := modGang s gk (fun g => g.putCells (a.va.zip (a.data.zip a.pois)))) hw]
  rfl

theorem smod_congr {α : Type} {k : Nat} {f h : α → α} {m : Sparse α} (e : ∀ x ∈ m, x.1 = k → f x.2 = h x.2) : smod k f m = smod k h m := by
  unfold smod
  apply List.map_congr_left
  intro x hx
  by_cases hk : x.1 = k
  · rw [if_pos hk, if_pos hk, e x hx hk]
  · rw [if_neg hk, if_neg hk]

/-- Stores to the stash that are all performed at once. -/
theorem startAccesses_stashStores {s : State} {b : Bundle} (ho : Open s) (hw : NoPhaseWaiters s) (l : List Access) (hn : l ≠ [])
    (h : ∀ a ∈ l, a.stash = true ∧ a.kind = .store ∧ a.va.any (stashOwned s (gangOf s b.wk) none) = false
      ∧ Clear s b.wk [a.slot] true a.acq a.va) :
    ∃ f : Gang → Gang, startAccesses s b l = startOp (s.withGang (gangOf s b.wk) f) b (.store [])
      ∧ ∀ G : Gang, G.windows = [] → ∃ p, f G
          = { G with stash := (l.map (fun a => a.va.zip (a.data.zip a.pois))).flatten.foldl (fun m c => sputD 0 c.1 c.2.1 m) G.stash,
                     stashPois := p } := by
  let gk := gangOf s b.wk
  have key : ∀ (l : List Access), (∀ a ∈ l, a.stash = true ∧ a.kind = .store ∧ a.va.any (stashOwned s gk none) = false
      ∧ Clear s b.wk [a.slot] true a.acq a.va) →
      ∀ f : Gang → Gang, (∀ G : Gang, G.windows = [] → (f G).windows = []) → ∃ f' : Gang → Gang,
      l.foldl (fun (t : Tried) a =>
        if a.meets t.held then { t with held := t.held ++ [a] }
        else
          let r := tryStore t.st (coreNo b.wk) b.wk gk (a.held s t.st)
          { t with st := r.1, held := t.held ++ r.2.toList.map (·.held t.st r.1) }) { st := s.withGang gk f } = { st := s.withGang gk f' }
      ∧ ∀ G : Gang, G.windows = [] → ∃ p, f' G
          = { f G with stash := (l.map (fun a => a.va.zip (a.data.zip a.pois))).flatten.foldl (fun m c => sputD 0 c.1 c.2.1 m) (f G).stash,
                       stashPois := p } := by
    intro l
    induction l with
    | nil => intro _ f _; exact ⟨f, rfl, fun G _ => ⟨(f G).stashPois, rfl⟩⟩
    | cons a l ih =>
      intro h f hf
      obtain ⟨h1, -, h3, h4⟩ := h a (by simp)
      have ho' : Open (s.withGang gk f) := by
        refine ⟨fun e he => ?_, ho.ops, ho.reqs⟩
        unfold State.withGang smod at he
        obtain ⟨e0, he0, rfl⟩ := List.mem_map.1 he
        split
        · exact hf _ (ho.windows e0 he0)
        · exact ho.windows e0 he0
      have hw' : NoPhaseWaiters (s.withGang gk f) := hw
      obtain ⟨f', e1, e2⟩ := ih (fun x hx => h x (by simp [hx])) (fun G => (f G).putCells (a.va.zip (a.data.zip a.pois)))
        (fun G hG => by
          obtain ⟨p, hp⟩ := putCells_open (hf G hG) (a.va.zip (a.data.zip a.pois))
          rw [hp]
          exact hf G hG)
      refine ⟨f', ?_, fun G hG => ?_⟩
      · rw [List.foldl_cons]
        dsimp only
        rw [show a.meets [] = false from rfl, Access.held_same (show (s.withGang gk f).reports = s.reports from rfl),
          tryStore_stash ho' hw' h1 h4 (by exact h3)]
        have : (s.withGang gk f).withGang gk (fun g => g.putCells (a.va.zip (a.data.zip a.pois)))
            = s.withGang gk (fun G => (f G).putCells (a.va.zip (a.data.zip a.pois))) := by
          unfold State.withGang
          simp only [smod_smod]
        rw [this]
        exact e1
      · obtain ⟨p, hp⟩ := e2 G hG
        obtain ⟨q, hq⟩ := putCells_open (hf G hG) (a.va.zip (a.data.zip a.pois))
        refine ⟨p, ?_⟩
        rw [hp]
        simp only [hq, List.map_cons, List.flatten_cons, List.foldl_append]
  obtain ⟨f', e1, e2⟩ := key l h id (fun _ h => h)
  have hid : s.withGang gk id = s := by
    unfold State.withGang
    rw [smod_same (fun _ _ _ => rfl)]
  rw [hid] at e1
  refine ⟨f', ?_, e2⟩
  obtain ⟨a, l', rfl⟩ := List.exists_cons_of_ne_nil hn
  have ht : tryAccesses s (coreNo b.wk) b.wk (gangOf s b.wk) (a :: l') = { st := s.withGang gk f' } := by
    unfold tryAccesses
    have : (a :: l').head?.map Access.kind = some .store := by simp [(h a (by simp)).2.1]
    rw [this]
    exact e1
  unfold startAccesses
  rw [ht]
  have hs : (a :: l').all (fun a => a.kind == .store || a.kind == .red) = true := by
    rw [List.all_eq_true]
    intro x hx
    rw [(h x hx).2.1]
    rfl
  simp only [hs, if_true]
  rfl

/-- What stores leave in a gang's stash, as `StashTook` says it. -/
theorem stashTook {G : Gang} {act : List Nat} {place : Nat → Nat} {len : Nat} {data : Nat → Nat → Byte} {pois : Nat → List Bool} {p : List Nat}
    (hl : ∀ k ∈ act, (pois k).length = len) :
    StashTook G { G with stash := (act.map (fun k => (addrs (place k) len).zip (((List.range len).map (data k)).zip (pois k)))).flatten.foldl
                           (fun m c => sputD 0 c.1 c.2.1 m) G.stash,
                         stashPois := p } act place len data := by
  have hin : ∀ c, c ∈ (act.map (fun k => (addrs (place k) len).zip (((List.range len).map (data k)).zip (pois k)))).flatten →
      ∃ k ∈ act, ∃ j < len, c.1 = place k + j ∧ c.2.1 = data k j := by
    intro c hc
    obtain ⟨q, hq, hc⟩ := List.mem_flatten.1 hc
    obtain ⟨k, hk, rfl⟩ := List.mem_map.1 hq
    obtain ⟨j, hj⟩ := List.mem_iff_getElem?.1 hc
    rw [List.getElem?_zip_eq_some, List.getElem?_zip_eq_some] at hj
    obtain ⟨h1, h2, -⟩ := hj
    have hlt : j < len := by
      have := (List.getElem?_eq_some_iff.1 h1).1
      simpa [addrs] using this
    refine ⟨k, hk, j, hlt, ?_, ?_⟩
    · unfold addrs at h1
      rw [List.getElem?_map, List.getElem?_range hlt] at h1
      simpa using h1.symm
    · rw [List.getElem?_map, List.getElem?_range hlt] at h2
      simpa using h2.symm
  refine ⟨?_, ?_, rfl⟩
  · intro k hk j hj hu
    apply cells_named
    · intro c hc hca
      obtain ⟨k', hk', j', hj', h1, h2⟩ := hin c hc
      obtain ⟨rfl, rfl⟩ := hu k' hk' j' hj' (by rw [← h1, hca])
      exact h2
    · refine ⟨(place k + j, data k j, (pois k)[j]'(by rw [hl k hk]; exact hj)), ?_, rfl⟩
      refine List.mem_flatten.2 ⟨_, List.mem_map_of_mem hk, List.mem_iff_getElem?.2 ⟨j, ?_⟩⟩
      rw [List.getElem?_zip_eq_some, List.getElem?_zip_eq_some]
      refine ⟨?_, ?_, ?_⟩
      · unfold addrs; rw [List.getElem?_map, List.getElem?_range hj]; rfl
      · rw [List.getElem?_map, List.getElem?_range hj]; rfl
      · simp
  · intro a ha
    apply cells_other
    intro c hc hca
    obtain ⟨k, hk, j, hj, h1, -⟩ := hin c hc
    exact ha k hk j hj (by rw [← h1, hca])

end Sys2Proof.Machine
end

