-- ==== Sys2Proof/Laws/Atomic.lean ====
section
/-! SUPPORT. Atomics and reductions whose fibres name one location. -/

namespace Sys2Proof.Machine

/-- Accesses that name one location are one group (R169). -/
theorem atomGroups_one {s : State} {l : List Access} (hn : l ≠ []) {key : Nat × Nat} (h : ∀ a ∈ l, atomKey s a = key) :
    atomGroups s l = [l] := by
  have step : ∀ (l : List Access), (∀ a ∈ l, atomKey s a = key) → ∀ g : List Access, (∃ x ∈ g, atomKey s x = key) →
      l.foldl (fun gs a =>
        if gs.any (fun g => g.any (fun x => atomKey s x == atomKey s a)) then
          gs.map (fun g => if g.any (fun x => atomKey s x == atomKey s a) then g ++ [a] else g)
        else gs ++ [[a]]) [g] = [g ++ l] := by
    intro l
    induction l with
    | nil => intro _ g _; simp
    | cons a l ih =>
      intro h g hg
      have ha := h a (by simp)
      have hany : g.any (fun x => atomKey s x == atomKey s a) = true := by
        rw [List.any_eq_true]
        obtain ⟨x, hx, he⟩ := hg
        exact ⟨x, hx, by rw [he, ha]; simp⟩
      rw [List.foldl_cons]
      simp only [List.any_cons, hany, Bool.true_or, if_true, List.map_cons, List.map_nil]
      rw [ih (fun x hx => h x (by simp [hx])) (g ++ [a]) ⟨a, by simp, ha⟩]
      simp
  obtain ⟨a, l', rfl⟩ := List.exists_cons_of_ne_nil hn
  unfold atomGroups
  rw [List.foldl_cons]
  simp only [List.any_nil, Bool.false_eq_true, if_false, List.nil_append]
  rw [step l' (fun x hx => h x (by simp [hx])) [a] ⟨a, by simp, h a (by simp)⟩]
  simp

/-- A group is performed at once where its location is served and in no poisoned unit. -/
theorem performGroup_direct {s : State} {core gk : Nat} {a : Access} {grp : List Access} {l : List (Nat × Nat)} (ho : Open s)
    (hst : a.stash = false) (hva : a.va = l.map (·.1))
    (hs : ∀ p ∈ l, Served s core a.ctx a.tag (if a.kind == .red then .write else .both) p.1 p.2)
    (hp : ∀ p ∈ l, p.2 / 64 ∉ s.memPois) :
    performGroup s (some core) gk a grp =
      (writeBytes s ((l.map (·.2)).zip (groupResult a grp (l.map (fun p => byteOf s p.2))).1) false,
       .ok (groupResult a grp (l.map (fun p => byteOf s p.2))).2.2) := by
  unfold performGroup
  simp only [hst, Bool.false_eq_true, if_false]
  rw [hva, physical_served hs]
  dsimp only
  rw [reachesOwned_open ho]
  simp only [Bool.false_eq_true, if_false, bytesAt, snoop_open ho.windows, List.map_map]
  have hg : (groupResult a grp (l.map (fun p => byteOf s p.2))).2.1 = false := by
    change (l.map (fun p => byteOf s p.2)).any (·.2) = false
    rw [List.any_eq_false]
    intro b hb
    obtain ⟨p, hp', rfl⟩ := List.mem_map.1 hb
    simpa [byteOf] using hp p hp'
  have he : (l.map ((fun a => (pByte s a, s.memPois.contains (a / 64))) ∘ fun x => x.2)) = l.map (fun p => byteOf s p.2) := rfl
  rw [he, hg]
  simp only [Bool.false_eq_true, if_false]

/-- One group of atomics, or of reductions, performed at once. -/
theorem tryAccesses_group {s s' : State} {core wk gk : Nat} {a : Access} {l : List Access} {give : List Delivery} {key : Nat × Nat} {red : Bool}
    (hk : ∀ x ∈ a :: l, x.kind = (if red then .red else .atom)) (hkey : ∀ x ∈ a :: l, atomKey s x = key)
    (hb : behind s core wk ((a :: l).map (·.slot)) a = false) (hu : a.stash = true → underHeld s core wk gk ((a :: l).map (·.slot)) a = false)
    (hf : a.stash = true ∨ (if red then mustFollow s core wk ((a :: l).map (·.slot)) a.ctx a.va else siltOverlap s core a.ctx a.va) = false)
    (hp : performGroup s (some core) gk a (a :: l) = (s', .ok give)) :
    tryAccesses s core wk gk (a :: l) = { st := s', give := give } := by
  have hg := atomGroups_one (l := a :: l) (by simp) hkey
  have ha := hk a (by simp)
  have hred : (a.kind == AccKind.red) = red := by rw [ha]; cases red <;> rfl
  have ht : tryGroups s core wk gk [] [a :: l] = (s', give, []) := by
    unfold tryGroups
    simp only [List.head?_cons, hred]
    have hc : (!a.stash && (if (red && !a.stash) then mustFollow s core wk ((a :: l).map (·.slot)) a.ctx a.va else siltOverlap s core a.ctx a.va)) = false := by
      cases hst : a.stash with
      | true => rfl
      | false =>
        rcases hf with h | h
        · rw [hst] at h; cases h
        · simpa using h
    have hw : (behind s core wk ((a :: l).map (·.slot)) a || (a.stash && underHeld s core wk gk ((a :: l).map (·.slot)) a)) = false := by
      rw [hb, Bool.false_or]
      cases hst : a.stash with
      | true => rw [hu hst]; rfl
      | false => rfl
    simp only [hw, hc, Bool.false_eq_true, if_false]
    rw [hp]
    simp [tryGroups]
  unfold tryAccesses
  rw [hg]
  simp only [List.head?_cons, Option.map_some, ha]
  cases red <;> simp only [if_true, Bool.false_eq_true, if_false, ht]

theorem startAccesses_group {s s' : State} {b : Bundle} {a : Access} {l : List Access} {give : List Delivery} {key : Nat × Nat} {red : Bool}
    (hk : ∀ x ∈ a :: l, x.kind = (if red then .red else .atom)) (hkey : ∀ x ∈ a :: l, atomKey s x = key)
    (hb : behind s (coreNo b.wk) b.wk ((a :: l).map (·.slot)) a = false)
    (hu : a.stash = true → underHeld s (coreNo b.wk) b.wk (gangOf s b.wk) ((a :: l).map (·.slot)) a = false)
    (hf : a.stash = true ∨ (if red then mustFollow s (coreNo b.wk) b.wk ((a :: l).map (·.slot)) a.ctx a.va else siltOverlap s (coreNo b.wk) a.ctx a.va) = false)
    (hp : performGroup s (some (coreNo b.wk)) (gangOf s b.wk) a (a :: l) = (s', .ok give)) (hn : s'.nextOp = s.nextOp) :
    startAccesses s b (a :: l) = startOp s' b (if red then .store [] else .load give [] []) := by
  unfold startAccesses
  rw [tryAccesses_group hk hkey hb hu hf hp]
  have hs : (a :: l).all (fun a => a.kind == .store || a.kind == .red) = red := by
    cases red with
    | true =>
      rw [List.all_eq_true]
      intro x hx
      rw [hk x hx]
      rfl
    | false =>
      rw [List.all_cons, hk a (by simp)]
      rfl
  dsimp only
  rw [hs, ← hn]
  rfl

/-- The bytes that a group leaves are those of its value. -/
theorem groupResult_bytes (a : Access) (grp : List Access) (bs : List (Byte × Bool)) :
    (groupResult a grp bs).1 = (List.range a.w).map (fun j =>
      (atomGroup a.aop a.ty (BitVec.ofNat 64 (fromBytesLE (bs.map (·.1)))) (grp.map (fun x => (x.x, x.y)))).1.extractLsb' (8 * j) 8) := by
  unfold groupResult
  dsimp only
  rw [toBytesLE_eq]
  apply List.map_congr_left
  intro j _
  apply BitVec.eq_of_toNat_eq
  simp [Nat.shiftRight_eq_div_pow]

/-- A write of one access's bytes, as `Wrote` says it. -/
theorem wrote_one {s : State} (ho : Open s) {r : List (Nat × Nat)} {n : Nat} (hn : r.length = n) (f : Nat → Byte) {t : State}
    (hm : t.mem = (writeBytes s ((r.map (·.2)).zip ((List.range n).map f)) false).mem)
    (hp : t.memPois = (writeBytes s ((r.map (·.2)).zip ((List.range n).map f)) false).memPois) :
    Wrote s t [0] (fun _ => r) (fun _ => f) := by
  subst hn
  rw [writeBytes_open ho] at hm hp
  let puts : List Put := putsOf r f (r.map (fun _ => false))
  have hz : (r.map (·.2)).zip ((List.range r.length).map f) = puts.map (fun e => (e.1.2, e.2.1)) := by
    apply List.ext_getElem?
    intro j
    simp only [puts, putsOf, List.getElem?_map, List.zip]
    by_cases h : j < r.length
    · simp [h]
    · simp [h]
  have hl : Left s.mem t.mem s.memPois t.memPois (([0] : List Nat).map (fun _ => putsOf r f (r.map (fun _ => false)))).flatten := by
    refine ⟨⟨_, hm, fun x => ?_⟩, fun u hu => ?_⟩
    · rw [hz]
      simp only [List.map_cons, List.map_nil, List.flatten_cons, List.flatten_nil, List.append_nil]
      constructor
      · intro hx; obtain ⟨e, he, rfl⟩ := List.mem_map.1 hx; exact ⟨e, he, rfl⟩
      · rintro ⟨e, he, rfl⟩; exact List.mem_map_of_mem (f := fun e : Put => (e.1.2, e.2.1)) he
    · rw [hp]
      change u ∈ poisonAfter s.memPois _ false ↔ _
      refine mem_poisonAfter (fun a ha => ?_)
      rw [hz, List.map_map] at ha
      obtain ⟨e, he, rfl⟩ := List.mem_map.1 ha
      exact hu e (by simpa [puts] using he)
  exact hl.wrote (pois := fun _ => r.map (fun _ => false)) (fun _ _ => by simp) rfl rfl

theorem theP_slots (z : Site) (g : Guard) : (theP (z.bundle g) z.w).map (·.1) = (z.bundle g).act := by
  have := theP_map z g id; simpa using this

/-- The kind of an access of `atom` or `red`. -/
def atomKind (red : Bool) : AccKind := if red then .red else .atom

/-- `atom` and `red` on memory, where every fibre names one location. -/
theorem atomMem {s : State} {i : Instr} {g : Guard} {rel : Rel} {z : Site} (h : Ready s i g rel z) (x : MEM) (red : Bool)
    {r : List (Nat × Nat)} {tag : Nat} (hm7 : x.mopx.getLsbD 7 = false) (ha : (z.bundle g).act ≠ []) (ho : Open s)
    (hv : (bufAt z.w x.buf.toNat).valid = true) (hat : (bufAt z.w x.buf.toNat).at' = true) (hpo : ∀ p ∈ r, p.2 / 64 ∉ s.memPois)
    (htag : ∀ k ∈ (z.bundle g).act, ∀ y, sget k z.w.fibres = some y → y.ct.toNat = tag)
    (hc : Clear s z.wk (z.bundle g).act false (acquires x) (r.map (·.1)))
    (hf : (if red then mustFollow s (coreNo z.wk) z.wk (z.bundle g).act (ctxOf s z.wk) (r.map (·.1))
      else siltOverlap s (coreNo z.wk) (ctxOf s z.wk) (r.map (·.1))) = false)
    (ht : Through s z g (bufAt z.w x.buf.toNat) x.idx x.off.toNat 0 (tyBytes x.ty) (fun _ => tag) (if red then .write else .both) (fun _ => r)) :
    ∃ m' p', atomBody x (atomKind red) (z.given g []) (begun s z.w (z.bundle g) i z.f)
        = startOp (begun (s.withMem m' p') z.w (z.bundle g) i z.f) (z.given g [])
            (if red then .store [] else .load (((z.bundle g).act.zip (atomGroup (x.mopx.extractLsb' 0 4) x.ty
              (BitVec.ofNat 64 (fromBytesLE (r.map (fun p => pByte s p.2))))
              ((theP (z.bundle g) z.w).map (fun e => (atomX x e.2, atomY x e.2)))).2).map
                (fun e => giveValue e.1 x.data.toNat (tyBytes x.ty) e.2 false)).flatten [] [])
      ∧ ∀ t : State, t.mem = m' → t.memPois = p' → Wrote s t [0] (fun _ => r) (fun _ j => (atomGroup (x.mopx.extractLsb' 0 4) x.ty
              (BitVec.ofNat 64 (fromBytesLE (r.map (fun p => pByte s p.2))))
              ((theP (z.bundle g) z.w).map (fun e => (atomX x e.2, atomY x e.2)))).1.extractLsb' (8 * j) 8) := by
  obtain ⟨e0, rest, hcons⟩ := List.exists_cons_of_ne_nil (theP_ne ha)
  let plan : Plan := { k := x.buf.toNat, off := x.off.toNat, idx := x.idx.toNat, len := tyBytes x.ty, kind := atomKind red
                       acc := if atomKind red == .atom then 2 else 3, can := fun r => r.at' }
  let acc (k : Nat) (y : Fibre) : Access := atomFrom x (passed z.w (z.bundle g) k y)
    (startAccess s z (z.given g []) (bufAt z.w x.buf.toNat) plan k y (r.map (·.1)))
  have hvb := viaBuffer_go h (z.given g []) rfl rfl plan (mk := fun f a => .ok (atomFrom x f a)) (idx := x.idx) rfl hv hat ht.1
    (acc := acc) (fun _ _ _ _ => rfl) (fun _ _ _ _ => rfl)
  have he0 : e0 ∈ theP (z.bundle g) z.w := by rw [hcons]; simp
  obtain ⟨hk0, hy0⟩ := mem_theP he0
  have hlen : r.length = tyBytes x.ty := by
    obtain ⟨re, -, hall⟩ := ht.1
    simpa using formVas_length (hall e0.1 hk0 e0.2 hy0)
  have hx : ∀ e ∈ theP (z.bundle g) z.w, ((acc e.1 e.2).x, (acc e.1 e.2).y) = (atomX x e.2, atomY x e.2) := by
    intro e _
    simp only [acc, atomFrom, withOrder, atomX, atomY, passed_rv, passed_rv2]
  have hgk : gangOf (begun s z.w (z.bundle g) i z.f) (z.given g []).wk = gangOf s z.wk := begun_gangOf s z.w (z.bundle g) i z.f h.wave
  have hbo := begun_open z.w (z.bundle g) i z.f ho
  have hp := performGroup_direct (s := begun s z.w (z.bundle g) i z.f) (core := coreNo z.wk) (gk := gangOf s z.wk)
    (a := acc e0.1 e0.2) (grp := (theP (z.bundle g) z.w).map (fun e => acc e.1 e.2)) (l := r) hbo rfl rfl
    (fun p hp => by
      have := ht.2 e0.1 hk0 e0.2 hy0 p hp
      have e : (acc e0.1 e0.2).tag = tag := htag e0.1 hk0 e0.2 hy0
      rw [e]
      have hk : ((acc e0.1 e0.2).kind == AccKind.red) = red := by cases red <;> rfl
      rw [hk]
      exact begun_served _ _ _ _ this) hpo
  have hvals : (((theP (z.bundle g) z.w).map (fun e => acc e.1 e.2)).map (fun a => (a.x, a.y)))
      = (theP (z.bundle g) z.w).map (fun e => (atomX x e.2, atomY x e.2)) := by
    rw [List.map_map]
    exact List.map_congr_left hx
  have hbytes : (r.map (fun p => byteOf (begun s z.w (z.bundle g) i z.f) p.2)).map (·.1) = r.map (fun p => pByte s p.2) := by
    rw [List.map_map]; rfl
  have hres1 := groupResult_bytes (acc e0.1 e0.2) ((theP (z.bundle g) z.w).map (fun e => acc e.1 e.2))
    (r.map (fun p => byteOf (begun s z.w (z.bundle g) i z.f) p.2))
  rw [hvals, hbytes] at hres1
  have hsame : ∀ a ∈ acc e0.1 e0.2 :: rest.map (fun e => acc e.1 e.2), ∃ e ∈ theP (z.bundle g) z.w, a = acc e.1 e.2 := by
    intro a ha
    have : a ∈ (theP (z.bundle g) z.w).map (fun e => acc e.1 e.2) := by rw [hcons]; exact ha
    obtain ⟨e, he, rfl⟩ := List.mem_map.1 this
    exact ⟨e, he, rfl⟩
  have hsl : ((acc e0.1 e0.2 :: rest.map (fun e => acc e.1 e.2)).map (·.slot)) = (z.bundle g).act := by
    rw [← theP_slots z g, hcons, List.map_cons, List.map_cons, List.map_map]
    rfl
  have hgroup := startAccesses_group (b := z.given g []) (red := red) (a := acc e0.1 e0.2) (l := rest.map (fun e => acc e.1 e.2))
    (s := begun s z.w (z.bundle g) i z.f)
    (key := atomKey (begun s z.w (z.bundle g) i z.f) (acc e0.1 e0.2))
    (fun a ha => by obtain ⟨e, -, rfl⟩ := hsame a ha; rfl)
    (fun a ha => by
      obtain ⟨e, he, rfl⟩ := hsame a ha
      obtain ⟨hk, hy⟩ := mem_theP he
      have e1 : (acc e.1 e.2).tag = (acc e0.1 e0.2).tag := (htag e.1 hk e.2 hy).trans (htag e0.1 hk0 e0.2 hy0).symm
      unfold atomKey
      rw [e1]
      rfl)
    (by rw [hsl]; exact behind_clear (begun_clear z.w (z.bundle g) i z.f hc)) (fun e => by cases e)
    (.inr (by
      rw [hsl]
      unfold mustFollow siltOverlap at hf ⊢
      rw [begun_silt]
      exact hf))
    (by
      rw [hgk]
      have : acc e0.1 e0.2 :: rest.map (fun e => acc e.1 e.2) = (theP (z.bundle g) z.w).map (fun e => acc e.1 e.2) := by rw [hcons]; rfl
      rw [this]
      exact hp) (by rw [writeBytes_open hbo]; rfl)
  rw [writeBytes_open hbo] at hgroup
  let cells : List Host.Cell := (r.map (·.2)).zip (groupResult (acc e0.1 e0.2) ((theP (z.bundle g) z.w).map (fun e => acc e.1 e.2))
    (r.map (fun p => byteOf (begun s z.w (z.bundle g) i z.f) p.2))).1
  refine ⟨putAll s.mem cells, poisonAfter s.memPois (cells.map (·.1)) false, ?_, fun t hm hp => ?_⟩
  · unfold atomBody
    dsimp only
    rw [hm7]
    simp only [Bool.false_eq_true, if_false]
    rw [hvb]
    unfold startFormed
    dsimp only
    have hl : (theP (z.bundle g) z.w).map (fun e => acc e.1 e.2) = acc e0.1 e0.2 :: rest.map (fun e => acc e.1 e.2) := by rw [hcons]; rfl
    rw [hl, hgroup, begun_withMem]
    cases red with
    | true => rfl
    | false =>
      have hgive : (groupResult (acc e0.1 e0.2) ((theP (z.bundle g) z.w).map (fun e => acc e.1 e.2))
          (r.map (fun p => byteOf (begun s z.w (z.bundle g) i z.f) p.2))).2.2
          = (((z.bundle g).act.zip (atomGroup (x.mopx.extractLsb' 0 4) x.ty (BitVec.ofNat 64 (fromBytesLE (r.map (fun p => pByte s p.2))))
              ((theP (z.bundle g) z.w).map (fun e => (atomX x e.2, atomY x e.2)))).2).map
                (fun e => giveValue e.1 x.data.toNat (tyBytes x.ty) e.2 false)).flatten := by
        unfold groupResult
        dsimp only
        rw [hvals, hbytes]
        have hpo' : (r.map (fun p => byteOf (begun s z.w (z.bundle g) i z.f) p.2)).any (·.2) = false := by
          rw [List.any_eq_false]
          intro b hb
          obtain ⟨p, hp', rfl⟩ := List.mem_map.1 hb
          have := hpo p hp'
          change ¬ s.memPois.contains (p.2 / 64) = true
          simpa using this
        rw [hpo', ← theP_slots z g, List.zip_map_left, List.zip_map_left, List.map_map, List.map_map]
        rfl
      rw [hgive]
      rfl
  · have hcells : cells = (r.map (·.2)).zip ((List.range (tyBytes x.ty)).map (fun j => (atomGroup (x.mopx.extractLsb' 0 4) x.ty
              (BitVec.ofNat 64 (fromBytesLE (r.map (fun p => pByte s p.2))))
              ((theP (z.bundle g) z.w).map (fun e => (atomX x e.2, atomY x e.2)))).1.extractLsb' (8 * j) 8)) := by
      simp only [cells]
      rw [hres1]
      rfl
    have := wrote_one (s := begun s z.w (z.bundle g) i z.f) hbo hlen (fun j => (atomGroup (x.mopx.extractLsb' 0 4) x.ty
              (BitVec.ofNat 64 (fromBytesLE (r.map (fun p => pByte s p.2))))
              ((theP (z.bundle g) z.w).map (fun e => (atomX x e.2, atomY x e.2)))).1.extractLsb' (8 * j) 8) (t := t)
      (by rw [writeBytes_open hbo, hm, hcells]; rfl)
      (by rw [writeBytes_open hbo, hp, hcells]; rfl)
    exact ⟨this.bytes, this.frame, this.pois⟩

/-- A group is performed at once in a stash without windows, in no poisoned unit. -/
theorem performGroup_stash {s : State} {core : Option Nat} {gk : Nat} {a : Access} {grp : List Access} {G : Gang} (ho : Open s)
    (hw : NoPhaseWaiters s) (hst : a.stash = true) (hg : sget gk s.gangs = some G) (hown : a.va.any (stashOwned s gk none) = false)
    (hp : ∀ v ∈ a.va, v / 8 ∉ G.stashPois) :
    performGroup s core gk a grp =
      (s.withGang gk (fun g => g.putCells (a.va.zip ((groupResult a grp (a.va.map (stashByte G))).1.map (·, false)))),
       .ok (groupResult a grp (a.va.map (stashByte G))).2.2) := by
  unfold performGroup
  simp only [hst, if_true, hown, Bool.false_eq_true, if_false]
  rw [fillAll_open ho]
  dsimp only
  rw [hg]
  dsimp only
  have hb : (groupResult a grp (a.va.map (stashByte G))).2.1 = false := by
    change (a.va.map (stashByte G)).any (·.2) = false
    rw [List.any_eq_false]
    intro b hb
    obtain ⟨v, hv, rfl⟩ := List.mem_map.1 hb
    have := hp v hv
    change ¬ G.stashPois.contains (v / 8) = true
    simpa using this
  rw [hb]
  simp only [Bool.false_eq_true, if_false]
  rw [wakeBars_idle (s := modGang s gk (fun g => g.putCells (a.va.zip ((groupResult a grp (a.va.map (stashByte G))).1.map (·, false))))) hw]
  rfl

/-- `atom` and `red` on the stash, where every fibre names one location. -/
theorem atomStash {s : State} {i : Instr} {g : Guard} {rel : Rel} {z : Site} (h : Ready s i g rel z) (x : MEM) (red : Bool)
    {a : Nat} {G : Gang} (hm7 : x.mopx.getLsbD 7 = true) (ha : (z.bundle g).act ≠ []) (ho : Open s) (hw : NoPhaseWaiters s)
    (hg : sget (gangOf s z.wk) s.gangs = some G) (ht : InStash s z g x.idx (x.off.toNat * tyBytes x.ty) (tyBytes x.ty) (fun _ => a))
    (hc : Clear s z.wk (z.bundle g).act true (acquires x) (addrs a (tyBytes x.ty)))
    (hpo : ∀ j < tyBytes x.ty, (a + j) / 8 ∉ G.stashPois) :
    ∃ f : Gang → Gang, atomBody x (atomKind red) (z.given g []) (begun s z.w (z.bundle g) i z.f)
        = startOp (begun (s.withGang (gangOf s z.wk) f) z.w (z.bundle g) i z.f) (z.given g [])
            (if red then .store [] else .load (((z.bundle g).act.zip (atomGroup (x.mopx.extractLsb' 0 4) x.ty
              (BitVec.ofNat 64 (fromBytesLE ((addrs a (tyBytes x.ty)).map (sgetD 0 G.stash))))
              ((theP (z.bundle g) z.w).map (fun e => (atomX x e.2, atomY x e.2)))).2).map
                (fun e => giveValue e.1 x.data.toNat (tyBytes x.ty) e.2 false)).flatten [] [])
      ∧ StashTook G (f G) [0] (fun _ => a) (tyBytes x.ty) (fun _ j => (atomGroup (x.mopx.extractLsb' 0 4) x.ty
              (BitVec.ofNat 64 (fromBytesLE ((addrs a (tyBytes x.ty)).map (sgetD 0 G.stash))))
              ((theP (z.bundle g) z.w).map (fun e => (atomX x e.2, atomY x e.2)))).1.extractLsb' (8 * j) 8) := by
  obtain ⟨e0, rest, hcons⟩ := List.exists_cons_of_ne_nil (theP_ne ha)
  let acc (k : Nat) (y : Fibre) : Access := atomFrom x (passed z.w (z.bundle g) k y)
    (stashAccess s z (z.given g []) (atomKind red) k y a (tyBytes x.ty))
  have hvs := viaStash_go (off := x.off.toNat * tyBytes x.ty) (len := tyBytes x.ty) (kind := atomKind red) (mk := atomFrom x) h ho hg ht (fun _ _ => rfl)
  have he0 : e0 ∈ theP (z.bundle g) z.w := by rw [hcons]; simp
  obtain ⟨hk0, hy0⟩ := mem_theP he0
  have hx : ∀ e ∈ theP (z.bundle g) z.w, ((acc e.1 e.2).x, (acc e.1 e.2).y) = (atomX x e.2, atomY x e.2) := by
    intro e _
    simp only [acc, atomFrom, withOrder, atomX, atomY, passed_rv, passed_rv2]
  have hgk : gangOf (begun s z.w (z.bundle g) i z.f) (z.given g []).wk = gangOf s z.wk := begun_gangOf s z.w (z.bundle g) i z.f h.wave
  have hbo := begun_open z.w (z.bundle g) i z.f ho
  have hva : (acc e0.1 e0.2).va = addrs a (tyBytes x.ty) := rfl
  have hp := performGroup_stash (s := begun s z.w (z.bundle g) i z.f) (core := some (coreNo z.wk)) (gk := gangOf s z.wk)
    (a := acc e0.1 e0.2) (grp := (theP (z.bundle g) z.w).map (fun e => acc e.1 e.2)) (G := G) hbo
    (begun_noPhaseWaiters _ _ _ _ hw) rfl hg (notOwned (ht e0.1 hk0 e0.2 hy0).2.2.2)
    (fun v hv => by
      obtain ⟨j, hj, rfl⟩ := List.mem_map.1 (show v ∈ (List.range (tyBytes x.ty)).map (a + ·) from hv)
      exact hpo j (List.mem_range.1 hj))
  have hvals : (((theP (z.bundle g) z.w).map (fun e => acc e.1 e.2)).map (fun a => (a.x, a.y)))
      = (theP (z.bundle g) z.w).map (fun e => (atomX x e.2, atomY x e.2)) := by
    rw [List.map_map]
    exact List.map_congr_left hx
  have hbytes : ((acc e0.1 e0.2).va.map (stashByte G)).map (·.1) = (addrs a (tyBytes x.ty)).map (sgetD 0 G.stash) := by
    rw [List.map_map]; rfl
  have hres1 := groupResult_bytes (acc e0.1 e0.2) ((theP (z.bundle g) z.w).map (fun e => acc e.1 e.2)) ((acc e0.1 e0.2).va.map (stashByte G))
  rw [hvals, hbytes] at hres1
  let F : Gang → Gang := fun G' => G'.putCells ((acc e0.1 e0.2).va.zip ((groupResult (acc e0.1 e0.2)
    ((theP (z.bundle g) z.w).map (fun e => acc e.1 e.2)) ((acc e0.1 e0.2).va.map (stashByte G))).1.map (·, false)))
  have hsl : ((acc e0.1 e0.2 :: rest.map (fun e => acc e.1 e.2)).map (·.slot)) = (z.bundle g).act := by
    rw [← theP_slots z g, hcons, List.map_cons, List.map_cons, List.map_map]
    rfl
  have hgroup := startAccesses_group (b := z.given g []) (red := red) (a := acc e0.1 e0.2) (l := rest.map (fun e => acc e.1 e.2))
    (s := begun s z.w (z.bundle g) i z.f) (s' := (begun s z.w (z.bundle g) i z.f).withGang (gangOf s z.wk) F)
    (key := atomKey (begun s z.w (z.bundle g) i z.f) (acc e0.1 e0.2))
    (fun a ha => by
      have : a ∈ (theP (z.bundle g) z.w).map (fun e => acc e.1 e.2) := by rw [hcons]; exact ha
      obtain ⟨e, -, rfl⟩ := List.mem_map.1 this
      rfl)
    (fun a ha => by
      have : a ∈ (theP (z.bundle g) z.w).map (fun e => acc e.1 e.2) := by rw [hcons]; exact ha
      obtain ⟨e, -, rfl⟩ := List.mem_map.1 this
      rfl)
    (by rw [hsl]; exact behind_clear (begun_clear z.w (z.bundle g) i z.f hc))
    (fun _ => by rw [hsl]; exact underHeld_open hbo (begun_clear z.w (z.bundle g) i z.f hc))
    (.inl rfl)
    (by
      rw [hgk]
      have : acc e0.1 e0.2 :: rest.map (fun e => acc e.1 e.2) = (theP (z.bundle g) z.w).map (fun e => acc e.1 e.2) := by rw [hcons]; rfl
      rw [this]
      exact hp) rfl
  refine ⟨F, ?_, ?_⟩
  · unfold atomBody
    dsimp only
    rw [hm7]
    simp only [if_true]
    rw [hvs]
    unfold startFormed
    dsimp only
    have hl : (theP (z.bundle g) z.w).map (fun e => atomFrom x (passed z.w (z.bundle g) e.1 e.2)
            (stashAccess s z (z.given g []) (atomKind red) e.1 e.2 a (tyBytes x.ty)))
        = acc e0.1 e0.2 :: rest.map (fun e => acc e.1 e.2) := by rw [hcons]; rfl
    rw [hl, hgroup, begun_withGang]
    cases red with
    | true => rfl
    | false =>
      have hgive : (groupResult (acc e0.1 e0.2) ((theP (z.bundle g) z.w).map (fun e => acc e.1 e.2)) ((acc e0.1 e0.2).va.map (stashByte G))).2.2
          = (((z.bundle g).act.zip (atomGroup (x.mopx.extractLsb' 0 4) x.ty
              (BitVec.ofNat 64 (fromBytesLE ((addrs a (tyBytes x.ty)).map (sgetD 0 G.stash))))
              ((theP (z.bundle g) z.w).map (fun e => (atomX x e.2, atomY x e.2)))).2).map
                (fun e => giveValue e.1 x.data.toNat (tyBytes x.ty) e.2 false)).flatten := by
        unfold groupResult
        dsimp only
        rw [hvals, hbytes]
        have hpo' : ((acc e0.1 e0.2).va.map (stashByte G)).any (·.2) = false := by
          rw [List.any_eq_false]
          intro b hb
          obtain ⟨v, hv, rfl⟩ := List.mem_map.1 hb
          obtain ⟨j, hj, rfl⟩ := List.mem_map.1 (show v ∈ (List.range (tyBytes x.ty)).map (a + ·) from hv)
          have := hpo j (List.mem_range.1 hj)
          change ¬ G.stashPois.contains ((a + j) / 8) = true
          simpa using this
        rw [hpo', ← theP_slots z g, List.zip_map_left, List.zip_map_left, List.map_map, List.map_map]
        rfl
      rw [hgive]
  · obtain ⟨p, hp⟩ := putCells_open (ho.windows _ (sget_mem hg)) ((acc e0.1 e0.2).va.zip ((groupResult (acc e0.1 e0.2)
      ((theP (z.bundle g) z.w).map (fun e => acc e.1 e.2)) ((acc e0.1 e0.2).va.map (stashByte G))).1.map (·, false)))
    have hF : F G = _ := hp
    rw [hF]
    have := stashTook (G := G) (act := [0]) (place := fun _ => a) (len := tyBytes x.ty) (p := p) (pois := fun _ => List.replicate (tyBytes x.ty) false)
      (data := fun _ j => (atomGroup (x.mopx.extractLsb' 0 4) x.ty
              (BitVec.ofNat 64 (fromBytesLE ((addrs a (tyBytes x.ty)).map (sgetD 0 G.stash))))
              ((theP (z.bundle g) z.w).map (fun e => (atomX x e.2, atomY x e.2)))).1.extractLsb' (8 * j) 8) (fun _ _ => by simp)
    convert this using 4
    simp only [List.map_cons, List.map_nil, List.flatten_cons, List.flatten_nil, List.append_nil]
    rw [hres1]
    congr 1
    have key : ∀ l : List Byte, l.map (fun b => (b, false)) = l.zip (List.replicate l.length false) := by
      intro l
      induction l with
      | nil => rfl
      | cons b l ih => rw [List.map_cons, ih]; rfl
    rw [key]
    simp only [List.length_map, List.length_range]
    rfl

end Sys2Proof.Machine
end

