-- ==== Sys2Proof/Laws/Control.lean ====
section
/-! SUPPORT. Meanings that change the fibres of a bundle one after another: transfers, blocking, traps. -/

namespace Sys2Proof.Machine

/-- Changes the fibre of a slot of a wave. -/
def Wave.put (x : Nat) (F : Fibre → Fibre) (w : Wave) : Wave := { w with fibres := smod x F w.fibres }

/-- A slot leaves the open clause of a wave. -/
def Wave.leave (x : Nat) (w : Wave) : Wave :=
  match w.clause with
  | none => w
  | some c =>
    let slots := c.slots.filter (· != x)
    { w with clause := if slots.isEmpty then none else some { c with slots := slots }, paired := if slots.isEmpty then none else w.paired }

theorem modFibre_put (s : State) (wk x : Nat) (F : Fibre → Fibre) : modFibre s wk x F = modWave s wk (Wave.put x F) := rfl
theorem leaveClause_eq (s : State) (wk x : Nat) : leaveClause s wk x = modWave s wk (Wave.leave x) := rfl
theorem block_eq (s : State) (wk x : Nat) (pc : W64) (p : Place) (b : Blocked) :
    block s wk x pc p b = modWave s wk (fun w => Wave.leave x (Wave.put x (fun f => { f with blocked := some b, pc := pc, base := some p }) w)) := by
  unfold block
  rw [modFibre_put, leaveClause_eq, modWave_modWave]

@[simp] theorem leave_fibres (x : Nat) (w : Wave) : (w.leave x).fibres = w.fibres := by unfold Wave.leave; split <;> rfl
@[simp] theorem leave_issueNo (x : Nat) (w : Wave) : (w.leave x).issueNo = w.issueNo := by unfold Wave.leave; split <;> rfl
theorem leave_rest (x : Nat) (w : Wave) : { w.leave x with clause := w.clause, paired := w.paired } = w := by unfold Wave.leave; split <;> rfl
theorem put_other {x y : Nat} (h : y ≠ x) (F : Fibre → Fibre) (w : Wave) : sget y (w.put x F).fibres = sget y w.fibres := sget_smod_ne h F _
theorem put_self (x : Nat) (F : Fibre → Fibre) (w : Wave) : sget x (w.put x F).fibres = (sget x w.fibres).map F := sget_smod_self x F _

/-- Steps that change one fibre each of one wave are one change of the wave. -/
theorem foldl_waves {wk : Nat} {step : State → Nat → State} {G : Nat → Wave → Wave}
    (hG : ∀ x w y, y ≠ x → sget y (G x w).fibres = sget y w.fibres) :
    ∀ (l : List Nat) (s0 : State) (w0 : Wave), sget wk s0.waves = some w0 → l.Nodup →
      (∀ x ∈ l, ∀ s w, sget wk s.waves = some w → sget x w.fibres = sget x w0.fibres → { s with waves := s0.waves } = s0 →
        step s x = modWave s wk (G x)) →
      l.foldl step s0 = modWave s0 wk (fun w => l.foldl (fun w x => G x w) w) := by
  intro l
  induction l with
  | nil =>
    intro s0 w0 _ _ _
    cases s0
    simp only [List.foldl_nil, modWave, State.mk.injEq, and_true, true_and]
    exact (smod_id wk (fun w => w) (fun _ => rfl) _).symm
  | cons x l ih =>
    intro s0 w0 h0 hn hs
    rw [List.foldl_cons, hs x (by simp) s0 w0 h0 rfl rfl]
    have h1 : sget wk (modWave s0 wk (G x)).waves = some (G x w0) := by rw [sget_modWave_self, h0]; rfl
    rw [ih (modWave s0 wk (G x)) (G x w0) h1 (List.nodup_cons.1 hn).2 ?_, modWave_modWave]
    · rfl
    · intro y hy s w hw he hr
      have hyx : y ≠ x := fun e => (List.nodup_cons.1 hn).1 (e ▸ hy)
      refine hs y (by simp [hy]) s w hw (he.trans (hG x w0 y hyx)) ?_
      cases s; cases s0
      simp only [modWave, State.mk.injEq] at hr ⊢
      simp [hr]

/-- What a change of each fibre leaves of a wave. -/
theorem foldl_puts {F : Nat → Fibre → Fibre} : ∀ (l : List Nat), l.Nodup → ∀ w : Wave,
    (∀ y, sget y (l.foldl (fun w x => Wave.put x (F x) w) w).fibres = (sget y w.fibres).map (fun f => if l.contains y then F y f else f))
      ∧ { l.foldl (fun w x => Wave.put x (F x) w) w with fibres := w.fibres } = w := by
  intro l
  induction l with
  | nil => intro _ w; exact ⟨fun y => by cases h : sget y w.fibres <;> simp [h], rfl⟩
  | cons x l ih =>
    intro hn w
    obtain ⟨h1, h2⟩ := ih (List.nodup_cons.1 hn).2 (Wave.put x (F x) w)
    refine ⟨fun y => ?_, ?_⟩
    · rw [List.foldl_cons, h1]
      by_cases e : y = x
      · subst e
        have : l.contains y = false := by simpa using (List.nodup_cons.1 hn).1
        rw [put_self]
        cases sget y w.fibres <;> simp
        intro h; exact absurd h (by simpa using this)
      · rw [put_other e]
        cases sget y w.fibres <;> simp [e]
    · rw [List.foldl_cons]
      generalize l.foldl (fun w x => Wave.put x (F x) w) (Wave.put x (F x) w) = v at h2 ⊢
      cases v; cases w
      simp only [Wave.put, Wave.mk.injEq] at h2 ⊢
      simp [h2]

/-- The same where each fibre leaves the clause. -/
theorem foldl_leaves {F : Nat → Fibre → Fibre} : ∀ (l : List Nat), l.Nodup → ∀ w : Wave, (∀ c, w.clause = some c → c.slots ≠ []) →
    (∀ y, sget y (l.foldl (fun w x => Wave.leave x (Wave.put x (F x) w)) w).fibres = (sget y w.fibres).map (fun f => if l.contains y then F y f else f))
      ∧ (l.foldl (fun w x => Wave.leave x (Wave.put x (F x) w)) w).clause = w.clause.bind (fun c =>
          let slots := c.slots.filter (fun x => !l.contains x)
          if slots.isEmpty then none else some { c with slots := slots })
      ∧ { l.foldl (fun w x => Wave.leave x (Wave.put x (F x) w)) w with fibres := w.fibres, clause := w.clause, paired := w.paired } = w := by
  intro l
  induction l with
  | nil =>
    intro _ w hc
    refine ⟨fun y => by cases h : sget y w.fibres <;> simp [h], ?_, rfl⟩
    cases h : w.clause with
    | none => simp [h]
    | some c =>
      have := hc c h
      simp [h, this]
  | cons x l ih =>
    intro hn w hc
    have hc' : ∀ c, (Wave.leave x (Wave.put x (F x) w)).clause = some c → c.slots ≠ [] := by
      intro c h
      unfold Wave.leave Wave.put at h
      dsimp only at h
      split at h
      · exact hc c h
      · dsimp only at h
        split at h
        · simp at h
        · rename_i he
          simp only [Option.some.injEq] at h
          subst h
          simpa using he
    obtain ⟨h1, h2, h3⟩ := ih (List.nodup_cons.1 hn).2 _ hc'
    refine ⟨fun y => ?_, ?_, ?_⟩
    · rw [List.foldl_cons, h1, leave_fibres]
      by_cases e : y = x
      · subst e
        have : l.contains y = false := by simpa using (List.nodup_cons.1 hn).1
        rw [put_self]
        cases sget y w.fibres <;> simp
        intro h; exact absurd h (by simpa using this)
      · rw [put_other e]
        cases sget y w.fibres <;> simp [e]
    · rw [List.foldl_cons, h2]
      cases h : w.clause with
      | none => simp [Wave.leave, Wave.put, h]
      | some c =>
        simp only [Wave.leave, Wave.put, h, Option.bind_some]
        have hf : ∀ m : List Nat, List.filter (fun y => !(x :: l).contains y) m = List.filter (fun y => !l.contains y) (List.filter (fun y => y != x) m) := by
          intro m
          rw [List.filter_filter]
          congr 1
          funext y
          by_cases e : y = x <;> simp [e]
        rw [hf]
        by_cases he : (List.filter (fun y => y != x) c.slots).isEmpty
        · have he' := he
          rw [List.isEmpty_iff] at he'
          simp [he']
        · simp only [he, Bool.false_eq_true, if_false, Option.bind_some]
    · rw [List.foldl_cons]
      generalize l.foldl (fun w x => Wave.leave x (Wave.put x (F x) w)) (Wave.leave x (Wave.put x (F x) w)) = v at h3 ⊢
      have h4 := leave_rest x (Wave.put x (F x) w)
      generalize Wave.leave x (Wave.put x (F x) w) = u at h3 h4
      cases v; cases u; cases w
      simp only [Wave.put, Wave.mk.injEq] at h3 h4 ⊢
      simp [h3, h4]

/-- A meaning that changes each fibre of the bundle in turn. -/
theorem runs_puts {s : State} {i : Instr} {g : Guard} {rel : Rel} {z : Site} (h : Ready s i g rel z) (F fx : Nat → Fibre → Fibre) {step : State → Nat → State}
    (hs : ∀ x ∈ (z.bundle g).act, ∀ y, sget x z.w.fibres = some y → ∀ t, fibreAt t z.wk x = some (passed z.w (z.bundle g) x y) →
      { t with waves := (begun s z.w (z.bundle g) i z.f).waves } = begun s z.w (z.bundle g) i z.f → step t x = modFibre t z.wk x (F x))
    (e : ∀ k ∈ (z.bundle g).act, ∀ y, sget k z.w.fibres = some y → F k (passed z.w (z.bundle g) k y) = fx k (passed z.w (z.bundle g) k y)) :
    Runs s (endIssue ((z.bundle g).act.foldl step (begun s z.w (z.bundle g) i z.f)) (z.bundle g)) z.w (z.bundle g) [] fx id := by
  have hb : sget z.wk (begun s z.w (z.bundle g) i z.f).waves = some (begunWave z.w (z.bundle g)) := begun_wave s z.w (z.bundle g) i z.f h.wave
  rw [foldl_waves (wk := z.wk) (G := fun x w => Wave.put x (F x) w) (fun x w y hy => put_other hy _ w) _ _ _ hb (act_nodup z g) ?_]
  · obtain ⟨h1, h2⟩ := foldl_puts (F := F) (z.bundle g).act (act_nodup z g) (begunWave z.w (z.bundle g))
    refine (begun_runs h (fx := F) (gx := id) (out := []) ?_ ?_ ?_ ?_).congr e
    · intro x
      rw [h1, begunWave_fibre]
      cases hx : sget x z.w.fibres with
      | none => rfl
      | some y =>
        simp only [Option.map_some]
        by_cases ha : (z.bundle g).act.contains x
        · have hall : (z.bundle g).all.contains x := by simpa using act_sub_all (z := z) (g := g) (x := x) (by simpa using ha)
          simp only [ha, hall, if_true]
        · simp only [ha, Bool.false_eq_true, if_false]
    · exact congrArg Wave.issueNo h2
    · intro hi
      exact (congrArg Wave.clause h2).trans (begun_clause h _ hi)
    · exact congrArg (fun v => { v with fibres := z.w.fibres, issueNo := z.w.issueNo, issued := z.w.issued, clause := z.w.clause, paired := z.w.paired, page := z.w.page }) h2
  · intro x hx t w hw hxw hr
    obtain ⟨y, hy⟩ := act_fibre hx
    refine hs x hx y hy t ?_ hr
    unfold fibreAt
    rw [hw]
    exact hxw.trans (fibre_begun hx hy)

/-- A meaning by which each fibre of the bundle leaves the clause in turn. -/
theorem runs_leaves {s : State} {i : Instr} {g : Guard} {rel : Rel} {z : Site} (h : Ready s i g rel z) (F fx : Nat → Fibre → Fibre) {step : State → Nat → State}
    (hs : ∀ x ∈ (z.bundle g).act, ∀ y, sget x z.w.fibres = some y → ∀ t, fibreAt t z.wk x = some (passed z.w (z.bundle g) x y) →
      { t with waves := (begun s z.w (z.bundle g) i z.f).waves } = begun s z.w (z.bundle g) i z.f → step t x = leaveClause (modFibre t z.wk x (F x)) z.wk x)
    (e : ∀ k ∈ (z.bundle g).act, ∀ y, sget k z.w.fibres = some y → F k (passed z.w (z.bundle g) k y) = fx k (passed z.w (z.bundle g) k y)) :
    Runs s (endIssue ((z.bundle g).act.foldl step (begun s z.w (z.bundle g) i z.f)) (z.bundle g)) z.w (z.bundle g) (z.bundle g).act fx id := by
  have hb : sget z.wk (begun s z.w (z.bundle g) i z.f).waves = some (begunWave z.w (z.bundle g)) := begun_wave s z.w (z.bundle g) i z.f h.wave
  rw [foldl_waves (wk := z.wk) (G := fun x w => Wave.leave x (Wave.put x (F x) w))
    (fun x w y hy => by rw [leave_fibres]; exact put_other hy _ w) _ _ _ hb (act_nodup z g) ?_]
  · have hc : (begunWave z.w (z.bundle g)).clause = some { z.c with idx := z.c.idx + 1, ll := z.c.ll || (z.bundle g).ll } := by
      unfold begunWave; dsimp only; rw [h.clause]; rfl
    obtain ⟨h1, h2, h3⟩ := foldl_leaves (F := F) (z.bundle g).act (act_nodup z g) (begunWave z.w (z.bundle g))
      (by intro c e; rw [hc] at e; cases e; exact h.slots)
    refine (begun_runs h (fx := F) (gx := id) (out := (z.bundle g).act) ?_ ?_ ?_ ?_).congr e
    · intro x
      rw [h1, begunWave_fibre]
      cases hx : sget x z.w.fibres with
      | none => rfl
      | some y =>
        simp only [Option.map_some]
        by_cases ha : (z.bundle g).act.contains x
        · have hall : (z.bundle g).all.contains x := by simpa using act_sub_all (z := z) (g := g) (x := x) (by simpa using ha)
          simp only [ha, hall, if_true]
        · simp only [ha, Bool.false_eq_true, if_false]
    · exact congrArg Wave.issueNo h3
    · intro hi
      rw [h2, hc]
      unfold clauseAfter
      rw [if_neg hi, h.clause]
      rfl
    · exact congrArg (fun v => { v with fibres := z.w.fibres, issueNo := z.w.issueNo, issued := z.w.issued, clause := z.w.clause, paired := z.w.paired, page := z.w.page }) h3
  · intro x hx t w hw hxw hr
    obtain ⟨y, hy⟩ := act_fibre hx
    rw [hs x hx y hy t (by unfold fibreAt; rw [hw]; exact hxw.trans (fibre_begun hx hy)) hr]
    rw [modFibre_put, leaveClause_eq, modWave_modWave]

/-! ### Bundles of one fibre -/

theorem modFibre_self (t : State) (wk k : Nat) : modFibre t wk k (fun y => y) = t := by
  unfold modFibre modWave
  cases t
  simp only [State.mk.injEq, and_true, true_and]
  refine (smod_id _ (fun w : Wave => { w with fibres := smod k (fun y => y) w.fibres }) (fun w => ?_) _)
  cases w; simp only [Wave.mk.injEq, and_true, true_and]; exact smod_id _ _ (fun _ => rfl) _

theorem runs_one {s : State} {i : Instr} {g : Guard} {rel : Rel} {z : Site} (h : Ready s i g rel z) {k : Nat} (hb : (z.bundle g).act = [k]) (F : Fibre → Fibre) :
   Runs s (endIssue (modFibre (begun s z.w (z.bundle g) i z.f) z.wk k F) (z.bundle g)) z.w (z.bundle g) [] (fun _ => F) id := by
  have := runs_puts (step := fun s k => modFibre s z.wk k F) h (fun _ => F) (fun _ => F) (fun _ _ _ _ _ _ _ => rfl) (fun _ _ _ _ => rfl)
  rw [hb] at this
  exact this

theorem runs_one_leaves {s : State} {i : Instr} {g : Guard} {rel : Rel} {z : Site} (h : Ready s i g rel z) {k : Nat} (hb : (z.bundle g).act = [k]) (F : Fibre → Fibre) :
   Runs s (endIssue (leaveClause (modFibre (begun s z.w (z.bundle g) i z.f) z.wk k F) z.wk k) (z.bundle g)) z.w (z.bundle g) [k] (fun _ => F) id := by
  have := runs_leaves (step := fun s k => leaveClause (modFibre s z.wk k F) z.wk k) h (fun _ => F) (fun _ => F) (fun _ _ _ _ _ _ _ => rfl) (fun _ _ _ _ => rfl)
  rw [hb] at this
  exact this

theorem leave_put (x : Nat) (F : Fibre → Fibre) (w : Wave) : Wave.put x F (Wave.leave x w) = Wave.leave x (Wave.put x F w) := by
  cases hc : w.clause <;> simp only [Wave.leave, Wave.put, hc]

/-- An issue that starts an operation and changes its wave by `H`, which leaves flag counts alone. -/
theorem starts_then {s s0 : State} {i : Instr} {g : Guard} {rel : Rel} {z : Site} {ws : List W32} {out : List Nat} {fx : Nat → Fibre → Fibre}
    (h : Ready s i g rel z) (hw : sget z.wk s0.waves = some z.w) (ha : (z.bundle g).act ≠ []) (hl : z.f.ll = true) (k : OpKind) (H : Wave → Wave)
    (hflag : ∀ v n m, H (v.setFlag n m) = (H v).setFlag n m)
    (hf : ∀ x, sget x (H (begunWave z.w (z.bundle g))).fibres = (sget x z.w.fibres).map (fun f =>
      if (z.bundle g).all.contains x then (if (z.bundle g).act.contains x then fx x (passed z.w (z.bundle g) x f) else passed z.w (z.bundle g) x f) else f))
    (hn : (H (begunWave z.w (z.bundle g))).issueNo = numberAfter z.w (z.bundle g))
    (hcl : (z.bundle g).idx ≠ (z.bundle g).place.last → (H (begunWave z.w (z.bundle g))).clause = clauseAfter z.w (z.bundle g) out)
    (hg : { H (begunWave z.w (z.bundle g)) with
            fibres := z.w.fibres, issueNo := z.w.issueNo, issued := z.w.issued, clause := z.w.clause, paired := z.w.paired,
            page := z.w.page } = z.w) :
    Starts s0 (endIssue (modWave (startOp (begun s0 z.w (z.bundle g) i z.f) (z.given g ws) k) z.wk H) (z.bundle g)) z.w (z.bundle g) z.c.header out
      fx (z.bundle g).act k := by
  have hb : (z.f.ll && !(z.bundle g).act.isEmpty) = true := by simp [hl, ha]
  have hfl : (z.given g ws).flag = nextFlag z.c.header z.c.ll := by
    change (if z.f.ll && !(z.bundle g).act.isEmpty then _ else _) = _
    rw [if_pos hb]
  have hops : ∀ t : State, (endIssue t (z.bundle g)).ops = t.ops := by intro t; unfold endIssue; split <;> rfl
  have hnext : ∀ t : State, (endIssue t (z.bundle g)).nextOp = t.nextOp := by intro t; unfold endIssue; split <;> rfl
  unfold startOp
  rw [hfl, show (z.given g ws).wk = (z.bundle g).wk from rfl, begun_ctxOf s0 z.w _ i z.f hw, begun_gangOf s0 z.w _ i z.f hw]
  refine ⟨?_, ?_, ?_⟩
  · cases e : nextFlag z.c.header z.c.ll with
    | none =>
      have he : nextFlag z.c.header (z.bundle g).place.ll = none := e
      rw [he]
      have q : ∀ (t : State) (o : Sparse Op), { endIssue (modWave { t with ops := o, nextOp := t.nextOp + 1 } z.wk H) (z.bundle g) with ops := t.ops, nextOp := t.nextOp }
          = endIssue (modWave t z.wk H) (z.bundle g) := by intro t o; unfold endIssue; split <;> rfl
      exact (q (begun s0 z.w (z.bundle g) i z.f) _).symm ▸ runs_of_wave (b := z.bundle g) hw hf hn hcl hg
    | some n =>
      have he : nextFlag z.c.header (z.bundle g).place.ll = some n := e
      rw [he]
      have q : ∀ (t : State) (o : Sparse Op) (F : Wave → Wave), { endIssue (modWave (modWave { t with ops := o, nextOp := t.nextOp + 1 } (z.bundle g).wk F) z.wk H) (z.bundle g) with ops := t.ops, nextOp := t.nextOp }
          = endIssue (modWave t z.wk (fun w => H (F w))) (z.bundle g) := by
        intro t o F
        have : modWave (modWave { t with ops := o, nextOp := t.nextOp + 1 } (z.bundle g).wk F) z.wk H = { modWave t z.wk (fun w => H (F w)) with ops := o, nextOp := t.nextOp + 1 } := by
          exact modWave_modWave _ _ _ _
        rw [this]; unfold endIssue; split <;> rfl
      refine (q (begun s0 z.w (z.bundle g) i z.f) _ _).symm ▸ runs_of_wave (b := z.bundle g) hw ?_ ?_ ?_ ?_
      · intro x; rw [hflag]; exact hf x
      · rw [hflag]; exact hn
      · intro hi; rw [hflag]; exact hcl hi
      · rw [hflag]; exact congrArg (fun v : Wave => v.setFlag n (z.w.flag n + 1)) hg
  · rw [hops]
    cases e : nextFlag z.c.header z.c.ll <;> (have he : nextFlag z.c.header (z.bundle g).place.ll = _ := e; rw [he]; rfl)
  · rw [hnext]
    cases e : nextFlag z.c.header z.c.ll <;> rfl

/-- The one fibre that passes the guard is changed and leaves the clause as its operation starts. -/
theorem starts_one_leaves {s s0 : State} {i : Instr} {g : Guard} {rel : Rel} {z : Site} {ws : List W32} (h : Ready s i g rel z) (hw : sget z.wk s0.waves = some z.w) {x : Nat} (hb : (z.bundle g).act = [x])
    (hl : z.f.ll = true) (k : OpKind) (F : Fibre → Fibre) :
    Starts s0 (endIssue (leaveClause (modFibre (startOp (begun s0 z.w (z.bundle g) i z.f) (z.given g ws) k) z.wk x F) z.wk x) (z.bundle g)) z.w (z.bundle g) z.c.header [x]
      (fun _ => F) (z.bundle g).act k := by
  rw [modFibre_put, leaveClause_eq, modWave_modWave]
  have hslots : ∀ c, (begunWave z.w (z.bundle g)).clause = some c → c.slots ≠ [] := by
    intro c e
    have : (begunWave z.w (z.bundle g)).clause = some { z.c with idx := z.c.idx + 1, ll := z.c.ll || (z.bundle g).ll } := by
      unfold begunWave; dsimp only; rw [h.clause]; rfl
    rw [this] at e; cases e; exact h.slots
  obtain ⟨h1, h2, h3⟩ := foldl_leaves (F := fun _ => F) [x] (by simp) (begunWave z.w (z.bundle g)) hslots
  simp only [List.foldl_cons, List.foldl_nil] at h1 h2 h3
  refine starts_then h hw (by rw [hb]; simp) hl k _ ?_ ?_ ?_ ?_ ?_
  · intro v n m
    have e1 : Wave.put x F (v.setFlag n m) = (Wave.put x F v).setFlag n m := rfl
    rw [e1]
    generalize Wave.put x F v = u
    cases hc : u.clause <;> simp only [Wave.leave, Wave.setFlag, hc]
  · intro y
    rw [h1, begunWave_fibre, hb]
    cases hx : sget y z.w.fibres with
    | none => rfl
    | some f =>
      simp only [Option.map_some]
      by_cases e : y = x
      · subst e
        have hall : (z.bundle g).all.contains y := by
          have : y ∈ (z.bundle g).act := by rw [hb]; simp
          simpa using act_sub_all (z := z) (g := g) (x := y) this
        simp only [hall, if_true, List.contains_cons, beq_self_eq_true, Bool.true_or]
      · have : [x].contains y = false := by simpa using e
        simp only [this, Bool.false_eq_true, if_false]
  · exact congrArg Wave.issueNo h3
  · intro hi
    rw [h2]
    unfold begunWave clauseAfter
    dsimp only
    rw [h.clause, if_neg hi]; rfl
  · exact congrArg (fun v => { v with fibres := z.w.fibres, issueNo := z.w.issueNo, issued := z.w.issued, clause := z.w.clause, paired := z.w.paired, page := z.w.page }) h3

theorem block_then (B : State) (wk k : Nat) (pc : W64) (p : Place) (bl : Blocked) (F : Fibre → Fibre) :
    modFibre (block B wk k pc p bl) wk k F = leaveClause (modFibre B wk k (fun f => F { f with blocked := some bl, pc := pc, base := some p })) wk k := by
  rw [block_eq, modFibre_put, modFibre_put, leaveClause_eq, modWave_modWave, modWave_modWave]
  congr 1
  funext w
  rw [leave_put]
  congr 1
  unfold Wave.put
  dsimp only
  rw [smod_smod]

theorem block_at {B : State} {wk k : Nat} {y : Fibre} (h : fibreAt B wk k = some y) (pc : W64) (p : Place) (bl : Blocked) :
    fibreAt (block B wk k pc p bl) wk k = some { y with blocked := some bl, pc := pc, base := some p } := by
  unfold fibreAt at h ⊢
  rw [block_eq, sget_modWave_self]
  cases e : sget wk B.waves with
  | none => rw [e] at h; simp at h
  | some w =>
    rw [e] at h
    simp only [Option.map_some, Option.bind_some] at h ⊢
    rw [leave_fibres, put_self, h]
    rfl

/-! ### The end of a fibre -/

/-- A wave without its flag counts and accumulators. -/
def Wave.mind (w : Wave) : Wave := { w with flags := [], accs := [] }

/-- The state without operations in flight, requests, what a context and a core hold, and events. -/
def State.mind (s : State) : State :=
  { s with ops := [], mats := [], reqs := [], supEvents := [], contexts := [], cores := [], ctl := [], dbBusy := [], waves := s.waves.map (fun e => (e.1, e.2.mind)) }

theorem smod_mind {wk : Nat} {F H : Wave → Wave} (h : ∀ w, (F w).mind = H w.mind) (m : Sparse Wave) :
    (smod wk F m).map (fun e => (e.1, e.2.mind)) = smod wk H (m.map (fun e => (e.1, e.2.mind))) := by
  unfold smod
  rw [List.map_map, List.map_map]
  apply List.map_congr_left
  intro e _
  simp only [Function.comp]
  split <;> simp only [h]

theorem modWave_mind (s : State) (wk : Nat) {F H : Wave → Wave} (h : ∀ w, (F w).mind = H w.mind) : (modWave s wk F).mind = modWave s.mind wk H := by
  unfold State.mind modWave
  dsimp only
  rw [smod_mind h]

theorem modWave_still (s : State) (wk : Nat) {F : Wave → Wave} (h : ∀ w, (F w).mind = w.mind) : (modWave s wk F).mind = s.mind := by
  rw [modWave_mind s wk (H := id) h]
  exact congrArg (fun W => ({ s.mind with waves := W } : State)) (smod_id wk id (fun _ => rfl) s.mind.waves)

theorem foldl_mind {α : Type} {f : State → α → State} (h : ∀ s a, (f s a).mind = s.mind) (l : List α) (s : State) : (l.foldl f s).mind = s.mind := by
  induction l generalizing s with
  | nil => rfl
  | cons a l ih => rw [List.foldl_cons, ih, h]

theorem dropFlag_mind (s : State) (wk : Nat) (k : Option Nat) : (dropFlag s wk k).mind = s.mind := by
  unfold dropFlag
  split
  · rfl
  · exact modWave_still _ _ (fun _ => rfl)
theorem setSusp_mind (s : State) (o : MatOp) (b : Bool) (n : Option Nat) : (setSusp s o b n).mind = s.mind := modWave_still _ _ (fun _ => rfl)
theorem endMat_mind (s : State) (n : Nat) : (endMat s n).mind = s.mind := by
  unfold endMat
  split
  · rfl
  · rename_i o _
    refine (dropFlag_mind _ _ _ : (dropFlag (if o.isPass then setSusp s o false (some 0) else s) o.wave o.flag).mind = _).trans ?_
    split
    · exact setSusp_mind _ _ _ _
    · rfl
theorem settleMats_mind (s : State) (wk : Nat) : (settleMats s wk).mind = s.mind := by
  unfold settleMats
  refine foldl_mind (fun s e => ?_) _ s
  split
  · exact endMat_mind s e.1
  · exact setSusp_mind s e.2 false none
theorem dropIdle_mind (s : State) (wk : Nat) : (dropIdle s wk).mind = s.mind := by
  unfold dropIdle
  refine foldl_mind (fun s (e : Nat × Op) => ?_) _ s
  exact (dropFlag_mind s wk e.2.flag : (dropFlag s wk e.2.flag).mind = s.mind)
theorem orphan_mind (s : State) (k : Nat) (r : SenReq) : (orphan s k r).mind = s.mind := by
  unfold orphan
  dsimp only
  split <;> rfl
theorem orphanAll_mind (s : State) (wk slot : Nat) : (orphanAll s wk slot).mind = s.mind := by
  unfold orphanAll
  exact foldl_mind (fun s (e : Nat × SenReq) => orphan_mind s e.1 e.2) _ s
theorem dbDone_mind (s : State) (l wg : Nat) (lfi : W32) (n : Nat) : (dbDone s l wg lfi n).mind = s.mind := by
  unfold dbDone
  refine foldl_mind (fun s (e : Nat × (Nat × Nat × W32)) => ?_) _ s
  generalize ctlRd s (dbReg e.1 0x60) &&& 0x7FFFFFFFFFFFFFFF = a
  unfold ctlWr
  rfl

/-- Takes the fibre of a slot out of a wave. -/
def Wave.del (x : Nat) (w : Wave) : Wave := { w with fibres := sdel x w.fibres }

theorem leave_mind (x : Nat) (w : Wave) : (w.leave x).mind = w.mind.leave x := by
  unfold Wave.leave Wave.mind
  dsimp only
  split <;> rfl

/-- What its launch counts when a fibre ends. -/
def Launch.ended (how : Ending) (l : Launch) : Launch :=
  { l with nkill := if how == .exit then l.nkill else l.nkill + 1, status := if how == .kill then l.status ||| 1 else l.status }

/-- A fibre that ends leaves its wave, and its launch counts it. -/
theorem endFibre_ends {s : State} {wk x : Nat} {w : Wave} {f : Fibre} (how : Ending) (hw : sget wk s.waves = some w) (hf : fibreAt s wk x = some f) :
    (endFibre s wk x how).mind = modLaunch (modWave s.mind wk (fun w => (w.leave x).del x)) w.launch (Launch.ended how) := by
  unfold endFibre
  rw [hw, hf]
  dsimp only
  have hl (t : State) : (modLaunch t w.launch (fun l => { l with
      nkill := if how == Ending.exit then l.nkill else l.nkill + 1
      status := if how == Ending.kill then l.status ||| 1 else l.status })).mind = modLaunch t.mind w.launch (Launch.ended how) := rfl
  rw [hl, dropIdle_mind, settleMats_mind, modWave_mind _ wk (H := Wave.del x) (fun _ => rfl)]
  have h1 := orphanAll_mind (leaveClause s wk x) wk x
  have h2 : (leaveClause s wk x).mind = modWave s.mind wk (Wave.leave x) := modWave_mind s wk (leave_mind x)
  rw [h2] at h1
  have h4 : modWave s.mind wk (fun w => (w.leave x).del x) = modWave (modWave s.mind wk (Wave.leave x)) wk (Wave.del x) := (modWave_modWave _ _ _ _).symm
  rw [h4, ← h1]
  exact congrArg (fun t => modLaunch (modWave t wk (Wave.del x)) w.launch (Launch.ended how)) (dbDone_mind (tagDrop (orphanAll (leaveClause s wk x) wk x) (ctxOf s wk) f.ct.toNat) w.launch w.wg f.lfi 1)

/-- A fibre that ends without a kill leaves its wave, and no launch counts it. -/
theorem endFibre_mind {s : State} {wk x : Nat} {w : Wave} {f : Fibre} (hw : sget wk s.waves = some w) (hf : fibreAt s wk x = some f) :
    (endFibre s wk x .exit).mind = (modWave s wk (fun w => (w.leave x).del x)).mind := by
  rw [endFibre_ends .exit hw hf]
  have h3 : (modWave s wk (fun w => (w.leave x).del x)).mind = modWave s.mind wk (fun w => (w.leave x).del x) :=
    modWave_mind s wk (fun w => by rw [← leave_mind x w]; rfl)
  rw [h3]
  exact congrArg (fun L => ({ modWave s.mind wk (fun w => (w.leave x).del x) with launches := L } : State)) (smod_id w.launch _ (fun _ => rfl) s.launches)

theorem mind_wave {s t : State} (h : s.mind = t.mind) {wk : Nat} {w : Wave} (hw : sget wk s.waves = some w) :
    ∃ v, sget wk t.waves = some v ∧ v.mind = w.mind := by
  have e := congrArg (fun s : State => sget wk s.waves) h
  change sget wk (s.waves.map (fun e => (e.1, e.2.mind))) = sget wk (t.waves.map (fun e => (e.1, e.2.mind))) at e
  rw [sget_map (fun _ a => Wave.mind a), sget_map (fun _ a => Wave.mind a), hw] at e
  cases h2 : sget wk t.waves with
  | none => rw [h2] at e; simp at e
  | some v => rw [h2] at e; simp at e; exact ⟨v, rfl, e.symm⟩

/-- Fibres that end one after another. -/
theorem endFibres_mind {wk : Nat} : ∀ (l : List Nat), l.Nodup → ∀ (s : State) (w : Wave), sget wk s.waves = some w →
    (∀ x ∈ l, ∃ f, sget x w.fibres = some f) →
    (l.foldl (fun s x => endFibre s wk x .exit) s).mind = (modWave s wk (fun w => l.foldl (fun w x => (w.leave x).del x) w)).mind := by
  have comm : ∀ (l : List Nat) (w : Wave), (l.foldl (fun w x => (w.leave x).del x) w).mind = l.foldl (fun w x => (w.leave x).del x) w.mind := by
    intro l
    induction l with
    | nil => intro w; rfl
    | cons x l ih => intro w; rw [List.foldl_cons, List.foldl_cons, ih]; exact congrArg (fun w => l.foldl (fun w x => (w.leave x).del x) (Wave.del x w)) (leave_mind x w)
  intro l
  induction l with
  | nil => intro _ s w _ _; exact (modWave_still s wk (fun _ => rfl)).symm
  | cons x l ih =>
    intro hn s w hw hx
    obtain ⟨f, hf⟩ := hx x (by simp)
    rw [List.foldl_cons]
    have h1 := endFibre_mind (x := x) hw (f := f) (by unfold fibreAt; rw [hw]; exact hf)
    have hw1 : sget wk (modWave s wk (fun w => (w.leave x).del x)).waves = some ((w.leave x).del x) := by rw [sget_modWave_self, hw]; rfl
    obtain ⟨v, hv, he⟩ := mind_wave h1.symm hw1
    have hfib : v.fibres = sdel x w.fibres := (congrArg Wave.fibres he).trans (by rw [← leave_fibres x w]; rfl)
    let H : Wave → Wave := fun w => l.foldl (fun w x => (w.leave x).del x) w
    have hH (t : State) : (modWave t wk H).mind = modWave t.mind wk H := modWave_mind t wk (comm l)
    rw [ih (List.nodup_cons.1 hn).2 _ v hv ?_]
    · exact (hH _).trans ((congrArg (fun m => modWave m wk H) h1).trans ((hH _).symm.trans (congrArg State.mind (modWave_modWave _ _ _ _))))
    · intro q hq
      have hqx : q ≠ x := fun e => (List.nodup_cons.1 hn).1 (e ▸ hq)
      rw [hfib, sget_sdel_ne hqx]
      exact hx q (by simp [hq])

/-- What the fibres that end leave of their wave. -/
theorem foldl_ends : ∀ (l : List Nat) (w : Wave), (∀ c, w.clause = some c → c.slots ≠ []) →
    (∀ y, sget y (l.foldl (fun w x => (Wave.leave x w).del x) w).fibres = if l.contains y then none else sget y w.fibres)
      ∧ (l.foldl (fun w x => (Wave.leave x w).del x) w).clause = w.clause.bind (fun c =>
          let slots := c.slots.filter (fun x => !l.contains x)
          if slots.isEmpty then none else some { c with slots := slots })
      ∧ { l.foldl (fun w x => (Wave.leave x w).del x) w with fibres := w.fibres, clause := w.clause, paired := w.paired } = w := by
  intro l
  induction l with
  | nil =>
    intro w hc
    refine ⟨fun y => by simp, ?_, rfl⟩
    cases h : w.clause with
    | none => simp [h]
    | some c => have := hc c h; simp [h, this]
  | cons x l ih =>
    intro w hc
    have hcl : ((Wave.leave x w).del x).clause = w.clause.bind (fun c => let slots := c.slots.filter (· != x); if slots.isEmpty then none else some { c with slots := slots }) := by
      unfold Wave.del Wave.leave
      dsimp only
      split
      · rename_i h; rw [h]; rfl
      · rename_i c h; rw [h]; rfl
    obtain ⟨h1, h2, h3⟩ := ih ((Wave.leave x w).del x) (by
      intro c h
      rw [hcl] at h
      cases hh : w.clause with
      | none => rw [hh] at h; simp at h
      | some d =>
        rw [hh] at h
        simp only [Option.bind_some] at h
        split at h
        · simp at h
        · rename_i he
          simp only [Option.some.injEq] at h
          subst h
          simpa using he)
    refine ⟨fun y => ?_, ?_, ?_⟩
    · rw [List.foldl_cons, h1]
      have hd : ((Wave.leave x w).del x).fibres = sdel x w.fibres := by rw [← leave_fibres x w]; rfl
      rw [hd]
      by_cases e : y = x
      · subst e; simp
      · rw [sget_sdel_ne e]; simp [e]
    · rw [List.foldl_cons, h2, hcl]
      cases h : w.clause with
      | none => rfl
      | some c =>
        simp only [Option.bind_some]
        have hf : ∀ m : List Nat, List.filter (fun y => !(x :: l).contains y) m = List.filter (fun y => !l.contains y) (List.filter (fun y => y != x) m) := by
          intro m
          rw [List.filter_filter]
          congr 1
          funext y
          by_cases e : y = x <;> simp [e]
        rw [hf]
        by_cases he : (List.filter (fun y => y != x) c.slots).isEmpty
        · have he' := he
          rw [List.isEmpty_iff] at he'
          simp [he']
        · simp only [he, Bool.false_eq_true, if_false, Option.bind_some]
    · rw [List.foldl_cons]
      generalize l.foldl (fun w x => (Wave.leave x w).del x) ((Wave.leave x w).del x) = v at h3 ⊢
      have h4 := leave_rest x w
      have h5 : (Wave.leave x w).del x = { Wave.leave x w with fibres := sdel x (Wave.leave x w).fibres } := rfl
      rw [h5] at h3
      generalize Wave.leave x w = u at h3 h4
      cases v; cases u; cases w
      simp only [Wave.mk.injEq] at h3 h4 ⊢
      simp [h3, h4]

end Sys2Proof.Machine
end

