-- ==== Sys2Proof/Laws/Trap.lean ====
section
/-! SUPPORT. Traps that are delivered, and the return from them. -/

namespace Sys2Proof.Machine

theorem toBytesLE_length (n x : Nat) : (toBytesLE n x).length = n := by rw [toBytesLE_eq]; simp

theorem faultRecord_length (s : State) (wk : Nat) (w : Wave) (f : Fibre) (r : Resume) (c : Cause) : (faultRecord s wk w f r c).length = 128 := by
  unfold faultRecord
  simp only [List.length_append, toBytesLE_length, List.length_replicate, List.length_cons, List.length_nil]

/-- A write through a pointer whose bytes are served. -/
theorem ptrWrite_served {s : State} {core ctx tag : Nat} {p : W64} {bs : List Byte} {re : RegionEntry} {reach : List (Nat × Nat)}
    (hr : (coreOf s core).regions.find? (fun e => e.ctx = ctx && e.rid = ptrRid p) = some re) (hi : inRegion re (ptrVa p) bs.length = true)
    (hp : reach.map (·.1) = addrs (ptrVa p) bs.length) (hs : ∀ q ∈ reach, Served s core ctx tag .write q.1 q.2) :
    ptrWrite s (some core) ctx tag p bs = (writeBytes s ((reach.map (·.2)).zip bs) false, .ok ()) := by
  have h1 : regionOf s (some core) ctx (ptrRid p) = (s, re) := by unfold regionOf; dsimp only; rw [hr]
  unfold ptrWrite ptrPhys
  rw [h1]
  dsimp only
  rw [hi]
  simp only [Bool.not_true, Bool.false_eq_true, if_false]
  rw [← hp, physical_served hs]

/-- A read through a pointer whose bytes are served. -/
theorem ptrRead_served {s : State} {core ctx tag : Nat} {p : W64} {n : Nat} {re : RegionEntry} {reach : List (Nat × Nat)} (ho : Open s)
    (hr : (coreOf s core).regions.find? (fun e => e.ctx = ctx && e.rid = ptrRid p) = some re) (hi : inRegion re (ptrVa p) n = true)
    (hp : reach.map (·.1) = addrs (ptrVa p) n) (hs : ∀ q ∈ reach, Served s core ctx tag .read q.1 q.2) :
    ∃ d, ptrRead s (some core) ctx tag p n = (s, .ok (reach.map (fun q => pByte s q.2), d)) := by
  have h1 : regionOf s (some core) ctx (ptrRid p) = (s, re) := by unfold regionOf; dsimp only; rw [hr]
  unfold ptrRead ptrPhys
  rw [h1]
  dsimp only
  rw [hi]
  simp only [Bool.not_true, Bool.false_eq_true, if_false]
  rw [← hp, physical_served hs]
  dsimp only
  unfold readBytes
  rw [snoop_open ho.windows]
  refine ⟨poisonedAt s (reach.map (·.2)), ?_⟩
  simp only [List.map_map]
  rfl

/-- The registers of a fibre at its handler (R426). -/
theorem enter_regs (f : Fibre) (h p : W64) (pos : Nat) (r : Resume) (c : Cause) :
    (f.enter h p pos r c).rv2 0 = p ∧ (f.enter h p pos r c).rv 2 = BitVec.ofNat 32 (2 * pos + f.recs.length)
      ∧ (f.enter h p pos r c).rv 3 = c.kind.setWidth 16 ++ c.sub ∧ (∀ q < 4, (f.enter h p pos r c).vp q = false)
      ∧ (∀ q, 4 ≤ q → (f.enter h p pos r c).rv q = f.rv q ∧ (f.enter h p pos r c).vp q = f.vp q) := by
  have e (q : Nat) : (f.enter h p pos r c).rv q = (((f.setV2 0 p).setV 2 (BitVec.ofNat 32 (2 * pos + f.recs.length))).setV 3 (c.kind.setWidth 16 ++ c.sub)).rv q := rfl
  have e' (q : Nat) : (f.enter h p pos r c).vp q = (((f.setV2 0 p).setV 2 (BitVec.ofNat 32 (2 * pos + f.recs.length))).setV 3 (c.kind.setWidth 16 ++ c.sub)).vp q := rfl
  refine ⟨?_, ?_, ?_, ?_, ?_⟩
  · have h1 : (f.enter h p pos r c).rv 1 = p.extractLsb' 32 32 := by
      rw [e]
      simp only [Fibre.setV, Fibre.setV2]
      rw [rv_setVp_ne (by decide), rv_setVp_ne (by decide)]
      exact rv_setVp_self _ _ _ _
    have h0 : (f.enter h p pos r c).rv 0 = p.extractLsb' 0 32 := by
      rw [e]
      simp only [Fibre.setV, Fibre.setV2]
      rw [rv_setVp_ne (by decide), rv_setVp_ne (by decide), rv_setVp_ne (by decide), rv_setVp_self]
    unfold Fibre.rv2
    rw [show (0 + 1) = 1 from rfl, h0, h1]
    apply BitVec.eq_of_getLsbD_eq
    intro i hi
    simp only [BitVec.getLsbD_append, BitVec.getLsbD_extractLsb']
    by_cases q : i < 32
    · simp [q]
    · simp [q, show i - 32 < 32 by omega, show 32 + (i - 32) = i by omega]
  · rw [e]
    simp only [Fibre.setV]
    rw [rv_setVp_ne (by decide), rv_setVp_self]
  · rw [e]
    simp only [Fibre.setV]
    rw [rv_setVp_self]
  · intro q hq
    rw [e']
    simp only [Fibre.setV, Fibre.setV2]
    rcases (by omega : q = 0 ∨ q = 1 ∨ q = 2 ∨ q = 3) with rfl | rfl | rfl | rfl
    · rw [vp_setVp_ne (by decide), vp_setVp_ne (by decide), vp_setVp_ne (by decide), vp_setVp_self]
    · rw [vp_setVp_ne (by decide), vp_setVp_ne (by decide), vp_setVp_self]
    · rw [vp_setVp_ne (by decide), vp_setVp_self]
    · rw [vp_setVp_self]
  · intro q hq
    rw [e, e']
    simp only [Fibre.setV, Fibre.setV2]
    rw [rv_setVp_ne (by omega), rv_setVp_ne (by omega), rv_setVp_ne (by omega), rv_setVp_ne (by omega),
      vp_setVp_ne (by omega), vp_setVp_ne (by omega), vp_setVp_ne (by omega), vp_setVp_ne (by omega)]
    exact ⟨rfl, rfl⟩

theorem enter_rest (f : Fibre) (h p : W64) (pos : Nat) (r : Resume) (c : Cause) :
    (f.enter h p pos r c).q = f.q ∧ (f.enter h p pos r c).lfi = f.lfi ∧ (f.enter h p pos r c).ct = f.ct
      ∧ (f.enter h p pos r c).recs = f.recs ++ [{ kind := c.kind, sub := c.sub, rpc := r.pc, base := r.place, ll := r.ll, ptr := p, matOp := c.matOp, stamp := f.stamp }] :=
  ⟨rfl, rfl, rfl, rfl⟩

theorem passed_q (w : Wave) (b : Bundle) (x : Nat) (f : Fibre) : (passed w b x f).q = f.q := by
  unfold passed Fibre.advance; dsimp only; split <;> rfl

/-- A trap that can be delivered, from a state whose wave has passed the instruction. -/
theorem trap_goes {s B : State} {z : Site} {k : Nat} {y f : Fibre} {W : Wave} {r : Resume} {c : Cause} {reach : List (Nat × Nat)}
    (hc : CanTrap s z k y reach) (ho : Open B) (hm : B.mem = s.mem) (hgang : B.gangs = s.gangs) (hgo : gangOf B z.wk = gangOf s z.wk) (hctx : ctxOf B z.wk = ctxOf s z.wk) (hcon : B.contexts = s.contexts)
    (hreg : (coreOf B (coreNo z.wk)).regions = (coreOf s (coreNo z.wk)).regions) (htlb : (coreOf B (coreNo z.wk)).tlb = (coreOf s (coreNo z.wk)).tlb)
    (hclk : (coreOf B (coreNo z.wk)).clock = (coreOf s (coreNo z.wk)).clock)
    (hW : sget z.wk B.waves = some W) (hf : sget k W.fibres = some f) (hl : W.launch = z.w.launch) (hg : W.wg = z.w.wg)
    (fr : f.recs = y.recs) (fc : f.ct = y.ct) (fl : f.lfi = y.lfi) (fv : ∀ q, f.rv q = y.rv q) (fp : ∀ q, f.vp q = y.vp q) (fd : f.pred = y.pred) :
    trap B z.wk k r c = (leaveClause (modFibre B z.wk k (fun f => f.enter (handlerOf s z) (recordSlot s z k y) (trapPos z.wk k) r c)) z.wk k).withMem
      (writeBytes B ((reach.map (·.2)).zip (faultRecord s z.wk z.w y r c)) false).mem
      (writeBytes B ((reach.map (·.2)).zip (faultRecord s z.wk z.w y r c)) false).memPois := by
  have hrd : ∀ off n, ctxRd B (ctxOf s z.wk) off n = ctxRd s (ctxOf s z.wk) off n := by
    intro off n
    have hb : cByte B = cByte s := by funext pa; unfold cByte pByte; rw [hm, hgang]
    unfold ctxRd rd
    rw [hcon, hb]
  have hfib : fibreAt B z.wk k = some f := by unfold fibreAt; rw [hW]; exact hf
  have hh : BitVec.ofNat 64 (ctxRd B (ctxOf B z.wk) 0x40 8) = handlerOf s z := by rw [hctx, hrd]; rfl
  have hp : trapPtr B (ctxOf B z.wk) (trapPos z.wk k) f.recs.length = recordSlot s z k y := by unfold trapPtr; rw [hctx, hrd, fr]; rfl
  have hrec : faultRecord B z.wk W f r c = faultRecord s z.wk z.w y r c := by
    unfold faultRecord
    simp only [hl, hg, fr, fl, fv, fp, fd, hctx, hclk]
  obtain ⟨re, hre, hin⟩ := hc.region
  have hlen : (faultRecord s z.wk z.w y r c).length = 128 := faultRecord_length _ _ _ _ _ _
  unfold trap
  rw [hW, hfib]
  dsimp only
  rw [hh, hp, hrec]
  have h0 : aborted B z.wk = false := by
    unfold aborted
    rw [hgo, hgang]
    have := hc.live
    revert this
    cases sget (gangOf s z.wk) s.gangs with
    | none => intro _; rfl
    | some g => intro h; simp only [Option.any_some] at h ⊢; rw [h, Bool.false_and]
  rw [h0]
  have h1 : (decide (f.recs.length = 2) || decide (handlerOf s z = 0) && decide (f.recs.length = 1)) = false := by
    have := hc.level
    have h2 : ¬ f.recs.length = 2 := by rw [fr]; omega
    rw [decide_eq_false h2, decide_eq_false hc.handler]
    rfl
  rw [h1]
  simp only [Bool.false_eq_true, if_false]
  rw [fc, hctx, ptrWrite_served (re := re) (reach := reach) (by rw [hreg]; exact hre) (by rw [hlen]; exact hin) (by rw [hlen]; exact hc.place)
    (fun q hq => by have := hc.served q hq; unfold Served at this ⊢; rw [htlb]; exact this)]
  dsimp only
  rw [if_neg hc.handler, writeBytes_open ho]
  rfl

/-- What a delivered trap leaves, once the clause is left and the issue ends. -/
theorem trapped_of {s B : State} {z : Site} {b : Bundle} {k : Nat} {y : Fibre} {c : Cause} {reach : List (Nat × Nat)}
    (ho : Open B) (hm : B.mem = s.mem) (hwk : b.wk = z.wk) {W : Wave} (hW : sget z.wk B.waves = some W)
    (hWf : W.fibres = (begunWave z.w b).fibres) (hWc : W.clause = (begunWave z.w b).clause) (hWg : W.g = z.w.g)
    (hwv : ∀ j, j ≠ z.wk → sget j B.waves = sget j s.waves) (hrest : B.launches = s.launches ∧ B.gangs = s.gangs ∧ B.contexts = s.contexts ∧ B.ctl = s.ctl)
    (hcl : z.w.clause = some z.c) (hy : sget k z.w.fibres = some y) (hall : b.all.contains k = true) (hlen : reach.length = 128)
    {t : State} (ht : t = (leaveClause (modFibre B z.wk k (fun f => f.enter (handlerOf s z) (recordSlot s z k y) (trapPos z.wk k) b.here c)) z.wk k).withMem
      (writeBytes B ((reach.map (·.2)).zip (faultRecord s z.wk z.w y b.here c)) false).mem
      (writeBytes B ((reach.map (·.2)).zip (faultRecord s z.wk z.w y b.here c)) false).memPois) :
    Trapped s (endIssue t b) z b k y c reach := by
  have hend : ∀ {α : Type} (p : State → α), (∀ t, p (endIssue t b) = p t) → p (endIssue t b) = p t := fun p h => h t
  have hwave : sget z.wk t.waves = some (Wave.leave k (Wave.put k (fun f => f.enter (handlerOf s z) (recordSlot s z k y) (trapPos z.wk k) b.here c) W)) := by
    rw [ht]
    change sget z.wk (leaveClause _ z.wk k).waves = _
    rw [leaveClause_eq, modFibre_put, modWave_modWave, sget_modWave_self, hW]
    rfl
  obtain ⟨v, hv, h1, h2, h3⟩ : ∃ v, sget z.wk (endIssue t b).waves = some v
      ∧ v.fibres = (Wave.put k (fun f => f.enter (handlerOf s z) (recordSlot s z k y) (trapPos z.wk k) b.here c) W).fibres
      ∧ v.g = z.w.g ∧ v.clause = clauseAfter z.w b [k] := by
    rw [endIssue_waves]
    have hg : (Wave.leave k (Wave.put k (fun f => f.enter (handlerOf s z) (recordSlot s z k y) (trapPos z.wk k) b.here c) W)).g = z.w.g := by
      have := congrArg Wave.g (leave_rest k (Wave.put k (fun f => f.enter (handlerOf s z) (recordSlot s z k y) (trapPos z.wk k) b.here c) W))
      exact this.trans hWg
    split
    · rename_i hi
      refine ⟨{ (Wave.leave k (Wave.put k (fun f => f.enter (handlerOf s z) (recordSlot s z k y) (trapPos z.wk k) b.here c) W)) with clause := none, paired := none },
        by rw [hwk, sget_smod_self, hwave]; rfl, leave_fibres _ _, hg, ?_⟩
      unfold clauseAfter
      rw [if_pos hi]
    · rename_i hi
      refine ⟨_, hwave, leave_fibres _ _, hg, ?_⟩
      unfold clauseAfter
      rw [if_neg hi, hcl]
      have hcl' : W.clause = some { z.c with idx := z.c.idx + 1, ll := z.c.ll || b.ll } := by rw [hWc]; unfold begunWave; dsimp only; rw [hcl]; rfl
      unfold Wave.leave Wave.put
      dsimp only
      rw [hcl']
      dsimp only [Option.map_some, Option.bind_some]
      have : ∀ l : List Nat, l.filter (fun x => x != k) = l.filter (fun x => !([k] : List Nat).contains x) := by
        intro l; congr 1; funext x; by_cases e : x = k <;> simp [e]
      rw [this]
  have hmem : (endIssue t b).mem = (writeBytes B ((reach.map (·.2)).zip (faultRecord s z.wk z.w y b.here c)) false).mem := by rw [endIssue_mem, ht]; rfl
  have hpois : (endIssue t b).memPois = (writeBytes B ((reach.map (·.2)).zip (faultRecord s z.wk z.w y b.here c)) false).memPois := by rw [endIssue_memPois, ht]; rfl
  have hl : (faultRecord s z.wk z.w y b.here c) = (List.range 128).map (fun j => (faultRecord s z.wk z.w y b.here c).getD j 0) := by
    apply List.ext_getElem
    · simp [faultRecord_length]
    · intro j h1 h2
      simp [List.getD_eq_getElem?_getD, List.getElem?_eq_getElem h1]
  rw [hl] at hmem hpois
  have hw := wrote_one ho hlen (fun j => (faultRecord s z.wk z.w y b.here c).getD j 0) hmem hpois
  obtain ⟨r1, r2, r3, r4, r5⟩ := enter_regs (passed z.w b k y) (handlerOf s z) (recordSlot s z k y) (trapPos z.wk k) b.here c
  obtain ⟨q1, q2, q3, q4⟩ := enter_rest (passed z.w b k y) (handlerOf s z) (recordSlot s z k y) (trapPos z.wk k) b.here c
  refine ⟨⟨v, (passed z.w b k y).enter (handlerOf s z) (recordSlot s z k y) (trapPos z.wk k) b.here c, hv, ?_, rfl, rfl, rfl, rfl, rfl, r1, ?_, r3, r4, ?_, ?_, ?_, ?_, ?_, ?_, h2, h3⟩,
    ?_, ?_, ?_, ?_⟩
  · rw [h1, put_self, hWf, begunWave_fibre, hy]
    simp only [Option.map_some, hall, if_true]
  · rw [r2, passed_recs]
  · intro q hq
    obtain ⟨e1, e2⟩ := r5 q hq
    rw [e1, e2, passed_rv, passed_vp]
    exact ⟨rfl, rfl⟩
  · rw [q1, passed_q]
  · rw [q2, passed_lfi]
  · rw [q3, passed_ct]
  · rw [q4, passed_recs]
    rfl
  · intro j hj
    rw [h1, put_other hj, hWf, begunWave_fibre]
  · intro j v' p hj hu
    refine (hw.bytes 0 (by simp) j v' p hj ?_)
    intro k' hk' j' v'' h
    exact ⟨by simpa using hk', hu j' v'' h⟩
  · intro p hp
    rw [hw.frame p (fun _ _ q hq => hp q hq)]
    unfold pByte; rw [hm]
  · intro j hj
    have e : sget j t.waves = sget j s.waves := by
      rw [ht]
      change sget j (leaveClause _ z.wk k).waves = _
      rw [leaveClause_eq, modFibre_put, modWave_modWave, sget_modWave_ne hj]
      exact hwv j hj
    rw [endIssue_waves]
    split
    · rw [hwk, sget_smod_ne hj, e]
    · exact e
  · have e : ∀ t : State, (endIssue t b).launches = t.launches ∧ (endIssue t b).gangs = t.gangs ∧ (endIssue t b).contexts = t.contexts ∧ (endIssue t b).ctl = t.ctl := by
      intro t; unfold endIssue; split <;> exact ⟨rfl, rfl, rfl, rfl⟩
    obtain ⟨e1, e2, e3, e4⟩ := e t
    rw [e1, e2, e3, e4, ht]
    exact hrest

/-! ### The return -/

theorem restore_rest (f : Fibre) (bs : List Byte) :
    (f.restore bs).q = f.q ∧ (f.restore bs).lfi = f.lfi ∧ (f.restore bs).ct = f.ct ∧ (f.restore bs).staged = []
      ∧ (f.restore bs).pred = BitVec.ofNat 16 (fromBytesLE ((bs.drop 0x58).take 2)) ||| 1 := by
  unfold Fibre.restore
  rw [show List.range 4 = [0, 1, 2, 3] from rfl]
  simp only [List.foldl_cons, List.foldl_nil, Fibre.setVp, Fibre.setPreds, and_self]

theorem restore_v (f : Fibre) (bs : List Byte) : (f.restore bs).v
    = ((((f.setVp 0 (BitVec.ofNat 32 (fromBytesLE ((bs.drop (0x48 + 4 * 0)).take 4))) ((bs.getD 0x5A 0).getLsbD 0)).setVp 1
        (BitVec.ofNat 32 (fromBytesLE ((bs.drop (0x48 + 4 * 1)).take 4))) ((bs.getD 0x5A 0).getLsbD 1)).setVp 2
        (BitVec.ofNat 32 (fromBytesLE ((bs.drop (0x48 + 4 * 2)).take 4))) ((bs.getD 0x5A 0).getLsbD 2)).setVp 3
        (BitVec.ofNat 32 (fromBytesLE ((bs.drop (0x48 + 4 * 3)).take 4))) ((bs.getD 0x5A 0).getLsbD 3)).v := by
  unfold Fibre.restore
  rw [show List.range 4 = [0, 1, 2, 3] from rfl]
  simp only [List.foldl_cons, List.foldl_nil, Fibre.setVp, Fibre.setPreds]

theorem back_rest (u : Fibre) (a : ActiveRec) (skip : Bool) : (u.back a skip).v = u.v ∧ (u.back a skip).q = u.q ∧ (u.back a skip).lfi = u.lfi
    ∧ (u.back a skip).ct = u.ct ∧ (u.back a skip).pred = u.pred ∧ (u.back a skip).staged = u.staged := by
  unfold Fibre.back Fibre.advance
  split
  · split <;> exact ⟨rfl, rfl, rfl, rfl, rfl, rfl⟩
  · exact ⟨rfl, rfl, rfl, rfl, rfl, rfl⟩

/-- The registers of a fibre as its return restores them (R428). -/
theorem restored (y f : Fibre) (a : ActiveRec) (skip : Bool) (bs : List Byte) (hv : ∀ q, f.rv q = y.rv q ∧ f.vp q = y.vp q) (hq : f.q = y.q)
    (hl : f.lfi = y.lfi) (hc : f.ct = y.ct) (hr : f.recs = y.recs) : Restored y { (f.restore bs).back a skip with recs := f.recs.dropLast, stamp := a.stamp } bs := by
  obtain ⟨b1, b2, b3, b4, b5, b6⟩ := back_rest (f.restore bs) a skip
  obtain ⟨c2, c3, c4, c6, c5⟩ := restore_rest f bs
  have e (q : Nat) : ({ (f.restore bs).back a skip with recs := f.recs.dropLast, stamp := a.stamp } : Fibre).rv q = (f.restore bs).rv q := by
    unfold Fibre.rv; dsimp only; rw [b1]
  have e' (q : Nat) : ({ (f.restore bs).back a skip with recs := f.recs.dropLast, stamp := a.stamp } : Fibre).vp q = (f.restore bs).vp q := by
    unfold Fibre.vp; dsimp only; rw [b1]
  let w (i : Nat) : W32 := BitVec.ofNat 32 (fromBytesLE ((bs.drop (0x48 + 4 * i)).take 4))
  let d (i : Nat) : Bool := (bs.getD 0x5A 0).getLsbD i
  have u (q : Nat) : (f.restore bs).rv q = ((((f.setVp 0 (w 0) (d 0)).setVp 1 (w 1) (d 1)).setVp 2 (w 2) (d 2)).setVp 3 (w 3) (d 3)).rv q := by
    unfold Fibre.rv; rw [restore_v]
  have u' (q : Nat) : (f.restore bs).vp q = ((((f.setVp 0 (w 0) (d 0)).setVp 1 (w 1) (d 1)).setVp 2 (w 2) (d 2)).setVp 3 (w 3) (d 3)).vp q := by
    unfold Fibre.vp; rw [restore_v]
  refine ⟨?_, ?_, ?_, ?_, ?_, ?_, ?_, ?_⟩
  · intro i hi
    rw [e, e', u, u']
    rcases (by omega : i = 0 ∨ i = 1 ∨ i = 2 ∨ i = 3) with rfl | rfl | rfl | rfl
    · rw [rv_setVp_ne (by decide), rv_setVp_ne (by decide), rv_setVp_ne (by decide), rv_setVp_self,
        vp_setVp_ne (by decide), vp_setVp_ne (by decide), vp_setVp_ne (by decide), vp_setVp_self]
      exact ⟨rfl, rfl⟩
    · rw [rv_setVp_ne (by decide), rv_setVp_ne (by decide), rv_setVp_self, vp_setVp_ne (by decide), vp_setVp_ne (by decide), vp_setVp_self]
      exact ⟨rfl, rfl⟩
    · rw [rv_setVp_ne (by decide), rv_setVp_self, vp_setVp_ne (by decide), vp_setVp_self]
      exact ⟨rfl, rfl⟩
    · rw [rv_setVp_self, vp_setVp_self]
      exact ⟨rfl, rfl⟩
  · exact b5.trans c5
  · intro r hr'
    rw [e, e', u, u', rv_setVp_ne (by omega), rv_setVp_ne (by omega), rv_setVp_ne (by omega), rv_setVp_ne (by omega),
      vp_setVp_ne (by omega), vp_setVp_ne (by omega), vp_setVp_ne (by omega), vp_setVp_ne (by omega)]
    exact hv r
  · exact b2.trans (c2.trans hq)
  · exact b3.trans (c3.trans hl)
  · exact b4.trans (c4.trans hc)
  · exact b6.trans c6
  · change f.recs.dropLast = _
    rw [hr]

/-- A return from the handler whose record can be read and written. -/
theorem tret_goes {s B : State} {z : Site} {k : Nat} {y f : Fibre} {W : Wave} {r : Resume} {a : ActiveRec} {reach : List (Nat × Nat)}
    (hc : CanReturn s z y a reach) (ho : Open B) (hm : B.mem = s.mem) (hctx : ctxOf B z.wk = ctxOf s z.wk)
    (hreg : (coreOf B (coreNo z.wk)).regions = (coreOf s (coreNo z.wk)).regions) (htlb : (coreOf B (coreNo z.wk)).tlb = (coreOf s (coreNo z.wk)).tlb)
    (hW : sget z.wk B.waves = some W) (hf : sget k W.fibres = some f) (fr : f.recs = y.recs) (fc : f.ct = y.ct) (hmat : a.matOp = none)
    (act : TretAct) (hskip : act = .skip → a.base.isSome = true) :
    ∃ M P, (∀ p, sgetD unlisted M p = if (reach[0x7F]?).map (·.2) = some p then 0 else pByte s p)
      ∧ tret B z.wk k r act = (let t := (modFibre B z.wk k (fun f => { (f.restore (reach.map (fun p => pByte s p.2))).back a (act == .skip) with recs := f.recs.dropLast, stamp := a.stamp })).withMem M P
        match act with
        | .retry => t
        | .skip => t
        | .killf => endFibre t z.wk k .kill
        | .killg => abortGang (endFibre t z.wk k .kill) (gangOf t z.wk)) := by
  have hfib : fibreAt B z.wk k = some f := by unfold fibreAt; rw [hW]; exact hf
  obtain ⟨re, hre, hin⟩ := hc.region
  have hlen : reach.length = 128 := by have := congrArg List.length hc.place; simpa [addrs] using this
  have hsv : ∀ (need : Need) (l : List (Nat × Nat)), (∀ q ∈ l, Served s (coreNo z.wk) (ctxOf s z.wk) y.ct.toNat need q.1 q.2) →
      ∀ q ∈ l, Served B (coreNo z.wk) (ctxOf s z.wk) y.ct.toNat need q.1 q.2 := by
    intro need l h q hq
    have := h q hq
    unfold Served at this ⊢
    rw [htlb]; exact this
  obtain ⟨d, hrd⟩ := ptrRead_served (s := B) (reach := reach) ho (by rw [hreg]; exact hre) hin hc.place (hsv .read reach hc.read)
  have hpb : ∀ q, pByte B q = pByte s q := fun q => by unfold pByte; rw [hm]
  have hp1 : ptrRid (a.ptr + 0x7F) = ptrRid a.ptr ∧ ptrVa (a.ptr + 0x7F) = ptrVa a.ptr + 127 := by
    have h1 := hc.aligned
    have h2 := a.ptr.isLt
    have h3 : (a.ptr + 0x7F : W64).toNat = a.ptr.toNat + 127 := by
      rw [BitVec.toNat_add]
      change (a.ptr.toNat + 127) % 2 ^ 64 = _
      omega
    unfold ptrRid ptrVa bits
    rw [h3]
    constructor <;> omega
  have hlt : 0x7F < reach.length := by omega
  have hq : reach[0x7F].1 = ptrVa a.ptr + 127 := by
    have := congrArg (fun l => l[0x7F]?) hc.place
    simp only [List.getElem?_map, List.getElem?_eq_getElem hlt, addrs, Option.map_some] at this
    simpa using this
  have hwr := ptrWrite_served (s := B) (p := a.ptr + 0x7F) (bs := [0]) (reach := [reach[0x7F]]) (tag := y.ct.toNat) (by rw [hp1.1, hreg]; exact hre)
    (by
      rw [hp1.2]
      unfold inRegion at hin ⊢
      simp only [Bool.and_eq_true, decide_eq_true_eq, List.length_cons, List.length_nil] at hin ⊢
      exact ⟨⟨hin.1.1, by omega⟩, by omega⟩)
    (by rw [hp1.2]; simp [addrs, hq])
    (hsv .write [reach[0x7F]] (fun q hq => by
      rw [List.mem_singleton] at hq
      rw [hq]
      exact hc.write _ (List.getElem_mem _)))
  refine ⟨(writeBytes B [(reach[0x7F].2, 0)] false).mem, (writeBytes B [(reach[0x7F].2, 0)] false).memPois, ?_, ?_⟩
  · intro p
    rw [writeBytes_open ho, List.getElem?_eq_getElem hlt]
    simp only [Option.map_some, Option.some.injEq]
    change sgetD unlisted (putAll B.mem [(reach[0x7F].2, 0)]) p = _
    by_cases e : reach[0x7F].2 = p
    · rw [if_pos e]
      exact putAll_named (fun c hc _ => congrArg Prod.snd (List.mem_singleton.1 hc)) ⟨(reach[0x7F].2, 0), by simp, e⟩
    · rw [if_neg e, ← hpb]
      exact putAll_other (fun c hc => by have := congrArg Prod.fst (List.mem_singleton.1 hc); rw [this]; exact e)
  · unfold tret
    rw [hfib]
    dsimp only
    rw [fr, hc.last]
    dsimp only
    have hsk : (act == TretAct.skip && a.base.isNone) = false := by
      cases act with
      | skip => have := hskip rfl; simp [this]
      | _ => rfl
    rw [hsk]
    simp only [Bool.false_eq_true, if_false]
    rw [fc, hctx, hrd]
    dsimp only
    rw [hctx, hwr]
    dsimp only
    rw [hmat]
    dsimp only
    have hz : ([reach[0x7F]].map (·.2)).zip ([0] : List Byte) = [(reach[0x7F].2, 0)] := rfl
    rw [hz]
    have hb : reach.map (fun q => pByte B q.2) = reach.map (fun p => pByte s p.2) := by
      apply List.map_congr_left; intro q _; exact hpb q.2
    rw [hb]
    have hw2 : writeBytes B [(reach[0x7F].2, 0)] false = B.withMem (writeBytes B [(reach[0x7F].2, 0)] false).mem (writeBytes B [(reach[0x7F].2, 0)] false).memPois := by
      rw [writeBytes_open ho]; rfl
    rw [hw2]
    cases act <;> rfl

end Sys2Proof.Machine
end

