-- ==== Sys2Proof/Laws/Engine.lean ====
section
/-! SUPPORT. What starting the work of an engine changes. -/

namespace Sys2Proof.Machine

/-- What an issued instruction finds of its wave. -/
theorem begun_own {s : State} {i : Instr} {g : Guard} {rel : Rel} {z : Site} (h : Ready s i g rel z) :
    sget z.wk (begun s z.w (z.bundle g) i z.f).waves = some (begunWave z.w (z.bundle g)) := begun_wave s z.w (z.bundle g) i z.f h.wave
theorem begun_gang {s : State} {i : Instr} {g : Guard} {rel : Rel} {z : Site} (h : Ready s i g rel z) :
    gangOf (begun s z.w (z.bundle g) i z.f) z.wk = gangOf s z.wk := begun_gangOf s z.w (z.bundle g) i z.f h.wave
theorem begun_ctx {s : State} {i : Instr} {g : Guard} {rel : Rel} {z : Site} (h : Ready s i g rel z) :
    ctxOf (begun s z.w (z.bundle g) i z.f) z.wk = ctxOf s z.wk := begun_ctxOf s z.w (z.bundle g) i z.f h.wave
theorem given_wk (z : Site) (g : Guard) (ws : List W32) : (z.given g ws).wk = z.wk := rfl
theorem given_g {s : State} {i : Instr} {g : Guard} {rel : Rel} {z : Site} (h : Ready s i g rel z) (r : Nat) :
    (z.given g []).g (begun s z.w (z.bundle g) i z.f) r = z.w.rg r := by unfold Bundle.g; rw [begun_wave_given h]; rfl
theorem given_some {z : Site} {g : Guard} (h : (z.bundle g).act ≠ []) (ws : List W32) : (z.given g ws).act.isEmpty = false := by
  have : (z.given g ws).act ≠ [] := h
  simpa using this
theorem begun_clock (s : State) (w : Wave) (b : Bundle) (i : Instr) (f : Form) (c : Nat) : clusterClock (begun s w b i f) c = clusterClock s c :=
  show ((coreOf (begun s w b i f) (4 * c)).calm.clock.toNat = (coreOf s (4 * c)).calm.clock.toNat) from
    congrArg (fun k : Core => k.clock.toNat) (begun_cores s w b i f (4 * c))

/-- An issue with no effect of its own. -/
theorem runs_quiet {s : State} {i : Instr} {g : Guard} {rel : Rel} {z : Site} (h : Ready s i g rel z) :
    Runs s (endIssue (begun s z.w (z.bundle g) i z.f) (z.bundle g)) z.w (z.bundle g) [] (fun _ y => y) id := by
  have hm (t : State) : modWave t z.wk id = t := by
    cases t; simp only [modWave, State.mk.injEq, and_true, true_and]; exact smod_id _ _ (fun _ => rfl) _
  have := begun_runs h (F := id) (fx := fun _ y => y) (gx := id) (out := [])
    (fun x => by rw [show (id (begunWave z.w (z.bundle g))).fibres = (begunWave z.w (z.bundle g)).fibres from rfl, begunWave_fibre]; simp only [ite_self])
    rfl (fun hi => begun_clause h _ hi) rfl
  rwa [hm] at this

/-- A matrix operation that enters its wave's queue. -/
theorem queued_of {s : State} {i : Instr} {g : Guard} {rel : Rel} {z : Site} (h : Ready s i g rel z) (o : MatOp) (hwk : o.wave = z.wk)
    (ha : o.arrived = clusterClock s (coreNo z.wk / 4)) : Queued s (endIssue (startMat (begun s z.w (z.bundle g) i z.f) o) (z.bundle g)) z.w (z.bundle g) o := by
  have hid (x : Nat) : sget x (begunWave z.w (z.bundle g)).fibres = (sget x z.w.fibres).map (fun y =>
      if (z.bundle g).all.contains x then
        (if (z.bundle g).act.contains x then passed z.w (z.bundle g) x y
          else passed z.w (z.bundle g) x y) else y) := by
    rw [begunWave_fibre]; simp only [ite_self]
  have hm (t : State) : modWave t (z.bundle g).wk id = t := by
    cases t; simp only [modWave, State.mk.injEq, and_true, true_and]; exact smod_id _ _ (fun _ => rfl) _
  have hops : ∀ t : State, (endIssue t (z.bundle g)).mats = t.mats := by intro t; unfold endIssue; split <;> rfl
  have hnext : ∀ t : State, (endIssue t (z.bundle g)).nextOp = t.nextOp := by intro t; unfold endIssue; split <;> rfl
  have hcl0 := fun hi => begun_clause h (z.bundle g) hi
  have ho : { o with arrived := clusterClock s (coreNo (z.bundle g).wk / 4) } = o := by rw [show (z.bundle g).wk = z.wk from rfl, ← ha]
  unfold startMat
  rw [hwk, show z.wk = (z.bundle g).wk from rfl]
  have key : ∀ (F gx : Wave → Wave), (∀ v, (F v).fibres = v.fibres) → (∀ v, (F v).issueNo = v.issueNo) → (∀ v, (F v).clause = v.clause) →
      { F (begunWave z.w (z.bundle g)) with
          fibres := z.w.fibres, issueNo := z.w.issueNo, issued := z.w.issued, clause := z.w.clause, paired := z.w.paired,
          page := z.w.page } = gx z.w →
      Runs s (endIssue (modWave (begun s z.w (z.bundle g) i z.f) (z.bundle g).wk F) (z.bundle g)) z.w (z.bundle g) [] (fun _ y => y) gx := by
    intro F gx h1 h2 h3 h4
    refine runs_of_wave (b := z.bundle g) h.wave (fun x => by rw [h1]; exact hid x) (by rw [h2]; rfl) (fun hi => by rw [h3]; exact hcl0 hi) h4
  cases e : o.flag with
  | none =>
    refine ⟨?_, by rw [hops, ho]; rfl, by rw [hnext]; rfl⟩
    have := key id id (fun _ => rfl) (fun _ => rfl) (fun _ => rfl) rfl
    rw [hm] at this
    rw [e]
    have q : ∀ (t : State) (m : Sparse MatOp), { endIssue { t with mats := m, nextOp := t.nextOp + 1 } (z.bundle g) with mats := t.mats, nextOp := t.nextOp }
        = endIssue t (z.bundle g) := by
      intro t m; unfold endIssue; split <;> rfl
    exact (q (begun s z.w (z.bundle g) i z.f) _).symm ▸ this
  | some n =>
    refine ⟨?_, by rw [hops, ho]; rfl, by rw [hnext]; rfl⟩
    have := key (fun w => w.setFlag n (w.flag n + 1)) (fun w => w.setFlag n (w.flag n + 1)) (fun _ => rfl) (fun _ => rfl) (fun _ => rfl) rfl
    rw [e]
    have q : ∀ (t : State) (m : Sparse MatOp) (F : Wave → Wave), { endIssue (modWave { t with mats := m, nextOp := t.nextOp + 1 } (z.bundle g).wk F) (z.bundle g) with mats := t.mats, nextOp := t.nextOp }
        = endIssue (modWave t (z.bundle g).wk F) (z.bundle g) := by
      intro t m F; unfold endIssue; split <;> rfl
    exact (q (begun s z.w (z.bundle g) i z.f) _ _).symm ▸ this

end Sys2Proof.Machine
end

