-- ==== Sys2Proof/Laws/PerInstr.lean ====
section
/-! SUPPORT. Instruction words, constructor by constructor: the fields that the decoder takes from the word of a well-formed
instruction are the instruction's own. -/

namespace Sys2Proof.Laws

/-! ### Formats: the parts of a word -/

theorem hi_RRR (o : BitVec 8) (g : Guard) (x : RRR) : (putRRR o g x).extractLsb' 60 4 = o.extractLsb' 4 4 := by
  simp (disch := decide) only [putRRR, BitVec.extractLsb'_append_eq_of_le, Nat.reduceSub]
theorem lo_RRR (o : BitVec 8) (g : Guard) (x : RRR) : (putRRR o g x).extractLsb' 56 4 = o.extractLsb' 0 4 := by
  simp (disch := decide) only [putRRR, BitVec.extractLsb'_append_eq_of_le, Nat.reduceSub]
theorem guard_RRR (o : BitVec 8) (g : Guard) (x : RRR) : getGuard (putRRR o g x) = g := by
  cases g
  simp (disch := decide) only [getGuard, putRRR, BitVec.extractLsb'_append_eq_of_add_le, BitVec.extractLsb'_append_eq_of_le,
    BitVec.extractLsb'_eq_self, Nat.reduceSub]
theorem get_RRR (o : BitVec 8) (g : Guard) (x : RRR) : getRRR (putRRR o g x) = x := by
  cases x
  simp (disch := decide) only [getRRR, putRRR, BitVec.extractLsb'_append_eq_of_add_le, BitVec.extractLsb'_append_eq_of_le,
    BitVec.extractLsb'_eq_self, Nat.reduceSub]

theorem hi_RK (o : BitVec 8) (g : Guard) (x : RK) : (putRK o g x).extractLsb' 60 4 = o.extractLsb' 4 4 := by
  simp (disch := decide) only [putRK, BitVec.extractLsb'_append_eq_of_le, Nat.reduceSub]
theorem lo_RK (o : BitVec 8) (g : Guard) (x : RK) : (putRK o g x).extractLsb' 56 4 = o.extractLsb' 0 4 := by
  simp (disch := decide) only [putRK, BitVec.extractLsb'_append_eq_of_le, Nat.reduceSub]
theorem guard_RK (o : BitVec 8) (g : Guard) (x : RK) : getGuard (putRK o g x) = g := by
  cases g
  simp (disch := decide) only [getGuard, putRK, BitVec.extractLsb'_append_eq_of_add_le, BitVec.extractLsb'_append_eq_of_le,
    BitVec.extractLsb'_eq_self, Nat.reduceSub]
theorem get_RK (o : BitVec 8) (g : Guard) (x : RK) : getRK (putRK o g x) = x := by
  cases x
  simp (disch := decide) only [getRK, putRK, BitVec.extractLsb'_append_eq_of_add_le, BitVec.extractLsb'_append_eq_of_le,
    BitVec.extractLsb'_eq_self, Nat.reduceSub]

theorem hi_RI (o : BitVec 8) (g : Guard) (x : RI) : (putRI o g x).extractLsb' 60 4 = o.extractLsb' 4 4 := by
  simp (disch := decide) only [putRI, BitVec.extractLsb'_append_eq_of_le, Nat.reduceSub]
theorem lo_RI (o : BitVec 8) (g : Guard) (x : RI) : (putRI o g x).extractLsb' 56 4 = o.extractLsb' 0 4 := by
  simp (disch := decide) only [putRI, BitVec.extractLsb'_append_eq_of_le, Nat.reduceSub]
theorem guard_RI (o : BitVec 8) (g : Guard) (x : RI) : getGuard (putRI o g x) = g := by
  cases g
  simp (disch := decide) only [getGuard, putRI, BitVec.extractLsb'_append_eq_of_add_le, BitVec.extractLsb'_append_eq_of_le,
    BitVec.extractLsb'_eq_self, Nat.reduceSub]
theorem get_RI (o : BitVec 8) (g : Guard) (x : RI) : getRI (putRI o g x) = x := by
  cases x
  simp (disch := decide) only [getRI, putRI, BitVec.extractLsb'_append_eq_of_add_le, BitVec.extractLsb'_append_eq_of_le,
    BitVec.extractLsb'_eq_self, Nat.reduceSub]

theorem hi_MEM (o : BitVec 8) (g : Guard) (x : MEM) : (putMEM o g x).extractLsb' 60 4 = o.extractLsb' 4 4 := by
  simp (disch := decide) only [putMEM, BitVec.extractLsb'_append_eq_of_le, Nat.reduceSub]
theorem lo_MEM (o : BitVec 8) (g : Guard) (x : MEM) : (putMEM o g x).extractLsb' 56 4 = o.extractLsb' 0 4 := by
  simp (disch := decide) only [putMEM, BitVec.extractLsb'_append_eq_of_le, Nat.reduceSub]
theorem guard_MEM (o : BitVec 8) (g : Guard) (x : MEM) : getGuard (putMEM o g x) = g := by
  cases g
  simp (disch := decide) only [getGuard, putMEM, BitVec.extractLsb'_append_eq_of_add_le, BitVec.extractLsb'_append_eq_of_le,
    BitVec.extractLsb'_eq_self, Nat.reduceSub]
theorem get_MEM (o : BitVec 8) (g : Guard) (x : MEM) : getMEM (putMEM o g x) = x := by
  cases x
  simp (disch := decide) only [getMEM, putMEM, BitVec.extractLsb'_append_eq_of_add_le, BitVec.extractLsb'_append_eq_of_le,
    BitVec.extractLsb'_eq_self, Nat.reduceSub]

theorem hi_MX (o : BitVec 8) (g : Guard) (x : MX) : (putMX o g x).extractLsb' 60 4 = o.extractLsb' 4 4 := by
  simp (disch := decide) only [putMX, BitVec.extractLsb'_append_eq_of_le, Nat.reduceSub]
theorem lo_MX (o : BitVec 8) (g : Guard) (x : MX) : (putMX o g x).extractLsb' 56 4 = o.extractLsb' 0 4 := by
  simp (disch := decide) only [putMX, BitVec.extractLsb'_append_eq_of_le, Nat.reduceSub]
theorem guard_MX (o : BitVec 8) (g : Guard) (x : MX) : getGuard (putMX o g x) = g := by
  cases g
  simp (disch := decide) only [getGuard, putMX, BitVec.extractLsb'_append_eq_of_add_le, BitVec.extractLsb'_append_eq_of_le,
    BitVec.extractLsb'_eq_self, Nat.reduceSub]
theorem get_MX (o : BitVec 8) (g : Guard) (x : MX) : getMX (putMX o g x) = x := by
  cases x
  simp (disch := decide) only [getMX, putMX, BitVec.extractLsb'_append_eq_of_add_le, BitVec.extractLsb'_append_eq_of_le,
    BitVec.extractLsb'_eq_self, Nat.reduceSub]

theorem hi_CP (o : BitVec 8) (g : Guard) (x : CP) : (putCP o g x).extractLsb' 60 4 = o.extractLsb' 4 4 := by
  simp (disch := decide) only [putCP, BitVec.extractLsb'_append_eq_of_le, Nat.reduceSub]
theorem lo_CP (o : BitVec 8) (g : Guard) (x : CP) : (putCP o g x).extractLsb' 56 4 = o.extractLsb' 0 4 := by
  simp (disch := decide) only [putCP, BitVec.extractLsb'_append_eq_of_le, Nat.reduceSub]
theorem guard_CP (o : BitVec 8) (g : Guard) (x : CP) : getGuard (putCP o g x) = g := by
  cases g
  simp (disch := decide) only [getGuard, putCP, BitVec.extractLsb'_append_eq_of_add_le, BitVec.extractLsb'_append_eq_of_le,
    BitVec.extractLsb'_eq_self, Nat.reduceSub]
theorem get_CP (o : BitVec 8) (g : Guard) (x : CP) : getCP (putCP o g x) = x := by
  cases x
  simp (disch := decide) only [getCP, putCP, BitVec.extractLsb'_append_eq_of_add_le, BitVec.extractLsb'_append_eq_of_le,
    BitVec.extractLsb'_eq_self, Nat.reduceSub]

theorem hi_BR (o : BitVec 8) (g : Guard) (x : BR) : (putBR o g x).extractLsb' 60 4 = o.extractLsb' 4 4 := by
  simp (disch := decide) only [putBR, BitVec.extractLsb'_append_eq_of_le, Nat.reduceSub]
theorem lo_BR (o : BitVec 8) (g : Guard) (x : BR) : (putBR o g x).extractLsb' 56 4 = o.extractLsb' 0 4 := by
  simp (disch := decide) only [putBR, BitVec.extractLsb'_append_eq_of_le, Nat.reduceSub]
theorem guard_BR (o : BitVec 8) (g : Guard) (x : BR) : getGuard (putBR o g x) = g := by
  cases g
  simp (disch := decide) only [getGuard, putBR, BitVec.extractLsb'_append_eq_of_add_le, BitVec.extractLsb'_append_eq_of_le,
    BitVec.extractLsb'_eq_self, Nat.reduceSub]
theorem get_BR (o : BitVec 8) (g : Guard) (x : BR) : getBR (putBR o g x) = x := by
  cases x
  simp (disch := decide) only [getBR, putBR, BitVec.extractLsb'_append_eq_of_add_le, BitVec.extractLsb'_append_eq_of_le,
    BitVec.extractLsb'_eq_self, Nat.reduceSub]

theorem hi_SY (o : BitVec 8) (g : Guard) (x : SY) : (putSY o g x).extractLsb' 60 4 = o.extractLsb' 4 4 := by
  simp (disch := decide) only [putSY, BitVec.extractLsb'_append_eq_of_le, Nat.reduceSub]
theorem lo_SY (o : BitVec 8) (g : Guard) (x : SY) : (putSY o g x).extractLsb' 56 4 = o.extractLsb' 0 4 := by
  simp (disch := decide) only [putSY, BitVec.extractLsb'_append_eq_of_le, Nat.reduceSub]
theorem guard_SY (o : BitVec 8) (g : Guard) (x : SY) : getGuard (putSY o g x) = g := by
  cases g
  simp (disch := decide) only [getGuard, putSY, BitVec.extractLsb'_append_eq_of_add_le, BitVec.extractLsb'_append_eq_of_le,
    BitVec.extractLsb'_eq_self, Nat.reduceSub]
theorem get_SY (o : BitVec 8) (g : Guard) (x : SY) : getSY (putSY o g x) = x := by
  cases x
  simp (disch := decide) only [getSY, putSY, BitVec.extractLsb'_append_eq_of_add_le, BitVec.extractLsb'_append_eq_of_le,
    BitVec.extractLsb'_eq_self, Nat.reduceSub]

theorem hi_RT (o : BitVec 8) (g : Guard) (x : RT) : (putRT o g x).extractLsb' 60 4 = o.extractLsb' 4 4 := by
  simp (disch := decide) only [putRT, BitVec.extractLsb'_append_eq_of_le, Nat.reduceSub]
theorem lo_RT (o : BitVec 8) (g : Guard) (x : RT) : (putRT o g x).extractLsb' 56 4 = o.extractLsb' 0 4 := by
  simp (disch := decide) only [putRT, BitVec.extractLsb'_append_eq_of_le, Nat.reduceSub]
theorem guard_RT (o : BitVec 8) (g : Guard) (x : RT) : getGuard (putRT o g x) = g := by
  cases g
  simp (disch := decide) only [getGuard, putRT, BitVec.extractLsb'_append_eq_of_add_le, BitVec.extractLsb'_append_eq_of_le,
    BitVec.extractLsb'_eq_self, Nat.reduceSub]
theorem get_RT (o : BitVec 8) (g : Guard) (x : RT) : getRT (putRT o g x) = x := by
  cases x
  simp (disch := decide) only [getRT, putRT, BitVec.extractLsb'_append_eq_of_add_le, BitVec.extractLsb'_append_eq_of_le,
    BitVec.extractLsb'_eq_self, Nat.reduceSub]

theorem hi_GX (o : BitVec 8) (g : Guard) (x : GX) : (putGX o g x).extractLsb' 60 4 = o.extractLsb' 4 4 := by
  simp (disch := decide) only [putGX, BitVec.extractLsb'_append_eq_of_le, Nat.reduceSub]
theorem lo_GX (o : BitVec 8) (g : Guard) (x : GX) : (putGX o g x).extractLsb' 56 4 = o.extractLsb' 0 4 := by
  simp (disch := decide) only [putGX, BitVec.extractLsb'_append_eq_of_le, Nat.reduceSub]
theorem guard_GX (o : BitVec 8) (g : Guard) (x : GX) : getGuard (putGX o g x) = g := by
  cases g
  simp (disch := decide) only [getGuard, putGX, BitVec.extractLsb'_append_eq_of_add_le, BitVec.extractLsb'_append_eq_of_le,
    BitVec.extractLsb'_eq_self, Nat.reduceSub]
theorem get_GX (o : BitVec 8) (g : Guard) (x : GX) : getGX (putGX o g x) = x := by
  cases x
  simp (disch := decide) only [getGX, putGX, BitVec.extractLsb'_append_eq_of_add_le, BitVec.extractLsb'_append_eq_of_le,
    BitVec.extractLsb'_eq_self, Nat.reduceSub]

theorem hi_SYS (o : BitVec 8) (g : Guard) (x : SYS) : (putSYS o g x).extractLsb' 60 4 = o.extractLsb' 4 4 := by
  simp (disch := decide) only [putSYS, BitVec.extractLsb'_append_eq_of_le, Nat.reduceSub]
theorem lo_SYS (o : BitVec 8) (g : Guard) (x : SYS) : (putSYS o g x).extractLsb' 56 4 = o.extractLsb' 0 4 := by
  simp (disch := decide) only [putSYS, BitVec.extractLsb'_append_eq_of_le, Nat.reduceSub]
theorem guard_SYS (o : BitVec 8) (g : Guard) (x : SYS) : getGuard (putSYS o g x) = g := by
  cases g
  simp (disch := decide) only [getGuard, putSYS, BitVec.extractLsb'_append_eq_of_add_le, BitVec.extractLsb'_append_eq_of_le,
    BitVec.extractLsb'_eq_self, Nat.reduceSub]
theorem get_SYS (o : BitVec 8) (g : Guard) (x : SYS) : getSYS (putSYS o g x) = x := by
  cases x
  simp (disch := decide) only [getSYS, putSYS, BitVec.extractLsb'_append_eq_of_add_le, BitVec.extractLsb'_append_eq_of_le,
    BitVec.extractLsb'_eq_self, Nat.reduceSub]

/-! ### The family -/

/-- Decoding the word of a well-formed instruction gives the instruction back, field by field (R79, R84 to R99). -/
def Encoding.Statement (i : Instr) : Prop := i.WellFormed → decodeFields (encode i) = i

/-- An instruction that a well-formedness check refuses. -/
theorem Encoding.of_not {i : Instr} (h : i.wf = false) : Encoding.Statement i := fun w => by
  rw [Instr.WellFormed, h] at w; cases w

/-! ### The bits that choose among the forms of one opcode -/

theorem opx_RRR (o : BitVec 8) (g : Guard) (x : RRR) : (putRRR o g x).extractLsb' 0 2 = x.opx.extractLsb' 0 2 := by
  simp (disch := decide) only [putRRR, BitVec.extractLsb'_append_eq_of_add_le]
theorem mopx_MEM (o : BitVec 8) (g : Guard) (x : MEM) : (putMEM o g x).extractLsb' 0 2 = x.mopx.extractLsb' 0 2 := by
  simp (disch := decide) only [putMEM, BitVec.extractLsb'_append_eq_of_add_le]
theorem mopx7_MEM (o : BitVec 8) (g : Guard) (x : MEM) : (putMEM o g x).getLsbD 7 = x.mopx.getLsbD 7 := by
  simp only [putMEM, BitVec.getLsbD_append]; rfl
theorem mopx3_MEM (o : BitVec 8) (g : Guard) (x : MEM) : (putMEM o g x).getLsbD 3 = x.mopx.getLsbD 3 := by
  simp only [putMEM, BitVec.getLsbD_append]; rfl
theorem mxopx_MX (o : BitVec 8) (g : Guard) (x : MX) : (putMX o g x).extractLsb' 12 2 = x.mxopx.extractLsb' 12 2 := by
  simp (disch := decide) only [putMX, BitVec.extractLsb'_append_eq_of_add_le]
theorem ctopx_BR (o : BitVec 8) (g : Guard) (x : BR) : (putBR o g x).extractLsb' 0 3 = x.ctopx := by
  simp (disch := decide) only [putBR, BitVec.extractLsb'_append_eq_of_add_le, BitVec.extractLsb'_eq_self]
theorem sub_SY (o : BitVec 8) (g : Guard) (x : SY) : (putSY o g x).extractLsb' 0 3 = x.sub := by
  simp (disch := decide) only [putSY, BitVec.extractLsb'_append_eq_of_add_le, BitVec.extractLsb'_eq_self]
theorem sub_RT (o : BitVec 8) (g : Guard) (x : RT) : (putRT o g x).extractLsb' 0 3 = x.sub := by
  simp (disch := decide) only [putRT, BitVec.extractLsb'_append_eq_of_add_le, BitVec.extractLsb'_eq_self]
theorem qs_RT (o : BitVec 8) (g : Guard) (x : RT) : (putRT o g x).extractLsb' 45 3 = x.qs := by
  simp (disch := decide) only [putRT, BitVec.extractLsb'_append_eq_of_add_le, BitVec.extractLsb'_append_eq_of_le,
    BitVec.extractLsb'_eq_self, Nat.reduceSub]
theorem rtimm13_RT (o : BitVec 8) (g : Guard) (x : RT) : (putRT o g x).getLsbD 16 = x.rtimm.getLsbD 13 := by
  simp only [putRT, BitVec.getLsbD_append]; rfl
theorem rtimm0_RT (o : BitVec 8) (g : Guard) (x : RT) : (putRT o g x).getLsbD 3 = x.rtimm.getLsbD 0 := by
  simp only [putRT, BitVec.getLsbD_append]; rfl
theorem cont_GX (o : BitVec 8) (g : Guard) (x : GX) : (putGX o g x).extractLsb' 16 2 = x.gxopx.extractLsb' 16 2 := by
  simp (disch := decide) only [putGX, BitVec.extractLsb'_append_eq_of_add_le]
theorem sysopx_SYS (o : BitVec 8) (g : Guard) (x : SYS) : (putSYS o g x).extractLsb' 0 2 = x.sysopx.extractLsb' 0 2 := by
  simp (disch := decide) only [putSYS, BitVec.extractLsb'_append_eq_of_add_le]

/-! Bits that a mask keeps. -/

theorem low2 (o m : BitVec 8) (h : o &&& 3 = m) : o.extractLsb' 0 2 = m.extractLsb' 0 2 := by
  subst h; revert o; decide
theorem mid2 (o m : BitVec 14) (h : o &&& 0x3000 = m) : o.extractLsb' 12 2 = m.extractLsb' 12 2 := by
  subst h; rw [BitVec.extractLsb'_and]; exact (BitVec.and_allOnes (x := o.extractLsb' 12 2)).symm
theorem high2 (o m : BitVec 18) (h : o >>> 16 = m) : o.extractLsb' 16 2 = m.extractLsb' 0 2 := by
  subst h; ext i hi; simp
theorem sys2 (o m : BitVec 12) (h : o &&& 3 = m) : o.extractLsb' 0 2 = m.extractLsb' 0 2 := by
  subst h; rw [BitVec.extractLsb'_and]; exact (BitVec.and_allOnes (x := o.extractLsb' 0 2)).symm

/-! The opcodes of several forms. -/

theorem dec_1F (W : W64) (h : W.extractLsb' 60 4 = 0x1#4) (l : W.extractLsb' 56 4 = 0xF#4) :
    decodeFields W = if W.extractLsb' 0 2 == 1 then .psetSave (getGuard W) (getRRR W) else if W.extractLsb' 0 2 == 2 then .psetLoad (getGuard W) (getRRR W) else .pset (getGuard W) (getRRR W) := by
  unfold decodeFields; rw [h, l]; rfl
theorem dec_8A (W : W64) (h : W.extractLsb' 60 4 = 0x8#4) (l : W.extractLsb' 56 4 = 0xA#4) :
    decodeFields W = if W.extractLsb' 0 2 == 1 then .cinvKall (getGuard W) (getMEM W) else if W.extractLsb' 0 2 == 2 then .cinvL1 (getGuard W) (getMEM W) else .cinvK (getGuard W) (getMEM W) := by
  unfold decodeFields; rw [h, l]; rfl
theorem dec_8D (W : W64) (h : W.extractLsb' 60 4 = 0x8#4) (l : W.extractLsb' 56 4 = 0xD#4) :
    decodeFields W = if W.getLsbD 7 then .smapUnmap (getGuard W) (getMEM W) else .smap (getGuard W) (getMEM W) := by
  unfold decodeFields; rw [h, l]; rfl
theorem dec_8E (W : W64) (h : W.extractLsb' 60 4 = 0x8#4) (l : W.extractLsb' 56 4 = 0xE#4) :
    decodeFields W = if W.getLsbD 3 then .swbAll (getGuard W) (getMEM W) else .swb (getGuard W) (getMEM W) := by
  unfold decodeFields; rw [h, l]; rfl
theorem dec_A0 (W : W64) (h : W.extractLsb' 60 4 = 0xA#4) (l : W.extractLsb' 56 4 = 0x0#4) :
    decodeFields W = if W.extractLsb' 12 2 == 1 then .mcfgUnbind (getGuard W) (getMX W) else if W.extractLsb' 12 2 == 2 then .mcfgMode (getGuard W) (getMX W) else .mcfgBind (getGuard W) (getMX W) := by
  unfold decodeFields; rw [h, l]; rfl
theorem dec_C1 (W : W64) (h : W.extractLsb' 60 4 = 0xC#4) (l : W.extractLsb' 56 4 = 0x1#4) :
    decodeFields W = if W.extractLsb' 0 3 == 1 then .brxRel (getGuard W) (getBR W) else .brx (getGuard W) (getBR W) := by
  unfold decodeFields; rw [h, l]; rfl
theorem dec_C2 (W : W64) (h : W.extractLsb' 60 4 = 0xC#4) (l : W.extractLsb' 56 4 = 0x2#4) :
    decodeFields W = if W.extractLsb' 0 3 == 1 then .callX (getGuard W) (getBR W) else .call (getGuard W) (getBR W) := by
  unfold decodeFields; rw [h, l]; rfl
theorem dec_DB (W : W64) (h : W.extractLsb' 60 4 = 0xD#4) (l : W.extractLsb' 56 4 = 0xB#4) :
    decodeFields W = if W.getLsbD 16 then .rsvcapI (getGuard W) (getRT W) else .rsvcap (getGuard W) (getRT W) := by
  unfold decodeFields; rw [h, l]; rfl
theorem dec_DD (W : W64) (h : W.extractLsb' 60 4 = 0xD#4) (l : W.extractLsb' 56 4 = 0xD#4) :
    decodeFields W = if W.extractLsb' 0 3 == 0 then (if W.extractLsb' 45 3 == 1 then .rsvldS (getGuard W) (getRT W) else if W.extractLsb' 45 3 == 2 then .rsvldX (getGuard W) (getRT W) else .rsvld (getGuard W) (getRT W)) else if W.extractLsb' 0 3 == 1 then (if W.extractLsb' 45 3 == 1 then .rsvstS (getGuard W) (getRT W) else .rsvst (getGuard W) (getRT W)) else .unassignedOpcode W := by
  unfold decodeFields; rw [h, l]; rfl
theorem dec_DF (W : W64) (h : W.extractLsb' 60 4 = 0xD#4) (l : W.extractLsb' 56 4 = 0xF#4) :
    decodeFields W = if W.extractLsb' 0 3 == 0 then (if W.getLsbD 3 then .tagnewTry (getGuard W) (getRT W) else .tagnew (getGuard W) (getRT W)) else if W.extractLsb' 0 3 == 1 then .tagret (getGuard W) (getRT W) else if W.extractLsb' 0 3 == 2 then .tagset (getGuard W) (getRT W) else if W.extractLsb' 0 3 == 3 then (if W.getLsbD 3 then .taggetInfo (getGuard W) (getRT W) else .tagget (getGuard W) (getRT W)) else if W.extractLsb' 0 3 == 4 then .tagpub (getGuard W) (getRT W) else .unassignedOpcode W := by
  unfold decodeFields; rw [h, l]; rfl
theorem dec_E0 (W : W64) (h : W.extractLsb' 60 4 = 0xE#4) (l : W.extractLsb' 56 4 = 0x0#4) :
    decodeFields W = if W.extractLsb' 16 2 == 1 then .traceRej (getGuard W) (getGX W) else if W.extractLsb' 16 2 == 2 then .traceAcc (getGuard W) (getGX W) else .trace (getGuard W) (getGX W) := by
  unfold decodeFields; rw [h, l]; rfl
theorem dec_F2 (W : W64) (h : W.extractLsb' 60 4 = 0xF#4) (l : W.extractLsb' 56 4 = 0x2#4) :
    decodeFields W = if W.extractLsb' 0 2 == 0 then .tretRetry (getGuard W) (getSYS W) else if W.extractLsb' 0 2 == 1 then .tretSkip (getGuard W) (getSYS W) else if W.extractLsb' 0 2 == 2 then .tretKillf (getGuard W) (getSYS W) else .tretKillg (getGuard W) (getSYS W) := by
  unfold decodeFields; rw [h, l]; rfl
theorem dec_D1 (W : W64) (h : W.extractLsb' 60 4 = 0xD#4) (l : W.extractLsb' 56 4 = 0x1#4) :
    decodeFields W = if W.extractLsb' 0 3 == 0 then .bararr (getGuard W) (getSY W) else if W.extractLsb' 0 3 == 1 then .barexp (getGuard W) (getSY W) else .unassignedOpcode W := by
  unfold decodeFields; rw [h, l]; rfl
theorem dec_D2 (W : W64) (h : W.extractLsb' 60 4 = 0xD#4) (l : W.extractLsb' 56 4 = 0x2#4) :
    decodeFields W = if W.extractLsb' 0 3 == 0 then .waitPh (getGuard W) (getSY W) else if W.extractLsb' 0 3 == 1 then .waitM (getGuard W) (getSY W) else .unassignedOpcode W := by
  unfold decodeFields; rw [h, l]; rfl
theorem dec_D3 (W : W64) (h : W.extractLsb' 60 4 = 0xD#4) (l : W.extractLsb' 56 4 = 0x3#4) :
    decodeFields W = if W.extractLsb' 0 3 == 0 then .trigger (getGuard W) (getSY W) else if W.extractLsb' 0 3 == 1 then .gridwait (getGuard W) (getSY W) else .unassignedOpcode W := by
  unfold decodeFields; rw [h, l]; rfl

theorem nibbles (v : W64) : (v.extractLsb' 56 8).toNat = 16 * (v.extractLsb' 60 4).toNat + (v.extractLsb' 56 4).toNat := by
  simp only [BitVec.extractLsb'_toNat, Nat.shiftRight_eq_div_pow]; omega

theorem unassigned_0 (v : W64) (lo s : Nat) (h : Machine.assigned (16 * 0 + lo) s = false) :
    decodePage0 v lo = .unassignedOpcode v := by
  rcases lo with _|_|_|_|_|_|_|_|_|_|_|_|_|_|_|_|n <;> first | rfl | (exfalso; revert h; simp [Machine.assigned])
theorem unassigned_1 (v : W64) (lo s : Nat) (h : Machine.assigned (16 * 1 + lo) s = false) :
    decodePage1 v lo = .unassignedOpcode v := by
  rcases lo with _|_|_|_|_|_|_|_|_|_|_|_|_|_|_|_|n <;> first | rfl | (exfalso; revert h; simp [Machine.assigned])
theorem unassigned_2 (v : W64) (lo s : Nat) (h : Machine.assigned (16 * 2 + lo) s = false) :
    decodePage2 v lo = .unassignedOpcode v := by
  rcases lo with _|_|_|_|_|_|_|_|_|_|_|_|_|_|_|_|n <;> first | rfl | (exfalso; revert h; simp [Machine.assigned])
theorem unassigned_3 (v : W64) (lo s : Nat) (h : Machine.assigned (16 * 3 + lo) s = false) :
    decodePage3 v lo = .unassignedOpcode v := by
  rcases lo with _|_|_|_|_|_|_|_|_|_|_|_|_|_|_|_|n <;> first | rfl | (exfalso; revert h; simp [Machine.assigned])
theorem unassigned_4 (v : W64) (lo s : Nat) (h : Machine.assigned (16 * 4 + lo) s = false) :
    decodePage4 v lo = .unassignedOpcode v := by
  rcases lo with _|_|_|_|_|_|_|_|_|_|_|_|_|_|_|_|n <;> first | rfl | (exfalso; revert h; simp [Machine.assigned])
theorem unassigned_5 (v : W64) (lo s : Nat) (h : Machine.assigned (16 * 5 + lo) s = false) :
    decodePage5 v lo = .unassignedOpcode v := by
  rcases lo with _|_|_|_|_|_|_|_|_|_|_|_|_|_|_|_|n <;> first | rfl | (exfalso; revert h; simp [Machine.assigned])
theorem unassigned_6 (v : W64) (lo s : Nat) (h : Machine.assigned (16 * 6 + lo) s = false) :
    decodePage6 v lo = .unassignedOpcode v := by
  rcases lo with _|_|_|_|_|_|_|_|_|_|_|_|_|_|_|_|n <;> first | rfl | (exfalso; revert h; simp [Machine.assigned])
theorem unassigned_7 (v : W64) (lo s : Nat) (h : Machine.assigned (16 * 7 + lo) s = false) :
    decodePage7 v lo = .unassignedOpcode v := by
  rcases lo with _|_|_|_|_|_|_|_|_|_|_|_|_|_|_|_|n <;> first | rfl | (exfalso; revert h; simp [Machine.assigned])
theorem unassigned_8 (v : W64) (lo s : Nat) (h : Machine.assigned (16 * 8 + lo) s = false) :
    decodePage8 v lo = .unassignedOpcode v := by
  rcases lo with _|_|_|_|_|_|_|_|_|_|_|_|_|_|_|_|n <;> first | rfl | (exfalso; revert h; simp [Machine.assigned])
theorem unassigned_A (v : W64) (lo s : Nat) (h : Machine.assigned (16 * 10 + lo) s = false) :
    decodePageA v lo = .unassignedOpcode v := by
  rcases lo with _|_|_|_|_|_|_|_|_|_|_|_|_|_|_|_|n <;> first | rfl | (exfalso; revert h; simp [Machine.assigned])
theorem unassigned_B (v : W64) (lo s : Nat) (h : Machine.assigned (16 * 11 + lo) s = false) :
    decodePageB v lo = .unassignedOpcode v := by
  rcases lo with _|_|_|_|_|_|_|_|_|_|_|_|_|_|_|_|n <;> first | rfl | (exfalso; revert h; simp [Machine.assigned])
theorem unassigned_C (v : W64) (lo s : Nat) (h : Machine.assigned (16 * 12 + lo) s = false) :
    decodePageC v lo = .unassignedOpcode v := by
  rcases lo with _|_|_|_|_|_|_|_|_|_|_|_|_|_|_|_|n <;> first | rfl | (exfalso; revert h; simp [Machine.assigned])
theorem unassigned_E (v : W64) (lo s : Nat) (h : Machine.assigned (16 * 14 + lo) s = false) :
    decodePageE v lo = .unassignedOpcode v := by
  rcases lo with _|_|_|_|_|_|_|_|_|_|_|_|_|_|_|_|n <;> first | rfl | (exfalso; revert h; simp [Machine.assigned])
theorem unassigned_F (v : W64) (lo s : Nat) (h : Machine.assigned (16 * 15 + lo) s = false) :
    decodePageF v lo = .unassignedOpcode v := by
  rcases lo with _|_|_|_|_|_|_|_|_|_|_|_|_|_|_|_|n <;> first | rfl | (exfalso; revert h; simp [Machine.assigned])
theorem sub_le (v : W64) (k : Nat) (h : decide ((v.extractLsb' 0 3).toNat ≤ k) = false) (j : BitVec 3) (hj : j.toNat ≤ k) :
    ((v.extractLsb' 0 3) == j) = false := by
  rw [beq_eq_false_iff_ne]; intro e; rw [e, decide_eq_false_iff_not] at h; exact h hj
theorem unassigned_D (v : W64) (lo : Nat) (h : Machine.assigned (16 * 13 + lo) (v.extractLsb' 0 3).toNat = false) :
    decodePageD v lo = .unassignedOpcode v := by
  rcases lo with _|_|_|_|_|_|_|_|_|_|_|_|_|_|_|_|n
  all_goals first
    | rfl
    | (exfalso; revert h; simp [Machine.assigned]; done)
    | (simp only [decodePageD]
       have l (j : BitVec 3) (hj : j.toNat ≤ 1) := sub_le v 1 h j hj
       rw [l 0 (by decide), l 1 (by decide)]; rfl)
    | (simp only [decodePageD]
       have l (j : BitVec 3) (hj : j.toNat ≤ 4) := sub_le v 4 h j hj
       rw [l 0 (by decide), l 1 (by decide), l 2 (by decide), l 3 (by decide), l 4 (by decide)]; rfl)

/-- A word of no assigned opcode is read as that (R97, R99, R100). -/
theorem decodeFields_unassigned (v : W64) (h : Machine.assigned (v.extractLsb' 56 8).toNat (v.extractLsb' 0 3).toNat = false) :
    decodeFields v = .unassignedOpcode v := by
  rw [nibbles] at h
  unfold decodeFields
  simp only
  generalize (v.extractLsb' 60 4).toNat = hi at h ⊢
  generalize (v.extractLsb' 56 4).toNat = lo at h ⊢
  rcases hi with _|_|_|_|_|_|_|_|_|_|_|_|_|_|_|_|n
  · exact unassigned_0 v lo _ h
  · exact unassigned_1 v lo _ h
  · exact unassigned_2 v lo _ h
  · exact unassigned_3 v lo _ h
  · exact unassigned_4 v lo _ h
  · exact unassigned_5 v lo _ h
  · exact unassigned_6 v lo _ h
  · exact unassigned_7 v lo _ h
  · exact unassigned_8 v lo _ h
  · rfl
  · exact unassigned_A v lo _ h
  · exact unassigned_B v lo _ h
  · exact unassigned_C v lo _ h
  · exact unassigned_D v lo h
  · exact unassigned_E v lo _ h
  · exact unassigned_F v lo _ h
  · rfl

theorem Encoding.iadd (g : Guard) (x : RRR) : Encoding.Statement (.iadd g x) := fun _ => by
  unfold encode decodeFields
  simp only
  rw [hi_RRR, lo_RRR]
  change Instr.iadd (getGuard _) (getRRR _) = _
  rw [guard_RRR, get_RRR]

theorem Encoding.isub (g : Guard) (x : RRR) : Encoding.Statement (.isub g x) := fun _ => by
  unfold encode decodeFields
  simp only
  rw [hi_RRR, lo_RRR]
  change Instr.isub (getGuard _) (getRRR _) = _
  rw [guard_RRR, get_RRR]

theorem Encoding.imul (g : Guard) (x : RRR) : Encoding.Statement (.imul g x) := fun _ => by
  unfold encode decodeFields
  simp only
  rw [hi_RRR, lo_RRR]
  change Instr.imul (getGuard _) (getRRR _) = _
  rw [guard_RRR, get_RRR]

theorem Encoding.imulhi (g : Guard) (x : RRR) : Encoding.Statement (.imulhi g x) := fun _ => by
  unfold encode decodeFields
  simp only
  rw [hi_RRR, lo_RRR]
  change Instr.imulhi (getGuard _) (getRRR _) = _
  rw [guard_RRR, get_RRR]

theorem Encoding.imad (g : Guard) (x : RRR) : Encoding.Statement (.imad g x) := fun _ => by
  unfold encode decodeFields
  simp only
  rw [hi_RRR, lo_RRR]
  change Instr.imad (getGuard _) (getRRR _) = _
  rw [guard_RRR, get_RRR]

theorem Encoding.imadw (g : Guard) (x : RRR) : Encoding.Statement (.imadw g x) := fun _ => by
  unfold encode decodeFields
  simp only
  rw [hi_RRR, lo_RRR]
  change Instr.imadw (getGuard _) (getRRR _) = _
  rw [guard_RRR, get_RRR]

theorem Encoding.idiv (g : Guard) (x : RRR) : Encoding.Statement (.idiv g x) := fun _ => by
  unfold encode decodeFields
  simp only
  rw [hi_RRR, lo_RRR]
  change Instr.idiv (getGuard _) (getRRR _) = _
  rw [guard_RRR, get_RRR]

theorem Encoding.irem (g : Guard) (x : RRR) : Encoding.Statement (.irem g x) := fun _ => by
  unfold encode decodeFields
  simp only
  rw [hi_RRR, lo_RRR]
  change Instr.irem (getGuard _) (getRRR _) = _
  rw [guard_RRR, get_RRR]

theorem Encoding.imin (g : Guard) (x : RRR) : Encoding.Statement (.imin g x) := fun _ => by
  unfold encode decodeFields
  simp only
  rw [hi_RRR, lo_RRR]
  change Instr.imin (getGuard _) (getRRR _) = _
  rw [guard_RRR, get_RRR]

theorem Encoding.imax (g : Guard) (x : RRR) : Encoding.Statement (.imax g x) := fun _ => by
  unfold encode decodeFields
  simp only
  rw [hi_RRR, lo_RRR]
  change Instr.imax (getGuard _) (getRRR _) = _
  rw [guard_RRR, get_RRR]

theorem Encoding.iabs (g : Guard) (x : RRR) : Encoding.Statement (.iabs g x) := fun _ => by
  unfold encode decodeFields
  simp only
  rw [hi_RRR, lo_RRR]
  change Instr.iabs (getGuard _) (getRRR _) = _
  rw [guard_RRR, get_RRR]

theorem Encoding.ineg (g : Guard) (x : RRR) : Encoding.Statement (.ineg g x) := fun _ => by
  unfold encode decodeFields
  simp only
  rw [hi_RRR, lo_RRR]
  change Instr.ineg (getGuard _) (getRRR _) = _
  rw [guard_RRR, get_RRR]

theorem Encoding.addc (g : Guard) (x : RRR) : Encoding.Statement (.addc g x) := fun _ => by
  unfold encode decodeFields
  simp only
  rw [hi_RRR, lo_RRR]
  change Instr.addc (getGuard _) (getRRR _) = _
  rw [guard_RRR, get_RRR]

theorem Encoding.subb (g : Guard) (x : RRR) : Encoding.Statement (.subb g x) := fun _ => by
  unfold encode decodeFields
  simp only
  rw [hi_RRR, lo_RRR]
  change Instr.subb (getGuard _) (getRRR _) = _
  rw [guard_RRR, get_RRR]

theorem Encoding.lea (g : Guard) (x : RRR) : Encoding.Statement (.lea g x) := fun _ => by
  unfold encode decodeFields
  simp only
  rw [hi_RRR, lo_RRR]
  change Instr.lea (getGuard _) (getRRR _) = _
  rw [guard_RRR, get_RRR]

theorem Encoding.andB (g : Guard) (x : RRR) : Encoding.Statement (.andB g x) := fun _ => by
  unfold encode decodeFields
  simp only
  rw [hi_RRR, lo_RRR]
  change Instr.andB (getGuard _) (getRRR _) = _
  rw [guard_RRR, get_RRR]

theorem Encoding.orB (g : Guard) (x : RRR) : Encoding.Statement (.orB g x) := fun _ => by
  unfold encode decodeFields
  simp only
  rw [hi_RRR, lo_RRR]
  change Instr.orB (getGuard _) (getRRR _) = _
  rw [guard_RRR, get_RRR]

theorem Encoding.xorB (g : Guard) (x : RRR) : Encoding.Statement (.xorB g x) := fun _ => by
  unfold encode decodeFields
  simp only
  rw [hi_RRR, lo_RRR]
  change Instr.xorB (getGuard _) (getRRR _) = _
  rw [guard_RRR, get_RRR]

theorem Encoding.notB (g : Guard) (x : RRR) : Encoding.Statement (.notB g x) := fun _ => by
  unfold encode decodeFields
  simp only
  rw [hi_RRR, lo_RRR]
  change Instr.notB (getGuard _) (getRRR _) = _
  rw [guard_RRR, get_RRR]

theorem Encoding.shl (g : Guard) (x : RRR) : Encoding.Statement (.shl g x) := fun _ => by
  unfold encode decodeFields
  simp only
  rw [hi_RRR, lo_RRR]
  change Instr.shl (getGuard _) (getRRR _) = _
  rw [guard_RRR, get_RRR]

theorem Encoding.shr (g : Guard) (x : RRR) : Encoding.Statement (.shr g x) := fun _ => by
  unfold encode decodeFields
  simp only
  rw [hi_RRR, lo_RRR]
  change Instr.shr (getGuard _) (getRRR _) = _
  rw [guard_RRR, get_RRR]

theorem Encoding.sar (g : Guard) (x : RRR) : Encoding.Statement (.sar g x) := fun _ => by
  unfold encode decodeFields
  simp only
  rw [hi_RRR, lo_RRR]
  change Instr.sar (getGuard _) (getRRR _) = _
  rw [guard_RRR, get_RRR]

theorem Encoding.rot (g : Guard) (x : RRR) : Encoding.Statement (.rot g x) := fun _ => by
  unfold encode decodeFields
  simp only
  rw [hi_RRR, lo_RRR]
  change Instr.rot (getGuard _) (getRRR _) = _
  rw [guard_RRR, get_RRR]

theorem Encoding.popc (g : Guard) (x : RRR) : Encoding.Statement (.popc g x) := fun _ => by
  unfold encode decodeFields
  simp only
  rw [hi_RRR, lo_RRR]
  change Instr.popc (getGuard _) (getRRR _) = _
  rw [guard_RRR, get_RRR]

theorem Encoding.clz (g : Guard) (x : RRR) : Encoding.Statement (.clz g x) := fun _ => by
  unfold encode decodeFields
  simp only
  rw [hi_RRR, lo_RRR]
  change Instr.clz (getGuard _) (getRRR _) = _
  rw [guard_RRR, get_RRR]

theorem Encoding.brev (g : Guard) (x : RRR) : Encoding.Statement (.brev g x) := fun _ => by
  unfold encode decodeFields
  simp only
  rw [hi_RRR, lo_RRR]
  change Instr.brev (getGuard _) (getRRR _) = _
  rw [guard_RRR, get_RRR]

theorem Encoding.bfx (g : Guard) (x : RRR) : Encoding.Statement (.bfx g x) := fun _ => by
  unfold encode decodeFields
  simp only
  rw [hi_RRR, lo_RRR]
  change Instr.bfx (getGuard _) (getRRR _) = _
  rw [guard_RRR, get_RRR]

theorem Encoding.bfi (g : Guard) (x : RRR) : Encoding.Statement (.bfi g x) := fun _ => by
  unfold encode decodeFields
  simp only
  rw [hi_RRR, lo_RRR]
  change Instr.bfi (getGuard _) (getRRR _) = _
  rw [guard_RRR, get_RRR]

theorem Encoding.icmp (g : Guard) (x : RRR) : Encoding.Statement (.icmp g x) := fun _ => by
  unfold encode decodeFields
  simp only
  rw [hi_RRR, lo_RRR]
  change Instr.icmp (getGuard _) (getRRR _) = _
  rw [guard_RRR, get_RRR]

theorem Encoding.fcmp (g : Guard) (x : RRR) : Encoding.Statement (.fcmp g x) := fun _ => by
  unfold encode decodeFields
  simp only
  rw [hi_RRR, lo_RRR]
  change Instr.fcmp (getGuard _) (getRRR _) = _
  rw [guard_RRR, get_RRR]

theorem Encoding.sel (g : Guard) (x : RRR) : Encoding.Statement (.sel g x) := fun _ => by
  unfold encode decodeFields
  simp only
  rw [hi_RRR, lo_RRR]
  change Instr.sel (getGuard _) (getRRR _) = _
  rw [guard_RRR, get_RRR]

theorem Encoding.pset (g : Guard) (x : RRR) : Encoding.Statement (.pset g x) := fun w => by
  have w : (!(Machine.formPset x).badField && !(Machine.formPset x).badValue) = true := w
  have h0 : x.opx &&& 3 = 0 := by
    simp [Machine.formPset, Machine.formRRR] at w
    simp_all
  have h1 : x.opx.extractLsb' 0 2 = 0 := by
    exact low2 _ _ h0
  unfold encode
  rw [dec_1F _ (by rw [hi_RRR]; rfl) (by rw [lo_RRR]; rfl), opx_RRR, h1, guard_RRR, get_RRR]
  rfl

theorem Encoding.psetSave (g : Guard) (x : RRR) : Encoding.Statement (.psetSave g x) := fun w => by
  have w : (!(Machine.formPsetSave x).badField && !(Machine.formPsetSave x).badValue) = true := w
  have h0 : x.opx &&& 3 = 1 := by
    simp [Machine.formPsetSave, Machine.formRRR] at w
    simp_all
  have h1 : x.opx.extractLsb' 0 2 = 1 := by
    exact low2 _ _ h0
  unfold encode
  rw [dec_1F _ (by rw [hi_RRR]; rfl) (by rw [lo_RRR]; rfl), opx_RRR, h1, guard_RRR, get_RRR]
  rfl

theorem Encoding.psetLoad (g : Guard) (x : RRR) : Encoding.Statement (.psetLoad g x) := fun w => by
  have w : (!(Machine.formPsetLoad x).badField && !(Machine.formPsetLoad x).badValue) = true := w
  have h0 : x.opx &&& 3 = 2 := by
    simp [Machine.formPsetLoad, Machine.formRRR] at w
    simp_all
  have h1 : x.opx.extractLsb' 0 2 = 2 := by
    exact low2 _ _ h0
  unfold encode
  rw [dec_1F _ (by rw [hi_RRR]; rfl) (by rw [lo_RRR]; rfl), opx_RRR, h1, guard_RRR, get_RRR]
  rfl

theorem Encoding.plop (g : Guard) (x : RRR) : Encoding.Statement (.plop g x) := fun _ => by
  unfold encode decodeFields
  simp only
  rw [hi_RRR, lo_RRR]
  change Instr.plop (getGuard _) (getRRR _) = _
  rw [guard_RRR, get_RRR]

theorem Encoding.fadd (g : Guard) (x : RRR) : Encoding.Statement (.fadd g x) := fun _ => by
  unfold encode decodeFields
  simp only
  rw [hi_RRR, lo_RRR]
  change Instr.fadd (getGuard _) (getRRR _) = _
  rw [guard_RRR, get_RRR]

theorem Encoding.fsub (g : Guard) (x : RRR) : Encoding.Statement (.fsub g x) := fun _ => by
  unfold encode decodeFields
  simp only
  rw [hi_RRR, lo_RRR]
  change Instr.fsub (getGuard _) (getRRR _) = _
  rw [guard_RRR, get_RRR]

theorem Encoding.fmul (g : Guard) (x : RRR) : Encoding.Statement (.fmul g x) := fun _ => by
  unfold encode decodeFields
  simp only
  rw [hi_RRR, lo_RRR]
  change Instr.fmul (getGuard _) (getRRR _) = _
  rw [guard_RRR, get_RRR]

theorem Encoding.ffma (g : Guard) (x : RRR) : Encoding.Statement (.ffma g x) := fun _ => by
  unfold encode decodeFields
  simp only
  rw [hi_RRR, lo_RRR]
  change Instr.ffma (getGuard _) (getRRR _) = _
  rw [guard_RRR, get_RRR]

theorem Encoding.fmin (g : Guard) (x : RRR) : Encoding.Statement (.fmin g x) := fun _ => by
  unfold encode decodeFields
  simp only
  rw [hi_RRR, lo_RRR]
  change Instr.fmin (getGuard _) (getRRR _) = _
  rw [guard_RRR, get_RRR]

theorem Encoding.fmax (g : Guard) (x : RRR) : Encoding.Statement (.fmax g x) := fun _ => by
  unfold encode decodeFields
  simp only
  rw [hi_RRR, lo_RRR]
  change Instr.fmax (getGuard _) (getRRR _) = _
  rw [guard_RRR, get_RRR]

theorem Encoding.frcp (g : Guard) (x : RRR) : Encoding.Statement (.frcp g x) := fun _ => by
  unfold encode decodeFields
  simp only
  rw [hi_RRR, lo_RRR]
  change Instr.frcp (getGuard _) (getRRR _) = _
  rw [guard_RRR, get_RRR]

theorem Encoding.frsq (g : Guard) (x : RRR) : Encoding.Statement (.frsq g x) := fun _ => by
  unfold encode decodeFields
  simp only
  rw [hi_RRR, lo_RRR]
  change Instr.frsq (getGuard _) (getRRR _) = _
  rw [guard_RRR, get_RRR]

theorem Encoding.fsqrt (g : Guard) (x : RRR) : Encoding.Statement (.fsqrt g x) := fun _ => by
  unfold encode decodeFields
  simp only
  rw [hi_RRR, lo_RRR]
  change Instr.fsqrt (getGuard _) (getRRR _) = _
  rw [guard_RRR, get_RRR]

theorem Encoding.fdiv (g : Guard) (x : RRR) : Encoding.Statement (.fdiv g x) := fun _ => by
  unfold encode decodeFields
  simp only
  rw [hi_RRR, lo_RRR]
  change Instr.fdiv (getGuard _) (getRRR _) = _
  rw [guard_RRR, get_RRR]

theorem Encoding.fex2 (g : Guard) (x : RRR) : Encoding.Statement (.fex2 g x) := fun _ => by
  unfold encode decodeFields
  simp only
  rw [hi_RRR, lo_RRR]
  change Instr.fex2 (getGuard _) (getRRR _) = _
  rw [guard_RRR, get_RRR]

theorem Encoding.flg2 (g : Guard) (x : RRR) : Encoding.Statement (.flg2 g x) := fun _ => by
  unfold encode decodeFields
  simp only
  rw [hi_RRR, lo_RRR]
  change Instr.flg2 (getGuard _) (getRRR _) = _
  rw [guard_RRR, get_RRR]

theorem Encoding.fsin (g : Guard) (x : RRR) : Encoding.Statement (.fsin g x) := fun _ => by
  unfold encode decodeFields
  simp only
  rw [hi_RRR, lo_RRR]
  change Instr.fsin (getGuard _) (getRRR _) = _
  rw [guard_RRR, get_RRR]

theorem Encoding.fcos (g : Guard) (x : RRR) : Encoding.Statement (.fcos g x) := fun _ => by
  unfold encode decodeFields
  simp only
  rw [hi_RRR, lo_RRR]
  change Instr.fcos (getGuard _) (getRRR _) = _
  rw [guard_RRR, get_RRR]

theorem Encoding.frnd (g : Guard) (x : RRR) : Encoding.Statement (.frnd g x) := fun _ => by
  unfold encode decodeFields
  simp only
  rw [hi_RRR, lo_RRR]
  change Instr.frnd (getGuard _) (getRRR _) = _
  rw [guard_RRR, get_RRR]

theorem Encoding.fclass (g : Guard) (x : RRR) : Encoding.Statement (.fclass g x) := fun _ => by
  unfold encode decodeFields
  simp only
  rw [hi_RRR, lo_RRR]
  change Instr.fclass (getGuard _) (getRRR _) = _
  rw [guard_RRR, get_RRR]

theorem Encoding.dadd (g : Guard) (x : RRR) : Encoding.Statement (.dadd g x) := fun _ => by
  unfold encode decodeFields
  simp only
  rw [hi_RRR, lo_RRR]
  change Instr.dadd (getGuard _) (getRRR _) = _
  rw [guard_RRR, get_RRR]

theorem Encoding.dmul (g : Guard) (x : RRR) : Encoding.Statement (.dmul g x) := fun _ => by
  unfold encode decodeFields
  simp only
  rw [hi_RRR, lo_RRR]
  change Instr.dmul (getGuard _) (getRRR _) = _
  rw [guard_RRR, get_RRR]

theorem Encoding.dfma (g : Guard) (x : RRR) : Encoding.Statement (.dfma g x) := fun _ => by
  unfold encode decodeFields
  simp only
  rw [hi_RRR, lo_RRR]
  change Instr.dfma (getGuard _) (getRRR _) = _
  rw [guard_RRR, get_RRR]

theorem Encoding.ddiv (g : Guard) (x : RRR) : Encoding.Statement (.ddiv g x) := fun _ => by
  unfold encode decodeFields
  simp only
  rw [hi_RRR, lo_RRR]
  change Instr.ddiv (getGuard _) (getRRR _) = _
  rw [guard_RRR, get_RRR]

theorem Encoding.hadd2 (g : Guard) (x : RRR) : Encoding.Statement (.hadd2 g x) := fun _ => by
  unfold encode decodeFields
  simp only
  rw [hi_RRR, lo_RRR]
  change Instr.hadd2 (getGuard _) (getRRR _) = _
  rw [guard_RRR, get_RRR]

theorem Encoding.hmul2 (g : Guard) (x : RRR) : Encoding.Statement (.hmul2 g x) := fun _ => by
  unfold encode decodeFields
  simp only
  rw [hi_RRR, lo_RRR]
  change Instr.hmul2 (getGuard _) (getRRR _) = _
  rw [guard_RRR, get_RRR]

theorem Encoding.hfma2 (g : Guard) (x : RRR) : Encoding.Statement (.hfma2 g x) := fun _ => by
  unfold encode decodeFields
  simp only
  rw [hi_RRR, lo_RRR]
  change Instr.hfma2 (getGuard _) (getRRR _) = _
  rw [guard_RRR, get_RRR]

theorem Encoding.bfma2 (g : Guard) (x : RRR) : Encoding.Statement (.bfma2 g x) := fun _ => by
  unfold encode decodeFields
  simp only
  rw [hi_RRR, lo_RRR]
  change Instr.bfma2 (getGuard _) (getRRR _) = _
  rw [guard_RRR, get_RRR]

theorem Encoding.cvt (g : Guard) (x : RRR) : Encoding.Statement (.cvt g x) := fun _ => by
  unfold encode decodeFields
  simp only
  rw [hi_RRR, lo_RRR]
  change Instr.cvt (getGuard _) (getRRR _) = _
  rw [guard_RRR, get_RRR]

theorem Encoding.f8pk (g : Guard) (x : RRR) : Encoding.Statement (.f8pk g x) := fun _ => by
  unfold encode decodeFields
  simp only
  rw [hi_RRR, lo_RRR]
  change Instr.f8pk (getGuard _) (getRRR _) = _
  rw [guard_RRR, get_RRR]

theorem Encoding.f8upk (g : Guard) (x : RRR) : Encoding.Statement (.f8upk g x) := fun _ => by
  unfold encode decodeFields
  simp only
  rw [hi_RRR, lo_RRR]
  change Instr.f8upk (getGuard _) (getRRR _) = _
  rw [guard_RRR, get_RRR]

theorem Encoding.mov (g : Guard) (x : RRR) : Encoding.Statement (.mov g x) := fun _ => by
  unfold encode decodeFields
  simp only
  rw [hi_RRR, lo_RRR]
  change Instr.mov (getGuard _) (getRRR _) = _
  rw [guard_RRR, get_RRR]

theorem Encoding.movi (g : Guard) (x : RI) : Encoding.Statement (.movi g x) := fun _ => by
  unfold encode decodeFields
  simp only
  rw [hi_RI, lo_RI]
  change Instr.movi (getGuard _) (getRI _) = _
  rw [guard_RI, get_RI]

theorem Encoding.movk (g : Guard) (x : RK) : Encoding.Statement (.movk g x) := fun _ => by
  unfold encode decodeFields
  simp only
  rw [hi_RK, lo_RK]
  change Instr.movk (getGuard _) (getRK _) = _
  rw [guard_RK, get_RK]

theorem Encoding.movg (g : Guard) (x : RRR) : Encoding.Statement (.movg g x) := fun _ => by
  unfold encode decodeFields
  simp only
  rw [hi_RRR, lo_RRR]
  change Instr.movg (getGuard _) (getRRR _) = _
  rw [guard_RRR, get_RRR]

theorem Encoding.vtog (g : Guard) (x : RRR) : Encoding.Statement (.vtog g x) := fun _ => by
  unfold encode decodeFields
  simp only
  rw [hi_RRR, lo_RRR]
  change Instr.vtog (getGuard _) (getRRR _) = _
  rw [guard_RRR, get_RRR]

theorem Encoding.rdsr (g : Guard) (x : RRR) : Encoding.Statement (.rdsr g x) := fun _ => by
  unfold encode decodeFields
  simp only
  rw [hi_RRR, lo_RRR]
  change Instr.rdsr (getGuard _) (getRRR _) = _
  rw [guard_RRR, get_RRR]

theorem Encoding.wrsr (g : Guard) (x : RRR) : Encoding.Statement (.wrsr g x) := fun _ => by
  unfold encode decodeFields
  simp only
  rw [hi_RRR, lo_RRR]
  change Instr.wrsr (getGuard _) (getRRR _) = _
  rw [guard_RRR, get_RRR]

theorem Encoding.stage (g : Guard) (x : RRR) : Encoding.Statement (.stage g x) := fun _ => by
  unfold encode decodeFields
  simp only
  rw [hi_RRR, lo_RRR]
  change Instr.stage (getGuard _) (getRRR _) = _
  rw [guard_RRR, get_RRR]

theorem Encoding.shfl (g : Guard) (x : RRR) : Encoding.Statement (.shfl g x) := fun _ => by
  unfold encode decodeFields
  simp only
  rw [hi_RRR, lo_RRR]
  change Instr.shfl (getGuard _) (getRRR _) = _
  rw [guard_RRR, get_RRR]

theorem Encoding.vote (g : Guard) (x : RRR) : Encoding.Statement (.vote g x) := fun _ => by
  unfold encode decodeFields
  simp only
  rw [hi_RRR, lo_RRR]
  change Instr.vote (getGuard _) (getRRR _) = _
  rw [guard_RRR, get_RRR]

theorem Encoding.lred (g : Guard) (x : RRR) : Encoding.Statement (.lred g x) := fun _ => by
  unfold encode decodeFields
  simp only
  rw [hi_RRR, lo_RRR]
  change Instr.lred (getGuard _) (getRRR _) = _
  rw [guard_RRR, get_RRR]

theorem Encoding.lscan (g : Guard) (x : RRR) : Encoding.Statement (.lscan g x) := fun _ => by
  unfold encode decodeFields
  simp only
  rw [hi_RRR, lo_RRR]
  change Instr.lscan (getGuard _) (getRRR _) = _
  rw [guard_RRR, get_RRR]

theorem Encoding.lfind (g : Guard) (x : RRR) : Encoding.Statement (.lfind g x) := fun _ => by
  unfold encode decodeFields
  simp only
  rw [hi_RRR, lo_RRR]
  change Instr.lfind (getGuard _) (getRRR _) = _
  rw [guard_RRR, get_RRR]

theorem Encoding.iaddRk (g : Guard) (x : RK) : Encoding.Statement (.iaddRk g x) := fun _ => by
  unfold encode decodeFields
  simp only
  rw [hi_RK, lo_RK]
  change Instr.iaddRk (getGuard _) (getRK _) = _
  rw [guard_RK, get_RK]

theorem Encoding.isubRk (g : Guard) (x : RK) : Encoding.Statement (.isubRk g x) := fun _ => by
  unfold encode decodeFields
  simp only
  rw [hi_RK, lo_RK]
  change Instr.isubRk (getGuard _) (getRK _) = _
  rw [guard_RK, get_RK]

theorem Encoding.imulRk (g : Guard) (x : RK) : Encoding.Statement (.imulRk g x) := fun _ => by
  unfold encode decodeFields
  simp only
  rw [hi_RK, lo_RK]
  change Instr.imulRk (getGuard _) (getRK _) = _
  rw [guard_RK, get_RK]

theorem Encoding.imadRk (g : Guard) (x : RK) : Encoding.Statement (.imadRk g x) := fun _ => by
  unfold encode decodeFields
  simp only
  rw [hi_RK, lo_RK]
  change Instr.imadRk (getGuard _) (getRK _) = _
  rw [guard_RK, get_RK]

theorem Encoding.andRk (g : Guard) (x : RK) : Encoding.Statement (.andRk g x) := fun _ => by
  unfold encode decodeFields
  simp only
  rw [hi_RK, lo_RK]
  change Instr.andRk (getGuard _) (getRK _) = _
  rw [guard_RK, get_RK]

theorem Encoding.orRk (g : Guard) (x : RK) : Encoding.Statement (.orRk g x) := fun _ => by
  unfold encode decodeFields
  simp only
  rw [hi_RK, lo_RK]
  change Instr.orRk (getGuard _) (getRK _) = _
  rw [guard_RK, get_RK]

theorem Encoding.xorRk (g : Guard) (x : RK) : Encoding.Statement (.xorRk g x) := fun _ => by
  unfold encode decodeFields
  simp only
  rw [hi_RK, lo_RK]
  change Instr.xorRk (getGuard _) (getRK _) = _
  rw [guard_RK, get_RK]

theorem Encoding.icmpRk (g : Guard) (x : RK) : Encoding.Statement (.icmpRk g x) := fun _ => by
  unfold encode decodeFields
  simp only
  rw [hi_RK, lo_RK]
  change Instr.icmpRk (getGuard _) (getRK _) = _
  rw [guard_RK, get_RK]

theorem Encoding.faddRk (g : Guard) (x : RK) : Encoding.Statement (.faddRk g x) := fun _ => by
  unfold encode decodeFields
  simp only
  rw [hi_RK, lo_RK]
  change Instr.faddRk (getGuard _) (getRK _) = _
  rw [guard_RK, get_RK]

theorem Encoding.fmulRk (g : Guard) (x : RK) : Encoding.Statement (.fmulRk g x) := fun _ => by
  unfold encode decodeFields
  simp only
  rw [hi_RK, lo_RK]
  change Instr.fmulRk (getGuard _) (getRK _) = _
  rw [guard_RK, get_RK]

theorem Encoding.ffmaRk (g : Guard) (x : RK) : Encoding.Statement (.ffmaRk g x) := fun _ => by
  unfold encode decodeFields
  simp only
  rw [hi_RK, lo_RK]
  change Instr.ffmaRk (getGuard _) (getRK _) = _
  rw [guard_RK, get_RK]

theorem Encoding.fcmpRk (g : Guard) (x : RK) : Encoding.Statement (.fcmpRk g x) := fun _ => by
  unfold encode decodeFields
  simp only
  rw [hi_RK, lo_RK]
  change Instr.fcmpRk (getGuard _) (getRK _) = _
  rw [guard_RK, get_RK]

theorem Encoding.iaddRi (g : Guard) (x : RI) : Encoding.Statement (.iaddRi g x) := fun _ => by
  unfold encode decodeFields
  simp only
  rw [hi_RI, lo_RI]
  change Instr.iaddRi (getGuard _) (getRI _) = _
  rw [guard_RI, get_RI]

theorem Encoding.imulRi (g : Guard) (x : RI) : Encoding.Statement (.imulRi g x) := fun _ => by
  unfold encode decodeFields
  simp only
  rw [hi_RI, lo_RI]
  change Instr.imulRi (getGuard _) (getRI _) = _
  rw [guard_RI, get_RI]

theorem Encoding.andRi (g : Guard) (x : RI) : Encoding.Statement (.andRi g x) := fun _ => by
  unfold encode decodeFields
  simp only
  rw [hi_RI, lo_RI]
  change Instr.andRi (getGuard _) (getRI _) = _
  rw [guard_RI, get_RI]

theorem Encoding.orRi (g : Guard) (x : RI) : Encoding.Statement (.orRi g x) := fun _ => by
  unfold encode decodeFields
  simp only
  rw [hi_RI, lo_RI]
  change Instr.orRi (getGuard _) (getRI _) = _
  rw [guard_RI, get_RI]

theorem Encoding.xorRi (g : Guard) (x : RI) : Encoding.Statement (.xorRi g x) := fun _ => by
  unfold encode decodeFields
  simp only
  rw [hi_RI, lo_RI]
  change Instr.xorRi (getGuard _) (getRI _) = _
  rw [guard_RI, get_RI]

theorem Encoding.shlRi (g : Guard) (x : RI) : Encoding.Statement (.shlRi g x) := fun _ => by
  unfold encode decodeFields
  simp only
  rw [hi_RI, lo_RI]
  change Instr.shlRi (getGuard _) (getRI _) = _
  rw [guard_RI, get_RI]

theorem Encoding.shrRi (g : Guard) (x : RI) : Encoding.Statement (.shrRi g x) := fun _ => by
  unfold encode decodeFields
  simp only
  rw [hi_RI, lo_RI]
  change Instr.shrRi (getGuard _) (getRI _) = _
  rw [guard_RI, get_RI]

theorem Encoding.sarRi (g : Guard) (x : RI) : Encoding.Statement (.sarRi g x) := fun _ => by
  unfold encode decodeFields
  simp only
  rw [hi_RI, lo_RI]
  change Instr.sarRi (getGuard _) (getRI _) = _
  rw [guard_RI, get_RI]

theorem Encoding.icmpRi (g : Guard) (x : RI) : Encoding.Statement (.icmpRi g x) := fun _ => by
  unfold encode decodeFields
  simp only
  rw [hi_RI, lo_RI]
  change Instr.icmpRi (getGuard _) (getRI _) = _
  rw [guard_RI, get_RI]

theorem Encoding.faddRi (g : Guard) (x : RI) : Encoding.Statement (.faddRi g x) := fun _ => by
  unfold encode decodeFields
  simp only
  rw [hi_RI, lo_RI]
  change Instr.faddRi (getGuard _) (getRI _) = _
  rw [guard_RI, get_RI]

theorem Encoding.fmulRi (g : Guard) (x : RI) : Encoding.Statement (.fmulRi g x) := fun _ => by
  unfold encode decodeFields
  simp only
  rw [hi_RI, lo_RI]
  change Instr.fmulRi (getGuard _) (getRI _) = _
  rw [guard_RI, get_RI]

theorem Encoding.gadd (g : Guard) (x : RRR) : Encoding.Statement (.gadd g x) := fun _ => by
  unfold encode decodeFields
  simp only
  rw [hi_RRR, lo_RRR]
  change Instr.gadd (getGuard _) (getRRR _) = _
  rw [guard_RRR, get_RRR]

theorem Encoding.gsub (g : Guard) (x : RRR) : Encoding.Statement (.gsub g x) := fun _ => by
  unfold encode decodeFields
  simp only
  rw [hi_RRR, lo_RRR]
  change Instr.gsub (getGuard _) (getRRR _) = _
  rw [guard_RRR, get_RRR]

theorem Encoding.gmul (g : Guard) (x : RRR) : Encoding.Statement (.gmul g x) := fun _ => by
  unfold encode decodeFields
  simp only
  rw [hi_RRR, lo_RRR]
  change Instr.gmul (getGuard _) (getRRR _) = _
  rw [guard_RRR, get_RRR]

theorem Encoding.gmin (g : Guard) (x : RRR) : Encoding.Statement (.gmin g x) := fun _ => by
  unfold encode decodeFields
  simp only
  rw [hi_RRR, lo_RRR]
  change Instr.gmin (getGuard _) (getRRR _) = _
  rw [guard_RRR, get_RRR]

theorem Encoding.gand (g : Guard) (x : RRR) : Encoding.Statement (.gand g x) := fun _ => by
  unfold encode decodeFields
  simp only
  rw [hi_RRR, lo_RRR]
  change Instr.gand (getGuard _) (getRRR _) = _
  rw [guard_RRR, get_RRR]

theorem Encoding.gor (g : Guard) (x : RRR) : Encoding.Statement (.gor g x) := fun _ => by
  unfold encode decodeFields
  simp only
  rw [hi_RRR, lo_RRR]
  change Instr.gor (getGuard _) (getRRR _) = _
  rw [guard_RRR, get_RRR]

theorem Encoding.gxor (g : Guard) (x : RRR) : Encoding.Statement (.gxor g x) := fun _ => by
  unfold encode decodeFields
  simp only
  rw [hi_RRR, lo_RRR]
  change Instr.gxor (getGuard _) (getRRR _) = _
  rw [guard_RRR, get_RRR]

theorem Encoding.gshl (g : Guard) (x : RRR) : Encoding.Statement (.gshl g x) := fun _ => by
  unfold encode decodeFields
  simp only
  rw [hi_RRR, lo_RRR]
  change Instr.gshl (getGuard _) (getRRR _) = _
  rw [guard_RRR, get_RRR]

theorem Encoding.gshr (g : Guard) (x : RRR) : Encoding.Statement (.gshr g x) := fun _ => by
  unfold encode decodeFields
  simp only
  rw [hi_RRR, lo_RRR]
  change Instr.gshr (getGuard _) (getRRR _) = _
  rw [guard_RRR, get_RRR]

theorem Encoding.gcmp (g : Guard) (x : RRR) : Encoding.Statement (.gcmp g x) := fun _ => by
  unfold encode decodeFields
  simp only
  rw [hi_RRR, lo_RRR]
  change Instr.gcmp (getGuard _) (getRRR _) = _
  rw [guard_RRR, get_RRR]

theorem Encoding.gsel (g : Guard) (x : RRR) : Encoding.Statement (.gsel g x) := fun _ => by
  unfold encode decodeFields
  simp only
  rw [hi_RRR, lo_RRR]
  change Instr.gsel (getGuard _) (getRRR _) = _
  rw [guard_RRR, get_RRR]

theorem Encoding.gmov (g : Guard) (x : RRR) : Encoding.Statement (.gmov g x) := fun _ => by
  unfold encode decodeFields
  simp only
  rw [hi_RRR, lo_RRR]
  change Instr.gmov (getGuard _) (getRRR _) = _
  rw [guard_RRR, get_RRR]

theorem Encoding.glea (g : Guard) (x : RRR) : Encoding.Statement (.glea g x) := fun _ => by
  unfold encode decodeFields
  simp only
  rw [hi_RRR, lo_RRR]
  change Instr.glea (getGuard _) (getRRR _) = _
  rw [guard_RRR, get_RRR]

theorem Encoding.gaddRi (g : Guard) (x : RI) : Encoding.Statement (.gaddRi g x) := fun _ => by
  unfold encode decodeFields
  simp only
  rw [hi_RI, lo_RI]
  change Instr.gaddRi (getGuard _) (getRI _) = _
  rw [guard_RI, get_RI]

theorem Encoding.gandRi (g : Guard) (x : RI) : Encoding.Statement (.gandRi g x) := fun _ => by
  unfold encode decodeFields
  simp only
  rw [hi_RI, lo_RI]
  change Instr.gandRi (getGuard _) (getRI _) = _
  rw [guard_RI, get_RI]

theorem Encoding.gorRi (g : Guard) (x : RI) : Encoding.Statement (.gorRi g x) := fun _ => by
  unfold encode decodeFields
  simp only
  rw [hi_RI, lo_RI]
  change Instr.gorRi (getGuard _) (getRI _) = _
  rw [guard_RI, get_RI]

theorem Encoding.gxorRi (g : Guard) (x : RI) : Encoding.Statement (.gxorRi g x) := fun _ => by
  unfold encode decodeFields
  simp only
  rw [hi_RI, lo_RI]
  change Instr.gxorRi (getGuard _) (getRI _) = _
  rw [guard_RI, get_RI]

theorem Encoding.gshlRi (g : Guard) (x : RI) : Encoding.Statement (.gshlRi g x) := fun _ => by
  unfold encode decodeFields
  simp only
  rw [hi_RI, lo_RI]
  change Instr.gshlRi (getGuard _) (getRI _) = _
  rw [guard_RI, get_RI]

theorem Encoding.gshrRi (g : Guard) (x : RI) : Encoding.Statement (.gshrRi g x) := fun _ => by
  unfold encode decodeFields
  simp only
  rw [hi_RI, lo_RI]
  change Instr.gshrRi (getGuard _) (getRI _) = _
  rw [guard_RI, get_RI]

theorem Encoding.gcmpRi (g : Guard) (x : RI) : Encoding.Statement (.gcmpRi g x) := fun _ => by
  unfold encode decodeFields
  simp only
  rw [hi_RI, lo_RI]
  change Instr.gcmpRi (getGuard _) (getRI _) = _
  rw [guard_RI, get_RI]

theorem Encoding.gmovRi (g : Guard) (x : RI) : Encoding.Statement (.gmovRi g x) := fun _ => by
  unfold encode decodeFields
  simp only
  rw [hi_RI, lo_RI]
  change Instr.gmovRi (getGuard _) (getRI _) = _
  rw [guard_RI, get_RI]

theorem Encoding.gaddRk (g : Guard) (x : RK) : Encoding.Statement (.gaddRk g x) := fun _ => by
  unfold encode decodeFields
  simp only
  rw [hi_RK, lo_RK]
  change Instr.gaddRk (getGuard _) (getRK _) = _
  rw [guard_RK, get_RK]

theorem Encoding.gcmpRk (g : Guard) (x : RK) : Encoding.Statement (.gcmpRk g x) := fun _ => by
  unfold encode decodeFields
  simp only
  rw [hi_RK, lo_RK]
  change Instr.gcmpRk (getGuard _) (getRK _) = _
  rw [guard_RK, get_RK]

theorem Encoding.gmovRk (g : Guard) (x : RK) : Encoding.Statement (.gmovRk g x) := fun _ => by
  unfold encode decodeFields
  simp only
  rw [hi_RK, lo_RK]
  change Instr.gmovRk (getGuard _) (getRK _) = _
  rw [guard_RK, get_RK]

theorem Encoding.gld (g : Guard) (x : RK) : Encoding.Statement (.gld g x) := fun _ => by
  unfold encode decodeFields
  simp only
  rw [hi_RK, lo_RK]
  change Instr.gld (getGuard _) (getRK _) = _
  rw [guard_RK, get_RK]

theorem Encoding.ld (g : Guard) (x : MEM) : Encoding.Statement (.ld g x) := fun _ => by
  unfold encode decodeFields
  simp only
  rw [hi_MEM, lo_MEM]
  change Instr.ld (getGuard _) (getMEM _) = _
  rw [guard_MEM, get_MEM]

theorem Encoding.st (g : Guard) (x : MEM) : Encoding.Statement (.st g x) := fun _ => by
  unfold encode decodeFields
  simp only
  rw [hi_MEM, lo_MEM]
  change Instr.st (getGuard _) (getMEM _) = _
  rw [guard_MEM, get_MEM]

theorem Encoding.lds (g : Guard) (x : MEM) : Encoding.Statement (.lds g x) := fun _ => by
  unfold encode decodeFields
  simp only
  rw [hi_MEM, lo_MEM]
  change Instr.lds (getGuard _) (getMEM _) = _
  rw [guard_MEM, get_MEM]

theorem Encoding.sts (g : Guard) (x : MEM) : Encoding.Statement (.sts g x) := fun _ => by
  unfold encode decodeFields
  simp only
  rw [hi_MEM, lo_MEM]
  change Instr.sts (getGuard _) (getMEM _) = _
  rw [guard_MEM, get_MEM]

theorem Encoding.ldk (g : Guard) (x : MEM) : Encoding.Statement (.ldk g x) := fun _ => by
  unfold encode decodeFields
  simp only
  rw [hi_MEM, lo_MEM]
  change Instr.ldk (getGuard _) (getMEM _) = _
  rw [guard_MEM, get_MEM]

theorem Encoding.ldx (g : Guard) (x : MEM) : Encoding.Statement (.ldx g x) := fun _ => by
  unfold encode decodeFields
  simp only
  rw [hi_MEM, lo_MEM]
  change Instr.ldx (getGuard _) (getMEM _) = _
  rw [guard_MEM, get_MEM]

theorem Encoding.atom (g : Guard) (x : MEM) : Encoding.Statement (.atom g x) := fun _ => by
  unfold encode decodeFields
  simp only
  rw [hi_MEM, lo_MEM]
  change Instr.atom (getGuard _) (getMEM _) = _
  rw [guard_MEM, get_MEM]

theorem Encoding.redI (g : Guard) (x : MEM) : Encoding.Statement (.redI g x) := fun _ => by
  unfold encode decodeFields
  simp only
  rw [hi_MEM, lo_MEM]
  change Instr.redI (getGuard _) (getMEM _) = _
  rw [guard_MEM, get_MEM]

theorem Encoding.fence (g : Guard) (x : MEM) : Encoding.Statement (.fence g x) := fun _ => by
  unfold encode decodeFields
  simp only
  rw [hi_MEM, lo_MEM]
  change Instr.fence (getGuard _) (getMEM _) = _
  rw [guard_MEM, get_MEM]

theorem Encoding.cflush (g : Guard) (x : MEM) : Encoding.Statement (.cflush g x) := fun _ => by
  unfold encode decodeFields
  simp only
  rw [hi_MEM, lo_MEM]
  change Instr.cflush (getGuard _) (getMEM _) = _
  rw [guard_MEM, get_MEM]

theorem Encoding.cinvK (g : Guard) (x : MEM) : Encoding.Statement (.cinvK g x) := fun w => by
  have w : (!(Machine.formLine x [0] 3 0).badField && !(Machine.formLine x [0] 3 0).badValue) = true := w
  have h0 : x.mopx &&& 3 = 0 := by
    simp [Machine.formLine] at w
    simp_all
  have h1 : x.mopx.extractLsb' 0 2 = 0 := by
    exact low2 _ _ h0
  unfold encode
  rw [dec_8A _ (by rw [hi_MEM]; rfl) (by rw [lo_MEM]; rfl), mopx_MEM, h1, guard_MEM, get_MEM]
  rfl

theorem Encoding.cinvKall (g : Guard) (x : MEM) : Encoding.Statement (.cinvKall g x) := fun w => by
  have w : (!(Machine.formCinvAll x).badField && !(Machine.formCinvAll x).badValue) = true := w
  have h0 : x.mopx &&& 3 = 1 := by
    simp [Machine.formCinvAll] at w
    simp_all
  have h1 : x.mopx.extractLsb' 0 2 = 1 := by
    exact low2 _ _ h0
  unfold encode
  rw [dec_8A _ (by rw [hi_MEM]; rfl) (by rw [lo_MEM]; rfl), mopx_MEM, h1, guard_MEM, get_MEM]
  rfl

theorem Encoding.cinvL1 (g : Guard) (x : MEM) : Encoding.Statement (.cinvL1 g x) := fun w => by
  have w : (!(Machine.formLine x [0] 3 2).badField && !(Machine.formLine x [0] 3 2).badValue) = true := w
  have h0 : x.mopx &&& 3 = 2 := by
    simp [Machine.formLine] at w
    simp_all
  have h1 : x.mopx.extractLsb' 0 2 = 2 := by
    exact low2 _ _ h0
  unfold encode
  rw [dec_8A _ (by rw [hi_MEM]; rfl) (by rw [lo_MEM]; rfl), mopx_MEM, h1, guard_MEM, get_MEM]
  rfl

theorem Encoding.icinv (g : Guard) (x : MEM) : Encoding.Statement (.icinv g x) := fun _ => by
  unfold encode decodeFields
  simp only
  rw [hi_MEM, lo_MEM]
  change Instr.icinv (getGuard _) (getMEM _) = _
  rw [guard_MEM, get_MEM]

theorem Encoding.pref (g : Guard) (x : MEM) : Encoding.Statement (.pref g x) := fun _ => by
  unfold encode decodeFields
  simp only
  rw [hi_MEM, lo_MEM]
  change Instr.pref (getGuard _) (getMEM _) = _
  rw [guard_MEM, get_MEM]

theorem Encoding.smap (g : Guard) (x : MEM) : Encoding.Statement (.smap g x) := fun w => by
  have w : (!(Machine.formSmap x).badField && !(Machine.formSmap x).badValue) = true := w
  have h0 : x.mopx.getLsbD 7 = false := by
    simp [Machine.formSmap] at w
    simp_all
  unfold encode
  rw [dec_8D _ (by rw [hi_MEM]; rfl) (by rw [lo_MEM]; rfl), mopx7_MEM, h0, guard_MEM, get_MEM]
  rfl

theorem Encoding.smapUnmap (g : Guard) (x : MEM) : Encoding.Statement (.smapUnmap g x) := fun w => by
  have w : (!(Machine.formUnmap x).badField && !(Machine.formUnmap x).badValue) = true := w
  have h0 : x.mopx.getLsbD 7 = true := by
    simp [Machine.formUnmap] at w
    simp_all
  unfold encode
  rw [dec_8D _ (by rw [hi_MEM]; rfl) (by rw [lo_MEM]; rfl), mopx7_MEM, h0, guard_MEM, get_MEM]
  rfl

theorem Encoding.swb (g : Guard) (x : MEM) : Encoding.Statement (.swb g x) := fun w => by
  have w : (!(Machine.formSwb x false).badField && !(Machine.formSwb x false).badValue) = true := w
  have h0 : x.mopx.getLsbD 3 = false := by
    simp [Machine.formSwb] at w
    simp_all
  unfold encode
  rw [dec_8E _ (by rw [hi_MEM]; rfl) (by rw [lo_MEM]; rfl), mopx3_MEM, h0, guard_MEM, get_MEM]
  rfl

theorem Encoding.swbAll (g : Guard) (x : MEM) : Encoding.Statement (.swbAll g x) := fun w => by
  have w : (!(Machine.formSwb x true).badField && !(Machine.formSwb x true).badValue) = true := w
  have h0 : x.mopx.getLsbD 3 = true := by
    simp [Machine.formSwb] at w
    simp_all
  unfold encode
  rw [dec_8E _ (by rw [hi_MEM]; rfl) (by rw [lo_MEM]; rfl), mopx3_MEM, h0, guard_MEM, get_MEM]
  rfl

theorem Encoding.ldmc (g : Guard) (x : MEM) : Encoding.Statement (.ldmc g x) := fun _ => by
  unfold encode decodeFields
  simp only
  rw [hi_MEM, lo_MEM]
  change Instr.ldmc (getGuard _) (getMEM _) = _
  rw [guard_MEM, get_MEM]

theorem Encoding.mcfgBind (g : Guard) (x : MX) : Encoding.Statement (.mcfgBind g x) := fun w => by
  have w : (!(Machine.formMcfg x 0).badField && !(Machine.formMcfg x 0).badValue) = true := w
  have h0 : x.mxopx &&& 0x3000 = 0 := by
    simp [Machine.formMcfg] at w
    simp_all
  have h1 : x.mxopx.extractLsb' 12 2 = 0 := by
    exact mid2 _ _ h0
  unfold encode
  rw [dec_A0 _ (by rw [hi_MX]; rfl) (by rw [lo_MX]; rfl), mxopx_MX, h1, guard_MX, get_MX]
  rfl

theorem Encoding.mcfgUnbind (g : Guard) (x : MX) : Encoding.Statement (.mcfgUnbind g x) := fun w => by
  have w : (!(Machine.formMcfg x 0x1000).badField && !(Machine.formMcfg x 0x1000).badValue) = true := w
  have h0 : x.mxopx &&& 0x3000 = 0x1000 := by
    simp [Machine.formMcfg] at w
    simp_all
  have h1 : x.mxopx.extractLsb' 12 2 = 1 := by
    exact mid2 _ _ h0
  unfold encode
  rw [dec_A0 _ (by rw [hi_MX]; rfl) (by rw [lo_MX]; rfl), mxopx_MX, h1, guard_MX, get_MX]
  rfl

theorem Encoding.mcfgMode (g : Guard) (x : MX) : Encoding.Statement (.mcfgMode g x) := fun w => by
  have w : (!(Machine.formMcfg x 0x2000).badField && !(Machine.formMcfg x 0x2000).badValue) = true := w
  have h0 : x.mxopx &&& 0x3000 = 0x2000 := by
    simp [Machine.formMcfg] at w
    simp_all
  have h1 : x.mxopx.extractLsb' 12 2 = 2 := by
    exact mid2 _ _ h0
  unfold encode
  rw [dec_A0 _ (by rw [hi_MX]; rfl) (by rw [lo_MX]; rfl), mxopx_MX, h1, guard_MX, get_MX]
  rfl

theorem Encoding.mlatch (g : Guard) (x : MX) : Encoding.Statement (.mlatch g x) := fun _ => by
  unfold encode decodeFields
  simp only
  rw [hi_MX, lo_MX]
  change Instr.mlatch (getGuard _) (getMX _) = _
  rw [guard_MX, get_MX]

theorem Encoding.mma (g : Guard) (x : MX) : Encoding.Statement (.mma g x) := fun _ => by
  unfold encode decodeFields
  simp only
  rw [hi_MX, lo_MX]
  change Instr.mma (getGuard _) (getMX _) = _
  rw [guard_MX, get_MX]

theorem Encoding.mmas (g : Guard) (x : MX) : Encoding.Statement (.mmas g x) := fun _ => by
  unfold encode decodeFields
  simp only
  rw [hi_MX, lo_MX]
  change Instr.mmas (getGuard _) (getMX _) = _
  rw [guard_MX, get_MX]

theorem Encoding.mmat (g : Guard) (x : MX) : Encoding.Statement (.mmat g x) := fun _ => by
  unfold encode decodeFields
  simp only
  rw [hi_MX, lo_MX]
  change Instr.mmat (getGuard _) (getMX _) = _
  rw [guard_MX, get_MX]

theorem Encoding.mdrain (g : Guard) (x : MX) : Encoding.Statement (.mdrain g x) := fun _ => by
  unfold encode decodeFields
  simp only
  rw [hi_MX, lo_MX]
  change Instr.mdrain (getGuard _) (getMX _) = _
  rw [guard_MX, get_MX]

theorem Encoding.mzero (g : Guard) (x : MX) : Encoding.Statement (.mzero g x) := fun _ => by
  unfold encode decodeFields
  simp only
  rw [hi_MX, lo_MX]
  change Instr.mzero (getGuard _) (getMX _) = _
  rw [guard_MX, get_MX]

theorem Encoding.mstat (g : Guard) (x : MX) : Encoding.Statement (.mstat g x) := fun _ => by
  unfold encode decodeFields
  simp only
  rw [hi_MX, lo_MX]
  change Instr.mstat (getGuard _) (getMX _) = _
  rw [guard_MX, get_MX]

theorem Encoding.cpy (g : Guard) (x : CP) : Encoding.Statement (.cpy g x) := fun _ => by
  unfold encode decodeFields
  simp only
  rw [hi_CP, lo_CP]
  change Instr.cpy (getGuard _) (getCP _) = _
  rw [guard_CP, get_CP]

theorem Encoding.cpyg (g : Guard) (x : CP) : Encoding.Statement (.cpyg g x) := fun _ => by
  unfold encode decodeFields
  simp only
  rw [hi_CP, lo_CP]
  change Instr.cpyg (getGuard _) (getCP _) = _
  rw [guard_CP, get_CP]

theorem Encoding.cpys (g : Guard) (x : CP) : Encoding.Statement (.cpys g x) := fun _ => by
  unfold encode decodeFields
  simp only
  rw [hi_CP, lo_CP]
  change Instr.cpys (getGuard _) (getCP _) = _
  rw [guard_CP, get_CP]

theorem Encoding.cpymc (g : Guard) (x : CP) : Encoding.Statement (.cpymc g x) := fun _ => by
  unfold encode decodeFields
  simp only
  rw [hi_CP, lo_CP]
  change Instr.cpymc (getGuard _) (getCP _) = _
  rw [guard_CP, get_CP]

theorem Encoding.coll (g : Guard) (x : CP) : Encoding.Statement (.coll g x) := fun _ => by
  unfold encode decodeFields
  simp only
  rw [hi_CP, lo_CP]
  change Instr.coll (getGuard _) (getCP _) = _
  rw [guard_CP, get_CP]

theorem Encoding.trec (g : Guard) (x : CP) : Encoding.Statement (.trec g x) := fun _ => by
  unfold encode decodeFields
  simp only
  rw [hi_CP, lo_CP]
  change Instr.trec (getGuard _) (getCP _) = _
  rw [guard_CP, get_CP]

theorem Encoding.bra (g : Guard) (x : BR) : Encoding.Statement (.bra g x) := fun _ => by
  unfold encode decodeFields
  simp only
  rw [hi_BR, lo_BR]
  change Instr.bra (getGuard _) (getBR _) = _
  rw [guard_BR, get_BR]

theorem Encoding.brx (g : Guard) (x : BR) : Encoding.Statement (.brx g x) := fun w => by
  have w : (!(Machine.formBr x true false false 0 [Machine.vsrc x.va true]).badField && !(Machine.formBr x true false false 0 [Machine.vsrc x.va true]).badValue) = true := w
  have h0 : x.ctopx = 0 := by
    simp [Machine.formBr] at w
    simp_all
  unfold encode
  rw [dec_C1 _ (by rw [hi_BR]; rfl) (by rw [lo_BR]; rfl), ctopx_BR, h0, guard_BR, get_BR]
  rfl

theorem Encoding.brxRel (g : Guard) (x : BR) : Encoding.Statement (.brxRel g x) := fun w => by
  have w : (!(Machine.formBr x true false false 1 [Machine.vsrc x.va]).badField && !(Machine.formBr x true false false 1 [Machine.vsrc x.va]).badValue) = true := w
  have h0 : x.ctopx = 1 := by
    simp [Machine.formBr] at w
    simp_all
  unfold encode
  rw [dec_C1 _ (by rw [hi_BR]; rfl) (by rw [lo_BR]; rfl), ctopx_BR, h0, guard_BR, get_BR]
  rfl

theorem Encoding.call (g : Guard) (x : BR) : Encoding.Statement (.call g x) := fun w => by
  have w : (!(Machine.formBr x true false true 0 [Machine.vdst x.va true]).badField && !(Machine.formBr x true false true 0 [Machine.vdst x.va true]).badValue) = true := w
  have h0 : x.ctopx = 0 := by
    simp [Machine.formBr] at w
    simp_all
  unfold encode
  rw [dec_C2 _ (by rw [hi_BR]; rfl) (by rw [lo_BR]; rfl), ctopx_BR, h0, guard_BR, get_BR]
  rfl

theorem Encoding.callX (g : Guard) (x : BR) : Encoding.Statement (.callX g x) := fun w => by
  have w : (!(Machine.formBr x true true false 1 [Machine.vdst x.va true, Machine.vsrc x.vb true]).badField && !(Machine.formBr x true true false 1 [Machine.vdst x.va true, Machine.vsrc x.vb true]).badValue) = true := w
  have h0 : x.ctopx = 1 := by
    simp [Machine.formBr] at w
    simp_all
  unfold encode
  rw [dec_C2 _ (by rw [hi_BR]; rfl) (by rw [lo_BR]; rfl), ctopx_BR, h0, guard_BR, get_BR]
  rfl

theorem Encoding.ret (g : Guard) (x : BR) : Encoding.Statement (.ret g x) := fun _ => by
  unfold encode decodeFields
  simp only
  rw [hi_BR, lo_BR]
  change Instr.ret (getGuard _) (getBR _) = _
  rw [guard_BR, get_BR]

theorem Encoding.fork (g : Guard) (x : BR) : Encoding.Statement (.fork g x) := fun _ => by
  unfold encode decodeFields
  simp only
  rw [hi_BR, lo_BR]
  change Instr.fork (getGuard _) (getBR _) = _
  rw [guard_BR, get_BR]

theorem Encoding.exit (g : Guard) (x : BR) : Encoding.Statement (.exit g x) := fun _ => by
  unfold encode decodeFields
  simp only
  rw [hi_BR, lo_BR]
  change Instr.exit (getGuard _) (getBR _) = _
  rw [guard_BR, get_BR]

theorem Encoding.yield (g : Guard) (x : BR) : Encoding.Statement (.yield g x) := fun _ => by
  unfold encode decodeFields
  simp only
  rw [hi_BR, lo_BR]
  change Instr.yield (getGuard _) (getBR _) = _
  rw [guard_BR, get_BR]

theorem Encoding.nop (g : Guard) (x : BR) : Encoding.Statement (.nop g x) := fun _ => by
  unfold encode decodeFields
  simp only
  rw [hi_BR, lo_BR]
  change Instr.nop (getGuard _) (getBR _) = _
  rw [guard_BR, get_BR]

theorem Encoding.launch (g : Guard) (x : BR) : Encoding.Statement (.launch g x) := fun _ => by
  unfold encode decodeFields
  simp only
  rw [hi_BR, lo_BR]
  change Instr.launch (getGuard _) (getBR _) = _
  rw [guard_BR, get_BR]

theorem Encoding.barinit (g : Guard) (x : SY) : Encoding.Statement (.barinit g x) := fun _ => by
  unfold encode decodeFields
  simp only
  rw [hi_SY, lo_SY]
  change Instr.barinit (getGuard _) (getSY _) = _
  rw [guard_SY, get_SY]

theorem Encoding.bararr (g : Guard) (x : SY) : Encoding.Statement (.bararr g x) := fun w => by
  have w : (!(Machine.formBararr x).badField && !(Machine.formBararr x).badValue) = true := w
  have h0 : x.sub = 0 := by
    simp [Machine.formBararr] at w
    simp_all
  unfold encode
  rw [dec_D1 _ (by rw [hi_SY]; rfl) (by rw [lo_SY]; rfl), sub_SY, h0, guard_SY, get_SY]
  rfl

theorem Encoding.barexp (g : Guard) (x : SY) : Encoding.Statement (.barexp g x) := fun w => by
  have w : (!(Machine.formBarexp x).badField && !(Machine.formBarexp x).badValue) = true := w
  have h0 : x.sub = 1 := by
    simp [Machine.formBarexp] at w
    simp_all
  unfold encode
  rw [dec_D1 _ (by rw [hi_SY]; rfl) (by rw [lo_SY]; rfl), sub_SY, h0, guard_SY, get_SY]
  rfl

theorem Encoding.waitPh (g : Guard) (x : SY) : Encoding.Statement (.waitPh g x) := fun w => by
  have w : (!(Machine.formWaitPh x).badField && !(Machine.formWaitPh x).badValue) = true := w
  have h0 : x.sub = 0 := by
    simp [Machine.formWaitPh] at w
    simp_all
  unfold encode
  rw [dec_D2 _ (by rw [hi_SY]; rfl) (by rw [lo_SY]; rfl), sub_SY, h0, guard_SY, get_SY]
  rfl

theorem Encoding.waitM (g : Guard) (x : SY) : Encoding.Statement (.waitM g x) := fun w => by
  have w : (!(Machine.formWaitM x).badField && !(Machine.formWaitM x).badValue) = true := w
  have h0 : x.sub = 1 := by
    simp [Machine.formWaitM] at w
    simp_all
  unfold encode
  rw [dec_D2 _ (by rw [hi_SY]; rfl) (by rw [lo_SY]; rfl), sub_SY, h0, guard_SY, get_SY]
  rfl

theorem Encoding.trigger (g : Guard) (x : SY) : Encoding.Statement (.trigger g x) := fun w => by
  have w : (!(Machine.formEmptySY x 0).badField && !(Machine.formEmptySY x 0).badValue) = true := w
  have h0 : x.sub = 0 := by
    simp [Machine.formEmptySY] at w
    simp_all
  unfold encode
  rw [dec_D3 _ (by rw [hi_SY]; rfl) (by rw [lo_SY]; rfl), sub_SY, h0, guard_SY, get_SY]
  rfl

theorem Encoding.gridwait (g : Guard) (x : SY) : Encoding.Statement (.gridwait g x) := fun w => by
  have w : (!(Machine.formEmptySY x 1).badField && !(Machine.formEmptySY x 1).badValue) = true := w
  have h0 : x.sub = 1 := by
    simp [Machine.formEmptySY] at w
    simp_all
  unfold encode
  rw [dec_D3 _ (by rw [hi_SY]; rfl) (by rw [lo_SY]; rfl), sub_SY, h0, guard_SY, get_SY]
  rfl

theorem Encoding.rsvclr (g : Guard) (x : RT) : Encoding.Statement (.rsvclr g x) := fun _ => by
  unfold encode decodeFields
  simp only
  rw [hi_RT, lo_RT]
  change Instr.rsvclr (getGuard _) (getRT _) = _
  rw [guard_RT, get_RT]

theorem Encoding.rsvupd (g : Guard) (x : RT) : Encoding.Statement (.rsvupd g x) := fun _ => by
  unfold encode decodeFields
  simp only
  rw [hi_RT, lo_RT]
  change Instr.rsvupd (getGuard _) (getRT _) = _
  rw [guard_RT, get_RT]

theorem Encoding.rsvmrg (g : Guard) (x : RT) : Encoding.Statement (.rsvmrg g x) := fun _ => by
  unfold encode decodeFields
  simp only
  rw [hi_RT, lo_RT]
  change Instr.rsvmrg (getGuard _) (getRT _) = _
  rw [guard_RT, get_RT]

theorem Encoding.rsvcap (g : Guard) (x : RT) : Encoding.Statement (.rsvcap g x) := fun w => by
  have w : (!(Machine.formRsvcap x false).badField && !(Machine.formRsvcap x false).badValue) = true := w
  have h0 : x.rtimm.getLsbD 13 = false := by
    simp [Machine.formRsvcap, Machine.formRT] at w
    simp_all
  unfold encode
  rw [dec_DB _ (by rw [hi_RT]; rfl) (by rw [lo_RT]; rfl), rtimm13_RT, h0, guard_RT, get_RT]
  rfl

theorem Encoding.rsvcapI (g : Guard) (x : RT) : Encoding.Statement (.rsvcapI g x) := fun w => by
  have w : (!(Machine.formRsvcap x true).badField && !(Machine.formRsvcap x true).badValue) = true := w
  have h0 : x.rtimm.getLsbD 13 = true := by
    simp [Machine.formRsvcap, Machine.formRT] at w
    simp_all
  unfold encode
  rw [dec_DB _ (by rw [hi_RT]; rfl) (by rw [lo_RT]; rfl), rtimm13_RT, h0, guard_RT, get_RT]
  rfl

theorem Encoding.rsvfin (g : Guard) (x : RT) : Encoding.Statement (.rsvfin g x) := fun _ => by
  unfold encode decodeFields
  simp only
  rw [hi_RT, lo_RT]
  change Instr.rsvfin (getGuard _) (getRT _) = _
  rw [guard_RT, get_RT]

theorem Encoding.rsvld (g : Guard) (x : RT) : Encoding.Statement (.rsvld g x) := fun w => by
  have w : (!(Machine.formRsvMem x 0 false).badField && !(Machine.formRsvMem x 0 false).badValue) = true := w
  have h0 : x.qs = 0 := by
    simp [Machine.formRsvMem] at w
    simp_all
  have h1 : x.sub = 0 := by
    simp [Machine.formRsvMem] at w
    simp_all
  unfold encode
  rw [dec_DD _ (by rw [hi_RT]; rfl) (by rw [lo_RT]; rfl), sub_RT, qs_RT, h0, h1, guard_RT, get_RT]
  rfl

theorem Encoding.rsvldS (g : Guard) (x : RT) : Encoding.Statement (.rsvldS g x) := fun w => by
  have w : (!(Machine.formRsvMem x 1 false).badField && !(Machine.formRsvMem x 1 false).badValue) = true := w
  have h0 : x.qs = 1 := by
    simp [Machine.formRsvMem] at w
    simp_all
  have h1 : x.sub = 0 := by
    simp [Machine.formRsvMem] at w
    simp_all
  unfold encode
  rw [dec_DD _ (by rw [hi_RT]; rfl) (by rw [lo_RT]; rfl), sub_RT, qs_RT, h0, h1, guard_RT, get_RT]
  rfl

theorem Encoding.rsvldX (g : Guard) (x : RT) : Encoding.Statement (.rsvldX g x) := fun w => by
  have w : (!(Machine.formRsvMem x 2 false).badField && !(Machine.formRsvMem x 2 false).badValue) = true := w
  have h0 : x.qs = 2 := by
    simp [Machine.formRsvMem] at w
    simp_all
  have h1 : x.sub = 0 := by
    simp [Machine.formRsvMem] at w
    simp_all
  unfold encode
  rw [dec_DD _ (by rw [hi_RT]; rfl) (by rw [lo_RT]; rfl), sub_RT, qs_RT, h0, h1, guard_RT, get_RT]
  rfl

theorem Encoding.rsvst (g : Guard) (x : RT) : Encoding.Statement (.rsvst g x) := fun w => by
  have w : (!(Machine.formRsvMem x 0 true).badField && !(Machine.formRsvMem x 0 true).badValue) = true := w
  have h0 : x.qs = 0 := by
    simp [Machine.formRsvMem] at w
    simp_all
  have h1 : x.sub = 1 := by
    simp [Machine.formRsvMem] at w
    simp_all
  unfold encode
  rw [dec_DD _ (by rw [hi_RT]; rfl) (by rw [lo_RT]; rfl), sub_RT, qs_RT, h0, h1, guard_RT, get_RT]
  rfl

theorem Encoding.rsvstS (g : Guard) (x : RT) : Encoding.Statement (.rsvstS g x) := fun w => by
  have w : (!(Machine.formRsvMem x 1 true).badField && !(Machine.formRsvMem x 1 true).badValue) = true := w
  have h0 : x.qs = 1 := by
    simp [Machine.formRsvMem] at w
    simp_all
  have h1 : x.sub = 1 := by
    simp [Machine.formRsvMem] at w
    simp_all
  unfold encode
  rw [dec_DD _ (by rw [hi_RT]; rfl) (by rw [lo_RT]; rfl), sub_RT, qs_RT, h0, h1, guard_RT, get_RT]
  rfl

theorem Encoding.rsvdraw (g : Guard) (x : RT) : Encoding.Statement (.rsvdraw g x) := fun _ => by
  unfold encode decodeFields
  simp only
  rw [hi_RT, lo_RT]
  change Instr.rsvdraw (getGuard _) (getRT _) = _
  rw [guard_RT, get_RT]

theorem Encoding.tagnew (g : Guard) (x : RT) : Encoding.Statement (.tagnew g x) := fun w => by
  have w : (!(Machine.formTag x 0 false (Machine.badRT x false false true false false false 1) (x.rtimm.getLsbD 0) [Machine.vdst x.va]).badField && !(Machine.formTag x 0 false (Machine.badRT x false false true false false false 1) (x.rtimm.getLsbD 0) [Machine.vdst x.va]).badValue) = true := w
  have h0 : x.sub = 0 := by
    simp [Machine.formTag] at w
    simp_all
  have h1 : x.rtimm.getLsbD 0 = false := by
    simp [Machine.formTag] at w
    simp_all
  unfold encode
  rw [dec_DF _ (by rw [hi_RT]; rfl) (by rw [lo_RT]; rfl), sub_RT, rtimm0_RT, h0, h1, guard_RT, get_RT]
  rfl

theorem Encoding.tagnewTry (g : Guard) (x : RT) : Encoding.Statement (.tagnewTry g x) := fun w => by
  have w : (!(Machine.formTag x 0 false (Machine.badRT x false false true false false true 1) (!x.rtimm.getLsbD 0) [Machine.vdst x.va]).badField && !(Machine.formTag x 0 false (Machine.badRT x false false true false false true 1) (!x.rtimm.getLsbD 0) [Machine.vdst x.va]).badValue) = true := w
  have h0 : x.sub = 0 := by
    simp [Machine.formTag] at w
    simp_all
  have h1 : x.rtimm.getLsbD 0 = true := by
    simp [Machine.formTag] at w
    simp_all
  unfold encode
  rw [dec_DF _ (by rw [hi_RT]; rfl) (by rw [lo_RT]; rfl), sub_RT, rtimm0_RT, h0, h1, guard_RT, get_RT]
  rfl

theorem Encoding.tagret (g : Guard) (x : RT) : Encoding.Statement (.tagret g x) := fun w => by
  have w : (!(Machine.formTag x 1 false (Machine.badRT x false false true false false true 0) false [Machine.vsrc x.va]).badField && !(Machine.formTag x 1 false (Machine.badRT x false false true false false true 0) false [Machine.vsrc x.va]).badValue) = true := w
  have h0 : x.sub = 1 := by
    simp [Machine.formTag] at w
    simp_all
  unfold encode
  rw [dec_DF _ (by rw [hi_RT]; rfl) (by rw [lo_RT]; rfl), sub_RT, h0, guard_RT, get_RT]
  rfl

theorem Encoding.tagset (g : Guard) (x : RT) : Encoding.Statement (.tagset g x) := fun w => by
  have w : (!(Machine.formTag x 2 false (Machine.badRT x false false true false false false 0) false [Machine.vsrc x.va]).badField && !(Machine.formTag x 2 false (Machine.badRT x false false true false false false 0) false [Machine.vsrc x.va]).badValue) = true := w
  have h0 : x.sub = 2 := by
    simp [Machine.formTag] at w
    simp_all
  unfold encode
  rw [dec_DF _ (by rw [hi_RT]; rfl) (by rw [lo_RT]; rfl), sub_RT, h0, guard_RT, get_RT]
  rfl

theorem Encoding.tagget (g : Guard) (x : RT) : Encoding.Statement (.tagget g x) := fun w => by
  have w : (!(Machine.formTag x 3 false (Machine.badRT x false false true false false false 1) (x.rtimm.getLsbD 0) [Machine.vdst x.va]).badField && !(Machine.formTag x 3 false (Machine.badRT x false false true false false false 1) (x.rtimm.getLsbD 0) [Machine.vdst x.va]).badValue) = true := w
  have h0 : x.sub = 3 := by
    simp [Machine.formTag] at w
    simp_all
  have h1 : x.rtimm.getLsbD 0 = false := by
    simp [Machine.formTag] at w
    simp_all
  unfold encode
  rw [dec_DF _ (by rw [hi_RT]; rfl) (by rw [lo_RT]; rfl), sub_RT, rtimm0_RT, h0, h1, guard_RT, get_RT]
  rfl

theorem Encoding.taggetInfo (g : Guard) (x : RT) : Encoding.Statement (.taggetInfo g x) := fun w => by
  have w : (!(Machine.formTag x 3 false (Machine.badRT x false false true true false false 1) (!x.rtimm.getLsbD 0) [Machine.vdst x.va, Machine.vsrc x.vb]).badField && !(Machine.formTag x 3 false (Machine.badRT x false false true true false false 1) (!x.rtimm.getLsbD 0) [Machine.vdst x.va, Machine.vsrc x.vb]).badValue) = true := w
  have h0 : x.sub = 3 := by
    simp [Machine.formTag] at w
    simp_all
  have h1 : x.rtimm.getLsbD 0 = true := by
    simp [Machine.formTag] at w
    simp_all
  unfold encode
  rw [dec_DF _ (by rw [hi_RT]; rfl) (by rw [lo_RT]; rfl), sub_RT, rtimm0_RT, h0, h1, guard_RT, get_RT]
  rfl

theorem Encoding.tagpub (g : Guard) (x : RT) : Encoding.Statement (.tagpub g x) := fun w => by
  have w : (!(Machine.formTag x 4 true (Machine.badRT x false false true false false false 0) false [Machine.vsrc x.va]).badField && !(Machine.formTag x 4 true (Machine.badRT x false false true false false false 0) false [Machine.vsrc x.va]).badValue) = true := w
  have h0 : x.sub = 4 := by
    simp [Machine.formTag] at w
    simp_all
  unfold encode
  rw [dec_DF _ (by rw [hi_RT]; rfl) (by rw [lo_RT]; rfl), sub_RT, h0, guard_RT, get_RT]
  rfl

theorem Encoding.trace (g : Guard) (x : GX) : Encoding.Statement (.trace g x) := fun w => by
  have w : (!(Machine.formTrace x).badField && !(Machine.formTrace x).badValue) = true := w
  have h0 : x.gxopx >>> 16 = 0 := by
    simp [Machine.formTrace] at w
    simp_all
  have h1 : x.gxopx.extractLsb' 16 2 = 0 := by
    exact high2 _ _ h0
  unfold encode
  rw [dec_E0 _ (by rw [hi_GX]; rfl) (by rw [lo_GX]; rfl), cont_GX, h1, guard_GX, get_GX]
  rfl

theorem Encoding.traceRej (g : Guard) (x : GX) : Encoding.Statement (.traceRej g x) := fun w => by
  have w : (!(Machine.formTraceCont x 1).badField && !(Machine.formTraceCont x 1).badValue) = true := w
  have h0 : x.gxopx >>> 16 = 1 := by
    simp [Machine.formTraceCont] at w
    simp_all
  have h1 : x.gxopx.extractLsb' 16 2 = 1 := by
    exact high2 _ _ h0
  unfold encode
  rw [dec_E0 _ (by rw [hi_GX]; rfl) (by rw [lo_GX]; rfl), cont_GX, h1, guard_GX, get_GX]
  rfl

theorem Encoding.traceAcc (g : Guard) (x : GX) : Encoding.Statement (.traceAcc g x) := fun w => by
  have w : (!(Machine.formTraceCont x 2).badField && !(Machine.formTraceCont x 2).badValue) = true := w
  have h0 : x.gxopx >>> 16 = 2 := by
    simp [Machine.formTraceCont] at w
    simp_all
  have h1 : x.gxopx.extractLsb' 16 2 = 2 := by
    exact high2 _ _ h0
  unfold encode
  rw [dec_E0 _ (by rw [hi_GX]; rfl) (by rw [lo_GX]; rfl), cont_GX, h1, guard_GX, get_GX]
  rfl

theorem Encoding.hret (g : Guard) (x : GX) : Encoding.Statement (.hret g x) := fun _ => by
  unfold encode decodeFields
  simp only
  rw [hi_GX, lo_GX]
  change Instr.hret (getGuard _) (getGX _) = _
  rw [guard_GX, get_GX]

theorem Encoding.traq (g : Guard) (x : GX) : Encoding.Statement (.traq g x) := fun _ => by
  unfold encode decodeFields
  simp only
  rw [hi_GX, lo_GX]
  change Instr.traq (getGuard _) (getGX _) = _
  rw [guard_GX, get_GX]

theorem Encoding.rast (g : Guard) (x : GX) : Encoding.Statement (.rast g x) := fun _ => by
  unfold encode decodeFields
  simp only
  rw [hi_GX, lo_GX]
  change Instr.rast (getGuard _) (getGX _) = _
  rw [guard_GX, get_GX]

theorem Encoding.tex (g : Guard) (x : GX) : Encoding.Statement (.tex g x) := fun _ => by
  unfold encode decodeFields
  simp only
  rw [hi_GX, lo_GX]
  change Instr.tex (getGuard _) (getGX _) = _
  rw [guard_GX, get_GX]

theorem Encoding.texl (g : Guard) (x : GX) : Encoding.Statement (.texl g x) := fun _ => by
  unfold encode decodeFields
  simp only
  rw [hi_GX, lo_GX]
  change Instr.texl (getGuard _) (getGX _) = _
  rw [guard_GX, get_GX]

theorem Encoding.texg (g : Guard) (x : GX) : Encoding.Statement (.texg g x) := fun _ => by
  unfold encode decodeFields
  simp only
  rw [hi_GX, lo_GX]
  change Instr.texg (getGuard _) (getGX _) = _
  rw [guard_GX, get_GX]

theorem Encoding.texres (g : Guard) (x : GX) : Encoding.Statement (.texres g x) := fun _ => by
  unfold encode decodeFields
  simp only
  rw [hi_GX, lo_GX]
  change Instr.texres (getGuard _) (getGX _) = _
  rw [guard_GX, get_GX]

theorem Encoding.texfb (g : Guard) (x : GX) : Encoding.Statement (.texfb g x) := fun _ => by
  unfold encode decodeFields
  simp only
  rw [hi_GX, lo_GX]
  change Instr.texfb (getGuard _) (getGX _) = _
  rw [guard_GX, get_GX]

theorem Encoding.blend (g : Guard) (x : GX) : Encoding.Statement (.blend g x) := fun _ => by
  unfold encode decodeFields
  simp only
  rw [hi_GX, lo_GX]
  change Instr.blend (getGuard _) (getGX _) = _
  rw [guard_GX, get_GX]

theorem Encoding.rqpush (g : Guard) (x : GX) : Encoding.Statement (.rqpush g x) := fun _ => by
  unfold encode decodeFields
  simp only
  rw [hi_GX, lo_GX]
  change Instr.rqpush (getGuard _) (getGX _) = _
  rw [guard_GX, get_GX]

theorem Encoding.rqpop (g : Guard) (x : GX) : Encoding.Statement (.rqpop g x) := fun _ => by
  unfold encode decodeFields
  simp only
  rw [hi_GX, lo_GX]
  change Instr.rqpop (getGuard _) (getGX _) = _
  rw [guard_GX, get_GX]

theorem Encoding.trapI (g : Guard) (x : SYS) : Encoding.Statement (.trapI g x) := fun _ => by
  unfold encode decodeFields
  simp only
  rw [hi_SYS, lo_SYS]
  change Instr.trapI (getGuard _) (getSYS _) = _
  rw [guard_SYS, get_SYS]

theorem Encoding.brk (g : Guard) (x : SYS) : Encoding.Statement (.brk g x) := fun _ => by
  unfold encode decodeFields
  simp only
  rw [hi_SYS, lo_SYS]
  change Instr.brk (getGuard _) (getSYS _) = _
  rw [guard_SYS, get_SYS]

theorem Encoding.tretRetry (g : Guard) (x : SYS) : Encoding.Statement (.tretRetry g x) := fun w => by
  have w : (!(Machine.formTret x 0).badField && !(Machine.formTret x 0).badValue) = true := w
  have h0 : x.sysopx &&& 3 = 0 := by
    simp [Machine.formTret] at w
    simp_all
  have h1 : x.sysopx.extractLsb' 0 2 = 0 := by
    exact sys2 _ _ h0
  unfold encode
  rw [dec_F2 _ (by rw [hi_SYS]; rfl) (by rw [lo_SYS]; rfl), sysopx_SYS, h1, guard_SYS, get_SYS]
  rfl

theorem Encoding.tretSkip (g : Guard) (x : SYS) : Encoding.Statement (.tretSkip g x) := fun w => by
  have w : (!(Machine.formTret x 1).badField && !(Machine.formTret x 1).badValue) = true := w
  have h0 : x.sysopx &&& 3 = 1 := by
    simp [Machine.formTret] at w
    simp_all
  have h1 : x.sysopx.extractLsb' 0 2 = 1 := by
    exact sys2 _ _ h0
  unfold encode
  rw [dec_F2 _ (by rw [hi_SYS]; rfl) (by rw [lo_SYS]; rfl), sysopx_SYS, h1, guard_SYS, get_SYS]
  rfl

theorem Encoding.tretKillf (g : Guard) (x : SYS) : Encoding.Statement (.tretKillf g x) := fun w => by
  have w : (!(Machine.formTret x 2).badField && !(Machine.formTret x 2).badValue) = true := w
  have h0 : x.sysopx &&& 3 = 2 := by
    simp [Machine.formTret] at w
    simp_all
  have h1 : x.sysopx.extractLsb' 0 2 = 2 := by
    exact sys2 _ _ h0
  unfold encode
  rw [dec_F2 _ (by rw [hi_SYS]; rfl) (by rw [lo_SYS]; rfl), sysopx_SYS, h1, guard_SYS, get_SYS]
  rfl

theorem Encoding.tretKillg (g : Guard) (x : SYS) : Encoding.Statement (.tretKillg g x) := fun w => by
  have w : (!(Machine.formTret x 3).badField && !(Machine.formTret x 3).badValue) = true := w
  have h0 : x.sysopx &&& 3 = 3 := by
    simp [Machine.formTret] at w
    simp_all
  have h1 : x.sysopx.extractLsb' 0 2 = 3 := by
    exact sys2 _ _ h0
  unfold encode
  rw [dec_F2 _ (by rw [hi_SYS]; rfl) (by rw [lo_SYS]; rfl), sysopx_SYS, h1, guard_SYS, get_SYS]
  rfl

theorem Encoding.capinv (g : Guard) (x : SYS) : Encoding.Statement (.capinv g x) := fun _ => by
  unfold encode decodeFields
  simp only
  rw [hi_SYS, lo_SYS]
  change Instr.capinv (getGuard _) (getSYS _) = _
  rw [guard_SYS, get_SYS]

theorem Encoding.upcall (g : Guard) (x : SYS) : Encoding.Statement (.upcall g x) := fun _ => by
  unfold encode decodeFields
  simp only
  rw [hi_SYS, lo_SYS]
  change Instr.upcall (getGuard _) (getSYS _) = _
  rw [guard_SYS, get_SYS]

theorem Encoding.rdctr (g : Guard) (x : SYS) : Encoding.Statement (.rdctr g x) := fun _ => by
  unfold encode decodeFields
  simp only
  rw [hi_SYS, lo_SYS]
  change Instr.rdctr (getGuard _) (getSYS _) = _
  rw [guard_SYS, get_SYS]

theorem Encoding.unassignedOpcode (v : BitVec 64) : Encoding.Statement (.unassignedOpcode v) := fun w => by
  exact decodeFields_unassigned v (by simpa [Instr.WellFormed, Instr.wf] using w)

theorem Encoding.waveChoice (wave : Nat) : Encoding.Statement (.waveChoice wave) := Encoding.of_not rfl
theorem Encoding.clauseFetch (wave : Nat) : Encoding.Statement (.clauseFetch wave) := Encoding.of_not rfl
theorem Encoding.clauseStart (wave : Nat) : Encoding.Statement (.clauseStart wave) := Encoding.of_not rfl
theorem Encoding.gangAbortFibreEnd (wave : Nat) (slot : Nat) : Encoding.Statement (.gangAbortFibreEnd wave slot) := Encoding.of_not rfl
theorem Encoding.sparsityTrap (wave : Nat) (slot : Nat) : Encoding.Statement (.sparsityTrap wave slot) := Encoding.of_not rfl
theorem Encoding.waveEnd (wave : Nat) : Encoding.Statement (.waveEnd wave) := Encoding.of_not rfl
theorem Encoding.gangRetire (launch : Nat) (gang : Nat) : Encoding.Statement (.gangRetire launch gang) := Encoding.of_not rfl
theorem Encoding.gridComplete (launch : Nat) : Encoding.Statement (.gridComplete launch) := Encoding.of_not rfl
theorem Encoding.completionRecordWrite (launch : Nat) : Encoding.Statement (.completionRecordWrite launch) := Encoding.of_not rfl
theorem Encoding.loadComplete (op : Nat) : Encoding.Statement (.loadComplete op) := Encoding.of_not rfl
theorem Encoding.storeComplete (op : Nat) : Encoding.Statement (.storeComplete op) := Encoding.of_not rfl
theorem Encoding.siltReplay (core : Nat) (entry : Nat) : Encoding.Statement (.siltReplay core entry) := Encoding.of_not rfl
theorem Encoding.pageWalk (core : Nat) (ctx : Nat) (va : Nat) (acc : WalkAcc) : Encoding.Statement (.pageWalk core ctx va acc) := Encoding.of_not rfl
theorem Encoding.demandReport : Encoding.Statement (.demandReport) := Encoding.of_not rfl
theorem Encoding.cellMaterialise (ctx : Nat) (vpn : Nat) (tag : Nat) : Encoding.Statement (.cellMaterialise ctx vpn tag) := Encoding.of_not rfl
theorem Encoding.tagRetireComplete (ctx : Nat) (tag : Nat) : Encoding.Statement (.tagRetireComplete ctx tag) := Encoding.of_not rfl
theorem Encoding.tagpubPage (op : Nat) (vpn : Nat) : Encoding.Statement (.tagpubPage op vpn) := Encoding.of_not rfl
theorem Encoding.multicastRequest (op : Nat) (line : Nat) : Encoding.Statement (.multicastRequest op line) := Encoding.of_not rfl
theorem Encoding.multicastWindowClose (win : Nat) : Encoding.Statement (.multicastWindowClose win) := Encoding.of_not rfl
theorem Encoding.windowLineFill (launch : Nat) (gang : Nat) (win : Nat) (line : Nat) : Encoding.Statement (.windowLineFill launch gang win line) := Encoding.of_not rfl
theorem Encoding.fenceComplete (wave : Nat) (slot : Nat) : Encoding.Statement (.fenceComplete wave slot) := Encoding.of_not rfl
theorem Encoding.waitMReread (wave : Nat) (slot : Nat) : Encoding.Statement (.waitMReread wave slot) := Encoding.of_not rfl
theorem Encoding.waitMTimeout (wave : Nat) (slot : Nat) : Encoding.Statement (.waitMTimeout wave slot) := Encoding.of_not rfl
theorem Encoding.mxeQueueAdmit (cluster : Nat) : Encoding.Statement (.mxeQueueAdmit cluster) := Encoding.of_not rfl
theorem Encoding.mxeGrant (cluster : Nat) (res : Nat) : Encoding.Statement (.mxeGrant cluster res) := Encoding.of_not rfl
theorem Encoding.mxePassCommit (cluster : Nat) (entry : Nat) : Encoding.Statement (.mxePassCommit cluster entry) := Encoding.of_not rfl
theorem Encoding.mlatchService (cluster : Nat) (entry : Nat) : Encoding.Statement (.mlatchService cluster entry) := Encoding.of_not rfl
theorem Encoding.drainComplete (cluster : Nat) (entry : Nat) : Encoding.Statement (.drainComplete cluster entry) := Encoding.of_not rfl
theorem Encoding.copyLineWrite (op : Nat) (line : Nat) : Encoding.Statement (.copyLineWrite op line) := Encoding.of_not rfl
theorem Encoding.collectivePerform (ctx : Nat) (group : Nat) (seq : Nat) : Encoding.Statement (.collectivePerform ctx group seq) := Encoding.of_not rfl
theorem Encoding.capinvComplete (req : Nat) : Encoding.Statement (.capinvComplete req) := Encoding.of_not rfl
theorem Encoding.allocationMap (req : Nat) (frames : List Nat) : Encoding.Statement (.allocationMap req frames) := Encoding.of_not rfl
theorem Encoding.allocationUnmap (req : Nat) : Encoding.Statement (.allocationUnmap req) := Encoding.of_not rfl
theorem Encoding.storageRead (req : Nat) : Encoding.Statement (.storageRead req) := Encoding.of_not rfl
theorem Encoding.storageWrite (req : Nat) : Encoding.Statement (.storageWrite req) := Encoding.of_not rfl
theorem Encoding.storageFlush (req : Nat) : Encoding.Statement (.storageFlush req) := Encoding.of_not rfl
theorem Encoding.queueCreate (req : Nat) : Encoding.Statement (.queueCreate req) := Encoding.of_not rfl
theorem Encoding.queueDestroy (req : Nat) : Encoding.Statement (.queueDestroy req) := Encoding.of_not rfl
theorem Encoding.nvmeCompletion (req : Nat) (status : BitVec 32) (blocks : BitVec 32) (data : List (BitVec 8)) : Encoding.Statement (.nvmeCompletion req status blocks data) := Encoding.of_not rfl
theorem Encoding.traceComplete (op : Nat) : Encoding.Statement (.traceComplete op) := Encoding.of_not rfl
theorem Encoding.rastComplete (op : Nat) : Encoding.Statement (.rastComplete op) := Encoding.of_not rfl
theorem Encoding.textureSampleComplete (op : Nat) : Encoding.Statement (.textureSampleComplete op) := Encoding.of_not rfl
theorem Encoding.fragmentQueue (op : Nat) : Encoding.Statement (.fragmentQueue op) := Encoding.of_not rfl
theorem Encoding.fragmentApply (oslot : Nat) (tile : Nat) : Encoding.Statement (.fragmentApply oslot tile) := Encoding.of_not rfl
theorem Encoding.tileEvict (oslot : Nat) (tile : Nat) : Encoding.Statement (.tileEvict oslot tile) := Encoding.of_not rfl
theorem Encoding.rqPush (k : Nat) (q : Nat) : Encoding.Statement (.rqPush k q) := Encoding.of_not rfl
theorem Encoding.rqPop (k : Nat) (q : Nat) : Encoding.Statement (.rqPop k q) := Encoding.of_not rfl
theorem Encoding.roRegister (k : Nat) (v : BitVec 64) : Encoding.Statement (.roRegister k v) := Encoding.of_not rfl
theorem Encoding.roOpenGroup (k : Nat) (v : BitVec 64) : Encoding.Statement (.roOpenGroup k v) := Encoding.of_not rfl
theorem Encoding.roCloseGroup (k : Nat) (v : BitVec 64) : Encoding.Statement (.roCloseGroup k v) := Encoding.of_not rfl
theorem Encoding.roFlush (k : Nat) (v : BitVec 64) : Encoding.Statement (.roFlush k v) := Encoding.of_not rfl
theorem Encoding.roRelease (k : Nat) (v : BitVec 64) : Encoding.Statement (.roRelease k v) := Encoding.of_not rfl
theorem Encoding.txFence (v : BitVec 64) : Encoding.Statement (.txFence v) := Encoding.of_not rfl
theorem Encoding.xlInvPage (k : Nat) (v : BitVec 64) : Encoding.Statement (.xlInvPage k v) := Encoding.of_not rfl
theorem Encoding.xlInvContext (k : Nat) (v : BitVec 64) : Encoding.Statement (.xlInvContext k v) := Encoding.of_not rfl
theorem Encoding.xlInvRegion (k : Nat) (v : BitVec 64) : Encoding.Statement (.xlInvRegion k v) := Encoding.of_not rfl
theorem Encoding.xlInvAll (k : Nat) (v : BitVec 64) : Encoding.Statement (.xlInvAll k v) := Encoding.of_not rfl
theorem Encoding.xlDoneMapped (k : Nat) (v : BitVec 64) : Encoding.Statement (.xlDoneMapped k v) := Encoding.of_not rfl
theorem Encoding.xlDoneUnbacked (k : Nat) (v : BitVec 64) : Encoding.Statement (.xlDoneUnbacked k v) := Encoding.of_not rfl
theorem Encoding.xlDonePoolRefilled (k : Nat) (v : BitVec 64) : Encoding.Statement (.xlDonePoolRefilled k v) := Encoding.of_not rfl
theorem Encoding.xlCmdGrowCellTable (k : Nat) (v : BitVec 64) : Encoding.Statement (.xlCmdGrowCellTable k v) := Encoding.of_not rfl
theorem Encoding.lqTailWrite (q : Nat) (v : BitVec 64) : Encoding.Statement (.lqTailWrite q v) := Encoding.of_not rfl
theorem Encoding.lqCfgWrite (q : Nat) (v : BitVec 64) : Encoding.Statement (.lqCfgWrite q v) := Encoding.of_not rfl
theorem Encoding.lqErrWrite (q : Nat) (v : BitVec 64) : Encoding.Statement (.lqErrWrite q v) := Encoding.of_not rfl
theorem Encoding.launchAccept : Encoding.Statement (.launchAccept) := Encoding.of_not rfl
theorem Encoding.gangPlacementStep : Encoding.Statement (.gangPlacementStep) := Encoding.of_not rfl
theorem Encoding.gangSaveComplete (launch : Nat) (gang : Nat) : Encoding.Statement (.gangSaveComplete launch gang) := Encoding.of_not rfl
theorem Encoding.restoreComplete (launch : Nat) (gang : Nat) : Encoding.Statement (.restoreComplete launch gang) := Encoding.of_not rfl
theorem Encoding.governorSample (temps : List Nat) (power : Nat) : Encoding.Statement (.governorSample temps power) := Encoding.of_not rfl
theorem Encoding.dpCreateContext (k : Nat) (v : BitVec 64) : Encoding.Statement (.dpCreateContext k v) := Encoding.of_not rfl
theorem Encoding.dpDestroyContext (k : Nat) (v : BitVec 64) : Encoding.Statement (.dpDestroyContext k v) := Encoding.of_not rfl
theorem Encoding.dpSaveGang (k : Nat) (v : BitVec 64) : Encoding.Statement (.dpSaveGang k v) := Encoding.of_not rfl
theorem Encoding.dpReleaseGang (k : Nat) (v : BitVec 64) : Encoding.Statement (.dpReleaseGang k v) := Encoding.of_not rfl
theorem Encoding.dpKillLaunch (k : Nat) (v : BitVec 64) : Encoding.Statement (.dpKillLaunch k v) := Encoding.of_not rfl
theorem Encoding.dpBindPage (k : Nat) (v : BitVec 64) : Encoding.Statement (.dpBindPage k v) := Encoding.of_not rfl
theorem Encoding.submissionWrite (page : Nat) (data : List (BitVec 8)) : Encoding.Statement (.submissionWrite page data) := Encoding.of_not rfl
theorem Encoding.submissionPageDiscard (page : Nat) : Encoding.Statement (.submissionPageDiscard page) := Encoding.of_not rfl
theorem Encoding.hostBar4Read (at' : HostAddr) (len : Nat) : Encoding.Statement (.hostBar4Read at' len) := Encoding.of_not rfl
theorem Encoding.hostBar4Write (addr : Nat) (data : List (BitVec 8)) : Encoding.Statement (.hostBar4Write addr data) := Encoding.of_not rfl
theorem Encoding.supervisorEvent : Encoding.Statement (.supervisorEvent) := Encoding.of_not rfl
theorem Encoding.upcallMessagePost (ctx : Nat) : Encoding.Statement (.upcallMessagePost ctx) := Encoding.of_not rfl
theorem Encoding.upCmdResume (k : Nat) (v : BitVec 64) : Encoding.Statement (.upCmdResume k v) := Encoding.of_not rfl
theorem Encoding.smCtlWrite (core : Nat) (v : BitVec 64) : Encoding.Statement (.smCtlWrite core v) := Encoding.of_not rfl
theorem Encoding.sample (core : Nat) : Encoding.Statement (.sample core) := Encoding.of_not rfl
theorem Encoding.energyIntervalEnd (meter : Meter) (energy : Nat) : Encoding.Statement (.energyIntervalEnd meter energy) := Encoding.of_not rfl
theorem Encoding.debugEvent (d : Nat) : Encoding.Statement (.debugEvent d) := Encoding.of_not rfl
theorem Encoding.dbResume (d : Nat) (v : BitVec 64) : Encoding.Statement (.dbResume d v) := Encoding.of_not rfl
theorem Encoding.dbDump (d : Nat) (v : BitVec 64) : Encoding.Statement (.dbDump d v) := Encoding.of_not rfl
theorem Encoding.dbStop (d : Nat) (v : BitVec 64) : Encoding.Statement (.dbStop d v) := Encoding.of_not rfl
theorem Encoding.powerOnReset : Encoding.Statement (.powerOnReset) := Encoding.of_not rfl
theorem Encoding.powerOff : Encoding.Statement (.powerOff) := Encoding.of_not rfl
theorem Encoding.patrolScrub (pa : Nat) : Encoding.Statement (.patrolScrub pa) := Encoding.of_not rfl
theorem Encoding.laneSpare (port : Nat) : Encoding.Statement (.laneSpare port) := Encoding.of_not rfl
theorem Encoding.clusterFailure (stack : Nat) (cluster : Nat) : Encoding.Statement (.clusterFailure stack cluster) := Encoding.of_not rfl
theorem Encoding.heartbeatSend : Encoding.Statement (.heartbeatSend) := Encoding.of_not rfl
theorem Encoding.heartbeatReceive (port : Nat) (peer : Nat) (root : Bool) (serial : BitVec 32) (count : Nat) : Encoding.Statement (.heartbeatReceive port peer root serial count) := Encoding.of_not rfl
theorem Encoding.heartbeatLoss (peer : Nat) : Encoding.Statement (.heartbeatLoss peer) := Encoding.of_not rfl
theorem Encoding.fenceCommand (peer : Nat) : Encoding.Statement (.fenceCommand peer) := Encoding.of_not rfl
theorem Encoding.rootLoss : Encoding.Statement (.rootLoss) := Encoding.of_not rfl
theorem Encoding.rootLossMessage (port : Nat) (peer : Nat) : Encoding.Statement (.rootLossMessage port peer) := Encoding.of_not rfl
theorem Encoding.imageOffer (offers : List Offer) : Encoding.Statement (.imageOffer offers) := Encoding.of_not rfl
theorem Encoding.imageLoadComplete (image : List (BitVec 8)) : Encoding.Statement (.imageLoadComplete image) := Encoding.of_not rfl
theorem Encoding.imageTimeout : Encoding.Statement (.imageTimeout) := Encoding.of_not rfl
theorem Encoding.fabricRead (peer : Nat) (pa : Nat) (len : Nat) : Encoding.Statement (.fabricRead peer pa len) := Encoding.of_not rfl
theorem Encoding.fabricWrite (peer : Nat) (pa : Nat) (data : List (BitVec 8)) : Encoding.Statement (.fabricWrite peer pa data) := Encoding.of_not rfl
theorem Encoding.fabricAtomic (peer : Nat) (pa : Nat) (op : BitVec 4) (ty : BitVec 5) (x : BitVec 64) (y : BitVec 64) : Encoding.Statement (.fabricAtomic peer pa op ty x y) := Encoding.of_not rfl
theorem Encoding.getVersion : Encoding.Statement (.getVersion) := Encoding.of_not rfl
theorem Encoding.getCapabilities : Encoding.Statement (.getCapabilities) := Encoding.of_not rfl
theorem Encoding.negotiateAlgorithms (sha3 : Bool) (mldsa : Bool) : Encoding.Statement (.negotiateAlgorithms sha3 mldsa) := Encoding.of_not rfl
theorem Encoding.getDigests : Encoding.Statement (.getDigests) := Encoding.of_not rfl
theorem Encoding.getCertificate (offset : Nat) (len : Nat) : Encoding.Statement (.getCertificate offset len) := Encoding.of_not rfl
theorem Encoding.challenge (nonce : List (BitVec 8)) : Encoding.Statement (.challenge nonce) := Encoding.of_not rfl
theorem Encoding.getMeasurements (index : Nat) : Encoding.Statement (.getMeasurements index) := Encoding.of_not rfl
theorem Encoding.repairLogWrite (index : Nat) (v : BitVec 16) : Encoding.Statement (.repairLogWrite index v) := Encoding.of_not rfl
theorem Encoding.readSensors : Encoding.Statement (.readSensors) := Encoding.of_not rfl
theorem Encoding.readErrorCounters : Encoding.Statement (.readErrorCounters) := Encoding.of_not rfl
theorem Encoding.readRepairLog : Encoding.Statement (.readRepairLog) := Encoding.of_not rfl
theorem Encoding.writeConfigurationRecord (data : List (BitVec 8)) : Encoding.Statement (.writeConfigurationRecord data) := Encoding.of_not rfl
theorem Encoding.clearRepairLog : Encoding.Statement (.clearRepairLog) := Encoding.of_not rfl
theorem Encoding.deviceReset : Encoding.Statement (.deviceReset) := Encoding.of_not rfl
theorem Encoding.readIdentity : Encoding.Statement (.readIdentity) := Encoding.of_not rfl
theorem Encoding.railFault (rail : Rail) : Encoding.Statement (.railFault rail) := Encoding.of_not rfl
theorem Encoding.inputOverpower : Encoding.Statement (.inputOverpower) := Encoding.of_not rfl
theorem Encoding.coolantOvertemp : Encoding.Statement (.coolantOvertemp) := Encoding.of_not rfl
theorem Encoding.registerWrite (addr : Nat) (v : BitVec 64) : Encoding.Statement (.registerWrite addr v) := Encoding.of_not rfl
theorem Encoding.coreClock (core : Nat) : Encoding.Statement (.coreClock core) := Encoding.of_not rfl
theorem Encoding.loamMemoryAccess (k : Nat) (a : LoamAccess) : Encoding.Statement (.loamMemoryAccess k a) := Encoding.of_not rfl
theorem Encoding.uncorrectableError (e : ErrorSite) : Encoding.Statement (.uncorrectableError e) := Encoding.of_not rfl
theorem Encoding.gldComplete (op : Nat) : Encoding.Statement (.gldComplete op) := Encoding.of_not rfl
theorem Encoding.cflushComplete (op : Nat) : Encoding.Statement (.cflushComplete op) := Encoding.of_not rfl
theorem Encoding.prefComplete (op : Nat) : Encoding.Statement (.prefComplete op) := Encoding.of_not rfl
theorem Encoding.cinvComplete (op : Nat) : Encoding.Statement (.cinvComplete op) := Encoding.of_not rfl
theorem Encoding.icinvComplete (op : Nat) : Encoding.Statement (.icinvComplete op) := Encoding.of_not rfl
theorem Encoding.smapComplete (op : Nat) : Encoding.Statement (.smapComplete op) := Encoding.of_not rfl
theorem Encoding.swbComplete (op : Nat) : Encoding.Statement (.swbComplete op) := Encoding.of_not rfl
theorem Encoding.recordQueueAnswer (op : Nat) : Encoding.Statement (.recordQueueAnswer op) := Encoding.of_not rfl

end Sys2Proof.Laws
end

