-- ==== Sys2Proof/Tests/Slice0.lean ====
section
/-! SUPPORT. Checks of the model: of every statement a state that meets its hypotheses, terms and words, and the worked examples of the manual. -/

open Sys2Proof Sys2Proof.Machine

namespace Sys2Proof.Tests

set_option Elab.async false

/-! ### Readers of states, and when their answers mean what statements ask -/

/-- The site of an instruction in a state. -/
def siteOf (s : State) (i : Instr) : Option Site :=
  s.cur.bind fun k => (sget k s.waves).bind fun w => w.clause.bind fun c => (sget w.launch s.launches).bind fun l =>
    (form i).map fun f => { wk := k, w := w, c := c, l := l, f := f }

/-- The checks of `Ready`. -/
def readyB (s : State) (i : Instr) (g : Guard) (rel : Rel) (z : Site) : Bool :=
  z.c.started && !z.c.slots.isEmpty
    && (formError z.l i (bits z.c.header.toNat 16 4) (z.c.idx = z.c.words.length - 1) []).isNone
    && (formError z.l i (bits z.c.header.toNat 16 4) (z.c.idx = z.c.words.length - 1) (queueUse z.w i)).isNone
    && (holdReason s z.wk z.w z.c i g.gp (z.bundle g).act).isNone
    && !partnerHolds s z.wk z.w z.c i g z.f.ll && (debugSlot s (ctxOf s z.wk)).isNone
    && z.c.slots.all (fun x => (sget x z.w.fibres).all (fun y => (poisonCause z.w y (z.f.uses ++ queueUse z.w i)).isNone))
    && (rel == .none || (z.bundle g).act.all (fun x => (sget x z.w.fibres).all (fun y => y.deferred.isNone)))
    && (releaseHeld s z.wk rel (z.bundle g).act).isEmpty

/-- Whether the instruction is performed in a state and its site passes a check. -/
def performed (s : State) (i : Instr) (g : Guard) (rel : Rel) (ok : Site → Bool) : Bool :=
  (siteOf s i).any (fun z => readyB s i g rel z && ok z)

theorem performed_sound {s : State} {i : Instr} {g : Guard} {rel : Rel} {ok : Site → Bool} (h : performed s i g rel ok = true) :
    ∃ z, siteOf s i = some z ∧ Ready s i g rel z ∧ ok z = true := by
  rcases hz : siteOf s i with _ | z
  · simp [performed, hz] at h
  simp only [performed, hz, Option.any_some, readyB, Bool.and_eq_true] at h
  obtain ⟨⟨⟨⟨⟨⟨⟨⟨⟨⟨h1, h2⟩, h3⟩, h4⟩, h5⟩, h6⟩, h7⟩, h8⟩, h9⟩, h10⟩, ok⟩ := h
  refine ⟨z, rfl, ?_, ok⟩
  simp only [siteOf, Option.bind_eq_some_iff, Option.map_eq_some_iff] at hz
  obtain ⟨k, hk, w, hw, c, hc, l, hl, f, hf, rfl⟩ := hz
  exact
    { cur := hk, wave := hw, clause := hc, launch := hl, started := h1, form := hf
      slots := by simpa using h2
      checks := by simpa using h3
      checksQueue := by simpa using h4
      free := by simpa using h5
      partner := by simpa using h6
      debugger := by simpa using h7
      healthy := fun x hx y hy => by
        have := List.all_eq_true.1 h8 x hx
        simpa [hy] using this
      pending := fun hr x hx y hy => by
        rw [Bool.or_eq_true] at h9
        rcases h9 with h | h
        · exact absurd (by simpa using h) hr
        · simpa [hy] using List.all_eq_true.1 h x hx
      held := by simpa using h10 }

/-- The device with an instruction loaded. -/
def at_ (i : Instr) : State := loadWord State.reset (encode i)

/-- What an instruction of a list is performed for: the loaded device, and a fibre passes the guard. -/
def runs (g : Guard) (is : List Instr) : Bool := is.all (fun i => performed (at_ i) i g .none (fun z => !(z.bundle g).act.isEmpty))

theorem runs_sound {g : Guard} {is : List Instr} (h : runs g is = true) :
    ∀ i ∈ is, ∃ z, Ready (at_ i) i g .none z ∧ (z.bundle g).act ≠ [] := fun i hi => by
  obtain ⟨z, _, hr, ha⟩ := performed_sound (List.all_eq_true.1 h i hi)
  exact ⟨z, hr, by simpa using ha⟩

/-- No guard. -/
def g0 : Guard := { gp := 0, gs := 0 }

/-- Operands in registers D 8, A 2, B 4, C 6, as many as an instruction has. -/
def ra (ty : BitVec 5) (opx : BitVec 8 := 0) (d : BitVec 8 := 8) : RRR := { d := d, a := 2, b := 0, c := 0, usrc := 0, ty := ty, rnd := 0, opx := opx }
def rab (ty : BitVec 5) (opx : BitVec 8 := 0) (d : BitVec 8 := 8) : RRR := { ra ty opx d with b := 4 }
def rabc (ty : BitVec 5) (opx : BitVec 8 := 0) (d : BitVec 8 := 8) : RRR := { rab ty opx d with c := 6 }


/-- A witness for statements of one form: each instruction of the list is performed somewhere, for a fibre. -/
theorem witness_IntegerArithmeticResults :
    ∀ i ∈ ([.iadd g0 (rab 2), .isub g0 (rab 3), .imul g0 (rab 6), .imulhi g0 (rab 7), .imad g0 (rabc 2), .imadw g0 (rabc 2),
      .imin g0 (rab 3), .imax g0 (rab 6), .iabs g0 (ra 2), .ineg g0 (ra 3)] : List Instr),
      ∃ z, Ready (at_ i) i g0 .none z ∧ (z.bundle g0).act ≠ [] := runs_sound (by decide +kernel)

theorem witness_DivisionNeverTraps :
    (∀ i ∈ ([.idiv g0 (rab 2), .irem g0 (rab 7)] : List Instr), ∃ z, Ready (at_ i) i g0 .none z ∧ (z.bundle g0).act ≠ [])
    ∧ (1 : Int) ≠ 0 ∧ (2 : BitVec 5) ∈ tySigned := ⟨runs_sound (by decide +kernel), by decide, by decide⟩

theorem witness_CarryAndAddressResults :
    ∀ i ∈ ([.addc g0 { rab 6 0x11 with c := 1 }, .subb g0 (rab 7 2), .lea g0 (rab 9 3)] : List Instr),
      ∃ z, Ready (at_ i) i g0 .none z ∧ (z.bundle g0).act ≠ [] := runs_sound (by decide +kernel)

theorem witness_BitwiseResults :
    (∀ i ∈ ([.andB g0 (rab 8), .orB g0 (rab 9), .xorB g0 (rab 8), .notB g0 (ra 8), .shl g0 (rab 9), .shr g0 (rab 8), .sar g0 (rab 9),
      .rot g0 (rab 8), .popc g0 (ra 9), .clz g0 (ra 8), .brev g0 (ra 9), .bfx g0 (rab 2), .bfi g0 (rabc 8)] : List Instr),
      ∃ z, Ready (at_ i) i g0 .none z ∧ (z.bundle g0).act ≠ [])
    ∧ (8 : BitVec 5) ∈ tyBits ∧ (2 : BitVec 5) ∈ tyArith := ⟨runs_sound (by decide +kernel), by decide, by decide⟩

theorem witness_FloatArithmeticRoundedOnce :
    (∀ i ∈ ([.fadd g0 (rab 0xB), .fsub g0 (rab 0xC 2), .fmul g0 (rab 0xB), .ffma g0 (rabc 0xB), .fdiv g0 (rab 0xC), .fmin g0 (rab 0xB),
      .fmax g0 (rab 0xC 2), .dadd g0 (rab 0xA), .dmul g0 (rab 0xA), .dfma g0 (rabc 0xA), .ddiv g0 (rab 0xA), .hadd2 g0 (rab 0xC),
      .hmul2 g0 (rab 0xC), .hfma2 g0 (rabc 0xC), .bfma2 g0 (rabc 0xD)] : List Instr),
      ∃ z, Ready (at_ i) i g0 .none z ∧ (z.bundle g0).act ≠ [])
    ∧ ∀ f ∈ [fmt64, fmt32, fmt16, fmtB16, fmt8b], (f.bias : Int) < (f.bias + 1 : Int) + Nat.log2 1 := ⟨runs_sound (by decide +kernel), by decide⟩

theorem witness_FloatFunctionsAndConversions :
    (∀ i ∈ ([.frcp g0 (ra 0xB), .fsqrt g0 (ra 0xC), .frsq g0 (ra 0xB), .fex2 g0 (ra 0xB), .flg2 g0 (ra 0xB), .fsin g0 (ra 0xB), .fcos g0 (ra 0xB),
      .frnd g0 (ra 0xB), .fclass g0 (ra 0xA), .cvt g0 (ra 0xB 2), .cvt g0 (ra 0xE 0x4B), .f8pk g0 (rabc 0xE), .f8upk g0 (ra 0xF)] : List Instr),
      ∃ z, Ready (at_ i) i g0 .none z ∧ (z.bundle g0).act ≠ [])
    ∧ fmt32.inf ≠ none := ⟨runs_sound (by decide +kernel), by decide⟩

theorem witness_SelectionAndMoveResults :
    (∀ i ∈ ([.sel g0 { rab 9 with c := 1 }, .pset g0 { ra 8 with d := 1 }, .psetSave g0 { ra 8 1 with a := 0 }, .psetLoad g0 { rab 8 2 with d := 0 },
      .plop g0 { ra 0 0x80 with d := 1, b := 3, c := 4 }, .mov g0 (ra 9), .movg g0 (rab 9), .vtog g0 (ra 9), .rdsr g0 { ra 8 with a := 0x10 },
      .wrsr g0 { ra 9 with d := 0x13 }, .movi g0 { d := 8, a := 0, imm := 7, ity := 1 }, .stage g0 (rab 0 0x15)] : List Instr),
      ∃ z, Ready (at_ i) i g0 .none z ∧ (z.bundle g0).act ≠ []) := runs_sound (by decide +kernel)

/-- RI and RK operands: D 8, A 2. -/
def ri (ity : BitVec 3) (d : BitVec 8 := 8) : RI := { d := d, a := 2, imm := 3, ity := ity }
def rk (ty : BitVec 5) (d : BitVec 8 := 8) : RK := { d := d, a := 2, c := 0, win := 1, woff := 2, ty := ty, rnd := 0 }

/-- A region entry of region 0 that covers 0x2000 to 0x2FFF, and the leaf of that page: memory at 0x5000, with every permission. -/
def region0 : RegionEntry := { ctx := 0, rid := 0, ok := true, lo := 0x2000, limit := 0x3000 }
def leaf0 : TlbEntry := { ctx := 0, page := 0x2000, bits := 12, pte := 0x50FF }

/-- The launch of that device: a stash of 16384 bytes, two Kaolin slots, and constant window 1 bound to the page's first line. -/
def launch0 : Launch := { loadedLaunch with windows := [(1, (0x2000, 128))], stash := 16384, ks := 2 }

/-- The device with an instruction loaded: the core caches the region entry, the leaf and the first line of the page, and the first record of
uniform registers is a buffer of 64 elements of 64 bytes at 0x2000 that the wave reads and writes. -/
def atM (i : Instr) : State :=
  let s := modCore (at_ i) 0 (fun c => { c with regions := [region0], tlb := [leaf0], ccache := [{ ctx := 0, line := 0x2000, data := List.replicate 128 1 }] })
  modWave { s with launches := [(1, launch0)] } 0 (fun w => (((w.setG 0 0x2000).setG 1 0x4000000040).setG 2 0x40).setG 3 0xF)

/-- The words of an instruction's constant, if its reading leaves the state as it is. -/
def readK (s : State) (g : Guard) (z : Site) : Option (List W32) :=
  match constants s (z.bundle g) z.w z.f (z.bundle g).act with
  | (_, .words ws) => some ws
  | _ => none

theorem readK_sound {s : State} {g : Guard} {z : Site} (h : (readK s g z).isSome = true) : ∃ s' ws, Reads s z g s' ws := by
  unfold readK at h
  split at h
  · exact ⟨_, _, by assumption⟩
  · cases h

def runsK (is : List Instr) : Bool := is.all (fun i => performed (atM i) i g0 .none (fun z => !(z.bundle g0).act.isEmpty && (readK (atM i) g0 z).isSome))

theorem runsK_sound {is : List Instr} (h : runsK is = true) :
    ∀ i ∈ is, ∃ z s' ws, Ready (atM i) i g0 .none z ∧ (z.bundle g0).act ≠ [] ∧ Reads (atM i) z g0 s' ws := fun i hi => by
  obtain ⟨z, _, hr, h⟩ := performed_sound (List.all_eq_true.1 h i hi)
  rw [Bool.and_eq_true] at h
  obtain ⟨s', ws, hw⟩ := readK_sound h.2
  exact ⟨z, s', ws, hr, by simpa using h.1, hw⟩

theorem witness_ConstantAndImmediateForms :
    (∀ i ∈ ([.iaddRk g0 (rk 2), .isubRk g0 (rk 3), .imulRk g0 (rk 6), .imadRk g0 (rk 7), .andRk g0 (rk 8), .orRk g0 (rk 9), .xorRk g0 (rk 8),
        .faddRk g0 (rk 0xB), .fmulRk g0 (rk 0xC), .ffmaRk g0 (rk 0xB)] : List Instr),
        ∃ z s' ws, Ready (atM i) i g0 .none z ∧ (z.bundle g0).act ≠ [] ∧ Reads (atM i) z g0 s' ws)
    ∧ ∀ i ∈ ([.iaddRi g0 (ri 0), .imulRi g0 (ri 4), .andRi g0 (ri 2), .orRi g0 (ri 2), .xorRi g0 (ri 2), .shlRi g0 (ri 2), .shrRi g0 (ri 2),
        .sarRi g0 (ri 2), .faddRi g0 (ri 3), .fmulRi g0 (ri 3)] : List Instr),
        ∃ z, Ready (at_ i) i g0 .none z ∧ (z.bundle g0).act ≠ [] := ⟨runsK_sound (by decide +kernel), runs_sound (by decide +kernel)⟩

theorem witness_ComparisonResults :
    (∀ i ∈ ([.icmp g0 (rab 2 0 0x21), .fcmp g0 (rab 0xC 5 0x61), .icmpRi g0 (ri 0 0x51)] : List Instr),
        ∃ z, Ready (at_ i) i g0 .none z ∧ (z.bundle g0).act ≠ [])
    ∧ ∀ i ∈ ([.icmpRk g0 (rk 2 0x51), .fcmpRk g0 (rk 0xB 0x71)] : List Instr),
        ∃ z s' ws, Ready (atM i) i g0 .none z ∧ (z.bundle g0).act ≠ [] ∧ Reads (atM i) z g0 s' ws :=
  ⟨runs_sound (by decide +kernel), runsK_sound (by decide +kernel)⟩

theorem witness_movk : ∃ z s' ws, Ready (atM (.movk g0 { rk 9 with a := 0 })) (.movk g0 { rk 9 with a := 0 }) g0 .none z
    ∧ (z.bundle g0).act ≠ [] ∧ Reads (atM (.movk g0 { rk 9 with a := 0 })) z g0 s' ws :=
  runsK_sound (is := [.movk g0 { rk 9 with a := 0 }]) (by decide +kernel) _ (by simp)

/-- The instruction is performed somewhere where a condition holds. -/
theorem performed_ok {s : State} {i : Instr} {g : Guard} {rel : Rel} {p : Site → Prop} [DecidablePred p]
    (h : performed s i g rel (fun z => decide (p z)) = true) : ∃ z, Ready s i g rel z ∧ p z := by
  obtain ⟨z, _, hr, h⟩ := performed_sound h
  exact ⟨z, hr, of_decide_eq_true h⟩

theorem witness_CrossFibreResults :
    (∀ i ∈ ([.shfl g0 { rab 8 3 with c := 1 }, .vote g0 { ra 0 2 with a := 1 }] : List Instr), ∃ z, Ready (at_ i) i g0 .none z ∧ (z.bundle g0).act ≠ [])
    ∧ (∃ z, Ready (at_ (.lred g0 (ra 0xB))) (.lred g0 (ra 0xB)) g0 .none z ∧ (z.bundle g0).act ≠ [] ∧ ∀ e ∈ theP (z.bundle g0) z.w, e.2.vp 2 = false)
    ∧ (∃ z, Ready (at_ (.lscan g0 (ra 2 8))) (.lscan g0 (ra 2 8)) g0 .none z ∧ (z.bundle g0).act ≠ [] ∧ ∀ e ∈ theP (z.bundle g0) z.w, e.2.vp 2 = false)
    ∧ ∃ z, Ready (at_ (.lfind g0 { ra 8 with c := 1 })) (.lfind g0 { ra 8 with c := 1 }) g0 .none z ∧ (z.bundle g0).act ≠ []
        ∧ ∀ e ∈ theP (z.bundle g0) z.w, e.2.vp 2 = false :=
  ⟨runs_sound (by decide +kernel), performed_ok (by decide +kernel), performed_ok (by decide +kernel), performed_ok (by decide +kernel)⟩

theorem witness_UniformResults :
    (∀ i ∈ ([.gadd g0 (rab 2), .gsub g0 (rab 7), .gmul g0 (rab 6), .gmin g0 (rab 3), .gand g0 (rab 8), .gor g0 (rab 9), .gxor g0 (rab 8), .gshl g0 (rab 8),
        .gshr g0 (rab 3), .gcmp g0 (rab 2 0 0x51), .gsel g0 (rabc 9), .gmov g0 (ra 9), .glea g0 (rab 2 3), .gaddRi g0 (ri 0), .gandRi g0 (ri 2),
        .gorRi g0 (ri 2), .gxorRi g0 (ri 2), .gshlRi g0 (ri 2), .gshrRi g0 (ri 0), .gcmpRi g0 (ri 0 0x51), .gmovRi g0 { ri 4 with a := 0 }] : List Instr),
        ∃ z, Ready (at_ i) i g0 .none z ∧ (z.bundle g0).act ≠ [])
    ∧ ∀ i ∈ ([.gaddRk g0 (rk 2), .gcmpRk g0 (rk 7 0x51), .gmovRk g0 { rk 9 with a := 0 }, .gld g0 { rk 9 with a := 0 }] : List Instr),
        ∃ z s' ws, Ready (atM i) i g0 .none z ∧ (z.bundle g0).act ≠ [] ∧ Reads (atM i) z g0 s' ws :=
  ⟨runs_sound (by decide +kernel), runsK_sound (by decide +kernel)⟩

theorem all_some {α : Type} {o : Option α} {f : α → Bool} (h : o.all f = true) : ∀ y, o = some y → f y = true := by
  rintro y rfl
  exact h

def openB (s : State) : Bool := s.gangs.all (fun e => e.2.windows.isEmpty) && s.ops.all (fun e => e.2.kind.owned.1.isEmpty) && s.reqs.all (fun e => e.2.own.isEmpty)

theorem openB_sound {s : State} (h : openB s = true) : Open s := by
  simp only [openB, Bool.and_eq_true, List.all_eq_true, List.isEmpty_iff] at h
  exact { windows := h.1.1, ops := h.1.2, reqs := h.2 }

/-- Checks that a byte is served by the core's first cached leaf of its page. -/
def servedB (s : State) (core ctx tag : Nat) (need : Need) (p : Nat × Nat) : Bool :=
  ((coreOf s core).tlb.find? (fun e => e.ctx = ctx && e.page ≤ p.1 && p.1 < e.page + 2 ^ e.bits)).any (fun e =>
    permits e.pte.toNat need && (!need.writes || e.pte.toNat.testBit 7) && (!e.pte.toNat.testBit 63 || tag == 0)
      && p.2 == leafPa e.pte.toNat e.bits p.1 - leafPa e.pte.toNat e.bits p.1 % 4096 + p.1 % 4096)

theorem servedB_sound {s : State} {core ctx tag : Nat} {need : Need} {p : Nat × Nat} (h : servedB s core ctx tag need p = true) :
    Served s core ctx tag need p.1 p.2 := by
  unfold servedB at h
  rcases hf : (coreOf s core).tlb.find? (fun e => e.ctx = ctx && e.page ≤ p.1 && p.1 < e.page + 2 ^ e.bits) with _ | e
  · simp [hf] at h
  simp only [hf, Option.any_some, Bool.and_eq_true, Bool.or_eq_true, Bool.not_eq_true', beq_iff_eq] at h
  refine ⟨e, hf, h.1.1.1, fun hw => ?_, h.1.2, h.2⟩
  rcases h.1.1.2 with h | h
  · rw [h] at hw; cases hw
  · exact h

/-- The check of R155 for the passing fibres, whose accesses reach `reach`. -/
def throughB (s : State) (z : Site) (g : Guard) (buf : Buf) (idx : BitVec 8) (off fld len : Nat) (tag : Fibre → Nat) (need : Need)
    (reach : Nat → List (Nat × Nat)) : Bool :=
  ((coreOf s (coreNo z.wk)).regions.find? (fun e => e.ctx = ctxOf s z.wk && e.rid = buf.rid)).any (fun re =>
    (z.bundle g).act.all (fun k => (sget k z.w.fibres).all (fun y =>
      (match formVas buf re (y.rv idx.toNat).toNat off fld len with | .ok va => va == (reach k).map (·.1) | .error _ => false)
        && (reach k).all (fun p => servedB s (coreNo z.wk) (ctxOf s z.wk) (tag y) need p))))

theorem throughB_sound {s : State} {z : Site} {g : Guard} {buf : Buf} {idx : BitVec 8} {off fld len : Nat} {tag : Fibre → Nat} {need : Need}
    {reach : Nat → List (Nat × Nat)} (h : throughB s z g buf idx off fld len tag need reach = true) :
    Through s z g buf idx off fld len tag need reach := by
  unfold throughB at h
  rcases hf : (coreOf s (coreNo z.wk)).regions.find? (fun e => e.ctx = ctxOf s z.wk && e.rid = buf.rid) with _ | re
  · simp [hf] at h
  simp only [hf, Option.any_some, List.all_eq_true] at h
  refine ⟨⟨re, hf, fun k hk y hy => ?_⟩, fun k hk y hy p hp => ?_⟩
  · have := all_some (h k hk) y hy
    rw [Bool.and_eq_true] at this
    have := this.1
    split at this
    · rename_i va heq
      rw [heq, beq_iff_eq.1 this]
    · cases this
  · have := all_some (h k hk) y hy
    rw [Bool.and_eq_true, List.all_eq_true] at this
    exact servedB_sound (this.2 p hp)

/-- No operation of the wave is in flight and no write of its core is logged, so no access of the wave waits for an earlier one. -/
def clearB (s : State) (wk : Nat) : Bool := (opsOf s wk).isEmpty && (coreOf s (coreNo wk)).silt.isEmpty

theorem clearB_sound {s : State} {wk : Nat} (h : clearB s wk = true) (slots : List Nat) (stash acq : Bool) (vas : List Nat) : Clear s wk slots stash acq vas := by
  simp only [clearB, Bool.and_eq_true, List.isEmpty_iff] at h
  exact ⟨by rw [h.1]; rfl, fun _ => by rw [relLogged, h.2]; rfl⟩

/-- What an access through the buffer needs, for a fibre: that its `len` bytes are those of `reach`, and that nothing stands before them. -/
def accessB (s : State) (z : Site) (idx : BitVec 8) (off len : Nat) (need : Need) (reach : Nat → List (Nat × Nat)) : Bool :=
  let buf := bufAt z.w 0
  clearB s z.wk && openB s && !(z.bundle g0).act.isEmpty && buf.valid && buf.rd && buf.wr && buf.at'
    && (z.bundle g0).act.all (fun k => !siltOverlap s (coreNo z.wk) (ctxOf s z.wk) ((reach k).map (·.1))
      && !mustFollow s (coreNo z.wk) z.wk [k] (ctxOf s z.wk) ((reach k).map (·.1)) && (reach k).all (fun p => !s.memPois.contains (p.2 / 64) && !isTagged s (ctxOf s z.wk) p.1))
    && throughB s z g0 buf idx off 0 len (fun y => y.ct.toNat) need reach

/-- The hypotheses of statements about accesses hold at a site. -/
def Accesses (s : State) (z : Site) (idx : BitVec 8) (off len : Nat) (need : Need) (reach : Nat → List (Nat × Nat)) : Prop :=
  let buf := bufAt z.w 0
  (∀ slots stash acq vas, Clear s z.wk slots stash acq vas) ∧ Open s ∧ (z.bundle g0).act ≠ [] ∧ buf.valid = true ∧ buf.rd = true ∧ buf.wr = true ∧ buf.at' = true
    ∧ (∀ k ∈ (z.bundle g0).act, siltOverlap s (coreNo z.wk) (ctxOf s z.wk) ((reach k).map (·.1)) = false
      ∧ mustFollow s (coreNo z.wk) z.wk [k] (ctxOf s z.wk) ((reach k).map (·.1)) = false
      ∧ ∀ p ∈ reach k, p.2 / 64 ∉ s.memPois ∧ isTagged s (ctxOf s z.wk) p.1 = false)
    ∧ Through s z g0 buf idx off 0 len (fun y => y.ct.toNat) need reach

theorem accessB_sound {s : State} {z : Site} {idx : BitVec 8} {off len : Nat} {need : Need} {reach : Nat → List (Nat × Nat)}
    (h : accessB s z idx off len need reach = true) : Accesses s z idx off len need reach := by
  simp only [accessB, Bool.and_eq_true, List.all_eq_true, Bool.not_eq_true'] at h
  obtain ⟨⟨⟨⟨⟨⟨⟨⟨h0, h1⟩, h2⟩, h3⟩, h4⟩, h5⟩, h6⟩, h7⟩, h8⟩ := h
  exact ⟨clearB_sound h0, openB_sound h1, by simpa using h2, h3, h4, h5, h6, fun k hk => ⟨(h7 k hk).1.1, (h7 k hk).1.2, fun p hp => by simpa using (h7 k hk).2 p hp⟩,
    throughB_sound h8⟩

/-- The bytes that the tests access: four or more at the start of the page. -/
def start (n : Nat) (_ : Nat) : List (Nat × Nat) := (List.range n).map (fun j => (0x2000 + j, 0x5000 + j))

/-- The instruction is performed with an access of `n` bytes. -/
theorem accesses_sound {i : Instr} {rel : Rel} {idx : BitVec 8} {off n : Nat} {need : Need}
    (h : performed (atM i) i g0 rel (fun z => accessB (atM i) z idx off n need (start n)) = true) :
    ∃ z, Ready (atM i) i g0 rel z ∧ Accesses (atM i) z idx off n need (start n) := by
  obtain ⟨z, _, hr, h⟩ := performed_sound h
  exact ⟨z, hr, accessB_sound h⟩

/-- An access of the MU: data v8, index v2, the first record. -/
def mem (ty : BitVec 5) (mopx : BitVec 8 := 0) (ord : BitVec 4 := 0) : MEM :=
  { data := 8, idx := 2, buf := 0, scope := 0, ord := ord, ty := ty, off := 0, cache := 0, mopx := mopx }

theorem witness_LoadResults :
    (∃ z, Ready (atM (.ld g0 (mem 8 1))) (.ld g0 (mem 8 1)) g0 .none z ∧ Accesses (atM (.ld g0 (mem 8 1))) z 2 0 8 .read (start 8))
    ∧ (∃ z, Ready (atM (.ldx g0 (mem 8 6))) (.ldx g0 (mem 8 6)) g0 .none z ∧ Accesses (atM (.ldx g0 (mem 8 6))) z 2 0 4 .read (start 4))
    ∧ ∃ z, Ready (atM (.ldk g0 (mem 8))) (.ldk g0 (mem 8)) g0 .none z ∧ Accesses (atM (.ldk g0 (mem 8))) z 2 0 4 .read (start 4) :=
  ⟨accesses_sound (by decide +kernel), accesses_sound (by decide +kernel), accesses_sound (by decide +kernel)⟩

theorem witness_StoreResults :
    (∃ z, Ready (atM (.st g0 (mem 8 1))) (.st g0 (mem 8 1)) g0 .none z ∧ Accesses (atM (.st g0 (mem 8 1))) z 2 0 8 .write (start 8))
    ∧ ∃ z, Ready (atM (.st g0 (mem 8 0 7))) (.st g0 (mem 8 0 7)) g0 .each z ∧ Accesses (atM (.st g0 (mem 8 0 7))) z 2 0 4 .write (start 4) :=
  ⟨accesses_sound (by decide +kernel), accesses_sound (by decide +kernel)⟩

theorem witness_AtomicResultsInMemory :
    (∃ z, Ready (atM (.atom g0 (mem 6 0 1))) (.atom g0 (mem 6 0 1)) g0 .none z ∧ Accesses (atM (.atom g0 (mem 6 0 1))) z 2 0 4 .both (start 4))
    ∧ ∃ z, Ready (atM (.redI g0 (mem 6 1 7))) (.redI g0 (mem 6 1 7)) g0 .bundle z ∧ Accesses (atM (.redI g0 (mem 6 1 7))) z 2 0 4 .write (start 4) :=
  ⟨accesses_sound (by decide +kernel), accesses_sound (by decide +kernel)⟩

/-- What an access of `len` bytes of the stash at 0 needs. -/
def stashB (s : State) (z : Site) (idx : BitVec 8) (len : Nat) : Bool :=
  clearB s z.wk && openB s && !(z.bundle g0).act.isEmpty && (sget (gangOf s z.wk) s.gangs).any (fun h => h.stashPois.isEmpty)
    && s.waves.all (fun e => e.2.fibres.all (fun q => q.2.blocked.isNone))
    && (z.bundle g0).act.all (fun k => (sget k z.w.fibres).all (fun y => (y.rv idx.toNat).toNat == 0))
    && decide (len ≤ stashSpan s (gangOf s z.wk)) && (List.range len).all (fun i => !stashOwned s (gangOf s z.wk) none i)

/-- The hypotheses of statements about the stash hold at a site, for `len` bytes at 0. -/
def Stashes (s : State) (z : Site) (idx : BitVec 8) (len : Nat) : Prop :=
  (∀ slots stash acq vas, Clear s z.wk slots stash acq vas) ∧ Open s ∧ (z.bundle g0).act ≠ [] ∧ (∃ h, sget (gangOf s z.wk) s.gangs = some h ∧ h.stashPois = []) ∧ NoPhaseWaiters s
    ∧ InStash s z g0 idx 0 len (fun _ => 0)

theorem stashB_sound {s : State} {z : Site} {idx : BitVec 8} {len : Nat} (h : stashB s z idx len = true) : Stashes s z idx len := by
  simp only [stashB, Bool.and_eq_true, List.all_eq_true, Bool.not_eq_true', List.mem_range, decide_eq_true_eq] at h
  obtain ⟨⟨⟨⟨⟨⟨⟨h0, h1⟩, h2⟩, h3⟩, h4⟩, h5⟩, h6⟩, h7⟩ := h
  refine ⟨clearB_sound h0, openB_sound h1, by simpa using h2, ?_, fun e he q hq o p d hb => ?_, fun k hk y hy => ⟨?_, ?_, ?_, fun i hi => ?_⟩⟩
  · rcases hg : sget (gangOf s z.wk) s.gangs with _ | h
    · simp [hg] at h3
    · exact ⟨h, rfl, by simpa [hg] using h3⟩
  · have := h4 e he q hq
    rw [hb] at this
    cases this
  · have := all_some (h5 k hk) y hy
    exact (by simpa using this : (y.rv idx.toNat).toNat = 0).symm
  · simp
  · simpa using h6
  · simpa using h7 i hi

theorem stashes_sound {i : Instr} {rel : Rel} {idx : BitVec 8} {n : Nat} (h : performed (atM i) i g0 rel (fun z => stashB (atM i) z idx n) = true) :
    ∃ z, Ready (atM i) i g0 rel z ∧ Stashes (atM i) z idx n := by
  obtain ⟨z, _, hr, h⟩ := performed_sound h
  exact ⟨z, hr, stashB_sound h⟩

theorem witness_StashLoadAndStoreResults :
    (∃ z, Ready (atM (.lds g0 (mem 9 1))) (.lds g0 (mem 9 1)) g0 .none z ∧ Stashes (atM (.lds g0 (mem 9 1))) z 2 16)
    ∧ ∃ z, Ready (atM (.sts g0 (mem 8 0))) (.sts g0 (mem 8 0)) g0 .none z ∧ Stashes (atM (.sts g0 (mem 8 0))) z 2 4 :=
  ⟨stashes_sound (by decide +kernel), stashes_sound (by decide +kernel)⟩

theorem witness_AtomicResultsInTheStash :
    (∃ z, Ready (atM (.atom g0 (mem 6 0x80 1))) (.atom g0 (mem 6 0x80 1)) g0 .none z ∧ Stashes (atM (.atom g0 (mem 6 0x80 1))) z 2 4)
    ∧ (∃ z, Ready (atM (.redI g0 (mem 6 0x80 7))) (.redI g0 (mem 6 0x80 7)) g0 .bundle z ∧ Stashes (atM (.redI g0 (mem 6 0x80 7))) z 2 4)
    ∧ (6 : BitVec 5) ∈ [(6 : BitVec 5), 9] := ⟨stashes_sound (by decide +kernel), stashes_sound (by decide +kernel), by decide⟩

/-- No operands of the MU. -/
def mem0 (mopx : BitVec 8 := 0) (ord : BitVec 4 := 0) : MEM := { data := 0, idx := 0, buf := 0, scope := 0, ord := ord, ty := 0, off := 0, cache := 0, mopx := mopx }
/-- A multicast load of one value: g4, which holds the mask, names core 0. -/
def mcast : MEM := { mem 8 with mopx := 4 }
def atMc : State := modWave (atM (.ldmc g0 mcast)) 0 (fun w => w.setG 4 1)

theorem witness_CacheControlResults :
    (∀ i ∈ ([.cinvKall g0 (mem0 1), .icinv g0 (mem0 2), .pref g0 (mem0 0), .cflush g0 (mem0 0), .cinvK g0 (mem0 0), .cinvL1 g0 (mem0 2)] : List Instr),
        ∃ z, Ready (atM i) i g0 .none z ∧ Accesses (atM i) z 0 0 1 .read (start 1))
    ∧ (∃ z, Ready (atM (.fence g0 (mem0 0 7))) (.fence g0 (mem0 0 7)) g0 .each z ∧ (z.bundle g0).act ≠ [])
    ∧ ∃ z, Ready atMc (.ldmc g0 mcast) g0 .none z ∧ Accesses atMc z 2 0 4 .read (start 4) ∧ ((z.w.rg 4).extractLsb' 0 16).getLsbD (coreNo z.wk % 16) = true := by
  refine ⟨fun i hi => ?_, performed_ok (by decide +kernel), ?_⟩
  · have : ([.cinvKall g0 (mem0 1), .icinv g0 (mem0 2), .pref g0 (mem0 0), .cflush g0 (mem0 0), .cinvK g0 (mem0 0), .cinvL1 g0 (mem0 2)] : List Instr).all
        (fun i => performed (atM i) i g0 .none (fun z => accessB (atM i) z 0 0 1 .read (start 1))) = true := by decide +kernel
    exact accesses_sound (List.all_eq_true.1 this i hi)
  · have : performed atMc (.ldmc g0 mcast) g0 .none (fun z => accessB atMc z 2 0 4 .read (start 4)
        && ((z.w.rg 4).extractLsb' 0 16).getLsbD (coreNo z.wk % 16)) = true := by decide +kernel
    obtain ⟨z, _, hr, h⟩ := performed_sound this
    rw [Bool.and_eq_true] at h
    exact ⟨z, hr, accessB_sound h.1, h.2⟩

theorem witness_WindowInstructions :
    (∃ z, Ready (atM (.smapUnmap g0 (mem0 0x81))) (.smapUnmap g0 (mem0 0x81)) g0 .none z ∧ (z.bundle g0).act ≠ [])
    ∧ (∃ z, Ready (atM (.swb g0 (mem0 1))) (.swb g0 (mem0 1)) g0 .none z ∧ (z.bundle g0).act ≠ [])
    ∧ (∃ z, Ready (atM (.swbAll g0 (mem0 8))) (.swbAll g0 (mem0 8)) g0 .none z ∧ (z.bundle g0).act ≠ [])
    ∧ ∃ z, Ready (atM (.smap g0 (mem 0))) (.smap g0 (mem 0)) g0 .none z
        ∧ ((z.bundle g0).act.head? = some 0 ∧ ((sget 0 z.w.fibres).all (fun y => y.rv 8 = 0 && y.rv 2 = 0 && !y.vp 8 && !y.vp 2)) = true)
        ∧ (bufAt z.w 0).valid = true ∧ (bufAt z.w 0).swz = 0 ∧ (bufAt z.w 0).rd = true ∧ (bufAt z.w 0).base = 0x2000
        ∧ 4096 ≤ (bufAt z.w 0).extent * (bufAt z.w 0).stride ∧ inRegion region0 0x2000 4096 = true
        ∧ 4096 ≤ stashSpan (atM (.smap g0 (mem 0))) (gangOf (atM (.smap g0 (mem 0))) z.wk) :=
  ⟨performed_ok (by decide +kernel), performed_ok (by decide +kernel), performed_ok (by decide +kernel), performed_ok (by decide +kernel)⟩

/-- Branches: VA v2, VB v4. -/
def br (va vb : BitVec 8) (disp : W32 := 0) (ct : BitVec 3 := 0) : BR := { va := va, vb := vb, disp := disp, ctopx := ct }

theorem witness_TransferResults :
    ∀ i ∈ ([.bra g0 (br 0 0 8), .brx g0 (br 2 0), .brxRel g0 (br 2 0 0 1), .call g0 (br 2 0 0xFFFFFFF8), .callX g0 (br 2 4 0 1), .ret g0 (br 2 0),
      .yield g0 (br 0 0), .nop g0 (br 0 0)] : List Instr),
      ∃ z, Ready (atM i) i g0 .none z ∧ (z.bundle g0).act ≠ []
        ∧ ((z.bundle g0).act.all (fun k => (sget k z.w.fibres).all (fun y => goodTarget (y.rv2 2) && goodTarget (y.rv2 4)
            && goodTarget ((z.bundle g0).place.hdr + (y.rv 2).signExtend 64)))) = true
        ∧ goodTarget ((z.bundle g0).place.hdr + 8 * (8 : W32).signExtend 64) = true
        ∧ goodTarget ((z.bundle g0).place.hdr + 8 * (0xFFFFFFF8 : W32).signExtend 64) = true := by
  intro i hi
  have : ([.bra g0 (br 0 0 8), .brx g0 (br 2 0), .brxRel g0 (br 2 0 0 1), .call g0 (br 2 0 0xFFFFFFF8), .callX g0 (br 2 4 0 1), .ret g0 (br 2 0),
      .yield g0 (br 0 0), .nop g0 (br 0 0)] : List Instr).all (fun i => performed (atM i) i g0 .none (fun z => decide ((z.bundle g0).act ≠ []
        ∧ ((z.bundle g0).act.all (fun k => (sget k z.w.fibres).all (fun y => goodTarget (y.rv2 2) && goodTarget (y.rv2 4)
            && goodTarget ((z.bundle g0).place.hdr + (y.rv 2).signExtend 64)))) = true
        ∧ goodTarget ((z.bundle g0).place.hdr + 8 * (8 : W32).signExtend 64) = true
        ∧ goodTarget ((z.bundle g0).place.hdr + 8 * (0xFFFFFFF8 : W32).signExtend 64) = true))) = true := by decide +kernel
  exact performed_ok (List.all_eq_true.1 this i hi)

theorem witness_FibreCreationAndEnd :
    (∃ z, Ready (atM (.fork g0 (br 2 0x10 8 2))) (.fork g0 (br 2 0x10 8 2)) g0 .none z ∧ (z.bundle g0).act ≠ []
      ∧ goodTarget ((z.bundle g0).place.hdr + 8 * (8 : W32).signExtend 64) = true ∧ z.w.forkSerial + 1 ≤ 2 ^ 26)
    ∧ ∃ z, Ready (atM (.exit g0 (br 0 0))) (.exit g0 (br 0 0)) g0 .exit z ∧ (z.bundle g0).act ≠ [] :=
  ⟨performed_ok (by decide +kernel), performed_ok (by decide +kernel)⟩

/-- Memory with a launch record of one workgroup of one fibre at 0x5000 and the address of the trap handler, 0x1000, and of the trap area, 0x2000,
in the context record at 0. -/
def memory0 : List Host.Cell :=
  [(0x41, 0x10), (0x49, 0x20), (0x503C, 1), (0x5040, 1), (0x5044, 1), (0x5048, 1), (0x504A, 1), (0x504C, 1), (0x504E, 8), (0x5050, 16), (0x5053, 1), (0x507F, 1)]

/-- The device with that memory and, in register pair v2, the record's address; queue 0 is in use for context 0, in mode 1, with a ring of 16 entries. -/
def atR (i : Instr) : State :=
  let s := ctlWr { atM i with mem := memory0 } (lqReg 0 0) 0xC100000000000000
  modFibre (ctlWr s (lqReg 0 8) 0x8000) 0 0 (fun y => y.setV2 2 0x2000)

theorem witness_LaunchResults :
    let s := atR (.launch g0 (br 2 8))
    let rec128 := (start 128 0).map (fun a => pByte s a.2)
    Memory.wf s.mem = true ∧ Open s ∧ ∃ z, Ready s (.launch g0 (br 2 8)) g0 .bundle z ∧ (z.bundle g0).act = [0]
      ∧ ((sget 0 z.w.fibres).map (fun y => y.rv2 2) = some 0x2000) ∧ z.l.depth ≠ 10
      ∧ inRegion region0 0x2000 128 = true ∧ ((start 128 0).all (fun p => servedB s 0 0 0 .read p)) = true
      ∧ recCheck s 0 rec128 = none ∧ lqAccepts s 0 0 = true ∧ lqCount s 0 < 2 ^ lqLog s 0 :=
  ⟨by decide +kernel, openB_sound (by decide +kernel), performed_ok (by decide +kernel)⟩

/-- Barrier objects: a valid one at 0 of the stash, and v2 = 0 names it. -/
def sy (sub : BitVec 3 := 0) (imm : BitVec 23 := 0) (scope : BitVec 3 := 0) (pd : BitVec 4 := 0) : SY :=
  { va := 2, vb := 4, pd := pd, scope := scope, cond := 0, syimm := imm, sub := sub }
def atB (i : Instr) : State :=
  Bar.write { valid := true, ovf := false, phase := 1, bcount := 0, btarget := 0, acount := 0, atarget := 2 } (atM i) (key2 1 0) 0

theorem witness_BarrierResults :
    (∃ z, Ready (atM (.barinit g0 (sy 0 2))) (.barinit g0 (sy 0 2)) g0 .none z ∧ Stashes (atM (.barinit g0 (sy 0 2))) z 2 16)
    ∧ (∃ z, Ready (atB (.barexp g0 (sy 1))) (.barexp g0 (sy 1)) g0 .none z ∧ stashB (atB (.barexp g0 (sy 1))) z 2 16 = true
        ∧ (Bar.read (atB (.barexp g0 (sy 1))) (key2 1 0) 0).valid = true)
    ∧ ∃ z, Ready (atB (.bararr g0 (sy 0 0xD 2))) (.bararr g0 (sy 0 0xD 2)) g0 .each z ∧ stashB (atB (.bararr g0 (sy 0 0xD 2))) z 2 16 = true
        ∧ (Bar.read (atB (.bararr g0 (sy 0 0xD 2))) (key2 1 0) 0).valid = true :=
  ⟨stashes_sound (by decide +kernel), performed_ok (by decide +kernel), performed_ok (by decide +kernel)⟩

/-- `gridwait` and `trigger` name nothing. -/
def sy0 (sub : BitVec 3) : SY := { sy sub with va := 0, vb := 0 }

theorem witness_WaitResults :
    (∃ z, Ready (atB (.waitPh g0 (sy 0 0 2 1))) (.waitPh g0 (sy 0 0 2 1)) g0 .none z ∧ stashB (atB (.waitPh g0 (sy 0 0 2 1))) z 2 16 = true
        ∧ (Bar.read (atB (.waitPh g0 (sy 0 0 2 1))) (key2 1 0) 0).valid = true)
    ∧ (∃ z, Ready (atM (.waitM g0 (sy 1))) (.waitM g0 (sy 1)) g0 .none z ∧ Accesses (atM (.waitM g0 (sy 1))) z 2 0 4 .read (start 4))
    ∧ (∃ z, Ready (atM (.gridwait g0 (sy0 1))) (.gridwait g0 (sy0 1)) g0 .none z ∧ (z.bundle g0).act ≠ [] ∧ z.l.depw = false)
    ∧ ∃ z, Ready (atM (.trigger g0 (sy0 0))) (.trigger g0 (sy0 0)) g0 .each z ∧ (z.bundle g0).act ≠ [] :=
  ⟨performed_ok (by decide +kernel), accesses_sound (by decide +kernel), performed_ok (by decide +kernel), performed_ok (by decide +kernel)⟩

theorem any_some {α : Type} {o : Option α} {f : α → Bool} (h : o.any f = true) : ∃ a, o = some a ∧ f a = true := by
  rcases o with _ | a
  · cases h
  · exact ⟨a, rfl, h⟩

/-- What a trap of the fibre in slot 0 needs, its record at 0x2000. -/
def canTrapB (s : State) (z : Site) (y : Fibre) : Bool :=
  (sget (gangOf s z.wk) s.gangs).any (·.abort) == false && handlerOf s z != 0 && y.recs.length < 2
    && ((coreOf s (coreNo z.wk)).regions.find? (fun e => e.ctx = ctxOf s z.wk && e.rid = ptrRid (recordSlot s z 0 y))).any
        (fun re => inRegion re (ptrVa (recordSlot s z 0 y)) 128)
    && (start 128 0).map (·.1) == addrs (ptrVa (recordSlot s z 0 y)) 128
    && (start 128 0).all (fun p => servedB s (coreNo z.wk) (ctxOf s z.wk) y.ct.toNat .write p)

theorem canTrapB_sound {s : State} {z : Site} {y : Fibre} (h : canTrapB s z y = true) : CanTrap s z 0 y (start 128 0) := by
  simp only [canTrapB, Bool.and_eq_true, List.all_eq_true, decide_eq_true_eq, bne_iff_ne, beq_iff_eq] at h
  obtain ⟨⟨⟨⟨⟨h0, h1⟩, h2⟩, h3⟩, h4⟩, h5⟩ := h
  exact { live := h0, handler := h1, level := h2, region := any_some h3, place := h4, served := fun p hp => servedB_sound (h5 p hp) }

/-- What a return of the fibre needs, its last record at 0x2000. -/
def canReturnB (s : State) (z : Site) (y : Fibre) : Bool :=
  y.recs.getLast?.any (fun a => a.ptr.toNat % 128 == 0
    && ((coreOf s (coreNo z.wk)).regions.find? (fun e => e.ctx = ctxOf s z.wk && e.rid = ptrRid a.ptr)).any (fun re => inRegion re (ptrVa a.ptr) 128)
    && (start 128 0).map (·.1) == addrs (ptrVa a.ptr) 128
    && (start 128 0).all (fun p => servedB s (coreNo z.wk) (ctxOf s z.wk) y.ct.toNat .read p && servedB s (coreNo z.wk) (ctxOf s z.wk) y.ct.toNat .write p))

theorem canReturnB_sound {s : State} {z : Site} {y : Fibre} (h : canReturnB s z y = true) : ∃ a, CanReturn s z y a (start 128 0) := by
  obtain ⟨a, ha, h⟩ := any_some h
  simp only [Bool.and_eq_true, List.all_eq_true, beq_iff_eq] at h
  obtain ⟨⟨⟨h1, h2⟩, h3⟩, h4⟩ := h
  exact ⟨a, { last := ha, aligned := h1, region := any_some h2, place := h3, read := fun p hp => servedB_sound (h4 p hp).1,
              write := fun p hp => servedB_sound (h4 p hp).2 }⟩

/-- The system format. -/
def sys (code : BitVec 16 := 0) (opx : BitVec 12 := 0) : SYS := { va := 0, vb := 0, ga := 0, code := code, sysopx := opx }

/-- The device with the fibre in its handler. -/
def atH (i : Instr) : State :=
  modFibre (atR i) 0 0 (fun y => { y with recs := [{ kind := 6, sub := 1, rpc := 0x1010, base := some { hdr := 0x1000, last := 3, ll := false }, ll := false, ptr := 0x2000, matOp := none }] })

theorem witness_SoftwareTrapsAndReturns :
    (∀ i ∈ ([.trapI g0 (sys 1), .brk g0 (sys 2)] : List Instr), Open (atR i) ∧ ∃ z y, Ready (atR i) i g0 .none z ∧ (z.bundle g0).act = [0]
        ∧ sget 0 z.w.fibres = some y ∧ CanTrap (atR i) z 0 y (start 128 0))
    ∧ ∀ i ∈ ([.tretRetry g0 (sys 0), .tretSkip g0 (sys 0 1), .tretKillf g0 (sys 0 2), .tretKillg g0 (sys 0 3)] : List Instr),
        Open (atH i) ∧ ∃ z y a, Ready (atH i) i g0 .none z ∧ (z.bundle g0).act = [0] ∧ sget 0 z.w.fibres = some y ∧ CanReturn (atH i) z y a (start 128 0) := by
  refine ⟨fun i hi => ?_, fun i hi => ?_⟩
  · have : ([.trapI g0 (sys 1), .brk g0 (sys 2)] : List Instr).all (fun i => openB (atR i) && performed (atR i) i g0 .none (fun z =>
        (z.bundle g0).act == [0] && (sget 0 z.w.fibres).any (canTrapB (atR i) z))) = true := by decide +kernel
    have := List.all_eq_true.1 this i hi
    rw [Bool.and_eq_true] at this
    obtain ⟨z, _, hr, h⟩ := performed_sound this.2
    rw [Bool.and_eq_true, beq_iff_eq] at h
    obtain ⟨y, hy, h'⟩ := any_some h.2
    exact ⟨openB_sound this.1, z, y, hr, h.1, hy, canTrapB_sound h'⟩
  · have : ([.tretRetry g0 (sys 0), .tretSkip g0 (sys 0 1), .tretKillf g0 (sys 0 2), .tretKillg g0 (sys 0 3)] : List Instr).all (fun i => openB (atH i)
        && performed (atH i) i g0 .none (fun z => (z.bundle g0).act == [0] && (sget 0 z.w.fibres).any (canReturnB (atH i) z))) = true := by decide +kernel
    have := List.all_eq_true.1 this i hi
    rw [Bool.and_eq_true] at this
    obtain ⟨z, _, hr, h⟩ := performed_sound this.2
    rw [Bool.and_eq_true, beq_iff_eq] at h
    obtain ⟨y, hy, h'⟩ := any_some h.2
    obtain ⟨a, ha⟩ := canReturnB_sound h'
    exact ⟨openB_sound this.1, z, y, a, hr, h.1, hy, ha⟩

theorem witness_ServiceUpcallAndCounterResults :
    (∃ z, Ready (atM (.capinv g0 { sys 1 with va := 8, vb := 16, ga := 20 })) (.capinv g0 { sys 1 with va := 8, vb := 16, ga := 20 }) g0 .bundle z
        ∧ (z.bundle g0).act ≠ [])
    ∧ (∃ z, Ready (atM (.upcall g0 { sys 0x31 with ga := 20 })) (.upcall g0 { sys 0x31 with ga := 20 }) g0 .bundle z ∧ (z.bundle g0).act ≠ [])
    ∧ ∀ n ∈ [(0 : BitVec 16), 2, 0x10, 0x1F], ∃ z, Ready (atM (.rdctr g0 { sys n 1 with va := 8, vb := 10 })) (.rdctr g0 { sys n 1 with va := 8, vb := 10 }) g0 .none z
        ∧ (z.bundle g0).act ≠ [] := by
  refine ⟨performed_ok (by decide +kernel), performed_ok (by decide +kernel), fun n hn => ?_⟩
  have : [(0 : BitVec 16), 2, 0x10, 0x1F].all (fun n => performed (atM (.rdctr g0 { sys n 1 with va := 8, vb := 10 }))
    (.rdctr g0 { sys n 1 with va := 8, vb := 10 }) g0 .none (fun z => decide ((z.bundle g0).act ≠ []))) = true := by decide +kernel
  exact performed_ok (List.all_eq_true.1 this n hn)

/-- Matrix instructions: accumulator 2, tile register 0, A of bf16; tile register 0 is bound, dense or sparse. -/
def mx (opx : BitVec 14 := 0) : MX := { acc := 0, tile := 0, quad := 0, va := 0, gs := 0, aty := 0, nslab := 0, mxopx := opx }
def atX (sparse : Bool) (i : Instr) : State :=
  { atM i with wgs := [(key2 1 0, { core := 0, waves := [0], tiles := [(0, { base := 0, fmt := 0xD, sparse := sparse })], retired := false, stalls := [] })] }

/-- A matrix instruction is performed where its tile register is bound, and its gang's stash holds 8192 bytes. -/
def tiled (sparse : Bool) (i : Instr) : Bool := performed (atX sparse i) i g0 .none (fun z => !(z.bundle g0).act.isEmpty
  && z.tile (atX sparse i) (mx) == some { base := 0, fmt := 0xD, sparse := sparse } && decide (8192 ≤ stashSpan (atX sparse i) (gangOf (atX sparse i) z.wk))
  && (z.w.rg 4 == 0) && !(z.w.acc 2).pair && !(z.w.acc 2).high && z.l.ks == 2 && (sget 0 z.w.fibres).all (fun y => y.rv 2 == 0))

theorem witness_MatrixConfigurationAndStatus :
    tiled false (.mcfgBind g0 { mx with tile := 1, gs := 4, aty := 0xD }) = true ∧ tiled true (.mcfgUnbind g0 (mx 0x1000)) = true
    ∧ tiled false (.mcfgMode g0 (mx 0x2002)) = true ∧ tiled false (.mstat g0 { mx 1 with acc := 2, va := 8 }) = true
    ∧ ∃ z, Ready (atM (.trec g0 { trec := 1, gsa := 9, gba := 0, cmask := 0, scope := 0, cpopx := 1 })) (.trec g0 { trec := 1, gsa := 9, gba := 0, cmask := 0, scope := 0, cpopx := 1 })
        g0 .none z ∧ (z.bundle g0).act ≠ [] :=
  ⟨by decide +kernel, by decide +kernel, by decide +kernel, by decide +kernel, performed_ok (by decide +kernel)⟩

theorem witness_MatrixOperationsQueued :
    tiled false (.mlatch g0 (mx)) = true ∧ tiled false (.mma g0 { mx with acc := 2, va := 2, aty := 0xD }) = true
    ∧ tiled true (.mmas g0 { mx with acc := 2, va := 2, aty := 0xD }) = true ∧ tiled false (.mmat g0 { mx with acc := 2, gs := 4, aty := 0xD }) = true
    ∧ tiled false (.mdrain g0 { mx with acc := 2, va := 2, gs := 4, aty := 0xB }) = true ∧ tiled false (.mzero g0 { mx 1 with acc := 2 }) = true
    ∧ pairsWith 0xD 0xD = true ∧ 32 * (mxSize 0xD * TileBind.depth { base := 0, fmt := 0xD, sparse := false } * 1) ≤ 8192
    ∧ mxSize 0xD * TileBind.depth { base := 0, fmt := 0xD, sparse := true } * 1 ≤ 8192 ∧ 256 * mxSize 0xB ≤ 4096 :=
  ⟨by decide +kernel, by decide +kernel, by decide +kernel, by decide +kernel, by decide +kernel, by decide +kernel, by decide, by decide, by decide, by decide⟩

/-- Copies: the second record of uniform registers is a row of 16 words at 0x2000, the dense side is at 0x400, the barrier at 0. -/
def cp (scope : BitVec 3 := 2) (mask : BitVec 16 := 0) : CP := { trec := 1, gsa := 9, gba := 8, cmask := mask, scope := scope, cpopx := 0 }
def atC (i : Instr) : State :=
  modWave (atB i) 0 (fun w => ((w.setG 4 0x2000).setG 7 0x0100000000230000).setG 9 0x400)

/-- A copy is performed and its checks pass. -/
def copies (kind : Nat) (mask : BitVec 16) (i : Instr) : Bool :=
  let s := atC i
  performed s i g0 .bundle (fun z =>
    let r := tensorOf (z.w.record 1)
    (z.bundle g0).act == [0] && (sget 0 z.w.fibres).isSome && r.error (kind == 1) == none && tensorOutside r region0 == none
      && (coreOf s (coreNo z.wk)).regions.find? (fun e => e.ctx = ctxOf s z.wk && e.rid = r.rid) == some region0
      && r.bytes == 64 && z.w.rg 9 == 0x400 && decide (0x400 + 64 ≤ stashSpan s (gangOf s z.wk)) && decide (0x400 + 64 ≤ 65536 * z.l.ks)
      && z.w.rg 8 == 0 && (Bar.read s (gangOf s z.wk) 0).valid && (kind != 3 || mask.getLsbD (coreNo z.wk % 16)))

/-- A collective of the group with one member, the workgroup: the group table at 0x400, its list at 0x500. -/
def collective : CP := { cp 4 with gsa := 0, cpopx := 0xC0 }
def atG : State :=
  let s := modWave (atB (.coll g0 collective)) 0 (fun w => ((w.setG 4 0x2000).setG 5 0x2100).setG 6 0x0000000400000000 |>.setG 7 1)
  { s with mem := [(0x91, 4), (0x98, 1), (0x401, 5), (0x408, 1), (0x40A, 1), (0x504, 1)] }

theorem witness_CopiesAndCollectives :
    copies 0 0 (.cpy g0 (cp)) = true ∧ copies 1 0 (.cpyg g0 (cp)) = true ∧ copies 2 0 (.cpys g0 (cp)) = true ∧ copies 3 3 (.cpymc g0 (cp 2 3)) = true
    ∧ ∃ z, Ready atG (.coll g0 collective) g0 .bundle z ∧ (z.bundle g0).act ≠ [] ∧ ((z.w.record 1).getD 3 0).extractLsb' 0 32 = 1
        ∧ groupOf atG (ctxOf atG z.wk) 0 = some [(0, 1, 0)] ∧ (Bar.read atG (gangOf atG z.wk) 0).valid = true
        ∧ collCheck atG (coreNo z.wk) (gangOf atG z.wk) (ctxOf atG z.wk) { crec := z.w.record 1, kind := 0, op := 0, ty := 6, scope := 4, bar := 0, rank := 0, n := 0, lines := [] } 1 = none :=
  ⟨by decide +kernel, by decide +kernel, by decide +kernel, by decide +kernel, performed_ok (by decide +kernel)⟩

/-- Reservoir instructions: q1, q2, v2, v4, v6, p3. -/
def rt (sub : BitVec 3 := 0) (qd qs : BitVec 3 := 0) (va vb vc : BitVec 8 := 0) (pd : BitVec 4 := 0) (imm : BitVec 14 := 0) : RT :=
  { qd := qd, qs := qs, va := va, vb := vb, vc := vc, pd := pd, rtimm := imm, sub := sub }

theorem witness_ReservoirResults :
    ∀ i ∈ ([.rsvclr g0 (rt 0 1), .rsvupd g0 (rt 0 1 0 2 4 6 3), .rsvmrg g0 (rt 0 1 2 2 0 0 3), .rsvcap g0 (rt 0 1 0 2), .rsvcapI g0 (rt 0 1 0 0 0 0 0 0x2005),
      .rsvfin g0 (rt 0 1 0 2 0 0 3), .rsvdraw g0 (rt 0 0 0 2 0 0 0 1)] : List Instr),
      ∃ z, Ready (at_ i) i g0 .none z ∧ (z.bundle g0).act ≠ [] := runs_sound (by decide +kernel)

theorem witness_ReservoirMemoryResults :
    (∃ z, Ready (atM (.rsvld g0 (rt 0 1 0 2))) (.rsvld g0 (rt 0 1 0 2)) g0 .none z ∧ Accesses (atM (.rsvld g0 (rt 0 1 0 2))) z 2 0 16 .read (start 16))
    ∧ (∃ z, Ready (atM (.rsvldX g0 (rt 0 1 2 2 4))) (.rsvldX g0 (rt 0 1 2 2 4)) g0 .none z ∧ Accesses (atM (.rsvldX g0 (rt 0 1 2 2 4))) z 2 0 16 .read (start 16))
    ∧ (∃ z, Ready (atM (.rsvst g0 (rt 1 1 0 2))) (.rsvst g0 (rt 1 1 0 2)) g0 .none z ∧ Accesses (atM (.rsvst g0 (rt 1 1 0 2))) z 2 0 16 .write (start 16))
    ∧ (∃ z, Ready (atM (.rsvldS g0 (rt 0 1 1 2))) (.rsvldS g0 (rt 0 1 1 2)) g0 .none z ∧ Stashes (atM (.rsvldS g0 (rt 0 1 1 2))) z 2 16)
    ∧ ∃ z, Ready (atM (.rsvstS g0 (rt 1 1 1 2))) (.rsvstS g0 (rt 1 1 1 2)) g0 .none z ∧ Stashes (atM (.rsvstS g0 (rt 1 1 1 2))) z 2 16 :=
  ⟨accesses_sound (by decide +kernel), accesses_sound (by decide +kernel), accesses_sound (by decide +kernel), stashes_sound (by decide +kernel),
    stashes_sound (by decide +kernel)⟩

/-- The device with a live tag 5, which v2 names. -/
def atT (i : Instr) : State :=
  let s := modFibre (at_ i) 0 0 (fun y => y.setV 2 5)
  { s with contexts := [(0, { recPa := 0, tags := [(5, { retiring := false, holders := 0 })], waiters := [], overrun := false, killed := false, killEvent := none, destroy := none })] }

/-- The tag instruction is performed where tag 5 is live and every passing fibre names it. -/
def tagged (rel : Rel) (i : Instr) : Bool := performed (atT i) i g0 rel (fun z => (z.bundle g0).act == [0] && (sget 0 z.w.fibres).any (fun y => y.rv 2 == 5)
  && (sget 0 (atT i).contexts).any (fun c => (sget 5 c.tags).any (fun e => !e.retiring)))

theorem witness_TagResults :
    tagged .none (.tagget g0 (rt 3 0 0 8)) = true ∧ tagged .none (.tagnewTry g0 (rt 0 0 0 8 0 0 3 1)) = true ∧ tagged .none (.tagnew g0 (rt 0 0 0 8)) = true
    ∧ tagged .none (.tagret g0 (rt 1 0 0 2 0 0 3)) = true ∧ tagged .each (.tagset g0 (rt 2 0 0 2)) = true ∧ tagged .none (.taggetInfo g0 (rt 3 0 0 8 2 0 0 1)) = true
    ∧ tagged .bundle (.tagpub g0 (rt 4 0 0 2)) = true := by decide +kernel

/-- Graphics instructions: VD v8, VA v16, VB v32. -/
def gx (vd va vb : BitVec 8 := 0) (desc : BitVec 5 := 0) (pd : BitVec 4 := 0) (opx : BitVec 18 := 0) : GX :=
  { vd := vd, va := va, vb := vb, desc := desc, pd := pd, gxopx := opx }

/-- The device with the descriptor `ds` in the second record and a page of memory at 0x10000 that the core has cached. -/
def atD (ds : List W64) (i : Instr) : State :=
  let s := modWave (atM i) 0 (fun w => (((w.setG 4 (ds.getD 0 0)).setG 5 (ds.getD 1 0)).setG 6 (ds.getD 2 0)).setG 7 (ds.getD 3 0))
  modCore s 0 (fun c => { c with regions := [{ region0 with limit := 0x1FFFF }], tlb := [{ leaf0 with page := 0x10000 }] })

/-- The instruction is performed and the work of its fibre is done at issue, with the state left as it is. -/
def worked (s : State) (i : Instr) : Bool := performed s i g0 .none (fun z =>
  let d := gfxRecord i (z.bundle g0) s
  (z.bundle g0).act == [0] && quadPoison z.w 0 i == none && (sget 0 z.w.fibres).any (fun y =>
    match gfxWork i { core := coreNo z.wk, ctx := ctxOf s z.wk, desc := gfxDesc i } (begun s z.w (z.bundle g0) i z.f) z.wk 0 d (gfxArgs z.w 0 y i) with
    | (u, .ok _) => decide (u = begun s z.w (z.bundle g0) i z.f)
    | _ => false))

/-- A descriptor of a structure, of a texture of one texel, and of a render target of one pixel. -/
def structD : List W64 := [0x10000, 0, 0x1000, 0x10000]
def textureD : List W64 := [0x10000, 0x10000, 0x8000000000000000, 0]
def targetD : List W64 := [0x10000, 0x400000000, 0, 0]

theorem witness_GraphicsInstructionsStart :
    worked (atD structD (.trace g0 (gx 8 16 32 1 3))) (.trace g0 (gx 8 16 32 1 3)) = true ∧ structGood structD = true ∧ rayVoid (List.replicate 8 0) = true
    ∧ worked (atD textureD (.texl g0 (gx 8 16 0 1 3))) (.texl g0 (gx 8 16 0 1 3)) = true
    ∧ worked (atM (.traq g0 (gx 8 0 0 0 0 5))) (.traq g0 (gx 8 0 0 0 0 5)) = true
    ∧ performed (atM (.rast g0 (gx 8 16 32 0 3 1))) (.rast g0 (gx 8 16 32 0 3 1)) g0 .none (fun z => openB (atM (.rast g0 (gx 8 16 32 0 3 1)))
        && (atM (.rast g0 (gx 8 16 32 0 3 1))).ops.isEmpty && (z.bundle g0).act == [0]
        && (sget 0 z.w.fibres).any (fun y => y.rv 32 == 0 && y.rv 33 == 0)) = true := by
  decide +kernel

/-- The device with a traversal that waits at a candidate. -/
def atV (i : Instr) : State :=
  modFibre (atD structD i) 0 0 (fun y => { y with trav := some { desc := structD, first := false, opq := false, noprog := false, mask := 0, ray := List.replicate 8 0, tcur := 0, best := none, cand := HitRec.zero, stack := [], pos := .none } })

theorem witness_traversal_continues :
    worked (atV (.traceRej g0 (gx 8 0 0 0 3 0x10000))) (.traceRej g0 (gx 8 0 0 0 3 0x10000)) = true
    ∧ worked (atV (.traceAcc g0 (gx 8 0 0 0 3 0x20000))) (.traceAcc g0 (gx 8 0 0 0 3 0x20000)) = true := by decide +kernel

/-- The device with a record queue of records of one register, opened for context 0 with key 7. -/
def atQ (i : Instr) : State := { atD [0, 7, 0, 0] i with recQueues := [(0, { ctx := 0, key := 7, rsz := 0, c := 2, recs := [] })] }

/-- The instruction is performed with its descriptor, and a fibre passes the guard. -/
def withDesc (s : State) (rel : Rel) (i : Instr) (d : List W64) : Bool := performed s i g0 rel (fun z => (z.bundle g0).act == [0] && z.w.record 1 == d)

theorem witness_GraphicsQueueInstructions :
    (let s := modFibre (atM (.hret g0 (gx 0 16))) 0 0 (fun y => { y with depth := 1 }); performed s (.hret g0 (gx 0 16)) g0 .none (fun z => (z.bundle g0).act == [0] && (sget 0 z.w.fibres).any (fun y => y.depth != 0 && goodTarget (y.rv2 16)))) = true
    ∧ withDesc (atD targetD (.blend g0 (gx 0 16 32 1 0 1))) .bundle (.blend g0 (gx 0 16 32 1 0 1)) targetD = true ∧ targetGood targetD = true
    ∧ withDesc (atQ (.rqpush g0 (gx 0 16 0 1 3))) .bundle (.rqpush g0 (gx 0 16 0 1 3)) [0, 7, 0, 0] = true
    ∧ withDesc (atQ (.rqpop g0 (gx 8 0 0 1 3))) .none (.rqpop g0 (gx 8 0 0 1 3)) [0, 7, 0, 0] = true
    ∧ withDesc (atD textureD (.texfb g0 (gx 0 16 0 1))) .none (.texfb g0 (gx 0 16 0 1)) textureD = true ∧ texGood textureD = true
    ∧ (let d := [0x10000, 0x10000, 0x8000000000000000, (0x10000 : W64)]; let s := atD d (.texfb g0 (gx 0 16 0 1)); withDesc s .none (.texfb g0 (gx 0 16 0 1)) d = true ∧ openB s = true ∧ texGood d = true ∧ (nearestAt d (texCoord 0) (texCoord 0) 0).tile d = 0
        ∧ servedB s 0 0 0 .write (0x10000, 0x5000) = true ∧ isTagged s 0 0x10000 = false ∧ mustFollow s 0 0 [0] 0 [0x10000] = false)
    ∧ ((0, 0) : Int × Int) ≠ (1, 0) ∧ (1 - 0) * ((0 : Int) - 0) - (0 - 0) * (5 - 0) = 0 := by
  decide +kernel

/-! ### States in which agents step -/

/-- Page tables at 0x100000 that map the first GiB onto itself, a region that covers it, its table at 0x200, for the context whose record is at 0. -/
def paged : List Host.Cell :=
  [(0, 1), (2, 0x10), (9, 2), (0x208, 0xFF), (0x209, 0xFF), (0x20A, 0xFF), (0x20B, 0x3F), (0x210, 1), (0x100000, 1), (0x100002, 0x11), (0x110000, 1), (0x110002, 0x12),
   (0x120000, 0xED)]

/-- A device with one wave of one fibre, which stands at a clause header with no clause open, and those page tables. -/
def dev : State :=
  let s := { at_ (.nop g0 (br 0 0)) with mem := paged, launches := [(1, launch0)], cur := none }
  modWave s 0 (fun w => { w with clause := none })

/-- The device with the wave or its fibre changed. -/
def devW (f : Wave → Wave) : State := modWave dev 0 f
def devF (f : Fibre → Fibre) : State := modFibre dev 0 0 f

/-- An operation of the fibre, and the device with it in flight. -/
def opOf (k : OpKind) : Op :=
  { wave := 0, flag := none, slots := [0], pc := 0x1008, place := { hdr := 0x1000, last := 0, ll := false }, core := 0, ctx := 0, gang := key2 1 0, wait := none, kind := k }
def devOp (k : OpKind) : State := { dev with ops := [(0, opOf k)], nextOp := 1 }

def quietB (s : State) : Bool :=
  s.ops.all (fun e => match e.2.kind with
    | .load _ _ held | .store held | .ldmc _ held _ _ _ _ => held.isEmpty
    | .gfx _ _ _ held => held.isEmpty
    | .launch _ _ => false
    | _ => true)
  && s.cores.all (fun e => e.2.silt.isEmpty) && s.mats.isEmpty && s.roBusy.isEmpty && s.waves.all (fun e => e.2.fibres.all (fun y => y.2.blocked.isNone))

theorem quietB_sound {s : State} (h : quietB s = true) : Quiet s := by
  simp only [quietB, Bool.and_eq_true, List.all_eq_true, List.isEmpty_iff] at h
  obtain ⟨⟨⟨⟨h1, h2⟩, h3⟩, h5⟩, h4⟩ := h
  refine ⟨fun e he => ?_, h2, fun e he => (by rw [h3] at he; cases he), h5, fun e he y hy => ?_⟩
  · have := h1 e he
    split at this <;> simp_all
  · have := h4 e he y hy
    rw [Option.isNone_iff_eq_none] at this
    rw [this]
    trivial

/-- The words of a clause with one `nop`. -/
def nopClause : List Byte := toBytesLE 8 0xD400000000060000 ++ toBytesLE 8 0xC700000000000000 ++ List.replicate 112 0

/-- The wave's clause, and the device in which the core caches its line. -/
def clauseOf (fetched started : Bool) : Clause :=
  { hdr := 0x1000, header := 0xD400000000060000, words := [0xC700000000000000], idx := 0, slots := [0], ll := false, fetched := fetched, started := started, chosen := 0 }
def devC : State :=
  modCore (devW (fun w => { w with clause := some { clauseOf false false with header := 0, words := [] } })) 0 (fun c =>
    { c with icache := [{ ctx := 0, line := 0x1000, data := nopClause }], regions := [{ region0 with lo := 0 }] })

theorem witness_WaveSteps_of_clauses :
    ((sget 0 dev.waves).any (fun w => mayChoose dev 0 w && sorted w.fibres && w.fibres.all (fun e => e.2.dumpAt.isNone && !e.2.stopAt)
        && (choosePc w ((readyPcs dev 0 w).filter (Cand.ok w))).isSome)) = true
    ∧ ((sget 0 devC.waves).any (fun w => w.clause.any (fun c => !c.fetched && c.idx == 0 && c.hdr == 0x1000) && w.page.isNone)) = true
    ∧ headerError 0xD400000000060000 = none ∧ ptrRid 0x1000 = 0 ∧ inRegion { region0 with lo := 0 } 0x1000 8 = true
    ∧ BitVec.ofNat 64 (fromBytesLE ((nopClause.drop (0x1000 % 128)).take 8)) = (0xD400000000060000 : W64)
    ∧ BitVec.ofNat 64 (fromBytesLE ((nopClause.drop (0x1008 % 128)).take 8)) = (0xC700000000000000 : W64)
    ∧ (let s := devW (fun w => { w with clause := some (clauseOf true false) }); (sget 0 s.waves).any (fun w => w.clause.any (fun c => c.fetched && !c.started
        && waitHolds w c.header && (partnerFor s 0 w c).isNone))) = true
    ∧ sampleDue dev (coreNo 0) = false := by decide +kernel

/-- The fibre found a sparsity error in matrix operation 0, and can trap. -/
def sparse0 : MatOp :=
  { kind := .mma, wave := 0, flag := none, pc := 0x1008, acc := 0, pair := false, bind := { base := 0, fmt := 0xD, sparse := true }, quad := 0, aty := 0xD, slabs := 1, next := 0
    rows := [(0, 0)], gaddr := 0, opx := 0, taddr := 0, tty := 0, prio := 0, waits := 0, place := .queue, susp := none, granted := false, trapped := [] }
def devS : State :=
  let s := { atR (.nop g0 (br 0 0)) with mats := [(0, sparse0)] }
  modFibre (modWave s 0 (fun w => { w with clause := none })) 0 0 (fun y => { y with sparse := some 0 })
def siteS : Site := { wk := 0, w := (sget 0 devS.waves).getD (loadedWave 0), c := clauseOf true true, l := launch0, f := { cls := 6 } }

theorem witness_WaveSteps_of_ends :
    (let s := { dev with gangs := dev.gangs.map (fun e => (e.1, { e.2 with abort := true })) }; (sget (gangOf s 0) s.gangs).any (·.abort) && (sget 0 s.waves).any (fun w => (sget 0 w.fibres).isSome && w.clause.isNone)) = true
    ∧ (sget 0 devS.waves = some siteS.w ∧ (sget 0 siteS.w.fibres).any (fun y => y.sparse == some 0 && atBoundary siteS.w 0 y && canTrapB devS siteS y) = true
        ∧ sget 0 devS.mats = some sparse0 ∧ openB devS = true)
    ∧ (let s := devW (fun w => { w with fibres := [] }); (sget 0 s.waves).any (fun w => waveOver s 0 w && (sget (wgKey w) s.wgs).isSome)) = true := by decide +kernel

theorem witness_MemoryOperationsComplete :
    (∀ k ∈ ([.load [{ slot := 0, reg := 8, val := 1, pois := false }] [] [], .ldmc [] [] 1 [] [] [], .store [], .gld 8 [GWord.zero], .pref, .cinvLines [0x2000], .cinvAll, .cinvL1,
        .icinv 2, .cflush [(0x2000, 0)]] : List OpKind), (sget 0 (devOp k).ops).map (·.kind) = some k)
    ∧ openB (devOp (.cflush [(0x2000, 0)])) = true
    ∧ (match walk (devOp (.cflush [(0x2000, 0)])) 0 0x2000 with | .leaf pte _ _ => !pte.testBit 57 | .bad _ => false) = true := by decide +kernel

/-- A window of 4096 bytes at 0 of the stash, and the device with it mapped. -/
def win0 : Window := { stash := 0, c := 0, ptr := 0x2000, tag := 0, ctx := 0, wr := true, lines := [] }
def devWin (lines : Sparse (Option Nat × Bool × Bool)) (k : OpKind) : State :=
  { devOp k with gangs := dev.gangs.map (fun e => (e.1, { e.2 with windows := [(0, { win0 with lines := lines })] })) }
/-- A multicast window that one operation joined for the line at 0x5000. -/
def mc0 : McWindow := { pa := 0x5000, ctx := 0, mask := 3, domain := 0, tag := 0, joined := [(0, 0x5000, 0)], opened := 0 }

theorem witness_WindowAndCellSteps :
    ((sget (key2 1 0) (devWin [] (.smapUnmap 0)).gangs).any (fun h => (sget 0 h.windows).isSome && h.windows.all (fun e => e.2.lines.isEmpty))
      && (devWin [] (.smapUnmap 0)).ops.all (fun e => e.1 == 0)) = true
    ∧ (∀ k ∈ ([.smap 0 win0, .smapUnmap 0, .swb (some 0)] : List OpKind), (sget 0 (devOp k).ops).map (·.kind) = some k ∧ (sget (key2 1 0) (devOp k).gangs).isSome = true)
    ∧ ((sget (key2 1 0) (devWin [(0, some 0x5000, true, true)] (.swb none)).gangs).any (fun h => (sget 0 h.windows).any (fun w => decide (w.lines = [(0, some 0x5000, true, true)])))) = true
    ∧ (let s := devWin [] .pref; quietB s && !memOwned s none [0x2000] && !cellOwned s none 0 0 [0x2000] && (match walk s 0 0x2000 with
        | .leaf pte _ size => !pte.testBit 57 && pte.testBit 2 && pte.testBit 6 && !pte.testBit 63 && leafPa pte size 0x2000 == 0x2000
        | .bad _ => false)) = true
    ∧ mc0.full = false
    ∧ (let s := { devOp (.ldmc [] [] 3 [] [0x5000] []) with mcWins := [(1, mc0)], cores := [(0, { Core.reset with clock := 64 })] }; openB s && quietB s && decide (mc0.opened.toNat + 64 ≤ (coreOf s 0).clock.toNat)) = true
    ∧ (let s := { dev with contexts := [(0, { recPa := 0, tags := [(5, { retiring := true, holders := 0 })], waiters := [], overrun := false, killed := false, killEvent := none, destroy := none })] }; (cellsOf s 0 (some 5)).isEmpty) = true := by decide +kernel

/-- Tables in which the page at 0x40000000 is tagged, with base frame 0x700000; the cell table is at 0x400000, the Marl ring at 0x500000 holds the frame 0x600000. -/
def taggedPage (cell : List Host.Cell) : List Host.Cell :=
  [(0, 1), (2, 0x10), (9, 2), (20, 4), (32, 0x80), (33, 2), (37, 2), (44, 1), (0x100000, 1), (0x100002, 0x11), (0x110000, 1), (0x110002, 0x12), (0x120008, 1), (0x12000A, 0x13),
   (0x130000, 1), (0x130002, 0x14), (0x140000, 0xED), (0x140002, 0x70), (0x140007, 0x80)] ++ cell ++ [(0x500002, 0x60)]
/-- A store of a fibre of tag 5 that waits for a cell of that page. -/
def held5 : Access :=
  { kind := .store, stash := false, slot := 0, ctx := 0, rid := 0, sel := .own, tag := 5, va := [0x40000000], reg := 8, isQ := false, n := 1, w := 1, ty := 4, data := [1], pois := [false]
    aop := 0, x := 0, y := 0, scope := 0, pc := 0x1008, buf := 0, syn0 := 0, syn1 := 0 }
def devCell : State := { devOp (.store [held5]) with mem := taggedPage [] }

theorem witness_cellMaterialise :
    Memory.wf devCell.mem = true ∧ openB devCell = true ∧ cellWanted devCell 0 0x40000 5 = true
    ∧ (match walk devCell 0 0x40000000 with | .leaf pte _ size => pte.testBit 63 && !pte.testBit 57 && pte.testBit 3 && leafPa pte size 0x40000000 == 0x700000 | .bad _ => false) = true
    ∧ cellFind devCell 0 0x40000 5 = .absent (some 0x400000) ∧ (let tb := transBlock devCell 0; decide (0 < marlCount tb) && decide (marlCount tb ≤ 2 ^ bits tb 295 5)
      && bits (rd devCell (marlSlot tb (bits tb 320 32)) 8) 12 40 * 4096 == 0x600000) = true := by decide +kernel

/-- The same with the cell in the table, and an operation that publishes the page. -/
def devPub : State :=
  { devOp (.tagpub [(0, 5, [0x40000])]) with mem := taggedPage [(0x400000, 5), (0x400003, 0x40), (0x40000A, 0x60), (0x400010, 1)] }

theorem witness_tagpubPage :
    quietB devPub = true ∧ openB devPub = true ∧ cellFind devPub 0 0x40000 5 = .found 0x400000 0x600000
    ∧ (match walk devPub 0 0x40000000 with
      | .leaf pte _ size => !pte.testBit 57 && pte.testBit 3 && pte.testBit 6 && pte.testBit 7 && leafPa pte size 0x40000000 == 0x700000
      | .bad _ => false) = true
    ∧ ∀ h, marlSlot (transBlock devPub 0) h + 8 ≤ 0x700000 := by
  refine ⟨by decide +kernel, by decide +kernel, by decide +kernel, by decide +kernel, fun h => ?_⟩
  have h1 : bits (transBlock devPub 0) 256 39 * 2 ^ 13 = 0x500000 := by decide +kernel
  have h2 : 2 ^ bits (transBlock devPub 0) 295 5 = 16 := by decide +kernel
  rw [marlSlot, h1, h2]
  omega

/-- The page tables of `paged` stand in memory. -/
def isPaged (s : State) : Bool :=
  let tb := transBlock s 0
  tb.testBit 0 && bits tb 12 40 == 0x100 && rd s 0x100000 8 == 0x110001 && rd s 0x110000 8 == 0x120001 && rd s 0x120000 8 == 0xED

theorem walk_paged {s : State} (h : isPaged s = true) {va : Nat} (hv : va < 2 ^ 30) : walk s 0 va = .leaf 0xED 0x120000 30 := by
  simp only [isPaged, Bool.and_eq_true, beq_iff_eq] at h
  obtain ⟨⟨⟨⟨h1, h2⟩, h3⟩, h4⟩, h5⟩ := h
  have z : ∀ k, 2 ≤ k → bits va (12 + 9 * k) 9 = 0 := fun k hk => by
    have : (2 : Nat) ^ 30 ≤ 2 ^ (12 + 9 * k) := Nat.pow_le_pow_right (by decide) (by omega)
    rw [bits, Nat.div_eq_of_lt (by omega), Nat.zero_mod]
  have w0 : walkFrom s va 3 0x120000 = .leaf 0xED 0x120000 30 := by
    rw [walkFrom, z 2 (by decide), Nat.mul_zero, Nat.add_zero, h5, if_neg (by decide), if_neg (by decide), if_pos (by decide)]; rfl
  have w1 : walkFrom s va 4 0x110000 = .leaf 0xED 0x120000 30 := by
    rw [walkFrom, z 3 (by decide), Nat.mul_zero, Nat.add_zero, h4, if_neg (by decide), if_neg (by decide), if_neg (by decide), show bits 0x120001 12 40 * 4096 = 0x120000 by decide, w0]
  have w2 : walkFrom s va 5 0x100000 = .leaf 0xED 0x120000 30 := by
    rw [walkFrom, z 4 (by decide), Nat.mul_zero, Nat.add_zero, h3, if_neg (by decide), if_neg (by decide), if_neg (by decide), show bits 0x110001 12 40 * 4096 = 0x110000 by decide, w1]
  simp only [walk, h1, h2, Bool.not_true, Bool.false_eq_true, if_false]
  exact w2

/-- Every access but a fetch reaches the memory of the same address there, and changes nothing. -/
theorem physical_paged {s : State} (h : isPaged s = true) {need : Need} (hn : need ≠ .fetch) (own : Bool) (tag : Nat) (ag : Agent) (rid : Nat) (l : List Nat) (hl : ∀ a ∈ l, a < 2 ^ 30) :
    physical s none 0 need own tag ag rid l = (s, .ok l) := by
  induction l with
  | nil => rfl
  | cons a l ih =>
    have ha := hl a (by simp)
    have h2 : leafPa 0xED 30 a = a := by
      simp only [leafPa, bits, Nat.mod_eq_of_lt ha]; norm_num
    have h3 : Machine.translate s none 0 a need = (s, .ok (0xED, a)) := by
      unfold Machine.translate walkFor
      simp only [walk_paged h ha]
      have h4 : (0xED ||| 0x40 ||| if need.writes = true then 0x80 else 0) = 0xED := by cases need <;> decide
      rw [if_neg (by decide), if_neg (by cases need <;> first | decide | exact absurd rfl hn)]
      simp only [h4, if_true, h2]
    have hp : pageFrame s none 0 need own tag ag rid a = (s, .ok (a - a % 4096)) := by
      simp only [pageFrame, h3]
      rw [if_pos (by simp [show Nat.testBit 0xED 63 = false by decide])]
    rw [physical, hp]
    simp only [ih (fun x hx => hl x (by simp [hx])), Nat.sub_add_cancel (Nat.mod_le a 4096)]

/-- So does a pointer in the region of the tables. -/
theorem ptrPhys_paged {s : State} (h : isPaged s = true) {need : Need} (hn : need ≠ .fetch) {tag : Nat} {p : W64} {n a : Nat} (hr : ptrRid p = 0) (hv : ptrVa p = a)
    (he : inRegion (regionEntry s 0 0) a n = true) (ha : a + n ≤ 2 ^ 30) : ptrPhys s none 0 need tag p n = (s, .ok (addrs a n)) := by
  unfold ptrPhys
  simp only [hr, hv, regionOf, he, Bool.not_true, Bool.false_eq_true, if_false]
  rw [physical_paged h hn _ _ _ _ _ fun x hx => ?_]
  simp only [addrs, List.mem_map, List.mem_range] at hx
  omega

/-- The pages of a save area there. -/
theorem areaPages_paged {s : State} (h : isPaged s = true) {need : Need} (hn : need ≠ .fetch) {l : Launch} {k : Nat} (hl : l.ctx = 0) {vas : List Nat}
    (hs : (List.range (areaSize l / 4096)).map (fun i => ptrVa (l.saveb + BitVec.ofNat 64 (areaSize l * k) + BitVec.ofNat 64 (4096 * i))) = vas)
    (hp : ∀ i ∈ List.range (areaSize l / 4096), let p := l.saveb + BitVec.ofNat 64 (areaSize l * k) + BitVec.ofNat 64 (4096 * i)
      ptrRid p = 0 ∧ inRegion (regionEntry s 0 0) (ptrVa p) 1 = true ∧ ptrVa p + 1 ≤ 2 ^ 30) : areaPages s l k need = (s, .ok vas) := by
  unfold areaPages
  rw [← hs]
  generalize List.range (areaSize l / 4096) = L at hp
  have : ∀ (L : List Nat) (ps : List Nat), (∀ i ∈ L, let p := l.saveb + BitVec.ofNat 64 (areaSize l * k) + BitVec.ofNat 64 (4096 * i)
      ptrRid p = 0 ∧ inRegion (regionEntry s 0 0) (ptrVa p) 1 = true ∧ ptrVa p + 1 ≤ 2 ^ 30) →
      L.foldl (fun (acc : State × Except PtrFail (List Nat)) i =>
        match acc with
        | (s, .error e) => (s, .error e)
        | (s, .ok ps) =>
          match ptrPhys s none l.ctx need 0 (l.saveb + BitVec.ofNat 64 (areaSize l * k) + BitVec.ofNat 64 (4096 * i)) 1 with
          | (s, .error e) => (s, .error e)
          | (s, .ok p) => (s, .ok (ps ++ p))) (s, .ok ps)
      = (s, .ok (ps ++ L.map (fun i => ptrVa (l.saveb + BitVec.ofNat 64 (areaSize l * k) + BitVec.ofNat 64 (4096 * i))))) := fun L => by
    induction L with
    | nil => intro ps _; simp
    | cons i L ih =>
      intro ps hp
      obtain ⟨a, b, c⟩ := hp i (by simp)
      have hq : ptrPhys s none l.ctx need 0 (l.saveb + BitVec.ofNat 64 (areaSize l * k) + BitVec.ofNat 64 (4096 * i)) 1
          = (s, .ok (addrs (ptrVa (l.saveb + BitVec.ofNat 64 (areaSize l * k) + BitVec.ofNat 64 (4096 * i))) 1)) := by
        rw [hl]; exact ptrPhys_paged h hn a rfl b c
      rw [List.foldl_cons]
      simp only [hq]
      rw [ih _ fun j hj => hp j (by simp [hj])]
      simp [addrs]
  exact this L [] hp

/-- A store of four bytes at the start of the page, in the Silt log of a core behind one of another page; and a reduction. -/
def silt0 : SiltEntry :=
  { wave := 0, slots := [0], infos := [], ctx := 0, launch := 1, wg := 0, lfi := 0, tag := 0, pc := 0x1008, rid := 0, addr := 0x2000, mask := 0xF, data := 7, pois := false, kred := false
    rop := 0, ty := 2, scope := 0, pseq := 0 }
def devSilt (e : SiltEntry) : State := { dev with cores := [(0, { Core.reset with tlb := [leaf0], silt := [{ silt0 with addr := 0x9000 }, e] })] }
/-- The fibre waits for what it monitors at the start of the page, until clock 10 if `lim`. -/
def devWait (b : Blocked) (clock : W64) : State :=
  { devF (fun y => { y with base := some { hdr := 0x1000, last := 0, ll := false }, blocked := some b }) with cores := [(0, { Core.reset with tlb := [leaf0], clock := clock })] }
/-- The device whose launch waits for a page. -/
def devPage (vpn : Nat) : State := { dev with launches := [(1, { launch0 with page := some (vpn, false) })] }
/-- A report, and the device with it and a demand ring of 64 messages at 0x8000. -/
def report0 : Report := { ctx := 0, core := 0, src := 0, acc := 0, cause := 0, rid := 0, va := 0x2000, clock := 0 }
def devReport : State := ctlWr (ctlWr { dev with reports := [report0] } 0x740000 0x8000) 0x740008 6

theorem witness_MemoryWaitsEnd :
    (∀ e ∈ [silt0, { silt0 with kred := true, ty := 6 }], let s := devSilt e; ((coreOf s 0).silt.take 512)[1]? = some e
      ∧ (((coreOf s 0).silt.take 1).all (fun x => !mustWait e x) && decide ((start 4 0).map (·.1) = e.vas)
        && (start 4 0).all (fun p => servedB s 0 0 0 .write p && !s.memPois.contains (p.2 / 64)) && openB s && quietB { s with cores := [] }) = true)
    ∧ ((let s := devWait .fence 0; openB s && clearB s 0 && (sget 0 s.waves).any (fun w => (sget 0 w.fibres).any (fun y => y.base.isSome && y.blocked == some .fence)) && !(opsOf s 0).any (OpKind.fenced 0)) = true)
    ∧ ((let s := devWait (.waitM 0x2000 0 0 0 0 0 false (some 10) 1) 20; openB s && clearB s 0 && !siltOverlap s 0 (ctxOf s 0) (addrs (ptrVa 0x2000) 4) && decide ((start 4 0).map (·.1) = addrs (ptrVa 0x2000) 4)
      && (start 4 0).all (fun p => servedB s 0 (ctxOf s 0) 0 .read p && !s.memPois.contains (p.2 / 64)) && decide (10 ≤ (coreOf s 0).clock.toNat)) = true)
    ∧ monitorMet 0 false 0 1 = false
    ∧ (awaited (devPage 2) 0 2 && (match walk (devPage 2) 0 0x2000 with
        | .leaf pte _ _ => !pte.testBit 57 && permits pte (walkNeed .read) && pte.testBit 6 && pte.testBit 7 | .bad _ => false)) = true
    ∧ (awaited (devPage 0x80000) 0 0x80000 && (match walk (devPage 0x80000) 0 0x80000000 with | .bad c => decide (c < 3) | .leaf _ _ _ => false)) = true
    ∧ devReport.reports = [report0] ∧ (ringRoom devReport false && openB devReport) = true := by decide +kernel

/-- Matrix operations: a dense one on two slabs of bf16, and the device with one in table entry `e` or in its queue. -/
def dense0 (k : MatKind) : MatOp := { sparse0 with kind := k, bind := { base := 0, fmt := 0xE, sparse := false }, aty := 0xE, slabs := 2 }
def devM (o : MatOp) (table : Sparse Nat) : State := { dev with mats := [(0, o)], clusters := [(0, { Cluster.reset with table := table })] }
def granted0 (k : MatKind) : MatOp := { dense0 k with granted := true, place := .entry 0 }

theorem witness_MatrixEngineSteps :
    ((let s := { devM (dense0 .mma) [] with mats := [(0, dense0 .mma), (1, { dense0 .latch with arrived := 5 })] }; mayEnter s (dense0 .mma) && sorted s.mats
      && s.mats.all (fun x => x.2.place == .queue && (x.1 == 0 || arrivedBefore (0, dense0 .mma) x)) && (sget 0 (clusterOf s 0).table).isNone && clusterNo (dense0 .mma).wave == 0) = true)
    ∧ ((let s := devM { dense0 .mma with place := .entry 3 } [(3, 0)]; !resBusy s 0 0 && (chooseGrant ((clusterOf s 0).last.getD 0 63) (candidates s 0 0)).map (fun c => (c.1, c.2.1)) == some (3, 0)) = true)
    ∧ ((let o := { granted0 .mma with pass := 8 }; let s := devM o [(0, 0)]; !resBusy s 0 0 && (chooseGrant ((clusterOf s 0).last.getD 0 63) (candidates s 0 0)).map (fun c => (c.1, c.2.1)) == some (0, 0)
      && o.granted && o.isPass) = true)
    ∧ (∀ a, stashOwned (devM (granted0 .mma) [(0, 0)]) (gangOf (devM (granted0 .mma) [(0, 0)]) 0) (some 0) a = false)
    ∧ (∀ k ∈ [MatKind.latch, .zero, .mma, .drain], sget 0 (clusterOf (devM (granted0 k) [(0, 0)]) 0).table = some 0 ∧ (granted0 k).granted = true ∧ (sget 0 (devM (granted0 k) [(0, 0)]).waves).isSome = true)
    ∧ ((let s := devM (granted0 .mma) [(0, 0)]; (sget (gangOf s 0) s.gangs).any (fun g => g.windows.isEmpty && sorted g.kaolin) && (granted0 .mma).isPass && decide ((granted0 .mma).pass ≤ clusterClock s 0)) = true)
    ∧ ((sget 0 (devM (granted0 .mma) [(0, 0)]).waves).map (fun w => (w.acc 0).mant.length) = some 0)
    ∧ (rniAt 3 2 2, rniAt 5 1 2, rniAt 7 1 2) = (3, 2, 4)
    ∧ (granted0 .drain).rows = [(0, 0)] ∧ (granted0 .drain).opx.getLsbD 5 = false :=
  ⟨by decide +kernel, by decide +kernel, by decide +kernel, fun _ => rfl, by decide +kernel, by decide +kernel, by decide +kernel, by decide +kernel, by decide +kernel,
    by decide +kernel⟩

/-- A copy of 16 bytes at 0x2000, its one line to write. -/
def copy0 (kind : Nat) : CopyOp :=
  { kind := kind, trec := [0x2000, 0, 0, 0x0040000000230000], buf := 1, side := 0x400, bar := none, mask := 0, tag := 0, scope := 2
    lines := [if kind = 1 then 0x40 else 8], failed := false, ask := [], sent := [], got := [] }
/-- A collective of one member, of four bytes from 0x2000 to 0x2100, and its group. -/
def coll0 (kind : BitVec 3) : CollOp :=
  { crec := [0x2000, 0x2100, 0x0000000400000000, 1 <<< 32], kind := kind, op := 0, ty := 6, scope := 4, bar := 0, rank := 0, n := 1, lines := [] }

theorem witness_CopyAndCollectiveSteps :
    (∀ k ∈ [0, 1, 2], let s := devOp (.copy (copy0 k)); let c := copy0 k; let line := if k = 1 then 0x40 else 8; let ps := copyPieces c (tensorOf c.trec) line
      let as := (ps.map (fun p => addrs (c.side + p) 16)).flatten
      (quietB s && s.gangs.all (fun e => e.2.windows.isEmpty) && !slotInUse s 0 (key2 1 0) 0 && c.lines.contains line && as.length == 16 && as.Nodup
        && as.all (fun a => !stashOwned s (key2 1 0) (some 0) a)
        && (match copySource s ((opOf (.copy c)).agent 0 1) (key2 1 0) 0 c (tensorOf c.trec) ps with
          | (u, .done (c', bs)) => decide (u = s) && bs.length == as.length && decide (c' = { c with src := c'.src }) | _ => false)
        && (let vas := (ps.map (fun p => addrs ((tensorOf c.trec).vaOf p) 16)).flatten
          match physical s none 0 .write true 0 ((opOf (.copy c)).agent 0 1) (tensorOf c.trec).rid vas with
          | (u, .ok pas) => decide (u = s) && pas.length == 16 && pas.Nodup && !reachesOwned s (some 0) 0 0 vas pas | _ => false)) = true)
    ∧ ∀ n ∈ [0, 2], let k := BitVec.ofNat 3 n; let s := devOp (.coll (coll0 k))
      (quietB s && decide (posted s 0 0 1 = [(0, opOf (.coll (coll0 k)), coll0 k)]) && (lateMember s 0 0 1).isNone && !gangSaved s (key2 1 0) && ((groupOf s 0 0).getD []).isEmpty
        && (match collSources s (posted s 0 0 1) with | (u, .ok [bs]) => decide (u = s) && bs.length == 16 && bs.length % collSize (coll0 k) == 0 | _ => false)
        && (match collDests s (posted s 0 0 1) with | (u, .ok [pas]) => decide (u = s) && pas.length == 16 && pas.Nodup | _ => false)) = true := by decide +kernel

/-- A record queue for records of one register with room for four, and the device with it. -/
def queue0 (recs : List (List W32)) : RecQueue := { ctx := 0, key := 7, rsz := 0, c := 2, recs := recs }
def devQ (recs : List (List W32)) (k : OpKind) : State := { devOp k with recQueues := [(0, queue0 recs)] }
/-- What a graphics instruction has for its fibre. -/
def result0 (cells : List (Nat × Byte)) : GfxResult := { slot := 0, regs := [(8, 1)], pred := some (3, true), hit := none, trav := none, deeper := false, cells := cells }

theorem witness_GraphicsOperationsComplete :
    ((isTraceOp (.trace g0 (gx 8)) && isRastOp (.rast g0 (gx 8)) && isTexOp (.texl g0 (gx 8)) && (result0 []).cells.isEmpty) = true)
    ∧ (∀ i ∈ [Instr.trace g0 (gx 8), .rast g0 (gx 8), .texl g0 (gx 8)], (sget 0 (devOp (.gfx i [] [result0 []] [])).ops).map (fun o => (o.kind, o.wait)) = some (.gfx i [] [result0 []] [], none) ∧ quietB (devOp (.gfx i [] [result0 []] [])) = true)
    ∧ ((let s := devOp (.gfx (.rast g0 (gx 8)) [] [result0 [(0, 1)]] []); quietB s && (sget (key2 1 0) s.gangs).any (fun h => h.windows.isEmpty) && ((result0 [(0, 1)]).cells.map (·.1)).Nodup) = true)
    ∧ ((sget 0 (devQ [] (.rqpush 0 3 [(0, [5])])).ops).map (·.kind) = some (.rqpush 0 3 [(0, [5])]) ∧ sget 0 (devQ [] (.rqpush 0 3 [(0, [5])])).recQueues = some (queue0 []) ∧ (opOf (.rqpush 0 3 [(0, [5])])).ctx = (queue0 []).ctx)
    ∧ ((sget 0 (devQ [[5]] (.rqpop 0 8 1 3 [0])).ops).map (·.kind) = some (.rqpop 0 8 1 3 [0]) ∧ sget 0 (devQ [[5]] (.rqpop 0 8 1 3 [0])).recQueues = some (queue0 [[5]]) ∧ quietB (devQ [[5]] (.rqpop 0 8 1 3 [0])) = true)
    ∧ (0x8000000000000000 : W64).getLsbD 63 = true := by decide +kernel

/-- A target of one tile of 32 by 32 pixels of four bytes at 0x2000, a group that covers it, a fragment of its first pixel, and a slot with them. -/
def group0 (closed : Bool) : OGroup := { draw := 1, group := 1, tx0 := 0, ty0 := 0, tx1 := 0, ty1 := 0, closed := closed }
def frag0 : Frag := { tile := 0, x := 0, y := 0, draw := 1, group := 1, prim := 0, color := [0, 0, 0, 0], op := 0, launch := 1 }
def target0 : W64 := 0x0000000400000000
def oslot0 (closed : Bool) (frags : List Frag) (loaded : Sparse (List Byte)) : OrderSlot :=
  { rtd0 := 0x2000, rtd1 := target0, sigt := 0, spill := 0, splen := 0, ctx := 0, groups := [group0 closed], frags := frags, loaded := loaded, lost := 0 }
def devO (u : OrderSlot) (k : OpKind) : State := { devOp k with oslots := [(0, u)] }
/-- A core's port of raster order with an argument. -/
def devRo (a : W64) (oslots : Sparse OrderSlot) : State := ctlWr { dev with mem := [(0x40C, 4)], oslots := oslots } 0x600000 a

theorem witness_RasterOrderSteps :
    ((queue0 []).recs.length < 2 ^ (queue0 []).c ∧ 2 ^ (queue0 (List.replicate 4 [1])).c ≤ (queue0 (List.replicate 4 [1])).recs.length ∧ sget 0 (devQ [[5]] .pref).recQueues = some (queue0 [[5]]) ∧ [(5 : W32)].length ≤ 64)
    ∧ ((let u := oslot0 false [] []; let s := devO u (.blend 0x2000 target0 [frag0]); (sget 0 s.ops).isSome && s.oslots.find? (fun e => e.2.rtd0 = 0x2000 && e.2.rtd1 = target0) == some (0, u)) = true)
    ∧ ((let u := oslot0 true [frag0] [(0, [])]; let s := devO u .pref; (sget 0 s.oslots).isSome && (sget 0 u.loaded).isSome && tileInside s u 0 && s.roBusy.isEmpty && u.frags.any (fun f => f.tile = 0 && (readyGroups u 0).any (·.owns f))) = true)
    ∧ ((let s := devRo 0x400 []; s.roBusy.isEmpty && let x := fromBytesLE ((addrs 0x400 64).map (pByte s)); decide ((ctlRd s 0x600000).toNat = 0x400) && decide (0x400 + 64 ≤ memEnd) && s.gangs.all (fun e => e.2.windows.isEmpty) && !poisonedAt s (addrs 0x400 64)
        && orderRecordGood x && (sget 0 s.oslots).isNone) = true)
    ∧ ((let s := devRo 0x0000000100000002 [(0, oslot0 false [] [])]; (ctlRd s 0x600000).extractLsb' 32 32 == 1 && (ctlRd s 0x600000).extractLsb' 0 32 == 2 && (group0 false).group.ult 2) = true)
    ∧ ((let s := devRo 0x0000000100000001 [(0, oslot0 false [] [])]; (oslot0 false [] []).groups.any (fun g => g.draw = (ctlRd s 0x600000).extractLsb' 32 32 && g.group = (ctlRd s 0x600000).extractLsb' 0 32 && !g.closed)
        && (sget 0 s.oslots).any (fun u => u.loaded.isEmpty && u.frags.isEmpty)) = true)
    ∧ ∀ op ∈ [1, 2, 3, 4, 5], let v : W64 := BitVec.ofNat 64 (2 ^ 63 + op); v.getLsbD 63 = true ∧ bits v.toNat 8 6 = 0 ∧ bits v.toNat 0 3 = op := by decide +kernel

/-- Whatever room the queue of a tile has, it takes the first fragment. -/
theorem witness_fragmentQueue (tile : Nat) : (oslot0 false [] []).queuedAt tile + (([frag0].filter (fun _ => true)).filter (fun f => f.tile = tile)).length ≤ queueRoom := by
  have h : (([frag0].filter (fun _ => true)).filter (fun f => f.tile = tile)).length ≤ 1 := le_trans (List.length_filter_le _ _) (by decide +kernel)
  have h0 : (oslot0 false [] []).queuedAt tile = 0 := rfl
  unfold queueRoom
  omega

theorem addrs_rows (a n : Nat) : ((List.range n).map (fun y => addrs (a + 128 * y) 128)).flatten = addrs a (128 * n) := by
  induction n with
  | zero => rfl
  | succ n ih =>
    simp only [List.range_succ, List.map_append, List.flatten_append, ih, List.map_cons, List.map_nil, List.flatten_cons, List.flatten_nil, List.append_nil]
    have hs : ∀ m k, addrs a (m + k) = addrs a m ++ addrs (a + m) k := fun m k => by
      simp only [addrs, List.range_add, List.map_append, List.map_map, Function.comp_def, Nat.add_assoc]
    rw [Nat.mul_succ, hs]

theorem tileVas_oslot0 (l : Sparse (List Byte)) : tileVas (oslot0 true [] l) 0 = addrs 0x2000 4096 := by
  have hr : ∀ y ∈ List.range 32, rowVa (oslot0 true [] []) 0 y = 0x2000 + 128 * y := by decide +kernel
  have hl : ∀ y, rowVa (oslot0 true [] l) 0 y = rowVa (oslot0 true [] []) 0 y := fun _ => rfl
  have hp : 32 * pixelBytes (targetFmt (oslot0 true [] l).rtd1) = 128 := by rw [show (oslot0 true [] l).rtd1 = target0 from rfl]; decide +kernel
  have h := addrs_rows 0x2000 32
  rw [show 128 * 32 = 4096 from rfl] at h
  rw [← h, tileVas, hp]
  exact congrArg List.flatten (List.map_congr_left fun y hy => by rw [hl, hr y hy])

theorem witness_tileEvict :
    let u := oslot0 true [] [(0, List.replicate 4096 0)]
    let s := devO u .pref
    sget 0 s.oslots = some u ∧ sget 0 u.loaded = some (List.replicate 4096 0) ∧ u.sigt = 0 ∧ (∀ e ∈ s.gangs, e.2.windows = [])
      ∧ ∃ pas, physical s none u.ctx .write false 0 { core := rouCore 0 } (ptrRid u.rtd0) (tileVas u 0) = (s, .ok pas) ∧ memOwned s none pas = false ∧ pas.Nodup ∧ pas.length ≤ 4096 := by
  refine ⟨rfl, rfl, rfl, by decide +kernel, addrs 0x2000 4096, ?_, rfl, ?_, by simp [addrs]⟩
  · rw [tileVas_oslot0]
    refine physical_paged (by decide +kernel) (by decide) _ _ _ _ _ fun a ha => ?_
    simp only [addrs, List.mem_map, List.mem_range] at ha
    omega
  · exact List.Nodup.map (fun x y h => by simpa using h) List.nodup_range

/-- A launch of one workgroup of one fibre with few registers, a completion record at 0x3000 and its save area at 0x2000000. -/
def small : Launch := { launch0 with vcnt := 8, gcnt := 16, qcnt := 0, acnt := 0, ks := 0, stash := 0, saveb := 0x2000000, crec := 0x3000, windows := [] }
/-- The device with that launch, its gang changed. -/
def devG (f : Gang → Gang) : State := { dev with launches := [(1, small)], gangs := dev.gangs.map (fun e => (e.1, f e.2)) }
/-- The same with nothing resident and the launch changed. -/
def devL (l : Launch) : State := { dev with launches := [(1, l)], gangs := [], wgs := [], waves := [] }
/-- Launch queue 0 of context 0 with a ring of 16 entries at 0x8000, in a mode, of which `n` entries hold the record at the ring's start. -/
def ring0 : List Host.Cell := [(0x803C, 1), (0x8040, 1), (0x8044, 1), (0x8048, 1), (0x804A, 1), (0x804C, 1), (0x804E, 8), (0x8050, 16), (0x8053, 1), (0x807F, 1)]
def queued0 (s : State) (mode1 : Bool) (n : W64) : State :=
  ctlWr (ctlWr (ctlWr s (lqReg 0 0) (if mode1 then 0xC100000000000000 else 0x8100000000000000)) (lqReg 0 8) 0x8000) (lqReg 0 0x10) n
def devLq : State := queued0 { dev with mem := (0, 1) :: ring0, subPages := [(0, { ctx := 0, queue := 0, queued := 0, discarded := 0, last := 0, entries := [] })] } true 1

theorem witness_GridsAndLaunchQueues :
    ((let s := { devG id with wgs := dev.wgs.map (fun e => (e.1, { e.2 with retired := true })) }; (sget (key2 1 0) s.gangs).any (fun g => g.state == .resident && g.windows.isEmpty) && gangOver s (key2 1 0)) = true)
    ∧ ((let l := { small with done := 1 }; let s := devL l; !l.completed && decide (l.ngrp.foldl (· * ·) 1 ≤ l.done) && decide (gangCount l ≤ l.nextGang) && s.gangs.isEmpty && s.launches.all (fun e => e.2.parent.isNone)
        && s.cores.all (fun e => e.2.silt.isEmpty)) = true)
    ∧ ((let l := { small with completed := true }; let s := devL l; openB s && l.page.isNone && !l.recorded && !l.marked && (sget l.ctx s.contexts).any (fun c => c.killEvent.isNone && c.destroy.isNone) && isPaged s && ptrRid l.crec == 0 && ptrVa l.crec == 0x3000
        && inRegion (regionEntry s 0 0) 0x3000 64) = true ∧ (addrs 0x3000 64).Nodup)
    ∧ (let s := queued0 dev false 0; ctlBits s (lqReg 0 0) 62 1 = 0 ∧ lqOperational s 0 = true ∧ 2 ^ lqLog s 0 < (17 + 2 ^ 32 - lqHead s 0) % 2 ^ 32 ∧ ¬ 2 ^ lqLog s 0 < (16 + 2 ^ 32 - lqHead s 0) % 2 ^ 32 ∧ quietB s = true ∧ lqCount s 0 ≤ 2 ^ lqLog s 0)
    ∧ (lqAccepts devLq 0 0 = true ∧ lqCount devLq 0 < 2 ^ lqLog devLq 0 ∧ openB devLq = true ∧ (List.replicate 128 (0 : Byte)).length = 128 ∧ lqAccepts dev 0 (pageOf dev 0).ctx = false)
    ∧ (nextQueue devLq = some 0 ∧ quietB devLq = true ∧ poisonedAt devLq (addrs (lqEntry devLq 0 (lqHead devLq 0)) 128) = false
        ∧ (let r := (addrs (lqEntry devLq 0 (lqHead devLq 0)) 128).map (pByte devLq); recCheck devLq 0 r = none ∧ recF r 0x5E 1 = 0 ∧ recF r 0x5F 1 = 0 ∧ recF r 0x5C 2 = 0 ∧ ctxPlaces devLq 0 = true)) := by decide +kernel

theorem witness_completionRecord :
    let l := { small with completed := true }
    ptrPhys (devL l) none l.ctx .write 0 l.crec 64 = (devL l, .ok (addrs 0x3000 64)) :=
  ptrPhys_paged (by decide +kernel) (by decide) (by decide +kernel) (by decide +kernel) (by decide +kernel) (by decide)

/-- The device in which the launch's gang is not yet placed, and its cores have been sampled. -/
def devPlace : State := queued0 { devL { small with nextGang := 0 } with cores := (List.range 4).map (fun c => (c, { Core.reset with temp := some 0 })) } true 0
/-- A device whose gang has stood long on a core that is now hot. -/
def devHot : State :=
  { devG (fun g => { g with resident := 2 ^ 21 }) with cores := (List.range 8).map (fun c => (c, { Core.reset with temp := some (if c = 0 then 800 else 0), hot := c == 0 })) }
/-- The gang as it is saved, and a device in which it is restored: its image has one fibre, which is ready. -/
def saved0 : Saved := { collect dev (key2 1 0) with waves := [(0, { (loadedWave 0) with clause := none })] }
def devBack : State :=
  { devL small with gangs := [(key2 1 0, { Gang.new with state := .restoring, cores := [0], saved := some saved0 })], mem := paged ++ [(0x2000000 + 271752, 1)] }

/-- Where no window is mapped, the image of an area is what its pages hold. -/
theorem readArea_open {s : State} {l : Launch} {k : Nat} {pages : List Nat} (h : ∀ e ∈ s.gangs, e.2.windows = []) (hp : areaPages s l k .read = (s, .ok pages)) :
    readArea s l k = (s, some ((pages.zipIdx.map (fun p => (s.mem.filter (fun c => p.1 ≤ c.1 && c.1 < p.1 + 4096)).map (fun c => (4096 * p.2 + (c.1 - p.1), c.2)))).flatten, pages)) := by
  have hr : ∀ a p, (readPage s p a) = (s, (s.mem.filter (fun c => a ≤ c.1 && c.1 < a + 4096)).map (fun c => (4096 * p + (c.1 - a), c.2))) := fun a p => by
    have : snoop s (addrs a 4096) false = s := by
      unfold snoop
      exact foldl_same _ _ _ fun x _ => snoopLine_open h x false
    simp only [readPage, this]
  have hf : ∀ (L : List (Nat × Nat)) (m : Sparse Byte), L.foldl (fun (acc : State × Sparse Byte) p => ((readPage acc.1 p.2 p.1).1, acc.2 ++ (readPage acc.1 p.2 p.1).2)) (s, m)
      = (s, m ++ (L.map (fun p => (readPage s p.2 p.1).2)).flatten) := fun L => by
    induction L with
    | nil => intro m; simp
    | cons p L ih => intro m; rw [List.foldl_cons]; simp only [hr p.1 p.2]; rw [ih]; simp [hr]
  unfold readArea
  rw [hp]
  simp only [hf, hr, List.nil_append]

/-- The pages of that area. -/
def pages0 : List Nat := (List.range 77).map (fun i => 0x2000000 + 4096 * i)

theorem witness_PlacementAndSaves :
    (ranked devPlace = [{ launch := 1, idx := 0, eff := 0, saved := false, order := 0 }]
      ∧ firstFit devPlace { launch := 1, idx := 0, eff := 0, saved := false, order := 0 } { small with nextGang := 0 } (List.range 32) = some (0, [0], 0))
    ∧ (devHot.migration = none ∧ migrant devHot = some (key2 1 0) ∧ (sget (key2 1 0) devHot.gangs).isSome = true)
    ∧ ((let s := devG (fun g => { g with state := .saving }); openB s && (skeys s.waves).Nodup && s.waves.all (fun e => e.2.clause.isNone && e.2.page.isNone && e.2.paired.isNone && e.2.fibres.all (fun y => y.2.dumpAt.isNone && !y.2.stopAt)) && s.ops.isEmpty && s.mats.isEmpty
        && s.contexts.all (fun e => e.2.waiters.isEmpty) && (gangSilt s (key2 1 0)).isEmpty) = true)
    ∧ areaPages (devG (fun g => { g with state := .saving })) small 0 .write = (devG (fun g => { g with state := .saving }), .ok pages0) :=
  ⟨by decide +kernel, by decide +kernel, by decide +kernel, areaPages_paged (by decide +kernel) (by decide) rfl (by decide +kernel) (by decide +kernel)⟩

theorem witness_restoreComplete :
    readArea devBack small 0 = (devBack, some ([(271752, 1)], pages0))
    ∧ ((fromImage small 1 0 [(271752, 1)] { Gang.new with state := .restoring, cores := [0], saved := some saved0 } saved0).any (fun r => let h := r.1; let u := r.2;
        (newKeys devBack small 0 h.cores u.waves).map (·.1) == skeys u.waves && (skeys u.waves).Nodup && u.mats.isEmpty && u.ops.isEmpty && u.silt.isEmpty && u.credits.isEmpty
          && u.waves.all (fun e => e.2.park.isNone && !e.2.fibres.isEmpty && e.2.fibres.all (fun y => y.2.blocked.isNone && y.2.resumed.isNone && y.2.recs.isEmpty)) && devBack.reqs.isEmpty && !u.waves.isEmpty && openB devBack && quietB devBack)) = true := by
  refine ⟨?_, by decide +kernel⟩
  have hp : areaPages devBack small 0 .read = (devBack, .ok pages0) := areaPages_paged (by decide +kernel) (by decide) rfl (by decide +kernel) (by decide +kernel)
  rw [readArea_open (by decide +kernel) hp]
  congr 3

/-- A write of a command's register: GO, the operation and what it acts on. -/
def cmd (op id : Nat) : W64 := BitVec.ofNat 64 (2 ^ 63 + op + 8 * id)
/-- The device with the arguments of the dispatch commands of core 0, and a good context record at 0x600. -/
def devDp (s : State) (a0 a1 : W64) : State := ctlWr (ctlWr { s with mem := [(0x600, 1), (0x611, 0xA0), (0x625, 3), (0x658, 4)] } (dpReg 0 0) a0) (dpReg 0 8) a1

theorem witness_DispatchCommands :
    (∀ op ∈ [1, 2, 3, 4, 5, 6], (cmd op 0).getLsbD 63 = true ∧ bits (cmd op 0).toNat 0 3 = op ∧ bits (cmd op 0).toNat 3 16 = 0 ∧ ctlBits (devDp dev 0 0) (dpReg 0 0x10) 63 1 = 0)
    ∧ ((let s := devDp dev 0x600 0; bits (cmd 1 5).toNat 3 16 == 5 && (sget 5 s.contexts).isNone && decide ((ctlRd s (dpReg 0 0)).toNat = 0x600) && s.gangs.all (fun e => e.2.windows.isEmpty)
        && transGood (fromBytesLE ((addrs 0x600 64).map (pByte s))) && trapBlockGood ((addrs 0x640 64).map (pByte s))) = true)
    ∧ ((let s := devDp (devL { small with recorded := true }) 0 0; (sget 0 s.contexts).any (fun c => c.destroy.isNone && c.killEvent.isNone) && s.launches.all (fun e => e.2.recorded)
        && (List.range 64).all (fun q => ctlBits s (lqReg q 0) 63 1 == 0)) = true)
    ∧ (∀ st ∈ [GangState.resident, .held], let s := devDp (devG (fun g => { g with state := st })) 1 0; (ctlRd s (dpReg 0 0)).toNat = 1 ∧ (ctlRd s (dpReg 0 8)).toNat = 0 ∧ small.ctx = 0 ∧ 0 < gangCount small ∧ small.saveb ≠ 0
        ∧ ((sget (key2 1 0) s.gangs).any (fun g => g.state == st && !g.abort)) = true)
    ∧ ((let s := devDp (devG (fun g => { g with state := .saving, migrating := true, migClock := some 0 })) 1 0; (sget (key2 1 0) s.gangs).any (fun g => g.state == .saving && g.migrating && g.migClock == some s.ioClock)) = true)
    ∧ ((let s := devDp (devL small) 1 0; (sget 1 s.launches).any (fun l => !l.completed && !l.recorded) && s.gangs.isEmpty && quietB s) = true)
    ∧ ((let s := devDp dev 3 0; decide ((ctlRd s (dpReg 0 0)).toNat < 256) && decide (ctlBits s (lqReg 0 0) 38 16 = 0)) = true)
    ∧ (ctlRd (devDp dev 3 65535) (dpReg 0 8)).toNat = 65535 := by decide +kernel

theorem witness_TranslationPorts :
    (∀ kind ∈ [0, 1, 2, 3], let v : W64 := BitVec.ofNat 64 (2 ^ 63 + kind * 2 ^ 38); v.getLsbD 63 = true ∧ bits v.toNat 38 2 = kind)
    ∧ (invalPending dev 0 = false ∧ dev.gangs.all (fun e => e.2.windows.isEmpty) = true ∧ dev.oslots.isEmpty = true
        ∧ invalPending { devOp (.ldmc [held5] [] 1 [] [] []) with invals := [(0, [0])] } 0 = true)
    ∧ (∀ st ∈ [0, 1, 2], bits (BitVec.ofNat 64 (st * 2 ^ 45) : W64).toNat 45 3 = st) ∧ quietB dev = true ∧ dev.ops.isEmpty = true
    ∧ (let v : W64 := BitVec.ofNat 64 (2 ^ 63 + 2 ^ 60); v.getLsbD 63 = true ∧ bits v.toNat 60 3 = 1 ∧ bits v.toNat 44 16 = 0 ∧ (sget 0 dev.contexts).isSome = true ∧ cellsOf dev 0 none = []) := by decide +kernel

/-- A request of the fibre for an operation of a service, and the device with it. -/
def req0 (svc : Nat) (code : BitVec 16) (args : List W32) : SenReq :=
  { op := 0, wave := 0, slot := 0, ctx := 0, launch := 1, wg := 0, lfi := 0, cap := BitVec.ofNat 128 (svc * 2 ^ 16), code := code, args := args, tag := 0, pc := 0x1008, passed := true, entry := 2 ^ 208
    issued := false, wait := none, result := none, pinned := [], own := [], orphan := false }
/-- The capability table at 0x900 with one entry; the tables reach down to the page at 0x2000, whose leaf is `leaf`. -/
def devReq (entry leaf : List Host.Cell) (r : SenReq) : State :=
  { devOp (.capinv [{ slot := 0, vr := 8, req := 0 }]) with
    mem := [(0, 1), (2, 0x10), (9, 2), (0x81, 9), (0x208, 0xFF), (0x209, 0xFF), (0x20A, 0xFF), (0x20B, 0x3F), (0x210, 1)] ++ entry ++ [(0x100000, 1), (0x100002, 0x11), (0x110000, 1), (0x110002, 0x12),
      (0x120000, 1), (0x120002, 0x13), (0x130000, 1), (0x130002, 0x14)] ++ leaf
    reqs := [(0, r)] }
/-- One page at 0x2000, readable and writable. -/
def mapArgs : List W32 := [0x2000, 0, 0x1000, 8, 0, 0, 0, 0]

theorem witness_ServiceSteps :
    (let r := { req0 1 0 [] with result := some [1, 2, 3, 4] }; (sget 0 (devReq [] [] r).reqs) = some r ∧ ((sget 0 (devReq [] [] r).ops).map (·.kind)) = some (.capinv [{ slot := 0, vr := 8, req := 0 }]) ∧ knownOp 1 0 = true ∧ knownOp 1 5 = false)
    ∧ (let s := devReq [] [] { req0 2 0 [] with issued := true, pinned := [0x5000] }; quietB s = true ∧ s.gangs.all (fun g => g.2.windows.isEmpty) = true)
    ∧ ((let r := req0 1 0 mapArgs; let s := devReq [(0x919, 0x10)] [] r; rangeGood s r && decide (r.arg 3 < 16) && bits (r.arg 3) 0 2 != 3 && r.zeros 4 8 && decide (r.arg 2 ≤ rd s (r.entryAt s + 0x18) 8) && framesGood [0x500]
        && (backPages 0 0x2D r.pages s [0x500] 0).any (fun x => x.2 == 1 && x.1.gangs.all (fun g => g.2.windows.isEmpty) && decide (x.1.reqs = s.reqs) && decide (x.1.contexts = s.contexts) && r.entryAt x.1 == r.entryAt s)) = true)
    ∧ ((let r := req0 1 1 [0x2000, 0, 0x1000, 0, 0, 0, 0, 0]; let s := devReq [] [(0x140010, 0xED), (0x140011, 0x50)] r; rangeGood s r && r.zeros 3 8 && r.pages.filterMap (leafSlot s 0) == [0x140010] && r.entryAt s == 0x900) = true)
    ∧ (req0 2 2 (List.replicate 8 0)).zeros 0 8 = true
    ∧ ((let r := req0 3 0 [0, 4, 7, 0, 0, 0, 0, 0]; let s := devReq [(0x910, 1)] [] r; decide (r.arg 0 ≤ 63) && decide (4 ≤ r.arg 1) && decide (r.arg 1 ≤ 16) && r.zeros 4 8 && decide (rd s (r.entryAt s + 0x11) 1 < rd s (r.entryAt s + 0x10) 1)
        && freeKey s.recQueues 256 0 == some 0) = true)
    ∧ ((let r := req0 3 1 (List.replicate 8 0); let s := { devReq [(0x910, 1), (0x911, 1)] [] r with recQueues := [(0, queue0 [])] }; r.zeros 1 8 && queueOwned s (r.arg 0) r.ctx) = true) := by decide +kernel

/-- Where the namespace's blocks are of 4096 bytes or fewer, a read or a write of one block at 0x2000 leaves for the controller. -/
theorem witness_storage (h : Config.blockBytes 0 ≤ 4096) (code : BitVec 16) (need : Need) (hn : need ≠ .fetch) :
    let r := req0 2 code [0, 0, 1, 0, 0x2000, 0, 0, 0]
    let s := { dev with reqs := [(0, r)] }
    storageGood s r = true ∧ r.wait = none ∧ physical s none r.ctx need true r.tag.toNat r.agent (ptrRid r.buf) r.bufPages = (s, .ok r.bufPages)
      ∧ ∀ pas, memOwned s (some r.op) ({ r with pinned := pas } : SenReq).bufBytes = false := by
  have hb : ∀ code, (req0 2 code [0, 0, 1, 0, 0x2000, 0, 0, 0]).bytes = Config.blockBytes 0 := fun code => by
    have h1 : (req0 2 code [0, 0, 1, 0, 0x2000, 0, 0, 0]).nsid = 0 := by rw [SenReq.nsid, show (req0 2 code [0, 0, 1, 0, 0x2000, 0, 0, 0]).entry = 2 ^ 208 from rfl]; decide +kernel
    have h2 : (req0 2 code [0, 0, 1, 0, 0x2000, 0, 0, 0]).arg 2 = 1 := rfl
    rw [SenReq.bytes, h1, h2, Nat.one_mul]
  have hp : ∀ code, ptrVa (req0 2 code [0, 0, 1, 0, 0x2000, 0, 0, 0]).buf = 0x2000 := fun code => by
    have h1 : (req0 2 code [0, 0, 1, 0, 0x2000, 0, 0, 0]).arg2 4 = 0x2000 := by
      show (0x2000 : W32).toNat + (0 : W32).toNat * 2 ^ 32 = 0x2000
      decide +kernel
    rw [SenReq.buf, h1]; decide +kernel
  have hq : isPaged { dev with reqs := [(0, req0 2 code [0, 0, 1, 0, 0x2000, 0, 0, 0])] } = true := by
    have h : isPaged dev = true := by decide +kernel
    exact h
  refine ⟨?_, rfl, physical_paged hq hn _ _ _ _ _ fun a ha => ?_, fun pas => ?_⟩
  · have hr : regionEntry { dev with reqs := [(0, req0 2 code [0, 0, 1, 0, 0x2000, 0, 0, 0])] } 0 0 = regionEntry dev 0 0 := rfl
    have h1 : regionEntry dev 0 0 = { ctx := 0, rid := 0, ok := true, lo := 0, limit := 0x3FFFFFFF } := by decide +kernel
    have h2 : inRegion { ctx := 0, rid := 0, ok := true, lo := 0, limit := 0x3FFFFFFF } 0x2000 (Config.blockBytes 0) = true := by
      simp only [inRegion, Bool.and_eq_true, decide_eq_true_eq]; exact ⟨⟨trivial, by omega⟩, by omega⟩
    unfold storageGood
    simp only [hb, hp]
    have h3 : (req0 2 code [0, 0, 1, 0, 0x2000, 0, 0, 0]).arg2 4 = 0x2000 := by
      show (0x2000 : W32).toNat + (0 : W32).toNat * 2 ^ 32 = 0x2000
      decide +kernel
    rw [show ptrRid (req0 2 code [0, 0, 1, 0, 0x2000, 0, 0, 0]).buf = 0 by rw [SenReq.buf, h3]; decide +kernel, show (req0 2 code [0, 0, 1, 0, 0x2000, 0, 0, 0]).ctx = 0 from rfl, hr, h1, h2, Bool.and_true]
    have h4 : ∀ c : BitVec 16, (req0 2 c [0, 0, 1, 0, 0x2000, 0, 0, 0]).args = [0, 0, 1, 0, 0x2000, 0, 0, 0] := fun _ => rfl
    have h5 : ∀ c : BitVec 16, (req0 2 c [0, 0, 1, 0, 0x2000, 0, 0, 0]).lcount = 1 := fun c => by
      rw [SenReq.lcount, show (req0 2 c [0, 0, 1, 0, 0x2000, 0, 0, 0]).entry = 2 ^ 208 from rfl]; decide +kernel
    simp only [h5, SenReq.zeros, SenReq.arg2, SenReq.arg, h4]
    decide +kernel
  · simp only [SenReq.bufPages, hb, hp, pagesOf] at ha
    split at ha
    · simp at ha
    · simp only [List.mem_map, List.mem_range] at ha
      omega
  · rfl

/-- The wave is parked in an upcall whose message is or is not posted. -/
def park0 (msg : Option (List Byte)) : Park := { order := 0, core := 0, wslot := 0, seq := 0, reg := 20, msg := msg, reply := none }
def devUp (msg : Option (List Byte)) : State :=
  { devW (fun w => { w with park := some (park0 msg) }) with mem := [(0, 1), (2, 0x10), (0x51, 0x40), (0x58, 4)] }
/-- A supervisor event, and the device with it and a ring of 2^`log` messages at 0x8000. -/
def event0 : SupEvent := SupEvent.zero dev 1
def devSup (log : W64) : State := ctlWr (ctlWr { dev with supEvents := [event0] } 0x740020 0x8000) 0x740028 log

theorem witness_RingsToLoam :
    ((devSup 6).supEvents = [event0] ∧ ctlBits (devSup 6) 0x740028 0 5 = 6 ∧ ctlBits (devSup 5) 0x740028 0 5 = 5 ∧ (ctlBits (devSup 6) 0x740030 0 32 + 2 ^ 32 - ctlBits (devSup 6) 0x740038 0 32) % 2 ^ 32 < 2 ^ 6)
    ∧ (let s := devUp (some (List.replicate 64 0)); let p := park0 (some (List.replicate 64 0)); firstParked s 0 = some (0, none, p) ∧ (sget 0 s.waves).any (fun w => decide (w.park = some p)) = true ∧ (Mailbox.read s 0).room = true
        ∧ (let m := Mailbox.read s 0; decide (0x60 ≤ m.base + 64 * (m.tail % 2 ^ m.log))) = true ∧ 64 ≤ (p.msg.getD []).length)
    ∧ (let s := devUp none; let v : W64 := 0x8000000000000000; v.getLsbD 63 = true ∧ ((s.waves.find? (fun e => ctxOf s e.1 = bits v.toNat 16 16 && e.2.park.any (fun x => x.msg.isNone && x.reply.isNone && x.core = bits v.toNat 6 7
        && x.wslot = bits v.toNat 0 6 && x.seq = v.extractLsb' 32 16))).map (·.1)) = some 0) := by decide +kernel

/-- A core whose sampler is due in clock 16, and a wave that has issued in it. -/
def devSm (log : W64) : State :=
  let s := { devW (fun w => { w with issued := some (0x1008, 0) }) with cores := [(0, { Core.reset with clock := 16 })] }
  ctlWr (ctlWr s (smReg 0 0) 0x8000000000000010) (smReg 0 8) (log + 0x8000)
/-- Debug slot 0 serves context 0 with a ring of 16 messages at 0x8000, and names the fibre. -/
def dbg0 : DbgEvent := { code := 1, idx := 0, ctx := 0, launch := 1, wg := 0, fib := 0, pc := 0x1008, addr := 0, bcode := 0, core := 0, clock := 0 }
def devDb (op : W64) (f : Fibre → Fibre) : State :=
  ctlWr (ctlWr (ctlWr (ctlWr { devF f with dbgEvents := [(0, [dbg0])] } (dbReg 0 0) 0x8000000000000000) (dbReg 0 8) 0x8004) (dbReg 0 0x68) 0x100000000) (dbReg 0 0x70) op

theorem witness_ObservationAndDebugSteps :
    (∀ log ∈ [3, 2], let s := devSm (BitVec.ofNat 64 log); sampleDue s 0 = true ∧ ctlBits s (smReg 0 8) 0 5 = log
      ∧ ((s.waves.filter (fun e => coreNo e.1 = 0 && (!(ctlBits s (smReg 0 0) 62 1 = 1) || ctxOf s e.1 = ctlBits s (smReg 0 0) 32 16))).find? (fun e => ctlBits s (smReg 0 0) 48 6 ≤ e.1 % 64)).any (fun e => e.1 == 0 && e.2.issued == some (0x1008, 0)) = true)
    ∧ ((skeys (weightsOf [(128 * 2 ^ 32 + 1, 3), (128 * 2 ^ 32 + 2, 4)] 128)).Nodup ∧ (weightsOf [(128 * 2 ^ 32 + 1, 3), (128 * 2 ^ 32 + 2, 4)] 128).map (fun x => 10 * x.2 / 7) = [4, 5])
    ∧ (let s := devDb 0 id; sget 0 s.dbgEvents = some [dbg0] ∧ ctlBits s (dbReg 0 8) 0 5 = 4 ∧ (ctlBits s (dbReg 0 0x10) 0 32 + 2 ^ 32 - ctlBits s (dbReg 0 0x18) 0 32) % 2 ^ 32 < 2 ^ 4
        ∧ debugSlot s (ctlBits s (dbReg 0 0) 32 16) = some 0 ∧ (namedFibre s 0).map (fun n => (n.gang, n.wk, n.slot)) = some (none, 0, 0)
        ∧ sget 0 s.dbBusy = none
        ∧ ((sget 0 s.waves).any (fun w => w.park.isNone && (sget 0 w.fibres).any (fun y => y.blocked.isNone) && (sget w.launch s.launches).any (fun l => decide (dumpAddr s 0 + 64 + fibreSize l ≤ memEnd)))) = true)
    ∧ (∀ m ∈ [0, 1], let s := devDb (BitVec.ofNat 64 (m * 2 ^ 32)) (fun y => { y with blocked := some .stopped, base := some { hdr := 0x1000, last := 0, ll := false } }); ctlBits s (dbReg 0 0x70) 32 2 = m
        ∧ (namedFibre s 0).map (fun n => (n.gang, n.wk, n.slot)) = some (none, 0, 0)
        ∧ ((sget 0 s.waves).any (fun w => (sget 0 w.fibres).any (fun y => y.blocked == some .stopped && y.resumed.isNone && y.base.isSome))) = true)
    ∧ (sget 0 ({ dev with dbBusy := [(0, (1, 0, 0))] } : State).dbBusy).isSome = true
    ∧ ∀ op ∈ [1, 2, 3], let v : W64 := BitVec.ofNat 64 (2 ^ 63 + op * 2 ^ 60); v.getLsbD 63 = true ∧ bits v.toNat 60 3 = op := by decide +kernel

theorem witness_OutsideAccesses :
    (let s := { dev with bar4 := [(0, 0x1000)] }; s.gangs.all (fun g => g.2.windows.isEmpty) = true ∧ sget (5 / 2 ^ 30) s.bar4 = some 0x1000 ∧ 5 % 2 ^ 30 + 4 ≤ 2 ^ 30 ∧ 0x1000 + 5 % 2 ^ 30 + 4 ≤ memEnd ∧ sget (2 ^ 30 / 2 ^ 30) s.bar4 = none)
    ∧ (dev.phase = .running ∧ 1 ∉ dev.peers.fenced ∧ memEnd + 4 ≤ 0x8000000000000 ∧ memEnd < memEnd + 4 ∧ 0x1000 + tyWidth 6 / 8 ≤ memEnd ∧ poisonedAt dev (addrs 0x1000 4) = false)
    ∧ 1 ∈ ({ dev with peers := { dev.peers with fenced := [1] } } : State).peers.fenced
    ∧ (dev.outer = [] ∧ quietB dev = true ∧ (∀ pas, memOwned dev none pas = false) ∧ dev.contexts.all (fun c => decide (c.2.recPa + 0x30 ≤ 0x1000)) = true)
    ∧ (let s := devOp (.copy (copy0 1)); memOwned s none (addrs 0x2000 4) = true ∧ memOwned s none (outerBytes s (.loam 0 (.load 0x2000 4))) = true) :=
  ⟨by decide +kernel, by decide +kernel, by decide +kernel, ⟨rfl, by decide +kernel, fun _ => rfl, by decide +kernel⟩, by decide +kernel⟩

/-- A member that waits for its image, whose parent's offer it holds. -/
def devLoading (offers : List Offer) (parent : Option Nat) : State :=
  { State.reset with phase := .loading, peers := { State.reset.peers with role := 0, peerId := 1, fabMask := 1, offers := offers, parent := parent } }

theorem witness_BootAndRootOfTrust :
    (State.reset.rtc.seed = none ∧ State.reset.phase = .running ∧ State.reset.rtc.repairLog.length ≤ 8 ∧ (State.reset.rtc.repairLog.getD 0 0).getLsbD 15 = false ∧ State.reset.rtc.repair.getD 0 8 ≤ 8 ∧ 0 ≠ State.reset.rtc.repair.getD 0 8)
    ∧ ((devLoading [] none).phase = .loading ∧ (ports (devLoading [] none).peers).contains 0 = true)
    ∧ repairMap (List.replicate 4096 0) [] = some [0, 0, 0, 0] ∧ roleOf (List.replicate 4096 0) = 0 ∧ roleOf (List.replicate 0x2B 0 ++ [2]) ≠ 0
    ∧ repairMap (List.replicate 4096 0) [0x8001] = none ∧ (List.replicate 4096 (0 : Byte)).length = 4096 := by decide +kernel

/-- The cases of images: whatever the digest function gives, one offer of it is loaded, and an offer of another length is not. -/
theorem witness_imageLoadComplete (image : List Byte) :
    (let o : Offer := { port := 0, length := image.length, digest := Config.sha3 image, sig := [] }; (devLoading [o] (some 0)).peers.offers = [o] ∧ Config.sha3 image = o.digest ∧ image.length = o.length)
    ∧ (let o : Offer := { port := 0, length := image.length + 1, digest := [], sig := [] }; (devLoading [o] (some 0)).peers.offers = [o] ∧ image.length ≠ o.length) := by
  refine ⟨⟨rfl, rfl, rfl⟩, rfl, ?_⟩
  simp

/-- A root, and a member that has missed eight heartbeats of it. -/
def devPeer (p : Peers → Peers) : State := { dev with peers := p { dev.peers with fabMask := 3, count := 8 } }

theorem witness_FailuresAndPeers :
    (dev.phase = .running ∧ ((sget 0 dev.waves).any (fun w => (sget 0 w.fibres).isSome)) = true ∧ 0x1000 < memEnd ∧ 2 * (sgetD 0 dev.sensors.spared 0 + 1) ≤ 4)
    ∧ (let p := (devPeer (fun p => { p with role := 1, missing := [(2, 8)] })).peers; (p.role ≠ 2 ∧ (p.role == 1 || p.acting) = true ∧ 8 ≤ sgetD 0 p.missing 2 ∧ 2 ∉ p.fenced ∧ 2 ≠ 0 ∧ sgetD 0 p.missing 3 < 8))
    ∧ (let p := (devPeer (fun p => { p with role := 0, peerId := 1, rootMissing := 8 })).peers; (p.role = 0 ∧ p.acting = false ∧ p.selfLoss = false ∧ 8 ≤ p.rootMissing ∧ 2 * (insertNat p.peerId p.lossFrom).length ≤ p.count - 1
        ∧ p.lastSerial ≠ 5 ∧ (p.role == 1 || p.acting) = false ∧ 2 ∉ p.fenced ∧ 2 ∉ p.lossFrom ∧ 2 ≠ p.peerId))
    ∧ dev.ops.isEmpty = true := by decide +kernel

/-! ### Words, steps, and the whole machine -/

theorem witness_StepRunsTheInstruction :
    ((let s := at_ (.nop g0 (br 0 0)); s.agenda.isEmpty && s.phase == .running && (prepares s).isNone && nextWave s == some 0
      && (sget 0 s.waves).any (fun w => w.clause.any (fun c => (c.words[c.idx]?).any (fun x => decide (decode x = .instr (.nop g0 (br 0 0))))))) = true)
    ∧ ((let s := { State.reset with agenda := [.heartbeatSend] }; s.agenda == [.heartbeatSend] && s.phase == .running) = true)
    ∧ ((let s := State.reset; s.agenda.isEmpty && (prepares s).isNone && (nextWave s).isNone) = true)
    ∧ (devLoading [] none).agenda.isEmpty = true ∧ (devLoading [] none).phase ≠ .running := by decide +kernel

/-- A word of no assigned opcode, and one with a nonzero field that it does not use. -/
def badWord : Instr := .unassignedOpcode 0xFFFFFFFFFFFFFFFF
def badAdd : Instr := .iadd g0 { rab 2 with c := 1 }

theorem witness_IllegalInstructionsTrap :
    ((let s := atR badWord; openB s && s.cur == some 0 && (sget 0 s.waves).any (fun w => w.clause.any (fun c => c.started && c.slots == [0] && (sget w.launch s.launches).any (fun l =>
        let z : Site := { wk := 0, w := w, c := c, l := l, f := (form badWord).getD { cls := 0 } }
        formError l badWord (bits c.header.toNat 16 4) (c.idx = c.words.length - 1) [] == some 1 && (sget 0 w.fibres).any (canTrapB s z))))) = true)
    ∧ ((let s := atR badAdd; openB s && (form badAdd).isSome && s.cur == some 0 && (sget 0 s.waves).any (fun w => w.clause.any (fun c => c.started && c.slots == [0] && (sget w.launch s.launches).any (fun l =>
        let z : Site := { wk := 0, w := w, c := c, l := l, f := (form badAdd).getD { cls := 0 } }
        (formError l badAdd (bits c.header.toNat 16 4) (c.idx = c.words.length - 1) []).isSome && (sget 0 w.fibres).any (canTrapB s z))))) = true)
    ∧ State.reset.cur = none := by decide +kernel

theorem witness_wholeMachine :
    (∀ i ∈ ([.iadd g0 (rab 2), .ld g0 (mem 8 1), .nop g0 (br 0 0), .mma g0 mx, badWord] : List Instr), i.WellFormed)
    ∧ (∀ w, Instr.iadd g0 (rab 2) ≠ .unassignedOpcode w) ∧ headerError 0xD400000000060000 = none
    ∧ (sget 1 dev.launches = some launch0 ∧ 0 < launch0.gang ∧ 0 < gangCount launch0) ∧ (3 : BitVec 4) ≠ 0 := by
  refine ⟨by decide +kernel, fun w => by simp, by decide +kernel, by decide +kernel, by decide⟩

theorem witness_MemoryStaysCanonical :
    let s := State.reset.withFetchWord 64 0xC700000000000000
    Memory.wf s.mem = true ∧ (match step s with | .next t => Memory.wf t.mem | _ => false) = true := by decide +kernel

/-! ### Well-formed instructions and words -/

/-- A term that fails each check of R100 is not well formed: a nonzero field that is not used, a reserved value, an odd pair's register, a
compressed field, an event, and an assigned opcode named as unassigned. -/
theorem test_ill_formed :
    (Instr.iadd g0 { rab 2 with c := 1 }).wf = false ∧ (Instr.iadd g0 (rab 0x1F)).wf = false ∧ (Instr.fadd g0 { rab 0xB with rnd := 7 }).wf = false
    ∧ (Instr.shlRi g0 { ri 2 with imm := 0x100 }).wf = false ∧ (Instr.barinit g0 { sy 0 2 with va := 2, vb := 7, scope := 7 }).wf = false
    ∧ (Instr.nop g0 { br 0 0 with va := 1 }).wf = false ∧ Instr.heartbeatSend.wf = false ∧ (Instr.unassignedOpcode 0).wf = false
    ∧ (Instr.iadd g0 (rab 2)).wf = true := by decide +kernel

/-- Words that the examples of R147, R157, R168, R183, R196, R202, R205, R217, R233, R246, R252 and R267 write out, and others written from the
formats of R84 to R96, with the instructions they stand for. -/
theorem test_decode :
    decode 0x4400482008284003 = .instr (.shfl g0 { d := 9, a := 4, b := 1, c := 5, usrc := 0, ty := 8, rnd := 0, opx := 3 })
    ∧ decode 0x8000301880204021 = .instr (.ld g0 { data := 6, idx := 3, buf := 2, scope := 0, ord := 0, ty := 8, off := 16, cache := 0, mopx := 0x21 })
    ∧ decode 0x86003010E1180000 = .instr (.atom g0 { data := 6, idx := 2, buf := 3, scope := 4, ord := 2, ty := 6, off := 0, cache := 0, mopx := 0 })
    ∧ decode 0xC0300007FFFFFFC0 = .instr (.bra { gp := 3, gs := 0 } { va := 0, vb := 0, disp := 0xFFFFFFF8, ctopx := 0 })
    ∧ decode 0xD200505A30000000 = .instr (.waitPh g0 { va := 10, vb := 11, pd := 4, scope := 3, cond := 0, syimm := 0, sub := 0 })
    ∧ decode 0xF200000000000003 = .instr (.tretKillg g0 { va := 0, vb := 0, ga := 0, code := 0, sysopx := 3 })
    ∧ decode 0xF400000140031000 = .instr (.upcall g0 { va := 0, vb := 0, ga := 20, code := 0x31, sysopx := 0 })
    ∧ decode 0xA20234500380C000 = .instr (.mma g0 { acc := 2, tile := 3, quad := 1, va := 20, gs := 0, aty := 0x0E, nslab := 3, mxopx := 0 })
    ∧ decode 0xB30094290FFF6000 = .instr (.cpymc g0 { trec := 2, gsa := 40, gba := 41, cmask := 0x0FFF, scope := 3, cpopx := 0 })
    ∧ decode 0xD902014161860000 = .instr (.rsvupd g0 { qd := 2, qs := 0, va := 10, vb := 11, vc := 12, pd := 3, rtimm := 0, sub := 0 })
    ∧ decode 0xDF0000A000040008 = .instr (.tagnewTry g0 { qd := 0, qs := 0, va := 5, vb := 0, vc := 0, pd := 2, rtimm := 1, sub := 0 })
    ∧ decode 0xDF0000A000000002 = .instr (.tagset g0 { qd := 0, qs := 0, va := 5, vb := 0, vc := 0, pd := 0, rtimm := 0, sub := 2 })
    ∧ decode 0xE000C0010088053F = .instr (.trace g0 { vd := 24, va := 0, vb := 32, desc := 2, pd := 2, gxopx := 0x53F })
    ∧ decode 0xC500000000000000 = .instr (.exit g0 { va := 0, vb := 0, disp := 0, ctopx := 0 })
    ∧ decodeTableWord 64 0xF200000000000003 = some (.tretKillg g0 { va := 0, vb := 0, ga := 0, code := 0, sysopx := 3 })
    ∧ decode 0xD400000000000000 = .instr (.unassignedOpcode 0xD400000000000000) := by decide +kernel

/-! ### The manual's worked examples -/

/-- The first fibre after an instruction on the loaded device. -/
def after (i : Instr) (f : Fibre → Fibre) : Option Fibre :=
  match exec i (modFibre (at_ i) 0 0 f) with
  | .next t => fibreAt t 0 0
  | _ => none
/-- Register v8 after an instruction on A = v2, B = v4, C = v6. -/
def d8 (i : Instr) (a b : W32) (c : W32 := 0) : Option W32 := (after i (fun y => ((y.setV 2 a).setV 4 b).setV 6 c)).map (·.rv 8)

/-- R120, R121. -/
theorem test_integers :
    d8 (.iadd g0 (rab 2)) 0x7FFFFFF0 0x20 = some 0x80000010 ∧ d8 (.iadd g0 (rab 2 1)) 0x7FFFFFF0 0x20 = some 0x7FFFFFFF ∧ d8 (.isub g0 (rab 6 1)) 3 5 = some 0
    ∧ d8 (.idiv g0 (rab 2)) (-7) 2 = some (-3) ∧ d8 (.irem g0 (rab 2)) (-7) 2 = some (-1) ∧ d8 (.idiv g0 (rab 6)) 9 0 = some 0xFFFFFFFF ∧ d8 (.irem g0 (rab 6)) 9 0 = some 9 := by
  decide +kernel

/-- R122. -/
theorem test_addc :
    (after (.addc g0 (rab 6 4)) (fun y => (y.setV 2 0xFFFFFFFF).setV 4 1)).map (fun y => (y.rv 8, y.rp 4)) = some (0, true)
    ∧ (after (.addc g0 { rab 6 0x14 with c := 4 }) (fun y => ((y.setV 2 1).setV 4 0).setP 4 true)).map (fun y => (y.rv 8, y.rp 4)) = some (2, false) := by decide +kernel

/-- R125. -/
theorem test_bit_fields :
    d8 (.bfx g0 (rab 6)) 0xC300 0x808 = some 0xC3 ∧ d8 (.bfx g0 (rab 2)) 0xC300 0x808 = some 0xFFFFFFC3 ∧ d8 (.bfi g0 (rabc 8)) 0xFFFFFFFF 5 0x404 = some 0xFFFFFF5F := by decide +kernel

/-- R56, R60: 300 and −1000 to both formats of eight bits; 200.7 and −2.5 to i8. -/
theorem test_conversions :
    convert 0xE 0xB .near false false false 0x43960000 = 0x79 ∧ convert 0xF 0xB .near false false false 0x43960000 = 0x5D ∧ convert 0xE 0xB .near false false false 0xC47A0000 = 0xFE
    ∧ convert 0xE 0xB .near false true false 0xC47A0000 = 0x7F ∧ convert 0xF 0xB .near false false false 0xC47A0000 = 0xE4 ∧ convert 0xE 0xB .near false false false 0x3C23D70A = 0x05
    ∧ convert 0xF 0xB .near true false false 0x7F800000 = 0x7B ∧ convert 0 0xB .near false false false 0x4348B333 = 0x7F ∧ convert 0 0xB .near false false false 0xC0200000 % 256 = 0xFE
    ∧ convert 0 0xB .down false false false 0xC0200000 % 256 = 0xFD ∧ convert 0 0xB .near false false false 0x7FC00000 = 0 := by decide +kernel

/-- R135: sin(π/2), sin(−3π), the logarithm of 8 and 2 to the −150. -/
theorem test_functions :
    d8 (.fsin g0 (ra 0xB)) 0x3F000000 0 = some 0x3F800000 ∧ d8 (.fsin g0 (ra 0xB)) 0xC0400000 0 = some 0 ∧ d8 (.flg2 g0 (ra 0xB)) 0x41000000 0 = some 0x40400000
    ∧ d8 (.fex2 g0 (ra 0xB)) 0xC3160000 0 = some 0 := by decide +kernel

/-- R62 to R64 and R69: the two slabs of the block-float example, and its drain. -/
theorem test_block_float :
    let row (l : List (Int × Int)) : List (Nat × List (List (Nat × Int × Int))) := [(0, [l.map (fun p => (0, p.1, p.2))])]
    let t1 := commitMain Tile.zero (row [(3, 0), (1, -3)])
    let t2 := commitMain t1 (row [(1, 20), (1, -26), (1, -26)])
    (t1.exp, sgetD 0 t1.mant 0) = (-35, 25 * 2 ^ 32) ∧ (t2.exp, sgetD 0 t2.mant 0) = (-25, 25 * 2 ^ 22 + 2 ^ 45)
    ∧ drainScaled .near (drainValue t2 Tile.zero 0) 0x3F000000 0x40800000 = 0x4A000019 := by decide +kernel

/-- R68: two products of 2^−24 on 1.0. -/
theorem test_pair_path : pairStep 0x3F800000 0 (.fin false 1 (-24)) = (0x3F800000, 0x33800000) ∧ pairStep 0x3F800000 0x33800000 (.fin false 1 (-24)) = (0x3F800000, 0x34000000) := by
  decide +kernel

/-- R248 and R249: the cap of 30 at 20, and the weight after the merge. -/
theorem test_reservoirs :
    (let q : Rsv := { fin := true, msat := false, badw := false, m := 30, wsum := 0x40C00000, phat := 0x3F800000, y := 7 }
     (after (.rsvcapI g0 (rt 0 1 0 0 0 0 0 0x2014)) (fun y => y.setRsv 1 q 0)).map (fun y => y.rsv 1) = some { q with fin := false, m := 20, wsum := 0x40800000 })
    ∧ (let q : Rsv := { fin := false, msat := false, badw := false, m := 5, wsum := 0x40E00000, phat := 0x3F800000, y := 7 }
       (after (.rsvfin g0 (rt 0 1 0 2 0 0 3)) (fun y => y.setRsv 1 q 0)).map (fun y => (y.rv 2, y.rp 3, (y.rsv 1).fin)) = some (0x3FB33333, true, true)) := by decide +kernel

/-- R320, R324 and R380: the home of a line, the leaf of a page, and the signature of nine bytes. -/
theorem test_tables :
    homeSlice 0x234567890 = 97
    ∧ (walk { dev with mem := [(0, 1), (2, 0x10), (0x100000, 1), (0x100002, 0x11), (0x110000, 1), (0x110002, 0x12), (0x120000, 1), (0x120002, 0x13), (0x130000, 1), (0x130002, 0x14),
        (0x140800, 0xED), (0x140802, 2)] } 0 0x100680 = .leaf 0x200ED 0x140800 12 ∧ leafPa 0x200ED 12 0x100680 = 0x20680)
    ∧ crc64 [0x31, 0x32, 0x33, 0x34, 0x35, 0x36, 0x37, 0x38, 0x39] = 0x6C40DF5F0B497347 := by
  decide +kernel

/-- R468: stack 2 with its logged cluster 3 in place of 8. -/
theorem test_repair_map : repairMap ((List.replicate 0x28 0 ++ [0, 0x8, 0x4]) ++ List.replicate 16 0) [0x8023] = some [0, 0, 3, 0] := by decide +kernel

/-- R21: with physical clusters 8, 8, 3 and 8 inactive, logical cluster 20 is physical cluster 5 of its stack. -/
theorem test_physical_cluster : physicalCluster [8, 8, 3, 8] 20 = 5 ∧ physicalCluster [8, 8, 3, 8] 18 = 2 ∧ physicalCluster [8, 8, 3, 8] 7 = 7 := by decide +kernel

/-- A step on a device that holds a `nop` runs it: the fibre stands past it (R70). -/
theorem test_step : (match step (State.reset.withFetchWord 64 0xC700000000000000) with | .next t => (fibreAt t 0 0).map (·.pc) | _ => none) = some 0x1010 := by decide +kernel

end Sys2Proof.Tests
end

section
/-! SUPPORT. Accesses from outside the core array (R307, R319, R406, R435, R477, R481, R482): what the host, the peers and the Loam cores
read and write where no window stands before memory and no engine owns a line, and how an access waits behind an owned line (R297). -/

namespace Sys2Proof.Machine

/-! ### Runs of bytes of memory -/

@[simp] theorem length_addrs (a n : Nat) : (addrs a n).length = n := by simp [addrs]

theorem mem_addrs {a n p : Nat} : p ∈ addrs a n ↔ a ≤ p ∧ p < a + n := by
  simp only [addrs, List.mem_map, List.mem_range]
  exact ⟨fun ⟨j, hj, e⟩ => by omega, fun h => ⟨p - a, by omega, by omega⟩⟩

theorem addrs_succ (a n : Nat) : addrs a (n + 1) = a :: addrs (a + 1) n := by
  simp only [addrs, List.range_succ_eq_map, List.map_cons, List.map_map, Nat.add_zero]
  congr 1
  exact List.map_congr_left fun j _ => by simp only [Function.comp_apply]; omega

theorem addrs_shift (a b n : Nat) : (addrs a n).map (fun x => b + (x - a)) = addrs b n := by
  simp [addrs, List.map_map, Function.comp_def]

/-- Byte for byte, a run of data is stored upward from its first address. -/
theorem foldl_pPut_addrs (data : List Byte) (a : Nat) (s : State) :
    ((addrs a data.length).zip data).foldl (fun s c => pPut s c.1 c.2) s = pPuts s a data := by
  induction data generalizing a s with
  | nil => rfl
  | cons b data ih => rw [List.length_cons, addrs_succ, List.zip_cons_cons, List.foldl_cons, ih]; rfl

theorem pPuts_rest (s : State) (a : Nat) (data : List Byte) : { pPuts s a data with mem := s.mem } = s := by
  induction data generalizing a s with
  | nil => rfl
  | cons b data ih => exact congrArg (fun t : State => { t with mem := s.mem }) (ih (pPut s a b) (a + 1))

/-- The bytes from an address upward are those of the data, and nothing but memory and its poison differs. -/
def Takes (s t : State) (a : Nat) (data : List Byte) : Prop :=
  (∀ j < data.length, pByte t (a + j) = data.getD j 0)
    ∧ (∀ p, (∀ j < data.length, p ≠ a + j) → pByte t p = pByte s p) ∧ { t with mem := s.mem, memPois := s.memPois } = s

theorem Takes.outer {s t : State} {a : Nat} {data : List Byte} (h : Takes s t a data) : t.outer = s.outer :=
  (congrArg State.outer h.2.2 :)

theorem Takes.out {s t : State} {a : Nat} {data : List Byte} (h : Takes s t a data) : t.out = s.out :=
  (congrArg State.out h.2.2 :)

theorem takes_pPuts (s : State) (a : Nat) (data : List Byte) (pois : List Nat) :
    Takes s { pPuts s a data with memPois := pois } a data := by
  refine ⟨fun j hj => ?_, fun p hp => ?_, ?_⟩
  · rw [List.getD_eq_getElem _ _ hj]
    exact pByte_pPuts_inside s data j hj
  · refine pByte_pPuts_outside s data ?_
    by_contra hc
    exact hp (p - a) (by omega) (by omega)
  · exact congrArg (fun t : State => { t with memPois := s.memPois }) (pPuts_rest s a data)

/-! ### Memory that nothing stands before -/

/-- No window is mapped, no access waits, and no engine owns a line: an access from outside reaches memory at once. -/
structure Unhindered (s : State) : Prop where
  windows : ∀ g ∈ s.gangs, g.2.windows = []
  outer : s.outer = []
  owned : ∀ pas, memOwned s none pas = false

theorem readBytes_unmapped {s : State} (h : ∀ g ∈ s.gangs, g.2.windows = []) (pas : List Nat) :
    readBytes s pas = (s, pas.map (pByte s), poisonedAt s pas) := by
  simp only [readBytes, snoop_open h]

theorem takes_writeBytes {s : State} (h : ∀ g ∈ s.gangs, g.2.windows = []) (a : Nat) (data : List Byte) (pois : Bool) :
    Takes s (writeBytes s ((addrs a data.length).zip data) pois) a data := by
  simp only [writeBytes, snoop_open h, foldl_pPut_addrs]
  exact takes_pPuts s a data _

theorem writeBytes_nil {s : State} (h : ∀ g ∈ s.gangs, g.2.windows = []) : writeBytes s [] false = s := by
  have hp : poisonAfter s.memPois [] false = s.memPois := List.filter_eq_self.2 fun _ _ => rfl
  simp only [writeBytes, snoop_open h, List.map_nil, List.foldl_nil, hp]

/-- No byte of a run is one of a context's MTAIL. -/
def TailFree (s : State) (a n : Nat) : Prop :=
  ∀ c ∈ s.contexts, ∀ p, a ≤ p → p < a + n → ¬(c.2.recPa + 0x2C ≤ p ∧ p < c.2.recPa + 0x30)

/-- A write that has no byte of an MTAIL looks at no Marl ring (R337). -/
theorem outerWrite_untailed {s : State} {cells : List Host.Cell}
    (h : ∀ c ∈ s.contexts, ∀ x ∈ cells, ¬(c.2.recPa + 0x2C ≤ x.1 ∧ x.1 < c.2.recPa + 0x30)) :
    outerWrite s cells = writeBytes s cells false := by
  unfold outerWrite
  refine foldl_same _ _ _ fun c hc => if_neg ?_
  rw [List.any_eq_true]
  rintro ⟨x, hx, hin⟩
  exact h c hc x hx (by simpa using hin)

theorem outerWrite_run {s : State} {a : Nat} {data : List Byte} (h : TailFree s a data.length) :
    outerWrite s ((addrs a data.length).zip data) = writeBytes s ((addrs a data.length).zip data) false :=
  outerWrite_untailed fun c hc x hx =>
    have hp := mem_addrs.1 (List.of_mem_zip hx).1
    h c hc x.1 hp.1 hp.2

theorem takes_outerWrite {s : State} (hw : ∀ g ∈ s.gangs, g.2.windows = []) {a : Nat} {data : List Byte} (h : TailFree s a data.length) :
    Takes s (outerWrite s ((addrs a data.length).zip data)) a data := by
  rw [outerWrite_run h]
  exact takes_writeBytes hw a data false

/-- An atomic operation on good memory answers with what stood there and stores its result (R168). -/
theorem atomAt_good {s : State} (hw : ∀ g ∈ s.gangs, g.2.windows = []) (pa : Nat) (op : BitVec 4) (ty : BitVec 5) (x y : W64)
    (hp : poisonedAt s (addrs pa (tyWidth ty / 8)) = false) :
    let n := tyWidth ty / 8
    let there := (addrs pa n).map (pByte s)
    ∃ t, atomAt s pa op ty x y = (t, there, false)
      ∧ Takes s t pa (toBytesLE n (atomGroup op ty (BitVec.ofNat 64 (fromBytesLE there)) [(x, y)]).1.toNat) := by
  intro n there
  have ht := takes_writeBytes hw pa (toBytesLE n (atomGroup op ty (BitVec.ofNat 64 (fromBytesLE there)) [(x, y)]).1.toNat) false
  rw [toBytesLE_length] at ht
  refine ⟨_, ?_, ht⟩
  simp only [atomAt, readBytes_unmapped hw, hp, Bool.false_eq_true, if_false]
  rfl

/-! ### Accesses in order (R297) -/

theorem setOuter_nil {s : State} {agent : Nat} (h : s.outer = []) : setOuter s agent [] = s := by
  simp [setOuter, h]

/-- An access that nothing holds up is performed at once. -/
theorem outerAccess_next {s t : State} (h : Unhindered s) {i : Outer} (hi : performOuter i s = .next t) (ht : t.outer = s.outer) (agent : Nat) :
    outerAccess agent i s = .next t := by
  simp only [outerAccess, h.outer, sgetD_nil, List.nil_append, outerRun, h.owned, hi, Bool.false_eq_true, if_false]
  rw [setOuter_nil (ht.trans h.outer)]

theorem outerAccess_fault {s : State} (h : Unhindered s) {i : Outer} {r : Fault} (hi : performOuter i s = .fault r) (agent : Nat) :
    outerAccess agent i s = .fault r := by
  simp only [outerAccess, h.outer, sgetD_nil, List.nil_append, outerRun, h.owned, hi, Bool.false_eq_true, if_false]

/-- Where the first access of an agent reaches an owned line, all of them wait. -/
theorem outerRun_owned {s : State} {i : Outer} (h : memOwned s none (outerBytes s i) = true) (agent : Nat) (rest : List Outer) :
    outerRun agent (i :: rest) s = .next { s with outer := sputD [] agent (i :: rest) s.outer } := by
  simp [outerRun, h, setOuter]

theorem outerAccess_waits {s : State} {i : Outer} {agent : Nat} {earlier : List Outer} (he : sgetD [] s.outer agent = earlier)
    (h : earlier = [] ∧ memOwned s none (outerBytes s i) = true ∨ ∃ j rest, earlier = j :: rest ∧ memOwned s none (outerBytes s j) = true) :
    outerAccess agent i s = .next { s with outer := sputD [] agent (earlier ++ [i]) s.outer } := by
  rw [outerAccess, he]
  rcases h with ⟨rfl, h⟩ | ⟨j, rest, rfl, h⟩
  · exact outerRun_owned h agent []
  · exact outerRun_owned h agent (rest ++ [i])

/-! ### The host's window (R481) -/

theorem slot_same {addr len p : Nat} (hf : addr % 2 ^ 30 + len ≤ 2 ^ 30) (hp : p ∈ addrs addr len) :
    p / 2 ^ 30 = addr / 2 ^ 30 ∧ p % 2 ^ 30 = addr % 2 ^ 30 + (p - addr) := by
  have := mem_addrs.1 hp
  omega

/-- Bytes within a bound slot stand in a run of memory. -/
theorem map_bar4Pa_bound {s : State} {addr len base : Nat} (hb : sget (addr / 2 ^ 30) s.bar4 = some base) (hf : addr % 2 ^ 30 + len ≤ 2 ^ 30) :
    (addrs addr len).map (bar4Pa s) = (addrs (base + addr % 2 ^ 30) len).map some := by
  rw [← addrs_shift addr (base + addr % 2 ^ 30), List.map_map]
  refine List.map_congr_left fun p hp => ?_
  obtain ⟨hq, hr⟩ := slot_same hf hp
  rw [bar4Pa, hq, hb, hr, Option.map_some, Function.comp_apply, Nat.add_assoc]

theorem map_bar4Pa_unbound {s : State} {addr len : Nat} (hb : sget (addr / 2 ^ 30) s.bar4 = none) (hf : addr % 2 ^ 30 + len ≤ 2 ^ 30) :
    (addrs addr len).map (bar4Pa s) = List.replicate len none := by
  refine List.eq_replicate_iff.2 ⟨by simp, fun b hm => ?_⟩
  obtain ⟨p, hp, rfl⟩ := List.mem_map.1 hm
  rw [bar4Pa, (slot_same hf hp).1, hb, Option.map_none]

theorem hostCells_eq (s : State) (addr : Nat) (data : List Byte) :
    hostCells s addr data = (((addrs addr data.length).map (bar4Pa s)).zip data).filterMap (fun c => c.1.map (·, c.2)) := by
  rw [hostCells, List.zip_map_left, List.filterMap_map]
  rfl

theorem hostCells_bound {s : State} {addr base : Nat} {data : List Byte} (hb : sget (addr / 2 ^ 30) s.bar4 = some base)
    (hf : addr % 2 ^ 30 + data.length ≤ 2 ^ 30) : hostCells s addr data = (addrs (base + addr % 2 ^ 30) data.length).zip data := by
  rw [hostCells_eq, map_bar4Pa_bound hb hf, List.zip_map_left, List.filterMap_map]
  exact List.filterMap_some

theorem hostCells_unbound {s : State} {addr : Nat} {data : List Byte} (hb : sget (addr / 2 ^ 30) s.bar4 = none)
    (hf : addr % 2 ^ 30 + data.length ≤ 2 ^ 30) : hostCells s addr data = [] := by
  rw [hostCells_eq, map_bar4Pa_unbound hb hf]
  refine List.filterMap_eq_nil_iff.2 fun c hc => ?_
  rw [List.eq_of_mem_replicate (List.of_mem_zip hc).1, Option.map_none]

theorem below_memEnd {a n : Nat} (h : a + n ≤ memEnd) : (addrs a n).any (memEnd ≤ ·) = false := by
  rw [List.any_eq_false]
  intro p hp
  have := mem_addrs.1 hp
  simp only [decide_eq_true_eq]
  omega

theorem hostRead_bound {s : State} (hw : ∀ g ∈ s.gangs, g.2.windows = []) {addr len base : Nat} (hb : sget (addr / 2 ^ 30) s.bar4 = some base)
    (hf : addr % 2 ^ 30 + len ≤ 2 ^ 30) (he : base + addr % 2 ^ 30 + len ≤ memEnd) :
    let pas := addrs (base + addr % 2 ^ 30) len
    hostRead { offset := addr, noSnoop := false } len s = .next { s with out := s.out ++ [.hostData (pas.map (pByte s)) (poisonedAt s pas)] }
    ∧ hostRead { offset := addr, noSnoop := true } len s = .next { s with
        noSnoops := s.noSnoops + 1, out := s.out ++ [.hostData ((pas.map (unsnooped s)).map (·.1)) ((pas.map (unsnooped s)).any (·.2))] } := by
  intro pas
  have hid : ((addrs (base + addr % 2 ^ 30) len).map some).filterMap id = pas := by rw [List.filterMap_map]; exact List.filterMap_some
  simp only [hostRead, map_bar4Pa_bound hb hf, hid, show pas.any (memEnd ≤ ·) = false from below_memEnd he, readBytes_unmapped hw, List.map_map, List.any_map, Bool.false_eq_true, if_false, if_true]
  exact ⟨rfl, rfl⟩

theorem hostRead_unbound {s : State} (hw : ∀ g ∈ s.gangs, g.2.windows = []) {addr len : Nat} (hb : sget (addr / 2 ^ 30) s.bar4 = none)
    (hf : addr % 2 ^ 30 + len ≤ 2 ^ 30) :
    hostRead { offset := addr, noSnoop := false } len s = .next { s with out := s.out ++ [.hostData (List.replicate len 0xFF) false] } := by
  have hid : (List.replicate len (none : Option Nat)).filterMap id = [] :=
    List.filterMap_eq_nil_iff.2 fun x hx => List.eq_of_mem_replicate hx
  simp only [hostRead, map_bar4Pa_unbound hb hf, hid, readBytes_unmapped hw, List.map_replicate, List.any_nil, Bool.false_eq_true, if_false]
  rfl

end Sys2Proof.Machine
end

section
/-! SUPPORT. Writes of device registers (R319, R331, R395, R406, R435, R462), and what the accesses of the host, of peers and of Loam cores come to. -/

namespace Sys2Proof.Machine

/-! ### Registers -/

theorem exec_registerWrite {off : Nat} (h : off % 8 = 0) (v : W64) (s : State) : exec (.registerWrite (0x8000000000000 + off) v) s = writeReg off v s := by
  have hc : (decide (ctlBase ≤ 0x8000000000000 + off) && decide ((0x8000000000000 + off) % 8 = 0)) = true := by
    simp only [Bool.and_eq_true, decide_eq_true_eq]; unfold ctlBase; omega
  show execRegisterWrite _ v s = _
  rw [execRegisterWrite, if_pos hc, ctlBase, Nat.add_sub_cancel_left]

/-- Below device control space stands no register. -/
theorem exec_registerWrite_below {a : Nat} (h : a < 0x8000000000000) (v : W64) (s : State) : exec (.registerWrite a v) s = .next s :=
  if_neg (by simp only [Bool.and_eq_true, decide_eq_true_eq]; unfold ctlBase; omega)

theorem writeReg_xl {k : Nat} (h : k < 16) (v : W64) (s : State) : writeReg (0x100000 + 0x1000 * k) v s = writeXl k 0 v s := by
  have hq : (0x100000 + 0x1000 * k - 0x100000) / 0x1000 = k := by omega
  have hr : (0x100000 + 0x1000 * k) % 0x1000 = 0 := by omega
  rw [writeReg, if_pos (by simp only [Bool.and_eq_true, decide_eq_true_eq]; omega), hq, hr]

theorem writeReg_lq {q r : Nat} (hq : q < 64) (hr : r < 0x40) (v : W64) (s : State) : writeReg (lqReg q r) v s = writeLq q r v s := by
  have h1 : (lqReg q r - 0x700000) / 0x40 = q := by unfold lqReg; omega
  have h2 : lqReg q r % 0x40 = r := by unfold lqReg; omega
  have h3 : 0x700000 ≤ lqReg q r ∧ lqReg q r < 0x701000 := by unfold lqReg; omega
  generalize lqReg q r = a at *
  simp only [writeReg, Bool.and_eq_true, decide_eq_true_eq]
  rw [if_neg (by omega), if_neg (by omega), if_neg (by omega), if_neg (by omega), if_pos h3, h1, h2]

theorem writeReg_pg {r : Nat} (h : r < 0x70) (v : W64) (s : State) : writeReg (0x720000 + r) v s = .next (writePg r v s) := by
  simp only [writeReg, Bool.and_eq_true, decide_eq_true_eq]
  rw [if_neg (by omega), if_neg (by omega), if_neg (by omega), if_neg (by omega), if_neg (by omega), if_neg (by omega), if_pos (by omega),
    Nat.add_sub_cancel_left]

/-- A cap of a die takes its 32 bits (R406). -/
theorem writePg_cap {e : Nat} (h : e < 8) (v : W64) (s : State) : writePg (8 + 8 * e) v s = ctlWr s (0x720008 + 8 * e) (v &&& 0xFFFFFFFF) := by
  have ha : 0x720000 + (8 + 8 * e) = 0x720008 + 8 * e := by omega
  simp only [writePg, Bool.and_eq_true, Bool.or_eq_true, decide_eq_true_eq]
  rw [if_neg (by omega), if_pos (by omega), ha]

theorem writeReg_ev {r : Nat} (h : r < 0x40) (v : W64) (s : State) : writeReg (0x740000 + r) v s = .next (writeEv r v s) := by
  simp only [writeReg, Bool.and_eq_true, decide_eq_true_eq]
  rw [if_neg (by omega), if_neg (by omega), if_neg (by omega), if_neg (by omega), if_neg (by omega), if_neg (by omega), if_neg (by omega),
    if_pos (by omega), Nat.add_sub_cancel_left]

theorem writeReg_en {r : Nat} (h : r < 0x80) (v : W64) (s : State) : writeReg (0x790000 + r) v s = .next (writeEn r v s) := by
  simp only [writeReg, Bool.and_eq_true, decide_eq_true_eq]
  rw [if_neg (by omega), if_neg (by omega), if_neg (by omega), if_neg (by omega), if_neg (by omega), if_neg (by omega), if_neg (by omega),
    if_neg (by omega), if_neg (by omega), if_neg (by omega), if_pos (by omega), Nat.add_sub_cancel_left]

/-! ### The host (R481) -/

variable {s : State}

theorem exec_hostBar4Read (hu : Unhindered s) {addr len base : Nat} (hf : addr % 2 ^ 30 + len ≤ 2 ^ 30) (hb : sget (addr / 2 ^ 30) s.bar4 = some base)
    (he : base + addr % 2 ^ 30 + len ≤ memEnd) :
    let pas := addrs (base + addr % 2 ^ 30) len
    exec (.hostBar4Read { offset := addr, noSnoop := false } len) s = .next { s with out := s.out ++ [.hostData (pas.map (pByte s)) (poisonedAt s pas)] }
    ∧ exec (.hostBar4Read { offset := addr, noSnoop := true } len) s = .next { s with
        noSnoops := s.noSnoops + 1, out := s.out ++ [.hostData ((pas.map (unsnooped s)).map (·.1)) ((pas.map (unsnooped s)).any (·.2))] } := by
  intro pas
  obtain ⟨h1, h2⟩ := hostRead_bound hu.windows hb hf he
  exact ⟨outerAccess_next hu (i := .hostRead _ len) h1 rfl 16, outerAccess_next hu (i := .hostRead _ len) h2 rfl 16⟩

theorem exec_hostBar4Read_unbound (hu : Unhindered s) {addr len : Nat} (hf : addr % 2 ^ 30 + len ≤ 2 ^ 30) (hb : sget (addr / 2 ^ 30) s.bar4 = none) :
    exec (.hostBar4Read { offset := addr, noSnoop := false } len) s = .next { s with out := s.out ++ [.hostData (List.replicate len 0xFF) false] } :=
  outerAccess_next hu (i := .hostRead _ len) (hostRead_unbound hu.windows hb hf) rfl 16

theorem exec_hostBar4Write (hu : Unhindered s) {addr base : Nat} {data : List Byte} (hf : addr % 2 ^ 30 + data.length ≤ 2 ^ 30)
    (hb : sget (addr / 2 ^ 30) s.bar4 = some base) (he : base + addr % 2 ^ 30 + data.length ≤ memEnd)
    (ht : TailFree s (base + addr % 2 ^ 30) data.length) :
    ∃ t, exec (.hostBar4Write addr data) s = .next t ∧ Takes s t (base + addr % 2 ^ 30) data := by
  have htake := takes_outerWrite hu.windows ht
  refine ⟨_, outerAccess_next hu (i := .hostWrite addr data) ?_ htake.outer 16, htake⟩
  have hany : ((addrs (base + addr % 2 ^ 30) data.length).zip data).any (fun c => memEnd ≤ c.1) = false :=
    List.any_eq_false.2 fun c hc => List.any_eq_false.1 (below_memEnd he) c.1 (List.of_mem_zip hc).1
  simp only [performOuter, hostWrite, hostCells_bound hb hf, hany, Bool.false_eq_true, if_false]

/-- A write to an unbound slot is discarded. -/
theorem exec_hostBar4Write_unbound (hu : Unhindered s) {addr : Nat} {data : List Byte} (hf : addr % 2 ^ 30 + data.length ≤ 2 ^ 30)
    (hb : sget (addr / 2 ^ 30) s.bar4 = none) : exec (.hostBar4Write addr data) s = .next s := by
  have hnil : outerWrite s [] = s := (outerWrite_untailed fun _ _ _ hx => absurd hx List.not_mem_nil).trans (writeBytes_nil hu.windows)
  refine outerAccess_next hu (i := .hostWrite addr data) ?_ rfl 16
  simp only [performOuter, hostWrite, hostCells_unbound hb hf, List.any_nil, hnil, Bool.false_eq_true, if_false]

/-! ### Peers (R477, R482) -/

theorem peerHeard_running {peer : Nat} (hr : s.phase = .running) (hn : peer ∉ s.peers.fenced) : peerHeard s peer = true := by
  simp [peerHeard, hr, hn]

theorem peerHeard_fenced {peer : Nat} (hf : peer ∈ s.peers.fenced) : peerHeard s peer = false := by
  simp [peerHeard, hf]

theorem exec_fabricRead (hu : Unhindered s) {peer pa len : Nat} (hh : peerHeard s peer = true) (he : pa + len ≤ memEnd) :
    exec (.fabricRead peer pa len) s
      = .next { s with out := s.out ++ [.fabricData peer ((addrs pa len).map (pByte s)) (poisonedAt s (addrs pa len))] } := by
  refine outerAccess_next hu (i := .peerRead peer pa len) ?_ (by rfl) (17 + peer)
  simp only [performOuter, fabricRead, hh, Nat.not_lt.2 he, readBytes_unmapped hu.windows, Bool.not_true, Bool.false_eq_true, if_false]

theorem exec_fabricRead_past (hu : Unhindered s) {peer pa len : Nat} (hh : peerHeard s peer = true) (he : memEnd < pa + len) :
    exec (.fabricRead peer pa len) s = .fault .reservedAddress := by
  refine outerAccess_fault hu (i := .peerRead peer pa len) ?_ (17 + peer)
  simp only [performOuter, fabricRead, hh, he, Bool.not_true, Bool.false_eq_true, if_false, if_true]

theorem exec_fabricWrite (hu : Unhindered s) {peer pa : Nat} {data : List Byte} (hh : peerHeard s peer = true) (he : pa + data.length ≤ memEnd)
    (ht : TailFree s pa data.length) : ∃ t, exec (.fabricWrite peer pa data) s = .next t ∧ Takes s t pa data := by
  have htake := takes_outerWrite hu.windows ht
  refine ⟨_, outerAccess_next hu (i := .peerWrite peer pa data) ?_ htake.outer (17 + peer), htake⟩
  simp only [performOuter, fabricWrite, hh, Nat.not_lt.2 he, Bool.not_true, Bool.false_eq_true, if_false]

theorem exec_fabricAtomic (hu : Unhindered s) {peer pa : Nat} {op : BitVec 4} {ty : BitVec 5} {x y : W64} (hh : peerHeard s peer = true)
    (he : pa + tyWidth ty / 8 ≤ memEnd) (hp : poisonedAt s (addrs pa (tyWidth ty / 8)) = false) :
    let n := tyWidth ty / 8
    let there := (addrs pa n).map (pByte s)
    ∃ t, exec (.fabricAtomic peer pa op ty x y) s = .next { t with out := s.out ++ [.fabricData peer there false] }
      ∧ Takes s t pa (toBytesLE n (atomGroup op ty (BitVec.ofNat 64 (fromBytesLE there)) [(x, y)]).1.toNat) := by
  intro n there
  obtain ⟨t, hat, htake⟩ := atomAt_good hu.windows pa op ty x y hp
  refine ⟨t, outerAccess_next hu (i := .peerAtomic peer pa op ty x y) ?_ (by exact htake.outer) (17 + peer), htake⟩
  simp only [performOuter, fabricAtomic, hh, Nat.not_lt.2 he, hat, htake.out, Bool.not_true, Bool.false_eq_true, if_false]
  rfl

/-- What a fenced peer sends is not taken (R477). -/
theorem exec_fabric_fenced (hu : Unhindered s) {peer : Nat} (hf : peer ∈ s.peers.fenced) (pa len : Nat) (data : List Byte)
    (op : BitVec 4) (ty : BitVec 5) (x y : W64) :
    exec (.fabricRead peer pa len) s = .next s ∧ exec (.fabricWrite peer pa data) s = .next s ∧ exec (.fabricAtomic peer pa op ty x y) s = .next s := by
  have hh := peerHeard_fenced hf
  refine ⟨outerAccess_next hu (i := .peerRead peer pa len) ?_ (by rfl) (17 + peer), outerAccess_next hu (i := .peerWrite peer pa data) ?_ (by rfl) (17 + peer),
    outerAccess_next hu (i := .peerAtomic peer pa op ty x y) ?_ (by rfl) (17 + peer)⟩
  · simp only [performOuter, fabricRead, hh, Bool.not_false, if_true]
  · simp only [performOuter, fabricWrite, hh, Bool.not_false, if_true]
  · simp only [performOuter, fabricAtomic, hh, Bool.not_false, if_true]

/-! ### Loam cores (R307, R319) -/

/-- What ends in memory begins below device control space. -/
theorem not_ctlBase {pa n : Nat} (he : pa + n ≤ memEnd) : ¬ ctlBase ≤ pa := by
  simp only [memEnd, ctlBase] at *
  omega

theorem exec_loamLoad (hu : Unhindered s) {k pa len : Nat} (he : pa + len ≤ memEnd) :
    exec (.loamMemoryAccess k (.load pa len)) s
      = .next { s with out := s.out ++ [.loamData k ((addrs pa len).map (pByte s)) (poisonedAt s (addrs pa len))] } := by
  refine outerAccess_next hu (i := .loam k (.load pa len)) ?_ (by rfl) k
  simp only [performOuter, loamAccess, not_ctlBase he, Nat.not_lt.2 he, readBytes_unmapped hu.windows, if_false]

theorem exec_loamLoad_past (hu : Unhindered s) {k pa len : Nat} (he : memEnd < pa + len) (hc : pa < 0x8000000000000) :
    exec (.loamMemoryAccess k (.load pa len)) s = .fault .reservedAddress := by
  refine outerAccess_fault hu (i := .loam k (.load pa len)) ?_ k
  simp only [performOuter, loamAccess, ctlBase, Nat.not_le.2 hc, he, if_false, if_true]

theorem exec_loamStore (hu : Unhindered s) {k pa : Nat} {data : List Byte} (he : pa + data.length ≤ memEnd) (ht : TailFree s pa data.length) :
    ∃ t, exec (.loamMemoryAccess k (.store pa data)) s = .next t ∧ Takes s t pa data := by
  have htake := takes_outerWrite hu.windows ht
  refine ⟨_, outerAccess_next hu (i := .loam k (.store pa data)) ?_ htake.outer k, htake⟩
  simp only [performOuter, loamAccess, not_ctlBase he, Nat.not_lt.2 he, if_false]

theorem exec_loamAmo (hu : Unhindered s) {k pa : Nat} {op : BitVec 4} {ty : BitVec 5} {x y : W64} (he : pa + tyWidth ty / 8 ≤ memEnd)
    (hp : poisonedAt s (addrs pa (tyWidth ty / 8)) = false) :
    let n := tyWidth ty / 8
    let there := (addrs pa n).map (pByte s)
    ∃ t, exec (.loamMemoryAccess k (.amo pa op ty x y)) s = .next { t with out := s.out ++ [.loamData k there false] }
      ∧ Takes s t pa (toBytesLE n (atomGroup op ty (BitVec.ofNat 64 (fromBytesLE there)) [(x, y)]).1.toNat) := by
  intro n there
  obtain ⟨t, hat, htake⟩ := atomAt_good hu.windows pa op ty x y hp
  refine ⟨t, outerAccess_next hu (i := .loam k (.amo pa op ty x y)) ?_ (by exact htake.outer) k, htake⟩
  simp only [performOuter, loamAccess, Nat.not_lt.2 he, hat, htake.out, if_false]
  rfl

theorem exec_loamFence (hu : Unhindered s) (k : Nat) : exec (.loamMemoryAccess k .fence) s = .next s :=
  outerAccess_next hu (i := .loam k .fence) rfl rfl k

end Sys2Proof.Machine
end

section
/-! SUPPORT. The accesses of the host, of peers and of Loam cores, together (O49). -/

namespace Sys2Proof.Machine

/-- The writes of configuration registers that the statement lists keep the bits that exist. -/
theorem exec_registerWrite_masks (s : State) (v : W64) :
    let w (off : Nat) (m : W64) : Prop := exec (.registerWrite (0x8000000000000 + off) v) s = .next (ctlWr s off (v &&& m))
    w 0x720000 0xFFFF ∧ w 0x720048 0xFFFF ∧ w 0x720050 0xFFFF ∧ (∀ e < 8, w (0x720008 + 8 * e) 0xFFFFFFFF)
      ∧ w 0x740000 0x000FFFFFFFFFFFC0 ∧ w 0x740008 0xF1F ∧ w 0x740018 0xFFFFFFFF ∧ w 0x790000 0xFFFFFFFF
      ∧ (∀ k < 16, w (0x100000 + 0x1000 * k) 0x01FFFFFFFFFFF000) := by
  intro w
  have pg (r : Nat) (h : r < 0x70) (h8 : r % 8 = 0) : exec (.registerWrite (0x8000000000000 + (0x720000 + r)) v) s = .next (writePg r v s) :=
    (exec_registerWrite (by omega) v s).trans (writeReg_pg h v s)
  have ev (r : Nat) (h : r < 0x40) (h8 : r % 8 = 0) : exec (.registerWrite (0x8000000000000 + (0x740000 + r)) v) s = .next (writeEv r v s) :=
    (exec_registerWrite (by omega) v s).trans (writeReg_ev h v s)
  refine ⟨pg 0 (by decide) rfl, pg 0x48 (by decide) rfl, pg 0x50 (by decide) rfl, fun e he => ?_,
    ev 0 (by decide) rfl, ev 8 (by decide) rfl, ev 0x18 (by decide) rfl, ?_, fun k hk => ?_⟩
  · have h := pg (8 + 8 * e) (by omega) (by omega)
    rwa [writePg_cap he, show 0x720000 + (8 + 8 * e) = 0x720008 + 8 * e by omega] at h
  · exact (exec_registerWrite (by decide) v s).trans (writeReg_en (r := 0) (by decide) v s)
  · exact (exec_registerWrite (by omega) v s).trans (writeReg_xl hk v s)

theorem exec_registerWrite_lqTail (s : State) (v : W64) {q : Nat} (hq : q < 64) :
    exec (.registerWrite (0x8000000000000 + lqReg q 0x10) v) s = exec (.lqTailWrite q v) s :=
  (exec_registerWrite (by unfold lqReg; omega) v s).trans (writeReg_lq hq (by decide) v s)

/-- Settles O49: each access is performed at once on memory that nothing stands before, or waits behind an owned line. -/
theorem outsideAccesses : Obligations.OutsideAccesses := by
  refine ⟨fun s hw ho _ hm => ?_, fun s k pa len earlier he h => ?_⟩
  · have hu : Unhindered s := ⟨hw, ho, hm⟩
    refine ⟨fun addr len base hf => ⟨fun hb he => ?_, fun hb => ⟨exec_hostBar4Read_unbound hu hf hb, ?_⟩⟩, fun peer pa len hr hn => ?_,
      fun peer pa len data op ty x y hf => exec_fabric_fenced hu hf pa len data op ty x y, fun k pa len he => ?_,
      fun k pa len he hc => exec_loamLoad_past hu he hc, fun a v => ?_⟩
    · obtain ⟨h1, h2⟩ := exec_hostBar4Read hu hf hb he
      refine ⟨h1, h2, ?_⟩
      rintro data rfl ht
      exact exec_hostBar4Write hu hf hb he ht
    · rintro data rfl
      exact exec_hostBar4Write_unbound hu hf hb
    · have hh := peerHeard_running hr hn
      exact ⟨exec_fabricRead hu hh, exec_fabricRead_past hu hh, fun data => exec_fabricWrite hu hh, fun op ty x y => exec_fabricAtomic hu hh⟩
    · refine ⟨exec_loamLoad hu he, ?_, ?_, exec_loamFence hu k⟩
      · rintro data rfl ht
        exact exec_loamStore hu he ht
      · rintro op ty x y rfl hp
        exact exec_loamAmo hu he hp
    · obtain ⟨h1, h2, h3, h4, h5, h6, h7, h8, h9⟩ := exec_registerWrite_masks s v
      exact ⟨fun ha => exec_registerWrite_below ha v s, h1, h2, h3, h4, h5, h6, h7, h8, h9, fun q hq => exec_registerWrite_lqTail s v hq⟩
  · refine ⟨_, outerAccess_waits (i := .loam k (.load pa len)) he h, rfl, fun j => ?_⟩
    split
    · next hj => subst hj; exact sgetD_sputD_self ..
    · next hj => exact sgetD_sputD_ne hj ..

end Sys2Proof.Machine
end

section
/-! SUPPORT. Power and boot (R1, R468 to R473), the image service (R475), the repair log and the repair map (R21, R468, R474), and the
answers of the root-of-trust core (R474, R487, R488). -/

namespace Sys2Proof.Machine

/-! ### Phases -/

/-- A device in a phase with nothing resident: only what leaves it, the root-of-trust core and the peer group may hold anything. -/
def Bare (s t : State) (p : Phase) : Prop :=
  t = { State.reset with phase := p, agenda := s.agenda, out := t.out, rtc := t.rtc, peers := t.peers }

/-- The contents of the flash, and the seed. -/
def SameFlash (a b : Rtc) : Prop :=
  a.config = b.config ∧ a.repairLog = b.repairLog ∧ a.seed = b.seed ∧ a.cert = b.cert ∧ a.loader = b.loader ∧ a.image = b.image

/-- The repair map and the measurements stand outside the flash. -/
theorem sameFlash_remeasured (a : Rtc) (repair : List Nat) (meas : Sparse (List Byte)) : SameFlash { a with repair := repair, meas := meas } a :=
  ⟨rfl, rfl, rfl, rfl, rfl, rfl⟩

theorem bare_recover (s : State) (rtc : Rtc) : Bare s (recover s rtc) .recovery := rfl

theorem bare_failDevice (s : State) : Bare s (failDevice s) .failed := rfl

/-! ### Boot (R473) -/

/-- The measurements after the boot ROM, after the loader, and after the records. -/
def romRtc (r : Rtc) : Rtc := { r with meas := sput 1 Config.bootRomDigest [] }
def loaderRtc (r : Rtc) : Rtc := { romRtc r with meas := sput 2 (Config.sha3 r.loader) (romRtc r).meas }
def recordRtc (r : Rtc) (m : List Nat) : Rtc :=
  { loaderRtc r with repair := m, meas := sput 5 (Config.sha3 (logBytes r.repairLog)) (sput 3 (Config.sha3 r.config) (loaderRtc r).meas) }

/-- The peer group that the configuration record gives. -/
def recordPeers (r : Rtc) : Peers := freshPeers (roleOf r.config) (peerIdOf r.config) (fabMaskOf r.config)

/-- Step 5 of the boot: a member waits for its image, and another device starts its own if it verifies. -/
def bootImage (s : State) (m : List Nat) : State :=
  if roleOf s.rtc.config = 0 then blank s .loading (recordRtc s.rtc m) (recordPeers s.rtc)
  else if !imageGood s.rtc s.rtc.image s.rtc.imageSig then recover s (recordRtc s.rtc m)
  else
    let t := startLoam s (recordRtc s.rtc m) (recordPeers s.rtc) s.rtc.image
    if roleOf s.rtc.config = 1 then offerImage t none s.rtc.image s.rtc.imageSig else t

/-- Steps 2 to 5 of a device with an identity. -/
def bootFrom (s : State) (seed : List Byte) : State :=
  if !Config.mldsaVerify Config.weahamKey s.rtc.loader s.rtc.loaderSig then recover s (romRtc s.rtc)
  else if !recordValid (Config.identityKey seed) s.rtc.config then recover s (loaderRtc s.rtc)
  else (repairMap s.rtc.config s.rtc.repairLog).elim (recover s (loaderRtc s.rtc)) (bootImage s)

theorem boot_eq (s : State) : boot s = s.rtc.seed.elim (recover s (romRtc s.rtc)) (bootFrom s) := by
  unfold boot
  dsimp only
  split
  · next h => conv_rhs => rw [h]
              rfl
  · next seed h =>
    conv_rhs => rw [h]
    show _ = bootFrom s seed
    unfold bootFrom
    cases repairMap s.rtc.config s.rtc.repairLog <;> rfl

theorem boot_noSeed {s : State} (hs : s.rtc.seed = none) : boot s = recover s (romRtc s.rtc) := by rw [boot_eq, hs]; rfl

section Identity

variable {s : State} {seed : List Byte} (hs : s.rtc.seed = some seed)
include hs

theorem boot_seed : boot s = bootFrom s seed := by rw [boot_eq, hs]; rfl

/-- A boot that a check stops recovers. -/
theorem boot_bad (h : Config.mldsaVerify Config.weahamKey s.rtc.loader s.rtc.loaderSig = false
    ∨ recordValid (Config.identityKey seed) s.rtc.config = false ∨ repairMap s.rtc.config s.rtc.repairLog = none) : ∃ rtc, boot s = recover s rtc := by
  rw [boot_seed hs, bootFrom]
  split
  · exact ⟨_, rfl⟩
  · next hl =>
    split
    · exact ⟨_, rfl⟩
    · next hr =>
      simp only [Bool.not_eq_true', Bool.not_eq_false] at hl hr
      have hm : repairMap s.rtc.config s.rtc.repairLog = none := by simpa [hl, hr] using h
      exact ⟨_, by rw [hm]; rfl⟩

theorem boot_good {m : List Nat} (hl : Config.mldsaVerify Config.weahamKey s.rtc.loader s.rtc.loaderSig = true)
    (hr : recordValid (Config.identityKey seed) s.rtc.config = true) (hm : repairMap s.rtc.config s.rtc.repairLog = some m) : boot s = bootImage s m := by
  simp only [boot_seed hs, bootFrom, hl, hr, hm, Option.elim_some, Bool.not_true, Bool.false_eq_true, if_false]

end Identity

/-- The map and the measurements of a boot whose records are good (R474). -/
structure Measured (s : State) (m : List Nat) (r : Rtc) : Prop where
  flash : SameFlash r s.rtc
  repair : r.repair = m
  rom : sget 1 r.meas = some Config.bootRomDigest
  loader : sget 2 r.meas = some (Config.sha3 s.rtc.loader)
  record : sget 3 r.meas = some (Config.sha3 s.rtc.config)
  log : sget 5 r.meas = some (Config.sha3 (logBytes s.rtc.repairLog))

theorem measured_record (s : State) (m : List Nat) : Measured s m (recordRtc s.rtc m) where
  flash := sameFlash_remeasured ..
  repair := rfl
  rom := rfl
  loader := rfl
  record := rfl
  log := rfl

/-- The measurement of an image leaves the others. -/
theorem Measured.image {s : State} {m : List Nat} {r : Rtc} (h : Measured s m r) (d : List Byte) : Measured s m { r with meas := sput 4 d r.meas } where
  flash := h.flash
  repair := h.repair
  rom := (sget_sput_ne (by decide) _ _).trans h.rom
  loader := (sget_sput_ne (by decide) _ _).trans h.loader
  record := (sget_sput_ne (by decide) _ _).trans h.record
  log := (sget_sput_ne (by decide) _ _).trans h.log

/-- A device that does not wait for its image starts it, offers it or not. -/
theorem bootImage_own {s : State} {m : List Nat} (h0 : roleOf s.rtc.config ≠ 0) (hg : imageGood s.rtc s.rtc.image s.rtc.imageSig = true) :
    Bare s (bootImage s m) .running
      ∧ (bootImage s m).rtc = { recordRtc s.rtc m with meas := sput 4 (Config.sha3 s.rtc.image) (recordRtc s.rtc m).meas } := by
  simp only [bootImage, if_neg h0, hg, Bool.not_true, Bool.false_eq_true, if_false]
  split <;> exact ⟨rfl, rfl⟩

theorem bootImage_bad {s : State} {m : List Nat} (h0 : roleOf s.rtc.config ≠ 0) (hg : imageGood s.rtc s.rtc.image s.rtc.imageSig = false) :
    bootImage s m = recover s (recordRtc s.rtc m) := by
  simp only [bootImage, if_neg h0, hg, Bool.not_false, if_true]

theorem bootImage_member {s : State} {m : List Nat} (h0 : roleOf s.rtc.config = 0) :
    bootImage s m = blank s .loading (recordRtc s.rtc m) (recordPeers s.rtc) := if_pos h0

theorem bootImage_measured (s : State) (m : List Nat) : Measured s m (bootImage s m).rtc := by
  by_cases h0 : roleOf s.rtc.config = 0
  · rw [bootImage_member h0]; exact measured_record s m
  · cases hg : imageGood s.rtc s.rtc.image s.rtc.imageSig with
    | true => rw [(bootImage_own h0 hg).2]; exact (measured_record s m).image _
    | false => rw [bootImage_bad h0 hg]; exact measured_record s m

/-- The outcomes of step 5 of the boot (R473). -/
theorem bootImage_outcomes (s : State) (m : List Nat) :
    (roleOf s.rtc.config = 0 → Bare s (bootImage s m) .loading ∧ (bootImage s m).out = s.out)
    ∧ (roleOf s.rtc.config ≠ 0 → imageGood s.rtc s.rtc.image s.rtc.imageSig = true →
        Bare s (bootImage s m) .running ∧ sget 4 (bootImage s m).rtc.meas = some (Config.sha3 s.rtc.image))
    ∧ (roleOf s.rtc.config ≠ 0 → imageGood s.rtc s.rtc.image s.rtc.imageSig = false → Bare s (bootImage s m) .recovery) := by
  refine ⟨fun h0 => ?_, fun h0 hg => ?_, fun h0 hg => ?_⟩
  · rw [bootImage_member h0]
    exact ⟨rfl, rfl⟩
  · obtain ⟨hbare, hrtc⟩ := bootImage_own (m := m) h0 hg
    exact ⟨hbare, hrtc ▸ sget_sput_self ..⟩
  · rw [bootImage_bad h0 hg]
    exact bare_recover s _

/-- No boot writes the flash. -/
theorem boot_flash (s : State) : SameFlash (boot s).rtc s.rtc := by
  rw [boot_eq]
  cases s.rtc.seed with
  | none => exact sameFlash_remeasured ..
  | some seed =>
    show SameFlash (bootFrom s seed).rtc s.rtc
    unfold bootFrom
    split
    · exact sameFlash_remeasured ..
    · split
      · exact sameFlash_remeasured ..
      · cases repairMap s.rtc.config s.rtc.repairLog with
        | none => exact sameFlash_remeasured ..
        | some m => exact (bootImage_measured s m).flash

/-! ### The image service (R475) -/

/-- The first good offer of a waiting member is the one it loads from. -/
theorem exec_imageOffer_first {s : State} (h : s.phase = .loading) {o : Offer} (hp : s.peers.parent = none) (ho : s.peers.offers = [])
    (hc : (ports s.peers).contains o.port = true) (hg : offerGood s o = true) :
    exec (.imageOffer [o]) s = .next { s with peers := { s.peers with offers := [o], parent := some o.port } } := by
  have hf : [o].filter (fun o => offerGood s o && (ports s.peers).contains o.port) = [o] :=
    List.filter_cons_of_pos (by rw [hg, hc]; rfl)
  show execImageOffer [o] s = _
  rw [execImageOffer, if_neg (by rw [h]; decide), hf]
  simp [hp, ho, insertOffer, takeOffer]

/-- An offer that does not verify is not taken. -/
theorem exec_imageOffer_bad {s : State} (h : s.phase = .loading) {o : Offer} (hg : offerGood s o = false) (hp : s.peers.parent ≠ none) :
    exec (.imageOffer [o]) s = .next s := by
  have hf : [o].filter (fun o => offerGood s o && (ports s.peers).contains o.port) = [] :=
    List.filter_cons_of_neg (by simp [hg])
  show execImageOffer [o] s = _
  rw [execImageOffer, if_neg (by rw [h]; decide), hf]
  simp [hp]

/-- The image that the offer names is started and offered on every other port. -/
theorem exec_imageLoadComplete_good {s : State} (h : s.phase = .loading) {port : Nat} {o : Offer} {rest : List Offer} {image : List Byte}
    (hp : s.peers.parent = some port) (ho : s.peers.offers = o :: rest) (hd : Config.sha3 image = o.digest) (hl : image.length = o.length) :
    exec (.imageLoadComplete image) s
      = .next (offerImage (startLoam s s.rtc { s.peers with offers := [] } image) (some port) image o.sig) := by
  show execImageLoadComplete image s = _
  rw [execImageLoadComplete, if_neg (by rw [h]; decide)]
  simp only [hp, ho, hd, hl, beq_self_eq_true, decide_true, Bool.and_self, if_true]

/-- Another image is dropped with its offer, and the next offer is loaded. -/
theorem exec_imageLoadComplete_bad {s : State} (h : s.phase = .loading) {port : Nat} {o : Offer} {rest : List Offer} {image : List Byte}
    (hp : s.peers.parent = some port) (ho : s.peers.offers = o :: rest) (hd : Config.sha3 image ≠ o.digest ∨ image.length ≠ o.length) :
    exec (.imageLoadComplete image) s = .next { s with peers := { s.peers with offers := rest, parent := rest.head?.map (·.port) } } := by
  have hn : ¬((Config.sha3 image == o.digest && decide (image.length = o.length)) = true) := by
    simp only [Bool.and_eq_true, beq_iff_eq, decide_eq_true_eq]; tauto
  show execImageLoadComplete image s = _
  rw [execImageLoadComplete, if_neg (by rw [h]; decide)]
  simp only [hp, ho, if_neg hn]
  rfl

theorem exec_imageTimeout {s : State} (h : s.phase = .loading) : exec .imageTimeout s = .next (recover s s.rtc) := by
  show execImageTimeout s = _
  rw [execImageTimeout, if_pos (by rw [h]; rfl)]

/-! ### The repair log (R468, R474) -/

/-- The log as it fills its eight places. -/
theorem getD_padded {log : List (BitVec 16)} (j : Nat) : (log ++ List.replicate (8 - log.length) 0).getD j 0 = log.getD j 0 := by
  simp only [List.getD_eq_getElem?_getD, List.getElem?_append]
  split
  · rfl
  · next h => rw [List.getElem?_eq_none (by omega : log.length ≤ j), List.getElem?_replicate]; split <;> rfl

theorem length_padded {log : List (BitVec 16)} (h : log.length ≤ 8) : (log ++ List.replicate (8 - log.length) 0).length = 8 := by
  rw [List.length_append, List.length_replicate]; omega

theorem exec_repairLogWrite {s : State} (h : s.phase = .running) {i : Nat} {v : BitVec 16} (hi : i < 8) (hl : s.rtc.repairLog.length ≤ 8) :
    ∃ t, exec (.repairLogWrite i v) s = .next t ∧ t.rtc.repairLog.length = 8
      ∧ (∀ j < 8, t.rtc.repairLog.getD j 0 = if j = i then v else s.rtc.repairLog.getD j 0)
      ∧ sget 5 t.rtc.meas = some (Config.sha3 (logBytes t.rtc.repairLog)) ∧ { t with rtc := s.rtc } = s := by
  refine ⟨_, if_neg (by rw [h]; simp [hi]), ?_, fun j hj => ?_, sget_sput_self .., rfl⟩
  · exact (List.length_set ..).trans (length_padded hl)
  · have hp := length_padded hl
    show List.getD (List.set _ i v) j 0 = _
    rw [← getD_padded (log := s.rtc.repairLog) j]
    generalize s.rtc.repairLog ++ List.replicate (8 - s.rtc.repairLog.length) 0 = full at hp
    rw [List.getD_eq_getElem _ _ (by rw [List.length_set, hp]; exact hj), List.getElem_set, List.getD_eq_getElem _ _ (by rw [hp]; exact hj)]
    simp only [eq_comm]

/-- Where a place of the log is free, an entry is logged. -/
theorem mem_logCluster {log : List (BitVec 16)} (e : BitVec 16) (hl : log.length ≤ 8) (hf : ∃ j < 8, (log.getD j 0).getLsbD 15 = false) :
    e ∈ logCluster log e := by
  obtain ⟨j, hj, hb⟩ := hf
  have hp := length_padded hl
  rw [← getD_padded] at hb
  unfold logCluster
  generalize log ++ List.replicate (8 - log.length) 0 = full at hp hb
  rw [List.getD_eq_getElem _ _ (by omega)] at hb
  dsimp only
  cases hx : full.findIdx? (fun x => !x.getLsbD 15) with
  | none =>
    have hn := List.findIdx?_eq_none_iff.1 hx full[j] (List.getElem_mem _)
    rw [hb] at hn
    cases hn
  | some i => exact List.mem_set (List.findIdx?_eq_some_iff_findIdx_eq.1 hx).1 _

/-! ### Physical clusters (R21) -/

/-- The clusters of a stack without the inactive one. -/
def activeClusters (f : Nat) : List Nat := (List.range 9).filter (· != f)

theorem length_activeClusters {f : Nat} (h : f ≤ 8) : (activeClusters f).length = 8 := by
  interval_cases f <;> rfl

theorem activeClusters_pairwise (f : Nat) : (activeClusters f).Pairwise (· < ·) := List.pairwise_lt_range.filter _

theorem mem_activeClusters {f c : Nat} : c ∈ activeClusters f ↔ c < 9 ∧ c ≠ f := by
  simp [activeClusters]

variable {repair : List Nat} {stack i : Nat}

/-- A logical cluster is the active cluster of its stack at its index. -/
theorem physicalCluster_eq (h : repair.getD stack 8 ≤ 8) (hi : i < 8) :
    physicalCluster repair (8 * stack + i) = (activeClusters (repair.getD stack 8))[i]'(by rw [length_activeClusters h]; exact hi) := by
  have hs : (8 * stack + i) / 8 = stack := by omega
  have hr : (8 * stack + i) % 8 = i := by omega
  rw [physicalCluster, hs, hr]
  exact List.getD_eq_getElem _ _ _

theorem physicalCluster_mem (h : repair.getD stack 8 ≤ 8) (hi : i < 8) :
    physicalCluster repair (8 * stack + i) < 9 ∧ physicalCluster repair (8 * stack + i) ≠ repair.getD stack 8 := by
  rw [physicalCluster_eq h hi]
  exact mem_activeClusters.1 (List.getElem_mem _)

theorem physicalCluster_lt {j : Nat} (h : repair.getD stack 8 ≤ 8) (hij : i < j) (hj : j < 8) :
    physicalCluster repair (8 * stack + i) < physicalCluster repair (8 * stack + j) := by
  rw [physicalCluster_eq h (hij.trans hj), physicalCluster_eq h hj]
  exact List.pairwise_iff_getElem.1 (activeClusters_pairwise _) _ _ _ _ hij

/-- Every cluster but the inactive one is some logical cluster. -/
theorem clusterPowered_iff {s : State} {cluster : Nat} (h : s.rtc.repair.getD stack 8 ≤ 8) :
    clusterPowered s stack cluster = true ↔ cluster < 9 ∧ cluster ≠ s.rtc.repair.getD stack 8 := by
  have hl := length_activeClusters h
  simp only [clusterPowered, List.any_eq_true, List.mem_range, decide_eq_true_eq]
  constructor
  · rintro ⟨i, hi, rfl⟩
    exact physicalCluster_mem h hi
  · intro hc
    obtain ⟨i, hi, rfl⟩ := List.getElem_of_mem (mem_activeClusters.2 hc)
    exact ⟨i, by omega, physicalCluster_eq h (by omega)⟩

/-- The inactive cluster is powered off and cannot fail. -/
theorem exec_clusterFailure_inactive {s : State} (h : s.rtc.repair.getD stack 8 ≤ 8) :
    exec (.clusterFailure stack (s.rtc.repair.getD stack 8)) s = .next s := by
  have hn : clusterPowered s stack (s.rtc.repair.getD stack 8) = false :=
    Bool.eq_false_iff.2 fun hp => ((clusterPowered_iff h).1 hp).2 rfl
  exact if_pos (by rw [hn]; simp)

theorem exec_clusterFailure {s : State} {cluster : Nat} (hr : s.phase = .running) (h4 : stack < 4) (h : s.rtc.repair.getD stack 8 ≤ 8)
    (hc : cluster < 9) (hn : cluster ≠ s.rtc.repair.getD stack 8) :
    exec (.clusterFailure stack cluster) s = .next (failDevice { s with rtc := { s.rtc with
      repairLog := logCluster s.rtc.repairLog (BitVec.ofNat 16 (2 ^ 15 + stack * 16 + cluster)) } }) := by
  refine if_neg ?_
  rw [(clusterPowered_iff h).2 ⟨hc, hn⟩, hr]
  simp [h4]

/-! ### Answers of the root-of-trust core (R474, R487, R488) -/

theorem rtcAnswers_on {s : State} (h : s.phase ≠ .off) : rtcAnswers s = true := by simpa [rtcAnswers] using h

theorem spdm_on {s : State} (h : s.phase ≠ .off) (code : Nat) (data : Option (List Byte)) :
    spdm s code data = { s with out := s.out ++ [data.elim .spdmError (fun d => .spdm (Config.spdmMessage code d))] } := by
  unfold spdm
  rw [if_neg (by rw [rtcAnswers_on h]; decide)]
  cases data <;> rfl

theorem manage_on {s : State} (h : s.phase ≠ .off) (code : Nat) (data : Option (List Byte)) :
    manage s code data = { s with out := s.out ++ [data.elim .managementError (fun d => .management (Config.managementMessage code d))] } := by
  unfold manage
  rw [if_neg (by rw [rtcAnswers_on h]; decide)]
  cases data <;> rfl

end Sys2Proof.Machine
end

section
/-! SUPPORT. Power, boot, the image service and the root-of-trust core, together (O50). -/

namespace Sys2Proof.Machine

/-- A member that has loaded the image of its parent's offer runs, and offers it on every other port (R475). -/
theorem imageLoadComplete_runs {s : State} (h : s.phase = .loading) {image : List Byte} {port : Nat} {o : Offer} {rest : List Offer}
    (hp : s.peers.parent = some port) (ho : s.peers.offers = o :: rest) (hd : Config.sha3 image = o.digest) (hl : image.length = o.length) :
    ∃ t, exec (.imageLoadComplete image) s = .next t ∧ Bare s t .running ∧ sget 4 t.rtc.meas = some o.digest ∧ t.peers.imageAccepted = true
      ∧ t.out = s.out ++ ((ports s.peers).filter (fun p => p != port)).map (fun p => .offer p o.length o.digest o.sig) := by
  refine ⟨_, exec_imageLoadComplete_good h hp ho hd hl, rfl, ?_, rfl, ?_⟩
  · rw [← hd]
    exact sget_sput_self ..
  · have hport : (fun p => some port != some p) = fun p => p != port := by
      funext p
      rw [Bool.eq_iff_iff, bne_iff_ne, bne_iff_ne, ne_eq, Option.some_inj, eq_comm]
    rw [← hd, ← hl, ← hport]
    rfl

/-- The loss of a cluster that the repair map powers is logged, and the device fails (R468, R477). -/
theorem clusterFailure_logged {s : State} {stack cluster : Nat} (hr : s.phase = .running) (h4 : stack < 4) (hc : cluster < 9)
    (h : s.rtc.repair.getD stack 8 ≤ 8) (hn : cluster ≠ s.rtc.repair.getD stack 8) (hl : s.rtc.repairLog.length ≤ 8)
    (hf : ∃ j < 8, (s.rtc.repairLog.getD j 0).getLsbD 15 = false) :
    ∃ t, exec (.clusterFailure stack cluster) s = .next t ∧ Bare s t .failed ∧ t.out = s.out
      ∧ BitVec.ofNat 16 (2 ^ 15 + stack * 16 + cluster) ∈ t.rtc.repairLog :=
  ⟨_, exec_clusterFailure hr h4 h hc hn, bare_failDevice _, rfl, mem_logCluster _ hl hf⟩

/-- An instruction whose only effect is one message that leaves the device. -/
def Gives (s : State) (i : Instr) (o : Out) : Prop := exec i s = .next { s with out := s.out ++ [o] }

section Answers

variable {s : State} (h : s.phase ≠ .off) {i : Instr} {n : Nat}
include h

theorem gives_spdm {x : Option (List Byte)} {d : List Byte} (hx : x = some d) (he : exec i s = .next (spdm s n x)) :
    Gives s i (.spdm (Config.spdmMessage n d)) := by
  rw [Gives, he, hx, spdm_on h]
  rfl

theorem gives_spdmError {x : Option (List Byte)} (hx : x = none) (he : exec i s = .next (spdm s n x)) : Gives s i .spdmError := by
  rw [Gives, he, hx, spdm_on h]
  rfl

theorem gives_management {x : Option (List Byte)} {d : List Byte} (hx : x = some d) (he : exec i s = .next (manage s n x)) :
    Gives s i (.management (Config.managementMessage n d)) := by
  rw [Gives, he, hx, manage_on h]
  rfl

theorem gives_managementError {x : Option (List Byte)} (hx : x = none) (he : exec i s = .next (manage s n x)) : Gives s i .managementError := by
  rw [Gives, he, hx, manage_on h]
  rfl

theorem gives_negotiateError {a b : Bool} (hab : (a && b) = false) : Gives s (.negotiateAlgorithms a b) .spdmError :=
  gives_spdmError h (if_neg (Bool.eq_false_iff.1 hab)) rfl

/-- What a device with an identity gives (R474, R487). -/
theorem gives_identity {seed : List Byte} (hs : s.rtc.seed = some seed) :
    Gives s .getDigests (.spdm (Config.spdmMessage 3 (Config.sha3 s.rtc.cert)))
    ∧ (∀ off len, Gives s (.getCertificate off len) (.spdm (Config.spdmMessage 4 ((s.rtc.cert.drop off).take len))))
    ∧ (∀ nonce, Gives s (.challenge nonce) (.spdm (Config.spdmMessage 5 (Config.mldsaSign seed (Config.spdmMessage 5 nonce)))))
    ∧ Gives s .readIdentity (.management (Config.managementMessage 7 s.rtc.cert)) := by
  have hid (d : List Byte) : withIdentity s d = some d := by rw [withIdentity, hs]; rfl
  exact ⟨gives_spdm h (hid _) rfl, fun off len => gives_spdm h (hid _) rfl,
    fun nonce => gives_spdm h (congrArg (Option.map _) hs) rfl, gives_management h (hid _) rfl⟩

/-- A device without an identity answers what rests on one with an error. -/
theorem gives_noIdentity (hs : s.rtc.seed = none) :
    Gives s .getDigests .spdmError ∧ (∀ off len, Gives s (.getCertificate off len) .spdmError) ∧ (∀ nonce, Gives s (.challenge nonce) .spdmError)
      ∧ Gives s .readIdentity .managementError := by
  have hid (d : List Byte) : withIdentity s d = none := by rw [withIdentity, hs]; rfl
  exact ⟨gives_spdmError h (hid _) rfl, fun off len => gives_spdmError h (hid _) rfl,
    fun nonce => gives_spdmError h (congrArg (Option.map fun seed => Config.mldsaSign seed (Config.spdmMessage 5 nonce)) hs) rfl,
    gives_managementError h (hid _) rfl⟩

theorem gives_measurement {k : Nat} (h1 : 1 ≤ k) (h5 : k ≤ 5) :
    Gives s (.getMeasurements k) (.spdm (Config.spdmMessage 6 (sgetD (List.replicate 32 0) s.rtc.meas k))) :=
  gives_spdm h (if_pos (by simp [h1, h5])) rfl

theorem gives_noMeasurement {k : Nat} (hk : k = 0 ∨ 5 < k) : Gives s (.getMeasurements k) .spdmError := by
  refine gives_spdmError h (if_neg ?_) rfl
  simp only [Bool.and_eq_true, decide_eq_true_eq]
  omega

theorem exec_writeConfigurationRecord {data : List Byte} (hd : data.length = 4096) :
    exec (.writeConfigurationRecord data) s
      = .next { s with rtc := { s.rtc with config := data }, out := s.out ++ [.management (Config.managementMessage 4 [])] } :=
  (if_pos (by simp [hd, rtcAnswers_on h])).trans (congrArg _ (manage_on (s := { s with rtc := { s.rtc with config := data } }) h 4 (some [])))

theorem gives_shortRecord {data : List Byte} (hd : data.length ≠ 4096) : Gives s (.writeConfigurationRecord data) .managementError :=
  gives_managementError h rfl (if_neg (by simp [hd]))

theorem exec_clearRepairLog :
    exec .clearRepairLog s = .next { s with rtc := { s.rtc with repairLog := s.rtc.repairLog.map (fun e => e &&& 0x7FFF) },
                                            out := s.out ++ [.management (Config.managementMessage 5 [])] } :=
  (if_pos (rtcAnswers_on h)).trans
    (congrArg _ (manage_on (s := { s with rtc := { s.rtc with repairLog := s.rtc.repairLog.map (fun e => e &&& 0x7FFF) } }) h 5 (some [])))

theorem exec_deviceReset : exec .deviceReset s = exec .powerOnReset s :=
  congrArg _ (if_pos (rtcAnswers_on h))

end Answers

/-- Settles O50: the boot by its checks, the image service by the offers held, and each answer by the message it adds. -/
theorem bootAndRootOfTrust : Obligations.BootAndRootOfTrust := by
  refine ⟨fun s => ⟨⟨_, rfl, rfl, sameFlash_remeasured .., rfl, rfl⟩, ⟨boot s, rfl, boot_flash s, fun hs => ?_, fun seed hs => ⟨fun hbad => ?_, fun m hl hr hm => ?_⟩⟩,
      fun hp => ⟨exec_deviceReset hp, _, exec_deviceReset hp, boot_flash s⟩, fun hl => ?_, fun hr => ?_⟩,
    fun repair stack _ h => ⟨fun i j => physicalCluster_lt h, fun i => physicalCluster_mem h⟩, fun s h => ?_⟩
  · rw [boot_noSeed hs]
    exact ⟨rfl, rfl, rfl⟩
  · obtain ⟨rtc, ht⟩ := boot_bad hs hbad
    rw [ht]
    exact ⟨rfl, rfl⟩
  · rw [boot_good hs hl hr hm]
    have hmeas := bootImage_measured s m
    exact ⟨hmeas.repair, hmeas.rom, hmeas.loader, hmeas.record, hmeas.log, bootImage_outcomes s m⟩
  · exact ⟨fun o hp ho => exec_imageOffer_first hl hp ho, fun o hg => exec_imageOffer_bad hl hg,
      fun port o rest image hp ho => imageLoadComplete_runs hl hp ho, fun port o rest image hp ho => exec_imageLoadComplete_bad hl hp ho,
      _, exec_imageTimeout hl, rfl, sameFlash_remeasured .., rfl⟩
  · exact ⟨fun i v => exec_repairLogWrite hr, fun stack _ h8 => exec_clusterFailure_inactive h8,
      fun stack cluster h4 hc h8 hn => clusterFailure_logged hr h4 hc h8 hn⟩
  · exact ⟨gives_spdm h rfl rfl, gives_spdm h rfl rfl, gives_spdm h rfl rfl, fun a b => gives_negotiateError h, fun seed => gives_identity h,
      gives_noIdentity h, fun k => gives_measurement h, fun k => gives_noMeasurement h, gives_management h rfl rfl, gives_management h rfl rfl,
      gives_management h rfl rfl, fun data => exec_writeConfigurationRecord h, fun data => gives_shortRecord h, exec_clearRepairLog h⟩

end Sys2Proof.Machine
end

section
/-! SUPPORT. The reset values of the registers (R23, R395, R406, R473). -/

namespace Sys2Proof.Machine

/-- No reset value of a control register has its top bit set, which is the V bit of `lq.cfg` (R395). -/
theorem ctlReset_lt (r : Nat) : (ctlReset r).toNat < 2 ^ 63 := by
  unfold ctlReset
  split
  · decide
  · split
    · decide
    · split <;> decide

theorem lqOperational_reset (q : Nat) : lqOperational State.reset q = false := by
  have hv : ctlBits State.reset (lqReg q 0) 63 1 = 0 := by
    have h : ctlRd State.reset (lqReg q 0) = ctlReset (lqReg q 0) := rfl
    rw [ctlBits, h, bits, Nat.div_eq_of_lt (ctlReset_lt _), Nat.zero_mod]
  simp [lqOperational, hv]

/-- Settles O59: every map of the reset state is empty, so each read gives the value that stands for an absent entry. -/
theorem resetState : Obligations.ResetState := by
  have hpoison (l : List Nat) : poisonedAt State.reset l = false := List.any_eq_false.2 fun _ _ => Bool.false_ne_true
  exact ⟨rfl, fun _ => rfl, hpoison, fun _ => rfl, rfl, rfl, rfl, rfl, rfl, rfl, rfl, rfl, fun _ => ⟨rfl, rfl, rfl⟩, rfl, rfl, rfl,
    lqOperational_reset⟩

end Sys2Proof.Machine
end

section
/-! SUPPORT. How a wave comes to issue (R72, R76, R343 to R347): the candidates and the choice among them, the fetch of a clause from
cached lines, its start. -/

namespace Sys2Proof.Machine

/-- A step that changes one wave. -/
theorem onlyWave_modWave {s : State} {k : Nat} {w : Wave} (hw : sget k s.waves = some w) (f : Wave → Wave) :
    OnlyWave s (modWave s k f) k (f w) :=
  ⟨by rw [sget_modWave_self, hw, Option.map_some], fun _ hj => sget_modWave_ne hj s f, rfl⟩

/-! ### Candidates (R343) -/

/-- The slots of a candidate hold ready fibres of a wave, which stand at its PC. -/
def Cand.Ready (m : Sparse Fibre) (c : Cand) : Prop := ∀ x ∈ c.slots, ∃ y, (x, y) ∈ m ∧ y.pc = c.pc ∧ y.blocked = none

theorem addReady_ready {m : Sparse Fibre} {x : Nat} {y : Fibre} (hm : (x, y) ∈ m) (hb : y.blocked = none) {l : List Cand}
    (hl : ∀ c ∈ l, c.Ready m) : ∀ c ∈ addReady x y l, c.Ready m := by
  have hone : Cand.Ready m { pc := y.pc, hdr := y.header, word := none, slots := [x] } := by
    intro z hz
    obtain rfl := List.mem_singleton.1 hz
    exact ⟨y, hm, rfl, hb⟩
  induction l with
  | nil =>
    intro c hc
    obtain rfl := List.mem_singleton.1 hc
    exact hone
  | cons d l ih =>
    obtain ⟨hd, hrest⟩ := List.forall_mem_cons.1 hl
    unfold addReady
    split
    · next h =>
      have hpc : d.pc = y.pc := by simp only [Bool.and_eq_true, decide_eq_true_eq] at h; exact h.1
      refine List.forall_mem_cons.2 ⟨fun z hz => ?_, hrest⟩
      rcases List.mem_append.1 hz with hz | hz
      · exact hd z hz
      · obtain rfl := List.mem_singleton.1 hz
        exact ⟨y, hm, hpc.symm, hb⟩
    · split
      · exact List.forall_mem_cons.2 ⟨hone, hl⟩
      · exact List.forall_mem_cons.2 ⟨hd, ih hrest⟩

theorem readyPcs_ready (s : State) (k : Nat) (w : Wave) : ∀ c ∈ readyPcs s k w, c.Ready w.fibres := by
  intro c hc
  obtain ⟨d, hd, rfl⟩ := List.mem_map.1 hc
  refine (List.foldlRecOn (motive := fun l => ∀ c ∈ l, Cand.Ready w.fibres c) _ _ (by simp) (fun l hl e he => ?_)) d hd
  obtain ⟨hm, hb⟩ := List.mem_filter.1 he
  exact addReady_ready hm (Option.isNone_iff_eq_none.1 hb) hl

/-- In a map of rising keys, an entry is what its key reads as. -/
theorem sget_of_mem {α : Type} {m : Sparse α} (hs : sorted m = true) {k : Nat} {v : α} (h : (k, v) ∈ m) : sget k m = some v := by
  induction m with
  | nil => cases h
  | cons e m ih =>
    obtain ⟨habove, hm⟩ := (sorted_cons e m).1 hs
    rcases List.mem_cons.1 h with rfl | h
    · exact if_pos rfl
    · exact (if_neg (Nat.ne_of_lt (habove _ h))).trans (ih hm h)

/-! ### The choice (R344) -/

theorem youngest_mem {w : Wave} {l : List Cand} {c : Cand} (h : youngest w l = some c) : c ∈ l := by
  induction l with
  | nil => cases h
  | cons d l ih =>
    unfold youngest at h
    split at h
    · cases h
      exact List.mem_cons_self
    · next e he =>
      split at h
      · cases h
        exact List.mem_cons_of_mem _ (ih he)
      · cases h
        exact List.mem_cons_self

theorem choosePc_mem {w : Wave} {l : List Cand} {c : Cand} (h : choosePc w l = some c) : c ∈ l := by
  have hc := youngest_mem h
  split at hc
  · exact (List.mem_filter.1 hc).1
  · split at hc
    · exact hc
    · exact (List.mem_filter.1 hc).1

theorem chosen_ready {s : State} {k : Nat} {w : Wave} {c : Cand} (hs : sorted w.fibres = true)
    (hc : choosePc w ((readyPcs s k w).filter (Cand.ok w)) = some c) :
    ∀ x ∈ c.slots, ∃ y, sget x w.fibres = some y ∧ y.pc = c.pc ∧ y.blocked = none := by
  intro x hx
  obtain ⟨y, hm, hy⟩ := readyPcs_ready s k w c (List.mem_filter.1 (choosePc_mem hc)).1 x hx
  exact ⟨y, sget_of_mem hs hm, hy⟩

/-- Where no dump and no stop is due, a clause boundary changes nothing. -/
theorem boundaries_none {s : State} {k : Nat} {w : Wave} (hw : sget k s.waves = some w)
    (hd : ∀ e ∈ w.fibres, e.2.dumpAt = none ∧ e.2.stopAt = false) : boundaries s k = s := by
  have hnil : w.fibres.filter (fun e => e.2.dumpAt.isSome || e.2.stopAt) = [] :=
    List.filter_eq_nil_iff.2 fun e he => by simp [hd e he]
  simp only [boundaries, hw, Option.map_some, hnil]
  rfl

/-- The starvation count of a fibre after a choice of the slots `chosen` among `cand` (R344). -/
def starved (chosen cand : List Nat) (x : Nat) (y : Fibre) : Fibre :=
  { y with starve := if chosen.contains x then 0 else if cand.contains x then min 64 (y.starve + 1) else y.starve }

/-- The wave after its choice (R343, R344). -/
def Wave.choose (s : State) (k : Nat) (c : Cand) (cand : List Nat) (w : Wave) : Wave :=
  { w with
    yieldPc := none
    clause := some { hdr := c.hdr, header := 0, words := [], idx := clauseIndex c.hdr c.pc, slots := c.slots, ll := false, fetched := false
                     started := false, chosen := (coreOf s (coreNo k)).clock }
    fibres := w.fibres.map (fun e => (e.1, starved c.slots cand e.1 e.2)) }

theorem exec_waveChoice {s : State} {k : Nat} {w : Wave} {c : Cand} (hw : sget k s.waves = some w) (hm : mayChoose s k w = true)
    (hd : ∀ e ∈ w.fibres, e.2.dumpAt = none ∧ e.2.stopAt = false) (hc : choosePc w ((readyPcs s k w).filter (Cand.ok w)) = some c) :
    exec (.waveChoice k) s
      = .next (modWave s k (Wave.choose s k c (((readyPcs s k w).filter (Cand.ok w)).map (·.slots)).flatten)) := by
  show execWaveChoice k s = _
  simp only [execWaveChoice, hw, hm, boundaries_none hw hd, hc, Bool.not_true, Bool.false_eq_true, if_false]
  rfl

theorem choose_fibres (s : State) (k : Nat) (c : Cand) (cand : List Nat) (w : Wave) (x : Nat) :
    sget x (w.choose s k c cand).fibres = (sget x w.fibres).map (starved c.slots cand x) :=
  sget_map (starved c.slots cand) x w.fibres

theorem starved_chosen {chosen : List Nat} {x : Nat} (h : chosen.contains x = true) (cand : List Nat) (y : Fibre) :
    (starved chosen cand x y).starve = 0 := if_pos h

/-- What the choice of a wave leaves (R343, R344). -/
theorem waveChoice_chooses {s : State} {k : Nat} {w : Wave} {c : Cand} (hw : sget k s.waves = some w) (hm : mayChoose s k w = true)
    (hd : ∀ e ∈ w.fibres, e.2.dumpAt = none ∧ e.2.stopAt = false) (hc : choosePc w ((readyPcs s k w).filter (Cand.ok w)) = some c) :
    ∃ t v, exec (.waveChoice k) s = .next t ∧ OnlyWave s t k v
      ∧ v.clause = some { hdr := c.hdr, header := 0, words := [], idx := clauseIndex c.hdr c.pc, slots := c.slots, ll := false, fetched := false
                          started := false, chosen := (coreOf s (coreNo k)).clock }
      ∧ v.yieldPc = none ∧ { v with clause := w.clause, yieldPc := w.yieldPc, fibres := w.fibres } = w
      ∧ ∀ x, (sget x v.fibres).map (fun y => { y with starve := 0 }) = (sget x w.fibres).map (fun y => { y with starve := 0 })
        ∧ (c.slots.contains x = true → ∀ y, sget x v.fibres = some y → y.starve = 0) := by
  refine ⟨_, _, exec_waveChoice hw hm hd hc, onlyWave_modWave hw _, rfl, rfl, rfl, fun x => ⟨?_, fun hx y hy => ?_⟩⟩
  · rw [choose_fibres, Option.map_map]
    rfl
  · rw [choose_fibres] at hy
    obtain ⟨z, -, rfl⟩ := Option.map_eq_some_iff.1 hy
    exact starved_chosen hx _ z

/-! ### The fetch (R72, R104) -/

/-- A core caches the line of an address of a context, and the word there is `x`. -/
def Cached (s : State) (core ctx : Nat) (a x : W64) : Prop :=
  ∃ e, (coreOf s core).icache.find? (fun e => e.ctx = ctx && e.line = a.toNat - a.toNat % 128) = some e
    ∧ x = BitVec.ofNat 64 (fromBytesLE ((e.data.drop (a.toNat % 128)).take 8))

theorem fetchWord_cached {s : State} {core ctx : Nat} {a x : W64} (h : Cached s core ctx a x) :
    fetchWord s core ctx a = (s, .words [x]) := by
  obtain ⟨e, he, rfl⟩ := h
  simp only [fetchWord, he]

theorem fetchWords_cached {s : State} {core ctx : Nat} {at' x : Nat → W64} {l : List Nat} (h : ∀ i ∈ l, Cached s core ctx (at' i) (x i)) :
    fetchWords s core ctx (l.map at') = (s, .words (l.map x)) := by
  induction l with
  | nil => rfl
  | cons i l ih =>
    obtain ⟨hi, hl⟩ := List.forall_mem_cons.1 h
    simp only [List.map_cons, fetchWords, fetchWord_cached hi, ih hl, List.singleton_append]

/-- A clause whose header passes its check and whose words the core caches. -/
theorem fetchClause_cached {s : State} {core ctx : Nat} {hdr : W64} {word : Nat → W64} (he : headerError (word 0) = none)
    (h : ∀ j ≤ ((word 0).extractLsb' 0 4).toNat + 1, Cached s core ctx (hdr + 8 * BitVec.ofNat 64 j) (word j)) :
    fetchClause s core ctx hdr
      = (s, .words (word 0 :: (List.range (((word 0).extractLsb' 0 4).toNat + 1)).map (fun i => word (i + 1)))) := by
  have h0 : Cached s core ctx hdr (word 0) := by simpa using h 0 (Nat.zero_le _)
  have hrest : ∀ i ∈ List.range (((word 0).extractLsb' 0 4).toNat + 1), Cached s core ctx (hdr + 8 * (BitVec.ofNat 64 i + 1)) (word (i + 1)) :=
    fun i hi => by
      have := h (i + 1) (List.mem_range.1 hi)
      rwa [BitVec.ofNat_add] at this
  simp only [fetchClause, fetchWord_cached h0, he, Option.isSome_none, Bool.false_eq_true, if_false, fetchWords_cached hrest]

theorem regionOf_cached {s : State} {core ctx rid : Nat} {re : RegionEntry}
    (h : (coreOf s core).regions.find? (fun e => e.ctx = ctx && e.rid = rid) = some re) : regionOf s (some core) ctx rid = (s, re) := by
  simp only [regionOf, h]

theorem clauseFetch_fetches {s : State} {k : Nat} {w : Wave} {c : Clause} {re : RegionEntry} {word : Nat → W64} (hw : sget k s.waves = some w)
    (hc : w.clause = some c) (hf : c.fetched = false) (hp : w.page = none) (hrid : ptrRid c.hdr = 0)
    (hre : (coreOf s (coreNo k)).regions.find? (fun e => e.ctx = ctxOf s k && e.rid = 0) = some re) (hin : inRegion re c.hdr.toNat 1 = true)
    (he : headerError (word 0) = none) (hi : c.idx < ((word 0).extractLsb' 0 4).toNat + 1)
    (h : ∀ j ≤ ((word 0).extractLsb' 0 4).toNat + 1, Cached s (coreNo k) (ctxOf s k) (c.hdr + 8 * BitVec.ofNat 64 j) (word j)) :
    let ws := (List.range (((word 0).extractLsb' 0 4).toNat + 1)).map (fun i => word (i + 1))
    ∃ t, exec (.clauseFetch k) s = .next t
      ∧ OnlyWave s t k { w with clause := some { c with header := word 0, words := ws, ll := (ws.take c.idx).any isLongWord, fetched := true } } := by
  intro ws
  refine ⟨_, ?_, onlyWave_modWave hw (fun w => { w with clause := some (c.take (word 0) ws) })⟩
  have hlen : c.idx < ws.length := by rwa [List.length_map, List.length_range]
  show execClauseFetch k s = _
  simp only [execClauseFetch, hw, hc, hf, hp, hrid, regionOf_cached hre, hin, fetchClause_cached he h, he, Option.any_none, Option.isSome_none,
    bne_self_eq_false, Bool.not_true, Bool.or_self, Bool.false_eq_true, if_false]
  exact if_pos hlen

/-! ### The start (R76, R347) -/

/-- A wave whose clause starts, with a partner or alone. -/
def Wave.start (c : Clause) (p : Option Nat) (w : Wave) : Wave := { w with clause := some { c with started := true }, paired := p }

section Start

variable {s : State} {k : Nat} {w : Wave} {c : Clause} (hw : sget k s.waves = some w) (hc : w.clause = some c) (hf : c.fetched = true)
  (hs : c.started = false) (hwait : waitHolds w c.header = true)
include hw hc hf hs hwait

theorem exec_clauseStart {p : Option Nat} (hp : partnerFor s k w c = p) :
    exec (.clauseStart k) s =
      .next (p.elim (modWave s k (Wave.start c p)) (fun p => modWave (modWave s k (Wave.start c p)) p (fun w => { w with paired := some k }))) := by
  have hgo : (c.fetched && !c.started && waitHolds w c.header) = true := by simp [hf, hs, hwait]
  show execClauseStart k s = _
  simp only [execClauseStart, hw, hc, if_pos hgo, hp]
  cases p <;> rfl

/-- A clause that starts alone. -/
theorem clauseStart_alone (hp : partnerFor s k w c = none) :
    ∃ t, exec (.clauseStart k) s = .next t ∧ OnlyWave s t k { w with clause := some { c with started := true }, paired := none } :=
  ⟨_, exec_clauseStart hw hc hf hs hwait hp, onlyWave_modWave hw _⟩

/-- A clause that starts with a partner (R347). -/
theorem clauseStart_paired {p : Nat} {u : Wave} (hp : partnerFor s k w c = some p) (hu : sget p s.waves = some u) (hpk : p ≠ k) :
    ∃ t, exec (.clauseStart k) s = .next t ∧ sget k t.waves = some { w with clause := some { c with started := true }, paired := some p }
      ∧ sget p t.waves = some { u with paired := some k } ∧ (∀ j, j ≠ k → j ≠ p → sget j t.waves = sget j s.waves)
      ∧ { t with waves := s.waves } = s := by
  refine ⟨modWave (modWave s k (Wave.start c (some p))) p (fun w => { w with paired := some k }), exec_clauseStart hw hc hf hs hwait hp, ?_, ?_,
    fun j hj hjp => ?_, rfl⟩
  · rw [sget_modWave_ne hpk.symm, sget_modWave_self, hw]
    rfl
  · rw [sget_modWave_self, sget_modWave_ne hpk, hu]
    rfl
  · rw [sget_modWave_ne hjp, sget_modWave_ne hj]

end Start

end Sys2Proof.Machine
end

section
/-! SUPPORT. The clock of a core (R23, R341, R348, R449). -/

namespace Sys2Proof.Machine

/-- The weights of a meter are all that weighing changes. -/
theorem weighIdle_idleW (s : State) (core : Nat) : ∃ m, weighIdle s core = { s with idleW := m } := by
  unfold weighIdle
  refine kept_foldl (P := fun t => ∃ m, t = { s with idleW := m }) ?_ _ ⟨s.idleW, rfl⟩
  rintro _ e ⟨m, rfl⟩
  exact ⟨_, rfl⟩

/-- No stall reason rests on a meter. -/
theorem stallReason_idleW (s : State) (m : Sparse Nat) (k : Nat) (w : Wave) : stallReason { s with idleW := m } k w = stallReason s k w := rfl

theorem tick_idleW (s : State) (m : Sparse Nat) (k : Nat) (w : Wave) : w.tick { s with idleW := m } k = w.tick s k := by
  simp only [Wave.tick, stallReason_idleW]

/-- What the end of a core's clock leaves of the core. -/
def Core.tick (c : Core) : Core := { c with clock := c.clock + 1, issues := 0, pipes := c.pipes.filter (c.clock.toNat + 1 < ·) }

/-- The waves after a clock of a core. -/
def tickWaves (s : State) (core : Nat) : Sparse Wave := s.waves.map (fun e => if coreNo e.1 = core then (e.1, e.2.tick s e.1) else e)

/-- The gangs after a clock of a core (R408). -/
def tickGangs (s : State) (core : Nat) : Sparse Gang :=
  s.gangs.map (fun g => if g.2.state == .resident && g.2.cores.head? == some core then (g.1, { g.2 with resident := g.2.resident + 1 }) else g)

/-- A clock of a core in which no sample is due. -/
theorem exec_coreClock {s : State} {core : Nat} (h : core < 128) (hd : sampleDue s core = false) :
    ∃ i m, exec (.coreClock core) s
      = .next (modCore (freePorts { s with waves := tickWaves s core, gangs := tickGangs s core, idleW := i, meterClk := m } core) core Core.tick) := by
  obtain ⟨i, hi⟩ := weighIdle_idleW s core
  have hsample : takeSample s core = s := by simp [takeSample, hd]
  refine ⟨i, sputD 0 core (sgetD 0 s.meterClk core + 1) s.meterClk, ?_⟩
  show execCoreClock core s = _
  simp only [execCoreClock, if_neg (show ¬ core = 0xFFFF by omega), if_neg (show ¬ 128 ≤ core by omega), hsample, hi, tick_idleW]
  rfl

theorem sget_tickWaves (s : State) (core k : Nat) :
    sget k (tickWaves s core) = (sget k s.waves).map (fun w => if coreNo k = core then w.tick s k else w) := by
  have h : tickWaves s core = s.waves.map (fun e => (e.1, if coreNo e.1 = core then e.2.tick s e.1 else e.2)) :=
    List.map_congr_left fun e _ => by split <;> rfl
  rw [h]
  exact sget_map (fun i w => if coreNo i = core then Wave.tick s i w else w) k s.waves

/-- A cluster whose ports a core gives up (R341). -/
def Cluster.free (core : Nat) (c : Cluster) : Cluster :=
  { c with mxPort := c.mxPort.filter (fun p => p != core), cpPort := c.cpPort.filter (fun p => p != core) }

theorem clusterOf_freePorts (s : State) (core c : Nat) : clusterOf (freePorts s core) c = (clusterOf s c).free core := by
  have h : sget c (freePorts s core).clusters = (sget c s.clusters).map (Cluster.free core) := sget_map (fun _ => Cluster.free core) c s.clusters
  simp only [clusterOf, sgetD, h]
  cases sget c s.clusters <;> rfl

theorem tick_eq (s : State) (k : Nat) (w : Wave) :
    let w' : Wave := { w with paired := w.paired.filter (fun p => (sget p s.waves).any (fun v => v.paired = some k)) }
    w.tick s k = if w.issued.isSome then { w' with issued := none }
      else { w' with stall := sputD 0 (stallReason s k w').1 ((sgetD 0 w.stall (stallReason s k w').1 + 1) % 2 ^ 64) w.stall } := by
  intro w'
  unfold Wave.tick
  dsimp only
  split
  · next h => rw [if_pos (by rw [h]; rfl)]
  · next h => rw [if_neg (by rw [h]; exact Bool.false_ne_true)]

/-- What a clock of a core leaves (R23, R341, R348, R449). -/
theorem coreClock_ticks {s : State} {k : Nat} {w : Wave} (hw : sget k s.waves = some w) (hk : coreNo k < 128) (hd : sampleDue s (coreNo k) = false) :
    ∃ t, exec (.coreClock (coreNo k)) s = .next t ∧ coreOf t (coreNo k) = (coreOf s (coreNo k)).tick
      ∧ (∀ j, j ≠ coreNo k → coreOf t j = coreOf s j) ∧ sget k t.waves = some (w.tick s k)
      ∧ (∀ c, clusterOf t c = (clusterOf s c).free (coreNo k))
      ∧ { t with waves := s.waves, cores := s.cores, clusters := s.clusters, gangs := s.gangs, idleW := s.idleW, meterClk := s.meterClk } = s := by
  obtain ⟨i, m, h⟩ := exec_coreClock hk hd
  refine ⟨_, h, coreOf_modCore_self .., fun j hj => coreOf_modCore_ne hj .., ?_, clusterOf_freePorts _ _, rfl⟩
  refine (sget_tickWaves s (coreNo k) k).trans ?_
  rw [hw, Option.map_some, if_pos rfl]

end Sys2Proof.Machine
end

section
/-! SUPPORT. How fibres and waves end without an instruction (R225, R350, R351, R432). -/

namespace Sys2Proof.Machine

/-! ### What the end of a fibre leaves of the control registers -/

/-- The control registers, and the debugger's commands that wait for a fibre. -/
def State.panel (s : State) : Sparse W64 × Sparse (Nat × Nat × W32) := (s.ctl, s.dbBusy)

theorem foldl_panel {α : Type} {f : State → α → State} (h : ∀ s a, (f s a).panel = s.panel) (l : List α) (s : State) :
    (l.foldl f s).panel = s.panel :=
  kept_foldl (P := fun t => t.panel = s.panel) (fun t a ht => (h t a).trans ht) l rfl

theorem dropFlag_panel (s : State) (wk : Nat) (k : Option Nat) : (dropFlag s wk k).panel = s.panel := by
  cases k <;> rfl

theorem endMat_panel (s : State) (n : Nat) : (endMat s n).panel = s.panel := by
  unfold endMat
  split
  · rfl
  · next o _ =>
    refine (dropFlag_panel (if o.isPass then setSusp s o false (some 0) else s) o.wave o.flag).trans ?_
    split <;> rfl

theorem settleMats_panel (s : State) (wk : Nat) : (settleMats s wk).panel = s.panel := by
  unfold settleMats
  refine foldl_panel (fun s e => ?_) _ s
  split
  · exact endMat_panel s e.1
  · rfl

theorem dropIdle_panel (s : State) (wk : Nat) : (dropIdle s wk).panel = s.panel := by
  unfold dropIdle
  refine foldl_panel (fun s (e : Nat × Op) => ?_) _ s
  exact (dropFlag_panel s wk e.2.flag :)

theorem orphanAll_panel (s : State) (wk slot : Nat) : (orphanAll s wk slot).panel = s.panel := by
  unfold orphanAll
  refine foldl_panel (fun s e => ?_) _ s
  unfold orphan
  dsimp only
  split <;> rfl

/-- Where no command of the debugger waits, none is done. -/
theorem dbDone_idle {s : State} (h : s.dbBusy = []) (l wg : Nat) (lfi : W32) (n : Nat) : dbDone s l wg lfi n = s := by
  simp only [dbDone, h, List.filter_nil, List.foldl_nil]

theorem endFibre_ctl {s : State} (h : s.dbBusy = []) (wk x : Nat) (how : Ending) : (endFibre s wk x how).ctl = s.ctl := by
  unfold endFibre
  split
  · next w f _ _ =>
    have h1 : (orphanAll (leaveClause s wk x) wk x).panel = s.panel := orphanAll_panel _ wk x
    have h2 := dbDone_idle (s := tagDrop (orphanAll (leaveClause s wk x) wk x) (ctxOf s wk) f.ct.toNat) ((congrArg Prod.snd h1).trans h) w.launch w.wg f.lfi 1
    dsimp only
    rw [h2]
    refine (congrArg Prod.fst (dropIdle_panel _ wk) :).trans ?_
    refine (congrArg Prod.fst (settleMats_panel _ wk) :).trans ?_
    exact congrArg Prod.fst h1
  · rfl

/-! ### The end of a fibre of an aborted gang (R432) -/

theorem sget_mind (s : State) (j : Nat) : sget j s.mind.waves = (sget j s.waves).map Wave.mind := sget_map (fun _ => Wave.mind) j s.waves

theorem exec_gangAbortFibreEnd {s : State} {k x : Nat} {w : Wave} (hw : sget k s.waves = some w)
    (ha : (sget (gangOf s k) s.gangs).any (·.abort) = true) (hc : ∀ c, w.clause = some c → c.started = true → x ∉ c.slots) :
    exec (.gangAbortFibreEnd k x) s = .next (endFibre s k x .abort) := by
  have hout : w.clause.any (fun c => c.started && c.slots.contains x) = false := by
    rw [Option.any_eq_false]
    intro c h
    simpa using hc c h
  show execGangAbortFibreEnd k x s = _
  simp only [execGangAbortFibreEnd, hw, ha, hout, Bool.not_false, Bool.and_self, if_true]

/-- What a fibre that ends leaves of its wave. -/
theorem leave_del (x : Nat) (w : Wave) : ((w.leave x).del x).fibres = sdel x w.fibres ∧ ((w.leave x).del x).g = w.g :=
  ⟨congrArg (sdel x) (leave_fibres x w), (congrArg Wave.g (leave_rest x w) :)⟩

theorem gangAbortFibreEnd_ends {s : State} {k x : Nat} {w : Wave} {y : Fibre} (hw : sget k s.waves = some w) (hy : sget x w.fibres = some y)
    (ha : (sget (gangOf s k) s.gangs).any (·.abort) = true) (hc : ∀ c, w.clause = some c → c.started = true → x ∉ c.slots) :
    ∃ t v, exec (.gangAbortFibreEnd k x) s = .next t ∧ sget k t.waves = some v ∧ sget x v.fibres = none
      ∧ (∀ j, j ≠ x → sget j v.fibres = sget j w.fibres) ∧ v.g = w.g
      ∧ (∀ j, j ≠ k → (sget j t.waves).map (fun u => (u.fibres, u.clause, u.g)) = (sget j s.waves).map (fun u => (u.fibres, u.clause, u.g)))
      ∧ (∀ l, sget w.launch s.launches = some l → sget w.launch t.launches = some { l with nkill := l.nkill + 1 })
      ∧ t.mem = s.mem ∧ t.gangs = s.gangs ∧ (s.dbBusy = [] → t.ctl = s.ctl) := by
  have hm := endFibre_ends .abort hw (show fibreAt s k x = some y by rw [fibreAt, hw]; exact hy)
  have hown : (sget k (endFibre s k x .abort).waves).map Wave.mind = some ((w.mind.leave x).del x) := by
    rw [← sget_mind, hm, modLaunch_waves, sget_modWave_self, sget_mind, hw]
    rfl
  obtain ⟨v, hv, he⟩ := Option.map_eq_some_iff.1 hown
  obtain ⟨hfib, hg⟩ := leave_del x w.mind
  have hvf : v.fibres = sdel x w.fibres := (congrArg Wave.fibres he).trans hfib
  refine ⟨_, v, exec_gangAbortFibreEnd hw ha hc, hv, ?_, fun j hj => ?_, (congrArg Wave.g he).trans hg, fun j hj => ?_, fun l hl => ?_,
    (congrArg State.mem hm :), (congrArg State.gangs hm :), fun h => endFibre_ctl h k x .abort⟩
  · rw [hvf, sget_sdel_self]
  · rw [hvf, sget_sdel_ne hj]
  · have hj : (sget j (endFibre s k x .abort).waves).map Wave.mind = (sget j s.waves).map Wave.mind := by
      rw [← sget_mind, hm, modLaunch_waves, sget_modWave_ne hj, sget_mind]
    have hparts := congrArg (Option.map fun u : Wave => (u.fibres, u.clause, u.g)) hj
    rwa [Option.map_map, Option.map_map] at hparts
  · have hlaunch : (endFibre s k x .abort).launches = smod w.launch (Launch.ended .abort) s.launches := congrArg State.launches hm
    rw [hlaunch, sget_smod_self, hl]
    rfl

/-! ### The trap of a sparsity error (R225) -/

/-- What the record of a sparsity error says (R225, R425). -/
def sparsityCause (o : MatOp) (n : Nat) : Cause :=
  { kind := 8, sub := 5, addr := o.pc, acc := 7, syn0 := BitVec.ofNat 32 (o.next - 1), syn1 := BitVec.ofNat 32 o.quad, syn2 := BitVec.ofNat 32 o.acc
    apc := some o.pc, async := true, matOp := some n }

theorem exec_sparsityTrap {s : State} {k x n : Nat} {w : Wave} {y : Fibre} {o : MatOp} (hw : sget k s.waves = some w) (hy : sget x w.fibres = some y)
    (hn : y.sparse = some n) (hb : atBoundary w x y = true) (ho : sget n s.mats = some o) :
    exec (.sparsityTrap k x) s
      = .next (trap (modFibre s k x (fun f => { f with sparse := none })) k x { pc := y.pc, place := none } (sparsityCause o n)) := by
  have hf : fibreAt s k x = some y := by rw [fibreAt, hw]; exact hy
  show execSparsityTrap k x s = _
  simp only [execSparsityTrap, hw, hf, hn, hb, modFibre_eq, modWave_mats, ho, Bool.not_true, Bool.false_eq_true, if_false]
  rfl

/-- A change of a fibre leaves what its wave belongs to. -/
theorem gangOf_modFibre (s : State) (k x : Nat) (F : Fibre → Fibre) : gangOf (modFibre s k x F) k = gangOf s k := by
  unfold gangOf
  rw [modFibre_eq, sget_modWave_self]
  cases sget k s.waves <;> rfl

theorem ctxOf_modFibre (s : State) (k x : Nat) (F : Fibre → Fibre) : ctxOf (modFibre s k x F) k = ctxOf s k := by
  unfold ctxOf launchOf
  rw [modFibre_eq, sget_modWave_self]
  cases sget k s.waves <;> rfl

/-- A fibre whose sparsity error is taken. -/
def Fibre.settled (f : Fibre) : Fibre := { f with sparse := none }

/-- The fibre at its handler, with the record of its sparsity error (R225, R426). -/
def toHandler (s : State) (z : Site) (x : Nat) (y : Fibre) (c : Cause) (f : Fibre) : Fibre :=
  f.enter (handlerOf s z) (recordSlot s z x y) (trapPos z.wk x) { pc := y.pc, place := none } c

/-- The wave of a fibre that takes its sparsity error. -/
def sparsityWave (s : State) (z : Site) (x : Nat) (y : Fibre) (c : Cause) (w : Wave) : Wave :=
  ((w.put x Fibre.settled).put x (toHandler s z x y c)).leave x

section Sparsity

variable {s : State} {z : Site} {x n : Nat} {y : Fibre} {o : MatOp} {reach : List (Nat × Nat)} (hw : sget z.wk s.waves = some z.w)
  (hy : sget x z.w.fibres = some y) (hn : y.sparse = some n) (hb : atBoundary z.w x y = true) (ho : sget n s.mats = some o) (hopen : Open s)
  (hc : CanTrap s z x y reach)
include hw hy hn hb ho hopen hc

/-- The trap changes the wave, and the bytes of the record's slot. -/
theorem exec_sparsityTrap_delivered :
    ∃ m p, exec (.sparsityTrap z.wk x) s = .next ((modWave s z.wk (sparsityWave s z x y (sparsityCause o n))).withMem m p)
      ∧ ∀ a, (∀ q ∈ reach, q.2 ≠ a) → sgetD unlisted m a = pByte s a := by
  have hopen' : Open (modFibre s z.wk x Fibre.settled) := ⟨hopen.windows, hopen.ops, hopen.reqs⟩
  have hW : sget z.wk (modFibre s z.wk x Fibre.settled).waves = some (z.w.put x Fibre.settled) := by rw [modFibre_put, sget_modWave_self, hw]; rfl
  have hf : sget x (z.w.put x Fibre.settled).fibres = some y.settled := by rw [put_self, hy]; rfl
  have ht := trap_goes (r := { pc := y.pc, place := none }) (c := sparsityCause o n) hc hopen' rfl rfl (gangOf_modFibre ..) (ctxOf_modFibre ..) rfl rfl rfl rfl
    hW hf rfl rfl rfl rfl rfl (fun _ => rfl) (fun _ => rfl) rfl
  rw [writeBytes_open hopen', leaveClause_eq, modFibre_put, modFibre_put, modWave_modWave, modWave_modWave] at ht
  refine ⟨_, _, (exec_sparsityTrap hw hy hn hb ho).trans (congrArg _ ht), fun a ha => putAll_other fun cell hcell => ?_⟩
  obtain ⟨q, hq, he⟩ := List.mem_map.1 (List.of_mem_zip hcell).1
  exact he ▸ ha q hq

theorem sparsityTrap_traps :
    ∃ t v f, exec (.sparsityTrap z.wk x) s = .next t ∧ sget z.wk t.waves = some v ∧ sget x v.fibres = some f
      ∧ f.pc = handlerOf s z ∧ f.base = none ∧ f.sparse = none ∧ f.rv2 0 = recordSlot s z x y ∧ f.rv 3 = 0x00080005
      ∧ f.recs = y.recs ++ [{ kind := 8, sub := 5, rpc := y.pc, base := none, ll := false, ptr := recordSlot s z x y, matOp := some n
                              stamp := y.stamp }]
      ∧ (∀ r, 4 ≤ r → f.rv r = y.rv r ∧ f.vp r = y.vp r) ∧ (∀ j, j ≠ x → sget j v.fibres = sget j z.w.fibres)
      ∧ (∀ j, j ≠ z.wk → sget j t.waves = sget j s.waves) ∧ (∀ p, (∀ q ∈ reach, q.2 ≠ p) → pByte t p = pByte s p)
      ∧ t.mats = s.mats ∧ t.gangs = s.gangs ∧ t.launches = s.launches ∧ t.ctl = s.ctl := by
  obtain ⟨m, p, ht, hframe⟩ := exec_sparsityTrap_delivered hw hy hn hb ho hopen hc
  obtain ⟨hv0, -, hv3, -, hregs⟩ := enter_regs y.settled (handlerOf s z) (recordSlot s z x y) (trapPos z.wk x) { pc := y.pc, place := none } (sparsityCause o n)
  have hcode : (8 : Byte).setWidth 16 ++ (5 : BitVec 16) = (0x00080005 : W32) := by decide
  refine ⟨_, sparsityWave s z x y (sparsityCause o n) z.w, toHandler s z x y (sparsityCause o n) y.settled, ht, ?_, ?_, rfl, rfl, rfl, hv0,
    hv3.trans hcode, rfl, hregs, fun j hj => ?_, fun j hj => sget_modWave_ne hj s _, hframe, rfl, rfl, rfl, rfl⟩
  · exact (sget_modWave_self s z.wk _).trans (congrArg (Option.map _) hw)
  · rw [sparsityWave, leave_fibres, put_self, put_self, hy]
    rfl
  · rw [sparsityWave, leave_fibres, put_other hj, put_other hj]

end Sparsity

/-! ### The end of a wave (R350, R351) -/

/-- The wake-up of fibres in `gridwait` changes waves alone, and makes none. -/
theorem wakeGrids_waves (s : State) :
    { wakeGrids s with waves := s.waves } = s ∧ ∀ j, sget j s.waves = none → sget j (wakeGrids s).waves = none := by
  unfold wakeGrids
  refine kept_foldl (P := fun t => { t with waves := s.waves } = s ∧ ∀ j, sget j s.waves = none → sget j t.waves = none) ?_ _ ⟨rfl, fun _ h => h⟩
  intro t e ⟨hrest, hnone⟩
  split
  · refine ⟨hrest, fun j hj => ?_⟩
    rw [modWave_waves, sget_smod, hnone j hj]
    split <;> rfl
  · exact ⟨hrest, hnone⟩

/-- The state without what the write of a workgroup record changes. -/
def State.unrecorded (s : State) : State := { s.apart with ctl := [] }

/-- A workgroup record is written to memory and counted in control registers (R452). -/
theorem workgroupRecord_unrecorded (s : State) (wgk : Nat) (g : Workgroup) : (workgroupRecord s wgk g).unrecorded = s.unrecorded := by
  have hctl (t : State) (r : Nat) (v : W64) : (ctlWr t r v).unrecorded = t.unrecorded := rfl
  have hkept : Kept (fun t => t.unrecorded = s.unrecorded) := ⟨id, fun _ => id, fun _ => id, fun _ => id, fun _ => id, fun _ => id⟩
  unfold workgroupRecord
  dsimp only
  split
  · rfl
  · split
    · exact hctl ..
    · rw [hctl]
      exact writeBytes_kept (P := fun t => t.unrecorded = s.unrecorded) hkept rfl

/-- What a launch counts when a workgroup of it retires (R351). -/
def Launch.retire (wg : Nat) (aborted : Bool) (at' : Nat × Nat) (l : Launch) : Launch :=
  { l with trig := l.trig.filter (· != wg), done := l.done + 1, nwg := if aborted then l.nwg else l.nwg + 1, finish := at' }

/-- The state in which a workgroup has retired and no fibre in `gridwait` has been woken for it. -/
def retired (s : State) (wgk : Nat) (g : Workgroup) (aborted : Bool) (at' : Nat × Nat) : State :=
  modLaunch { s with wgs := sput wgk { g with retired := true, tiles := [] } s.wgs } (wgk / 2 ^ 32) (Launch.retire (wgk % 2 ^ 32) aborted at')

theorem retireWorkgroup_eq {s : State} {wgk : Nat} {g : Workgroup} (hg : sget wgk s.wgs = some g) :
    ∃ r aborted at', r.unrecorded = s.unrecorded ∧ retireWorkgroup s wgk = wakeGrids (retired r wgk g aborted at') := by
  refine ⟨workgroupRecord s wgk g, (sget (gangKey s (wgk / 2 ^ 32) (wgk % 2 ^ 32)) s.gangs).any (·.abort),
    (g.core, (coreOf (workgroupRecord s wgk g) g.core).clock.toNat), workgroupRecord_unrecorded s wgk g, ?_⟩
  simp only [retireWorkgroup, hg]
  rfl

/-- What a workgroup that retires leaves (R351). -/
theorem retireWorkgroup_retires {s : State} {wgk : Nat} {g : Workgroup} (hg : sget wgk s.wgs = some g) :
    let t := retireWorkgroup s wgk
    sget wgk t.wgs = some { g with retired := true, tiles := [] }
      ∧ (∀ l, sget (wgk / 2 ^ 32) s.launches = some l →
          ∃ l', sget (wgk / 2 ^ 32) t.launches = some l' ∧ l'.done = l.done + 1 ∧ (wgk % 2 ^ 32) ∉ l'.trig)
      ∧ (∀ j, sget j s.waves = none → sget j t.waves = none) ∧ t.ops = s.ops ∧ t.mats = s.mats := by
  obtain ⟨r, aborted, at', hr, ht⟩ := retireWorkgroup_eq hg
  obtain ⟨hrest, hnone⟩ := wakeGrids_waves (retired r wgk g aborted at')
  rw [← ht] at hrest hnone
  have hwgs : (retireWorkgroup s wgk).wgs = sput wgk { g with retired := true, tiles := [] } r.wgs := (congrArg State.wgs hrest :)
  have hlaunches : (retireWorkgroup s wgk).launches = smod (wgk / 2 ^ 32) (Launch.retire (wgk % 2 ^ 32) aborted at') s.launches :=
    (congrArg State.launches hrest :).trans (congrArg (smod _ _) (congrArg State.launches hr :))
  refine ⟨?_, fun l hl => ⟨l.retire (wgk % 2 ^ 32) aborted at', ?_, rfl, ?_⟩, fun j hj => hnone j ?_,
    (congrArg State.ops hrest :).trans (congrArg State.ops hr :), (congrArg State.mats hrest :).trans (congrArg State.mats hr :)⟩
  · rw [hwgs, sget_sput_self]
  · rw [hlaunches, sget_smod_self, hl]
    rfl
  · simp [Launch.retire]
  · exact (congrArg (sget j) (congrArg State.waves hr :)).trans hj

/-- The state after a wave is freed, before its workgroup retires (R350). -/
def freeWave (s : State) (k : Nat) (w : Wave) : State :=
  { s with
    waves := sdel k s.waves, cur := if s.cur = some k then none else s.cur
    wgs := smod (wgKey w) (fun u => { u with waves := u.waves.filter (fun j => j != k), stalls := sput w.widx w.stall u.stalls }) s.wgs }

theorem sget_freeWave {s : State} {w : Wave} {u : Workgroup} (k : Nat) (hu : sget (wgKey w) s.wgs = some u) :
    sget (wgKey w) (freeWave s k w).wgs = some { u with waves := u.waves.filter (fun j => j != k), stalls := sput w.widx w.stall u.stalls } := by
  rw [freeWave, sget_smod_self, hu]
  rfl

theorem exec_waveEnd {s : State} {k : Nat} {w : Wave} {u : Workgroup} (hw : sget k s.waves = some w) (ho : waveOver s k w = true)
    (hu : sget (wgKey w) s.wgs = some u) :
    exec (.waveEnd k) s
      = .next (if (u.waves.filter (fun j => j != k)).isEmpty then retireWorkgroup (freeWave s k w) (wgKey w) else freeWave s k w) := by
  show execWaveEnd k s = _
  simp only [execWaveEnd, hw, ho, Bool.not_true, Bool.false_eq_true, if_false]
  show Host.Outcome.next (if (sget (wgKey w) (freeWave s k w).wgs).any (fun g => g.waves.isEmpty) = true then _ else _) = _
  rw [sget_freeWave k hu]
  rfl

theorem waveEnd_frees {s : State} {k : Nat} {w : Wave} {u : Workgroup} (hw : sget k s.waves = some w) (ho : waveOver s k w = true)
    (hu : sget (wgKey w) s.wgs = some u) :
    let left := u.waves.filter (fun j => j != k)
    ∃ t u', exec (.waveEnd k) s = .next t ∧ sget k t.waves = none ∧ sget (wgKey w) t.wgs = some u' ∧ u'.waves = left
      ∧ u'.stalls = sput w.widx w.stall u.stalls ∧ u'.retired = (u.retired || left.isEmpty) ∧ u'.tiles = (if left.isEmpty then [] else u.tiles)
      ∧ (left ≠ [] → t = { s with waves := sdel k s.waves, cur := if s.cur = some k then none else s.cur, wgs := t.wgs })
      ∧ (left = [] → ∀ l, sget (wgKey w / 2 ^ 32) s.launches = some l → ∃ l', sget (wgKey w / 2 ^ 32) t.launches = some l' ∧ l'.done = l.done + 1
          ∧ (wgKey w % 2 ^ 32) ∉ l'.trig)
      ∧ t.ops = s.ops ∧ t.mats = s.mats := by
  intro left
  have hexec := exec_waveEnd hw ho hu
  have hg := sget_freeWave k hu
  have hnone : sget k (freeWave s k w).waves = none := sget_sdel_self k s.waves
  by_cases hl : left = []
  · have he : left.isEmpty = true := List.isEmpty_iff.2 hl
    obtain ⟨hwg, hlaunch, hwaves, hops, hmats⟩ := retireWorkgroup_retires hg
    refine ⟨_, _, hexec.trans (congrArg _ (if_pos he)), hwaves k hnone, hwg, rfl, rfl, ?_, (if_pos he).symm, fun hne => absurd hl hne,
      fun _ => hlaunch, hops, hmats⟩
    rw [he, Bool.or_true]
  · have he : ¬ left.isEmpty = true := fun h => hl (List.isEmpty_iff.1 h)
    refine ⟨_, _, hexec.trans (congrArg _ (if_neg he)), hnone, hg, rfl, rfl, ?_, (if_neg he).symm, fun _ => rfl, fun h => absurd h hl, rfl, rfl⟩
    rw [Bool.eq_false_iff.2 he, Bool.or_false]

end Sys2Proof.Machine
end

section
/-! SUPPORT. How waves choose, fetch and start clauses, count clocks, and end with their fibres, together (O34). -/

namespace Sys2Proof.Machine

/-- Settles O34: a choice, a fetch and a start change one wave; a clock touches each wave of its core and the ports that the core held;
the ends of fibres and of waves are those of `endFibre`, of a delivered trap and of a retired workgroup. -/
theorem waveSteps : Obligations.WaveSteps := by
  refine ⟨fun s k w hw => ⟨fun c hm hs hd hc => ⟨chosen_ready hs hc, waveChoice_chooses hw hm hd hc⟩,
      fun c re word hc hf hp hrid hre hin he hi h => clauseFetch_fetches hw hc hf hp hrid hre hin he hi h,
      fun c hc hf hs hwait => ⟨clauseStart_alone hw hc hf hs hwait, fun p u => clauseStart_paired hw hc hf hs hwait⟩, fun hk hd => ?_, rfl⟩,
    fun s k x w y hw hy ha hc => gangAbortFibreEnd_ends hw hy ha hc,
    fun s z x n y o reach hw hy hn hb ho hopen hc => sparsityTrap_traps hw hy hn hb ho hopen hc, fun s k w u hw ho hu => waveEnd_frees hw ho hu⟩
  obtain ⟨t, ht, hcore, hothers, hwave, hcluster, hrest⟩ := coreClock_ticks hw hk hd
  refine ⟨t, ht, congrArg Core.clock hcore, congrArg Core.issues hcore, ?_, hothers, hwave.trans (congrArg some (tick_eq s k w)), hcluster, hrest⟩
  rw [hcore]
  rfl

end Sys2Proof.Machine
end

section
/-! SUPPORT. Registers and predicates read as they were written, and the instructions that select, move and stage them (O58, O9). -/

namespace Sys2Proof.Machine

/-! ### Registers that a write does not name -/

theorem vp_setV_self (f : Fibre) (r : Nat) (x : W32) : (f.setV r x).vp r = false := vp_setVp_self f r x false
theorem vp_setV_ne {q r : Nat} (h : q ≠ r) (f : Fibre) (x : W32) : (f.setV r x).vp q = f.vp q := vp_setVp_ne h f x false

/-- The low word of a written pair is in the register named, the high word in the next (R36). -/
theorem rv_setV2_low (f : Fibre) (r : Nat) (x : W64) : (f.setV2 r x).rv r = x.extractLsb' 0 32 := by
  rw [Fibre.setV2, rv_setV_ne (by omega), rv_setV_self]
theorem rv_setV2_high (f : Fibre) (r : Nat) (x : W64) : (f.setV2 r x).rv (r + 1) = x.extractLsb' 32 32 := by
  rw [Fibre.setV2, rv_setV_self]

theorem setP_zero (f : Fibre) (b : Bool) : f.setP 0 b = f := rfl

/-- A write to a predicate leaves the others. -/
theorem rp_setP_ne {j k : BitVec 4} (h : j ≠ k) (f : Fibre) (b : Bool) : (f.setP k b).rp j = f.rp j := by
  have hb : (BitVec.ofNat 16 (1 <<< k.toNat)).getLsbD j.toNat = false := by
    revert j k; decide
  have hj : j.toNat < 16 := j.isLt
  unfold Fibre.setP Fibre.rp
  split
  · rfl
  · cases b <;> simp only [if_true, Bool.false_eq_true, if_false, BitVec.natCast_eq_ofNat, BitVec.getLsbD_or, BitVec.getLsbD_and, BitVec.getLsbD_not, hb, hj] <;> simp

/-- Settles O58: a write reads back by the map's own law, and its poison flag is the one written. -/
theorem registersReadAsWritten : Obligations.RegistersReadAsWritten := by
  refine fun y w => ⟨⟨rfl, setP_zero y, fun v => by simp [Fibre.setPreds]⟩, fun k j b hk => ?_, fun r v => ?_, fun r v => ?_, fun r v => ?_⟩
  · split
    · next h => rw [h, rp_setP_self, beq_eq_false_iff_ne.2 hk, Bool.false_or]
    · next h => exact rp_setP_ne h y b
  · exact ⟨rv_setV_self y r v, vp_setV_self y r v, fun j h => ⟨rv_setV_ne h y v, vp_setV_ne h y v⟩⟩
  · exact ⟨rv2_setV2_self y r v, rv_setV2_low y r v, rv_setV2_high y r v⟩
  · exact ⟨rg_setG_self w r v, fun j h => rg_setG_ne h w v⟩

/-! ### Selection, moves and staging -/

theorem pairwise_insertNat (k : Nat) {l : List Nat} (h : l.Pairwise (· < ·)) : (insertNat k l).Pairwise (· < ·) := by
  induction l with
  | nil => exact List.pairwise_singleton _ _
  | cons a l ih =>
    obtain ⟨ha, hl⟩ := List.pairwise_cons.1 h
    unfold insertNat
    split
    · next hk => exact List.pairwise_cons.2 ⟨fun b hb => (List.mem_cons.1 hb).elim (· ▸ hk) (fun hb => hk.trans (ha b hb)), h⟩
    · split
      · exact h
      · refine List.pairwise_cons.2 ⟨fun b hb => ?_, ih hl⟩
        rcases mem_insertNat.1 hb with rfl | hb
        · omega
        · exact ha b hb

/-- Numbers inserted one by one rise strictly. -/
theorem pairwise_foldl_insertNat (l : List Nat) {old : List Nat} (h : old.Pairwise (· < ·)) :
    (l.foldl (fun l r => insertNat r l) old).Pairwise (· < ·) := by
  induction l generalizing old with
  | nil => exact h
  | cons a l ih => exact ih (pairwise_insertNat a h)

theorem mem_run {base n r : Nat} : r ∈ run base n ↔ base ≤ r ∧ r < base + n := by
  unfold run
  simp only [List.mem_map, List.mem_range]
  exact ⟨fun ⟨i, hi, e⟩ => by omega, fun ⟨h1, h2⟩ => ⟨r - base, by omega, by omega⟩⟩

/-- No run of `stage` reaches past 258: its fields have 8 and 2 bits (R143). -/
theorem stageRuns_below {x : RRR} {p : Nat × Nat} (h : p ∈ stageRuns x) : p.1 + p.2 ≤ 258 := by
  simp only [stageRuns, List.mem_cons, List.not_mem_nil, or_false] at h
  rcases h with rfl | rfl | rfl | rfl <;> dsimp only <;> omega

/-- The staged set holds the registers of the runs, ascending (R45). -/
theorem staged_eq (x : RRR) : ((stageRuns x).map (fun r => run r.1 r.2)).flatten.foldl (fun l r => insertNat r l) []
    = (List.range 259).filter (fun r => (stageRuns x).any (fun p => p.1 ≤ r && r < p.1 + p.2)) := by
  refine (pairwise_foldl_insertNat _ List.Pairwise.nil).sortedLT.eq_of_mem_iff (List.pairwise_lt_range.filter _).sortedLT (fun r => ?_)
  simp only [mem_foldl_insertNat, List.not_mem_nil, or_false, List.mem_flatten, List.mem_map, exists_exists_and_eq_and, mem_run,
    List.mem_filter, List.mem_range, List.any_eq_true, Bool.and_eq_true, decide_eq_true_eq]
  exact ⟨fun ⟨p, hp, h⟩ => ⟨by have := stageRuns_below hp; omega, p, hp, h⟩, fun ⟨_, h⟩ => h⟩

theorem setPreds_loadPreds (y : Fibre) (a b : W64) : y.setPreds (loadPreds y.pred (a.extractLsb' 0 32) (b.extractLsb' 0 32))
    = { y with pred := (y.pred &&& ~~~(b.setWidth 16 &&& 0xFFFE) ||| (a.setWidth 16 &&& (b.setWidth 16 &&& 0xFFFE))) ||| 1 } := by
  have low (v : W64) : (v.extractLsb' 0 32).extractLsb' 0 16 = v.setWidth 16 := by ext i hi; simp
  unfold Fibre.setPreds loadPreds
  simp only [low]

theorem tableBit_eq (lut : BitVec 8) (a b c : Bool) :
    tableBit lut a b c = lut.getLsbD (4 * (if a then 1 else 0) + 2 * (if b then 1 else 0) + (if c then 1 else 0)) := by
  cases a <;> cases b <;> cases c <;> rfl

/-- A special register reads the same while the bundle issues: of the wave it takes what an issue leaves (R41). -/
theorem specialReg_begunWave (wk k : Nat) (w : Wave) (b : Bundle) (y : Fibre) (l : Launch) (n : Nat) :
    specialReg wk k (begunWave w b) y l n = specialReg wk k w y l n := by
  have hf : ((begunWave w b).fibres.map (fun e => 2 ^ e.1)).sum = (w.fibres.map (fun e => 2 ^ e.1)).sum := by
    congr 1
    unfold begunWave
    rw [List.map_map]
    refine List.map_congr_left (fun e _ => ?_)
    dsimp only [Function.comp]
    split <;> rfl
  unfold specialReg
  rw [hf]
  rfl

/-- No fibre of the bundle names a uniform register past the count or takes a poisoned one: what `movg` needs to complete (R140). -/
def MovgGood (g : Guard) (x : RRR) (z : Site) : Prop :=
  ∀ k ∈ (z.bundle g).act, ∀ y, sget k z.w.fibres = some y →
    let j := x.a.toNat + (y.rv x.b.toNat).toNat
    j < z.l.gcnt ∧ (sgetD GWord.zero z.w.g j).poisLo = false ∧ (isWide x.ty = true → (sgetD GWord.zero z.w.g j).poisHi = false)

theorem MovgGood.inRange {g : Guard} {x : RRR} {z : Site} (h : MovgGood g x z) : InRange (.movg g x) g z :=
  fun k hk y hy => if_neg (Nat.not_le.2 (h k hk y hy).1)

/-- Without a poisoned word, `movg` gives each fibre the register it chose. -/
theorem movg_good {s : State} {g : Guard} {x : RRR} {z : Site} (h : Ready s (.movg g x) g .none z) (ok : MovgGood g x z) :
    movg x (z.given g []) (begun s z.w (z.bundle g) (.movg g x) z.f)
      = mapFibres (begun s z.w (z.bundle g) (.movg g x) z.f) z.wk (z.bundle g).act
          (fun _ y => y.setX (isWide x.ty) x.d.toNat (z.w.rg (x.a.toNat + (y.rv x.b.toNat).toNat))) := by
  have hbad : (z.bundle g).act.filterMap (fun k => (sget k (begunWave z.w (z.bundle g)).fibres).bind (fun f =>
      (movgTrap x (begunWave z.w (z.bundle g)) f).map (k, ·))) = [] := by
    rw [List.filterMap_eq_nil_iff]
    intro k hk
    obtain ⟨y, hy⟩ := act_fibre hk
    obtain ⟨-, hlo, hhi⟩ := ok k hk y hy
    have hgood : movgTrap x (begunWave z.w (z.bundle g)) (passed z.w (z.bundle g) k y) = none := by
      unfold movgTrap
      rw [passed_rv, show (begunWave z.w (z.bundle g)).g = z.w.g from rfl]
      dsimp only
      rw [hlo, Bool.false_or, if_neg]
      simpa using hhi
    rw [fibre_begun hk hy, Option.bind_some, hgood]
    rfl
  unfold movg
  rw [begun_wave_given h]
  dsimp only
  rw [show (z.given g []).act = (z.bundle g).act from rfl, hbad, others_nil]
  rfl

theorem movg_completes (s : State) (g : Guard) (x : RRR) : Completes s (.movg g x) g .none (MovgGood g x)
    (fun z b t => Runs s t z.w b [] (fun _ y => putD x (z.w.rg (x.a.toNat + (y.rv x.b.toNat).toNat)) y) id) := by
  intro z h ok
  refine ⟨_, issue_plain h (by rw [form_is h rfl]; rfl) ok.inRange (movg x), ?_⟩
  exact runs_same h _ (movg_good h ok) (fun _ _ _ _ => rfl)

theorem poisonedVec_clean {y : Fibre} {r : Nat} {wide : Bool} (h : y.vp r = false) (h2 : wide = true → y.vp (r + 1) = false) :
    poisonedVec y r wide = none := by
  unfold poisonedVec
  rw [List.find?_eq_none]
  intro k hk
  obtain ⟨h1, hn⟩ := mem_run.1 hk
  rcases Nat.eq_or_lt_of_le h1 with rfl | hlt
  · simp [h]
  · cases wide with
    | false => simp at hn; omega
    | true =>
      have : k = r + 1 := by simp at hn; omega
      simp [this, h2 rfl]

/-- `vtog` takes the value of the lowest passing slot (R141). -/
theorem vtog_completes (s : State) (g : Guard) (x : RRR) (k : Nat) (y : Fibre) : Completes s (.vtog g x) g .none
    (fun z => (z.bundle g).act.head? = some k ∧ sget k z.w.fibres = some y ∧ y.vp x.a.toNat = false ∧ (isWide x.ty = true → y.vp (x.a.toNat + 1) = false))
    (fun z b t => Runs s t z.w b [] (fun _ y => y) (fun v =>
      v.setG x.d.toNat (if isWide x.ty then y.rv2 x.a.toNat else (y.rv x.a.toNat).setWidth 64))) := by
  rintro z h ⟨hk, hy, hlo, hhi⟩
  have hact : k ∈ (z.bundle g).act := List.mem_of_mem_head? hk
  refine ⟨_, performed h rfl rfl rfl, ?_⟩
  have hbody : vtog x (z.given g []) (begun s z.w (z.bundle g) (.vtog g x) z.f)
      = modWave (begun s z.w (z.bundle g) (.vtog g x) z.f) z.wk (fun w => w.setG x.d.toNat (vecX (isWide x.ty) x.a y)) := by
    unfold vtog
    rw [show (z.given g []).act.head? = some k from hk, Option.bind_some, show (z.given g []).wk = z.wk from rfl, begun_act h hact hy]
    dsimp only
    rw [passed_poisonedVec, poisonedVec_clean hlo hhi, passed_vecX]
  rw [hbody]
  exact begun_runs h (fun j => by
    rw [show ((begunWave z.w (z.bundle g)).setG x.d.toNat _).fibres = (begunWave z.w (z.bundle g)).fibres from rfl, begunWave_fibre]; simp only [ite_self])
    rfl (fun hi => begun_clause h _ hi) rfl

/-- `vtog` does nothing where no fibre passes the guard. -/
theorem vtog_completes_nil (s : State) (g : Guard) (x : RRR) : Completes s (.vtog g x) g .none (fun z => (z.bundle g).act = [])
    (fun z b t => Runs s t z.w b [] (fun _ y => y) id) := by
  intro z h hn
  refine ⟨_, performed h rfl rfl rfl, ?_⟩
  have hbody : vtog x (z.given g []) (begun s z.w (z.bundle g) (.vtog g x) z.f) = begun s z.w (z.bundle g) (.vtog g x) z.f := by
    unfold vtog
    rw [show (z.given g []).act = [] from hn]
    rfl
  rw [hbody]
  exact runs_quiet h

/-- `rdsr` finds the launch of its wave, and reads each fibre's special register (R142). -/
theorem rdsr_completes (s : State) (g : Guard) (x : RRR) :
    EachFibre s (.rdsr g x) g (fun z k y => putD x (specialReg z.wk k z.w y z.l x.a.toNat) y) := by
  intro z h _
  refine ⟨_, performed h rfl rfl rfl, ?_⟩
  unfold rdsr
  rw [show (z.given g []).wk = z.wk from rfl, begun_launchOf h]
  dsimp only
  unfold perFibre
  rw [begun_wave_given h]
  dsimp only
  exact runs_same h _ rfl (fun k _ y _ => by rw [specialReg_begunWave]; rfl)

/-- Settles O9: each meaning changes the bundle's fibres one by one, except `vtog`, which takes its value from the first. -/
theorem selectionAndMoveResults : Obligations.SelectionAndMoveResults := by
  refine ⟨⟨fun s g x => ⟨?sel, ?pset, ?psetSave, ?psetLoad, ?plop⟩, fun y k j b => ⟨rfl, setP_zero y b, fun hk => ?read, fun h => rp_setP_ne h y b⟩⟩,
    fun s g x => ⟨?mov, movg_completes s g x, vtog_completes s g x, vtog_completes_nil s g x, rdsr_completes s g x, ?wrsr⟩,
    fun s g x => eachFibre rfl rfl rfl (fun _ _ => rfl) (fun _ _ _ => rfl), fun s g x => eachFibreK rfl (fun _ _ _ => rfl), fun s g x => ?stage⟩
  case sel => exact eachFibre rfl rfl rfl (fun _ _ => rfl) (fun z _ y => by simp only [srcX_begunWave]; rfl)
  case pset => exact eachFibre rfl rfl rfl (fun _ _ => rfl) (fun z _ y => by simp only [srcX_begunWave]; rfl)
  case psetSave => exact eachFibre rfl rfl rfl (fun _ _ => rfl) (fun _ _ _ => rfl)
  case psetLoad => exact eachFibre rfl rfl rfl (fun _ _ => rfl) (fun z _ y => by simp only [srcX_begunWave]; exact setPreds_loadPreds y _ _)
  case plop => exact eachFibre rfl rfl rfl (fun _ _ => rfl) (fun z _ y => by dsimp only; rw [tableBit_eq])
  case read => rw [rp_setP_self, beq_eq_false_iff_ne.2 hk, Bool.false_or]
  case mov => exact eachFibre rfl rfl rfl (fun _ _ => rfl) (fun z _ y => by simp only [srcX_begunWave]; rfl)
  case wrsr => exact eachFibre rfl rfl rfl (fun _ _ => rfl) (fun _ _ _ => rfl)
  case stage => exact eachFibre rfl rfl rfl (fun _ _ => rfl) (fun z _ y => congrArg (fun l => { y with staged := l }) (staged_eq x))

end Sys2Proof.Machine
end

section
/-! SUPPORT. How the operations of the memory unit complete: their results are written, the flag falls, the operation is gone, and what
waited in a release may go on (O35). -/

namespace Sys2Proof.Machine

/-! ### Fibres that a release held -/

/-- From `w` to `v` fibres that a release held may be ready again, and nothing else of the wave changes (R172). -/
structure WokeWave (w v : Wave) : Prop where
  fibres : ∀ x, sget x v.fibres = sget x w.fibres
    ∨ ∃ y group drain, sget x w.fibres = some y ∧ y.blocked = some (.release group drain) ∧ sget x v.fibres = some { y with blocked := none }
  rest : { v with fibres := w.fibres } = w

theorem WokeWave.refl (w : Wave) : WokeWave w w := ⟨fun _ => .inl rfl, rfl⟩

theorem WokeWave.trans {u v w : Wave} (h : WokeWave u v) (h' : WokeWave v w) : WokeWave u w := by
  refine ⟨fun x => ?_, ?_⟩
  · rcases h'.fibres x with e | ⟨y, group, drain, hy, hb, e⟩
    · rw [e]; exact h.fibres x
    · rcases h.fibres x with e' | ⟨y', _, _, -, -, e'⟩
      · exact .inr ⟨y, group, drain, e' ▸ hy, hb, e⟩
      · rw [e'] at hy
        cases hy
        cases hb
  · have e := congrArg (fun v => { v with fibres := u.fibres }) h'.rest
    exact e.trans h.rest

/-- From `s` to `t` fibres that a release held may be ready again, and nothing else changes. -/
structure Woke (s t : State) : Prop where
  waves : ∀ k, Option.Rel WokeWave (sget k s.waves) (sget k t.waves)
  rest : { t with waves := s.waves } = s

theorem Woke.refl (s : State) : Woke s s :=
  ⟨fun k => by cases sget k s.waves with | none => exact .none | some w => exact .some (.refl w), rfl⟩

theorem Woke.trans {r s t : State} (h : Woke r s) (h' : Woke s t) : Woke r t := by
  refine ⟨fun k => ?_, ?_⟩
  · have h1 := h.waves k
    have h2 := h'.waves k
    revert h1 h2
    generalize sget k r.waves = a, sget k s.waves = b, sget k t.waves = c
    rintro (h1 | _) (h2 | _)
    · exact .some (h1.trans h2)
    · exact .none
  · have e := congrArg (fun v => { v with waves := r.waves }) h'.rest
    exact e.trans h.rest

theorem woke_modWave (s : State) (k : Nat) {F : Wave → Wave} (h : ∀ w, WokeWave w (F w)) : Woke s (modWave s k F) := by
  refine ⟨fun j => ?_, rfl⟩
  rw [modWave_waves, sget_smod]
  cases sget j s.waves with
  | none => split <;> exact .none
  | some w => split
              · exact .some (h w)
              · exact .some (.refl w)

/-- A map of fibres each of which stays or leaves its release. -/
theorem wokeWave_map (w : Wave) {f : Nat × Fibre → Nat × Fibre}
    (hf : ∀ p, f p = p ∨ ∃ group drain, p.2.blocked = some (.release group drain) ∧ f p = (p.1, { p.2 with blocked := none })) :
    WokeWave w { w with fibres := w.fibres.map f } := by
  refine ⟨fun x => ?_, rfl⟩
  dsimp only
  induction w.fibres with
  | nil => exact .inl rfl
  | cons p m ih =>
    have hkey : (f p).1 = p.1 := by rcases hf p with e | ⟨_, _, -, e⟩ <;> rw [e]
    rw [List.map_cons, sget_cons, sget_cons, hkey]
    split
    · rcases hf p with e | ⟨group, drain, hb, e⟩ <;> rw [e]
      · exact .inl rfl
      · exact .inr ⟨p.2, group, drain, rfl, hb, rfl⟩
    · exact ih

theorem wakeReleases_woke (s : State) : Woke s (wakeReleases s) := by
  unfold wakeReleases
  generalize s.waves = l
  induction l generalizing s with
  | nil => exact .refl s
  | cons e l ih =>
    refine Woke.trans (woke_modWave s e.1 (fun w => wokeWave_map w (fun p => ?_))) (ih _)
    dsimp only
    split
    · next group drain hb =>
      split
      · exact .inr ⟨group, drain, hb, rfl⟩
      · exact .inl rfl
    · exact .inl rfl

/-! ### The end of an operation -/

/-- The count of a flag of the wave falls by one. -/
def Wave.unflag (flag : Option Nat) (w : Wave) : Wave := flag.elim w (fun k => w.setFlag k (w.flag k - 1))

theorem dropFlag_waves (s : State) (wk : Nat) (flag : Option Nat) :
    dropFlag s wk flag = modWave s wk (Wave.unflag flag) := by
  cases flag with
  | none =>
    cases s
    simp only [dropFlag, modWave, State.mk.injEq, and_true, true_and]
    exact (smod_id _ _ (fun _ => rfl) _).symm
  | some k => rfl

theorem flag_dropped (w : Wave) (flag : Option Nat) (j : Nat) :
    (w.unflag flag).flag j = w.flag j - (if flag = some j then 1 else 0) := by
  cases flag with
  | none => rfl
  | some k =>
    by_cases h : k = j
    · subst h; simp [Wave.unflag]
    · simp [Wave.unflag, h, flag_setFlag_ne (Ne.symm h)]

theorem dropped_rest (w : Wave) (flag : Option Nat) :
    { w.unflag flag with flags := w.flags } = w := by cases flag <;> rfl

/-- An operation of `s` ends in a state that differs from `s` by what `H` did to the operation's wave: to its fibres by `fx`, to the
rest by `gx`. -/
theorem ended_complete {s : State} {n : Nat} {o : Op} (ho : sget n s.ops = some o) {H gx : Wave → Wave} {fx : Nat → Fibre → Fibre}
    (hfib : ∀ w x, sget x (H w).fibres = (sget x w.fibres).map (fx x)) (hflags : ∀ w, (H w).flags = w.flags)
    (hrest : ∀ w, { H w with fibres := [], flags := [] } = { gx w with fibres := [], flags := [] }) :
    Ended s (complete (modWave s o.wave H) n) n o fx gx := by
  have hend : endOp (modWave s o.wave H) n = { modWave s o.wave (fun w => (H w).unflag o.flag) with
      ops := sdel n s.ops } := by
    unfold endOp
    rw [modWave_ops, ho]
    dsimp only
    rw [dropFlag_waves, modWave_modWave]
  unfold complete
  rw [hend]
  have hwoke := wakeReleases_woke { modWave s o.wave (fun w => (H w).unflag o.flag) with ops := sdel n s.ops }
  generalize wakeReleases _ = t at hwoke ⊢
  have hwave (k : Nat) : Option.Rel WokeWave ((sget k s.waves).map (fun w => if k = o.wave then (H w).unflag o.flag else w))
      (sget k t.waves) := by
    have h := hwoke.waves k
    rw [modWave_waves, sget_smod] at h
    split at h
    · next e => simpa only [if_pos e] using h
    · next e => simpa only [if_neg e, Option.map_id'] using h
  have hat {k : Nat} {v w : Wave} (hv : sget k t.waves = some v) (hw : sget k s.waves = some w) :
      WokeWave (if k = o.wave then (H w).unflag o.flag else w) v := by
    have h := hwave k
    rw [hv, hw] at h
    cases h with | some h => exact h
  have hdrop (w : Wave) : ((H w).unflag o.flag).fibres = (H w).fibres :=
    (congrArg Wave.fibres (dropped_rest (H w) o.flag) :)
  refine ⟨congrArg State.ops hwoke.rest, fun k v w hv hw j => ?_, fun k v w hv hw x => ?_, fun k => ?_, ?_⟩
  · have e := congrArg Wave.flags (hat hv hw).rest
    rw [Wave.flag, show v.flags = _ from e]
    by_cases hk : k = o.wave
    · rw [if_pos hk]
      refine (flag_dropped (H w) o.flag j).trans ?_
      rw [Wave.flag, hflags]
      simp only [hk, true_and, Wave.flag]
    · simp [hk, Wave.flag]
  · have h := (hat hv hw).fibres x
    by_cases hk : k = o.wave
    · simp only [if_pos hk] at h ⊢
      rwa [hdrop, hfib] at h
    · simp only [if_neg hk, Option.map_id'] at h ⊢
      exact h
  · have h := hwave k
    cases hw : sget k s.waves with
    | none =>
      rw [hw] at h
      generalize sget k t.waves = v at h
      cases h
      rfl
    | some w =>
      rw [hw] at h
      generalize sget k t.waves = v at h
      cases h with
      | some h =>
        refine congrArg some ((congrArg (fun v : Wave => { v with fibres := [], flags := [] }) h.rest :).trans ?_)
        dsimp only
        split
        · exact (congrArg (fun v : Wave => { v with fibres := [], flags := [] }) (dropped_rest (H w) o.flag) :).trans (hrest w)
        · rfl
  · exact (congrArg (fun v : State => { v with ops := s.ops, waves := s.waves }) hwoke.rest :)

/-- An operation that changes only what lies outside the waves and the operations ends. -/
theorem ended_plain {s : State} {n : Nat} {o : Op} (ho : sget n s.ops = some o) : Ended s (complete s n) n o (fun _ y => y) id := by
  have h := ended_complete ho (H := id) (gx := id) (fx := fun _ y => y) (fun w x => by simp) (fun _ => rfl) (fun _ => rfl)
  have e : modWave s o.wave id = s := by
    cases s
    simp only [modWave, State.mk.injEq, and_true, true_and]
    exact smod_id _ _ (fun _ => rfl) _
  rwa [e] at h

/-! ### What a load gives -/

/-- Fibres changed one after the other. -/
theorem foldl_modFibre {α : Type} (wk : Nat) (slot : α → Nat) (F : α → Fibre → Fibre) (l : List α) (s : State) :
    l.foldl (fun s d => modFibre s wk (slot d) (F d)) s
      = modWave s wk (fun w => { w with fibres := l.foldl (fun m d => smod (slot d) (F d) m) w.fibres }) := by
  induction l generalizing s with
  | nil =>
    cases s
    simp only [List.foldl_nil, modWave, State.mk.injEq, and_true, true_and]
    exact (smod_id _ _ (fun _ => rfl) _).symm
  | cons d l ih => rw [List.foldl_cons, ih, modFibre_eq, modWave_modWave]; rfl

/-- A fibre takes the changes that name its slot. -/
theorem sget_foldl_smod {α β : Type} (slot : α → Nat) (F : α → β → β) (l : List α) (m : Sparse β) (x : Nat) :
    sget x (l.foldl (fun m d => smod (slot d) (F d) m) m) = (sget x m).map (fun y => (l.filter (fun d => slot d = x)).foldl (fun y d => F d y) y) := by
  induction l generalizing m with
  | nil => simp
  | cons d l ih =>
    rw [List.foldl_cons, ih, sget_smod, List.filter_cons]
    by_cases h : slot d = x
    · subst h; simp [Option.map_map, Function.comp_def]
    · simp [h, Ne.symm h]

/-- What a load gives a fibre: vector registers, then reservoir registers. -/
def taken (ds : List Delivery) (qs : List QDelivery) (k : Nat) (y : Fibre) : Fibre :=
  (qs.filter (fun q => q.slot = k)).foldl (fun y q => y.setQ q.reg q.val)
    ((ds.filter (fun d => d.slot = k)).foldl (fun y d => y.setVp d.reg d.val d.pois) y)

theorem ended_deliver {s : State} {n : Nat} {o : Op} (ho : sget n s.ops = some o) (ds : List Delivery) (qs : List QDelivery) :
    Ended s (complete (deliver s o.wave ds qs) n) n o (taken ds qs) id := by
  unfold deliver
  dsimp only
  rw [foldl_modFibre o.wave (fun d : Delivery => d.slot) (fun d f => f.setVp d.reg d.val d.pois),
    foldl_modFibre o.wave (fun q : QDelivery => q.slot) (fun q f => f.setQ q.reg q.val), modWave_modWave]
  refine ended_complete ho (fun w x => ?_) (fun _ => rfl) (fun _ => rfl)
  dsimp only
  rw [sget_foldl_smod (fun q : QDelivery => q.slot) (fun q (f : Fibre) => f.setQ q.reg q.val),
    sget_foldl_smod (fun d : Delivery => d.slot) (fun d (f : Fibre) => f.setVp d.reg d.val d.pois),
    Option.map_map]
  rfl

/-! ### Lines that `cflush` writes back -/

/-- Lines written back stand beside memory: no walk reads them. -/
theorem walkFrom_flushed (s : State) (m : Sparse (List (Byte × Bool))) (va lvl table : Nat) :
    walkFrom { s with flushed := m } va lvl table = walkFrom s va lvl table := by
  induction lvl generalizing table with
  | zero => rfl
  | succ lvl ih => unfold walkFrom; simp only [ih]; rfl

theorem walk_flushed (s : State) (m : Sparse (List (Byte × Bool))) (ctx va : Nat) : walk { s with flushed := m } ctx va = walk s ctx va := by
  unfold walk
  simp only [walkFrom_flushed]
  rfl

/-- The bytes of a line of memory, each with its poison. -/
def lineOf (s : State) (p : Nat) : List (Byte × Bool) := (addrs (p * 128) 128).map (byteOf s)

theorem flushed_open {s : State} (h : ∀ e ∈ s.gangs, e.2.windows = []) (a : Nat) :
    flushed s a = { s with flushed := sput (a / 128) (lineOf s (a / 128)) s.flushed } := by
  have e : a - a % 128 = a / 128 * 128 := by omega
  unfold flushed
  simp only [snoopLine_open h, e, Nat.mul_div_cancel _ (by omega : 0 < 128)]
  rfl

theorem snoopCell_open {s : State} (h : ∀ e ∈ s.gangs, e.2.windows = []) (ctx va tag : Nat) (drop : Bool) : snoopCell s ctx va tag drop = (s, .ok ()) := by
  have e : cellLines s ctx va tag = [] := by
    unfold cellLines
    rw [List.flatten_eq_nil_iff]
    intro l hl
    obtain ⟨g, hg, rfl⟩ := List.mem_map.1 hl
    rw [h g hg]
    rfl
  unfold snoopCell
  rw [e]
  rfl

/-- Where no window is mapped and its page has a usable leaf, a line is dropped or written back: that of the leaf where the page may be
read and the tag names no cell (R174). -/
theorem flushLine_open {s : State} (h : ∀ e ∈ s.gangs, e.2.windows = []) {ctx va tag pte addr size : Nat}
    (hl : walk s ctx va = .leaf pte addr size) (hm : pte.testBit 57 = false) :
    ((pte.testBit 2 = true ∧ (pte.testBit 63 = false ∨ tag = 0)) ∧ flushLine s ctx va tag = (flushed s (leafPa pte size va), .ok ()))
    ∨ (¬ (pte.testBit 2 = true ∧ (pte.testBit 63 = false ∨ tag = 0))
        ∧ (flushLine s ctx va tag = (s, .ok ()) ∨ ∃ a, flushLine s ctx va tag = (flushed s a, .ok ()))) := by
  unfold flushLine
  rw [hl]
  dsimp only
  rw [hm, if_neg Bool.false_ne_true]
  by_cases hr : pte.testBit 2 = true
  · rw [if_neg (by simp [hr])]
    by_cases ht : (pte.testBit 63 && tag != 0) = true
    · refine .inr ⟨by simpa [hr] using ht, .inr ?_⟩
      rw [if_pos ht, snoopCell_open h]
      dsimp only
      split
      · exact ⟨_, rfl⟩
      · exact ⟨_, rfl⟩
    · refine .inl ⟨⟨hr, by simpa [or_iff_not_imp_left] using ht⟩, ?_⟩
      rw [if_neg ht]
  · exact .inr ⟨fun h => hr h.1, .inl (if_pos (by simpa using hr))⟩

/-- Lines flushed in order are all flushed, each from memory as it stands. -/
theorem flushLines_open {s : State} (h : ∀ e ∈ s.gangs, e.2.windows = []) {ctx : Nat} {lines : List (Nat × Nat)}
    (hl : ∀ l ∈ lines, ∃ pte pa size, walk s ctx l.1 = .leaf pte pa size ∧ pte.testBit 57 = false) (m : Sparse (List (Byte × Bool))) :
    ∃ m', flushLines { s with flushed := m } ctx lines = ({ s with flushed := m' }, [], none)
      ∧ (∀ l ∈ lines, ∀ pte pa size, walk s ctx l.1 = .leaf pte pa size → pte.testBit 2 = true → (pte.testBit 63 = false ∨ l.2 = 0) →
          sget (leafPa pte size l.1 / 128) m' = some (lineOf s (leafPa pte size l.1 / 128)))
      ∧ ∀ p, sget p m' = sget p m ∨ sget p m' = some (lineOf s p) := by
  induction lines generalizing m with
  | nil => exact ⟨m, rfl, by simp, fun _ => .inl rfl⟩
  | cons l lines ih =>
    obtain ⟨pte, pa, size, hwalk, hm⟩ := hl l List.mem_cons_self
    have hfl (a : Nat) : flushed { s with flushed := m } a = { s with flushed := sput (a / 128) (lineOf s (a / 128)) m } :=
      flushed_open (s := { s with flushed := m }) h a
    have key : ∃ m1, flushLine { s with flushed := m } ctx l.1 l.2 = ({ s with flushed := m1 }, .ok ())
        ∧ (pte.testBit 2 = true → (pte.testBit 63 = false ∨ l.2 = 0) → sget (leafPa pte size l.1 / 128) m1 = some (lineOf s (leafPa pte size l.1 / 128)))
        ∧ ∀ p, sget p m1 = sget p m ∨ sget p m1 = some (lineOf s p) := by
      have hput (a p : Nat) : sget p (sput (a / 128) (lineOf s (a / 128)) m) = sget p m ∨ sget p (sput (a / 128) (lineOf s (a / 128)) m) = some (lineOf s p) := by
        by_cases hp : p = a / 128
        · subst hp; exact .inr (sget_sput_self _ _ _)
        · exact .inl (sget_sput_ne hp _ _)
      rcases flushLine_open (s := { s with flushed := m }) (tag := l.2) h ((walk_flushed s m ctx l.1).trans hwalk) hm with ⟨-, e⟩ | ⟨hn, e | ⟨a, e⟩⟩ <;> rw [e]
      · exact ⟨_, by rw [hfl], fun _ _ => sget_sput_self _ _ _, hput _⟩
      · exact ⟨m, rfl, fun h2 h63 => absurd ⟨h2, h63⟩ hn, fun _ => .inl rfl⟩
      · exact ⟨_, by rw [hfl], fun h2 h63 => absurd ⟨h2, h63⟩ hn, hput a⟩
    obtain ⟨m1, he, hhead, hm1⟩ := key
    obtain ⟨m', he', htail, hm'⟩ := ih (fun l' h' => hl l' (List.mem_cons_of_mem _ h')) m1
    refine ⟨m', ?_, fun l' hl' pte' pa' size' hw' h2 h63 => ?_, fun p => ?_⟩
    · unfold flushLines
      rw [he]
      exact he'
    · rcases List.mem_cons.1 hl' with rfl | hl'
      · rw [hwalk] at hw'
        cases hw'
        exact (hm' _).elim (fun e => e.trans (hhead h2 h63)) id
      · exact htail l' hl' pte' pa' size' hw' h2 h63
    · exact (hm' p).elim (fun e => e ▸ hm1 p) .inr

/-! ### Completions -/

/-- An operation that has changed caches ends; the caches stay as it left them. -/
theorem ended_cores {s : State} {n : Nat} {o : Op} (ho : sget n s.ops = some o) (m : Sparse Core) :
    Ended { s with cores := (complete { s with cores := m } n).cores } (complete { s with cores := m } n) n o (fun _ y => y) id
      ∧ ∀ j, coreOf (complete { s with cores := m } n) j = sgetD Core.reset m j := by
  have h := ended_plain (s := { s with cores := m }) ho
  have e : (complete { s with cores := m } n).cores = m := congrArg State.cores h.rest
  exact ⟨by rw [e]; exact h, fun j => by rw [coreOf, e]⟩

/-- Lines of the constant cache of one core are dropped. -/
theorem ended_modCore {s : State} {n : Nat} {o : Op} (ho : sget n s.ops = some o) (c : Nat) (f : Core → Core) :
    Ended { s with cores := (complete (modCore s c f) n).cores } (complete (modCore s c f) n) n o (fun _ y => y) id
      ∧ ∀ j, coreOf (complete (modCore s c f) n) j = if j = c then f (coreOf s j) else coreOf s j := by
  obtain ⟨h, hc⟩ := ended_cores ho (sput c (f (coreOf s c)) s.cores)
  refine ⟨h, fun j => (hc j).trans ?_⟩
  split
  · next e => subst e; exact coreOf_modCore_self s j f
  · next e => exact coreOf_modCore_ne e s f

/-- The instruction cache of a core that an `icinv` covers. -/
def Core.dropInstrs (ctx : Nat) (c : Core) : Core := { c with icache := c.icache.filter (fun l => l.ctx != ctx) }

theorem sgetD_icinv (s : State) (p : Nat → Bool) (ctx j : Nat) :
    sgetD Core.reset (s.cores.map (fun e => if p e.1 then (e.1, e.2.dropInstrs ctx) else e)) j = if p j then (coreOf s j).dropInstrs ctx else coreOf s j := by
  have e : s.cores.map (fun e => if p e.1 then (e.1, e.2.dropInstrs ctx) else e)
      = s.cores.map (fun e => (e.1, (fun k c => if p k then Core.dropInstrs ctx c else c) e.1 e.2)) := by
    refine List.map_congr_left (fun e _ => ?_)
    dsimp only
    split <;> rfl
  rw [e, sgetD, sget_map (fun k c => if p k then Core.dropInstrs ctx c else c), coreOf, sgetD]
  cases sget j s.cores with
  | none => dsimp only [Option.map_none, Option.getD_none]; split <;> rfl
  | some c => rfl

theorem icinvCovers_iff (cov : BitVec 2) (c j : Nat) :
    icinvCovers cov c j = true ↔ (cov = 0 ∧ j = c) ∨ (cov = 1 ∧ j / 4 = c / 4) ∨ 2 ≤ cov.toNat := by
  unfold icinvCovers
  by_cases h0 : cov = 0
  · subst h0; simp
  · by_cases h1 : cov = 1
    · subst h1; simp
    · simp only [beq_eq_false_iff_ne.2 h0, beq_eq_false_iff_ne.2 h1, Bool.false_eq_true, if_false, true_iff]
      exact .inr (.inr (by bv_omega))

/-- Settles O35: each completion ends its operation after its own effect on registers, caches or lines written back. -/
theorem memoryOperationsComplete : Obligations.MemoryOperationsComplete := by
  intro s n o ho
  refine ⟨fun ds qs hk => ?load, fun accs mask got hk => ?ldmc, fun hk => ?store, fun d vals hk => ?gld, fun hk => ?pref, fun lines hk => ?cinvLines,
    fun hk => ?cinvAll, fun hk => ?cinvL1, fun cov hk => ?icinv, fun lines hk hopen hl => ?cflush⟩
  case load => exact ⟨_, show execLoadComplete n s = _ by simp only [execLoadComplete, ho, hk], ended_deliver ho ds qs⟩
  case ldmc => exact ⟨_, show execLoadComplete n s = _ by simp only [execLoadComplete, ho, hk], ended_deliver ho _ []⟩
  case store => exact ⟨_, show execStoreComplete n s = _ by simp only [execStoreComplete, ho, hk, Option.map_some], ended_plain ho⟩
  case gld =>
    exact ⟨_, show execGldComplete n s = _ by simp only [execGldComplete, ho, hk],
      ended_complete ho (H := fun w => { w with g := vals.zipIdx.foldl (fun m e => sputD GWord.zero (d + e.2) e.1 m) w.g })
        (fun w x => by simp) (fun _ => rfl) (fun _ => rfl)⟩
  case pref => exact ⟨_, show execPrefComplete n s = _ by simp only [execPrefComplete, ho, hk, Option.map_some], ended_plain ho⟩
  case cinvL1 => exact ⟨_, show execCinvComplete n s = _ by simp only [execCinvComplete, ho, hk], ended_plain ho⟩
  case cinvLines => exact ⟨_, show execCinvComplete n s = _ by simp only [execCinvComplete, ho, hk]; rfl, ended_modCore ho o.core _⟩
  case cinvAll => exact ⟨_, show execCinvComplete n s = _ by simp only [execCinvComplete, ho, hk]; rfl, ended_modCore ho o.core _⟩
  case icinv =>
    obtain ⟨h, hc⟩ := ended_cores ho (s.cores.map (fun e => if icinvCovers cov o.core e.1 then (e.1, e.2.dropInstrs o.ctx) else e))
    refine ⟨_, show execIcinvComplete n s = _ by simp only [execIcinvComplete, ho, hk]; rfl, h, fun j => (hc j).trans ((sgetD_icinv s _ o.ctx j).trans ?_)⟩
    simp only [icinvCovers_iff]
    rfl
  case cflush =>
    obtain ⟨m, he, hlines, hother⟩ := flushLines_open hopen.windows hl s.flushed
    have h := ended_plain (s := { s with flushed := m }) ho
    have hm : (complete { s with flushed := m } n).flushed = m := congrArg State.flushed h.rest
    refine ⟨complete { s with flushed := m } n, ?_, by rw [hm]; exact h, by rw [hm]; exact hlines, by rw [hm]; exact hother⟩
    change execCflushComplete n s = _
    simp only [execCflushComplete, ho, hk]
    rw [show flushLines s o.ctx lines = _ from he]

end Sys2Proof.Machine
end

section
/-! SUPPORT. How the dispatch unit places a gang and how the governor samples the cores (O43). -/

namespace Sys2Proof.Machine

/-! ### Waves and workgroups as a launch creates them (R47) -/

/-- Waves put on a core take free slots of it; what stood in the other slots stays. -/
theorem putWaves_puts (core : Nat) (ws : List Wave) (s : State) :
    { (putWaves core ws s).1 with waves := s.waves } = s
    ∧ (∀ k w, sget k s.waves = some w → sget k (putWaves core ws s).1.waves = some w)
    ∧ ∀ k ∈ (putWaves core ws s).2, coreNo k = core ∧ sget k s.waves = none ∧ ∃ w ∈ ws, sget k (putWaves core ws s).1.waves = some w := by
  induction ws generalizing s with
  | nil => exact ⟨rfl, fun _ _ h => h, by simp [putWaves]⟩
  | cons w rest ih =>
    unfold putWaves
    cases hfind : (List.range 64).find? (fun i => (sget (64 * core + i) s.waves).isNone) with
    | none => exact ⟨rfl, fun _ _ h => h, by simp⟩
    | some i =>
      dsimp only
      have hi : i < 64 := List.mem_range.1 (List.mem_of_find?_eq_some hfind)
      have hfree : sget (64 * core + i) s.waves = none := by simpa using List.find?_some hfind
      obtain ⟨hrest, hkeep, hnew⟩ := ih { s with waves := sput (64 * core + i) w s.waves }
      refine ⟨(congrArg (fun t : State => { t with waves := s.waves }) hrest :), fun k v hk => hkeep k v ?_, fun k hk => ?_⟩
      · rw [← hk]
        exact sget_sput_ne (fun e => by rw [e, hfree] at hk; cases hk) _ _
      · rcases List.mem_cons.1 hk with rfl | hk
        · exact ⟨by unfold coreNo; omega, hfree, w, List.mem_cons_self, hkeep _ w (sget_sput_self _ _ _)⟩
        · obtain ⟨hcore, hnone, v, hv, hat⟩ := hnew k hk
          refine ⟨hcore, ?_, v, List.mem_cons_of_mem _ hv, hat⟩
          have hne : k ≠ 64 * core + i := fun e => by subst e; simp at hnone
          exact (sget_sput_ne hne w s.waves).symm.trans hnone

/-- The workgroup `u` of `t` was created on a core: its waves stand in slots of the core that were free in `s`, as its launch creates
them. -/
structure Created (s t : State) (n : Nat) (l : Launch) (wg core : Nat) (u : Workgroup) : Prop where
  place : u.core = core
  live : u.retired = false
  tiles : u.tiles = []
  waves : ∀ k ∈ u.waves, coreNo k = core ∧ sget k s.waves = none ∧ ∃ i < launchWaves l, sget k t.waves = some (newWave n l wg i)

/-- From `s` to `t` no wave is changed or removed, and the device changes in its waves and workgroups alone. -/
structure OnlyMore (s t : State) : Prop where
  rest : { t with waves := s.waves, wgs := s.wgs } = s
  keeps : ∀ k w, sget k s.waves = some w → sget k t.waves = some w

theorem OnlyMore.refl (s : State) : OnlyMore s s := ⟨rfl, fun _ _ h => h⟩

theorem OnlyMore.trans {r s t : State} (h : OnlyMore r s) (h' : OnlyMore s t) : OnlyMore r t :=
  ⟨(congrArg (fun v : State => { v with waves := r.waves, wgs := r.wgs }) h'.rest :).trans h.rest, fun k w hk => h'.keeps k w (h.keeps k w hk)⟩

/-- A workgroup stays as created where more is created after it, and what is created later was free before. -/
theorem Created.mono {r s t v : State} {n : Nat} {l : Launch} {wg core : Nat} {u : Workgroup} (h : Created s t n l wg core u) (hr : OnlyMore r s)
    (ht : OnlyMore t v) : Created r v n l wg core u := by
  refine ⟨h.place, h.live, h.tiles, fun k hk => ?_⟩
  obtain ⟨hcore, hnone, i, hi, hat⟩ := h.waves k hk
  refine ⟨hcore, ?_, i, hi, ht.keeps _ _ hat⟩
  cases e : sget k r.waves with
  | none => rfl
  | some w => rw [hr.keeps k w e] at hnone; cases hnone

theorem createGroup_creates {l : Launch} (hl : l.itag = 0) (s : State) (n wg core : Nat) :
    OnlyMore s (createGroup s n l wg core) ∧ (∀ j, j ≠ key2 n wg → sget j (createGroup s n l wg core).wgs = sget j s.wgs)
      ∧ ∃ u, sget (key2 n wg) (createGroup s n l wg core).wgs = some u ∧ Created s (createGroup s n l wg core) n l wg core u := by
  obtain ⟨hrest, hkeep, hnew⟩ := putWaves_puts core ((List.range (launchWaves l)).map (newWave n l wg)) s
  have hwgs := (congrArg State.wgs hrest :)
  unfold createGroup
  rw [if_pos hl]
  dsimp only at hwgs ⊢
  refine ⟨⟨(congrArg (fun v : State => { v with wgs := s.wgs }) hrest :), hkeep⟩, fun j hj => ?_, _, sget_sput_self _ _ _, rfl, rfl, rfl, fun k hk => ?_⟩
  · rw [sget_sput_ne hj, hwgs]
  · obtain ⟨hcore, hnone, w, hw, hat⟩ := hnew k hk
    obtain ⟨i, hi, rfl⟩ := List.mem_map.1 hw
    exact ⟨hcore, hnone, i, List.mem_range.1 hi, hat⟩

/-- The members of a gang, each with its core, are created one after the other. -/
theorem createGroups_create {l : Launch} (hl : l.itag = 0) (n first : Nat) (ms : List (Nat × Nat)) (hms : (ms.map (·.2)).Nodup) (s : State) :
    let t := ms.foldl (fun s m => createGroup s n l (first + m.2) m.1) s
    OnlyMore s t ∧ (∀ j, (∀ m ∈ ms, j ≠ key2 n (first + m.2)) → sget j t.wgs = sget j s.wgs)
      ∧ ∀ m ∈ ms, ∃ u, sget (key2 n (first + m.2)) t.wgs = some u ∧ Created s t n l (first + m.2) m.1 u := by
  induction ms generalizing s with
  | nil => exact ⟨.refl s, fun _ _ => rfl, by simp⟩
  | cons m ms ih =>
    rw [List.map_cons, List.nodup_cons] at hms
    obtain ⟨hmore, hother, u, hu, hcreated⟩ := createGroup_creates hl s n (first + m.2) m.1
    obtain ⟨hmore', hother', hall⟩ := ih hms.2 (createGroup s n l (first + m.2) m.1)
    have hfar : ∀ m' ∈ ms, key2 n (first + m.2) ≠ key2 n (first + m'.2) := fun m' hm' e =>
      hms.1 (List.mem_map.2 ⟨m', hm', by unfold key2 at e; omega⟩)
    refine ⟨hmore.trans hmore', fun j hj => ?_, fun m' hm' => ?_⟩
    · exact (hother' j (fun m' h => hj m' (List.mem_cons_of_mem _ h))).trans (hother j (hj m List.mem_cons_self))
    · rcases List.mem_cons.1 hm' with rfl | hm'
      · exact ⟨u, (hother' _ hfar).trans hu, hcreated.mono (.refl s) hmore'⟩
      · obtain ⟨u', hu', hcreated'⟩ := hall m' hm'
        exact ⟨u', hu', hcreated'.mono hmore (.refl _)⟩

/-! ### The placement of the one candidate (R404) -/

/-- The one candidate is placed where it first fits. -/
theorem exec_gangPlacementStep_one {s : State} {c : Seeker} {l : Launch} {cl : Nat} {cores : List Nat} {ks : Nat} (hr : ranked s = [c])
    (hl : sget c.launch s.launches = some l) (hf : firstFit s c l (List.range 32) = some (cl, cores, ks)) :
    exec .gangPlacementStep s = .next (if c.saved then placeSaved (unreserve s c) c l cl cores ks else placeNew (unreserve s c) c l cl cores ks) := by
  change execGangPlacementStep s = _
  unfold execGangPlacementStep
  rw [hr]
  unfold placeFirst
  rw [hl]
  dsimp only
  rw [hf]
  rfl

/-- `pg.used` after an estimate is added to it (R407). -/
theorem ctlRd_addUsed (s : State) (a b r : Nat) :
    ctlRd (addUsed s a b) r = if r = 0x720058 then BitVec.ofNat 64 (ctlBits s 0x720058 0 32 + a - b) else ctlRd s r := by
  unfold addUsed
  split
  · next e => rw [e, ctlRd_ctlWr_self]
  · next e => rw [ctlRd_ctlWr_ne e]

theorem sget_unreserve (s : State) (c : Seeker) (j : Nat) : sget j (unreserve s c).clusters
    = (sget j s.clusters).map (fun x => if x.reserved = some (c.launch, c.idx) then { x with reserved := none } else x) :=
  sget_map (fun _ (x : Cluster) => if x.reserved = some (c.launch, c.idx) then ({ x with reserved := none } : Cluster) else x) j s.clusters

/-- The estimate of a candidate (R407). -/
def Seeker.estimate (s : State) (c : Seeker) (l : Launch) : Nat := membersOf l c.idx * classWatt s l.eclass

/-- The gang of a candidate as it is placed, before its workgroups stand: `pg.used` holds its estimate. -/
def gangPlaced (s : State) (c : Seeker) (l : Launch) (cl : Nat) (cores : List Nat) (ks : Nat) : State :=
  let s := unreserve s c
  addUsed { s with gangs := sput c.key { Gang.new with state := .resident, cluster := cl, cores := cores, ksBase := ks, estimate := c.estimate s l } s.gangs }
    (c.estimate s l) 0

/-- The members of a candidate are created on their cores. -/
def membersPlaced (s : State) (c : Seeker) (l : Launch) (cl : Nat) (cores : List Nat) (ks : Nat) : State :=
  cores.zipIdx.foldl (fun s m => createGroup s c.launch l (l.gang * c.idx + m.2) m.1) (gangPlaced s c l cl cores ks)

theorem placeNew_eq (s : State) (c : Seeker) (l : Launch) (cl : Nat) (cores : List Nat) (ks : Nat) :
    placeNew (unreserve s c) c l cl cores ks = modLaunch (membersPlaced s c l cl cores ks) c.launch (fun k => { k with
      nextGang := k.nextGang + 1
      start := some (k.start.getD (cores.headD 0, (coreOf (membersPlaced s c l cl cores ks) (cores.headD 0)).clock.toNat)) }) := rfl

/-- What placement sets in the device whichever way the gang comes (R404, R407). -/
structure PlacedOn (s t : State) (c : Seeker) (l : Launch) : Prop where
  used : ctlRd t 0x720058 = BitVec.ofNat 64 (ctlBits s 0x720058 0 32 + membersOf l c.idx * classWatt s l.eclass)
  ctl : ∀ r, r ≠ 0x720058 → ctlRd t r = ctlRd s r
  clusters : ∀ j, sget j t.clusters = (sget j s.clusters).map (fun x => if x.reserved = some (c.launch, c.idx) then { x with reserved := none } else x)
  gangs : ∀ j, j ≠ c.key → sget j t.gangs = sget j s.gangs
  rest : t.mem = s.mem ∧ t.contexts = s.contexts ∧ t.ops = s.ops ∧ t.cores = s.cores

theorem placeSaved_placed (s : State) (c : Seeker) (l : Launch) (cl : Nat) (cores : List Nat) (ks : Nat) :
    PlacedOn s (placeSaved (unreserve s c) c l cl cores ks) c l where
  used := by unfold placeSaved; rw [ctlRd_addUsed, if_pos rfl]; rfl
  ctl r hr := by unfold placeSaved; rw [ctlRd_addUsed, if_neg hr]; rfl
  clusters := sget_unreserve s c
  gangs j hj := by
    simp only [placeSaved, addUsed, ctlWr_gangs, modGang_gangs]
    exact sget_smod_ne hj _ _
  rest := ⟨rfl, rfl, rfl, rfl⟩

theorem placeNew_placed {s : State} {c : Seeker} {l : Launch} {cl : Nat} {cores : List Nat} {ks : Nat}
    (hm : OnlyMore (gangPlaced s c l cl cores ks) (membersPlaced s c l cl cores ks)) : PlacedOn s (placeNew (unreserve s c) c l cl cores ks) c l := by
  have hctl (r : Nat) : ctlRd (placeNew (unreserve s c) c l cl cores ks) r = ctlRd (gangPlaced s c l cl cores ks) r :=
    (congrArg (fun t : State => ctlRd t r) hm.rest :)
  refine ⟨?_, fun r hr => ?_, fun j => ?_, fun j hj => ?_, ?_⟩
  · rw [hctl, gangPlaced, ctlRd_addUsed, if_pos rfl]; rfl
  · rw [hctl, gangPlaced, ctlRd_addUsed, if_neg hr]; rfl
  · exact (congrArg (fun t : State => sget j t.clusters) hm.rest :).trans (sget_unreserve s c j)
  · exact (congrArg (fun t : State => sget j t.gangs) hm.rest :).trans (sget_sput_ne hj _ _)
  · exact ⟨(congrArg State.mem hm.rest :), (congrArg State.contexts hm.rest :), (congrArg State.ops hm.rest :), (congrArg State.cores hm.rest :)⟩

/-- A gang that was never placed has its members created, and its launch goes on to the next gang (R47, R404). -/
theorem placeNew_creates {s : State} {c : Seeker} {l : Launch} (hl : sget c.launch s.launches = some l) (ht : l.itag = 0) (cl : Nat) (cores : List Nat)
    (ks : Nat) :
    let t := placeNew (unreserve s c) c l cl cores ks
    PlacedOn s t c l
    ∧ sget c.key t.gangs = some { Gang.new with state := .resident, cluster := cl, cores := cores, ksBase := ks, estimate := membersOf l c.idx * classWatt s l.eclass }
    ∧ sget c.launch t.launches = some { l with nextGang := l.nextGang + 1, start := some (l.start.getD (cores.headD 0, (coreOf s (cores.headD 0)).clock.toNat)) }
    ∧ (∀ k w, sget k s.waves = some w → sget k t.waves = some w)
    ∧ ∀ m core, cores[m]? = some core → ∃ u, sget (key2 c.launch (l.gang * c.idx + m)) t.wgs = some u ∧ Created s t c.launch l (l.gang * c.idx + m) core u := by
  have hnodup : (cores.zipIdx.map (·.2)).Nodup := List.nodup_zipIdx_map_snd cores
  obtain ⟨hm, -, hall⟩ := createGroups_create ht c.launch (l.gang * c.idx) cores.zipIdx hnodup (gangPlaced s c l cl cores ks)
  refine ⟨placeNew_placed hm, ?_, ?_, fun k w hk => hm.keeps k w hk, fun m core hmc => ?_⟩
  · exact (congrArg (fun t : State => sget c.key t.gangs) hm.rest :).trans (sget_sput_self _ _ _)
  · rw [placeNew_eq, modLaunch_launches, sget_smod_self]
    have hcore : coreOf (membersPlaced s c l cl cores ks) (cores.headD 0) = coreOf s (cores.headD 0) :=
      (congrArg (fun t : State => coreOf t (cores.headD 0)) hm.rest :)
    rw [show (membersPlaced s c l cl cores ks).launches = s.launches from (congrArg State.launches hm.rest :), hl, hcore]
    rfl
  · obtain ⟨u, hu, hc⟩ := hall (core, m) (List.mk_mem_zipIdx_iff_getElem?.2 hmc)
    exact ⟨u, hu, hc.place, hc.live, hc.tiles, hc.waves⟩

/-! ### A governor sample (R406, R408) -/

/-- A core after a sample of its temperature (R406). -/
def Core.warmed (thot hyst t : Nat) (k : Core) : Core :=
  { k with temp := some t, hot := if thot ≤ t then true else if t + hyst < thot then false else k.hot }

/-- Samples of consecutive cores. -/
theorem sampleCores_sample (temps : List Nat) (n : Nat) (s : State) :
    let t := (temps.zipIdx n).foldl (fun s t => sampleCore s t.2 t.1) s
    { t with cores := s.cores } = s
    ∧ ∀ k, coreOf t k = if n ≤ k ∧ k < n + temps.length then (coreOf s k).warmed (ctlBits s 0x720048 0 16) (ctlBits s 0x720050 0 16) (temps.getD (k - n) 0)
        else coreOf s k := by
  induction temps generalizing n s with
  | nil => exact ⟨rfl, fun k => by rw [if_neg (by simp)]; rfl⟩
  | cons x temps ih =>
    obtain ⟨hrest, hcores⟩ := ih (n + 1) (sampleCore s n x)
    refine ⟨(congrArg (fun t : State => { t with cores := s.cores }) hrest :), fun k => (hcores k).trans ?_⟩
    by_cases hk : k = n
    · subst hk
      rw [if_neg (by omega), if_pos (by simp), Nat.sub_self]
      exact coreOf_modCore_self s k _
    · have hcore : coreOf (sampleCore s n x) k = coreOf s k := coreOf_modCore_ne hk s _
      have hiff : n + 1 ≤ k ∧ k < n + 1 + temps.length ↔ n ≤ k ∧ k < n + (x :: temps).length := by rw [List.length_cons]; omega
      rw [hcore]
      simp only [hiff]
      split
      · next h => rw [show k - n = k - (n + 1) + 1 by omega, List.getD_cons_succ]; rfl
      · rfl

/-- The cores after a sample of their temperatures. -/
def sampledCores (s : State) (temps : List Nat) : State := (temps.take 128).zipIdx.foldl (fun s t => sampleCore s t.2 t.1) s

/-- The device after a sample, before a migration starts. -/
def sampledState (s : State) (temps : List Nat) (power : Nat) : State :=
  { sampledCores s temps with sensors := { (sampledCores s temps).sensors with power := power } }

theorem sampledCores_rest (s : State) (temps : List Nat) : { sampledCores s temps with cores := s.cores } = s :=
  (sampleCores_sample (temps.take 128) 0 s).1

theorem sampledState_rest (s : State) (temps : List Nat) (power : Nat) :
    { sampledState s temps power with cores := s.cores, sensors := s.sensors } = s :=
  (congrArg (fun t : State => { t with sensors := s.sensors }) (sampledCores_rest s temps) :)

theorem sampledState_sensors (s : State) (temps : List Nat) (power : Nat) :
    (sampledState s temps power).sensors = { s.sensors with power := power } :=
  (congrArg (fun t : State => { t.sensors with power := power }) (sampledCores_rest s temps) :)

theorem coreOf_sampledState (s : State) (temps : List Nat) (power k : Nat) : coreOf (sampledState s temps power) k =
    if k < min 128 temps.length then (coreOf s k).warmed (ctlBits s 0x720048 0 16) (ctlBits s 0x720050 0 16) (temps.getD k 0) else coreOf s k := by
  refine ((sampleCores_sample (temps.take 128) 0 s).2 k).trans ?_
  simp only [Nat.zero_le, true_and, Nat.zero_add, List.length_take, Nat.sub_zero]
  split
  · next h =>
    have e : (temps.take 128).getD k 0 = temps.getD k 0 := by
      simp only [List.getD_eq_getElem?_getD, List.getElem?_take]
      rw [if_pos (by omega)]
    rw [e]
  · rfl

/-- The gang `gk`, on the cluster `here`, starts to be saved so as to go to another (R408). -/
def migrateAway (s : State) (gk here : Nat) : State := { startSave s gk false (some here) with migration := some (gk / 2 ^ 32, gk % 2 ^ 32) }

theorem exec_governorSample (s : State) (temps : List Nat) (power : Nat) : exec (.governorSample temps power) s =
    let u := sampledState s temps power
    if u.migration.isSome then .next u
    else match migrant u with
      | some gk => .next (migrateAway u gk (((sget gk u.gangs).map (·.cluster)).getD 0))
      | none => .next u := rfl

theorem migrateAway_rest (s : State) (gk here : Nat) : { migrateAway s gk here with gangs := s.gangs, migration := s.migration } = s := rfl

theorem migrateAway_gangs (s : State) (gk here : Nat) : (migrateAway s gk here).gangs = smod gk (fun g => { g with
    state := .saving, holdAfter := false, migrating := true, migClock := some s.ioClock, excluded := some here }) s.gangs := rfl

/-- The gang chosen to migrate is being saved from then on (R408, R418). -/
theorem governorSample_migrates {s : State} {temps : List Nat} {power gk : Nat} {g : Gang} (hn : s.migration = none)
    (hm : migrant (sampledState s temps power) = some gk) (hg : sget gk (sampledState s temps power).gangs = some g) :
    let u := sampledState s temps power
    ∃ t, exec (.governorSample temps power) s = .next t ∧ t.migration = some (gk / 2 ^ 32, gk % 2 ^ 32)
      ∧ sget gk t.gangs = some { g with state := .saving, holdAfter := false, migrating := true, migClock := some s.ioClock, excluded := some g.cluster }
      ∧ (∀ j, j ≠ gk → sget j t.gangs = sget j u.gangs) ∧ { t with gangs := u.gangs, migration := u.migration } = u := by
  have hexec := exec_governorSample s temps power
  have hmig : (sampledState s temps power).migration = none := (congrArg State.migration (sampledState_rest s temps power) :).trans hn
  have hclock : (sampledState s temps power).ioClock = s.ioClock := (congrArg State.ioClock (sampledState_rest s temps power) :)
  generalize sampledState s temps power = u at *
  refine ⟨migrateAway u gk g.cluster, ?_, rfl, ?_, fun j hj => ?_, migrateAway_rest u gk g.cluster⟩
  · rw [hexec]
    dsimp only
    rw [hmig, hm]
    dsimp only
    rw [hg]
    rfl
  · rw [migrateAway_gangs, sget_smod_self, hg, ← hclock]
    rfl
  · rw [migrateAway_gangs, sget_smod_ne hj]

/-- Where a migration is on its way already, or no gang may migrate, a sample changes the cores and the sensors alone. -/
theorem governorSample_stays {s : State} {temps : List Nat} {power : Nat} (h : s.migration ≠ none ∨ migrant (sampledState s temps power) = none) :
    exec (.governorSample temps power) s = .next (sampledState s temps power) := by
  have hmig : (sampledState s temps power).migration = s.migration := (congrArg State.migration (sampledState_rest s temps power) :)
  rw [exec_governorSample]
  dsimp only
  rw [hmig]
  cases e : s.migration with
  | some m => rfl
  | none =>
    rw [h.resolve_left (fun hne => hne e)]
    rfl

/-- The one candidate is placed, whether it is new or was saved (O43). -/
theorem gangPlacement_places {s : State} {c : Seeker} {l : Launch} {cl : Nat} {cores : List Nat} {ks : Nat} (hr : ranked s = [c])
    (hl : sget c.launch s.launches = some l) (hf : firstFit s c l (List.range 32) = some (cl, cores, ks)) (ht : l.itag = 0) :
    ∃ t, exec .gangPlacementStep s = .next t ∧ PlacedOn s t c l
      ∧ (c.saved = true → ∀ g, sget c.key s.gangs = some g → t.waves = s.waves ∧ t.wgs = s.wgs ∧ t.launches = s.launches
          ∧ sget c.key t.gangs = some { g with
              state := .restoring, cluster := cl, cores := cores, ksBase := ks
              estimate := membersOf l c.idx * classWatt s l.eclass, passes := 0 })
      ∧ (c.saved = false → t = placeNew (unreserve s c) c l cl cores ks) := by
  refine ⟨_, exec_gangPlacementStep_one hr hl hf, ?_⟩
  cases hs : c.saved with
  | true =>
    refine ⟨placeSaved_placed s c l cl cores ks, fun _ g hg => ⟨rfl, rfl, rfl, ?_⟩, nofun⟩
    simp only [if_true, placeSaved, addUsed, ctlWr_gangs, modGang_gangs]
    rw [sget_smod_self, show (unreserve s c).gangs = s.gangs from rfl, hg]
    rfl
  | false => exact ⟨(placeNew_creates hl ht cl cores ks).1, nofun, fun _ => rfl⟩

end Sys2Proof.Machine
end

section
/-! SUPPORT. What a save of a gang with nothing in flight leaves in its area and in the device (O43). -/

namespace Sys2Proof.Machine

/-! ### Maps with distinct keys, and maps of which a part is left out -/

theorem sget_of_mem_nodup {α : Type} {m : Sparse α} (hm : (skeys m).Nodup) {k : Nat} {v : α} (h : (k, v) ∈ m) : sget k m = some v := by
  induction m with
  | nil => cases h
  | cons e m ih =>
    have hm' : e.1 ∉ skeys m ∧ (skeys m).Nodup := List.nodup_cons.1 hm
    rw [sget_cons]
    rcases List.mem_cons.1 h with rfl | h
    · exact if_pos rfl
    · rw [if_neg fun e' => hm'.1 (List.mem_map.2 ⟨(k, v), h, e'.symm⟩)]
      exact ih hm'.2 h

/-- What a choice by key leaves of a map. -/
theorem sget_filter_key {α : Type} (p : Nat → Bool) (k : Nat) (m : Sparse α) :
    sget k (m.filter (fun e => p e.1)) = if p k then sget k m else none := by
  induction m with
  | nil => simp
  | cons e m ih =>
    rw [List.filter_cons]
    by_cases hk : e.1 = k
    · subst hk
      cases hp : p e.1 with
      | true => rw [if_pos rfl, sget_cons, sget_cons, if_pos rfl, if_pos rfl, if_pos rfl]
      | false => rw [if_neg (by simp), ih, hp]; rfl
    · rw [sget_cons, if_neg hk, ← ih]
      split
      · rw [sget_cons, if_neg hk]
      · rfl

/-- Leaving out the keys of a part chosen by key leaves nothing of that part, and all of the rest. -/
theorem sget_without_part {α : Type} (p : Nat → Bool) (k : Nat) (m : Sparse α) :
    sget k (m.filter (fun e => !(skeys (m.filter (fun e => p e.1))).contains e.1)) = if p k then none else sget k m := by
  rw [sget_filter_key (fun j => !(skeys (m.filter (fun e => p e.1))).contains j)]
  cases hs : sget k m with
  | none => simp
  | some v =>
    have hmem : k ∈ skeys (m.filter (fun e => p e.1)) ↔ p k = true := by
      constructor
      · intro h
        obtain ⟨e, he, rfl⟩ := List.mem_map.1 h
        exact (List.mem_filter.1 he).2
      · exact fun h => List.mem_map.2 ⟨(k, v), List.mem_filter.2 ⟨sget_mem hs, h⟩, rfl⟩
    cases hp : p k with
    | true => simp [hmem.2 hp]
    | false => simp [show k ∉ skeys (m.filter (fun e => p e.1)) from fun h => by simp [hmem.1 h] at hp]

/-- A map of entries that changes none of them. -/
theorem map_entries_same {α : Type} {m : Sparse α} {f : Nat × α → Nat × α} (h : ∀ e ∈ m, f e = e) : m.map f = m :=
  (List.map_congr_left h).trans (List.map_id _)

/-! ### Nothing in flight (R412) -/

/-- Nothing of the gang `gk` is in flight, and nothing is due of its fibres at a clause boundary. -/
structure AtRest (s : State) (gk : Nat) : Prop where
  keys : (skeys s.waves).Nodup
  waves : ∀ e ∈ s.waves, gangOf s e.1 = gk → e.2.clause = none ∧ e.2.page = none ∧ e.2.paired = none
    ∧ ∀ y ∈ e.2.fibres, y.2.dumpAt = none ∧ y.2.stopAt = false
  ops : ∀ e ∈ s.ops, e.2.gang ≠ gk ∧ gangOf s e.2.wave ≠ gk
  mats : ∀ e ∈ s.mats, gangOf s e.2.wave ≠ gk
  waiters : ∀ e ∈ s.contexts, ∀ w ∈ e.2.waiters, gangOf s w.1 ≠ gk

theorem gangOf_of_mem {s : State} (h : (skeys s.waves).Nodup) {e : Nat × Wave} (he : e ∈ s.waves) : gangOf s e.1 = gangKey s e.2.launch e.2.wg := by
  unfold gangOf
  rw [sget_of_mem_nodup h he]

/-- A wave of a gang stands in the device under its key. -/
theorem wavesOf_wave {s : State} (h : (skeys s.waves).Nodup) {gk k : Nat} (hk : k ∈ wavesOf s gk) :
    ∃ w, (k, w) ∈ s.waves ∧ sget k s.waves = some w ∧ gangOf s k = gk := by
  obtain ⟨e, he, rfl⟩ := List.mem_map.1 hk
  obtain ⟨hmem, hgk⟩ := List.mem_filter.1 he
  exact ⟨e.2, hmem, sget_of_mem_nodup h hmem, (gangOf_of_mem h hmem).trans (by simpa using hgk)⟩

/-- The operations of a gang are withdrawn. -/
def withdrawOps (s : State) (gk : Nat) : State := (skeys (s.ops.filter (fun e => e.2.gang = gk))).foldl withdrawOp s

/-- The operations of a gang's waves that have nothing left to do are dropped. -/
def dropIdles (s : State) (gk : Nat) : State := (wavesOf s gk).foldl dropIdle s

/-- No fibre of a gang waits for a tag any more. -/
def dropWaiters (s : State) (gk : Nat) : State :=
  { s with contexts := s.contexts.map (fun c => (c.1, { c.2 with waiters := c.2.waiters.filter (fun w => gangOf s w.1 != gk) })) }

theorem settleGang_eq (s : State) (gk : Nat) :
    settleGang s gk = suspendGang (dropWaiters (dropIdles (withdrawOps (dropUnstarted s gk) gk) gk) gk) gk := rfl

namespace AtRest

variable {s : State} {gk : Nat} (h : AtRest s gk)
include h

theorem opsOf_nil : s.ops.filter (fun e => e.2.gang = gk) = [] :=
  List.filter_eq_nil_iff.2 fun e he => by simp [(h.ops e he).1]

theorem matsOf_nil : s.mats.filter (fun e => gangOf s e.2.wave = gk) = [] :=
  List.filter_eq_nil_iff.2 fun e he => by simp [h.mats e he]

theorem dropUnstarted_same : dropUnstarted s gk = s := by
  refine foldl_same _ _ _ fun k hk => ?_
  obtain ⟨w, -, hw, hgk⟩ := wavesOf_wave h.keys hk
  refine (congrArg (fun ws => { s with waves := ws }) (smod_same fun e he hek => ?_) :)
  obtain ⟨hclause, hpage, hpaired, -⟩ := h.waves e he (hek ▸ hgk)
  rw [hclause, Option.any_none, if_neg (by simp), ← hclause, ← hpage, ← hpaired]

theorem withdrawOps_same : withdrawOps s gk = s := by
  unfold withdrawOps
  rw [h.opsOf_nil]
  rfl

theorem dropIdles_same : dropIdles s gk = s := by
  refine foldl_same _ _ _ fun k hk => ?_
  obtain ⟨-, -, -, hgk⟩ := wavesOf_wave h.keys hk
  have hnil : s.ops.filter (fun e => e.2.wave = k && e.2.kind.idle) = [] :=
    List.filter_eq_nil_iff.2 fun e he hc => (h.ops e he).2 (by rw [show e.2.wave = k by simp_all, hgk])
  unfold dropIdle
  rw [hnil]
  rfl

theorem dropWaiters_same : dropWaiters s gk = s := by
  refine (congrArg (fun c => { s with contexts := c }) (map_entries_same fun c hc => ?_) :)
  rw [List.filter_eq_self.2 fun w hw => by simpa using h.waiters c hc w hw]

theorem suspendGang_same : suspendGang s gk = s := by
  have hnil : s.mats.filter (fun e => gangOf s e.2.wave = gk && e.2.isPass && !e.2.granted && e.2.susp.isNone && e.2.place != .queue) = [] :=
    List.filter_eq_nil_iff.2 fun e he => by simp [h.mats e he]
  unfold suspendGang
  rw [hnil]
  rfl

theorem settleGang_same : settleGang s gk = s := by
  rw [settleGang_eq, h.dropUnstarted_same, h.withdrawOps_same, h.dropIdles_same, h.dropWaiters_same, h.suspendGang_same]

theorem settled : gangSettled s gk = true := by
  unfold gangSettled
  rw [h.opsOf_nil, h.matsOf_nil]
  simp only [List.all_nil, Bool.and_true, List.all_eq_true, List.mem_filter, decide_eq_true_eq]
  intro e he
  rw [(h.waves e he.1 he.2).1]
  rfl

theorem boundaries_same : (wavesOf s gk).foldl boundaries s = s := by
  refine foldl_same _ _ _ fun k hk => ?_
  obtain ⟨w, hmem, hw, hgk⟩ := wavesOf_wave h.keys hk
  obtain ⟨-, -, -, hdue⟩ := h.waves _ hmem hgk
  exact boundaries_none hw hdue

end AtRest

/-! ### The save area as it is written (R411, R414) -/

/-- A page's write reaches the page alone. -/
theorem writePage_writes {s : State} (h : ∀ e ∈ s.gangs, e.2.windows = []) (pa : Nat) (cells : List (Nat × Byte)) :
    ∃ m q, writePage s pa cells = s.withMem m q ∧ ∀ p, ¬ (pa ≤ p ∧ p < pa + 4096) → pByte (s.withMem m q) p = pByte s p := by
  have hfold (t : State) : ∃ m, cells.foldl (fun s c => pPut s (pa + c.1 % 4096) c.2) t = t.withMem m t.memPois
      ∧ ∀ p, ¬ (pa ≤ p ∧ p < pa + 4096) → pByte (t.withMem m t.memPois) p = pByte t p := by
    induction cells generalizing t with
    | nil => exact ⟨t.mem, rfl, fun _ _ => rfl⟩
    | cons c cells ih =>
      obtain ⟨m, hm, hother⟩ := ih (pPut t (pa + c.1 % 4096) c.2)
      exact ⟨m, hm, fun p hp => (hother p hp).trans (pByte_pPut_ne (by omega) _ _)⟩
  unfold writePage
  rw [snoop_open h]
  obtain ⟨m, hm, hother⟩ := hfold { s with mem := s.mem.filter (fun c => c.1 < pa || pa + 4096 ≤ c.1)
                                           memPois := s.memPois.filter (fun u => u < pa / 64 || pa / 64 + 64 ≤ u) }
  refine ⟨m, _, hm, fun p hp => (hother p hp).trans ?_⟩
  unfold pByte sgetD
  dsimp only
  rw [sget_filter_key (fun p => p < pa || pa + 4096 ≤ p), if_pos (by simp; omega)]

/-- An image reaches the pages of its area alone, and the state byte stands last. -/
theorem writeArea_writes {s : State} (h : ∀ e ∈ s.gangs, e.2.windows = []) (pages : List Nat) (cells : List (Nat × Byte)) :
    ∃ m q, writeArea s pages cells = s.withMem m q ∧ pByte (s.withMem m q) (pages.headD 0 + 9) = 1
      ∧ ∀ p, (∀ a ∈ pages, ¬ (a ≤ p ∧ p < a + 4096)) → p ≠ pages.headD 0 + 9 → pByte (s.withMem m q) p = pByte s p := by
  have hfold (ps : List (Nat × Nat)) : ∃ m q, ps.foldl (fun s p => writePage s p.1 (cells.filter (fun c => c.1 / 4096 = p.2))) s = s.withMem m q
      ∧ ∀ p, (∀ a ∈ ps, ¬ (a.1 ≤ p ∧ p < a.1 + 4096)) → pByte (s.withMem m q) p = pByte s p := by
    induction ps using List.reverseRecOn with
    | nil => exact ⟨s.mem, s.memPois, rfl, fun _ _ => rfl⟩
    | append_singleton ps a ih =>
      obtain ⟨m, q, hm, hother⟩ := ih
      obtain ⟨m', q', hm', hother'⟩ := writePage_writes (s := s.withMem m q) h a.1 (cells.filter (fun c => c.1 / 4096 = a.2))
      rw [List.foldl_append, hm]
      exact ⟨m', q', hm', fun p hp => (hother' p (hp a (by simp))).trans (hother p fun b hb => hp b (by simp [hb]))⟩
  obtain ⟨m, q, hm, hother⟩ := hfold pages.zipIdx
  have htakes := takes_writeBytes (s := s.withMem m q) h (pages.headD 0 + 9) [1] false
  obtain ⟨hbyte, hrest, hstate⟩ := htakes
  unfold writeArea
  rw [hm]
  have hwith : ∀ t : State, { t with mem := (s.withMem m q).mem, memPois := (s.withMem m q).memPois } = s.withMem m q → t = s.withMem t.mem t.memPois :=
    fun t ht => (congrArg (fun u => u.withMem t.mem t.memPois) ht :)
  have ht := hwith _ hstate
  refine ⟨_, _, ht, ?_, fun p hp hne => ?_⟩
  · rw [← ht]
    exact hbyte 0 (by simp)
  · rw [← ht]
    refine (hrest p fun j hj => ?_).trans (hother p fun a ha => hp a.1 (List.fst_mem_of_mem_zipIdx ha))
    rw [show j = 0 by simpa using hj]
    exact hne

/-! ### The end of a save -/

theorem writeBackAll_unmapped {s : State} {gk : Nat} {g : Gang} (hg : sget gk s.gangs = some g) (hw : g.windows = []) : writeBackAll s gk = (s, none) := by
  unfold writeBackAll writeBackSome
  rw [hg, Option.map_some, hw]
  rfl

/-- The save of a gang at rest ends: its image is written, and it leaves its cluster. -/
theorem exec_gangSaveComplete {s : State} {n x : Nat} {g : Gang} {l : Launch} {pages : List Nat} (hg : sget (key2 n x) s.gangs = some g)
    (hl : sget n s.launches = some l) (hs : g.state = .saving) (hw : g.windows = []) (h : AtRest s (key2 n x))
    (ha : areaPages s l x .write = (s, .ok pages)) :
    ∃ cells, exec (.gangSaveComplete n x) s = .next (nowSaved (writeArea s pages cells) n x l g (collect s (key2 n x))) := by
  change ∃ cells, execGangSaveComplete n x s = _
  unfold execGangSaveComplete
  dsimp only
  rw [hg, hl]
  dsimp only
  rw [hs, if_neg (by decide), h.settleGang_same, h.settled, if_neg (by decide), writeBackAll_unmapped hg hw]
  dsimp only
  rw [ha]
  dsimp only
  rw [hg]
  dsimp only
  rw [h.boundaries_same]
  exact ⟨_, rfl⟩

/-- A saved gang as the device keeps it (R411, R417). -/
def Gang.nowSaved (g : Gang) (v : Saved) : Gang :=
  { g with state := if g.holdAfter then .held else .ready, cores := [], stash := [], kaolin := [], estimate := 0, passes := 0, saved := some v }

/-- A gang as it leaves its cluster: its window lines are absent too. -/
def Gang.leaves (v : Saved) (g : Gang) : Gang := { g.nowSaved v with windows := g.windows.map (fun w => (w.1, { w.2 with lines := [] })) }

theorem Gang.leaves_unmapped {g : Gang} (h : g.windows = []) (v : Saved) : g.leaves v = g.nowSaved v := by
  unfold leaves Gang.nowSaved
  rw [h]
  rfl

/-- A launch after a save of one of its gangs. -/
def Launch.saved (l : Launch) : Launch := { l with nsave := l.nsave + 1 }

/-- What a save that is no migration leaves: the gang's resources are free. -/
theorem nowSaved_frees {s : State} {n x : Nat} {l : Launch} {g : Gang} (v : Saved) (hm : g.migrating = false) :
    let gk := key2 n x
    nowSaved s n x l g v = modLaunch (addUsed (modGang (takeOff s gk v) gk (Gang.leaves v)) 0 g.estimate) n Launch.saved := by
  unfold nowSaved
  rw [hm]
  rfl

theorem takeOff_ops {s : State} {gk : Nat} {v : Saved} (hv : v.ops = []) (h : ∀ e ∈ s.ops, e.2.gang ≠ gk) : (takeOff s gk v).ops = s.ops := by
  unfold takeOff
  dsimp only
  rw [hv, show s.ops.filter (fun e => !(skeys ([] : Sparse Op)).contains e.1) = s.ops from List.filter_eq_self.2 fun _ _ => rfl]
  refine map_entries_same fun e he => ?_
  rw [if_neg (h e he)]

theorem takeOff_mats {s : State} {gk : Nat} {v : Saved} (hv : v.mats = []) : (takeOff s gk v).mats = s.mats := by
  unfold takeOff
  dsimp only
  rw [hv]
  exact List.filter_eq_self.2 fun _ _ => rfl

theorem collect_ops {s : State} {gk : Nat} (h : AtRest s gk) : (collect s gk).ops = [] :=
  List.filter_eq_nil_iff.2 fun e he => by simp [(h.ops e he).1]

theorem collect_mats {s : State} {gk : Nat} (h : AtRest s gk) : (collect s gk).mats = [] := h.matsOf_nil

theorem skeys_collect_waves (s : State) (gk : Nat) : skeys (collect s gk).waves = skeys (s.waves.filter (fun e => gangOf s e.1 = gk)) := by
  unfold collect skeys
  rw [List.map_map]
  rfl

/-- The waves and workgroups that a save leaves on the cores. -/
theorem takeOff_collect (s : State) (gk : Nat) :
    (∀ k, sget k (takeOff s gk (collect s gk)).waves = if gangOf s k = gk then none else sget k s.waves)
    ∧ ∀ k, sget k (takeOff s gk (collect s gk)).wgs = if gangKey s (k / 2 ^ 32) (k % 2 ^ 32) = gk then none else sget k s.wgs := by
  refine ⟨fun k => ?_, fun k => ?_⟩
  · unfold takeOff
    dsimp only
    rw [skeys_collect_waves, sget_without_part (fun k => decide (gangOf s k = gk))]
    simp only [decide_eq_true_eq]
  · unfold takeOff
    dsimp only
    refine (sget_without_part (fun k => decide (gangKey s (k / 2 ^ 32) (k % 2 ^ 32) = gk)) k s.wgs).trans ?_
    simp only [decide_eq_true_eq]

/-- A gang at rest is saved: its image stands in its area, its waves and workgroups are gone, and it is held or ready (R411, R413, R417). -/
theorem gangSaveComplete_saves {s : State} {n x : Nat} {g : Gang} {l : Launch} {pages : List Nat} (hg : sget (key2 n x) s.gangs = some g)
    (hl : sget n s.launches = some l) (hs : g.state = .saving) (hw : g.windows = []) (hm : g.migrating = false) (ho : Open s)
    (h : AtRest s (key2 n x)) (ha : areaPages s l x .write = (s, .ok pages)) :
    let gk := key2 n x
    ∃ t, exec (.gangSaveComplete n x) s = .next t
      ∧ sget gk t.gangs = some (g.nowSaved (collect s gk))
      ∧ (∀ j, j ≠ gk → sget j t.gangs = sget j s.gangs) ∧ (∀ k, sget k t.waves = if gangOf s k = gk then none else sget k s.waves)
      ∧ (∀ k, sget k t.wgs = if gangKey s (k / 2 ^ 32) (k % 2 ^ 32) = gk then none else sget k s.wgs)
      ∧ sget n t.launches = some { l with nsave := l.nsave + 1 } ∧ (∀ j, j ≠ n → sget j t.launches = sget j s.launches)
      ∧ (∀ r, ctlRd t r = if r = 0x720058 then BitVec.ofNat 64 (ctlBits s r 0 32 - g.estimate) else ctlRd s r)
      ∧ pByte t (pages.headD 0 + 9) = 1 ∧ (∀ p, (∀ a ∈ pages, ¬ (a ≤ p ∧ p < a + 4096)) → p ≠ pages.headD 0 + 9 → pByte t p = pByte s p)
      ∧ t.contexts = s.contexts ∧ t.ops = s.ops ∧ t.mats = s.mats := by
  intro gk
  obtain ⟨cells, hexec⟩ := exec_gangSaveComplete hg hl hs hw h ha
  obtain ⟨m, q, hwritten, hbyte, hother⟩ := writeArea_writes ho.windows pages cells
  obtain ⟨hwaves, hwgs⟩ := takeOff_collect s gk
  rw [hwritten, nowSaved_frees _ hm] at hexec
  refine ⟨_, hexec, ?_, fun j hj => ?_, hwaves, hwgs, ?_, fun j hj => ?_, fun r => ?_, hbyte, hother, rfl,
    takeOff_ops (s := s) (collect_ops h) fun e he => (h.ops e he).1, takeOff_mats (s := s) (gk := gk) (collect_mats h)⟩
  · change sget gk (smod gk (Gang.leaves (collect s gk)) s.gangs) = _
    rw [sget_smod_self, hg, Option.map_some, Gang.leaves_unmapped hw]
  · exact sget_smod_ne hj (Gang.leaves (collect s gk)) s.gangs
  · change sget n (smod n Launch.saved s.launches) = _
    rw [sget_smod_self, hl]
    rfl
  · exact sget_smod_ne hj Launch.saved s.launches
  · refine (ctlRd_addUsed _ 0 g.estimate r).trans ?_
    split
    · next e => subst e; rw [Nat.add_zero]; rfl
    · rfl

end Sys2Proof.Machine
end

section
/-! SUPPORT. What a restore puts back, and that nothing wakes where nothing waits (O43). -/

namespace Sys2Proof.Machine

/-! ### Nothing wakes where nothing waits -/

theorem modWave_same {s : State} {k : Nat} {f : Wave → Wave} (h : ∀ e ∈ s.waves, e.1 = k → f e.2 = e.2) : modWave s k f = s :=
  (congrArg (fun ws => { s with waves := ws }) (smod_same h) :)

theorem fibres_same {w : Wave} {f : Nat × Fibre → Nat × Fibre} (h : ∀ y ∈ w.fibres, f y = y) : { w with fibres := w.fibres.map f } = w := by
  rw [map_entries_same h]

namespace Quiet

variable {s : State} (h : Quiet s)
include h

theorem retryOp_same (n : Nat) : retryOp s n = s := by
  unfold retryOp
  cases hn : sget n s.ops with
  | none => rfl
  | some o =>
    have hheld := h.ops _ (sget_mem hn)
    dsimp only at hheld ⊢
    split
    · next hk => rw [hk] at hheld; rw [hheld]; rfl
    · next hk => rw [hk] at hheld; rw [hheld]; rfl
    · rfl

theorem retryMulticast_same (n : Nat) : retryMulticast s n = s := by
  unfold retryMulticast
  cases hn : sget n s.ops with
  | none => rfl
  | some o =>
    have hheld := h.ops _ (sget_mem hn)
    dsimp only at hheld ⊢
    split
    · next hk => rw [hk] at hheld; rw [hheld]; rfl
    · rfl

theorem advanceLaunch_same (n : Nat) : advanceLaunch s n = s := by
  unfold advanceLaunch
  cases hn : sget n s.ops with
  | none => rfl
  | some o =>
    have hheld := h.ops _ (sget_mem hn)
    dsimp only at hheld ⊢
    split
    · next hk => rw [hk] at hheld; exact hheld.elim
    · rfl

theorem retryGfx_same (n : Nat) (p : Option Nat) : retryGfx s n p = s := by
  unfold retryGfx
  cases hn : sget n s.ops with
  | none => rfl
  | some o =>
    have hheld := h.ops _ (sget_mem hn)
    dsimp only at hheld ⊢
    split
    · next hk => rw [hk] at hheld; rw [hheld]; rfl
    · rfl

theorem wakeReleases_same : wakeReleases s = s := by
  refine foldl_same _ _ _ fun e _ => modWave_same fun e' he' _ => fibres_same fun y hy => ?_
  have hy' := h.fibres e' he' y hy
  split
  · next hb => rw [hb] at hy'; exact hy'.elim
  · rfl

theorem wakeGrids_same : wakeGrids s = s := by
  refine foldl_same _ _ _ fun e _ => ?_
  split
  · refine modWave_same fun e' he' _ => fibres_same fun y hy => ?_
    have hy' := h.fibres e' he' y hy
    rw [if_neg fun hb => by rw [hb] at hy'; exact hy']
  · rfl

theorem reread_same (k x : Nat) : reread s k x = s := by
  unfold reread
  cases hf : fibreAt s k x with
  | none => rfl
  | some y =>
    obtain ⟨w, hw, hy⟩ := Option.bind_eq_some_iff.1 hf
    have hy' := h.fibres _ (sget_mem hw) _ (sget_mem hy)
    dsimp only at hy' ⊢
    split
    · next hb => rw [hb] at hy'; exact hy'.elim
    · rfl

theorem retryMem_same : retryMem s none = s := by
  have hall : retryAll s none = s := foldl_same _ _ _ fun n _ => h.retryOp_same n
  unfold retryMem
  rw [hall]
  refine foldl_same _ _ _ fun n _ => ?_
  rw [h.retryMulticast_same, h.advanceLaunch_same]

theorem retryEverything_same : retryEverything s = s := by
  have hgfx : retryGfxAll s none = s := foldl_same _ _ _ fun n _ => h.retryGfx_same n none
  have hro : roRetry s none = s := by
    unfold roRetry
    rw [h.orders]
    rfl
  unfold retryEverything
  rw [h.retryMem_same, hgfx, h.wakeReleases_same, hro]

theorem evaluate_same (hp : NoPhaseWaiters s) (gk : Nat) : evaluate s gk = s := by
  have hread : (s.waves.filter (fun e => gangOf s e.1 = gk)).foldl (fun s e => e.2.fibres.foldl (fun s f => reread s e.1 f.1) s) s = s :=
    foldl_same _ _ _ fun e _ => foldl_same _ _ _ fun f _ => h.reread_same e.1 f.1
  unfold evaluate
  dsimp only
  rw [wakeBars_idle hp, h.wakeGrids_same, hread, h.retryEverything_same]

end Quiet

/-! ### The waves of a gang that waits for nothing -/

/-- A wave none of whose fibres waits, is resumed or stands in a handler. -/
def Calm (w : Wave) : Prop := w.park = none ∧ ∀ y ∈ w.fibres, y.2.blocked = none ∧ y.2.resumed = none ∧ y.2.recs = []

/-- The waves of the gang `gk` are calm. -/
structure CalmGang (s : State) (gk : Nat) : Prop where
  keys : (skeys s.waves).Nodup
  calm : ∀ e ∈ s.waves, gangOf s e.1 = gk → Calm e.2

/-- The replies of Loam that parked waves of a gang have got are applied (R438). -/
def answerParks (s : State) (gk : Nat) : State :=
  (wavesOf s gk).foldl (fun s wk =>
    match (sget wk s.waves).bind (·.park) with
    | some p => (match p.reply with | some r => unpark s wk p.reg r | none => s)
    | none => s) s

/-- Whether a fibre waits in `tagnew`. -/
def Fibre.asksTag (f : Fibre) : Bool := match f.blocked with | some (.tagnew _) => true | _ => false

/-- The `tagnew` requests of a gang: wave and slot. -/
def tagAsks (s : State) (gk : Nat) : List (Nat × Nat) :=
  ((s.waves.filter (fun e => gangOf s e.1 = gk)).map (fun e => (e.2.fibres.filter (fun f => f.2.asksTag)).map (fun f => (e.1, f.1)))).flatten

/-- More requests for a tag wait in a context. -/
def Context.asked (asks : List (Nat × Nat)) (c : Context) : Context := { c with waiters := c.waiters ++ asks }

theorem resumeWaits_eq (s : State) (ctx gk : Nat) : resumeWaits s ctx gk =
    serveAll (modCtx (answerParks s gk) ctx (Context.asked (tagAsks (answerParks s gk) gk))) ctx := rfl

/-- No request waits in a context. -/
theorem serveAll_same {s : State} {ctx : Nat} (h : ∀ c, sget ctx s.contexts = some c → c.waiters = []) : serveAll s ctx = s := by
  unfold serveAll
  cases hc : sget ctx s.contexts with
  | none => rfl
  | some c => rw [Option.map_some, h c hc]; rfl

theorem modCtx_asked_nil (s : State) (ctx : Nat) : modCtx s ctx (Context.asked []) = s :=
  (congrArg (fun cs => { s with contexts := cs }) (smod_id ctx (Context.asked []) (fun c => by unfold Context.asked; rw [List.append_nil]) s.contexts) :)

namespace CalmGang

variable {s : State} {gk : Nat} (h : CalmGang s gk)
include h

/-- A choice of fibres that calm fibres do not meet chooses none of the gang. -/
theorem chosen_nil {p : Nat × Fibre → Bool} (hp : ∀ y : Nat × Fibre, y.2.blocked = none → y.2.recs = [] → p y = false) :
    ((s.waves.filter (fun e => gangOf s e.1 = gk)).map (fun e => (e.2.fibres.filter p).map (fun f => (e.1, f.1)))).flatten = [] := by
  rw [List.flatten_eq_nil_iff]
  intro fs hfs
  obtain ⟨e, he, rfl⟩ := List.mem_map.1 hfs
  obtain ⟨hmem, hgk⟩ := List.mem_filter.1 he
  obtain ⟨-, hcalm⟩ := h.calm e hmem (by simpa using hgk)
  rw [List.filter_eq_nil_iff.2 fun y hy => by rw [hp y (hcalm y hy).1 (hcalm y hy).2.2]; decide]
  rfl

theorem handlers_nil : handlers s gk = [] := h.chosen_nil fun y _ hrecs => by rw [hrecs]; rfl

theorem relocate_same : relocate s (handlers s gk) = s := by
  rw [h.handlers_nil]
  rfl

theorem applyResumes_same : applyResumes s gk = s := by
  refine foldl_same _ _ _ fun k hk => modWave_same fun e he hek => fibres_same fun y hy => ?_
  obtain ⟨-, -, -, hgk⟩ := wavesOf_wave h.keys hk
  obtain ⟨-, hcalm⟩ := h.calm e he (hek ▸ hgk)
  rw [(hcalm y hy).2.1]

theorem answerParks_same : answerParks s gk = s := by
  refine foldl_same _ _ _ fun k hk => ?_
  obtain ⟨w, hmem, hsget, hgk⟩ := wavesOf_wave h.keys hk
  rw [hsget, Option.bind_some, (h.calm _ hmem hgk).1]

theorem tagAsks_nil : tagAsks s gk = [] := h.chosen_nil fun y hb _ => by unfold Fibre.asksTag; rw [hb]

theorem resumeWaits_same {ctx : Nat} (hw : ∀ c, sget ctx s.contexts = some c → c.waiters = []) : resumeWaits s ctx gk = s := by
  rw [resumeWaits_eq, h.answerParks_same, h.tagAsks_nil, modCtx_asked_nil, serveAll_same hw]

end CalmGang

/-! ### The new keys of the waves (R416) -/

theorem sget_eq_none_iff {α : Type} {k : Nat} {m : Sparse α} : sget k m = none ↔ k ∉ skeys m := by
  induction m with
  | nil => simp [skeys]
  | cons e m ih =>
    rw [sget_cons]
    by_cases hk : e.1 = k
    · simp [skeys, hk]
    · rw [if_neg hk, ih]
      simp [skeys, Ne.symm hk]

theorem nodup_sput {α : Type} {k : Nat} {m : Sparse α} (v : α) (hm : (skeys m).Nodup) (hk : sget k m = none) : (skeys (sput k v m)).Nodup := by
  induction m with
  | nil => simp [skeys, sput]
  | cons e m ih =>
    obtain ⟨he, hm'⟩ : e.1 ∉ skeys m ∧ (skeys m).Nodup := List.nodup_cons.1 hm
    have hne : k ∉ skeys (e :: m) := sget_eq_none_iff.1 hk
    have hke : k ≠ e.1 ∧ k ∉ skeys m := by simpa [skeys] using hne
    unfold sput
    split
    · exact List.nodup_cons.2 ⟨hne, hm⟩
    · rw [if_neg (Ne.symm hke.1)]
      refine List.nodup_cons.2 ⟨fun hin => ?_, ih hm' (sget_eq_none_iff.2 hke.2)⟩
      obtain ⟨e', he', heq⟩ := List.mem_map.1 hin
      rcases mem_sput he' with rfl | he'
      · exact hke.1 heq
      · exact he (List.mem_map.2 ⟨e', he', heq⟩)

/-- New keys are free, and no two are one. -/
theorem newKeys_free (l : Launch) (x : Nat) (cores : List Nat) (ws : List (Nat × Wave)) (s : State) :
    (∀ p ∈ newKeys s l x cores ws, sget p.2 s.waves = none) ∧ ((newKeys s l x cores ws).map (·.2)).Nodup := by
  induction ws generalizing s with
  | nil => exact ⟨by simp [newKeys], List.nodup_nil⟩
  | cons e ws ih =>
    unfold newKeys
    dsimp only
    split
    · exact ih s
    · next i hfind =>
      have hfree := List.find?_some hfind
      generalize 64 * cores.getD (e.2.wg - l.gang * x) 0 + i = key at hfree ⊢
      have hfree' : sget key s.waves = none := by simpa using hfree
      obtain ⟨hrest, hnodup⟩ := ih { s with waves := sput key e.2 s.waves }
      have hne : ∀ p ∈ newKeys { s with waves := sput key e.2 s.waves } l x cores ws, p.2 ≠ key := fun p hp heq => by
        have hnone := hrest p hp
        rw [heq] at hnone
        simp at hnone
      refine ⟨fun p hp => ?_, List.nodup_cons.2 ⟨fun hin => ?_, hnodup⟩⟩
      · rcases List.mem_cons.1 hp with rfl | hp
        · exact hfree'
        · exact (sget_sput_ne (hne p hp) e.2 s.waves).symm.trans (hrest p hp)
      · obtain ⟨p, hp, heq⟩ := List.mem_map.1 hin
        exact hne p hp heq

/-- The new keys depend on the waves of the device alone. -/
theorem newKeys_withMem (l : Launch) (x : Nat) (cores : List Nat) (ws : List (Nat × Wave)) (s : State) (m : List Host.Cell) (q : List Nat) :
    newKeys (s.withMem m q) l x cores ws = newKeys s l x cores ws := by
  induction ws generalizing s with
  | nil => rfl
  | cons e ws ih =>
    unfold newKeys
    dsimp only
    change (match (List.range 64).find? (fun i => (sget (64 * cores.getD (e.2.wg - l.gang * x) 0 + i) s.waves).isNone) with
      | none => newKeys (s.withMem m q) l x cores ws
      | some i => _ :: newKeys (State.withMem { s with waves := _ } m q) l x cores ws) = _
    simp only [ih]
    rfl

theorem keyed_of_mem {keys : List (Nat × Nat)} (h : (keys.map (·.1)).Nodup) {p : Nat × Nat} (hp : p ∈ keys) : keyed keys p.1 = p.2 := by
  induction keys with
  | nil => cases hp
  | cons e keys ih =>
    obtain ⟨he, hnodup⟩ := List.nodup_cons.1 h
    unfold keyed
    rcases List.mem_cons.1 hp with rfl | hp
    · simp
    · have hne : e.1 ≠ p.1 := fun heq => he (List.mem_map.2 ⟨p, hp, heq.symm⟩)
      rw [List.find?_cons_of_neg (by simpa using hne)]
      exact ih hnodup hp

/-- Where every wave of a gang finds a slot, the waves take distinct free keys. -/
theorem keyed_newKeys_free {s : State} {l : Launch} {x : Nat} {cores : List Nat} {ws : Sparse Wave}
    (h : (newKeys s l x cores ws).map (·.1) = skeys ws) (hws : (skeys ws).Nodup) :
    (ws.map (fun e => keyed (newKeys s l x cores ws) e.1)).Nodup ∧ ∀ e ∈ ws, sget (keyed (newKeys s l x cores ws) e.1) s.waves = none := by
  obtain ⟨hfree, hnodup⟩ := newKeys_free l x cores ws s
  generalize newKeys s l x cores ws = keys at *
  have hfirst : (keys.map (·.1)).Nodup := h ▸ hws
  have hmap : ws.map (fun e => keyed keys e.1) = keys.map (·.2) := calc
    ws.map (fun e => keyed keys e.1) = (skeys ws).map (keyed keys) := by rw [skeys, List.map_map]; rfl
    _ = keys.map (fun p => keyed keys p.1) := by rw [← h, List.map_map]; rfl
    _ = keys.map (·.2) := List.map_congr_left fun p hp => keyed_of_mem hfirst hp
  refine ⟨hmap ▸ hnodup, fun e he => ?_⟩
  obtain ⟨p, hp, heq⟩ := List.mem_map.1 (hmap ▸ List.mem_map.2 ⟨e, he, rfl⟩ : keyed keys e.1 ∈ keys.map (·.2))
  rw [← heq]
  exact hfree p hp

/-! ### The waves put back -/

/-- Waves put into a map under the keys that `f` gives. -/
def putWavesAt (f : Nat → Nat) (ws : Sparse Wave) (m : Sparse Wave) : Sparse Wave := ws.foldl (fun m e => sput (f e.1) e.2 m) m

/-- What waves put under distinct free keys leave. -/
theorem putWavesAt_puts {f : Nat → Nat} {ws : Sparse Wave} (hf : (ws.map (fun e => f e.1)).Nodup) {m : Sparse Wave} (hm : (skeys m).Nodup)
    (hfree : ∀ e ∈ ws, sget (f e.1) m = none) :
    (∀ e ∈ ws, sget (f e.1) (putWavesAt f ws m) = some e.2) ∧ (∀ k, (∀ e ∈ ws, f e.1 ≠ k) → sget k (putWavesAt f ws m) = sget k m)
      ∧ (skeys (putWavesAt f ws m)).Nodup ∧ ∀ e ∈ putWavesAt f ws m, e ∈ m ∨ ∃ w ∈ ws, e.2 = w.2 := by
  induction ws generalizing m with
  | nil => exact ⟨by simp, fun _ _ => rfl, hm, fun e he => .inl he⟩
  | cons w ws ih =>
    obtain ⟨hw, hf'⟩ := List.nodup_cons.1 hf
    have hne : ∀ e ∈ ws, f e.1 ≠ f w.1 := fun e he heq => hw (List.mem_map.2 ⟨e, he, heq⟩)
    obtain ⟨hput, hother, hnodup, hfrom⟩ := ih hf' (m := sput (f w.1) w.2 m) (nodup_sput _ hm (hfree w List.mem_cons_self))
      fun e he => (sget_sput_ne (hne e he) _ _).trans (hfree e (List.mem_cons_of_mem _ he))
    refine ⟨fun e he => ?_, fun k hk => ?_, hnodup, fun e he => ?_⟩
    · rcases List.mem_cons.1 he with rfl | he
      · exact (hother _ hne).trans (sget_sput_self _ _ _)
      · exact hput e he
    · exact (hother k fun e he => hk e (List.mem_cons_of_mem _ he)).trans (sget_sput_ne (Ne.symm (hk w List.mem_cons_self)) _ _)
    · rcases hfrom e he with he | ⟨w', hw', heq⟩
      · rcases mem_sput he with rfl | he
        · exact .inr ⟨w, List.mem_cons_self, rfl⟩
        · exact .inl he
      · exact .inr ⟨w', List.mem_cons_of_mem _ hw', heq⟩

/-! ### The gang that is resident again -/

/-- What a restore finds of a gang: nothing of it is in flight, and nothing is held for it. -/
structure NothingHeld (s : State) (v : Saved) (gk : Nat) : Prop where
  mats : v.mats = []
  saved : v.ops = []
  silt : v.silt = []
  credits : v.credits = []
  ops : ∀ e ∈ s.ops, e.2.gang ≠ gk
  reqs : ∀ e ∈ s.reqs, gangKey s e.2.launch e.2.wg ≠ gk

/-- A saved workgroup on its new core. -/
def Workgroup.moved (k : Nat) (l : Launch) (g : Gang) (keys : List (Nat × Nat)) (e : Nat × Workgroup) : Workgroup :=
  { e.2 with core := g.cores.getD (e.1 % 2 ^ 32 - l.gang * k) 0, waves := e.2.waves.map (keyed keys) }

/-- The waves and workgroups of a saved gang put on its new cores. -/
def putGroups (s : State) (k : Nat) (l : Launch) (g : Gang) (v : Saved) (keys : List (Nat × Nat)) : State :=
  { s with waves := putWavesAt (keyed keys) v.waves s.waves
           wgs := v.wgs.foldl (fun gs (e : Nat × Workgroup) => sput e.1 (Workgroup.moved k l g keys e) gs) s.wgs }

theorem putBack_groups {s : State} {v : Saved} {gk : Nat} (h : NothingHeld s v gk) (k : Nat) (l : Launch) (g : Gang) (keys : List (Nat × Nat)) :
    putBack s k l g v keys gk = putGroups s k l g v keys := by
  have hops : s.ops.map (fun (e : Nat × Op) => (e.1, if e.2.gang = gk then
      { e.2 with wave := keyed keys (e.2.wave % 65536), core := coreNo (keyed keys (e.2.wave % 65536)) } else e.2)) = s.ops :=
    map_entries_same fun e he => by rw [if_neg (h.ops e he)]
  have hreqs : s.reqs.map (fun (e : Nat × SenReq) => (e.1, if gangKey s e.2.launch e.2.wg = gk then { e.2 with wave := keyed keys e.2.wave } else e.2)) = s.reqs :=
    map_entries_same fun e he => by rw [if_neg (h.reqs e he)]
  unfold putBack
  rw [h.mats, h.saved]
  exact (congrArg₂ (fun os rs => { putGroups s k l g v keys with ops := os, reqs := rs }) hops hreqs :)

/-- From `s` to `t` the contexts alone change, and no request waits in `ctx`. -/
def OnlyTags (s : State) (ctx : Nat) (t : State) : Prop :=
  { t with contexts := s.contexts } = s ∧ ∀ c, sget ctx t.contexts = some c → c.waiters = []

theorem OnlyTags.mod {s : State} {ctx : Nat} {t : State} (h : OnlyTags s ctx t) {f : Context → Context} (hf : ∀ c, (f c).waiters = c.waiters) :
    OnlyTags s ctx (modCtx t ctx f) := by
  obtain ⟨hrest, hnone⟩ := h
  refine ⟨hrest, fun c hc => ?_⟩
  obtain ⟨c', hc', rfl⟩ := Option.map_eq_some_iff.1 ((sget_smod_self ctx f t.contexts).symm.trans hc)
  exact (hf c').trans (hnone c' hc')

theorem OnlyTags.hold {s : State} {ctx : Nat} {t : State} (h : OnlyTags s ctx t) (x : Nat) : OnlyTags s ctx (tagHold t ctx x) := by
  refine h.mod (f := fun c => { c with tags := smod x (fun t => { t with holders := t.holders + 1 }) c.tags }) fun c => ?_
  rfl

theorem OnlyTags.drop {s : State} {ctx : Nat} {t : State} (h : OnlyTags s ctx t) (x : Nat) : OnlyTags s ctx (tagDrop t ctx x) := by
  refine h.mod (f := fun c => { c with tags := smod x (fun t => { t with holders := t.holders - 1 }) c.tags }) fun c => ?_
  rfl

theorem OnlyTags.eq {s : State} {ctx : Nat} {t : State} (h : OnlyTags s ctx t) : t = { s with contexts := t.contexts } :=
  (congrArg (fun u : State => { u with contexts := t.contexts }) h.1 :)

theorem moveTags_onlyTags {s : State} {ctx : Nat} (hw : ∀ c, sget ctx s.contexts = some c → c.waiters = []) (old new : List Nat) :
    OnlyTags s ctx (moveTags s ctx old new) :=
  kept_foldl (P := OnlyTags s ctx) (fun _ x h => OnlyTags.drop h x) old (kept_foldl (P := OnlyTags s ctx) (fun _ x h => OnlyTags.hold h x) new ⟨rfl, hw⟩)

theorem applyHeld_same {s : State} {v : Saved} {gk : Nat} (h : NothingHeld s v gk) : applyHeld s gk v = s := by
  have hreqs : s.reqs.filter (fun e => gangKey s e.2.launch e.2.wg = gk && !e.2.orphan) = [] :=
    List.filter_eq_nil_iff.2 fun e he => by simp [h.reqs e he]
  unfold applyHeld
  rw [h.credits, h.saved]
  dsimp only [List.foldl_nil]
  rw [hreqs]
  rfl

theorem putSilt_same {s : State} {v : Saved} {gk : Nat} (h : NothingHeld s v gk) (keys : List (Nat × Nat)) : putSilt s v keys = s := by
  unfold putSilt
  rw [h.silt]
  rfl

/-- A restored gang as the device keeps it (R417). -/
def Gang.nowResident (g : Gang) : Gang :=
  { g with state := .resident, resident := 0, migrating := false, migClock := none, excluded := none, holdAfter := false, saved := none }

/-- The device that has a gang resident again, before its waves stand. -/
def readmitted (s : State) (n x : Nat) (g : Gang) : State :=
  { s with gangs := sput (key2 n x) g.nowResident s.gangs, migration := if s.migration = some (n, x) then none else s.migration }

/-- The device with the waves, workgroups and tag holdings of a gang put back. -/
def regained (s : State) (n x : Nat) (l : Launch) (g : Gang) (v : Saved) (tags : List Nat) : State :=
  moveTags (putBack (readmitted s n x g) x l g v (newKeys s l x g.cores v.waves) (key2 n x)) l.ctx tags (heldTags g v)

/-- What a regained gang's waves find: credits, answers and replies that came meanwhile. -/
def caughtUp (s : State) (n x : Nat) (l : Launch) (g : Gang) (v : Saved) (tags : List Nat) : State :=
  resumeWaits (applyHeld (putSilt (regained s n x l g v tags) v (newKeys s l x g.cores v.waves)) (key2 n x) v) l.ctx (key2 n x)

theorem nowResident_ite (s : State) (n x : Nat) (l : Launch) (g : Gang) (v : Saved) (tags : List Nat) : nowResident s n x l g v tags =
    let gk := key2 n x
    let r := caughtUp s n x l g v tags
    if g.abort then strike r gk else evaluate (applyResumes (relocate r (handlers r gk)) gk) gk := rfl

/-- What holds of a device in which a gang without anything in flight is being restored. -/
structure Restorable (s : State) (n x : Nat) (l : Launch) (g : Gang) (v : Saved) : Prop where
  held : NothingHeld s v (key2 n x)
  found : (newKeys s l x g.cores v.waves).map (·.1) = skeys v.waves
  saved : (skeys v.waves).Nodup
  keys : (skeys s.waves).Nodup
  calm : ∀ e ∈ v.waves, Calm e.2
  waves : ∀ e ∈ s.waves, gangOf s e.1 ≠ key2 n x
  waiters : ∀ c, sget l.ctx s.contexts = some c → c.waiters = []
  quiet : Quiet s
  phases : NoPhaseWaiters s

namespace Restorable

variable {s : State} {n x : Nat} {l : Launch} {g : Gang} {v : Saved} (h : Restorable s n x l g v)
include h

/-- The waves that stand once the gang's are put back are those of before and the restored ones. -/
theorem puts :
    let f := keyed (newKeys s l x g.cores v.waves)
    (∀ e ∈ v.waves, sget (f e.1) (putWavesAt f v.waves s.waves) = some e.2)
    ∧ (∀ k, (∀ e ∈ v.waves, f e.1 ≠ k) → sget k (putWavesAt f v.waves s.waves) = sget k s.waves)
    ∧ (skeys (putWavesAt f v.waves s.waves)).Nodup
    ∧ ∀ e ∈ putWavesAt f v.waves s.waves, e ∈ s.waves ∨ Calm e.2 := by
  obtain ⟨hnodup, hfree⟩ := keyed_newKeys_free h.found h.saved
  obtain ⟨hput, hother, hkeys, hfrom⟩ := putWavesAt_puts hnodup h.keys hfree
  refine ⟨hput, hother, hkeys, fun e he => ?_⟩
  rcases hfrom e he with he | ⟨w, hw, heq⟩
  · exact .inl he
  · exact .inr (heq ▸ h.calm w hw)

/-- Nothing else of the device differs once the gang's waves, workgroups and tag holdings are put back. -/
theorem regained_eq (tags : List Nat) : ∃ G C, (∀ c, sget l.ctx C = some c → c.waiters = [])
    ∧ regained s n x l g v tags = { readmitted s n x g with
        waves := putWavesAt (keyed (newKeys s l x g.cores v.waves)) v.waves s.waves, wgs := G, contexts := C } := by
  have hheld : NothingHeld (readmitted s n x g) v (key2 n x) := ⟨h.held.mats, h.held.saved, h.held.silt, h.held.credits, h.held.ops, h.held.reqs⟩
  have htags := moveTags_onlyTags (s := putGroups (readmitted s n x g) x l g v (newKeys s l x g.cores v.waves)) h.waiters tags (heldTags g v)
  unfold regained
  rw [putBack_groups hheld]
  exact ⟨_, _, htags.2, htags.eq⟩

/-- The restored gang's waves stand, and nothing wakes. -/
theorem nowResident_eq (ha : g.abort = false) (tags : List Nat) : ∃ G C, nowResident s n x l g v tags = { readmitted s n x g with
    waves := putWavesAt (keyed (newKeys s l x g.cores v.waves)) v.waves s.waves, wgs := G, contexts := C } := by
  obtain ⟨G, C, hwaiters, heq⟩ := h.regained_eq tags
  obtain ⟨-, -, hkeys, hfrom⟩ := h.puts
  refine ⟨G, C, ?_⟩
  rw [nowResident_ite, ha]
  unfold caughtUp
  rw [heq]
  generalize ht : ({ readmitted s n x g with waves := putWavesAt (keyed (newKeys s l x g.cores v.waves)) v.waves s.waves, wgs := G, contexts := C } : State) = t
  have hwaves : t.waves = putWavesAt (keyed (newKeys s l x g.cores v.waves)) v.waves s.waves := by rw [← ht]
  have hlaunches : t.launches = s.launches := by rw [← ht]; rfl
  have hheld : NothingHeld t v (key2 n x) := by
    rw [← ht]
    exact ⟨h.held.mats, h.held.saved, h.held.silt, h.held.credits, h.held.ops, h.held.reqs⟩
  have hold : ∀ e ∈ t.waves, e ∈ s.waves ∨ Calm e.2 := fun e he => hfrom e (hwaves ▸ he)
  have hquiet : Quiet t := by
    refine ⟨?_, ?_, ?_, ?_, fun e he y hy => ?_⟩
    · rw [← ht]; exact h.quiet.ops
    · rw [← ht]; exact h.quiet.silt
    · rw [← ht]; exact h.quiet.mats
    · rw [← ht]; exact h.quiet.orders
    · rcases hold e he with he | ⟨-, hcalm⟩
      · exact h.quiet.fibres e he y hy
      · rw [(hcalm y hy).1]
        trivial
  have hphases : NoPhaseWaiters t := fun e he y hy o p d => by
    rcases hold e he with he | ⟨-, hcalm⟩
    · exact h.phases e he y hy o p d
    · rw [(hcalm y hy).1]
      nofun
  have hnodup : (skeys t.waves).Nodup := hwaves ▸ hkeys
  have hcalm : CalmGang t (key2 n x) := by
    refine ⟨hnodup, fun e he hgk => (hold e he).resolve_left fun he' => h.waves e he' ?_⟩
    rw [gangOf_of_mem hnodup he] at hgk
    rw [gangOf_of_mem h.keys he', ← hgk]
    unfold gangKey
    rw [hlaunches]
  rw [putSilt_same hheld, applyHeld_same hheld, hcalm.resumeWaits_same (by rw [← ht]; exact hwaiters)]
  dsimp only
  rw [if_neg (by decide), hcalm.relocate_same, hcalm.applyResumes_same, hquiet.evaluate_same hphases]

end Restorable

/-! ### The end of a restore (R413, R416) -/

theorem exec_restoreComplete {s : State} {n x : Nat} {g h : Gang} {l : Launch} {v u : Saved} {m : Sparse Byte} {pages : List Nat}
    (hg : sget (key2 n x) s.gangs = some g) (hl : sget n s.launches = some l) (hs : g.state = .restoring) (hv : g.saved = some v)
    (hr : readArea s l x = (s, some (m, pages))) (hi : fromImage l n x m g v = some (h, u)) :
    exec (.restoreComplete n x) s = .next (nowResident (writeBytes s [(pages.headD 0 + 9, 0)] false) n x l h u (heldTags g v)) := by
  change execRestoreComplete n x s = _
  unfold execRestoreComplete
  dsimp only
  rw [hg, hl]
  dsimp only
  rw [hs, hv]
  dsimp only
  rw [hr]
  dsimp only
  rw [hi]

theorem fromImage_abort {l : Launch} {n x : Nat} {m : Sparse Byte} {g h : Gang} {v u : Saved} (hi : fromImage l n x m g v = some (h, u)) :
    h.abort = g.abort := by
  unfold fromImage at hi
  dsimp only at hi
  split at hi
  · cases hi
  · split at hi
    · cases hi
    · obtain ⟨rfl, -⟩ := Prod.mk.inj (Option.some.inj hi)
      rfl

/-- The state byte of an area that was restored is 0, and no other byte of memory changes. -/
theorem writeBytes_stateByte {s : State} (h : ∀ e ∈ s.gangs, e.2.windows = []) (a : Nat) :
    ∃ m q, writeBytes s [(a, 0)] false = s.withMem m q ∧ ∀ p, pByte (s.withMem m q) p = if p = a then 0 else pByte s p := by
  have htakes : Takes s (writeBytes s [(a, 0)] false) a [0] := takes_writeBytes h a [0] false
  obtain ⟨hbyte, hrest, hstate⟩ := htakes
  have ht : writeBytes s [(a, 0)] false = s.withMem (writeBytes s [(a, 0)] false).mem (writeBytes s [(a, 0)] false).memPois :=
    (congrArg (fun u : State => u.withMem (writeBytes s [(a, 0)] false).mem (writeBytes s [(a, 0)] false).memPois) hstate :)
  refine ⟨_, _, ht, fun p => ?_⟩
  rw [← ht]
  split
  · next e => subst e; exact hbyte 0 (by simp)
  · next e =>
    refine hrest p fun j hj => ?_
    rw [show j = 0 by simpa using hj]
    exact e

/-- A restored gang is resident with the waves of its image, and the state byte of its area is 0 (R413, R416, R417). -/
theorem restoreComplete_restores {s : State} {n x : Nat} {g h : Gang} {l : Launch} {v u : Saved} {m : Sparse Byte} {pages : List Nat}
    (hg : sget (key2 n x) s.gangs = some g) (hl : sget n s.launches = some l) (hs : g.state = .restoring) (hv : g.saved = some v)
    (ha : g.abort = false) (hr : readArea s l x = (s, some (m, pages))) (hi : fromImage l n x m g v = some (h, u)) (ho : Open s)
    (hres : Restorable s n x l h u) :
    let keys := newKeys s l x h.cores u.waves
    ∃ t, exec (.restoreComplete n x) s = .next t
      ∧ sget (key2 n x) t.gangs = some h.nowResident
      ∧ (∀ j, j ≠ key2 n x → sget j t.gangs = sget j s.gangs) ∧ t.migration = (if s.migration = some (n, x) then none else s.migration)
      ∧ (∀ e ∈ u.waves, sget (keyed keys e.1) t.waves = some e.2) ∧ (∀ k, (∀ e ∈ u.waves, keyed keys e.1 ≠ k) → sget k t.waves = sget k s.waves)
      ∧ (∀ p, pByte t p = if p = pages.headD 0 + 9 then 0 else pByte s p) ∧ t.launches = s.launches ∧ t.ctl = s.ctl := by
  intro keys
  obtain ⟨m', q, hmem, hbyte⟩ := writeBytes_stateByte ho.windows (pages.headD 0 + 9)
  have hexec := exec_restoreComplete hg hl hs hv hr hi
  have hkeys := newKeys_withMem l x h.cores u.waves s m' q
  have hres' : Restorable (s.withMem m' q) n x l h u :=
    ⟨⟨hres.held.mats, hres.held.saved, hres.held.silt, hres.held.credits, hres.held.ops, hres.held.reqs⟩, hkeys ▸ hres.found, hres.saved, hres.keys,
      hres.calm, hres.waves, hres.waiters, ⟨hres.quiet.ops, hres.quiet.silt, hres.quiet.mats, hres.quiet.orders, hres.quiet.fibres⟩, hres.phases⟩
  obtain ⟨G, C, heq⟩ := hres'.nowResident_eq ((fromImage_abort hi).trans ha) (heldTags g v)
  obtain ⟨hput, hother, -, -⟩ := hres.puts
  rw [hmem, heq, hkeys] at hexec
  exact ⟨_, hexec, sget_sput_self _ _ _, fun j hj => sget_sput_ne hj _ _, rfl, hput, hother, hbyte, rfl, rfl⟩

/-! ### O43 -/

/-- Settles O43: a placement step by the two ways a gang comes, a sample core by core, and a save and a restore of a gang with nothing in
flight, whose preparatory steps change nothing. -/
theorem placementAndSaves : Obligations.PlacementAndSaves := by
  refine ⟨?_, ?_, ?_, ?_⟩
  · intro s c l cl cores ks hr hl hf ht est
    obtain ⟨t, ht', hp, hsaved, hnew⟩ := gangPlacement_places hr hl hf ht
    obtain ⟨hmem, hctx, hops, hcores⟩ := hp.rest
    refine ⟨t, ht', hp.used, hp.ctl, hp.clusters, hp.gangs, hmem, hctx, hops, hcores, hsaved, fun hc => ?_⟩
    obtain ⟨-, hgang, hlaunch, hkeeps, hgroups⟩ := placeNew_creates hl ht cl cores ks
    rw [hnew hc]
    refine ⟨hgang, hlaunch, hkeeps, fun m core hm => ?_⟩
    obtain ⟨u, hu, hcreated⟩ := hgroups m core hm
    exact ⟨u, hu, hcreated.place, hcreated.live, hcreated.tiles, hcreated.waves⟩
  · intro s temps power
    exact ⟨sampledState s temps power, coreOf_sampledState s temps power, sampledState_sensors s temps power, sampledState_rest s temps power,
      governorSample_stays, fun gk g => governorSample_migrates⟩
  · intro s n x g l pages hg hl gk hs hw hm hkeys ho hwaves hops hmats hctx _ ha
    exact gangSaveComplete_saves hg hl hs hw hm ho ⟨hkeys, hwaves, hops, hmats, hctx⟩ ha
  · intro s s' n x g h l v u m pages ctx hg hl hc gk hs hv ha hr hsame hi keys hfound hsaved hkeys hum huo hus huc hcalm hops hwaves hreqs hwait ho hq hp
    subst hsame
    refine restoreComplete_restores hg hl hs hv ha hr hi ho ⟨⟨hum, huo, hus, huc, hops, hreqs⟩, hfound, hsaved, hkeys, hcalm, hwaves, fun c hcc => ?_, hq, hp⟩
    rw [hc] at hcc
    cases hcc
    exact hwait

end Sys2Proof.Machine
end

section
/-! SUPPORT. Float arithmetic of the RRR form: each fibre gets the operation on its own encodings (R130, R131, R133, R136); a magnitude of
2^(bias + 1) or more overflows whatever it is rounded to (R51, R52). -/

namespace Sys2Proof.Machine

/-! ### An operation on each fibre's operands -/

/-- An RRR instruction with an operation on its operands gives each passing fibre that operation's result. -/
theorem eachFibre_alu {s : State} {i : Instr} {g : Guard} {x : RRR} {f : Form} (e : form i = some f) (hc : f.const = none) {op : AluOp}
    (hx : exec i s = issue i g .none (alu x op) s) (hi : ∀ z, InRange i g z) :
    EachFibre s i g (fun z _ y => putD x (op x.ty (opA x z.w y) (opB x z.w y) (opC x z.w y)) y) :=
  eachFibre e hc hx (fun _ _ => rfl) (fun _ _ _ => by simp only [srcX_begunWave]; rfl) hi

/-- The same of a float operation, which acts on encodings (R130); `v` is its result. -/
theorem eachFibre_flt {s : State} {i : Instr} {g : Guard} {x : RRR} {f : Form} (e : form i = some f) (hc : f.const = none) {rnd : Nat}
    {ftz : Bool} {op : FloatOp} (hx : exec i s = issue i g .none (alu x (flt rnd ftz op)) s) {v : Site → Fibre → Nat}
    (hv : ∀ z y, op (fmtOf x.ty) (Rnd.ofCode rnd) ftz (natA x z.w y) (natB x z.w y) (natC x z.w y) = v z y)
    (hi : ∀ z, InRange i g z := by intro _ _ _ _ _; rfl) : EachFibre s i g (fun z _ y => putF x (v z y) y) := by
  simp only [← hv]
  exact eachFibre_alu e hc (op := flt rnd ftz op) hx hi

/-! ### Rounding keeps the leading bit -/

theorem le_roundAt_of_le {e p : Int} (h : p ≤ e) (mode : Rnd) (neg : Bool) (m : Nat) (sticky : Bool) :
    m * 2 ^ (e - p).toNat ≤ roundAt mode neg m e p sticky := by
  rw [roundAt, if_pos h]
  exact Nat.le_add_right _ _

theorem le_roundAt_of_lt {e p : Int} (h : e < p) (mode : Rnd) (neg : Bool) (m : Nat) (sticky : Bool) :
    m / 2 ^ (p - e).toNat ≤ roundAt mode neg m e p sticky := by
  rw [roundAt, if_neg (Int.not_le.2 h)]
  exact Nat.le_add_right _ _

/-- A magnitude rounded `n` bits below its leading bit is 2^n or more. -/
theorem two_pow_le_roundAt {m : Nat} (hm : m ≠ 0) (mode : Rnd) (neg : Bool) (e : Int) (n : Nat) (sticky : Bool) :
    2 ^ n ≤ roundAt mode neg m e (e + m.log2 - n) sticky := by
  have hlead : 2 ^ m.log2 ≤ m := Nat.log2_self_le hm
  rcases Nat.lt_or_ge n m.log2 with hlt | hle
  · refine le_trans ?_ (le_roundAt_of_lt (by omega) mode neg m sticky)
    rw [show (e + m.log2 - n - e).toNat = m.log2 - n by omega, Nat.le_div_iff_mul_le (Nat.two_pow_pos _), ← pow_add,
      Nat.add_sub_cancel' hlt.le]
    exact hlead
  · refine le_trans ?_ (le_roundAt_of_le (by omega) mode neg m sticky)
    rw [show (e - (e + m.log2 - n)).toNat = n - m.log2 by omega]
    calc 2 ^ n = 2 ^ m.log2 * 2 ^ (n - m.log2) := by rw [← pow_add, Nat.add_sub_cancel' hle]
      _ ≤ m * 2 ^ (n - m.log2) := Nat.mul_le_mul_right _ hlead

/-! ### Overflow (R52) -/

/-- A magnitude of 2^(bias + 1) or more packs as an overflow: its exponent field is 2 × bias + 1 or more. -/
theorem pack_overflows {f : Fmt} (htop : f.top < (2 * f.bias + 1) * 2 ^ f.fb) {m : Nat} (hm : m ≠ 0) {e : Int}
    (he : (f.bias : Int) < e + m.log2) (mode : Rnd) (neg sticky : Bool) :
    f.pack mode (.fin neg m e) sticky = f.over .ieee mode neg false := by
  have hp : max (1 - (f.bias : Int) - f.fb) (e + m.log2 - f.fb) = e + m.log2 - f.fb := max_eq_right (by omega)
  have hfield : 2 * f.bias ≤ (e + m.log2 - f.fb - (1 - (f.bias : Int) - f.fb)).toNat := by omega
  have hover : f.top < (e + m.log2 - f.fb - (1 - (f.bias : Int) - f.fb)).toNat * 2 ^ f.fb
      + roundAt mode neg m e (e + m.log2 - f.fb) sticky :=
    calc f.top < (2 * f.bias + 1) * 2 ^ f.fb := htop
      _ = 2 * f.bias * 2 ^ f.fb + 2 ^ f.fb := Nat.succ_mul _ _
      _ ≤ _ := Nat.add_le_add (Nat.mul_le_mul_right _ hfield) (two_pow_le_roundAt hm mode neg e f.fb sticky)
  simp only [Fmt.pack, hp, if_pos hover, hm, decide_false, Bool.false_and, Bool.false_eq_true, if_false]

/-- The table of R52, of a format with an infinity. -/
theorem over_ieee {f : Fmt} {i : Nat} (h : f.inf = some i) (mode : Rnd) (neg : Bool) :
    f.over .ieee mode neg false = (if neg then 2 ^ f.mag else 0) +
      (match mode, neg with
       | .near, _ => f.inf.getD 0
       | .zero, _ => f.top
       | .down, false => f.top
       | .down, true => f.inf.getD 0
       | .up, false => f.inf.getD 0
       | .up, true => f.top) := by
  cases mode <;> cases neg <;> simp [Fmt.over, h]

/-- In each format with an infinity, that is the encoding of exponent 2 × bias + 1 and fraction 0, above the largest finite one (R48, R49). -/
theorem inf_of_ieee_format : ∀ f ∈ [fmt64, fmt32, fmt16, fmtB16, fmt8b],
    f.inf = some ((2 * f.bias + 1) * 2 ^ f.fb) ∧ f.top < (2 * f.bias + 1) * 2 ^ f.fb := by decide

/-- Settles O6: each operation is the one of its format on the fibre's encodings, element by element in the packed forms, and a magnitude of
2^(bias + 1) or more has an encoding past the largest finite one in every mode. -/
theorem floatArithmeticRoundedOnce : Obligations.FloatArithmeticRoundedOnce := by
  refine ⟨⟨fun s g x => ⟨?fadd, ?fsub, ?fmul, ?ffma, ?fdiv, ?fmin, ?fmax⟩, fun s g x => ⟨?dadd, ?dmul, ?dfma, ?ddiv⟩,
    fun s g x => ⟨?hadd2, ?hmul2, ?packedFma⟩⟩, fun f hf mode neg m e sticky hm he => ?overflow⟩
  case packedFma =>
    intro i hi
    rcases List.mem_pair.1 hi with rfl | rfl
    · exact eachFibre_flt rfl rfl rfl (fun _ _ => rfl)
    · exact eachFibre_flt rfl rfl rfl (fun _ _ => rfl)
  case overflow =>
    obtain ⟨hinf, htop⟩ := inf_of_ieee_format f hf
    exact (pack_overflows htop hm he mode neg sticky).trans (over_ieee hinf mode neg)
  all_goals exact eachFibre_flt rfl rfl rfl (fun _ _ => rfl)

end Sys2Proof.Machine
end

section
/-! SUPPORT. Instruction words and their bytes: decoding undoes encoding (R79 to R99), and no word of a clause header is an instruction's (R98). -/

namespace Sys2Proof.Laws

/-! ### Fields -/

/-- The decoder takes from the word of a well-formed instruction its own fields: one case for each row of the opcode map (R99); an event is
never well formed. -/
theorem decodeFields_encode {i : Instr} (h : i.WellFormed) : decodeFields (encode i) = i := by
  suffices Encoding.Statement i from this h
  cases i with
  | iadd g x => exact Encoding.iadd g x
  | isub g x => exact Encoding.isub g x
  | imul g x => exact Encoding.imul g x
  | imulhi g x => exact Encoding.imulhi g x
  | imad g x => exact Encoding.imad g x
  | imadw g x => exact Encoding.imadw g x
  | idiv g x => exact Encoding.idiv g x
  | irem g x => exact Encoding.irem g x
  | imin g x => exact Encoding.imin g x
  | imax g x => exact Encoding.imax g x
  | iabs g x => exact Encoding.iabs g x
  | ineg g x => exact Encoding.ineg g x
  | addc g x => exact Encoding.addc g x
  | subb g x => exact Encoding.subb g x
  | lea g x => exact Encoding.lea g x
  | andB g x => exact Encoding.andB g x
  | orB g x => exact Encoding.orB g x
  | xorB g x => exact Encoding.xorB g x
  | notB g x => exact Encoding.notB g x
  | shl g x => exact Encoding.shl g x
  | shr g x => exact Encoding.shr g x
  | sar g x => exact Encoding.sar g x
  | rot g x => exact Encoding.rot g x
  | popc g x => exact Encoding.popc g x
  | clz g x => exact Encoding.clz g x
  | brev g x => exact Encoding.brev g x
  | bfx g x => exact Encoding.bfx g x
  | bfi g x => exact Encoding.bfi g x
  | icmp g x => exact Encoding.icmp g x
  | fcmp g x => exact Encoding.fcmp g x
  | sel g x => exact Encoding.sel g x
  | pset g x => exact Encoding.pset g x
  | psetSave g x => exact Encoding.psetSave g x
  | psetLoad g x => exact Encoding.psetLoad g x
  | plop g x => exact Encoding.plop g x
  | fadd g x => exact Encoding.fadd g x
  | fsub g x => exact Encoding.fsub g x
  | fmul g x => exact Encoding.fmul g x
  | ffma g x => exact Encoding.ffma g x
  | fmin g x => exact Encoding.fmin g x
  | fmax g x => exact Encoding.fmax g x
  | frcp g x => exact Encoding.frcp g x
  | frsq g x => exact Encoding.frsq g x
  | fsqrt g x => exact Encoding.fsqrt g x
  | fdiv g x => exact Encoding.fdiv g x
  | fex2 g x => exact Encoding.fex2 g x
  | flg2 g x => exact Encoding.flg2 g x
  | fsin g x => exact Encoding.fsin g x
  | fcos g x => exact Encoding.fcos g x
  | frnd g x => exact Encoding.frnd g x
  | fclass g x => exact Encoding.fclass g x
  | dadd g x => exact Encoding.dadd g x
  | dmul g x => exact Encoding.dmul g x
  | dfma g x => exact Encoding.dfma g x
  | ddiv g x => exact Encoding.ddiv g x
  | hadd2 g x => exact Encoding.hadd2 g x
  | hmul2 g x => exact Encoding.hmul2 g x
  | hfma2 g x => exact Encoding.hfma2 g x
  | bfma2 g x => exact Encoding.bfma2 g x
  | cvt g x => exact Encoding.cvt g x
  | f8pk g x => exact Encoding.f8pk g x
  | f8upk g x => exact Encoding.f8upk g x
  | mov g x => exact Encoding.mov g x
  | movi g x => exact Encoding.movi g x
  | movk g x => exact Encoding.movk g x
  | movg g x => exact Encoding.movg g x
  | vtog g x => exact Encoding.vtog g x
  | rdsr g x => exact Encoding.rdsr g x
  | wrsr g x => exact Encoding.wrsr g x
  | stage g x => exact Encoding.stage g x
  | shfl g x => exact Encoding.shfl g x
  | vote g x => exact Encoding.vote g x
  | lred g x => exact Encoding.lred g x
  | lscan g x => exact Encoding.lscan g x
  | lfind g x => exact Encoding.lfind g x
  | iaddRk g x => exact Encoding.iaddRk g x
  | isubRk g x => exact Encoding.isubRk g x
  | imulRk g x => exact Encoding.imulRk g x
  | imadRk g x => exact Encoding.imadRk g x
  | andRk g x => exact Encoding.andRk g x
  | orRk g x => exact Encoding.orRk g x
  | xorRk g x => exact Encoding.xorRk g x
  | icmpRk g x => exact Encoding.icmpRk g x
  | faddRk g x => exact Encoding.faddRk g x
  | fmulRk g x => exact Encoding.fmulRk g x
  | ffmaRk g x => exact Encoding.ffmaRk g x
  | fcmpRk g x => exact Encoding.fcmpRk g x
  | iaddRi g x => exact Encoding.iaddRi g x
  | imulRi g x => exact Encoding.imulRi g x
  | andRi g x => exact Encoding.andRi g x
  | orRi g x => exact Encoding.orRi g x
  | xorRi g x => exact Encoding.xorRi g x
  | shlRi g x => exact Encoding.shlRi g x
  | shrRi g x => exact Encoding.shrRi g x
  | sarRi g x => exact Encoding.sarRi g x
  | icmpRi g x => exact Encoding.icmpRi g x
  | faddRi g x => exact Encoding.faddRi g x
  | fmulRi g x => exact Encoding.fmulRi g x
  | gadd g x => exact Encoding.gadd g x
  | gsub g x => exact Encoding.gsub g x
  | gmul g x => exact Encoding.gmul g x
  | gmin g x => exact Encoding.gmin g x
  | gand g x => exact Encoding.gand g x
  | gor g x => exact Encoding.gor g x
  | gxor g x => exact Encoding.gxor g x
  | gshl g x => exact Encoding.gshl g x
  | gshr g x => exact Encoding.gshr g x
  | gcmp g x => exact Encoding.gcmp g x
  | gsel g x => exact Encoding.gsel g x
  | gmov g x => exact Encoding.gmov g x
  | glea g x => exact Encoding.glea g x
  | gaddRi g x => exact Encoding.gaddRi g x
  | gandRi g x => exact Encoding.gandRi g x
  | gorRi g x => exact Encoding.gorRi g x
  | gxorRi g x => exact Encoding.gxorRi g x
  | gshlRi g x => exact Encoding.gshlRi g x
  | gshrRi g x => exact Encoding.gshrRi g x
  | gcmpRi g x => exact Encoding.gcmpRi g x
  | gmovRi g x => exact Encoding.gmovRi g x
  | gaddRk g x => exact Encoding.gaddRk g x
  | gcmpRk g x => exact Encoding.gcmpRk g x
  | gmovRk g x => exact Encoding.gmovRk g x
  | gld g x => exact Encoding.gld g x
  | ld g x => exact Encoding.ld g x
  | st g x => exact Encoding.st g x
  | lds g x => exact Encoding.lds g x
  | sts g x => exact Encoding.sts g x
  | ldk g x => exact Encoding.ldk g x
  | ldx g x => exact Encoding.ldx g x
  | atom g x => exact Encoding.atom g x
  | redI g x => exact Encoding.redI g x
  | fence g x => exact Encoding.fence g x
  | cflush g x => exact Encoding.cflush g x
  | cinvK g x => exact Encoding.cinvK g x
  | cinvKall g x => exact Encoding.cinvKall g x
  | cinvL1 g x => exact Encoding.cinvL1 g x
  | icinv g x => exact Encoding.icinv g x
  | pref g x => exact Encoding.pref g x
  | smap g x => exact Encoding.smap g x
  | smapUnmap g x => exact Encoding.smapUnmap g x
  | swb g x => exact Encoding.swb g x
  | swbAll g x => exact Encoding.swbAll g x
  | ldmc g x => exact Encoding.ldmc g x
  | mcfgBind g x => exact Encoding.mcfgBind g x
  | mcfgUnbind g x => exact Encoding.mcfgUnbind g x
  | mcfgMode g x => exact Encoding.mcfgMode g x
  | mlatch g x => exact Encoding.mlatch g x
  | mma g x => exact Encoding.mma g x
  | mmas g x => exact Encoding.mmas g x
  | mmat g x => exact Encoding.mmat g x
  | mdrain g x => exact Encoding.mdrain g x
  | mzero g x => exact Encoding.mzero g x
  | mstat g x => exact Encoding.mstat g x
  | cpy g x => exact Encoding.cpy g x
  | cpyg g x => exact Encoding.cpyg g x
  | cpys g x => exact Encoding.cpys g x
  | cpymc g x => exact Encoding.cpymc g x
  | coll g x => exact Encoding.coll g x
  | trec g x => exact Encoding.trec g x
  | bra g x => exact Encoding.bra g x
  | brx g x => exact Encoding.brx g x
  | brxRel g x => exact Encoding.brxRel g x
  | call g x => exact Encoding.call g x
  | callX g x => exact Encoding.callX g x
  | ret g x => exact Encoding.ret g x
  | fork g x => exact Encoding.fork g x
  | exit g x => exact Encoding.exit g x
  | yield g x => exact Encoding.yield g x
  | nop g x => exact Encoding.nop g x
  | launch g x => exact Encoding.launch g x
  | barinit g x => exact Encoding.barinit g x
  | bararr g x => exact Encoding.bararr g x
  | barexp g x => exact Encoding.barexp g x
  | waitPh g x => exact Encoding.waitPh g x
  | waitM g x => exact Encoding.waitM g x
  | trigger g x => exact Encoding.trigger g x
  | gridwait g x => exact Encoding.gridwait g x
  | rsvclr g x => exact Encoding.rsvclr g x
  | rsvupd g x => exact Encoding.rsvupd g x
  | rsvmrg g x => exact Encoding.rsvmrg g x
  | rsvcap g x => exact Encoding.rsvcap g x
  | rsvcapI g x => exact Encoding.rsvcapI g x
  | rsvfin g x => exact Encoding.rsvfin g x
  | rsvld g x => exact Encoding.rsvld g x
  | rsvldS g x => exact Encoding.rsvldS g x
  | rsvldX g x => exact Encoding.rsvldX g x
  | rsvst g x => exact Encoding.rsvst g x
  | rsvstS g x => exact Encoding.rsvstS g x
  | rsvdraw g x => exact Encoding.rsvdraw g x
  | tagnew g x => exact Encoding.tagnew g x
  | tagnewTry g x => exact Encoding.tagnewTry g x
  | tagret g x => exact Encoding.tagret g x
  | tagset g x => exact Encoding.tagset g x
  | tagget g x => exact Encoding.tagget g x
  | taggetInfo g x => exact Encoding.taggetInfo g x
  | tagpub g x => exact Encoding.tagpub g x
  | trace g x => exact Encoding.trace g x
  | traceRej g x => exact Encoding.traceRej g x
  | traceAcc g x => exact Encoding.traceAcc g x
  | hret g x => exact Encoding.hret g x
  | traq g x => exact Encoding.traq g x
  | rast g x => exact Encoding.rast g x
  | tex g x => exact Encoding.tex g x
  | texl g x => exact Encoding.texl g x
  | texg g x => exact Encoding.texg g x
  | texres g x => exact Encoding.texres g x
  | texfb g x => exact Encoding.texfb g x
  | blend g x => exact Encoding.blend g x
  | rqpush g x => exact Encoding.rqpush g x
  | rqpop g x => exact Encoding.rqpop g x
  | trapI g x => exact Encoding.trapI g x
  | brk g x => exact Encoding.brk g x
  | tretRetry g x => exact Encoding.tretRetry g x
  | tretSkip g x => exact Encoding.tretSkip g x
  | tretKillf g x => exact Encoding.tretKillf g x
  | tretKillg g x => exact Encoding.tretKillg g x
  | capinv g x => exact Encoding.capinv g x
  | upcall g x => exact Encoding.upcall g x
  | rdctr g x => exact Encoding.rdctr g x
  | unassignedOpcode w => exact Encoding.unassignedOpcode w
  | _ => exact Encoding.of_not rfl

theorem wf_of_form {i : Instr} {f : Machine.Form} (hf : Machine.form i = some f) : i.wf = (!f.badField && !f.badValue) := by
  unfold Instr.wf
  split
  · cases hf
  · simp only [hf]

/-- A well-formed instruction fails no field check of R100. -/
theorem rejection_eq_none {i : Instr} (h : i.WellFormed) : rejection i = none := by
  cases hf : Machine.form i with
  | none => simp only [rejection, hf]
  | some f =>
    rw [Instr.WellFormed, wf_of_form hf, Bool.and_eq_true, Bool.not_eq_true', Bool.not_eq_true'] at h
    obtain ⟨hfield, hvalue⟩ := h
    simp only [rejection, hf, hfield, hvalue, Bool.false_eq_true, if_false]

theorem decode_encode {i : Instr} (h : i.WellFormed) : decode (encode i) = .instr i := by
  unfold decode
  simp only [decodeFields_encode h, rejection_eq_none h]

/-! ### Bytes (R5) -/

theorem fromBytesLE_toBytesLE (n x : Nat) : fromBytesLE (toBytesLE n x) = x % 256 ^ n := by
  induction n generalizing x with
  | zero => rw [pow_zero, Nat.mod_one]; rfl
  | succ n ih =>
    rw [toBytesLE, fromBytesLE, ih, BitVec.toNat_ofNat, pow_succ' 256]
    exact Nat.mod_mul.symm

/-- The decoder on memory that begins with the eight bytes of a word decodes the word. -/
theorem decodeBytes_word (w : W64) (rest : List Byte) : decodeBytes (toBytesLE 8 w.toNat ++ rest) = some (decode w) := by
  have hlen : (toBytesLE 8 w.toNat).length = 8 := Machine.toBytesLE_length 8 w.toNat
  have hw : fromBytesLE (toBytesLE 8 w.toNat) = w.toNat := (fromBytesLE_toBytesLE 8 w.toNat).trans (Nat.mod_eq_of_lt w.isLt)
  unfold decodeBytes
  rw [if_pos (by rw [List.length_append, hlen]; omega), List.take_left' hlen, hw, BitVec.ofNat_toNat, BitVec.setWidth_eq]

/-- Settles O52: an instruction's fields come back from its word one by one, and a word from its bytes. -/
theorem decodeOfEncode : Obligations.DecodeOfEncode := fun i h =>
  ⟨decode_encode h, fun rest => by rw [decodeBytes_word, decode_encode h]⟩

/-- Settles O53: each word is decoded as it stands. -/
theorem wordsOfTheExamples : Obligations.WordsOfTheExamples := by
  refine ⟨?_, ?_, ?_, ?_, ?_, ?_, ?_, ?_, ?_⟩ <;> decide

/-! ### Clause headers (R98) -/

/-- The opcode lies in 0xD4 to 0xD7 exactly when its top six bits, which are the word's, are the clause signature. -/
theorem signature_iff (w : W64) :
    0xD4 ≤ (w.extractLsb' 56 8).toNat ∧ (w.extractLsb' 56 8).toNat ≤ 0xD7 ↔ w.extractLsb' 58 6 = 0b110101 := by
  rw [← BitVec.toNat_inj, BitVec.extractLsb'_toNat, BitVec.extractLsb'_toNat, Nat.shiftRight_eq_div_pow, Nat.shiftRight_eq_div_pow]
  change _ ↔ _ = 0b110101
  omega

theorem not_assigned_signature {o : Nat} (sub : Nat) (h1 : 0xD4 ≤ o) (h2 : o ≤ 0xD7) : Machine.assigned o sub = false := by
  obtain rfl | rfl | rfl | rfl : o = 0xD4 ∨ o = 0xD5 ∨ o = 0xD6 ∨ o = 0xD7 := by omega
  all_goals rfl

/-- A word that carries the clause signature decodes as no instruction. -/
theorem decodeFields_signature {w : W64} (h : w.extractLsb' 58 6 = 0b110101) : decodeFields w = .unassignedOpcode w := by
  obtain ⟨h1, h2⟩ := (signature_iff w).2 h
  exact decodeFields_unassigned w (not_assigned_signature _ h1 h2)

/-- The signature is the first check of R72. -/
theorem headerError_of_ne {w : W64} (h : w.extractLsb' 58 6 ≠ 0b110101) : Machine.headerError w = some 1 := by
  unfold Machine.headerError
  rw [if_pos (bne_iff_ne.2 h)]

theorem signature_of_header {w : W64} (h : Machine.headerError w = none) : w.extractLsb' 58 6 = 0b110101 := by
  by_contra hn
  rw [headerError_of_ne hn] at h
  cases h

/-- Settles O54: a word with the signature decodes as no instruction, so the word of an instruction, which decodes as it, has none. -/
theorem headersAreNoInstructions : Obligations.HeadersAreNoInstructions := by
  refine ⟨signature_iff, fun w h1 h2 => decodeFields_signature ((signature_iff w).1 ⟨h1, h2⟩), fun i hwf hi => ?_,
    fun h hh => decodeFields_signature (signature_of_header hh)⟩
  refine headerError_of_ne fun hs => hi (encode i) ?_
  exact (decodeFields_encode hwf).symm.trans (decodeFields_signature hs)

end Sys2Proof.Laws
end

section
/-! SUPPORT. The constant and immediate forms of the vector family (R86, R88), and comparisons into predicates (R85, R126). -/

namespace Sys2Proof.Machine

/-! ### Operand B from a constant window or from the word -/

/-- An RK instruction with an operation on its operands gives each passing fibre that operation's result, the constant as B (R86). -/
theorem eachFibreK_aluK {s : State} {i : Instr} {g : Guard} {x : RK} {op : AluOp} (hx : exec i s = issue i g .none (aluK x op) s)
    (hi : ∀ z, InRange i g z := by intro _ _ _ _ _; rfl) :
    EachFibreK s i g (fun ws _ y => putK x (op x.ty (kA x y) (conValue ws) (kC x y)) y) :=
  eachFibreK hx (fun _ _ _ => rfl) hi

/-- The same of an RI instruction, the widened immediate as B (R88). -/
theorem eachFibre_aluImm {s : State} {i : Instr} {g : Guard} {x : RI} {f : Form} (e : form i = some f) (hc : f.const = none) {op : AluOp}
    (hx : exec i s = issue i g .none (aluImm x op) s) (hi : ∀ z, InRange i g z := by intro _ _ _ _ _; rfl) :
    EachFibre s i g (fun _ _ y => putI x (op (riTy x) (riA x y) (riB x) 0) y) :=
  eachFibre e hc hx (fun _ _ => rfl) (fun _ _ _ => rfl) hi

/-- Settles O5: each form is the operation of its RRR form, with the constant or the immediate for B. -/
theorem constantAndImmediateForms : Obligations.ConstantAndImmediateForms := by
  refine ⟨⟨fun s g x => ?rk, fun s g x => ?ri⟩, fun s g x => ?floatRk, fun s g x => ?floatRi⟩
  case rk =>
    exact ⟨eachFibreK_aluK (op := opAdd false) rfl, eachFibreK_aluK (op := opSub false) rfl, eachFibreK_aluK (op := opMul) rfl,
      eachFibreK_aluK (op := opMad) rfl, eachFibreK_aluK (op := opAnd) rfl, eachFibreK_aluK (op := opOr) rfl, eachFibreK_aluK (op := opXor) rfl⟩
  case ri =>
    exact ⟨eachFibre_aluImm (op := opAdd false) rfl rfl rfl, eachFibre_aluImm (op := opMul) rfl rfl rfl, eachFibre_aluImm (op := opAnd) rfl rfl rfl,
      eachFibre_aluImm (op := opOr) rfl rfl rfl, eachFibre_aluImm (op := opXor) rfl rfl rfl, eachFibre_aluImm (op := opShl) rfl rfl rfl,
      eachFibre_aluImm (op := opShr) rfl rfl rfl, eachFibre_aluImm (op := opSar) rfl rfl rfl⟩
  case floatRk =>
    exact ⟨eachFibreK_aluK (op := flt x.rnd.toNat false fAdd) rfl, eachFibreK_aluK (op := flt x.rnd.toNat false fMul) rfl,
      eachFibreK_aluK (op := flt x.rnd.toNat false fFma) rfl⟩
  case floatRi =>
    exact ⟨eachFibre_aluImm (op := flt 0 false fAdd) rfl rfl rfl, eachFibre_aluImm (op := flt 0 false fMul) rfl rfl rfl⟩

/-! ### Comparisons -/

theorem combine_eq (r c : Bool) (k : BitVec 8) :
    combine (k &&& 3).toNat r c = if k &&& 3 = 1 then r && c else if k &&& 3 = 2 then r || c else r := by
  simp only [combine, ← BitVec.toNat_inj]
  rfl

/-- A comparison of two registers leaves its result, combined with C, in the predicate that D names (R126). -/
theorem eachFibre_cmpR {s : State} {i : Instr} {g : Guard} {x : RRR} {f : Form} (e : form i = some f) (hc : f.const = none)
    {holds : Nat → W64 → W64 → Bool} (hx : exec i s = issue i g .none (cmpR x holds) s)
    (hi : ∀ z, InRange i g z := by intro _ _ _ _ _; rfl) :
    EachFibre s i g (fun z _ y => y.setP (x.d.extractLsb' 0 4)
      (combine (x.opx &&& 3).toNat (holds (x.d.extractLsb' 4 4).toNat (opA x z.w y) (opB x z.w y)) (y.rp (x.c.extractLsb' 0 4)))) :=
  eachFibre e hc hx (fun _ _ => rfl) (fun _ _ _ => by simp only [srcX_begunWave]; rfl) hi

theorem fcmpHolds_eq (cc : Nat) (ty : BitVec 5) (ftz : Bool) (a b : W64) : fcmpHolds cc ty ftz a b
    = ccHolds cc (Flt.cmp ((fmtOf ty).value (a.toNat % 2 ^ tyWidth ty) ftz) ((fmtOf ty).value (b.toNat % 2 ^ tyWidth ty) ftz)) := rfl

/-- Codes 0 to 5 on an ordering of integers. -/
theorem ccHolds_compare (u v : Int) :
    ccHolds 0 (some (compare u v)) = decide (u = v) ∧ ccHolds 1 (some (compare u v)) = decide (u ≠ v)
      ∧ ccHolds 2 (some (compare u v)) = decide (u < v) ∧ ccHolds 3 (some (compare u v)) = decide (u ≤ v)
      ∧ ccHolds 4 (some (compare u v)) = decide (v < u) ∧ ccHolds 5 (some (compare u v)) = decide (v ≤ u) := by
  rcases lt_trichotomy u v with h | h | h
  · rw [compare_lt_iff_lt.2 h]
    simp [ccHolds, h.ne, h, h.le, h.not_gt, h.not_ge]
  · rw [compare_eq_iff_eq.2 h]
    simp [ccHolds, h]
  · rw [compare_gt_iff_gt.2 h]
    simp [ccHolds, h.ne', h, h.le, h.not_gt, h.not_ge]

/-- Values are ordered unless one is a NaN. -/
theorem cmp_isSome (u v : Flt) : (Flt.cmp u v).isSome = (!u.isNan && !v.isNan) := by
  cases u <;> cases v <;> rfl

theorem cmp_isNone (u v : Flt) : (Flt.cmp u v).isNone = (u.isNan || v.isNan) := by
  cases u <;> cases v <;> rfl

theorem scaled_zero (neg : Bool) (e e0 : Int) : scaled neg 0 e e0 = 0 := by
  cases neg <;> simp [scaled, signed]

/-- Zeros are equal whatever their signs (R126). -/
theorem cmp_zeros (m n : Bool) (e g : Int) : Flt.cmp (.fin m 0 e) (.fin n 0 g) = some .eq := by
  simp only [Flt.cmp, scaled_zero]
  rfl

/-- Settles O8: the meaning writes the combined comparison; the codes are read off the ordering of integers and of values. -/
theorem comparisonResults : Obligations.ComparisonResults := by
  refine ⟨⟨fun s g x => ?rrr, fun s g x => ⟨?_, ?_⟩, fun s g x => ?ri⟩, fun ty a b => ?ints, fun ty ftz a b => ?floats, cmp_zeros⟩
  case rrr =>
    simp only [← combine_eq]
    exact ⟨eachFibre_cmpR (holds := fun cc => icmpHolds cc x.ty) rfl rfl rfl,
      eachFibre_cmpR (holds := fun cc => fcmpHolds cc x.ty (x.opx.getLsbD 2)) rfl rfl rfl⟩
  case ri => exact eachFibre rfl rfl rfl (fun _ _ => rfl) (fun _ _ _ => rfl)
  case ints => exact ccHolds_compare (ival ty a) (ival ty b)
  case floats =>
    simp only [fcmpHolds_eq]
    exact ⟨rfl, rfl, rfl, rfl, rfl, rfl, cmp_isSome _ _, cmp_isNone _ _⟩
  all_goals exact eachFibreK rfl (fun _ _ _ => rfl)

end Sys2Proof.Machine
end

section
/-! SUPPORT. Instructions that fail a check of R100 at issue, and words of no assigned opcode (R99 to R101). -/

namespace Sys2Proof.Machine

/-- An instruction of the cores takes the common course of an issue, as each arm of the dispatch says; the other steps are events, which have
no form. -/
theorem exec_issues_of_form {i : Instr} (h : (form i).isSome = true) : ∃ g rel body, ∀ s, exec i s = issue i g rel body s := by
  cases i
  all_goals first
    | exact ⟨_, _, _, fun _ => rfl⟩
    | exact absurd h Bool.false_ne_true

/-- So does a word of no assigned opcode. -/
theorem exec_issues {i : Instr} (h : (form i).isSome = true ∨ ∃ w, i = .unassignedOpcode w) :
    ∃ g rel body, ∀ s, exec i s = issue i g rel body s := by
  obtain h | ⟨w, rfl⟩ := h
  · exact exec_issues_of_form h
  · exact ⟨{ gp := 0, gs := 0 }, .none, fun _ s => s, fun _ => rfl⟩

theorem issue_noBundle {s : State} (hcur : s.cur = none) (i : Instr) (g : Guard) (rel : Rel) (body : Bundle → State → State) :
    issue i g rel body s = .fault .noBundle := by
  unfold issue
  rw [hcur]

/-- A check of R100 that fails at issue. -/
structure Fails (s : State) (i : Instr) (z : Site) (sub : BitVec 16) : Prop where
  cur : s.cur = some z.wk
  wave : sget z.wk s.waves = some z.w
  clause : z.w.clause = some z.c
  launch : sget z.w.launch s.launches = some z.l
  started : z.c.started = true
  slots : z.c.slots ≠ []
  form : z.f = (Machine.form i).getD { cls := 0 }
  check : formError z.l i (bits z.c.header.toNat 16 4) (z.c.idx = z.c.words.length - 1) [] = some sub

/-- It traps as an illegal instruction, whatever its guard and its meaning (R101). -/
theorem issue_illegal {s : State} {i : Instr} {z : Site} {sub : BitVec 16} (h : Fails s i z sub) (g : Guard) (rel : Rel)
    (body : Bundle → State → State) : issue i g rel body s = .next (illegal s (z.bundle g) z.w sub) := by
  have hsl : z.c.slots.isEmpty = false := by simpa using h.slots
  unfold issue
  rw [h.cur]
  dsimp only
  rw [h.wave]
  dsimp only
  rw [h.clause, h.launch]
  simp only [h.started, hsl, Bool.not_true, Bool.or_false, Bool.false_eq_true, if_false]
  rw [h.check, ← h.form]
  rfl

/-! ### The trap of the bundle's one fibre -/

theorem inOrder_single {c : Clause} {x : Nat} (hc : c.slots = [x]) (hx : x < 32) : c.inOrder = [x] := by
  refine List.perm_singleton.1 ?_
  refine (List.perm_ext_iff_of_nodup (List.nodup_range.filter _) (List.nodup_singleton x)).2 fun y => ?_
  simp only [hc, List.mem_filter, List.mem_range, List.contains_iff_mem, List.mem_singleton]
  omega

/-- Counting an issue changes the core alone. -/
theorem countIssue_eq (s : State) (k : Nat) (w : Wave) : countIssue s k w = { s with cores := (countIssue s k w).cores } := by
  unfold countIssue
  split <;> rfl

/-- The state in which the fibres of an illegal bundle take their traps: the bundle has passed the instruction, and the core's clock has an
issue more. -/
def illegalBegun (s : State) (z : Site) (b : Bundle) : State := beginIssue (countIssue s b.wk z.w) b

/-- The bundle's wave in that state. -/
def illegalWave (z : Site) (b : Bundle) : Wave := { begunWave z.w b with page := z.w.page }

theorem illegalBegun_eq (s : State) (z : Site) (b : Bundle) : illegalBegun s z b
    = { s with cores := (countIssue s b.wk z.w).cores, waves := (illegalBegun s z b).waves } := by
  unfold illegalBegun
  rw [countIssue_eq]
  rfl

theorem illegalBegun_waves (s : State) (z : Site) (b : Bundle) : (illegalBegun s z b).waves
    = smod b.wk (fun w => { begunWave w b with page := w.page }) s.waves := by
  unfold illegalBegun
  rw [countIssue_eq]
  rfl

/-- It is the state before in all but waves and cores. -/
theorem illegalBegun_part (s : State) (z : Site) (b : Bundle) {α : Type} (p : State → α)
    (hp : ∀ t cores waves, p { t with cores := cores, waves := waves } = p t) : p (illegalBegun s z b) = p s := by
  rw [illegalBegun_eq, hp]

/-- Of a core it keeps what an issue leaves. -/
theorem illegalBegun_core (s : State) (z : Site) (b : Bundle) (n : Nat) {α : Type} (p : Core → α) (hp : ∀ k, p k.calm = p k) :
    p (coreOf (illegalBegun s z b) n) = p (coreOf s n) := by
  have h : (coreOf (illegalBegun s z b) n).calm = (coreOf s n).calm := countIssue_calm s b.wk z.w n
  rw [← hp, h, hp]

/-- The bundle of a site as an illegal instruction issues: no fibre of it counts the instruction (R101). -/
def Site.refused (z : Site) (g : Guard) : Bundle := { z.bundle g with act := [] }

theorem refused_all {z : Site} {x : Nat} (hc : z.c.slots = [x]) (hx : x < 32) (g : Guard) : (z.refused g).all = [x] := inOrder_single hc hx

/-- A bundle of one fibre that is illegal is one trap. -/
theorem illegal_eq {z : Site} {x : Nat} (hc : z.c.slots = [x]) (hx : x < 32) (s : State) (g : Guard) (sub : BitVec 16) :
    illegal s (z.bundle g) z.w sub = endIssue (trap (illegalBegun s z (z.refused g)) z.wk x (z.refused g).here
      (illegalCause (z.refused g).word sub)) (z.refused g) := by
  have h : illegal s (z.bundle g) z.w sub = endIssue (trapAll (illegalBegun s z (z.refused g)) z.wk (z.refused g).here (z.refused g).all
      (illegalCause (z.refused g).word sub)) (z.refused g) := rfl
  rw [h, refused_all hc hx]
  rfl

section

variable {s : State} {i : Instr} {z : Site} {sub : BitVec 16} (h : Fails s i z sub) (g : Guard)
include h

theorem illegalBegun_wave : sget z.wk (illegalBegun s z (z.refused g)).waves = some (illegalWave z (z.refused g)) := by
  rw [illegalBegun_waves, show (z.refused g).wk = z.wk from rfl, sget_smod_self, h.wave]
  rfl

theorem illegalBegun_ctxOf : ctxOf (illegalBegun s z (z.refused g)) z.wk = ctxOf s z.wk := by
  unfold ctxOf launchOf
  rw [illegalBegun_wave h, h.wave, illegalBegun_eq]
  rfl

theorem illegalBegun_gangOf : gangOf (illegalBegun s z (z.refused g)) z.wk = gangOf s z.wk := by
  unfold gangOf gangKey
  rw [illegalBegun_wave h, h.wave, illegalBegun_eq]
  rfl

/-- The trap is delivered as any other (R426). -/
theorem illegal_traps {x : Nat} {y : Fibre} {reach : List (Nat × Nat)} (hc : z.c.slots = [x]) (hx : x < 32)
    (hy : sget x z.w.fibres = some y) (ho : Open s) (ht : CanTrap s z x y reach) :
    Trapped s (illegal s (z.bundle g) z.w sub) z (z.refused g) x y (illegalCause (z.refused g).word sub) reach := by
  have hall : (z.refused g).all.contains x = true := by rw [refused_all hc hx, List.contains_iff_mem, List.mem_singleton]
  have hlen : reach.length = 128 := by simpa [addrs] using congrArg List.length ht.place
  have hopen : Open (illegalBegun s z (z.refused g)) := by rw [illegalBegun_eq]; exact ⟨ho.windows, ho.ops, ho.reqs⟩
  have hpart {α : Type} (p : State → α) := illegalBegun_part s z (z.refused g) p
  have hcore {α : Type} (p : Core → α) := illegalBegun_core s z (z.refused g) (coreNo z.wk) p
  have hmem := hpart State.mem fun _ _ _ => rfl
  have hgangs := hpart State.gangs fun _ _ _ => rfl
  have hcontexts := hpart State.contexts fun _ _ _ => rfl
  have hW := illegalBegun_wave h g
  have hf : sget x (illegalWave z (z.refused g)).fibres = some (passed z.w (z.refused g) x y) := by
    rw [show (illegalWave z (z.refused g)).fibres = (begunWave z.w (z.refused g)).fibres from rfl, begunWave_fibre, hy, Option.map_some, if_pos hall]
  have hgoes := trap_goes (r := (z.refused g).here) (c := illegalCause (z.refused g).word sub) ht hopen hmem hgangs (illegalBegun_gangOf h g)
    (illegalBegun_ctxOf h g) hcontexts (hcore Core.regions fun _ => rfl) (hcore Core.tlb fun _ => rfl) (hcore Core.clock fun _ => rfl) hW hf rfl rfl
    (passed_recs ..) (passed_ct ..) (passed_lfi ..) (passed_rv _ _ _ _) (passed_vp _ _ _ _) (passed_pred ..)
  rw [illegal_eq hc hx]
  refine trapped_of hopen hmem rfl hW rfl rfl rfl (fun j hj => ?_)
    ⟨hpart State.launches fun _ _ _ => rfl, hgangs, hcontexts, hpart State.ctl fun _ _ _ => rfl⟩ h.clause hy hall hlen hgoes
  rw [illegalBegun_waves]
  exact sget_smod_ne hj _ _

end

/-- Settles O56: the check fails before guard and meaning are looked at, and the bundle's fibre is delivered to its handler. -/
theorem illegalInstructionsTrap : Obligations.IllegalInstructionsTrap := by
  refine ⟨?_, fun _ _ _ _ => rfl, fun s i hi hcur => ?_⟩
  · intro s i g z x y sub reach hi hcur hw hcl hl hst hslots hx hy hf hcheck ho ht
    have h : Fails s i z sub := ⟨hcur, hw, hcl, hl, hst, by simp [hslots], hf, hcheck⟩
    obtain ⟨g', rel, body, hexec⟩ := exec_issues hi
    exact ⟨illegal s (z.bundle g) z.w sub, (hexec s).trans (issue_illegal h g' rel body), illegal_traps h g hslots hx hy ho ht⟩
  · obtain ⟨g, rel, body, hexec⟩ := exec_issues hi
    rw [hexec, issue_noBundle hcur]

end Sys2Proof.Machine
end

section
/-! SUPPORT. Integer arithmetic, division, carries and addresses of the RRR form: each passing fibre gets the exact result, wrapped or clamped
(R119 to R123). -/

namespace Sys2Proof.Machine

/-! ### Widths -/

theorem tyWidth_pos (ty : BitVec 5) : 0 < tyWidth ty := by
  unfold tyWidth tyBytes
  split_ifs <;> decide

theorem tyWidth_le (ty : BitVec 5) : tyWidth ty ≤ 64 := by
  unfold tyWidth tyBytes
  split_ifs <;> decide

/-! ### Results modulo a power of two (R57) -/

theorem wrap_eq_ofInt (w : Nat) (v : Int) : wrap w v = (BitVec.ofInt w v).toNat := (BitVec.toNat_ofInt v).symm

theorem ofNat_wrap (v : Int) : BitVec.ofNat 64 (wrap 64 v) = BitVec.ofInt 64 v := by
  rw [wrap_eq_ofInt, BitVec.ofNat_toNat, BitVec.setWidth_eq]

/-- An integer result is taken modulo 2^w. -/
theorem ires_add_two_pow (ty : BitVec 5) (v : Int) : ires ty false (v + (2 ^ tyWidth ty : Nat)) = ires ty false v := by
  simp only [ires, wrap, Bool.false_eq_true, if_false, Int.add_emod_right]

/-- The quotient of a division by 0 has all bits set (R121). -/
theorem ires_allOnes (ty : BitVec 5) : ires ty false (2 ^ tyWidth ty - 1) = ires ty false (-1) := by
  rw [← ires_add_two_pow ty (-1), Nat.cast_pow, Nat.cast_ofNat, neg_add_eq_sub]

/-- The most negative value of a type is its own negative (R121). -/
theorem ires_neg_most_negative (ty : BitVec 5) :
    ires ty false (2 ^ (tyWidth ty - 1) : Nat) = ires ty false (-(2 ^ (tyWidth ty - 1) : Nat)) := by
  have htwice : 2 ^ tyWidth ty = 2 ^ (tyWidth ty - 1) + 2 ^ (tyWidth ty - 1) := by
    rw [← mul_two, ← pow_succ, Nat.sub_add_cancel (tyWidth_pos ty)]
  rw [← ires_add_two_pow ty (-(2 ^ (tyWidth ty - 1) : Nat)), htwice, Nat.cast_add, neg_add_cancel_left]

/-! ### Division toward zero (R121) -/

/-- The remainder has the sign of the dividend. -/
theorem tmod_nonpos {a : Int} (b : Int) (h : a ≤ 0) : a.tmod b ≤ 0 := by
  have hneg := Int.tmod_nonneg b (Int.neg_nonneg_of_nonpos h)
  rw [Int.neg_tmod] at hneg
  omega

theorem natAbs_tmod_lt (a : Int) {b : Int} (h : b ≠ 0) : (a.tmod b).natAbs < b.natAbs := by
  rw [Int.natAbs_tmod]
  exact Nat.mod_lt _ (Int.natAbs_pos.2 h)

/-! ### Carries and addresses (R122, R123) -/

theorem subBorrow_eq (w a b : Nat) (cin : Bool) : subBorrow w a b cin =
    ((((a % 2 ^ w : Nat) - (b % 2 ^ w : Nat) - (if cin then 1 else 0 : Nat) : Int) % (2 ^ w : Nat)).toNat,
      decide (((a % 2 ^ w : Nat) - (b % 2 ^ w : Nat) - (if cin then 1 else 0 : Nat) : Int) < 0)) := by
  cases cin <;> rfl

/-- The low word of a pair. -/
theorem extractLsb'_zero_eq (v : W64) : v.extractLsb' 0 32 = v.setWidth 32 := by
  ext i hi
  simp

/-- `addc` and `subb` write a result and a predicate (R122). -/
theorem eachFibre_carryOp {s : State} {i : Instr} {g : Guard} {x : RRR} {f : Form} (e : form i = some f) (hc : f.const = none)
    {op : Nat → Nat → Nat → Bool → Nat × Bool} (hx : exec i s = issue i g .none (carryOp x op) s)
    (hi : ∀ z, InRange i g z := by intro _ _ _ _ _; rfl) :
    EachFibre s i g (fun z _ y =>
      let r := op (tyWidth x.ty) (opA x z.w y).toNat (opB x z.w y).toNat (x.opx.getLsbD 4 && y.rp (x.c.extractLsb' 0 4))
      (putD x (BitVec.ofNat 64 r.1) y).setP (x.opx.extractLsb' 0 4) r.2) :=
  eachFibre e hc hx (fun _ _ => rfl) (fun _ _ _ => by simp only [srcX_begunWave]; rfl) hi

theorem leaValue_eq (ty : BitVec 5) (sh : Nat) (a b : W64) : leaValue ty sh a b
    = a + (if ty == 2 then (b.setWidth 32).signExtend 64 else if ty == 6 then (b.setWidth 32).setWidth 64 else b) <<< sh := by
  rw [leaValue, extractLsb'_zero_eq]

/-- The shift of `lea` and `glea` has 6 bits. -/
theorem leaShift_eq (x : RRR) : (x.opx.extractLsb' 0 6).toNat = x.opx.toNat % 64 := by
  rw [BitVec.extractLsb'_toNat, Nat.shiftRight_zero]

/-- The index of `lea` is a register of 32 bits, extended by sign or zeros, or a pair (R123). -/
theorem leaIndex_eq (x : RRR) (w : Wave) (y : Fibre) :
    let b := srcX w y (x.usrc.getLsbD 1) (x.ty == 9) x.b
    (if x.ty == 2 then (b.setWidth 32).signExtend 64 else if x.ty == 6 then (b.setWidth 32).setWidth 64 else b)
      = if x.ty == 2 then ((oneB x w y).setWidth 32).signExtend 64 else if x.ty == 6 then ((oneB x w y).setWidth 32).setWidth 64 else b := by
  dsimp only
  by_cases h2 : x.ty = 2
  · rw [h2]
    rfl
  · by_cases h6 : x.ty = 6
    · rw [h6]
      rfl
    · simp only [beq_eq_false_iff_ne.2 h2, beq_eq_false_iff_ne.2 h6, Bool.false_eq_true, if_false]

/-- Settles O1: each operation is the exact one, wrapped or clamped. -/
theorem integerArithmeticResults : Obligations.IntegerArithmeticResults := by
  intro s g x
  refine ⟨?iadd, ?isub, ?imul, ?imulhi, ?imad, ?imadw, ?imin, ?imax, ?iabs, ?ineg⟩
  case iadd => exact eachFibre_alu rfl rfl (op := opAdd (x.opx.getLsbD 0)) rfl (fun _ _ _ _ _ => rfl)
  case isub => exact eachFibre_alu rfl rfl (op := opSub (x.opx.getLsbD 0)) rfl (fun _ _ _ _ _ => rfl)
  case imul => exact eachFibre_alu rfl rfl (op := opMul) rfl (fun _ _ _ _ _ => rfl)
  case imulhi => exact eachFibre_alu rfl rfl (op := opMulHi) rfl (fun _ _ _ _ _ => rfl)
  case imad => exact eachFibre_alu rfl rfl (op := opMad) rfl (fun _ _ _ _ _ => rfl)
  case imadw => exact eachFibre rfl rfl rfl (fun _ _ => rfl) (fun _ _ _ => by simp only [srcX_begunWave, ofNat_wrap]; rfl)
  case imin => exact eachFibre_alu rfl rfl (op := opMin) rfl (fun _ _ _ _ _ => rfl)
  case imax => exact eachFibre_alu rfl rfl (op := opMax) rfl (fun _ _ _ _ _ => rfl)
  case iabs =>
    simp only [Int.abs_eq_natAbs]
    exact eachFibre_alu rfl rfl (op := opAbs (x.opx.getLsbD 0)) rfl (fun _ _ _ _ _ => rfl)
  case ineg => exact eachFibre_alu rfl rfl (op := opNeg (x.opx.getLsbD 0)) rfl (fun _ _ _ _ _ => rfl)

/-- Settles O2: the meaning divides toward zero; 2^w - 1 and -1 are one result, and so are the most negative value and its negative. -/
theorem divisionNeverTraps : Obligations.DivisionNeverTraps := by
  refine ⟨fun s g x => ⟨?idiv, ?irem⟩, fun a b hb => ?toward, fun ty hty => ?most⟩
  case idiv =>
    simp only [ires_allOnes]
    exact eachFibre_alu rfl rfl (op := opDiv) rfl (fun _ _ _ _ _ => rfl)
  case irem => exact eachFibre_alu rfl rfl (op := opRem) rfl (fun _ _ _ _ _ => rfl)
  case toward => exact ⟨(Int.mul_tdiv_add_tmod a b).symm, natAbs_tmod_lt a hb, Int.tmod_nonneg b, tmod_nonpos b⟩
  case most =>
    rw [Int.tdiv_neg, Int.tdiv_one, neg_neg, Int.tmod_neg, Int.tmod_one]
    exact ⟨ires_neg_most_negative ty, by simp [ires, wrap]⟩

/-- Settles O3: sum, difference and address are the meaning's own, the index of `lea` read as its type says. -/
theorem carryAndAddressResults : Obligations.CarryAndAddressResults := by
  intro s g x
  refine ⟨⟨?addc, ?subb⟩, ?lea⟩
  case addc => exact eachFibre_carryOp rfl rfl (op := addCarry) rfl
  case subb =>
    have h := eachFibre_carryOp (s := s) (i := .subb g x) (g := g) (x := x) rfl rfl (op := subBorrow) rfl
    simpa only [subBorrow_eq] using h
  case lea =>
    exact eachFibre rfl rfl rfl (fun _ _ => rfl) (fun _ _ _ => by simp only [srcX_begunWave, leaValue_eq, leaShift_eq, leaIndex_eq])

end Sys2Proof.Machine
end

section
/-! SUPPORT. What the bits of a result are: integers of a type read and wrapped, shifted, rotated and taken apart (R57, R124, R125). -/

namespace Sys2Proof.Machine

/-! ### Integers as words -/

/-- The low bits read by sign are the word's signed integer (R57). -/
theorem toInt_signed (w x : Nat) : toInt true w x = (BitVec.ofNat w x).toInt := by
  rw [BitVec.toInt_eq_msb_cond, BitVec.msb_eq_getLsbD_last, ← BitVec.testBit_toNat, BitVec.toNat_ofNat]
  simp [toInt]

theorem toInt_unsigned (w x : Nat) : toInt false w x = ((x % 2 ^ w : Nat) : Int) := by simp [toInt]

/-- A shift to the right moves the low bits of a wider wrap down. -/
theorem wrap_div_two_pow (n p : Nat) (v : Int) : wrap n (v / (2 ^ p : Nat)) = wrap (n + p) v / 2 ^ p := by
  have hp : (0 : Int) < (2 ^ p : Nat) := by positivity
  have hmod : v / (2 ^ p : Nat) % (2 ^ n : Nat) = v % (2 ^ (n + p) : Nat) / (2 ^ p : Nat) := by
    rw [pow_add, Nat.cast_mul, Int.emod_def v, sub_eq_add_neg, mul_comm ((2 ^ n : Nat) : Int), mul_assoc, ← mul_neg,
      Int.add_mul_ediv_left _ _ hp.ne', Int.emod_def, Int.ediv_ediv_of_nonneg hp.le, sub_eq_add_neg]
  have hr : v % (2 ^ (n + p) : Nat) = (wrap (n + p) v : Nat) := (Int.toNat_of_nonneg (Int.emod_nonneg _ (by positivity))).symm
  rw [wrap, hmod, hr, ← Int.natCast_ediv, Int.toNat_natCast]

/-- Bit j of an integer of `w` bits shifted to the right by `p`: a bit of the word, or beyond it the sign's for signed integers. -/
theorem testBit_wrap_shifted {sgn : Bool} {w n j : Nat} (hw : 0 < w) (hj : j < n) (x p : Nat) :
    (wrap n (toInt sgn w x / (2 ^ p : Nat))).testBit j = if j + p < w then x.testBit (j + p) else sgn && x.testBit (w - 1) := by
  rw [wrap_div_two_pow, Nat.testBit_div_two_pow]
  have hjp : j + p < n + p := by omega
  cases sgn with
  | true =>
    rw [toInt_signed, wrap_eq_ofInt, BitVec.testBit_toNat, ← BitVec.signExtend, BitVec.getLsbD_signExtend, BitVec.msb_eq_getLsbD_last]
    have hlast : w - 1 < w := by omega
    simp only [BitVec.getLsbD_ofNat, hjp, hlast, decide_true, Bool.true_and]
    split
    · next h => rw [decide_eq_true h, Bool.true_and]
    · rfl
  | false =>
    rw [toInt_unsigned, wrap, ← Int.natCast_emod, Int.toNat_natCast, Nat.testBit_mod_two_pow, Nat.testBit_mod_two_pow]
    by_cases h : j + p < w <;> simp [h, hjp]

/-- The same of an integer that is not shifted. -/
theorem testBit_wrap {sgn : Bool} {w n j : Nat} (hw : 0 < w) (hj : j < n) (x : Nat) :
    (wrap n (toInt sgn w x)).testBit j = if j < w then x.testBit j else sgn && x.testBit (w - 1) := by
  simpa using testBit_wrap_shifted (sgn := sgn) hw hj x 0

/-! ### Fields, counts and reversal (R124, R125) -/

/-- A word made of a number has the number's bits. -/
theorem getLsbD_result {ty : BitVec 5} {j : Nat} (hj : j < tyWidth ty) (n : Nat) : (BitVec.ofNat 64 n).getLsbD j = n.testBit j := by
  rw [BitVec.getLsbD_ofNat, decide_eq_true (lt_of_lt_of_le hj (tyWidth_le ty)), Bool.true_and]

theorem testBit_nval (ty : BitVec 5) (a : W64) (j : Nat) : (nval ty a).testBit j = (decide (j < tyWidth ty) && a.getLsbD j) := by
  rw [nval, Nat.testBit_mod_two_pow, BitVec.testBit_toNat]

theorem shiftCount_eq (b : W64) : shiftCount b = b.toNat % 256 := by
  rw [shiftCount, bits, pow_zero, Nat.div_one]
  rfl

theorem reversed_lt (x n : Nat) : reversed x n < 2 ^ n := by
  induction n generalizing x with
  | zero => exact Nat.one_pos
  | succ n ih =>
    have hlow := ih (x / 2)
    have hbit : x % 2 * 2 ^ n ≤ 1 * 2 ^ n := Nat.mul_le_mul_right _ (by omega)
    rw [reversed, pow_succ]
    omega

theorem testBit_reversed {n i : Nat} (hi : i < n) (x : Nat) : (reversed x n).testBit i = x.testBit (n - 1 - i) := by
  induction n generalizing x with
  | zero => omega
  | succ n ih =>
    rw [reversed, add_comm, mul_comm, Nat.testBit_two_pow_mul_add _ (reversed_lt _ _)]
    rcases Nat.lt_succ_iff_lt_or_eq.1 hi with h | rfl
    · rw [if_pos h, ih h, ← Nat.testBit_succ]
      congr 1
      omega
    · simp

theorem fieldOf_eq (ty : BitVec 5) (b : W64) : fieldOf ty b = (b.toNat % 256, min (b.toNat / 256 % 256) (tyWidth ty)) := by
  rw [fieldOf, bits, pow_zero, Nat.div_one]
  rfl

section

variable {ty : BitVec 5} {j : Nat} (hj : j < tyWidth ty) (a b c : W64)
include hj

/-! ### The values of shifts and rotations (R124) -/

theorem getLsbD_opShl : (opShl ty a b c).getLsbD j = (decide (shiftCount b ≤ j) && a.getLsbD (j - shiftCount b)) := by
  have hjk : j - shiftCount b < tyWidth ty := by omega
  rw [opShl, getLsbD_result hj, Nat.testBit_mod_two_pow, Nat.testBit_mul_two_pow, testBit_nval, decide_eq_true hj, decide_eq_true hjk,
    Bool.true_and, Bool.true_and]

theorem getLsbD_opShr : (opShr ty a b c).getLsbD j = (decide (j + shiftCount b < tyWidth ty) && a.getLsbD (j + shiftCount b)) := by
  rw [opShr, getLsbD_result hj, Nat.testBit_div_two_pow, testBit_nval]

theorem getLsbD_opSar : (opSar ty a b c).getLsbD j = a.getLsbD (min (j + shiftCount b) (tyWidth ty - 1)) := by
  rw [opSar, getLsbD_result hj, testBit_wrap_shifted (tyWidth_pos ty) hj, BitVec.testBit_toNat, BitVec.testBit_toNat, Bool.true_and, ← apply_ite]
  congr 1
  split <;> omega

/-- A rotation is the word's low part moved up and its high part below it. -/
theorem getLsbD_opRot : (opRot ty a b c).getLsbD ((j + shiftCount b) % tyWidth ty) = a.getLsbD j := by
  have hw := tyWidth_pos ty
  rw [← Nat.add_mod_mod, opRot, getLsbD_result (Nat.mod_lt _ hw)]
  have hk := Nat.mod_lt (shiftCount b) hw
  generalize shiftCount b % tyWidth ty = k at hk ⊢
  have hpow : 2 ^ k * 2 ^ (tyWidth ty - k) = 2 ^ tyWidth ty := by rw [← pow_add, Nat.add_sub_cancel' hk.le]
  have hlow : nval ty a / 2 ^ (tyWidth ty - k) < 2 ^ k := by
    rw [Nat.div_lt_iff_lt_mul (Nat.two_pow_pos _), hpow]
    exact Nat.mod_lt _ (Nat.two_pow_pos _)
  have hhigh : nval ty a * 2 ^ k % 2 ^ tyWidth ty = 2 ^ k * (nval ty a % 2 ^ (tyWidth ty - k)) := by
    rw [mul_comm, ← hpow, Nat.mul_mod_mul_left]
  rw [hhigh, Nat.testBit_two_pow_mul_add _ hlow, Nat.testBit_div_two_pow, Nat.testBit_mod_two_pow, testBit_nval, testBit_nval]
  rcases lt_or_ge (j + k) (tyWidth ty) with h | h
  · rw [Nat.mod_eq_of_lt h, if_neg (by omega), Nat.add_sub_cancel, decide_eq_true hj, decide_eq_true (by omega), Bool.true_and, Bool.true_and]
  · rw [Nat.mod_eq_sub_mod h, Nat.mod_eq_of_lt (by omega), if_pos (by omega), show j + k - tyWidth ty + (tyWidth ty - k) = j by omega,
      decide_eq_true hj, Bool.true_and]

/-! ### The values of reversal and bit fields (R125) -/

theorem getLsbD_opBrev : (opBrev ty a b c).getLsbD j = a.getLsbD (tyWidth ty - 1 - j) := by
  rw [opBrev, getLsbD_result hj, testBit_reversed hj, testBit_nval, decide_eq_true (by omega), Bool.true_and]

theorem getLsbD_opBfx : (opBfx ty a b c).getLsbD j =
    (let (pos, len) := fieldOf ty b
     if len = 0 then false
     else
      let k := if isSigned ty then min j (len - 1) else j
      if len ≤ k then false
      else if pos + k < tyWidth ty then a.getLsbD (pos + k) else isSigned ty && a.getLsbD (tyWidth ty - 1)) := by
  rw [opBfx]
  dsimp only
  generalize fieldOf ty b = p
  obtain ⟨pos, len⟩ := p
  dsimp only
  rcases Nat.eq_zero_or_pos len with rfl | hlen
  · simp
  rw [if_neg hlen.ne', if_neg hlen.ne', getLsbD_result hj, testBit_wrap hlen hj, ival]
  have hfield {i : Nat} (hi : i < len) := testBit_wrap_shifted (sgn := isSigned ty) (tyWidth_pos ty) hi a.toNat pos
  simp only [BitVec.testBit_toNat] at hfield
  rcases lt_or_ge j len with h | h
  · have hk : (if isSigned ty = true then min j (len - 1) else j) = j := by split <;> omega
    rw [if_pos h, hfield h, hk, if_neg (show ¬len ≤ j by omega), add_comm]
  · rw [if_neg (by omega), hfield (by omega)]
    cases isSigned ty with
    | false => simp [h]
    | true =>
      have hk : min j (len - 1) = len - 1 := by omega
      simp only [Bool.true_and, if_true, hk]
      rw [if_neg (show ¬len ≤ len - 1 by omega), add_comm]

theorem getLsbD_opBfi : (opBfi ty a b c).getLsbD j =
    (let (pos, len) := fieldOf ty c
     if pos ≤ j ∧ j < pos + len then b.getLsbD (j - pos) else a.getLsbD j) := by
  rw [opBfi]
  dsimp only
  generalize fieldOf ty c = p
  obtain ⟨pos, len⟩ := p
  dsimp only
  have hm (i : Nat) : ((2 ^ len - 1) * 2 ^ pos % 2 ^ tyWidth ty).testBit i
      = (decide (i < tyWidth ty) && (decide (pos ≤ i) && decide (i - pos < len))) := by
    rw [Nat.testBit_mod_two_pow, Nat.testBit_mul_two_pow, Nat.testBit_two_pow_sub_one]
  have hlt := Nat.mod_lt ((2 ^ len - 1) * 2 ^ pos) (Nat.two_pow_pos (tyWidth ty))
  generalize (2 ^ len - 1) * 2 ^ pos % 2 ^ tyWidth ty = m at hm hlt
  change (BitVec.ofNat 64 (nval ty a &&& (2 ^ tyWidth ty - 1 - m) ||| b.toNat * 2 ^ pos &&& m)).getLsbD j = _
  rw [getLsbD_result hj, Nat.testBit_lor, Nat.testBit_land, Nat.testBit_land, Nat.sub_sub, Nat.add_comm 1, Nat.testBit_two_pow_sub_succ hlt,
    testBit_nval, Nat.testBit_mul_two_pow, hm, BitVec.testBit_toNat, decide_eq_true hj]
  by_cases hin : pos ≤ j ∧ j < pos + len
  · have hlen : j - pos < len := by omega
    simp [hin, hlen]
  · have hout : ¬(pos ≤ j ∧ j - pos < len) := by omega
    rw [if_neg hin, ← Bool.decide_and, decide_eq_false hout]
    simp

end

/-! ### The instructions -/

/-- An RRR instruction with an operation on A and one register as B gives each passing fibre that operation's result. -/
theorem eachFibre_aluB {s : State} {i : Instr} {g : Guard} {x : RRR} {f : Form} (e : form i = some f) (hc : f.const = none) {op : AluOp}
    (hx : exec i s = issue i g .none (aluB x op) s) (hi : ∀ z, InRange i g z := by intro _ _ _ _ _; rfl) :
    EachFibre s i g (fun z _ y => putD x (op x.ty (opA x z.w y) (oneB x z.w y) 0) y) :=
  eachFibre e hc hx (fun _ _ => rfl) (fun _ _ _ => by simp only [srcX_begunWave]; rfl) hi

/-- An RRR instruction with an operation on A alone gives each passing fibre that operation's low word. -/
theorem eachFibre_aluN {s : State} {i : Instr} {g : Guard} {x : RRR} {f : Form} (e : form i = some f) (hc : f.const = none) {op : AluOp}
    (hx : exec i s = issue i g .none (aluN x op) s) (hi : ∀ z, InRange i g z := by intro _ _ _ _ _; rfl) :
    EachFibre s i g (fun z _ y => y.setV x.d.toNat ((op x.ty (opA x z.w y) 0 0).setWidth 32)) :=
  eachFibre e hc hx (fun _ _ => rfl) (fun _ _ _ => by simp only [srcX_begunWave, ← extractLsb'_zero_eq]; rfl) hi

/-- Settles O4: the meaning is the operation on the operands, and each bit of the operation's value is one of the source's. -/
theorem bitwiseResults : Obligations.BitwiseResults := by
  refine ⟨fun s g x => ⟨?andB, ?orB, ?xorB, ?notB, ?shl, ?shr, ?sar, ?rot, ?popc, ?clz, ?brev, ?bfx, ?bfi⟩, fun ty _ a b => ?shifts,
    fun ty _ a j hj => getLsbD_opBrev hj a 0 0, fun ty _ a b j hj => ?field, fun ty _ a b c j hj => ?insert⟩
  case andB => exact eachFibre_alu rfl rfl (op := opAnd) rfl (fun _ _ _ _ _ => rfl)
  case orB => exact eachFibre_alu rfl rfl (op := opOr) rfl (fun _ _ _ _ _ => rfl)
  case xorB => exact eachFibre_alu rfl rfl (op := opXor) rfl (fun _ _ _ _ _ => rfl)
  case notB => exact eachFibre_alu rfl rfl (op := opNot) rfl (fun _ _ _ _ _ => rfl)
  case shl => exact eachFibre_aluB rfl rfl (op := opShl) rfl
  case shr => exact eachFibre_aluB rfl rfl (op := opShr) rfl
  case sar => exact eachFibre_aluB rfl rfl (op := opSar) rfl
  case rot => exact eachFibre_aluB rfl rfl (op := opRot) rfl
  case popc => exact eachFibre_aluN rfl rfl (op := opPopc) rfl
  case clz => exact eachFibre_aluN rfl rfl (op := opClz) rfl
  case brev => exact eachFibre_alu rfl rfl (op := opBrev) rfl (fun _ _ _ _ _ => rfl)
  case bfx => exact eachFibre_aluB rfl rfl (op := opBfx) rfl
  case bfi => exact eachFibre rfl rfl rfl (fun _ _ => rfl) (fun _ _ _ => by simp only [srcX_begunWave]; rfl)
  case shifts =>
    intro w k j hj
    rw [show k = shiftCount b from (shiftCount_eq b).symm]
    exact ⟨getLsbD_opShl hj a b 0, getLsbD_opShr hj a b 0, getLsbD_opSar hj a b 0, getLsbD_opRot hj a b 0⟩
  case field => rw [getLsbD_opBfx hj, fieldOf_eq]
  case insert => rw [getLsbD_opBfi hj, fieldOf_eq]

end Sys2Proof.Machine
end

section
/-! SUPPORT. Float functions, classification and conversions: each fibre gets the function of its format on its own operand (R132, R134, R135,
R137, R138); invalid operations give the canonical NaN (R49, R131). -/

namespace Sys2Proof.Machine

/-! ### Placed results -/

/-- A narrow integer is extended by sign in its register (R137). -/
theorem ofNat_wrap_toInt (w v : Nat) : BitVec.ofNat 64 (wrap 32 (toInt true w v)) = ((BitVec.ofNat w v).signExtend 32).setWidth 64 := by
  rw [toInt_signed, wrap_eq_ofInt, BitVec.ofNat_toNat]
  rfl

theorem cvtPlaced_eq (td : BitVec 5) (v : Nat) : cvtPlaced td v =
    if td == 0 then ((BitVec.ofNat 8 v).signExtend 32).setWidth 64
    else if td == 1 then ((BitVec.ofNat 16 v).signExtend 32).setWidth 64 else BitVec.ofNat 64 v := by
  unfold cvtPlaced
  by_cases h0 : td = 0
  · subst h0
    exact ofNat_wrap_toInt 8 v
  · by_cases h1 : td = 1
    · subst h1
      exact ofNat_wrap_toInt 16 v
    · simp only [beq_eq_false_iff_ne.2 h0, beq_eq_false_iff_ne.2 h1, Bool.or_self, Bool.false_eq_true, if_false]

/-- A result in the low word of a register. -/
theorem setX_false (y : Fibre) (r : Nat) (n : Nat) : y.setX false r (BitVec.ofNat 64 n) = y.setV r (BitVec.ofNat 32 n) := by
  rw [← ofNat_low]
  rfl

/-- The two bytes of `f8pk` above or below the half of C that stays (R138). -/
theorem f8pkValue_eq (x : RRR) (a b c : W64) : f8pkValue x a b c =
    (let e (v : W64) : Nat := convert x.ty 0xB (rndOf x) (x.opx.getLsbD 1) (x.opx.getLsbD 1) false v.toNat
     let two := e a + 256 * e b
     BitVec.ofNat 64 (if x.opx.getLsbD 0 then c.toNat % 2 ^ 16 + 2 ^ 16 * two else c.toNat / 2 ^ 16 % 2 ^ 16 * 2 ^ 16 + two)) := by
  unfold f8pkValue bits
  rw [pow_zero, Nat.div_one]
  rfl

/-! ### Invalid operations (R49, R131) -/

theorem pack_nan (f : Fmt) (mode : Rnd) : f.pack mode .nan = f.nan := rfl

@[simp] theorem add_nan_left (mode : Rnd) (v : Flt) : Flt.add mode .nan v = .nan := by cases v <;> rfl
@[simp] theorem add_nan_right (mode : Rnd) (v : Flt) : Flt.add mode v .nan = .nan := by cases v <;> rfl
@[simp] theorem mul_nan_left (v : Flt) : Flt.mul .nan v = .nan := by cases v <;> rfl
@[simp] theorem mul_nan_right (v : Flt) : Flt.mul v .nan = .nan := by cases v <;> rfl

/-- Infinity minus infinity. -/
@[simp] theorem add_inf_inf_not (mode : Rnd) (a : Bool) : Flt.add mode (.inf a) (.inf !a) = .nan := by cases a <;> rfl

/-- Infinity times zero. -/
@[simp] theorem mul_inf_zero (a b : Bool) (e : Int) : Flt.mul (.inf a) (.fin b 0 e) = .nan := rfl
@[simp] theorem mul_zero_inf (a b : Bool) (e : Int) : Flt.mul (.fin b 0 e) (.inf a) = .nan := rfl

theorem div_nan_right (f : Fmt) (mode : Rnd) (z : Bool) (v : Flt) : f.div mode z v .nan = f.nan := by cases v <;> rfl

/-- The root of a value below zero. -/
theorem sqrt_neg (f : Fmt) (mode : Rnd) (z : Bool) {m : Nat} (hm : m ≠ 0) (e : Int) : f.sqrt mode z (.fin true m e) = f.nan := by
  simp only [Fmt.sqrt, if_neg hm, if_true]

/-- A finite nonzero value divided by a zero. -/
theorem div_zero_of_ne {f : Fmt} {i : Nat} (hi : f.inf = some i) (mode : Rnd) (z a b : Bool) {m : Nat} (hm : m ≠ 0) (e g : Int) :
    f.div mode z (.fin a m e) (.fin b 0 g) = (if a != b then 2 ^ f.mag else 0) + i := by
  simp only [Fmt.div, if_true, if_neg hm, Fmt.pack, Fmt.over, hi, Bool.not_true, Bool.false_and, Bool.false_eq_true, if_false, Option.getD_some]

/-- Settles O7: each meaning is its format's function on the fibre's encoding; an operand that is a NaN, or an operation without a value, makes
the exact result a NaN. -/
theorem floatFunctionsAndConversions : Obligations.FloatFunctionsAndConversions := by
  refine ⟨⟨fun s g x => ⟨?frcp, ?fsqrt, ?frsq, ?fex2, ?flg2, ?fsin, ?fcos, ?frnd, ?fclass⟩, fun s g x => ⟨?cvt, ?f8pk, ?f8upk⟩⟩,
    fun f mode z v w a b m e g => ?invalid⟩
  case fclass => exact eachFibre rfl rfl rfl (fun _ _ => rfl) (fun _ _ _ => by simp only [srcX_begunWave, ← setX_false]; rfl)
  case cvt => exact eachFibre rfl rfl rfl (fun _ _ => rfl) (fun _ _ _ => by simp only [srcX_begunWave, cvtValue, cvtPlaced_eq]; rfl)
  case f8pk => exact eachFibre rfl rfl rfl (fun _ _ => rfl) (fun _ _ _ => by simp only [srcX_begunWave, f8pkValue_eq, setX_false]; rfl)
  case f8upk => exact eachFibre rfl rfl rfl (fun _ _ => rfl) (fun _ _ _ => by simp only [srcX_begunWave]; rfl)
  case invalid =>
    simp only [add_nan_left, add_nan_right, mul_nan_left, mul_nan_right, add_inf_inf_not, mul_inf_zero, mul_zero_inf, pack_nan, div_nan_right,
      true_and]
    exact ⟨rfl, rfl, fun hm => sqrt_neg f mode z hm e, rfl, rfl, rfl, fun hm i hi => div_zero_of_ne hi mode z a b hm e g⟩
  all_goals exact eachFibre_flt rfl rfl rfl (fun _ _ => rfl)

end Sys2Proof.Machine
end

section
/-! SUPPORT. Cross-fibre instructions over the participants, slots ascending: reads of other slots, votes, reductions, prefixes and groups
(R147 to R153). -/

namespace Sys2Proof.Machine

/-! ### The participants (R147) -/

/-- The participants as a meaning finds them: at the next instruction, their registers as before. -/
theorem participants_begun {z : Site} {g : Guard} : participants (z.given g []) (begunWave z.w (z.bundle g))
    = (theP (z.bundle g) z.w).map (fun e => (e.1, passed z.w (z.bundle g) e.1 e.2)) := by
  unfold participants theP
  rw [List.map_filterMap]
  refine List.filterMap_congr fun k hk => ?_
  obtain ⟨y, hy⟩ := act_fibre hk
  rw [fibre_begun hk hy, hy]
  rfl

theorem mem_theP_of {z : Site} {g : Guard} {k : Nat} {y : Fibre} (hk : k ∈ (z.bundle g).act) (hy : sget k z.w.fibres = some y) :
    (k, y) ∈ theP (z.bundle g) z.w :=
  List.mem_filterMap.2 ⟨k, hk, by rw [hy, Option.map_some]⟩

/-- Their slots ascend. -/
theorem theP_ascending (z : Site) (g : Guard) : (theP (z.bundle g) z.w).Pairwise (fun a b => a.1 < b.1) := by
  rw [← List.pairwise_map (f := Prod.fst) (R := (· < ·)), theP_slots]
  exact (List.pairwise_lt_range.filter _).filter _

/-- The participants below a slot and those up to it. -/
theorem ascending_filters {α : Type} {l l' r : List (Nat × α)} {e : Nat × α} (hl : l = l' ++ e :: r) (h : l.Pairwise (fun a b => a.1 < b.1)) :
    (∀ a ∈ l', a.1 ≠ e.1) ∧ l.filter (fun a => a.1 < e.1) = l' ∧ l.filter (fun a => a.1 ≤ e.1) = l' ++ [e] := by
  subst hl
  obtain ⟨-, her, hcross⟩ := List.pairwise_append.1 h
  have hbelow : ∀ a ∈ l', a.1 < e.1 := fun a ha => hcross a ha e (List.mem_cons_self ..)
  have habove : ∀ a ∈ r, e.1 < a.1 := (List.pairwise_cons.1 her).1
  refine ⟨fun a ha => (hbelow a ha).ne, ?_, ?_⟩
  · rw [List.filter_append, List.filter_cons_of_neg (by simp), List.filter_eq_self.2 (by simpa using hbelow),
      List.filter_eq_nil_iff.2 (by simpa using fun a b hab => (habove (a, b) hab).le), List.append_nil]
  · rw [List.filter_append, List.filter_cons_of_pos (by simp), List.filter_eq_self.2 (by simpa using fun a b hab => (hbelow (a, b) hab).le),
      List.filter_eq_nil_iff.2 (by simpa using habove)]

/-! ### Reads of other slots (R148, R149) -/

/-- Neither word of a fibre's operand A is poisoned. -/
def CleanA (x : RRR) (y : Fibre) : Prop := y.vp x.a.toNat = false ∧ (isWide x.ty = true → y.vp (x.a.toNat + 1) = false)

/-- The slot that `shfl` reads for slot `k`, by its mode (R149). -/
def shflIndex (x : RRR) (k b : Nat) : Int :=
  if x.opx &&& 3 = 0 then b else if x.opx &&& 3 = 1 then (k : Int) - b else if x.opx &&& 3 = 2 then (k : Int) + b else (Nat.xor k b : Nat)

/-- The fibre that `shfl` reads for the fibre `y` of slot `k`; none in an empty slot and beyond the slots 0 to 31. -/
def shflSource (x : RRR) (w : Wave) (k : Nat) (y : Fibre) : Option Fibre :=
  let j := shflIndex x k ((oneB x w y).toNat % 2 ^ 32)
  if 0 ≤ j ∧ j < 32 then sget j.toNat w.fibres else none

theorem oneB_lt (x : RRR) (w : Wave) (y : Fibre) : (oneB x w y).toNat < 2 ^ 32 := by
  have h (v : W32) : (v.setWidth 64).toNat < 2 ^ 32 := by
    rw [BitVec.toNat_setWidth_of_le (by decide)]
    exact v.isLt
  unfold oneB srcX
  split
  · exact h _
  · exact h _

/-- The slot by the number of the mode. -/
theorem shflSlot_eq (mode i b : Nat) : shflSlot mode i b =
    (let j : Int := if mode = 0 then b else if mode = 1 then (i : Int) - b else if mode = 2 then (i : Int) + b else (Nat.xor i b : Nat)
     if 0 ≤ j && j < 32 then some j.toNat else none) := by
  unfold shflSlot
  split
  · rfl
  · rfl
  · rfl
  · next h0 h1 h2 => rw [if_neg h0, if_neg h1, if_neg h2]

theorem shflSlot_index (x : RRR) (k b : Nat) : shflSlot (x.opx &&& 3).toNat k b
    = if 0 ≤ shflIndex x k b && shflIndex x k b < 32 then some (shflIndex x k b).toNat else none := by
  simp only [shflSlot_eq, shflIndex, ← BitVec.toNat_inj]
  rfl

theorem shflSlot_source (x : RRR) (w : Wave) (k : Nat) (y : Fibre) :
    (shflSlot (x.opx &&& 3).toNat k (oneB x w y).toNat).bind (fun j => sget j w.fibres) = shflSource x w k y := by
  unfold shflSource
  rw [Nat.mod_eq_of_lt (oneB_lt x w y), shflSlot_index]
  generalize shflIndex x k (oneB x w y).toNat = j
  by_cases hj : 0 ≤ j ∧ j < 32
  · rw [if_pos hj, if_pos (by simpa using hj), Option.bind_some]
  · rw [if_neg hj, if_neg (by simpa using hj), Option.bind_none]

theorem shflRead_clean {x : RRR} {w : Wave} {k : Nat} {y : Fibre} (h : ∀ o, shflSource x w k y = some o → CleanA x o) :
    shflRead x w k y = .ok (match shflSource x w k y with | none => (0, false) | some o => (vecX (isWide x.ty) x.a o, true)) := by
  unfold shflRead
  dsimp only
  rw [show srcX w y (x.usrc.getLsbD 1) false x.b = oneB x w y from rfl, shflSlot_source]
  cases e : shflSource x w k y with
  | none => rfl
  | some o =>
    obtain ⟨hlo, hhi⟩ := h o e
    dsimp only
    rw [poisonedVec_clean hlo hhi]

theorem shflRead_passed (x : RRR) (w : Wave) (b : Bundle) (k : Nat) (y : Fibre) : shflRead x w k (passed w b k y) = shflRead x w k y := by
  unfold shflRead
  rw [srcX_passed]

theorem shflSource_passed (x : RRR) (w : Wave) (b : Bundle) (k : Nat) (y : Fibre) : shflSource x w k (passed w b k y) = shflSource x w k y := by
  unfold shflSource oneB
  rw [srcX_passed]

theorem shfl_completes (s : State) (g : Guard) (x : RRR) : Completes s (.shfl g x) g .none
    (fun z => ∀ e ∈ theP (z.bundle g) z.w, ∀ o, shflSource x z.w e.1 e.2 = some o → CleanA x o)
    (fun z b t => Runs s t z.w b [] (fun k y =>
      match shflSource x z.w k y with
      | none => (putD x 0 y).setP (x.c.extractLsb' 0 4) false
      | some o => (putD x (vecX (isWide x.ty) x.a o) y).setP (x.c.extractLsb' 0 4) true) id) := by
  intro z h ok
  have hread {k : Nat} (hk : k ∈ (z.bundle g).act) {y : Fibre} (hy : sget k z.w.fibres = some y) := shflRead_clean (ok (k, y) (mem_theP_of hk hy))
  refine ⟨_, performed h rfl rfl rfl, ?_⟩
  unfold shfl
  rw [show (z.given g []).before _ = some z.w from rfl]
  dsimp only
  rw [(List.filterMap_eq_nil_iff (l := (z.given g []).act)).2 ?clean, others_nil]
  case clean =>
    intro k hk
    obtain ⟨y, hy⟩ := act_fibre hk
    rw [hy, Option.bind_some, hread hk hy]
  refine runs_same h _ rfl fun k hk y hy => ?_
  rw [shflRead_passed, hread hk hy, shflSource_passed]
  cases shflSource x z.w k y with
  | none => rfl
  | some o => rfl

/-! ### Votes (R150) -/

theorem vote_completes (s : State) (g : Guard) (x : RRR) : Completes s (.vote g x) g .none (fun _ => True) (fun z b t =>
    let P := theP b z.w
    let p (e : Nat × Fibre) : Bool := e.2.rp (x.a.extractLsb' 0 4)
    Runs s t z.w b [] (fun _ y =>
      if x.opx &&& 3 = 2 then y.setV x.d.toNat (BitVec.ofNat 32 ((P.filter p).map (fun e => 2 ^ e.1)).sum)
      else y.setP (x.d.extractLsb' 0 4)
        (if x.opx &&& 3 = 0 then P.any p else if x.opx &&& 3 = 1 then P.all p else P.all p || P.all (fun e => !p e))) id) := by
  intro z h _
  refine ⟨_, performed h rfl rfl rfl, ?_⟩
  unfold vote
  rw [begun_wave_given h]
  dsimp only
  rw [participants_begun]
  refine runs_same h _ rfl fun k _ y _ => ?_
  simp only [List.any_map, List.all_map, List.filter_map, List.map_map, Function.comp_def, passed_rp, ← BitVec.toNat_inj, List.not_any_eq_all_not]
  rfl

/-! ### Folds and prefixes (R151, R152) -/

section

variable (op : W64 → W64 → W64)

/-- The values of a list combined from the left, after a value or from the first. -/
def combined (acc : Option W64) (l : List (Nat × W64)) : Option W64 :=
  l.foldl (fun acc e => some (acc.elim e.2 (fun a => op a e.2))) acc

theorem prefixes_cons (acc : Option W64) (k : Nat) (v : W64) (l : List (Nat × W64)) : prefixes op acc ((k, v) :: l)
    = (k, acc, acc.elim v (fun a => op a v)) :: prefixes op (some (acc.elim v (fun a => op a v))) l := by
  cases acc with
  | none => rfl
  | some a => rfl

theorem combined_some (a : W64) (l : List (Nat × W64)) : combined op (some a) l = some (l.foldl (fun a e => op a e.2) a) := by
  induction l generalizing a with
  | nil => rfl
  | cons e l ih => exact ih (op a e.2)

/-- The last element carries every value combined. -/
theorem prefixes_getLast? (l : List (Nat × W64)) (acc : Option W64) :
    ((prefixes op acc l).getLast?.map (fun e => e.2.2)).or acc = combined op acc l := by
  induction l generalizing acc with
  | nil => rfl
  | cons e l ih =>
    obtain ⟨k, v⟩ := e
    rw [prefixes_cons, List.getLast?_cons, Option.map_some, Option.some_or]
    refine Eq.trans ?_ (ih _)
    cases (prefixes op _ l).getLast? with
    | none => rfl
    | some p => rfl

/-- The element of a key carries the values before it combined, and then those with its own. -/
theorem prefixes_find? {l : List (Nat × W64)} {k : Nat} (h : ∀ e ∈ l, e.1 ≠ k) (v : W64) (r : List (Nat × W64)) (acc : Option W64) :
    ∃ a, (prefixes op acc (l ++ (k, v) :: r)).find? (fun e => e.1 = k) = some (k, combined op acc l, a)
      ∧ combined op acc (l ++ [(k, v)]) = some a := by
  induction l generalizing acc with
  | nil =>
    rw [List.nil_append, prefixes_cons]
    exact ⟨_, List.find?_cons_of_pos (by simp), rfl⟩
  | cons e l ih =>
    obtain ⟨j, u⟩ := e
    obtain ⟨hj, hl⟩ := List.forall_mem_cons.1 h
    obtain ⟨a, hfind, hall⟩ := ih hl (some (acc.elim u (fun a => op a u)))
    refine ⟨a, ?_, hall⟩
    rw [List.cons_append, prefixes_cons, List.find?_cons_of_neg (by simpa using hj)]
    exact hfind

end

/-! ### Reductions, prefixes and groups (R151 to R153) -/

/-- No participant's operand A is poisoned, unless it is a uniform register (R84, R116). -/
def CleanP (x : RRR) (g : Guard) (z : Site) : Prop := x.usrc.getLsbD 2 = false → ∀ e ∈ theP (z.bundle g) z.w, CleanA x e.2

/-- The operation of a reduction on two values (R151). -/
abbrev redStep (x : RRR) (a v : W64) : W64 := redOp (x.opx &&& 7).toNat x.ty x.rnd.toNat x.ty a v 0

/-- The values of participants under the operation of a reduction, in ascending order of slots. -/
def redFold (x : RRR) (w : Wave) (l : List (Nat × Fibre)) : Option W64 :=
  combined (redStep x) none (l.map (fun e => (e.1, redValue x w e.2)))

@[simp] theorem redValue_passed (x : RRR) (v w : Wave) (b : Bundle) (k : Nat) (y : Fibre) : redValue x v (passed w b k y) = redValue x v y :=
  srcX_passed ..
@[simp] theorem redValue_begunWave (x : RRR) (w : Wave) (b : Bundle) (y : Fibre) : redValue x (begunWave w b) y = redValue x w y :=
  srcX_begunWave ..

theorem redValues_begun (x : RRR) (z : Site) (g : Guard) :
    redValues x (begunWave z.w (z.bundle g)) (participants (z.given g []) (begunWave z.w (z.bundle g)))
      = (theP (z.bundle g) z.w).map (fun e => (e.1, redValue x z.w e.2)) := by
  unfold redValues
  rw [participants_begun, List.map_map]
  exact List.map_congr_left fun e _ => congrArg (e.1, ·) ((redValue_begunWave ..).trans (redValue_passed ..))

theorem redPoison_clean {x : RRR} {g : Guard} {z : Site} (ok : CleanP x g z) :
    redPoison x (participants (z.given g []) (begunWave z.w (z.bundle g))) = [] := by
  unfold redPoison
  split
  · rfl
  · next hu =>
    rw [participants_begun, List.filterMap_map]
    refine List.filterMap_eq_nil_iff.2 fun e he => ?_
    obtain ⟨hlo, hhi⟩ := ok (by simpa using hu) e he
    dsimp only [Function.comp]
    rw [passed_poisonedVec, poisonedVec_clean hlo hhi]
    rfl

theorem lred_completes (s : State) (g : Guard) (x : RRR) : Completes s (.lred g x) g .none (CleanP x g) (fun z b t =>
    Runs s t z.w b [] (fun _ y => match redFold x z.w (theP b z.w) with | none => y | some acc => putD x acc y) id) := by
  intro z h ok
  refine ⟨_, performed h rfl rfl rfl, ?_⟩
  unfold lred
  rw [begun_wave_given h]
  dsimp only
  rw [redPoison_clean ok, redValues_begun]
  dsimp only
  have hlast := prefixes_getLast? (redStep x)
    ((theP (z.bundle g) z.w).map (fun e => (e.1, redValue x z.w e.2))) none
  rw [Option.or_none] at hlast
  rw [redFold, ← hlast]
  cases (prefixes _ none _).getLast? with
  | none => exact runs_quiet h
  | some p => exact runs_same h _ rfl fun _ _ _ _ => rfl

theorem lscan_completes (s : State) (g : Guard) (x : RRR) : Completes s (.lscan g x) g .none (CleanP x g) (fun z b t =>
    let P := theP b z.w
    Runs s t z.w b [] (fun k y =>
      if x.opx.getLsbD 3 then putD x ((redFold x z.w (P.filter (fun e => e.1 < k))).getD (redIdentity (x.opx &&& 7).toNat x.ty)) y
      else match redFold x z.w (P.filter (fun e => e.1 ≤ k)) with | none => y | some acc => putD x acc y) id) := by
  intro z h ok
  refine ⟨_, performed h rfl rfl rfl, ?_⟩
  unfold lscan
  rw [begun_wave_given h]
  dsimp only
  rw [redPoison_clean ok, redValues_begun, (List.filterMap_eq_nil_iff (l := (z.given g []).act)).2 ?clean, others_nil]
  case clean => exact fun _ _ => rfl
  refine runs_same h _ rfl fun k hk y hy => ?_
  obtain ⟨l, r, hP⟩ := List.append_of_mem (mem_theP_of hk hy)
  obtain ⟨hne, hbelow, hupto⟩ := ascending_filters hP (theP_ascending z g)
  obtain ⟨a, hfind, hall⟩ := prefixes_find? (redStep x)
    (l := l.map (fun e => (e.1, redValue x z.w e.2))) (k := k) (List.forall_mem_map.2 hne) (redValue x z.w y)
    (r.map (fun e => (e.1, redValue x z.w e.2))) none
  rw [hbelow, hupto, hP, List.map_append, List.map_cons, hfind]
  dsimp only
  rw [redFold, redFold, List.map_append, List.map_singleton, hall]
  split
  · rfl
  · rfl

theorem lfind_completes (s : State) (g : Guard) (x : RRR) : Completes s (.lfind g x) g .none (CleanP x g) (fun z b t =>
    let same (y : Fibre) : List Nat := ((theP b z.w).filter (fun e => redValue x z.w e.2 == redValue x z.w y)).map (·.1)
    Runs s t z.w b [] (fun k y =>
      (y.setV x.d.toNat (BitVec.ofNat 32 ((same y).map (fun j => 2 ^ j)).sum)).setP (x.c.extractLsb' 0 4) ((same y).head? == some k)) id) := by
  intro z h ok
  refine ⟨_, performed h rfl rfl rfl, ?_⟩
  unfold lfind
  rw [begun_wave_given h]
  dsimp only
  rw [redPoison_clean ok, redValues_begun]
  refine runs_same h _ rfl fun k hk y hy => ?_
  simp only [redValue_begunWave, redValue_passed, List.filter_map, List.map_map, Function.comp_def]

theorem redValue_eq (x : RRR) (w : Wave) (y : Fibre) : redValue x w y =
    if x.usrc.getLsbD 2 then (if isWide x.ty then w.rg x.a.toNat else ((w.rg x.a.toNat).setWidth 32).setWidth 64)
    else if isWide x.ty then y.rv2 x.a.toNat else (y.rv x.a.toNat).setWidth 64 := by
  unfold redValue srcX
  rw [extractLsb'_zero_eq]

theorem redFold_cons (x : RRR) (w : Wave) (e : Nat × Fibre) (l : List (Nat × Fibre)) : redFold x w (e :: l)
    = some (l.foldl (fun a e => redStep x a (redValue x w e.2)) (redValue x w e.2)) :=
  (combined_some (redStep x) (redValue x w e.2) _).trans (by rw [List.foldl_map])

/-- Settles O10: each meaning takes from the participants, as they stood before the issue, what its fibres get. -/
theorem crossFibreResults : Obligations.CrossFibreResults := by
  intro s g x val clean cleanP own source fold pc
  have hown : own = redValue x := by funext w y; exact (redValue_eq x w y).symm
  have hfold : fold = redFold x := by
    funext w l
    cases l with
    | nil => rfl
    | cons e r =>
      calc fold w (e :: r) = some (r.foldl (fun a e => redStep x a (own w e.2)) (own w e.2)) := rfl
        _ = redFold x w (e :: r) := by rw [hown, redFold_cons]
  rw [hown, hfold]
  exact ⟨shfl_completes s g x, vote_completes s g x, lred_completes s g x, lscan_completes s g x, lfind_completes s g x⟩

end Sys2Proof.Machine
end

section
/-! SUPPORT. The uniform family: one result for the bundle in a uniform register (R115, R144, R145), constant windows (R87) and `gld` (R146). -/

namespace Sys2Proof.Machine

/-! ### Uniform operands and results (R115) -/

theorem srcG_eq (w : Wave) (wide : Bool) (r : BitVec 8) :
    srcG w wide r = if wide then w.rg r.toNat else ((w.rg r.toNat).setWidth 32).setWidth 64 := by
  rw [srcG, extractLsb'_zero_eq]

theorem extG_eq (ty : BitVec 5) (v : W64) :
    extG ty v = if isWide ty then v else if isSigned ty then (v.setWidth 32).signExtend 64 else (v.setWidth 32).setWidth 64 := by
  rw [extG, extractLsb'_zero_eq]

/-- The low half of D names the register of a comparison, the high half its code (R85, R145). -/
theorem nibble_low (d : BitVec 8) : (d.extractLsb' 0 4).toNat = d.toNat % 16 := by
  rw [BitVec.extractLsb'_toNat, Nat.shiftRight_zero]
theorem nibble_high (d : BitVec 8) : (d.extractLsb' 4 4).toNat = d.toNat / 16 := by
  rw [BitVec.extractLsb'_toNat, Nat.shiftRight_eq_div_pow]
  have h := d.isLt
  omega

/-- A uniform RRR instruction with an operation on its operands writes that operation's extended result. -/
theorem onceForWave_ualu {s : State} {i : Instr} {g : Guard} {x : RRR} {f : Form} (e : form i = some f) (hc : f.const = none) {op : AluOp}
    (hx : exec i s = issue i g .none (ualu x op) s) (hi : ∀ z, InRange i g z := by intro _ _ _ _ _; rfl) :
    OnceForWave s i g (fun w => w.setG x.d.toNat
      (extG x.ty (op x.ty (srcG w (isWide x.ty) x.a) (srcG w (isWide x.ty) x.b) (srcG w (isWide x.ty) x.c)))) :=
  onceSetG e hc hx _ (fun _ _ => rfl) (fun _ => by simp only [srcG_begunWave]) hi

/-- The same of an RI instruction, the widened immediate as B (R88). -/
theorem onceForWave_ualuI {s : State} {i : Instr} {g : Guard} {x : RI} {f : Form} (e : form i = some f) (hc : f.const = none) {op : AluOp}
    (hx : exec i s = issue i g .none (ualuI x op) s) (hi : ∀ z, InRange i g z := by intro _ _ _ _ _; rfl) :
    OnceForWave s i g (fun w => w.setG x.d.toNat (extG (riTy x) (op (riTy x) (srcG w (isWide (riTy x)) x.a) (riB x) 0))) :=
  onceSetG e hc hx _ (fun _ _ => rfl) (fun _ => by simp only [srcG_begunWave]; rfl) hi

/-- The same of an RK instruction, the constant as B (R86). -/
theorem onceForWaveK_ualuK {s : State} {i : Instr} {g : Guard} {x : RK} {op : AluOp} (hx : exec i s = issue i g .none (ualuK x op) s)
    (hi : ∀ z, InRange i g z := by intro _ _ _ _ _; rfl) :
    OnceForWaveK s i g (fun ws w => w.setG x.d.toNat (extG x.ty (op x.ty (srcG w (isWide x.ty) x.a) (conValue ws) 0))) :=
  onceSetGK hx _ (v := fun ws w => extG x.ty (op x.ty (srcG w (isWide x.ty) x.a) (conValue ws) 0)) (fun _ _ _ => rfl)
    (fun _ _ => by simp only [srcG_begunWave]) hi

/-! ### Constant windows (R87) -/

/-- A line that the constant cache holds is read as it is there. -/
theorem conLine_cached {s : State} {core ctx rid va : Nat} {l : CacheLine}
    (h : (coreOf s core).ccache.find? (fun e => e.ctx = ctx && e.line = va - va % 128) = some l) : conLine s core ctx rid va = (s, .ok l.data) := by
  simp only [conLine, h]

/-- Words of a window whose region entry and lines the core holds. -/
theorem conWords_cached {s : State} {core ctx : Nat} {base : W64} {re : RegionEntry} {line : Nat → CacheLine}
    (hre : (coreOf s core).regions.find? (fun e => e.ctx = ctx && e.rid = ptrRid base) = some re) (l : List Nat)
    (h : ∀ o ∈ l, inRegion re (ptrVa base + 4 * o) 4 = true ∧ (coreOf s core).ccache.find? (fun e => e.ctx = ctx
      && e.line = ptrVa base + 4 * o - (ptrVa base + 4 * o) % 128) = some (line o)) :
    conWords s core ctx base l = (s, .words (l.map (fun o =>
      BitVec.ofNat 32 (fromBytesLE (((line o).data.drop ((ptrVa base + 4 * o) % 128)).take 4))))) := by
  induction l with
  | nil => rfl
  | cons o l ih =>
    obtain ⟨⟨hin, hline⟩, hl⟩ := List.forall_mem_cons.1 h
    simp only [conWords, regionOf_cached hre, hin, conLine_cached hline, ih hl, Bool.not_true, Bool.false_eq_true, if_false, List.map_cons]

/-- An instruction with a constant operand reads the cached words of its window, and the state does not change. -/
theorem reads_cached {s : State} {i : Instr} {g : Guard} {z : Site} {k off n : Nat} {base : W64} {len : Nat} {re : RegionEntry}
    {line : Nat → CacheLine} (h : Ready s i g .none z) (hc : z.f.const = some (k, off, n)) (ha : (z.bundle g).act ≠ []) (hp : z.w.page = none)
    (hwin : sget k z.l.windows = some (base, len))
    (hre : (coreOf s (coreNo z.wk)).regions.find? (fun e => e.ctx = z.l.ctx && e.rid = ptrRid base) = some re)
    (hin : ∀ j < n, inRegion re (ptrVa base + 4 * (off + j)) 4 = true)
    (hline : ∀ j < n, (coreOf s (coreNo z.wk)).ccache.find? (fun e => e.ctx = z.l.ctx
      && e.line = ptrVa base + 4 * (off + j) - (ptrVa base + 4 * (off + j)) % 128) = some (line j)) :
    Reads s z g s ((List.range n).map (fun j =>
      BitVec.ofNat 32 (fromBytesLE (((line j).data.drop ((ptrVa base + 4 * (off + j)) % 128)).take 4)))) := by
  have hl : launchOf s z.wk = some z.l := by
    unfold launchOf
    rw [h.wave]
    exact h.launch
  have hwords := conWords_cached hre (run off n) (line := fun o => line (o - off)) fun o ho => by
    obtain ⟨j, hj, rfl⟩ := List.mem_map.1 ho
    rw [Nat.add_sub_cancel_left]
    exact ⟨hin j (List.mem_range.1 hj), hline j (List.mem_range.1 hj)⟩
  unfold Reads constants conRead
  rw [hc]
  dsimp only
  rw [if_neg (by simpa using ha), hp, show (z.bundle g).wk = z.wk from rfl, hl]
  dsimp only
  rw [if_neg (by simp), hwin]
  dsimp only
  rw [hwords, run, List.map_map]
  simp only [Function.comp_def, Nat.add_sub_cancel_left]

/-! ### `gld` (R146) -/

/-- `gld` starts an operation with the words that it read. -/
theorem gld_starts {s s' : State} {g : Guard} {x : RK} {z : Site} {ws : List W32} (h : Ready s (.gld g x) g .none z) (hr : Reads s z g s' ws)
    (ha : (z.bundle g).act ≠ []) :
    ∃ t, exec (.gld g x) s = .next t ∧ Starts s' t z.w (z.bundle g) z.c.header [] (fun _ y => y) (z.bundle g).act
      (.gld x.d.toNat ((List.range 4).map (gwordAt ws))) := by
  have hw : sget z.wk s'.waves = some z.w := by rw [Reads.waves hr]; exact h.wave
  refine ⟨_, issue_ready h hr hw rfl (fun _ _ _ _ => rfl) (gld x), ?_⟩
  have hne : ¬(z.given g ws).act.isEmpty = true := by rwa [List.isEmpty_iff]
  unfold gld
  rw [if_neg hne]
  exact starts_of h hw ha (by rw [form_is h rfl]; rfl) _

/-- Settles O11: each result is the operation of the vector family on uniform operands, extended; constant words come from cached lines. -/
theorem uniformResults : Obligations.UniformResults := by
  refine ⟨fun s g x => ?rrr, ⟨fun s g x => ?ri, fun s g x => ?rk⟩, ?window, ?gld⟩
  case rrr =>
    simp only [← srcG_eq, ← extG_eq, ← nibble_low, ← nibble_high]
    exact ⟨onceForWave_ualu (op := opAdd false) rfl rfl rfl, onceForWave_ualu (op := opSub false) rfl rfl rfl,
      onceForWave_ualu (op := opMul) rfl rfl rfl,
      onceForWave_ualu (op := opMin) rfl rfl rfl, onceForWave_ualu (op := opAnd) rfl rfl rfl, onceForWave_ualu (op := opOr) rfl rfl rfl,
      onceForWave_ualu (op := opXor) rfl rfl rfl, onceForWave_ualu (op := opShl) rfl rfl rfl, onceForWave_ualu (op := opGshr) rfl rfl rfl,
      onceSetG rfl rfl rfl _ (fun _ _ => rfl) (fun _ => by simp only [srcG_begunWave]),
      onceSetG rfl rfl rfl _ (fun _ _ => rfl) (fun _ => by simp only [begunWave_rg, bne_iff_ne]),
      onceForWave_ualu (op := fun _ a _ _ => a) rfl rfl rfl,
      onceSetG rfl rfl rfl _ (fun _ _ => rfl) (fun _ => by simp only [begunWave_rg, leaValue_eq, leaShift_eq])⟩
  case ri =>
    exact ⟨onceForWave_ualuI (op := opAdd false) rfl rfl rfl, onceForWave_ualuI (op := opAnd) rfl rfl rfl,
      onceForWave_ualuI (op := opOr) rfl rfl rfl,
      onceForWave_ualuI (op := opXor) rfl rfl rfl, onceForWave_ualuI (op := opShl) rfl rfl rfl, onceForWave_ualuI (op := opGshr) rfl rfl rfl,
      onceSetG rfl rfl rfl _ (fun _ _ => rfl) (fun _ => by simp only [srcG_begunWave]; rfl),
      onceForWave_ualuI (op := fun _ _ b _ => b) rfl rfl rfl⟩
  case rk =>
    exact ⟨onceForWaveK_ualuK (op := opAdd false) rfl,
      onceSetGK rfl _ (v := fun ws w => if icmpHolds (x.d.extractLsb' 4 4).toNat x.ty (srcG w (isWide x.ty) x.a) (conValue ws) then 1 else 0)
        (fun _ _ _ => rfl) (fun _ _ => by simp only [srcG_begunWave]),
      onceForWaveK_ualuK (op := fun _ _ b _ => b) rfl⟩
  case window =>
    intro s i g z k off n base len re line h hc ha hp hwin hre hin hline
    exact reads_cached h hc ha hp hwin hre hin hline
  case gld =>
    intro s g x z s' ws h hr ha
    exact gld_starts h hr ha

end Sys2Proof.Machine
end

section
/-! SUPPORT. Loads and stores through a buffer record (O12, O13): where their bytes are served and nothing holds them back, they start an
operation that holds what the registers get, and memory has taken the bytes of a store. -/

namespace Sys2Proof.Machine

/-! ### Accesses that are performed at once -/

/-- Loads each of which gives its bytes at once and changes nothing. -/
theorem tryAccesses_done {s : State} {core wk gk : Nat} {l : List (Access × List (Byte × Bool))} (hn : l ≠ [])
    (hk : ∀ e ∈ l, e.1.kind = .load ∨ e.1.kind = .const) (hq : ∀ e ∈ l, e.1.isQ = false)
    (h : ∀ e ∈ l, tryLoad s core wk gk e.1 = (s, .done e.2)) :
    tryAccesses s core wk gk (l.map (·.1)) = { st := s, give := (l.map (fun e => e.1.give e.2)).flatten } := by
  have step (l : List (Access × List (Byte × Bool))) (hq : ∀ e ∈ l, e.1.isQ = false)
      (h : ∀ e ∈ l, tryLoad s core wk gk e.1 = (s, .done e.2)) (give : List Delivery) :
      (l.map (·.1)).foldl (fun (t : Tried) a =>
        let a := a.held s t.st
        match tryLoad t.st core wk gk a with
        | (s, .held) => { t with st := s, held := t.held ++ [a.held t.st s] }
        | (s, .fail sub addr) => { t with st := s, bad := t.bad ++ [(a, sub, addr)] }
        | (s, .done bs) =>
          if a.isQ then { t with st := s, giveQ := t.giveQ ++ [a.giveQ bs] } else { t with st := s, give := t.give ++ a.give bs })
        { st := s, give := give } = { st := s, give := give ++ (l.map (fun e => e.1.give e.2)).flatten } := by
    induction l generalizing give with
    | nil => simp
    | cons e l ih =>
      obtain ⟨he, hl⟩ := List.forall_mem_cons.1 h
      obtain ⟨hqe, hql⟩ := List.forall_mem_cons.1 hq
      simp only [List.map_cons, List.foldl_cons, Access.held_same, he, hqe, Bool.false_eq_true, if_false]
      rw [ih hql hl]
      simp
  obtain ⟨e, l', rfl⟩ := List.exists_cons_of_ne_nil hn
  refine Eq.trans ?_ ((step (e :: l') hq h []).trans (by simp))
  unfold tryAccesses
  rcases hk e (by simp) with hke | hke <;> simp only [List.map_cons, List.head?_cons, Option.map_some, hke] <;> rfl

/-- Bytes whose lines the constant cache of the core holds. -/
theorem constBytes_cached {s : State} {core ctx rid : Nat} {line : Nat → CacheLine} {vas : List Nat}
    (h : ∀ a ∈ vas, (coreOf s core).ccache.find? (fun e => e.ctx = ctx && e.line = a - a % 128) = some (line a)) :
    constBytes s core ctx rid vas = (s, .done (vas.map (fun a => ((line a).data.getD (a % 128) 0, false)))) := by
  induction vas with
  | nil => rfl
  | cons a vas ih =>
    obtain ⟨ha, hl⟩ := List.forall_mem_cons.1 h
    simp only [constBytes, constBytes.conLineP, conLine_cached ha, ih hl, List.map_cons]

theorem tryLoad_const {s : State} {wk gk : Nat} {a : Access} {line : Nat → CacheLine} (hk : a.kind = .const) (hst : a.stash = false)
    (hc : Clear s wk [a.slot] false a.acq a.va)
    (h : ∀ v ∈ a.va, (coreOf s (coreNo wk)).ccache.find? (fun e => e.ctx = a.ctx && e.line = v - v % 128) = some (line v)) :
    tryLoad s (coreNo wk) wk gk a = (s, .done (a.va.map (fun v => ((line v).data.getD (v % 128) 0, false)))) := by
  unfold tryLoad
  rw [behind_clear (by rw [hst]; exact hc)]
  simp only [hst, hk, beq_self_eq_true, Bool.false_eq_true, if_false, if_true, constBytes_cached h]

theorem startAccesses_done {β : Type} {s : State} {b : Bundle} {l : List β} {acc : β → Access} {bytes : β → List (Byte × Bool)} (hn : l ≠ [])
    (hk : ∀ e ∈ l, (acc e).kind = .load ∨ (acc e).kind = .const) (hq : ∀ e ∈ l, (acc e).isQ = false)
    (h : ∀ e ∈ l, tryLoad s (coreNo b.wk) b.wk (gangOf s b.wk) (acc e) = (s, .done (bytes e))) :
    startAccesses s b (l.map acc) = startOp s b (.load (l.map (fun e => (acc e).give (bytes e))).flatten [] []) := by
  have htry := tryAccesses_done (l := l.map (fun e => (acc e, bytes e))) (by simpa using hn) (List.forall_mem_map.2 hk) (List.forall_mem_map.2 hq)
    (List.forall_mem_map.2 h)
  rw [List.map_map, List.map_map] at htry
  unfold startAccesses
  rw [show tryAccesses s _ _ _ (l.map acc) = _ from htry]
  obtain ⟨e, l', rfl⟩ := List.exists_cons_of_ne_nil hn
  have hs : ((e :: l').map acc).all (fun a => a.kind == .store || a.kind == .red) = false := by
    rw [List.map_cons, List.all_cons]
    rcases hk e (by simp) with hke | hke <;> rw [hke] <;> rfl
  simp only [hs, Bool.false_eq_true, if_false]
  rfl

/-! ### Loads through a record (R163, R165, R167) -/

/-- What a load into vector registers gives (R158, R162). -/
theorem give_loadInto (x : MEM) (n : Nat) (a : Access) (bs : List (Byte × Bool)) :
    (loadInto x n a).give bs = delivered a.slot x.data.toNat n (tyBytes x.ty) x.ty bs := rfl

section
variable {s : State} {g : Guard} {x : MEM} {z : Site} {reach : Nat → List (Nat × Nat)} {i : Instr} {rel : Rel}

/-- The operation of a load that is performed at once. -/
def loadOp (x : MEM) (n : Nat) (act : List Nat) (bytes : Nat → List (Byte × Bool)) : OpKind :=
  .load (act.map (fun k => delivered k x.data.toNat n (tyBytes x.ty) x.ty (bytes k))).flatten [] []

theorem loadOp_eq (x : MEM) (n : Nat) (z : Site) (g : Guard) (acc : Nat → Fibre → Access)
    (hs : ∀ k y bs, (acc k y).give bs = delivered k x.data.toNat n (tyBytes x.ty) x.ty bs) (bytes : Nat → List (Byte × Bool)) :
    OpKind.load ((theP (z.bundle g) z.w).map (fun e => (acc e.1 e.2).give (bytes e.1))).flatten [] [] = loadOp x n (z.bundle g).act bytes := by
  simp only [hs, loadOp, theP_map z g (fun k => delivered k x.data.toNat n (tyBytes x.ty) x.ty (bytes k))]

/-- How `ld` and `ldk` form their accesses. -/
def loadPlan (x : MEM) (kind : AccKind) : Plan :=
  { k := x.buf.toNat, off := x.off.toNat, fld := (x.mopx >>> 3).toNat, idx := x.idx.toNat, len := vecOf x * tyBytes x.ty,
    kind := kind, acc := 0, can := fun r => r.rd }

theorem loadBody_plan (x : MEM) (kind : AccKind) (b : Bundle) (s : State) :
    loadBody x kind b s = startFormed b (viaBuffer s b (loadPlan x kind) (fun _ a => .ok (loadInto x (vecOf x) a))) := rfl

/-- How `ldx` forms its accesses. -/
def namedPlan (x : MEM) : Plan :=
  { k := x.buf.toNat, off := x.off.toNat, idx := x.idx.toNat, len := tyBytes x.ty, kind := .load, acc := 0, can := fun r => r.rd }

theorem ldxBody_plan (x : MEM) (b : Bundle) (s : State) :
    ldxBody x b s = startFormed b (viaBuffer s b (namedPlan x) (fun f a => (namedTag f x.mopx.toNat a).map (loadInto x 1))) := rfl

/-- The access of a passing fibre of `ld` or `ldk`. -/
def loadAccess (s : State) (z : Site) (g : Guard) (x : MEM) (kind : AccKind) (va : List Nat) (k : Nat) (y : Fibre) : Access :=
  loadInto x (vecOf x) (startAccess s z (z.given g []) (bufAt z.w x.buf.toNat) (loadPlan x kind) k y va)

/-- The access of a passing fibre of `ldx`. -/
def namedAccess (s : State) (z : Site) (g : Guard) (x : MEM) (va : List Nat) (k : Nat) (y : Fibre) : Access :=
  loadInto x 1 { startAccess s z (z.given g []) (bufAt z.w x.buf.toNat) (namedPlan x) k y va with
    sel := .named, tag := (y.rv x.mopx.toNat).toNat }

/-- A tag register below 4,096 names its tag (R165). -/
theorem namedTag_below {f : Fibre} {r : Nat} (h : (f.rv r).toNat < 4096) (a : Access) :
    namedTag f r a = .ok { a with sel := .named, tag := (f.rv r).toNat } := by
  unfold namedTag
  rw [if_neg (Nat.not_le.2 h)]

variable (ho : Open s) (ha : (z.bundle g).act ≠ []) (hv : (bufAt z.w x.buf.toNat).valid = true) (hr : (bufAt z.w x.buf.toNat).rd = true)
  (hc : ∀ k ∈ (z.bundle g).act, Clear s z.wk [k] false (acquires x) ((reach k).map (·.1)))
include ha hv hr hc

section
variable (hs : ∀ k ∈ (z.bundle g).act, siltOverlap s (coreNo z.wk) (ctxOf s z.wk) ((reach k).map (·.1)) = false)
include ho hs

/-- `ld` gives the bytes of memory that the accessing fibre's tag shows. -/
theorem ld_starts (h : Ready s (.ld g x) g .none z)
    (ht : Through s z g (bufAt z.w x.buf.toNat) x.idx x.off.toNat (x.mopx >>> 3).toNat (vecOf x * tyBytes x.ty) (fun y => y.ct.toNat) .read reach) :
    ∃ t, exec (.ld g x) s = .next t ∧ Starts s t z.w (z.bundle g) z.c.header [] (fun _ y => y) (z.bundle g).act
      (loadOp x (vecOf x) (z.bundle g).act (fun k => (reach k).map (fun q => byteOf s q.2))) := by
  refine ⟨_, performed h rfl rfl rfl, ?_⟩
  have hbody := loadsVia h (loadPlan x .load) (acc := fun k => loadAccess s z g x .load ((reach k).map (·.1)) k)
    (mk := fun _ a => .ok (loadInto x (vecOf x) a))
    rfl hv hr ht (fun _ _ _ _ => rfl) (fun _ _ _ _ => ⟨rfl, rfl, rfl, rfl, rfl, rfl, rfl, rfl⟩) ho ha hc hs
  rw [loadBody_plan, hbody, loadOp_eq x (vecOf x) z g (fun k => loadAccess s z g x .load ((reach k).map (·.1)) k) (fun _ _ _ => rfl)
    (fun k => (reach k).map (fun q => byteOf s q.2))]
  exact starts_of h h.wave ha (by rw [form_is h rfl]; rfl) _

/-- `ldx` gives the bytes that the named tag shows. -/
theorem ldx_starts (h : Ready s (.ldx g x) g .none z)
    (hm : ∀ k ∈ (z.bundle g).act, ∀ y, sget k z.w.fibres = some y → (y.rv x.mopx.toNat).toNat < 4096)
    (ht : Through s z g (bufAt z.w x.buf.toNat) x.idx x.off.toNat 0 (tyBytes x.ty) (fun y => (y.rv x.mopx.toNat).toNat) .read reach) :
    ∃ t, exec (.ldx g x) s = .next t ∧ Starts s t z.w (z.bundle g) z.c.header [] (fun _ y => y) (z.bundle g).act
      (loadOp x 1 (z.bundle g).act (fun k => (reach k).map (fun q => byteOf s q.2))) := by
  refine ⟨_, performed h rfl rfl rfl, ?_⟩
  have hbody := loadsVia h (namedPlan x) (acc := fun k => namedAccess s z g x ((reach k).map (·.1)) k)
    (mk := fun f a => (namedTag f x.mopx.toNat a).map (loadInto x 1)) rfl hv hr ht (fun k hk y hy => by
      rw [namedTag_below (by rw [passed_rv]; exact hm k hk y hy), passed_rv]; rfl)
    (fun _ _ _ _ => ⟨rfl, rfl, rfl, rfl, rfl, rfl, rfl, rfl⟩) ho ha hc hs
  rw [ldxBody_plan, hbody, loadOp_eq x 1 z g (fun k => namedAccess s z g x ((reach k).map (·.1)) k) (fun _ _ _ => rfl)
    (fun k => (reach k).map (fun q => byteOf s q.2))]
  exact starts_of h h.wave ha (by rw [form_is h rfl]; rfl) _
end

/-- `ldk` gives the bytes of the lines that the constant cache of the core holds. -/
theorem ldk_starts {line : Nat → CacheLine} (h : Ready s (.ldk g x) g .none z)
    (hf : Forms s z g (bufAt z.w x.buf.toNat) x.idx x.off.toNat (x.mopx >>> 3).toNat (vecOf x * tyBytes x.ty) (fun k => (reach k).map (·.1)))
    (hl : ∀ k ∈ (z.bundle g).act, ∀ a ∈ (reach k).map (·.1),
      (coreOf s (coreNo z.wk)).ccache.find? (fun e => e.ctx = ctxOf s z.wk && e.line = a - a % 128) = some (line a)) :
    ∃ t, exec (.ldk g x) s = .next t ∧ Starts s t z.w (z.bundle g) z.c.header [] (fun _ y => y) (z.bundle g).act
      (loadOp x (vecOf x) (z.bundle g).act (fun k => ((reach k).map (·.1)).map (fun a => ((line a).data.getD (a % 128) 0, false)))) := by
  refine ⟨_, performed h rfl rfl rfl, ?_⟩
  let cached (k : Nat) : List (Byte × Bool) := ((reach k).map (·.1)).map (fun a => ((line a).data.getD (a % 128) 0, false))
  let acc (k : Nat) : Fibre → Access := loadAccess s z g x .const ((reach k).map (·.1)) k
  have hstart := startAccesses_done (s := begun s z.w (z.bundle g) (.ldk g x) z.f) (b := z.given g []) (l := theP (z.bundle g) z.w)
    (acc := fun e => acc e.1 e.2) (bytes := fun e => cached e.1) (theP_ne ha) (fun _ _ => .inr rfl) (fun _ _ => rfl)
    (fun e he => tryLoad_const rfl rfl (begun_clear _ _ _ _ (hc e.1 (mem_theP he).1))
      (fun v hv => by rw [begun_ccache]; exact hl e.1 (mem_theP he).1 v hv))
  rw [loadBody_plan]
  unfold startFormed
  rw [viaBuffer_go h (z.given g []) rfl rfl (loadPlan x .const) (idx := x.idx) rfl hv hr hf (acc := acc) (fun _ _ _ _ => rfl) (fun _ _ _ _ => rfl)]
  dsimp only
  rw [hstart, loadOp_eq x (vecOf x) z g acc (fun _ _ _ => rfl) cached]
  exact starts_of h h.wave ha (by rw [form_is h rfl]; rfl) _
end

/-- Settles O12: a load starts an operation with the bytes served, or for `ldk` with the cached ones. -/
theorem loadResults : Obligations.LoadResults := by
  intro s g x z reach act buf ho ha hv hr hc
  exact ⟨fun h ht => ld_starts ho ha hv hr (fun k hk => (hc k hk).2) (fun k hk => (hc k hk).1) h ht,
    fun h hm ht => ldx_starts ho ha hv hr (fun k hk => (hc k hk).2) (fun k hk => (hc k hk).1) h hm ht,
    fun line h hf hl => ldk_starts ha hv hr (fun k hk => (hc k hk).2) h hf hl⟩

/-! ### Stores through a record (R163) -/

theorem length_storeFrom_pois (x : MEM) (n : Nat) (y : Fibre) (a : Access) : (storeFrom x n y a).pois.length = n * tyBytes x.ty :=
  storeData_pois y x.data.toNat n (tyBytes x.ty) (tyBytes_cases x.ty)

/-- The bytes that a store takes from the registers of a passing fibre. -/
theorem data_storeFrom {z : Site} {g : Guard} {x : MEM} {n k : Nat} {y : Fibre} (hy : sget k z.w.fibres = some y) (a : Access) :
    (storeFrom x n (passed z.w (z.bundle g) k y) a).data = (List.range (n * tyBytes x.ty)).map (fun j =>
      ((sget k z.w.fibres).map (fun y => storedByte y x.data.toNat (tyBytes x.ty) j)).getD 0) := by
  rw [hy]
  refine (storeData_bytes (passed z.w (z.bundle g) k y) x.data.toNat n (tyBytes x.ty) (tyBytes_cases x.ty)).trans (List.map_congr_left fun j _ => ?_)
  simp only [storedByte, passed_rv, passed_rv2, Option.map_some, Option.getD_some]

/-- Settles O13: the bytes of a store are in memory as soon as its operation starts. -/
theorem storeResults : Obligations.StoreResults := by
  intro s g x z reach act buf ho ha hv hw hc h ht
  obtain ⟨re, -, hform⟩ := ht.1
  have hlen (k : Nat) (hk : k ∈ act) (y : Fibre) (hy : sget k z.w.fibres = some y) : (reach k).length = vecOf x * tyBytes x.ty := by
    exact (List.length_map _).symm.trans (formVas_length (hform k hk y hy))
  obtain ⟨m, p, hbody, hwrote⟩ := storesVia h
    { k := x.buf.toNat, off := x.off.toNat, fld := (x.mopx >>> 3).toNat, idx := x.idx.toNat, len := vecOf x * tyBytes x.ty,
      kind := .store, acc := 1, can := fun r => r.wr } (mk := fun f a => .ok (storeFrom x (vecOf x) f a))
    (acq := acquires x) (tag := fun y => y.ct.toNat) (data := fun k j => ((sget k z.w.fibres).map (fun y => storedByte y x.data.toNat (tyBytes x.ty) j)).getD 0)
    rfl hv hw ht (fun _ _ _ _ => rfl)
    (fun k hk y hy => ⟨rfl, rfl, rfl, rfl, rfl, rfl, rfl, rfl, by rw [hlen k hk y hy]; exact data_storeFrom hy _,
      by rw [hlen k hk y hy]; exact length_storeFrom_pois _ _ _ _⟩) ho ha (fun k hk => (hc k hk).2) (fun k hk => (hc k hk).1)
  refine ⟨_, performed h rfl rfl rfl, ?_, hwrote _ ?_ ?_⟩
  all_goals rw [show storeBody x (z.given g []) _ = _ from hbody]
  · rw [endIssue_mem, startOp_mem, endIssue_memPois, startOp_memPois]
    exact starts_of (s0 := s.withMem m p) h h.wave ha (by rw [form_is h rfl]; rfl) _
  · rw [endIssue_mem, startOp_mem]; rfl
  · rw [endIssue_memPois, startOp_memPois]; rfl

end Sys2Proof.Machine
end

section
/-! SUPPORT. Loads, stores and atomics on the stash, and atomics on memory (O14 to O16). -/

namespace Sys2Proof.Machine

theorem endIssue_gangs (s : State) (b : Bundle) : (endIssue s b).gangs = s.gangs := by unfold endIssue; split <;> rfl
theorem startOp_gangs (s : State) (b : Bundle) (k : OpKind) : (startOp s b k).gangs = s.gangs := by unfold startOp; dsimp only; split <;> rfl

section
variable {s : State} {g : Guard} {x : MEM} {z : Site} {i : Instr} {rel : Rel} {h : Gang}

/-! ### Starting an operation with other bytes of memory or of the stash -/

/-- An operation starts where a change of memory has passed by the issue. -/
theorem starts_withMem (hr : Ready s i g rel z) (ha : (z.bundle g).act ≠ []) (hl : z.f.ll = true) (m : List Host.Cell) (p : List Nat) (k : OpKind) {t : State}
    (ht : t = endIssue (startOp (begun (s.withMem m p) z.w (z.bundle g) i z.f) (z.given g []) k) (z.bundle g)) :
    Starts { s with mem := t.mem, memPois := t.memPois } t z.w (z.bundle g) z.c.header [] (fun _ y => y) (z.bundle g).act k := by
  have hm : t.mem = m := by rw [ht, endIssue_mem, startOp_mem]; rfl
  have hp : t.memPois = p := by rw [ht, endIssue_memPois, startOp_memPois]; rfl
  rw [hm, hp, ht]
  exact starts_of (s0 := s.withMem m p) hr hr.wave ha hl _

/-- An operation starts where a change of the gang's stash has passed by the issue; no other gang has changed. -/
theorem starts_withGang (hr : Ready s i g rel z) (ha : (z.bundle g).act ≠ []) (hl : z.f.ll = true) (hg : sget (gangOf s z.wk) s.gangs = some h)
    (f : Gang → Gang) (k : OpKind) {t : State}
    (ht : t = endIssue (startOp (begun (s.withGang (gangOf s z.wk) f) z.w (z.bundle g) i z.f) (z.given g []) k) (z.bundle g)) :
    Starts { s with gangs := t.gangs } t z.w (z.bundle g) z.c.header [] (fun _ y => y) (z.bundle g).act k
      ∧ sget (gangOf s z.wk) t.gangs = some (f h) ∧ ∀ j, j ≠ gangOf s z.wk → sget j t.gangs = sget j s.gangs := by
  have hgs : t.gangs = smod (gangOf s z.wk) f s.gangs := by rw [ht, endIssue_gangs, startOp_gangs]; rfl
  rw [hgs]
  refine ⟨?_, by rw [sget_smod_self, hg]; rfl, fun j hj => sget_smod_ne hj f _⟩
  rw [ht]
  exact starts_of (s0 := s.withGang (gangOf s z.wk) f) hr hr.wave ha hl _

/-! ### `lds` and `sts` (R164) -/

variable {place : Nat → Nat} (ho : Open s) (ha : (z.bundle g).act ≠ []) (hg : sget (gangOf s z.wk) s.gangs = some h)
  (hp : InStash s z g x.idx (x.off.toNat * tyBytes x.ty) (vecOf x * tyBytes x.ty) place)
  (hc : ∀ k ∈ (z.bundle g).act, Clear s z.wk [k] true (acquires x) (addrs (place k) (vecOf x * tyBytes x.ty)))
include ho ha hg hp hc

theorem lds_starts (hr : Ready s (.lds g x) g .none z) :
    ∃ t, exec (.lds g x) s = .next t ∧ Starts s t z.w (z.bundle g) z.c.header [] (fun _ y => y) (z.bundle g).act
      (loadOp x (vecOf x) (z.bundle g).act (fun k => (addrs (place k) (vecOf x * tyBytes x.ty)).map (stashByte h))) := by
  refine ⟨_, performed hr rfl rfl rfl, ?_⟩
  have hgk : gangOf (begun s z.w (z.bundle g) (.lds g x) z.f) (z.given g []).wk = gangOf s z.wk := begun_gangOf s z.w (z.bundle g) _ z.f hr.wave
  unfold ldsBody startFormed
  dsimp only
  rw [viaStash_go (mk := fun _ a => loadInto x (vecOf x) a) hr ho hg hp (fun _ _ => rfl)]
  dsimp only
  rw [startAccesses_stashLoads (G := h) (begun_open z.w (z.bundle g) _ z.f ho) (by rw [hgk]; exact hg) _ (by simpa using theP_ne ha)
      (List.forall_mem_map.2 fun e he => ⟨rfl, rfl, rfl, by
        rw [hgk]
        exact notOwned (hp e.1 (mem_theP he).1 e.2 (mem_theP he).2).2.2.2, begun_clear z.w (z.bundle g) _ z.f (hc e.1 (mem_theP he).1)⟩), List.map_map]
  have hop := loadOp_eq x (vecOf x) z g
    (fun k y => loadInto x (vecOf x) (stashAccess s z (z.given g []) .load k y (place k) (vecOf x * tyBytes x.ty))) (fun _ _ _ => rfl)
    (fun k => (addrs (place k) (vecOf x * tyBytes x.ty)).map (stashByte h))
  rw [← hop]
  exact starts_of hr hr.wave ha (by rw [form_is hr rfl]; rfl) _

theorem sts_starts (hw : NoPhaseWaiters s) (hr : Ready s (.sts g x) g (relOf x.ord .each) z) :
    ∃ t h', exec (.sts g x) s = .next t
      ∧ Starts { s with gangs := t.gangs } t z.w (z.bundle g) z.c.header [] (fun _ y => y) (z.bundle g).act (.store [])
      ∧ sget (gangOf s z.wk) t.gangs = some h' ∧ (∀ j, j ≠ gangOf s z.wk → sget j t.gangs = sget j s.gangs)
      ∧ StashTook h h' (z.bundle g).act place (vecOf x * tyBytes x.ty)
          (fun k j => ((sget k z.w.fibres).map (fun y => storedByte y x.data.toNat (tyBytes x.ty) j)).getD 0) := by
  have hgk : gangOf (begun s z.w (z.bundle g) (.sts g x) z.f) (z.given g []).wk = gangOf s z.wk := begun_gangOf s z.w (z.bundle g) _ z.f hr.wave
  let acc (k : Nat) (y : Fibre) : Access := storeFrom x (vecOf x) (passed z.w (z.bundle g) k y)
    (stashAccess s z (z.given g []) .store k y (place k) (vecOf x * tyBytes x.ty))
  obtain ⟨f, hstart, hf⟩ := startAccesses_stashStores (s := begun s z.w (z.bundle g) (.sts g x) z.f) (b := z.given g [])
    (begun_open z.w (z.bundle g) _ z.f ho) (begun_noPhaseWaiters _ _ _ _ hw) ((theP (z.bundle g) z.w).map (fun e => acc e.1 e.2)) (by simpa using theP_ne ha)
    (List.forall_mem_map.2 fun e he => by
      obtain ⟨hk, hy⟩ := mem_theP he
      have hclear := begun_clear z.w (z.bundle g) (.sts g x) z.f (hc e.1 hk)
      refine ⟨rfl, rfl, ?_, hclear⟩
      rw [hgk]
      exact notOwned (hp e.1 hk e.2 hy).2.2.2)
  rw [hgk, ← begun_withGang] at hstart
  have hbody : stsBody x (z.given g []) (begun s z.w (z.bundle g) (.sts g x) z.f)
      = startOp (begun (s.withGang (gangOf s z.wk) f) z.w (z.bundle g) (.sts g x) z.f) (z.given g []) (.store []) := by
    unfold stsBody startFormed
    dsimp only
    rw [viaStash_go (mk := storeFrom x (vecOf x)) hr ho hg hp (fun _ _ => rfl)]
    exact hstart
  obtain ⟨hst, hself, hother⟩ := starts_withGang hr ha (by rw [form_is hr rfl]; rfl) hg f (.store []) rfl
  refine ⟨_, f h, (performed hr rfl rfl rfl).trans (by rw [hbody]), hst, hself, hother, ?_⟩
  obtain ⟨p, hfh⟩ := hf h (ho.windows _ (sget_mem hg))
  rw [hfh]
  let pois (k : Nat) : List Bool := ((sget k z.w.fibres).map (fun y => (acc k y).pois)).getD []
  have hcells : ((theP (z.bundle g) z.w).map (fun e => acc e.1 e.2)).map (fun a => a.va.zip (a.data.zip a.pois))
      = (z.bundle g).act.map (fun k => (addrs (place k) (vecOf x * tyBytes x.ty)).zip (((List.range (vecOf x * tyBytes x.ty)).map (fun j =>
          ((sget k z.w.fibres).map (fun y => storedByte y x.data.toNat (tyBytes x.ty) j)).getD 0)).zip (pois k))) := by
    rw [← theP_map z g, List.map_map]
    refine List.map_congr_left fun e he => ?_
    obtain ⟨-, hy⟩ := mem_theP he
    have hpois : pois e.1 = (acc e.1 e.2).pois := by simp only [pois, hy, Option.map_some, Option.getD_some]
    rw [hpois, ← data_storeFrom hy]
    rfl
  rw [hcells]
  refine stashTook fun k hk => ?_
  obtain ⟨y, hy⟩ := act_fibre hk
  simp only [pois, hy, Option.map_some, Option.getD_some]
  exact length_storeFrom_pois _ _ _ _
end

/-- Settles O14: a load starts an operation with the stash's bytes; a store's bytes are in the stash as its operation starts. -/
theorem stashLoadAndStoreResults : Obligations.StashLoadAndStoreResults := by
  intro s g x z place h act n ho ha hg hp hc
  exact ⟨lds_starts ho ha hg hp hc, sts_starts ho ha hg hp hc⟩

/-- Settles O15: the fibres of one location are one group, combined in slot order. -/
theorem atomicResultsInMemory : Obligations.AtomicResultsInMemory := by
  intro s g x z r tag act buf a after hm7 ha ho hv hat hpo htag hc
  refine ⟨fun h hf ht => ?atom, fun h hf ht => ?red⟩
  case atom =>
    obtain ⟨m, p, hbody, hwrote⟩ := atomMem h x false hm7 ha ho hv hat hpo htag hc hf ht
    refine ⟨_, performed h rfl rfl rfl, starts_withMem h ha (by rw [form_is h rfl]; rfl) m p _ (congrArg (endIssue · (z.bundle g)) hbody), hwrote _ ?_ ?_⟩
    all_goals rw [show atomBody x .atom (z.given g []) _ = _ from hbody]
    · rw [endIssue_mem, startOp_mem]; rfl
    · rw [endIssue_memPois, startOp_memPois]; rfl
  case red =>
    obtain ⟨m, p, hbody, hwrote⟩ := atomMem h x true hm7 ha ho hv hat hpo htag hc hf ht
    refine ⟨_, performed h rfl rfl rfl, starts_withMem h ha (by rw [form_is h rfl]; rfl) m p _ (congrArg (endIssue · (z.bundle g)) hbody), hwrote _ ?_ ?_⟩
    all_goals rw [show atomBody x .red (z.given g []) _ = _ from hbody]
    · rw [endIssue_mem, startOp_mem]; rfl
    · rw [endIssue_memPois, startOp_memPois]; rfl

/-! ### One operand at a location (R168) -/

/-- One fibre gets the value that it found; it leaves what the operation makes of it and of its operand. -/
theorem atomGroup_one (op : BitVec 4) (ty : BitVec 5) (m a b : W64) :
    atomGroup op ty m [(a, b)] = (if op = 7 then (if nval ty m = nval ty a then b else m) else atomComb op ty m a, [m]) := by
  unfold atomGroup
  by_cases h7 : op = 7#4
  · simp [h7]
  · by_cases h6 : op = 6#4
    · simp [h6, atomComb]
    · simp [h7, h6, prefixes]

theorem nval_ires (ty : BitVec 5) (v : Int) : nval ty (ires ty false v) = wrap (tyWidth ty) v := by
  have hlt : wrap (tyWidth ty) v < 2 ^ tyWidth ty := by rw [wrap_eq_ofInt]; exact BitVec.isLt _
  have hle : 2 ^ tyWidth ty ≤ 2 ^ 64 := Nat.pow_le_pow_right (by decide) (tyWidth_le ty)
  simp only [nval, ires, Bool.false_eq_true, if_false, BitVec.toNat_ofNat, Nat.mod_eq_of_lt (Nat.lt_of_lt_of_le hlt hle), Nat.mod_eq_of_lt hlt]

theorem ival_unsigned {ty : BitVec 5} (h : isSigned ty = false) (v : W64) : ival ty v = nval ty v := by
  rw [ival, h, toInt_unsigned]; rfl

/-- The operations of R168 on an unsigned integer type. -/
theorem atomComb_unsigned {ty : BitVec 5} (hs : isSigned ty = false) (hf : ¬ (ty = 0xB#5 ∨ ty = 0xA#5)) (m a : W64) :
    nval ty (atomComb 0 ty m a) = (nval ty m + nval ty a) % 2 ^ tyWidth ty
    ∧ nval ty (atomComb 1 ty m a) = min (nval ty m) (nval ty a) ∧ nval ty (atomComb 2 ty m a) = max (nval ty m) (nval ty a) := by
  refine ⟨?_, ?_, ?_⟩
  · have e : atomComb 0 ty m a = opAdd false ty m a 0 := by simp [atomComb, redOp, hf]
    rw [e, opAdd, nval_ires, ival_unsigned hs, ival_unsigned hs, wrap, ← Nat.cast_add, ← Int.natCast_mod, Int.toNat_natCast]
  · have e : atomComb 1 ty m a = opMin ty m a 0 := by simp [atomComb, redOp, hf]
    rw [e, opMin, ival_unsigned hs, ival_unsigned hs]
    split <;> omega
  · have e : atomComb 2 ty m a = opMax ty m a 0 := by simp [atomComb, redOp, hf]
    rw [e, opMax, ival_unsigned hs, ival_unsigned hs]
    split <;> omega

/-- Settles O16: the group at a location of the stash as at one of memory; each operation by its meaning on one operand. -/
theorem atomicResultsInTheStash : Obligations.AtomicResultsInTheStash := by
  refine ⟨?stash, ?ops⟩
  case stash =>
    intro s g x z p h act a after hm7 ha ho hw hg hp hc hpo
    refine ⟨fun hr => ?atom, fun hr => ?red⟩
    case atom =>
      obtain ⟨f, hbody, htook⟩ := atomStash hr x false hm7 ha ho hw hg hp hc hpo
      obtain ⟨hst, hself, hother⟩ := starts_withGang hr ha (by rw [form_is hr rfl]; rfl) hg f _ (congrArg (endIssue · (z.bundle g)) hbody)
      exact ⟨_, performed hr rfl rfl rfl, hst, hother, f h, hself, htook⟩
    case red =>
      obtain ⟨f, hbody, htook⟩ := atomStash hr x true hm7 ha ho hw hg hp hc hpo
      obtain ⟨hst, hself, hother⟩ := starts_withGang hr ha (by rw [form_is hr rfl]; rfl) hg f _ (congrArg (endIssue · (z.bundle g)) hbody)
      exact ⟨_, performed hr rfl rfl rfl, hst, hother, f h, hself, htook⟩
  case ops =>
    intro ty m a b hty n new
    have hs : isSigned ty = false := by revert hty; revert ty; decide
    have hf : ¬ (ty = 0xB#5 ∨ ty = 0xA#5) := by revert hty; revert ty; decide
    obtain ⟨hadd, hmin, hmax⟩ := atomComb_unsigned hs hf m a
    have hnew (op : BitVec 4) : new op = n (if op = 7 then (if nval ty m = nval ty a then b else m) else atomComb op ty m a) :=
      congrArg (fun e => n e.1) (atomGroup_one op ty m a b)
    exact ⟨(hnew 0).trans hadd, (hnew 1).trans hmin, (hnew 2).trans hmax, hnew 3, hnew 4, hnew 5, hnew 6,
      (hnew 7).trans (apply_ite n (nval ty m = nval ty a) b m), fun op _ => by rw [atomGroup_one]⟩

end Sys2Proof.Machine
end

section
/-! SUPPORT. Cache control, fences, multicast loads and stash-mapped windows at issue (O17, O18). -/

namespace Sys2Proof.Machine

/-! ### What tables are read from -/

theorem rd_congr {s t : State} (hm : t.mem = s.mem) (hg : t.gangs = s.gangs) (pa n : Nat) : rd t pa n = rd s pa n := by
  unfold rd cByte pByte; rw [hm, hg]

theorem transBlock_congr {s t : State} (hm : t.mem = s.mem) (hg : t.gangs = s.gangs) (hc : t.contexts = s.contexts) (ctx : Nat) :
    transBlock t ctx = transBlock s ctx := by
  unfold transBlock ctxRd
  rw [hc]
  simp only [rd_congr hm hg]

theorem walkFrom_congr {s t : State} (hm : t.mem = s.mem) (hg : t.gangs = s.gangs) (va lvl table : Nat) :
    walkFrom t va lvl table = walkFrom s va lvl table := by
  induction lvl generalizing table with
  | zero => rfl
  | succ lvl ih => simp only [walkFrom, rd_congr hm hg, ih]

/-- A walk reads memory, windows and the context alone. -/
theorem walk_congr {s t : State} (hm : t.mem = s.mem) (hg : t.gangs = s.gangs) (hc : t.contexts = s.contexts) (ctx va : Nat) :
    walk t ctx va = walk s ctx va := by
  simp only [walk, transBlock_congr hm hg hc, walkFrom_congr hm hg]

theorem isTagged_begun (s : State) (w : Wave) (b : Bundle) (i : Instr) (f : Form) (ctx va : Nat) :
    isTagged (begun s w b i f) ctx va = isTagged s ctx va := by
  unfold isTagged
  rw [walk_congr (t := begun s w b i f) (s := s) rfl rfl rfl]

/-! ### Instructions that start one operation for their bundle -/

section
variable {s : State} {g : Guard} {x : MEM} {z : Site} {i : Instr} {rel : Rel}

/-- A meaning that starts an operation in the state that the issue has reached. -/
theorem starts_by {f : Form} {body : Bundle → State → State} {k : OpKind} (h : Ready s i g rel z) (ha : (z.bundle g).act ≠ []) (e : form i = some f)
    (hc : f.const = none) (hl : f.ll = true) (hx : exec i s = issue i g rel body s)
    (hb : body (z.given g []) (begun s z.w (z.bundle g) i z.f) = startOp (begun s z.w (z.bundle g) i z.f) (z.given g []) k)
    (hi : ∀ z, InRange i g z := by intro _ _ _ _ _; rfl) :
    ∃ t, exec i s = .next t ∧ Starts s t z.w (z.bundle g) z.c.header [] (fun _ y => y) (z.bundle g).act k := by
  refine ⟨_, performed h e hc hx hi, ?_⟩
  rw [hb]
  exact starts_of h h.wave ha (by rw [form_is h e]; exact hl) k

theorem startOnce_given (ha : (z.bundle g).act ≠ []) (k : OpKind) (t : State) : startOnce k (z.given g []) t = startOp t (z.given g []) k := by
  unfold startOnce
  rw [given_some ha]
  rfl

/-- The lines that a line instruction's fibres name. -/
theorem viaLine_go {va : Nat → Nat} (h : Ready s i g rel z) (hv : (bufAt z.w x.buf.toNat).valid = true) (hr : (bufAt z.w x.buf.toNat).rd = true)
    (hf : Forms s z g (bufAt z.w x.buf.toNat) x.idx x.off.toNat 0 1 (fun k => [va k])) :
    ∃ accs, viaLine x (z.given g []) (begun s z.w (z.bundle g) i z.f) = (begun s z.w (z.bundle g) i z.f, accs)
      ∧ linesOf accs = (theP (z.bundle g) z.w).map (fun e => (va e.1 - va e.1 % 128, e.2.ct.toNat)) := by
  let plan : Plan := { k := x.buf.toNat, off := x.off.toNat, idx := x.idx.toNat, len := 1, kind := .load, acc := 0, can := fun r => r.rd }
  let b : Bundle := { z.given g [] with waived := (z.given g []).act }
  refine ⟨_, viaBuffer_go h b rfl rfl plan (idx := x.idx) rfl hv hr hf (acc := fun k y => startAccess s z b (bufAt z.w x.buf.toNat) plan k y [va k])
    (fun _ _ _ _ => rfl) (fun _ _ _ _ => rfl), ?_⟩
  unfold linesOf
  rw [List.map_map]
  rfl
end

/-! ### `ldmc` (R166) -/

/-- A multicast access whose bytes are served from untagged pages and that nothing holds back. -/
theorem tryMulticast_direct {s : State} {core wk : Nat} {a : Access} {l : List (Nat × Nat)} (hva : a.va = l.map (·.1))
    (hsilt : siltOverlap s core a.ctx a.va = false) (hbar : (opsOf s wk).any (OpKind.bars a.slot) = false)
    (hserved : ∀ p ∈ l, Served s core a.ctx 0 .read p.1 p.2) (htag : ∀ p ∈ l, isTagged s a.ctx p.1 = false) :
    tryMulticast s core wk a = (s, .done (l.map (·.2))) := by
  have hfind : a.va.find? (isTagged s a.ctx) = none := by
    rw [hva, List.find?_eq_none, List.forall_mem_map]
    exact fun p hp => by rw [htag p hp]; exact Bool.false_ne_true
  unfold tryMulticast
  rw [hsilt, hbar, hva, physical_served hserved]
  dsimp only
  rw [← hva, hfind]
  rfl

/-- Such accesses are translated, and the state does not change. -/
theorem tryMulticasts_direct {β : Type} {s : State} {core wk : Nat} (acc : β → Access) (pas : β → List Nat) (l : List β)
    (h : ∀ e ∈ l, tryMulticast s core wk (acc e) = (s, .done (pas e))) :
    tryMulticasts s core wk (l.map acc) = (s, l.map (fun e => { acc e with pa := pas e }), [], []) := by
  have step (l : List β) (h : ∀ e ∈ l, tryMulticast s core wk (acc e) = (s, .done (pas e))) (done : List Access) :
      (l.map acc).foldl (fun (t : State × List Access × List Access × List (Access × BitVec 16 × W64)) a =>
        let a := a.held s t.1
        match tryMulticast t.1 core wk a with
        | (s, .held) => (s, t.2.1, t.2.2.1 ++ [a.held t.1 s], t.2.2.2)
        | (s, .fail sub addr) => (s, t.2.1, t.2.2.1, t.2.2.2 ++ [(a, sub, addr)])
        | (s, .done pas) => (s, t.2.1 ++ [{ a with pa := pas }], t.2.2.1, t.2.2.2)) (s, done, [], [])
      = (s, done ++ l.map (fun e => { acc e with pa := pas e }), [], []) := by
    induction l generalizing done with
    | nil => simp
    | cons e l ih =>
      obtain ⟨he, hl⟩ := List.forall_mem_cons.1 h
      simp only [List.map_cons, List.foldl_cons, Access.held_same, he]
      rw [ih hl]
      simp
  exact step l h []

/-- `ldmc` holds the physical bytes of its fibres, and asks for their lines. -/
theorem ldmc_starts {s : State} {g : Guard} {x : MEM} {z : Site} {reach : Nat → List (Nat × Nat)} {mask : BitVec 16}
    (hmask : mask = (z.w.rg (x.mopx &&& 0x7F).toNat).extractLsb' 0 16) (hin : mask.getLsbD (coreNo z.wk % 16) = true)
    (hv : (bufAt z.w x.buf.toNat).valid = true) (hr : (bufAt z.w x.buf.toNat).rd = true) (h : Ready s (.ldmc g x) g .none z)
    (ha : (z.bundle g).act ≠ [])
    (hfree : ∀ k ∈ (z.bundle g).act, siltOverlap s (coreNo z.wk) (ctxOf s z.wk) ((reach k).map (·.1)) = false
      ∧ (opsOf s z.wk).any (OpKind.bars k) = false ∧ ∀ p ∈ reach k, isTagged s (ctxOf s z.wk) p.1 = false)
    (ht : Through s z g (bufAt z.w x.buf.toNat) x.idx x.off.toNat 0 (2 ^ x.scope.toNat * tyBytes x.ty) (fun _ => 0) .read reach) :
    ∃ t accs, exec (.ldmc g x) s = .next t
      ∧ Starts s t z.w (z.bundle g) z.c.header [] (fun _ y => y) (z.bundle g).act
          (.ldmc accs [] mask (dedup [] ((z.bundle g).act.map (fun k => (reach k).map (fun p => p.2 - p.2 % 128))).flatten) [] [])
      ∧ accs.map (fun a => (a.slot, a.va, a.pa, a.reg, a.n, a.w, a.ty))
          = (z.bundle g).act.map (fun k => (k, (reach k).map (·.1), (reach k).map (·.2), x.data.toNat, 2 ^ x.scope.toNat, tyBytes x.ty, x.ty)) := by
  let plan : Plan := { k := x.buf.toNat, off := x.off.toNat, idx := x.idx.toNat, len := 2 ^ x.scope.toNat * tyBytes x.ty, kind := .load, acc := 0
                       can := fun r => r.rd }
  let acc (k : Nat) (y : Fibre) : Access :=
    { loadInto x (2 ^ x.scope.toNat) (startAccess s z (z.given g []) (bufAt z.w x.buf.toNat) plan k y ((reach k).map (·.1))) with scope := 0 }
  let accs : List Access := (theP (z.bundle g) z.w).map (fun e => { acc e.1 e.2 with pa := (reach e.1).map (·.2) })
  have htry := tryMulticasts_direct (s := begun s z.w (z.bundle g) (.ldmc g x) z.f) (core := coreNo z.wk) (wk := z.wk)
    (fun e => acc e.1 e.2) (fun e => (reach e.1).map (·.2)) (theP (z.bundle g) z.w) (fun e he => by
      obtain ⟨hk, hy⟩ := mem_theP he
      obtain ⟨hsilt, hbar, htag⟩ := hfree e.1 hk
      refine tryMulticast_direct rfl ?_ hbar (fun p hp => begun_served _ _ _ _ (ht.2 e.1 hk e.2 hy p hp))
        (fun p hp => (isTagged_begun s _ _ _ _ _ _).trans (htag p hp))
      unfold siltOverlap at hsilt ⊢
      rw [begun_silt]
      exact hsilt)
  have hlines : mcLines accs = dedup [] ((z.bundle g).act.map (fun k => (reach k).map (fun p => p.2 - p.2 % 128))).flatten := by
    rw [← theP_map z g]
    simp only [mcLines, accs, List.map_map, Function.comp_def]
  have hbody : ldmcBody x (z.given g []) (begun s z.w (z.bundle g) (.ldmc g x) z.f)
      = startOp (begun s z.w (z.bundle g) (.ldmc g x) z.f) (z.given g []) (.ldmc accs [] mask (mcLines accs) [] []) := by
    unfold ldmcBody
    dsimp only
    rw [given_g h, ← hmask, viaBuffer_go h (z.given g []) rfl rfl plan (idx := x.idx) (acc := acc) rfl hv hr ht.1
      (fun k _ y _ => by simp only [given_wk, hin, if_true]; rfl) (fun _ _ _ _ => rfl)]
    dsimp only
    rw [given_wk z g [], htry]
    rfl
  obtain ⟨t, hexec, hst⟩ := starts_by h ha rfl rfl rfl rfl hbody
  refine ⟨t, accs, hexec, hlines ▸ hst, ?_⟩
  rw [← theP_map z g]
  simp only [accs, List.map_map]
  rfl

/-- Settles O17: a fence blocks its fibres; each of the others starts one operation with what it names. -/
theorem cacheControlResults : Obligations.CacheControlResults := by
  intro s g x z act buf starts
  refine ⟨fun h => ⟨_, performed h rfl rfl rfl, ?_⟩, fun h ha => starts_by h ha rfl rfl rfl rfl (startOnce_given ha _ _),
    fun h ha => starts_by h ha rfl rfl rfl rfl (startOnce_given ha _ _), fun hv h ha => ?_, fun va hv hr hf => ⟨fun h ha => ?_, fun h ha => ?_, fun h ha => ?_⟩,
    fun reach mask hmask hin hv hr _ h ha hfree ht => ldmc_starts hmask hin hv hr h ha hfree ht⟩
  · exact runs_leaves h (fun _ y => { y with blocked := some .fence, pc := (z.bundle g).pc, base := some (z.bundle g).place }) _
      (fun _ _ _ _ _ _ _ => rfl) (fun _ _ _ _ => rfl)
  · refine starts_by h ha rfl rfl rfl rfl ?_
    unfold prefBody
    rw [begun_rec4 h]
    exact (if_pos hv).trans (startOnce_given ha _ _)
  · obtain ⟨accs, hvia, hlines⟩ := viaLine_go h hv hr hf
    refine starts_by h ha rfl rfl rfl rfl ?_
    simp only [cflushBody, hvia, hlines]
  · obtain ⟨accs, hvia, hlines⟩ := viaLine_go h hv hr hf
    refine starts_by h ha rfl rfl rfl rfl ?_
    simp only [cinvKBody, hvia, hlines, List.map_map, Function.comp_def, theP_map z g (fun k => va k - va k % 128), act]
  · obtain ⟨accs, hvia, -⟩ := viaLine_go h hv hr hf
    refine starts_by h ha rfl rfl rfl rfl ?_
    simp only [cinvL1Body, hvia]

/-! ### Stash-mapped windows (R179, R181) -/

/-- The state with other contexts' records. -/
def State.withContexts (s : State) (c : Sparse Context) : State := { s with contexts := c }

/-- A change of the contexts passes by an issue. -/
theorem begun_withContexts (s : State) (c : Sparse Context) (w : Wave) (b : Bundle) (i : Instr) (f : Form) :
    begun (s.withContexts c) w b i f = (begun s w b i f).withContexts c := by
  have hres (all act : List Nat) : resources (s.withContexts c) b.wk w i f all act = (resources s b.wk w i f all act).withContexts c := by
    unfold resources countIssue
    simp only [show firstOfPair (s.withContexts c) w = firstOfPair s w from rfl]
    repeat' split
    all_goals rfl
  unfold begun occupy
  rw [hres]
  rfl

theorem tagHold_startOp (s : State) (b : Bundle) (k : OpKind) (ctx tag : Nat) :
    tagHold (startOp s b k) ctx tag = startOp (s.withContexts (tagHold s ctx tag).contexts) b k := by
  unfold startOp
  dsimp only
  split <;> rfl

theorem gangOf_begun (s : State) (w : Wave) (b : Bundle) (i : Instr) (f : Form) (j : Nat) : gangOf (begun s w b i f) j = gangOf s j := by
  unfold gangOf
  rw [begun_waves]
  by_cases hj : j = b.wk
  · rw [hj, sget_smod_self]
    cases sget b.wk s.waves <;> rfl
  · rw [sget_smod_ne hj]
    cases sget j s.waves <;> rfl

theorem otherWins_begun (s : State) (w : Wave) (b : Bundle) (i : Instr) (f : Form) (gk n : Nat) :
    otherWins (begun s w b i f) gk n = otherWins s gk n := by
  unfold otherWins
  simp only [gangOf_begun]
  rfl

/-- `smap` starts the operation that installs its window, and the window's tag has one holder more. -/
theorem smap_starts {s : State} {g : Guard} {x : MEM} {z : Site} {k : Nat} {y : Fibre} {re : RegionEntry} {win : Window}
    (h : Ready s (.smap g x) g .none z) (hk : (z.bundle g).act.head? = some k) (hy : sget k z.w.fibres = some y)
    (hd : y.vp x.data.toNat = false) (hx : y.vp x.idx.toNat = false)
    (hre : (coreOf s (coreNo z.wk)).regions.find? (fun e => e.ctx = ctxOf s z.wk && e.rid = (bufAt z.w x.buf.toNat).rid) = some re)
    (hwin : smapWin (begun s z.w (z.bundle g) (.smap g x) z.f) (z.given g []) x (passed z.w (z.bundle g) k y) (bufAt z.w x.buf.toNat) re = .ok win) :
    ∃ t, exec (.smap g x) s = .next t
      ∧ Starts { s with contexts := t.contexts } t z.w (z.bundle g) z.c.header [] (fun _ y => y) (z.bundle g).act (.smap (bits x.mopx.toNat 0 3) win)
      ∧ t.contexts = (tagHold s win.ctx win.tag.toNat).contexts := by
  have hmem : k ∈ (z.bundle g).act := List.mem_of_head? hk
  have hctx : ctxOf (begun s z.w (z.bundle g) (.smap g x) z.f) (z.given g []).wk = ctxOf s z.wk := begun_ctxOf s z.w _ _ z.f h.wave
  have hreg : regionOf (begun s z.w (z.bundle g) (.smap g x) z.f) (some (coreNo (z.given g []).wk)) (ctxOf s z.wk) (bufAt z.w x.buf.toNat).rid
      = (begun s z.w (z.bundle g) (.smap g x) z.f, re) := by
    unfold regionOf
    dsimp only
    rw [begun_regions, given_wk, hre]
  have hbody : smapBody x (z.given g []) (begun s z.w (z.bundle g) (.smap g x) z.f)
      = startOp (begun (s.withContexts (tagHold s win.ctx win.tag.toNat).contexts) z.w (z.bundle g) (.smap g x) z.f) (z.given g [])
          (.smap (bits x.mopx.toNat 0 3) win) := by
    unfold smapBody
    rw [show (z.given g []).act.head? = some k from hk, Option.bind_some, given_wk, begun_act h hmem hy]
    simp only [List.find?_cons, List.find?_nil, passed_vp, hd, hx]
    rw [begun_rec4 h, show bufOf (z.w.record x.buf.toNat) = bufAt z.w x.buf.toNat from rfl, ← given_wk z g [], hctx, hreg]
    dsimp only
    rw [hwin]
    dsimp only
    rw [tagHold_startOp, begun_withContexts]
    rfl
  have hcontexts (t : State) (b : Bundle) (k : OpKind) : (endIssue (startOp t b k) (z.bundle g)).contexts = t.contexts := by
    unfold endIssue startOp
    dsimp only
    split <;> split <;> rfl
  refine ⟨endIssue (startOp (begun (s.withContexts (tagHold s win.ctx win.tag.toNat).contexts) z.w (z.bundle g) (.smap g x) z.f) (z.given g [])
    (.smap (bits x.mopx.toNat 0 3) win)) (z.bundle g), (performed h rfl rfl rfl).trans (by rw [hbody]), ?_, hcontexts _ _ _⟩
  rw [hcontexts]
  exact starts_of (s0 := s.withContexts (tagHold s win.ctx win.tag.toNat).contexts) h h.wave (List.ne_nil_of_mem hmem) (by rw [form_is h rfl]; rfl) _

/-- Settles O18: unmapping and writing back start their operation; `smap` starts that of its window where every check passes. -/
theorem windowInstructions : Obligations.WindowInstructions := by
  intro s g x z act n starts
  refine ⟨fun h ha => starts_by h ha rfl rfl rfl rfl (startOnce_given ha _ _), fun h ha => starts_by h ha rfl rfl rfl rfl (startOnce_given ha _ _),
    fun h ha => starts_by h ha rfl rfl rfl rfl (startOnce_given ha _ _), ?_⟩
  intro k y re hk hy buf c size st off va hd hx hv hswz hr hext hst hva hend hre hin hspan hwins h
  refine smap_starts h hk hy hd hx hre ?_
  have hgk : gangOf (begun s z.w (z.bundle g) (.smap g x) z.f) (z.given g []).wk = gangOf s z.wk := gangOf_begun s _ _ _ _ _
  have hctx : ctxOf (begun s z.w (z.bundle g) (.smap g x) z.f) (z.given g []).wk = ctxOf s z.wk := begun_ctxOf s z.w _ _ z.f h.wave
  have hspan' : stashSpan (begun s z.w (z.bundle g) (.smap g x) z.f) (gangOf s z.wk) = stashSpan s (gangOf s z.wk) := rfl
  have hany : (otherWins s (gangOf s z.wk) n).any (fun w => w.stash < st + size && st < w.stash + w.size) = false := by
    rw [List.any_eq_false]
    intro w hw
    have := hwins w hw
    simp only [Bool.and_eq_true, decide_eq_true_eq]
    omega
  have hbeyond : (decide (2 ^ 57 < va + size) || !inRegion re va size) = false := by rw [hin, decide_eq_false (Nat.not_lt.2 hend)]; rfl
  unfold smapWin
  simp only [passed_rv, passed_ct, hgk, hctx, hspan', otherWins_begun]
  rw [if_neg (by simp [hv, hswz, buf]), if_neg (by simp [hr, buf]), if_neg (Nat.not_lt.2 hext),
    if_neg (by simp [hst, hva, st, va, buf, off]), if_neg (Bool.eq_false_iff.1 hbeyond), if_neg (Nat.not_lt.2 hspan),
    if_neg (by rw [hany]; exact Bool.false_ne_true)]

end Sys2Proof.Machine
end

section
/-! SUPPORT. Steps of what waits on memory (O37): the Silt log, fences, monitored words, the page walker and the demand ring. -/

namespace Sys2Proof.Machine

/-! ### Retrying where nothing is held -/

/-- An operation that holds no access, no graphics fibre and no record to try again. -/
def OpKind.unheld : OpKind → Prop
  | .load _ _ held | .store held | .ldmc _ held _ _ _ _ => held = []
  | .gfx _ _ _ held => held = []
  | .launch _ _ => False
  | _ => True

/-- No operation holds anything to try again. -/
def Unheld (s : State) : Prop := ∀ e ∈ s.ops, e.2.kind.unheld

theorem Quiet.unheld {s : State} (h : Quiet s) : Unheld s := h.ops

namespace Unheld

variable {s : State} (h : Unheld s)
include h

theorem retryOp_same (n : Nat) : retryOp s n = s := by
  unfold retryOp
  cases hn : sget n s.ops with
  | none => rfl
  | some o =>
    have hheld := h _ (sget_mem hn)
    dsimp only at hheld ⊢
    split
    · next hk => rw [hk] at hheld; rw [show _ = [] from hheld]; rfl
    · next hk => rw [hk] at hheld; rw [show _ = [] from hheld]; rfl
    · rfl

theorem retryMulticast_same (n : Nat) : retryMulticast s n = s := by
  unfold retryMulticast
  cases hn : sget n s.ops with
  | none => rfl
  | some o =>
    have hheld := h _ (sget_mem hn)
    dsimp only at hheld ⊢
    split
    · next hk => rw [hk] at hheld; rw [show _ = [] from hheld]; rfl
    · rfl

theorem advanceLaunch_same (n : Nat) : advanceLaunch s n = s := by
  unfold advanceLaunch
  cases hn : sget n s.ops with
  | none => rfl
  | some o =>
    have hheld := h _ (sget_mem hn)
    dsimp only at hheld ⊢
    split
    · next hk => rw [hk] at hheld; exact hheld.elim
    · rfl

theorem retryMem_same (only : Option Nat) : retryMem s only = s := by
  have hall : retryAll s only = s := foldl_same _ _ _ fun n _ => h.retryOp_same n
  unfold retryMem
  rw [hall]
  refine foldl_same _ _ _ fun n _ => ?_
  rw [h.retryMulticast_same, h.advanceLaunch_same]

end Unheld

/-! ### The Silt log (R171) -/

/-- Memory takes the bytes of one write, as `Wrote` says it. -/
theorem wrote_writeBytes {s : State} (ho : Open s) {r : List (Nat × Nat)} {d : List Byte} {data : Nat → Byte}
    (hd : ∀ j < r.length, d[j]? = some (data j)) (pois : Bool) :
    Wrote s (writeBytes s ((r.map (·.2)).zip d) pois) [0] (fun _ => r) (fun _ => data) := by
  have hcell {c : Host.Cell} (hc : c ∈ (r.map (·.2)).zip d) : ∃ j v, r[j]? = some (v, c.1) ∧ c.2 = data j := by
    obtain ⟨j, hj⟩ := List.mem_iff_getElem?.1 hc
    rw [List.getElem?_zip_eq_some, List.getElem?_map, Option.map_eq_some_iff] at hj
    obtain ⟨⟨q, hq, hq2⟩, hdj⟩ := hj
    have hlt : j < r.length := (List.getElem?_eq_some_iff.1 hq).1
    rw [hd j hlt] at hdj
    exact ⟨j, q.1, by rw [hq, ← hq2], (Option.some.inj hdj).symm⟩
  rw [writeBytes_open ho]
  refine ⟨fun k hk j v p hj huniq => ?_, fun p hp => ?_, fun u hu => ?_⟩
  · refine putAll_named (fun c hc hcp => ?_) ⟨(p, data j), List.mem_iff_getElem?.2 ⟨j, ?_⟩, rfl⟩
    · obtain ⟨i, v', hi, hci⟩ := hcell hc
      rw [hcp] at hi
      rw [hci, (huniq k hk i v' hi).2]
    · rw [List.getElem?_zip_eq_some, List.getElem?_map, hj]
      exact ⟨rfl, hd j (List.getElem?_eq_some_iff.1 hj).1⟩
  · refine putAll_other fun c hc hcp => ?_
    obtain ⟨i, v', hi, -⟩ := hcell hc
    exact hp 0 (by simp) _ (List.mem_of_getElem? hi) hcp
  · refine mem_poisonAfter fun a ha hau => ?_
    obtain ⟨c, hc, rfl⟩ := List.mem_map.1 ha
    obtain ⟨i, v', hi, -⟩ := hcell hc
    exact hu 0 (by simp) _ (List.mem_of_getElem? hi) hau

/-- The byte that an entry of the log leaves at a place of its access (R171). -/
def SiltEntry.leaves (s : State) (e : SiltEntry) (reach : List (Nat × Nat)) (j : Nat) : Byte :=
  if e.kred then (groupResult e.access [e.access] (reach.map (fun q => byteOf s q.2))).1.getD j 0
  else e.data.extractLsb' (8 * ((e.vas.getD j 0) % 64)) 8

section
variable {s : State} {core : Nat} {e : SiltEntry} {reach : List (Nat × Nat)} (ho : Open s) (hva : reach.map (·.1) = e.vas)
  (hs : ∀ p ∈ reach, Served s core e.ctx e.tag.toNat .write p.1 p.2)
include ho hva hs

/-- A reduction of the log at a served location without poison. -/
theorem replayEntry_red (hk : e.kred = true) (hp : ∀ p ∈ reach, p.2 / 64 ∉ s.memPois) :
    replayEntry s core e
      = (writeBytes s ((reach.map (·.2)).zip (groupResult e.access [e.access] (reach.map (fun q => byteOf s q.2))).1) false, true) := by
  have hkind : e.access.kind = .red := by simp [SiltEntry.access, hk]
  unfold replayEntry
  simp only [hk, if_true]
  rw [performGroup_direct (a := e.access) ho rfl hva.symm (by rw [hkind]; exact hs) hp]

/-- A write of the log whose bytes are served. -/
theorem replayEntry_store (hk : e.kred = false) :
    replayEntry s core e = (writeBytes s ((reach.map (·.2)).zip e.access.data) e.pois, true) := by
  have hput : putBytes s (some core) e.access e.access.va e.access.data e.pois
      = (writeBytes s ((reach.map (·.2)).zip e.access.data) e.pois, .ok ()) := by
    unfold putBytes
    rw [show e.access.va = reach.map (·.1) from hva.symm, physical_served (ctx := e.access.ctx) (tag := e.access.tag) hs]
    dsimp only
    rw [reachesOwned_open ho]
    rfl
  unfold replayEntry
  simp only [hk, Bool.false_eq_true, if_false, hput]

/-- An entry whose bytes are served is performed at memory. -/
theorem replayEntry_served (hp : e.kred = true → ∀ p ∈ reach, p.2 / 64 ∉ s.memPois) :
    ∃ m p, replayEntry s core e = (s.withMem m p, true) ∧ Wrote s (s.withMem m p) [0] (fun _ => reach) (fun _ => e.leaves s reach) := by
  have hlen : e.vas.length = reach.length := by rw [← hva, List.length_map]
  cases hk : e.kred with
  | true =>
    refine ⟨_, _, (replayEntry_red ho hva hs hk (hp hk)).trans (by rw [writeBytes_open ho]), ?_⟩
    rw [← writeBytes_open ho]
    refine wrote_writeBytes ho (fun j hj => ?_) false
    have hl : (groupResult e.access [e.access] (reach.map (fun q => byteOf s q.2))).1.length = reach.length :=
      (toBytesLE_length _ _).trans hlen
    rw [SiltEntry.leaves, hk, if_pos rfl, List.getD_eq_getElem _ _ (by rw [hl]; exact hj), List.getElem?_eq_getElem]
  | false =>
    refine ⟨_, _, (replayEntry_store ho hva hs hk).trans (by rw [writeBytes_open ho]), ?_⟩
    rw [← writeBytes_open ho]
    refine wrote_writeBytes ho (fun j hj => ?_) e.pois
    have hj' : j < e.vas.length := by rw [hlen]; exact hj
    rw [SiltEntry.leaves, hk, if_neg Bool.false_ne_true, List.getD_eq_getElem _ _ hj']
    exact (List.getElem?_map ..).trans (by rw [List.getElem?_eq_getElem hj']; rfl)
end

/-- No fibre is held in a release. -/
def NoReleases (s : State) : Prop := ∀ e ∈ s.waves, ∀ y ∈ e.2.fibres, ∀ g d, y.2.blocked ≠ some (.release g d)

theorem NoReleases.wakeReleases_same {s : State} (h : NoReleases s) : wakeReleases s = s := by
  refine foldl_same _ _ _ fun e _ => modWave_same fun e' he' _ => fibres_same fun y hy => ?_
  split
  · next hb => exact absurd hb (h e' he' y hy _ _)
  · rfl

theorem Quiet.noReleases {s : State} (h : Quiet s) : NoReleases s := by
  intro e he y hy g d hb
  have := h.fibres e he y hy
  rw [hb] at this
  exact this

/-- A free entry whose bytes are served is performed and leaves the log. -/
theorem siltReplay_free {s : State} {core i : Nat} {e : SiltEntry} (he : ((coreOf s core).silt.take 512)[i]? = some e)
    (hfree : ∀ x ∈ (coreOf s core).silt.take i, mustWait e x = false) {m : List Host.Cell} {p : List Nat}
    (hr : replayEntry s core e = (s.withMem m p, true)) (hi : Unheld s) (hn : NoReleases s) :
    exec (.siltReplay core i) s = .next (dropSilt (s.withMem m p) core i) := by
  have hat : freeEntryAt (coreOf s core).silt i = some e := by
    have hany : ((coreOf s core).silt.take i).any (mustWait e) = false := by
      rw [List.any_eq_false]
      exact fun x hx => by rw [hfree x hx]; exact Bool.false_ne_true
    unfold freeEntryAt
    rw [show siltSize = 512 from rfl, he, Option.filter_some, hany]
    rfl
  have hunheld : Unheld (dropSilt (s.withMem m p) core i) := hi
  have hnone : NoReleases (dropSilt (s.withMem m p) core i) := hn
  change execSiltReplay core i s = _
  unfold execSiltReplay
  rw [hat]
  dsimp only
  rw [hr]
  dsimp only
  rw [hunheld.retryMem_same, hnone.wakeReleases_same]

/-! ### Fences and the monitor (R173, R197) -/

/-- A change of one fibre of a wave changes nothing else. -/
theorem onlyWave_modFibre {s : State} {k x : Nat} {w : Wave} {y : Fibre} (hw : sget k s.waves = some w) (hy : sget x w.fibres = some y)
    (f : Fibre → Fibre) :
    ∃ v, OnlyWave s (modFibre s k x f) k v ∧ sget x v.fibres = some (f y) ∧ (∀ j, j ≠ x → sget j v.fibres = sget j w.fibres)
      ∧ { v with fibres := w.fibres } = w := by
  refine ⟨{ w with fibres := smod x f w.fibres }, ⟨?_, fun j hj => ?_, rfl⟩, ?_, fun j hj => ?_, rfl⟩
  · rw [modFibre_eq, modWave, sget_smod_self, hw]
    rfl
  · rw [modFibre_eq, modWave, sget_smod_ne hj]
  · rw [sget_smod_self, hy]
    rfl
  · rw [sget_smod_ne hj]

theorem fibreAt_of {s : State} {k x : Nat} {w : Wave} {y : Fibre} (hw : sget k s.waves = some w) (hy : sget x w.fibres = some y) :
    fibreAt s k x = some y := by
  unfold fibreAt
  rw [hw]
  exact hy

theorem resume_at {y : Fibre} {p : Place} (h : y.base = some p) (ll : Bool) :
    y.resume ll = { y.advance p y.pc ll with blocked := none, waive := false } := by
  unfold Fibre.resume
  rw [h]

/-- A monitored word that is served and in no poisoned unit is compared; the wait ends where the condition is met or the limit has
passed. -/
theorem reread_served {s : State} {k x : Nat} {y : Fibre} (hf : fibreAt s k x = some y) {ptr : W64} {buf : BitVec 8} {syn0 syn1 cmp : W32}
    {cond : BitVec 2} {sg : Bool} {lim : Option Nat} {pd : BitVec 4} {reach : List (Nat × Nat)}
    (hb : y.blocked = some (.waitM ptr buf syn0 syn1 cmp cond sg lim pd)) (ho : Open s)
    (hsilt : siltOverlap s (coreNo k) (ctxOf s k) (addrs (ptrVa ptr) 4) = false) (hc : Clear s k [x] false true (addrs (ptrVa ptr) 4))
    (hva : reach.map (·.1) = addrs (ptrVa ptr) 4)
    (hs : ∀ q ∈ reach, Served s (coreNo k) (ctxOf s k) y.ct.toNat .read q.1 q.2 ∧ q.2 / 64 ∉ s.memPois) :
    reread s k x =
      if monitorMet cond sg (BitVec.ofNat 32 (fromBytesLE (reach.map (fun q => pByte s q.2)))) cmp then
        modFibre s k x (fun f => (f.resume false).setP pd true)
      else if lim.any (fun t => t ≤ (coreOf s (coreNo k)).clock.toNat) then modFibre s k x (fun f => (f.resume false).setP pd false)
      else s := by
  have hclean : ((reach.map (fun q => byteOf s q.2)).zipIdx).find? (fun e => e.1.2) = none := by
    rw [List.find?_eq_none]
    intro e he
    obtain ⟨q, hq, heq⟩ := List.mem_map.1 (List.fst_mem_of_mem_zipIdx he)
    rw [← heq]
    simpa [byteOf] using (hs q hq).2
  unfold reread
  rw [hf]
  dsimp only
  rw [hb]
  dsimp only
  rw [hsilt, hc.1, hc.2 rfl, ← hva, physical_served (fun q hq => (hs q hq).1)]
  dsimp only
  rw [reachesOwned_open ho]
  simp only [Bool.or_self, Bool.false_eq_true, if_false, bytesAt, snoop_open ho.windows, List.map_map]
  rw [show (reach.map ((fun a => (pByte s a, s.memPois.contains (a / 64))) ∘ fun q => q.2)) = reach.map (fun q => byteOf s q.2) from rfl, hclean]
  rfl

/-! ### The page walker (R329) -/

theorem or_testBit_same {n k : Nat} (h : n.testBit k = true) : n ||| 2 ^ k = n := by
  refine Nat.eq_of_testBit_eq fun i => ?_
  rw [Nat.testBit_or, Nat.testBit_two_pow]
  by_cases hi : k = i
  · rw [← hi, h]; rfl
  · rw [decide_eq_false hi, Bool.or_false]

/-- A core whose translation cache has taken a leaf (R329). -/
def Core.takeLeaf (k : Core) (ctx va size pte : Nat) : Core :=
  { k with tlb := { ctx := ctx, page := va - va % 2 ^ size, bits := size, pte := BitVec.ofNat 64 pte }
                    :: k.tlb.filter (fun x => !(x.ctx = ctx && x.page = va - va % 2 ^ size)) }

/-- A leaf that has A and D, and permits the access, is used as it stands. -/
theorem walkFor_leaf {s : State} {core : Option Nat} {ctx va pte addr size : Nat} {need : Need} (hw : walk s ctx va = .leaf pte addr size)
    (hns : pte.testBit 57 = false) (hp : permits pte need = true) (hA : pte.testBit 6 = true) (hD : need.writes = true → pte.testBit 7 = true) :
    walkFor s core ctx va need
      = ((match core with | none => s | some c => modCore s c (fun k => k.takeLeaf ctx va size pte)), .ok (pte, leafPa pte size va)) := by
  have hwant : pte ||| 0x40 ||| (if need.writes then 0x80 else 0) = pte := by
    rw [show pte ||| 0x40 = pte from or_testBit_same hA]
    cases hn : need.writes with
    | true => exact or_testBit_same (hD hn)
    | false => exact Nat.or_zero pte
  unfold walkFor
  rw [hw]
  dsimp only
  rw [hns, hp, hwant]
  simp only [Bool.false_eq_true, if_false, Bool.not_true, if_true]
  cases core <;> rfl

/-! ### The demand ring (R333) -/

/-- What a message posted to the demand ring changes. -/
theorem ringPost_demand {s : State} (ho : Open s) (msg : List Byte) :
    let tail := ctlBits s 0x740010 0 32
    let place := bits (ctlRd s 0x740000).toNat 6 46 * 64 + 64 * (tail % 2 ^ ctlBits s 0x740008 0 5)
    ringPost s false msg = { ctlWr (writeBytes s ((addrs place 64).zip msg) false) 0x740010 (BitVec.ofNat 64 ((tail + 1) % 2 ^ 32)) with
      out := s.out ++ (if tail = ctlBits s 0x740018 0 32 then [.loamIrq (ctlBits s 0x740008 8 4)] else []) } := by
  intro tail place
  let w : State := ctlWr (writeBytes s ((addrs place 64).zip msg) false) 0x740010 (BitVec.ofNat 64 ((tail + 1) % 2 ^ 32))
  have hout : w.out = s.out := by simp only [w, writeBytes_open ho]; rfl
  have hctl : ctlBits w 0x740008 8 4 = ctlBits s 0x740008 8 4 := by
    unfold ctlBits
    rw [ctlRd_ctlWr_ne (by decide), writeBytes_open ho]
    rfl
  change (if tail = ctlBits s 0x740018 0 32 then loamIrq w (ctlBits w 0x740008 8 4) else w)
    = { w with out := s.out ++ (if tail = ctlBits s 0x740018 0 32 then [.loamIrq (ctlBits s 0x740008 8 4)] else []) }
  rw [← hout, hctl]
  split
  · rfl
  · rw [List.append_nil]

/-- Settles O37. -/
theorem memoryWaitsEnd : Obligations.MemoryWaitsEnd := by
  refine ⟨?silt, ?wait, ?walk, ?ring⟩
  case silt =>
    intro s core i e reach he hfree hva hs hp ho hq
    obtain ⟨m, p, hr, hwrote⟩ := replayEntry_served ho hva hs hp
    refine ⟨_, siltReplay_free he hfree hr hq.unheld hq.noReleases, ⟨hwrote.bytes, hwrote.frame, hwrote.pois⟩, coreOf_modCore_self _ _ _,
      fun j hj => coreOf_modCore_ne hj _ _, rfl⟩
  case wait =>
    intro s k x w y p hw hy hbase goes
    have hf := fibreAt_of hw hy
    have hgoes (back : Fibre → Fibre) : goes (modFibre s k x (fun f => back (f.resume false))) back := by
      obtain ⟨v, hv, hx, hrest⟩ := onlyWave_modFibre hw hy (fun f => back (f.resume false))
      exact ⟨v, hv, by rw [hx, resume_at hbase], hrest⟩
    refine ⟨fun hb hops hrel => ⟨_, ?_, hgoes id⟩, ?_⟩
    · change execFenceComplete k x s = _
      unfold execFenceComplete
      rw [hf]
      simp only [hb, hops, hrel]
      rfl
    · intro ptr buf syn0 syn1 cmp cond sg lim pd reach hb ho hsilt hc hva hs met late
      have hread := reread_served hf hb ho hsilt hc hva hs
      have hlate : late ↔ lim.any (fun t => t ≤ (coreOf s (coreNo k)).clock.toNat) = true := by
        simp only [late, Option.any_eq_true, decide_eq_true_eq]
      have hend (h : met = true ∨ late) : reread s k x = modFibre s k x (fun f => (f.resume false).setP pd met) := by
        rw [hread]
        by_cases hm : met = true
        · rw [if_pos hm, hm]
        · rw [if_neg hm, if_pos (hlate.1 (h.resolve_left hm)), Bool.eq_false_iff.2 hm]
      refine ⟨fun h => ⟨_, congrArg Host.Outcome.next (hend h), hgoes (fun y => y.setP pd met)⟩, fun hm hl => ?_, fun hl => ⟨_, ?_, hgoes (fun y => y.setP pd met)⟩⟩
      · refine congrArg Host.Outcome.next (hread.trans ?_)
        rw [if_neg (by rw [show monitorMet _ _ _ _ = met from rfl, hm]; exact Bool.false_ne_true), if_neg (fun h => hl (hlate.2 h))]
      · obtain ⟨l, rfl, hl'⟩ := hl
        change execWaitMTimeout k x s = _
        unfold execWaitMTimeout
        rw [hf, Option.bind_some, hb]
        dsimp only
        rw [if_pos hl', hend (.inr ⟨l, rfl, hl'⟩)]
  case walk =>
    intro s core ctx va acc hwait
    have hexec : exec (.pageWalk core ctx va acc) s = match walkFor s (some core) ctx va (walkNeed acc) with
        | (s, .ok _) => .next s
        | (s, .error m) => .next (reportMiss s ctx core 0 (walkCode acc) (waitingRid s ctx (va / 4096)) va m) := by
      change execPageWalk core ctx va acc s = _
      unfold execPageWalk
      rw [hwait]
      rfl
    refine ⟨fun pte addr size hw hns hp hA hD => ⟨modCore s core (fun k => k.takeLeaf ctx va size pte), ?_, ?_, ?_, rfl⟩, fun cause hw hcause => ?_⟩
    · rw [hexec, walkFor_leaf hw hns hp hA (fun _ => hD)]
    · rw [coreOf_modCore_self]; rfl
    · rw [coreOf_modCore_self]; rfl
    · rw [hexec]
      unfold walkFor
      rw [hw]
      have h3 : ¬ (cause = 3 ∨ cause = 4) := by omega
      simp only [reportMiss, report, Bool.or_eq_true, decide_eq_true_eq, if_neg h3]
  case ring =>
    intro s r rest hr hroom ho tail place
    let msg : List Byte := { r with clock := (coreOf s r.core).clock }.message s.repSeq
    have hlen : msg.length = 64 := toBytesLE_length _ _
    obtain ⟨hin, hout, -⟩ := takes_writeBytes ho.windows place msg false
    rw [hlen] at hin hout
    refine ⟨{ ringPost s false msg with reports := rest, repSeq := s.repSeq + 1 }, ?_, rfl, rfl, ?_⟩
    · change execDemandReport s = _
      unfold execDemandReport
      rw [hr]
      simp only [hroom, Bool.not_true, Bool.false_eq_true, if_false]
      rfl
    rw [ringPost_demand ho msg]
    obtain ⟨m, p, hw⟩ : ∃ m p, writeBytes s ((addrs place 64).zip msg) false = s.withMem m p := ⟨_, _, writeBytes_open ho _ _⟩
    rw [hw] at hin hout ⊢
    exact ⟨ctlRd_ctlWr_self _ _ _, hin, hout, rfl, rfl⟩

end Sys2Proof.Machine
end

section
/-! SUPPORT. Steps of stash-mapped windows and of multicast windows (O36). -/

namespace Sys2Proof.Machine

/-! ### Windows without a line to write back (R179, R181) -/

/-- A window that goes gives up its tag (R252). -/
def State.giveUp (s : State) : Option Window → State
  | some w => tagDrop s w.ctx w.tag.toNat
  | none => s

theorem giveUp_contexts (s : State) (w : Option Window) :
    (s.giveUp w).contexts = match w with
      | some w => (tagDrop s w.ctx w.tag.toNat).contexts
      | none => s.contexts := by
  cases w <;> rfl

theorem giveUp_rest (s : State) (w : Option Window) : s.giveUp w = { s with contexts := (s.giveUp w).contexts } := by
  cases w <;> rfl

/-- Windows that have no line have nothing to write back. -/
theorem writeBackSome_clean {s : State} {gk : Nat} {sel : Nat → Bool} {h : Gang} (hg : sget gk s.gangs = some h)
    (hc : ∀ e ∈ h.windows, sel e.1 = true → e.2.lines = []) : writeBackSome s gk sel = (s, none) := by
  have hnil : ((h.windows.filter (fun w => sel w.1)).map (fun w => w.2.lines.map (fun l => (w.1, l.1, l.2.1)))).flatten = [] := by
    rw [List.flatten_eq_nil_iff]
    intro l hl
    obtain ⟨e, he, rfl⟩ := List.mem_map.1 hl
    obtain ⟨hmem, hsel⟩ := List.mem_filter.1 he
    rw [hc e hmem hsel]
    rfl
  unfold writeBackSome
  rw [hg, Option.map_some, Option.getD_some, hnil]
  rfl

theorem unmapWindow_clean {s : State} {gk m : Nat} {h : Gang} (hg : sget gk s.gangs = some h) (hc : ∀ e ∈ h.windows, e.1 = m → e.2.lines = []) :
    unmapWindow s gk m = (modGang (s.giveUp (sget m h.windows)) gk (fun g => { g with windows := sdel m g.windows }), none) := by
  unfold unmapWindow
  rw [writeBackSome_clean hg (fun e he hs => hc e he (of_decide_eq_true hs))]
  dsimp only
  rw [hg, Option.bind_some]
  cases sget m h.windows <;> rfl

/-- An operation that has changed gangs and contexts completes; they stay as it left them. -/
theorem ended_gangs {s : State} {n : Nat} {o : Op} (ho : sget n s.ops = some o) (g : Sparse Gang) (c : Sparse Context) {t : State}
    (ht : t = complete { s with gangs := g, contexts := c } n) :
    Ended { s with gangs := t.gangs, contexts := t.contexts } t n o (fun _ y => y) id ∧ t.gangs = g ∧ t.contexts = c := by
  have h := ended_plain (s := { s with gangs := g, contexts := c }) ho
  rw [← ht] at h
  have hg : t.gangs = g := (congrArg State.gangs h.rest :)
  have hc : t.contexts = c := (congrArg State.contexts h.rest :)
  exact ⟨by rw [hg, hc]; exact h, hg, hc⟩

/-- An instruction ends an operation, leaves its gang as `h'`, and lets a window's tag go. -/
def EndsWindow (s : State) (n : Nat) (o : Op) (e : Instr) (h' : Gang) (freed : Option Window) : Prop :=
  ∃ t, exec e s = .next t ∧ Ended { s with gangs := t.gangs, contexts := t.contexts } t n o (fun _ y => y) id
    ∧ sget o.gang t.gangs = some h' ∧ (∀ j, j ≠ o.gang → sget j t.gangs = sget j s.gangs) ∧ t.contexts = (s.giveUp freed).contexts

section
variable {s : State} {n m : Nat} {o : Op} {h : Gang} (ho : sget n s.ops = some o) (hg : sget o.gang s.gangs = some h)
include ho hg

theorem endsWindow_of {i : Instr} {F : Gang → Gang} {freed : Option Window}
    (hx : exec i s = .next (complete (modGang (s.giveUp freed) o.gang F) n)) : EndsWindow s n o i (F h) freed := by
  have hstate : modGang (s.giveUp freed) o.gang F = { s with gangs := smod o.gang F s.gangs, contexts := (s.giveUp freed).contexts } := by
    rw [giveUp_rest]
    rfl
  obtain ⟨hend, hgangs, hctx⟩ := ended_gangs ho _ _ (congrArg (complete · n) hstate)
  refine ⟨_, hx, hend, ?_, fun j hj => ?_, hctx⟩
  · rw [hgangs, sget_smod_self, hg]; rfl
  · rw [hgangs, sget_smod_ne hj]

/-- Mapping and unmapping, where no older operation of the gang stands at the window and it has no line. -/
theorem smapComplete_clean (hm : o.kind.mapsWindow = some m)
    (hfirst : ∀ e ∈ s.ops, e.1 < n → e.2.gang = o.gang → e.2.kind.mapsWindow ≠ some m) (hc : ∀ e ∈ h.windows, e.1 = m → e.2.lines = []) :
    exec (.smapComplete n) s = .next (complete (match o.kind with
      | .smap n win => modGang (modGang (s.giveUp (sget m h.windows)) o.gang (fun g => { g with windows := sdel m g.windows })) o.gang
          (fun g => { g with windows := sput n win g.windows })
      | _ => modGang (s.giveUp (sget m h.windows)) o.gang (fun g => { g with windows := sdel m g.windows })) n) := by
  have hany : s.ops.any (fun e => e.1 < n && e.2.gang = o.gang && e.2.kind.mapsWindow = some m) = false := by
    rw [List.any_eq_false]
    intro e he hb
    simp only [Bool.and_eq_true, decide_eq_true_eq] at hb
    exact hfirst e he hb.1.1 hb.1.2 hb.2
  change execSmapComplete n s = _
  unfold execSmapComplete
  rw [ho]
  dsimp only
  rw [hm]
  dsimp only
  rw [hany, unmapWindow_clean hg hc]
  rfl

theorem smapComplete_map {win : Window} (hk : o.kind = .smap m win)
    (hfirst : ∀ e ∈ s.ops, e.1 < n → e.2.gang = o.gang → e.2.kind.mapsWindow ≠ some m) (hc : ∀ e ∈ h.windows, e.1 = m → e.2.lines = []) :
    EndsWindow s n o (.smapComplete n) { h with windows := sput m win (sdel m h.windows) } (sget m h.windows) := by
  have hx := smapComplete_clean ho hg (m := m) (by rw [hk]; rfl) hfirst hc
  rw [hk] at hx
  refine endsWindow_of ho hg (F := fun g => { g with windows := sput m win (sdel m g.windows) }) (hx.trans ?_)
  simp only [modGang, smod_smod]

theorem smapComplete_unmap (hk : o.kind = .smapUnmap m)
    (hfirst : ∀ e ∈ s.ops, e.1 < n → e.2.gang = o.gang → e.2.kind.mapsWindow ≠ some m) (hc : ∀ e ∈ h.windows, e.1 = m → e.2.lines = []) :
    EndsWindow s n o (.smapComplete n) { h with windows := sdel m h.windows } (sget m h.windows) := by
  have hx := smapComplete_clean ho hg (m := m) (by rw [hk]; rfl) hfirst hc
  rw [hk] at hx
  exact endsWindow_of ho hg (F := fun g => { g with windows := sdel m g.windows }) hx

theorem swbComplete_clean (hk : o.kind = .swb (some m)) (hc : ∀ e ∈ h.windows, e.1 = m → e.2.lines = []) :
    EndsWindow s n o (.swbComplete n) h none := by
  refine endsWindow_of ho hg (F := id) (freed := none) ?_
  have hsame : modGang s o.gang id = s := (congrArg (fun g => { s with gangs := g }) (smod_id o.gang id (fun _ => rfl) s.gangs) :)
  change execSwbComplete n s = .next (complete (modGang s o.gang id) n)
  unfold execSwbComplete
  rw [ho, hsame]
  dsimp only
  rw [hk]
  dsimp only
  rw [writeBackSome_clean hg (fun e he hs => hc e he (of_decide_eq_true hs).symm)]
end

/-! ### A dirty line is written back (R181) -/

theorem getD_map_addrs (f : Nat → Byte) (a : Nat) {n j : Nat} (hj : j < n) : ((addrs a n).map f).getD j 0 = f (a + j) := by
  rw [addrs, List.getD_eq_getElem?_getD, List.getElem?_map, List.getElem?_map, List.getElem?_range hj]
  rfl

theorem winBytes_length (h : Gang) (w : Window) (i : Nat) : (winBytes h w i).length = 128 := by
  rw [winBytes, List.length_map, length_addrs]

theorem winBytes_at (h : Gang) (w : Window) (i : Nat) {j : Nat} (hj : j < 128) :
    (winBytes h w i).getD j 0 = sgetD 0 h.stash (w.stash + 128 * i + j) := getD_map_addrs _ _ hj

theorem putLine_takes (s : State) (pa : Nat) (h : Gang) (w : Window) (i : Nat) : Takes s (putLine s pa h w i) pa (winBytes h w i) :=
  takes_pPuts s pa (winBytes h w i) _

theorem Takes.gangs {s t : State} {a : Nat} {data : List Byte} (h : Takes s t a data) : t.gangs = s.gangs :=
  (congrArg State.gangs h.2.2 :)

theorem Takes.eq {s t : State} {a : Nat} {data : List Byte} (h : Takes s t a data) : t = { s with mem := t.mem, memPois := t.memPois } :=
  (congrArg (fun v : State => { v with mem := t.mem, memPois := t.memPois }) h.2.2 :)

/-- A gang with one window, one line of which is present and dirty. -/
theorem writeBackSome_line {s : State} {gk m i pa : Nat} {wr : Bool} {win : Window} {h : Gang} (hg : sget gk s.gangs = some h)
    (hw : h.windows = [(m, win)]) (hl : win.lines = [(i, some pa, wr, true)]) :
    writeBackSome s gk (fun _ => true) = ({ putLine s pa h win i with
      gangs := smod gk (fun g => { g with windows := sput m { win with lines := [(i, some pa, wr, false)] } g.windows }) s.gangs }, none) := by
  have hgangs : (putLine s pa h win i).gangs = s.gangs := (putLine_takes s pa h win i).gangs
  unfold writeBackSome
  rw [hg, Option.map_some, Option.getD_some, hw]
  simp only [List.filter_cons, if_true, List.filter_nil, List.map_cons, List.map_nil, hl, List.flatten_cons, List.flatten_nil, List.append_nil,
    List.foldl_cons, List.foldl_nil]
  unfold snoopWin
  rw [hg]
  dsimp only
  rw [hw]
  simp only [sget, if_true, hl, List.filter_cons, List.filter_nil, beq_self_eq_true, List.isEmpty_cons, Bool.false_eq_true, if_false,
    List.foldl_cons, List.foldl_nil, hgangs, sput, lt_irrefl]

/-- An operation that has changed memory and gangs completes; they stay as it left them. -/
theorem ended_written {s : State} {n : Nat} {o : Op} (ho : sget n s.ops = some o) (m : List Host.Cell) (p : List Nat) (g : Sparse Gang) {t : State}
    (ht : t = complete { s with mem := m, memPois := p, gangs := g } n) :
    Ended { s with mem := t.mem, memPois := t.memPois, gangs := t.gangs } t n o (fun _ y => y) id ∧ t.gangs = g ∧ t.mem = m := by
  have h := ended_plain (s := { s with mem := m, memPois := p, gangs := g }) ho
  rw [← ht] at h
  have hg : t.gangs = g := (congrArg State.gangs h.rest :)
  have hm : t.mem = m := (congrArg State.mem h.rest :)
  have hp : t.memPois = p := (congrArg State.memPois h.rest :)
  exact ⟨by rw [hg, hm, hp]; exact h, hg, hm⟩

theorem swbComplete_line {s : State} {n m i pa : Nat} {o : Op} {h : Gang} {win : Window} {wr : Bool} (ho : sget n s.ops = some o)
    (hg : sget o.gang s.gangs = some h) (hk : o.kind = .swb none) (hw : h.windows = [(m, win)]) (hl : win.lines = [(i, some pa, wr, true)]) :
    ∃ t, exec (.swbComplete n) s = .next t ∧ Ended { s with mem := t.mem, memPois := t.memPois, gangs := t.gangs } t n o (fun _ y => y) id
      ∧ sget o.gang t.gangs = some { h with windows := [(m, { win with lines := [(i, some pa, wr, false)] })] }
      ∧ (∀ j < 128, pByte t (pa + j) = sgetD 0 h.stash (win.stash + 128 * i + j))
      ∧ ∀ p, (∀ j < 128, p ≠ pa + j) → pByte t p = pByte s p := by
  have htakes := putLine_takes s pa h win i
  have hwb := writeBackSome_line hg hw hl
  generalize putLine s pa h win i = u at htakes hwb
  obtain ⟨hin, hout, -⟩ := id htakes
  rw [winBytes_length] at hin hout
  rw [htakes.eq] at hwb
  obtain ⟨hend, hgangs, hmem⟩ := ended_written ho u.mem u.memPois
    (smod o.gang (fun g => { g with windows := sput m { win with lines := [(i, some pa, wr, false)] } g.windows }) s.gangs) rfl
  refine ⟨_, ?_, hend, ?_, fun j hj => ?_, fun p hp => ?_⟩
  · change execSwbComplete n s = _
    unfold execSwbComplete
    rw [ho]
    dsimp only
    rw [hk]
    dsimp only
    rw [show (fun k => (none : Option Nat).all (· = k)) = fun _ => true from rfl, hwb]
  · rw [hgangs, sget_smod_self, hg, Option.map_some, hw]
    simp only [sput, lt_irrefl, if_false, if_true]
  · rw [pByte, hmem, ← winBytes_at h win i hj]
    exact hin j hj
  · rw [pByte, hmem]
    exact hout p hp

/-! ### An absent line is filled (R180) -/

/-- A line of memory of which no window has a copy is not recalled. -/
theorem snoopLine_uncopied {s : State} {line : Nat} (h : ∀ g ∈ s.gangs, ∀ u ∈ g.2.windows, ∀ l ∈ u.2.lines, l.2.1 ≠ some line) (drop : Bool) :
    snoopLine s line drop = s := by
  refine foldl_same _ _ _ fun g _ => foldl_same _ _ _ fun u _ => ?_
  unfold snoopWin
  cases hg : sget g.1 s.gangs with
  | none => rfl
  | some G =>
    dsimp only
    cases hu : sget u.1 G.windows with
    | none => rfl
    | some w =>
      have hhit : w.lines.filter (fun e => e.2.1 == some line) = [] := by
        rw [List.filter_eq_nil_iff]
        intro l hl
        simpa using h _ (sget_mem hg) _ (sget_mem hu) l hl
      dsimp only
      rw [hhit]
      rfl

/-- The cells of a line of memory in the stash. -/
def lineCells (s : State) (base pa : Nat) : List (Nat × Byte × Bool) := (List.range 128).map (fun k => (base + k, pByte s (pa + k), false))

theorem mem_lineCells {s : State} {base pa : Nat} {c : Nat × Byte × Bool} (hc : c ∈ lineCells s base pa) :
    ∃ k < 128, c.1 = base + k ∧ c.2.1 = pByte s (pa + k) := by
  obtain ⟨k, hk, rfl⟩ := List.mem_map.1 hc
  exact ⟨k, List.mem_range.1 hk, rfl, rfl⟩

theorem stash_takeLine (s : State) (m : Sparse Byte) (base pa : Nat) :
    let taken := (List.range 128).foldl (fun m k => sputD 0 (base + k) (pByte s (pa + k)) m) m
    (∀ j < 128, sgetD 0 taken (base + j) = pByte s (pa + j)) ∧ ∀ a, (∀ j < 128, a ≠ base + j) → sgetD 0 taken a = sgetD 0 m a := by
  intro taken
  have htaken : taken = (lineCells s base pa).foldl (fun m c => sputD 0 c.1 c.2.1 m) m :=
    (List.foldl_map (f := fun k => (base + k, pByte s (pa + k), false)) (g := fun m (c : Nat × Byte × Bool) => sputD 0 c.1 c.2.1 m)).symm
  rw [htaken]
  refine ⟨fun j hj => cells_named (fun c hc he => ?_) ⟨_, List.mem_map_of_mem (List.mem_range.2 hj), rfl⟩, fun a ha => cells_other fun c hc he => ?_⟩
  · obtain ⟨k, -, h1, h2⟩ := mem_lineCells hc
    rw [h2, show k = j by omega]
  · obtain ⟨k, hk, h1, -⟩ := mem_lineCells hc
    exact ha k hk (he ▸ h1)

/-- An absent line of a mapped window, whose bytes of memory no engine owns, is filled with them. -/
theorem windowLineFill_absent {s : State} {launch gang m line : Nat} {h : Gang} {w : Window} {pte addr size : Nat}
    (hg : sget (key2 launch gang) s.gangs = some h) (hw : sget m h.windows = some w) (hline : line < 32 * 2 ^ w.c) (hl : sget line w.lines = none)
    (hq : Quiet s) (hmo : memOwned s none [leafPa pte size (ptrVa w.ptr + 128 * line)] = false)
    (hco : cellOwned s none w.ctx w.tag.toNat [ptrVa w.ptr + 128 * line] = false)
    (hwalk : walk s w.ctx (ptrVa w.ptr + 128 * line) = .leaf pte addr size) (h57 : pte.testBit 57 = false) (h2 : pte.testBit 2 = true)
    (h6 : pte.testBit 6 = true) (h63 : pte.testBit 63 = false ∨ w.tag = 0)
    (hcopy : ∀ g ∈ s.gangs, ∀ u ∈ g.2.windows, ∀ l ∈ u.2.lines, l.2.1 ≠ some (leafPa pte size (ptrVa w.ptr + 128 * line))) :
    exec (.windowLineFill launch gang m line) s = .next (takeLine s (key2 launch gang) m line (leafPa pte size (ptrVa w.ptr + 128 * line))
      (some (leafPa pte size (ptrVa w.ptr + 128 * line))) false) := by
  have htag : (pte.testBit 63 && w.tag != 0) = false := by
    rcases h63 with h | h
    · rw [h]; rfl
    · rw [h, bne_self_eq_false, Bool.and_false]
  have hnone : memOwned s none [] = false := by simp [memOwned]
  have hfill : fillLine s none { core := gangCore s (key2 launch gang) } (key2 launch gang) m line false
      = (takeLine s (key2 launch gang) m line (leafPa pte size (ptrVa w.ptr + 128 * line))
          (some (leafPa pte size (ptrVa w.ptr + 128 * line))) false, .ok ()) := by
    unfold fillLine
    rw [hg, Option.bind_some, hw]
    dsimp only
    rw [hl, hco, show ((none : Option (Option Nat × Bool × Bool)).bind (·.1)).toList = [] from rfl, hnone]
    simp only [Bool.or_self, Bool.false_eq_true, if_false, Option.isSome_none, Bool.false_and, translate]
    rw [walkFor_leaf (need := .read) hwalk h57 h2 h6 (fun hn => absurd hn (by decide))]
    dsimp only
    rw [htag, hmo, snoopLine_uncopied hcopy]
    rfl
  have hun : Unheld (takeLine s (key2 launch gang) m line (leafPa pte size (ptrVa w.ptr + 128 * line))
      (some (leafPa pte size (ptrVa w.ptr + 128 * line))) false) := hq.unheld
  change execWindowLineFill launch gang m line s = _
  unfold execWindowLineFill
  dsimp only
  rw [hg, Option.bind_some, hw]
  dsimp only
  rw [hl, decide_eq_false (Nat.not_le.2 hline), Option.isSome_none, hfill]
  dsimp only
  rw [hun.retryMem_same]
  rfl

theorem takeLine_gang {s : State} {gk m line pa : Nat} {h : Gang} {w : Window} (hg : sget gk s.gangs = some h) (hw : sget m h.windows = some w)
    (id : Option Nat) (wr : Bool) :
    ∃ h', sget gk (takeLine s gk m line pa id wr).gangs = some h'
      ∧ (∀ j < 128, sgetD 0 h'.stash (w.stash + 128 * line + j) = pByte s (pa + j))
      ∧ (∀ a, (∀ j < 128, a ≠ w.stash + 128 * line + j) → sgetD 0 h'.stash a = sgetD 0 h.stash a)
      ∧ sget m h'.windows = some { w with lines := sput line (id, wr, false) w.lines } := by
  obtain ⟨hin, hout⟩ := stash_takeLine s h.stash (w.stash + 128 * line) pa
  unfold takeLine modGang
  rw [sget_smod_self, hg, Option.map_some]
  refine ⟨_, rfl, ?_⟩
  rw [hw]
  exact ⟨hin, hout, sget_sput_self ..⟩

/-! ### Multicast windows (R166) -/

/-- A request for a line that no open window serves opens one. -/
theorem multicastRequest_opens {s : State} {n line : Nat} {o : Op} {accs : List Access} {mask : BitVec 16} {ask sent : List Nat}
    {got : Sparse (List Byte × Bool × Bool)} (ho : sget n s.ops = some o) (hk : o.kind = .ldmc accs [] mask ask sent got) (hline : line ∈ ask) :
    let w : McWindow := { pa := line, ctx := o.ctx, mask := mask, domain := o.core / 16, tag := 0, joined := [(n, line, o.core)],
                          opened := (coreOf s o.core).clock }
    w.full = false → (∀ e ∈ s.mcWins, e.2.pa ≠ line) →
    exec (.multicastRequest n line) s = .next { modOp s n (fun o => { o with
      kind := .ldmc accs [] mask (ask.filter (fun l => l != line)) (sent ++ [line]) got }) with
        mcWins := sput s.nextOp w s.mcWins, nextOp := s.nextOp + 1 } := by
  intro w hfull hother
  have hfind (t : State) (ctx core : Nat) : s.mcWins.find? (fun e => e.2.pa = line && e.2.ctx = ctx && e.2.mask = mask && e.2.domain = core / 16
      && e.2.tag.toNat = 0 && !e.2.over t && !e.2.full) = none := by
    rw [List.find?_eq_none]
    intro e he
    simp only [decide_eq_false (hother e he), Bool.false_and, Bool.false_eq_true, not_false_iff]
  change execMulticastRequest n line s = _
  unfold execMulticastRequest
  rw [ho]
  dsimp only
  rw [hk]
  dsimp only
  rw [List.contains_iff_mem.2 hline]
  simp only [Bool.not_true, Bool.false_eq_true, if_false]
  unfold joinWindow
  dsimp only
  rw [show (modOp s n _).mcWins = s.mcWins from rfl, hfind]
  dsimp only
  exact congrArg Host.Outcome.next (if_neg (Bool.eq_false_iff.1 hfull))

theorem addrs_take (a : Nat) : (addrs a 128).take 64 = addrs a 64 := by rw [addrs, ← List.map_take]; rfl
theorem addrs_drop (a : Nat) : (addrs a 128).drop 64 = addrs (a + 64) 64 := by
  rw [addrs, ← List.map_drop, show (List.range 128).drop 64 = (List.range 64).map (64 + ·) from by decide, List.map_map]
  exact List.map_congr_left fun j _ => by simp only [Function.comp_apply]; omega

/-- A line with its poison by halves, as a multicast window sends it. -/
def sentLine (s : State) (pa : Nat) : List Byte × Bool × Bool :=
  ((addrs pa 128).map (pByte s), (addrs pa 64).any (fun a => s.memPois.contains (a / 64)), (addrs (pa + 64) 64).any (fun a => s.memPois.contains (a / 64)))

theorem sentLine_eq (s : State) (pa : Nat) :
    let bs := (addrs pa 128).map (fun a => (pByte s a, s.memPois.contains (a / 64)))
    (bs.map (·.1), (bs.take 64).any (·.2), (bs.drop 64).any (·.2)) = sentLine s pa := by
  simp only [sentLine, ← List.map_take, ← List.map_drop, addrs_take, addrs_drop, List.map_map, List.any_map]
  rfl

theorem mcArrive_unheld {o : Op} (h : o.kind.unheld) (line : Nat) (data : List Byte × Bool × Bool) : (mcArrive o line data).kind.unheld := by
  unfold mcArrive
  split
  · next hk => rw [hk] at h; exact h
  · exact trivial
  · exact h

/-- A changed operation holds nothing either. -/
theorem Unheld.modOp {s : State} (h : Unheld s) {n : Nat} {f : Op → Op} (hf : ∀ o, o.kind.unheld → (f o).kind.unheld) : Unheld (modOp s n f) := by
  intro e he
  obtain ⟨e', he', rfl⟩ := List.mem_map.1 he
  split
  · exact hf _ (h e' he')
  · exact h e' he'

/-- A window with one request, for an untagged line of memory, sends it. -/
theorem closeWindow_one {s : State} {k n line core : Nat} {w : McWindow} (hj : w.joined = [(n, line, core)]) (ht : w.tag = 0) (ho : Open s)
    (hq : Quiet s) :
    closeWindow s k w = { modOp s n (fun o => mcArrive o line (sentLine s w.pa)) with mcWins := sdel k s.mcWins } := by
  have hun : Unheld { modOp s n (fun o => mcArrive o line (sentLine s w.pa)) with mcWins := sdel k s.mcWins } :=
    hq.unheld.modOp (fun o h => mcArrive_unheld h line _)
  have hnr : NoReleases { modOp s n (fun o => mcArrive o line (sentLine s w.pa)) with mcWins := sdel k s.mcWins } := hq.noReleases
  unfold closeWindow McWindow.source
  rw [ht, if_pos rfl]
  dsimp only
  rw [reachesOwned_open ho]
  simp only [Bool.false_eq_true, if_false, bytesAt, snoop_open ho.windows]
  rw [show _ = sentLine s w.pa from sentLine_eq s w.pa, hj]
  simp only [List.foldl_cons, List.foldl_nil]
  refine Eq.trans ?_ hnr.wakeReleases_same
  refine congrArg wakeReleases (Eq.trans ?_ (hun.retryMem_same none))
  rfl

theorem multicastWindowClose_one {s : State} {k n line core : Nat} {w : McWindow} (hk : sget k s.mcWins = some w) (hj : w.joined = [(n, line, core)])
    (ht : w.tag = 0) (ho : Open s) (hq : Quiet s) (hd : w.full = true ∨ w.opened.toNat + 64 ≤ (coreOf s core).clock.toNat) :
    exec (.multicastWindowClose k) s = .next { modOp s n (fun o => mcArrive o line (sentLine s w.pa)) with mcWins := sdel k s.mcWins } := by
  have hcore : w.core = core := by rw [McWindow.core, hj]; rfl
  have hdue : (w.full || w.over s) = true := by
    rw [McWindow.over, hcore, Bool.or_eq_true, decide_eq_true_eq]
    exact hd
  change execMulticastWindowClose k s = _
  unfold execMulticastWindowClose
  rw [hk]
  dsimp only
  rw [hdue, if_pos rfl, closeWindow_one hj ht ho hq]

end Sys2Proof.Machine
end

section
/-! SUPPORT. Cells of tagged pages (O36): how a frame is taken, copied and given back, and what publication leaves. -/

namespace Sys2Proof.Machine

/-! ### What bookkeeping of tables leaves alone -/

/-- From `s` to `t` nothing differs but memory with its poison, reports, and what contexts note of their rings. -/
structure Beside (s t : State) : Prop where
  rest : { t with mem := s.mem, memPois := s.memPois, contexts := s.contexts, reports := s.reports } = s
  recs : ∀ ctx, (sget ctx t.contexts).map (·.recPa) = (sget ctx s.contexts).map (·.recPa)

namespace Beside

theorem refl (s : State) : Beside s s := ⟨rfl, fun _ => rfl⟩

theorem trans {s t u : State} (h : Beside s t) (h' : Beside t u) : Beside s u :=
  ⟨Eq.trans (congrArg (fun v : State => { v with mem := s.mem, memPois := s.memPois, contexts := s.contexts, reports := s.reports }) h'.rest :) h.rest,
    fun ctx => (h'.recs ctx).trans (h.recs ctx)⟩

variable {s t : State} (h : Beside s t)
include h

theorem gangs : t.gangs = s.gangs := (congrArg State.gangs h.rest :)
theorem ops : t.ops = s.ops := (congrArg State.ops h.rest :)
theorem launches : t.launches = s.launches := (congrArg State.launches h.rest :)

theorem windows (hw : ∀ e ∈ s.gangs, e.2.windows = []) : ∀ e ∈ t.gangs, e.2.windows = [] := by rw [h.gangs]; exact hw

theorem recPa {ctx : Nat} {c : Context} (hc : sget ctx s.contexts = some c) : ∃ c', sget ctx t.contexts = some c' ∧ c'.recPa = c.recPa := by
  have hr := h.recs ctx
  rw [hc, Option.map_some, Option.map_eq_some_iff] at hr
  exact hr

end Beside

theorem Takes.toBeside {s t : State} {a : Nat} {data : List Byte} (h : Takes s t a data) : Beside s t := by
  have hc : t.contexts = s.contexts := (congrArg State.contexts h.2.2 :)
  exact ⟨(congrArg (fun v : State => { v with contexts := s.contexts, reports := s.reports }) h.2.2 :), fun ctx => by rw [hc]⟩

theorem beside_overrun {s : State} {ctx : Nat} {f : Context → Context} (hf : ∀ c, (f c).recPa = c.recPa) :
    Beside s { s with contexts := smod ctx f s.contexts } := by
  refine ⟨rfl, fun j => ?_⟩
  dsimp only
  rw [sget_smod]
  split
  · rw [Option.map_map]
    exact congrArg (Option.map · _) (funext hf)
  · rfl

theorem beside_clearOverrun (s : State) (ctx : Nat) : Beside s (clearOverrun s ctx) := beside_overrun fun _ => rfl

theorem beside_report (s : State) (ctx core src acc cause rid va : Nat) : Beside s (report s ctx core src acc cause rid va) := ⟨rfl, fun _ => rfl⟩

theorem beside_noteOverrun (s : State) (ctx pa : Nat) : Beside s (noteOverrun s ctx pa) ∧ (noteOverrun s ctx pa).mem = s.mem := by
  unfold noteOverrun
  split
  · next c hc =>
    split
    · exact ⟨.refl s, rfl⟩
    · refine ⟨⟨rfl, fun j => ?_⟩, rfl⟩
      by_cases hj : j = ctx
      · subst hj
        exact (congrArg _ (sget_sput_self ..)).trans (by rw [hc]; rfl)
      · exact congrArg _ (sget_sput_ne hj ..)
  · exact ⟨.refl s, rfl⟩

/-! ### Numbers in memory that no window stands before -/

theorem cByte_open {s : State} (hw : ∀ e ∈ s.gangs, e.2.windows = []) (pa : Nat) : cByte s pa = pByte s pa := by
  have hnone : s.gangs.findSome? (fun g => g.2.windows.findSome? (fun w => dirtyIn g.2 pa w.2)) = none := by
    rw [List.findSome?_eq_none_iff]
    intro g hg
    rw [hw g hg]
    rfl
  unfold cByte
  rw [hnone]
  rfl

/-- A number reads the same where its bytes are the same. -/
theorem rd_same {s t : State} (hw : ∀ e ∈ s.gangs, e.2.windows = []) (h : Beside s t) {pa n : Nat}
    (hb : ∀ p, pa ≤ p → p < pa + n → pByte t p = pByte s p) : rd t pa n = rd s pa n := by
  unfold rd
  refine congrArg fromBytesLE (List.map_congr_left fun p hp => ?_)
  obtain ⟨h1, h2⟩ := mem_addrs.1 hp
  rw [cByte_open hw, cByte_open (h.windows hw), hb p h1 h2]

theorem ctxRd_of {s : State} {ctx : Nat} {c : Context} (hc : sget ctx s.contexts = some c) (off n : Nat) : ctxRd s ctx off n = rd s (c.recPa + off) n := by
  unfold ctxRd
  rw [hc]

theorem transBlock_same {s t : State} (hw : ∀ e ∈ s.gangs, e.2.windows = []) (h : Beside s t) {ctx : Nat} {c : Context}
    (hc : sget ctx s.contexts = some c) (hb : ∀ p, c.recPa ≤ p → p < c.recPa + 64 → pByte t p = pByte s p) :
    transBlock t ctx = transBlock s ctx := by
  obtain ⟨c', hc', hpa⟩ := h.recPa hc
  rw [transBlock, transBlock, ctxRd_of hc, ctxRd_of hc', hpa]
  exact rd_same hw h hb

/-! ### Writes of tables -/

/-- From `s` to `t` the bytes from `a` upward become those of the data, and every other byte of memory stays. -/
structure Lays (s t : State) (a : Nat) (data : List Byte) : Prop extends Beside s t where
  inside : ∀ j < data.length, pByte t (a + j) = data.getD j 0
  outside : ∀ p, (p < a ∨ a + data.length ≤ p) → pByte t p = pByte s p

theorem Takes.lays {s t : State} {a : Nat} {data : List Byte} (h : Takes s t a data) : Lays s t a data :=
  ⟨h.toBeside, h.1, fun p hp => h.2.1 p fun j hj => by omega⟩

theorem outside_of {p a n : Nat} (h : ∀ j < n, p ≠ a + j) : p < a ∨ a + n ≤ p := by
  by_contra hc
  exact h (p - a) (by omega) (by omega)

/-- A change that leaves memory alone may come before or after. -/
theorem Lays.before {r s t : State} {a : Nat} {data : List Byte} (h : Lays s t a data) (hb : Beside r s) (hm : s.mem = r.mem) : Lays r t a data :=
  ⟨hb.trans h.toBeside, h.inside, fun p hp => (h.outside p hp).trans (by unfold pByte; rw [hm])⟩

theorem Lays.after {s t u : State} {a : Nat} {data : List Byte} (h : Lays s t a data) (hb : Beside t u) (hm : u.mem = t.mem) : Lays s u a data := by
  have hbyte (p : Nat) : pByte u p = pByte t p := by unfold pByte; rw [hm]
  exact ⟨h.toBeside.trans hb, fun j hj => (hbyte _).trans (h.inside j hj), fun p hp => (hbyte p).trans (h.outside p hp)⟩

theorem lays_wr {s : State} (hw : ∀ e ∈ s.gangs, e.2.windows = []) (pa n x : Nat) : Lays s (wr s pa n x) pa (toBytesLE n x) := by
  have h := takes_writeBytes hw pa (toBytesLE n x) false
  rw [toBytesLE_length] at h
  exact h.lays

theorem lays_ctxWr {s : State} (hw : ∀ e ∈ s.gangs, e.2.windows = []) {ctx : Nat} {c : Context} (hc : sget ctx s.contexts = some c) (off n x : Nat) :
    Lays s (ctxWr s ctx off n x) (c.recPa + off) (toBytesLE n x) := by
  unfold ctxWr
  rw [hc]
  exact lays_wr hw _ _ _

/-! ### Frames (R337, R339) -/

/-- Bytes copied one after the other to a place apart from theirs. -/
theorem takes_copy (s : State) (src dst n : Nat) (hap : dst + n ≤ src ∨ src + n ≤ dst) :
    Takes s ((List.range n).foldl (fun s i => pPut s (dst + i) (pByte s (src + i))) s) dst ((addrs src n).map (pByte s)) := by
  have key : ∀ m ≤ n, Takes s ((List.range m).foldl (fun s i => pPut s (dst + i) (pByte s (src + i))) s) dst ((addrs src m).map (pByte s)) := by
    intro m hm
    induction m with
    | zero => exact ⟨fun j hj => absurd hj (by simp [addrs]), fun _ _ => rfl, rfl⟩
    | succ m ih =>
      obtain ⟨hin, hout, hrest⟩ := ih (by omega)
      rw [List.range_succ, List.foldl_append, List.foldl_cons, List.foldl_nil]
      generalize (List.range m).foldl (fun s i => pPut s (dst + i) (pByte s (src + i))) s = u at hin hout hrest
      simp only [List.length_map, length_addrs] at hin hout
      have hsrc : pByte u (src + m) = pByte s (src + m) := hout _ fun j hj => by omega
      refine ⟨fun j hj => ?_, fun p hp => ?_, (congrArg (fun v : State => { v with memPois := s.memPois }) hrest :)⟩
      · simp only [List.length_map, length_addrs] at hj
        rw [getD_map_addrs _ _ hj, hsrc]
        by_cases hjm : j = m
        · rw [hjm, pByte, pPut, sgetD_sputD_self]
        · rw [pByte_pPut_ne (by omega), hin j (by omega), getD_map_addrs _ _ (by omega)]
      · simp only [List.length_map, length_addrs] at hp
        rw [pByte_pPut_ne (hp m (by omega)), hout p fun j hj => hp j (by omega)]
  exact key n (Nat.le_refl n)

theorem Lays.withPois {s t : State} {a : Nat} {data : List Byte} (h : Lays s t a data) (p : List Nat) : Lays s { t with memPois := p } a data :=
  h.after ⟨rfl, fun _ => rfl⟩ rfl

theorem lays_copy (s : State) (src dst n : Nat) (hap : dst + n ≤ src ∨ src + n ≤ dst) (p : List Nat) :
    Lays s { (List.range n).foldl (fun s i => pPut s (dst + i) (pByte s (src + i))) s with memPois := p } dst ((addrs src n).map (pByte s)) :=
  (takes_copy s src dst n hap).lays.withPois p

theorem copyFrame_open {s : State} (hw : ∀ e ∈ s.gangs, e.2.windows = []) (src dst : Nat) :
    ∃ p, copyFrame s src dst = { (List.range 4096).foldl (fun s i => pPut s (dst + i) (pByte s (src + i))) s with memPois := p } := by
  unfold copyFrame
  rw [snoop_open hw, snoop_open hw]
  exact ⟨_, rfl⟩

/-- A frame of 4,096 bytes is copied to a frame apart from it. -/
theorem lays_copyFrame {s : State} (hw : ∀ e ∈ s.gangs, e.2.windows = []) {src dst : Nat} (hap : dst + 4096 ≤ src ∨ src + 4096 ≤ dst) :
    Lays s (copyFrame s src dst) dst ((addrs src 4096).map (pByte s)) := by
  obtain ⟨p, hp⟩ := copyFrame_open hw src dst
  exact hp ▸ lays_copy s src dst 4096 hap p

/-- A frame is taken from a ring that is within bounds and not empty: its head moves on. -/
theorem marlTake_frame {s : State} (hw : ∀ e ∈ s.gangs, e.2.windows = []) {ctx : Nat} {c : Context} (hc : sget ctx s.contexts = some c)
    (h0 : 0 < marlCount (transBlock s ctx)) (h1 : marlCount (transBlock s ctx) ≤ 2 ^ bits (transBlock s ctx) 295 5) (pa : Nat) (ag : Agent) (rid va : Nat) :
    ∃ t, marlTake s ctx pa ag rid va
        = (t, .ok (bits (rd s (marlSlot (transBlock s ctx) (bits (transBlock s ctx) 320 32)) 8) 12 40 * 4096))
      ∧ Lays s t (c.recPa + 0x28) (toBytesLE 4 ((bits (transBlock s ctx) 320 32 + 1) % 2 ^ 32)) := by
  have hclear := beside_clearOverrun s ctx
  obtain ⟨c', hc', hpa⟩ := hclear.recPa hc
  have hlay := (lays_ctxWr (hclear.windows hw) hc' 0x28 4 ((bits (transBlock s ctx) 320 32 + 1) % 2 ^ 32)).before hclear rfl
  rw [hpa] at hlay
  have hrd (a n : Nat) : rd (clearOverrun s ctx) a n = rd s a n := rd_congr rfl rfl a n
  unfold marlTake
  dsimp only
  rw [if_neg (Nat.not_lt.2 h1), if_neg (Nat.ne_of_gt h0), hrd]
  refine ⟨_, rfl, ?_⟩
  split
  · exact hlay.after (beside_report ..) rfl
  · exact hlay

/-- What giving a frame back comes to: a report, or an entry of the ring and the head of the ring. -/
theorem marlGive_cases (s : State) (ctx pa frame : Nat) :
    (∃ u, (u = noteOverrun s ctx pa ∨ u = clearOverrun s ctx) ∧ marlGive s ctx pa frame = report u ctx (sliceCore pa) 0 4 5 0 frame)
      ∨ ∃ head, marlGive s ctx pa frame = ctxWr (wr (clearOverrun s ctx) (marlSlot (transBlock s ctx) head) 8 frame) ctx 0x28 4 head := by
  unfold marlGive
  by_cases hfull : 2 ^ bits (transBlock s ctx) 295 5 ≤ marlCount (transBlock s ctx)
  · refine .inl ⟨_, ?_, if_pos hfull⟩
    split
    · exact .inl rfl
    · exact .inr rfl
  · exact .inr ⟨_, if_neg hfull⟩

/-- A frame is given back: at most the next entry of the ring and the head of the ring in the context's record change. -/
theorem marlGive_bytes {s : State} (hw : ∀ e ∈ s.gangs, e.2.windows = []) {ctx : Nat} {c : Context} (hc : sget ctx s.contexts = some c)
    (pa frame : Nat) :
    Beside s (marlGive s ctx pa frame)
      ∧ ∀ p, (∀ h, p < marlSlot (transBlock s ctx) h ∨ marlSlot (transBlock s ctx) h + 8 ≤ p) → (p < c.recPa ∨ c.recPa + 64 ≤ p) →
        pByte (marlGive s ctx pa frame) p = pByte s p := by
  have hclear := beside_clearOverrun s ctx
  rcases marlGive_cases s ctx pa frame with ⟨u, hu, he⟩ | ⟨head, he⟩
  · have hlook : Beside s u ∧ u.mem = s.mem := by
      rcases hu with rfl | rfl
      · exact beside_noteOverrun s ctx pa
      · exact ⟨hclear, rfl⟩
    rw [he]
    exact ⟨hlook.1.trans (beside_report ..), fun p _ _ => congrArg (sgetD unlisted · p) hlook.2⟩
  · have hslot := (lays_wr (hclear.windows hw) (marlSlot (transBlock s ctx) head) 8 frame).before hclear rfl
    obtain ⟨c', hc', hpa⟩ := hslot.toBeside.recPa hc
    have hhead := lays_ctxWr (hslot.toBeside.windows hw) hc' 0x28 4 head
    rw [he]
    refine ⟨hslot.toBeside.trans hhead.toBeside, fun p hp hr => ?_⟩
    rw [hhead.outside p (by rw [toBytesLE_length, hpa]; omega), hslot.outside p (by rw [toBytesLE_length]; exact hp _)]

/-- A cell is freed: at most its entry, the next entry of the ring and the context's record change. -/
theorem freeCell_bytes {s : State} (hw : ∀ e ∈ s.gangs, e.2.windows = []) {ctx : Nat} {c : Context} (hc : sget ctx s.contexts = some c)
    {entry frame : Nat} (hap : entry + 32 ≤ c.recPa ∨ c.recPa + 64 ≤ entry) :
    Beside s (freeCell s ctx entry frame)
      ∧ ∀ p, (p < entry ∨ entry + 32 ≤ p) → (∀ h, p < marlSlot (transBlock s ctx) h ∨ marlSlot (transBlock s ctx) h + 8 ≤ p) →
        (p < c.recPa ∨ c.recPa + 64 ≤ p) → pByte (freeCell s ctx entry frame) p = pByte s p := by
  unfold freeCell
  dsimp only
  have hlay := lays_wr hw entry 32 (cellEntry 2 frame (bits (rd s entry 32) 12 45) (bits (rd s entry 32) 0 12))
  have hout {p : Nat} (hp : p < entry ∨ entry + 32 ≤ p) := hlay.outside p (by rw [toBytesLE_length]; exact hp)
  obtain ⟨c', hc', hpa⟩ := hlay.toBeside.recPa hc
  have htb := transBlock_same hw hlay.toBeside hc fun p h1 h2 => hout (by omega)
  obtain ⟨hb, hbytes⟩ := marlGive_bytes (hlay.toBeside.windows hw) hc' (basePa s ctx (bits (rd s entry 32) 12 45) frame) frame
  rw [htb, hpa] at hbytes
  exact ⟨hlay.toBeside.trans hb, fun p hp hslot hrec => (hbytes p hslot hrec).trans (hout hp)⟩

/-! ### Nothing owned, before any operation -/

theorem memOwned_before {s : State} (h : Open s) (before : Option Nat) (pas : List Nat) : memOwned s before pas = false := by
  have hown : ∀ o ∈ ownedVirtual s before, o.2.2 = [] := by
    intro o ho
    unfold ownedVirtual at ho
    rcases List.mem_append.1 ho with ho | ho
    · obtain ⟨e, he, rfl⟩ := List.mem_map.1 ho
      exact h.ops e (List.mem_of_mem_filter he)
    · obtain ⟨e, he, rfl⟩ := List.mem_map.1 ho
      exact h.reqs e (List.mem_of_mem_filter he)
  have hnil : ownedLines s before = [] := by
    unfold ownedLines
    rw [List.flatten_eq_nil_iff]
    intro l hl
    obtain ⟨o, ho, rfl⟩ := List.mem_map.1 hl
    rw [hown o ho]
    rfl
  unfold memOwned
  rw [hnil]
  rfl

/-! ### Steps of tags (R252, R258, R259) -/

/-- A retiring tag without holders and without cells is free again. -/
theorem tagRetireComplete_free {s : State} {ctx tag : Nat} {c : Context} {e : TagEntry} (hc : sget ctx s.contexts = some c)
    (he : sget tag c.tags = some e) (hr : e.retiring = true) (hh : e.holders = 0) (hcells : cellsOf s ctx (some tag) = []) (hw : c.waiters = []) :
    exec (.tagRetireComplete ctx tag) s = .next (modCtx s ctx (fun c => { c with tags := sdel tag c.tags })) := by
  have hserve : serveAll (modCtx s ctx (fun c => { c with tags := sdel tag c.tags })) ctx = modCtx s ctx (fun c => { c with tags := sdel tag c.tags }) := by
    refine serveAll_same fun c' hc' => ?_
    have h := (sget_smod_self ctx (fun c : Context => { c with tags := sdel tag c.tags }) s.contexts).symm.trans hc'
    rw [hc, Option.map_some, Option.some.injEq] at h
    rw [← h]
    exact hw
  change execTagRetireComplete ctx tag s = _
  unfold execTagRetireComplete
  rw [hc, Option.bind_some, he]
  dsimp only
  rw [hr, hh, hcells, List.foldl_nil, hserve]
  rfl

/-- Two runs of bytes have no byte in common. -/
def Apart (x n y m : Nat) : Prop := x + n ≤ y ∨ y + m ≤ x

section
variable {s : State} {ctx vpn tag pte addr size a : Nat} {c : Context}

/-- The cell that a waiting write needs is made: a frame is taken, the base copied into it, and the entry written. -/
theorem cellMaterialise_made (hc : sget ctx s.contexts = some c) (ho : Open s) (ht : tag ≠ 0) (hwant : cellWanted s ctx vpn tag = true)
    (hwalk : walk s ctx (4096 * vpn) = .leaf pte addr size) (h63 : pte.testBit 63 = true) (h57 : pte.testBit 57 = false) (h3 : pte.testBit 3 = true)
    (hfind : cellFind s ctx vpn tag = .absent (some a)) {f : Nat}
    (hf : f = bits (rd s (marlSlot (transBlock s ctx) (bits (transBlock s ctx) 320 32)) 8) 12 40 * 4096)
    (h0 : 0 < marlCount (transBlock s ctx)) (h1 : marlCount (transBlock s ctx) ≤ 2 ^ bits (transBlock s ctx) 295 5)
    (hfb : Apart f 4096 (leafPa pte size (4096 * vpn)) 4096) (hrb : Apart (c.recPa + 0x28) 4 (leafPa pte size (4096 * vpn)) 4096) :
    ∃ t u v, exec (.cellMaterialise ctx vpn tag) s = .next v
      ∧ Lays s t (c.recPa + 0x28) (toBytesLE 4 ((bits (transBlock s ctx) 320 32 + 1) % 2 ^ 32))
      ∧ Lays t u f ((addrs (leafPa pte size (4096 * vpn)) 4096).map (pByte s)) ∧ Lays u v a (toBytesLE 32 (cellEntry 1 f vpn tag)) := by
  obtain ⟨t, htake, hhead⟩ := marlTake_frame ho.windows hc h0 h1 (leafPa pte size (4096 * vpn)) { core := sliceCore (leafPa pte size (4096 * vpn)) } 0
    (4096 * vpn)
  rw [← hf] at htake
  have hwt := hhead.toBeside.windows ho.windows
  have hcopy := lays_copyFrame hwt hfb
  have hbase : (addrs (leafPa pte size (4096 * vpn)) 4096).map (pByte t) = (addrs (leafPa pte size (4096 * vpn)) 4096).map (pByte s) := by
    refine List.map_congr_left fun p hp => hhead.outside p ?_
    obtain ⟨hp1, hp2⟩ := mem_addrs.1 hp
    rw [toBytesLE_length]
    unfold Apart at hrb
    omega
  rw [hbase] at hcopy
  refine ⟨t, _, _, ?_, hhead, hcopy, lays_wr (hcopy.toBeside.windows hwt) a 32 (cellEntry 1 f vpn tag)⟩
  change execCellMaterialise ctx vpn tag s = _
  unfold execCellMaterialise
  rw [hwant, hwalk]
  dsimp only
  rw [h63, h57, h3]
  simp only [ht, decide_false, Bool.not_true, Bool.or_self, Bool.false_eq_true, if_false]
  unfold materialise
  rw [hfind]
  dsimp only
  rw [memOwned_open ho, htake]
  rfl
end

/-! ### Publication (R258) -/

theorem tagDrops_contexts (ctx : Nat) (l : List (Nat × Nat × List Nat)) (s : State) :
    l.foldl (fun s p => tagDrop s ctx p.2.1) s = s.withContexts (l.foldl (fun s p => tagDrop s ctx p.2.1) s).contexts := by
  induction l generalizing s with
  | nil => rfl
  | cons p l ih => rw [List.foldl_cons, ih]; rfl

theorem endOp_of {s : State} {n : Nat} {o : Op} (ho : sget n s.ops = some o) :
    endOp s n = { s with waves := smod o.wave (Wave.unflag o.flag) s.waves, ops := sdel n s.ops } := by
  unfold endOp
  rw [ho]
  dsimp only
  rw [dropFlag_waves]
  rfl

/-- A `tagpub` ends with its last page; before, it stays in flight. -/
theorem finishTagpub_ops {s : State} {n : Nat} {o : Op} {parts : List (Nat × Nat × List Nat)} (ho : sget n s.ops = some o) (hk : o.kind = .tagpub parts) :
    { finishTagpub s n with ops := s.ops, waves := s.waves, contexts := s.contexts } = s
      ∧ (finishTagpub s n).ops = if parts.all (fun p => p.2.2.isEmpty) then sdel n s.ops else s.ops := by
  unfold finishTagpub
  rw [ho]
  dsimp only
  rw [hk]
  dsimp only
  split
  · rw [tagDrops_contexts]
    generalize (parts.foldl (fun s p => tagDrop s o.ctx p.2.1) s).contexts = cs
    rw [endOp_of (s := s.withContexts cs) ho]
    exact ⟨rfl, rfl⟩
  · exact ⟨rfl, rfl⟩

theorem Unheld.finishTagpub {s : State} (h : Unheld s) {n : Nat} {o : Op} {parts : List (Nat × Nat × List Nat)} (ho : sget n s.ops = some o)
    (hk : o.kind = .tagpub parts) : Unheld (finishTagpub s n) := by
  intro e he
  rw [(finishTagpub_ops ho hk).2] at he
  split at he
  · exact h e (List.mem_of_mem_filter he)
  · exact h e he

/-- A `tagpub` that has some pages left. -/
def Op.withPages (parts : List (Nat × Nat × List Nat)) (o : Op) : Op := { o with wait := none, kind := .tagpub parts }

/-- A published page: its cell has been copied over its base and freed, and the page has left the operation. -/
theorem tagpubPage_published {s : State} {n vpn e f pte addr size : Nat} {o : Op} {parts : List (Nat × Nat × List Nat)} {p : Nat × Nat × List Nat}
    (ho : sget n s.ops = some o) (hk : o.kind = .tagpub parts) (hp : parts.find? (fun p => p.2.2.contains vpn) = some p) (hq : Unheld s) (hopen : Open s)
    (hcell : cellFind s o.ctx vpn p.2.1 = .found e f) (hwalk : walk s o.ctx (4096 * vpn) = .leaf pte addr size) (h57 : pte.testBit 57 = false)
    (h3 : pte.testBit 3 = true) (h6 : pte.testBit 6 = true) (h7 : pte.testBit 7 = true) (hal : leafPa pte size (4096 * vpn) % 4096 = 0)
    (hbeside : Beside s (freeCell (copyFrame s f (leafPa pte size (4096 * vpn))) o.ctx e f)) :
    exec (.tagpubPage n vpn) s = .next (finishTagpub (modOp (freeCell (copyFrame s f (leafPa pte size (4096 * vpn))) o.ctx e f) n
      (Op.withPages (dropPage vpn p.2.1 parts))) n) := by
  have hrecall : recallCell s o.ctx vpn p.2.1 = s := foldl_same _ _ _ fun i _ => by rw [snoopCell_open hopen.windows]
  have hun (t : State) (hb : Beside s t) : Unheld (finishTagpub (modOp t n (Op.withPages (dropPage vpn p.2.1 parts))) n) := by
    have ht : Unheld t := by unfold Unheld; rw [hb.ops]; exact hq
    have hat : sget n (modOp t n (Op.withPages (dropPage vpn p.2.1 parts))).ops = some (o.withPages (dropPage vpn p.2.1 parts)) := by
      rw [modOp, sget_smod_self, hb.ops, ho]
      rfl
    exact (ht.modOp (f := Op.withPages (dropPage vpn p.2.1 parts)) fun _ _ => trivial).finishTagpub hat rfl
  change execTagpubPage n vpn s = _
  unfold execTagpubPage
  rw [ho]
  dsimp only
  rw [hk]
  dsimp only
  rw [hp]
  dsimp only
  unfold publish
  dsimp only
  rw [hrecall, hcell]
  dsimp only
  rw [walkFor_leaf (need := .write) hwalk h57 h3 h6 (fun _ => h7)]
  dsimp only
  rw [memOwned_before hopen, hal, Nat.sub_zero]
  simp only [Bool.false_eq_true, if_false]
  exact congrArg Host.Outcome.next ((hun _ hbeside).retryMem_same none)

theorem modOp_at {s : State} {n : Nat} {o : Op} (h : sget n s.ops = some o) (f : Op → Op) : sget n (modOp s n f).ops = some (f o) := by
  rw [modOp, sget_smod_self, h]
  rfl

theorem modOp_other {s : State} {n j : Nat} (h : j ≠ n) (f : Op → Op) : sget j (modOp s n f).ops = sget j s.ops := by
  rw [modOp, sget_smod_ne h]

/-- Settles O36: windows without a line to write back, one dirty line, the fill of an absent line, one request and one window of a multicast,
and the steps of tags. -/
theorem windowAndCellSteps : Obligations.WindowAndCellSteps := by
  refine ⟨⟨?maps, ?dirty, ?fill, ?request, ?close⟩, ?retire, ?made, ?published⟩
  case maps =>
    intro s n o h m ho hg ends hfirst hc
    have hends {e : Instr} {h' : Gang} {freed : Option Window} (hw : EndsWindow s n o e h' freed) : ends e h' freed := by
      obtain ⟨t, hx, hend, hself, hother, hctx⟩ := hw
      exact ⟨t, hx, hend, hself, hother, hctx.trans (giveUp_contexts s freed)⟩
    exact ⟨fun win hk => hends (smapComplete_map ho hg hk hfirst hc), fun hk => hends (smapComplete_unmap ho hg hk hfirst hc),
      fun hk => hends (swbComplete_clean ho hg hk hc)⟩
  case dirty =>
    intro s n o h m i pa win wr ho hg hk hw hl
    exact swbComplete_line ho hg hk hw hl
  case fill =>
    intro s launch gang m line h w pte addr size hg hw hline hl hq hmo hco hwalk h57 h2 h6 h63 pa hcopy
    obtain ⟨h', hself, hin, hout, hwin⟩ := takeLine_gang (pa := pa) (line := line) hg hw (some pa) false
    exact ⟨_, h', windowLineFill_absent hg hw hline hl hq hmo hco hwalk h57 h2 h6 h63 hcopy, hself, hin, hout, hwin,
      fun j hj => by rw [takeLine, modGang, sget_smod_ne hj], rfl⟩
  case request =>
    intro s n line o accs mask ask sent got ho hk hline w hfull hother
    refine ⟨_, multicastRequest_opens ho hk hline hfull hother, rfl, ?_, fun j hj => ?_⟩
    · dsimp only
      exact modOp_at ho _
    · dsimp only
      exact modOp_other hj _
  case close =>
    intro s k n line core w o accs mask ask sent got hkw hj ht hopen hq hdue ho hk
    refine ⟨_, multicastWindowClose_one hkw hj ht hopen hq hdue, rfl, ?_, fun j hj => ?_, rfl⟩
    · dsimp only
      rw [modOp_at ho, mcArrive, hk]
      rfl
    · dsimp only
      exact modOp_other hj _
  case retire =>
    intro s ctx tag c e hc he hr hh hcells hw
    refine ⟨_, tagRetireComplete_free hc he hr hh hcells hw, ?_, fun j hj => ?_, rfl⟩
    · rw [modCtx, sget_smod_self, hc]
      rfl
    · rw [modCtx, sget_smod_ne hj]
  case made =>
    intro s ctx vpn tag pte addr size a c hc ho ht hwant hwalk h63 h57 h3 hfind tb base f apart h0 h1 hfb hfa hrb hrf hra
    obtain ⟨t, u, v, hx, hhead, hcopy, hentry⟩ := cellMaterialise_made hc ho ht hwant hwalk h63 h57 h3 hfind (f := f) rfl h0 h1 hfb hrb
    have hlen4 : (toBytesLE 4 ((bits (transBlock s ctx) 320 32 + 1) % 2 ^ 32)).length = 4 := toBytesLE_length _ _
    have hlen32 : (toBytesLE 32 (cellEntry 1 f vpn tag)).length = 32 := toBytesLE_length _ _
    have hlenf : ((addrs base 4096).map (pByte s)).length = 4096 := by rw [List.length_map, length_addrs]
    have hentryOut (p : Nat) (hp : p < a ∨ a + 32 ≤ p) : pByte v p = pByte u p := hentry.outside p (by rw [hlen32]; exact hp)
    have hcopyOut (p : Nat) (hp : p < f ∨ f + 4096 ≤ p) : pByte u p = pByte t p := hcopy.outside p (by rw [hlenf]; exact hp)
    refine ⟨v, hx, fun j hj => ?_, fun j hj => hentry.inside j (by rw [hlen32]; exact hj), fun j hj => ?_, fun p hpf hpa hpr => ?_,
      ((hhead.toBeside.trans hcopy.toBeside).trans hentry.toBeside).rest⟩
    · rw [hentryOut _ (by unfold apart at hfa; omega), hcopy.inside j (by rw [hlenf]; exact hj), getD_map_addrs _ _ hj]
    · rw [hentryOut _ (by unfold apart at hra; omega), hcopyOut _ (by unfold apart at hrf; omega), hhead.inside j (by rw [hlen4]; exact hj)]
    · rw [hentryOut p (outside_of hpa), hcopyOut p (outside_of hpf), hhead.outside p (by rw [hlen4]; exact outside_of hpr)]
  case published =>
    intro s n vpn e f pte addr size o c parts p ho hk hp hq hopen hc hcell hwalk h57 h3 h6 h7 tb base apart hal hbf hbe hbr her hslots
    have hcopy := lays_copyFrame hopen.windows hbf
    have hlenf : ((addrs f 4096).map (pByte s)).length = 4096 := by rw [List.length_map, length_addrs]
    have hcopyOut (p : Nat) (hp : p < base ∨ base + 4096 ≤ p) : pByte (copyFrame s f base) p = pByte s p :=
      hcopy.outside p (by rw [hlenf]; exact hp)
    obtain ⟨c', hc', hpa⟩ := hcopy.toBeside.recPa hc
    have htb := transBlock_same hopen.windows hcopy.toBeside hc fun p h1 h2 => hcopyOut p (by unfold apart at hbr; omega)
    obtain ⟨hfree, hbytes⟩ := freeCell_bytes (hcopy.toBeside.windows hopen.windows) hc' (entry := e) (frame := f) (by rw [hpa]; exact her)
    rw [htb, hpa] at hbytes
    have hbeside := hcopy.toBeside.trans hfree
    let left := dropPage vpn p.2.1 parts
    let u : State := modOp (freeCell (copyFrame s f base) o.ctx e f) n (Op.withPages left)
    have hat : sget n u.ops = some (o.withPages left) := modOp_at (by rw [hbeside.ops, ho]) _
    obtain ⟨hrest, hops⟩ := finishTagpub_ops hat rfl
    refine ⟨_, tagpubPage_published ho hk hp hq.unheld hopen hcell hwalk h57 h3 h6 h7 hal hbeside, fun j hj => ?_, ?_, fun j hj => ?_, ?_, ?_⟩
    · have hmem : (finishTagpub u n).mem = (freeCell (copyFrame s f base) o.ctx e f).mem := (congrArg State.mem hrest :)
      have hfreed := hbytes (base + j) (by unfold apart at hbe; omega) (fun h => by
          have hslot : apart base 4096 (marlSlot (transBlock s o.ctx) h) 8 := hslots h
          unfold apart at hslot
          omega)
        (by unfold apart at hbr; omega)
      rw [pByte, hmem]
      exact hfreed.trans ((hcopy.inside j (by rw [hlenf]; exact hj)).trans (getD_map_addrs _ _ hj))
    · change if left.all (fun q => q.2.2.isEmpty) then sget n (finishTagpub u n).ops = none else sget n (finishTagpub u n).ops = some (o.withPages left)
      rw [hops]
      split
      · exact sget_sdel_self ..
      · exact hat
    · have hu : sget j u.ops = sget j s.ops := (modOp_other hj _).trans (by rw [hbeside.ops])
      rw [hops]
      split
      · exact (sget_sdel_ne hj _).trans hu
      · exact hu
    · exact Eq.trans (congrArg State.gangs hrest :) hbeside.gangs
    · exact Eq.trans (congrArg State.launches hrest :) hbeside.launches

end Sys2Proof.Machine
end

section
/-! SUPPORT. Transfers of control: what `transfer` leaves of a bundle whose targets are good (R182 to R184). -/

namespace Sys2Proof.Machine

/-- A transfer whose targets are good moves each passing fibre to its target. -/
theorem runs_transfer {s : State} {i : Instr} {g : Guard} {rel : Rel} {z : Site} {target : Fibre → W64} {also : Fibre → Fibre} (h : Ready s i g rel z)
    (ht : ∀ k y, target (passed z.w (z.bundle g) k y) = target y)
    (hg : ∀ k ∈ (z.bundle g).act, ∀ y, sget k z.w.fibres = some y → goodTarget (target y) = true) :
    Runs s (endIssue (transfer target also (z.given g []) (begun s z.w (z.bundle g) i z.f)) (z.bundle g)) z.w (z.bundle g) []
      (fun _ y => (also y).goTo (target y)) id := by
  refine runs_puts h (fun k y => (also y).goTo (target ((sget k z.w.fibres).getD y))) _ ?_ ?_
  · intro k hk y hy t hf _
    have hgood := hg k hk y hy
    change (match fibreAt t z.wk k with | none => t | some f => _) = _
    rw [hf]
    dsimp only
    rw [ht, hgood, if_pos rfl, hy]
    rfl
  · intro k _ y hy
    rw [hy, ht]
    rfl

/-- An instruction that is a transfer completes where its targets are good. -/
theorem transfer_completes {s : State} {i : Instr} {g : Guard} {f : Form} (e : form i = some f) (hc : f.const = none)
    (target : Bundle → Fibre → W64) (also : Bundle → Fibre → Fibre) (hx : exec i s = issue i g .none (fun b => transfer (target b) (also b) b) s)
    (ht : ∀ b w c k y, target b (passed w c k y) = target b y) (hi : ∀ z, InRange i g z := by intro _ _ _ _ _; rfl) :
    Completes s i g .none (fun z => ∀ k ∈ (z.bundle g).act, ∀ y, sget k z.w.fibres = some y → goodTarget (target (z.given g []) y) = true)
      (fun z b u => Runs s u z.w b [] (fun _ y => (also (z.given g []) y).goTo (target (z.given g []) y)) id) :=
  fun _ h hg => ⟨_, performed h e hc hx hi, runs_transfer h (fun _ _ => ht _ _ _ _ _) hg⟩

/-- Settles O19: transfers by `transfer_completes`, `yield` and `nop` as changes of the wave and of the fibres. -/
theorem transferResults : Obligations.TransferResults := by
  intro s g x
  refine ⟨?bra, ?brx, ?brxRel, ?call, ?callX, ?ret, ?yield, fun _ h _ => ⟨_, performed h rfl rfl rfl, runs_quiet h⟩⟩
  case bra => exact transfer_completes rfl rfl (fun b _ => dispTarget b x.disp) (fun _ => id) rfl (fun _ _ _ _ _ => rfl)
  case brx => exact transfer_completes rfl rfl (fun _ y => y.rv2 x.va.toNat) (fun _ => id) rfl (fun _ _ _ _ _ => passed_rv2 _ _ _ _ _)
  case brxRel =>
    exact transfer_completes rfl rfl (fun b y => b.place.hdr + (y.rv x.va.toNat).signExtend 64) (fun _ => id) rfl
      (fun _ _ _ _ _ => by rw [passed_rv])
  case call => exact transfer_completes rfl rfl (fun b _ => dispTarget b x.disp) (fun b y => y.setV2 x.va.toNat b.fallThrough) rfl (fun _ _ _ _ _ => rfl)
  case callX =>
    exact transfer_completes rfl rfl (fun _ y => y.rv2 x.vb.toNat) (fun b y => y.setV2 x.va.toNat b.fallThrough) rfl
      (fun _ _ _ _ _ => passed_rv2 _ _ _ _ _)
  case ret => exact transfer_completes rfl rfl (fun _ y => y.rv2 x.va.toNat) (fun _ => id) rfl (fun _ _ _ _ _ => passed_rv2 _ _ _ _ _)
  case yield =>
    exact fun z h _ => runs_perWave (F := fun w => { w with yieldPc := some (z.given g []).fallThrough }) h
      (plain_reads (by rw [form_is h rfl]; rfl)) h.held (fun _ _ _ _ => rfl) (fun _ => rfl) (fun _ => rfl) (fun _ => rfl) (fun _ => rfl) rfl

end Sys2Proof.Machine
end

section
/-! SUPPORT. The rings to Loam (O47): the supervisor ring, the mailbox ring of a context, and the reply to a parked wave. -/

namespace Sys2Proof.Machine

/-! ### Messages in memory -/

/-- Of a message longer than its place, the first bytes are stored. -/
theorem takes_writeBytes_first {s : State} (h : ∀ g ∈ s.gangs, g.2.windows = []) (a n : Nat) {data : List Byte} (hn : n ≤ data.length) (pois : Bool) :
    Takes s (writeBytes s ((addrs a n).zip data) pois) a (data.take n) := by
  have hz : (addrs a n).zip data = (addrs a (data.take n).length).zip (data.take n) := by
    rw [List.zip_eq_zip_take_min, length_addrs, Nat.min_eq_left hn, List.length_take, Nat.min_eq_left hn,
      List.take_of_length_le (Nat.le_of_eq (length_addrs a n))]
  rw [hz]
  exact takes_writeBytes h a _ pois

theorem Takes.ctl {s t : State} {a : Nat} {data : List Byte} (h : Takes s t a data) : t.ctl = s.ctl := (congrArg State.ctl h.2.2 :)

theorem takes_wr {s : State} (hw : ∀ e ∈ s.gangs, e.2.windows = []) (pa n x : Nat) : Takes s (wr s pa n x) pa (toBytesLE n x) := by
  have h := takes_writeBytes hw pa (toBytesLE n x) false
  rwa [toBytesLE_length] at h

theorem takes_ctxWr {s : State} (hw : ∀ e ∈ s.gangs, e.2.windows = []) {ctx : Nat} {c : Context} (hc : sget ctx s.contexts = some c) (off n x : Nat) :
    Takes s (ctxWr s ctx off n x) (c.recPa + off) (toBytesLE n x) := by
  unfold ctxWr
  rw [hc]
  exact takes_wr hw _ _ _

theorem SupEvent.message_length (e : SupEvent) : e.message.length = 64 := by
  simp only [SupEvent.message, List.length_append, List.length_cons, List.length_nil, List.length_replicate, toBytesLE_length]

/-! ### The supervisor ring (R435, R436) -/

/-- What posting a message to a ring of R435 changes. -/
theorem ringPost_takes {s : State} (hw : ∀ g ∈ s.gangs, g.2.windows = []) (sup : Bool) {msg : List Byte} (hm : msg.length = 64) :
    let tail := ctlBits s (evReg sup 0x10) 0 32
    ∃ t, Takes s t (bits (ctlRd s (evReg sup 0)).toNat 6 46 * 64 + 64 * (tail % 2 ^ ctlBits s (evReg sup 8) 0 5)) msg
      ∧ ringPost s sup msg = { ctlWr t (evReg sup 0x10) (BitVec.ofNat 64 ((tail + 1) % 2 ^ 32)) with
          out := s.out ++ (if tail = ctlBits s (evReg sup 0x18) 0 32 then [.loamIrq (ctlBits s (evReg sup 8) 8 4)] else []) } := by
  intro tail
  have ht := takes_writeBytes hw (bits (ctlRd s (evReg sup 0)).toNat 6 46 * 64 + 64 * (tail % 2 ^ ctlBits s (evReg sup 8) 0 5)) msg false
  rw [hm] at ht
  refine ⟨_, ht, ?_⟩
  unfold ringPost
  dsimp only
  generalize writeBytes s _ false = t at ht
  have hne : evReg sup 8 ≠ evReg sup 0x10 := by unfold evReg; omega
  have hirq : ctlBits (ctlWr t (evReg sup 0x10) (BitVec.ofNat 64 ((tail + 1) % 2 ^ 32))) (evReg sup 8) 8 4 = ctlBits s (evReg sup 8) 8 4 := by
    unfold ctlBits
    rw [ctlRd_ctlWr_ne hne, ctlRd, ht.ctl]
    rfl
  rw [hirq, ← ht.out]
  split
  · rfl
  · rw [List.append_nil]
    rfl

/-- The oldest event goes to the supervisor ring where the ring has room. -/
theorem supervisorEvent_posts {s : State} {e : SupEvent} {rest : List SupEvent} (he : s.supEvents = e :: rest) :
    exec .supervisorEvent s = if ringRoom s true then .next { ringPost s true e.message with supEvents := rest } else .next s := by
  change execSupervisorEvent s = _
  unfold execSupervisorEvent
  rw [he]

theorem ringRoom_iff (s : State) (sup : Bool) : ringRoom s sup = true ↔ 6 ≤ ctlBits s (evReg sup 8) 0 5 ∧ ctlBits s (evReg sup 8) 0 5 ≤ 16
    ∧ (ctlBits s (evReg sup 0x10) 0 32 + 2 ^ 32 - ctlBits s (evReg sup 0x18) 0 32) % 2 ^ 32 < 2 ^ ctlBits s (evReg sup 8) 0 5 := by
  simp only [ringRoom, Bool.and_eq_true, decide_eq_true_eq, and_assoc]

theorem ctlBits_lt (s : State) (r lo n : Nat) : ctlBits s r lo n < 2 ^ n := Nat.mod_lt _ (Nat.two_pow_pos n)

/-! ### The mailbox ring (R205, R437) -/

/-- A wave that parked first of its context stands on its core if no saved gang holds it, with its parking. -/
theorem upcallMessagePost_posts {s : State} {id k : Nat} {p : Park} (hf : firstParked s id = some (k, none, p)) (hr : (Mailbox.read s id).room = true) :
    let m := Mailbox.read s id
    exec (.upcallMessagePost id) s = .next
      (let s := ctxWr (writeBytes s ((addrs (m.base + 64 * (m.tail % 2 ^ m.log)) 64).zip (toBytesLE 8 (coreOf s p.core).clock.toNat ++ (p.msg.getD []).drop 8)) false)
        id 0x5C 4 ((m.tail + 1) % 2 ^ 32)
      modWave (if m.tail = m.head then loamIrq s m.core else s) k (fun w => { w with park := w.park.map (fun p => { p with msg := none }) })) := by
  intro m
  change execUpcallMessagePost id s = _
  unfold execUpcallMessagePost
  rw [hf]
  dsimp only
  rw [hr]
  rfl

/-- Settles O47. -/
theorem ringsToLoam : Obligations.RingsToLoam := by
  refine ⟨?event, ?message, ?resume⟩
  case event =>
    intro s e rest he hw reg log tail a used
    have hroom := ringRoom_iff s true
    rw [supervisorEvent_posts he]
    refine ⟨fun hfull => if_neg fun h => ?_, fun h6 h16 hu => ?_⟩
    · obtain ⟨h6, h16, hu⟩ := hroom.1 h
      exact hfull.elim (fun h => absurd h6 (Nat.not_le.2 h)) fun h => h.elim (fun h => absurd h16 (Nat.not_le.2 h)) fun h => absurd hu (Nat.not_lt.2 h)
    · rw [if_pos (hroom.2 ⟨h6, h16, hu⟩)]
      obtain ⟨t, ht, hpost⟩ := ringPost_takes hw true e.message_length
      obtain ⟨hin, hout, -⟩ := id ht
      rw [e.message_length] at hin hout
      have hempty : tail = ctlBits s (reg 0x18) 0 32 ↔ used = 0 := by
        have h1 : tail < 2 ^ 32 := ctlBits_lt s _ 0 32
        have h2 : ctlBits s (reg 0x18) 0 32 < 2 ^ 32 := ctlBits_lt s _ 0 32
        simp only [used]
        omega
      rw [hpost]
      refine ⟨_, rfl, rfl, hin, hout, fun r => ?_, ?_, ?_⟩
      · by_cases hr : r = reg 0x10
        · rw [hr, if_pos rfl]
          exact ctlRd_ctlWr_self ..
        · rw [if_neg hr]
          refine (ctlRd_ctlWr_ne hr ..).trans ?_
          rw [ctlRd, ht.ctl, ctlRd]
      · exact congrArg (s.out ++ ·) (if_congr hempty rfl rfl)
      · exact (congrArg (fun u : State => { u with supEvents := s.supEvents, ctl := s.ctl, out := s.out }) ht.2.2 :)
  case message =>
    intro s id k p w c hf hk hpark hc hw m a hroom hlen hap
    have hmsg : 64 ≤ (toBytesLE 8 (coreOf s p.core).clock.toNat ++ (p.msg.getD []).drop 8).length := by
      rw [List.length_append, toBytesLE_length, List.length_drop]
      omega
    have ht := takes_writeBytes_first hw a 64 hmsg false
    have hpost := upcallMessagePost_posts hf hroom
    dsimp only at hpost
    change _ = Host.Outcome.next (modWave (if m.tail = m.head then loamIrq (ctxWr (writeBytes s ((addrs a 64).zip _) false) _ _ _ _) _ else _) _ _) at hpost
    rw [hpost]
    clear hpost
    generalize writeBytes s ((addrs a 64).zip _) false = t at ht ⊢
    have hgangs : t.gangs = s.gangs := (congrArg State.gangs ht.2.2 :)
    have hctx : t.contexts = s.contexts := (congrArg State.contexts ht.2.2 :)
    have hu := takes_ctxWr (hgangs ▸ hw) (hctx ▸ hc : sget id t.contexts = some c) 0x5C 4 ((m.tail + 1) % 2 ^ 32)
    generalize ctxWr t id 0x5C 4 ((m.tail + 1) % 2 ^ 32) = u at hu ⊢
    obtain ⟨hin, hout, hrest⟩ := ht
    obtain ⟨hin', hout', hrest'⟩ := hu
    have hwaves : u.waves = s.waves := (congrArg State.waves hrest' :).trans (congrArg State.waves hrest :)
    have hirq : (if m.tail = m.head then loamIrq u m.core else u) = { u with out := s.out ++ (if m.tail = m.head then [.loamIrq m.core] else []) } := by
      have hout : u.out = s.out := (congrArg State.out hrest' :).trans (congrArg State.out hrest :)
      rw [← hout]
      split
      · rfl
      · rw [List.append_nil]
    simp only [List.length_take, Nat.min_eq_left hmsg] at hin hout
    rw [toBytesLE_length] at hin' hout'
    rw [hirq]
    refine ⟨_, rfl, fun j hj => ?_, hin', fun q hq hq' => (hout' q hq').trans (hout q hq), rfl, ?_, fun j hj => ?_, ?_⟩
    · refine (hout' (a + j) fun i hi => by omega).trans ((hin j hj).trans ?_)
      rw [List.getD_eq_getElem?_getD, List.getD_eq_getElem?_getD, List.getElem?_take_of_lt hj]
    · rw [sget_modWave_self]
      change (sget k u.waves).map _ = _
      rw [hwaves, hk, Option.map_some, hpark]
      rfl
    · rw [sget_modWave_ne hj]
      exact congrArg _ hwaves
    · exact Eq.trans (congrArg (fun v : State => { v with mem := s.mem, memPois := s.memPois, out := s.out, waves := s.waves }) hrest' :)
        (congrArg (fun v : State => { v with out := s.out, waves := s.waves }) hrest :)
  case resume =>
    intro s j v k w p hj hv hpark hk hfind
    refine ⟨ctlWr (unpark (ctlWr s (upReg j 8) (v &&& 0x0000FFFFFFFF1FFF)) k p.reg (ctlRd s (upReg j 0))) (upReg j 0x10) 0, ?_, ?_, fun i hi => ?_, fun r => ?_, ?rest⟩
    case rest => exact (rfl : { modWave s k (fun w => { w.setG p.reg (ctlRd s (upReg j 0)) with park := none }) with waves := s.waves } = s)
    · have hnamed : (ctlWr s (upReg j 8) (v &&& 0x0000FFFFFFFF1FFF)).waves.find? (fun e =>
          ctxOf (ctlWr s (upReg j 8) (v &&& 0x0000FFFFFFFF1FFF)) e.1 = bits v.toNat 16 16 && e.2.park.any (·.named v)) = some (k, w) := hfind
      change execUpCmdResume j v s = _
      unfold execUpCmdResume
      simp only [hv, Bool.not_true, Bool.false_eq_true, if_false]
      rw [hnamed]
      dsimp only
      rw [hpark]
      rfl
    · simp only [ctlWr_waves, unpark, modWave_waves, sget_smod_self, hk, Option.map_some]
    · simp only [ctlWr_waves, unpark, modWave_waves, sget_smod_ne hi]
    · have hne : upReg j 8 ≠ upReg j 0x10 := by unfold upReg; omega
      by_cases h8 : r = upReg j 8
      · rw [if_pos h8, h8, ctlRd_ctlWr_ne hne]
        exact ctlRd_ctlWr_self ..
      · rw [if_neg h8]
        by_cases h10 : r = upReg j 0x10
        · rw [if_pos h10, h10, ctlRd_ctlWr_self]
        · rw [if_neg h10, ctlRd_ctlWr_ne h10]
          exact ctlRd_ctlWr_ne h8 ..

end Sys2Proof.Machine
end

section
/-! SUPPORT. Software traps and the return from the handler (O24): the trap of an issued instruction, and what the kill actions leave. -/

namespace Sys2Proof.Machine

/-! ### The wave at the end of an issue -/

/-- The end of an issue leaves the fibres of the bundle's wave. -/
theorem endIssue_wave {t : State} {b : Bundle} {w : Wave} (h : sget b.wk t.waves = some w) :
    ∃ v, sget b.wk (endIssue t b).waves = some v ∧ v.fibres = w.fibres := by
  rw [endIssue_waves]
  split
  · exact ⟨{ w with clause := none, paired := none }, by rw [sget_smod_self, h]; rfl, rfl⟩
  · exact ⟨w, h, rfl⟩

theorem endIssue_wave_ne (t : State) (b : Bundle) {j : Nat} (h : j ≠ b.wk) : sget j (endIssue t b).waves = sget j t.waves := by
  rw [endIssue_waves]
  split
  · exact sget_smod_ne h _ _
  · rfl

/-- The fibre of an active record once its registers are restored (R428). -/
def comeBack (bs : List Byte) (a : ActiveRec) (act : TretAct) (f : Fibre) : Fibre :=
  { (f.restore bs).back a (act == .skip) with recs := f.recs.dropLast, stamp := a.stamp }

/-- What a return makes of the state whose memory has the record released. -/
def returned (bs : List Byte) (a : ActiveRec) (act : TretAct) (wk k : Nat) (t : State) : State :=
  let t := modFibre t wk k (comeBack bs a act)
  match act with
  | .retry => t
  | .skip => t
  | .killf => endFibre t wk k .kill
  | .killg => abortGang (endFibre t wk k .kill) (gangOf t wk)

/-! ### What ending the fibre leaves (R202, R432) -/

/-- In `t` the slot `k` of the wave `wk` is empty, memory is `M`, the gangs are `G`, and the launch `l` counts a fibre that was killed. -/
structure Gone (wk k l : Nat) (M : List Host.Cell) (G : Sparse Gang) (t : State) : Prop where
  slot : ∃ v, sget wk t.waves = some v ∧ sget k v.fibres = none
  status : (sget l t.launches).map (fun l => l.status &&& 1) = some 1
  mem : t.mem = M
  gangs : t.gangs = G

section Gone

variable {wk k l : Nat} {M : List Host.Cell} {G : Sparse Gang} {t u : State}

/-- Being gone is a matter of what `State.mind` keeps. -/
theorem Gone.of_mind (h : Gone wk k l M G t) (e : u.mind = t.mind) : Gone wk k l M G u := by
  obtain ⟨v, hv, hk⟩ := h.slot
  obtain ⟨v', hv', he⟩ := mind_wave e.symm hv
  have hfib : v'.fibres = v.fibres := (congrArg Wave.fibres he :)
  have hlaunches : u.launches = t.launches := (congrArg State.launches e :)
  exact ⟨⟨v', hv', by rw [hfib]; exact hk⟩, by rw [hlaunches]; exact h.status, (congrArg State.mem e :).trans h.mem, (congrArg State.gangs e :).trans h.gangs⟩

theorem marked_ended (how : Ending) {b : BitVec 8} (h : how = .kill ∨ b &&& 1 = 1) : (if how == .kill then b ||| 1 else b) &&& 1 = 1 := by
  cases how with
  | kill =>
    ext i hi
    simp only [beq_self_eq_true, if_true, BitVec.getElem_and, BitVec.getElem_or]
    cases (1 : BitVec 8)[i] <;> simp
  | _ => exact h.resolve_left (by decide)

/-- A fibre that ends leaves gone what is gone; one that a kill ends is gone itself. -/
theorem gone_ends {j x : Nat} {w : Wave} {f : Fibre} (how : Ending) (hw : sget j t.waves = some w) (hf : sget x w.fibres = some f)
    (hslot : (j = wk ∧ x = k) ∨ ∃ v, sget wk t.waves = some v ∧ sget k v.fibres = none)
    (hstatus : (sget l t.launches).map (fun l => l.status &&& 1) = some 1 ∨ (how = .kill ∧ w.launch = l ∧ (sget l t.launches).isSome)) :
    Gone wk k l t.mem t.gangs (endFibre t j x how) := by
  have e := endFibre_ends how hw (fibreAt_of hw hf)
  refine Gone.of_mind (t := modLaunch (modWave t j (fun w => (w.leave x).del x)) w.launch (Launch.ended how)) ⟨?_, ?_, rfl, rfl⟩ ?_
  · rw [modLaunch_waves]
    by_cases hj : wk = j
    · subst hj
      refine ⟨(w.leave x).del x, by rw [sget_modWave_self, hw]; rfl, ?_⟩
      rw [(leave_del x w).1]
      by_cases hx : k = x
      · rw [hx, sget_sdel_self]
      · rw [sget_sdel_ne hx]
        obtain ⟨-, hxk⟩ | ⟨v, hv, hk⟩ := hslot
        · exact absurd hxk.symm hx
        · rw [hw, Option.some.injEq] at hv
          rw [hv, hk]
    · obtain ⟨hjk, -⟩ | ⟨v, hv, hk⟩ := hslot
      · exact absurd hjk.symm hj
      · exact ⟨v, by rw [sget_modWave_ne hj, hv], hk⟩
  · rw [modLaunch_launches, modWave_launches, sget_smod]
    obtain hm | ⟨rfl, hl, hs⟩ := hstatus
    · obtain ⟨y, hy, h1⟩ := Option.map_eq_some_iff.1 hm
      rw [hy]
      split
      · exact congrArg some (marked_ended how (.inr h1))
      · exact congrArg some h1
    · obtain ⟨y, hy⟩ := Option.isSome_iff_exists.1 hs
      rw [hl, if_pos rfl, hy]
      exact congrArg some (marked_ended .kill (.inl rfl))
  · rw [e]
    exact (congrArg (fun u : State => modLaunch u w.launch (Launch.ended how))
      (modWave_mind t j (F := fun w => (w.leave x).del x) (H := fun w => (w.leave x).del x) fun w => by rw [← leave_mind x w]; rfl)).symm

theorem Gone.endFibre {j x : Nat} (h : Gone wk k l M G t) (how : Ending) : Gone wk k l M G (endFibre t j x how) := by
  cases hw : sget j t.waves with
  | none =>
    unfold Machine.endFibre
    rw [hw]
    exact h
  | some w =>
    cases hf : sget x w.fibres with
    | none =>
      have hat : fibreAt t j x = none := by unfold fibreAt; rw [hw]; exact hf
      unfold Machine.endFibre
      rw [hw, hat]
      exact h
    | some f =>
      have := gone_ends (wk := wk) (k := k) (l := l) how hw hf (.inr h.slot) (.inl h.status)
      rwa [h.mem, h.gangs] at this

theorem dropMats_mind (s : State) (j : Nat) : (dropMats s j).mind = s.mind := by
  unfold dropMats
  refine foldl_mind (fun s (e : Nat × MatOp) => ?_) _ s
  exact (dropFlag_mind s j e.2.flag : (dropFlag s j e.2.flag).mind = s.mind)

/-- A gang on which an abort takes effect (R432). -/
def Gang.struck (t : State) (g : Gang) : Gang :=
  { g with abort := true, state := .aborting, saved := none, abortAt := g.cores.map (fun c => (c, (coreOf t c).clock)) }

/-- An abort of a gang leaves gone what is gone, and marks the gang. -/
theorem Gone.strike (h : Gone wk k l M G t) (gk : Nat) :
    Gone wk k l M (smod gk (Gang.struck t) G) (strike t gk) := by
  unfold Machine.strike
  dsimp only
  refine kept_foldl (P := Gone wk k l M _) ?_ _ (kept_foldl (P := Gone wk k l M _) ?_ _ ⟨h.slot, h.status, h.mem, congrArg (smod gk (Gang.struck t)) h.gangs⟩)
  · exact fun u j hu => kept_foldl (P := Gone wk k l M _) (fun v x hv => hv.endFibre .abort) _ hu
  · exact fun u j hu => hu.of_mind (dropMats_mind u j)

/-! ### The kill actions -/

variable {w : Wave} {f : Fibre} {x : Launch} {bs : List Byte} {a : ActiveRec} (hw : sget wk t.waves = some w) (hf : sget k w.fibres = some f)
  (hx : sget w.launch t.launches = some x)
include hw hf hx

theorem killed_gone (F : Fibre → Fibre) : Gone wk k w.launch t.mem t.gangs (Machine.endFibre (modFibre t wk k F) wk k .kill) := by
  have hW : sget wk (modFibre t wk k F).waves = some (w.put k F) := by rw [modFibre_put, sget_modWave_self, hw]; rfl
  have hF : sget k (w.put k F).fibres = some (F f) := by rw [put_self, hf]; rfl
  exact gone_ends (wk := wk) (k := k) (l := w.launch) .kill hW hF (.inl ⟨rfl, rfl⟩) (.inr ⟨rfl, rfl, Option.isSome_iff_exists.2 ⟨x, hx⟩⟩)

theorem returned_killf : Gone wk k w.launch t.mem t.gangs (returned bs a .killf wk k t) := killed_gone hw hf hx _

/-- The gang of a fibre that `tret.killg` ends is aborted. -/
theorem returned_killg {h : Gang} (hg : sget (gangOf t wk) t.gangs = some h) (ha : h.abort = false) (hs : h.state = .resident) :
    ∃ G, (sget (gangOf t wk) G).map (·.abort) = some true ∧ Gone wk k w.launch t.mem G (returned bs a .killg wk k t) := by
  have hgone := killed_gone hw hf hx (comeBack bs a .killg)
  have hgk : gangOf (modFibre t wk k (comeBack bs a .killg)) wk = gangOf t wk := gangOf_modFibre ..
  have hstruck : returned bs a .killg wk k t = strike (Machine.endFibre (modFibre t wk k (comeBack bs a .killg)) wk k .kill) (gangOf t wk) := by
    unfold returned abortGang
    dsimp only
    rw [hgk, hgone.gangs, hg]
    dsimp only
    rw [ha, hs]
    rfl
  refine ⟨_, ?_, hstruck ▸ hgone.strike (gangOf t wk)⟩
  rw [sget_smod_self, hg]
  rfl

end Gone

section Issued

variable {s : State} {i : Instr} {g : Guard} {rel : Rel} {z : Site} {k : Nat} {y : Fibre} {reach : List (Nat × Nat)} (h : Ready s i g rel z)
  (hb : (z.bundle g).act = [k]) (hy : sget k z.w.fibres = some y) (ho : Open s)
include h hb hy ho

/-- The trap of the one fibre for which an instruction is performed is delivered (R426). -/
theorem issued_traps (hc : CanTrap s z k y reach) (c : Cause) :
    Trapped s (endIssue (trapAll (begun s z.w (z.bundle g) i z.f) z.wk (z.bundle g).here (z.bundle g).act c) (z.bundle g)) z (z.bundle g) k y c reach := by
  have hk : k ∈ (z.bundle g).act := by rw [hb]; exact List.mem_singleton_self k
  have hall : (z.bundle g).all.contains k = true := List.contains_iff_mem.2 (act_sub_all hk)
  have hlen : reach.length = 128 := by simpa [addrs] using congrArg List.length hc.place
  have hopen := begun_open z.w (z.bundle g) i z.f ho
  have hclock : (coreOf (begun s z.w (z.bundle g) i z.f) (coreNo z.wk)).clock = (coreOf s (coreNo z.wk)).clock :=
    (congrArg Core.clock (begun_cores s z.w (z.bundle g) i z.f (coreNo z.wk)) :)
  have hmem : (begun s z.w (z.bundle g) i z.f).mem = s.mem := rfl
  have hgangs : (begun s z.w (z.bundle g) i z.f).gangs = s.gangs := rfl
  have hcontexts : (begun s z.w (z.bundle g) i z.f).contexts = s.contexts := rfl
  have hlaunches : (begun s z.w (z.bundle g) i z.f).launches = s.launches := rfl
  have hctl : (begun s z.w (z.bundle g) i z.f).ctl = s.ctl := rfl
  have hwaves (j : Nat) (hj : j ≠ z.wk) : sget j (begun s z.w (z.bundle g) i z.f).waves = sget j s.waves := by
    rw [begun_waves]
    exact sget_smod_ne hj _ _
  have hone : trapAll (begun s z.w (z.bundle g) i z.f) z.wk (z.bundle g).here (z.bundle g).act c
      = trap (begun s z.w (z.bundle g) i z.f) z.wk k (z.bundle g).here c := by rw [hb]; rfl
  rw [hone]
  have hgang := begun_gang h
  have hctx := begun_ctx h
  have hreg := begun_regions s z.w (z.bundle g) i z.f (coreNo z.wk)
  have htlb := begun_tlb s z.w (z.bundle g) i z.f (coreNo z.wk)
  have hown := begun_own h
  generalize begun s z.w (z.bundle g) i z.f = B at *
  exact trapped_of hopen hmem rfl hown rfl rfl rfl hwaves ⟨hlaunches, hgangs, hcontexts, hctl⟩ h.clause hy hall hlen
    (trap_goes hc hopen hmem hgangs hgang hctx hcontexts hreg htlb hclock hown (fibre_begun hk hy) rfl rfl
      (passed_recs ..) (passed_ct ..) (passed_lfi ..) (passed_rv _ _ _ _) (passed_vp _ _ _ _) (passed_pred ..))

/-- A return from the handler of the one fibre for which it is performed: the record's byte 0x7F becomes 0, the fibre comes back, and a kill
action ends it (R428). -/
theorem issued_returns {a : ActiveRec} (hc : CanReturn s z y a reach) (hmat : a.matOp = none) (act : TretAct) (hskip : act = .skip → a.base.isSome = true) :
    ∃ M P, (∀ p, sgetD unlisted M p = if (reach[0x7F]?).map (·.2) = some p then 0 else pByte s p)
      ∧ tretBody act (z.given g []) (begun s z.w (z.bundle g) i z.f) = returned (reach.map (fun p => pByte s p.2)) a act z.wk k
          ((begun s z.w (z.bundle g) i z.f).withMem M P) := by
  have hk : k ∈ (z.bundle g).act := by rw [hb]; exact List.mem_singleton_self k
  obtain ⟨M, P, hM, ht⟩ := tret_goes (r := (z.bundle g).here) hc (begun_open z.w (z.bundle g) i z.f ho) rfl (begun_ctx h)
    (begun_regions ..) (begun_tlb ..) (begun_own h) (fibre_begun hk hy) (passed_recs ..) (passed_ct ..) hmat act hskip
  refine ⟨M, P, hM, ?_⟩
  have hone : tretBody act (z.given g []) (begun s z.w (z.bundle g) i z.f) = tret (begun s z.w (z.bundle g) i z.f) z.wk k (z.bundle g).here act := by
    change (z.bundle g).act.foldl (fun s x => tret s z.wk x (z.bundle g).here act) _ = _
    rw [hb]
    rfl
  rw [hone, ht]
  cases act <;> rfl

section Returns

variable {a : ActiveRec} (hc : CanReturn s z y a reach) (hmat : a.matOp = none) {act : TretAct}
  (hx : exec i s = issue i g rel (tretBody act) s) (hi : ∀ z, InRange i g z) (hcon : z.f.const = none)
include hc hmat hx hi hcon

/-- A return that resumes the fibre: it has the registers of its record, and its record is released. -/
theorem returns_back (hact : act = .retry ∨ act = .skip ∧ a.base.isSome = true) :
    ∃ t v f, exec i s = .next t ∧ sget z.wk t.waves = some v ∧ sget k v.fibres = some f
      ∧ f = comeBack (reach.map (fun p => pByte s p.2)) a act (passed z.w (z.bundle g) k y) ∧ Released s t reach
      ∧ (∀ j, j ≠ k → sget j v.fibres = (sget j z.w.fibres).map (fun y => if (z.bundle g).all.contains j then passed z.w (z.bundle g) j y else y))
      ∧ ∀ j, j ≠ z.wk → sget j t.waves = sget j s.waves := by
  have hk : k ∈ (z.bundle g).act := by rw [hb]; exact List.mem_singleton_self k
  obtain ⟨M, P, hM, ht⟩ := issued_returns h hb hy ho hc hmat act (fun e => (hact.resolve_left (by rw [e]; decide)).2)
  have hret : returned (reach.map (fun p => pByte s p.2)) a act z.wk k ((begun s z.w (z.bundle g) i z.f).withMem M P)
      = (modFibre (begun s z.w (z.bundle g) i z.f) z.wk k (comeBack (reach.map (fun p => pByte s p.2)) a act)).withMem M P := by
    obtain rfl | ⟨rfl, -⟩ := hact <;> rfl
  have hW : sget (z.bundle g).wk ((modFibre (begun s z.w (z.bundle g) i z.f) z.wk k (comeBack (reach.map (fun p => pByte s p.2)) a act)).withMem M P).waves
      = some ((begunWave z.w (z.bundle g)).put k (comeBack (reach.map (fun p => pByte s p.2)) a act)) := by
    change sget z.wk (modFibre (begun s z.w (z.bundle g) i z.f) z.wk k _).waves = _
    rw [modFibre_put, sget_modWave_self, begun_own h]
    rfl
  obtain ⟨v, hv, hfib⟩ := endIssue_wave hW
  refine ⟨_, v, _, (hx.trans (issue_plain h hcon (hi z) _)).trans (by rw [ht, hret]), hv, ?_, rfl, fun p => ?_, fun j hj => ?_, fun j hj => ?_⟩
  · rw [hfib, put_self, fibre_begun hk hy]
    rfl
  · rw [← hM]
    unfold pByte
    rw [endIssue_mem]
    rfl
  · rw [hfib, put_other hj, begunWave_fibre]
  · rw [endIssue_wave_ne _ _ hj]
    change sget j (modFibre (begun s z.w (z.bundle g) i z.f) z.wk k _).waves = _
    rw [modFibre_put, sget_modWave_ne hj, begun_waves]
    exact sget_smod_ne hj _ _

/-- A return whose action ends the fibre: its slot is empty, its launch counts a kill, its record is released, and the gangs are as the
action leaves them. -/
theorem returns_ends {gang : Sparse Gang → Prop} (hskip : act ≠ .skip)
    (hact : ∀ (bs : List Byte) (t : State) (w : Wave) (f : Fibre), sget z.wk t.waves = some w → sget k w.fibres = some f → w.launch = z.w.launch →
      t.launches = s.launches → t.gangs = s.gangs → gangOf t z.wk = gangOf s z.wk →
      ∃ G, gang G ∧ Gone z.wk k z.w.launch t.mem G (returned bs a act z.wk k t)) :
    ∃ t v, exec i s = .next t ∧ sget z.wk t.waves = some v ∧ sget k v.fibres = none ∧ Released s t reach
      ∧ ((sget z.w.launch t.launches).map (fun l => l.status &&& 1)) = some 1 ∧ gang t.gangs := by
  have hk : k ∈ (z.bundle g).act := by rw [hb]; exact List.mem_singleton_self k
  obtain ⟨M, P, hM, ht⟩ := issued_returns h hb hy ho hc hmat act (fun e => absurd e hskip)
  have he := hx.trans (issue_plain h hcon (hi z) _)
  have hlaunches : (begun s z.w (z.bundle g) i z.f).launches = s.launches := rfl
  have hgangs : (begun s z.w (z.bundle g) i z.f).gangs = s.gangs := rfl
  have hown := begun_own h
  have hgk := begun_gang h
  rw [ht] at he
  clear ht
  generalize begun s z.w (z.bundle g) i z.f = B at *
  obtain ⟨G, hG, ⟨v, hv, hslot⟩, hstatus, hmem, hgangs⟩ := hact (reach.map (fun p => pByte s p.2)) (B.withMem M P) _ _
    hown (fibre_begun hk hy) rfl hlaunches hgangs hgk
  obtain ⟨v', hv', hfib⟩ := endIssue_wave (b := z.bundle g) hv
  refine ⟨_, v', he, hv', by rw [hfib, hslot], fun p => ?_, ?_, by rw [endIssue_gangs, hgangs]; exact hG⟩
  · rw [← hM]
    exact congrArg (sgetD unlisted · p) ((endIssue_mem ..).trans hmem)
  · rw [(congrArg State.launches (endIssue_rest _ (z.bundle g)) :)]
    exact hstatus

end Returns

end Issued

/-- Settles O24. -/
theorem softwareTrapsAndReturns : Obligations.SoftwareTrapsAndReturns := by
  intro s g x z k y reach b hb hy ho
  refine ⟨fun hc => ⟨fun h => ⟨_, performed h rfl rfl rfl, issued_traps h hb hy ho hc _⟩, fun h => ⟨_, performed h rfl rfl rfl, ?brk⟩⟩,
    fun a hc hmat => ?_⟩
  case brk =>
    have hbody : brkBody x (z.given g []) (begun s z.w (z.bundle g) (.brk g x) z.f)
        = trapAll (begun s z.w (z.bundle g) (.brk g x) z.f) z.wk (z.bundle g).here (z.bundle g).act { kind := 7, sub := x.code } := by
      unfold brkBody
      rw [show ctxOf _ (z.given g []).wk = ctxOf s z.wk from begun_ctx h, begun_debugger h]
      rfl
    rw [hbody]
    exact issued_traps h hb hy ho hc _
  intro back ends
  refine ⟨?retry, ?skip, ?killf, ?killg⟩
  case retry =>
    intro h
    obtain ⟨t, v, f, he, hv, hf, rfl, hr, hrest⟩ := returns_back (act := .retry) h hb hy ho hc hmat rfl (fun _ _ _ _ _ => rfl) (by rw [form_is h rfl]; rfl) (.inl rfl)
    exact ⟨t, v, _, he, hv, hf, restored y _ a _ _ (fun q => ⟨passed_rv .., passed_vp ..⟩) (passed_q ..) (passed_lfi ..) (passed_ct ..) (passed_recs ..),
      rfl, rfl, hr, hrest⟩
  case skip =>
    intro p hp h
    obtain ⟨t, v, f, he, hv, hf, rfl, hr, hrest⟩ := returns_back (act := .skip) h hb hy ho hc hmat rfl (fun _ _ _ _ _ => rfl) (by rw [form_is h rfl]; rfl)
      (.inr ⟨rfl, by rw [hp]; rfl⟩)
    have hplace (u : Fibre) : (u.back a true).pc = a.rpc + 8 ∧ (u.back a true).base
        = if a.rpc = p.hdr + 8 * (BitVec.ofNat 64 p.last + 1) then none else some { p with ll := p.ll || a.ll } := by
      unfold Fibre.back Fibre.advance
      rw [hp]
      dsimp only
      split <;> exact ⟨rfl, rfl⟩
    exact ⟨t, v, _, he, hv, hf, restored y _ a _ _ (fun q => ⟨passed_rv .., passed_vp ..⟩) (passed_q ..) (passed_lfi ..) (passed_ct ..) (passed_recs ..),
      (hplace _).1, (hplace _).2, hr, hrest⟩
  case killf =>
    intro h
    exact returns_ends (act := .killf) (gang := fun G => G = s.gangs) h hb hy ho hc hmat rfl (fun _ _ _ _ _ => rfl) (by rw [form_is h rfl]; rfl) (by decide)
      fun bs t w f hw hf hl hlaunches hgangs _ => ⟨s.gangs, rfl, by
        have := returned_killf (bs := bs) (a := a) hw hf (by rw [hl, hlaunches]; exact h.launch)
        rwa [hl, hgangs] at this⟩
  case killg =>
    intro G hG ha hs h
    exact returns_ends (act := .killg) (gang := fun G => (sget (gangOf s z.wk) G).map (·.abort) = some true) h hb hy ho hc hmat rfl (fun _ _ _ _ _ => rfl)
      (by rw [form_is h rfl]; rfl) (by decide)
      fun bs t w f hw hf hl hlaunches hgangs hgk => by
        have := returned_killg (bs := bs) (a := a) hw hf (by rw [hl, hlaunches]; exact h.launch) (by rw [hgangs, hgk]; exact hG) ha hs
        rwa [hl, hgk] at this

end Sys2Proof.Machine
end

section
/-! SUPPORT. Barrier objects (O22): what a change of an object leaves of a gang's stash, and the fibres that act on one object in
slot order (R190 to R194). -/

namespace Sys2Proof.Machine

/-! ### The object in the stash (R190) -/

/-- The fields of a barrier object are within their widths. -/
structure Bar.Fits (o : Bar) : Prop where
  phase : o.phase < 2 ^ 16
  bcount : o.bcount < 2 ^ 32
  btarget : o.btarget < 2 ^ 32
  acount : o.acount < 2 ^ 16
  atarget : o.atarget < 2 ^ 16

/-- The number that a barrier object is in the stash. -/
def Bar.number (o : Bar) : Nat :=
  bit o.ovf 114 + bit o.valid 112 + o.phase * 2 ^ 96 + o.bcount * 2 ^ 64 + o.btarget * 2 ^ 32 + o.acount * 2 ^ 16 + o.atarget

/-- The barrier object that a number is. -/
def Bar.ofNumber (x : Nat) : Bar :=
  { valid := x.testBit 112, ovf := x.testBit 114, phase := bits x 96 16, bcount := bits x 64 32, btarget := bits x 32 32,
    acount := bits x 16 16, atarget := bits x 0 16 }

/-- The barrier object at a place of a gang's stash. -/
def Gang.bar (G : Gang) (a : Nat) : Bar := Bar.ofNumber (fromBytesLE ((addrs a 16).map (sgetD 0 G.stash)))

theorem read_eq {s : State} {gk : Nat} {G : Gang} (h : sget gk s.gangs = some G) (a : Nat) : Bar.read s gk a = G.bar a := by
  unfold Bar.read stashRd
  rw [h]
  rfl

theorem bar_fits (G : Gang) (a : Nat) : (G.bar a).Fits := by
  have h (x lo n : Nat) : bits x lo n < 2 ^ n := Nat.mod_lt _ (Nat.two_pow_pos n)
  exact ⟨h _ 96 16, h _ 64 32, h _ 32 32, h _ 16 16, h _ 0 16⟩

theorem number_lt {o : Bar} (h : o.Fits) : o.number < 256 ^ 16 := by
  obtain ⟨h1, h2, h3, h4, h5⟩ := h
  have hb (b : Bool) (n : Nat) : bit b n ≤ 2 ^ n := by
    unfold bit
    split
    · exact Nat.le_refl _
    · exact Nat.zero_le _
  have := hb o.ovf 114
  have := hb o.valid 112
  unfold Bar.number
  omega

/-- The fields of an object come back from its number. -/
theorem ofNumber_number {o : Bar} (h : o.Fits) : Bar.ofNumber o.number = o := by
  obtain ⟨h1, h2, h3, h4, h5⟩ := h
  obtain ⟨valid, ovf, phase, bcount, btarget, acount, atarget⟩ := o
  dsimp only at h1 h2 h3 h4 h5
  simp only [Bar.ofNumber, Bar.number, bits, bit, Nat.testBit_eq_decide_div_mod_eq, Bar.mk.injEq]
  cases valid <;> cases ovf <;> simp only [if_true, if_false, Bool.false_eq_true, decide_eq_true_eq, decide_eq_false_iff_not] <;> omega

/-- From `G` to `G'` only the sixteen bytes at a place of the stash differ. -/
structure SameBut (a : Nat) (G G' : Gang) : Prop where
  bytes : ∀ p, p < a ∨ a + 16 ≤ p → sgetD 0 G'.stash p = sgetD 0 G.stash p
  rest : { G' with stash := G.stash, stashPois := G.stashPois } = G

theorem SameBut.refl (a : Nat) (G : Gang) : SameBut a G G := ⟨fun _ _ => rfl, rfl⟩
theorem SameBut.trans {a : Nat} {G G' G'' : Gang} (h : SameBut a G G') (h' : SameBut a G' G'') : SameBut a G G'' :=
  ⟨fun p hp => (h'.bytes p hp).trans (h.bytes p hp),
    Eq.trans (congrArg (fun g : Gang => { g with stash := G.stash, stashPois := G.stashPois }) h'.rest :) h.rest⟩
theorem SameBut.windows {a : Nat} {G G' : Gang} (h : SameBut a G G') : G'.windows = G.windows := (congrArg Gang.windows h.rest :)

/-- How a gang stores a barrier object. -/
def putBar (a : Nat) (o : Bar) (G : Gang) : Gang := G.putCells ((addrs a 16).zip ((toBytesLE 16 o.number).map (·, false)))

theorem write_eq (o : Bar) (s : State) (gk a : Nat) : o.write s gk a = s.withGang gk (putBar a o) := rfl

theorem putBar_same {G : Gang} (hw : G.windows = []) (a : Nat) (o : Bar) : SameBut a G (putBar a o G) := by
  obtain ⟨p, hp⟩ := putCells_open hw ((addrs a 16).zip ((toBytesLE 16 o.number).map (·, false)))
  unfold putBar
  rw [hp]
  refine ⟨fun q hq => cells_other fun c hc hca => ?_, rfl⟩
  have := mem_addrs.1 (List.of_mem_zip (show (c.1, c.2) ∈ _ from hc)).1
  omega

/-- Bytes that are stored from a place on are what is then found there. -/
theorem stored_bytes (m : Sparse Byte) (a n x : Nat) :
    (addrs a n).map (sgetD 0 (((addrs a n).zip ((toBytesLE n x).map (·, false))).foldl (fun m c => sputD 0 c.1 c.2.1 m) m)) = toBytesLE n x := by
  rw [toBytesLE_eq, addrs, List.map_map, List.map_map, List.zip_map']
  refine List.map_congr_left fun j hj => ?_
  refine cells_named (fun c hc hca => ?_) ⟨(a + j, BitVec.ofNat 8 (x / 2 ^ (8 * j)), false), List.mem_map_of_mem hj, rfl⟩
  obtain ⟨i, -, rfl⟩ := List.mem_map.1 hc
  have hij : i = j := Nat.add_left_cancel hca
  rw [hij]
  rfl

/-- The object that a gang stores is the one it then holds. -/
theorem putBar_bar {G : Gang} (hw : G.windows = []) (a : Nat) {o : Bar} (ho : o.Fits) : (putBar a o G).bar a = o := by
  obtain ⟨p, hp⟩ := putCells_open hw ((addrs a 16).zip ((toBytesLE 16 o.number).map (·, false)))
  unfold putBar Gang.bar
  rw [hp, stored_bytes, Sys2Proof.Laws.fromBytesLE_toBytesLE, Nat.mod_eq_of_lt (number_lt ho), ofNumber_number ho]

/-! ### What the instructions make of an object (R192 to R194) -/

theorem fits_expect {o : Bar} (h : o.Fits) (n : Nat) : (o.expect n).Fits := by
  obtain ⟨h1, h2, h3, h4, h5⟩ := h
  unfold Bar.expect
  split
  · exact ⟨h1, h2, by dsimp only; omega, h4, h5⟩
  · exact ⟨h1, h2, by dsimp only; omega, h4, h5⟩

theorem fits_arrive {o : Bar} (h : o.Fits) : o.arrive.Fits := by
  obtain ⟨h1, h2, h3, h4, h5⟩ := h
  unfold Bar.arrive Bar.step
  split
  · exact ⟨Nat.mod_lt _ (by decide), Nat.two_pow_pos 32, Nat.two_pow_pos 32, Nat.two_pow_pos 16, h5⟩
  · exact ⟨h1, h2, h3, Nat.mod_lt _ (by decide), h5⟩

theorem valid_expect (o : Bar) (n : Nat) : (o.expect n).valid = o.valid := by unfold Bar.expect; split <;> rfl
theorem valid_arrive (o : Bar) : o.arrive.valid = o.valid := by unfold Bar.arrive Bar.step; split <;> rfl

/-! ### The fibres of a bundle, one after another -/

/-- What the fibres of some slots leave of an object, each acting as `upd` says. -/
def barAfter (upd : Bar → Fibre → Bar) (Y : Nat → Fibre) (o : Bar) (l : List Nat) : Bar := (l.map Y).foldl upd o

theorem barAfter_nil (upd : Bar → Fibre → Bar) (Y : Nat → Fibre) (o : Bar) : barAfter upd Y o [] = o := rfl
theorem barAfter_cons (upd : Bar → Fibre → Bar) (Y : Nat → Fibre) (o : Bar) (x : Nat) (l : List Nat) :
    barAfter upd Y o (x :: l) = barAfter upd Y (upd o (Y x)) l := rfl

theorem foldl_modFibre_withGang (wk gk : Nat) (f : Gang → Gang) (F : Nat → Fibre → Fibre) (l : List Nat) (s : State) :
    l.foldl (fun s x => modFibre s wk x (F x)) (s.withGang gk f) = (l.foldl (fun s x => modFibre s wk x (F x)) s).withGang gk f := by
  induction l generalizing s with
  | nil => rfl
  | cons x l ih => exact ih (modFibre s wk x (F x))

theorem withGang_withGang (s : State) (gk : Nat) (f f' : Gang → Gang) : (s.withGang gk f).withGang gk f' = s.withGang gk (fun G => f' (f G)) :=
  congrArg (fun G => ({ s with gangs := G } : State)) (smod_smod gk f' f s.gangs)

/-- What a step of one fibre finds of the state in which its bundle began: only the gang's object and other fibres may differ. -/
structure BarState (B : State) (wk gk a x : Nat) (G : Gang) (t : State) : Prop where
  gang : sget gk t.gangs = some G
  rest : { t with waves := B.waves, gangs := B.gangs } = B
  fibre : fibreAt t wk x = fibreAt B wk x
  own : gangOf t wk = gangOf B wk

/-- Fibres that act on one object of a gang in slot order, each also changing its registers by the object as it found it. -/
theorem foldl_bars {B : State} {wk gk a : Nat} {upd : Bar → Fibre → Bar} {give : Bar → Fibre → Fibre} {Y : Nat → Fibre} {step : State → Nat → State}
    {Q : Bar → Prop} (hQ : ∀ o, Q o → o.Fits) (hupd : ∀ o y, Q o → Q (upd o y)) :
    ∀ (l : List Nat) (t : State) (G : Gang), l.Nodup → sget gk t.gangs = some G → G.windows = [] → Q (G.bar a) →
      { t with waves := B.waves, gangs := B.gangs } = B → (∀ x ∈ l, fibreAt t wk x = fibreAt B wk x) → gangOf t wk = gangOf B wk →
      (∀ x ∈ l, ∀ u G, BarState B wk gk a x G u → Q (G.bar a) →
        step u x = modFibre ((upd (G.bar a) (Y x)).write u gk a) wk x (give (G.bar a))) →
      ∃ f : Gang → Gang, l.foldl step t = (l.foldl (fun s x => modFibre s wk x (give (barAfter upd Y (G.bar a) (l.take (l.idxOf x))))) t).withGang gk f
        ∧ SameBut a G (f G) ∧ (f G).bar a = barAfter upd Y (G.bar a) l := by
  intro l
  induction l with
  | nil =>
    intro t G _ _ _ _ _ _ _ _
    refine ⟨id, ?_, .refl a G, rfl⟩
    exact (congrArg (fun M => ({ t with gangs := M } : State)) (smod_id gk id (fun _ => rfl) t.gangs)).symm
  | cons x l ih =>
    intro t G hn hg hw hq hr hf hown hs
    obtain ⟨hx, hn⟩ := List.nodup_cons.1 hn
    have hstep := hs x (List.mem_cons_self ..) t G ⟨hg, hr, hf x (List.mem_cons_self ..), hown⟩ hq
    have hsame := putBar_same hw a (upd (G.bar a) (Y x))
    have hbar := putBar_bar hw a (hQ _ (hupd _ (Y x) hq))
    obtain ⟨f, hfold, hsame', hbar'⟩ := ih (step t x) (putBar a (upd (G.bar a) (Y x)) G) hn
      (by rw [hstep, write_eq]; exact (sget_smod_self gk _ _).trans (by rw [hg]; rfl)) (hsame.windows.trans hw) (by rw [hbar]; exact hupd _ _ hq)
      (by rw [hstep]; exact hr)
      (fun y hy => by
        have hyx : y ≠ x := fun e => hx (e ▸ hy)
        rw [hstep, fibreAt_modFibre_ne hyx]
        exact hf y (List.mem_cons_of_mem _ hy))
      (by rw [hstep, gangOf_modFibre]; exact hown)
      (fun y hy => hs y (List.mem_cons_of_mem _ hy))
    rw [hbar] at hfold hbar'
    refine ⟨fun H => f (putBar a (upd (G.bar a) (Y x)) H), ?_, hsame.trans hsame', hbar'⟩
    have hlater (u : State) : l.foldl (fun s y => modFibre s wk y (give (barAfter upd Y (upd (G.bar a) (Y x)) (l.take (l.idxOf y))))) u
          = l.foldl (fun s y => modFibre s wk y (give (barAfter upd Y (G.bar a) ((x :: l).take ((x :: l).idxOf y))))) u := by
      refine List.foldl_ext _ _ _ fun v y hy => ?_
      have hxy : x ≠ y := fun e => hx (e ▸ hy)
      rw [List.idxOf_cons_ne _ hxy, List.take_succ_cons, barAfter_cons]
    rw [List.foldl_cons, hfold, hstep, List.foldl_cons, List.idxOf_cons_self, hlater]
    have hput : modFibre ((upd (G.bar a) (Y x)).write t gk a) wk x (give (G.bar a))
        = (modFibre t wk x (give (G.bar a))).withGang gk (putBar a (upd (G.bar a) (Y x))) := rfl
    rw [hput, foldl_modFibre_withGang, withGang_withGang, List.take_zero, barAfter_nil]

/-! ### The instructions -/

theorem Runs.withGangs {s t : State} {w : Wave} {b : Bundle} {out : List Nat} {fx : Nat → Fibre → Fibre} {gx : Wave → Wave} (h : Runs s t w b out fx gx)
    (G : Sparse Gang) : Runs { s with gangs := G } { t with gangs := G } w b out fx gx :=
  ⟨h.wave, h.waves, congrArg (fun u : State => { u with gangs := G }) h.rest, h.clusters, h.cores⟩

/-- The fibres that a bundle passes on, in slot order. -/
theorem theP_fibres (z : Site) (g : Guard) :
    (theP (z.bundle g) z.w).map (·.2) = (z.bundle g).act.map (fun x => (sget x z.w.fibres).getD Fibre.blank) := by
  rw [← theP_map]
  exact List.map_congr_left fun e he => by rw [(mem_theP he).2]; rfl

theorem noPhaseWaiters_modFibre {t : State} (h : NoPhaseWaiters t) (wk x : Nat) {F : Fibre → Fibre} (hF : ∀ y, (F y).blocked = y.blocked) :
    NoPhaseWaiters (modFibre t wk x F) := by
  intro e he q hq o p d
  obtain ⟨e', he', rfl⟩ := List.mem_map.1 he
  split at hq
  · obtain ⟨q', hq', rfl⟩ := List.mem_map.1 hq
    split
    · exact fun hb => h e' he' q' hq' o p d ((hF q'.2).symm.trans hb)
    · exact h e' he' q' hq' o p d
  · exact h e' he' q hq o p d

/-- One fibre's part of a barrier instruction. -/
def barrierStep (va : Nat) (valid : Bool) (act : State → Nat → Fibre → Nat → State) (b : Bundle) (gk : Nat) (s : State) (x : Nat) : State :=
  match fibreAt s b.wk x with
  | none => s
  | some f =>
    match barrierCheck s gk (f.rv va).toNat valid with
    | some c => trap s b.wk x b.here c
    | none => act s x f (f.rv va).toNat

theorem eachBarrier_eq (va : Nat) (valid : Bool) (act : State → Nat → Fibre → Nat → State) (b : Bundle) (s : State) :
    eachBarrier va valid act b s = wakeBars (b.act.foldl (barrierStep va valid act b (gangOf s b.wk)) s) (gangOf s b.wk) := rfl

/-- A fibre whose object is in the span, and valid where it has to be, acts on it. -/
theorem barrierStep_acts {va a gk x : Nat} {valid : Bool} {act : State → Nat → Fibre → Nat → State} {b : Bundle} {t : State} {f : Fibre}
    (hat : fibreAt t b.wk x = some f) (ha : (f.rv va).toNat = a) (h16 : a % 16 = 0) (hspan : a + 16 ≤ stashSpan t gk)
    (hv : valid = true → (Bar.read t gk a).valid = true) : barrierStep va valid act b gk t x = act t x f a := by
  have hcheck : barrierCheck t gk a valid = none := by
    unfold barrierCheck
    simp only [h16, bne_self_eq_false, Bool.false_eq_true, if_false, Nat.not_lt.2 hspan]
    cases hval : valid with
    | false => rfl
    | true => rw [hv hval]; rfl
  unfold barrierStep
  rw [hat]
  dsimp only
  rw [ha, hcheck]

/-- A barrier instruction whose fibres name one object of the gang's span completes, its fibres acting in slot order. -/
theorem eachBarrier_runs {s : State} {i : Instr} {g : Guard} {rel : Rel} {z : Site} {va a : Nat} {valid : Bool} {h : Gang}
    {act : State → Nat → Fibre → Nat → State} {upd : Bar → Fibre → Bar} {give : Bar → Fibre → Fibre} (hr : Ready s i g rel z) (ho : Open s)
    (hw : NoPhaseWaiters s) (hg : sget (gangOf s z.wk) s.gangs = some h)
    (ha : ∀ k ∈ (z.bundle g).act, ∀ y, sget k z.w.fibres = some y → (y.rv va).toNat = a) (h16 : a % 16 = 0) (hspan : a + 16 ≤ stashSpan s (gangOf s z.wk))
    (hv : valid = true → (h.bar a).valid = true) (hfits : ∀ o y, o.Fits → (upd o y).Fits) (hvalid : ∀ o y, valid = true → o.valid = true → (upd o y).valid = true)
    (hpass : ∀ o k y, upd o (passed z.w (z.bundle g) k y) = upd o y) (hblocked : ∀ o y, (give o y).blocked = y.blocked)
    (hact : ∀ t x f G, gangOf t z.wk = gangOf s z.wk → sget (gangOf s z.wk) t.gangs = some G →
      act t x f a = modFibre ((upd (G.bar a) f).write t (gangOf s z.wk) a) z.wk x (give (G.bar a))) :
    ∃ t, endIssue (eachBarrier va valid act (z.given g []) (begun s z.w (z.bundle g) i z.f)) (z.bundle g) = t
      ∧ Runs { s with gangs := t.gangs } t z.w (z.bundle g) []
          (fun k => give ((((theP (z.bundle g) z.w).map (·.2)).take ((z.bundle g).act.idxOf k)).foldl upd (h.bar a))) id
      ∧ ∃ h', sget (gangOf s z.wk) t.gangs = some h' ∧ SameBut a h h' ∧ h'.bar a = ((theP (z.bundle g) z.w).map (·.2)).foldl upd (h.bar a)
        ∧ ∀ j, j ≠ gangOf s z.wk → sget j t.gangs = sget j s.gangs := by
  let b := z.bundle g
  let gk := gangOf s z.wk
  let Y (x : Nat) : Fibre := passed z.w b x ((sget x z.w.fibres).getD Fibre.blank)
  have hY (o : Bar) (l : List Nat) : barAfter upd Y o l = (l.map (fun x => (sget x z.w.fibres).getD Fibre.blank)).foldl upd o := by
    unfold barAfter
    rw [List.foldl_map, List.foldl_map]
    exact List.foldl_ext _ _ _ fun o x _ => hpass o x _
  have hstep : ∀ x ∈ b.act, ∀ u G, BarState (begun s z.w b i z.f) z.wk gk a x G u → ((G.bar a).Fits ∧ (valid = true → (G.bar a).valid = true)) →
      barrierStep va valid act (z.given g []) gk u x = modFibre ((upd (G.bar a) (Y x)).write u gk a) z.wk x (give (G.bar a)) := by
    intro x hx u G hu hq
    obtain ⟨y, hy⟩ := act_fibre hx
    have hlaunches : u.launches = s.launches := (congrArg State.launches hu.rest :)
    have hYx : Y x = passed z.w b x y := by simp only [Y, hy, Option.getD_some]
    rw [barrierStep_acts (f := passed z.w b x y) (hu.fibre.trans (begun_act hr hx hy)) (by rw [passed_rv]; exact ha x hx y hy) h16
      (by unfold stashSpan; rw [hlaunches]; exact hspan) (by rw [read_eq hu.gang]; exact hq.2), hYx]
    exact hact u x _ G (hu.own.trans (begun_gang hr)) hu.gang
  obtain ⟨f, hfold, hsame, hbar⟩ := foldl_bars (upd := upd) (give := give) (Y := Y) (Q := fun o => o.Fits ∧ (valid = true → o.valid = true)) (fun _ h => h.1)
    (fun o y h => ⟨hfits o y h.1, fun e => hvalid o y e (h.2 e)⟩) b.act (begun s z.w b i z.f) h (act_nodup z g) hg (ho.windows _ (sget_mem hg))
    ⟨bar_fits h a, hv⟩ rfl (fun _ _ => rfl) rfl hstep
  have hidle : NoPhaseWaiters (b.act.foldl (fun s x => modFibre s z.wk x (give (barAfter upd Y (h.bar a) (b.act.take (b.act.idxOf x))))) (begun s z.w b i z.f)) :=
    kept_foldl (P := NoPhaseWaiters) (fun t x ht => noPhaseWaiters_modFibre ht z.wk x (hblocked _)) _ (begun_noPhaseWaiters z.w b i z.f hw)
  have hruns := runs_puts (step := fun s x => modFibre s z.wk x (give (barAfter upd Y (h.bar a) (b.act.take (b.act.idxOf x))))) hr
    (fun x => give (barAfter upd Y (h.bar a) (b.act.take (b.act.idxOf x)))) (fun x => give (barAfter upd Y (h.bar a) (b.act.take (b.act.idxOf x))))
    (fun _ _ _ _ _ _ _ => rfl) (fun _ _ _ _ => rfl)
  generalize b.act.foldl (fun s x => modFibre s z.wk x (give (barAfter upd Y (h.bar a) (b.act.take (b.act.idxOf x))))) (begun s z.w b i z.f) = T
    at hfold hidle hruns
  have hgangs : T.gangs = s.gangs := (endIssue_gangs T b).symm.trans (congrArg State.gangs hruns.rest :)
  have hbody : eachBarrier va valid act (z.given g []) (begun s z.w b i z.f) = T.withGang gk f := by
    have hgk : gangOf (begun s z.w b i z.f) (z.given g []).wk = gk := begun_gang hr
    have hidle' : NoPhaseWaiters (T.withGang gk f) := hidle
    rw [eachBarrier_eq, hgk, show (z.given g []).act = b.act from rfl, hfold, wakeBars_idle hidle']
  have hend : endIssue (T.withGang gk f) b = { endIssue T b with gangs := smod gk f s.gangs } := by
    rw [← hgangs]
    unfold endIssue
    split <;> rfl
  refine ⟨_, rfl, ?_, f h, ?_, hsame, ?_, fun j hj => ?_⟩
  · rw [hbody, hend]
    refine (hruns.withGangs (smod gk f s.gangs)).congr fun k _ y _ => ?_
    rw [hY, theP_fibres, List.map_take]
  · rw [hbody, hend]
    exact (sget_smod_self gk f s.gangs).trans (by rw [hg]; rfl)
  · rw [hbar, hY, theP_fibres]
  · rw [hbody, hend]
    exact sget_smod_ne hj f s.gangs

theorem toNat_extract {n : Nat} (x : BitVec n) (lo k : Nat) : (x.extractLsb' lo k).toNat = bits x.toNat lo k := by
  rw [BitVec.extractLsb'_toNat, Nat.shiftRight_eq_div_pow]
  rfl

/-- Settles O22. -/
theorem barrierResults : Obligations.BarrierResults := by
  intro s g x z a h b gk o fs ok leaves add arrive one
  have hadd (o : Bar) (n : Nat) : o.expect n = add o n := by
    unfold Bar.expect
    simp only [add]
    by_cases h : 2 ^ 32 ≤ o.btarget + n
    · rw [if_pos h, Nat.min_eq_right (by omega), decide_eq_true h, Bool.or_true]
    · rw [if_neg h, Nat.min_eq_left (by omega), decide_eq_false h, Bool.or_false]
  have harrive (o : Bar) : o.arrive = arrive o := by
    unfold Bar.arrive Bar.step
    simp only [arrive, Bool.and_eq_true, decide_eq_true_eq]
  have hone (o : Bar) (y : Fibre) :
      (if x.syimm.getLsbD 0 then o.expect (y.rv (bits x.syimm.toNat 1 8)).toNat else o).arrive = one o y := by
    rw [harrive, hadd, ← toNat_extract]
  have hleaves {t : State} {o' : Bar} (e : ∃ h', sget gk t.gangs = some h' ∧ SameBut a h h' ∧ h'.bar a = o' ∧ ∀ j, j ≠ gk → sget j t.gangs = sget j s.gangs) :
      leaves t o' := by
    obtain ⟨h', hg', hsame, hbar, hother⟩ := e
    exact ⟨(read_eq hg' a).trans hbar, h', hg', hsame.bytes, hsame.rest, hother⟩
  refine ⟨?init, ?exp, ?arr⟩
  case init =>
    rintro hr ⟨ho, hw, hg, ha, h16, hspan, -⟩ y hy
    let made (y : Fibre) : Bar := { valid := true, ovf := false, phase := 0, bcount := 0, btarget := (y.rv x.vb.toNat).toNat, acount := 0,
                                    atarget := bits x.syimm.toNat 0 16 }
    obtain ⟨t, ht, hruns, hbar⟩ := eachBarrier_runs (act := fun s _ f a => (made f).write s (gangOf s z.wk) a) (upd := fun _ y => made y)
      (give := fun _ y => y) (valid := false) hr ho hw hg ha h16 hspan (fun e => absurd e Bool.false_ne_true)
      (fun o y _ => ⟨Nat.two_pow_pos 16, Nat.two_pow_pos 32, (y.rv x.vb.toNat).isLt, Nat.two_pow_pos 16, Nat.mod_lt _ (Nat.two_pow_pos 16)⟩)
      (fun _ _ e => absurd e Bool.false_ne_true) (fun o k y => by simp only [made, passed_rv]) (fun _ _ => rfl)
      (fun t x f G hgk hG => by rw [hgk, modFibre_self])
    obtain ⟨l, hl⟩ := List.getLast?_eq_some_iff.1 hy
    have hlast : fs.foldl (fun _ y => made y) (h.bar a) = made y := by rw [hl, List.foldl_append]; rfl
    refine ⟨t, (performed hr rfl rfl rfl).trans (congrArg _ ht), hruns, ?_⟩
    rw [toNat_extract]
    change leaves t (made y)
    rw [← hlast]
    exact hleaves hbar
  case exp =>
    rintro hr ⟨ho, hw, hg, ha, h16, hspan, hv⟩ -
    obtain ⟨t, ht, hruns, hbar⟩ := eachBarrier_runs (act := fun s _ f a =>
        ((Bar.read s (gangOf s z.wk) a).expect (f.rv x.vb.toNat).toNat).write s (gangOf s z.wk) a)
      (upd := fun o y => o.expect (y.rv x.vb.toNat).toNat) (give := fun _ y => y) hr ho hw hg ha h16 hspan
      (fun e => by rw [← read_eq hg]; exact hv e) (fun o y h => fits_expect h _) (fun o y _ h => (valid_expect o _).trans h) (fun o k y => by simp only [passed_rv])
      (fun _ _ => rfl) (fun t x f G hgk hG => by rw [hgk, modFibre_self, read_eq hG])
    refine ⟨t, (performed hr rfl rfl rfl).trans (congrArg _ ht), hruns, ?_⟩
    simp only [o, gk, read_eq hg, ← hadd]
    exact hleaves hbar
  case arr =>
    rintro hr ⟨ho, hw, hg, ha, h16, hspan, hv⟩ -
    let upd (o : Bar) (y : Fibre) : Bar := (if x.syimm.getLsbD 0 then o.expect (y.rv (bits x.syimm.toNat 1 8)).toNat else o).arrive
    have hupd : upd = one := funext fun o => funext fun y => hone o y
    obtain ⟨t, ht, hruns, hbar⟩ := eachBarrier_runs (act := fun s slot f a =>
        modFibre ((upd (Bar.read s (gangOf s z.wk) a) f).write s (gangOf s z.wk) a) z.wk slot
          (fun y => y.setV x.vb.toNat (BitVec.ofNat 32 (Bar.read s (gangOf s z.wk) a).phase)))
      (upd := upd) (give := fun o y => y.setV x.vb.toNat (BitVec.ofNat 32 o.phase)) hr ho hw hg ha h16 hspan
      (fun e => by rw [← read_eq hg]; exact hv e)
      (fun o y h => fits_arrive (by split; exacts [fits_expect h _, h]))
      (fun o y _ h => (valid_arrive _).trans (by split; exacts [(valid_expect o _).trans h, h]))
      (fun o k y => by simp only [upd, passed_rv])
      (fun _ _ => rfl) (fun t x f G hgk hG => by rw [hgk, read_eq hG])
    rw [hupd] at hruns hbar
    refine ⟨t, (performed hr rfl rfl rfl).trans (congrArg _ ht), ?_, ?_⟩
    · simp only [o, gk, read_eq hg]
      exact hruns
    · simp only [o, gk, read_eq hg]
      exact hleaves hbar

end Sys2Proof.Machine
end

section
/-! SUPPORT. The counterexample to O23: a `wait.m` whose word meets its condition waits behind a release of its own fibre that stands in the
Silt log (R197, R292), which the statement's hypotheses do not exclude. -/

namespace Sys2Proof.Machine

/-- `wait.m` on the first word of record 0, until it is equal to v4. -/
def monitorOperands : SY := { va := 2, vb := 4, pd := 0, scope := 0, cond := 0, syimm := 0, sub := 1 }
def monitor : Instr := .waitM { gp := 0, gs := 0 } monitorOperands

/-- A release to 0x2100, in the log for the fibre of slot 0. -/
def loggedRelease : SiltEntry :=
  { wave := 0, slots := [0], infos := [], ctx := 0, launch := 1, wg := 0, lfi := 0, tag := 0, pc := 0x1000, rid := 0, addr := 0x2100, mask := 0xF, data := 0,
    pois := false, kred := false, rop := 0, ty := 8, scope := 0, pseq := 0, rel := true }

/-- The wave: record 0 is a buffer of 64 elements of 64 bytes at 0x2000 that it may read and write. -/
def monitorWave : Wave := ((((loadedWave (encode monitor)).setG 0 0x2000).setG 1 0x4000000040).setG 2 0x40).setG 3 0xF

/-- The device: its core caches the region from 0x2000 to 0x2FFF and the leaf of that page, which lies at 0x5000, and its log holds the release. -/
def monitorState : State :=
  { modCore (loadWord State.reset (encode monitor)) 0 (fun c => { c with
      regions := [{ ctx := 0, rid := 0, ok := true, lo := 0x2000, limit := 0x3000 }], tlb := [{ ctx := 0, page := 0x2000, bits := 12, pte := 0x50FF }]
      silt := [loggedRelease] }) with
    waves := [(0, monitorWave)] }

def monitorSite : Site :=
  { wk := 0, w := monitorWave, l := loadedLaunch, f := (form monitor).getD { cls := 0 }
    c := { hdr := 0x1000, header := loadedHeader (encode monitor), words := [encode monitor], idx := 0, slots := [0], ll := false, fetched := true
           started := true, chosen := 0 } }

/-- The bytes of the word, with their bytes of memory. -/
def monitorReach (_ : Nat) : List (Nat × Nat) := (List.range 4).map (fun j => (0x2000 + j, 0x5000 + j))

/-- Its fibre. -/
def monitorFibre : Fibre := (sget 0 monitorWave.fibres).getD Fibre.blank

theorem monitor_fibre : sget 0 monitorWave.fibres = some monitorFibre := rfl

theorem monitor_act : (monitorSite.bundle { gp := 0, gs := 0 }).act = [0] := by decide +kernel

theorem monitor_ready : Ready monitorState monitor { gp := 0, gs := 0 } .none monitorSite where
  cur := rfl
  wave := rfl
  clause := rfl
  launch := rfl
  started := rfl
  slots := by decide
  form := rfl
  checks := by decide +kernel
  checksQueue := by decide +kernel
  free := by decide +kernel
  partner := by decide +kernel
  debugger := by decide +kernel
  healthy := by
    intro x hx y hy
    obtain rfl := List.mem_singleton.1 hx
    obtain rfl := Option.some.inj (monitor_fibre.symm.trans hy)
    decide +kernel
  pending := fun h => absurd rfl h
  held := rfl

theorem monitor_open : Open monitorState := by
  refine ⟨fun e he => ?_, fun e he => ?_, fun e he => ?_⟩
  · obtain rfl := List.mem_singleton.1 he
    rfl
  · exact absurd he List.not_mem_nil
  · exact absurd he List.not_mem_nil

/-- The fibre's access is formed, and its bytes are served by the leaf. -/
theorem monitor_through : Through monitorState monitorSite { gp := 0, gs := 0 } (bufAt monitorWave 0) monitorOperands.va 0 0 4 (fun y => y.ct.toNat) .read
    monitorReach := by
  refine ⟨⟨{ ctx := 0, rid := 0, ok := true, lo := 0x2000, limit := 0x3000 }, by decide +kernel, fun k hk y hy => ?_⟩, fun k hk y hy p hp => ?_⟩
  · rw [monitor_act] at hk
    obtain rfl := List.mem_singleton.1 hk
    obtain rfl := Option.some.inj (monitor_fibre.symm.trans hy)
    rfl
  · rw [monitor_act] at hk
    obtain rfl := List.mem_singleton.1 hk
    obtain rfl := Option.some.inj (monitor_fibre.symm.trans hy)
    refine ⟨{ ctx := 0, page := 0x2000, bits := 12, pte := 0x50FF }, ?_⟩
    obtain ⟨j, hj, rfl⟩ := List.mem_map.1 hp
    have hj4 : j < 4 := List.mem_range.1 hj
    interval_cases j <;> decide +kernel

/-- The step leaves the fibre blocked. -/
theorem monitor_blocks : (match exec monitor monitorState with
    | .next t => (fibreAt t 0 0).all (fun y => y.blocked.isSome)
    | _ => false) = true := by decide +kernel

/-- Refutes O23: the word of `monitorState` meets its condition, and the fibre is left blocked behind the release in its core's Silt log. -/
theorem not_waitResults : ¬ Obligations.WaitResults := by
  intro h
  obtain ⟨-, hm, -⟩ := h monitorState { gp := 0, gs := 0 } monitorOperands monitorSite
  obtain ⟨t, ht, hruns⟩ := hm monitorReach (fun u v => u == v) (fun _ _ => rfl) monitor_ready monitor_open (by decide +kernel) (by decide +kernel)
    (fun k _ => ⟨(by decide +kernel : siltOverlap monitorState 0 0 ((monitorReach 0).map (·.1)) = false), fun p _ => List.not_mem_nil⟩)
    (fun k _ => (by decide +kernel : (monitorReach 0).map (·.1) = addrs (((monitorReach 0).map (·.1)).headD 0) 4)) monitor_through
  obtain ⟨v, hv, hfib, -⟩ := hruns.wave
  have hgoes : (sget 0 v.fibres).map (·.blocked) = some none := by
    rw [hfib 0]
    decide +kernel
  have hstays := monitor_blocks
  rw [show exec monitor monitorState = .next t from ht] at hstays
  have hat : fibreAt t 0 0 = sget 0 v.fibres := congrArg (fun o : Option Wave => o.bind (fun w => sget 0 w.fibres)) hv
  obtain ⟨y, hy, hnone⟩ := Option.map_eq_some_iff.1 hgoes
  simp [hat, hy, hnone] at hstays

end Sys2Proof.Machine
end

section
/-! SUPPORT. Services, upcalls and counters (O25). -/

namespace Sys2Proof.Machine

/-! ### Issues beside a change of a core and of the requests -/

/-- The cores that an issue leaves alike stay so under a change that keeps what the issue may take. -/
theorem Runs.calm {s t : State} {w : Wave} {b : Bundle} {out : List Nat} {fx : Nat → Fibre → Fibre} {gx : Wave → Wave}
    (h : Runs s t w b out fx gx) (k : Nat) : (coreOf t k).calm = (coreOf s k).calm := by
  rw [← h.cores k]
  rfl

/-- A change of a core passes by an issue, where it neither reads nor changes what the issue may take. -/
theorem Runs.modCore {s t : State} {w : Wave} {b : Bundle} {out : List Nat} {fx : Nat → Fibre → Fibre} {gx : Wave → Wave}
    (h : Runs s t w b out fx gx) (c : Nat) {f : Core → Core} (hf : ∀ k l : Core, k.calm = l.calm → (f k).calm = (f l).calm) :
    Runs (modCore s c f) (modCore t c f) w b out fx gx where
  wave := h.wave
  waves := h.waves
  rest := congrArg (fun u : State => { u with cores := (Machine.modCore s c f).cores }) h.rest
  clusters := h.clusters
  cores k := by
    refine calm_eq ?_
    by_cases hk : k = c
    · rw [hk, coreOf_modCore_self, coreOf_modCore_self]
      exact hf _ _ (h.calm c)
    · rw [coreOf_modCore_ne hk, coreOf_modCore_ne hk]
      exact h.calm k

/-- The number of the next request passes by an issue. -/
theorem Runs.nextReq {s t : State} {w : Wave} {b : Bundle} {out : List Nat} {fx : Nat → Fibre → Fibre} {gx : Wave → Wave}
    (h : Runs s t w b out fx gx) (n : Nat) : Runs { s with nextReq := n } { t with nextReq := n } w b out fx gx where
  wave := h.wave
  waves := h.waves
  rest := congrArg (fun u : State => { u with nextReq := n }) h.rest
  clusters := h.clusters
  cores := h.cores

/-! ### Counters (R207) -/

/-- What a fibre reads of a counter once the instruction has issued. -/
theorem counter_begun {s : State} {i : Instr} {g : Guard} {z : Site} (f : Fibre) (n : Nat) :
    counter (begun s z.w (z.bundle g) i z.f) z.wk (begunWave z.w (z.bundle g)) f n
      = if n = 0 then (coreOf s (coreNo z.wk)).clock else if n = 1 then BitVec.ofNat 64 (numberAfter z.w (z.bundle g))
        else if n = 2 then BitVec.ofNat 64 (f.issued - 1) else BitVec.ofNat 64 (sgetD 0 z.w.stall (n - 0x10)) := by
  have hclock : (coreOf (begun s z.w (z.bundle g) i z.f) (coreNo z.wk)).clock = (coreOf s (coreNo z.wk)).clock :=
    show (coreOf (begun s z.w (z.bundle g) i z.f) (coreNo z.wk)).calm.clock = (coreOf s (coreNo z.wk)).calm.clock from
      congrArg Core.clock (begun_cores s z.w (z.bundle g) i z.f (coreNo z.wk))
  match n with
  | 0 => exact hclock
  | 1 => rfl
  | 2 => rfl
  | n + 3 => rfl

/-- `rdctr` writes the counter to its pair and, with `.core`, the number of the core. -/
theorem rdctr_completes (s : State) (g : Guard) (x : SYS) :
    EachFibre s (.rdctr g x) g (fun z _ y =>
      let n := x.code.toNat
      let y' := y.setV2 x.va.toNat
        (if n = 0 then (coreOf s (coreNo z.wk)).clock else if n = 1 then BitVec.ofNat 64 (numberAfter z.w (z.bundle g))
         else if n = 2 then BitVec.ofNat 64 (y.issued - 1) else BitVec.ofNat 64 (sgetD 0 z.w.stall (n - 0x10)))
      if x.sysopx.getLsbD 0 then y'.setV x.vb.toNat (BitVec.ofNat 32 (coreNo z.wk)) else y') := by
  intro z h _
  refine ⟨_, performed h rfl rfl rfl, ?_⟩
  unfold rdctrBody perFibre
  rw [begun_wave_given h]
  refine runs_same h _ rfl fun k hk y hy => ?_
  simp only [given_wk, counter_begun]

/-! ### Upcalls (R205, R206) -/

/-- The message of an upcall, its fields in ascending order. -/
theorem upcallMessage_begun {s : State} {i : Instr} {g : Guard} {rel : Rel} {z : Site} (h : Ready s i g rel z) (x : SYS) (seq : BitVec 16) :
    upcallMessage (begun s z.w (z.bundle g) i z.f) (z.given g []) (begunWave z.w (z.bundle g)) x seq
      = toBytesLE 64 (x.code.toNat * 2 ^ 64 + ctxOf s z.wk * 2 ^ 80 + coreNo z.wk * 2 ^ 96 + z.wk % 64 * 2 ^ 103 + seq.toNat * 2 ^ 112
        + z.w.launch * 2 ^ 128 + z.w.wg * 2 ^ 160 + z.w.widx * 2 ^ 192 + ((z.bundle g).act.map (fun k => 2 ^ k)).sum * 2 ^ 224
        + (z.bundle g).pc.toNat % 2 ^ 57 * 2 ^ 256 + (z.w.rg x.ga.toNat).toNat * 2 ^ 320 + (z.w.rg (x.ga.toNat + 1)).toNat * 2 ^ 384) := by
  have hctx : ctxOf (begun s z.w (z.bundle g) i z.f) (z.given g []).wk = ctxOf s z.wk := begun_ctxOf s z.w (z.bundle g) i z.f h.wave
  unfold upcallMessage
  rw [hctx]
  refine congrArg (toBytesLE 64) ?_
  simp only [begunWave_rg]
  change _ * 2 ^ 384 + _ * 2 ^ 320 + (z.bundle g).pc.toNat % 2 ^ 57 * 2 ^ 256 + ((z.bundle g).act.map (fun k => 2 ^ k)).sum * 2 ^ 224
    + z.w.widx * 2 ^ 192 + z.w.wg * 2 ^ 160 + z.w.launch * 2 ^ 128 + _ * 2 ^ 112 + z.wk % 64 * 2 ^ 103 + coreNo z.wk * 2 ^ 96 + _ + _ = _
  ac_rfl

/-- The upcall that a wave is parked for as `upcall` issues for the passing fibres of its site. -/
def upcallPark (s : State) (g : Guard) (x : SYS) (z : Site) : Park :=
  let core := coreNo z.wk
  let seq := (coreOf s core).upSeq
  let msg : Nat := x.code.toNat * 2 ^ 64 + ctxOf s z.wk * 2 ^ 80 + core * 2 ^ 96 + z.wk % 64 * 2 ^ 103 + seq.toNat * 2 ^ 112
    + z.w.launch * 2 ^ 128 + z.w.wg * 2 ^ 160 + z.w.widx * 2 ^ 192 + ((z.bundle g).act.map (fun k => 2 ^ k)).sum * 2 ^ 224
    + (z.bundle g).pc.toNat % 2 ^ 57 * 2 ^ 256 + (z.w.rg x.ga.toNat).toNat * 2 ^ 320 + (z.w.rg (x.ga.toNat + 1)).toNat * 2 ^ 384
  { order := s.nextReq, core := core, wslot := z.wk % 64, seq := seq, reg := x.ga.toNat, msg := some (toBytesLE 64 msg), reply := none }

/-- `upcall` parks the wave with its message, and the core's serial advances. -/
theorem upcallBody_begun {s : State} {g : Guard} {x : SYS} {z : Site} (h : Ready s (.upcall g x) g .bundle z) (ha : (z.bundle g).act ≠ []) :
    upcallBody x (z.given g []) (begun s z.w (z.bundle g) (.upcall g x) z.f)
      = { modCore (modWave (begun s z.w (z.bundle g) (.upcall g x) z.f) z.wk (fun v => { v with park := some (upcallPark s g x z) }))
            (coreNo z.wk) (fun c => { c with upSeq := c.upSeq + 1 }) with nextReq := s.nextReq + 1 } := by
  have hseq : (coreOf (begun s z.w (z.bundle g) (.upcall g x) z.f) (coreNo z.wk)).upSeq = (coreOf s (coreNo z.wk)).upSeq :=
    show (coreOf (begun s z.w (z.bundle g) (.upcall g x) z.f) (coreNo z.wk)).calm.upSeq = (coreOf s (coreNo z.wk)).calm.upSeq from
      congrArg Core.upSeq (begun_cores s z.w (z.bundle g) (.upcall g x) z.f (coreNo z.wk))
  unfold upcallBody
  rw [begun_wave_given h]
  dsimp only
  have hreq : (begun s z.w (z.bundle g) (.upcall g x) z.f).nextReq = s.nextReq := rfl
  rw [if_neg (by rw [given_some ha]; exact Bool.false_ne_true), given_wk, hseq, upcallMessage_begun h]
  unfold upcallPark
  dsimp only
  generalize toBytesLE 64 _ = m
  generalize begun s z.w (z.bundle g) (.upcall g x) z.f = B at hreq ⊢
  rw [← hreq]
  rfl

theorem endIssue_modCore_nextReq (t : State) (b : Bundle) (c n : Nat) (f : Core → Core) :
    endIssue { modCore t c f with nextReq := n } b = { modCore (endIssue t b) c f with nextReq := n } := by
  unfold endIssue
  split <;> rfl

theorem upcall_completes {s : State} {g : Guard} {x : SYS} {z : Site} (h : Ready s (.upcall g x) g .bundle z) (ha : (z.bundle g).act ≠ []) :
    ∃ t, exec (.upcall g x) s = .next t
      ∧ Runs { modCore s (coreNo z.wk) (fun c => { c with upSeq := c.upSeq + 1 }) with nextReq := s.nextReq + 1 } t z.w (z.bundle g) [] (fun _ y => y)
          (fun v => { v with park := some (upcallPark s g x z) }) := by
  refine ⟨_, performed h rfl rfl rfl, ?_⟩
  rw [upcallBody_begun h ha, endIssue_modCore_nextReq]
  refine ((begun_runs h (fun k => ?_) rfl (fun hi => begun_clause h _ hi) rfl).modCore (coreNo z.wk) fun k l hkl => ?_).nextReq _
  · simp only [begunWave_fibre, ite_self]
  · exact congrArg (fun c : Core => { c with upSeq := c.upSeq + 1 }) hkl

/-! ### The gate and the checks of a service's buffer -/

/-- Two states agree in the memory, the gangs and the places of the contexts' records: the context tables read alike. -/
structure Tables (t s : State) : Prop where
  mem : t.mem = s.mem
  gangs : t.gangs = s.gangs
  recPa : ∀ m, (sget m t.contexts).map (·.recPa) = (sget m s.contexts).map (·.recPa)

namespace Tables

variable {t s : State} (h : Tables t s)
include h

theorem ctxRd (ctx off n : Nat) : ctxRd t ctx off n = ctxRd s ctx off n := by
  have hpa := h.recPa ctx
  unfold Machine.ctxRd
  cases ht : sget ctx t.contexts <;> cases hs : sget ctx s.contexts <;> simp only [ht, hs, Option.map_some, Option.map_none] at hpa ⊢
  · cases hpa
  · cases hpa
  · rw [Option.some.inj hpa, rd_congr h.mem h.gangs]

theorem capEntry (ctx i : Nat) : capEntry t ctx i = capEntry s ctx i := by
  unfold Machine.capEntry
  simp only [h.ctxRd, rd_congr h.mem h.gangs]

theorem gatePasses (ctx : Nat) (cap : BitVec 128) (op : Nat) : gatePasses t ctx cap op = gatePasses s ctx cap op := by
  unfold Machine.gatePasses
  dsimp only
  rw [h.capEntry]

theorem regionEntry (ctx rid : Nat) : regionEntry t ctx rid = regionEntry s ctx rid := by
  unfold Machine.regionEntry transBlock
  simp only [h.ctxRd, rd_congr h.mem h.gangs]

theorem storageGood (r : SenReq) : storageGood t r = storageGood s r := by
  unfold Machine.storageGood
  rw [h.regionEntry]

theorem accepted (r : SenReq) : r.accepted t = r.accepted s := by
  unfold SenReq.accepted
  rw [h.storageGood]

end Tables

/-- A holder of a tag more leaves the records where they are. -/
theorem tagHold_recPa (s : State) (ctx tag m : Nat) :
    (sget m (tagHold s ctx tag).contexts).map (·.recPa) = (sget m s.contexts).map (·.recPa) := by
  unfold tagHold
  by_cases hm : m = ctx
  · rw [hm, sget_smod_self, Option.map_map]
    rfl
  · rw [sget_smod_ne hm]

/-! ### The requests of `capinv` (R204, R440) -/

/-- The request of a fibre before its buffer's lines are owned, where `load` requests are in flight. -/
def capReqOf (s : State) (b : Bundle) (x : SYS) (n slot : Nat) (w : Wave) (f : Fibre) (load : Nat) : SenReq :=
  let ctx := ctxOf s b.wk
  let cap : BitVec 128 := w.rg (x.ga.toNat + 1) ++ w.rg x.ga.toNat
  let pass := gatePasses s ctx cap x.code.toNat
  let busy := 1024 ≤ load
  { op := n, wave := b.wk, slot := slot, ctx := ctx, launch := w.launch, wg := w.wg, lfi := f.lfi, cap := cap, code := x.code
    args := (run x.va.toNat 8).map f.rv, tag := f.ct, pc := b.pc, passed := pass && !busy
    entry := (capEntry s ctx (bits cap.toNat 0 16)).getD 0, issued := false, wait := none
    result := if !pass then some [1, 0, 0, 0] else if busy then some [3, 0, 0, 0] else none
    pinned := [], own := [], orphan := false }

theorem capRequest_some {s : State} {b : Bundle} {w : Wave} {f : Fibre} {slot : Nat} (x : SYS) (n : Nat) (hw : sget b.wk s.waves = some w)
    (hf : sget slot w.fibres = some f) : capRequest s b x n slot = some ((capReqOf s b x n slot w f (senLoad s)).accepted s) := by
  have hat : fibreAt s b.wk slot = some f := by unfold fibreAt; rw [hw]; exact hf
  unfold capRequest
  rw [hw, hat]
  rfl

/-- The request depends on no more than the tables, the wave's launch and the count in flight. -/
theorem capReqOf_tables {t s : State} (h : Tables t s) {b : Bundle} (hc : ctxOf t b.wk = ctxOf s b.wk) (x : SYS) (n slot : Nat) (w : Wave) (f : Fibre)
    (load : Nat) : capReqOf t b x n slot w f load = capReqOf s b x n slot w f load := by
  unfold capReqOf
  rw [hc]
  simp only [h.gatePasses, h.capEntry]

/-- What a request keeps as its buffer's lines are owned. -/
theorem accepted_own (s : State) (r : SenReq) : ∃ own, r.accepted s = { r with own := own } := by
  unfold SenReq.accepted
  split
  · exact ⟨_, rfl⟩
  · exact ⟨r.own, rfl⟩

/-- The state with other requests, another number for the next one, and other contexts' records. -/
def State.withServices (s : State) (q : Sparse SenReq) (n : Nat) (c : Sparse Context) : State := { s with reqs := q, nextReq := n, contexts := c }

/-- A change of the requests and contexts passes by an issue. -/
theorem begun_withServices (s : State) (q : Sparse SenReq) (n : Nat) (c : Sparse Context) (w : Wave) (b : Bundle) (i : Instr) (f : Form) :
    begun (s.withServices q n c) w b i f = (begun s w b i f).withServices q n c := by
  have hres (all act : List Nat) : resources (s.withServices q n c) b.wk w i f all act = (resources s b.wk w i f all act).withServices q n c := by
    unfold resources countIssue
    simp only [show firstOfPair (s.withServices q n c) w = firstOfPair s w from rfl]
    repeat' split
    all_goals rfl
  unfold begun occupy
  rw [hres]
  rfl

/-- One fibre's part of `capinv`: its request, and the tag that a read or a write holds. -/
def capStep (x : SYS) (b : Bundle) (n : Nat) (t : State × List CapReq) (slot : Nat) : State × List CapReq :=
  match capRequest t.1 b x n slot with
  | none => t
  | some q =>
    let k := t.1.nextReq
    let s := { t.1 with reqs := sput k q t.1.reqs, nextReq := k + 1 }
    (if q.storage && q.code.toNat ≤ 1 then tagHold s q.ctx q.tag.toNat else s, t.2 ++ [{ slot := slot, vr := x.vb.toNat, req := k }])

/-- The tag that the `j`-th of the requests from `n` on holds. -/
def capHold (reqs : Sparse SenReq) (n : Nat) (u : State) (j : Nat) : State :=
  match sget (n + j) reqs with
  | some r => if r.storage && r.code.toNat ≤ 1 then tagHold u r.ctx r.tag.toNat else u
  | none => u

theorem capHold_some {reqs : Sparse SenReq} {n j : Nat} {r : SenReq} (h : sget (n + j) reqs = some r) (u : State) :
    capHold reqs n u j = if r.storage && r.code.toNat ≤ 1 then tagHold u r.ctx r.tag.toNat else u := by
  unfold capHold
  rw [h]

/-- Holding tags looks at the contexts alone. -/
theorem capHold_contexts (reqs : Sparse SenReq) (n : Nat) {u v : State} (h : u.contexts = v.contexts) (j : Nat) :
    (capHold reqs n u j).contexts = (capHold reqs n v j).contexts := by
  unfold capHold
  split
  · split
    · unfold tagHold; rw [h]
    · exact h
  · exact h

theorem capHolds_contexts (reqs : Sparse SenReq) (n : Nat) (l : List Nat) {u v : State} (h : u.contexts = v.contexts) :
    (l.foldl (capHold reqs n) u).contexts = (l.foldl (capHold reqs n) v).contexts := by
  induction l generalizing u v with
  | nil => exact h
  | cons j l ih => exact ih (capHold_contexts reqs n h j)

/-- A request that is none of those that hold is not looked at. -/
theorem capHolds_sput (reqs : Sparse SenReq) (n m : Nat) (q : SenReq) (s : State) :
    (List.range m).foldl (capHold (sput (n + m) q reqs) n) s = (List.range m).foldl (capHold reqs n) s := by
  refine List.foldl_ext _ _ _ fun u j hj => ?_
  have hne : n + j ≠ n + m := by have := List.mem_range.1 hj; omega
  unfold capHold
  rw [sget_sput_ne hne]

/-- What the requests of the slots `l` of the wave `w` leave of the state `B`: the requests `reqs` and the contexts `c`. -/
structure Requested (B : State) (b : Bundle) (x : SYS) (n : Nat) (w : Wave) (l : List Nat) (reqs : Sparse SenReq) (c : Sparse Context) : Prop where
  steps : l.foldl (capStep x b n) (B, []) = (B.withServices reqs (B.nextReq + l.length) c,
    l.zipIdx.map (fun e => { slot := e.1, vr := x.vb.toNat, req := B.nextReq + e.2 }))
  recPa : ∀ m, (sget m c).map (·.recPa) = (sget m B.contexts).map (·.recPa)
  others : ∀ m, (∀ j < l.length, m ≠ B.nextReq + j) → sget m reqs = sget m B.reqs
  holds : c = ((List.range l.length).foldl (capHold reqs B.nextReq) B).contexts
  each : ∀ j k f, l[j]? = some k → sget k w.fibres = some f →
    ∃ load, sget (B.nextReq + j) reqs = some ((capReqOf B b x n k w f load).accepted B)

/-- One request more. -/
theorem Requested.next {B : State} {b : Bundle} {x : SYS} {n : Nat} {w : Wave} {l : List Nat} {reqs : Sparse SenReq} {c : Sparse Context}
    (h : Requested B b x n w l reqs c) (hw : sget b.wk B.waves = some w) {k : Nat} {f : Fibre} (hf : sget k w.fibres = some f) :
    ∃ reqs' c', Requested B b x n w (l ++ [k]) reqs' c' := by
  obtain ⟨hsteps, hpa, hothers, hholds, heach⟩ := h
  let t := B.withServices reqs (B.nextReq + l.length) c
  let q := (capReqOf B b x n k w f (senLoad t)).accepted B
  let reqs' := sput (B.nextReq + l.length) q reqs
  let u := B.withServices reqs' (B.nextReq + l.length + 1) c
  have htab : Tables t B := ⟨rfl, rfl, hpa⟩
  have hq : capRequest t b x n k = some q := by
    rw [capRequest_some x n (show sget b.wk t.waves = some w from hw) hf, htab.accepted, capReqOf_tables htab rfl]
  have hat : sget (B.nextReq + l.length) reqs' = some q := sget_sput_self _ _ _
  have hu : capHold reqs' B.nextReq u l.length = u.withContexts (capHold reqs' B.nextReq u l.length).contexts := by
    rw [capHold_some hat]
    split <;> rfl
  refine ⟨reqs', (capHold reqs' B.nextReq u l.length).contexts, ?_, fun m => ?_, fun m hm => ?_, ?_, fun j k' f' hj hf' => ?_⟩
  · have hlast : capStep x b n (t, l.zipIdx.map (fun e => { slot := e.1, vr := x.vb.toNat, req := B.nextReq + e.2 })) k
        = (capHold reqs' B.nextReq u l.length, l.zipIdx.map (fun e => { slot := e.1, vr := x.vb.toNat, req := B.nextReq + e.2 })
            ++ [{ slot := k, vr := x.vb.toNat, req := B.nextReq + l.length }]) := by
      unfold capStep
      rw [hq, capHold_some hat]
      rfl
    rw [List.foldl_append, hsteps, List.foldl_cons, List.foldl_nil, hlast, hu, List.zipIdx_append, List.map_append, List.length_append]
    simp [State.withContexts, State.withServices, u, Nat.add_assoc]
  · rw [capHold_some hat]
    split
    · exact (tagHold_recPa u _ _ m).trans (hpa m)
    · exact hpa m
  · rw [List.length_append, List.length_singleton] at hm
    exact (sget_sput_ne (hm l.length (by omega)) _ _).trans (hothers m fun j hj => hm j (by omega))
  · rw [List.length_append, List.length_singleton, List.range_succ, List.foldl_append, List.foldl_cons, List.foldl_nil, capHolds_sput]
    exact capHold_contexts _ _ hholds _
  · by_cases hjl : j < l.length
    · rw [List.getElem?_append_left hjl] at hj
      obtain ⟨load, hr⟩ := heach j k' f' hj hf'
      exact ⟨load, (sget_sput_ne (by omega) _ _).trans hr⟩
    · have hj' : j = l.length := by
        have := (List.getElem?_eq_some_iff.1 hj).1
        rw [List.length_append, List.length_singleton] at this
        omega
      rw [hj', List.getElem?_concat_length] at hj
      obtain rfl : k = k' := Option.some.inj hj
      obtain rfl : f = f' := Option.some.inj (hf.symm.trans hf')
      exact ⟨senLoad t, hj' ▸ hat⟩

/-- The requests of all the slots. -/
theorem requested {B : State} {b : Bundle} (x : SYS) (n : Nat) {w : Wave} (hw : sget b.wk B.waves = some w) (l : List Nat)
    (hf : ∀ k ∈ l, ∃ f, sget k w.fibres = some f) : ∃ reqs c, Requested B b x n w l reqs c := by
  induction l using List.reverseRecOn with
  | nil => exact ⟨B.reqs, B.contexts, rfl, fun _ => rfl, fun _ _ => rfl, rfl, fun j k f hj => by simp at hj⟩
  | append_singleton l k ih =>
    obtain ⟨reqs, c, h⟩ := ih fun k hk => hf k (List.mem_append_left _ hk)
    obtain ⟨f, hk⟩ := hf k (by simp)
    exact h.next hw hk

theorem startOp_contexts (s : State) (b : Bundle) (k : OpKind) : (startOp s b k).contexts = s.contexts := by unfold startOp; dsimp only; split <;> rfl
theorem startOp_reqs (s : State) (b : Bundle) (k : OpKind) : (startOp s b k).reqs = s.reqs := by unfold startOp; dsimp only; split <;> rfl
theorem startOp_nextReq (s : State) (b : Bundle) (k : OpKind) : (startOp s b k).nextReq = s.nextReq := by unfold startOp; dsimp only; split <;> rfl
theorem endIssue_contexts (s : State) (b : Bundle) : (endIssue s b).contexts = s.contexts := by unfold endIssue; split <;> rfl
theorem endIssue_reqs (s : State) (b : Bundle) : (endIssue s b).reqs = s.reqs := by unfold endIssue; split <;> rfl
theorem endIssue_nextReq (s : State) (b : Bundle) : (endIssue s b).nextReq = s.nextReq := by unfold endIssue; split <;> rfl

/-- The context tables read alike once the instruction has issued. -/
theorem begun_tables (s : State) (w : Wave) (b : Bundle) (i : Instr) (f : Form) : Tables (begun s w b i f) s := ⟨rfl, rfl, fun _ => rfl⟩

/-- What the request of a passing fibre holds. -/
theorem capRequest_fields {s : State} {z : Site} {g : Guard} {x : SYS} {k : Nat} {y : Fibre} {b : Bundle} {load : Nat} {r : SenReq} (hb : b.wk = z.wk)
    (hr : r = (capReqOf s b x s.nextOp k (begunWave z.w (z.bundle g)) (passed z.w (z.bundle g) k y) load).accepted s) :
    r.op = s.nextOp ∧ r.slot = k ∧ r.wave = z.wk ∧ r.ctx = ctxOf s z.wk ∧ r.lfi = y.lfi ∧ r.cap = z.w.rg (x.ga.toNat + 1) ++ z.w.rg x.ga.toNat
      ∧ r.code = x.code ∧ r.args = (List.range 8).map (fun i => y.rv (x.va.toNat + i)) ∧ r.tag = y.ct
      ∧ r.own = (SenReq.accepted s { r with own := [] }).own
      ∧ (gatePasses s (ctxOf s z.wk) (z.w.rg (x.ga.toNat + 1) ++ z.w.rg x.ga.toNat) x.code.toNat = false → r.passed = false ∧ r.result = some [1, 0, 0, 0])
      ∧ (gatePasses s (ctxOf s z.wk) (z.w.rg (x.ga.toNat + 1) ++ z.w.rg x.ga.toNat) x.code.toNat = true →
          r.passed = true ∧ r.result = none ∨ r.passed = false ∧ r.result = some [3, 0, 0, 0]) := by
  let r0 := capReqOf s b x s.nextOp k (begunWave z.w (z.bundle g)) (passed z.w (z.bundle g) k y) load
  have hr0 : ({ r with own := [] } : SenReq) = r0 := by
    obtain ⟨own, he⟩ := accepted_own s r0
    rw [hr, he]
    rfl
  have hgate : (gatePasses s (ctxOf s z.wk) (z.w.rg (x.ga.toNat + 1) ++ z.w.rg x.ga.toNat) x.code.toNat = false →
        r0.passed = false ∧ r0.result = some [1, 0, 0, 0])
      ∧ (gatePasses s (ctxOf s z.wk) (z.w.rg (x.ga.toNat + 1) ++ z.w.rg x.ga.toNat) x.code.toNat = true →
        r0.passed = true ∧ r0.result = none ∨ r0.passed = false ∧ r0.result = some [3, 0, 0, 0]) := by
    simp only [r0, capReqOf, begunWave_rg, hb]
    constructor
    · intro hpass
      simp [hpass]
    · intro hpass
      by_cases hload : 1024 ≤ load <;> simp [hpass, hload]
  rw [← hr0] at hgate
  have hlfi : r.lfi = (passed z.w (z.bundle g) k y).lfi := congrArg SenReq.lfi hr0
  have htag : r.tag = (passed z.w (z.bundle g) k y).ct := congrArg SenReq.tag hr0
  have hargs : r.args = (run x.va.toNat 8).map (passed z.w (z.bundle g) k y).rv := congrArg SenReq.args hr0
  have hctx : r.ctx = ctxOf s b.wk := congrArg SenReq.ctx hr0
  have hwave : r.wave = b.wk := congrArg SenReq.wave hr0
  refine ⟨congrArg SenReq.op hr0, congrArg SenReq.slot hr0, hwave.trans hb, by rw [hctx, hb], by rw [hlfi, passed_lfi], congrArg SenReq.cap hr0,
    congrArg SenReq.code hr0, ?_, by rw [htag, passed_ct], by rw [hr0, hr], hgate⟩
  rw [hargs, run, List.map_map]
  exact List.map_congr_left fun j _ => passed_rv _ _ _ _ _

/-- `capinv` makes the requests of its passing fibres and starts one operation that waits for their answers. -/
theorem capinv_starts {s : State} {g : Guard} {x : SYS} {z : Site} (h : Ready s (.capinv g x) g .bundle z) (ha : (z.bundle g).act ≠ []) :
    ∃ reqs c, Requested (begun s z.w (z.bundle g) (.capinv g x) z.f) (z.given g []) x s.nextOp (begunWave z.w (z.bundle g)) (z.bundle g).act reqs c
      ∧ ∃ t, exec (.capinv g x) s = .next t ∧ t.reqs = reqs ∧ t.nextReq = s.nextReq + (z.bundle g).act.length ∧ t.contexts = c
      ∧ Starts { s with reqs := t.reqs, nextReq := t.nextReq, contexts := t.contexts } t z.w (z.bundle g) z.c.header [] (fun _ y => y) (z.bundle g).act
          (.capinv ((z.bundle g).act.zipIdx.map (fun e => { slot := e.1, vr := x.vb.toNat, req := s.nextReq + e.2 }))) := by
  obtain ⟨reqs, c, hreq⟩ := requested x s.nextOp (begun_wave_given h) (z.bundle g).act fun k hk => by
    obtain ⟨y, hy⟩ := act_fibre hk
    exact ⟨_, fibre_begun hk hy⟩
  refine ⟨reqs, c, hreq, ?_⟩
  let crs : List CapReq := (z.bundle g).act.zipIdx.map (fun e => { slot := e.1, vr := x.vb.toNat, req := s.nextReq + e.2 })
  let s0 := s.withServices reqs (s.nextReq + (z.bundle g).act.length) c
  have hbody : capinvBody x (z.given g []) (begun s z.w (z.bundle g) (.capinv g x) z.f)
      = startOp (begun s0 z.w (z.bundle g) (.capinv g x) z.f) (z.given g []) (.capinv crs) := by
    have hne : crs.isEmpty = false := by simpa [crs] using ha
    unfold capinvBody
    rw [if_neg (by rw [given_some ha]; exact Bool.false_ne_true)]
    change (let r := (z.bundle g).act.foldl (capStep x (z.given g []) s.nextOp) (begun s z.w (z.bundle g) (.capinv g x) z.f, [])
      if r.2.isEmpty then r.1 else startOp r.1 (z.given g []) (.capinv r.2)) = _
    rw [hreq.steps, ← begun_withServices]
    exact if_neg fun hemp => Bool.false_ne_true (hne.symm.trans hemp)
  have hst := starts_of (s0 := s0) (ws := []) h h.wave ha (by rw [form_is h rfl]; rfl) (.capinv crs)
  refine ⟨_, performed h rfl rfl rfl, ?_⟩
  rw [hbody]
  have e1 : (endIssue (startOp (begun s0 z.w (z.bundle g) (.capinv g x) z.f) (z.given g []) (.capinv crs)) (z.bundle g)).reqs = reqs := by
    rw [endIssue_reqs, startOp_reqs]; rfl
  have e2 : (endIssue (startOp (begun s0 z.w (z.bundle g) (.capinv g x) z.f) (z.given g []) (.capinv crs)) (z.bundle g)).nextReq
      = s.nextReq + (z.bundle g).act.length := by
    rw [endIssue_nextReq, startOp_nextReq]; rfl
  have e3 : (endIssue (startOp (begun s0 z.w (z.bundle g) (.capinv g x) z.f) (z.given g []) (.capinv crs)) (z.bundle g)).contexts = c := by
    rw [endIssue_contexts, startOp_contexts]; rfl
  refine ⟨e1, e2, e3, ?_⟩
  rw [e1, e2, e3]
  exact hst

/-- Settles O25: `capinv` makes its requests fibre by fibre, `upcall` parks the wave, `rdctr` reads. -/
theorem serviceUpcallAndCounterResults : Obligations.ServiceUpcallAndCounterResults := by
  intro s g x z b
  refine ⟨fun h ha => ?_, fun h ha => upcall_completes h ha, rdctr_completes s g x⟩
  intro cap
  obtain ⟨reqs, c, hreq, t, hexec, hreqs, hnext, hcon, hst⟩ := capinv_starts h ha
  have htab := begun_tables s z.w (z.bundle g) (.capinv g x) z.f
  have hctx : ctxOf (begun s z.w (z.bundle g) (.capinv g x) z.f) (z.given g []).wk = ctxOf s (z.given g []).wk := begun_ctxOf s z.w _ _ z.f h.wave
  refine ⟨t, hexec, hst, hnext, fun n hn => ?_, ?_, fun j k y hj hy => ?_⟩
  · rw [hreqs]
    exact hreq.others n hn
  · rw [hcon, hreqs]
    exact hreq.holds.trans (capHolds_contexts reqs s.nextReq _ rfl)
  · have hk : k ∈ (z.bundle g).act := List.mem_of_getElem? hj
    obtain ⟨load, hr⟩ := hreq.each j k _ hj (fibre_begun hk hy)
    rw [hreqs]
    refine ⟨_, hr, capRequest_fields (g := g) (b := z.given g []) (load := load) (given_wk z g []) ?_⟩
    rw [htab.accepted, capReqOf_tables htab hctx]

end Sys2Proof.Machine
end

section
/-! SUPPORT. Creating and ending fibres (O20). -/

namespace Sys2Proof.Machine

/-! ### The end of fibres (R188) -/

/-- The end of an issue closes the clause of the bundle's wave after its last instruction. -/
theorem endIssue_at (t : State) (b : Bundle) : sget b.wk (endIssue t b).waves
    = (sget b.wk t.waves).map (fun w => if b.idx = b.place.last then { w with clause := none, paired := none } else w) := by
  rw [endIssue_waves]
  split
  · exact sget_smod_self _ _ _
  · rw [Option.map_id']

/-- The clause that the fibres of `out` leave as the instruction issues. -/
theorem clause_left {s : State} {i : Instr} {g : Guard} {rel : Rel} {z : Site} (h : Ready s i g rel z) {out : List Nat} {v : Wave}
    (hv : v.clause = (begunWave z.w (z.bundle g)).clause.bind (fun c =>
      let slots := c.slots.filter (fun x => !out.contains x)
      if slots.isEmpty then none else some { c with slots := slots })) :
    (if (z.bundle g).idx = (z.bundle g).place.last then { v with clause := none, paired := none } else v).clause = clauseAfter z.w (z.bundle g) out := by
  unfold clauseAfter
  split
  · rfl
  · rw [hv]
    unfold begunWave
    dsimp only
    rw [h.clause]
    rfl

/-- Where no command of the debugger waits, fibres that end leave the control registers. -/
theorem endFibre_panel {s : State} (h : s.dbBusy = []) (wk x : Nat) (how : Ending) : (endFibre s wk x how).panel = s.panel := by
  unfold endFibre
  split
  · next w f _ _ =>
    have h1 : (orphanAll (leaveClause s wk x) wk x).panel = s.panel := orphanAll_panel _ wk x
    have h2 := dbDone_idle (s := tagDrop (orphanAll (leaveClause s wk x) wk x) (ctxOf s wk) f.ct.toNat) ((congrArg Prod.snd h1).trans h) w.launch w.wg f.lfi 1
    dsimp only
    rw [h2]
    refine (dropIdle_panel _ wk :).trans ?_
    exact (settleMats_panel _ wk :).trans h1
  · rfl

theorem endFibres_ctl {s : State} (h : s.dbBusy = []) (wk : Nat) (how : Ending) (l : List Nat) :
    (l.foldl (fun t x => endFibre t wk x how) s).ctl = s.ctl :=
  (congrArg Prod.fst (kept_foldl (P := fun t : State => t.panel = s.panel)
    (fun _ x ht => (endFibre_panel ((congrArg Prod.snd ht).trans h) wk x how).trans ht) l rfl) :)

/-- `exit` ends the passing fibres and leaves their clause. -/
theorem exit_completes {s : State} {g : Guard} {x : BR} {z : Site} (h : Ready s (.exit g x) g .exit z) :
    ∃ t v, exec (.exit g x) s = .next t ∧ sget z.wk t.waves = some v
      ∧ (∀ k, sget k v.fibres = if (z.bundle g).act.contains k then none else (sget k z.w.fibres).map (fun y =>
          if (z.bundle g).all.contains k then passed z.w (z.bundle g) k y else y))
      ∧ v.clause = clauseAfter z.w (z.bundle g) (z.bundle g).act ∧ v.g = z.w.g ∧ v.forkSerial = z.w.forkSerial
      ∧ (∀ j, j ≠ z.wk → (sget j t.waves).map (fun u => (u.fibres, u.clause, u.g)) = (sget j s.waves).map (fun u => (u.fibres, u.clause, u.g)))
      ∧ t.mem = s.mem ∧ t.gangs = s.gangs ∧ t.launches = s.launches ∧ (s.dbBusy = [] → t.ctl = s.ctl) := by
  let ended (w : Wave) : Wave := (z.bundle g).act.foldl (fun w x => (Wave.leave x w).del x) w
  have hB : sget z.wk (begun s z.w (z.bundle g) (.exit g x) z.f).waves = some (begunWave z.w (z.bundle g)) := begun_wave s z.w (z.bundle g) _ z.f h.wave
  have hmind := endFibres_mind (wk := z.wk) (z.bundle g).act (act_nodup z g) _ _ hB fun k hk => by
    obtain ⟨y, hy⟩ := act_fibre hk
    exact ⟨_, fibre_begun hk hy⟩
  have hctl : s.dbBusy = [] → ((z.bundle g).act.foldl (fun t k => endFibre t z.wk k .exit) (begun s z.w (z.bundle g) (.exit g x) z.f)).ctl = s.ctl :=
    fun hidle => endFibres_ctl (s := begun s z.w (z.bundle g) (.exit g x) z.f) hidle z.wk .exit _
  have hother (j : Nat) (hj : j ≠ z.wk) : sget j (begun s z.w (z.bundle g) (.exit g x) z.f).waves = sget j s.waves := by
    rw [begun_waves]
    exact sget_smod_ne hj _ _
  have hmem : (begun s z.w (z.bundle g) (.exit g x) z.f).mem = s.mem := rfl
  have hgangs : (begun s z.w (z.bundle g) (.exit g x) z.f).gangs = s.gangs := rfl
  have hlaunches : (begun s z.w (z.bundle g) (.exit g x) z.f).launches = s.launches := rfl
  have hexec := performed h rfl rfl rfl
  unfold exitBody at hexec
  rw [given_wk] at hexec
  change _ = Host.Outcome.next (endIssue ((z.bundle g).act.foldl _ _) _) at hexec
  generalize begun s z.w (z.bundle g) (.exit g x) z.f = B at *
  generalize hT : (z.bundle g).act.foldl (fun t k => endFibre t z.wk k .exit) B = T at *
  obtain ⟨hfib, hcl, hrest⟩ := foldl_ends (z.bundle g).act (begunWave z.w (z.bundle g)) fun c hc => by
    unfold begunWave at hc
    dsimp only at hc
    rw [h.clause, Option.map_some, Option.some.injEq] at hc
    subst hc
    exact h.slots
  obtain ⟨v, hv, hve⟩ := mind_wave hmind.symm (show sget z.wk (modWave B z.wk ended).waves = some (ended (begunWave z.w (z.bundle g))) by
    rw [sget_modWave_self, hB]; rfl)
  have hvfib : v.fibres = (ended (begunWave z.w (z.bundle g))).fibres := (congrArg Wave.fibres hve :)
  have hvcl : v.clause = (ended (begunWave z.w (z.bundle g))).clause := (congrArg Wave.clause hve :)
  have hvg : v.g = z.w.g := (congrArg Wave.g hve :).trans (congrArg Wave.g hrest :)
  have hvser : v.forkSerial = z.w.forkSerial := (congrArg Wave.forkSerial hve :).trans (congrArg Wave.forkSerial hrest :)
  have hend (t : State) : (endIssue t (z.bundle g)).mem = t.mem ∧ (endIssue t (z.bundle g)).gangs = t.gangs
      ∧ (endIssue t (z.bundle g)).launches = t.launches ∧ (endIssue t (z.bundle g)).ctl = t.ctl := by
    unfold endIssue
    split <;> exact ⟨rfl, rfl, rfl, rfl⟩
  obtain ⟨emem, egangs, elaunches, ectl⟩ := hend T
  refine ⟨endIssue T (z.bundle g), _, hexec, ((endIssue_at T (z.bundle g)).trans (by rw [show sget (z.bundle g).wk T.waves = some v from hv]; rfl)),
    fun k => ?_, clause_left h (hvcl.trans hcl), ?_, ?_, fun j hj => ?_, ?_, ?_, ?_, fun hd => ectl.trans (hctl hd)⟩
  · have hsame : (if (z.bundle g).idx = (z.bundle g).place.last then { v with clause := none, paired := none } else v).fibres = v.fibres := by
      split <;> rfl
    rw [hsame, hvfib, hfib, begunWave_fibre]
  · split <;> exact hvg
  · split <;> exact hvser
  · rw [endIssue_wave_ne T (z.bundle g) hj, ← hother j hj]
    have hj' := congrArg (fun u : State => (sget j u.waves).map (fun u => (u.fibres, u.clause, u.g))) hmind
    simp only [sget_mind, Option.map_map] at hj'
    rw [sget_modWave_ne hj] at hj'
    exact hj'
  · exact emem.trans ((congrArg State.mem hmind :).trans hmem)
  · exact egangs.trans ((congrArg State.gangs hmind :).trans hgangs)
  · exact elaunches.trans ((congrArg State.launches hmind :).trans hlaunches)

/-! ### The child of a fibre (R187, R47) -/

/-- A child is as R47 creates a fibre, but for the registers copied. -/
theorem child_regs (f : Fibre) (lfi : W32) (pc : W64) (va n stamp : Nat) :
    { f.child lfi pc va n stamp with v := [] } = Fibre.new lfi pc f.ct stamp
      ∧ ∀ r, (f.child lfi pc va n stamp).rv r = (if va ≤ r ∧ r < va + n then f.rv r else 0)
        ∧ (f.child lfi pc va n stamp).vp r = (if va ≤ r ∧ r < va + n then f.vp r else false) := by
  unfold Fibre.child run
  induction n with
  | zero => exact ⟨rfl, fun r => by simp only [Nat.add_zero, show ¬(va ≤ r ∧ r < va) from by omega, if_false]; exact ⟨rfl, rfl⟩⟩
  | succ n ih =>
    rw [List.range_succ, List.map_append, List.foldl_append]
    generalize ((List.range n).map (va + ·)).foldl (fun c r => c.setVp r (f.rv r) (f.vp r)) (Fibre.new lfi pc f.ct stamp) = c at ih ⊢
    obtain ⟨hnew, hregs⟩ := ih
    refine ⟨hnew, fun r => ?_⟩
    simp only [List.map_cons, List.map_nil, List.foldl_cons, List.foldl_nil]
    by_cases hr : r = va + n
    · subst hr
      rw [rv_setVp_self, vp_setVp_self, if_pos (by omega), if_pos (by omega)]
      exact ⟨rfl, rfl⟩
    · obtain ⟨hv, hp⟩ := hregs r
      have hiff : (va ≤ r ∧ r < va + (n + 1)) ↔ (va ≤ r ∧ r < va + n) := by omega
      rw [rv_setVp_ne hr, vp_setVp_ne hr, hv, hp]
      simp only [hiff]
      exact ⟨trivial, trivial⟩

/-- The fields of a child of a fibre that has passed the instruction. -/
theorem child_fields (w : Wave) (b : Bundle) (k : Nat) (y : Fibre) (lfi : W32) (pc : W64) (va n stamp : Nat) :
    let c := (passed w b k y).child lfi pc va n stamp
    c.lfi = lfi ∧ c.pc = pc ∧ c.base = none ∧ c.ct = y.ct
      ∧ (∀ r, c.rv r = (if va ≤ r ∧ r < va + n then y.rv r else 0) ∧ c.vp r = (if va ≤ r ∧ r < va + n then y.vp r else false))
      ∧ c.pred = 1 ∧ c.q = [] ∧ c.staged = [] ∧ c.depth = 0 ∧ c.draw = 0 ∧ c.recs = [] ∧ c.blocked = none := by
  intro c
  obtain ⟨hnew, hregs⟩ := child_regs (passed w b k y) lfi pc va n stamp
  simp only [passed_rv, passed_vp, passed_ct] at hnew hregs
  exact ⟨(congrArg Fibre.lfi hnew :), (congrArg Fibre.pc hnew :), (congrArg Fibre.base hnew :), (congrArg Fibre.ct hnew :), hregs,
    (congrArg Fibre.pred hnew :), (congrArg Fibre.q hnew :), (congrArg Fibre.staged hnew :), (congrArg Fibre.depth hnew :),
    (congrArg Fibre.draw hnew :), (congrArg Fibre.recs hnew :), (congrArg Fibre.blocked hnew :)⟩

/-! ### Creating the children (R187) -/

/-- The index of the child with a serial (R30). -/
def childIndex (W : Wave) (serial : Nat) : W32 := BitVec.ofNat 32 (2 ^ 31 + W.widx * 2 ^ 26 + serial)

/-- What the fibres of the slots `l` leave of the state `B` with the wave `W` as they fork into the slots of `empty`, in order. -/
structure Forked (B : State) (b : Bundle) (x : BR) (tgt : W64) (W : Wave) (empty l : List Nat) (t : State) (v : Wave) : Prop where
  steps : l.foldl (fun p k => forkOne x b tgt p.1 p.2 k) (B, empty) = (t, empty.drop l.length)
  wave : sget b.wk t.waves = some v
  calm : { v with fibres := W.fibres, forkSerial := W.forkSerial } = W
  serial : v.forkSerial = W.forkSerial + min l.length empty.length
  parents : ∀ j k f, l[j]? = some k → sget k W.fibres = some f → sget k v.fibres = some (f.setP (x.vb.extractLsb' 4 4) (decide (j < empty.length)))
  children : ∀ j k e f, l[j]? = some k → empty[j]? = some e → sget k W.fibres = some f →
    sget e v.fibres = some (f.child (childIndex W (W.forkSerial + j)) tgt x.va.toNat (forkCount x) W.issueNo)
  fibres : ∀ k, k ∉ l → k ∉ empty.take l.length → sget k v.fibres = sget k W.fibres
  waves : ∀ j, j ≠ b.wk → sget j t.waves = sget j B.waves
  rest : { t with waves := B.waves, contexts := B.contexts } = B

/-- A fibre for which no slot is left. -/
theorem forkOne_full {t : State} {b : Bundle} {v : Wave} {f : Fibre} {k : Nat} (x : BR) (tgt : W64) (hv : sget b.wk t.waves = some v)
    (hf : sget k v.fibres = some f) : forkOne x b tgt t [] k = (modFibre t b.wk k (fun f => f.setP (x.vb.extractLsb' 4 4) false), []) := by
  unfold forkOne
  rw [hv, fibreAt_of hv hf]

/-- A wave whose fibre `f` at `k` has a child with the index `lfi` in the slot `e`. -/
def Wave.fork (x : BR) (tgt : W64) (lfi : W32) (f : Fibre) (k e : Nat) (v : Wave) : Wave :=
  { v with
    forkSerial := v.forkSerial + 1
    fibres := smod k (fun f => f.setP (x.vb.extractLsb' 4 4) true) (sput e (f.child lfi tgt x.va.toNat (forkCount x) v.issueNo) v.fibres) }

theorem forkOne_child {t : State} {b : Bundle} {v : Wave} {f : Fibre} {k : Nat} (x : BR) (tgt : W64) (e : Nat) (rest : List Nat)
    (hv : sget b.wk t.waves = some v) (hf : sget k v.fibres = some f) (hserial : v.forkSerial ≠ 2 ^ 26) :
    ∃ cs, forkOne x b tgt t (e :: rest) k
      = ((modWave t b.wk (Wave.fork x tgt (childIndex v v.forkSerial) f k e)).withContexts cs, rest) := by
  unfold forkOne
  rw [hv, fibreAt_of hv hf]
  dsimp only
  rw [if_neg hserial]
  unfold tagHold modFibre modWave
  dsimp only
  rw [smod_smod]
  exact ⟨_, rfl⟩

/-- What stands in a list with one element more. -/
theorem getElem?_snoc {α : Type} {l : List α} {a b : α} {j : Nat} (h : (l ++ [a])[j]? = some b) : l[j]? = some b ∨ (j = l.length ∧ b = a) := by
  by_cases hj : j < l.length
  · rw [List.getElem?_append_left hj] at h
    exact .inl h
  · have hlen := (List.getElem?_eq_some_iff.1 h).1
    rw [List.length_append, List.length_singleton] at hlen
    obtain rfl : j = l.length := by omega
    rw [List.getElem?_concat_length] at h
    exact .inr ⟨rfl, (Option.some.inj h).symm⟩

/-- A fibre that has not yet forked is as it was. -/
theorem Forked.unforked {B t : State} {b : Bundle} {x : BR} {tgt : W64} {W v : Wave} {empty l : List Nat} {k : Nat} {f : Fibre}
    (h : Forked B b x tgt W empty l t v) (hk : k ∉ l) (hf : sget k W.fibres = some f) (hempty : ∀ e ∈ empty, sget e W.fibres = none) :
    sget k v.fibres = some f := by
  rw [h.fibres k hk (fun hm => ?_), hf]
  have := hempty k (List.mem_of_mem_take hm)
  rw [hf] at this
  cases this

/-- The wave after one more fibre has forked, where a slot is left for it. -/
theorem Forked.child {B t : State} {b : Bundle} {x : BR} {tgt : W64} {W v : Wave} {empty l : List Nat} {k e : Nat} {f : Fibre}
    (h : Forked B b x tgt W empty l t v) (hk : k ∉ l) (hf : sget k W.fibres = some f) (hempty : ∀ e ∈ empty, sget e W.fibres = none)
    (hnodup : empty.Nodup) (he : empty[l.length]? = some e) (hserial : W.forkSerial + l.length < 2 ^ 26) :
    ∃ u, Forked B b x tgt W empty (l ++ [k]) u (v.fork x tgt (childIndex W (W.forkSerial + l.length)) f k e) := by
  have hkv := h.unforked hk hf hempty
  obtain ⟨hsteps, hwave, hcalm, hser, hparents, hchildren, hfibres, hwaves, hrest⟩ := h
  obtain ⟨hlt, hget⟩ := List.getElem?_eq_some_iff.1 he
  have hmin : min l.length empty.length = l.length := Nat.min_eq_left (Nat.le_of_lt hlt)
  rw [hmin] at hser
  have hidx : childIndex v v.forkSerial = childIndex W (W.forkSerial + l.length) := by
    rw [hser]
    exact (congrArg (fun w : Wave => childIndex w (W.forkSerial + l.length)) hcalm :)
  have hno : v.issueNo = W.issueNo := (congrArg Wave.issueNo hcalm :)
  have hke (j : Nat) (d : Nat) (hd : empty[j]? = some d) : k ≠ d := by
    intro hkd
    have := hempty d (List.mem_of_getElem? hd)
    rw [← hkd, hf] at this
    cases this
  obtain ⟨cs, hone⟩ := forkOne_child x tgt e (empty.drop (l.length + 1)) hwave hkv (by omega)
  rw [hidx] at hone
  generalize hu : v.fork x tgt (childIndex W (W.forkSerial + l.length)) f k e = u
  have hself : sget k u.fibres = some (f.setP (x.vb.extractLsb' 4 4) true) := by
    rw [← hu]
    unfold Wave.fork
    dsimp only
    rw [sget_smod_self, sget_sput_ne (hke _ _ he), hkv]
    rfl
  have hnew : sget e u.fibres = some (f.child (childIndex W (W.forkSerial + l.length)) tgt x.va.toNat (forkCount x) W.issueNo) := by
    rw [← hu]
    unfold Wave.fork
    dsimp only
    rw [sget_smod_ne (hke _ _ he).symm, sget_sput_self, hno]
  have hother (j : Nat) (h1 : j ≠ k) (h2 : j ≠ e) : sget j u.fibres = sget j v.fibres := by
    rw [← hu]
    unfold Wave.fork
    dsimp only
    rw [sget_smod_ne h1, sget_sput_ne h2]
  have hlive (j i : Nat) (f' : Fibre) (hf' : sget i W.fibres = some f') : i ≠ e := by
    intro hie
    rw [hie, hempty e (List.mem_of_getElem? he)] at hf'
    cases hf'
  have hnot (i : Nat) (j : Nat) (hj : l[j]? = some i) : i ≠ k := fun hik => hk (hik ▸ List.mem_of_getElem? hj)
  have hlen : (l ++ [k]).length = l.length + 1 := by simp
  refine ⟨(modWave t b.wk (Wave.fork x tgt (childIndex W (W.forkSerial + l.length)) f k e)).withContexts cs, ?_, ?_, ?_, ?_, ?_, ?_, ?_, ?_, ?_⟩
  · rw [List.foldl_append, hsteps, List.foldl_cons, List.foldl_nil, hlen, List.drop_eq_getElem_cons hlt, hget, hone]
  · exact (sget_smod_self _ _ _).trans (by rw [hwave, ← hu]; rfl)
  · rw [← hu]
    exact hcalm
  · rw [hlen, Nat.min_eq_left hlt, ← hu]
    exact congrArg (· + 1) hser
  · intro j i f' hj hf'
    obtain hj | ⟨rfl, rfl⟩ := getElem?_snoc hj
    · rw [hother i (hnot i j hj) (hlive j i f' hf'), hparents j i f' hj hf']
    · rw [hself, ← Option.some.inj (hf.symm.trans hf'), decide_eq_true hlt]
  · intro j i d f' hj hd hf'
    obtain hj | ⟨rfl, rfl⟩ := getElem?_snoc hj
    · have hjl := (List.getElem?_eq_some_iff.1 hj).1
      have hde : d ≠ e := by
        intro hde
        obtain ⟨hd1, hd2⟩ := List.getElem?_eq_some_iff.1 hd
        have := (hnodup.getElem_inj_iff (hi := hd1) (hj := hlt)).1 (hd2.trans (hde.trans hget.symm))
        omega
      rw [hother d (hke j d hd).symm hde, hchildren j i d f' hj hd hf']
    · obtain rfl : e = d := Option.some.inj (he.symm.trans hd)
      rw [hnew, Option.some.inj (hf.symm.trans hf')]
  · intro i hi hti
    have hik : i ≠ k := fun hik => hi (by simp [hik])
    have htake : empty.take (l ++ [k]).length = empty.take l.length ++ [e] := by
      rw [hlen, List.take_add_one, he]
      rfl
    rw [htake] at hti
    have hie : i ≠ e := fun hie => hti (by simp [hie])
    rw [hother i hik hie, hfibres i (fun hl => hi (List.mem_append_left _ hl)) (fun ht => hti (List.mem_append_left _ ht))]
  · intro j hj
    exact (sget_smod_ne hj _ _).trans (hwaves j hj)
  · exact (congrArg (fun u : State => u) hrest :)

/-- The wave after one more fibre has found no slot. -/
theorem Forked.full {B t : State} {b : Bundle} {x : BR} {tgt : W64} {W v : Wave} {empty l : List Nat} {k : Nat} {f : Fibre}
    (h : Forked B b x tgt W empty l t v) (hk : k ∉ l) (hf : sget k W.fibres = some f) (hempty : ∀ e ∈ empty, sget e W.fibres = none)
    (he : empty.length ≤ l.length) :
    ∃ u, Forked B b x tgt W empty (l ++ [k]) u (v.put k (fun f => f.setP (x.vb.extractLsb' 4 4) false)) := by
  have hkv := h.unforked hk hf hempty
  obtain ⟨hsteps, hwave, hcalm, hser, hparents, hchildren, hfibres, hwaves, hrest⟩ := h
  have hone := forkOne_full x tgt hwave hkv
  have hlen : (l ++ [k]).length = l.length + 1 := by simp
  have htake : empty.take (l ++ [k]).length = empty.take l.length := by
    rw [List.take_of_length_le (by omega), List.take_of_length_le he]
  have hne (i : Nat) (hi : i ≠ k) : sget i (v.put k (fun f => f.setP (x.vb.extractLsb' 4 4) false)).fibres = sget i v.fibres := by
    unfold Wave.put
    dsimp only
    rw [sget_smod_ne hi]
  refine ⟨modFibre t b.wk k (fun f => f.setP (x.vb.extractLsb' 4 4) false), ?_, ?_, hcalm, ?_, ?_, ?_, ?_, ?_, hrest⟩
  · rw [List.foldl_append, hsteps, List.foldl_cons, List.foldl_nil, List.drop_of_length_le he, hone, List.drop_of_length_le (by omega)]
  · rw [modFibre_put, sget_modWave_self, hwave]
    rfl
  · rw [hlen, Nat.min_eq_right (by omega), ← Nat.min_eq_right he]
    exact hser
  · intro j i f' hj hf'
    obtain hj | ⟨rfl, rfl⟩ := getElem?_snoc hj
    · rw [hne i (fun hik => hk (hik ▸ List.mem_of_getElem? hj)), hparents j i f' hj hf']
    · rw [put_self, hkv, ← Option.some.inj (hf.symm.trans hf'), decide_eq_false (by omega)]
      rfl
  · intro j i d f' hj hd hf'
    have hjd := (List.getElem?_eq_some_iff.1 hd).1
    have hdk : d ≠ k := by
      intro hdk
      have := hempty d (List.mem_of_getElem? hd)
      rw [hdk, hf] at this
      cases this
    obtain hj | ⟨rfl, rfl⟩ := getElem?_snoc hj
    · rw [hne d hdk, hchildren j i d f' hj hd hf']
    · omega
  · intro i hi hti
    rw [htake] at hti
    rw [hne i (fun hik => hi (by simp [hik])), hfibres i (fun hl => hi (List.mem_append_left _ hl)) hti]
  · intro j hj
    rw [modFibre_put, sget_modWave_ne hj]
    exact hwaves j hj

/-- Forking fibre by fibre. -/
theorem forked {B : State} {b : Bundle} (x : BR) (tgt : W64) {W : Wave} {empty : List Nat} (hW : sget b.wk B.waves = some W)
    (hempty : ∀ e ∈ empty, sget e W.fibres = none) (hnodup : empty.Nodup) (l : List Nat) (hl : l.Nodup) (hf : ∀ k ∈ l, ∃ f, sget k W.fibres = some f)
    (hserial : W.forkSerial + min l.length empty.length ≤ 2 ^ 26) : ∃ t v, Forked B b x tgt W empty l t v := by
  induction l using List.reverseRecOn with
  | nil =>
    exact ⟨B, W, rfl, hW, rfl, by simp, fun j k f hj => by simp at hj, fun j k e f hj => by simp at hj, fun _ _ _ => rfl, fun _ _ => rfl, rfl⟩
  | append_singleton l k ih =>
    obtain ⟨hl', -, hkl⟩ := List.nodup_append.1 hl
    have hk : k ∉ l := fun hk => hkl k hk k (by simp) rfl
    obtain ⟨f, hfk⟩ := hf k (by simp)
    rw [List.length_append, List.length_singleton] at hserial
    obtain ⟨t, v, h⟩ := ih hl' (fun k hk => hf k (List.mem_append_left _ hk)) (by omega)
    by_cases he : empty.length ≤ l.length
    · obtain ⟨u, hu⟩ := h.full hk hfk hempty he
      exact ⟨u, _, hu⟩
    · have hlt : l.length < empty.length := by omega
      obtain ⟨u, hu⟩ := h.child hk hfk hempty hnodup (List.getElem?_eq_getElem hlt) (by omega)
      exact ⟨u, _, hu⟩

/-- An instruction of a control class takes no port of its cluster. -/
theorem begun_sameClusters (s : State) (w : Wave) (b : Bundle) (i : Instr) {f : Form} (hf : f.cls = 6) : (begun s w b i f).clusters = s.clusters := by
  have hc (t : State) : (countIssue t b.wk w).clusters = t.clusters := by unfold countIssue; split <;> rfl
  change (resources s b.wk w i f b.all b.act).clusters = s.clusters
  unfold resources
  rw [hf]
  dsimp only
  split
  · split
    · exact hc s
    · exact hc s
  · exact hc s

/-- `fork` creates the children of its passing fibres, in the empty slots in ascending order. -/
theorem fork_completes {s : State} {g : Guard} {x : BR} {z : Site} (h : Ready s (.fork g x) g .none z)
    (hgood : goodTarget ((z.bundle g).place.hdr + 8 * x.disp.signExtend 64) = true) {empty : List Nat}
    (hempty : empty = (List.range 32).filter (fun e => !(skeys z.w.fibres).contains e))
    (hserial : z.w.forkSerial + min (z.bundle g).act.length empty.length ≤ 2 ^ 26) :
    ∃ t v, exec (.fork g x) s = .next (endIssue t (z.bundle g))
      ∧ Forked (begun s z.w (z.bundle g) (.fork g x) z.f) (z.given g []) x ((z.bundle g).place.hdr + 8 * x.disp.signExtend 64)
          (begunWave z.w (z.bundle g)) empty (z.bundle g).act t v := by
  have hkeys : skeys (begunWave z.w (z.bundle g)).fibres = skeys z.w.fibres := by
    unfold begunWave skeys
    dsimp only
    rw [List.map_map]
    refine List.map_congr_left fun e _ => ?_
    simp only [Function.comp_apply]
    split <;> rfl
  have hnone (e : Nat) (he : e ∈ empty) : sget e (begunWave z.w (z.bundle g)).fibres = none := by
    rw [hempty, List.mem_filter, ← hkeys] at he
    exact sget_eq_none_iff.2 (by simpa using he.2)
  obtain ⟨t, v, hfork⟩ := forked (b := z.given g []) x ((z.bundle g).place.hdr + 8 * x.disp.signExtend 64) (begun_wave_given h) hnone
    (hempty ▸ List.nodup_range.filter _) (z.bundle g).act (act_nodup z g) (fun k hk => by
      obtain ⟨y, hy⟩ := act_fibre hk
      exact ⟨_, fibre_begun hk hy⟩) hserial
  refine ⟨t, v, (performed h rfl rfl rfl).trans ?_, hfork⟩
  have hbody : forkBody x (z.given g []) (begun s z.w (z.bundle g) (.fork g x) z.f) = t := by
    unfold forkBody
    rw [begun_wave_given h]
    dsimp only
    rw [Option.map_some, Option.getD_some, hkeys, ← hempty]
    have hgood' : goodTarget (dispTarget (z.given g []) x.disp) = true := hgood
    rw [hgood']
    exact congrArg Prod.fst hfork.steps
  rw [hbody]

theorem childIndex_begun (w : Wave) (b : Bundle) (n : Nat) : childIndex (begunWave w b) n = BitVec.ofNat 32 (2 ^ 31 + w.widx * 2 ^ 26 + n) := by
  unfold childIndex begunWave
  dsimp only

/-- What a fibre's predicate update leaves it, seen from the wave at its issue. -/
theorem fork_frame {s : State} {i : Instr} {z : Site} {g : Guard} {t : State} (hcls : z.f.cls = 6)
    (h : { t with waves := (begun s z.w (z.bundle g) i z.f).waves, contexts := (begun s z.w (z.bundle g) i z.f).contexts }
      = begun s z.w (z.bundle g) i z.f) :
    { endIssue t (z.bundle g) with waves := s.waves, cores := s.cores, dynW := s.dynW, contexts := s.contexts } = s := by
  have h1 : { t with waves := s.waves, cores := s.cores, dynW := s.dynW, contexts := s.contexts }
      = { begun s z.w (z.bundle g) i z.f with waves := s.waves, cores := s.cores, dynW := s.dynW } :=
    (congrArg (fun u : State => { u with waves := s.waves, cores := s.cores, dynW := s.dynW, contexts := s.contexts }) h :)
  have h2 : { begun s z.w (z.bundle g) i z.f with waves := s.waves, cores := s.cores, dynW := s.dynW } = s := by
    have hrest := begun_rest s z.w (z.bundle g) i z.f
    have hcl := begun_sameClusters s z.w (z.bundle g) i hcls
    generalize begun s z.w (z.bundle g) i z.f = B at hrest hcl ⊢
    rw [← hcl] at hrest
    exact hrest
  rw [← h2, ← h1]
  unfold endIssue
  split <;> rfl

/-- Settles O20: `fork` fills the empty slots in order; `exit` empties the slots of the passing fibres. -/
theorem fibreCreationAndEnd : Obligations.FibreCreationAndEnd := by
  intro s g x z b after
  refine ⟨?_, exit_completes⟩
  intro empty kids tgt pS n h hgood hserial
  obtain ⟨t, v, hexec, hfork⟩ := fork_completes h hgood rfl hserial
  have hcls : z.f.cls = 6 := by rw [form_is h rfl]; rfl
  have hcount : forkCount x = n := by simp only [forkCount, n, beq_iff_eq]
  obtain ⟨-, hwave, hcalm, hser, hparents, hchildren, hfibres, hwaves, hrest⟩ := hfork
  rw [hcount] at hchildren
  have hfinal := (endIssue_at t (z.bundle g)).trans (congrArg (Option.map _) hwave)
  have hfib (c : Prop) [Decidable c] (u : Wave) : (if c then { u with clause := none, paired := none } else u).fibres = u.fibres := by split <;> rfl
  refine ⟨_, _, hexec, hfinal, fun j k e y hj he hy => ⟨?_, ?_⟩, fun j k y hj hlen hy => ?_, fun k hk hke => ?_, ?_, ?_, ?_, ?_, fun j hj => ?_,
    fork_frame hcls hrest⟩
  · have := hparents j k _ hj (fibre_begun (List.mem_of_getElem? hj) hy)
    rw [hfib, this, decide_eq_true (List.getElem?_eq_some_iff.1 he).1]
  · have hc := hchildren j k e _ hj he (fibre_begun (List.mem_of_getElem? hj) hy)
    rw [show (begunWave z.w (z.bundle g)).forkSerial = z.w.forkSerial from rfl, childIndex_begun] at hc
    rw [hfib]
    exact ⟨_, hc, child_fields _ _ _ _ _ _ _ _ _⟩
  · have := hparents j k _ hj (fibre_begun (List.mem_of_getElem? hj) hy)
    rw [hfib, this, decide_eq_false (Nat.not_lt.2 hlen)]
  · have htake : empty.take (z.bundle g).act.length = empty.take kids := by
      refine List.take_eq_take_iff.2 ?_
      change min (z.bundle g).act.length empty.length = min (min (z.bundle g).act.length empty.length) empty.length
      omega
    rw [hfib, hfibres k hk (htake ▸ hke), begunWave_fibre]
  · have : v.forkSerial = z.w.forkSerial + kids := hser
    split <;> exact this
  · have : v.g = z.w.g := (congrArg Wave.g hcalm :)
    split <;> exact this
  · have : v.flags = z.w.flags := (congrArg Wave.flags hcalm :)
    split <;> exact this
  · have hcl : v.clause = (begunWave z.w (z.bundle g)).clause := (congrArg Wave.clause hcalm :)
    split
    · next hlast => unfold clauseAfter; rw [if_pos hlast]
    · next hlast => rw [hcl, begun_clause h _ hlast]
  · rw [endIssue_wave_ne t (z.bundle g) hj, hwaves j hj, begun_waves]
    exact sget_smod_ne hj _ _

end Sys2Proof.Machine
end

section
/-! SUPPORT. What the service engine does with its requests (O46). -/

namespace Sys2Proof.Machine

/-! ### Requests and their answers (R204, R440) -/

/-- The request `n` is `r'` in `t`, and the others are those of `s`. -/
def OnlyReq (s t : State) (n : Nat) (r' : SenReq) : Prop := sget n t.reqs = some r' ∧ ∀ j, j ≠ n → sget j t.reqs = sget j s.reqs

theorem onlyReq_modReq {s u : State} {n : Nat} {r : SenReq} (hr : sget n s.reqs = some r) (hu : u.reqs = s.reqs) (f : SenReq → SenReq) :
    OnlyReq s (modReq u n f) n (f r) := by
  unfold OnlyReq modReq
  dsimp only
  rw [hu]
  exact ⟨by rw [sget_smod_self, hr]; rfl, fun j hj => sget_smod_ne hj _ _⟩

/-- A request with its answer: a status and two result words. -/
def SenReq.answered (r : SenReq) (a b c : Nat) : SenReq :=
  { r with result := some [BitVec.ofNat 32 a, BitVec.ofNat 32 b, BitVec.ofNat 32 c, 0], wait := none }

theorem answerWords {ws : List Nat} (h : ws.length ≤ 3) : (List.range 4).map (fun i => BitVec.ofNat 32 (ws.getD i 0))
    = [BitVec.ofNat 32 (ws.getD 0 0), BitVec.ofNat 32 (ws.getD 1 0), BitVec.ofNat 32 (ws.getD 2 0), 0] := by
  have h3 : ws.getD 3 0 = 0 := List.getD_eq_default _ _ h
  change [BitVec.ofNat 32 (ws.getD 0 0), BitVec.ofNat 32 (ws.getD 1 0), BitVec.ofNat 32 (ws.getD 2 0), BitVec.ofNat 32 (ws.getD 3 0)] = _
  rw [h3]
  rfl

/-- The answer of a request that owns no line. -/
theorem answerReq_unowned {s : State} {n : Nat} {r : SenReq} (hr : sget n s.reqs = some r) (how : r.own = []) {ws : List Nat} (h : ws.length ≤ 3) :
    answerReq s n ws = modReq s n (fun r => r.answered (ws.getD 0 0) (ws.getD 1 0) (ws.getD 2 0)) := by
  unfold answerReq disown
  rw [hr, Option.map_some, Option.getD_some, how, answerWords h]
  rfl

/-- A request that the gate passed and that is not answered is served. -/
theorem serve_runs {s : State} {n : Nat} {r : SenReq} (hr : sget n s.reqs = some r) (hp : r.passed = true) (hi : r.issued = false)
    (hres : r.result = none) (hor : r.orphan = false) {svc : Nat} (hsvc : bits r.cap.toNat 16 8 = svc) {code : Nat} (hcode : r.code.toNat = code)
    (run : SenReq → State) : serve s n svc code run = .next (run r) := by
  unfold serve
  rw [hr]
  simp [hp, hi, hres, hor, hsvc, hcode]

/-! ### Delivering an answer (R204) -/

theorem sdel_smod {α : Type} (k : Nat) (f : α → α) (m : Sparse α) : sdel k (smod k f m) = sdel k m := by
  induction m with
  | nil => rfl
  | cons e m ih =>
    unfold sdel smod at ih ⊢
    rw [List.map_cons, List.filter_cons, List.filter_cons, ih]
    by_cases he : e.1 = k
    · simp [he]
    · simp [he]

/-- A change of an operation that is about to end does not matter where its wave and flag stay. -/
theorem endOp_modOp {s : State} {n : Nat} {o : Op} (ho : sget n s.ops = some o) {f : Op → Op} (hf : (f o).wave = o.wave ∧ (f o).flag = o.flag) :
    endOp (modOp s n f) n = endOp s n := by
  rw [endOp_of (modOp_at ho f), endOp_of ho, hf.1, hf.2]
  unfold modOp
  dsimp only
  rw [sdel_smod]

/-- The state after a request of a fibre is removed. -/
def dropped (s : State) (n : Nat) (r : SenReq) : State :=
  { s with reqs := sdel n s.reqs
           contexts := if r.storage && decide (r.code.toNat ≤ 1) then (tagDrop s r.ctx r.tag.toNat).contexts else s.contexts }

theorem dropReq_unowned {s : State} {n : Nat} {r : SenReq} (hr : sget n s.reqs = some r) (how : r.own = []) : dropReq s n = dropped s n r := by
  unfold dropReq dropped disown
  rw [hr]
  dsimp only
  rw [how]
  simp only [List.isEmpty_nil, if_true]
  split <;> rfl

/-- A request that is answered is removed, and the last of an operation's ends the operation. -/
theorem capinvComplete_ends {s : State} {n : Nat} {r : SenReq} (hr : sget n s.reqs = some r) (hor : r.orphan = false) {o : Op} {p : CapReq}
    (ho : sget r.op s.ops = some o) (hk : o.kind = .capinv [p]) (hp : p.req = n) {ws : List W32} (hans : r.answer = some ws) (how : r.own = []) :
    ∃ t, exec (.capinvComplete n) s = .next t ∧ t.reqs = sdel n s.reqs
      ∧ t.contexts = (if r.storage && decide (r.code.toNat ≤ 1) then (tagDrop s r.ctx r.tag.toNat).contexts else s.contexts)
      ∧ Ended { s with reqs := t.reqs, contexts := t.contexts } t r.op o
          (fun k y => if k = p.slot then ws.zipIdx.foldl (fun y x => y.setV (p.vr + x.2) x.1) y else y) id := by
  let give (y : Fibre) : Fibre := ws.zipIdx.foldl (fun y x => y.setV (p.vr + x.2) x.1) y
  have hexec : exec (.capinvComplete n) s = .next (complete (modWave (dropped s n r) o.wave (Wave.put p.slot give)) r.op) := by
    change execCapinvComplete n s = _
    unfold execCapinvComplete giveAnswer
    rw [hr]
    dsimp only
    rw [hor, if_neg Bool.false_ne_true, hans, ho]
    dsimp only
    rw [hk]
    simp only [List.filter_cons, List.filter_nil, hp, decide_true, if_true, bne_self_eq_false, Bool.false_eq_true, if_false, List.foldl_cons,
      List.foldl_nil, List.isEmpty_nil]
    rw [dropReq_unowned (show sget n (modFibre s o.wave p.slot give).reqs = some r from hr) how]
    unfold complete
    rw [endOp_modOp (show sget r.op (dropped (modFibre s o.wave p.slot give) n r).ops = some o from ho) ⟨rfl, rfl⟩]
    rfl
  have hended := ended_complete (s := dropped s n r) (n := r.op) (o := o) ho (H := Wave.put p.slot give) (gx := id)
    (fx := fun k y => if k = p.slot then give y else y) (fun w x => ?_) (fun _ => rfl) (fun _ => rfl)
  · refine ⟨_, hexec, ?_, ?_, ?_⟩
    · exact (congrArg State.reqs hended.rest :)
    · exact (congrArg State.contexts hended.rest :)
    · rw [show (complete (modWave (dropped s n r) o.wave (Wave.put p.slot give)) r.op).reqs = (dropped s n r).reqs from (congrArg State.reqs hended.rest :),
        show (complete (modWave (dropped s n r) o.wave (Wave.put p.slot give)) r.op).contexts = (dropped s n r).contexts from (congrArg State.contexts hended.rest :)]
      exact hended
  · unfold Wave.put
    dsimp only
    by_cases hx : x = p.slot
    · rw [hx, sget_smod_self]; simp
    · rw [sget_smod_ne hx]; simp [hx]

/-! ### Completions (R441) -/

/-- Where nothing waits for memory, the answer of a request also gives up its lines, and nothing else differs. -/
theorem answerReq_quiet {s : State} (hq : Quiet s) {n : Nat} {r : SenReq} (hr : sget n s.reqs = some r) {ws : List Nat} (h : ws.length ≤ 3) :
    OnlyReq s (answerReq s n ws) n { r.answered (ws.getD 0 0) (ws.getD 1 0) (ws.getD 2 0) with own := [] }
      ∧ { answerReq s n ws with reqs := s.reqs } = s := by
  let ans (r : SenReq) : SenReq := r.answered (ws.getD 0 0) (ws.getD 1 0) (ws.getD 2 0)
  have hans : answerReq s n ws = disown (modReq s n ans) n r.own := by
    unfold answerReq
    rw [hr, answerWords h]
    rfl
  have hgone : disown (modReq s n ans) n r.own = modReq s n (fun r => { ans r with own := [] }) ∨
      (r.own = [] ∧ disown (modReq s n ans) n r.own = modReq s n ans) := by
    unfold disown
    cases hown : r.own with
    | nil => exact .inr ⟨rfl, rfl⟩
    | cons a l =>
      refine .inl ?_
      have hq' : Quiet (modReq (modReq s n ans) n (fun r => { r with own := [] })) := ⟨hq.ops, hq.silt, hq.mats, hq.orders, hq.fibres⟩
      rw [if_neg (by simp), hq'.retryEverything_same]
      unfold modReq
      dsimp only
      rw [smod_smod]
  rw [hans]
  obtain hgone | ⟨hown, hgone⟩ := hgone
  · rw [hgone]
    exact ⟨onlyReq_modReq hr rfl _, rfl⟩
  · rw [hgone]
    have hsame : ({ ans r with own := [] } : SenReq) = ans r := by
      rw [show ([] : List Nat) = (ans r).own from hown.symm]
    exact ⟨hsame ▸ onlyReq_modReq hr rfl ans, rfl⟩

/-- A write where no window stands before memory. -/
theorem writeBytes_putAll {s : State} (h : ∀ e ∈ s.gangs, e.2.windows = []) (cells : List Host.Cell) (pois : Bool) :
    writeBytes s cells pois = s.withMem (putAll s.mem cells) (poisonAfter s.memPois (cells.map (·.1)) pois) := by
  have hput (l : List Host.Cell) (t : State) : l.foldl (fun s c => pPut s c.1 c.2) t = t.withMem (putAll t.mem l) t.memPois := by
    induction l generalizing t with
    | nil => rfl
    | cons c l ih => rw [List.foldl_cons, ih]; rfl
  unfold writeBytes
  rw [snoop_open h]
  dsimp only
  rw [hput]
  rfl

/-- Data that land in distinct bytes. -/
theorem writeBytes_lands {s : State} (h : ∀ e ∈ s.gangs, e.2.windows = []) {pas : List Nat} (hn : pas.Nodup) (data : List Byte) (pois : Bool) :
    (∀ (j a : Nat) (x : Byte), pas[j]? = some a → data[j]? = some x → pByte (writeBytes s (pas.zip data) pois) a = x)
      ∧ ∀ p, p ∉ pas → pByte (writeBytes s (pas.zip data) pois) p = pByte s p := by
  rw [writeBytes_putAll h]
  refine ⟨fun j a x ha hx => ?_, fun p hp => ?_⟩
  · refine putAll_named (fun c hc hca => ?_) ⟨(a, x), List.mem_iff_getElem?.2 ⟨j, ?_⟩, rfl⟩
    · obtain ⟨i, hi⟩ := List.mem_iff_getElem?.1 hc
      rw [List.getElem?_zip_eq_some] at hi
      obtain ⟨hpa, hda⟩ := hi
      rw [hca] at hpa
      have hij : i = j := (List.getElem?_inj (List.getElem?_eq_some_iff.1 hpa).1 hn).1 (hpa.trans ha.symm)
      rw [hij, hx] at hda
      exact (Option.some.inj hda).symm
    · rw [List.getElem?_zip_eq_some]
      exact ⟨ha, hx⟩
  · exact putAll_other fun c hc hcp => hp (hcp ▸ (List.of_mem_zip (a := c.1) (b := c.2) hc).1)

/-- A completion answers its request; the data of a read land in its buffer. -/
theorem nvmeCompletion_answers {s : State} {n : Nat} {r : SenReq} (hr : sget n s.reqs = some r) (hor : r.orphan = false) (hi : r.issued = true)
    (hres : r.result = none) (hq : Quiet s) (hw : ∀ g ∈ s.gangs, g.2.windows = []) (status blocks : W32) (data : List Byte) :
    ∃ t, exec (.nvmeCompletion n status blocks data) s = .next t
      ∧ OnlyReq s t n { r with pinned := [], own := [], result := some [0, status, if r.code = 2 then 0 else blocks, 0], wait := none }
      ∧ (r.code ≠ 0 → { t with reqs := s.reqs } = s)
      ∧ (r.code = 0 → r.bufBytes.Nodup → (∀ (j a : Nat) (x : Byte), r.bufBytes[j]? = some a → data[j]? = some x → pByte t a = x)
        ∧ (∀ p, p ∉ r.bufBytes → pByte t p = pByte s p) ∧ { t with reqs := s.reqs, mem := s.mem, memPois := s.memPois } = s) := by
  let u : State := if r.code = 0 then writeBytes s (r.bufBytes.zip data) false else s
  let v : State := modReq u n (fun r => { r with pinned := [] })
  have hu : ∃ m q, u = s.withMem m q := by
    by_cases hc : r.code = 0
    · exact ⟨_, _, (if_pos hc).trans (writeBytes_putAll hw _ _)⟩
    · exact ⟨s.mem, s.memPois, if_neg hc⟩
  have hur : u.reqs = s.reqs := by
    obtain ⟨m, q, hm⟩ := hu
    rw [hm]
    rfl
  obtain ⟨hv, hreqs⟩ := onlyReq_modReq hr hur (fun r => { r with pinned := [] })
  have hqv : Quiet v := by
    obtain ⟨m, q, hm⟩ := hu
    have hvm : v = modReq (s.withMem m q) n (fun r => { r with pinned := [] }) := congrArg (fun u => modReq u n (fun r => { r with pinned := [] })) hm
    rw [hvm]
    exact ⟨hq.ops, hq.silt, hq.mats, hq.orders, hq.fibres⟩
  obtain ⟨honly, hrest⟩ := answerReq_quiet hqv hv (ws := [0, status.toNat, if r.code = 2 then 0 else blocks.toNat]) (Nat.le_refl 3)
  have hexec : exec (.nvmeCompletion n status blocks data) s = .next (answerReq v n [0, status.toNat, if r.code = 2 then 0 else blocks.toNat]) := by
    change execNvmeCompletion n status blocks data s = _
    unfold execNvmeCompletion
    rw [hr]
    dsimp only
    rw [hi, hres, hor]
    rfl
  generalize answerReq v n [0, status.toNat, if r.code = 2 then 0 else blocks.toNat] = t at honly hrest hexec
  have htu : { t with reqs := u.reqs } = u := (congrArg (fun x : State => { x with reqs := u.reqs }) hrest :)
  refine ⟨t, hexec, ⟨?_, fun j hj => (honly.2 j hj).trans (hreqs j hj)⟩, fun hc => ?_, fun hc hn => ?_⟩
  · have hblocks : BitVec.ofNat 32 (if r.code = 2 then 0 else blocks.toNat) = if r.code = 2 then 0 else blocks := by
      split
      · rfl
      · simp
    have hwords : [BitVec.ofNat 32 0, BitVec.ofNat 32 status.toNat, BitVec.ofNat 32 (if r.code = 2 then 0 else blocks.toNat), 0]
        = [0, status, if r.code = 2 then 0 else blocks, 0] := by
      rw [hblocks, BitVec.ofNat_toNat, BitVec.setWidth_eq]
      rfl
    exact honly.1.trans (congrArg (fun l => some { r with pinned := [], own := [], result := some l, wait := none }) hwords)
  · have hus : u = s := if_neg hc
    rw [hus] at htu
    exact htu
  · have hus : u = writeBytes s (r.bufBytes.zip data) false := if_pos hc
    have hbyte (p : Nat) : pByte t p = pByte u p := (congrArg (fun x : State => pByte x p) htu :)
    obtain ⟨hin, hout⟩ := writeBytes_lands hw hn data false
    rw [← hus] at hin hout
    refine ⟨fun j a x ha hx => (hbyte a).trans (hin j a x ha hx), fun p hp => (hbyte p).trans (hout p hp), ?_⟩
    obtain ⟨m, q, hm⟩ := hu
    rw [hm] at htu
    exact (congrArg (fun x : State => { x with reqs := s.reqs, mem := s.mem, memPois := s.memPois }) htu :)

/-! ### Storage commands (R440, R441) -/

/-- A read or a write whose checks pass and whose buffer is served and not owned leaves with its pages pinned. -/
theorem storage_goes {s : State} {n : Nat} {need : Need} {go : SenReq → State → State} {r : SenReq} {pas : List Nat} (hgood : storageGood s r = true)
    (hwait : r.wait = none) (hphys : physical s none r.ctx need true r.tag.toNat r.agent (ptrRid r.buf) r.bufPages = (s, .ok pas))
    (hown : memOwned s (some r.op) ({ r with pinned := pas.map (fun a => a - a % 4096) } : SenReq).bufBytes = false) :
    storage n need s go r = go { r with pinned := pas.map (fun a => a - a % 4096) }
      (modReq s n (fun _ => { r with pinned := pas.map (fun a => a - a % 4096), issued := true })) := by
  unfold storage
  rw [if_neg (by rw [hgood, hwait]; decide), if_neg (by rw [hwait]; decide), hphys]
  dsimp only
  rw [if_neg (by rw [hown]; exact Bool.false_ne_true)]

/-- What a request's command leaves. -/
theorem nvme_leaves {s : State} {n : Nat} {r : SenReq} (hr : sget n s.reqs = some r) (f : SenReq → SenReq) (x : List Out) :
    OnlyReq s { modReq s n f with out := s.out ++ x } n (f r) ∧ { { modReq s n f with out := s.out ++ x } with reqs := s.reqs, out := s.out } = s :=
  ⟨onlyReq_modReq hr rfl f, rfl⟩

theorem wr_reqs {s : State} (hw : ∀ g ∈ s.gangs, g.2.windows = []) (a n x : Nat) : (wr s a n x).reqs = s.reqs :=
  (congrArg State.reqs (takes_wr hw a n x).2.2 :)

section Served

variable {s : State} {n : Nat} {r : SenReq} (hr : sget n s.reqs = some r) (hor : r.orphan = false) (hp : r.passed = true) (hi : r.issued = false)
  (hres : r.result = none)
include hr hor hp hi hres

theorem storageRead_leaves {pas : List Nat} (hsvc : bits r.cap.toNat 16 8 = 2) (hcode : r.code = 0) (hgood : storageGood s r = true) (hwait : r.wait = none)
    (hphys : physical s none r.ctx .write true r.tag.toNat r.agent (ptrRid r.buf) r.bufPages = (s, .ok pas))
    (hown : memOwned s (some r.op) ({ r with pinned := pas.map (fun a => a - a % 4096) } : SenReq).bufBytes = false) :
    exec (.storageRead n) s = .next { modReq s n (fun _ => { r with pinned := pas.map (fun a => a - a % 4096), issued := true }) with
      out := s.out ++ [.nvme n 0 r.nsid (r.lba + r.arg2 0) (r.arg 2) []] } := by
  refine (serve_runs hr hp hi hres hor hsvc (by rw [hcode]; rfl) _).trans (congrArg Host.Outcome.next ?_)
  rw [storage_goes hgood hwait hphys hown]
  rfl

theorem storageWrite_leaves {pas : List Nat} (hsvc : bits r.cap.toNat 16 8 = 2) (hcode : r.code = 1) (hgood : storageGood s r = true) (hwait : r.wait = none)
    (hw : ∀ g ∈ s.gangs, g.2.windows = [])
    (hphys : physical s none r.ctx .read true r.tag.toNat r.agent (ptrRid r.buf) r.bufPages = (s, .ok pas))
    (hown : memOwned s (some r.op) ({ r with pinned := pas.map (fun a => a - a % 4096) } : SenReq).bufBytes = false) :
    exec (.storageWrite n) s = .next { modReq s n (fun _ => { r with pinned := pas.map (fun a => a - a % 4096), issued := true }) with
      out := s.out ++ [.nvme n 1 r.nsid (r.lba + r.arg2 0) (r.arg 2)
        (({ r with pinned := pas.map (fun a => a - a % 4096) } : SenReq).bufBytes.map (pByte s))] } := by
  refine (serve_runs hr hp hi hres hor hsvc (by rw [hcode]; rfl) _).trans (congrArg Host.Outcome.next ?_)
  rw [storage_goes hgood hwait hphys hown]
  unfold readBytes
  dsimp only
  rw [snoop_open (show ∀ g ∈ (modReq s n _).gangs, g.2.windows = [] from hw)]
  rfl

theorem storageFlush_leaves (hsvc : bits r.cap.toNat 16 8 = 2) (hcode : r.code = 2) (hz : r.zeros 0 8 = true) :
    exec (.storageFlush n) s = .next { modReq s n (fun r => { r with issued := true }) with out := s.out ++ [.nvme n 2 r.nsid 0 0 []] } := by
  refine (serve_runs hr hp hi hres hor hsvc (by rw [hcode]; rfl) _).trans (congrArg Host.Outcome.next ?_)
  exact if_neg (by rw [hz]; decide)

/-! ### Queues of records (R362, R440) -/

variable (hown : r.own = []) (hsvc : bits r.cap.toNat 16 8 = 3) (hw : ∀ g ∈ s.gangs, g.2.windows = [])
include hown hsvc hw

/-- In `t` the byte at `a` is `m` and nothing else differs from `s` but requests, poison and the record queues, which are `qs`. -/
structure Counted (s t : State) (a m : Nat) (qs : Sparse RecQueue) : Prop where
  bytes : ∀ p, pByte t p = if p = a then BitVec.ofNat 8 m else pByte s p
  rest : { t with reqs := s.reqs, mem := s.mem, memPois := s.memPois, recQueues := s.recQueues } = s
  queues : t.recQueues = qs

omit hr hor hp hi hres hown hsvc in
/-- A count of a capability's entry is written. -/
theorem counted_wr (qs : Sparse RecQueue) (a m : Nat) (f : SenReq → SenReq) :
    Counted s (modReq (wr { s with recQueues := qs } a 1 m) n f) a m qs := by
  obtain ⟨hin, hout, hrest⟩ := takes_wr (s := { s with recQueues := qs }) hw a 1 m
  refine ⟨fun p => ?_, (congrArg (fun u : State => { u with reqs := s.reqs, recQueues := s.recQueues }) hrest :), (congrArg State.recQueues hrest :)⟩
  rw [toBytesLE_length] at hin hout
  change pByte (wr { s with recQueues := qs } a 1 m) p = _
  split
  · next hpa =>
    rw [hpa]
    have h0 := hin 0 (Nat.lt_succ_self 0)
    rw [Nat.add_zero] at h0
    rw [h0, toBytesLE_eq]
    simp
  · next hpa => exact hout p fun j hj => by omega

theorem queueCreate_answers {q : Nat} (hcode : r.code = 0) (h0 : r.arg 0 ≤ 63) (h4 : 4 ≤ r.arg 1) (h16 : r.arg 1 ≤ 16) (hz : r.zeros 4 8 = true)
    (hnq : rd s (r.entryAt s + 0x11) 1 < rd s (r.entryAt s + 0x10) 1) (hfree : freeKey s.recQueues 256 0 = some q) :
    ∃ t, exec (.queueCreate n) s = .next t ∧ OnlyReq s t n (r.answered 0 q 0)
      ∧ Counted s t (r.entryAt s + 0x11) (rd s (r.entryAt s + 0x11) 1 + 1)
        (sput q { ctx := r.ctx, key := BitVec.ofNat 64 (r.arg2 2), rsz := r.arg 0, c := r.arg 1, recs := [] } s.recQueues) := by
  let qs := sput q { ctx := r.ctx, key := BitVec.ofNat 64 (r.arg2 2), rsz := r.arg 0, c := r.arg 1, recs := [] } s.recQueues
  have hreq := wr_reqs (s := { s with recQueues := qs }) hw (r.entryAt s + 0x11) 1 (rd s (r.entryAt s + 0x11) 1 + 1)
  refine ⟨_, (serve_runs hr hp hi hres hor hsvc (by rw [hcode]; rfl) _).trans (congrArg Host.Outcome.next ?_),
    onlyReq_modReq hr hreq (fun r => r.answered 0 q 0), counted_wr hw qs _ _ _⟩
  dsimp only
  rw [if_neg, hfree]
  · exact answerReq_unowned ((congrArg (sget n) hreq).trans hr) hown (by simp)
  · simp only [hz, Bool.or_eq_true, decide_eq_true_eq, Bool.not_true, Bool.false_eq_true, not_or, Nat.not_lt, Nat.not_le, not_false_eq_true, and_true]
    omega

theorem queueDestroy_answers (hcode : r.code = 1) (hz : r.zeros 1 8 = true) (hq : queueOwned s (r.arg 0) r.ctx = true) :
    ∃ t, exec (.queueDestroy n) s = .next t ∧ OnlyReq s t n (r.answered 0 0 0)
      ∧ Counted s t (r.entryAt s + 0x11) (rd s (r.entryAt s + 0x11) 1 - 1) (sdel (r.arg 0) s.recQueues) := by
  have hreq := wr_reqs (s := { s with recQueues := sdel (r.arg 0) s.recQueues }) hw (r.entryAt s + 0x11) 1 (rd s (r.entryAt s + 0x11) 1 - 1)
  refine ⟨_, (serve_runs hr hp hi hres hor hsvc (by rw [hcode]; rfl) _).trans (congrArg Host.Outcome.next ?_),
    onlyReq_modReq hr hreq (fun r => r.answered 0 0 0), counted_wr hw _ _ _ _⟩
  dsimp only
  rw [if_neg (by rw [hz, hq]; decide)]
  exact answerReq_unowned ((congrArg (sget n) hreq).trans hr) hown (by simp)

end Served

/-! ### Allocation (R440) -/

section Allocation

variable {s : State} {n : Nat} {r : SenReq} (hr : sget n s.reqs = some r) (hor : r.orphan = false) (hp : r.passed = true) (hi : r.issued = false)
  (hres : r.result = none) (hown : r.own = []) (hsvc : bits r.cap.toNat 16 8 = 1)
include hr hor hp hi hres hown hsvc

/-- `map` uses the frames that back its pages and lowers the quota. -/
theorem allocationMap_answers {frames : List Nat} {u : State} {m : Nat} (hcode : r.code = 0) (hgood : rangeGood s r = true) (h3 : r.arg 3 < 16)
    (h03 : bits (r.arg 3) 0 2 ≠ 3) (hz : r.zeros 4 8 = true) (hquota : r.arg 2 ≤ rd s (r.entryAt s + 0x18) 8) (hframes : framesGood frames = true)
    (hw : ∀ g ∈ u.gangs, g.2.windows = []) (hreqs : u.reqs = s.reqs) (hentry : r.entryAt u = r.entryAt s)
    (hback : backPages r.ctx (0x25 + (if (r.arg 3).testBit 3 then 8 else 0) + bits (r.arg 3) 0 2 * 2 ^ 61 + (if (r.arg 3).testBit 2 then 2 ^ 63 else 0))
      r.pages s frames 0 = some (u, m)) :
    ∃ v, Takes u v (r.entryAt s + 0x18) (toBytesLE 8 (rd s (r.entryAt s + 0x18) 8 - r.arg 2))
      ∧ exec (.allocationMap n frames) s = .next (modReq v n (fun r => r.answered 0 m 0)) := by
  refine ⟨_, takes_wr hw _ _ _, (serve_runs hr hp hi hres hor hsvc (by rw [hcode]; rfl) _).trans (congrArg Host.Outcome.next ?_)⟩
  dsimp only
  rw [if_neg, if_neg (by rw [hframes]; decide), hback]
  · dsimp only
    rw [hentry]
    exact answerReq_unowned (by rw [wr_reqs hw, hreqs, hr]) hown (by simp)
  · simp only [hgood, hz, h03, Bool.or_eq_true, decide_eq_true_eq, Bool.not_true, Bool.false_eq_true, not_or, Nat.not_lt, Nat.not_le, not_false_eq_true,
      and_true, true_and]
    omega

end Allocation

/-- Table slots that are cleared. -/
theorem wr_slots {s : State} (hw : ∀ g ∈ s.gangs, g.2.windows = []) (slots : List Nat) :
    (∀ p, (∀ a ∈ slots, ∀ j < 8, p ≠ a + j) → pByte (slots.foldl (fun s a => wr s a 8 0) s) p = pByte s p)
      ∧ (∀ a ∈ slots, ∀ j < 8, pByte (slots.foldl (fun s a => wr s a 8 0) s) (a + j) = 0)
      ∧ { slots.foldl (fun s a => wr s a 8 0) s with mem := s.mem, memPois := s.memPois } = s := by
  have hzero : ∀ j < 8, (toBytesLE 8 0).getD j 0 = 0 := by decide
  induction slots using List.reverseRecOn with
  | nil => exact ⟨fun _ _ => rfl, fun a ha => by simp at ha, rfl⟩
  | append_singleton l b ih =>
    obtain ⟨hother, hcleared, hrest⟩ := ih
    rw [List.foldl_append, List.foldl_cons, List.foldl_nil]
    generalize l.foldl (fun s a => wr s a 8 0) s = t at hother hcleared hrest
    have hgangs : t.gangs = s.gangs := (congrArg State.gangs hrest :)
    obtain ⟨hin, hout, hkept⟩ := takes_wr (s := t) (by rw [hgangs]; exact hw) b 8 0
    rw [toBytesLE_length] at hin hout
    generalize wr t b 8 0 = v at hin hout hkept ⊢
    refine ⟨fun p hp => ?_, fun a ha j hj => ?_, ?_⟩
    · rw [hout p fun j hj => hp b (by simp) j hj]
      exact hother p fun a ha => hp a (List.mem_append_left _ ha)
    · by_cases hb : ∃ i < 8, a + j = b + i
      · obtain ⟨i, hi, hab⟩ := hb
        rw [hab, hin i hi, hzero i hi]
      · have hne : ∀ i < 8, a + j ≠ b + i := fun i hi hab => hb ⟨i, hi, hab⟩
        rw [hout _ hne]
        obtain hal | hab := List.mem_append.1 ha
        · exact hcleared a hal j hj
        · exact absurd (by rw [List.mem_singleton.1 hab]) (hne j hj)
    · exact (congrArg (fun v : State => { v with mem := s.mem, memPois := s.memPois }) hkept : _ = { t with mem := s.mem, memPois := s.memPois }).trans hrest

theorem recallWindows_open {s : State} (hw : ∀ g ∈ s.gangs, g.2.windows = []) (cov : Nat → Nat → Bool) : recallWindows s cov = s := by
  unfold recallWindows
  refine foldl_same _ _ _ fun g hg => ?_
  rw [hw g hg]
  rfl

/-- A core without the cached leaves that are dropped. -/
def Core.dropLeaves (leaf : TlbEntry → Bool) (c : Core) : Core := { c with tlb := c.tlb.filter (fun t => !leaf t) }

theorem dropCached_leaves (s : State) (leaf : TlbEntry → Bool) :
    dropCached s leaf (fun _ => false) = { s with cores := s.cores.map (fun e => (e.1, e.2.dropLeaves leaf)) } := by
  have hregions (l : List RegionEntry) : l.filter (fun _ => !false) = l := List.filter_eq_self.2 fun _ _ => rfl
  unfold dropCached Core.dropLeaves
  simp only [hregions]

theorem coreOf_dropCached (s : State) (leaf : TlbEntry → Bool) (k : Nat) :
    coreOf (dropCached s leaf (fun _ => false)) k = (coreOf s k).dropLeaves leaf := by
  rw [dropCached_leaves]
  unfold coreOf sgetD
  dsimp only
  rw [sget_map (fun _ => Core.dropLeaves leaf)]
  cases sget k s.cores <;> rfl

/-- The entry of a capability lies where it lay, where the context's record is not written. -/
theorem entryAt_same {s t : State} {r : SenReq} {c : Context} (hw : ∀ g ∈ s.gangs, g.2.windows = []) (h : Beside s t) (hc : sget r.ctx s.contexts = some c)
    (hb : ∀ p, c.recPa ≤ p → p < c.recPa + 256 → pByte t p = pByte s p) : r.entryAt t = r.entryAt s := by
  obtain ⟨c', hc', hpa⟩ := h.recPa hc
  unfold SenReq.entryAt
  rw [ctxRd_of hc, ctxRd_of hc', hpa, rd_same hw h fun p h1 h2 => hb p (by omega) (by omega)]

/-- What `unmap` leaves: the slots cleared, the quota raised, and the translations dropped from every core. -/
structure Unmapped (s t : State) (slots : List Nat) (leaf : TlbEntry → Bool) (q x : Nat) : Prop where
  cleared : ∀ a ∈ slots, ∀ j < 8, pByte t (a + j) = 0
  quota : ∀ j < 8, pByte t (q + j) = (toBytesLE 8 x).getD j 0
  bytes : ∀ p, (∀ a ∈ slots, ∀ j < 8, p ≠ a + j) → (∀ j < 8, p ≠ q + j) → pByte t p = pByte s p
  cores : ∀ k, coreOf t k = (coreOf s k).dropLeaves leaf
  rest : { t with reqs := s.reqs, mem := s.mem, memPois := s.memPois, cores := s.cores } = s
  reqs : t.reqs = s.reqs

/-- `unmap` clears its leaves, drops them from every core and gives their quota back. -/
theorem allocationUnmap_answers {s : State} {n : Nat} {r : SenReq} {c : Context} (hr : sget n s.reqs = some r) (hor : r.orphan = false)
    (hp : r.passed = true) (hi : r.issued = false) (hres : r.result = none) (hown : r.own = []) (hsvc : bits r.cap.toNat 16 8 = 1) (hcode : r.code = 1)
    (hgood : rangeGood s r = true) (hz : r.zeros 3 8 = true) (hw : ∀ g ∈ s.gangs, g.2.windows = []) (hc : sget r.ctx s.contexts = some c)
    {slots : List Nat} (hslots : slots = r.pages.filterMap (leafSlot s r.ctx))
    (hapart : ∀ a ∈ slots, (a + 8 ≤ r.entryAt s + 0x18 ∨ r.entryAt s + 0x20 ≤ a) ∧ (a + 8 ≤ c.recPa ∨ c.recPa + 256 ≤ a)) :
    ∃ v, exec (.allocationUnmap n) s = .next (modReq v n (fun r => r.answered 0 slots.length 0))
      ∧ Unmapped s v slots (fun t => t.ctx = r.ctx && t.page < bits (r.arg2 0) 0 57 + r.arg 2 && bits (r.arg2 0) 0 57 < t.page + 2 ^ t.bits)
        (r.entryAt s + 0x18) ((rd s (r.entryAt s + 0x18) 8 + 4096 * slots.length) % 2 ^ 64) := by
  let leaf (t : TlbEntry) : Bool := t.ctx = r.ctx && t.page < bits (r.arg2 0) 0 57 + r.arg 2 && bits (r.arg2 0) 0 57 < t.page + 2 ^ t.bits
  obtain ⟨hother, hcleared, hrest⟩ := wr_slots hw slots
  let u := slots.foldl (fun s a => wr s a 8 0) s
  have hu : u = { s with mem := u.mem, memPois := u.memPois } := (congrArg (fun v : State => { v with mem := u.mem, memPois := u.memPois }) hrest :)
  have hgangs : u.gangs = s.gangs := (congrArg State.gangs hu :)
  have hreqs : u.reqs = s.reqs := (congrArg State.reqs hu :)
  let d := dropCached u leaf (fun _ => false)
  have hd : d = { u with cores := d.cores } := rfl
  have hwd : ∀ g ∈ d.gangs, g.2.windows = [] := by rw [hd]; exact hgangs ▸ hw
  have hbeside : Beside s u := by
    refine ⟨?_, fun ctx => by rw [hu]⟩
    rw [hu]
  have hbyte (p : Nat) (hp : ∀ a ∈ slots, p < a ∨ a + 8 ≤ p) : pByte u p = pByte s p :=
    hother p fun a ha j hj => by have := hp a ha; omega
  have hentry : r.entryAt d = r.entryAt s :=
    entryAt_same (t := u) hw hbeside hc fun p h1 h2 => hbyte p fun a ha => by have := (hapart a ha).2; omega
  have hquota : rd d (r.entryAt s + 0x18) 8 = rd s (r.entryAt s + 0x18) 8 :=
    rd_same (t := u) hw hbeside fun p h1 h2 => hbyte p fun a ha => by have := (hapart a ha).1; omega
  obtain ⟨hin, hout, hkept⟩ := takes_wr hwd (r.entryAt s + 0x18) 8 ((rd s (r.entryAt s + 0x18) 8 + 4096 * slots.length) % 2 ^ 64)
  have hreqd := wr_reqs hwd (r.entryAt s + 0x18) 8 ((rd s (r.entryAt s + 0x18) 8 + 4096 * slots.length) % 2 ^ 64)
  rw [toBytesLE_length] at hin hout
  refine ⟨wr d (r.entryAt s + 0x18) 8 ((rd s (r.entryAt s + 0x18) 8 + 4096 * slots.length) % 2 ^ 64),
    (serve_runs hr hp hi hres hor hsvc (by rw [hcode]; rfl) _).trans (congrArg Host.Outcome.next ?_), ?_⟩
  · dsimp only
    rw [if_neg (by rw [hgood, hz]; decide), ← hslots, recallWindows_open (show ∀ g ∈ u.gangs, g.2.windows = [] from hgangs ▸ hw)]
    change answerReq (wr d (r.entryAt d + 0x18) 8 ((rd d (r.entryAt d + 0x18) 8 + 4096 * slots.length) % 2 ^ 64)) n [0, slots.length] = _
    rw [hentry, hquota]
    refine answerReq_unowned (hreqd ▸ ?_) hown (by simp)
    rw [hd, hreqs]
    exact hr
  · generalize wr d (r.entryAt s + 0x18) 8 ((rd s (r.entryAt s + 0x18) 8 + 4096 * slots.length) % 2 ^ 64) = v at hin hout hkept hreqd
    refine ⟨fun a ha j hj => ?_, hin, fun p hps hpq => (hout p hpq).trans (hother p hps), fun k => ?_, ?_, hreqd.trans hreqs⟩
    · rw [hout _ fun i hi => by have := (hapart a ha).1; omega]
      exact hcleared a ha j hj
    · have hcores : v.cores = d.cores := (congrArg State.cores hkept :)
      have hcore : coreOf v k = coreOf d k := by unfold coreOf; rw [hcores]
      rw [hcore, coreOf_dropCached]
      have hsame : coreOf u k = coreOf s k := by unfold coreOf; rw [hu]
      rw [hsame]
    · have h1 : { v with reqs := s.reqs, mem := s.mem, memPois := s.memPois, cores := s.cores }
          = { u with reqs := s.reqs, mem := s.mem, memPois := s.memPois, cores := s.cores } :=
        (congrArg (fun x : State => { x with reqs := s.reqs, mem := s.mem, memPois := s.memPois, cores := s.cores }) hkept :)
      rw [h1, hu]

/-- Settles O46, service by service. -/
theorem serviceSteps : Obligations.ServiceSteps := by
  intro s n r hr hor only answered e
  refine ⟨fun o p ho hk hpn => ?_, fun hi hres hq hw status blocks data => nvmeCompletion_answers hr hor hi hres hq hw status blocks data,
    fun hp hi hres => ⟨fun hsvc hown => ⟨?map, ?unmap⟩, fun hsvc => ⟨?commands, ?flush⟩, fun hsvc hown hw => ⟨?create, ?destroy⟩⟩⟩
  · refine ⟨fun ws hws hknown hown => capinvComplete_ends hr hor ho hk hpn ?_ hown, fun hp hknown hown => capinvComplete_ends hr hor ho hk hpn ?_ hown⟩
    · unfold SenReq.answer
      obtain hpass | hknown := hknown
      · rw [hpass]; exact hws
      · rw [hknown, Bool.not_true, Bool.and_false]; exact hws
    · unfold SenReq.answer
      rw [hp, hknown]
      rfl
  case map =>
    intro frames u m hcode hgood h3 h03 hz hquota hframes hw hreqs _ hentry hback
    obtain ⟨v, ⟨hin, hout, hrest⟩, hexec⟩ := allocationMap_answers hr hor hp hi hres hown hsvc hcode hgood h3 h03 hz hquota hframes hw hreqs hentry hback
    rw [toBytesLE_length] at hin hout
    have hv : v.reqs = s.reqs := (congrArg State.reqs hrest :).trans hreqs
    exact ⟨_, hexec, onlyReq_modReq hr hv (fun r => r.answered 0 m 0), hin, hout, (congrArg (fun x : State => { x with reqs := u.reqs }) hrest :)⟩
  case unmap =>
    intro c hcode hgood hz hw hc slots lo hapart
    obtain ⟨v, hexec, hun⟩ := allocationUnmap_answers hr hor hp hi hres hown hsvc hcode hgood hz hw hc rfl hapart
    exact ⟨_, hexec, onlyReq_modReq hr hun.reqs (fun r => r.answered 0 slots.length 0), hun.cleared, hun.quota, hun.bytes, hun.cores, hun.rest⟩
  case commands =>
    intro pas hgood hwait hw r' leaves hmem
    refine ⟨fun hcode hphys => ⟨_, storageRead_leaves hr hor hp hi hres hsvc hcode hgood hwait hphys hmem, ?_, rfl, rfl⟩,
      fun hcode hphys => ⟨_, storageWrite_leaves hr hor hp hi hres hsvc hcode hgood hwait hw hphys hmem, ?_, rfl, rfl⟩⟩
    · exact onlyReq_modReq hr rfl (fun _ => { r' with issued := true })
    · exact onlyReq_modReq hr rfl (fun _ => { r' with issued := true })
  case flush =>
    intro hcode hz
    exact ⟨_, storageFlush_leaves hr hor hp hi hres hsvc hcode hz, onlyReq_modReq hr rfl (fun r => { r with issued := true }), rfl, rfl⟩
  case create =>
    intro q hcode h0 h4 h16 hz hnq hfree
    obtain ⟨t, hexec, honly, hcount⟩ := queueCreate_answers hr hor hp hi hres hown hsvc hw hcode h0 h4 h16 hz hnq hfree
    exact ⟨t, hexec, honly, ⟨hcount.bytes, hcount.rest⟩, hcount.queues⟩
  case destroy =>
    intro hcode hz hq
    obtain ⟨t, hexec, honly, hcount⟩ := queueDestroy_answers hr hor hp hi hres hown hsvc hw hcode hz hq
    exact ⟨t, hexec, honly, ⟨hcount.bytes, hcount.rest⟩, hcount.queues⟩

end Sys2Proof.Machine
end

section
/-! SUPPORT. The counterexample to O21: operations of a state that stand twice under the number that the next one gets. Starting the `launch` replaces the
first of them, and the step that appends its record changes every entry of that number (R189). -/

namespace Sys2Proof.Machine

/-- `launch` of the record that v2 names, into queue 0; v8 gets the number. -/
def grandchildOperands : BR := { va := 2, vb := 8, disp := 0, ctopx := 0 }
def grandchild : Instr := .launch { gp := 0, gs := 0 } grandchildOperands

/-- An operation of no wave that waits for no request. -/
def strayOp : Op :=
  { wave := 99, flag := none, slots := [], pc := 0, place := { hdr := 0, last := 0, ll := false }, core := 0, ctx := 0, gang := 0, wait := none, kind := .capinv [] }

/-- The wave: v2 of its fibre names 0x2000. -/
def launchingWave : Wave :=
  let w := loadedWave (encode grandchild)
  { w with fibres := smod 0 (fun y => y.setV2 2 0x2000) w.fibres }

/-- A record of one workgroup of one fibre at 0x5000. -/
def launchRecord : List Host.Cell :=
  [(0x503C, 1), (0x5040, 1), (0x5044, 1), (0x5048, 1), (0x504A, 1), (0x504C, 1), (0x504E, 8), (0x5050, 16), (0x5053, 1), (0x507F, 1)]

/-- The region from 0x2000 to 0x2FFF. -/
def launchRegion : RegionEntry := { ctx := 0, rid := 0, ok := true, lo := 0x2000, limit := 0x3000 }

/-- The device: its core caches the region and the leaf of its page, which lies at 0x5000; queue 0 takes what context 0 appends to its
ring of 16 entries at 0x8000; two operations have the number that the next one gets. -/
def launchingState : State :=
  let s := modCore (loadWord State.reset (encode grandchild)) 0 (fun c => { c with
    regions := [launchRegion], tlb := [{ ctx := 0, page := 0x2000, bits := 12, pte := 0x50FF }] })
  { ctlWr (ctlWr s (lqReg 0 0) 0xC100000000000000) (lqReg 0 8) 0x8000 with
    mem := launchRecord, waves := [(0, launchingWave)], ops := [(s.nextOp, strayOp), (s.nextOp, strayOp)] }

def launchingSite : Site :=
  { wk := 0, w := launchingWave, l := loadedLaunch, f := (form grandchild).getD { cls := 0 }
    c := { hdr := 0x1000, header := loadedHeader (encode grandchild), words := [encode grandchild], idx := 0, slots := [0], ll := false, fetched := true
           started := true, chosen := 0 } }

/-- The bytes of the record, with their bytes of memory. -/
def launchReach : List (Nat × Nat) := (List.range 128).map (fun j => (0x2000 + j, 0x5000 + j))

/-- Its fibre. -/
def launchingFibre : Fibre := (sget 0 launchingWave.fibres).getD Fibre.blank

theorem launching_fibre : sget 0 launchingWave.fibres = some launchingFibre := rfl

theorem launching_act : (launchingSite.bundle { gp := 0, gs := 0 }).act = [0] := by decide +kernel

theorem launching_ready : Ready launchingState grandchild { gp := 0, gs := 0 } .bundle launchingSite where
  cur := rfl
  wave := rfl
  clause := rfl
  launch := rfl
  started := rfl
  slots := by decide
  form := rfl
  checks := by decide +kernel
  checksQueue := by decide +kernel
  free := by decide +kernel
  partner := by decide +kernel
  debugger := by decide +kernel
  healthy := by
    intro x hx y hy
    obtain rfl := List.mem_singleton.1 hx
    obtain rfl := Option.some.inj (launching_fibre.symm.trans hy)
    decide +kernel
  pending := by
    intro _ x hx y hy
    rw [launching_act] at hx
    obtain rfl := List.mem_singleton.1 hx
    obtain rfl := Option.some.inj (launching_fibre.symm.trans hy)
    decide +kernel
  held := by decide +kernel

theorem launching_open : Open launchingState := by
  refine ⟨fun e he => ?_, fun e he => ?_, fun e he => ?_⟩
  · obtain rfl := List.mem_singleton.1 he
    rfl
  · have hstray : e.2 = strayOp := by
      obtain he | he := List.mem_cons.1 he
      · rw [he]
      · rw [List.mem_singleton.1 he]
    rw [hstray]
    rfl
  · exact absurd he List.not_mem_nil

/-- The cached leaf. -/
def launchLeaf : TlbEntry := { ctx := 0, page := 0x2000, bits := 12, pte := 0x50FF }

/-- The leaf stands for every byte of the record. -/
theorem launching_leaf : ∀ a ∈ launchReach, (coreOf launchingState 0).tlb.find? (fun e => e.ctx = 0 && e.page ≤ a.1 && a.1 < e.page + 2 ^ e.bits) = some launchLeaf
    ∧ a.2 = leafPa launchLeaf.pte.toNat launchLeaf.bits a.1 - leafPa launchLeaf.pte.toNat launchLeaf.bits a.1 % 4096 + a.1 % 4096 := by decide +kernel

/-- Every byte of the record is served, and none is poisoned. -/
theorem launching_served : ∀ a ∈ launchReach, Served launchingState 0 0 0 .read a.1 a.2 ∧ a.2 / 64 ∉ launchingState.memPois := by
  intro a ha
  obtain ⟨hfind, hpa⟩ := launching_leaf a ha
  exact ⟨⟨launchLeaf, hfind, by decide +kernel, fun h => absurd h Bool.false_ne_true, Or.inr rfl, hpa⟩, List.not_mem_nil⟩

/-- The step leaves both operations of the number changed. -/
theorem launching_step : (match exec grandchild launchingState with
    | .next t => t.ops.getLast?.all (fun e => e.2.kind != .capinv [])
    | _ => false) = true := by decide +kernel

/-- A started operation replaces the first of them alone. -/
theorem sput_launching (o : Op) : (sput launchingState.nextOp o launchingState.ops).getLast? = some (launchingState.nextOp, strayOp) := rfl

/-- Refutes O21: where two operations of `launchingState` have the number that the next one gets, the step changes the second of them too, which `Starts` does not. -/
theorem not_launchResults : ¬ Obligations.LaunchResults := by
  intro h
  obtain ⟨t, ht, hst, -⟩ := h launchingState { gp := 0, gs := 0 } grandchildOperands launchingSite 0 launchingFibre launchRegion launchReach
    launching_ready launching_act launching_fibre launching_open (by decide +kernel) (by decide +kernel) (by decide +kernel) (by decide +kernel)
    (by decide +kernel) launching_served (by decide +kernel) (by decide +kernel) (by decide +kernel) (by decide +kernel) (by decide +kernel)
  have hlast : t.ops.getLast? = some (launchingState.nextOp, strayOp) := by
    rw [hst.op]
    exact sput_launching _
  have hstep := launching_step
  rw [show exec grandchild launchingState = .next t from ht] at hstep
  dsimp only at hstep
  rw [hlast] at hstep
  exact absurd hstep (by decide)

end Sys2Proof.Machine
end

section
/-! SUPPORT. The counterexample to O38: an accumulator whose map of elements has two entries for one key. An element reads as the first of them, and what the statement
bounds are the elements; the engine renormalises where an entry is too large, read or not (R64). -/

namespace Sys2Proof.Machine

/-- A tile in use, every element of which reads as 0: the entry of 2^50 stands behind another of its key. -/
def shadowedTile : Tile := { Tile.zero with mant := [(0, 0), (0, 2 ^ 50)], efix := true }

/-- A granted pass over one slab of bf16 weights, for one row. -/
def shadowedPass : MatOp :=
  { kind := .mma, wave := 0, flag := none, pc := 0x1008, acc := 0, pair := false, bind := { base := 0, fmt := 0xD, sparse := false }, quad := 0, aty := 0xD, slabs := 1
    next := 0, rows := [(0, 0)], gaddr := 0, opx := 0, taddr := 0, tty := 0, prio := 0, waits := 0, place := .entry 0, susp := none, granted := true, trapped := [] }

def shadowedWave : Wave := (loadedWave 0).setAcc 0 shadowedTile

/-- The device: the pass stands in entry 0 of its cluster's table; stash and slots hold zeros. -/
def shadowedState : State :=
  { loadWord State.reset 0 with waves := [(0, shadowedWave)], mats := [(0, shadowedPass)], clusters := [(0, { Cluster.reset with table := [(0, 0)] })] }

def shadowedGang : Gang := { Gang.new with state := .resident, cores := [0] }

theorem shadowed_acc : shadowedWave.acc 0 = shadowedTile := acc_setAcc_self _ _ _

theorem shadowed_reads_zero (j : Nat) : sgetD 0 shadowedTile.mant j = 0 := by
  unfold shadowedTile sgetD
  by_cases h : j = 0 <;> simp [sget, Ne.symm, h, eq_comm]

theorem shadowed_slots (a : Nat) : sgetD 0 shadowedGang.kaolin a = 0 := rfl

/-- Zero rounds to zero at every exponent. -/
theorem rniAt_zero (x big : Int) : rniAt 0 x big = 0 := by
  have hround (e : Int) : roundAt .near false 0 e 0 false = 0 := by
    unfold roundAt
    split <;> simp [roundsUp]
  unfold rniAt rni roundInt
  simp [signed, hround]

/-- A weight of no byte is zero. -/
theorem mxElem_zero : (mxElem 0xD 0).1.1 = 0 := by decide +kernel

/-- A product with a weight of zero adds nothing. -/
theorem rniAt_weight_zero {q : Int} (p x big : Int) (h : q = 0) : rniAt (p * q) x big = 0 := by
  rw [h, Int.mul_zero, rniAt_zero]

/-- The commit leaves another exponent. -/
theorem shadowed_step : (match exec (.mxePassCommit 0 0) shadowedState with
    | .next t => (sget 0 t.waves).all (fun v => (v.acc 0).exp != 0)
    | _ => false) = true := by decide +kernel

/-- Refutes O38: every sum of `shadowedPass` is 0, and its commit still raises the exponent, for the entry of 2^50 that no element reads. -/
theorem not_matrixEngineSteps : ¬ Obligations.MatrixEngineSteps := by
  intro h
  obtain ⟨hpass, -⟩ := h.2 shadowedState 0 0 0 shadowedPass shadowedWave shadowedGang rfl (by decide +kernel) rfl rfl (by decide +kernel) rfl rfl rfl (fun _ => rfl)
  rw [show shadowedWave.acc shadowedPass.acc = shadowedTile from shadowed_acc] at hpass
  obtain ⟨t, v, ht, hv, hexp, -⟩ := hpass rfl (by decide +kernel) rfl (by decide) (by decide) rfl (by
    intro r _ j _
    have hnothing : ∀ l : List Int, (∀ u ∈ l, u = 0) → (0 + l.sum).natAbs ≤ 2 ^ 46 := fun l hl => by
      rw [List.sum_eq_zero hl]
      decide
    dsimp only
    rw [shadowed_reads_zero]
    refine hnothing _ fun u hu => ?_
    obtain ⟨k, -, rfl⟩ := List.mem_map.1 hu
    refine rniAt_weight_zero _ _ _ ?_
    rw [if_pos (show shadowedPass.bind.fmt = 0xD from rfl), shadowed_slots, shadowed_slots]
    exact mxElem_zero)
  have hstep := shadowed_step
  rw [show exec (.mxePassCommit 0 0) shadowedState = .next t from ht] at hstep
  dsimp only at hstep
  rw [show sget 0 t.waves = some v from hv, Option.all_some, show (v.acc 0).exp = 0 from hexp] at hstep
  exact absurd hstep (by decide)

end Sys2Proof.Machine
end

section
/-! SUPPORT. The instructions of the matrix engine that take effect at issue (O26): tile registers, the wave's mode, the status of an accumulator, and the check of a tensor
record. -/

namespace Sys2Proof.Machine

/-! ### What an instruction of the matrix engine finds at issue -/

section
variable {s : State} {i : Instr} {g : Guard} {rel : Rel} {z : Site}

theorem begun_kaolinSlots (h : Ready s i g rel z) : kaolinSlots (begun s z.w (z.bundle g) i z.f) z.wk = z.l.ks := by
  unfold kaolinSlots
  rw [begun_launchOf h]
  rfl

theorem begun_acc (h : Ready s i g rel z) (k : Nat) : accOf (begun s z.w (z.bundle g) i z.f) z.wk k = z.w.acc k := by
  unfold accOf
  rw [begun_own h]
  rfl

theorem begun_tile (h : Ready s i g rel z) (x : MX) : tileOf (begun s z.w (z.bundle g) i z.f) z.wk x.tile.toNat = z.tile s x := by
  unfold tileOf Site.tile
  rw [begun_own h]
  rfl

end

/-! ### Tile registers (R219) -/

/-- A change of the workgroups passes by an issue. -/
theorem Runs.wgs {s t : State} {w : Wave} {b : Bundle} {out : List Nat} {fx : Nat → Fibre → Fibre} {gx : Wave → Wave}
    (h : Runs s t w b out fx gx) (m : Sparse Workgroup) : Runs { s with wgs := m } { t with wgs := m } w b out fx gx where
  wave := h.wave
  waves := h.waves
  rest := congrArg (fun u : State => { u with wgs := m }) h.rest
  clusters := h.clusters
  cores := h.cores

theorem endIssue_withWgs (t : State) (b : Bundle) (m : Sparse Workgroup) : endIssue { t with wgs := m } b = { endIssue t b with wgs := m } := by
  unfold endIssue
  split <;> rfl

/-- From `s` to `t` an issue gives the tile register `n` of its workgroup, which is `u`, the binding `v`. -/
def SetsTile (s t : State) (w : Wave) (b : Bundle) (n : Nat) (u : Workgroup) (v : Option TileBind) : Prop :=
  Runs { s with wgs := t.wgs } t w b [] (fun _ y => y) id
    ∧ (∀ j, j ≠ wgKey w → sget j t.wgs = sget j s.wgs)
    ∧ ∃ u', sget (wgKey w) t.wgs = some u' ∧ (∀ k, sget k u'.tiles = if k = n then v else sget k u.tiles) ∧ { u' with tiles := u.tiles } = u

theorem setTile_sets {s : State} {i : Instr} {g : Guard} {rel : Rel} {z : Site} {u : Workgroup} (h : Ready s i g rel z) (hu : sget (wgKey z.w) s.wgs = some u)
    {n : Nat} {v : Option TileBind} {f : Sparse TileBind → Sparse TileBind} (hf : ∀ k m, sget k (f m) = if k = n then v else sget k m) :
    SetsTile s (endIssue (setTile (begun s z.w (z.bundle g) i z.f) (z.given g []) f) (z.bundle g)) z.w (z.bundle g) n u v := by
  have hset : setTile (begun s z.w (z.bundle g) i z.f) (z.given g []) f
      = { begun s z.w (z.bundle g) i z.f with wgs := smod (wgKey z.w) (fun u => { u with tiles := f u.tiles }) s.wgs } := by
    unfold setTile
    rw [begun_wave_given h]
    rfl
  rw [hset, endIssue_withWgs]
  refine ⟨(runs_quiet h).wgs _, fun j hj => sget_smod_ne hj (fun u : Workgroup => { u with tiles := f u.tiles }) s.wgs, { u with tiles := f u.tiles }, ?_, fun k => hf k _, rfl⟩
  exact (sget_smod_self _ (fun u : Workgroup => { u with tiles := f u.tiles }) s.wgs).trans (by rw [hu, Option.map_some])

theorem mcfgBind_binds {s : State} {g : Guard} {x : MX} {z : Site} {u : Workgroup} (h : Ready s (.mcfgBind g x) g .none z) (ha : (z.bundle g).act ≠ [])
    (hu : sget (wgKey z.w) s.wgs = some u) (hslot : (z.w.rg x.gs.toNat).toNat < 128) (hks : (z.w.rg x.gs.toNat).toNat < z.l.ks) :
    ∃ t, exec (.mcfgBind g x) s = .next t ∧ SetsTile s t z.w (z.bundle g) x.tile.toNat u
      (some { base := (z.w.rg x.gs.toNat).toNat, fmt := x.aty, sparse := x.mxopx.getLsbD 0 }) := by
  have hbody : mcfgBindBody x (z.given g []) (begun s z.w (z.bundle g) (.mcfgBind g x) z.f)
      = setTile (begun s z.w (z.bundle g) (.mcfgBind g x) z.f) (z.given g [])
          (sput x.tile.toNat { base := (z.w.rg x.gs.toNat).toNat, fmt := x.aty, sparse := x.mxopx.getLsbD 0 }) := by
    have hgood : (decide (128 ≤ (z.w.rg x.gs.toNat).toNat) || decide (z.l.ks ≤ (z.w.rg x.gs.toNat).toNat)) = false := by simp [hslot, hks]
    unfold mcfgBindBody
    rw [given_some ha, given_g h, given_wk, begun_kaolinSlots h]
    dsimp only
    rw [hgood]
    rfl
  refine ⟨_, performed h rfl rfl rfl, ?_⟩
  rw [hbody]
  refine setTile_sets h hu fun k m => ?_
  split
  · next hk => rw [hk, sget_sput_self]
  · next hk => exact sget_sput_ne hk _ _

theorem mcfgUnbind_unbinds {s : State} {g : Guard} {x : MX} {z : Site} {u : Workgroup} (h : Ready s (.mcfgUnbind g x) g .none z) (ha : (z.bundle g).act ≠ [])
    (hu : sget (wgKey z.w) s.wgs = some u) :
    ∃ t, exec (.mcfgUnbind g x) s = .next t ∧ SetsTile s t z.w (z.bundle g) x.tile.toNat u none := by
  refine ⟨_, performed h rfl rfl rfl, ?_⟩
  unfold mcfgUnbindBody
  rw [given_some ha]
  refine setTile_sets h hu fun k m => ?_
  split
  · next hk => rw [hk, sget_sdel_self]
  · next hk => exact sget_sdel_ne hk _

/-! ### The status of an accumulator (R213, R227) -/

theorem status_eq (a : Tile) : a.status = BitVec.ofInt 16 a.exp ++ BitVec.ofNat 48 (a.rslab % 256 * 2 ^ 40 + (if a.susp then 2 ^ 9 else 0)
    + (if a.high then 2 ^ 8 else 0) + (if a.pair then 2 ^ 7 else 0) + (if a.efix then 2 ^ 6 else 0) + (if a.nanin then 2 ^ 2 else 0)
    + (if a.sbad then 2 ^ 1 else 0) + (if a.tbad then 2 ^ 0 else 0)) := by
  unfold Tile.status bit
  rw [show bits a.rslab 0 8 = a.rslab % 256 by unfold bits; rw [Nat.pow_zero, Nat.div_one]; rfl]

/-- What `.clr` leaves of an accumulator's status. -/
def Wave.clearStatus (k : Nat) (v : Wave) : Wave := v.setAcc k { v.acc k with nanin := false, sbad := false, tbad := false }

/-- A change of each passing fibre and then one of the wave's accumulators. -/
theorem runs_mapFibres_clear {s : State} {i : Instr} {g : Guard} {rel : Rel} {z : Site} (h : Ready s i g rel z) (fx : Nat → Fibre → Fibre) (k : Nat) :
    Runs s (endIssue (modWave (mapFibres (begun s z.w (z.bundle g) i z.f) z.wk (z.bundle g).act fx) z.wk (Wave.clearStatus k)) (z.bundle g)) z.w (z.bundle g) [] fx
      (Wave.clearStatus k) := by
  rw [mapFibres_eq, modWave_modWave]
  refine begun_runs h (fun j => ?_) rfl (fun hi => begun_clause h _ hi) rfl
  refine (sget_mapSlots (z.bundle g).act fx (begunWave z.w (z.bundle g)).fibres j).trans ?_
  rw [begunWave_fibre, Option.map_map]
  refine Option.map_congr fun y _ => ?_
  by_cases ha : (z.bundle g).act.contains j
  · have hall : (z.bundle g).all.contains j := List.contains_iff_mem.2 (act_sub_all (List.contains_iff_mem.1 ha))
    simp only [Function.comp, ha, hall, if_true]
  · simp only [Function.comp, ha, Bool.false_eq_true, if_false]

/-- `mstat` gives each passing fibre the status and then, with `.clr`, clears the bits that stay set. -/
theorem mstat_completes (s : State) (g : Guard) (x : MX) :
    Completes s (.mstat g x) g .none (fun z => (z.w.acc x.acc.toNat).high = false) (fun z b t =>
      Runs s t z.w b [] (fun _ y => y.setV2 x.va.toNat (z.w.acc x.acc.toNat).status) (fun v =>
        if x.mxopx.getLsbD 0 && !b.act.isEmpty then v.clearStatus x.acc.toNat else v)) := by
  intro z h hhigh
  refine ⟨_, performed h rfl rfl rfl, ?_⟩
  dsimp only
  unfold mstatBody
  by_cases ha : (z.bundle g).act = []
  · rw [if_pos (show (z.given g []).act.isEmpty = true by rw [show (z.given g []).act = [] from ha]; rfl)]
    have hrun := (runs_quiet h).congr (fx' := fun _ y => y.setV2 x.va.toNat (z.w.acc x.acc.toNat).status)
      (fun k hk => absurd hk (by rw [ha]; exact List.not_mem_nil))
    simp only [ha, List.isEmpty_nil, Bool.not_true, Bool.and_false, Bool.false_eq_true, if_false]
    exact hrun
  · have hne : (!(z.bundle g).act.isEmpty) = true := by simpa using ha
    rw [given_some ha, hne]
    simp only [given_wk, begun_acc h, hhigh, Bool.and_true, Bool.false_eq_true, if_false]
    cases x.mxopx.getLsbD 0 with
    | false => exact runs_mapFibres h (fun _ y => y.setV2 x.va.toNat (z.w.acc x.acc.toNat).status)
    | true => exact runs_mapFibres_clear h _ _

/-! ### The check of a tensor record (R232) -/

/-- A change of the wave outside its fibres, if one of them passes the guard. -/
theorem runs_perWave_given {s : State} {i : Instr} {g : Guard} {rel : Rel} {z : Site} {F gx : Wave → Wave} (h : Ready s i g rel z)
    (hf : ∀ v, (F v).fibres = v.fibres) (hn : ∀ v, (F v).issueNo = v.issueNo) (hcl : ∀ v, (F v).clause = v.clause)
    (hg : { F (begunWave z.w (z.bundle g)) with
            fibres := z.w.fibres, issueNo := z.w.issueNo, issued := z.w.issued, clause := z.w.clause, paired := z.w.paired, page := z.w.page } = gx z.w) :
    Runs s (endIssue (perWave F (z.given g []) (begun s z.w (z.bundle g) i z.f)) (z.bundle g)) z.w (z.bundle g) [] (fun _ y => y)
      (fun v => if (z.bundle g).act.isEmpty then v else gx v) := by
  unfold perWave
  rw [show (z.given g []).act = (z.bundle g).act from rfl]
  cases (z.bundle g).act.isEmpty with
  | true => exact runs_quiet h
  | false =>
    refine begun_runs h (fun k => ?_) (by rw [hn]; rfl) (fun hi => by rw [hcl]; exact begun_clause h _ hi) hg
    simp only [hf, begunWave_fibre, ite_self]

/-- `trec` writes the byte count and the subcode to its register. -/
theorem trec_completes (s : State) (g : Guard) (x : CP) :
    OnceForWave s (.trec g x) g (fun w =>
      w.setG x.gsa.toNat (BitVec.ofNat 64 ((tensorOf (w.record x.trec.toNat)).bytes % 2 ^ 56 * 256
        + ((tensorOf (w.record x.trec.toNat)).error (x.cpopx.getLsbD 0)).getD 0))) := by
  intro z h _
  refine ⟨_, performed h rfl rfl rfl, ?_⟩
  unfold trecBody
  rw [begun_rec4 h]
  exact runs_perWave_given h (fun _ => rfl) (fun _ => rfl) (fun _ => rfl) rfl

/-- Settles O26, each instruction by its own lemma. -/
theorem matrixConfigurationAndStatus : Obligations.MatrixConfigurationAndStatus := by
  refine ⟨?tiles, ?mode, ?status, trec_completes⟩
  case tiles => exact fun s g x z u ha hu => ⟨fun h hslot hks => mcfgBind_binds h ha hu hslot hks, fun h => mcfgUnbind_unbinds h ha hu⟩
  case mode =>
    exact fun s g x => onceForWave (F := fun w => { w with sptrap := x.mxopx.getLsbD 1 }) rfl rfl rfl (fun _ _ => rfl) (fun _ => rfl) (fun _ => rfl)
      (fun _ => rfl) (fun _ => rfl)
  case status =>
    intro s g x k one status z h hhigh
    dsimp only
    rw [show status (z.w.acc k) = (z.w.acc k).status from (status_eq _).symm]
    exact mstat_completes s g x z h hhigh

end Sys2Proof.Machine
end

section
/-! SUPPORT. The instructions that put an operation in their wave's matrix queue (O27). -/

namespace Sys2Proof.Machine

/-! ### Checks that pass -/

/-- A range that the engine may be given passes its check at issue. -/
theorem begun_stashCheck {s : State} {i : Instr} {g : Guard} {rel : Rel} {z : Site} {a n align : Nat} (h : Ready s i g rel z) (hs : InSpan s z a n align) :
    stashCheck (begun s z.w (z.bundle g) i z.f) (gangOf (begun s z.w (z.bundle g) i z.f) z.wk) a n align = none := by
  obtain ⟨halign, hspan⟩ := hs
  rw [begun_gang h]
  unfold stashCheck
  rw [show stashSpan (begun s z.w (z.bundle g) i z.f) (gangOf s z.wk) = stashSpan s (gangOf s z.wk) from rfl, if_neg (by rw [halign]; decide),
    if_neg (Nat.not_lt.2 hspan)]

/-- Where every row passes its check, no fibre traps and each gives its row (R222). -/
theorem rowsOf_good {s : State} {i : Instr} {g : Guard} {rel : Rel} {z : Site} (h : Ready s i g rel z) {check : Nat → Fibre → Option Cause} {addr : Nat → Fibre → Nat}
    (hc : ∀ k ∈ (z.bundle g).act, ∀ y, sget k z.w.fibres = some y → check k (passed z.w (z.bundle g) k y) = none)
    (haddr : ∀ k y, addr k (passed z.w (z.bundle g) k y) = addr k y) :
    rowsOf (begun s z.w (z.bundle g) i z.f) (z.given g []) check addr
      = (begun s z.w (z.bundle g) i z.f, (theP (z.bundle g) z.w).map (fun e => (e.1, addr e.1 e.2))) := by
  have hgood : ∀ e ∈ (theP (z.bundle g) z.w).map (fun e => (e.1, passed z.w (z.bundle g) e.1 e.2)), check e.1 e.2 = none := by
    intro e he
    obtain ⟨q, hq, rfl⟩ := List.mem_map.1 he
    obtain ⟨hk, hy⟩ := mem_theP hq
    exact hc _ hk _ hy
  unfold rowsOf
  rw [show (z.given g []).act = (z.bundle g).act from rfl, given_wk, begun_fibs h]
  dsimp only
  rw [List.filterMap_eq_nil_iff.2 (fun e he => by rw [hgood e he]; rfl), List.filter_eq_self.2 (fun e he => by rw [hgood e he]; rfl), List.map_map]
  simp only [Function.comp_def, haddr]
  rfl

section
variable {s : State} {i : Instr} {g : Guard} {z : Site} {x : MX}

/-- An operation that holds what its site gives it enters the queue. -/
theorem queues_by {f : Form} {body : Bundle → State → State} {k : MatKind} {F : MatOp → MatOp} (h : Ready s i g .none z) (ha : (z.bundle g).act ≠ [])
    (e : form i = some f) (hc : f.const = none) (hl : f.ll = true) (hx : exec i s = issue i g .none body s)
    (hF : ∀ o n, (F o).wave = o.wave ∧ F { o with arrived := n } = { F o with arrived := n })
    (hb : body (z.given g []) (begun s z.w (z.bundle g) i z.f)
      = startMat (begun s z.w (z.bundle g) i z.f) (F (mxOp (begun s z.w (z.bundle g) i z.f) (z.given g []) k x)))
    (hi : ∀ z, InRange i g z := by intro _ _ _ _ _; rfl) :
    ∃ t, exec i s = .next t ∧ Queued s t z.w (z.bundle g) (F (z.mxOp (z.bundle g) k x)) := by
  have hop : mxOp (begun s z.w (z.bundle g) i z.f) (z.given g []) k x
      = { z.mxOp (z.bundle g) k x with arrived := clusterClock s (coreNo z.wk / 4) } := by
    have hflag : (z.given g []).flag = nextFlag z.c.header z.c.ll := by
      change (if z.f.ll && !(z.bundle g).act.isEmpty then nextFlag z.c.header z.c.ll else none) = _
      rw [if_pos (by simp [form_is h e, hl, ha])]
    unfold mxOp Site.mxOp
    rw [hflag, given_wk, begun_launchOf h, begun_clock]
    rfl
  refine ⟨_, performed h e hc hx hi, ?_⟩
  rw [hb, hop, (hF _ _).2]
  have hq := queued_of h { F (z.mxOp (z.bundle g) k x) with arrived := clusterClock s (coreNo z.wk / 4) } (hF _ 0).1 rfl
  exact ⟨hq.runs, hq.op, hq.next⟩

/-! ### Products (R221, R222) -/

/-- A tile register that a product of the site may use, as checks 1 to 4 of R222 ask. -/
def Site.Product (z : Site) (s : State) (x : MX) (u : TileBind) : Prop :=
  z.tile s x = some u ∧ pairsWith x.aty u.fmt = true ∧ u.base + (x.nslab.toNat + 1) ≤ z.l.ks
    ∧ (if x.mxopx.getLsbD 0 then x.acc.toNat % 2 = 0 ∧ (z.w.acc x.acc.toNat).pair = true else (z.w.acc x.acc.toNat).pair = false)

theorem getLsbD_zero_eq {n : Nat} (a : BitVec n) : a.getLsbD 0 = decide (a.toNat % 2 = 1) := by
  rw [BitVec.getLsbD, Nat.testBit_zero]

theorem productBind_ok {u : TileBind} {form : TileBind → Bool} (h : Ready s i g .none z) (hu : z.Product s x u) (hform : form u = true) :
    productBind (begun s z.w (z.bundle g) i z.f) (z.given g []) x form = .ok u := by
  obtain ⟨htile, hpairs, hslots, hpair⟩ := hu
  have hstate : (if x.mxopx.getLsbD 0 then x.acc.getLsbD 0 || !(z.w.acc x.acc.toNat).pair else (z.w.acc x.acc.toNat).pair) = false := by
    rw [getLsbD_zero_eq x.acc]
    cases hp : x.mxopx.getLsbD 0 with
    | true =>
      rw [hp, if_pos rfl] at hpair
      rw [if_pos rfl, hpair.1, hpair.2]
      rfl
    | false =>
      rw [hp] at hpair
      exact hpair
  unfold productBind
  rw [given_wk, begun_tile h, htile]
  dsimp only
  rw [hpairs, hform, begun_kaolinSlots h, begun_acc h, if_neg (by decide), if_neg (by omega), if_neg (by rw [hstate]; exact Bool.false_ne_true)]

/-- The rows of a product: each passing fibre's address of its row. -/
def Site.mxRows (z : Site) (g : Guard) (x : MX) : List (Nat × Nat) := (theP (z.bundle g) z.w).map (fun e => (e.1, (e.2.rv x.va.toNat).toNat))

theorem mxRows_some (ha : (z.bundle g).act ≠ []) : (z.mxRows g x).isEmpty = false := by
  unfold Site.mxRows
  rw [List.isEmpty_map]
  simpa using theP_ne ha

theorem rowsOf_mxRows {check : Nat → Fibre → Option Cause} (h : Ready s i g .none z)
    (hc : ∀ k ∈ (z.bundle g).act, ∀ y, sget k z.w.fibres = some y → check k (passed z.w (z.bundle g) k y) = none) :
    rowsOf (begun s z.w (z.bundle g) i z.f) (z.given g []) check (fun _ f => (f.rv x.va.toNat).toNat)
      = (begun s z.w (z.bundle g) i z.f, z.mxRows g x) :=
  rowsOf_good h hc (fun _ _ => by rw [passed_rv])

theorem mmaBody_queues {u : TileBind} {form : TileBind → Bool} (h : Ready s i g .none z) (ha : (z.bundle g).act ≠ []) (hu : z.Product s x u) (hform : form u = true)
    (hrows : ∀ k ∈ (z.bundle g).act, ∀ y, sget k z.w.fibres = some y →
      InSpan s z (y.rv x.va.toNat).toNat (mxSize x.aty * u.depth * (x.nslab.toNat + 1)) 16) :
    mmaBody x form (z.given g []) (begun s z.w (z.bundle g) i z.f)
      = startMat (begun s z.w (z.bundle g) i z.f) { mxOp (begun s z.w (z.bundle g) i z.f) (z.given g []) .mma x with
          pair := x.mxopx.getLsbD 0, bind := u, slabs := x.nslab.toNat + 1, rows := z.mxRows g x } := by
  unfold mmaBody
  rw [given_some ha, if_neg Bool.false_ne_true, productBind_ok h hu hform]
  dsimp only
  rw [rowsOf_mxRows h fun k hk y hy => by rw [passed_rv]; exact begun_stashCheck h (hrows k hk y hy)]
  dsimp only
  rw [mxRows_some ha, if_neg Bool.false_ne_true]

theorem mmatBody_queues {u : TileBind} (h : Ready s i g .none z) (ha : (z.bundle g).act ≠ []) (hu : z.Product s x u)
    (hblock : InSpan s z (z.w.rg x.gs.toNat).toNat (32 * (mxSize x.aty * u.depth * (x.nslab.toNat + 1))) 16) :
    mmatBody x (z.given g []) (begun s z.w (z.bundle g) i z.f)
      = startMat (begun s z.w (z.bundle g) i z.f) { mxOp (begun s z.w (z.bundle g) i z.f) (z.given g []) .mmat x with
          pair := x.mxopx.getLsbD 0, bind := u, slabs := x.nslab.toNat + 1, gaddr := (z.w.rg x.gs.toNat).toNat
          rows := (z.bundle g).act.map (fun k => (k, (z.w.rg x.gs.toNat).toNat + mxSize x.aty * k)) } := by
  unfold mmatBody
  rw [given_some ha, if_neg Bool.false_ne_true, productBind_ok h hu rfl]
  dsimp only
  rw [given_g h, given_wk, begun_stashCheck h hblock]
  rfl

/-! ### Latching, clearing and draining (R220, R226, R228) -/

theorem mlatchBody_queues {u : TileBind} (h : Ready s i g .none z) (ha : (z.bundle g).act ≠ []) (hu : z.tile s x = some u) (hslot : u.base + x.nslab.toNat < z.l.ks) :
    mlatchBody x (z.given g []) (begun s z.w (z.bundle g) i z.f)
      = startMat (begun s z.w (z.bundle g) i z.f) { mxOp (begun s z.w (z.bundle g) i z.f) (z.given g []) .latch x with
          bind := { u with base := u.base + x.nslab.toNat } } := by
  unfold mlatchBody
  rw [given_some ha, if_neg Bool.false_ne_true, given_wk, begun_tile h, hu]
  dsimp only
  rw [begun_kaolinSlots h, if_neg (Nat.not_le.2 hslot)]

theorem mzeroBody_queues (h : Ready s i g .none z) (ha : (z.bundle g).act ≠ [])
    (hp : if x.mxopx.getLsbD 0 then x.acc.toNat % 2 = 0 else (z.w.acc x.acc.toNat).high = false) :
    mzeroBody x (z.given g []) (begun s z.w (z.bundle g) i z.f)
      = startMat (begun s z.w (z.bundle g) i z.f) { mxOp (begun s z.w (z.bundle g) i z.f) (z.given g []) .zero x with
          pair := x.mxopx.getLsbD 0 || pairAhead s z.wk x.acc.toNat } := by
  have hstate : (if x.mxopx.getLsbD 0 then x.acc.getLsbD 0 else (z.w.acc x.acc.toNat).high) = false := by
    rw [getLsbD_zero_eq x.acc]
    cases hx : x.mxopx.getLsbD 0 with
    | true =>
      rw [hx, if_pos rfl] at hp
      rw [if_pos rfl, hp]
      rfl
    | false =>
      rw [hx] at hp
      exact hp
  have hahead : pairAhead (begun s z.w (z.bundle g) i z.f) z.wk x.acc.toNat = pairAhead s z.wk x.acc.toNat := by
    have hacc : accOf s z.wk x.acc.toNat = z.w.acc x.acc.toNat := by
      unfold accOf
      rw [h.wave]
      rfl
    unfold pairAhead
    rw [begun_acc h, hacc]
    rfl
  unfold mzeroBody
  rw [given_some ha, if_neg Bool.false_ne_true, given_wk, begun_acc h, hahead]
  dsimp only
  rw [hstate, if_neg Bool.false_ne_true]

/-- The checks that `mdrain` makes once for its bundle, where they pass: the column scales' binding `u`, the state of the accumulator, and the block of the transposed copy. -/
structure Site.Drains (z : Site) (s : State) (x : MX) (u : TileBind) : Prop where
  bind : if x.mxopx.getLsbD 4 then u = { base := 0, fmt := 0, sparse := false } else z.tile s x = some u ∧ u.base < z.l.ks
  acc : (z.w.acc x.acc.toNat).high = false
  copy : x.mxopx.getLsbD 5 = true →
    InSpan s z (z.w.rg (x.mxopx.extractLsb' 6 7).toNat).toNat (8192 * mxSize (x.nslab.extractLsb' 0 5) + 1024) 16

theorem mdrainBody_queues {u : TileBind} (h : Ready s i g .none z) (ha : (z.bundle g).act ≠ []) (hu : z.Drains s x u)
    (hrows : ∀ k ∈ (z.bundle g).act, ∀ y, sget k z.w.fibres = some y →
      (x.mxopx.getLsbD 3 = false → InSpan s z ((z.w.rg x.gs.toNat).toNat + 4 * k) 4 4) ∧ InSpan s z (y.rv x.va.toNat).toNat (256 * mxSize x.aty) 16) :
    mdrainBody x (z.given g []) (begun s z.w (z.bundle g) i z.f)
      = startMat (begun s z.w (z.bundle g) i z.f) { mxOp (begun s z.w (z.bundle g) i z.f) (z.given g []) .drain x with
          pair := (z.w.acc x.acc.toNat).pair, bind := u, rows := z.mxRows g x, gaddr := (z.w.rg x.gs.toNat).toNat
          taddr := (z.w.rg (x.mxopx.extractLsb' 6 7).toNat).toNat, tty := x.nslab.extractLsb' 0 5 } := by
  have htile : (if x.mxopx.getLsbD 4 then some { base := 0, fmt := 0, sparse := false } else z.tile s x) = some u := by
    have hb := hu.bind
    split
    · next hx => rw [if_pos hx] at hb; rw [hb]
    · next hx => rw [if_neg hx] at hb; exact hb.1
  have hslot : (!x.mxopx.getLsbD 4 && decide (z.l.ks ≤ u.base)) = false := by
    have hb := hu.bind
    cases hx : x.mxopx.getLsbD 4 with
    | true => rfl
    | false =>
      rw [hx, if_neg Bool.false_ne_true] at hb
      simpa using hb.2
  have hblock : (if x.mxopx.getLsbD 5 then stashCheck (begun s z.w (z.bundle g) i z.f) (gangOf (begun s z.w (z.bundle g) i z.f) z.wk)
      (z.w.rg (x.mxopx.extractLsb' 6 7).toNat).toNat (8192 * mxSize (x.nslab.extractLsb' 0 5) + 1024) 16 else none) = none := by
    split
    · next hx => exact begun_stashCheck h (hu.copy hx)
    · rfl
  have hcopy : bits x.mxopx.toNat 6 7 = (x.mxopx.extractLsb' 6 7).toNat := by
    rw [BitVec.extractLsb'_toNat, Nat.shiftRight_eq_div_pow]
    rfl
  unfold mdrainBody
  rw [given_some ha, if_neg Bool.false_ne_true]
  dsimp only
  rw [given_wk, begun_tile h, htile, begun_acc h, begun_kaolinSlots h, given_g h, hcopy, given_g h]
  dsimp only
  rw [hslot, if_neg Bool.false_ne_true, hu.acc, if_neg Bool.false_ne_true, hblock]
  dsimp only
  rw [rowsOf_mxRows h fun k hk y hy => ?_]
  · dsimp only
    rw [mxRows_some ha, if_neg Bool.false_ne_true]
    rfl
  · obtain ⟨hscale, hrow⟩ := hrows k hk y hy
    rw [passed_rv, begun_stashCheck h hrow, Option.or_none]
    cases hx : x.mxopx.getLsbD 3 with
    | true => rfl
    | false => exact begun_stashCheck h (hscale hx)

end

/-- Settles O27: each instruction's meaning queues the operation that its site gives. -/
theorem matrixOperationsQueued : Obligations.MatrixOperationsQueued := by
  intro s g x z b k a n pair queues va rows each product ha
  refine ⟨?latch, ?mma, ?mmat, ?drain, ?zero⟩
  case latch =>
    exact fun u hu hslot h => queues_by (F := fun o => { o with bind := { u with base := u.base + x.nslab.toNat } }) h ha rfl rfl rfl rfl
      (fun _ _ => ⟨rfl, rfl⟩) (mlatchBody_queues h ha hu hslot)
  case mma =>
    exact fun u hu hrows => ⟨
      fun hs h => queues_by (F := fun o => { o with pair := pair, bind := u, slabs := n, rows := rows }) h ha rfl rfl rfl rfl (fun _ _ => ⟨rfl, rfl⟩)
        (mmaBody_queues h ha hu (by rw [hs]; rfl) hrows),
      fun hs h => queues_by (F := fun o => { o with pair := pair, bind := u, slabs := n, rows := rows }) h ha rfl rfl rfl rfl (fun _ _ => ⟨rfl, rfl⟩)
        (mmaBody_queues h ha hu hs hrows)⟩
  case mmat =>
    exact fun u hu hblock h => queues_by (F := fun o => { o with
        pair := pair, bind := u, slabs := n, gaddr := (z.w.rg x.gs.toNat).toNat, rows := b.act.map (fun i => (i, (z.w.rg x.gs.toNat).toNat + mxSize x.aty * i)) })
      h ha rfl rfl rfl rfl (fun _ _ => ⟨rfl, rfl⟩) (mmatBody_queues h ha hu hblock)
  case drain =>
    exact fun u hbind hacc hcopy hrows h => queues_by (F := fun o => { o with
        pair := a.pair, bind := u, rows := rows, gaddr := (z.w.rg x.gs.toNat).toNat, taddr := (z.w.rg (x.mxopx.extractLsb' 6 7).toNat).toNat
        tty := x.nslab.extractLsb' 0 5 })
      h ha rfl rfl rfl rfl (fun _ _ => ⟨rfl, rfl⟩) (mdrainBody_queues h ha ⟨hbind, hacc, hcopy⟩ hrows)
  case zero =>
    exact fun hp h => queues_by (F := fun o => { o with pair := pair || pairAhead s z.wk k }) h ha rfl rfl rfl rfl
      (fun _ _ => ⟨rfl, rfl⟩) (mzeroBody_queues h ha hp)

end Sys2Proof.Machine
end

section
/-! SUPPORT. The copies and the collective at issue (O28). -/

namespace Sys2Proof.Machine

/-! ### What every bundle instruction finds at issue -/

section
variable {s : State} {i : Instr} {g : Guard} {rel : Rel} {z : Site}

/-- Where no debugger serves the context, a bundle's accesses are not stopped. -/
theorem watchBundle_go (h : Ready s i g rel z) (hit : Nat → Option (Nat × W64)) :
    watchBundle (begun s z.w (z.bundle g) i z.f) (z.given g []) hit = (begun s z.w (z.bundle g) i z.f, z.given g []) := by
  unfold watchBundle
  rw [given_wk, begun_ctx h, begun_debugger h]
  rfl

/-- The entry by which the core checks a region is the one it went by before the issue. -/
theorem regionOf_begun_entry (w : Wave) (b : Bundle) (f : Form) (core : Option Nat) (ctx rid : Nat) :
    (regionOf (begun s w b i f) core ctx rid).2 = (regionOf s core ctx rid).2 := by
  cases core with
  | none => exact (begun_tables s w b i f).regionEntry ctx rid
  | some c =>
    unfold regionOf
    dsimp only
    rw [begun_regions, (begun_tables s w b i f).regionEntry]
    split <;> rfl

/-- A cached entry of a region is used as it stands. -/
theorem regionOf_begun_cached {core ctx rid : Nat} {re : RegionEntry} (hre : (coreOf s core).regions.find? (fun e => e.ctx = ctx && e.rid = rid) = some re)
    (w : Wave) (b : Bundle) (f : Form) : regionOf (begun s w b i f) (some core) ctx rid = (begun s w b i f, re) := by
  unfold regionOf
  dsimp only
  rw [begun_regions, hre]

/-- The state with one holder of a tag more, as an issue passes it on. -/
theorem tagHold_begun (w : Wave) (b : Bundle) (f : Form) (ctx tag : Nat) :
    tagHold (begun s w b i f) ctx tag = begun (tagHold s ctx tag) w b i f :=
  (begun_withContexts s (tagHold s ctx tag).contexts w b i f).symm

end

/-! ### Copies (R231, R233 to R235) -/

/-- No check fails where every check of the list finds nothing. -/
theorem firstSub_none {l : List (Option (BitVec 16))} (h : ∀ e ∈ l, e = none) : firstSub l = none := by
  unfold firstSub
  rw [show l.filterMap id = [] from List.filterMap_eq_nil_iff.2 h]
  rfl

/-- The barrier object of a copy lies in the stash. -/
theorem barrierSpan_good {s : State} {gk : Nat} {bar : Option Nat} (h : ∀ a, bar = some a → a % 16 = 0 ∧ a + 16 ≤ stashSpan s gk) : barrierSpan s gk bar = none := by
  cases bar with
  | none => rfl
  | some a =>
    obtain ⟨halign, hspan⟩ := h a rfl
    unfold barrierSpan
    rw [Option.bind_some, if_neg (by rw [halign]; decide), if_neg (Nat.not_lt.2 hspan)]

/-- A copy whose record, addresses, mask and barrier object are good does not trap. -/
theorem copyCheck_good {s : State} {b : Bundle} {kind : Nat} {x : CP} {t : Tensor} {re : RegionEntry} {side : Nat} {bar : Option Nat}
    (herr : t.error (kind = 1) = none) (hout : tensorOutside t re = none) (halign : side % 16 = 0) (hspan : side + t.bytes ≤ sideSpan s b kind)
    (hbar : ∀ a, bar = some a → a % 16 = 0 ∧ a + 16 ≤ stashSpan s (gangOf s b.wk) ∧ (Bar.read s (gangOf s b.wk) a).valid = true)
    (hmask : kind = 3 → x.cmask.getLsbD (coreNo b.wk % 16) = true) : copyCheck s b kind x t re side bar = none := by
  have hsubs : firstSub [if side % 16 != 0 then some 4 else none, barrierSpan s (gangOf s b.wk) bar, (tensorOutside t re).map (fun _ => 5),
      if sideSpan s b kind < side + t.bytes then some 6 else none,
      if kind = 3 && !x.cmask.getLsbD (coreNo b.wk % 16) then some 8 else none] = none := by
    refine firstSub_none fun e he => ?_
    rw [barrierSpan_good fun a ha => ⟨(hbar a ha).1, (hbar a ha).2.1⟩, hout, if_neg (Nat.not_lt.2 hspan), if_neg (by rw [halign]; decide),
      if_neg (by simpa using hmask)] at he
    simpa using he
  unfold copyCheck
  rw [herr]
  dsimp only
  rw [hsubs]
  cases bar with
  | none => rfl
  | some a => exact if_pos (hbar a rfl).2.2

/-- The operation of a copy as its instruction gives it: kind, record, addresses, mask, tag and the lines of its destination. -/
def CopyOp.given (z : Site) (x : CP) (kind : Nat) (tag : BitVec 12) : CopyOp :=
  let r := tensorOf (z.w.record x.trec.toNat)
  let side := (z.w.rg x.gsa.toNat).toNat
  { kind := kind, trec := z.w.record x.trec.toNat, buf := BitVec.ofNat 8 x.trec.toNat, side := side
    bar := if x.cpopx.getLsbD 0 then none else some (z.w.rg x.gba.toNat).toNat, mask := x.cmask, tag := tag, scope := x.scope, failed := false
    ask := if kind = 3 then r.lines else [], sent := [], got := []
    lines := copyLines kind r side }

section
variable {s : State} {i : Instr} {g : Guard} {x : CP} {z : Site} {kind k : Nat} {y : Fibre} {re : RegionEntry}

/-- The copy of a site passes its checks: record, region, addresses, barrier object and mask (R231, R233, R235). -/
structure Site.CopyGood (s : State) (z : Site) (x : CP) (kind : Nat) (re : RegionEntry) : Prop where
  region : (coreOf s (coreNo z.wk)).regions.find? (fun e => e.ctx = ctxOf s z.wk && e.rid = (tensorOf (z.w.record x.trec.toNat)).rid) = some re
  record : (tensorOf (z.w.record x.trec.toNat)).error (kind = 1) = none
  inside : tensorOutside (tensorOf (z.w.record x.trec.toNat)) re = none
  aligned : (z.w.rg x.gsa.toNat).toNat % 16 = 0
  span : (z.w.rg x.gsa.toNat).toNat + (tensorOf (z.w.record x.trec.toNat)).bytes
    ≤ if kind = 2 then 65536 * z.l.ks else stashSpan s (gangOf s z.wk)
  barrier : ∀ a, (if x.cpopx.getLsbD 0 then none else some (z.w.rg x.gba.toNat).toNat) = some a →
    a % 16 = 0 ∧ a + 16 ≤ stashSpan s (gangOf s z.wk) ∧ (Bar.read s (gangOf s z.wk) a).valid = true
  mask : kind = 3 → x.cmask.getLsbD (coreNo z.wk % 16) = true

/-- What a copy does where its checks pass: nothing for no bytes, else its operation starts and holds the tag. -/
theorem copyBody_good (h : Ready s i g .bundle z) (hk : (z.bundle g).act.head? = some k) (hy : sget k z.w.fibres = some y) (hc : z.CopyGood s x kind re) :
    copyBody kind x (z.given g []) (begun s z.w (z.bundle g) i z.f)
      = if (tensorOf (z.w.record x.trec.toNat)).bytes = 0 then begun s z.w (z.bundle g) i z.f
        else startOp (begun (tagHold s (ctxOf s z.wk) y.ct.toNat) z.w (z.bundle g) i z.f) (z.given g []) (.copy (CopyOp.given z x kind y.ct)) := by
  have hmem : k ∈ (z.bundle g).act := List.mem_of_head? hk
  have hspan : sideSpan (begun s z.w (z.bundle g) i z.f) (z.given g []) kind = if kind = 2 then 65536 * z.l.ks else stashSpan s (gangOf s z.wk) := by
    unfold sideSpan
    rw [given_wk, begun_kaolinSlots h, begun_gang h]
    rfl
  have hgood := copyCheck_good (s := begun s z.w (z.bundle g) i z.f) (b := z.given g []) (x := x) hc.record hc.inside hc.aligned (hspan ▸ hc.span)
    (by rw [given_wk, begun_gang h]; exact hc.barrier) hc.mask
  unfold copyBody
  rw [show (z.given g []).act.head? = some k from hk, Option.bind_some, given_wk, begun_act h hmem hy]
  dsimp only
  rw [begun_rec4 h, given_g h, given_g h, begun_ctx h, regionOf_begun_cached hc.region]
  dsimp only
  rw [hgood]
  dsimp only
  rw [watchBundle_go h]
  dsimp only
  rw [given_some (List.ne_nil_of_mem hmem), passed_ct, tagHold_begun, Bool.or_false]
  simp only [decide_eq_true_eq]
  rfl

/-- A copy completes at once, or starts its operation, where its checks pass. -/
theorem copy_issues {f : Form} (h : Ready s i g .bundle z) (e : form i = some f) (hconst : f.const = none) (hl : f.ll = true)
    (hx : exec i s = issue i g .bundle (copyBody kind x) s) (hk : (z.bundle g).act.head? = some k) (hy : sget k z.w.fibres = some y)
    (hc : z.CopyGood s x kind re) (hi : ∀ z, InRange i g z := by intro _ _ _ _ _; rfl) :
    ((tensorOf (z.w.record x.trec.toNat)).bytes = 0 → ∃ t, exec i s = .next t ∧ Runs s t z.w (z.bundle g) [] (fun _ y => y) id)
    ∧ ((tensorOf (z.w.record x.trec.toNat)).bytes ≠ 0 → ∃ t, exec i s = .next t
      ∧ Starts (tagHold s (ctxOf s z.wk) y.ct.toNat) t z.w (z.bundle g) z.c.header [] (fun _ y => y) (z.bundle g).act (.copy (CopyOp.given z x kind y.ct))) := by
  have hexec := performed h e hconst hx hi
  rw [copyBody_good h hk hy hc] at hexec
  refine ⟨fun hb => ⟨_, hexec, ?_⟩, fun hb => ⟨_, hexec, ?_⟩⟩
  · rw [if_pos hb]
    exact runs_quiet h
  · rw [if_neg hb]
    exact starts_of (s0 := tagHold s (ctxOf s z.wk) y.ct.toNat) h h.wave (List.ne_nil_of_mem (List.mem_of_head? hk)) (by rw [form_is h e]; exact hl) _

end

/-! ### Collectives (R237) -/

/-- The collective group read through a table of contexts. -/
theorem Tables.groupOf {t s : State} (h : Tables t s) (ctx group : Nat) : groupOf t ctx group = groupOf s ctx group := by
  unfold Machine.groupOf
  simp only [h.ctxRd, rd_congr h.mem h.gangs]

/-- The checks of a collective find after the issue what they found before. -/
theorem collCheck_begun (s : State) (w : Wave) (b : Bundle) (i : Instr) (f : Form) (core gk ctx : Nat) (c : CollOp) (n : Nat) :
    collCheck (begun s w b i f) core gk ctx c n = collCheck s core gk ctx c n := by
  unfold collCheck
  simp only [regionOf_begun_entry, isTagged_begun]
  rfl

/-- A collective record's control word with the valid bit set and the others clear. -/
theorem collControl_good {w : W64} (h : w.extractLsb' 0 32 = 1) : (decide (w.toNat % 2 = 0) || bits w.toNat 1 31 != 0) = false := by
  have hlow : w.toNat % 2 ^ 32 = 1 := by
    have := congrArg BitVec.toNat h
    simpa [BitVec.extractLsb'_toNat] using this
  unfold bits
  simp only [Bool.or_eq_false_iff, decide_eq_false_iff_not, bne_eq_false_iff_eq]
  omega

/-- The lines that a collective of `n` members writes of a member's destination. -/
def CollOp.outLines (c : CollOp) (n : Nat) : List Nat :=
  if collOut c n = 0 then [] else (List.range ((ptrVa (collDst c) + collOut c n - 1) / 128 - ptrVa (collDst c) / 128 + 1)).map (fun i => ptrVa (collDst c) / 128 + i)

/-- A member of a group whose checks pass posts its operation with its rank. -/
theorem collBody_posts {s : State} {b : Bundle} {w : Wave} {x : CP} {c : CollOp} {l : List (Nat × Nat × Nat)} {rank : Nat} (hw : b.wave s = some w)
    (ha : b.act.isEmpty = false)
    (hc : c = { crec := b.rec4 s x.trec.toNat, kind := x.cpopx.extractLsb' 0 3, op := x.cpopx.extractLsb' 3 2, ty := x.cpopx.extractLsb' 5 5,
                scope := x.scope, bar := (b.g s x.gba.toNat).toNat, rank := 0, n := 0, lines := [], buf := BitVec.ofNat 8 x.trec.toNat })
    (hctl : (c.crec.getD 3 0).extractLsb' 0 32 = 1) (hgroup : groupOf s (ctxOf s b.wk) (collGroup c) = some l)
    (hrank : l.findIdx? (fun m => m = (s.peers.peerId, w.launch, w.wg)) = some rank)
    (hcheck : collCheck s (coreNo b.wk) (gangOf s b.wk) (ctxOf s b.wk) c l.length = none) (hbar : (Bar.read s (gangOf s b.wk) c.bar).valid = true)
    (hwatch : ∀ hit, watchBundle s b hit = (s, b)) :
    collBody x b s = startOp s b (.coll { c with rank := rank, n := l.length, lines := c.outLines l.length }) := by
  subst hc
  unfold collBody
  rw [hw]
  dsimp only at hctl hbar ⊢
  rw [ha, if_neg Bool.false_ne_true, collControl_good hctl, if_neg Bool.false_ne_true, hgroup, Option.map_some, Option.getD_some, hcheck]
  dsimp only
  rw [hbar, Option.bind_some, hrank]
  dsimp only [Option.map_some]
  rw [hwatch]
  dsimp only
  rw [ha]
  rfl

/-- Settles O28: the checks at issue pass as the premises say, so the operation starts with what its site gives. -/
theorem copiesAndCollectives : Obligations.CopiesAndCollectives := by
  intro s g x z b ctx gk ws r side bar barOk copies
  have hlines (kind : Nat) (hb : r.bytes ≠ 0) : copyLines kind r side
      = if kind = 1 then r.lines else (List.range ((side + r.bytes - 1) / 128 - side / 128 + 1)).map (fun i => side / 128 + i) := by
    unfold copyLines
    rw [if_neg hb]
  have hcopies (kind : Nat) {i : Instr} {f : Form} (e : form i = some f) (hconst : f.const = none) (hl : f.ll = true)
      (hx : exec i s = issue i g .bundle (copyBody kind x) s) (hi : ∀ z, InRange i g z := by intro _ _ _ _ _; rfl) : copies kind i := by
    intro h k y re hk hy hre herr hout halign hspan hbar hmask
    obtain ⟨hnone, hsome⟩ := copy_issues (kind := kind) h e hconst hl hx hk hy ⟨hre, herr, hout, halign, hspan, hbar, hmask⟩ hi
    refine ⟨hnone, fun hb => ?_⟩
    rw [← hlines kind hb]
    exact hsome hb
  refine ⟨hcopies 0 rfl rfl rfl rfl, hcopies 1 rfl rfl rfl rfl, hcopies 2 rfl rfl rfl rfl, hcopies 3 rfl rfl rfl rfl, ?_⟩
  intro c l rank hc h ha hctl hgroup hrank hcheck hbar
  refine starts_by h ha rfl rfl rfl rfl (collBody_posts (c := c) (begun_wave_given h) (given_some ha []) ?_ (by rw [hc]; exact hctl) ?_ hrank ?_ ?_ (watchBundle_go h))
  · rw [begun_rec4 h, given_g h]
    exact hc
  · rw [given_wk, begun_ctx h, (begun_tables _ _ _ _ _).groupOf]
    exact hgroup
  · rw [given_wk, begun_ctx h, begun_gang h, collCheck_begun]
    exact hcheck
  · rw [given_wk, begun_gang h]
    exact hbar

end Sys2Proof.Machine
end

section
/-! SUPPORT. Steps of the copy and collective engines (O39). -/

namespace Sys2Proof.Machine

/-! ### Cells that land -/

/-- What distinct keys and as many values make of a key: its cell, and no other. -/
theorem zip_names {β : Type} {ks : List Nat} {vs : List β} (hn : ks.Nodup) (hl : vs.length = ks.length) {i : Nat} (hi : i < ks.length) (d : β) :
    (∀ c ∈ ks.zip vs, c.1 = ks.getD i 0 → c.2 = vs.getD i d) ∧ ∃ c ∈ ks.zip vs, c.1 = ks.getD i 0 := by
  have hv : i < vs.length := hl ▸ hi
  rw [List.getD_eq_getElem _ _ hi, List.getD_eq_getElem _ _ hv]
  refine ⟨fun c hc he => ?_, (ks[i], vs[i]), List.mem_iff_getElem.2 ⟨i, by rw [List.length_zip]; omega, by rw [List.getElem_zip]⟩, rfl⟩
  obtain ⟨j, hj, rfl⟩ := List.mem_iff_getElem.1 hc
  rw [List.length_zip] at hj
  rw [List.getElem_zip] at he ⊢
  obtain rfl : j = i := (List.Nodup.getElem_inj_iff hn).1 he
  rfl

theorem zip_names_not {β : Type} {ks : List Nat} (vs : List β) {a : Nat} (ha : a ∉ ks) : ∀ c ∈ ks.zip vs, c.1 ≠ a := by
  rintro c hc rfl
  exact ha (List.of_mem_zip hc).1

/-- Bytes at distinct addresses of a map of bytes. -/
theorem cells_land {m : Sparse Byte} {as : List Nat} {bs : List (Byte × Bool)} (hn : as.Nodup) (hl : bs.length = as.length) :
    (∀ i < as.length, sgetD 0 ((as.zip bs).foldl (fun m c => sputD 0 c.1 c.2.1 m) m) (as.getD i 0) = (bs.getD i (0, false)).1)
      ∧ ∀ a, a ∉ as → sgetD 0 ((as.zip bs).foldl (fun m c => sputD 0 c.1 c.2.1 m) m) a = sgetD 0 m a := by
  refine ⟨fun i hi => ?_, fun a ha => cells_other (zip_names_not bs ha)⟩
  obtain ⟨hval, hmem⟩ := zip_names hn hl hi (0, false)
  exact cells_named (fun c hc he => congrArg Prod.fst (hval c hc he)) hmem

theorem mem_dedup {l : List Nat} {u : Nat} (h : u ∈ l) : ∀ {seen : List Nat}, u ∉ seen → u ∈ dedup seen l := by
  induction l with
  | nil => cases h
  | cons a l ih =>
    intro seen hs
    unfold dedup
    by_cases ha : u = a
    · rw [if_neg (by simpa [← ha] using hs), ha]
      exact List.mem_cons_self
    · have hl : u ∈ l := (List.mem_cons.1 h).resolve_left ha
      split
      · exact ih hl hs
      · exact List.mem_cons_of_mem _ (ih hl (by simp [ha, hs]))

/-- Where no window stands before memory, cells are put unit by unit: each is, and nothing else is. -/
theorem putUnits_putAll {s : State} (h : ∀ e ∈ s.gangs, e.2.windows = []) (cells : List (Nat × Byte × Bool)) :
    ∃ l q, putUnits s cells = s.withMem (putAll s.mem l) q ∧ ∀ c, c ∈ l ↔ ∃ e ∈ cells, c = (e.1, e.2.1) := by
  let part (u : Nat) : List Host.Cell := (cells.filter (fun c => c.1 / 64 = u)).map (fun c => (c.1, c.2.1))
  have hfold (us : List Nat) : ∃ q, us.foldl (fun s u =>
      let part := cells.filter (fun c => c.1 / 64 = u)
      writeBytes s (part.map (fun c => (c.1, c.2.1))) (part.any (·.2.2))) s = s.withMem (putAll s.mem (us.map part).flatten) q := by
    induction us using List.reverseRecOn with
    | nil => exact ⟨s.memPois, rfl⟩
    | append_singleton us u ih =>
      obtain ⟨q, hq⟩ := ih
      rw [List.foldl_append, hq, List.foldl_cons, List.foldl_nil, writeBytes_putAll (by exact h), List.map_append, List.flatten_append, putAll_append]
      simp only [List.map_cons, List.map_nil, List.flatten_cons, List.flatten_nil, List.append_nil]
      exact ⟨_, rfl⟩
  obtain ⟨q, hq⟩ := hfold (dedup [] (cells.map (·.1 / 64)))
  refine ⟨_, q, hq, fun c => ⟨fun hc => ?_, ?_⟩⟩
  · obtain ⟨l, hl, hc⟩ := List.mem_flatten.1 hc
    obtain ⟨u, -, rfl⟩ := List.mem_map.1 hl
    obtain ⟨e, he, rfl⟩ := List.mem_map.1 hc
    exact ⟨e, (List.mem_filter.1 he).1, rfl⟩
  · rintro ⟨e, he, rfl⟩
    refine List.mem_flatten.2 ⟨part (e.1 / 64), List.mem_map.2 ⟨_, mem_dedup (List.mem_map.2 ⟨e, he, rfl⟩) (by simp), rfl⟩, ?_⟩
    exact List.mem_map.2 ⟨e, List.mem_filter.2 ⟨he, by simp⟩, rfl⟩

/-- Memory takes bytes of an engine at distinct addresses, and nothing but memory and its poison differs. -/
theorem putUnits_lands {s : State} (h : ∀ e ∈ s.gangs, e.2.windows = []) {pas : List Nat} {bs : List (Byte × Bool)} (hn : pas.Nodup) (hl : bs.length = pas.length) :
    ∃ m q, putUnits s (pas.zip bs) = s.withMem m q
      ∧ (∀ i < pas.length, pByte (s.withMem m q) (pas.getD i 0) = (bs.getD i (0, false)).1) ∧ ∀ p, p ∉ pas → pByte (s.withMem m q) p = pByte s p := by
  obtain ⟨l, q, hput, hmem⟩ := putUnits_putAll h (pas.zip bs)
  refine ⟨_, q, hput, fun i hi => ?_, fun p hp => ?_⟩
  · obtain ⟨hval, c, hc, he⟩ := zip_names hn hl hi (0, false)
    refine putAll_named (fun e hm hk => ?_) ⟨(c.1, c.2.1), (hmem _).2 ⟨c, hc, rfl⟩, he⟩
    obtain ⟨d, hd, rfl⟩ := (hmem e).1 hm
    exact congrArg Prod.fst (hval d hd hk)
  · refine putAll_other fun e hm => ?_
    obtain ⟨d, hd, rfl⟩ := (hmem e).1 hm
    exact zip_names_not bs hp d hd

/-! ### A copy's line (R233, R234) -/

theorem fillAll_unmapped {s : State} (h : ∀ e ∈ s.gangs, e.2.windows = []) (core : Option Nat) (ag : Agent) (gk : Nat) (wr : Bool) (l : List Nat) :
    fillAll s core ag gk wr l = (s, .ok ()) := by
  induction l with
  | nil => rfl
  | cons a l ih =>
    unfold fillAll
    cases hg : sget gk s.gangs with
    | none => exact ih
    | some G =>
      have hw : winAt G a = none := by
        unfold winAt
        rw [h _ (sget_mem hg)]
        rfl
      simp only [Option.bind_some, hw]
      exact ih

/-- The end of an operation changes its wave and the list of operations. -/
theorem endOp_some {s : State} {n : Nat} {o : Op} (h : sget n s.ops = some o) : ∃ w, endOp s n = { s with waves := w, ops := sdel n s.ops } := by
  unfold endOp dropFlag
  rw [h]
  dsimp only
  split
  · exact ⟨s.waves, rfl⟩
  · exact ⟨_, rfl⟩

/-- An operation that has ended holds nothing any more. -/
theorem unheld_sdel {s t : State} {n : Nat} (h : Unheld s) (ht : t.ops = sdel n s.ops) : Unheld t := by
  intro e he
  rw [ht] at he
  exact h e (List.mem_of_mem_filter he)

/-- The line `line` of a copy, which its destination took in `u`, is done in `t`: the operation has the lines left, or is gone with the last. -/
structure LineDone (s u t : State) (n line : Nat) (o : Op) (c : CopyOp) : Prop where
  op : sget n t.ops = if c.lines.filter (fun l => l != line) = [] then none
    else some { o with wait := none, kind := .copy { c with lines := c.lines.filter (fun l => l != line) } }
  others : ∀ j, j ≠ n → sget j t.ops = sget j s.ops
  launches : t.launches = u.launches
  mem : t.mem = u.mem
  gangs : t.gangs = u.gangs

/-- The end of a copy. -/
theorem finishCopy_parts {s : State} {n : Nat} {o o' : Op} (c : CopyOp) (h : sget n s.ops = some o') (hun : Unheld s) :
    ∃ x w, finishCopy s n o c = { s with contexts := x, waves := w, ops := sdel n s.ops } := by
  obtain ⟨w, hend⟩ := endOp_some (s := tagDrop s o.ctx c.tag.toNat) h
  unfold finishCopy
  rw [hend, Unheld.retryMem_same (unheld_sdel hun rfl)]
  exact ⟨_, w, rfl⟩

section
variable {s u : State} {n line : Nat} {o : Op} {c : CopyOp} {x : Sparse (List (Byte × Bool))} {bs : List (Byte × Bool)}

/-- A line whose source is read and that its destination takes leaves the copy, which ends with the last. -/
theorem copyLineWrite_done (hn : sget n s.ops = some o) (hk : o.kind = .copy c) (hline : line ∈ c.lines) (hbar : c.bar = none)
    (hslot : c.kind = 2 → slotInUse s n o.gang (128 * line / 65536) = false) (hun : Unheld s)
    (hsrc : copySource s (o.agent n 1) o.gang o.ctx c (tensorOf c.trec) (copyPieces c (tensorOf c.trec) line) = (s, .done ({ c with src := x }, bs)))
    (hdest : copyDest s (o.agent n 1) o.gang o.ctx { c with src := x } (tensorOf c.trec) (copyPieces c (tensorOf c.trec) line) bs = (u, .done ()))
    (hops : u.ops = s.ops) : ∃ t, exec (.copyLineWrite n line) s = .next t ∧ LineDone s u t n line o { c with src := x } := by
  let c1 : CopyOp := { c with src := x, lines := c.lines.filter (fun l => l != line) }
  let v := modOp u n (fun o => { o with wait := none, kind := .copy c1 })
  let v1 := chargeCluster v (o.core / 4) (o.gang / 2 ^ 32) Config.lineClocks
  have hcredit (k : Nat) : engineCredit v1 o.gang c.bar k = v1 := by
    rw [hbar]
    rfl
  have hexec : exec (.copyLineWrite n line) s = .next (if c1.lines.isEmpty then finishCopy v1 n o c1 else retryMem v1 none) := by
    change execCopyLineWrite n line s = _
    unfold execCopyLineWrite
    rw [hn]
    dsimp only
    rw [hk]
    dsimp only
    rw [if_neg (by simpa [hline] using hslot), hsrc]
    dsimp only
    rw [hdest]
    dsimp only
    change Host.Outcome.next (if c1.lines.isEmpty then finishCopy (engineCredit v1 o.gang c.bar _) n o c1 else retryMem (engineCredit v1 o.gang c.bar _) none) = _
    rw [hcredit]
  have hopsV : v1.ops = smod n (fun o => { o with wait := none, kind := .copy c1 }) s.ops := hops ▸ rfl
  have hunU : Unheld u := fun e he => hun e (hops ▸ he)
  have hunV : Unheld v1 := hunU.modOp (f := fun o => { o with wait := none, kind := .copy c1 }) fun _ _ => trivial
  have hself : sget n v1.ops = some { o with wait := none, kind := .copy c1 } := by
    rw [hopsV, sget_smod_self, hn]
    rfl
  have hother (j : Nat) (hj : j ≠ n) : sget j v1.ops = sget j s.ops := by rw [hopsV, sget_smod_ne hj]
  refine ⟨_, hexec, ?_⟩
  by_cases hleft : c.lines.filter (fun l => l != line) = []
  · obtain ⟨x, w, hfin⟩ := finishCopy_parts (o := o) c1 hself hunV
    rw [if_pos (List.isEmpty_iff.2 hleft), hfin]
    refine ⟨?_, fun j hj => (sget_sdel_ne hj _).trans (hother j hj), rfl, rfl, rfl⟩
    rw [if_pos hleft]
    exact sget_sdel_self _ _
  · rw [if_neg (by simpa [c1] using hleft), hunV.retryMem_same]
    refine ⟨?_, hother, rfl, rfl, rfl⟩
    rw [if_neg hleft]
    exact hself

/-- The addresses of some pieces on the side of the stash or of Kaolin. -/
def CopyOp.sideBytes (c : CopyOp) (ps : List Nat) : List Nat := (ps.map (fun p => addrs (c.side + p) 16)).flatten

/-- A line for the stash lands there (R233). -/
theorem copyDest_stash {ag : Agent} {gk ctx : Nat} {t : Tensor} {ps : List Nat} {h : Gang} (hw : NoPhaseWaiters s) (hopen : ∀ e ∈ s.gangs, e.2.windows = [])
    (hg : sget gk s.gangs = some h) (hk : c.kind = 0 ∨ c.kind = 3)
    (hown : ∀ a ∈ c.sideBytes ps, stashOwned s gk ag.op a = false) :
    ∃ g' p, copyDest s ag gk ctx c t ps bs = ({ s with gangs := g' }, .done ())
      ∧ sget gk g' = some { h with
          stash := ((c.sideBytes ps).zip bs).foldl (fun m e => sputD 0 e.1 e.2.1 m) h.stash, stashPois := p } := by
  obtain ⟨p, hput⟩ := putCells_open (hopen _ (sget_mem hg)) ((c.sideBytes ps).zip bs)
  have hfree : (c.sideBytes ps).any (stashOwned s gk ag.op) = false :=
    List.any_eq_false.2 fun a ha => by rw [hown a ha]; exact Bool.false_ne_true
  refine ⟨_, p, ?_, (sget_smod_self gk (fun g => g.putCells ((c.sideBytes ps).zip bs)) s.gangs).trans ?_⟩
  · unfold copyDest
    dsimp only
    rw [← CopyOp.sideBytes.eq_1, if_neg (by omega), if_neg (by omega), hfree, if_neg Bool.false_ne_true, fillAll_unmapped hopen]
    dsimp only
    rw [wakeBars_idle (s := modGang s gk _) hw]
    rfl
  · rw [hg, Option.map_some, hput]

/-- A line for Kaolin lands there (R234). -/
theorem copyDest_kaolin {ag : Agent} {gk ctx : Nat} {t : Tensor} {ps : List Nat} {h : Gang} (hg : sget gk s.gangs = some h) (hk : c.kind = 2) :
    ∃ g' p, copyDest s ag gk ctx c t ps bs = ({ s with gangs := g' }, .done ())
      ∧ sget gk g' = some { h with
          kaolin := ((c.sideBytes ps).zip bs).foldl (fun m e => sputD 0 e.1 e.2.1 m) h.kaolin, kaolinPois := p } := by
  let f (g : Gang) : Gang := { g with
    kaolin := ((c.sideBytes ps).zip bs).foldl (fun m e => sputD 0 e.1 e.2.1 m) g.kaolin
    kaolinPois := poisUnits 8 g.kaolinPois ((c.sideBytes ps).zip (bs.map (·.2))) }
  refine ⟨smod gk f s.gangs, (f h).kaolinPois, ?_, (sget_smod_self gk f s.gangs).trans (by rw [hg]; rfl)⟩
  unfold copyDest
  dsimp only
  rw [if_neg (by omega), if_pos hk]
  rfl

/-- A line for memory goes to the bytes of its pieces (R234). -/
theorem copyDest_memory {ag : Agent} {gk ctx : Nat} {t : Tensor} {ps pas : List Nat} (hk : c.kind = 1)
    (hphys : physical s none ctx .write true c.tag.toNat ag t.rid (ps.map (fun p => addrs (t.vaOf p) 16)).flatten = (s, .ok pas))
    (hfree : reachesOwned s ag.op ctx c.tag.toNat (ps.map (fun p => addrs (t.vaOf p) 16)).flatten pas = false) :
    copyDest s ag gk ctx c t ps bs = (putUnits s (pas.zip bs), .done ()) := by
  unfold copyDest engineWrite
  dsimp only
  rw [if_pos hk, hphys]
  dsimp only
  rw [hfree]
  rfl

end

/-! ### A collective of one member (R237, R238) -/

theorem toBytesLE_fromBytesLE (l : List Byte) : toBytesLE l.length (fromBytesLE l) = l := by
  induction l with
  | nil => rfl
  | cons b l ih =>
    have hdiv : (b.toNat + 256 * fromBytesLE l) / 256 = fromBytesLE l := by have := b.isLt; omega
    have hlow : BitVec.ofNat 8 (b.toNat + 256 * fromBytesLE l) = b := by
      apply BitVec.eq_of_toNat_eq
      have := b.isLt
      rw [BitVec.toNat_ofNat]
      omega
    rw [List.length_cons, fromBytesLE, toBytesLE, hdiv, hlow, ih]

/-- Equal pieces of a list, one after the other. -/
theorem flatten_pieces {α : Type} (size : Nat) (l : List α) (k : Nat) :
    ((List.range k).map (fun i => (l.drop (size * i)).take size)).flatten = l.take (size * k) := by
  induction k with
  | zero => rw [Nat.mul_zero]; rfl
  | succ k ih => rw [List.range_succ, List.map_append, List.flatten_append, ih, Nat.mul_succ, List.take_add]; simp

/-- The elements of a string of bytes give the string's bytes back. -/
theorem bytes_elemsOf {size : Nat} {bs : List (Byte × Bool)} (h : bs.length % size = 0) :
    (((elemsOf size bs).map (fun e => (toBytesLE size e.1).map (·, e.2))).flatten).map Prod.fst = bs.map Prod.fst := by
  have hlen : size * (bs.length / size) = bs.length := by have := Nat.div_add_mod bs.length size; omega
  have hpiece (i : Nat) (hi : i < bs.length / size) : toBytesLE size (fromBytesLE (((bs.drop (size * i)).take size).map Prod.fst))
      = ((bs.map Prod.fst).drop (size * i)).take size := by
    have hin : size * (i + 1) ≤ bs.length := hlen ▸ Nat.mul_le_mul_left size hi
    rw [Nat.mul_succ] at hin
    have hl : (((bs.map Prod.fst).drop (size * i)).take size).length = size := by rw [List.length_take, List.length_drop, List.length_map]; omega
    rw [List.map_take, List.map_drop]
    exact (congrArg (toBytesLE · _) hl.symm).trans (toBytesLE_fromBytesLE _)
  calc (((elemsOf size bs).map (fun e => (toBytesLE size e.1).map (·, e.2))).flatten).map Prod.fst
      = ((List.range (bs.length / size)).map (fun i => toBytesLE size (fromBytesLE (((bs.drop (size * i)).take size).map Prod.fst)))).flatten := by
        unfold elemsOf
        simp only [List.map_flatten, List.map_map, Function.comp_def, List.map_id']
    _ = ((List.range (bs.length / size)).map (fun i => ((bs.map Prod.fst).drop (size * i)).take size)).flatten :=
        congrArg List.flatten (List.map_congr_left fun i hi => hpiece i (List.mem_range.1 hi))
    _ = bs.map Prod.fst := by rw [flatten_pieces, hlen, ← List.length_map Prod.fst, List.take_length]

/-- A reduction or a gathering of one member gives its own bytes (R238). -/
theorem collResult_one {c : CollOp} {bs : List (Byte × Bool)} (hk : c.kind = 0 ∨ c.kind = 2) (h : bs.length % collSize c = 0) :
    (collResult c [bs]).map Prod.fst = bs.map Prod.fst := by
  unfold collResult
  rcases hk with hk | hk <;> rw [hk]
  · exact bytes_elemsOf h
  · exact congrArg (List.map Prod.fst) (List.flatten_singleton)

theorem wakeBars_parts (s : State) (gk : Nat) : ∃ w, wakeBars s gk = { s with waves := w } := by
  unfold wakeBars
  induction wavesOf s gk using List.reverseRecOn with
  | nil => exact ⟨s.waves, rfl⟩
  | append_singleton l wk ih =>
    obtain ⟨w, hw⟩ := ih
    rw [List.foldl_append, hw]
    exact ⟨_, rfl⟩

/-- A credit changes a barrier object and wakes fibres. -/
theorem engineCredit_parts (s : State) (gk : Nat) (bar : Option Nat) (n : Nat) : ∃ g w, engineCredit s gk bar n = { s with gangs := g, waves := w } := by
  cases bar with
  | none => exact ⟨s.gangs, s.waves, rfl⟩
  | some a =>
    unfold engineCredit creditBar
    dsimp only
    split
    · obtain ⟨w, hw⟩ := wakeBars_parts (((Bar.read s gk a).credit n).write s gk a) gk
      exact ⟨_, w, hw⟩
    · exact ⟨s.gangs, s.waves, rfl⟩

theorem storeFull_unsaved {s : State} {gk : Nat} (h : gangSaved s gk = false) : storeFull s gk = false := by
  unfold gangSaved at h
  unfold storeFull
  cases hg : sget gk s.gangs with
  | none => rfl
  | some G =>
    rw [hg] at h
    rw [Option.bind_some]
    cases hs : G.saved with
    | none => rfl
    | some v => rw [Option.map_some, hs] at h; cases h

/-- A member of a gang that is not saved takes its bytes and ends (R236, R238). -/
theorem giveMember_ends {s : State} {n : Nat} {o o' : Op} {c : CollOp} {pas : List Nat} {bs : List (Byte × Bool)} (hn : sget n s.ops = some o')
    (hun : Unheld s) (hopen : ∀ e ∈ s.gangs, e.2.windows = []) (hsave : gangSaved s o.gang = false) (hpas : pas.Nodup) (hl : bs.length = pas.length) :
    (giveMember s (n, o, c) pas bs).ops = sdel n s.ops
      ∧ (∀ i < pas.length, pByte (giveMember s (n, o, c) pas bs) (pas.getD i 0) = (bs.getD i (0, false)).1)
      ∧ ∀ p, p ∉ pas → pByte (giveMember s (n, o, c) pas bs) p = pByte s p := by
  obtain ⟨m, q, hput, hland, hother⟩ := putUnits_lands hopen hpas hl
  obtain ⟨g, w, hcredit⟩ := engineCredit_parts (s.withMem m q) o.gang (some c.bar) bs.length
  obtain ⟨w', hend⟩ := endOp_some (s := { s.withMem m q with gangs := g, waves := w }) (n := n) hn
  have hgive : giveMember s (n, o, c) pas bs = { s.withMem m q with gangs := g, waves := w', ops := sdel n s.ops } := by
    unfold giveMember finishMember
    dsimp only
    rw [storeFull_unsaved hsave, hput, if_neg (by simp), if_neg (by rw [show gangSaved (s.withMem m q) o.gang = false from hsave]; simp), hcredit, hend,
      Unheld.retryMem_same (unheld_sdel hun rfl)]
    rfl
  rw [hgive]
  exact ⟨rfl, hland, hother⟩

/-- What has posted is an operation in flight. -/
theorem posted_sget {s : State} {ctx group seq : Nat} {m : Nat × Op × CollOp} (h : m ∈ posted s ctx group seq) : ∃ o, sget m.1 s.ops = some o := by
  obtain ⟨e, he, hpost⟩ := List.mem_filterMap.1 h
  have hkey : e.1 = m.1 := by
    split at hpost
    · split at hpost
      · exact congrArg Prod.fst (Option.some.inj hpost)
      · cases hpost
    · cases hpost
  refine Option.ne_none_iff_exists'.1 fun hnone => sget_eq_none_iff.1 hnone ?_
  exact List.mem_map.2 ⟨e, he, hkey⟩

/-- A collective whose one member has posted is performed for it (R238). -/
theorem collectivePerform_one {s : State} {ctx group seq n : Nat} {o : Op} {c : CollOp} {bs : List (Byte × Bool)} {pas : List Nat}
    (hposted : posted s ctx group seq = [(n, o, c)]) (hlate : lateMember s ctx group seq = none) (hone : c.n = 1) (hrank : c.rank = 0)
    (hfence : ∀ m ∈ (groupOf s ctx group).getD [], m.1 ∉ s.peers.fenced) (hsrc : collSources s [(n, o, c)] = (s, .ok [bs]))
    (hdst : collDests s [(n, o, c)] = (s, .ok [pas])) :
    exec (.collectivePerform ctx group seq) s = .next (giveMember s (n, o, c) pas (collResult c [bs])) := by
  have hmembers : ((groupOf s ctx group).getD []).any (fun x => s.peers.fenced.contains x.1) = false :=
    List.any_eq_false.2 fun m hm => by simpa using hfence m hm
  have hby : (List.range c.n).filterMap (fun r => [(n, o, c)].find? (fun x => x.2.2.rank = r)) = [(n, o, c)] := by
    rw [hone]
    simp [hrank]
  change execCollectivePerform ctx group seq s = _
  unfold execCollectivePerform
  rw [hlate, hposted]
  dsimp only [List.head?_cons]
  rw [hmembers, hby, hone]
  have hself : [(n, o, c)].any (fun x => disagree x.2.2 c) = false := by simp [disagree]
  rw [hself]
  unfold performColl giveMembers
  rw [hsrc]
  dsimp only
  rw [hdst]
  rfl

/-- Settles O39: a line lands where the copy's kind puts it; the one member of a collective takes its own bytes. -/
theorem copyAndCollectiveSteps : Obligations.CopyAndCollectiveSteps := by
  constructor
  · intro s n line o c c' bs hn hk hline hbar hq hw hopen hslot ps as left rest hsrc hc' hnd hlen
    obtain ⟨x, rfl⟩ : ∃ x, c' = { c with src := x } := ⟨_, hc'⟩
    have hdone {u : State} (hdest : copyDest s (o.agent n 1) o.gang o.ctx { c with src := x } (tensorOf c.trec) ps bs = (u, .done ())) (hops : u.ops = s.ops)
        (hlaunches : u.launches = s.launches) : ∃ t, exec (.copyLineWrite n line) s = .next t ∧ rest t ∧ t.mem = u.mem ∧ t.gangs = u.gangs := by
      obtain ⟨t, hexec, hop, hothers, hl, hmem, hgangs⟩ := copyLineWrite_done hn hk hline hbar hslot hq.unheld hsrc hdest hops
      exact ⟨t, hexec, ⟨hop, hothers, hl.trans hlaunches⟩, hmem, hgangs⟩
    refine ⟨fun h hg hkind hown => ?_, fun h hg hkind => ?_, fun pas hkind hpas hlp hphys hfree => ?_⟩
    · obtain ⟨g', p, hdest, hland⟩ := copyDest_stash (ag := o.agent n 1) (ps := ps) (c := { c with src := x }) (t := tensorOf c.trec) (bs := bs) hw hopen hg hkind hown
      obtain ⟨t, hexec, hrest, hmem, hgangs⟩ := hdone hdest rfl rfl
      obtain ⟨hin, hout⟩ := cells_land (m := h.stash) hnd hlen
      exact ⟨t, _, hexec, hrest, hmem, (congrArg (sget o.gang) hgangs).trans hland, hin, hout⟩
    · obtain ⟨g', p, hdest, hland⟩ := copyDest_kaolin (ag := o.agent n 1) (ctx := o.ctx) (ps := ps) (c := { c with src := x }) (t := tensorOf c.trec) (bs := bs) hg hkind
      obtain ⟨t, hexec, hrest, hmem, hgangs⟩ := hdone hdest rfl rfl
      obtain ⟨hin, hout⟩ := cells_land (m := h.kaolin) hnd hlen
      exact ⟨t, _, hexec, hrest, hmem, (congrArg (sget o.gang) hgangs).trans hland, hin, hout⟩
    · obtain ⟨m, q, hput, hin, hout⟩ := putUnits_lands hopen hpas hlp
      have hdest := copyDest_memory (gk := o.gang) (bs := bs) (c := { c with src := x }) hkind hphys hfree
      rw [hput] at hdest
      obtain ⟨t, hexec, hrest, hmem, hgangs⟩ := hdone hdest rfl rfl
      have hbyte (p : Nat) : pByte t p = pByte (s.withMem m q) p := congrArg (fun l => sgetD unlisted l p) hmem
      exact ⟨t, hexec, hrest, hgangs, fun i hi => (hbyte _).trans (hin i hi), fun p hp => (hbyte p).trans (hout p hp)⟩
  · intro s ctx group seq n o c bs pas hq hopen hposted hlate hone hrank hkind hfence hsave hsrc hdst hpas hlen hmod
    have hres := collResult_one hkind hmod
    have hlr : (collResult c [bs]).length = pas.length := by
      have := congrArg List.length hres
      rw [List.length_map, List.length_map] at this
      exact this.trans hlen
    have hbyte (i : Nat) : ((collResult c [bs]).getD i (0, false)).1 = (bs.getD i (0, false)).1 := by
      rw [← List.getD_map _ _ Prod.fst, ← List.getD_map _ _ Prod.fst, hres]
    obtain ⟨o', hn⟩ : ∃ o', sget n s.ops = some o' := posted_sget (hposted ▸ List.mem_singleton.2 rfl)
    obtain ⟨hops, hin, hout⟩ := giveMember_ends (c := c) hn hq.unheld hopen hsave hpas hlr
    refine ⟨_, collectivePerform_one hposted hlate hone hrank hfence hsrc hdst, ?_, fun j hj => ?_, fun i hi => (hin i hi).trans (hbyte i), hout⟩
    · rw [hops, sget_sdel_self]
    · rw [hops, sget_sdel_ne hj]

end Sys2Proof.Machine
end

section
/-! SUPPORT. The reservoir instructions on registers (O29): draws, weights and replacement as the rules write them (R240, R245 to R250). -/

namespace Sys2Proof.Machine

/-! ### Meanings that read the state as the issue left it -/

/-- A meaning that changes each fibre by what it finds in the state and the wave. -/
theorem eachFibre_begun {s : State} {i : Instr} {g : Guard} {f : Form} (e : form i = some f) (hc : f.const = none) {body : Bundle → State → State}
    (hx : exec i s = issue i g .none body s) {F : State → Wave → Nat → Fibre → Fibre} {fx : Site → Nat → Fibre → Fibre}
    (hb : ∀ b t, body b t = perFibre (F t) b t)
    (hfx : ∀ z, Ready s i g .none z → ∀ k y, F (begun s z.w (z.bundle g) i z.f) (begunWave z.w (z.bundle g)) k y = fx z k y)
    (hi : ∀ z, InRange i g z := by intro _ _ _ _ _; rfl) : EachFibre s i g fx := by
  intro z h _
  refine ⟨_, performed h e hc hx hi, ?_⟩
  rw [hb]
  unfold perFibre
  rw [begun_wave_given h]
  exact runs_same h _ rfl fun k _ y _ => hfx z h k _

/-! ### Draws (R240) -/

theorem bits_toNat {n : Nat} (x : BitVec n) (lo len : Nat) : bits x.toNat lo len = (x.extractLsb' lo len).toNat := by
  rw [BitVec.extractLsb'_toNat, Nat.shiftRight_eq_div_pow]
  rfl

/-- A draw at issue takes the seed of the launch of the site (R240). -/
theorem drawOf_begun {s : State} {i : Instr} {g : Guard} {rel : Rel} {z : Site} (h : Ready s i g rel z) (y : Fibre) :
    drawOf (begun s z.w (z.bundle g) i z.f) (begunWave z.w (z.bundle g)) y
      = ((drawHash z.l.seed (logicalId z.w y) y.draw).extractLsb' 40 24).toNat := by
  have hseed : sget (begunWave z.w (z.bundle g)).launch (begun s z.w (z.bundle g) i z.f).launches = some z.l := h.launch
  unfold drawOf
  rw [hseed, bits_toNat]
  rfl

/-! ### Weights (R241, R246, R247, R249) -/

/-- The value of a format is read from its low bits alone. -/
theorem rsvVal_ofNat (n : Nat) : rsvVal (BitVec.ofNat 32 n) = fmt32.value n := by
  have hsign : (n % 2 ^ 32).testBit 31 = n.testBit 31 := by rw [Nat.testBit_mod_two_pow]; rfl
  have hmag : n % 2 ^ 32 % 2 ^ 31 = n % 2 ^ 31 := Nat.mod_mod_of_dvd n ⟨2, rfl⟩
  unfold rsvVal Fmt.value
  rw [BitVec.toNat_ofNat, show fmt32.mag = 31 from rfl, hsign, hmag]

/-- A weight that is a NaN, an infinity, a zero or negative (R246). -/
def badWeight (w : W32) : Bool :=
  match rsvVal w with
  | .fin false m _ => m = 0
  | _ => true

/-- A bad weight counts as +0. -/
theorem rsvWeight_eq (w : W32) : rsvWeight w = (if badWeight w then 0 else w, badWeight w) := by
  unfold rsvWeight badWeight
  cases rsvVal w with
  | nan => rfl
  | inf => rfl
  | fin neg m _ =>
    cases neg with
    | false => by_cases hm : m = 0 <;> simp [hm]
    | true => rfl

/-- The weight of a merge: none of a reservoir without a sample (R247). -/
theorem mergeWeight_eq (empty : Bool) (w : W32) :
    (if empty then (0, false) else rsvWeight w) = (if empty || badWeight w then 0 else w, !empty && badWeight w) := by
  rw [rsvWeight_eq]
  cases empty <;> rfl

/-- A candidate is taken where the product, rounded to a word, is below its weight (R246). -/
theorem rsvReplaces_eq (h : Nat) (wsum w : W32) : rsvReplaces h wsum w
    = decide (Flt.cmp (rsvVal (BitVec.ofNat 32 (fmt32.pack .near (Flt.mul (.fin false h (-24)) (rsvVal wsum))))) (rsvVal w) = some .lt) := by
  rw [rsvVal_ofNat, Bool.eq_iff_iff, decide_eq_true_iff]
  exact beq_iff_eq

/-- A count saturates at its largest value. -/
theorem saturated_eq (a top : Nat) : (if top < a then top else a) = min a top := by
  split <;> omega

/-- The contribution weight is 0 and not valid where the reservoir is void (R249). -/
theorem Rsv.weight_eq (r : Rsv) :
    r.weight = (if r.m = 0 || (rsvVal r.phat).isZero then 0
        else BitVec.ofNat 32 (fmt32.div .near false (rsvVal r.wsum) (Flt.mul (Flt.ofInt r.m) (rsvVal r.phat))),
      !(r.m = 0 || (rsvVal r.phat).isZero)) := by
  unfold Rsv.weight
  split
  · next h => rw [h]; rfl
  · next h => rw [Bool.eq_false_iff.2 h]; rfl

/-! ### The instructions -/

/-- Settles O29: each fibre's reservoir is updated by its own draw, which reads the launch's seed, and by the weights as R246 and R247 take them. -/
theorem reservoirResults : Obligations.ReservoirResults := by
  intro s g x draw drawn val near sum product quotient bad taken most qD qS put cap
  refine ⟨?clr, ?upd, ?mrg, ?cap, ?capI, ?fin, ?draw⟩
  case clr =>
    refine eachFibre_begun rfl rfl rfl (F := fun _ _ _ f => f.setQ x.qd.toNat { val := 0, pois := 0 }) (fun _ _ => rfl) fun _ _ _ _ => rfl
  case upd =>
    refine eachFibre_begun rfl rfl rfl (F := fun t w _ f =>
      let u := (f.rsv x.qd).update (drawOf t w f) (f.rv x.va.toNat) (f.rv x.vb.toNat) (f.rv x.vc.toNat)
      (f.drawn.setRsv x.qd u.1 (rsvKeep u.2)).setP x.pd u.2) (fun _ _ => rfl) fun z h k y => ?_
    dsimp only
    rw [drawOf_begun h]
    simp only [Rsv.update, rsvWeight_eq, rsvReplaces_eq]
    rfl
  case mrg =>
    refine eachFibre_begun rfl rfl rfl (F := fun t w _ f =>
      let u := (f.rsv x.qd).merge (f.rsv x.qs) (drawOf t w f) (f.rv x.va.toNat)
      (f.drawn.setRsv x.qd u.1 (rsvKeep u.2)).setP x.pd u.2) (fun _ _ => rfl) fun z h k y => ?_
    dsimp only
    rw [drawOf_begun h]
    simp only [Rsv.merge, mergeWeight_eq, rsvReplaces_eq, saturated_eq]
    rfl
  case cap =>
    refine eachFibre_begun rfl rfl rfl (F := fun _ _ _ f =>
      if bits (f.rv x.va.toNat).toNat 0 24 < (f.rsv x.qd).m then f.setRsv x.qd ((f.rsv x.qd).cap (bits (f.rv x.va.toNat).toNat 0 24)) 3 else f)
      (fun _ _ => rfl) fun z h k y => ?_
    simp only [bits_toNat]
    rfl
  case capI =>
    refine eachFibre_begun rfl rfl rfl (F := fun _ _ _ f =>
      if bits x.rtimm.toNat 0 13 < (f.rsv x.qd).m then f.setRsv x.qd ((f.rsv x.qd).cap (bits x.rtimm.toNat 0 13)) 3 else f)
      (fun _ _ => rfl) fun z h k y => ?_
    simp only [bits_toNat]
    rfl
  case fin =>
    refine eachFibre_begun rfl rfl rfl (F := fun _ _ _ f =>
      let r := f.rsv x.qd
      ((f.setV x.va.toNat r.weight.1).setP x.pd r.weight.2).setRsv x.qd { r with fin := true } 1) (fun _ _ => rfl) fun z h k y => ?_
    dsimp only
    rw [Rsv.weight_eq]
    rfl
  case draw =>
    refine eachFibre_begun rfl rfl rfl (F := fun t w _ f =>
      f.drawn.setV x.va.toNat (if x.rtimm.getLsbD 0 then BitVec.ofNat 32 (drawOf t w f) else BitVec.ofNat 32 (fmt32.pack .near (drawU (drawOf t w f)))))
      (fun _ _ => rfl) fun z h k y => ?_
    rw [drawOf_begun h]
    rfl

end Sys2Proof.Machine
end

section
/-! SUPPORT. Reservoirs in memory and in the stash (O30): the 16 bytes of a reservoir that a load delivers and that a store leaves (R251). -/

namespace Sys2Proof.Machine

/-! ### Loads into reservoir registers that are performed at once -/

/-- One load among those of an operation, as `tryAccesses` tries it. -/
def loadStep (s : State) (core wk gk : Nat) (t : Tried) (a : Access) : Tried :=
  let a := a.held s t.st
  match tryLoad t.st core wk gk a with
  | (s, .held) => { t with st := s, held := t.held ++ [a.held t.st s] }
  | (s, .fail sub addr) => { t with st := s, bad := t.bad ++ [(a, sub, addr)] }
  | (s, .done bs) => if a.isQ then { t with st := s, giveQ := t.giveQ ++ [a.giveQ bs] } else { t with st := s, give := t.give ++ a.give bs }

theorem tryAccesses_load {s : State} {core wk gk : Nat} {a : Access} {l : List Access} (hk : a.kind = .load) :
    tryAccesses s core wk gk (a :: l) = (a :: l).foldl (loadStep s core wk gk) { st := s } := by
  unfold tryAccesses
  rw [List.head?_cons, Option.map_some, hk]
  rfl

/-- A load into a reservoir register that gives its bytes and changes nothing. -/
theorem loadStep_done {s : State} {core wk gk : Nat} {t : Tried} {a : Access} {bs : List (Byte × Bool)} (ht : t.st = s) (hq : a.isQ = true)
    (h : tryLoad s core wk gk a = (s, .done bs)) : loadStep s core wk gk t a = { t with giveQ := t.giveQ ++ [a.giveQ bs] } := by
  subst ht
  unfold loadStep
  dsimp only
  rw [Access.held_same rfl, h]
  dsimp only
  rw [hq]
  rfl

section
variable {β : Type} {s : State} {acc : β → Access} {bytes : β → List (Byte × Bool)} {l : List β}

theorem loadSteps_done {core wk gk : Nat} (hq : ∀ e ∈ l, (acc e).isQ = true) (h : ∀ e ∈ l, tryLoad s core wk gk (acc e) = (s, .done (bytes e))) {t : Tried}
    (ht : t.st = s) : (l.map acc).foldl (loadStep s core wk gk) t = { t with giveQ := t.giveQ ++ l.map (fun e => (acc e).giveQ (bytes e)) } := by
  induction l generalizing t with
  | nil => rw [List.map_nil, List.map_nil, List.foldl_nil, List.append_nil]
  | cons e l ih =>
    obtain ⟨he, hl⟩ := List.forall_mem_cons.1 h
    obtain ⟨hqe, hql⟩ := List.forall_mem_cons.1 hq
    rw [List.map_cons, List.foldl_cons, loadStep_done ht hqe he, ih hql hl (t := { t with giveQ := t.giveQ ++ [(acc e).giveQ (bytes e)] }) ht, List.map_cons, List.append_assoc, List.singleton_append]

/-- Such loads start one operation that delivers to reservoir registers. -/
theorem startAccesses_doneQ {b : Bundle} (hn : l ≠ []) (hk : ∀ e ∈ l, (acc e).kind = .load) (hq : ∀ e ∈ l, (acc e).isQ = true)
    (h : ∀ e ∈ l, tryLoad s (coreNo b.wk) b.wk (gangOf s b.wk) (acc e) = (s, .done (bytes e))) :
    startAccesses s b (l.map acc) = startOp s b (.load [] (l.map (fun e => (acc e).giveQ (bytes e))) []) := by
  have htry := loadSteps_done hq h (t := { st := s }) rfl
  obtain ⟨e, l, rfl⟩ := List.exists_cons_of_ne_nil hn
  have hke : (acc e).kind = .load := hk e (List.mem_cons_self ..)
  rw [List.map_cons, ← tryAccesses_load hke] at htry
  unfold startAccesses
  rw [List.map_cons, htry]
  have hs : (acc e :: l.map acc).all (fun a => a.kind == .store || a.kind == .red) = false := by
    rw [List.all_cons, hke]
    rfl
  simp only [hs, Bool.false_eq_true, if_false]
  rfl
end

/-! ### A reservoir's 16 bytes (R239, R251) -/

/-- What a load gives a reservoir register: its 16 bytes, and the poison of each word that has a poisoned byte. -/
def reservoirGiven (x : RT) (k : Nat) (bs : List (Byte × Bool)) : QDelivery :=
  let word (i : Nat) : Nat := if ((bs.drop (4 * i)).take 4).any (·.2) then 2 ^ i else 0
  { slot := k, reg := x.qd.toNat
    val := { val := BitVec.ofNat 128 (fromBytesLE (bs.map (·.1))), pois := BitVec.ofNat 4 (word 0 + word 1 + word 2 + word 3) } }

theorem giveQ_rsvAccess (x : RT) (y : Fibre) (a : Access) (bs : List (Byte × Bool)) : (rsvAccess x y a).giveQ bs = reservoirGiven x a.slot bs := by
  simp only [Access.giveQ, rsvAccess, reservoirGiven, bit, List.range_succ, List.range_zero, List.nil_append, List.cons_append, List.map_cons, List.map_nil,
    List.sum_cons, List.sum_nil, Nat.add_zero, Nat.add_assoc]

/-- Byte `j` of a fibre's reservoir. -/
def reservoirByte (x : RT) (y : Fibre) (j : Nat) : Byte := (y.rq x.qd.toNat).val.extractLsb' (8 * j) 8

theorem data_rsvAccess (x : RT) (w : Wave) (b : Bundle) (k : Nat) (y : Fibre) (a : Access) :
    (rsvAccess x (passed w b k y) a).data = (List.range 16).map (reservoirByte x y) := by
  unfold rsvAccess
  rw [passed_rq]
  refine (toBytesLE_eq 16 _).trans (List.map_congr_left fun j _ => ?_)
  refine BitVec.eq_of_toNat_eq ?_
  rw [reservoirByte, BitVec.extractLsb'_toNat, Nat.shiftRight_eq_div_pow, BitVec.toNat_ofNat]

theorem length_pois_rsvAccess (x : RT) (y : Fibre) (a : Access) : (rsvAccess x y a).pois.length = 16 := by
  simp [rsvAccess, List.range_succ]

/-! ### Through a buffer record -/

/-- How a reservoir's access through a record is formed. -/
def rsvPlan (x : RT) (kind : AccKind) : Plan :=
  { k := (x.rtimm.extractLsb' 0 5).toNat, off := (x.rtimm.extractLsb' 5 8).toNat, idx := x.va.toNat, len := 16, kind := kind
    acc := if kind == .store then 1 else 0, can := fun r => if kind == .store then r.wr else r.rd }

theorem rsvBuffer_plan (x : RT) (kind : AccKind) (named : Bool) (b : Bundle) (s : State) :
    rsvBuffer x kind named b s = startFormed b (viaBuffer s b (rsvPlan x kind)
      (fun f a => (if named then namedTag f x.vb.toNat a else .ok a).map (rsvAccess x f))) := by
  unfold rsvBuffer rsvPlan
  rw [bits_toNat, bits_toNat]

section
variable {s : State} {i : Instr} {g : Guard} {x : RT} {z : Site} {reach : Nat → List (Nat × Nat)}

/-- The access of a passing fibre through the record that its instruction names. -/
def rsvStart (s : State) (z : Site) (g : Guard) (x : RT) (kind : AccKind) (va : List Nat) (k : Nat) (y : Fibre) : Access :=
  startAccess s z (z.given g []) (bufAt z.w (x.rtimm.extractLsb' 0 5).toNat) (rsvPlan x kind) k y va

/-- A load through a record, by the tag that each fibre's access takes, starts the operation that delivers the bytes served. -/
theorem rsvBuffer_loads {rel : Rel} {named : Bool} {sel : CellSel} {tag : Fibre → Nat} (h : Ready s i g rel z) (ho : Open s) (ha : (z.bundle g).act ≠ [])
    (hv : (bufAt z.w (x.rtimm.extractLsb' 0 5).toNat).valid = true) (hr : (bufAt z.w (x.rtimm.extractLsb' 0 5).toNat).rd = true)
    (hc : ∀ k ∈ (z.bundle g).act, siltOverlap s (coreNo z.wk) (ctxOf s z.wk) ((reach k).map (·.1)) = false
      ∧ Clear s z.wk [k] false false ((reach k).map (·.1)))
    (ht : Through s z g (bufAt z.w (x.rtimm.extractLsb' 0 5).toNat) x.va (x.rtimm.extractLsb' 5 8).toNat 0 16 tag .read reach)
    (htag : ∀ k ∈ (z.bundle g).act, ∀ y, sget k z.w.fibres = some y → ∀ a : Access, a.sel = .own → a.tag = y.ct.toNat →
      (if named then namedTag (passed z.w (z.bundle g) k y) x.vb.toNat a else .ok a) = .ok { a with sel := sel, tag := tag y }) :
    rsvBuffer x .load named (z.given g []) (begun s z.w (z.bundle g) i z.f) = startOp (begun s z.w (z.bundle g) i z.f) (z.given g [])
      (.load [] ((z.bundle g).act.map (fun k => reservoirGiven x k ((reach k).map (fun q => byteOf s q.2)))) []) := by
  let acc (k : Nat) (y : Fibre) : Access :=
    rsvAccess x (passed z.w (z.bundle g) k y) { rsvStart s z g x .load ((reach k).map (·.1)) k y with sel := sel, tag := tag y }
  have hgo := viaBuffer_go h (z.given g []) rfl rfl (rsvPlan x .load) (idx := x.va) (acc := acc)
    (mk := fun f a => (if named then namedTag f x.vb.toNat a else .ok a).map (rsvAccess x f)) rfl hv hr ht.1
    (fun k hk y hy => congrArg (Except.map (rsvAccess x _)) (htag k hk y hy _ rfl rfl)) (fun _ _ _ _ => rfl)
  have hstart := startAccesses_doneQ (s := begun s z.w (z.bundle g) i z.f) (b := z.given g []) (l := theP (z.bundle g) z.w) (acc := fun e => acc e.1 e.2)
    (bytes := fun e => (reach e.1).map (fun q => byteOf s q.2)) (theP_ne ha) (fun _ _ => rfl) (fun _ _ => rfl) fun e he => by
      obtain ⟨hk, hy⟩ := mem_theP he
      obtain ⟨hsilt, hclear⟩ := hc e.1 hk
      exact tryLoad_direct (begun_open z.w (z.bundle g) i z.f ho) ⟨behind_clear (begun_clear _ _ _ _ hclear), rfl, rfl, rfl,
        fun p hp => begun_served _ _ _ _ (ht.2 e.1 hk e.2 hy p hp), by unfold siltOverlap at hsilt ⊢; rw [begun_silt]; exact hsilt⟩
  rw [rsvBuffer_plan, hgo]
  refine hstart.trans ?_
  rw [← theP_map z g]
  simp only [acc, giveQ_rsvAccess]
  rfl

/-- `rsvst` leaves the reservoirs of its fibres in memory, and starts its operation. -/
theorem rsvst_starts (h : Ready s (.rsvst g x) g .none z) (ho : Open s) (ha : (z.bundle g).act ≠ [])
    (hv : (bufAt z.w (x.rtimm.extractLsb' 0 5).toNat).valid = true) (hw : (bufAt z.w (x.rtimm.extractLsb' 0 5).toNat).wr = true)
    (hc : ∀ k ∈ (z.bundle g).act, mustFollow s (coreNo z.wk) z.wk [k] (ctxOf s z.wk) ((reach k).map (·.1)) = false
      ∧ Clear s z.wk [k] false false ((reach k).map (·.1)))
    (ht : Through s z g (bufAt z.w (x.rtimm.extractLsb' 0 5).toNat) x.va (x.rtimm.extractLsb' 5 8).toNat 0 16 (fun y => y.ct.toNat) .write reach) :
    ∃ t, exec (.rsvst g x) s = .next t
      ∧ Starts { s with mem := t.mem, memPois := t.memPois } t z.w (z.bundle g) z.c.header [] (fun _ y => y) (z.bundle g).act (.store [])
      ∧ Wrote s t (z.bundle g).act reach (fun k j => ((sget k z.w.fibres).map (fun y => reservoirByte x y j)).getD 0) := by
  obtain ⟨re, -, hform⟩ := ht.1
  have hlen (k : Nat) (hk : k ∈ (z.bundle g).act) (y : Fibre) (hy : sget k z.w.fibres = some y) : (reach k).length = 16 :=
    (List.length_map _).symm.trans (formVas_length (hform k hk y hy))
  obtain ⟨m, p, hbody, hwrote⟩ := storesVia h (rsvPlan x .store) (acq := false) (tag := fun y => y.ct.toNat)
    (mk := fun f a => (if false then namedTag f x.vb.toNat a else .ok a).map (rsvAccess x f))
    (acc := fun k y => rsvAccess x (passed z.w (z.bundle g) k y) (rsvStart s z g x .store ((reach k).map (·.1)) k y))
    (data := fun k j => ((sget k z.w.fibres).map (fun y => reservoirByte x y j)).getD 0)
    rfl hv hw ht (fun _ _ _ _ => rfl)
    (fun k hk y hy => ⟨rfl, rfl, rfl, rfl, rfl, rfl, rfl, rfl, by rw [hlen k hk y hy, hy]; exact data_rsvAccess .., by
      rw [hlen k hk y hy]; exact length_pois_rsvAccess ..⟩) ho ha (fun k hk => (hc k hk).2) (fun k hk => (hc k hk).1)
  have hbody' : rsvBuffer x .store false (z.given g []) (begun s z.w (z.bundle g) (.rsvst g x) z.f)
      = startOp (begun (s.withMem m p) z.w (z.bundle g) (.rsvst g x) z.f) (z.given g []) (.store []) := (rsvBuffer_plan ..).trans hbody
  refine ⟨_, performed h rfl rfl rfl, starts_withMem h ha (by rw [form_is h rfl]; rfl) m p _ (congrArg (endIssue · (z.bundle g)) hbody'), hwrote _ ?_ ?_⟩
  all_goals rw [hbody']
  · rw [endIssue_mem, startOp_mem]; rfl
  · rw [endIssue_memPois, startOp_memPois]; rfl

/-! ### In the stash -/

variable {place : Nat → Nat} {G : Gang} (ho : Open s) (ha : (z.bundle g).act ≠ []) (hg : sget (gangOf s z.wk) s.gangs = some G)
  (hp : InStash s z g x.va (4 * (x.rtimm.extractLsb' 5 8).toNat) 16 place)
  (hc : ∀ k ∈ (z.bundle g).act, Clear s z.wk [k] true false (addrs (place k) 16))
include ho hg hp

/-- The access of a passing fibre to the stash. -/
def rsvInStash (s : State) (z : Site) (g : Guard) (x : RT) (kind : AccKind) (a : Nat) (k : Nat) (y : Fibre) : Access :=
  rsvAccess x (passed z.w (z.bundle g) k y) (stashAccess s z (z.given g []) kind k y a 16)

theorem rsvStash_forms {kind : AccKind} (h : Ready s i g .none z) : rsvStash x kind (z.given g []) (begun s z.w (z.bundle g) i z.f)
    = startAccesses (begun s z.w (z.bundle g) i z.f) (z.given g []) ((theP (z.bundle g) z.w).map (fun e => rsvInStash s z g x kind (place e.1) e.1 e.2)) := by
  unfold rsvStash
  rw [bits_toNat, viaStash_go (mk := fun f a => rsvAccess x f a) h ho hg hp (fun _ _ => rfl)]
  rfl

include ha hc

/-- `rsvld.s` starts the operation that delivers the bytes of the stash. -/
theorem rsvldS_starts (h : Ready s (.rsvldS g x) g .none z) :
    ∃ t, exec (.rsvldS g x) s = .next t ∧ Starts s t z.w (z.bundle g) z.c.header [] (fun _ y => y) (z.bundle g).act
      (.load [] ((z.bundle g).act.map (fun k => reservoirGiven x k ((addrs (place k) 16).map (stashByte G)))) []) := by
  refine starts_by h ha rfl rfl rfl rfl ?_
  have hgk : gangOf (begun s z.w (z.bundle g) (.rsvldS g x) z.f) (z.given g []).wk = gangOf s z.wk := begun_gang h
  rw [rsvStash_forms ho hg hp h]
  refine (startAccesses_doneQ (acc := fun e : Nat × Fibre => rsvInStash s z g x .load (place e.1) e.1 e.2)
    (bytes := fun e => (addrs (place e.1) 16).map (stashByte G)) (theP_ne ha) (fun _ _ => rfl) (fun _ _ => rfl) fun e he => ?_).trans ?_
  · obtain ⟨hk, hy⟩ := mem_theP he
    rw [hgk]
    exact tryLoad_stash (begun_open z.w (z.bundle g) _ z.f ho) rfl (begun_clear z.w (z.bundle g) _ z.f (hc e.1 hk)) hg
      (notOwned (hp e.1 hk e.2 hy).2.2.2)
  · rw [← theP_map z g]
    simp only [rsvInStash, giveQ_rsvAccess]
    rfl

/-- `rsvst.s` leaves the reservoirs of its fibres in the stash, and starts its operation. -/
theorem rsvstS_starts (hw : NoPhaseWaiters s) (h : Ready s (.rsvstS g x) g .none z) :
    ∃ t h', exec (.rsvstS g x) s = .next t
      ∧ Starts { s with gangs := t.gangs } t z.w (z.bundle g) z.c.header [] (fun _ y => y) (z.bundle g).act (.store [])
      ∧ sget (gangOf s z.wk) t.gangs = some h' ∧ (∀ j, j ≠ gangOf s z.wk → sget j t.gangs = sget j s.gangs)
      ∧ StashTook G h' (z.bundle g).act place 16 (fun k j => ((sget k z.w.fibres).map (fun y => reservoirByte x y j)).getD 0) := by
  have hgk : gangOf (begun s z.w (z.bundle g) (.rsvstS g x) z.f) (z.given g []).wk = gangOf s z.wk := begun_gang h
  obtain ⟨f, hstart, hf⟩ := startAccesses_stashStores (s := begun s z.w (z.bundle g) (.rsvstS g x) z.f) (b := z.given g [])
    (begun_open z.w (z.bundle g) _ z.f ho) (begun_noPhaseWaiters _ _ _ _ hw)
    ((theP (z.bundle g) z.w).map (fun e => rsvInStash s z g x .store (place e.1) e.1 e.2)) (by simpa using theP_ne ha)
    (List.forall_mem_map.2 fun e he => by
      obtain ⟨hk, hy⟩ := mem_theP he
      rw [hgk]
      exact ⟨rfl, rfl, notOwned (hp e.1 hk e.2 hy).2.2.2, begun_clear z.w (z.bundle g) (.rsvstS g x) z.f (hc e.1 hk)⟩)
  rw [hgk, ← begun_withGang] at hstart
  have hbody := (rsvStash_forms (kind := .store) ho hg hp h).trans hstart
  obtain ⟨hst, hself, hother⟩ := starts_withGang h ha (by rw [form_is h rfl]; rfl) hg f (.store []) rfl
  refine ⟨_, f G, (performed h rfl rfl rfl).trans (by rw [hbody]), hst, hself, hother, ?_⟩
  obtain ⟨p, hfG⟩ := hf G (ho.windows _ (sget_mem hg))
  let pois (k : Nat) : List Bool := ((sget k z.w.fibres).map (fun y => (rsvInStash s z g x .store (place k) k y).pois)).getD []
  have hcells : ((theP (z.bundle g) z.w).map (fun e => rsvInStash s z g x .store (place e.1) e.1 e.2)).map (fun a => a.va.zip (a.data.zip a.pois))
      = (z.bundle g).act.map (fun k => (addrs (place k) 16).zip (((List.range 16).map (fun j =>
          ((sget k z.w.fibres).map (fun y => reservoirByte x y j)).getD 0)).zip (pois k))) := by
    rw [← theP_map z g, List.map_map]
    refine List.map_congr_left fun e he => ?_
    obtain ⟨-, hy⟩ := mem_theP he
    simp only [pois, hy, Option.map_some, Option.getD_some]
    rw [← data_rsvAccess x z.w (z.bundle g) e.1 e.2 (stashAccess s z (z.given g []) .store e.1 e.2 (place e.1) 16)]
    rfl
  rw [hfG, hcells]
  refine stashTook fun k hk => ?_
  obtain ⟨y, hy⟩ := act_fibre hk
  simp only [pois, hy, Option.map_some, Option.getD_some]
  exact length_pois_rsvAccess ..
end

/-- Settles O30: the operation of a load holds what the reservoir registers get; the bytes of a store are in place as its operation starts. -/
theorem reservoirMemoryResults : Obligations.ReservoirMemoryResults := by
  intro s g x z b act buf off word gives data ho ha
  refine ⟨fun reach hv => ?memory, fun place G hg hp hc => ⟨rsvldS_starts ho ha hg hp hc, rsvstS_starts ho ha hg hp hc⟩⟩
  case memory =>
    intro clear loads
    have hload {i : Instr} {f : Form} {named : Bool} {sel : CellSel} {tag : Fibre → Nat} (e : form i = some f) (hconst : f.const = none) (hl : f.ll = true)
        (hx : exec i s = issue i g .none (rsvBuffer x .load named) s) (hi : ∀ z, InRange i g z)
        (htag : ∀ k ∈ act, ∀ y, sget k z.w.fibres = some y → ∀ a : Access, a.sel = .own → a.tag = y.ct.toNat →
          (if named then namedTag (passed z.w b k y) x.vb.toNat a else .ok a) = .ok { a with sel := sel, tag := tag y }) : loads i tag :=
      fun h hr hc ht => starts_by h ha e hconst hl hx (rsvBuffer_loads h ho ha hv hr hc ht htag) hi
    refine ⟨?own, fun hbelow => ?named, fun h hw hc ht => rsvst_starts h ho ha hv hw hc ht⟩
    case own =>
      refine hload (named := false) (sel := .own) rfl rfl rfl rfl (fun _ _ _ _ _ => rfl) fun k _ y _ a hsel htag => ?_
      rw [← hsel, ← htag]
      rfl
    case named =>
      refine hload (named := true) (sel := .named) rfl rfl rfl rfl (fun _ _ _ _ _ => rfl) fun k hk y hy a _ _ => ?_
      have := namedTag_below (f := passed z.w b k y) (r := x.vb.toNat) (by rw [passed_rv]; exact hbelow k hk y hy) a
      rw [passed_rv] at this
      exact this

end Sys2Proof.Machine
end

section
/-! SUPPORT. The tag instructions (O31): the fibres of a bundle act on their context's tags one after another, in slot order (R252 to R258). -/

namespace Sys2Proof.Machine

/-! ### One fibre after another, with the tags of their context -/

/-- From `u` to `v` the wave `wk` is changed by `G` and the context `ctx` becomes `c`; nothing else changes. -/
def TagStep (ctx wk : Nat) (u v : State) (G : Wave → Wave) (c : Context) : Prop :=
  ∃ cs, v = (modWave u wk G).withContexts cs ∧ sget ctx cs = some c ∧ ∀ j, j ≠ ctx → sget j cs = sget j u.contexts

section
variable {ctx wk : Nat} {u v t : State} {G H : Wave → Wave} {c d : Context}

theorem TagStep.refl (hc : sget ctx u.contexts = some c) : TagStep ctx wk u u (fun w => w) c :=
  ⟨u.contexts, congrArg (State.withContexts · u.contexts) (modWave_same (s := u) (k := wk) fun _ _ _ => rfl).symm, hc, fun _ _ => rfl⟩

theorem TagStep.trans (h : TagStep ctx wk u v G c) (h' : TagStep ctx wk v t H d) : TagStep ctx wk u t (fun w => H (G w)) d := by
  obtain ⟨cs, rfl, -, hother⟩ := h
  obtain ⟨cs', rfl, hc', hother'⟩ := h'
  exact ⟨cs', congrArg (fun W => ({ u with waves := W, contexts := cs' } : State)) (smod_smod wk H G u.waves), hc', fun j hj => (hother' j hj).trans (hother j hj)⟩

/-- A fibre that the change leaves alone. -/
theorem TagStep.fibreAt_eq (h : TagStep ctx wk u v G c) {x : Nat} (hx : ∀ w, sget x (G w).fibres = sget x w.fibres) : fibreAt v wk x = fibreAt u wk x := by
  obtain ⟨cs, rfl, -, -⟩ := h
  change (sget wk (modWave u wk G).waves).bind _ = (sget wk u.waves).bind _
  rw [sget_modWave_self]
  cases sget wk u.waves with
  | none => rfl
  | some w => exact hx w

theorem TagStep.rest (h : TagStep ctx wk u v G c) : { v with waves := u.waves, contexts := u.contexts } = u := by
  obtain ⟨cs, rfl, -, -⟩ := h
  rfl

/-- The wave is changed, and the context not. -/
theorem TagStep.wave (hc : sget ctx u.contexts = some c) (G : Wave → Wave) : TagStep ctx wk u (modWave u wk G) G c :=
  ⟨u.contexts, rfl, hc, fun _ _ => rfl⟩

theorem TagStep.context (h : TagStep ctx wk u v G c) : sget ctx v.contexts = some c := by
  obtain ⟨cs, rfl, hcs, -⟩ := h
  exact hcs

/-- A step that then changes the wave. -/
theorem TagStep.thenWave (h : TagStep ctx wk u v (fun w => w) c) (G : Wave → Wave) : TagStep ctx wk u (modWave v wk G) G c := h.trans (.wave h.context G)

/-- The context is changed. -/
theorem TagStep.mod (hc : sget ctx u.contexts = some c) (f : Context → Context) : TagStep ctx wk u (modCtx u ctx f) (fun w => w) (f c) := by
  refine ⟨smod ctx f u.contexts, ?_, by rw [sget_smod_self, hc]; rfl, fun j hj => sget_smod_ne hj f _⟩
  rw [modWave_same fun _ _ _ => rfl]
  rfl
end

/-- What a step of the fibre in slot `k` finds: its context as the fibres before it left it, itself as its bundle began. -/
structure TagState (B : State) (wk ctx k : Nat) (c : Context) (u : State) : Prop where
  context : sget ctx u.contexts = some c
  rest : { u with waves := B.waves, contexts := B.contexts } = B
  fibre : fibreAt u wk k = fibreAt B wk k

/-- The context that the fibres before slot `k` leave. -/
def Context.before (next : Context → Nat → Context) (c : Context) (l : List Nat) (k : Nat) : Context := (l.take (l.idxOf k)).foldl next c

theorem Context.before_head (next : Context → Nat → Context) (c : Context) (k : Nat) (l : List Nat) : c.before next (k :: l) k = c := by
  rw [Context.before, List.idxOf_cons_self]
  rfl

theorem Context.before_tail (next : Context → Nat → Context) (c : Context) {x k : Nat} (h : x ≠ k) (l : List Nat) :
    c.before next (x :: l) k = (next c x).before next l k := by
  rw [Context.before, List.idxOf_cons_ne _ h, List.take_succ_cons]
  rfl

/-- Steps of one fibre each, in slot order. -/
theorem foldl_tagSteps {B : State} {wk ctx : Nat} {step : State → Nat → State} {G : Nat → Wave → Wave} {next : Context → Nat → Context}
    (hG : ∀ x w y, y ≠ x → sget y (G x w).fibres = sget y w.fibres) (l : List Nat) (hl : l.Nodup) (t : State) (c : Context) (hc : sget ctx t.contexts = some c)
    (hr : { t with waves := B.waves, contexts := B.contexts } = B) (hf : ∀ x ∈ l, fibreAt t wk x = fibreAt B wk x)
    (hs : ∀ x ∈ l, ∀ u, TagState B wk ctx x (c.before next l x) u → TagStep ctx wk u (step u x) (G x) (next (c.before next l x) x)) :
    TagStep ctx wk t (l.foldl step t) (fun w => l.foldl (fun w x => G x w) w) (l.foldl next c) := by
  induction l generalizing t c with
  | nil => exact .refl hc
  | cons x l ih =>
    obtain ⟨hx, hl⟩ := List.nodup_cons.1 hl
    have hne {y : Nat} (hy : y ∈ l) : x ≠ y := fun e => hx (e ▸ hy)
    have hfirst := hs x (List.mem_cons_self ..) t ⟨by rw [Context.before_head]; exact hc, hr, hf x (List.mem_cons_self ..)⟩
    rw [Context.before_head] at hfirst
    have hlater := ih hl (step t x) (next c x) hfirst.context
      ((congrArg (fun u : State => { u with waves := B.waves, contexts := B.contexts }) hfirst.rest :).trans hr)
      (fun y hy => (hfirst.fibreAt_eq fun w => hG x w y (hne hy).symm).trans (hf y (List.mem_cons_of_mem _ hy)))
      (fun y hy u hu => by
        rw [← Context.before_tail next c (hne hy)] at hu ⊢
        exact hs y (List.mem_cons_of_mem _ hy) u hu)
    exact hfirst.trans hlater

/-! ### Fibres that stay in their clause, and fibres that leave it -/

/-- The fibre in slot `k` is changed, and leaves its clause unless it stays. -/
def Wave.turn (stays : Nat → Bool) (F : Nat → Fibre → Fibre) (w : Wave) (k : Nat) : Wave :=
  if stays k then w.put k (F k) else Wave.leave k (w.put k (F k))

theorem turn_other (stays : Nat → Bool) (F : Nat → Fibre → Fibre) {k y : Nat} (h : y ≠ k) (w : Wave) :
    sget y (w.turn stays F k).fibres = sget y w.fibres := by
  unfold Wave.turn
  split
  · exact put_other h _ w
  · rw [leave_fibres, put_other h]

theorem put_leave (x y : Nat) (F : Fibre → Fibre) (w : Wave) : Wave.put x F (Wave.leave y w) = Wave.leave y (Wave.put x F w) := by
  cases hc : w.clause <;> simp only [Wave.leave, Wave.put, hc]

theorem foldl_put_leave (F : Nat → Fibre → Fibre) (y : Nat) (l : List Nat) (w : Wave) :
    l.foldl (fun w x => Wave.put x (F x) w) (Wave.leave y w) = Wave.leave y (l.foldl (fun w x => Wave.put x (F x) w) w) := by
  induction l generalizing w with
  | nil => rfl
  | cons x l ih => rw [List.foldl_cons, put_leave, ih, List.foldl_cons]

theorem put_same (x : Nat) (w : Wave) : Wave.put x (fun f => f) w = w :=
  (congrArg (fun fs => ({ w with fibres := fs } : Wave)) (smod_id x (fun f => f) (fun _ => rfl) w.fibres) :)

/-- All fibres may be changed first, and those that do not stay leave afterwards. -/
theorem foldl_turn_eq (stays : Nat → Bool) (F : Nat → Fibre → Fibre) (l : List Nat) (w : Wave) : l.foldl (Wave.turn stays F) w
    = (l.filter (fun k => !stays k)).foldl (fun w x => Wave.leave x (Wave.put x (fun f => f) w)) (l.foldl (fun w x => Wave.put x (F x) w) w) := by
  induction l generalizing w with
  | nil => rfl
  | cons x l ih =>
    rw [List.foldl_cons, ih, List.foldl_cons, Wave.turn]
    cases hx : stays x with
    | true => rw [if_pos rfl, List.filter_cons_of_neg (by simp [hx])]
    | false => rw [if_neg Bool.false_ne_true, foldl_put_leave, List.filter_cons_of_pos (by simp [hx]), List.foldl_cons, put_same]

/-- What the turns of some fibres leave of a wave. -/
theorem foldl_turns (stays : Nat → Bool) (F : Nat → Fibre → Fibre) {l : List Nat} (hl : l.Nodup) (w : Wave) (hc : ∀ c, w.clause = some c → c.slots ≠ []) :
    (∀ y, sget y (l.foldl (Wave.turn stays F) w).fibres = (sget y w.fibres).map (fun f => if l.contains y then F y f else f))
      ∧ (l.foldl (Wave.turn stays F) w).clause = w.clause.bind (fun c =>
          let slots := c.slots.filter (fun x => !(l.filter (fun k => !stays k)).contains x)
          if slots.isEmpty then none else some { c with slots := slots })
      ∧ { l.foldl (Wave.turn stays F) w with fibres := w.fibres, clause := w.clause, paired := w.paired } = w := by
  obtain ⟨hfib, hrest⟩ := foldl_puts (F := F) l hl w
  rw [foldl_turn_eq]
  generalize l.foldl (fun w x => Wave.put x (F x) w) w = v at hfib hrest ⊢
  have hcl : v.clause = w.clause := (congrArg Wave.clause hrest :)
  obtain ⟨hfib', hcl', hrest'⟩ := foldl_leaves (F := fun _ f => f) (l.filter (fun k => !stays k)) (hl.filter _) v (by rw [hcl]; exact hc)
  refine ⟨fun y => ?_, by rw [hcl', hcl], ?_⟩
  · rw [hfib']
    simp only [ite_self, Option.map_id', hfib]
  · exact (congrArg (fun u : Wave => { u with fibres := w.fibres, clause := w.clause, paired := w.paired }) hrest' :).trans
      (congrArg (fun u : Wave => { u with clause := w.clause, paired := w.paired }) hrest :)

/-! ### Instructions whose fibres act on their context's tags -/

theorem Runs.withContexts {s t : State} {w : Wave} {b : Bundle} {out : List Nat} {fx : Nat → Fibre → Fibre} {gx : Wave → Wave}
    (h : Runs s t w b out fx gx) (cs : Sparse Context) : Runs (s.withContexts cs) (t.withContexts cs) w b out fx gx where
  wave := h.wave
  waves := h.waves
  rest := congrArg (fun u : State => { u with contexts := cs }) h.rest
  clusters := h.clusters
  cores := h.cores

theorem endIssue_withContexts (t : State) (b : Bundle) (cs : Sparse Context) : endIssue (t.withContexts cs) b = (endIssue t b).withContexts cs := by
  unfold endIssue
  split <;> rfl

/-- The instruction is performed: the context of its wave becomes `c`, and beside it the issue changes what `Runs` says. -/
def TagsRun (s : State) (i : Instr) (g : Guard) (z : Site) (c : Context) (out : List Nat) (fx : Nat → Fibre → Fibre) : Prop :=
  ∃ t, exec i s = .next t ∧ sget (ctxOf s z.wk) t.contexts = some c ∧ (∀ j, j ≠ ctxOf s z.wk → sget j t.contexts = sget j s.contexts)
    ∧ Runs { s with contexts := t.contexts } t z.w (z.bundle g) out fx id

theorem TagsRun.congr {s : State} {i : Instr} {g : Guard} {z : Site} {c : Context} {out : List Nat} {fx fx' : Nat → Fibre → Fibre}
    (h : TagsRun s i g z c out fx)
    (e : ∀ k ∈ (z.bundle g).act, ∀ y, sget k z.w.fibres = some y → fx k (passed z.w (z.bundle g) k y) = fx' k (passed z.w (z.bundle g) k y)) :
    TagsRun s i g z c out fx' := by
  obtain ⟨t, hx, hc, hother, hruns⟩ := h
  exact ⟨t, hx, hc, hother, hruns.congr e⟩

section
variable {s : State} {i : Instr} {g : Guard} {rel : Rel} {z : Site} {c : Context} {body : Bundle → State → State} {step : State → Nat → State}
  {next : Context → Nat → Context} {F : Nat → Fibre → Fibre}

/-- An instruction whose passing fibres take their turns in slot order. -/
theorem tagsRun_turns (stays : Nat → Bool) (h : Ready s i g rel z) (hc : sget (ctxOf s z.wk) s.contexts = some c)
    (hx : exec i s = .next (endIssue (body (z.given g []) (begun s z.w (z.bundle g) i z.f)) (z.bundle g)))
    (hb : body (z.given g []) (begun s z.w (z.bundle g) i z.f) = (z.bundle g).act.foldl step (begun s z.w (z.bundle g) i z.f))
    (hs : ∀ k ∈ (z.bundle g).act, ∀ u, TagState (begun s z.w (z.bundle g) i z.f) z.wk (ctxOf s z.wk) k (c.before next (z.bundle g).act k) u →
      TagStep (ctxOf s z.wk) z.wk u (step u k) (fun w => w.turn stays F k) (next (c.before next (z.bundle g).act k) k)) :
    TagsRun s i g z ((z.bundle g).act.foldl next c) ((z.bundle g).act.filter (fun k => !stays k)) F := by
  obtain ⟨cs, hfold, hcs, hother⟩ := foldl_tagSteps (fun x w y hy => turn_other stays F hy w) (z.bundle g).act (act_nodup z g)
    (begun s z.w (z.bundle g) i z.f) c hc rfl (fun _ _ => rfl) hs
  have hclause : (begunWave z.w (z.bundle g)).clause = some { z.c with idx := z.c.idx + 1, ll := z.c.ll || (z.bundle g).ll } := by
    unfold begunWave
    dsimp only
    rw [h.clause]
    rfl
  obtain ⟨hfib, hcl, hrest⟩ := foldl_turns stays F (act_nodup z g) (begunWave z.w (z.bundle g)) fun d hd => by
    rw [hclause] at hd
    cases hd
    exact h.slots
  have hruns : Runs s (endIssue (modWave (begun s z.w (z.bundle g) i z.f) z.wk (fun w => (z.bundle g).act.foldl (Wave.turn stays F) w)) (z.bundle g))
      z.w (z.bundle g) ((z.bundle g).act.filter (fun k => !stays k)) F id := by
    refine begun_runs h (fun k => ?_) (congrArg Wave.issueNo hrest) (fun hi => ?_)
      (congrArg (fun v => { v with fibres := z.w.fibres, issueNo := z.w.issueNo, issued := z.w.issued, clause := z.w.clause, paired := z.w.paired,
                                   page := z.w.page }) hrest)
    · rw [hfib, begunWave_fibre]
      cases sget k z.w.fibres with
      | none => rfl
      | some y =>
        by_cases hk : (z.bundle g).act.contains k
        · have hall : (z.bundle g).all.contains k := by simpa using act_sub_all (z := z) (g := g) (x := k) (by simpa using hk)
          simp only [Option.map_some, hk, hall, if_true]
        · simp only [Option.map_some, hk, Bool.false_eq_true, if_false]
    · rw [hcl, hclause]
      unfold clauseAfter
      rw [if_neg hi, h.clause]
      rfl
  rw [hb, hfold, endIssue_withContexts] at hx
  exact ⟨_, hx, hcs, hother, hruns.withContexts cs⟩

/-- The same where every fibre stays in the clause. -/
theorem tagsRun_puts (h : Ready s i g rel z) (hc : sget (ctxOf s z.wk) s.contexts = some c)
    (hx : exec i s = .next (endIssue (body (z.given g []) (begun s z.w (z.bundle g) i z.f)) (z.bundle g)))
    (hb : body (z.given g []) (begun s z.w (z.bundle g) i z.f) = (z.bundle g).act.foldl step (begun s z.w (z.bundle g) i z.f))
    (hs : ∀ k ∈ (z.bundle g).act, ∀ u, TagState (begun s z.w (z.bundle g) i z.f) z.wk (ctxOf s z.wk) k (c.before next (z.bundle g).act k) u →
      TagStep (ctxOf s z.wk) z.wk u (step u k) (Wave.put k (F k)) (next (c.before next (z.bundle g).act k) k)) :
    TagsRun s i g z ((z.bundle g).act.foldl next c) [] F := by
  have := tagsRun_turns (F := F) (fun _ => true) h hc hx hb hs
  rwa [show (z.bundle g).act.filter (fun _ => !true) = [] from List.filter_false _] at this
end

/-- What an instruction for tags leaves of a context. -/
def Context.still (c : Context) : Context := { c with tags := [], waiters := [] }

theorem Context.eq_of_still {c d : Context} (h : d.still = c.still) : { d with tags := c.tags, waiters := c.waiters } = c :=
  (congrArg (fun e : Context => { e with tags := c.tags, waiters := c.waiters }) h :)

/-- What no step changes of a context, the steps together do not. -/
theorem foldl_context {α : Type} {P : Context → α} {next : Context → Nat → Context} (h : ∀ c k, P (next c k) = P c) (l : List Nat) (c : Context) :
    P (l.foldl next c) = P c := by
  induction l generalizing c with
  | nil => rfl
  | cons k l ih => rw [List.foldl_cons, ih, h]

/-! ### Free tags (R252, R254) -/

/-- The free tags of an allocator, ascending. -/
def freeTags (m : Sparse TagEntry) : List Nat := ((List.range 4095).map (· + 1)).filter (fun t => (sget t m).isNone)

theorem freeKey_eq_head? {α : Type} (m : Sparse α) (n k : Nat) :
    freeKey m n k = ((List.range' k n).filter (fun t => (sget t m).isNone)).head? := by
  induction n generalizing k with
  | zero => rfl
  | succ n ih =>
    rw [freeKey, List.range'_succ, List.filter_cons, ih]
    split <;> rfl

theorem lowest_eq_head? (m : Sparse TagEntry) : freeKey m 4095 1 = (freeTags m).head? := by
  have hrange : (List.range 4095).map (· + 1) = List.range' 1 4095 := by
    rw [List.range'_eq_map_range]
    exact List.map_congr_left fun _ _ => Nat.add_comm ..
  rw [freeKey_eq_head?, freeTags, hrange]

theorem nodup_freeTags (m : Sparse TagEntry) : (freeTags m).Nodup :=
  (List.nodup_range.map fun _ _ h => Nat.succ.inj h).filter _

/-- The allocator with its lowest free tag made live. -/
def takeLowest (m : Sparse TagEntry) : Sparse TagEntry :=
  match (freeTags m).head? with
  | none => m
  | some t => sput t { retiring := false, holders := 0 } m

theorem takeLowest_nil {m : Sparse TagEntry} (h : freeTags m = []) : takeLowest m = m := by
  unfold takeLowest
  rw [h]
  rfl

theorem takeLowest_cons {m : Sparse TagEntry} {t : Nat} {l : List Nat} (h : freeTags m = t :: l) :
    takeLowest m = sput t { retiring := false, holders := 0 } m := by
  unfold takeLowest
  rw [h]
  rfl

theorem freeTags_takeLowest (m : Sparse TagEntry) : freeTags (takeLowest m) = (freeTags m).tail := by
  cases h : freeTags m with
  | nil => rw [takeLowest_nil h, h, List.tail_nil]
  | cons t l =>
    have hsput : freeTags (takeLowest m) = (freeTags m).filter (· != t) := by
      rw [takeLowest_cons h, freeTags, freeTags, List.filter_filter]
      refine List.filter_congr fun a _ => ?_
      by_cases ha : a = t
      · simp [ha]
      · simp [ha, sget_sput_ne ha]
    rw [hsput, ← (nodup_freeTags m).erase_eq_filter, h, List.erase_cons_head, List.tail_cons]

theorem sget_takeLowest (m : Sparse TagEntry) (t : Nat) :
    sget t (takeLowest m) = if t ∈ (freeTags m).take 1 then some { retiring := false, holders := 0 } else sget t m := by
  cases h : freeTags m with
  | nil => rw [takeLowest_nil h, List.take_nil, if_neg List.not_mem_nil]
  | cons a l =>
    rw [takeLowest_cons h, List.take_succ_cons, List.take_zero]
    simp only [List.mem_singleton]
    split
    · next ht => rw [ht, sget_sput_self]
    · next ht => exact sget_sput_ne ht _ _

theorem freeTags_iterate (m : Sparse TagEntry) (n : Nat) : freeTags (takeLowest^[n] m) = (freeTags m).drop n := by
  induction n with
  | zero => rfl
  | succ n ih => rw [Function.iterate_succ_apply', freeTags_takeLowest, ih, List.tail_drop]

/-- The lowest free tags become live, as many as are taken. -/
theorem sget_iterate (m : Sparse TagEntry) (n t : Nat) :
    sget t (takeLowest^[n] m) = if t ∈ (freeTags m).take n then some { retiring := false, holders := 0 } else sget t m := by
  induction n with
  | zero => rw [List.take_zero, if_neg List.not_mem_nil]; rfl
  | succ n ih =>
    rw [Function.iterate_succ_apply', sget_takeLowest, freeTags_iterate, ih]
    simp only [List.take_add, List.mem_append]
    by_cases h1 : t ∈ (freeTags m).take n <;> by_cases h2 : t ∈ ((freeTags m).drop n).take 1 <;> simp only [h1, h2, or_true, true_or, or_self, if_true, if_false]

theorem tags_foldl {next : Context → Nat → Context} (h : ∀ c k, (next c k).tags = takeLowest c.tags) (l : List Nat) (c : Context) :
    (l.foldl next c).tags = takeLowest^[l.length] c.tags := by
  induction l generalizing c with
  | nil => rfl
  | cons k l ih => rw [List.foldl_cons, ih, h, List.length_cons, Function.iterate_succ_apply]

/-- The tag that the fibre of a slot finds lowest is the one of its place among the free tags. -/
theorem head?_before {next : Context → Nat → Context} (h : ∀ c k, (next c k).tags = takeLowest c.tags) (c : Context) {l : List Nat} {k : Nat} (hk : k ∈ l) :
    (freeTags (c.before next l k).tags).head? = (freeTags c.tags)[l.idxOf k]? := by
  have hlen : (l.take (l.idxOf k)).length = l.idxOf k := by
    rw [List.length_take]
    exact Nat.min_eq_left (Nat.le_of_lt (List.idxOf_lt_length_of_mem hk))
  rw [Context.before, tags_foldl h, freeTags_iterate, hlen, List.head?_drop]

theorem lowestTag_of {u : State} {ctx : Nat} {c : Context} (h : sget ctx u.contexts = some c) : lowestTag u ctx = (freeTags c.tags).head? := by
  unfold lowestTag
  rw [h]
  exact lowest_eq_head? c.tags

/-! ### `tagnew` (R254) -/

/-- A context of which a request takes the lowest free tag. -/
def Context.grant (c : Context) : Context := { c with tags := takeLowest c.tags }

theorem grant_tags (c : Context) : c.grant.tags = takeLowest c.tags := by simp only [Context.grant]

theorem TagStep.takeTag {u : State} {ctx wk t : Nat} {c : Context} (hc : sget ctx u.contexts = some c) (ht : (freeTags c.tags).head? = some t) :
    TagStep ctx wk u (takeTag u ctx t) (fun w => w) c.grant := by
  have h := TagStep.mod (wk := wk) hc (fun c => { c with tags := sput t { retiring := false, holders := 0 } c.tags })
  rwa [show c.grant = { c with tags := sput t { retiring := false, holders := 0 } c.tags } by unfold Context.grant takeLowest; rw [ht]]

theorem Context.grant_none {c : Context} (h : (freeTags c.tags).head? = none) : c.grant = c := by
  unfold Context.grant takeLowest
  rw [h]

section
variable {s : State} {g : Guard} {x : RT} {z : Site} {c : Context}

/-- The tag that the fibre of a slot gets, 0 where none is left. -/
def tagGot (c : Context) (l : List Nat) (k : Nat) : W32 := BitVec.ofNat 32 ((freeTags c.tags).getD (l.idxOf k) 0)

/-- Whether a tag is left for the fibre of a slot. -/
def tagLeft (c : Context) (l : List Nat) (k : Nat) : Bool := l.idxOf k < (freeTags c.tags).length

theorem tagGot_some {l : List Nat} {k t : Nat} (h : (freeTags c.tags)[l.idxOf k]? = some t) : tagGot c l k = BitVec.ofNat 32 t ∧ tagLeft c l k = true := by
  refine ⟨?_, decide_eq_true (List.getElem?_eq_some_iff.1 h).1⟩
  rw [tagGot, List.getD_eq_getElem?_getD, h]
  rfl

theorem tagGot_none {l : List Nat} {k : Nat} (h : (freeTags c.tags)[l.idxOf k]? = none) : tagGot c l k = 0 ∧ tagLeft c l k = false := by
  refine ⟨?_, decide_eq_false (Nat.not_lt.2 (List.getElem?_eq_none_iff.1 h))⟩
  rw [tagGot, List.getD_eq_getElem?_getD, h]
  rfl

/-- `tagnew.try` of the fibre of a slot. -/
def tagnewTryStep (x : RT) (ctx wk : Nat) (u : State) (k : Nat) : State :=
  match lowestTag u ctx with
  | some t => modFibre (takeTag u ctx t) wk k (fun f => (f.setV x.va.toNat (BitVec.ofNat 32 t)).setP x.pd true)
  | none => modFibre u wk k (fun f => (f.setV x.va.toNat 0).setP x.pd false)

/-- Each passing fibre gets the tag of its place, or 0 where none is left. -/
theorem tagnewTry_runs (h : Ready s (.tagnewTry g x) g .none z) (hc : sget (ctxOf s z.wk) s.contexts = some c) :
    TagsRun s (.tagnewTry g x) g z ((z.bundle g).act.foldl (fun c _ => c.grant) c) []
      (fun k y => (y.setV x.va.toNat (tagGot c (z.bundle g).act k)).setP x.pd (tagLeft c (z.bundle g).act k)) := by
  refine tagsRun_puts (step := tagnewTryStep x (ctxOf s z.wk) z.wk) h hc (performed h rfl rfl rfl) ?_ fun k hk u hu => ?_
  · unfold tagnewTryBody
    rw [given_wk, begun_ctx h]
    rfl
  · have hhead := head?_before (next := fun c _ => c.grant) (fun c _ => grant_tags c) c hk
    unfold tagnewTryStep
    rw [lowestTag_of hu.context]
    cases ht : (freeTags (c.before (fun c _ => c.grant) (z.bundle g).act k).tags).head? with
    | some t =>
      obtain ⟨hgot, hleft⟩ := tagGot_some (hhead.symm.trans ht)
      rw [hgot, hleft]
      exact (TagStep.takeTag hu.context ht).thenWave _
    | none =>
      obtain ⟨hgot, hleft⟩ := tagGot_none (hhead.symm.trans ht)
      rw [hgot, hleft]
      dsimp only
      rw [Context.grant_none ht]
      exact .wave hu.context _

/-- A context to which the fibre in slot `k` of the wave `wk` puts its request: it gets the lowest free tag, or waits. -/
def Context.ask (wk : Nat) (c : Context) (k : Nat) : Context :=
  { c with tags := takeLowest c.tags, waiters := if freeTags c.tags = [] then c.waiters ++ [(wk, k)] else c.waiters }

theorem ask_of_some {wk k t : Nat} {c : Context} (h : (freeTags c.tags).head? = some t) : c.ask wk k = c.grant := by
  have hne : freeTags c.tags ≠ [] := List.ne_nil_of_mem (List.mem_of_head? h)
  rw [Context.ask, if_neg hne, Context.grant]

theorem ask_of_none {wk k : Nat} {c : Context} (h : (freeTags c.tags).head? = none) : c.ask wk k = { c with waiters := c.waiters ++ [(wk, k)] } := by
  have hnil := List.head?_eq_none_iff.1 h
  rw [Context.ask, if_pos hnil, takeLowest_nil hnil]

theorem ask_tags (wk : Nat) (c : Context) (k : Nat) : (c.ask wk k).tags = takeLowest c.tags := by simp only [Context.ask]

theorem ask_still (wk : Nat) (c : Context) (k : Nat) : (c.ask wk k).still = c.still := by simp only [Context.still, Context.ask]

/-- The requests for which no tag is left wait, in slot order, behind those that waited before. -/
theorem ask_waiters (wk : Nat) (l : List Nat) (c : Context) :
    (l.foldl (Context.ask wk) c).waiters = c.waiters ++ (l.drop (freeTags c.tags).length).map (fun k => (wk, k)) := by
  induction l generalizing c with
  | nil => rw [List.drop_nil, List.map_nil, List.append_nil]; rfl
  | cons k l ih =>
    rw [List.foldl_cons, ih, ask_tags, freeTags_takeLowest]
    cases hfree : (freeTags c.tags).head? with
    | none =>
      rw [ask_of_none hfree, List.head?_eq_none_iff.1 hfree]
      simp only [List.tail_nil, List.length_nil, List.drop_zero, List.map_cons, List.append_assoc, List.singleton_append]
    | some t =>
      obtain ⟨r, hr⟩ := List.head?_eq_some_iff.1 hfree
      rw [ask_of_some hfree, hr]
      simp only [List.tail_cons, List.length_cons, List.drop_succ_cons, Context.grant]

/-- What a list without repeats holds from a place on. -/
theorem drop_eq_filter_idxOf {l : List Nat} (hl : l.Nodup) (n : Nat) : l.drop n = l.filter (fun k => !decide (l.idxOf k < n)) := by
  induction l generalizing n with
  | nil => rw [List.drop_nil, List.filter_nil]
  | cons x l ih =>
    obtain ⟨hx, hl⟩ := List.nodup_cons.1 hl
    have hidx {k : Nat} (hk : k ∈ l) : (x :: l).idxOf k = l.idxOf k + 1 := List.idxOf_cons_ne _ fun e => hx (e ▸ hk)
    cases n with
    | zero => simp
    | succ n =>
      rw [List.drop_succ_cons, ih hl, List.filter_cons_of_neg (by simp)]
      refine List.filter_congr fun k hk => ?_
      rw [hidx hk]
      simp only [Nat.add_lt_add_iff_right]

/-- `tagnew` of the fibre of a slot. -/
def tagnewStep (x : RT) (b : Bundle) (ctx : Nat) (u : State) (k : Nat) : State :=
  match lowestTag u ctx with
  | some t => modFibre (takeTag u ctx t) b.wk k (fun f => f.setV x.va.toNat (BitVec.ofNat 32 t))
  | none => block (modCtx u ctx (fun c => { c with waiters := c.waiters ++ [(b.wk, k)] })) b.wk k b.pc b.place (.tagnew x.va)

/-- What `tagnew` makes of the fibre of a slot: it has its tag, or it is blocked. -/
def tagnewFibre (x : RT) (b : Bundle) (c : Context) (k : Nat) (y : Fibre) : Fibre :=
  if tagLeft c b.act k then y.setV x.va.toNat (tagGot c b.act k) else { y with blocked := some (.tagnew x.va), pc := b.pc, base := some b.place }

/-- Each passing fibre gets the tag of its place, or blocks where none is left. -/
theorem tagnew_runs (h : Ready s (.tagnew g x) g .none z) (hc : sget (ctxOf s z.wk) s.contexts = some c) :
    TagsRun s (.tagnew g x) g z ((z.bundle g).act.foldl (Context.ask z.wk) c) ((z.bundle g).act.filter (fun k => !tagLeft c (z.bundle g).act k))
      (tagnewFibre x (z.bundle g) c) := by
  refine tagsRun_turns (step := tagnewStep x (z.bundle g) (ctxOf s z.wk)) (tagLeft c (z.bundle g).act) h hc (performed h rfl rfl rfl) ?_ fun k hk u hu => ?_
  · unfold tagnewBody
    rw [given_wk, begun_ctx h]
    rfl
  · have hhead := head?_before (ask_tags z.wk) c hk
    unfold tagnewStep Wave.turn
    rw [lowestTag_of hu.context]
    cases ht : (freeTags (c.before (Context.ask z.wk) (z.bundle g).act k).tags).head? with
    | some t =>
      obtain ⟨hgot, hleft⟩ := tagGot_some (hhead.symm.trans ht)
      have hfibre : tagnewFibre x (z.bundle g) c k = fun y => y.setV x.va.toNat (BitVec.ofNat 32 t) := by
        funext y
        rw [tagnewFibre, hleft, if_pos rfl, hgot]
      rw [ask_of_some ht, hleft, hfibre]
      exact (TagStep.takeTag hu.context ht).thenWave _
    | none =>
      obtain ⟨-, hleft⟩ := tagGot_none (hhead.symm.trans ht)
      have hfibre : tagnewFibre x (z.bundle g) c k = fun y => { y with blocked := some (.tagnew x.va), pc := (z.bundle g).pc, base := some (z.bundle g).place } := by
        funext y
        rw [tagnewFibre, hleft, if_neg Bool.false_ne_true]
      rw [ask_of_none ht, hleft, hfibre]
      dsimp only
      rw [block_eq]
      exact (TagStep.mod hu.context (fun c => { c with waiters := c.waiters ++ [(z.wk, k)] })).thenWave _

end


/-! ### Tags that registers name (R253, R255 to R257) -/

/-- What a fibre of the bundle's wave holds, by its slot. -/
def Site.held (z : Site) (v : Fibre → Nat) (k : Nat) : Nat := ((sget k z.w.fibres).map v).getD 0

theorem held_of {z : Site} {k : Nat} {y : Fibre} (h : sget k z.w.fibres = some y) (v : Fibre → Nat) : z.held v k = v y := by
  rw [Site.held, h]
  rfl

/-- What the passing fibres hold, in slot order. -/
theorem theP_held (z : Site) (g : Guard) (v : Fibre → Nat) : (theP (z.bundle g) z.w).map (fun e => v e.2) = (z.bundle g).act.map (z.held v) := by
  rw [← theP_map z g (z.held v)]
  exact List.map_congr_left fun e he => (held_of (mem_theP he).2 v).symm

/-- How many of the passing fibres hold one value. -/
theorem theP_count (z : Site) (g : Guard) (v : Fibre → Nat) (n : Nat) :
    ((theP (z.bundle g) z.w).filter (fun e => v e.2 = n)).length = ((z.bundle g).act.map (z.held v)).count n := by
  rw [← theP_held, List.count, List.countP_map, List.countP_eq_length_filter]
  rfl

/-- The tag that the register `reg` of a fibre names. -/
def Fibre.names (reg : Nat) (y : Fibre) : Nat := (y.rv reg).toNat

theorem names_passed (w : Wave) (b : Bundle) (k reg : Nat) (y : Fibre) : (passed w b k y).names reg = y.names reg := congrArg BitVec.toNat (passed_rv ..)

/-- What an instruction for named tags does for the fibre of a slot. -/
def eachTagStep (reg : Nat) (base : Bool) (act : State → Nat → Nat → State) (b : Bundle) (u : State) (k : Nat) : State :=
  match fibreAt u b.wk k with
  | none => u
  | some f =>
    if 4096 ≤ (f.rv reg).toNat then trap u b.wk k b.here (tagTrap 1 (f.rv reg))
    else if base && f.rv reg = 0 then trap u b.wk k b.here (tagTrap 2 (f.rv reg))
    else act u k (f.rv reg).toNat

theorem eachTag_foldl (reg : Nat) (base : Bool) (act : State → Nat → Nat → State) (b : Bundle) (u : State) :
    eachTag reg base act b u = b.act.foldl (eachTagStep reg base act b) u := rfl

/-- A fibre whose register names a tag that it may name does not trap. -/
theorem eachTagStep_named {reg : Nat} {base : Bool} {act : State → Nat → Nat → State} {b : Bundle} {u : State} {k : Nat} {f : Fibre}
    (hf : fibreAt u b.wk k = some f) (hlt : f.names reg < 4096) (hpos : base = true → 0 < f.names reg) :
    eachTagStep reg base act b u k = act u k (f.names reg) := by
  have hne : ¬(base && decide (f.rv reg = 0)) = true := by
    intro e
    obtain ⟨hb, h0⟩ := Bool.and_eq_true_iff.1 e
    have hzero : f.names reg = 0 := by rw [Fibre.names, of_decide_eq_true h0]; rfl
    exact absurd (hpos hb) (hzero ▸ Nat.lt_irrefl 0)
  unfold eachTagStep
  rw [hf]
  dsimp only
  exact (if_neg (Nat.not_le.2 hlt)).trans (if_neg hne)

/-- The same at the turn of a passing fibre, whose register the issue and the fibres before it leave. -/
theorem eachTagStep_turn {s : State} {i : Instr} {g : Guard} {rel : Rel} {z : Site} (h : Ready s i g rel z) {k reg : Nat} {base : Bool}
    {act : State → Nat → Nat → State} {u : State} {y : Fibre} (hk : k ∈ (z.bundle g).act) (hy : sget k z.w.fibres = some y)
    (hu : fibreAt u z.wk k = fibreAt (begun s z.w (z.bundle g) i z.f) z.wk k) (hlt : y.names reg < 4096) (hpos : base = true → 0 < y.names reg) :
    eachTagStep reg base act (z.given g []) u k = act u k (z.held (Fibre.names reg) k) := by
  rw [held_of hy, ← names_passed z.w (z.bundle g) k] at *
  exact eachTagStep_named (b := z.given g []) (hu.trans (begun_act h hk hy)) hlt hpos

/-! ### `tagret` (R255) -/

/-- Whether an allocator holds a tag as live. -/
def liveIn (m : Sparse TagEntry) (t : Nat) : Bool := (sget t m).any (fun e => !e.retiring)

theorem tagLive_of {u : State} {ctx : Nat} {c : Context} (h : sget ctx u.contexts = some c) (t : Nat) : tagLive u ctx t = liveIn c.tags t := by
  unfold tagLive liveIn
  rw [h, Option.bind_some]
  cases sget t c.tags <;> rfl

/-- A context of which the fibre in slot `k` retires the tag it names. -/
def Context.retire (name : Nat → Nat) (c : Context) (k : Nat) : Context :=
  if liveIn c.tags (name k) then { c with tags := smod (name k) (fun e => { e with retiring := true }) c.tags } else c

theorem sget_retire (name : Nat → Nat) (c : Context) (k n : Nat) :
    sget n (c.retire name k).tags = (sget n c.tags).map (fun e => if n = name k then { e with retiring := true } else e) := by
  unfold Context.retire
  by_cases hn : n = name k
  · subst hn
    simp only [if_true]
    split
    · rw [sget_smod_self]
    · next hdead =>
      unfold liveIn at hdead
      cases he : sget (name k) c.tags with
      | none => rfl
      | some e =>
        rw [he] at hdead
        have hret : e.retiring = true := by simpa using hdead
        exact congrArg some (congrArg (fun r => { e with retiring := r }) hret)
  · simp only [hn, if_false, Option.map_id']
    split
    · rw [sget_smod_ne hn]
    · rfl

theorem sget_retires (name : Nat → Nat) (l : List Nat) (c : Context) (n : Nat) :
    sget n (l.foldl (Context.retire name) c).tags = (sget n c.tags).map (fun e => if n ∈ l.map name then { e with retiring := true } else e) := by
  induction l generalizing c with
  | nil => simp
  | cons k l ih =>
    rw [List.foldl_cons, ih, sget_retire, Option.map_map]
    congr 1
    funext e
    by_cases h1 : n = name k <;> by_cases h2 : n ∈ l.map name <;> simp [h1, h2]

/-- A tag is live at a fibre's turn if it was live before and no fibre before it names it. -/
theorem liveIn_before (name : Nat → Nat) (c : Context) (l : List Nat) (k t : Nat) :
    liveIn (c.before (Context.retire name) l k).tags t = (liveIn c.tags t && !((l.map name).take (l.idxOf k)).contains t) := by
  unfold liveIn Context.before
  rw [sget_retires, ← List.map_take]
  by_cases ht : t ∈ (l.take (l.idxOf k)).map name
  · cases sget t c.tags <;> simp only [ht, if_true, Option.map_some, Option.map_none, Option.any_some, Option.any_none, List.contains_iff_mem.2, Bool.not_true, Bool.and_false]
  · have hnot : ((l.take (l.idxOf k)).map name).contains t = false := by simpa using ht
    rw [hnot]
    simp only [ht, if_false, Option.map_id', Bool.not_false, Bool.and_true]

theorem retire_still (name : Nat → Nat) (c : Context) (k : Nat) : (c.retire name k).still = c.still := by
  unfold Context.retire
  split <;> rfl

theorem retire_waiters (name : Nat → Nat) (c : Context) (k : Nat) : (c.retire name k).waiters = c.waiters := by
  unfold Context.retire
  split <;> rfl

section
variable {s : State} {g : Guard} {x : RT} {z : Site} {c : Context}

/-- `tagret` of the fibre of a slot that names the tag `t`. -/
def tagretAct (x : RT) (ctx wk : Nat) (u : State) (k t : Nat) : State :=
  modFibre (if tagLive u ctx t then modCtx u ctx (fun c => { c with tags := smod t (fun e => { e with retiring := true }) c.tags }) else u) wk k
    (fun f => f.setP x.pd (tagLive u ctx t))

/-- The first fibre that names a live tag retires it. -/
theorem tagret_runs (h : Ready s (.tagret g x) g .none z) (hc : sget (ctxOf s z.wk) s.contexts = some c)
    (hn : ∀ k ∈ (z.bundle g).act, ∀ y, sget k z.w.fibres = some y → 0 < y.names x.va.toNat ∧ y.names x.va.toNat < 4096) :
    TagsRun s (.tagret g x) g z ((z.bundle g).act.foldl (Context.retire (z.held (Fibre.names x.va.toNat))) c) []
      (fun k y => y.setP x.pd (liveIn (c.before (Context.retire (z.held (Fibre.names x.va.toNat))) (z.bundle g).act k).tags (z.held (Fibre.names x.va.toNat) k))) := by
  refine tagsRun_puts (step := eachTagStep x.va.toNat true (tagretAct x (ctxOf s z.wk) z.wk) (z.given g [])) h hc (performed h rfl rfl rfl) ?_ fun k hk u hu => ?_
  · unfold tagretBody
    rw [given_wk, begun_ctx h, eachTag_foldl]
    rfl
  · obtain ⟨y, hy⟩ := act_fibre hk
    obtain ⟨hpos, hlt⟩ := hn k hk y hy
    rw [eachTagStep_turn h hk hy hu.fibre hlt fun _ => hpos, tagretAct, tagLive_of hu.context]
    refine TagStep.thenWave ?_ _
    unfold Context.retire
    split
    · exact .mod hu.context fun c => { c with tags := smod _ (fun e => { e with retiring := true }) c.tags }
    · exact .refl hu.context
end

/-! ### `tagset` (R256) -/

/-- A context in which the fibre in slot `k` holds the tag it names, and no longer the one it was running under. -/
def Context.move (name was : Nat → Nat) (c : Context) (k : Nat) : Context :=
  { c with tags := smod (was k) (fun e => { e with holders := e.holders - 1 }) (smod (name k) (fun e => { e with holders := e.holders + 1 }) c.tags) }

theorem sget_move (name was : Nat → Nat) (c : Context) (k n : Nat) : sget n (c.move name was k).tags
    = (sget n c.tags).map (fun e => { e with holders := e.holders + (if name k = n then 1 else 0) - (if was k = n then 1 else 0) }) := by
  rw [Context.move, sget_smod, sget_smod]
  simp only [show ∀ a, (n = a) = (a = n) from fun _ => propext eq_comm]
  cases sget n c.tags with
  | none => simp only [Option.map_none, ite_self]
  | some e => by_cases h1 : name k = n <;> by_cases h2 : was k = n <;> simp only [h1, h2, if_true, if_false, Option.map_some, Nat.add_zero, Nat.sub_zero]

/-- A tag gains the fibres that name it and loses those that held it. -/
theorem sget_moves (name was : Nat → Nat) (n : Nat) (l : List Nat) (c : Context) (h : ∀ e, sget n c.tags = some e → (l.map was).count n ≤ e.holders) :
    sget n (l.foldl (Context.move name was) c).tags
      = (sget n c.tags).map (fun e => { e with holders := e.holders + (l.map name).count n - (l.map was).count n }) := by
  induction l generalizing c with
  | nil => simp
  | cons k l ih =>
    simp only [List.map_cons, List.count_cons, beq_iff_eq] at h ⊢
    rw [List.foldl_cons, ih, sget_move, Option.map_map]
    · cases he : sget n c.tags with
      | none => rfl
      | some e =>
        have := h e he
        simp only [Option.map_some, Function.comp_apply, Option.some.injEq, TagEntry.mk.injEq, true_and]
        omega
    · intro e' he'
      rw [sget_move] at he'
      obtain ⟨e, he, rfl⟩ := Option.map_eq_some_iff.1 he'
      have := h e he
      dsimp only
      omega

theorem liveIn_move (name was : Nat → Nat) (t : Nat) (c : Context) (k : Nat) : liveIn (c.move name was k).tags t = liveIn c.tags t := by
  unfold liveIn
  rw [sget_move, Option.any_map]

section
variable {s : State} {g : Guard} {x : RT} {z : Site} {c : Context}

/-- `tagset` of the fibre of a slot that names the tag `t`. -/
def tagsetAct (ctx : Nat) (b : Bundle) (u : State) (k t : Nat) : State :=
  if t != 0 && !tagLive u ctx t then trap u b.wk k b.here (tagTrap 3 (BitVec.ofNat 32 t))
  else modFibre (tagDrop (tagHold u ctx t) ctx (((fibreAt u b.wk k).map (·.ct.toNat)).getD 0)) b.wk k (fun f => { f with ct := BitVec.ofNat 12 t })

/-- Every fibre runs under the tag that it names. -/
theorem tagset_runs (h : Ready s (.tagset g x) g .each z) (hc : sget (ctxOf s z.wk) s.contexts = some c)
    (hn : ∀ k ∈ (z.bundle g).act, ∀ y, sget k z.w.fibres = some y →
      y.names x.va.toNat = 0 ∨ y.names x.va.toNat < 4096 ∧ liveIn c.tags (y.names x.va.toNat) = true) :
    TagsRun s (.tagset g x) g z ((z.bundle g).act.foldl (Context.move (z.held (Fibre.names x.va.toNat)) (z.held (·.ct.toNat))) c) []
      (fun k y => { y with ct := BitVec.ofNat 12 (z.held (Fibre.names x.va.toNat) k) }) := by
  refine tagsRun_puts (step := eachTagStep x.va.toNat false (tagsetAct (ctxOf s z.wk) (z.given g [])) (z.given g [])) h hc (performed h rfl rfl rfl) ?_
    fun k hk u hu => ?_
  · unfold tagsetBody
    rw [given_wk, begun_ctx h, eachTag_foldl]
    rfl
  · obtain ⟨y, hy⟩ := act_fibre hk
    have hlt : y.names x.va.toNat < 4096 := (hn k hk y hy).elim (fun e => e ▸ by decide) And.left
    have hgood : ¬(z.held (Fibre.names x.va.toNat) k != 0 && !tagLive u (ctxOf s z.wk) (z.held (Fibre.names x.va.toNat) k)) = true := by
      rw [held_of hy, tagLive_of hu.context, Context.before, foldl_context (P := fun c => liveIn c.tags _) (fun c k => liveIn_move _ _ _ c k)]
      rcases hn k hk y hy with h0 | ⟨-, hlive⟩
      · rw [h0]; exact Bool.false_ne_true
      · rw [hlive, Bool.not_true, Bool.and_false]; decide
    have hold : ((fibreAt u z.wk k).map (·.ct.toNat)).getD 0 = z.held (·.ct.toNat) k := by
      rw [hu.fibre, begun_act h hk hy, held_of hy]
      exact congrArg BitVec.toNat (passed_ct ..)
    rw [eachTagStep_turn h hk hy hu.fibre hlt fun e => absurd e Bool.false_ne_true, tagsetAct, if_neg hgood, given_wk, hold]
    exact ((TagStep.mod hu.context _).trans (.mod (TagStep.mod (wk := z.wk) hu.context _).context _)).thenWave _
end


/-! ### `tagget.info` (R257) -/

/-- State and holder count of a tag of an allocator, as `tagget.info` gives them. -/
def infoOf (m : Sparse TagEntry) (t : Nat) : W32 :=
  if t = 0 then 1
  else match sget t m with
    | none => 0
    | some e => BitVec.ofNat 32 (4 * e.holders + if e.retiring then 2 else 1)

theorem tagInfo_of {u : State} {ctx : Nat} {c : Context} (h : sget ctx u.contexts = some c) (t : Nat) : tagInfo u ctx t = infoOf c.tags t := by
  unfold tagInfo infoOf
  rw [h]
  rfl

section
variable {s : State} {g : Guard} {x : RT} {z : Site} {c : Context}

/-- `tagget.info` of the fibre of a slot that names the tag `t`. -/
def taggetInfoAct (x : RT) (ctx wk : Nat) (u : State) (k t : Nat) : State := modFibre u wk k (fun f => f.setV x.va.toNat (tagInfo u ctx t))

theorem taggetInfo_runs (h : Ready s (.taggetInfo g x) g .none z) (hc : sget (ctxOf s z.wk) s.contexts = some c)
    (hn : ∀ k ∈ (z.bundle g).act, ∀ y, sget k z.w.fibres = some y → y.names x.vb.toNat < 4096) :
    ∃ t, exec (.taggetInfo g x) s = .next t
      ∧ Runs s t z.w (z.bundle g) [] (fun _ y => y.setV x.va.toNat (infoOf c.tags (y.names x.vb.toNat))) id := by
  have hbody : taggetInfoBody x (z.given g []) (begun s z.w (z.bundle g) (.taggetInfo g x) z.f)
      = (z.bundle g).act.foldl (eachTagStep x.vb.toNat false (taggetInfoAct x (ctxOf s z.wk) z.wk) (z.given g [])) (begun s z.w (z.bundle g) (.taggetInfo g x) z.f) := by
    unfold taggetInfoBody
    rw [given_wk, begun_ctx h, eachTag_foldl]
    rfl
  refine ⟨_, performed h rfl rfl rfl, hbody ▸ runs_puts h (fun k y => y.setV x.va.toNat (infoOf c.tags (z.held (Fibre.names x.vb.toNat) k))) _ ?_ ?_⟩
  · intro k hk y hy t ht hr
    have hctx : sget (ctxOf s z.wk) t.contexts = some c := (congrArg (fun u : State => sget (ctxOf s z.wk) u.contexts) hr :).trans hc
    rw [eachTagStep_turn h hk hy (ht.trans (begun_act h hk hy).symm) (hn k hk y hy) fun e => absurd e Bool.false_ne_true, taggetInfoAct, tagInfo_of hctx]
  · intro k hk y hy
    rw [held_of hy, names_passed]
end

/-! ### `tagpub` (R258) -/

theorem cellsOf_congr {s t : State} (hm : t.mem = s.mem) (hg : t.gangs = s.gangs) (hc : t.contexts = s.contexts) (ctx : Nat) (tag : Option Nat) :
    cellsOf t ctx tag = cellsOf s ctx tag := by
  unfold cellsOf
  rw [transBlock_congr hm hg hc, hm]
  simp only [rd_congr hm hg]

/-- A context in which one fibre more holds the tag `t`. -/
def Context.hold (c : Context) (t : Nat) : Context := { c with tags := smod t (fun e => { e with holders := e.holders + 1 }) c.tags }

theorem sget_holds (n : Nat) (l : List Nat) (c : Context) :
    sget n (l.foldl Context.hold c).tags = (sget n c.tags).map (fun e => { e with holders := e.holders + l.count n }) := by
  induction l generalizing c with
  | nil => simp
  | cons t l ih =>
    rw [List.foldl_cons, ih, Context.hold, sget_smod]
    by_cases hn : n = t
    · subst hn
      rw [if_pos rfl, List.count_cons_self, Option.map_map]
      simp only [Function.comp_def, Nat.add_assoc, Nat.add_comm 1]
    · rw [if_neg hn, List.count_cons_of_ne (Ne.symm hn)]

/-- Holdings change the tags of one context. -/
theorem tagHolds_contexts {ctx : Nat} (l : List Nat) (u : State) (c : Context) (hc : sget ctx u.contexts = some c) :
    sget ctx (l.foldl (fun u t => tagHold u ctx t) u).contexts = some (l.foldl Context.hold c)
      ∧ ∀ j, j ≠ ctx → sget j (l.foldl (fun u t => tagHold u ctx t) u).contexts = sget j u.contexts := by
  induction l generalizing u c with
  | nil => exact ⟨hc, fun _ _ => rfl⟩
  | cons t l ih =>
    obtain ⟨h1, h2⟩ := ih (tagHold u ctx t) (c.hold t) (by unfold tagHold; rw [sget_smod_self, hc]; rfl)
    exact ⟨h1, fun j hj => (h2 j hj).trans (by unfold tagHold; rw [sget_smod_ne hj])⟩

theorem tagHolds_begun {s : State} {i : Instr} (w : Wave) (b : Bundle) (f : Form) (ctx : Nat) (l : List Nat) :
    l.foldl (fun u t => tagHold u ctx t) (begun s w b i f)
      = begun (s.withContexts (l.foldl (fun u t => tagHold u ctx t) s).contexts) w b i f := by
  induction l generalizing s with
  | nil => rfl
  | cons t l ih =>
    rw [List.foldl_cons, tagHold_begun, ih]
    rfl

/-- Why `tagpub` traps a fibre that names the tag `t`, if it does. -/
def tagpubBad (s : State) (ctx : Nat) (t : W32) : Option (BitVec 16) :=
  if 4096 ≤ t.toNat then some 1
  else if t = 0 then some 2
  else if ((sget ctx s.contexts).bind (fun c => sget t.toNat c.tags)).isSome then none else some 3

/-- The word in which the fibre of a slot names its tag. -/
def tagWord (s : State) (wk reg slot : Nat) : W32 := ((fibreAt s wk slot).map (·.rv reg)).getD 0

theorem tagpubParts_eq (x : RT) (b : Bundle) (s : State) : tagpubParts x b s =
    (trapEach s b.wk b.here (b.act.filterMap (fun y =>
      (tagpubBad s (ctxOf s b.wk) (tagWord s b.wk x.va.toNat y)).map (fun sub => (y, tagTrap sub (tagWord s b.wk x.va.toNat y))))),
     (b.act.filter (fun y => (tagpubBad s (ctxOf s b.wk) (tagWord s b.wk x.va.toNat y)).isNone)).map (fun y =>
      (y, (tagWord s b.wk x.va.toNat y).toNat, (cellsOf s (ctxOf s b.wk) (some (tagWord s b.wk x.va.toNat y).toNat)).map (·.2.1)))) := rfl

section
variable {s : State} {g : Guard} {x : RT} {z : Site} {c : Context}

/-- The slot, tag and pages of each passing fibre. -/
def Site.parts (z : Site) (s : State) (g : Guard) (reg : Nat) : List (Nat × Nat × List Nat) :=
  (z.bundle g).act.map (fun k => (k, z.held (Fibre.names reg) k, (cellsOf s (ctxOf s z.wk) (some (z.held (Fibre.names reg) k))).map (·.2.1)))

/-- Every passing fibre names a tag of the context. -/
def NamesTags (z : Site) (g : Guard) (c : Context) (reg : Nat) : Prop :=
  ∀ k ∈ (z.bundle g).act, ∀ y, sget k z.w.fibres = some y → 0 < y.names reg ∧ y.names reg < 4096 ∧ (sget (y.names reg) c.tags).isSome = true

theorem tagpubParts_good {i : Instr} {rel : Rel} (h : Ready s i g rel z) (hc : sget (ctxOf s z.wk) s.contexts = some c) (hn : NamesTags z g c x.va.toNat) :
    tagpubParts x (z.given g []) (begun s z.w (z.bundle g) i z.f) = (begun s z.w (z.bundle g) i z.f, z.parts s g x.va.toNat) := by
  have hword {k : Nat} (hk : k ∈ (z.bundle g).act) :
      (tagWord (begun s z.w (z.bundle g) i z.f) z.wk x.va.toNat k).toNat = z.held (Fibre.names x.va.toNat) k := by
    obtain ⟨y, hy⟩ := act_fibre hk
    rw [tagWord, begun_act h hk hy, held_of hy]
    exact names_passed ..
  have hgood {k : Nat} (hk : k ∈ (z.bundle g).act) :
      tagpubBad (begun s z.w (z.bundle g) i z.f) (ctxOf s z.wk) (tagWord (begun s z.w (z.bundle g) i z.f) z.wk x.va.toNat k) = none := by
    obtain ⟨y, hy⟩ := act_fibre hk
    obtain ⟨hpos, hlt, hlive⟩ := hn k hk y hy
    have hname := (hword hk).trans (held_of hy _)
    have hne : tagWord (begun s z.w (z.bundle g) i z.f) z.wk x.va.toNat k ≠ 0 := fun e => by
      rw [e] at hname
      exact hpos.ne hname
    have hctx : sget (ctxOf s z.wk) (begun s z.w (z.bundle g) i z.f).contexts = some c := hc
    rw [tagpubBad, hname, if_neg (Nat.not_le.2 hlt), if_neg hne, hctx]
    exact if_pos hlive
  rw [tagpubParts_eq, given_wk, begun_ctx h]
  refine Prod.ext ?_ ?_
  · have hnone : (z.given g []).act.filterMap (fun k =>
        (tagpubBad (begun s z.w (z.bundle g) i z.f) (ctxOf s z.wk) (tagWord (begun s z.w (z.bundle g) i z.f) z.wk x.va.toNat k)).map
          (fun sub => (k, tagTrap sub (tagWord (begun s z.w (z.bundle g) i z.f) z.wk x.va.toNat k)))) = [] :=
      List.filterMap_eq_nil_iff.2 fun k hk => by rw [hgood hk]; rfl
    dsimp only
    rw [hnone]
    rfl
  · dsimp only
    rw [List.filter_eq_self.2 fun k hk => by rw [hgood hk]; rfl]
    refine List.map_congr_left fun k hk => ?_
    rw [hword hk, cellsOf_congr (s := s) (t := begun s z.w (z.bundle g) i z.f) rfl rfl rfl]

/-- The state with the holdings that `tagpub` takes. -/
def pubHeld (s : State) (z : Site) (g : Guard) (x : RT) : State :=
  s.withContexts (((z.bundle g).act.map (z.held (Fibre.names x.va.toNat))).foldl (fun u t => tagHold u (ctxOf s z.wk) t) s).contexts

/-- The start of its operation. -/
def tagpubStarted (s : State) (z : Site) (g : Guard) (x : RT) : State :=
  startOp (begun (pubHeld s z g x) z.w (z.bundle g) (.tagpub g x) z.f) (z.given g []) (.tagpub (z.parts s g x.va.toNat))

theorem tagpub_exec (h : Ready s (.tagpub g x) g .bundle z) (hc : sget (ctxOf s z.wk) s.contexts = some c) (ha : (z.bundle g).act ≠ [])
    (hn : NamesTags z g c x.va.toNat) :
    exec (.tagpub g x) s = .next (endIssue (finishTagpub (tagpubStarted s z g x) s.nextOp) (z.bundle g)) := by
  have hparts : (z.parts s g x.va.toNat).isEmpty = false := by
    rw [Site.parts, List.isEmpty_map]
    simpa using ha
  have hslots : (z.parts s g x.va.toNat).map (·.1) = (z.bundle g).act := by
    rw [Site.parts, List.map_map]
    exact List.map_id _
  have hholds (u : State) : (z.parts s g x.va.toNat).foldl (fun u p => tagHold u (ctxOf s z.wk) p.2.1) u
      = ((z.bundle g).act.map (z.held (Fibre.names x.va.toNat))).foldl (fun u t => tagHold u (ctxOf s z.wk) t) u := by
    rw [Site.parts, List.foldl_map, List.foldl_map]
  rw [performed h rfl rfl rfl]
  unfold tagpubBody
  rw [tagpubParts_good h hc hn]
  dsimp only
  rw [hparts, given_wk, begun_ctx h, hholds, tagHolds_begun, hslots]
  rfl

theorem startOp_at (u : State) (b : Bundle) (k : OpKind) : sget u.nextOp (startOp u b k).ops
    = some { wave := b.wk, flag := b.flag, slots := b.act, pc := b.pc, place := b.place, core := coreNo b.wk, ctx := ctxOf u b.wk, gang := gangOf u b.wk
             wait := none, kind := k } := by
  unfold startOp
  dsimp only
  split <;> exact sget_sput_self _ _ _

/-- A wave on one of whose flags an operation more counts. -/
def Wave.counted (flag : Option Nat) (w : Wave) : Wave := flag.elim w (fun n => w.setFlag n (w.flag n + 1))

theorem startOp_wave {u : State} {b : Bundle} {w : Wave} (k : OpKind) (hw : sget b.wk u.waves = some w) :
    sget b.wk (startOp u b k).waves = some (w.counted b.flag) := by
  unfold startOp
  dsimp only
  split
  · next hf => rw [hf]; exact hw
  · next n hf =>
    rw [hf, sget_modWave_self]
    exact congrArg (Option.map _) hw

/-- An operation that starts and ends leaves the flags. -/
theorem flag_unflag_counted (flag : Option Nat) (w : Wave) (n : Nat) : (Wave.unflag flag (w.counted flag)).flag n = w.flag n := by
  rw [flag_dropped]
  cases flag with
  | none => rfl
  | some k =>
    by_cases hk : k = n
    · subst hk
      simp [Wave.counted]
    · simp [Wave.counted, hk, flag_setFlag_ne (Ne.symm hk)]

theorem fibres_unflag_counted (flag : Option Nat) (w : Wave) : (Wave.unflag flag (w.counted flag)).fibres = w.fibres := by
  cases flag <;> rfl

theorem passed_v (w : Wave) (b : Bundle) (k : Nat) (y : Fibre) : (passed w b k y).v = y.v := by
  unfold passed Fibre.advance
  dsimp only
  split <;> rfl

theorem endIssue_ops (t : State) (b : Bundle) : (endIssue t b).ops = t.ops := by unfold endIssue; split <;> rfl

/-- The end of an issue leaves the flags and fibres of the bundle's wave. -/
theorem endIssue_wave_flags {t : State} {b : Bundle} {w : Wave} (h : sget b.wk t.waves = some w) :
    ∃ v, sget b.wk (endIssue t b).waves = some v ∧ (∀ n, v.flag n = w.flag n) ∧ v.fibres = w.fibres := by
  rw [endIssue_at, h]
  refine ⟨_, rfl, ?_⟩
  split <;> exact ⟨fun _ => rfl, rfl⟩

/-- A `tagpub` with a page to publish stays in flight. -/
theorem finishTagpub_open {u : State} {n : Nat} {o : Op} {parts : List (Nat × Nat × List Nat)} (ho : sget n u.ops = some o) (hk : o.kind = .tagpub parts)
    (hp : parts.all (fun p => p.2.2.isEmpty) = false) : finishTagpub u n = u := by
  unfold finishTagpub
  rw [ho]
  dsimp only
  rw [hk]
  dsimp only
  rw [hp]
  rfl

/-- A `tagpub` without a page ends: its flag's count falls, and it is gone. -/
theorem finishTagpub_closed {u : State} {n : Nat} {o : Op} {parts : List (Nat × Nat × List Nat)} (ho : sget n u.ops = some o) (hk : o.kind = .tagpub parts)
    (hp : parts.all (fun p => p.2.2.isEmpty) = true) :
    (finishTagpub u n).ops = sdel n u.ops ∧ (finishTagpub u n).waves = smod o.wave (Wave.unflag o.flag) u.waves := by
  unfold finishTagpub
  rw [ho]
  dsimp only
  rw [hk]
  dsimp only
  rw [if_pos hp, tagDrops_contexts]
  generalize (parts.foldl (fun s p => tagDrop s o.ctx p.2.1) u).contexts = cs
  rw [endOp_of (s := u.withContexts cs) ho]
  exact ⟨rfl, rfl⟩

theorem tagpubStarted_at (s : State) (z : Site) (g : Guard) (x : RT) : ∃ o, sget s.nextOp (tagpubStarted s z g x).ops = some o
    ∧ o.kind = .tagpub (z.parts s g x.va.toNat) ∧ o.wave = z.wk ∧ o.flag = (z.given g []).flag := by
  have hnext : (begun (pubHeld s z g x) z.w (z.bundle g) (.tagpub g x) z.f).nextOp = s.nextOp :=
    (congrArg State.nextOp (begun_rest (pubHeld s z g x) z.w (z.bundle g) (.tagpub g x) z.f) :)
  have hat := startOp_at (begun (pubHeld s z g x) z.w (z.bundle g) (.tagpub g x) z.f) (z.given g []) (.tagpub (z.parts s g x.va.toNat))
  rw [hnext] at hat
  exact ⟨_, hat, rfl, rfl, rfl⟩

/-- With a page to publish the operation is in flight, and every passing fibre holds the tag it names. -/
theorem tagpub_starts (h : Ready s (.tagpub g x) g .bundle z) (hc : sget (ctxOf s z.wk) s.contexts = some c) (ha : (z.bundle g).act ≠ [])
    (hn : NamesTags z g c x.va.toNat) (hp : ∃ p ∈ z.parts s g x.va.toNat, p.2.2 ≠ []) :
    ∃ t, exec (.tagpub g x) s = .next t
      ∧ Starts { s with contexts := t.contexts } t z.w (z.bundle g) z.c.header [] (fun _ y => y) (z.bundle g).act (.tagpub (z.parts s g x.va.toNat))
      ∧ sget (ctxOf s z.wk) t.contexts = some (((z.bundle g).act.map (z.held (Fibre.names x.va.toNat))).foldl Context.hold c)
      ∧ ∀ j, j ≠ ctxOf s z.wk → sget j t.contexts = sget j s.contexts := by
  have hall : (z.parts s g x.va.toNat).all (fun p => p.2.2.isEmpty) = false := by
    obtain ⟨p, hmem, hne⟩ := hp
    exact List.all_eq_false.2 ⟨p, hmem, by simpa using hne⟩
  obtain ⟨o, hat, hkind, -, -⟩ := tagpubStarted_at s z g x
  have hfinish : finishTagpub (tagpubStarted s z g x) s.nextOp = tagpubStarted s z g x := finishTagpub_open hat hkind hall
  have hcontexts : (endIssue (tagpubStarted s z g x) (z.bundle g)).contexts = (pubHeld s z g x).contexts := by
    rw [endIssue_contexts, tagpubStarted, startOp_contexts]
    rfl
  obtain ⟨hown, hother⟩ := tagHolds_contexts ((z.bundle g).act.map (z.held (Fibre.names x.va.toNat))) s c hc
  refine ⟨_, (tagpub_exec h hc ha hn).trans (by rw [hfinish]), ?_, by rw [hcontexts]; exact hown, by rw [hcontexts]; exact hother⟩
  rw [hcontexts]
  exact starts_of (s0 := pubHeld s z g x) h h.wave ha (by rw [form_is h rfl]; rfl) _

/-- Without a page to publish the instruction leaves no operation. -/
theorem tagpub_ends (h : Ready s (.tagpub g x) g .bundle z) (hc : sget (ctxOf s z.wk) s.contexts = some c) (ha : (z.bundle g).act ≠ [])
    (hn : NamesTags z g c x.va.toNat) (hp : ∀ p ∈ z.parts s g x.va.toNat, p.2.2 = []) :
    ∃ t, exec (.tagpub g x) s = .next t ∧ sget s.nextOp t.ops = none
      ∧ ∃ v, sget z.wk t.waves = some v ∧ (∀ n, v.flag n = z.w.flag n) ∧ ∀ k, (sget k v.fibres).map (fun y => y.v) = (sget k z.w.fibres).map (fun y => y.v) := by
  have hall : (z.parts s g x.va.toNat).all (fun p => p.2.2.isEmpty) = true := List.all_eq_true.2 fun p hmem => by rw [hp p hmem]; rfl
  obtain ⟨o, hat, hkind, hwave, hflag⟩ := tagpubStarted_at s z g x
  obtain ⟨hops, hwaves⟩ := finishTagpub_closed hat hkind hall
  have hbegun : sget z.wk (begun (pubHeld s z g x) z.w (z.bundle g) (.tagpub g x) z.f).waves = some (begunWave z.w (z.bundle g)) :=
    begun_wave (pubHeld s z g x) z.w (z.bundle g) _ z.f h.wave
  have hended : sget z.wk (finishTagpub (tagpubStarted s z g x) s.nextOp).waves
      = some (Wave.unflag (z.given g []).flag (Wave.counted (z.given g []).flag (begunWave z.w (z.bundle g)))) := by
    rw [hwaves, hwave, hflag, sget_smod_self, tagpubStarted, ← given_wk z g [], startOp_wave _ hbegun]
    rfl
  refine ⟨_, tagpub_exec h hc ha hn, ?_, ?_⟩
  · rw [endIssue_ops, hops, sget_sdel_self]
  · obtain ⟨v, hv, hflags, hfibres⟩ := endIssue_wave_flags (b := z.bundle g) hended
    refine ⟨v, hv, fun n => (hflags n).trans (flag_unflag_counted _ _ n), fun k => ?_⟩
    rw [hfibres, fibres_unflag_counted, begunWave_fibre, Option.map_map]
    exact congrArg (Option.map · (sget k z.w.fibres)) (funext fun y => by
      dsimp only [Function.comp_apply]
      split
      · exact passed_v ..
      · rfl)

end


/-! ### The obligation -/

/-- A context that differs by its tags and its queue. -/
theorem TagsRun.only {s : State} {i : Instr} {g : Guard} {z : Site} {c c' : Context} {out : List Nat} {fx : Nat → Fibre → Fibre}
    (h : TagsRun s i g z c' out fx) (hstill : c'.still = c.still) :
    ∃ t, exec i s = .next t ∧ (sget (ctxOf s z.wk) t.contexts = some c' ∧ { c' with tags := c.tags, waiters := c.waiters } = c
      ∧ ∀ j, j ≠ ctxOf s z.wk → sget j t.contexts = sget j s.contexts) ∧ Runs { s with contexts := t.contexts } t z.w (z.bundle g) out fx id := by
  obtain ⟨t, hx, hc, hother, hruns⟩ := h
  exact ⟨t, hx, ⟨hc, Context.eq_of_still hstill, hother⟩, hruns⟩

/-- Settles O31: the passing fibres take their turns at the tags of their context, in slot order. -/
theorem tagResults : Obligations.TagResults := by
  unfold Obligations.TagResults
  refine ⟨fun s g x => eachFibre rfl rfl rfl (F := fun _ _ f => f.setV x.va.toNat (f.ct.setWidth 32)) (fun _ _ => rfl) fun _ _ _ => rfl, ?_⟩
  intro s g x z c b ctx free named each tags live only took got served hc
  refine ⟨fun h => ?_, fun h => ?_, fun h hn => ?_, fun h hn => ?_, fun h hn => ?_, fun h ha hn => ?_⟩
  · obtain ⟨t, hx, honly, hruns⟩ := (tagnewTry_runs h hc).only (c := c) (foldl_context (fun c _ => by simp only [Context.still, Context.grant]) _ c)
    refine ⟨t, _, hx, honly, fun n => ?_, foldl_context (fun c _ => by simp only [Context.grant]) _ c, hruns⟩
    rw [tags_foldl fun c _ => grant_tags c, sget_iterate]
    rfl
  · obtain ⟨t, hx, honly, hruns⟩ := (tagnew_runs h hc).only (c := c) (foldl_context (ask_still z.wk) _ c)
    refine ⟨t, _, hx, honly, fun n => ?_, ?_, hruns⟩
    · rw [tags_foldl (ask_tags z.wk), sget_iterate]
      rfl
    · rw [ask_waiters, drop_eq_filter_idxOf (act_nodup z g)]
      rfl
  · obtain ⟨t, hx, honly, hruns⟩ := (tagret_runs h hc hn).only (c := c) (foldl_context (retire_still _) _ c)
    have htags : tags = (z.bundle g).act.map (z.held (Fibre.names x.va.toNat)) := theP_held z g _
    refine ⟨t, _, hx, honly, foldl_context (retire_waiters _) _ c, fun n => ?_, ?_⟩
    · rw [sget_retires, htags]
    · refine hruns.congr fun k hk y hy => ?_
      have hname : named x.va (passed z.w (z.bundle g) k y) = named x.va y := names_passed ..
      rw [liveIn_before, held_of hy, htags, hname]
      rfl
  · intro olds holds
    have htags : tags = (z.bundle g).act.map (z.held (Fibre.names x.va.toNat)) := theP_held z g _
    have hcount (n : Nat) : olds n = ((z.bundle g).act.map (z.held (·.ct.toNat))).count n := theP_count z g (·.ct.toNat) n
    obtain ⟨t, hx, honly, hruns⟩ := (tagset_runs h hc hn).only (c := c) (foldl_context (P := Context.still) (next := Context.move _ _) (fun _ _ => rfl) _ c)
    refine ⟨t, _, hx, honly, foldl_context (P := Context.waiters) (next := Context.move _ _) (fun _ _ => rfl) _ c, fun n => ?_, ?_⟩
    · rw [sget_moves _ _ n _ c fun e he => hcount n ▸ holds n e he, htags, hcount]
    · refine hruns.congr fun k hk y hy => ?_
      have hname : named x.va (passed z.w (z.bundle g) k y) = named x.va y := names_passed ..
      rw [held_of hy, hname]
      rfl
  · obtain ⟨t, hx, hruns⟩ := taggetInfo_runs h hc hn
    exact ⟨t, hx, hruns⟩
  · intro parts
    have htags : tags = (z.bundle g).act.map (z.held (Fibre.names x.va.toNat)) := theP_held z g _
    have hparts : parts = z.parts s g x.va.toNat :=
      (List.map_congr_left fun e he => by rw [held_of (mem_theP he).2]; rfl).trans
        (theP_map z g fun k => (k, z.held (Fibre.names x.va.toNat) k, (cellsOf s ctx (some (z.held (Fibre.names x.va.toNat) k))).map (·.2.1)))
    rw [hparts]
    by_cases hp : ∃ p ∈ z.parts s g x.va.toNat, p.2.2 ≠ []
    · obtain ⟨t, hx, hstarts, hown, hother⟩ := tagpub_starts h hc ha hn hp
      refine ⟨t, hx, fun _ => ⟨hstarts, _, ⟨hown, Context.eq_of_still (foldl_context (P := Context.still) (next := Context.hold) (fun _ _ => rfl) _ c), hother⟩,
        foldl_context (P := Context.waiters) (next := Context.hold) (fun _ _ => rfl) _ c, fun n => ?_⟩, fun hnone => ?_⟩
      · rw [sget_holds, htags]
      · obtain ⟨p, hmem, hne⟩ := hp
        exact absurd (hnone p hmem) hne
    · obtain ⟨t, hx, hends⟩ := tagpub_ends h hc ha hn fun p hmem => by
        by_contra hne
        exact hp ⟨p, hmem, hne⟩
      exact ⟨t, hx, fun hsome => absurd hsome hp, fun _ => hends⟩

end Sys2Proof.Machine
end
